-- ==== Sys2Proof/Word.lean ====
section
/-! DEFINITION. The machine's word types (R4, R10): a 64-bit register word, a byte, a halfword of code, and the
register-number types of the instruction formats (R43). -/

namespace Sys2Proof

/-- A 64-bit register or memory word. -/
abbrev Word := BitVec 64
/-- A byte of any memory (R4). -/
abbrev Byte := BitVec 8
/-- A halfword of code (R34). -/
abbrev Half := BitVec 16
/-- The number of an `s` register (R10). -/
abbrev SReg := BitVec 5
/-- The number of an `iv` register (R10). -/
abbrev IvReg := BitVec 4
/-- The number of a `p` register (R10). -/
abbrev PReg := BitVec 3
/-- The number of a `q` register (R10). -/
abbrev QReg := BitVec 3
/-- The number of a `k` register (R10). -/
abbrev KReg := BitVec 3
/-- The number of an `x` register (R10). -/
abbrev XReg := BitVec 3

end Sys2Proof
end

