-- ==== Sys2Proof/Syntax.lean ====
section
/-! DEFINITION. The instruction set as syntax: one constructor of `Instr` per row of spec/opcode_table.json. Rows with an
encoding carry the fields of their format (R39, R43); rows without one are the steps of the machine's other agents
(spec/95_what_each_step_holds.md); they carry no field, as the table gives them none. Constructors with fields stand first,
since Lean's runtime limits how many constructors may carry fields. -/

namespace Sys2Proof

/-! ### Codes of fields -/

/-- Element formats (R47); code 15 is reserved and has no constructor. -/
inductive Fmt where
  | i8 | i16 | i32 | i64 | n8 | n16 | n32 | f32 | bf16 | f16 | e4m3 | e5m2 | e2m1 | t2 | iv32
  deriving DecidableEq, Repr

/-- Rounding of a scalar float instruction, f[2:1] (R49): by `ctl.fpm`, or as encoded. -/
inductive FRound where
  | fpm | rne | rdn | rup
  deriving DecidableEq, Repr

/-- Precision of a scalar float instruction, f[0] (R87). -/
inductive Prec where
  | f32 | f64
  deriving DecidableEq, Repr

/-- Conditions of `CMP` (R84). -/
inductive CmpCond where
  | eq | ne | lt | le | ltn | len | bits
  deriving DecidableEq, Repr

/-- Conditions of `CMPI` (R84). -/
inductive CmpiCond where
  | eq | ne | lt | ltn
  deriving DecidableEq, Repr

/-- Operations of `QOP` (R85) with the predicates each reads. -/
inductive QOp where
  | and (a b : QReg) | or (a b : QReg) | not (a : QReg) | xor (a b : QReg) | known (a : QReg) | mov (a : QReg)
  | sett | setf | setu
  deriving DecidableEq, Repr

/-- Modes of `FSGN` (R90). -/
inductive SgnMode where
  | cp | neg | xor
  deriving DecidableEq, Repr

/-- Conditions of `FCMP` (R91). -/
inductive FCond where
  | eq | lt | le | un
  deriving DecidableEq, Repr

/-- Conditions of `ICMP` (R145) with the second operand and its mark where the condition reads one. -/
inductive ICond where
  | lt (b : IvReg) (lb : Bool) | le (b : IvReg) (lb : Bool) | eq (b : IvReg) (lb : Bool)
  | sub (b : IvReg) (lb : Bool) | dis (b : IvReg) (lb : Bool) | emp
  deriving DecidableEq, Repr

/-- Conditions of `BQ` (R96). -/
inductive BqCond where
  | t | f | u | nt
  deriving DecidableEq, Repr

/-- Conditions of `VCMP` (R125). -/
inductive VCond where
  | eq | ne | lt | le
  deriving DecidableEq, Repr

/-- Functions of `VRED` (R127). -/
inductive VRedFn where
  | add | min | max | and | or | xor
  deriving DecidableEq, Repr

/-- Functions of `AMO` (R264). -/
inductive AmoFn where
  | add | and | or | xor | min | max | swap | fadd
  deriving DecidableEq, Repr

/-- Functions of `RED` (R266). -/
inductive RedFn where
  | add | and | or | xor | min | max | fadd
  deriving DecidableEq, Repr

/-- Scopes of `FENCE.S` (R269). -/
inductive FScope where
  | core | sg | die | pkg
  deriving DecidableEq, Repr

/-- Conversion codes 0-25 of `CVT` (R92); the name gives source then destination. -/
inductive CvtCode where
  | f32f64 | f64f32 | f32f16 | f16f32 | f32bf16 | bf16f32 | f32e4m3 | e4m3f32 | f32e5m2 | e5m2f32 | f32e2m1 | e2m1f32
  | f64i64 | f64n64 | f32i32 | f32n32 | i64f64 | n64f64 | i64f32 | n64f32
  | i64i32 | i64i16 | i64i8 | i64n32 | i64n16 | i64n8
  deriving DecidableEq, Repr

/-- The forms of `CVT` (R92): a conversion, or one of the register moves of codes 26-31. -/
inductive CvtForm where
  /-- Codes 0-25. -/
  | conv (c : CvtCode) (r : FRound) (d a : SReg) (la : Bool)
  /-- Code 26. -/
  | toP (d : PReg) (a : SReg) (la : Bool)
  /-- Code 27. -/
  | ofP (d : SReg) (a : PReg)
  /-- Codes 28 (`hi = false`) and 29. -/
  | toK (hi : Bool) (d : KReg) (a : SReg) (la : Bool)
  /-- Codes 30 (`hi = false`) and 31. -/
  | ofK (hi : Bool) (d : SReg) (a : KReg)
  deriving DecidableEq, Repr

/-- Tile transposition of `MLOAD` (R211, R214). -/
inductive TileTr where
  | none | tr8 | tr16
  deriving DecidableEq, Repr

/-- Modes of `TLBI` (R452). -/
inductive TlbiMode where
  | va | unl | all
  deriving DecidableEq, Repr

/-- The register an `RFILL` (R190) or a `WAITF` (R192) names: an `s` or an `iv` register. -/
inductive FillReg where
  | s (n : SReg) | iv (n : IvReg)
  deriving DecidableEq, Repr

/-! ### Operand records of the formats (R39, R43) -/

/-- Format A: `d`, `a`. -/
structure OpA where
  d : SReg
  a : SReg
  deriving DecidableEq, Repr

/-- Format RRR with two marked sources. -/
structure OpRRR where
  d : SReg
  a : SReg
  b : SReg
  la : Bool
  lb : Bool
  deriving DecidableEq, Repr

/-- Format RRR with one marked source. -/
structure OpRR where
  d : SReg
  a : SReg
  la : Bool
  deriving DecidableEq, Repr

/-- Format RRI. -/
structure OpRRI where
  d : SReg
  a : SReg
  la : Bool
  imm : BitVec 9
  deriving DecidableEq, Repr

/-- Format RRI for the shifts by an immediate count (R82). -/
structure OpShift where
  d : SReg
  a : SReg
  la : Bool
  cnt : BitVec 6
  deriving DecidableEq, Repr

/-- A scalar float instruction of two sources (R87). -/
structure OpF2 where
  d : SReg
  a : SReg
  b : SReg
  la : Bool
  lb : Bool
  prec : Prec
  r : FRound
  deriving DecidableEq, Repr

/-- Format M (R43) for an `s` register. -/
structure OpM where
  t : SReg
  a : SReg
  la : Bool
  off : BitVec 9
  deriving DecidableEq, Repr

/-- Format M for an `iv` register. -/
structure OpMIv where
  t : IvReg
  a : SReg
  la : Bool
  off : BitVec 9
  deriving DecidableEq, Repr

/-- Format LW (R43). -/
structure OpLW where
  d : SReg
  a : SReg
  lim : BitVec 10
  deriving DecidableEq, Repr

/-- Format V (R43): rows `pd`, `pa`, `pb`, the format, the mask and the three increment flags. -/
structure OpV where
  pd : PReg
  pa : PReg
  pb : PReg
  fmt : Fmt
  k : KReg
  incD : Bool
  incA : Bool
  incB : Bool
  deriving DecidableEq, Repr

/-- Format V without `pb`. -/
structure OpV1 where
  pd : PReg
  pa : PReg
  fmt : Fmt
  k : KReg
  incD : Bool
  incA : Bool
  deriving DecidableEq, Repr

/-- Format V of an interval instruction: the format is `.iv32` (R151). -/
structure OpVI where
  pd : PReg
  pa : PReg
  pb : PReg
  k : KReg
  incD : Bool
  incA : Bool
  incB : Bool
  deriving DecidableEq, Repr

/-- Format VS with both pointers. -/
structure OpVS where
  pd : PReg
  pa : PReg
  s : SReg
  la : Bool
  fmt : Fmt
  k : KReg
  inc : Bool
  deriving DecidableEq, Repr

/-- Format VS without `pa` (`VBCAST`, `VLD`, `VST`). -/
structure OpVS1 where
  pd : PReg
  s : SReg
  la : Bool
  fmt : Fmt
  k : KReg
  inc : Bool
  deriving DecidableEq, Repr

/-- Format IV, binary. -/
structure OpIV2 where
  d : IvReg
  a : IvReg
  b : IvReg
  la : Bool
  lb : Bool
  deriving DecidableEq, Repr

/-- Format IV, unary. -/
structure OpIV1 where
  d : IvReg
  a : IvReg
  la : Bool
  deriving DecidableEq, Repr

/-- Format IC, binary relation. -/
structure OpIC3 where
  x : IvReg
  y : IvReg
  z : IvReg
  lz : Bool
  deriving DecidableEq, Repr

/-- Format IC, unary relation. -/
structure OpIC2 where
  x : IvReg
  z : IvReg
  lz : Bool
  deriving DecidableEq, Repr

/-- An instruction that writes an `s` register from an interval (R142). -/
structure OpSIv where
  d : SReg
  a : IvReg
  la : Bool
  deriving DecidableEq, Repr

/-- Two marked `s` sources of a stream command (R353). -/
structure OpSS where
  a : SReg
  la : Bool
  b : SReg
  lb : Bool
  deriving DecidableEq, Repr

/-- One step of the Stotum: an instruction of a strand, or a step of another agent. One constructor per row of
spec/opcode_table.json (FENCE.S, GUNB and MROT have one per value of their one small operand). -/
inductive Instr where
  -- 0x00-0x1F (R76-R81)
  | add (o : OpRRR) | sub (o : OpRRR) | mul (o : OpRRR) | mulh (o : OpRRR) | mulhn (o : OpRRR)
  | div (o : OpRRR) | divn (o : OpRRR) | rem (o : OpRRR) | remn (o : OpRRR)
  | and (o : OpRRR) | or (o : OpRRR) | xor (o : OpRRR) | andn (o : OpRRR)
  | shl (o : OpRRR) | shr (o : OpRRR) | sar (o : OpRRR) | rol (o : OpRRR)
  | min (o : OpRRR) | max (o : OpRRR) | minn (o : OpRRR) | maxn (o : OpRRR)
  | clz (o : OpRR) | ctz (o : OpRR) | popc (o : OpRR) | brev (o : OpRR) | bswap (o : OpRR)
  | bfx (o : OpRRR) | bfxn (o : OpRRR) | bfi (o : OpRRR) | fsh (o : OpRRR)
  | sel (o : OpRRR) (q : QReg) | mov (o : OpRR)
  -- 0x20-0x2D (R82-R86)
  | addi (o : OpRRI) | andi (o : OpRRI) | ori (o : OpRRI) | xori (o : OpRRI)
  | shli (o : OpShift) | shri (o : OpShift) | sari (o : OpShift)
  | movi (d : SReg) (imm : BitVec 15) | movh (d : SReg) (imm : BitVec 15)
  | cmp (c : CmpCond) (qd : QReg) (a b : SReg) (la lb : Bool)
  | cmpi (c : CmpiCond) (qd : QReg) (a : SReg) (la : Bool) (imm : BitVec 9)
  | qop (qd : QReg) (op : QOp) | qtos (d : SReg) (q : QReg) | stoq (qd : QReg) (a : SReg) (la : Bool)
  -- 0x30-0x3B (R87-R94)
  | fadd (o : OpF2) | fsub (o : OpF2) | fmul (o : OpF2) | ffma (o : OpF2) | fdiv (o : OpF2)
  | fsqrt (o : OpRR) (prec : Prec) (r : FRound)
  | fmin (o : OpRRR) (prec : Prec) | fmax (o : OpRRR) (prec : Prec) | fsgn (o : OpRRR) (prec : Prec) (m : SgnMode)
  | fcmp (c : FCond) (prec : Prec) (qd : QReg) (a b : SReg) (la lb : Bool)
  | cvt (f : CvtForm) | fclass (o : OpRR) (prec : Prec)
  -- 0x40-0x5F (R140-R150)
  | imake (d : IvReg) (a b : SReg) (la lb : Bool) | ilo (o : OpSIv) | ihi (o : OpSIv)
  | iadd (o : OpIV2) | isub (o : OpIV2) | imul (o : OpIV2) | idiv (o : OpIV2)
  | isqr (o : OpIV1) | isqrt (o : OpIV1) | iexp (o : OpIV1) | ilog (o : OpIV1) | irelu (o : OpIV1)
  | imin (o : OpIV2) | imax (o : OpIV2) | ihull (o : OpIV2) | imeet (o : OpIV2)
  | iwid (o : OpSIv) | imid (o : OpSIv)
  | icmp (c : ICond) (qd : QReg) (a : IvReg) (la : Bool)
  | imov (o : OpIV1) | iscale (d a : IvReg) (b : SReg) (la lb : Bool) | npq (qd : QReg)
  | cadd (o : OpIC3) | csub (o : OpIC3) | cmul (o : OpIC3) | cdiv (o : OpIC3)
  | csqr (o : OpIC2) | cexp (o : OpIC2) | crelu (o : OpIC2) | cmax (o : OpIC3)
  -- 0x60-0x6A (R95-R102)
  | br (off : BitVec 20) | call (off : BitVec 20)
  | jr (a : SReg) (la : Bool) (imm : BitVec 9) | callr (a : SReg) (la : Bool) (imm : BitVec 9)
  | bq (c : BqCond) (q : QReg) (off : BitVec 15) | loop (d : SReg) (off : BitVec 15)
  | trap (imm : BitVec 15) | setvl (d a : SReg) (la : Bool) (imm : BitVec 9)
  | rdid (d : SReg) (idx : BitVec 15) | rdctl (d : SReg) (idx : BitVec 15) | wrctl (d : SReg) (idx : BitVec 15)
  -- 0x70-0x7F (R103, R186-R196)
  | ldsB (o : OpM) | ldsH (o : OpM) | ldsW (o : OpM) | ldsD (o : OpM)
  | stsB (o : OpM) | stsH (o : OpM) | stsW (o : OpM) | stsD (o : OpM)
  | tlds (o : OpLW) | tsts (o : OpLW) | tstr (a : SReg)
  | rfill (d : FillReg) (a : SReg) (la : Bool) (b : FillReg) (lb : Bool)
  | waitf (r : FillReg) (lim : BitVec 10)
  | barOr (qd qa : QReg) | barNp (qd : QReg)
  | xset (x : XReg) (a : SReg) (la : Bool) | xget (d : SReg) (x : XReg)
  -- 0x80-0x97 (R252-R272)
  | ldB (o : OpM) | ldH (o : OpM) | ldW (o : OpM) | ldD (o : OpM) | ldAcq (o : OpM) | ldw (o : OpLW)
  | stB (o : OpM) | stH (o : OpM) | stW (o : OpM) | stD (o : OpM) | stRel (o : OpM)
  | ild (o : OpMIv) | ist (o : OpMIv)
  | amo (fn : AmoFn) (o : OpRRR) | cas (o : OpRRR) | red (fn : RedFn) (a b : SReg) (la lb : Bool)
  | vld (o : OpVS1) | vst (o : OpVS1)
  | migr (a : SReg) (la : Bool) | bwant (a : SReg) (la : Bool) | bkeep (a : SReg) (la : Bool) | bfree (a : SReg) (la : Bool)
  | bcopy (a b : SReg) (la lb : Bool) | bcopyZero (a : SReg) (la : Bool)
  -- 0xA0-0xBE (R109-R135)
  | vadd (o : OpV) (sat : Bool) | vsub (o : OpV) (sat : Bool) | vmul (o : OpV) (sat : Bool)
  | vfma (o : OpV) | vmin (o : OpV) | vmax (o : OpV) | vand (o : OpV) | vor (o : OpV) | vxor (o : OpV)
  | vshl (o : OpV) | vshr (o : OpV) | vsar (o : OpV) | vabs (o : OpV1) | vneg (o : OpV1)
  | vcvt (o : OpV1) (dst : Fmt) | vsel (o : OpV)
  | vcmp (c : VCond) (kd : KReg) (pa pb : PReg) (fmt : Fmt) (k : KReg) (incA incB : Bool)
  | vred (fn : VRedFn) (d : SReg) (pa : PReg) (fmt : Fmt) (k : KReg) (inc : Bool)
  | vdot (d : SReg) (pa pb : PReg) (fmt : Fmt) (k : KReg) (inc : Bool)
  | vbcast (o : OpVS1) | vadds (o : OpVS) | vmuls (o : OpVS) | vperm (o : OpV) | vmov (o : OpV1)
  | vbdot (pd pa pb : PReg) (fmt : Fmt) (bs : BitVec 2) (incD incA incB : Bool)
  | vscacc (o : OpV) | vscomb (o : OpV) | vexp (o : OpV1) | vrcp (o : OpV1) | vrsq (o : OpV1) | vtanh (o : OpV1)
  -- 0xC0-0xCA (R151-R156)
  | viadd (o : OpVI) | visub (o : OpVI) | vimul (o : OpVI)
  | virelu (pd pa : PReg) (k : KReg) (incD incA : Bool)
  | vihull (o : OpVI) | vimeet (o : OpVI)
  | vidot (d : IvReg) (pa pb : PReg) (k : KReg) (inc : Bool)
  | vimake (o : OpVI) | vcadd (o : OpVI) | vcmul (o : OpVI)
  | vcrelu (px pz : PReg) (k : KReg) (incX incZ : Bool)
  -- 0xD0-0xD6 (R211)
  | mclaim (slot : BitVec 6) (n1 : BitVec 4) (lim : BitVec 10) | mrelease (slot : BitVec 6) (n1 : BitVec 4)
  | mload (slot : BitVec 6) (a : SReg) (la : Bool) (fmt : Fmt) (tr : TileTr)
  | mstore (d : SReg) (slot : BitVec 6) (a : SReg) (fmt : Fmt)
  | mzero (slot : BitVec 6) (int : Bool)
  | mma (c a b : BitVec 6) (new : Bool)
  -- 0xE0-0xEA (R318-R333, R421)
  | cpy (x : XReg) | cpyG (x : XReg) | gwin (w : BitVec 3) (x : XReg)
  | rdef (r : BitVec 4) (x : XReg) | rdefOff (r : BitVec 4)
  | rpostD (r : BitVec 4) (a : SReg) (la : Bool) | rpostF (r : BitVec 4) (a : SReg) (la : Bool)
  | rtakeD (d : SReg) (r : BitVec 4) (lim : BitVec 10) | rtakeF (d : SReg) (r : BitVec 4) (lim : BitVec 10)
  | qfence (before after : BitVec 4) | qwait (set : BitVec 4) (lim : BitVec 10) | ckpt (off : BitVec 20)
  | wpost (x : XReg) | wpostG (x : XReg) | wwait (a b : SReg) (lim : BitVec 10)
  -- 0xF0-0xF5 (R353)
  | sbindS (a : SReg) (la : Bool) (x : XReg) | sbindW (a : SReg) (la : Bool) (x : XReg)
  | sbindOffS (a : SReg) (la : Bool) | sbindOffW (a : SReg) (la : Bool)
  | semit (o : OpSS) | swm (o : OpSS) | sidle (a : SReg) (la : Bool) | spub (o : OpSS)
  | sread (d a : SReg) (la : Bool)
  -- 0xF8-0xFC (R452)
  | tlbw (x : XReg) (a : SReg) | tlbi (a b : SReg) (m : TlbiMode)
  | privctlRd (d a : SReg) | privctlWr (a b : SReg) | halt (a : SReg)
  -- 16-bit instructions (R40)
  | mov16 (o : OpA) | add16 (o : OpA) | sub16 (o : OpA) | and16 (o : OpA) | or16 (o : OpA) | xor16 (o : OpA)
  | shl16 (o : OpA) | shr16 (o : OpA) | sar16 (o : OpA) | lds16 (o : OpA) | sts16 (o : OpA) | take (o : OpA)
  | movi16 (d : SReg) (imm : BitVec 5) | addi16 (d : SReg) (imm : BitVec 5)
  | shli16 (d : SReg) (cnt : BitVec 4) | shri16 (d : SReg) (cnt : BitVec 4) | sari16 (d : SReg) (cnt : BitVec 4)
  | andi16 (d : SReg) (imm : BitVec 5) | ldsSp (d : SReg) (imm : BitVec 5) | stsSp (d : SReg) (imm : BitVec 5)
  | brS (off : BitVec 10) | callS (off : BitVec 10)
  | bqt (q : QReg) (off : BitVec 7) | bqf (q : QReg) (off : BitVec 7) | bqu (q : QReg) (off : BitVec 7)
  | empty (n : SReg) | qwait16 (set : BitVec 4)
  -- the SYS group without operands (R42)
  | nop | ret | exit | yield | bar | waitred | fence | npclr | upret | upretSkip | snap | snapt
  -- FENCE.S by scope (R269), GUNB by window (R322), MROT by x register (R219): one constructor per operand value
  -- (DESIGN CHOICE, log 10)
  | fenceSCore | fenceSSg | fenceSDie | fenceSPkg
  | gunb0 | gunb1 | gunb2 | gunb3 | gunb4 | gunb5 | gunb6 | gunb7
  | mrot0 | mrot1 | mrot2 | mrot3 | mrot4 | mrot5 | mrot6 | mrot7
  -- Steps of other agents. What such a step concerns (a request, a home, a core, written data) is `Machine.State.arg`.
  -- resets, power and observation (R441-R450)
  | powerOnReset | pkgRstWarm | pkgRstCold
  /-- Training ends, well or not (R443). -/
  | trainingComplete
  /-- The host writes a nonce and requests a quote (R445). -/
  | attestationRequest
  /-- One Thermidor step of a die (R447). -/
  | thermidorStep
  | criticalTemperature | thermalStop | pkgIrqClear | pkgPreemptWrite | pkgSnapTrigger
  /-- A write to a BAR 0 register that has no row of its own (R446). -/
  | registerWrite
  | dspLostRead | dspCcntRead | hsEccRead | hsEvtRead | hsChkRead | suCntRead
  | fabLostRead | fabRefusedRead | fabCnoteRead | hsElideWrite | hsCksetWrite
  -- host, migration unit and fabric (R410-R426)
  | migrationStart | migrationSlotFree
  /-- The next unit of a migration copy (R415). -/
  | migrationUnit
  | windowRegister | windowUnregister | hostMemoryRead | hostMemoryWrite | ingressRecordWrite
  | ingressWatermarkWrite | ingressIdleWrite | hostLinkDown | dieEdgeFailure | portDown | portRetrain
  | fabricPutArrival | fabricAckArrival | fabricUnitTimeout
  /-- A request for one row of an inbound window (R423). -/
  | fabricGetRequest
  /-- The answer to an outstanding get unit (R423). -/
  | fabricGetUnitArrival
  | containmentNotice
  -- dispatcher (R163-R182)
  | statusStore | predUpdate | placementPass | strandStart | gangComplete | triggerFire
  | slotLoad | quantumYield | rotModeSwitch | barrierRelease
  -- replies, fills and expiries
  | replyFill | rfillArrival | registerWaitExpiry | heldFillExpiry | taggedRequestArrival | taggedWaitExpiry
  | ldwExpiry | rtakeExpiry | qwaitExpiry | mclaimExpiry | wwaitExpiry | heldAccessExpiry
  -- homes and translation (R224-R251, R454)
  | remoteRequestArrival | ackArrival | migrationArrival | stewardFetchStart | blockArrival | writebackEnd
  | blockEvict | transitIdleEvict | overflowMove | patrolFetch | refreshDue | refreshPullForward | fetchReturn
  | tlbMissWalk | missReply | shootdown | spanClose | waitWithdrawal
  -- engines (R313-R331, R204-R219)
  | engineCommandStart | engineUnit | engineCommandComplete | remoteSpWrite | vldRowWrite | arrayOpComplete
  | mrotTileArrival | containRetryResume
  -- pre-emption (R392-R398)
  | saveStart | saveComplete | preemptLapse
  -- streams (R340-R352)
  | streamRecord | sourceWatermark | sourceIdle | idleTimeout | derivedRaise | amendHoldExpiry | stateNotice
  /-- Halfwords that are no instruction (R50, R51). -/
  | undefinedEncoding
  | hostLinkTraining
  /-- A signed life-cycle command (R442, R444). -/
  | lifeCycleCommand
  deriving DecidableEq, Repr

end Sys2Proof
end

