-- ==== Sys2Proof/WellFormed.lean ====
section
/-! DEFINITION. Well-formed instructions: the checks of R51 step 8 that the types of the fields do not already make
(an out-of-range code or register field, R44, R47, R49). The decoder answers only well-formed instructions. -/

namespace Sys2Proof

/-- INT of R112. -/
def Fmt.isInt : Fmt → Bool
  | .i8 | .i16 | .i32 | .i64 | .n8 | .n16 | .n32 => true
  | _ => false

/-- FLT of R112. -/
def Fmt.isFlt : Fmt → Bool
  | .f32 | .bf16 | .f16 => true
  | _ => false

/-- NAR of R112. -/
def Fmt.isNar : Fmt → Bool
  | .e4m3 | .e5m2 | .e2m1 | .t2 => true
  | _ => false

/-- INT or FLT (R112): the formats of the element-wise arithmetic. -/
def Fmt.isArith (f : Fmt) : Bool := f.isInt || f.isFlt

/-- The formats of `VPERM` (R112). -/
def Fmt.permOk : Fmt → Bool
  | .i16 | .i32 | .i64 | .n16 | .n32 | .f32 | .bf16 | .f16 | .iv32 => true
  | _ => false

/-- The formats of `VDOT` (R112). -/
def Fmt.dotOk (f : Fmt) : Bool := f.isArith || f == .e4m3 || f == .e5m2

/-- The formats of `VBDOT` (R112). -/
def Fmt.bdotOk : Fmt → Bool
  | .i8 | .bf16 | .f16 | .e4m3 | .e5m2 | .e2m1 | .t2 => true
  | _ => false

/-- The formats of `VSCOMB` (R112). -/
def Fmt.scombOk : Fmt → Bool
  | .f32 | .bf16 | .e4m3 | .e5m2 => true
  | _ => false

/-- The formats of either side of a `VCVT` (R112, R126). -/
def Fmt.cvtOk (f : Fmt) : Bool := f.isInt || f.isFlt || f.isNar

/-- The formats of `MLOAD` (R214). -/
def Fmt.tileOk : Fmt → Bool
  | .i8 | .i32 | .f32 | .bf16 | .f16 | .e4m3 | .e5m2 | .e2m1 | .t2 => true
  | _ => false

/-- The transpositions of `MLOAD` that a format allows (R214). -/
def TileTr.ok : TileTr → Fmt → Bool
  | .none, _ => true
  | .tr8, f => f == .i8 || f == .e4m3 || f == .e5m2
  | .tr16, f => f == .bf16 || f == .f16

/-- Whether a conversion code rounds (R92): only then may it carry a rounding mode. -/
def CvtCode.rounds : CvtCode → Bool
  | .f64f32 | .f32f16 | .f32bf16 | .f32e4m3 | .f32e5m2 | .f32e2m1
  | .f64i64 | .f64n64 | .f32i32 | .f32n32 | .i64f64 | .n64f64 | .i64f32 | .n64f32 => true
  | _ => false

/-- Whether two registers of an `RFILL` are of one class (R190). -/
def FillReg.sameClass : FillReg → FillReg → Bool
  | .s _, .s _ | .iv _, .iv _ => true
  | _, _ => false

/-- The indices that `RDCTL` and `WRCTL` name (R29). -/
def ctlIndexOk (i : Nat) : Bool := decide (i ≤ 13) || (decide (16 ≤ i) && decide (i ≤ 20))

/-- The checks of R51 step 8 on an instruction; a step of another agent has none. -/
def Instr.wf : Instr → Bool
  | .cvt (.conv c r _ _ _) => c.rounds || r == .fpm
  | .loop d _ => d != 0
  | .rdid _ i => decide (i.toNat ≤ 18)
  | .rdctl _ i | .wrctl _ i => ctlIndexOk i.toNat
  | .rfill d _ _ b _ => d.sameClass b
  | .vadd o sat | .vsub o sat | .vmul o sat => o.fmt.isArith && (!sat || o.fmt.isInt)
  | .vfma o | .vmin o | .vmax o => o.fmt.isArith
  | .vshl o | .vshr o | .vsar o => o.fmt.isInt
  | .vabs o | .vneg o => o.fmt.isArith
  | .vcvt o dst => o.fmt.cvtOk && dst.cvtOk && o.fmt != dst
  | .vcmp _ _ _ _ f _ _ _ => f.isArith
  | .vred _ _ _ f _ _ => f.isArith
  | .vdot _ _ _ f _ _ => f.dotOk
  | .vadds o | .vmuls o => o.fmt.isArith
  | .vperm o => o.fmt.permOk
  | .vbdot _ _ _ f _ _ _ _ => f.bdotOk
  | .vscacc o => o.fmt == .f32
  | .vscomb o => o.fmt.scombOk
  | .vexp o | .vrcp o | .vrsq o | .vtanh o => o.fmt.isFlt
  | .mclaim slot n1 _ | .mrelease slot n1 => decide (slot.toNat + n1.toNat ≤ 63)
  | .mload _ _ _ f tr => f.tileOk && tr.ok f
  | .mstore _ _ _ f => f != .iv32
  | .cpy x | .cpyG x | .wpost x | .wpostG x | .tlbw x _ => decide (x.toNat ≤ 5)
  | .gwin _ x | .rdef _ x | .sbindS _ _ x => decide (x.toNat ≤ 6)
  | .sbindW _ _ x => decide (x.toNat ≤ 4)
  | .sread d _ _ => decide (1 ≤ d.toNat) && decide (d.toNat ≤ 30)
  | _ => true

/-- Whether a constructor is an instruction with an encoding (spec/opcode_table.json rows 0-258); the other rows are
steps of other agents. -/
def Instr.encoded : Instr → Bool
  | .powerOnReset | .pkgRstWarm | .pkgRstCold | .trainingComplete | .attestationRequest | .thermidorStep
  | .criticalTemperature | .thermalStop | .pkgIrqClear | .pkgPreemptWrite | .pkgSnapTrigger | .registerWrite
  | .dspLostRead | .dspCcntRead | .hsEccRead | .hsEvtRead | .hsChkRead | .suCntRead | .fabLostRead | .fabRefusedRead
  | .fabCnoteRead | .hsElideWrite | .hsCksetWrite | .migrationStart | .migrationSlotFree | .migrationUnit
  | .windowRegister | .windowUnregister | .hostMemoryRead | .hostMemoryWrite | .ingressRecordWrite
  | .ingressWatermarkWrite | .ingressIdleWrite | .hostLinkDown | .dieEdgeFailure | .portDown | .portRetrain
  | .fabricPutArrival | .fabricAckArrival | .fabricUnitTimeout | .fabricGetRequest | .fabricGetUnitArrival
  | .containmentNotice | .statusStore | .predUpdate | .placementPass | .strandStart | .gangComplete | .triggerFire
  | .slotLoad | .quantumYield | .rotModeSwitch | .barrierRelease | .replyFill | .rfillArrival | .registerWaitExpiry
  | .heldFillExpiry | .taggedRequestArrival | .taggedWaitExpiry | .ldwExpiry | .rtakeExpiry | .qwaitExpiry
  | .mclaimExpiry | .wwaitExpiry | .heldAccessExpiry | .remoteRequestArrival | .ackArrival | .migrationArrival
  | .stewardFetchStart | .blockArrival | .writebackEnd | .blockEvict | .transitIdleEvict | .overflowMove
  | .patrolFetch | .refreshDue | .refreshPullForward | .fetchReturn | .tlbMissWalk | .missReply | .shootdown
  | .spanClose | .waitWithdrawal | .engineCommandStart | .engineUnit | .engineCommandComplete | .remoteSpWrite
  | .vldRowWrite | .arrayOpComplete | .mrotTileArrival | .containRetryResume | .saveStart | .saveComplete
  | .preemptLapse | .streamRecord | .sourceWatermark | .sourceIdle | .idleTimeout | .derivedRaise | .amendHoldExpiry
  | .stateNotice | .undefinedEncoding | .hostLinkTraining | .lifeCycleCommand => false
  | _ => true

end Sys2Proof
end

