-- ==== Sys2Proof/Decode.lean ====
section
/-! DEFINITION. The decoder of R34-R52 (total on any halfwords, rejecting by name) and, after it, the encoder written from
the same tables. A 32-bit instruction is decoded from its 28-bit payload P (R35), field by field as R43 and R49 place
them. -/

namespace Sys2Proof

/-! ### Why halfwords are no instruction -/

/-- The failing check of R51 when halfwords are no instruction. -/
inductive DecodeErr where
  /-- R51 step 3: the first halfword is a continuation (fault 0x02). -/
  | continuation
  /-- R51 step 5: a head that no continuation follows (fault 0x01). -/
  | noContinuation
  /-- R51 step 6: an unassigned opcode or `SYS` sub-operation (fault 0x01). -/
  | unassigned
  /-- R51 step 8: a nonzero reserved field, or a code or register field out of range (fault 0x01, after step 7 for a
  system-only opcode). -/
  | reserved
  deriving DecidableEq, Repr

/-! ### Fields -/

/-- Bits `lo + w - 1 : lo` of a payload or halfword. -/
def fld (p lo w : Nat) : BitVec w := BitVec.ofNat w (p / 2 ^ lo)

/-- The same bits as a number. -/
def fldN (p lo w : Nat) : Nat := p / 2 ^ lo % 2 ^ w

/-- Bit `n`. -/
def bitB (p n : Nat) : Bool := p / 2 ^ n % 2 == 1

/-- A reserved field is zero (R8, R44). -/
def isZero (p lo w : Nat) : Bool := fldN p lo w == 0

/-- An instruction whose reserved fields are zero, or the failure of R51 step 8. -/
def okIf (c : Bool) (i : Instr) : Except DecodeErr Instr := if c then .ok i else .error .reserved

/-! ### Codes -/

/-- Element format of a code (R47). -/
def fmtOf : Nat → Option Fmt
  | 0 => some .i8 | 1 => some .i16 | 2 => some .i32 | 3 => some .i64 | 4 => some .n8 | 5 => some .n16 | 6 => some .n32
  | 7 => some .f32 | 8 => some .bf16 | 9 => some .f16 | 10 => some .e4m3 | 11 => some .e5m2 | 12 => some .e2m1
  | 13 => some .t2 | 14 => some .iv32 | _ => none

/-- Code of an element format (R47). -/
def Fmt.code : Fmt → Nat
  | .i8 => 0 | .i16 => 1 | .i32 => 2 | .i64 => 3 | .n8 => 4 | .n16 => 5 | .n32 => 6 | .f32 => 7 | .bf16 => 8 | .f16 => 9
  | .e4m3 => 10 | .e5m2 => 11 | .e2m1 => 12 | .t2 => 13 | .iv32 => 14

/-- Continues with an element format, or fails R51 step 8 on code 15 (R47). -/
def withFmt (c : Nat) (k : Fmt → Except DecodeErr Instr) : Except DecodeErr Instr :=
  match fmtOf c with
  | some f => k f
  | none => .error .reserved

/-- f[0] of a scalar float instruction (R87). -/
def precOf (b : Bool) : Prec := if b then .f64 else .f32
/-- The code of a precision (R87). -/
def Prec.code : Prec → Nat
  | .f32 => 0 | .f64 => 1
/-- f[2:1] of a scalar float instruction (R49). -/
def roundOf : Nat → FRound
  | 0 => .fpm | 1 => .rne | 2 => .rdn | _ => .rup
/-- The code of a rounding field (R49). -/
def FRound.code : FRound → Nat
  | .fpm => 0 | .rne => 1 | .rdn => 2 | .rup => 3

/-- `FENCE.S` of a scope (R269). -/
def fenceOf : FScope → Instr
  | .core => .fenceSCore | .sg => .fenceSSg | .die => .fenceSDie | .pkg => .fenceSPkg
/-- `GUNB` of a window (R322). -/
def gunbOf (w : BitVec 3) : Instr :=
  match w.toNat with
  | 0 => .gunb0 | 1 => .gunb1 | 2 => .gunb2 | 3 => .gunb3 | 4 => .gunb4 | 5 => .gunb5 | 6 => .gunb6 | _ => .gunb7
/-- `MROT` of an `x` register (R219). -/
def mrotOf (x : XReg) : Instr :=
  match x.toNat with
  | 0 => .mrot0 | 1 => .mrot1 | 2 => .mrot2 | 3 => .mrot3 | 4 => .mrot4 | 5 => .mrot5 | 6 => .mrot6 | _ => .mrot7

/-! ### Formats (R43) -/

/-- Format RRR. -/
def dRRR (p : Nat) : OpRRR := ⟨fld p 15 5, fld p 10 5, fld p 5 5, bitB p 4, bitB p 3⟩
/-- Format RRR with one source. -/
def dRR (p : Nat) : OpRR := ⟨fld p 15 5, fld p 10 5, bitB p 4⟩
/-- Format RRI. -/
def dRRI (p : Nat) : OpRRI := ⟨fld p 15 5, fld p 10 5, bitB p 9, fld p 0 9⟩
/-- Format RRI with a shift count. -/
def dShift (p : Nat) : OpShift := ⟨fld p 15 5, fld p 10 5, bitB p 9, fld p 0 6⟩
/-- A scalar float instruction in format RRR. -/
def dF2 (p : Nat) : OpF2 := ⟨fld p 15 5, fld p 10 5, fld p 5 5, bitB p 4, bitB p 3, precOf (bitB p 0), roundOf (fldN p 1 2)⟩
/-- Format M. -/
def dM (p : Nat) : OpM := ⟨fld p 15 5, fld p 10 5, bitB p 9, fld p 0 9⟩
/-- Format M naming an `iv` register. -/
def dMIv (p : Nat) : OpMIv := ⟨fld p 15 4, fld p 10 5, bitB p 9, fld p 0 9⟩
/-- Format LW. -/
def dLW (p : Nat) : OpLW := ⟨fld p 15 5, fld p 10 5, fld p 0 10⟩
/-- Format V in element format `f`. -/
def dV (p : Nat) (f : Fmt) : OpV :=
  ⟨fld p 17 3, fld p 14 3, fld p 11 3, f, fld p 4 3, bitB p 3, bitB p 2, bitB p 1⟩
/-- Format V without `pb`. -/
def dV1 (p : Nat) (f : Fmt) : OpV1 := ⟨fld p 17 3, fld p 14 3, f, fld p 4 3, bitB p 3, bitB p 2⟩
/-- Format V of an interval instruction. -/
def dVI (p : Nat) : OpVI := ⟨fld p 17 3, fld p 14 3, fld p 11 3, fld p 4 3, bitB p 3, bitB p 2, bitB p 1⟩
/-- Format VS. -/
def dVS (p : Nat) (f : Fmt) : OpVS := ⟨fld p 17 3, fld p 14 3, fld p 9 5, bitB p 8, f, fld p 1 3, bitB p 0⟩
/-- Format VS without `pa`. -/
def dVS1 (p : Nat) (f : Fmt) : OpVS1 := ⟨fld p 17 3, fld p 9 5, bitB p 8, f, fld p 1 3, bitB p 0⟩
/-- Format IV, binary. -/
def dIV2 (p : Nat) : OpIV2 := ⟨fld p 16 4, fld p 12 4, fld p 8 4, bitB p 7, bitB p 6⟩
/-- Format IV, unary. -/
def dIV1 (p : Nat) : OpIV1 := ⟨fld p 16 4, fld p 12 4, bitB p 7⟩
/-- Format IC, binary relation. -/
def dIC3 (p : Nat) : OpIC3 := ⟨fld p 16 4, fld p 12 4, fld p 8 4, bitB p 7⟩
/-- Format IC, unary relation. -/
def dIC2 (p : Nat) : OpIC2 := ⟨fld p 16 4, fld p 8 4, bitB p 7⟩
/-- Format RRR from an `iv` source to an `s` destination. -/
def dSIv (p : Nat) : OpSIv := ⟨fld p 15 5, fld p 10 4, bitB p 4⟩
/-- Two marked sources of a stream command (R353). -/
def dSS (p : Nat) : OpSS := ⟨fld p 15 5, bitB p 14, fld p 9 5, bitB p 8⟩
/-- The register that `RFILL` or `WAITF` names in a class (R190, R192). -/
def dFill (p lo : Nat) (iv : Bool) : FillReg := if iv then .iv (fld p lo 4) else .s (fld p lo 5)

/-! ### Groups of one shape -/

/-- Two-source integer instruction: f zero (R49). -/
def intRRR (p : Nat) (c : OpRRR → Instr) : Except DecodeErr Instr := okIf (isZero p 0 3) (c (dRRR p))
/-- One-source instruction: b, lb, f zero (R49). -/
def intRR (p : Nat) (c : OpRR → Instr) : Except DecodeErr Instr := okIf (isZero p 5 5 && isZero p 0 4) (c (dRR p))
/-- Shift by an immediate: imm9[8:6] zero (R82). -/
def shiftI (p : Nat) (c : OpShift → Instr) : Except DecodeErr Instr := okIf (isZero p 6 3) (c (dShift p))
/-- From an interval to an `s` register: a below 16, b, lb, f zero (R136). -/
def sIv (p : Nat) (c : OpSIv → Instr) : Except DecodeErr Instr :=
  okIf (isZero p 14 1 && isZero p 5 5 && isZero p 0 4) (c (dSIv p))
/-- Interval instruction in format IV, binary: f zero. -/
def iv2 (p : Nat) (c : OpIV2 → Instr) : Except DecodeErr Instr := okIf (isZero p 0 6) (c (dIV2 p))
/-- Interval instruction in format IV, unary: b, lb, f zero. -/
def iv1 (p : Nat) (c : OpIV1 → Instr) : Except DecodeErr Instr := okIf (isZero p 8 4 && isZero p 0 7) (c (dIV1 p))
/-- Contractor of a binary relation: f zero. -/
def ic3 (p : Nat) (c : OpIC3 → Instr) : Except DecodeErr Instr := okIf (isZero p 0 7) (c (dIC3 p))
/-- Contractor of a unary relation: y and f zero. -/
def ic2 (p : Nat) (c : OpIC2 → Instr) : Except DecodeErr Instr := okIf (isZero p 12 4 && isZero p 0 7) (c (dIC2 p))
/-- Vector instruction in format V with v zero. -/
def vec (p : Nat) (c : OpV → Instr) : Except DecodeErr Instr :=
  withFmt (fldN p 7 4) fun f => okIf (isZero p 0 1) (c (dV p f))
/-- Vector instruction in format V with a saturation bit. -/
def vecSat (p : Nat) (c : OpV → Bool → Instr) : Except DecodeErr Instr :=
  withFmt (fldN p 7 4) fun f => okIf true (c (dV p f) (bitB p 0))
/-- Unary vector instruction: pb, its flag and v zero. -/
def vec1 (p : Nat) (c : OpV1 → Instr) : Except DecodeErr Instr :=
  withFmt (fldN p 7 4) fun f => okIf (isZero p 11 3 && isZero p 0 2) (c (dV1 p f))
/-- Vector interval instruction: fmt 14 and v zero (R151). -/
def vecI (p : Nat) (c : OpVI → Instr) : Except DecodeErr Instr :=
  okIf (fldN p 7 4 == 14 && isZero p 0 1) (c (dVI p))
/-- A format VS instruction with pa zero. -/
def vs1 (p : Nat) (c : OpVS1 → Instr) : Except DecodeErr Instr :=
  withFmt (fldN p 4 4) fun f => okIf (isZero p 14 3) (c (dVS1 p f))
/-- A format VS instruction with both pointers. -/
def vs2 (p : Nat) (c : OpVS → Instr) : Except DecodeErr Instr :=
  withFmt (fldN p 4 4) fun f => okIf true (c (dVS p f))
/-- A hint or `MIGR`: d and imm9 zero. -/
def hintI (p : Nat) (c : SReg → Bool → Instr) : Except DecodeErr Instr :=
  okIf (isZero p 15 5 && isZero p 0 9) (c (fld p 10 5) (bitB p 9))

/-! ### The opcode map (R48), one function per row of the grid -/

/-- Opcodes 0x0_. -/
def row0 (lo p : Nat) : Except DecodeErr Instr :=
  match lo with
  | 0 => intRRR p .add | 1 => intRRR p .sub | 2 => intRRR p .mul | 3 => intRRR p .mulh | 4 => intRRR p .mulhn
  | 5 => intRRR p .div | 6 => intRRR p .divn | 7 => intRRR p .rem | 8 => intRRR p .remn
  | 9 => intRRR p .and | 10 => intRRR p .or | 11 => intRRR p .xor | 12 => intRRR p .andn
  | 13 => intRRR p .shl | 14 => intRRR p .shr | 15 => intRRR p .sar
  | _ => .error .unassigned

/-- Opcodes 0x1_. -/
def row1 (lo p : Nat) : Except DecodeErr Instr :=
  match lo with
  | 0 => intRRR p .rol | 1 => intRRR p .min | 2 => intRRR p .max | 3 => intRRR p .minn | 4 => intRRR p .maxn
  | 5 => intRR p .clz | 6 => intRR p .ctz | 7 => intRR p .popc | 8 => intRR p .brev | 9 => intRR p .bswap
  | 10 => intRRR p .bfx | 11 => intRRR p .bfxn | 12 => intRRR p .bfi | 13 => intRRR p .fsh
  | 14 => okIf true (.sel (dRRR p) (fld p 0 3))
  | 15 => intRR p .mov
  | _ => .error .unassigned

/-- Condition of `CMP` (R84). -/
def cmpCondOf : Nat → Option CmpCond
  | 0 => some .eq | 1 => some .ne | 2 => some .lt | 3 => some .le | 4 => some .ltn | 5 => some .len | 6 => some .bits
  | _ => none
/-- Code of a `CMP` condition. -/
def CmpCond.code : CmpCond → Nat
  | .eq => 0 | .ne => 1 | .lt => 2 | .le => 3 | .ltn => 4 | .len => 5 | .bits => 6
/-- Condition of `CMPI` (R84). -/
def cmpiCondOf : Nat → CmpiCond
  | 0 => .eq | 1 => .ne | 2 => .lt | _ => .ltn
/-- Code of a `CMPI` condition. -/
def CmpiCond.code : CmpiCond → Nat
  | .eq => 0 | .ne => 1 | .lt => 2 | .ltn => 3

/-- `QOP` (R49, R85): a[4:3], b[4:3] and P[4] zero, and every field the operation does not read zero. -/
def decQop (p : Nat) : Except DecodeErr Instr :=
  let qd : QReg := fld p 17 3
  let a : QReg := fld p 10 3
  let b : QReg := fld p 5 3
  let rsv := isZero p 15 2 && isZero p 13 2 && isZero p 8 2 && isZero p 4 1
  let noA := isZero p 10 3
  let noB := isZero p 5 3
  match fldN p 0 4 with
  | 0 => okIf rsv (.qop qd (.and a b))
  | 1 => okIf rsv (.qop qd (.or a b))
  | 2 => okIf (rsv && noB) (.qop qd (.not a))
  | 3 => okIf rsv (.qop qd (.xor a b))
  | 4 => okIf (rsv && noB) (.qop qd (.known a))
  | 5 => okIf (rsv && noB) (.qop qd (.mov a))
  | 6 => okIf (rsv && noA && noB) (.qop qd .sett)
  | 7 => okIf (rsv && noA && noB) (.qop qd .setf)
  | 8 => okIf (rsv && noA && noB) (.qop qd .setu)
  | _ => .error .reserved

/-- Opcodes 0x2_. -/
def row2 (lo p : Nat) : Except DecodeErr Instr :=
  match lo with
  | 0 => okIf true (.addi (dRRI p)) | 1 => okIf true (.andi (dRRI p))
  | 2 => okIf true (.ori (dRRI p)) | 3 => okIf true (.xori (dRRI p))
  | 4 => shiftI p .shli | 5 => shiftI p .shri | 6 => shiftI p .sari
  | 7 => okIf true (.movi (fld p 15 5) (fld p 0 15)) | 8 => okIf true (.movh (fld p 15 5) (fld p 0 15))
  | 9 =>
    match cmpCondOf (fldN p 0 3) with
    | some c => okIf (isZero p 15 2) (.cmp c (fld p 17 3) (fld p 10 5) (fld p 5 5) (bitB p 4) (bitB p 3))
    | none => .error .reserved
  | 10 => okIf true (.cmpi (cmpiCondOf (fldN p 15 2)) (fld p 17 3) (fld p 10 5) (bitB p 9) (fld p 0 9))
  | 11 => decQop p
  | 12 => okIf (isZero p 13 2 && isZero p 0 10) (.qtos (fld p 15 5) (fld p 10 3))
  | 13 => okIf (isZero p 15 2 && isZero p 5 5 && isZero p 0 4) (.stoq (fld p 17 3) (fld p 10 5) (bitB p 4))
  | _ => .error .unassigned

/-- Code of a conversion (R92). -/
def CvtCode.code : CvtCode → Nat
  | .f32f64 => 0 | .f64f32 => 1 | .f32f16 => 2 | .f16f32 => 3 | .f32bf16 => 4 | .bf16f32 => 5 | .f32e4m3 => 6
  | .e4m3f32 => 7 | .f32e5m2 => 8 | .e5m2f32 => 9 | .f32e2m1 => 10 | .e2m1f32 => 11 | .f64i64 => 12 | .f64n64 => 13
  | .f32i32 => 14 | .f32n32 => 15 | .i64f64 => 16 | .n64f64 => 17 | .i64f32 => 18 | .n64f32 => 19
  | .i64i32 => 20 | .i64i16 => 21 | .i64i8 => 22 | .i64n32 => 23 | .i64n16 => 24 | .i64n8 => 25

/-- Conversion of a code below 26 (R92). -/
def cvtCodeOf : Nat → Option CvtCode
  | 0 => some .f32f64 | 1 => some .f64f32 | 2 => some .f32f16 | 3 => some .f16f32 | 4 => some .f32bf16
  | 5 => some .bf16f32 | 6 => some .f32e4m3 | 7 => some .e4m3f32 | 8 => some .f32e5m2 | 9 => some .e5m2f32
  | 10 => some .f32e2m1 | 11 => some .e2m1f32 | 12 => some .f64i64 | 13 => some .f64n64 | 14 => some .f32i32
  | 15 => some .f32n32 | 16 => some .i64f64 | 17 => some .n64f64 | 18 => some .i64f32 | 19 => some .n64f32
  | 20 => some .i64i32 | 21 => some .i64i16 | 22 => some .i64i8 | 23 => some .i64n32 | 24 => some .i64n16
  | 25 => some .i64n8 | _ => none

/-- `CVT` (R92, R93): lb and f[0] zero; a move has f[2:1] zero, and la zero where a names a `p` or `k` register. -/
def decCvt (p : Nat) : Except DecodeErr Instr :=
  let rsv := isZero p 3 1 && isZero p 0 1
  let mv := rsv && isZero p 1 2
  match fldN p 5 5 with
  | 26 => okIf (mv && isZero p 18 2) (.cvt (.toP (fld p 15 3) (fld p 10 5) (bitB p 4)))
  | 27 => okIf (mv && isZero p 13 2 && isZero p 4 1) (.cvt (.ofP (fld p 15 5) (fld p 10 3)))
  | 28 => okIf (mv && isZero p 18 2) (.cvt (.toK false (fld p 15 3) (fld p 10 5) (bitB p 4)))
  | 29 => okIf (mv && isZero p 18 2) (.cvt (.toK true (fld p 15 3) (fld p 10 5) (bitB p 4)))
  | 30 => okIf (mv && isZero p 13 2 && isZero p 4 1) (.cvt (.ofK false (fld p 15 5) (fld p 10 3)))
  | 31 => okIf (mv && isZero p 13 2 && isZero p 4 1) (.cvt (.ofK true (fld p 15 5) (fld p 10 3)))
  | c =>
    match cvtCodeOf c with
    | some cc => okIf rsv (.cvt (.conv cc (roundOf (fldN p 1 2)) (fld p 15 5) (fld p 10 5) (bitB p 4)))
    | none => .error .reserved

/-- Mode of `FSGN` (R90). -/
def sgnOf : Nat → Option SgnMode
  | 0 => some .cp | 1 => some .neg | 2 => some .xor | _ => none
/-- Code of an `FSGN` mode. -/
def SgnMode.code : SgnMode → Nat
  | .cp => 0 | .neg => 1 | .xor => 2
/-- Condition of `FCMP` (R91). -/
def fcondOf : Nat → FCond
  | 0 => .eq | 1 => .lt | 2 => .le | _ => .un
/-- Code of an `FCMP` condition. -/
def FCond.code : FCond → Nat
  | .eq => 0 | .lt => 1 | .le => 2 | .un => 3

/-- Opcodes 0x3_. -/
def row3 (lo p : Nat) : Except DecodeErr Instr :=
  match lo with
  | 0 => okIf true (.fadd (dF2 p)) | 1 => okIf true (.fsub (dF2 p)) | 2 => okIf true (.fmul (dF2 p))
  | 3 => okIf true (.ffma (dF2 p)) | 4 => okIf true (.fdiv (dF2 p))
  | 5 => okIf (isZero p 5 5 && isZero p 3 1) (.fsqrt (dRR p) (precOf (bitB p 0)) (roundOf (fldN p 1 2)))
  | 6 => okIf (isZero p 1 2) (.fmin (dRRR p) (precOf (bitB p 0)))
  | 7 => okIf (isZero p 1 2) (.fmax (dRRR p) (precOf (bitB p 0)))
  | 8 =>
    match sgnOf (fldN p 1 2) with
    | some m => okIf true (.fsgn (dRRR p) (precOf (bitB p 0)) m)
    | none => .error .reserved
  | 9 => okIf (isZero p 15 2)
      (.fcmp (fcondOf (fldN p 1 2)) (precOf (bitB p 0)) (fld p 17 3) (fld p 10 5) (fld p 5 5) (bitB p 4) (bitB p 3))
  | 10 => decCvt p
  | 11 => okIf (isZero p 5 5 && isZero p 3 1 && isZero p 1 2) (.fclass (dRR p) (precOf (bitB p 0)))
  | _ => .error .unassigned

/-- Opcodes 0x4_. -/
def row4 (lo p : Nat) : Except DecodeErr Instr :=
  match lo with
  | 0 => okIf (isZero p 19 1 && isZero p 0 3) (.imake (fld p 15 4) (fld p 10 5) (fld p 5 5) (bitB p 4) (bitB p 3))
  | 1 => sIv p .ilo | 2 => sIv p .ihi
  | 3 => iv2 p .iadd | 4 => iv2 p .isub | 5 => iv2 p .imul | 6 => iv2 p .idiv
  | 7 => iv1 p .isqr | 8 => iv1 p .isqrt | 9 => iv1 p .iexp | 10 => iv1 p .ilog | 11 => iv1 p .irelu
  | 12 => iv2 p .imin | 13 => iv2 p .imax | 14 => iv2 p .ihull | 15 => iv2 p .imeet
  | _ => .error .unassigned

/-- `ICMP` (R145): the a field and, where read, the b field below 16. -/
def decIcmp (p : Nat) : Except DecodeErr Instr :=
  let rsv := isZero p 15 2 && isZero p 14 1
  let bOk := isZero p 9 1
  let b : IvReg := fld p 5 4
  let lb := bitB p 3
  let mk (c : ICond) : Instr := .icmp c (fld p 17 3) (fld p 10 4) (bitB p 4)
  match fldN p 0 3 with
  | 0 => okIf (rsv && bOk) (mk (.lt b lb))
  | 1 => okIf (rsv && bOk) (mk (.le b lb))
  | 2 => okIf (rsv && bOk) (mk (.eq b lb))
  | 3 => okIf (rsv && bOk) (mk (.sub b lb))
  | 4 => okIf (rsv && bOk) (mk (.dis b lb))
  | 5 => okIf (rsv && isZero p 5 5 && isZero p 3 1) (mk .emp)
  | _ => .error .reserved

/-- Opcodes 0x5_. -/
def row5 (lo p : Nat) : Except DecodeErr Instr :=
  match lo with
  | 0 => sIv p .iwid | 1 => sIv p .imid
  | 2 => decIcmp p
  | 3 => iv1 p .imov
  | 4 => okIf (isZero p 19 1 && isZero p 14 1 && isZero p 0 3)
      (.iscale (fld p 15 4) (fld p 10 4) (fld p 5 5) (bitB p 4) (bitB p 3))
  | 5 => okIf (isZero p 0 17) (.npq (fld p 17 3))
  | 8 => ic3 p .cadd | 9 => ic3 p .csub | 10 => ic3 p .cmul | 11 => ic3 p .cdiv
  | 12 => ic2 p .csqr | 13 => ic2 p .cexp | 14 => ic2 p .crelu | 15 => ic3 p .cmax
  | _ => .error .unassigned

/-- Condition of `BQ` (R96). -/
def bqOf : Nat → BqCond
  | 0 => .t | 1 => .f | 2 => .u | _ => .nt
/-- Code of a `BQ` condition. -/
def BqCond.code : BqCond → Nat
  | .t => 0 | .f => 1 | .u => 2 | .nt => 3

/-- Opcodes 0x6_. -/
def row6 (lo p : Nat) : Except DecodeErr Instr :=
  match lo with
  | 0 => okIf true (.br (fld p 0 20)) | 1 => okIf true (.call (fld p 0 20))
  | 2 => okIf (isZero p 15 5) (.jr (fld p 10 5) (bitB p 9) (fld p 0 9))
  | 3 => okIf (isZero p 15 5) (.callr (fld p 10 5) (bitB p 9) (fld p 0 9))
  | 4 => okIf true (.bq (bqOf (fldN p 15 2)) (fld p 17 3) (fld p 0 15))
  | 5 => okIf true (.loop (fld p 15 5) (fld p 0 15))
  | 6 => okIf (isZero p 15 5) (.trap (fld p 0 15))
  | 7 => okIf true (.setvl (fld p 15 5) (fld p 10 5) (bitB p 9) (fld p 0 9))
  | 8 => okIf true (.rdid (fld p 15 5) (fld p 0 15))
  | 9 => okIf true (.rdctl (fld p 15 5) (fld p 0 15))
  | 10 => okIf true (.wrctl (fld p 15 5) (fld p 0 15))
  | _ => .error .unassigned

/-- `RFILL` (R190): f[2:1] zero, and a `d` or `b` of 16 to 31 fails in class 1. -/
def decRfill (p : Nat) : Except DecodeErr Instr :=
  let iv := bitB p 0
  okIf (isZero p 1 2 && (!iv || (isZero p 19 1 && isZero p 9 1)))
    (.rfill (dFill p 15 iv) (fld p 10 5) (bitB p 4) (dFill p 5 iv) (bitB p 3))

/-- `WAITF` (R192): a[4:1] zero, and a `d` of 16 to 31 fails in class 1. -/
def decWaitf (p : Nat) : Except DecodeErr Instr :=
  let iv := bitB p 10
  okIf (isZero p 11 4 && (!iv || isZero p 19 1)) (.waitf (dFill p 15 iv) (fld p 0 10))

/-- `BAR` in format QC (R49, R193). -/
def decBar (p : Nat) : Except DecodeErr Instr :=
  match fldN p 0 3 with
  | 0 => okIf (isZero p 15 2 && isZero p 13 2 && isZero p 3 7) (.barOr (fld p 17 3) (fld p 10 3))
  | 1 => okIf (isZero p 3 14) (.barNp (fld p 17 3))
  | _ => .error .reserved

/-- Opcodes 0x7_. -/
def row7 (lo p : Nat) : Except DecodeErr Instr :=
  match lo with
  | 0 => okIf true (.ldsB (dM p)) | 1 => okIf true (.ldsH (dM p)) | 2 => okIf true (.ldsW (dM p)) | 3 => okIf true (.ldsD (dM p))
  | 4 => okIf true (.stsB (dM p)) | 5 => okIf true (.stsH (dM p)) | 6 => okIf true (.stsW (dM p)) | 7 => okIf true (.stsD (dM p))
  | 8 => okIf true (.tlds (dLW p)) | 9 => okIf true (.tsts (dLW p))
  | 10 => okIf (isZero p 15 5 && isZero p 0 10) (.tstr (fld p 10 5))
  | 11 => decRfill p
  | 12 => decWaitf p
  | 13 => decBar p
  | 14 => okIf (isZero p 15 2 && isZero p 0 9) (.xset (fld p 17 3) (fld p 10 5) (bitB p 9))
  | 15 => okIf (isZero p 0 12) (.xget (fld p 15 5) (fld p 12 3))
  | _ => .error .unassigned

/-- Function of `AMO` (R264). -/
def amoOf : Nat → AmoFn
  | 0 => .add | 1 => .and | 2 => .or | 3 => .xor | 4 => .min | 5 => .max | 6 => .swap | _ => .fadd
/-- Code of an `AMO` function. -/
def AmoFn.code : AmoFn → Nat
  | .add => 0 | .and => 1 | .or => 2 | .xor => 3 | .min => 4 | .max => 5 | .swap => 6 | .fadd => 7
/-- Function of `RED` (R266). -/
def redOf : Nat → Option RedFn
  | 0 => some .add | 1 => some .and | 2 => some .or | 3 => some .xor | 4 => some .min | 5 => some .max | 6 => some .fadd
  | _ => none
/-- Code of a `RED` function. -/
def RedFn.code : RedFn → Nat
  | .add => 0 | .and => 1 | .or => 2 | .xor => 3 | .min => 4 | .max => 5 | .fadd => 6

/-- Opcodes 0x8_. -/
def row8 (lo p : Nat) : Except DecodeErr Instr :=
  match lo with
  | 0 => okIf true (.ldB (dM p)) | 1 => okIf true (.ldH (dM p)) | 2 => okIf true (.ldW (dM p)) | 3 => okIf true (.ldD (dM p))
  | 4 => okIf true (.ldAcq (dM p)) | 5 => okIf true (.ldw (dLW p))
  | 6 => okIf true (.stB (dM p)) | 7 => okIf true (.stH (dM p)) | 8 => okIf true (.stW (dM p)) | 9 => okIf true (.stD (dM p))
  | 10 => okIf true (.stRel (dM p))
  | 11 => okIf (isZero p 19 1) (.ild (dMIv p)) | 12 => okIf (isZero p 19 1) (.ist (dMIv p))
  | 13 => okIf true (.amo (amoOf (fldN p 0 3)) (dRRR p))
  | 14 => intRRR p .cas
  | 15 =>
    match redOf (fldN p 0 3) with
    | some f => okIf (isZero p 15 5) (.red f (fld p 10 5) (fld p 5 5) (bitB p 4) (bitB p 3))
    | none => .error .reserved
  | _ => .error .unassigned

/-- Scope of `FENCE.S` (R49). -/
def scopeOf : Nat → Option FScope
  | 0 => some .core | 1 => some .sg | 2 => some .die | 3 => some .pkg | _ => none
/-- Code of a scope. -/
def FScope.code : FScope → Nat
  | .core => 0 | .sg => 1 | .die => 2 | .pkg => 3

/-- Opcodes 0x9_. -/
def row9 (lo p : Nat) : Except DecodeErr Instr :=
  match lo with
  | 0 => vs1 p .vld | 1 => vs1 p .vst
  | 2 => hintI p .migr | 3 => hintI p .bwant | 4 => hintI p .bkeep | 5 => hintI p .bfree
  | 6 =>
    match fldN p 0 3 with
    | 0 => okIf (isZero p 15 5) (.bcopy (fld p 10 5) (fld p 5 5) (bitB p 4) (bitB p 3))
    | 1 => okIf (isZero p 15 5 && isZero p 5 5 && isZero p 3 1) (.bcopyZero (fld p 10 5) (bitB p 4))
    | _ => .error .reserved
  | 7 =>
    match scopeOf (fldN p 0 3) with
    | some q => okIf (isZero p 15 5 && isZero p 3 12) (fenceOf q)
    | none => .error .reserved
  | _ => .error .unassigned

/-- `VCVT` (R49, R126): the destination code is v (bit 3) with pb (bits 2:0); pb's flag is zero. -/
def decVcvt (p : Nat) : Except DecodeErr Instr :=
  withFmt (fldN p 7 4) fun f =>
    withFmt (8 * fldN p 0 1 + fldN p 11 3) fun g => okIf (isZero p 1 1) (.vcvt (dV1 p f) g)

/-- Opcodes 0xA_. -/
def rowA (lo p : Nat) : Except DecodeErr Instr :=
  match lo with
  | 0 => vecSat p .vadd | 1 => vecSat p .vsub | 2 => vecSat p .vmul | 3 => vec p .vfma | 4 => vec p .vmin | 5 => vec p .vmax
  | 6 => vec p .vand | 7 => vec p .vor | 8 => vec p .vxor | 9 => vec p .vshl | 10 => vec p .vshr | 11 => vec p .vsar
  | 12 => vec1 p .vabs | 13 => vec1 p .vneg | 14 => decVcvt p | 15 => vec p .vsel
  | _ => .error .unassigned

/-- Condition of `VCMP` (R125). -/
def vcondOf : Nat → VCond
  | 0 => .eq | 1 => .ne | 2 => .lt | _ => .le
/-- Code of a `VCMP` condition. -/
def VCond.code : VCond → Nat
  | .eq => 0 | .ne => 1 | .lt => 2 | .le => 3
/-- Function of `VRED` (R127). -/
def vredOf : Nat → Option VRedFn
  | 0 => some .add | 1 => some .min | 2 => some .max | 3 => some .and | 4 => some .or | 5 => some .xor | _ => none
/-- Code of a `VRED` function. -/
def VRedFn.code : VRedFn → Nat
  | .add => 0 | .min => 1 | .max => 2 | .and => 3 | .or => 4 | .xor => 5

/-- Opcodes 0xB_. -/
def rowB (lo p : Nat) : Except DecodeErr Instr :=
  match lo with
  | 0 => withFmt (fldN p 7 4) fun f => okIf true
      (.vcmp (vcondOf (2 * fldN p 3 1 + fldN p 0 1)) (fld p 17 3) (fld p 14 3) (fld p 11 3) f (fld p 4 3) (bitB p 2) (bitB p 1))
  | 1 =>
    match vredOf (fldN p 0 4) with
    | some g => withFmt (fldN p 8 4) fun f => okIf true (.vred g (fld p 15 5) (fld p 12 3) f (fld p 5 3) (bitB p 4))
    | none => .error .reserved
  | 2 => withFmt (fldN p 8 4) fun f =>
      okIf (isZero p 3 1) (.vdot (fld p 15 5) (fld p 12 3) (fld p 0 3) f (fld p 5 3) (bitB p 4))
  | 3 => vs1 p .vbcast | 4 => vs2 p .vadds | 5 => vs2 p .vmuls | 6 => vec p .vperm | 7 => vec1 p .vmov
  | 8 => withFmt (fldN p 7 4) fun f => okIf (isZero p 0 2)
      (.vbdot (fld p 17 3) (fld p 14 3) (fld p 11 3) f (fld p 5 2) (bitB p 4) (bitB p 3) (bitB p 2))
  | 9 => vec p .vscacc | 10 => vec p .vscomb
  | 11 => vec1 p .vexp | 12 => vec1 p .vrcp | 13 => vec1 p .vrsq | 14 => vec1 p .vtanh
  | _ => .error .unassigned

/-- Opcodes 0xC_. -/
def rowC (lo p : Nat) : Except DecodeErr Instr :=
  match lo with
  | 0 => vecI p .viadd | 1 => vecI p .visub | 2 => vecI p .vimul
  | 3 => okIf (fldN p 7 4 == 14 && isZero p 11 3 && isZero p 0 2)
      (.virelu (fld p 17 3) (fld p 14 3) (fld p 4 3) (bitB p 3) (bitB p 2))
  | 4 => vecI p .vihull | 5 => vecI p .vimeet
  | 6 => okIf (fldN p 8 4 == 14 && isZero p 19 1 && isZero p 3 1)
      (.vidot (fld p 15 4) (fld p 12 3) (fld p 0 3) (fld p 5 3) (bitB p 4))
  | 7 => vecI p .vimake | 8 => vecI p .vcadd | 9 => vecI p .vcmul
  | 10 => okIf (fldN p 7 4 == 14 && isZero p 14 3 && isZero p 2 1 && isZero p 0 1)
      (.vcrelu (fld p 17 3) (fld p 11 3) (fld p 4 3) (bitB p 3) (bitB p 1))
  | _ => .error .unassigned

/-- Transposition of `MLOAD` (R211). -/
def trOf : Nat → Option TileTr
  | 0 => some .none | 1 => some .tr8 | 2 => some .tr16 | _ => none
/-- Code of a transposition. -/
def TileTr.code : TileTr → Nat
  | .none => 0 | .tr8 => 1 | .tr16 => 2

/-- Opcodes 0xD_ (R211). -/
def rowD (lo p : Nat) : Except DecodeErr Instr :=
  match lo with
  | 0 => okIf true (.mclaim (fld p 14 6) (fld p 10 4) (fld p 0 10))
  | 1 => okIf (isZero p 0 10) (.mrelease (fld p 14 6) (fld p 10 4))
  | 2 =>
    match trOf (fldN p 2 2) with
    | some tr => withFmt (fldN p 4 4) fun f => okIf (isZero p 0 2) (.mload (fld p 14 6) (fld p 9 5) (bitB p 8) f tr)
    | none => .error .reserved
  | 3 => withFmt (fldN p 0 4) fun f => okIf true (.mstore (fld p 15 5) (fld p 9 6) (fld p 4 5) f)
  | 4 => okIf (isZero p 0 13) (.mzero (fld p 14 6) (bitB p 13))
  | 5 => okIf (isZero p 1 1) (.mma (fld p 14 6) (fld p 8 6) (fld p 2 6) (bitB p 0))
  | 6 => okIf (isZero p 0 17) (mrotOf (fld p 17 3))
  | _ => .error .unassigned

/-- Opcodes 0xE_ (R318-R332, R421). -/
def rowE (lo p : Nat) : Except DecodeErr Instr :=
  match lo with
  | 0 => okIf (isZero p 0 16) (if bitB p 16 then .cpyG (fld p 17 3) else .cpy (fld p 17 3))
  | 1 => okIf (isZero p 0 14) (.gwin (fld p 17 3) (fld p 14 3))
  | 2 => okIf (isZero p 0 17) (gunbOf (fld p 17 3))
  | 3 =>
    if bitB p 12 then okIf (isZero p 0 12 && isZero p 13 3) (.rdefOff (fld p 16 4))
    else okIf (isZero p 0 12) (.rdef (fld p 16 4) (fld p 13 3))
  | 4 => okIf (isZero p 0 9)
      (if bitB p 15 then .rpostF (fld p 16 4) (fld p 10 5) (bitB p 9) else .rpostD (fld p 16 4) (fld p 10 5) (bitB p 9))
  | 5 => okIf true
      (if bitB p 10 then .rtakeF (fld p 15 5) (fld p 11 4) (fld p 0 10) else .rtakeD (fld p 15 5) (fld p 11 4) (fld p 0 10))
  | 6 => okIf (isZero p 0 12) (.qfence (fld p 16 4) (fld p 12 4))
  | 7 => okIf (isZero p 14 6) (.qwait (fld p 10 4) (fld p 0 10))
  | 8 => okIf true (.ckpt (fld p 0 20))
  | 9 => okIf (isZero p 0 16) (if bitB p 16 then .wpostG (fld p 17 3) else .wpost (fld p 17 3))
  | 10 => okIf true (.wwait (fld p 15 5) (fld p 10 5) (fld p 0 10))
  | _ => .error .unassigned

/-- `SBIND` (R353). -/
def decSbind (p : Nat) : Except DecodeErr Instr :=
  let a : SReg := fld p 10 5
  let la := bitB p 9
  let x : XReg := fld p 15 3
  match fldN p 18 2 with
  | 0 => okIf (isZero p 0 9) (.sbindS a la x)
  | 1 => okIf (isZero p 0 9) (.sbindW a la x)
  | 2 => okIf (isZero p 0 9 && isZero p 15 3) (.sbindOffS a la)
  | _ => okIf (isZero p 0 9 && isZero p 15 3) (.sbindOffW a la)

/-- Mode of `TLBI` (R452). -/
def tlbiOf : Nat → Option TlbiMode
  | 0 => some .va | 1 => some .unl | 2 => some .all | _ => none
/-- Code of a `TLBI` mode. -/
def TlbiMode.code : TlbiMode → Nat
  | .va => 0 | .unl => 1 | .all => 2

/-- Opcodes 0xF_ (R353, R452). -/
def rowF (lo p : Nat) : Except DecodeErr Instr :=
  match lo with
  | 0 => decSbind p
  | 1 => okIf (isZero p 0 8) (.semit (dSS p)) | 2 => okIf (isZero p 0 8) (.swm (dSS p))
  | 3 => okIf (isZero p 0 14) (.sidle (fld p 15 5) (bitB p 14))
  | 4 => okIf (isZero p 0 8) (.spub (dSS p))
  | 5 => okIf (isZero p 0 9) (.sread (fld p 15 5) (fld p 10 5) (bitB p 9))
  | 8 => okIf (isZero p 15 2 && isZero p 0 10) (.tlbw (fld p 17 3) (fld p 10 5))
  | 9 =>
    match tlbiOf (fldN p 8 2) with
    | some m => okIf (isZero p 0 8) (.tlbi (fld p 15 5) (fld p 10 5) m)
    | none => .error .reserved
  | 10 =>
    if bitB p 4 then okIf (isZero p 15 5 && isZero p 0 4) (.privctlWr (fld p 10 5) (fld p 5 5))
    else okIf (isZero p 5 5 && isZero p 0 4) (.privctlRd (fld p 15 5) (fld p 10 5))
  | 11 => okIf (isZero p 0 20) .snapt
  | 12 => okIf (isZero p 15 5 && isZero p 0 10) (.halt (fld p 10 5))
  | _ => .error .unassigned

/-- The instruction of payload `p` before the checks of `Instr.wf`. -/
def decodeRow (p : Nat) : Except DecodeErr Instr :=
  let lo := fldN p 20 4
  match fldN p 24 4 with
  | 0 => row0 lo p | 1 => row1 lo p | 2 => row2 lo p | 3 => row3 lo p | 4 => row4 lo p | 5 => row5 lo p
  | 6 => row6 lo p | 7 => row7 lo p | 8 => row8 lo p | 9 => row9 lo p | 10 => rowA lo p | 11 => rowB lo p
  | 12 => rowC lo p | 13 => rowD lo p | 14 => rowE lo p | 15 => rowF lo p
  | _ => .error .unassigned

/-- An instruction that passes `Instr.wf`, or the failure of R51 step 8. -/
def checkWf (r : Except DecodeErr Instr) : Except DecodeErr Instr :=
  match r with
  | .ok i => if i.wf then .ok i else .error .reserved
  | .error e => .error e

/-- The 32-bit instruction of payload `p` (R35, R48, R49). -/
def decode32 (p : Nat) : Except DecodeErr Instr := checkWf (decodeRow p)

/-! ### 16-bit instructions (R39-R42) -/

/-- Format A. -/
def dA (h : Nat) : OpA := ⟨fld h 5 5, fld h 0 5⟩

/-- A shift by a 4-bit count: values 16 to 31 fail (R41). -/
def shift16 (h : Nat) (c : SReg → BitVec 4 → Instr) : Except DecodeErr Instr :=
  okIf (isZero h 4 1) (c (fld h 5 5) (fld h 0 4))

/-- The `SYS` group (R42). -/
def decSys (h : Nat) : Except DecodeErr Instr :=
  let z := isZero h 0 5
  match fldN h 5 5 with
  | 0 => okIf z .nop | 1 => okIf z .ret | 2 => okIf z .exit | 3 => okIf z .yield | 4 => okIf z .bar
  | 5 => okIf z .waitred | 6 => okIf z .fence | 7 => okIf z .npclr
  | 8 => okIf (isZero h 1 4) (if bitB h 0 then .upretSkip else .upret)
  | 9 => okIf z .snap
  | 10 => okIf true (.empty (fld h 0 5))
  | 11 => okIf (isZero h 4 1) (.qwait16 (fld h 0 4))
  | _ => .error .unassigned

/-- The 16-bit instruction of halfword `h` (bit 15 is 0). -/
def decode16 (h : Nat) : Except DecodeErr Instr :=
  match fldN h 10 5 with
  | 0x00 => okIf true (.mov16 (dA h)) | 0x01 => okIf true (.add16 (dA h)) | 0x02 => okIf true (.sub16 (dA h))
  | 0x03 => okIf true (.and16 (dA h)) | 0x04 => okIf true (.or16 (dA h)) | 0x05 => okIf true (.xor16 (dA h))
  | 0x06 => okIf true (.shl16 (dA h)) | 0x07 => okIf true (.shr16 (dA h)) | 0x08 => okIf true (.sar16 (dA h))
  | 0x09 => okIf true (.lds16 (dA h)) | 0x0A => okIf true (.sts16 (dA h)) | 0x0B => okIf true (.take (dA h))
  | 0x10 => okIf true (.movi16 (fld h 5 5) (fld h 0 5)) | 0x11 => okIf true (.addi16 (fld h 5 5) (fld h 0 5))
  | 0x12 => shift16 h .shli16 | 0x13 => shift16 h .shri16 | 0x14 => shift16 h .sari16
  | 0x15 => okIf true (.andi16 (fld h 5 5) (fld h 0 5))
  | 0x16 => okIf true (.ldsSp (fld h 5 5) (fld h 0 5)) | 0x17 => okIf true (.stsSp (fld h 5 5) (fld h 0 5))
  | 0x18 => okIf true (.brS (fld h 0 10)) | 0x19 => okIf true (.callS (fld h 0 10))
  | 0x1A => okIf true (.bqt (fld h 7 3) (fld h 0 7)) | 0x1B => okIf true (.bqf (fld h 7 3) (fld h 0 7))
  | 0x1C => okIf true (.bqu (fld h 7 3) (fld h 0 7))
  | 0x1F => decSys h
  | _ => .error .unassigned

/-! ### Framing (R34-R37) -/

/-- Whether a halfword is the head of a 32-bit instruction (R34). -/
def isHead (h : Half) : Bool := fldN h.toNat 14 2 == 3
/-- Whether a halfword is a continuation (R34). -/
def isCont (h : Half) : Bool := fldN h.toNat 14 2 == 2

/-- The payload of a head and its continuation (R35). -/
def payload (h0 h1 : Half) : Nat := fldN h0.toNat 0 14 * 2 ^ 14 + fldN h1.toNat 0 14

/-- The instruction that starts at halfword `h0`, with `h1` the halfword after it, and its length in bytes: R51 steps 3
to 8 without the mode check of step 7. -/
def decodeHalves (h0 h1 : Half) : Except DecodeErr (Instr × Nat) :=
  if isCont h0 then .error .continuation
  else if isHead h0 then
    if isCont h1 then (decode32 (payload h0 h1)).map (·, 4) else .error .noContinuation
  else (decode16 h0.toNat).map (·, 2)

/-- A halfword from its two bytes, low byte first (R4, R34). -/
def halfOf (b0 b1 : Byte) : Half := BitVec.ofNat 16 (b0.toNat + 256 * b1.toNat)

/-- The instruction at the start of a list of bytes, with its length. Bytes past the end of the list read as zero. -/
def decodeBytes (bs : List Byte) : Except DecodeErr (Instr × Nat) :=
  decodeHalves (halfOf (bs.getD 0 0) (bs.getD 1 0)) (halfOf (bs.getD 2 0) (bs.getD 3 0))

/-- Whether the opcode of a head is assigned and system-only (R51 step 7, R52). -/
def isSysHead (h0 : Half) : Bool :=
  let op := fldN h0.toNat 6 8
  isHead h0 && decide (0xF8 ≤ op) && decide (op ≤ 0xFC)

/-! ### The table's numbering of words -/

/-- The halfwords, first at the lowest address, of a word numbered as spec/opcode_table.json numbers it. The table
writes the head of a 32-bit row in bits 31:16; a word whose head stands in bits 15:0 is read the other way round. -/
def tableHalves (nbits w : Nat) : Half × Half :=
  if nbits ≤ 16 then (BitVec.ofNat 16 w, BitVec.ofNat 16 (w / 2 ^ 16))
  else if fldN w 30 2 == 3 && fldN w 14 2 == 2 then (BitVec.ofNat 16 (w / 2 ^ 16), BitVec.ofNat 16 w)
  else (BitVec.ofNat 16 w, BitVec.ofNat 16 (w / 2 ^ 16))

/-- The bytes of a halfword, low byte first. -/
def halfBytes (h : Half) : List Byte := [BitVec.ofNat 8 h.toNat, BitVec.ofNat 8 (h.toNat / 256)]

/-- The bytes, as the hardware stores them, of a word numbered as spec/opcode_table.json numbers it. -/
def tableBytes (nbits w : Nat) : List Byte :=
  let (h0, h1) := tableHalves nbits w
  halfBytes h0 ++ halfBytes h1

/-- The instruction the decoder reads from a word numbered as spec/opcode_table.json numbers it. (DESIGN CHOICE, log 9) -/
def decodeTableWord (nbits w : Nat) : Option Instr :=
  match decodeBytes (tableBytes nbits w) with
  | .ok (i, _) => some i
  | .error _ => none

/-! ### The encoder -/

/-- A flag as a number. -/
def b2n (b : Bool) : Nat := if b then 1 else 0

/-- Payload of format RRR. -/
def eRRR (o : OpRRR) (f : Nat) : Nat :=
  o.d.toNat * 2 ^ 15 + o.a.toNat * 2 ^ 10 + o.b.toNat * 2 ^ 5 + b2n o.la * 16 + b2n o.lb * 8 + f
/-- Payload of format RRR with one source; `lo` holds the bits below `la`. -/
def eRR (o : OpRR) (b lo : Nat) : Nat := o.d.toNat * 2 ^ 15 + o.a.toNat * 2 ^ 10 + b * 2 ^ 5 + b2n o.la * 16 + lo
/-- Payload of format RRI. -/
def eRRI (o : OpRRI) : Nat := o.d.toNat * 2 ^ 15 + o.a.toNat * 2 ^ 10 + b2n o.la * 2 ^ 9 + o.imm.toNat
/-- Payload of a shift by an immediate count. -/
def eShift (o : OpShift) : Nat := o.d.toNat * 2 ^ 15 + o.a.toNat * 2 ^ 10 + b2n o.la * 2 ^ 9 + o.cnt.toNat
/-- Payload of a scalar float instruction. -/
def eF2 (o : OpF2) : Nat :=
  o.d.toNat * 2 ^ 15 + o.a.toNat * 2 ^ 10 + o.b.toNat * 2 ^ 5 + b2n o.la * 16 + b2n o.lb * 8 + o.r.code * 2 + o.prec.code
/-- Payload of format RI. -/
def eRI (d : SReg) (imm : BitVec 15) : Nat := d.toNat * 2 ^ 15 + imm.toNat
/-- Payload of format M. -/
def eM (o : OpM) : Nat := o.t.toNat * 2 ^ 15 + o.a.toNat * 2 ^ 10 + b2n o.la * 2 ^ 9 + o.off.toNat
/-- Payload of format M naming an `iv` register. -/
def eMIv (o : OpMIv) : Nat := o.t.toNat * 2 ^ 15 + o.a.toNat * 2 ^ 10 + b2n o.la * 2 ^ 9 + o.off.toNat
/-- Payload of format LW. -/
def eLW (o : OpLW) : Nat := o.d.toNat * 2 ^ 15 + o.a.toNat * 2 ^ 10 + o.lim.toNat
/-- Payload of format V. -/
def eV (o : OpV) (v : Nat) : Nat :=
  o.pd.toNat * 2 ^ 17 + o.pa.toNat * 2 ^ 14 + o.pb.toNat * 2 ^ 11 + o.fmt.code * 2 ^ 7 + o.k.toNat * 2 ^ 4
    + b2n o.incD * 8 + b2n o.incA * 4 + b2n o.incB * 2 + v
/-- Payload of format V without `pb`; `pb` and `v` are given. -/
def eV1 (o : OpV1) (pb v : Nat) : Nat :=
  o.pd.toNat * 2 ^ 17 + o.pa.toNat * 2 ^ 14 + pb * 2 ^ 11 + o.fmt.code * 2 ^ 7 + o.k.toNat * 2 ^ 4
    + b2n o.incD * 8 + b2n o.incA * 4 + v
/-- Payload of format V of an interval instruction. -/
def eVI (o : OpVI) : Nat :=
  o.pd.toNat * 2 ^ 17 + o.pa.toNat * 2 ^ 14 + o.pb.toNat * 2 ^ 11 + 14 * 2 ^ 7 + o.k.toNat * 2 ^ 4
    + b2n o.incD * 8 + b2n o.incA * 4 + b2n o.incB * 2
/-- Payload of format VS. -/
def eVS (o : OpVS) : Nat :=
  o.pd.toNat * 2 ^ 17 + o.pa.toNat * 2 ^ 14 + o.s.toNat * 2 ^ 9 + b2n o.la * 2 ^ 8 + o.fmt.code * 2 ^ 4 + o.k.toNat * 2 + b2n o.inc
/-- Payload of format VS without `pa`. -/
def eVS1 (o : OpVS1) : Nat :=
  o.pd.toNat * 2 ^ 17 + o.s.toNat * 2 ^ 9 + b2n o.la * 2 ^ 8 + o.fmt.code * 2 ^ 4 + o.k.toNat * 2 + b2n o.inc
/-- Payload of format VR. -/
def eVR (d pa : Nat) (fmt : Fmt) (k : KReg) (inc : Bool) (f : Nat) : Nat :=
  d * 2 ^ 15 + pa * 2 ^ 12 + fmt.code * 2 ^ 8 + k.toNat * 2 ^ 5 + b2n inc * 16 + f
/-- Payload of format IV, binary. -/
def eIV2 (o : OpIV2) : Nat :=
  o.d.toNat * 2 ^ 16 + o.a.toNat * 2 ^ 12 + o.b.toNat * 2 ^ 8 + b2n o.la * 2 ^ 7 + b2n o.lb * 2 ^ 6
/-- Payload of format IV, unary. -/
def eIV1 (o : OpIV1) : Nat := o.d.toNat * 2 ^ 16 + o.a.toNat * 2 ^ 12 + b2n o.la * 2 ^ 7
/-- Payload of format IC, binary relation. -/
def eIC3 (o : OpIC3) : Nat := o.x.toNat * 2 ^ 16 + o.y.toNat * 2 ^ 12 + o.z.toNat * 2 ^ 8 + b2n o.lz * 2 ^ 7
/-- Payload of format IC, unary relation. -/
def eIC2 (o : OpIC2) : Nat := o.x.toNat * 2 ^ 16 + o.z.toNat * 2 ^ 8 + b2n o.lz * 2 ^ 7
/-- Payload from an `iv` source to an `s` destination. -/
def eSIv (o : OpSIv) : Nat := o.d.toNat * 2 ^ 15 + o.a.toNat * 2 ^ 10 + b2n o.la * 16
/-- Payload of a stream command with two sources. -/
def eSS (o : OpSS) : Nat := o.a.toNat * 2 ^ 15 + b2n o.la * 2 ^ 14 + o.b.toNat * 2 ^ 9 + b2n o.lb * 2 ^ 8
/-- Payload of format QC below the destination. -/
def eQC (qd : QReg) (a b : Nat) (la lb : Bool) (f : Nat) : Nat :=
  qd.toNat * 2 ^ 17 + a * 2 ^ 10 + b * 2 ^ 5 + b2n la * 16 + b2n lb * 8 + f
/-- Payload of a hint or `MIGR`. -/
def eHint (a : SReg) (la : Bool) : Nat := a.toNat * 2 ^ 10 + b2n la * 2 ^ 9
/-- Number and class of a fill register. -/
def FillReg.num : FillReg → Nat
  | .s n => n.toNat | .iv n => n.toNat
/-- Class of a fill register: 0 `s`, 1 `iv`. -/
def FillReg.isIv : FillReg → Bool
  | .s _ => false | .iv _ => true

/-- Opcode and payload P[19:0] of `QOP` (R85). -/
def eQop (qd : QReg) : QOp → Nat
  | .and a b => eQC qd a.toNat b.toNat false false 0
  | .or a b => eQC qd a.toNat b.toNat false false 1
  | .not a => eQC qd a.toNat 0 false false 2
  | .xor a b => eQC qd a.toNat b.toNat false false 3
  | .known a => eQC qd a.toNat 0 false false 4
  | .mov a => eQC qd a.toNat 0 false false 5
  | .sett => eQC qd 0 0 false false 6
  | .setf => eQC qd 0 0 false false 7
  | .setu => eQC qd 0 0 false false 8

/-- Payload of `CVT` (R92). -/
def eCvt : CvtForm → Nat
  | .conv c r d a la => d.toNat * 2 ^ 15 + a.toNat * 2 ^ 10 + c.code * 2 ^ 5 + b2n la * 16 + r.code * 2
  | .toP d a la => d.toNat * 2 ^ 15 + a.toNat * 2 ^ 10 + 26 * 2 ^ 5 + b2n la * 16
  | .ofP d a => d.toNat * 2 ^ 15 + a.toNat * 2 ^ 10 + 27 * 2 ^ 5
  | .toK hi d a la => d.toNat * 2 ^ 15 + a.toNat * 2 ^ 10 + (28 + b2n hi) * 2 ^ 5 + b2n la * 16
  | .ofK hi d a => d.toNat * 2 ^ 15 + a.toNat * 2 ^ 10 + (30 + b2n hi) * 2 ^ 5

/-- Payload of `ICMP` (R145). -/
def eIcmp (c : ICond) (qd : QReg) (a : IvReg) (la : Bool) : Nat :=
  match c with
  | .lt b lb => eQC qd a.toNat b.toNat la lb 0
  | .le b lb => eQC qd a.toNat b.toNat la lb 1
  | .eq b lb => eQC qd a.toNat b.toNat la lb 2
  | .sub b lb => eQC qd a.toNat b.toNat la lb 3
  | .dis b lb => eQC qd a.toNat b.toNat la lb 4
  | .emp => eQC qd a.toNat 0 la false 5

/-- A 16-bit instruction in format A or B: opcode, `d` and the low five bits. -/
def e16 (op : Nat) (d : SReg) (lo : Nat) : Nat := op * 2 ^ 10 + d.toNat * 2 ^ 5 + lo
/-- A `SYS` instruction (R107). -/
def eSys (sub arg : Nat) : Nat := 0x7C00 + 32 * sub + arg

/-- What an instruction is encoded as: one halfword, an opcode and P[19:0], or nothing for a step of another agent. -/
inductive Enc where
  | half (h : Nat)
  | word (op : Nat) (p : Nat)
  | none
  deriving DecidableEq, Repr

/-- The encoding of an instruction (R39-R43, R48, R49 and the chapters' X layouts). -/
def enc : Instr → Enc
  | .add o => .word 0x00 (eRRR o 0) | .sub o => .word 0x01 (eRRR o 0) | .mul o => .word 0x02 (eRRR o 0)
  | .mulh o => .word 0x03 (eRRR o 0) | .mulhn o => .word 0x04 (eRRR o 0) | .div o => .word 0x05 (eRRR o 0)
  | .divn o => .word 0x06 (eRRR o 0) | .rem o => .word 0x07 (eRRR o 0) | .remn o => .word 0x08 (eRRR o 0)
  | .and o => .word 0x09 (eRRR o 0) | .or o => .word 0x0A (eRRR o 0) | .xor o => .word 0x0B (eRRR o 0)
  | .andn o => .word 0x0C (eRRR o 0) | .shl o => .word 0x0D (eRRR o 0) | .shr o => .word 0x0E (eRRR o 0)
  | .sar o => .word 0x0F (eRRR o 0) | .rol o => .word 0x10 (eRRR o 0) | .min o => .word 0x11 (eRRR o 0)
  | .max o => .word 0x12 (eRRR o 0) | .minn o => .word 0x13 (eRRR o 0) | .maxn o => .word 0x14 (eRRR o 0)
  | .clz o => .word 0x15 (eRR o 0 0) | .ctz o => .word 0x16 (eRR o 0 0) | .popc o => .word 0x17 (eRR o 0 0)
  | .brev o => .word 0x18 (eRR o 0 0) | .bswap o => .word 0x19 (eRR o 0 0)
  | .bfx o => .word 0x1A (eRRR o 0) | .bfxn o => .word 0x1B (eRRR o 0) | .bfi o => .word 0x1C (eRRR o 0)
  | .fsh o => .word 0x1D (eRRR o 0) | .sel o q => .word 0x1E (eRRR o q.toNat) | .mov o => .word 0x1F (eRR o 0 0)
  | .addi o => .word 0x20 (eRRI o) | .andi o => .word 0x21 (eRRI o) | .ori o => .word 0x22 (eRRI o)
  | .xori o => .word 0x23 (eRRI o) | .shli o => .word 0x24 (eShift o) | .shri o => .word 0x25 (eShift o)
  | .sari o => .word 0x26 (eShift o) | .movi d i => .word 0x27 (eRI d i) | .movh d i => .word 0x28 (eRI d i)
  | .cmp c qd a b la lb => .word 0x29 (eQC qd a.toNat b.toNat la lb c.code)
  | .cmpi c qd a la imm => .word 0x2A (qd.toNat * 2 ^ 17 + c.code * 2 ^ 15 + a.toNat * 2 ^ 10 + b2n la * 2 ^ 9 + imm.toNat)
  | .qop qd op => .word 0x2B (eQop qd op)
  | .qtos d q => .word 0x2C (d.toNat * 2 ^ 15 + q.toNat * 2 ^ 10)
  | .stoq qd a la => .word 0x2D (eQC qd a.toNat 0 la false 0)
  | .fadd o => .word 0x30 (eF2 o) | .fsub o => .word 0x31 (eF2 o) | .fmul o => .word 0x32 (eF2 o)
  | .ffma o => .word 0x33 (eF2 o) | .fdiv o => .word 0x34 (eF2 o)
  | .fsqrt o pr r => .word 0x35 (eRR o 0 (r.code * 2 + pr.code))
  | .fmin o pr => .word 0x36 (eRRR o pr.code) | .fmax o pr => .word 0x37 (eRRR o pr.code)
  | .fsgn o pr m => .word 0x38 (eRRR o (m.code * 2 + pr.code))
  | .fcmp c pr qd a b la lb => .word 0x39 (eQC qd a.toNat b.toNat la lb (c.code * 2 + pr.code))
  | .cvt f => .word 0x3A (eCvt f) | .fclass o pr => .word 0x3B (eRR o 0 pr.code)
  | .imake d a b la lb => .word 0x40 (d.toNat * 2 ^ 15 + a.toNat * 2 ^ 10 + b.toNat * 2 ^ 5 + b2n la * 16 + b2n lb * 8)
  | .ilo o => .word 0x41 (eSIv o) | .ihi o => .word 0x42 (eSIv o)
  | .iadd o => .word 0x43 (eIV2 o) | .isub o => .word 0x44 (eIV2 o) | .imul o => .word 0x45 (eIV2 o)
  | .idiv o => .word 0x46 (eIV2 o) | .isqr o => .word 0x47 (eIV1 o) | .isqrt o => .word 0x48 (eIV1 o)
  | .iexp o => .word 0x49 (eIV1 o) | .ilog o => .word 0x4A (eIV1 o) | .irelu o => .word 0x4B (eIV1 o)
  | .imin o => .word 0x4C (eIV2 o) | .imax o => .word 0x4D (eIV2 o) | .ihull o => .word 0x4E (eIV2 o)
  | .imeet o => .word 0x4F (eIV2 o) | .iwid o => .word 0x50 (eSIv o) | .imid o => .word 0x51 (eSIv o)
  | .icmp c qd a la => .word 0x52 (eIcmp c qd a la) | .imov o => .word 0x53 (eIV1 o)
  | .iscale d a b la lb => .word 0x54 (d.toNat * 2 ^ 15 + a.toNat * 2 ^ 10 + b.toNat * 2 ^ 5 + b2n la * 16 + b2n lb * 8)
  | .npq qd => .word 0x55 (qd.toNat * 2 ^ 17)
  | .cadd o => .word 0x58 (eIC3 o) | .csub o => .word 0x59 (eIC3 o) | .cmul o => .word 0x5A (eIC3 o)
  | .cdiv o => .word 0x5B (eIC3 o) | .csqr o => .word 0x5C (eIC2 o) | .cexp o => .word 0x5D (eIC2 o)
  | .crelu o => .word 0x5E (eIC2 o) | .cmax o => .word 0x5F (eIC3 o)
  | .br off => .word 0x60 off.toNat | .call off => .word 0x61 off.toNat
  | .jr a la imm => .word 0x62 (a.toNat * 2 ^ 10 + b2n la * 2 ^ 9 + imm.toNat)
  | .callr a la imm => .word 0x63 (a.toNat * 2 ^ 10 + b2n la * 2 ^ 9 + imm.toNat)
  | .bq c q off => .word 0x64 (q.toNat * 2 ^ 17 + c.code * 2 ^ 15 + off.toNat)
  | .loop d off => .word 0x65 (eRI d off) | .trap imm => .word 0x66 imm.toNat
  | .setvl d a la imm => .word 0x67 (d.toNat * 2 ^ 15 + a.toNat * 2 ^ 10 + b2n la * 2 ^ 9 + imm.toNat)
  | .rdid d i => .word 0x68 (eRI d i) | .rdctl d i => .word 0x69 (eRI d i) | .wrctl d i => .word 0x6A (eRI d i)
  | .ldsB o => .word 0x70 (eM o) | .ldsH o => .word 0x71 (eM o) | .ldsW o => .word 0x72 (eM o) | .ldsD o => .word 0x73 (eM o)
  | .stsB o => .word 0x74 (eM o) | .stsH o => .word 0x75 (eM o) | .stsW o => .word 0x76 (eM o) | .stsD o => .word 0x77 (eM o)
  | .tlds o => .word 0x78 (eLW o) | .tsts o => .word 0x79 (eLW o) | .tstr a => .word 0x7A (a.toNat * 2 ^ 10)
  | .rfill d a la b lb =>
    .word 0x7B (d.num * 2 ^ 15 + a.toNat * 2 ^ 10 + b.num * 2 ^ 5 + b2n la * 16 + b2n lb * 8 + b2n d.isIv)
  | .waitf r lim => .word 0x7C (r.num * 2 ^ 15 + b2n r.isIv * 2 ^ 10 + lim.toNat)
  | .barOr qd qa => .word 0x7D (qd.toNat * 2 ^ 17 + qa.toNat * 2 ^ 10) | .barNp qd => .word 0x7D (qd.toNat * 2 ^ 17 + 1)
  | .xset x a la => .word 0x7E (x.toNat * 2 ^ 17 + a.toNat * 2 ^ 10 + b2n la * 2 ^ 9)
  | .xget d x => .word 0x7F (d.toNat * 2 ^ 15 + x.toNat * 2 ^ 12)
  | .ldB o => .word 0x80 (eM o) | .ldH o => .word 0x81 (eM o) | .ldW o => .word 0x82 (eM o) | .ldD o => .word 0x83 (eM o)
  | .ldAcq o => .word 0x84 (eM o) | .ldw o => .word 0x85 (eLW o)
  | .stB o => .word 0x86 (eM o) | .stH o => .word 0x87 (eM o) | .stW o => .word 0x88 (eM o) | .stD o => .word 0x89 (eM o)
  | .stRel o => .word 0x8A (eM o) | .ild o => .word 0x8B (eMIv o) | .ist o => .word 0x8C (eMIv o)
  | .amo f o => .word 0x8D (eRRR o f.code) | .cas o => .word 0x8E (eRRR o 0)
  | .red f a b la lb => .word 0x8F (a.toNat * 2 ^ 10 + b.toNat * 2 ^ 5 + b2n la * 16 + b2n lb * 8 + f.code)
  | .vld o => .word 0x90 (eVS1 o) | .vst o => .word 0x91 (eVS1 o)
  | .migr a la => .word 0x92 (eHint a la) | .bwant a la => .word 0x93 (eHint a la)
  | .bkeep a la => .word 0x94 (eHint a la) | .bfree a la => .word 0x95 (eHint a la)
  | .bcopy a b la lb => .word 0x96 (a.toNat * 2 ^ 10 + b.toNat * 2 ^ 5 + b2n la * 16 + b2n lb * 8)
  | .bcopyZero a la => .word 0x96 (a.toNat * 2 ^ 10 + b2n la * 16 + 1)
  | .fenceSCore => .word 0x97 0 | .fenceSSg => .word 0x97 1 | .fenceSDie => .word 0x97 2 | .fenceSPkg => .word 0x97 3
  | .vadd o v => .word 0xA0 (eV o (b2n v)) | .vsub o v => .word 0xA1 (eV o (b2n v)) | .vmul o v => .word 0xA2 (eV o (b2n v))
  | .vfma o => .word 0xA3 (eV o 0) | .vmin o => .word 0xA4 (eV o 0) | .vmax o => .word 0xA5 (eV o 0)
  | .vand o => .word 0xA6 (eV o 0) | .vor o => .word 0xA7 (eV o 0) | .vxor o => .word 0xA8 (eV o 0)
  | .vshl o => .word 0xA9 (eV o 0) | .vshr o => .word 0xAA (eV o 0) | .vsar o => .word 0xAB (eV o 0)
  | .vabs o => .word 0xAC (eV1 o 0 0) | .vneg o => .word 0xAD (eV1 o 0 0)
  | .vcvt o g => .word 0xAE (eV1 o (g.code % 8) (g.code / 8)) | .vsel o => .word 0xAF (eV o 0)
  | .vcmp c kd pa pb f k ia ib =>
    .word 0xB0 (kd.toNat * 2 ^ 17 + pa.toNat * 2 ^ 14 + pb.toNat * 2 ^ 11 + f.code * 2 ^ 7 + k.toNat * 2 ^ 4
      + c.code / 2 * 8 + b2n ia * 4 + b2n ib * 2 + c.code % 2)
  | .vred g d pa f k i => .word 0xB1 (eVR d.toNat pa.toNat f k i g.code)
  | .vdot d pa pb f k i => .word 0xB2 (eVR d.toNat pa.toNat f k i pb.toNat)
  | .vbcast o => .word 0xB3 (eVS1 o) | .vadds o => .word 0xB4 (eVS o) | .vmuls o => .word 0xB5 (eVS o)
  | .vperm o => .word 0xB6 (eV o 0) | .vmov o => .word 0xB7 (eV1 o 0 0)
  | .vbdot pd pa pb f bs id ia ib =>
    .word 0xB8 (pd.toNat * 2 ^ 17 + pa.toNat * 2 ^ 14 + pb.toNat * 2 ^ 11 + f.code * 2 ^ 7 + bs.toNat * 2 ^ 5
      + b2n id * 16 + b2n ia * 8 + b2n ib * 4)
  | .vscacc o => .word 0xB9 (eV o 0) | .vscomb o => .word 0xBA (eV o 0)
  | .vexp o => .word 0xBB (eV1 o 0 0) | .vrcp o => .word 0xBC (eV1 o 0 0) | .vrsq o => .word 0xBD (eV1 o 0 0)
  | .vtanh o => .word 0xBE (eV1 o 0 0)
  | .viadd o => .word 0xC0 (eVI o) | .visub o => .word 0xC1 (eVI o) | .vimul o => .word 0xC2 (eVI o)
  | .virelu pd pa k id ia =>
    .word 0xC3 (pd.toNat * 2 ^ 17 + pa.toNat * 2 ^ 14 + 14 * 2 ^ 7 + k.toNat * 2 ^ 4 + b2n id * 8 + b2n ia * 4)
  | .vihull o => .word 0xC4 (eVI o) | .vimeet o => .word 0xC5 (eVI o)
  | .vidot d pa pb k i => .word 0xC6 (eVR d.toNat pa.toNat .iv32 k i pb.toNat)
  | .vimake o => .word 0xC7 (eVI o) | .vcadd o => .word 0xC8 (eVI o) | .vcmul o => .word 0xC9 (eVI o)
  | .vcrelu px pz k ix iz =>
    .word 0xCA (px.toNat * 2 ^ 17 + pz.toNat * 2 ^ 11 + 14 * 2 ^ 7 + k.toNat * 2 ^ 4 + b2n ix * 8 + b2n iz * 2)
  | .mclaim s n l => .word 0xD0 (s.toNat * 2 ^ 14 + n.toNat * 2 ^ 10 + l.toNat)
  | .mrelease s n => .word 0xD1 (s.toNat * 2 ^ 14 + n.toNat * 2 ^ 10)
  | .mload s a la f tr => .word 0xD2 (s.toNat * 2 ^ 14 + a.toNat * 2 ^ 9 + b2n la * 2 ^ 8 + f.code * 2 ^ 4 + tr.code * 4)
  | .mstore d s a f => .word 0xD3 (d.toNat * 2 ^ 15 + s.toNat * 2 ^ 9 + a.toNat * 2 ^ 4 + f.code)
  | .mzero s t => .word 0xD4 (s.toNat * 2 ^ 14 + b2n t * 2 ^ 13)
  | .mma c a b z => .word 0xD5 (c.toNat * 2 ^ 14 + a.toNat * 2 ^ 8 + b.toNat * 4 + b2n z)
  | .mrot0 => .word 0xD6 (0 * 2 ^ 17)
  | .mrot1 => .word 0xD6 (1 * 2 ^ 17)
  | .mrot2 => .word 0xD6 (2 * 2 ^ 17)
  | .mrot3 => .word 0xD6 (3 * 2 ^ 17)
  | .mrot4 => .word 0xD6 (4 * 2 ^ 17)
  | .mrot5 => .word 0xD6 (5 * 2 ^ 17)
  | .mrot6 => .word 0xD6 (6 * 2 ^ 17)
  | .mrot7 => .word 0xD6 (7 * 2 ^ 17)
  | .cpy x => .word 0xE0 (x.toNat * 2 ^ 17) | .cpyG x => .word 0xE0 (x.toNat * 2 ^ 17 + 2 ^ 16)
  | .gwin w x => .word 0xE1 (w.toNat * 2 ^ 17 + x.toNat * 2 ^ 14)
  | .gunb0 => .word 0xE2 (0 * 2 ^ 17)
  | .gunb1 => .word 0xE2 (1 * 2 ^ 17)
  | .gunb2 => .word 0xE2 (2 * 2 ^ 17)
  | .gunb3 => .word 0xE2 (3 * 2 ^ 17)
  | .gunb4 => .word 0xE2 (4 * 2 ^ 17)
  | .gunb5 => .word 0xE2 (5 * 2 ^ 17)
  | .gunb6 => .word 0xE2 (6 * 2 ^ 17)
  | .gunb7 => .word 0xE2 (7 * 2 ^ 17)
  | .rdef r x => .word 0xE3 (r.toNat * 2 ^ 16 + x.toNat * 2 ^ 13) | .rdefOff r => .word 0xE3 (r.toNat * 2 ^ 16 + 2 ^ 12)
  | .rpostD r a la => .word 0xE4 (r.toNat * 2 ^ 16 + a.toNat * 2 ^ 10 + b2n la * 2 ^ 9)
  | .rpostF r a la => .word 0xE4 (r.toNat * 2 ^ 16 + 2 ^ 15 + a.toNat * 2 ^ 10 + b2n la * 2 ^ 9)
  | .rtakeD d r l => .word 0xE5 (d.toNat * 2 ^ 15 + r.toNat * 2 ^ 11 + l.toNat)
  | .rtakeF d r l => .word 0xE5 (d.toNat * 2 ^ 15 + r.toNat * 2 ^ 11 + 2 ^ 10 + l.toNat)
  | .qfence b a => .word 0xE6 (b.toNat * 2 ^ 16 + a.toNat * 2 ^ 12)
  | .qwait s l => .word 0xE7 (s.toNat * 2 ^ 10 + l.toNat) | .ckpt off => .word 0xE8 off.toNat
  | .wpost x => .word 0xE9 (x.toNat * 2 ^ 17) | .wpostG x => .word 0xE9 (x.toNat * 2 ^ 17 + 2 ^ 16)
  | .wwait a b l => .word 0xEA (a.toNat * 2 ^ 15 + b.toNat * 2 ^ 10 + l.toNat)
  | .sbindS a la x => .word 0xF0 (x.toNat * 2 ^ 15 + eHint a la)
  | .sbindW a la x => .word 0xF0 (2 ^ 18 + x.toNat * 2 ^ 15 + eHint a la)
  | .sbindOffS a la => .word 0xF0 (2 * 2 ^ 18 + eHint a la) | .sbindOffW a la => .word 0xF0 (3 * 2 ^ 18 + eHint a la)
  | .semit o => .word 0xF1 (eSS o) | .swm o => .word 0xF2 (eSS o)
  | .sidle a la => .word 0xF3 (a.toNat * 2 ^ 15 + b2n la * 2 ^ 14) | .spub o => .word 0xF4 (eSS o)
  | .sread d a la => .word 0xF5 (d.toNat * 2 ^ 15 + a.toNat * 2 ^ 10 + b2n la * 2 ^ 9)
  | .tlbw x a => .word 0xF8 (x.toNat * 2 ^ 17 + a.toNat * 2 ^ 10)
  | .tlbi a b m => .word 0xF9 (a.toNat * 2 ^ 15 + b.toNat * 2 ^ 10 + m.code * 2 ^ 8)
  | .privctlRd d a => .word 0xFA (d.toNat * 2 ^ 15 + a.toNat * 2 ^ 10)
  | .privctlWr a b => .word 0xFA (a.toNat * 2 ^ 10 + b.toNat * 2 ^ 5 + 16)
  | .snapt => .word 0xFB 0 | .halt a => .word 0xFC (a.toNat * 2 ^ 10)
  | .mov16 o => .half (e16 0x00 o.d o.a.toNat) | .add16 o => .half (e16 0x01 o.d o.a.toNat)
  | .sub16 o => .half (e16 0x02 o.d o.a.toNat) | .and16 o => .half (e16 0x03 o.d o.a.toNat)
  | .or16 o => .half (e16 0x04 o.d o.a.toNat) | .xor16 o => .half (e16 0x05 o.d o.a.toNat)
  | .shl16 o => .half (e16 0x06 o.d o.a.toNat) | .shr16 o => .half (e16 0x07 o.d o.a.toNat)
  | .sar16 o => .half (e16 0x08 o.d o.a.toNat) | .lds16 o => .half (e16 0x09 o.d o.a.toNat)
  | .sts16 o => .half (e16 0x0A o.d o.a.toNat) | .take o => .half (e16 0x0B o.d o.a.toNat)
  | .movi16 d i => .half (e16 0x10 d i.toNat) | .addi16 d i => .half (e16 0x11 d i.toNat)
  | .shli16 d c => .half (e16 0x12 d c.toNat) | .shri16 d c => .half (e16 0x13 d c.toNat)
  | .sari16 d c => .half (e16 0x14 d c.toNat) | .andi16 d i => .half (e16 0x15 d i.toNat)
  | .ldsSp d i => .half (e16 0x16 d i.toNat) | .stsSp d i => .half (e16 0x17 d i.toNat)
  | .brS off => .half (0x18 * 2 ^ 10 + off.toNat) | .callS off => .half (0x19 * 2 ^ 10 + off.toNat)
  | .bqt q off => .half (0x1A * 2 ^ 10 + q.toNat * 2 ^ 7 + off.toNat)
  | .bqf q off => .half (0x1B * 2 ^ 10 + q.toNat * 2 ^ 7 + off.toNat)
  | .bqu q off => .half (0x1C * 2 ^ 10 + q.toNat * 2 ^ 7 + off.toNat)
  | .nop => .half (eSys 0 0) | .ret => .half (eSys 1 0) | .exit => .half (eSys 2 0) | .yield => .half (eSys 3 0)
  | .bar => .half (eSys 4 0) | .waitred => .half (eSys 5 0) | .fence => .half (eSys 6 0) | .npclr => .half (eSys 7 0)
  | .upret => .half (eSys 8 0) | .upretSkip => .half (eSys 8 1) | .snap => .half (eSys 9 0)
  | .empty n => .half (eSys 10 n.toNat) | .qwait16 s => .half (eSys 11 s.toNat)
  | _ => .none

/-- The halfwords of an encoding: a halfword, or a head and its continuation (R34, R35). -/
def Enc.halves : Enc → List Half
  | .half h => [BitVec.ofNat 16 h]
  | .word op p =>
    [BitVec.ofNat 16 (3 * 2 ^ 14 + op * 2 ^ 6 + p / 2 ^ 14), BitVec.ofNat 16 (2 * 2 ^ 14 + p % 2 ^ 14)]
  | .none => []

/-- The words of an instruction, first at the lowest address; none for a step of another agent. -/
def encode (i : Instr) : List Half := (enc i).halves

/-- The bytes of an instruction, in address order. -/
def encodeBytes (i : Instr) : List Byte := (encode i).flatMap halfBytes

end Sys2Proof
end

