-- ==== Sys2Proof/Machine/Tables.lean ====
section
/-! DEFINITION. The data the state is built of: tables by number, sets of numbers and byte memories, each a sorted list in
one canonical form, with the operations on them. -/

namespace Sys2Proof.Machine

/-! ### Tables -/

/-- A table by number: entries in rising order of their numbers, at most one for each. -/
abbrev Tbl (α : Type) := List (Nat × α)

/-- The entry of a number, if there is one. -/
def Tbl.find? {α : Type} : Tbl α → Nat → Option α
  | [], _ => none
  | (k, v) :: t, n => if k = n then some v else Tbl.find? t n

/-- The entry of a number, or `d`. -/
def Tbl.getD {α : Type} (t : Tbl α) (n : Nat) (d : α) : α := (t.find? n).getD d

/-- Sets the entry of a number. -/
def Tbl.set {α : Type} : Tbl α → Nat → α → Tbl α
  | [], n, v => [(n, v)]
  | (k, w) :: t, n, v =>
    if n < k then (n, v) :: (k, w) :: t
    else if k = n then (n, v) :: t
    else (k, w) :: Tbl.set t n v

/-- Removes the entry of a number. -/
def Tbl.erase {α : Type} (t : Tbl α) (n : Nat) : Tbl α := t.filter fun e => e.1 != n

/-- Changes the entry of a number that has one. -/
def Tbl.modify {α : Type} (t : Tbl α) (n : Nat) (f : α → α) : Tbl α :=
  t.map fun e => if e.1 = n then (e.1, f e.2) else e

/-- Changes every entry. -/
def Tbl.mapV {α : Type} (t : Tbl α) (f : α → α) : Tbl α := t.map fun e => (e.1, f e.2)

/-- The lowest number from `n` on (within `fuel` tries) that the table does not hold. -/
def Tbl.fresh {α : Type} (t : Tbl α) : Nat → Nat → Nat
  | n, 0 => n
  | n, fuel + 1 => if (t.find? n).isSome then Tbl.fresh t (n + 1) fuel else n

/-! ### Sets of numbers -/

/-- A set of numbers in rising order. -/
abbrev NatSet := List Nat

/-- Adds a number. -/
def NatSet.add : NatSet → Nat → NatSet
  | [], n => [n]
  | k :: t, n => if n < k then n :: k :: t else if k = n then k :: t else k :: NatSet.add t n

/-- Removes a number. -/
def NatSet.del (s : NatSet) (n : Nat) : NatSet := s.filter (· != n)

/-- Adds or removes a number. -/
def NatSet.put (s : NatSet) (n : Nat) (b : Bool) : NatSet := if b then s.add n else s.del n

/-! ### Byte memories -/

/-- A memory of bytes: cells in strictly rising order of address, none holding 0; an address not listed reads 0
(R249: a block of an ELIDED granule arrives as zeros, and every granule is ELIDED after a cold reset; R442: the wipe
zeroes every SRAM). -/
abbrev Memory := List Host.Cell

/-- The byte at an address. (DEDUCED, log 88) -/
def Memory.get : Memory → Nat → Byte
  | [], _ => 0
  | (k, v) :: t, a => if k = a then v else Memory.get t a

/-- The cells of bytes written from `a` on: those that are not 0. -/
def Memory.cells (a : Nat) : List Byte → Memory
  | [] => []
  | b :: t => if b = 0 then Memory.cells (a + 1) t else (a, b) :: Memory.cells (a + 1) t

/-- Writes consecutive bytes from `a` on. -/
def Memory.write (m : Memory) (a : Nat) (bs : List Byte) : Memory :=
  m.filter (fun c => c.1 < a) ++ (Memory.cells a bs ++ m.filter (fun c => a + bs.length ≤ c.1))

/-- The little-endian number that bytes hold (R4). -/
def leNat : List Byte → Nat
  | [] => 0
  | b :: t => b.toNat + 256 * leNat t

/-- The `n` bytes of a number, little-endian (R4). -/
def leBytes : Nat → Nat → List Byte
  | 0, _ => []
  | n + 1, v => BitVec.ofNat 8 v :: leBytes n (v / 256)

/-- The cells at `n` consecutive addresses from `a` on. -/
def Memory.span (m : Memory) (a n : Nat) : Memory := m.filter fun c => a ≤ c.1 && c.1 < a + n

/-- The little-endian number (R4) that `n` consecutive bytes from `a` on hold: bytes not listed are 0. -/
def Memory.readN (m : Memory) (a n : Nat) : Nat := (m.span a n).foldr (fun c v => c.2.toNat * 256 ^ (c.1 - a) + v) 0

/-- Reads `n` consecutive bytes from `a` on. -/
def Memory.read (m : Memory) (a n : Nat) : List Byte := leBytes n (m.readN a n)

/-- Writes the low `n` bytes of `v` at `a`. -/
def Memory.writeN (m : Memory) (a n v : Nat) : Memory := m.write a (leBytes n v)

/-- The canonical form of a memory. -/
def Memory.wf : Memory → Bool
  | [] => true
  | [c] => c.2 != 0
  | c :: d :: t => c.2 != 0 && decide (c.1 < d.1) && Memory.wf (d :: t)

end Sys2Proof.Machine
end

