-- ==== Sys2Proof/Machine/Types.lean ====
section
/-! DEFINITION. The parts of the machine's state that belong to strands, cores, homes, gangs and accesses under way. All of
it is plain data. -/

namespace Sys2Proof.Machine

/-! ### Faults of strands (R377) -/

/-- The cause codes of R377. -/
inductive Cause where
  | undef | misEntry | dead | priv | align | range | slot | absent | prot | group | hostPage | memErr | poison
  | regLimit | tagLimit | ringLimit | ldwLimit | conflict | window | gather | fpTrap | emptyIv | trap
  deriving DecidableEq, Repr

/-- The code of a cause (R377). -/
def Cause.code : Cause → Nat
  | .undef => 0x01 | .misEntry => 0x02 | .dead => 0x03 | .priv => 0x04 | .align => 0x05 | .range => 0x06 | .slot => 0x07
  | .absent => 0x11 | .prot => 0x12 | .group => 0x13 | .hostPage => 0x14 | .memErr => 0x20 | .poison => 0x21
  | .regLimit => 0x30 | .tagLimit => 0x31 | .ringLimit => 0x32 | .ldwLimit => 0x33 | .conflict => 0x40 | .window => 0x41
  | .gather => 0x42 | .fpTrap => 0x50 | .emptyIv => 0x51 | .trap => 0x60

/-- A fault with what `ctl.taddr` and `ctl.tinfo` receive (R377, R380). -/
structure FaultRec where
  cause : Cause
  addr : Word
  info : Word
  deriving DecidableEq, Repr

/-- A failure of an access after its issue (R255): cause, the access's virtual address and its instruction's PC. -/
structure Failure where
  cause : Cause
  va : Word
  pc : Word
  deriving DecidableEq, Repr

/-! ### Registers of a strand -/

/-- Fill state of an `s` or `iv` register (R15). `failed` is empty with no reply pending after the reply reported a failure
that no instruction has met yet (R255). -/
inductive Fill where
  | full | empty | pending | failed (f : Failure) | dead
  deriving DecidableEq, Repr

/-- A predicate (R13): the three encodings that instructions write. -/
inductive Tri where
  | f | t | u
  deriving DecidableEq, Repr

/-- The strand-scoped control registers (R28), each with the bits it can hold (R102). -/
structure Ctl where
  fpm : BitVec 4 := 0
  fpf : BitVec 6 := 0
  /-- Bits 15:8 NTH, 3 TE, 2 NI, 1 EM, 0 NP; 7:4 read 0 (R71). -/
  ist : BitVec 16 := 0x0400
  vl : Nat := 2048
  wlim : BitVec 32 := 4096
  tvec : Word := 0
  /-- Bits 10:9 LEN, 8 UP, 7:0 CAUSE (R379). -/
  tcause : BitVec 11 := 0
  tinfo : Word := 0
  taddr : Word := 0
  tpc : Word := 0
  mig : BitVec 8 := 8
  nant : Bool := false
  satc : Word := 0
  quantum : BitVec 16 := 64
  deriving DecidableEq, Repr

/-- What a launch fixes for a strand (R26, R177): the identity registers that never change, its gang, and its mode
(R451). -/
structure Ident where
  gang : Nat := 0
  die : Nat := 0
  node : Nat := 0
  arg : Word := 0
  gx : Nat := 0
  gy : Nat := 0
  gw : Nat := 0
  gh : Nat := 0
  nstr : Nat := 0
  sidx : Nat := 0
  ext0 : Nat := 0
  ext1 : Nat := 0
  org0 : Nat := 0
  org1 : Nat := 0
  win : Word := 0
  amend : Word := 0
  /-- The strand belongs to a STEP gang (R170). -/
  step : Bool := false
  /-- The strand runs in system mode (R451). -/
  system : Bool := false
  deriving DecidableEq, Repr

/-- Where a strand is: in a slot, or a context that is ready, parked or on its way (R166, R240), or stopped by a
pre-emption (R393): in its slot or as a context, or in a save area. -/
inductive Place where
  | slot (n : Nat) | ready | parked | migrating (home : Nat) | stopped (slot : Option Nat) (atCkpt : Bool) | saved
  deriving DecidableEq, Repr

/-- The fetch of the instruction at the PC (R454). -/
inductive Fetch where
  /-- Not started. -/
  | idle
  /-- Under way; the request of the part under way is `req`. -/
  | flight (req : Nat)
  /-- The head at the end of a line has been read; the read of its continuation has not started (R38). -/
  | half (h : Half)
  /-- Started while the strand awaits the answer to its instruction, and waiting for a miss of the strand's core or for a block absent from
  its home (R228, R244): its address, whether it is a miss, the virtual page or block, and a head that has been read. -/
  | held (va : Word) (miss : Bool) (n : Nat) (h : Option Half)
  /-- Returned: the halfword at the PC and, when that is a head, the halfword after it. -/
  | ready (h : Half) (c : Option Half)
  /-- Returned with a fault of the fetch (R36, R37). -/
  | fault (f : FaultRec)
  deriving DecidableEq, Repr

/-- What is kept of a fetch when its strand leaves its slot: a head that has been read is not read again (R454). -/
def Fetch.kept : Fetch → Fetch
  | .half h => .half h
  | .held _ _ _ (some h) => .half h
  | _ => .idle

/-- Whether the part of an instruction that is fetched next is its first. -/
def Fetch.firstPart : Fetch → Bool
  | .half _ => false
  | _ => true

/-- A register an instruction writes at its retirement: an `s`, an `iv`, or none. -/
inductive Dst where
  | none | s (n : SReg) | iv (n : IvReg)
  deriving DecidableEq, Repr

/-- How an instruction retires (R19): its length, the registers read under a mark, its destination and the PC after it when
it does not fall through. -/
structure Retire where
  len : Nat
  marksS : List SReg := []
  marksIv : List IvReg := []
  dst : Dst := .none
  /-- A pointer whose increment applies (R114). -/
  ptr : Option PReg := none
  deriving DecidableEq, Repr

/-- Accesses that a drain or a limit waits for (R254, R255, R259, R267-R269, R277). -/
inductive Drain where
  /-- Every earlier main-memory access has been performed. -/
  | all
  /-- Every earlier write and reduction has been acknowledged. -/
  | writes
  | reds
  /-- Accesses whose homes lie in a scope of the core (R269). -/
  | scope (q : FScope)
  deriving DecidableEq, Repr

/-- What a strand that is out of the rotation, or parked, waits for (R164, R184, R228). -/
inductive WaitKind where
  /-- A register to become full (R17, R192, R257). -/
  | fill (r : FillReg)
  /-- The reply pending for a register that is to be written or emptied (R15). -/
  | pend (r : FillReg)
  /-- A drain (R255). -/
  | drain (d : Drain)
  /-- A limit of accesses in flight (R254): stores, reductions or row loads. -/
  | limit (k : Nat)
  /-- The reply to a request (R264, R260, R187, R282, R190). -/
  | reply (req : Nat)
  /-- A tagged word of its own core (R187): the tagged-word address as its instruction gave it, and whether it waits for full. -/
  | tag (addr : Nat) (full : Bool)
  /-- Its gang's barrier (R194). -/
  | barrier
  /-- A ring of its core: filled slots (`m = false`) or free slots (R328). -/
  | ring (r : Nat) (m : Bool)
  /-- Its commands in a set of engine queues (R331). -/
  | queues (set : BitVec 4)
  /-- A run of operand-memory slots (R212). -/
  | claim (slot n : Nat)
  /-- A completion word or counter of a window (R424). -/
  | window (w : Nat) (count : Nat)
  /-- The array operation it started (R204). -/
  | array
  /-- Closes of its span under way at so many homes (R283). -/
  | closes
  /-- A translation miss of its core (R244): the 64 KiB virtual page. -/
  | miss (vpn : Nat)
  /-- A block absent from its own home (R228). -/
  | block (blk : Nat)
  /-- The time at which a containment retry resumes (R387). -/
  | retry (at_ : Nat)
  /-- A governed register's answer or any other unit, until an event ends the wait. -/
  | event
  deriving DecidableEq, Repr

/-- A wait: what for, since which cycle, its last cycle if it is bounded (R46, R184), whether its expiry event is in the
calendar, and how the instruction retires when the wait's reply completes it. -/
structure Wait where
  kind : WaitKind
  since : Nat
  until_ : Option Nat := none
  retire : Retire := { len := 0 }
  /-- For a wait on a block or a miss: the access's virtual address and what `ctl.tinfo` receives for it. For a barrier `info`
  holds the predicate register that the strand's form writes, plus 8 for `BAR.OR` and 16 for `BAR.NP`. -/
  va : Word := 0
  info : Word := 0
  /-- The length of the instruction that waits, 0 for a fetch (R384). -/
  len : Nat := 0
  /-- Destinations that the instruction has made empty with a reply pending, as they stood before it (R15, R32). -/
  old : List (FillReg × Fill) := []
  /-- The strand keeps its slot while it waits: its access is checked (R282). -/
  hold : Bool := false
  deriving DecidableEq, Repr

/-- Whether a strand tries its instruction again to see whether the wait is over (R164); of the other waits it learns by an
event. -/
def WaitKind.tried : WaitKind → Bool
  | .fill _ | .pend _ | .drain _ | .limit _ | .tag _ _ | .ring _ _ | .queues _ | .claim _ _ | .window _ _ | .closes => true
  | .reply _ | .barrier | .array | .miss _ | .block _ | .retry _ | .event => false

/-- Whether a strand that waits so has issued its instruction, and awaits its answer. -/
def WaitKind.issued : WaitKind → Bool
  | .reply _ | .barrier | .array => true
  | _ => false

/-- What an `SBIND.W` or a `CKPT` has read so far: bytes of its area's header (R357), or whole lines of its table (R333), and leaves of the
area's pages. -/
structure BindWork where
  seen : List Byte := []
  map : List (Nat × Word) := []
  deriving DecidableEq, Repr

/-- A strand (R10): its registers, and where it stands. -/
structure Strand where
  /-- Storage behind a register that is dead holds 0 at launch. (DESIGN CHOICE, log 2) -/
  s : Vector Word 32 := Vector.replicate 32 0
  iv : Vector Word 16 := Vector.replicate 16 0
  sFill : Vector Fill 32 := (Vector.replicate 32 Fill.dead).set 0 .full
  ivFill : Vector Fill 16 := Vector.replicate 16 .dead
  p : Vector (BitVec 32) 8 := Vector.replicate 8 0
  q : Vector Tri 8 := Vector.replicate 8 .f
  k : Vector (BitVec 128) 8 := Vector.replicate 8 0
  x : Vector Word 8 := Vector.replicate 8 0
  pc : Word := 0
  ctl : Ctl := {}
  ident : Ident := {}
  /-- The core it is on (R26 index 1). -/
  core : Nat := 0
  place : Place := .ready
  fetch : Fetch := .idle
  /-- The address of the instruction whose completion led to the fetch (R36). -/
  prevPc : Word := 0
  wait : Option Wait := none
  /-- The wait of the instruction at the PC while its strand, loaded into a slot again after a yield, waits for the fetch of
  that instruction: its limit keeps running (R184). -/
  kept : Option Wait := none
  /-- The cycle in which the instruction at the PC was first tried against a held range (R206), if it is held. -/
  heldSince : Option Nat := none
  /-- The ring (core and number) that the holding command waits for, while `heldSince` runs, and the length of the instruction that is
  held (R206). -/
  heldRing : Nat × Nat := (0, 0)
  heldLen : Nat := 0
  /-- The word that a tagged-word queue handed over to its waiting instruction (R187). -/
  grant : Option Word := none
  /-- What its `SBIND.W` or `CKPT` has read so far (R333, R357). -/
  bind : BindWork := {}
  /-- Turns that the instruction at the PC still takes, the last of which performs it (R117, R134); 0 outside such an
  instruction. -/
  owe : Nat := 0
  /-- The first cycle in which it may issue after entering a slot (R167). -/
  readyAt : Nat := 0
  /-- Turns of its slot since it took it (R168). -/
  turns : Nat := 0
  /-- Migration home and count (R239). -/
  mhome : Nat := 0
  mcount : Nat := 0
  /-- Span set (R283). -/
  span : NatSet := []
  /-- Closes of the span not yet acknowledged (R283). -/
  closes : Nat := 0
  /-- Deferred failures by the number of the access, so in issue order (R255). -/
  fails : Tbl Failure := []
  /-- A fault found while it did not run (R384), with the length of the instruction it takes it at. -/
  upcall : Option (FaultRec × BitVec 2) := none
  /-- The register an `LD.ACQ` or the like must fill before later accesses (R257). -/
  acq : Option FillReg := none
  /-- Containment retries in a row and their address (R387). -/
  retries : Nat := 0
  retryPc : Word := 0
  /-- Barriers executed (R194). -/
  barriers : Nat := 0
  /-- `QFENCE` orders in force for later commands: after-set and the commands waited for (R330). -/
  qfences : List (BitVec 4 × NatSet) := []
  /-- The cycle of its last yield, and the slot it left in it (R167). -/
  left : Nat × Nat := (0, 0)
  /-- Ranges of the `CKPT` at which it stopped (R332): whether of operand memory, start, and length. -/
  ranges : List (Bool × Nat × Nat) := []
  deriving DecidableEq, Repr

/-! ### Translation (R241-R245) -/

/-- A TLB entry: tag word, leaf and companion (R241, R242). -/
structure TlbEntry where
  tag : Word := 0
  leaf : Word := 0
  comp : Word := 0
  deriving DecidableEq, Repr

/-- Who waits for something at a core or a home. -/
inductive Waiter where
  /-- A strand, for a data access of its instruction. -/
  | strand (g : Nat)
  /-- A strand, for the fetch of its instruction. -/
  | fetch (g : Nat)
  | engine (core q : Nat)
  | req (r : Nat)
  /-- The firing queue of a binding of a die, for the physical address of its kernel's argument (R350). -/
  | firing (die bind : Nat)
  deriving DecidableEq, Repr

/-- The strand that waits, if one does. -/
def Waiter.strand? : Waiter → Option Nat
  | .strand g | .fetch g => some g
  | _ => none

/-- An outstanding miss of a core (R244). -/
structure Miss where
  joined : List Waiter := []
  deriving DecidableEq, Repr

/-! ### Engines (R313-R330) -/

/-- What an engine command does, as accepted. -/
inductive CmdOp where
  /-- `MLOAD` (R214). -/
  | mload (slot addr : Nat) (fmt : Fmt) (tr : TileTr)
  /-- `MSTORE` (R216) with the rounding controls and the slot's tag as they stood at acceptance. -/
  | mstore (d : SReg) (slot addr : Nat) (fmt : Fmt) (fpm : BitVec 4) (tag : Option Nat)
  /-- `MZERO` (R215). -/
  | mzero (slot : Nat) (int : Bool)
  /-- `CPY` (R318): the three words. -/
  | cpy (dst src ctl : Word)
  /-- `GWIN` (R322): window and the two words. -/
  | gwin (w : Nat) (x0 x1 : Word)
  /-- `GUNB` (R323). -/
  | gunb (w : Nat)
  /-- `WPOST` and `WPOST.G` (R421). -/
  | wpost (get : Bool) (x0 x1 x2 : Word)
  /-- A stream command (R353): which, its operand words, its stream's record size and the number of that stream's definition (R358). -/
  | stream (op : Nat) (a b : Word) (rs gen : Nat)
  /-- A core's preload for a gang that is being launched (R177): words of its list that have been read, and then the 64-byte units, each
  from a virtual address to a scratchpad address. -/
  | preload (words : List Word) (units : Option (List (Nat × Nat)))
  deriving DecidableEq, Repr

/-- A unit of a command under way: read data waiting to be written, or a write waiting to be performed. -/
structure UnitSt where
  data : List Byte := []
  poison : Bool := false
  have_ : Bool := false
  /-- Its write is under way. -/
  writing : Bool := false
  /-- Its read has failed (R317, R324). -/
  fail : Option Cause := none
  deriving DecidableEq, Repr

/-- An accepted, unfinished engine command. -/
structure Cmd where
  id : Nat
  strand : Nat
  gang : Nat
  pc : Word
  op : CmdOp
  /-- Commands it may not start before (R330). -/
  after : NatSet := []
  started : Bool := false
  /-- The next unit to be moved and the writes still to be performed. -/
  unit : Nat := 0
  open_ : Nat := 0
  /-- The unit read and not yet written. -/
  hold : UnitSt := {}
  /-- Units that a copy has asked for and not yet taken (R320), by number; the next unit to be asked for, and the first cycle in which it
  can be. -/
  ahead : Tbl UnitSt := []
  asked : Nat := 0
  askAt : Nat := 0
  /-- First missing element and how many (R324). -/
  missing : Nat := 0
  missAddr : Word := 0
  missLast : Option Nat := none
  /-- Indices that a get copied at its acceptance (R423). -/
  idx : List Nat := []
  /-- Units of the tile that an `MLOAD` has read (R214). -/
  got : List (List Byte × Bool) := []
  /-- It stopped with a failure (R317). -/
  failed : Bool := false
  /-- Scratchpad bytes and slots it reads and writes (R206): half-open ranges of 64-byte units, and slots. -/
  rdSp : List (Nat × Nat) := []
  wrSp : List (Nat × Nat) := []
  rdOm : List Nat := []
  wrOm : List Nat := []
  /-- The ring slot it is filling (R329), and the ring (core and number) it waits for. -/
  ringSlot : Option Nat := none
  ringWait : Option (Nat × Nat) := none
  /-- The core its strand was on when it ended (R317, R387), once it has. -/
  last : Option Nat := none
  deriving DecidableEq, Repr

/-- A failure of a command that no `QWAIT` has raised yet (R317). -/
structure CmdFail where
  strand : Nat
  queue : Nat
  /-- The PC of the command's instruction. -/
  pc : Word
  fault : FaultRec
  deriving DecidableEq, Repr

/-- A ring (R325, R326). -/
structure Ring where
  base : Nat
  size : Nat
  count : Nat
  free : Nat
  filled : Nat
  head : Nat
  tail : Nat
  gov : Bool
  high : Nat
  low : Nat
  prod : Nat
  cons : Nat
  deriving DecidableEq, Repr

/-- A gather window whose `GWIN` has been performed (R322), with its stored indices. -/
structure GWindow where
  rsz : Nat
  tbase : Nat
  rcnt : Nat
  nidx : Nat
  idx : List Nat
  gang : Nat
  deriving DecidableEq, Repr

/-- The destination of a `VLD` (R262): its row, the width of its elements and which of them are enabled, and the lines that have
arrived. -/
structure RowLoad where
  strand : Nat
  gang : Nat
  row : Nat
  width : Nat
  enabled : List Bool
  lines : Tbl (List Byte) := []
  left : Nat := 8
  failed : Bool := false
  deriving DecidableEq, Repr

/-- An array operation in progress (R204, R208, R219). -/
structure ArrayOp where
  strand : Nat
  gang : Nat
  pc : Word
  rot : Bool
  new_ : Bool
  a : Nat
  b : Nat
  c : Nat
  ra : Nat
  rb : Nat
  /-- The multiply's end. -/
  done : Nat
  /-- Tiles that have entered the neighbours' buffers, and how far the tiles for RA and RB are: 0 awaited, 1 being copied, 2
  written. -/
  sent : Nat
  gotA : Nat
  gotB : Nat
  /-- The result is formed from the operands as they stood at issue (R209). -/
  result : Nat
  nanAt : Option Nat
  flags : BitVec 6
  sat : Nat
  ctag : Nat
  deriving DecidableEq, Repr

/-- A tile in a landing buffer or waiting in the link before it (R218, R219): its tag, its bits, and the core that sent it. No
tile is poisoned, since the sender reads it under R316. -/
structure Tile where
  fmt : Nat
  bits : Nat
  from_ : Nat
  deriving DecidableEq, Repr

/-- A claim that waits (R212). -/
structure Claim where
  strand : Nat
  slot : Nat
  n : Nat
  deriving DecidableEq, Repr

/-- An entry of a tagged word's queue (R187): a waiting local instruction or a remote request. -/
structure TagWait where
  /-- The word's byte address. -/
  addr : Nat
  who : Waiter
  /-- It waits for a full tag (`TLDS`), or for an empty one (`TSTS`). -/
  full : Bool
  /-- The value a `TSTS` writes. -/
  val : Word
  deriving DecidableEq, Repr

/-- A core (R20-R25, R164-R168, R201-R219, R241, R313-R329). -/
structure Core where
  sp : Memory := []
  /-- Numbers of the 8-byte words whose tag is full (R23). -/
  tags : NatSet := []
  /-- Numbers of the 64-byte units that are poisoned (R316). -/
  spPoison : NatSet := []
  om : Memory := []
  omPoison : NatSet := []
  /-- Tags of the operand-memory slots; a slot not listed has the tag NONE (R201). -/
  omTag : Tbl Nat := []
  /-- Holders of the slots; a slot not listed is free (R202). -/
  omHold : Tbl Nat := []
  /-- Slots released while commands that name them are unfinished, with those commands (R213). -/
  omRelease : Tbl NatSet := []
  claims : List Claim := []
  array : Option ArrayOp := none
  landE : List Tile := []
  landS : List Tile := []
  /-- The four queues COPY, GATHER, MATRIX, STREAM (R313). -/
  queues : Vector (List Cmd) 4 := Vector.replicate 4 []
  cmdFails : Tbl CmdFail := []
  windows : Tbl GWindow := []
  /-- Windows as acceptance sees them (R322, R323): row size, index count and gang of each bound one. -/
  bound : Tbl (Nat × Nat × Nat) := []
  rings : Tbl Ring := []
  /-- Who waits for a slot of a ring: the ring, whether for a free slot, and the waiter, in order of first attempts (R328). -/
  ringWaits : List (Nat × Bool × Waiter) := []
  rowLoads : Tbl RowLoad := []
  /-- Banks from which no strand reads in this cycle, and to which none writes, since engines, other cores or row loads use them in it (R24,
  R180); the rows that those write, and that engines read. -/
  bankWr : List Nat := []
  bankNo : List Nat := []
  engWr : List Nat := []
  engRd : List Nat := []
  /-- Banks that engine writes leave to the turn of this cycle, and those of them that the strand of the turn reads (R180). -/
  engWish : List Nat := []
  strandRd : List Nat := []
  /-- The 256 TLB entries; one not listed is invalid (R241). -/
  tlb : Tbl TlbEntry := []
  tlbPtr : Nat := 0
  misses : Tbl Miss := []
  /-- `ctl.rot` as written, and the mode in force (R102, R165). -/
  rot : Bool := true
  rotNow : Bool := true
  bslim : Nat := 256
  starve : Nat := 32768
  slots : Vector (Option Nat) 16 := Vector.replicate 16 none
  /-- Cycle after the one in which each slot last issued; 0 if it has not (R165). -/
  issued : Vector Nat 16 := Vector.replicate 16 0
  /-- Slots that a repaired core lacks (R164); none on a core that needed no repair. (DESIGN CHOICE, log 3) -/
  missing : NatSet := []
  ready : List Nat := []
  /-- Local indices taken (R177). -/
  locals_ : NatSet := []
  tagWaits : List TagWait := []
  deriving DecidableEq, Repr

/-! ### Homes (R224-R251) -/

/-- State of a frame's block (R227). -/
inductive FrameSt where
  | fetching (kept : Bool) | resident (kept : Bool)
  deriving DecidableEq, Repr

/-- A frame that holds or awaits a block (R227), with its dirty lines and its arrival set (R234). -/
structure Frame where
  st : FrameSt
  dirty : NatSet := []
  arr : List Waiter := []
  /-- Watchers' reloads under way (R261). -/
  reloads : NatSet := []
  /-- The block arrived in this cycle; it is evicted when its arrival set has become empty, or 1,024 cycles after arriving
  with an empty one (R235). -/
  at_ : Nat := 0
  hadArr : Bool := false
  /-- The fetch is a patrol's (R250): it delivers no fault. -/
  patrol : Bool := false
  /-- The block of an ELIDED granule: it arrives as zeros, without reading the DRAM (R249). -/
  zeros : Bool := false
  deriving DecidableEq, Repr

/-- A waiter with its park time (R230). -/
structure Parked where
  who : Waiter
  park : Nat
  deriving DecidableEq, Repr

/-- A waiter queue (R230). -/
structure WaitQ where
  waiters : List Parked := []
  /-- The cycles of its weight-only entries (R231). -/
  wants : List Nat := []
  /-- The cycle in which it was marked kept, if it is. -/
  keptAt : Option Nat := none
  inFlight : Bool := false
  deriving DecidableEq, Repr

/-- An access at a home's port (R225, R229): its request, the first cycle in which it can be performed, and what it is: 0 a further
line of a checked row (R282), 1 a watcher's reload (R261), 2 a further line of another access (R262, R263), 3 any other. -/
structure PortEntry where
  req : Nat
  from_ : Nat
  cls : Nat
  deriving DecidableEq, Repr

/-- A transfer of a home's channel that has not ended (R233): its block, whether it is a fetch, the first cycle in which it may begin,
its length, and the cycle in which it begins as things stand. -/
structure Xfer where
  blk : Nat
  fetch : Bool
  ready : Nat
  len : Nat
  begin_ : Nat
  deriving DecidableEq, Repr

/-- The records of a checked line (R284): writer and readers, each a strand and the cycle. -/
structure CheckRec where
  writer : Option (Nat × Nat) := none
  readers : List (Nat × Nat) := []
  deriving DecidableEq, Repr

/-- A home (R224-R251, R284-R287). -/
structure Home where
  /-- Blocks in frames, by block number. -/
  frames : Tbl Frame := []
  /-- Write-backs under way: block, whether the frame counts against the cap, the cycle it ends. -/
  wbs : List (Nat × Bool × Nat) := []
  queues : Tbl WaitQ := []
  overflow : List (Nat × Parked × Bool) := []
  /-- Requests that wait in the mesh for a buffer entry (R229). -/
  mesh : List Nat := []
  /-- Watching requests, in the order in which they began (R260). -/
  watchers : List Nat := []
  /-- The next cycle in which the port is free (R225), and the accesses at it. -/
  portNext : Nat := 0
  port : List PortEntry := []
  /-- The channel's transfers that have not ended, in the order in which they were started, and the end of the last (R233). -/
  chan : List Xfer := []
  chanEnd : Nat := 0
  /-- Granules whose rows are being set to zeros, each with the end of that (R249). -/
  zeroing : Tbl Nat := []
  check : Tbl CheckRec := []
  /-- LIVE granules (R249). -/
  live : NatSet := []
  /-- Granules whose checkpoint-set bit is 1 (R250). -/
  ckset : NatSet := []
  /-- Refresh credits by bank; a bank not listed has credit 0 (R248). (DESIGN CHOICE, log 4) -/
  credit : Tbl Nat := []
  /-- End of each bank's last refresh. -/
  bankBusy : Tbl Nat := []
  phase : Bool := false
  corr : Nat := 0
  uncorr : Nat := 0
  starved : Nat := 0
  keepDeny : Nat := 0
  wantDrop : Nat := 0
  elideReg : Word := 0
  cksetReg : Word := 0
  patrol : Nat := 65536
  /-- The block from which patrol goes on (R250): 0 after a reset. (DESIGN CHOICE, log 4) -/
  patrolPos : Nat := 0
  disp : Nat := 0
  conf : Nat := 0
  /-- The cycle after that of its last fetch (R232). -/
  fetchAt : Nat := 0
  deriving DecidableEq, Repr

/-! ### Accesses under way -/

/-- A write that a stream unit or a dispatcher makes at a home (R172, R173, R346, R350). -/
inductive UnitOp where
  /-- Bytes within one line, with the line's poison when they are the whole of it. -/
  | bytes (d : List Byte) (poison : Bool)
  /-- A doubleword. -/
  | word (v : Word)
  /-- The decrement of a PRED by a completion event (R173). -/
  | dec
  /-- STATUS := WAITING by a stream unit, with the WIN and AMEND that the dispatcher keeps (R350). -/
  | arm (win amend : Word)
  /-- A dispatcher's write to a STATUS word (R172): STATE, and ERR, FPF with NP in bit 6, and one more in INST, where given. -/
  | status (state : Nat) (err : Option Nat) (fpf : Option Nat) (inst : Bool)
  deriving DecidableEq, Repr

/-- What the performing of a unit's write leads to, once the unit knows of it. -/
inductive UnitNote where
  | none
  /-- A pane write of a binding of a die, and the `SEMIT` (core and command) that caused it. -/
  | pane (die bind : Nat) (cmd : Option (Nat × Nat))
  /-- The step of R350 that a binding of a die is at. -/
  | step (die bind : Nat)
  /-- The reply to an `SBIND`. -/
  | bound (die m : Nat)
  /-- The decrements of nodes, each a die and a node (R173, R178). -/
  | succ (die : Nat) (nodes : List (Nat × Nat))
  /-- One line of a gang's save area (R394). -/
  | save (gang : Nat)
  /-- A line of the record of a node of a die (R172): which of the two. -/
  | record (die node part : Nat)
  /-- An entry of the successor list of a gang (R178), by its number. -/
  | more (gang k : Nat)
  /-- A unit of a gang's save area for one of its cores (R398): whether of operand memory, the unit, and whether it is written poisoned. -/
  | restore (gang core : Nat) (om : Bool) (unit : Nat) (poison : Bool)
  deriving DecidableEq, Repr

/-- What a request asks of its home. -/
inductive Access where
  /-- A read of `n` bytes for a register (R256). -/
  | load (n : Nat) (dst : FillReg)
  /-- A read of the halfwords of an instruction (R454): `n` bytes; the second of two events follows when `more`. -/
  | fetch (n : Nat) (more : Bool)
  /-- Consecutive bytes to be written; `none` leaves a byte (R258, R263). -/
  | store (data : List (Option Byte))
  | amo (fn : AmoFn) (v : Word) (dst : SReg)
  | cas (e v : Word) (dst : SReg)
  | red (fn : RedFn) (v : Word)
  | ldw (cmp : Word) (dst : SReg)
  /-- One line of a `VLD` (R262). -/
  | row (load line : Nat)
  /-- Row copy (R247): source row, or zeros. -/
  | bcopy (src : Option Nat)
  | want | keep | free
  /-- A read of `n` bytes by the command `id` of a queue, which calls it `unit`, or its write of one unit (R315). -/
  | engRead (q id unit n : Nat)
  | engWrite (q id : Nat) (data : List (Option Byte)) (poison : Bool)
  /-- A host read of `n` bytes, or write, which may be poisoned (R412, R413). -/
  | hostRead (n : Nat)
  | hostWrite (data : List Byte) (poison : Bool)
  /-- A close of a strand's span (R283). -/
  | close (g : Nat)
  /-- A dispatcher's or stream unit's write (R172, R350), or its read of `n` bytes. -/
  | unitWrite (op : UnitOp) (note : UnitNote)
  | unitRead (n : Nat) (note : UnitNote)
  /-- A publication, with the issuing strand's `id.amend` (R362). -/
  | spub (v : Word) (amend : Nat)
  /-- A read of `n` bytes that an `SBIND.W` or a `CKPT` goes on with (R333, R357). -/
  | look (n : Nat)
  /-- A read of a result entry into two registers (R363). -/
  | sread (dst : SReg)
  /-- The write of a unit that another device put into window `win` (R422), for the sender's tag. -/
  | fabWrite (win tag : Nat) (data : List Byte) (poison : Bool)
  /-- The read of one unit of a row that device `peer` gets from window `win` (R423). -/
  | fabRead (win tag peer : Nat)
  /-- The read or the write of one unit by the copy of a migration slot (R415). -/
  | mig (slot : Nat) (put : Option (List Byte × Bool))
  deriving DecidableEq, Repr

/-- How far a request has come. -/
inductive Stage where
  | sent | port | behind | waiting | watching | done
  deriving DecidableEq, Repr

/-- A request under way to a home. -/
structure Req where
  acc : Access
  /-- The strand it belongs to, if one does. -/
  strand : Option Nat
  /-- The gang it belongs to. -/
  gang : Nat
  core : Nat
  home : Nat
  pa : Nat
  va : Word
  pc : Word
  stage : Stage := .sent
  kept : Bool := false
  checked : Bool := false
  /-- Performed out of an arrival set, so that times count from the arrival (R226). -/
  late : Bool := false
  /-- It holds an entry of its home's remote-request buffer (R228). -/
  buf : Bool := false
  /-- A line of the row load that it belongs to has failed (R255). -/
  bad : Bool := false
  /-- Its first line has been performed (R262, R263). -/
  cont : Bool := false
  /-- The strand that issued it, whose records a checked access meets and leaves (R284). -/
  owner : Option Nat := none
  /-- The core and the TLB entry through which it was translated, and the strands whose shoot-downs have invalidated that entry since
  (R246). -/
  via : Option (Nat × TlbEntry) := none
  shots : NatSet := []
  /-- Last cycle of an `LDW` (R260). -/
  limit : Option Nat := none
  /-- What the reply carries: the word, or of a unit's read the cycle in which it set out, and a failure or refusal. -/
  val : Word := 0
  data : List Byte := []
  fail : Option FaultRec := none
  retire : Retire := { len := 0 }
  deriving DecidableEq, Repr

/-- A remote tagged request or a fill on its way or held (R187, R190, R191). -/
structure Msg where
  /-- 0 `TLDS`, 1 `TSTS`, 2 `TSTR`, 3 fill. -/
  kind : Nat
  strand : Nat
  /-- The target core, or the target strand of a fill. -/
  target : Nat
  addr : Nat
  reg : FillReg
  val : Word
  limit : Option Nat
  /-- What the answer carries instead of a value. -/
  fail : Option FaultRec := none
  /-- It has arrived, in which cycle, and it is performed. -/
  arrived : Bool := false
  since : Nat := 0
  done : Bool := false
  deriving DecidableEq, Repr

/-! ### Graph nodes and gangs (R169-R181) -/

/-- The fields of a launch record (R170) that a placement uses. -/
structure LaunchRec where
  words : List Word
  deriving DecidableEq, Repr

/-- A node that is READY (R172, R176): its record copy, since when, and its failure count. -/
structure ReadyNode where
  node : Nat
  rec_ : LaunchRec
  since : Nat
  fails : Nat := 0
  /-- It is placed by a restore (R398). -/
  saved : Bool := false
  /-- RETRY at levels 1-5 has been used since the node was armed (R387). -/
  retried : Bool := false
  /-- Instances to be placed at once (R181). -/
  count : Nat := 1
  win : Word := 0
  amend : Word := 0
  deriving DecidableEq, Repr

/-- Phase of a placed gang: its preload, its run, the read of its list of further successors (R178), and its end before a relaunch. -/
inductive GangPhase where
  | preloading (left : Nat) | running | draining | relaunching
  deriving DecidableEq, Repr

/-- A placed gang (R177, R178). -/
structure Gang where
  die : Nat
  node : Nat
  rec_ : LaunchRec
  /-- Cores by gang position, row by row. -/
  cores : List Nat
  gw : Nat
  gh : Nat
  step : Bool
  phase : GangPhase := .running
  alive : NatSet := []
  fpf : BitVec 6 := 0
  np : Bool := false
  /-- Number of the open barrier, its arrivals, and the combines so far (R194). -/
  bark : Nat := 0
  arrived : NatSet := []
  barOr : Tri := .f
  barNp : Bool := false
  releasing : Bool := false
  since : Nat := 0
  retried : Bool := false
  /-- A containment decision ended it (R390): 0 none, else ERR = 4 with DONE (1) or FAULTED (2). -/
  ended : Nat := 0
  /-- Pre-emption: the request cycle while it is a victim (R392), how far its save is (R394): 1 its header and 2 its STATE being written, 3
  its request has lapsed while cores that had begun go on with their saves (R397), 0 otherwise; and the gang positions of the cores that have
  begun. Of a gang that is being restored, 1 once that has begun (R398). -/
  preempt : Option Nat := none
  saving : Nat := 0
  begun : NatSet := []
  noVictimUntil : Nat := 0
  /-- It is restored from a save area (R398). -/
  restored : Bool := false
  /-- Lines of its list of further successors that have been read (R178), behind each other. -/
  list : List Byte := []
  /-- A governor move stops it (R181). -/
  moving : Option Nat := none
  win : Word := 0
  amend : Word := 0
  deriving DecidableEq, Repr

/-- What a save holds for one core of a gang (R394, R395): ranges, each with the offset of its data in the area, the poisoned units of
both memories, command remainders with their queues, gather windows, the slots that each strand holds, and those whose release
waits for commands (R213). -/
structure SavedCore where
  ranges : List (Bool × Nat × Nat × Nat) := []
  spPoison : NatSet := []
  omPoison : NatSet := []
  cmds : List (Nat × Cmd) := []
  windows : List (Nat × GWindow) := []
  slots : List (Nat × Nat) := []
  releases : Tbl NatSet := []
  /-- Strands by ascending id. -/
  strands : List Nat := []
  deriving DecidableEq, Repr

/-- A saved gang (R394, R398), with the virtual address of its save area, the bytes laid out in it so far, and what it holds of each core,
in order of their positions. -/
structure Saved where
  gang : Gang
  area : Word
  len : Nat
  cores : List SavedCore
  deriving DecidableEq, Repr

end Sys2Proof.Machine
end

