-- ==== Sys2Proof/Machine/Units.lean ====
section
/-! DEFINITION. The parts of the state that belong to stream units, dispatchers, the fabric, the migration unit and the
package block. -/

namespace Sys2Proof.Machine

/-! ### Stream units (R340-R365) -/

/-- A source of a stream (R342, R343). -/
structure Source where
  wm : Int
  idle : Bool := false
  /-- The cycle of its last record or watermark (R343). -/
  last : Nat
  deriving DecidableEq, Repr

/-- A stream (R340, R356, R365). -/
structure Stream where
  /-- Record size in bytes. -/
  rs : Nat
  /-- Idle timeout in units of 256 cycles. -/
  idleT : Nat
  srcs : List Source
  wm : Int
  lower : Nat := 0
  badRec : Nat := 0
  /-- The number of its definition: a command accepted for an earlier stream of its index is discarded (R358). -/
  gen : Nat := 0
  deriving DecidableEq, Repr

/-- A pane slot's occupant (R346, R347): pane, on-time count, late count. -/
structure PaneSlot where
  pane : Nat
  main : Nat := 0
  late : Nat := 0
  deriving DecidableEq, Repr

/-- An instance that has fired and has not retired (R345, R348, R351). -/
structure Inst where
  /-- AMEND of its last decided firing. -/
  amend : Nat := 0
  /-- The cycle in which its amend hold started, while one runs. -/
  hold : Option Nat := none
  /-- Late counts of its panes at its last decided firing. -/
  prev : List Nat := []
  deriving DecidableEq, Repr

/-- A decided firing (R348, R349). -/
structure Firing where
  k : Nat
  amend : Nat
  last : Bool
  /-- On-time count, late count and previous late count of each pane. -/
  panes : List (Nat × Nat × Nat)
  /-- Number of the first request that is later than the decision. -/
  seq : Nat
  deriving DecidableEq, Repr

/-- A binding (R345, R346, R357). -/
structure Binding where
  stream : Nat
  origin : Int
  len : Nat
  hop : Nat
  late : Nat
  ahold : Nat
  pinit : Nat
  core : Nat
  area : Nat
  /-- Leaves of the area's 64 KiB virtual pages, kept since the binding was made (R357). -/
  map : List (Nat × Word)
  npane : Nat
  mcap : Nat
  lcap : Nat
  drn : Nat
  node : Nat
  outEn : Bool
  outStr : Nat
  outSrc : Nat
  /-- The first instance that exists (R345). -/
  k0 : Nat := 0
  insts : Tbl Inst := []
  slots : Tbl PaneSlot := []
  queue : List Firing := []
  /-- The step of R350 that the head firing is at, and the virtual address of its record: 0 when its write has not begun, 1 while pane
  writes are waited for, 6 while the node's ARG is read and 7 while it is translated, and then 2 to 5 while the header, the record, PRED
  and STATUS are written. -/
  step : Nat := 0
  recAt : Nat := 0
  /-- The firing whose kernel was armed last and has not completed (R350, R352). -/
  current : Option Firing := none
  tooLate : Nat := 0
  early : Nat := 0
  paneFull : Nat := 0
  fireFail : Nat := 0
  noWin : Nat := 0
  fired : Nat := 0
  /-- First firings that have completed from the first not completed on (R352). -/
  doneSet : NatSet := []
  doneTo : Nat := 0
  deriving DecidableEq, Repr

/-- An `SBIND` on its way to the unit (R358): its strand, its kind (0 `.s`, 1 `.w`, 2 `.off.s`, 3 `.off.w`), what it names, and what
it makes. -/
structure BindReq where
  strand : Nat
  core : Nat
  kind : Nat
  index : Nat
  stream : Option Stream := none
  binding : Option Binding := none
  fail : Option FaultRec := none
  deriving DecidableEq, Repr

/-! ### Dies (R164, R169-R182, R340, R391, R447) -/

/-- A pre-emption request in force on a die (R392): its cycle, the node waited for or none for a host request, and the
victims' gangs. -/
structure Preempt where
  at_ : Nat
  host : Bool
  victims : List Nat
  deriving DecidableEq, Repr

/-- A governor move that waits (R181): the giving instance's gang and the stage node that receives. -/
structure GovMove where
  gang : Nat
  fromNode : Nat
  toNode : Nat
  pipe : Nat
  role : Nat
  at_ : Nat
  deriving DecidableEq, Repr

/-- A die. -/
structure Die where
  ntbase : Word := 0
  lost : Nat := 0
  trig : Vector Word 16 := Vector.replicate 16 0
  clog0 : Word := 0
  clog1 : Word := 0
  ccnt : Nat := 0
  nodes : List ReadyNode := []
  /-- `id.win` and `id.amend` kept for a node's next placement (R350). -/
  kept : Tbl (Word × Word) := []
  /-- The cycle of the last placement pass, and whether one is in the calendar (R176). -/
  lastPass : Option Nat := none
  passDue : Bool := false
  preempt : Option Preempt := none
  moves : List GovMove := []
  streams : Tbl Stream := []
  bindings : Tbl Binding := []
  sbinds : Tbl BindReq := []
  /-- LOWER and BADREC of streams that are not defined (R364, R365). -/
  suCnt : Tbl (Nat × Nat) := []
  /-- Lines of records that have been read for nodes becoming READY (R172). -/
  reads : Tbl (List Byte) := []
  /-- The first cycle in which the unit has no stream event yet (R341). -/
  suNext : Nat := 0
  fmhz : Nat := 1600
  /-- Its own cycle count (R448), and the part of its next cycle that has passed, in 1600ths. -/
  count : Nat := 0
  frac : Nat := 0
  pwr : Nat := 0
  tmax : Nat := 0
  pcap : BitVec 16 := 500
  tgt : BitVec 8 := 95
  /-- Cycles counted under SEL 3 of R449, and fetches under SEL 4. -/
  starvedRings : Nat := 0
  fetches : Nat := 0
  deriving DecidableEq, Repr

/-! ### The package (R410-R426, R441-R453) -/

/-- A fabric window's four words (R420) with its ordered port (R425). -/
structure FabWin where
  w0 : Word := 0
  w1 : Word := 0
  w2 : Word := 0
  cnt : Word := 0
  port : Nat := 0
  deriving DecidableEq, Repr

/-- A unit sent to another device and not acknowledged (R422), or a get's row unit awaited (R423). -/
structure FabUnit where
  core : Nat
  queue : Nat
  cmd : Nat
  win : Nat
  off : Nat
  port : Nat
  /-- A get's unit: its number among the units of the command, and its data once it has arrived. -/
  get : Bool := false
  unit : Nat := 0
  got : Option (List Byte × Bool) := none
  missing : Bool := false
  deriving DecidableEq, Repr

/-- What the package sent on the fabric, to the host, or as an interrupt: the machine's outputs. -/
inductive Output where
  /-- A put unit on a port to a peer: remote window, offset, data, poison (R422). -/
  | putUnit (port peer rwin off tag : Nat) (data : List Byte) (poison : Bool)
  /-- A get request on a port for one row: remote window, offset, row size, and the number of the row's first unit (R423). -/
  | getReq (port peer rwin off rsz tag : Nat)
  /-- An acknowledgement or refusal of the arrived unit that its sender calls `tag` (R422). -/
  | ack (tag : Nat) (ok : Bool)
  /-- A unit served to a get of device `peer`, which calls it `tag`, or its failure (R423). -/
  | getData (peer tag : Nat) (ok : Bool) (data : List Byte) (poison : Bool)
  /-- A containment notice on a port (R419). -/
  | notice (port : Nat)
  /-- Completion of a host read: the data at an address and EP, or an error (1 Unsupported Request, 2 Completer Abort) (R413, R441,
  R446). -/
  | hostData (pa : Nat) (data : List Byte) (ep : Bool)
  | hostError (code : Nat)
  /-- A register read's value returned to the host. -/
  | regData (v : Word)
  /-- MSI-X vector (R446). -/
  | msix (n : Nat)
  /-- A migration copy reads, or writes with EP, a unit of host memory on a link (R415). -/
  | hostGet (link : Bool) (hpa : Nat)
  | hostPut (link : Bool) (hpa : Nat) (data : List Byte) (ep : Bool)
  deriving DecidableEq, Repr

/-- A migration slot (R414): its four words, and the copy under way. -/
structure MigSlot where
  vpn : Word := 0
  hpa : Word := 0
  ctl : Word := 0
  poison : Nat := 0
  lerr : Nat := 0
  cause : Nat := 0
  /-- 0 FREE, 1 COPYING, 2 DONE, 3 FAILED. -/
  state : Nat := 0
  unit : Nat := 0
  deriving DecidableEq, Repr

/-- The package block and what else belongs to the package as a whole (R441-R451). -/
structure Pkg where
  ready : Bool := false
  tfail : Bool := false
  bootErr : Bool := false
  halted : Bool := false
  /-- Life-cycle state, and one that a command has set for the next cold reset (R442, R444). A new part
  is in PRODUCTION. (DESIGN CHOICE, log 52) -/
  life : BitVec 2 := 2
  lifeNext : Option (BitVec 2) := none
  irq : BitVec 4 := 0
  preempt : Word := 0
  snapUser : Bool := false
  snapSeq : BitVec 32 := 0
  snapAt : Option Nat := none
  haltReg : Word := 0
  sysn : BitVec 14 := 0
  /-- Measurement register M, 64 bytes (R444). -/
  meas : List Byte := []
  nonce : List Byte := []
  quoteReq : Bool := false
  quote : List Byte := []
  /-- Thermally stopped: only a cold reset restarts (R447). -/
  thermal : Bool := false
  /-- Whether host link h is trained (R412): up after a reset. (DESIGN CHOICE, log 5) -/
  linkUp : Vector Bool 2 := Vector.replicate 2 true
  /-- Edges of the die mesh that have failed, as pairs a < b (R411). -/
  failedEdges : List (Nat × Nat) := []
  mig : Vector MigSlot 16 := Vector.replicate 16 {}
  /-- Main-memory requests held while READY is 0, in the order of their arrival (R443). -/
  heldReqs : List Nat := []
  devid : BitVec 13 := 0
  portUp : BitVec 24 := 0
  tmo : BitVec 32 := 262144
  fabLost : Nat := 0
  refused : Nat := 0
  cnote : Word := 0
  wins : Tbl FabWin := []
  units : Tbl FabUnit := []
  deriving DecidableEq, Repr

/-- The register blocks of BAR 0 (R446) as they stand at one moment: what their registers are read from. -/
structure Regs where
  now : Nat := 0
  pkg : Pkg := {}
  dies : Vector Die 4 := Vector.replicate 4 {}
  homes : Tbl Home := []
  /-- Contexts in each core's park store (R251). -/
  ctx : Tbl Nat := []
  deriving DecidableEq, Repr

end Sys2Proof.Machine
end

