-- ==== Sys2Proof/Machine/State.lean ====
section
/-! DEFINITION. The state of the package and its value right after reset. `exec` performs an instruction in the turn of the
strand `curId`; the rows without an encoding are the events of the other agents, whose particulars stand in `arg`. -/

namespace Sys2Proof.Machine

/-- The particulars of the event that a step performs (spec/95_what_each_step_holds.md): what it concerns and carries. Which
fields an event uses is stated with its meaning. -/
structure EvArg where
  die : Nat := 0
  id : Nat := 0
  idx : Nat := 0
  sub : Nat := 0
  n : Nat := 0
  v : Word := 0
  data : List Byte := []
  flag : Bool := false
  flag2 : Bool := false
  gen : Nat := 0
  deriving DecidableEq, Repr

/-- An event in the calendar: its cycle, its rank among the events of that cycle, and what it is. -/
structure Due where
  time : Nat
  rank : Nat
  ev : Instr
  arg : EvArg
  deriving DecidableEq, Repr

/-- The state of the package. -/
structure State where
  /-- The strand whose turn it is. The model's own field. (DESIGN CHOICE, log 11) -/
  curId : Nat := 0
  /-- The particulars of the event being performed. The model's own field. (DESIGN CHOICE, log 11) -/
  arg : EvArg := {}
  /-- All strands that have not exited, by global id (R26). -/
  strands : Tbl Strand := []
  /-- Cores by id; one not listed is as after the wipe. -/
  cores : Tbl Core := []
  /-- Homes by core id; one not listed is as after a cold reset. -/
  homes : Tbl Home := []
  dies : Vector Die 4 := Vector.replicate 4 {}
  gangs : Tbl Gang := []
  /-- Saved gangs (R394), by die × 16,384 + node. -/
  saved : Tbl Saved := []
  pkg : Pkg := {}
  /-- Main memory by physical address (R3); what is not listed reads 0. (DEDUCED, log 88) -/
  mem : Memory := []
  /-- Lines of main memory that are poisoned (R237). -/
  poison : NatSet := []
  /-- Lines that DRAM holds with an uncorrectable, or with a correctable, error: an outside input (R237).
  (DESIGN CHOICE, log 24) -/
  eccBad : NatSet := []
  eccSoft : NatSet := []
  /-- Requests under way, by number. -/
  reqs : Tbl Req := []
  /-- Tagged requests and fills under way or held, by number. -/
  msgs : Tbl Msg := []
  nextId : Nat := 0
  /-- The page tables that system software chose: leaf and companion by 64 KiB virtual page (R244). (DESIGN CHOICE, log 23) -/
  pages : Tbl (Word × Word) := []
  /-- The registers as they stood at the start of this cycle, and the snapshot copy (R450): 0 before
  the first. (DESIGN CHOICE, log 69) -/
  cycleRegs : Regs := {}
  snap : Regs := {}
  /-- The reference count (R448); with every die at 1.6 GHz it is every die's cycle count as well. (DESIGN CHOICE, log 1) -/
  now : Nat := 0
  /-- Events from outside the package still to come, and events due inside it. (DESIGN CHOICE, log 7, log 86) -/
  inputs : List (Instr × EvArg) := []
  cal : List Due := []
  /-- Cores that have still to take their turn in this cycle. (DESIGN CHOICE, log 87) -/
  issueQ : List Nat := []
  /-- What the package has sent out, latest first. -/
  outs : List Output := []
  deriving DecidableEq, Repr

/-- Why a step stops for good. There is no reason: the spec gives every step of this machine an effect (a strand's fault is
an upcall or goes to containment, R380, R381; a stopped package goes on counting, R448), so no constructor is needed. (DEDUCED, log 12) -/
inductive Fault where
  deriving DecidableEq, Repr

/-- Why an instruction has no meaning here. -/
inductive Refusal where
  /-- Raised by the arm of an instruction that is not modelled. Safe. -/
  | notModelled (mnemonic : String)
  deriving DecidableEq, Repr

/-- The outcome of a step. -/
abbrev Out := Host.Outcome State Fault Refusal

/-- The machine right after a cold reset (R441, R442): nothing runs, every register is at its reset, memory reads 0, and
training has not completed, so READY is 0 (R443). -/
def State.reset : State := {}

end Sys2Proof.Machine
end

