-- ==== Sys2Proof/Machine/Access.lean ====
section
/-! DEFINITION. Reading and writing the parts of the state, distances, the calendar, and the numbering of what is under
way. -/

namespace Sys2Proof.Machine

/-! ### Parts of the state -/

/-- The strand of a global id; an id that names none reads as a strand that has not started. -/
def State.strand (s : State) (g : Nat) : Strand := s.strands.getD g {}
/-- The strand whose turn it is. -/
def State.cur (s : State) : Strand := s.strand s.curId
/-- Replaces a strand. -/
def State.setStrand (s : State) (g : Nat) (c : Strand) : State := { s with strands := s.strands.set g c }
/-- Replaces the strand whose turn it is. -/
def State.setCur (s : State) (c : Strand) : State := s.setStrand s.curId c
/-- Changes a strand that exists. -/
def State.modStrand (s : State) (g : Nat) (f : Strand → Strand) : State := { s with strands := s.strands.modify g f }
/-- The core of an id. -/
def State.core (s : State) (c : Nat) : Core := s.cores.getD c {}
/-- Replaces a core. -/
def State.setCore (s : State) (c : Nat) (k : Core) : State := { s with cores := s.cores.set c k }
/-- Changes a core. -/
def State.modCore (s : State) (c : Nat) (f : Core → Core) : State := s.setCore c (f (s.core c))
/-- The home of a core. -/
def State.home (s : State) (h : Nat) : Home := s.homes.getD h {}
/-- Replaces a home. -/
def State.setHome (s : State) (h : Nat) (x : Home) : State := { s with homes := s.homes.set h x }
/-- Changes a home. -/
def State.modHome (s : State) (h : Nat) (f : Home → Home) : State := s.setHome h (f (s.home h))
/-- A die. -/
def State.die (s : State) (d : Nat) : Die := (s.dies[d]?).getD {}
/-- The cycle count of a core's die (R164). -/
def State.dieNow (s : State) (core : Nat) : Nat := (s.die (core / 192)).count
/-- The reference cycle in which a core's die will have counted `n` more cycles, as its clock stands (R448). -/
def State.dieTime (s : State) (core n : Nat) : Nat :=
  let d := s.die (core / 192)
  s.now + (n * 1600 - d.frac + d.fmhz - 1) / d.fmhz
/-- Replaces a die. -/
def State.setDie (s : State) (d : Nat) (x : Die) : State := { s with dies := s.dies.setIfInBounds d x }
/-- Changes a die. -/
def State.modDie (s : State) (d : Nat) (f : Die → Die) : State := s.setDie d (f (s.die d))
/-- Changes a gang. -/
def State.modGang (s : State) (g : Nat) (f : Gang → Gang) : State := { s with gangs := s.gangs.modify g f }
/-- Changes the package's own part. -/
def State.modPkg (s : State) (f : Pkg → Pkg) : State := { s with pkg := f s.pkg }
/-- Sends something out of the package. -/
def State.out (s : State) (o : Output) : State := { s with outs := o :: s.outs }
/-- Raises a bit of `pkg.irq` with its MSI-X vector (R446). -/
def State.irq (s : State) (n : Nat) : State :=
  (s.modPkg fun p => { p with irq := p.irq ||| BitVec.ofNat 4 (2 ^ n) }).out (.msix n)

/-! ### Where things are (R2, R226, R455) -/

/-- Die of a core (R2). -/
def dieOf (c : Nat) : Nat := c / 192
/-- Stack group of a core within its die (R2). -/
def sgOf (c : Nat) : Nat := c % 192 / 64
/-- Row of a core within its die (R2). -/
def rowOf (c : Nat) : Nat := c % 192 / 16
/-- Column of a core within its die (R2). -/
def colOf (c : Nat) : Nat := c % 16
/-- The core at a row and a column of a die (R2). -/
def coreAt (die row col : Nat) : Nat := die * 192 + row * 16 + col
/-- Bit of a core's stack group in GMASK (R242). -/
def groupBit (c : Nat) : Nat := dieOf c * 3 + sgOf c

/-- Distance of two numbers. -/
def gap (a b : Nat) : Nat := (a - b) + (b - a)

/-- The one-way latency between two cores' stops (R226). -/
def latency (a b : Nat) : Nat :=
  let xa := dieOf a % 2 * 16 + colOf a
  let xb := dieOf b % 2 * 16 + colOf b
  let ya := dieOf a / 2 * 12 + rowOf a
  let yb := dieOf b / 2 * 12 + rowOf b
  2 * (gap xa xb + gap ya yb) + 24 * (gap (dieOf a % 2) (dieOf b % 2) + gap (dieOf a / 2) (dieOf b / 2))

/-- Mesh stop of the dispatcher and governor of a die (R455). -/
def dispStop (die : Nat) : Nat := coreAt die 5 7
/-- Mesh stop of the stream unit of a die (R455). -/
def streamStop (die : Nat) : Nat := coreAt die 6 8
/-- Mesh stop of the translation core of a core's stack group (R455). -/
def walkStop (c : Nat) : Nat := coreAt (dieOf c) (4 * sgOf c + 1) 7
/-- Mesh stop of a host link (R455). -/
def linkStop (l : Bool) : Nat := if l then coreAt 3 11 15 else coreAt 0 0 0

/-- Home of a physical address (R224). -/
def homeOf (pa : Nat) : Nat := pa / 2 ^ 30
/-- Block number within the home (R224). -/
def blockOf (pa : Nat) : Nat := pa % 2 ^ 30 / 4096
/-- Granule within the home (R224). -/
def granuleOf (pa : Nat) : Nat := pa % 2 ^ 30 / 65536
/-- Line number of a physical address over the whole memory (R224). -/
def lineOf (pa : Nat) : Nat := pa / 64
/-- Bank of a physical address (R224). -/
def bankOf (pa : Nat) : Nat := pa / 4096 % 16
/-- Subarray of a physical address (R224). -/
def subarrayOf (pa : Nat) : Nat := pa % 2 ^ 30 / 2 ^ 23

/-! ### The calendar -/

/-- Enters an event behind every event of an earlier or the same cycle and rank. (DESIGN CHOICE, log 7) -/
def insertDue (e : Due) : List Due → List Due
  | [] => [e]
  | d :: t =>
    if e.time < d.time || (e.time == d.time && e.rank < d.rank) then e :: d :: t else d :: insertDue e t

/-- Enters an event in the calendar. -/
def State.at_ (s : State) (time rank : Nat) (ev : Instr) (arg : EvArg) : State :=
  { s with cal := insertDue ⟨time, rank, ev, arg⟩ s.cal }

/-- Removes an event from the calendar. -/
def State.unAt (s : State) (p : Due → Bool) : State := { s with cal := s.cal.filter fun d => !p d }

/-- Enters an event unless the calendar holds that event for that cycle. -/
def State.atTime (s : State) (time rank : Nat) (ev : Instr) (arg : EvArg) : State :=
  if s.cal.any fun d => d.ev == ev && d.arg == arg && d.time == time then s else s.at_ time rank ev arg

/-- Enters an event unless one like it (same row, `id`, `idx` and `sub`) stands in the calendar for that cycle or an earlier one. -/
def State.atOnce (s : State) (time rank : Nat) (ev : Instr) (arg : EvArg) : State :=
  if s.cal.any fun d => d.ev == ev && d.arg.id == arg.id && d.arg.idx == arg.idx && d.arg.sub == arg.sub && decide (d.time ≤ time) then s
  else s.at_ time rank ev arg

/-! ### Ranks of events within a cycle

Numbers below `rankExpiry` stand for requests that arrived from elsewhere in the cycle before, by the core they came from: they
come behind the accesses that strands issued in that cycle, and in order of core (R187, R229). -/

/-- Placement passes, which see what the cycles before theirs have left (R176). (DESIGN CHOICE, log 7) -/
def rankPass : Nat := 999
/-- Expiries of waits whose limit ended with the cycle before (R184: a condition met in the cycle of expiry counts). -/
def rankExpiry : Nat := 1000
/-- Arrivals of blocks, which commit at the start of a cycle (R18). The numbers from here on keep the order in which contexts
enter a ready list (R167). -/
def rankFill : Nat := 1001
/-- Replies to misses. -/
def rankMiss : Nat := 1002
/-- Replies to requests, acknowledgements and fills; to that of an `LDW` the number of the answering home is added (R167). -/
def rankReply : Nat := 1003
/-- Releases of barriers. -/
def rankBar : Nat := 2000
/-- Arrivals of migrating contexts. -/
def rankMig : Nat := 2001
/-- Work at homes, engines and units. -/
def rankWork : Nat := 2002
/-- Entries of slots, after what filled the ready list. -/
def rankSlot : Nat := 2003
/-- The fetch rule, and what waits for the other work of its cycle. -/
def rankLast : Nat := 2004
/-- Stream events of a cycle, in the order of R341: one put off from an earlier cycle, derived raises, idle timeouts, the host's,
the fabric's, and those of commands, to which the number of the core is added. -/
def rankSuQueued : Nat := 2100
/-- Derived raises. -/
def rankSuDerived : Nat := 2101
/-- Idle timeouts. -/
def rankSuIdle : Nat := 2102
/-- Host writes. -/
def rankSuHost : Nat := 2103
/-- Fabric events. -/
def rankSuFabric : Nat := 2104
/-- Commands. -/
def rankSuCmd : Nat := 2200
/-- What comes behind the turns of its cycle (R167): lapsed saves, and then restores and launches. -/
def rankAfter : Nat := 3000
/-- Restores and launches. -/
def rankLaunch : Nat := 3001
/-- Requests of engines to rings, behind the strands' of the cycle (R325): the core of the engine is added. -/
def rankRing : Nat := 3100
/-- Containment decisions, to which the faulting core and slot are added (R388). -/
def rankDecide : Nat := 4000

/-- Whether a request comes from the home's own core, and not over the mesh: a unit's request arrives at its stop as any
remote request does (R455). -/
def Req.isLocal (r : Req) : Bool :=
  r.core == r.home && (match r.acc with | .unitWrite _ _ | .unitRead _ _ | .hostRead _ | .hostWrite _ _ | .mig _ _ => false | _ => true)

/-- Die-to-die edges that a message from one die to another crosses: along X first (R410), each edge as a pair of dies. -/
def edges (a b : Nat) : List (Nat × Nat) :=
  (if a % 2 = b % 2 then [] else [(a / 2 * 2, a / 2 * 2 + 1)]) ++ (if a / 2 = b / 2 then [] else [(b % 2, b % 2 + 2)])

/-- Whether a message between two cores, or its answer, would cross an edge that has failed (R411). (DEDUCED, log 65) -/
def State.cut (s : State) (a b : Nat) : Bool :=
  !s.pkg.failedEdges.isEmpty &&
    (edges (dieOf a) (dieOf b) ++ edges (dieOf b) (dieOf a)).any fun e => s.pkg.failedEdges.contains e

/-- An access or a migration of a gang would cross a failed edge: it is discarded, and its gang is removed (R411). -/
def State.cutOff (s : State) (gang : Nat) : State := s.at_ s.now rankLast .dieEdgeFailure { id := gang, flag := true }

/-- Whether a request belongs to a gang. -/
def Req.owned (r : Req) : Bool :=
  match r.acc with
  | .unitWrite _ _ | .unitRead _ _ | .hostRead _ | .hostWrite _ _ | .close _ | .fabWrite _ _ _ _ | .fabRead _ _ _ | .mig _ _ => false
  | _ => true

/-- A request sets out for its home, where it arrives after the one-way latency (R226, R229). -/
def State.toHome (s : State) (n : Nat) (r : Req) : State :=
  if s.cut r.core r.home then
    let t := if r.owned then s.cutOff r.gang else s
    { t with reqs := t.reqs.erase n }
  else if r.isLocal then s.at_ s.now r.core .remoteRequestArrival { id := n }
  else s.at_ (s.now + latency r.core r.home + 1) r.core .remoteRequestArrival { id := n }

/-- Triggers of a die on a counter that moves from `old` to `new` fire when it reaches their threshold (R182, R449). -/
def State.crossed (s : State) (die sel old new : Nat) : State :=
  (List.range 16).foldl (init := s) fun s i =>
    let w := (((s.die die).trig[i]?).getD 0).toNat
    if w.testBit 31 && w / 2 ^ 16 % 2 ^ 8 == sel && decide (old < w / 2 ^ 32) && decide (w / 2 ^ 32 ≤ new) then
      s.at_ s.now rankWork .triggerFire { die := die, idx := i }
    else s

/-- Adds a request under a new number. -/
def State.addReq (s : State) (r : Req) : State :=
  { s with reqs := s.reqs.set s.nextId r, nextId := s.nextId + 1 }

/-- Adds a message under a new number. -/
def State.addMsg (s : State) (m : Msg) : State :=
  { s with msgs := s.msgs.set s.nextId m, nextId := s.nextId + 1 }

/-- Changes a request. -/
def State.modReq (s : State) (r : Nat) (f : Req → Req) : State := { s with reqs := s.reqs.modify r f }

/-! ### Kinds of accesses -/

/-- Whether an access is a store under the limits of R254. -/
def Access.isStore : Access → Bool
  | .store _ | .bcopy _ | .spub _ _ => true
  | _ => false
/-- Whether an access is a reduction. -/
def Access.isRed : Access → Bool
  | .red _ _ => true
  | _ => false
/-- Whether an access is one line of a row load. -/
def Access.isRow : Access → Bool
  | .row _ _ => true
  | _ => false

/-- Whether an access writes for its gang, so that the gang's completion waits for it (R178). -/
def Access.isWrite : Access → Bool
  | .store _ | .bcopy _ | .spub _ _ | .red _ _ | .engWrite _ _ _ _ | .row _ _ => true
  | _ => false

/-! ### Registers of a strand -/

/-- The value an `s` register holds; `s0` reads as zero (R10). -/
def Strand.sVal (c : Strand) (r : SReg) : Word := if r = 0 then 0 else c.s[r.toNat]'r.isLt
/-- The value an `iv` register's storage holds. -/
def Strand.ivVal (c : Strand) (r : IvReg) : Word := c.iv[r.toNat]'r.isLt
/-- The fill state of an `s` register; `s0` is always full (R16). -/
def Strand.sState (c : Strand) (r : SReg) : Fill := if r = 0 then .full else c.sFill[r.toNat]'r.isLt
/-- The fill state of an `iv` register. -/
def Strand.ivState (c : Strand) (r : IvReg) : Fill := c.ivFill[r.toNat]'r.isLt
/-- The fill state of a register of either class. -/
def Strand.fillState (c : Strand) : FillReg → Fill
  | .s n => c.sState n
  | .iv n => c.ivState n

/-- Puts an `s` register in a fill state; `s0` stays full (R16). -/
def Strand.setSFill (c : Strand) (r : SReg) (f : Fill) : Strand :=
  if r = 0 then c else { c with sFill := c.sFill.set r.toNat f r.isLt }
/-- Puts an `iv` register in a fill state. -/
def Strand.setIvFill (c : Strand) (r : IvReg) (f : Fill) : Strand :=
  { c with ivFill := c.ivFill.set r.toNat f r.isLt }
/-- Puts a register of either class in a fill state. -/
def Strand.setFill (c : Strand) : FillReg → Fill → Strand
  | .s n, f => c.setSFill n f
  | .iv n, f => c.setIvFill n f

/-- Writes an `s` register, which becomes full; a write to `s0` is discarded (R10, R15). -/
def Strand.writeS (c : Strand) (r : SReg) (v : Word) : Strand :=
  if r = 0 then c
  else { c with s := c.s.set r.toNat v r.isLt, sFill := c.sFill.set r.toNat .full r.isLt }
/-- Writes an `iv` register, which becomes full (R15). -/
def Strand.writeIv (c : Strand) (r : IvReg) (v : Word) : Strand :=
  { c with iv := c.iv.set r.toNat v r.isLt, ivFill := c.ivFill.set r.toNat .full r.isLt }
/-- Writes a register of either class. -/
def Strand.writeFill (c : Strand) : FillReg → Word → Strand
  | .s n, v => c.writeS n v
  | .iv n, v => c.writeIv n v

/-- A pointer register. -/
def Strand.pVal (c : Strand) (r : PReg) : BitVec 32 := c.p[r.toNat]'r.isLt
/-- Writes a pointer register. -/
def Strand.writeP (c : Strand) (r : PReg) (v : BitVec 32) : Strand := { c with p := c.p.set r.toNat v r.isLt }
/-- A predicate; `q0` reads T (R10). -/
def Strand.qVal (c : Strand) (r : QReg) : Tri := if r = 0 then .t else c.q[r.toNat]'r.isLt
/-- Writes a predicate; a write to `q0` is discarded (R10). -/
def Strand.writeQ (c : Strand) (r : QReg) (v : Tri) : Strand :=
  if r = 0 then c else { c with q := c.q.set r.toNat v r.isLt }
/-- A mask; `k0` reads as all ones (R10). -/
def Strand.kVal (c : Strand) (r : KReg) : BitVec 128 := if r = 0 then BitVec.allOnes 128 else c.k[r.toNat]'r.isLt
/-- Writes a mask; a write to `k0` is discarded (R10). -/
def Strand.writeK (c : Strand) (r : KReg) (v : BitVec 128) : Strand :=
  if r = 0 then c else { c with k := c.k.set r.toNat v r.isLt }
/-- An `x` register. -/
def Strand.xVal (c : Strand) (r : XReg) : Word := c.x[r.toNat]'r.isLt
/-- The `x` register `n` beyond another, modulo the eight. -/
def Strand.xAt (c : Strand) (r : XReg) (n : Nat) : Word := c.xVal (r + BitVec.ofNat 3 n)
/-- Writes an `x` register. -/
def Strand.writeX (c : Strand) (r : XReg) (v : Word) : Strand := { c with x := c.x.set r.toNat v r.isLt }

/-- Whether a strand holds a slot. -/
def Strand.slot? (c : Strand) : Option Nat :=
  match c.place with
  | .slot n => some n
  | _ => none

/-- The register's number and class as `ctl.tinfo` receives them (R17, R377). -/
def fillInfo : FillReg → Word
  | .s n => BitVec.ofNat 64 n.toNat
  | .iv n => BitVec.ofNat 64 (n.toNat + 256)

end Sys2Proof.Machine
end

