-- ==== Sys2Proof/Machine/Operands.lean ====
section
/-! DEFINITION. How an instruction reads its operands and how it can end without retiring (R15-R19, R22, R32, R255), and
what retiring does to the strand: marks, destinations, pointers and the program counter. -/

namespace Sys2Proof.Machine

/-- How an instruction ends when it does not retire (R32, R164): nothing of its effect is visible. -/
inductive Stop where
  /-- It faults. -/
  | fault (f : FaultRec)
  /-- It meets the failure of the reply to a register, which is then empty with no reply pending (R255). -/
  | failReg (r : FillReg) (f : Failure)
  /-- A drain meets the earliest deferred failure (R255): the number of the access. -/
  | failAcc (id : Nat) (f : Failure)
  /-- A `QWAIT` meets the failure of a command (R317): the number of the command. -/
  | failCmd (id : Nat) (f : FaultRec)
  /-- It leaves the rotation to wait, with a limit in cycles if the wait is bounded (R17, R184). -/
  | wait (k : WaitKind) (lim : Option Nat)
  /-- It forfeits its turn and is tried again in the next (R24, R104). -/
  | forfeit
  /-- It forfeits its turn behind the scoreboard; the ring (core and number) that the holding command waits
  for, if it does (R206). -/
  | held (ring : Option (Nat × Nat))
  deriving DecidableEq, Repr

/-! ### Reading registers -/

/-- The strand's register wait limit in cycles (R17); none is unbounded. -/
def Strand.wlim (c : Strand) : Option Nat := if c.ctl.wlim = 0 then none else some (c.ctl.wlim.toNat * 256)

/-- The limit that a LIM10 field gives (R46). -/
def Strand.lim10 (c : Strand) (l : BitVec 10) : Option Nat :=
  if l = 0 then c.wlim else if l = 0x3FF then none else some (l.toNat * 256)

/-- A read meets a register's fill state (R15, R17, R255). -/
def needFull (c : Strand) (r : FillReg) : Except Stop Unit :=
  match c.fillState r with
  | .full => .ok ()
  | .dead => .error (.fault ⟨.dead, 0, fillInfo r⟩)
  | .failed f => .error (.failReg r f)
  | _ => .error (.wait (.fill r) c.wlim)

/-- `ReadS` (R15). -/
def readS (c : Strand) (r : SReg) : Except Stop Word := (needFull c (.s r)).map fun _ => c.sVal r

/-- Reads an `iv` register (R15). -/
def readIv (c : Strand) (r : IvReg) : Except Stop Word := (needFull c (.iv r)).map fun _ => c.ivVal r

/-- A register that is to be written, or emptied, waits for a reply that is pending for it (R15). -/
def needFree (c : Strand) (r : FillReg) : Except Stop Unit :=
  match c.fillState r with
  | .pending => .error (.wait (.pend r) c.wlim)
  | _ => .ok ()

/-- An access that follows an `LD.ACQ` waits as a read of its destination does until the reply has filled it (R257).
(DEDUCED, log 14) -/
def needAcq (c : Strand) : Except Stop Unit :=
  match c.acq with
  | none => .ok ()
  | some r =>
    match c.fillState r with
    | .pending => .error (.wait (.fill r) c.wlim)
    | .failed f => .error (.failReg r f)
    | _ => .ok ()

/-! ### Pointers (R11, R12, R22) -/

/-- ADDR of a pointer (R11). -/
def ptrAddr (p : BitVec 32) : Nat := p.toNat % 2 ^ 19
/-- A pointer after a post-incrementing use (R12). -/
def ptrNext (p : BitVec 32) : BitVec 32 :=
  BitVec.ofNat 32 (p.toNat / 2 ^ 19 * 2 ^ 19 + (p.toNat % 2 ^ 19 + p.toNat / 2 ^ 19 * 512) % 2 ^ 19)
/-- Applies the increment of a pointer that an instruction names with its increment flag. -/
def Strand.stepP (c : Strand) (r : PReg) (inc : Bool) : Strand := if inc then c.writeP r (ptrNext (c.pVal r)) else c

/-! ### Retiring -/

/-- A last-use mark on an `s` source (R19). -/
def Strand.markS (c : Strand) (r : SReg) (l : Bool) : Strand := if l then c.setSFill r .dead else c
/-- A last-use mark on an `iv` source (R19). -/
def Strand.markIv (c : Strand) (r : IvReg) (l : Bool) : Strand := if l then c.setIvFill r .dead else c

/-- Goes on at another address: the instruction's turn is over, and the fetch there has not started (R95, R454). -/
def Strand.goto (c : Strand) (target : Word) : Strand :=
  { c with
    prevPc := c.pc
    pc := target
    fetch := .idle
    wait := none
    kept := none
    heldSince := none
    grant := none
    bind := {}
    owe := 0
    retries := if c.pc = c.retryPc then c.retries else 0 }

/-- Goes on behind an instruction of `len` bytes. -/
def Strand.advance (c : Strand) (len : Nat) : Strand := c.goto (c.pc + BitVec.ofNat 64 len)

/-- The effects of retiring that a reply completes later (R19): marks, then the destination, then the program counter. -/
def Strand.retire (c : Strand) (r : Retire) (v : Word) : Strand :=
  let c1 := r.marksS.foldl (fun c n => c.setSFill n .dead) c
  let c2 := r.marksIv.foldl (fun c n => c.setIvFill n .dead) c1
  let c3 := match r.dst with
    | .none => c2
    | .s n => c2.writeS n v
    | .iv n => c2.writeIv n v
  let c4 := match r.ptr with
    | some p => c3.stepP p true
    | none => c3
  c4.advance r.len

/-- Retiring with a reply: the fetch of the next instruction has started in the turn that issued this one (R454). -/
def Strand.complete (c : Strand) (r : Retire) (v : Word) : Strand := { c.retire r v with fetch := c.fetch }

/-- The registers among a list that their mark bits name. -/
def marked {α : Type} (l : List (α × Bool)) : List α := (l.filter (·.2)).map (·.1)

/-! ### Addresses of the scratchpad -/

/-- The largest scratchpad address (R21). -/
def spLast : Nat := 0x5FFFF

/-- The checks of row operands (R22, R115), each an address with what `ctl.tinfo` receives for it: fault 0x06 on any
before fault 0x05 on any, for the first operand that has it. `ctl.taddr` receives the operand's ADDR, from which the row lies as far as
its index in bits 7:2 of the information says. -/
def rowsCheck (rows : List (Nat × Nat)) : Except Stop Unit :=
  match rows.find? fun r => decide (spLast < r.1) with
  | some (a, info) => .error (.fault ⟨.range, BitVec.ofNat 64 (a - 512 * (info / 4)), BitVec.ofNat 64 info⟩)
  | none =>
    match rows.find? fun r => r.1 % 512 != 0 with
    | some (a, info) => .error (.fault ⟨.align, BitVec.ofNat 64 (a - 512 * (info / 4)), BitVec.ofNat 64 info⟩)
    | none => .ok ()

/-- The checks of one row operand. -/
def rowCheck (addr : Nat) (info : Nat) : Except Stop Unit := rowsCheck [(addr, info)]

/-! ### Codes of R50 -/

/-- `ctl.tinfo` of faults 0x01 and 0x04 for an instruction of two halfwords or one (R50). -/
def encInfo : List Half → Word
  | [h, c] => BitVec.ofNat 64 (2 ^ 32 + h.toNat * 2 ^ 16 + c.toNat)
  | [h] => BitVec.ofNat 64 h.toNat
  | _ => 0

end Sys2Proof.Machine
end

