-- ==== Sys2Proof/Machine/Flags.lean ====
section
/-! DEFINITION. The flag registers: `ctl.fpf` (R63, R64), `ctl.ist` (R71-R73), `ctl.satc` (R66), and their collection in
`gang.fpf` and `gang.np` (R65). -/

namespace Sys2Proof.Machine

/-- NX, bit 0 of `ctl.fpf` (R63). -/
def fNX : BitVec 6 := 0b000001
/-- UF, bit 1. -/
def fUF : BitVec 6 := 0b000010
/-- OF, bit 2. -/
def fOF : BitVec 6 := 0b000100
/-- DZ, bit 3. -/
def fDZ : BitVec 6 := 0b001000
/-- NV, bit 4. -/
def fNV : BitVec 6 := 0b010000
/-- ST, bit 5. -/
def fST : BitVec 6 := 0b100000

/-- A flag that is set exactly when a condition holds. -/
def flagIf (b : Bool) (f : BitVec 6) : BitVec 6 := if b then f else 0

/-- NTH of `ctl.ist` (R71). -/
def istNth (i : BitVec 16) : Nat := i.toNat / 256
/-- TE of `ctl.ist`. -/
def istTe (i : BitVec 16) : Bool := i.getLsbD 3
/-- NP of `ctl.ist`. -/
def istNp (i : BitVec 16) : Bool := i.getLsbD 0
/-- `ctl.ist` with the sticky bits NI, EM and NP set where given. -/
def istSet (i : BitVec 16) (ni em np : Bool) : BitVec 16 :=
  i ||| (if ni then 4 else 0) ||| (if em then 2 else 0) ||| (if np then 1 else 0)

/-- `ctl.satc` after `n` more saturated elements (R66, R28). -/
def satAdd (c : Word) (n : Nat) : Word := if c.toNat + n < 2 ^ 64 then c + BitVec.ofNat 64 n else BitVec.allOnes 64

/-- Sets flags of `ctl.fpf` and counts saturated elements in a strand (R64, R66). -/
def Strand.noteFp (c : Strand) (fl : BitVec 6) (sat : Nat) : Strand :=
  { c with ctl := { c.ctl with fpf := c.ctl.fpf ||| fl, satc := satAdd c.ctl.satc sat } }

/-- Sets sticky bits of `ctl.ist` in a strand (R73). -/
def Strand.noteIst (c : Strand) (ni em np : Bool) : Strand :=
  { c with ctl := { c.ctl with ist := istSet c.ctl.ist ni em np } }

/-- Enters flags in the registers of a gang (R65). (DESIGN CHOICE, log 90) -/
def State.noteGang (s : State) (gang : Nat) (fl : BitVec 6) (np : Bool) : State :=
  s.modGang gang fun g => { g with fpf := g.fpf ||| fl, np := g.np || np }

end Sys2Proof.Machine
end

