-- ==== Sys2Proof/Machine/Contain.lean ====
section
/-! DEFINITION. Leaving a slot, ending a strand (R198, R389), barriers and completion that wait for strands (R178, R194),
and containment of faults that no handler takes (R387-R391). -/

namespace Sys2Proof.Machine

/-! ### Launch records (R170) -/

/-- Word at a byte offset of a launch record. -/
def LaunchRec.at_ (r : LaunchRec) (off : Nat) : Nat := (r.words.getD (off / 8) 0).toNat
/-- A field of a launch record: byte offset, lowest bit, width. -/
def LaunchRec.fld (r : LaunchRec) (off lo w : Nat) : Nat := r.at_ off / 2 ^ lo % 2 ^ w
/-- PRIO. -/
def LaunchRec.prio (r : LaunchRec) : Nat := r.fld 0x10 33 3
/-- MODE is STEP. -/
def LaunchRec.step (r : LaunchRec) : Bool := r.fld 0x10 32 1 == 1
/-- NSTR. -/
def LaunchRec.nstr (r : LaunchRec) : Nat := r.fld 0x10 16 13
/-- GH. -/
def LaunchRec.gh (r : LaunchRec) : Nat := r.fld 0x10 8 4
/-- GW. -/
def LaunchRec.gw (r : LaunchRec) : Nat := r.fld 0x10 0 5
/-- PIPE. -/
def LaunchRec.pipe (r : LaunchRec) : Nat := r.fld 0x78 0 8
/-- DEADLINE. -/
def LaunchRec.deadline (r : LaunchRec) : Nat := r.fld 0x60 0 32
/-- The policy of a level (R387). -/
def LaunchRec.policy (r : LaunchRec) (lvl : Nat) : Nat := r.fld 0x58 (2 * lvl) 2

/-! ### Slots and passes -/

/-- Asks for a placement pass in the next cycle, but not within 16 cycles of the last pass (R176). -/
def State.askPass (s : State) (die : Nat) : State :=
  if (s.die die).passDue then s
  else
    let t := match (s.die die).lastPass with
      | some l => max (s.now + 1) (l + 16)
      | none => s.now + 1
    (s.modDie die fun d => { d with passDue := true }).at_ t rankPass .placementPass { die := die }

/-- Whether a strand that keeps its slot should have parked (R229): an ARRIVAL strand that waits for a block, a miss, a barrier or
an `LDW`. -/
def Strand.lateParker (c : Strand) : Bool :=
  !c.ident.step && c.slot?.isSome &&
    (match c.wait with
      | some w => (match w.kind with
          | .block _ | .miss _ | .barrier => true
          | .reply _ => !w.hold && c.kept.any fun k => k.kind == .event
          | _ => false)
      | none => false)

/-- Asks for a slot load on a core from cycle `t` on (R167), by which strands that kept their slots for want of room leave them too
(R229). -/
def State.askLoad (s : State) (c t : Nat) : State :=
  if (s.core c).ready.isEmpty && !(s.core c).slots.toList.any fun o => o.any fun g => (s.strand g).lateParker then s
  else s.atOnce t rankSlot .slotLoad { id := c }

/-- Asks for an evaluation of a home's fetch rule in cycle `t` (R232). -/
def State.askFetch (s : State) (h t : Nat) : State := s.atTime t rankLast .stewardFetchStart { id := h }

/-! ### Waits held elsewhere -/

/-- A member leaves the arrival set of a block; when it was the last, the block is evicted in the next cycle unless it is
kept (R234, R235). -/
def State.leaveArr (s : State) (h blk : Nat) (w : Waiter) : State :=
  match (s.home h).frames.find? blk with
  | none => s
  | some f =>
    if f.arr.contains w then
      let f1 := { f with arr := f.arr.erase w }
      let s1 := s.modHome h fun x => { x with frames := x.frames.set blk f1 }
      if f1.arr.isEmpty && f1.reloads.isEmpty && f1.st == .resident false then s1.at_ (s.now + 1) rankFill .blockEvict { id := h, idx := blk } else s1
    else s

/-- A strand leaves the arrival sets of a home (R234). -/
def State.leaveSets (s : State) (h g : Nat) : State :=
  (s.home h).frames.foldl (fun s (b, _) => (s.leaveArr h b (.strand g)).leaveArr h b (.fetch g)) s

/-- Waiters of a home that a condition names leave its queues and its overflow list. A queue without waiters, weight-only entries and
fetch is no queue (R230), and its entry is free from the next cycle on. -/
def State.dropWaiters (s : State) (h : Nat) (p : Waiter → Bool) : State :=
  let x := s.home h
  let qs := (x.queues.map fun (b, q) => (b, { q with waiters := q.waiters.filter fun w => !p w.who })).filter fun (_, q) =>
    !q.waiters.isEmpty || !q.wants.isEmpty || q.inFlight
  let s1 := s.setHome h { x with queues := qs, overflow := x.overflow.filter fun (_, w, _) => !p w.who }
  if qs.length < x.queues.length && !x.overflow.isEmpty then s1.atTime (s.now + 1) rankFill .overflowMove { id := h } else s1

/-- A strand leaves every queue, overflow list and arrival set of a home (R389). -/
def State.leaveHome (s : State) (h g : Nat) : State := (s.dropWaiters h fun w => w.strand? == some g).leaveSets h g

/-- A fetch that waits beside its strand's instruction is given up (R454). -/
def State.dropFetch (s : State) (g : Nat) : State :=
  let c := s.strand g
  match c.fetch with
  | .held _ _ n _ =>
    let s1 := s.dropWaiters c.core fun w => w == .fetch g
    let s2 := s1.leaveArr c.core n (.fetch g)
    (s2.modCore c.core fun k =>
      { k with misses := k.misses.mapV fun m => { m with joined := m.joined.filter (· != .fetch g) } }).modStrand g fun c =>
        { c with fetch := c.fetch.kept }
  | _ => s

/-- Empties the slot that a strand holds; the slot can be filled from cycle `t` on. -/
def State.vacate (s : State) (g t : Nat) : State :=
  let s := s.dropFetch g
  let c := s.strand g
  match c.place with
  | .slot n =>
    ((s.modCore c.core fun k => { k with slots := k.slots.setIfInBounds n none }).askPass (dieOf c.core)).askLoad c.core t
  | _ => (s.askPass (dieOf c.core)).askLoad c.core t

/-! ### Fills held (R191) -/

/-- Whether a register accepts a fill (R191): it is empty and no reply is pending. -/
def Fill.open_ : Fill → Bool
  | .empty | .failed _ => true
  | _ => false

/-- The number of a register of either class. -/
def regCode : FillReg → Nat
  | .s n => n.toNat
  | .iv n => 256 + n.toNat

/-- The strand's context can take a fill of a register now (R191): it is not in a save area, and the register is open. -/
def Strand.takes (c : Strand) (r : FillReg) : Bool := c.place != .saved && (c.fillState r).open_

/-- Fills for a register of a strand that have arrived and are held (R191). -/
def State.heldFills (s : State) (g : Nat) (r : FillReg) : Tbl Msg :=
  s.msgs.filter fun (_, m) => m.kind == 3 && m.target == g && m.reg == r && m.arrived && !m.done

/-- A register can take a held fill: one is applied at the start of the next cycle (R191). -/
def State.offer (s : State) (g : Nat) (r : FillReg) : State :=
  if (s.strand g).takes r && !(s.heldFills g r).isEmpty then
    s.atOnce (s.now + 1) rankReply .rfillArrival { id := g, idx := regCode r, n := 1 }
  else s

/-- The fill that is applied to a register when several can be (R191): among those that arrived in earlier cycles, the one whose issuer
has the lowest id. -/
def State.firstFill (s : State) (g : Nat) (r : FillReg) : Option (Nat × Msg) :=
  match (s.heldFills g r).filter fun f => decide (f.2.since < s.now) with
  | [] => none
  | f :: t => some (t.foldl (fun (a b : Nat × Msg) => if b.2.strand < a.2.strand then b else a) f)

/-- The target accepts a fill (R190): its issuer learns of it after the latency. (DEDUCED, log 31) -/
def State.accept (s : State) (m : Nat) (x : Msg) (from_ : Nat) : State :=
  { s with msgs := s.msgs.set m { x with arrived := true, done := true } }.at_ (s.now + latency from_ (s.strand x.strand).core)
    rankReply .rfillArrival { id := m, n := 2 }

/-- The core where a fill for a strand goes: the strand's, or the one its id names. -/
def State.fillCore (s : State) (g : Nat) : Nat :=
  match s.strands.find? g with
  | some c => c.core
  | none => min (g / 4096) 767

/-- Fills held for a strand that ends are discarded, and so accepted (R191). -/
def State.acceptAll (s : State) (g : Nat) : State :=
  s.msgs.foldl (init := s) fun s (n, m) =>
    if m.kind == 3 && m.target == g && m.arrived && !m.done then s.accept n m (s.strand g).core else s

/-- The strand's waits at its own core and home are withdrawn: waiter queues, arrival sets, tagged-word queues, ring and
claim waits, misses (R389, R393). -/
def State.withdraw (s : State) (g : Nat) : State :=
  let c := s.strand g
  let s1 := s.leaveHome c.core g
  let s2 := s1.modCore c.core fun k =>
    { k with
      ready := k.ready.filter (· != g)
      claims := k.claims.filter fun x => x.strand != g
      ringWaits := k.ringWaits.filter fun (_, _, x) => x != .strand g
      tagWaits := k.tagWaits.filter fun t => t.who != .strand g
      misses := k.misses.map fun (v, m) => (v, { m with joined := m.joined.filter (· != .strand g) }) }
  -- an engine's write that stood behind the strand at a ring may be first in line now (R329)
  let s2 := if (s.core c.core).ringWaits.any fun (_, _, x) => x == .strand g then
      s2.at_ s.now rankWork .engineUnit { id := c.core, n := 8 }
    else s2
  s2

/-- Requests of a strand that wait or watch at homes, and its tagged requests and fills at other cores, are withdrawn by a message
(R389); `p` says which. -/
def State.recall (s : State) (g : Nat) (p : Nat → Bool) : State :=
  let c := s.strand g
  let s1 := s.reqs.foldl (init := s) fun s (r, q) =>
    if q.strand == some g && q.stage != .done && !q.acc.isStore && !q.acc.isRed && p r then
      s.at_ (s.now + latency c.core q.home) rankWork .waitWithdrawal { id := r, sub := g }
    else s
  s1.msgs.foldl (init := s1) fun s (m, x) =>
    if x.strand == g && !x.done && p m then
      s.at_ (s.now + latency c.core (if x.kind == 3 then s.fillCore x.target else x.target)) rankWork .waitWithdrawal
        { id := m, sub := g, flag := true }
    else s

/-- Whether a gang is a victim of a pre-emption in force (R392). -/
def State.stopping (s : State) (gang : Nat) : Bool :=
  match s.gangs.find? gang with
  | some g => g.preempt.isSome
  | none => false

/-- Whether a strand waits for the answer `m`. -/
def Strand.awaits (c : Strand) (m : Nat) : Bool :=
  match c.wait with
  | some w => w.kind == .reply m
  | none => false

/-- A strand's destinations stand as they did before the instruction that waits (R15, R32). -/
def Strand.undo (c : Strand) : Strand :=
  match c.wait with
  | some w => w.old.foldl (fun c (r, f) => c.setFill r f) c
  | none => c

/-- The same in the machine: a destination that is empty again with no reply pending may take a fill that is held for it (R191). -/
def State.undoWait (s : State) (g : Nat) : State :=
  match (s.strand g).wait with
  | some w => w.old.foldl (fun s (r, _) => s.offer g r) (s.modStrand g fun c => c.undo)
  | none => s

/-- The answer that a strand waits for will not come, for its request was withdrawn: it performs its instruction from the start. -/
def State.unwaitReply (s : State) (g m : Nat) : State :=
  if (s.strand g).awaits m then (s.undoWait g).modStrand g fun c => { c with wait := none } else s

/-- A victim's context stops (R393): its waits are withdrawn, except its arrival at a barrier, and the instruction it waited in is
performed from the start after a restore, unless the answer that it waits for has set out before the withdrawal is performed.
(DEDUCED, log 60) -/
def State.stopContext (s : State) (g : Nat) : State :=
  let s1 := (s.withdraw g).recall g fun m => (s.strand g).awaits m
  s1.modStrand g fun c =>
    { c with
      place := .stopped none false
      wait := c.wait.filter fun w => (match w.kind with | .barrier | .reply _ => true | _ => false)
      kept := none
      fetch := .idle
      bind := {}
      owe := 0 }

/-- A strand that has left its slot stops when its gang is a victim (R393), which may let the gang's save begin (R394). -/
def State.stopLeft (s : State) (g : Nat) : State :=
  if s.stopping (s.strand g).ident.gang then
    (s.stopContext g).at_ s.now rankLast .saveStart { id := (s.strand g).ident.gang }
  else s

/-! ### Barriers and completion -/

/-- The barrier's release is due `12 + 2⌈log₂(GW × GH)⌉` cycles after the last arrival (R179). -/
def barrierDelay (gw gh : Nat) : Nat :=
  12 + 2 * (((List.range 9).filter fun k => 2 ^ k < gw * gh).length)

/-- When every strand of the gang that has not exited has arrived, and some strand has, the open barrier completes
(R194). -/
def State.checkBarrier (s : State) (gang : Nat) : State :=
  match s.gangs.find? gang with
  | none => s
  | some g =>
    if !g.releasing && !g.arrived.isEmpty && g.alive.all (g.arrived.contains ·) then
      (s.modGang gang fun g => { g with releasing := true }).at_ (s.now + barrierDelay g.gw g.gh) rankBar
        .barrierRelease { id := gang }
    else s

/-- Whether a containment decision on a fault of a gang is still to be made in this cycle (R388). -/
def State.undecided (s : State) (gang : Nat) : Bool := s.cal.any fun d => d.ev == .containRetryResume && d.arg.flag && d.arg.idx == gang

/-- Whether a gang's strands have exited, its commands, its accesses and its row loads are finished, and its failures decided (R178, R317). -/
def State.gangQuiet (s : State) (gang : Nat) (g : Gang) : Bool :=
  g.alive.isEmpty && !s.undecided gang
    && s.cores.all (fun (_, k) =>
      k.queues.toList.all (fun q => q.all fun x => x.gang != gang) && (match k.array with | some a => a.gang != gang | none => true))
    && s.reqs.all (fun (_, r) => r.gang != gang || !r.acc.isWrite || r.stage == .done)
    && s.cores.all (fun (_, k) => k.rowLoads.all fun (_, l) => l.gang != gang)

/-- Has the completion of a gang take place once it is quiet (R178). -/
def State.pokeGang (s : State) (gang : Nat) : State :=
  match s.gangs.find? gang with
  | none => s
  | some g =>
    match g.phase with
    | .preloading _ => s
    | _ => if s.gangQuiet gang g then s.atOnce s.now rankLast .gangComplete { id := gang } else s

/-- Closes of a strand's span go to the homes of its span set (R283). -/
def State.sendCloses (s : State) (g : Nat) : State :=
  let c := s.strand g
  c.span.foldl (init := s) fun s h =>
    let q : Req := { acc := .close g, strand := none, gang := 0, core := c.core, home := h, pa := h * 2 ^ 30, va := 0, pc := c.pc }
    ((s.addReq q).toHome s.nextId q).modStrand g fun c => { c with closes := c.closes + 1 }

/-- A strand ends: slot, contexts and waits are given up, its pending replies are discarded, its local index is freed, and
it counts as arrived at later barriers (R198, R389). Operand-memory slots are freed once its matrix commands have finished. -/
def State.endStrand (s : State) (g t : Nat) : State :=
  let c := s.strand g
  let s1 := ((((s.withdraw g).recall g fun _ => true).sendCloses g).acceptAll g).vacate g t
  let inUse := (((s1.core c.core).queues[2]?).getD []).filterMap fun x => if x.strand == g && x.last.isNone then some x.id else none
  let s2 := s1.modCore c.core fun k =>
    { k with
      omHold := k.omHold.filter fun (_, h) => h != g
      omRelease := if inUse.isEmpty then k.omRelease
        else (k.omHold.filter fun (_, h) => h == g).foldl (fun r (n, _) => r.set n inUse) k.omRelease }
  let s3 := s2.modCore (g / 4096) fun k => { k with locals_ := k.locals_.del (g % 4096) }
  let s3 := { s3 with cores := s3.cores.mapV fun (k : Core) =>
    { k with queues := k.queues.map fun (q : List Cmd) => q.map fun (x : Cmd) =>
        if x.strand == g && x.last.isNone then { x with last := some c.core } else x } }
  let s4 := { s3 with
    reqs := s3.reqs.mapV fun (r : Req) => if r.strand == some g then { r with strand := none } else r
    strands := s3.strands.erase g }
  let s5 := s4.modGang c.ident.gang fun x => { x with alive := x.alive.del g, arrived := x.arrived.del g }
  (s5.checkBarrier c.ident.gang).pokeGang c.ident.gang

/-- The commands that come to the head of their queues when those of strand `g` that have not started are discarded from `s` may start in
the next cycle (R206, R314); `t` is the state without them. (DEDUCED, log 84) -/
def State.headsLeft (s : State) (g : Nat) (t : State) : State :=
  s.cores.foldl (init := t) fun t (core, k) =>
    (List.range 4).foldl (init := t) fun t q =>
      match (k.queues[q]?).getD [] with
      | [] => t
      | h :: l =>
        if h.started || h.strand != g || h.last.isSome then t
        else match l.find? fun x => x.started || x.strand != g || x.last.isSome with
          | some x => t.at_ (s.now + 1) rankWork .engineCommandStart { id := core, idx := q, sub := x.id }
          | none => t

/-- Removing a strand (R389): its commands that have not started are discarded, and it ends. (DEDUCED, log 44) -/
def State.removeStrand (s : State) (g : Nat) : State :=
  match s.strands.find? g with
  | none => s
  | some _ =>
    let s1 := { s with cores := s.cores.mapV fun (k : Core) =>
      { k with queues := k.queues.map fun (q : List Cmd) => q.filter fun x => x.started || x.strand != g || x.last.isSome
               array := k.array.filter fun a => !(a.rot && a.strand == g) } }
    (s.headsLeft g s1).endStrand g (s.now + 1)

/-! ### Containment (R387-R391) -/

/-- The level that absorbs a fault and the action there (R388, R391): 1 RETRY, 2 removal at the level, 3 removal at the next
level, 0 removal at level 5 with no level absorbing. -/
def consult (pol : Nat → Nat) (retry : Nat → Bool) : Nat → Nat → Nat × Nat
  | _, 0 => (5, 0)
  | lvl, fuel + 1 =>
    if pol lvl == 1 && retry lvl then (lvl, 1)
    else if pol lvl == 2 then (lvl, 2)
    else if pol lvl == 3 then (lvl, if lvl = 5 then 2 else 3)
    else consult pol retry (lvl + 1) fuel

/-- Strands of a gang in the unit of a level around a core (R387); at level 0, the strand itself. -/
def unitStrands (s : State) (gang g core : Nat) (lvl : Nat) : List Nat :=
  (s.strands.filter fun (n, c) =>
    match lvl with
    | 0 => n == g
    | 1 => c.ident.gang == gang && c.core == core
    | 2 => c.ident.gang == gang && dieOf c.core == dieOf core && sgOf c.core == sgOf core
    | _ => c.ident.gang == gang).map (·.1)

/-- A gang is no victim any more (R392, R397): the request ends with its last victim, and with it GO of the register of R446 when the
host made it. -/
def State.dropVictim (s : State) (gid die : Nat) : State :=
  let old := (s.die die).preempt
  let s1 := (s.modGang gid fun x => { x with preempt := none, saving := 0, begun := [] }).modDie die fun d =>
    match d.preempt with
    | some p =>
      let vs := p.victims.filter (· != gid)
      { d with preempt := if vs.isEmpty then none else some { p with victims := vs } }
    | none => d
  if old.any fun p => p.host && p.victims == [gid] then s1.modPkg fun p => { p with preempt := p.preempt &&& BitVec.ofNat 64 (2 ^ 63 - 1) }
  else s1

/-- Removes the unit of a level (R388, R390); at level 0 nothing when the strand has exited (R387). A gang that is removed is no victim
any more (R392). -/
def State.removeUnit (s : State) (gang g core lvl : Nat) (live : Bool) : State :=
  let s0 := s.modGang gang fun x => { x with ended := if lvl ≥ 3 then 2 else max x.ended 1 }
  let s1 := if lvl ≥ 3 then s0.dropVictim gang (((s.gangs.find? gang).map (·.die)).getD 0) else s0
  let s2 := (if lvl = 0 && !live then [] else unitStrands s gang g core lvl).foldl (fun s n => s.removeStrand n) s1
  let s3 := if lvl ≥ 4 then s2.irq 0 else s2
  let s4 := if lvl ≥ 5 then
      (List.range 24).foldl (fun s p => if s.pkg.portUp.getLsbD p then s.out (.notice p) else s) s3
    else s3
  s4.pokeGang gang

/-- The decision on a fault that no handler takes (R381, R387-R391), with the fault's code. `live` is false when the strand has exited
(R317). RETRY of a level above the strand is available once for all instances of the node (R387). -/
def State.contain (s : State) (g gang core code : Nat) (pc : Word) (live : Bool) : State :=
  match s.gangs.find? gang with
  | none => if live then s.removeStrand g else s
  | some x =>
    let c := s.strand g
    let again := if c.retryPc = pc then c.retries else 0
    let (lvl, act) := consult (fun l => x.rec_.policy l)
      (fun l => if l = 0 then live && decide (again < 3) else !x.retried) 0 6
    let s1 := s.modDie x.die fun d =>
      { d with
        clog0 := BitVec.ofNat 64 (code * 2 ^ 56 + lvl * 2 ^ 53 + act * 2 ^ 51 + g % 2 ^ 22 * 2 ^ 24 + x.node)
        clog1 := BitVec.ofNat 64 (pc.toNat % 2 ^ 48)
        ccnt := min (d.ccnt + 1) (2 ^ 32 - 1) }
    let s1 := s1.crossed x.die 6 (s.die x.die).ccnt (s1.die x.die).ccnt
    match act with
    | 1 =>
      if lvl = 0 then
        (s1.modStrand g fun c =>
          { c with
            retries := again + 1
            retryPc := pc
            wait := some { kind := .retry (s.now + 4096), since := s.now } }).at_ (s.now + 4096) rankFill .containRetryResume { id := g }
      else
        let s2 := { s1 with gangs := s1.gangs.mapV fun (y : Gang) => if y.die == x.die && y.node == x.node then { y with retried := true } else y }
        let s3 := (s2.modGang gang fun x => { x with phase := .relaunching }).dropVictim gang x.die
        ((unitStrands s gang g core 3).foldl (fun s n => s.removeStrand n) s3).pokeGang gang
    | 2 => s1.removeUnit gang g core lvl live
    | 3 => s1.removeUnit gang g core (lvl + 1) live
    | _ => s1.removeUnit gang g core 5 live

/-- A fault that no handler takes goes to containment: it is decided at the end of its cycle, in order of the faulting core and slot, and
blocks its strand alone until then (R388). -/
def State.toContain (s : State) (g gang core : Nat) (cause : Cause) (pc : Word) (live : Bool) : State :=
  let slot := if live then ((s.strand g).slot?).getD 16 else 16
  let s1 := if live then (s.undoWait g).modStrand g fun c => { c with wait := some { kind := .event, since := s.now }, kept := none } else s
  s1.at_ s.now (rankDecide + core * 32 + slot) .containRetryResume
    { id := g, idx := gang, sub := core, n := cause.code, v := pc, flag := true, flag2 := live }

/-- Failures of commands that a strand has not met when it exits from a core go to containment (R317, R387). -/
def State.orphanFails (s : State) (g gang core : Nat) : State :=
  s.cores.foldl (init := s) fun s (n, k) =>
    (k.cmdFails.filter fun (_, f) => f.strand == g).foldl (init := s) fun s (id, f) =>
      (s.modCore n fun k => { k with cmdFails := k.cmdFails.erase id }).toContain g gang core f.fault.cause f.pc false

end Sys2Proof.Machine
end

