-- ==== Sys2Proof/Machine/Ops.lean ====
section
/-! DEFINITION. The operations every meaning is made of: taking an exception and returning from one (R379-R382), leaving the
rotation (R164, R184), parking (R166, R228), and running an instruction to one of its ends (R32). -/

namespace Sys2Proof.Machine

/-! ### Taking an exception (R380, R381) -/

/-- LEN of `ctl.tcause` for an instruction of `len` bytes; 0 is not decoded (R379). -/
def lenCode (len : Nat) : BitVec 2 := if len = 2 then 1 else if len = 4 then 2 else 0

/-- `ctl.tcause` as a delivery writes it (R379, R380). -/
def tcauseOf (len : BitVec 2) (code : Nat) : BitVec 11 := len ++ (1 : BitVec 1) ++ BitVec.ofNat 8 code

/-- UP of `ctl.tcause` (R379). -/
def Strand.up (c : Strand) : Bool := c.ctl.tcause.getLsbD 8
/-- LEN of `ctl.tcause` (R379). -/
def Strand.tlen (c : Strand) : Nat := c.ctl.tcause.toNat / 2 ^ 9

/-- The delivery of an upcall (R380): the saved registers are written, and the strand goes on at `ctl.tvec`; nothing else of
it changes but the fetch, which starts anew there. -/
def Strand.deliver (c : Strand) (f : FaultRec) (len : BitVec 2) : Strand :=
  { c with
    ctl := { c.ctl with tpc := c.pc, taddr := f.addr, tinfo := f.info, tcause := tcauseOf len f.cause.code }
    prevPc := c.pc
    pc := c.ctl.tvec
    fetch := .idle
    wait := none
    kept := none
    heldSince := none
    grant := none
    bind := {}
    owe := 0 }

/-- Taking an exception: an upcall (R380), or containment when UP is 1 or the strand has no handler (R381). A strand that was
woken by a block's arrival and faults before its access leaves the block's arrival set (R234). -/
def State.raise (s : State) (g : Nat) (f : FaultRec) (len : BitVec 2) : State :=
  let c := s.strand g
  if c.up || c.ctl.tvec == 0 then s.toContain g c.ident.gang c.core f.cause c.pc true
  else (s.setStrand g (c.deliver f len)).leaveSets c.core g

/-- The return from an upcall (R382) to the address that `skip` and LEN give; UP is cleared. -/
def Strand.upret (c : Strand) (skip : Bool) : Strand :=
  let target := if skip && c.tlen == 1 then c.ctl.tpc + 2 else if skip && c.tlen == 2 then c.ctl.tpc + 4 else c.ctl.tpc
  { c with ctl := { c.ctl with tcause := c.ctl.tcause &&& ~~~(0x100 : BitVec 11) } }.goto target

/-! ### Waiting and parking -/

/-- Bytes of a context's saved body (R166). -/
def Strand.bodyBytes (c : Strand) : Nat :=
  let alive (f : Fill) : Bool := f != .dead
  8 * ((c.sFill.toList.drop 1).filter alive).length + 8 * (c.ivFill.toList.filter alive).length
    + 4 * (c.p.toList.filter (· != 0)).length + 16 * ((c.k.toList.drop 1).filter (· != 0)).length
    + 8 * (c.x.toList.filter (· != 0)).length
    + 8 * ([c.ctl.fpm != 0, c.ctl.fpf != 0, c.ctl.ist != 0x0400, c.ctl.vl != 2048, c.ctl.wlim != 4096, c.ctl.tvec != 0,
        c.ctl.tcause != 0, c.ctl.tinfo != 0, c.ctl.taddr != 0, c.ctl.tpc != 0, c.ctl.mig != 8, c.ctl.nant,
        c.ctl.satc != 0, c.ctl.quantum != 64].filter id).length

/-- Park-store units that a context takes (R166). -/
def Strand.units (c : Strand) : Nat := 1 + (c.bodyBytes + 63) / 64

/-- Whether a strand is a context of a core's park store (R166). -/
def Strand.isContext (c : Strand) (core : Nat) : Bool :=
  c.core == core && (match c.place with | .ready | .parked => true | .stopped none _ => true | _ => false)

/-- Park-store units in use on a core (R166). -/
def State.unitsUsed (s : State) (core : Nat) : Nat :=
  (s.strands.filter fun (_, c) => c.isContext core).foldl (fun n (_, c) => n + c.units) 0

/-- Whether a core's park store has room for a context (R166, R229). -/
def State.room (s : State) (core : Nat) (c : Strand) : Bool := decide (s.unitsUsed core + c.units ≤ 4096)

/-- The event that ends a wait of a strand at its limit (R184), if the wait has one of its own. -/
def expiryEvent : WaitKind → Option Instr
  | .fill _ | .pend _ => some .registerWaitExpiry
  | .tag _ _ => some .taggedWaitExpiry
  | .ring _ _ => some .rtakeExpiry
  | .queues _ => some .qwaitExpiry
  | .claim _ _ => some .mclaimExpiry
  | .window _ _ => some .wwaitExpiry
  | _ => none

/-- A wait whose first attempt is now: a bounded one puts its expiry in the calendar, behind the last cycle of its limit. -/
def State.newWait (s : State) (g : Nat) (c : Strand) (k : WaitKind) (lim : Option Nat) (len : Nat) : State :=
  let s1 := s.setStrand g { c with wait := some { kind := k, since := s.now, until_ := lim.map (s.now + ·), len := len } }
  match lim, expiryEvent k with
  | some l, some e => s1.at_ (s.now + l + 1) rankExpiry e { id := g, sub := s.now }
  | _, _ => s1

/-- The strand leaves the rotation to wait (R17, R184). A wait for the same thing keeps the cycle of its first attempt. -/
def State.waitFor (s : State) (g : Nat) (k : WaitKind) (lim : Option Nat) (len : Nat) : State :=
  let c := s.strand g
  match (c.wait.toList ++ c.kept.toList).find? fun w => w.kind = k with
  | some w => s.setStrand g { c with wait := some w }
  | none => s.newWait g c k lim len

/-- The strand parks (R166, R228): an ARRIVAL strand leaves its slot and becomes a context of its core, unless the park store
has no room (R229); a STEP strand waits in its slot (R179). The instruction is performed from the start when it resumes. -/
def State.park (s : State) (g : Nat) (w : Wait) : State :=
  let c := s.strand g
  let old := c.wait.orElse fun _ => c.kept
  if c.ident.step || !s.room c.core c then s.setStrand g { c with wait := some w, kept := old }
  else
    ((s.vacate g (s.now + 1)).modStrand g fun c =>
      { c with wait := some w, kept := old, place := .parked, fetch := c.fetch.kept, owe := 0 }).stopLeft g

/-- A context becomes ready and enters the tail of its core's ready list (R167); a strand that kept its slot becomes
runnable there. -/
def State.wake (s : State) (g : Nat) : State :=
  let c := s.strand g
  match c.place with
  | .slot _ => s.setStrand g { c with wait := none }
  | .ready => s.setStrand g { c with wait := none }
  | .parked | .migrating _ =>
    ((s.setStrand g { c with wait := none, place := .ready }).modCore c.core fun k =>
      { k with ready := k.ready ++ [g] }).askLoad c.core s.now
  | _ => s.setStrand g { c with wait := none }

/-! ### The ends of an instruction (R32) -/

/-- What becomes of a strand whose instruction of `len` bytes does not retire (R32, R164). -/
def State.stop (s : State) (len : Nat) : Stop → State
  | .fault f => s.raise s.curId f (lenCode len)
  | .failReg r f =>
    let c := s.cur
    ((s.setCur { c.setFill r .empty with acq := if c.acq = some r then none else c.acq }).offer s.curId r).raise s.curId ⟨f.cause, f.va, f.pc⟩ (lenCode len)
  | .failAcc id f =>
    let c := s.cur
    (s.setCur { c with fails := c.fails.erase id }).raise s.curId ⟨f.cause, f.va, f.pc⟩ (lenCode len)
  | .failCmd id f =>
    { s with cores := s.cores.mapV fun (k : Core) => { k with cmdFails := k.cmdFails.erase id } }.raise s.curId f (lenCode len)
  | .wait k lim => s.waitFor s.curId k lim len
  | .forfeit => s
  | .held ring =>
    let c := s.cur
    match c.heldSince, ring, c.wlim with
    | none, some r, some l =>
      (s.setCur { c with heldSince := some s.now, heldRing := r, heldLen := len }).at_ (s.now + l + 1) rankExpiry .heldAccessExpiry
        { id := s.curId, sub := s.now }
    | some _, some r, _ => s.setCur { c with heldRing := r }
    | some _, none, _ => s.setCur { c with heldSince := none }
    | none, _, _ => s

/-- Runs an instruction of `len` bytes: its body answers the state after it, or why it does not retire. -/
def run (len : Nat) (body : State → Except Stop State) (s : State) : Out :=
  match body s with
  | .ok t => .next t
  | .error e => .next (s.stop len e)

/-- Runs an instruction that acts on its strand alone. -/
def runStrand (len : Nat) (body : Strand → Except Stop Strand) (s : State) : Out :=
  run len (fun s => (body s.cur).map s.setCur) s

end Sys2Proof.Machine
end

