-- ==== Sys2Proof/Machine/Scalar.lean ====
section
/-! DEFINITION. The scalar integer and predicate instructions (R74-R86) and their 16-bit equivalents (R40, R41), and the moves to and from `x`
registers (R196). Every meaning reads its sources through `readS`, applies
last-use marks and then its destination (R19, R75), and sets no flag (R55). -/

namespace Sys2Proof.Machine

/-! ### Values (R76-R80) -/

/-- Bits 127:64 of the signed product (R76). -/
def mulHigh (a b : Word) : Word := BitVec.ofInt 64 (a.toInt * b.toInt / 2 ^ 64)
/-- Bits 127:64 of the unsigned product (R76). -/
def mulHighN (a b : Word) : Word := BitVec.ofNat 64 (a.toNat * b.toNat / 2 ^ 64)
/-- Signed quotient, truncated; −1 for a zero divisor (R77). -/
def divS (a b : Word) : Word := if b = 0 then BitVec.allOnes 64 else a.sdiv b
/-- Unsigned quotient; 2⁶⁴ − 1 for a zero divisor (R77). -/
def divN (a b : Word) : Word := if b = 0 then BitVec.allOnes 64 else a / b
/-- Signed remainder, with the sign of the dividend; the dividend for a zero divisor (R77). -/
def remS (a b : Word) : Word := if b = 0 then a else a.srem b
/-- Unsigned remainder; the dividend for a zero divisor (R77). -/
def remN (a b : Word) : Word := if b = 0 then a else a % b
/-- A shift or rotate count: bits 5:0 (R76). -/
def cnt6 (b : Word) : Nat := b.toNat % 64
/-- Leading zero bits; 64 for 0 (R78). -/
def countLead (a : Word) : Word := if a = 0 then 64 else BitVec.ofNat 64 (63 - a.toNat.log2)
/-- Trailing zero bits; 64 for 0 (R78). -/
def countTrail (a : Word) : Word := BitVec.ofNat 64 (((List.range 64).find? fun i => a.getLsbD i).getD 64)
/-- One bits (R78). -/
def countOnes (a : Word) : Word := BitVec.ofNat 64 (((List.range 64).filter fun i => a.getLsbD i).length)
/-- Bit i moved to bit 63 − i (R78). -/
def bitReverse (a : Word) : Word :=
  BitVec.ofNat 64 ((List.range 64).foldl (fun n i => 2 * n + (if a.getLsbD i then 1 else 0)) 0)
/-- Byte i moved to byte 7 − i (R78). -/
def byteSwap (a : Word) : Word := BitVec.ofNat 64 (leNat (leBytes 8 a.toNat).reverse)
/-- Position and width of a bit-field control (R79): the width is cut at bit 63. -/
def fieldPos (b : Word) : Nat := b.toNat % 64
/-- Width of a bit-field control (R79). -/
def fieldWidth (b : Word) : Nat := min (b.toNat / 256 % 128) (64 - fieldPos b)
/-- `BFX` (R79). -/
def fieldS (v b : Word) : Word :=
  let x := v.toNat / 2 ^ fieldPos b % 2 ^ fieldWidth b
  if fieldWidth b = 0 then 0
  else if x / 2 ^ (fieldWidth b - 1) = 1 then BitVec.ofInt 64 ((x : Int) - 2 ^ fieldWidth b) else BitVec.ofNat 64 x
/-- `BFXN` (R79). -/
def fieldN (v b : Word) : Word := BitVec.ofNat 64 (v.toNat / 2 ^ fieldPos b % 2 ^ fieldWidth b)
/-- `BFI` (R79). -/
def fieldInsert (d v b : Word) : Word :=
  let m := (2 ^ fieldWidth b - 1) * 2 ^ fieldPos b
  (d &&& ~~~(BitVec.ofNat 64 m)) ||| (BitVec.ofNat 64 (v.toNat * 2 ^ fieldPos b) &&& BitVec.ofNat 64 m)
/-- `FSH` (R80). -/
def funnel (d a b : Word) : Word := BitVec.ofNat 64 ((d.toNat * 2 ^ 64 + a.toNat) / 2 ^ cnt6 b)

/-! ### Shapes -/

/-- A two-source instruction `d := f a b` (R76). (DEDUCED, log 30) -/
def alu2 (o : OpRRR) (f : Word → Word → Word) : State → Out :=
  runStrand 4 fun c => do
    let x ← readS c o.a
    let y ← readS c o.b
    needFree c (.s o.d)
    .ok ((((c.markS o.a o.la).markS o.b o.lb).writeS o.d (f x y)).advance 4)

/-- A one-source instruction `d := f a` (R78). -/
def alu1 (o : OpRR) (f : Word → Word) : State → Out :=
  runStrand 4 fun c => do
    let x ← readS c o.a
    needFree c (.s o.d)
    .ok (((c.markS o.a o.la).writeS o.d (f x)).advance 4)

/-- An instruction that also reads its destination, without a mark (R79, R80). -/
def alu3 (o : OpRRR) (f : Word → Word → Word → Word) : State → Out :=
  runStrand 4 fun c => do
    let x ← readS c o.a
    let y ← readS c o.b
    let z ← readS c o.d
    .ok ((((c.markS o.a o.la).markS o.b o.lb).writeS o.d (f z x y)).advance 4)

/-- An immediate form (R82): imm9 sign-extended. -/
def aluI (o : OpRRI) (f : Word → Word → Word) : State → Out :=
  runStrand 4 fun c => do
    let x ← readS c o.a
    needFree c (.s o.d)
    .ok (((c.markS o.a o.la).writeS o.d (f x (o.imm.signExtend 64))).advance 4)

/-- A shift by an immediate count (R82). -/
def aluSh (o : OpShift) (f : Word → Nat → Word) : State → Out :=
  runStrand 4 fun c => do
    let x ← readS c o.a
    needFree c (.s o.d)
    .ok (((c.markS o.a o.la).writeS o.d (f x o.cnt.toNat)).advance 4)

/-- A 16-bit instruction `d := f d a` (R40), without marks (R41). -/
def alu16 (o : OpA) (f : Word → Word → Word) : State → Out :=
  runStrand 2 fun c => do
    let x ← readS c o.d
    let y ← readS c o.a
    .ok ((c.writeS o.d (f x y)).advance 2)

/-- A 16-bit instruction `d := f d` with an immediate (R40). -/
def alu16I (d : SReg) (f : Word → Word) : State → Out :=
  runStrand 2 fun c => do
    let x ← readS c d
    .ok ((c.writeS d (f x)).advance 2)

/-- An instruction that writes `d` from nothing but the strand's other state. -/
def setD (len : Nat) (d : SReg) (f : Strand → Word) : State → Out :=
  runStrand len fun c => do
    needFree c (.s d)
    .ok ((c.writeS d (f c)).advance len)

/-! ### R76-R81 -/

/-- `ADD` (R76). -/
def execAdd (o : OpRRR) (s : State) : Out := alu2 o (· + ·) s

/-- `SUB` (R76). -/
def execSub (o : OpRRR) (s : State) : Out := alu2 o (· - ·) s

/-- `MUL` (R76). -/
def execMul (o : OpRRR) (s : State) : Out := alu2 o (· * ·) s

/-- `MULH` (R76). -/
def execMulh (o : OpRRR) (s : State) : Out := alu2 o mulHigh s

/-- `MULHN` (R76). -/
def execMulhn (o : OpRRR) (s : State) : Out := alu2 o mulHighN s

/-- `DIV` (R77). -/
def execDiv (o : OpRRR) (s : State) : Out := alu2 o divS s

/-- `DIVN` (R77). -/
def execDivn (o : OpRRR) (s : State) : Out := alu2 o divN s

/-- `REM` (R77). -/
def execRem (o : OpRRR) (s : State) : Out := alu2 o remS s

/-- `REMN` (R77). -/
def execRemn (o : OpRRR) (s : State) : Out := alu2 o remN s

/-- `AND` (R76). -/
def execAnd (o : OpRRR) (s : State) : Out := alu2 o (· &&& ·) s

/-- `OR` (R76). -/
def execOr (o : OpRRR) (s : State) : Out := alu2 o (· ||| ·) s

/-- `XOR` (R76). -/
def execXor (o : OpRRR) (s : State) : Out := alu2 o (· ^^^ ·) s

/-- `ANDN` (R76). -/
def execAndn (o : OpRRR) (s : State) : Out := alu2 o (fun a b => a &&& ~~~b) s

/-- `SHL` (R76). -/
def execShl (o : OpRRR) (s : State) : Out := alu2 o (fun a b => a <<< cnt6 b) s

/-- `SHR` (R76). -/
def execShr (o : OpRRR) (s : State) : Out := alu2 o (fun a b => a >>> cnt6 b) s

/-- `SAR` (R76). -/
def execSar (o : OpRRR) (s : State) : Out := alu2 o (fun a b => a.sshiftRight (cnt6 b)) s

/-- `ROL` (R76). -/
def execRol (o : OpRRR) (s : State) : Out := alu2 o (fun a b => a.rotateLeft (cnt6 b)) s

/-- `MIN`, signed (R76). -/
def execMin (o : OpRRR) (s : State) : Out := alu2 o (fun a b => if a.slt b then a else b) s

/-- `MAX`, signed (R76). -/
def execMax (o : OpRRR) (s : State) : Out := alu2 o (fun a b => if a.slt b then b else a) s

/-- `MINN`, unsigned (R76). -/
def execMinn (o : OpRRR) (s : State) : Out := alu2 o (fun a b => if a.ult b then a else b) s

/-- `MAXN`, unsigned (R76). -/
def execMaxn (o : OpRRR) (s : State) : Out := alu2 o (fun a b => if a.ult b then b else a) s

/-- `CLZ` (R78). -/
def execClz (o : OpRR) (s : State) : Out := alu1 o countLead s

/-- `CTZ` (R78). -/
def execCtz (o : OpRR) (s : State) : Out := alu1 o countTrail s

/-- `POPC` (R78). -/
def execPopc (o : OpRR) (s : State) : Out := alu1 o countOnes s

/-- `BREV` (R78). -/
def execBrev (o : OpRR) (s : State) : Out := alu1 o bitReverse s

/-- `BSWAP` (R78). -/
def execBswap (o : OpRR) (s : State) : Out := alu1 o byteSwap s

/-- `MOV` (R78). -/
def execMov (o : OpRR) (s : State) : Out := alu1 o id s

/-- `BFX` (R79). -/
def execBfx (o : OpRRR) (s : State) : Out := alu2 o fieldS s

/-- `BFXN` (R79). -/
def execBfxn (o : OpRRR) (s : State) : Out := alu2 o fieldN s

/-- `BFI` (R79). -/
def execBfi (o : OpRRR) (s : State) : Out := alu3 o fieldInsert s

/-- `FSH` (R80). -/
def execFsh (o : OpRRR) (s : State) : Out := alu3 o funnel s

/-- `SEL` (R81): both sources are read; U selects b. -/
def execSel (o : OpRRR) (q : QReg) (s : State) : Out := alu2 o (fun a b => if s.cur.qVal q = .t then a else b) s

/-! ### R82, R83 -/

/-- `ADDI` (R82). -/
def execAddi (o : OpRRI) (s : State) : Out := aluI o (· + ·) s

/-- `ANDI` (R82). -/
def execAndi (o : OpRRI) (s : State) : Out := aluI o (· &&& ·) s

/-- `ORI` (R82). -/
def execOri (o : OpRRI) (s : State) : Out := aluI o (· ||| ·) s

/-- `XORI` (R82). -/
def execXori (o : OpRRI) (s : State) : Out := aluI o (· ^^^ ·) s

/-- `SHLI` (R82). -/
def execShli (o : OpShift) (s : State) : Out := aluSh o (fun a n => a <<< n) s

/-- `SHRI` (R82). -/
def execShri (o : OpShift) (s : State) : Out := aluSh o (fun a n => a >>> n) s

/-- `SARI` (R82). -/
def execSari (o : OpShift) (s : State) : Out := aluSh o (fun a n => a.sshiftRight n) s

/-- `MOVI`, 32-bit (R83): imm15 zero-extended. -/
def execMovi (d : SReg) (imm : BitVec 15) (s : State) : Out := setD 4 d (fun _ => imm.setWidth 64) s

/-- `MOVH` (R83): d, which must be full, shifted left by 15, with imm15 below. -/
def execMovh (d : SReg) (imm : BitVec 15) (s : State) : Out :=
  runStrand 4 (fun c => do
    let x ← readS c d
    .ok ((c.writeS d (x <<< 15 ||| imm.setWidth 64)).advance 4)) s

/-! ### Predicates (R84-R86) -/

/-- Whether a condition of `CMP` holds (R84). -/
def cmpHolds (c : CmpCond) (a b : Word) : Bool :=
  match c with
  | .eq => a == b
  | .ne => a != b
  | .lt => a.slt b
  | .le => a.sle b
  | .ltn => a.ult b
  | .len => a.ule b
  | .bits => (a &&& b) != 0

/-- Whether a condition of `CMPI` holds (R84). -/
def cmpiHolds (c : CmpiCond) (a b : Word) : Bool :=
  match c with
  | .eq => a == b
  | .ne => a != b
  | .lt => a.slt b
  | .ltn => a.ult b

/-- T or F. -/
def triOf (b : Bool) : Tri := if b then .t else .f

/-- `CMP` (R84). -/
def execCmp (k : CmpCond) (qd : QReg) (a b : SReg) (la lb : Bool) (s : State) : Out :=
  runStrand 4 (fun c => do
    let x ← readS c a
    let y ← readS c b
    .ok ((((c.markS a la).markS b lb).writeQ qd (triOf (cmpHolds k x y))).advance 4)) s

/-- `CMPI` (R84): imm9 is sign-extended before the comparison. -/
def execCmpi (k : CmpiCond) (qd : QReg) (a : SReg) (la : Bool) (imm : BitVec 9) (s : State) : Out :=
  runStrand 4 (fun c => do
    let x ← readS c a
    .ok (((c.markS a la).writeQ qd (triOf (cmpiHolds k x (imm.signExtend 64)))).advance 4)) s

/-- Kleene AND: the lesser in F < U < T (R85). -/
def kAnd (a b : Tri) : Tri :=
  match a, b with
  | .f, _ | _, .f => .f
  | .u, _ | _, .u => .u
  | .t, .t => .t
/-- Kleene OR: the greater (R85). -/
def kOr (a b : Tri) : Tri :=
  match a, b with
  | .t, _ | _, .t => .t
  | .u, _ | _, .u => .u
  | .f, .f => .f
/-- Kleene NOT (R85). -/
def kNot : Tri → Tri
  | .t => .f | .f => .t | .u => .u
/-- Kleene XOR (R85). -/
def kXor (a b : Tri) : Tri :=
  match a, b with
  | .u, _ | _, .u => .u
  | a, b => triOf (a != b)

/-- The result of a predicate operation (R85). -/
def qopVal (c : Strand) : QOp → Tri
  | .and a b => kAnd (c.qVal a) (c.qVal b)
  | .or a b => kOr (c.qVal a) (c.qVal b)
  | .not a => kNot (c.qVal a)
  | .xor a b => kXor (c.qVal a) (c.qVal b)
  | .known a => triOf (c.qVal a != .u)
  | .mov a => c.qVal a
  | .sett => .t
  | .setf => .f
  | .setu => .u

/-- `QOP` (R85). -/
def execQop (qd : QReg) (op : QOp) (s : State) : Out :=
  runStrand 4 (fun c => .ok ((c.writeQ qd (qopVal c op)).advance 4)) s

/-- 0 for F, 1 for T, 2 for U (R86). -/
def triWord : Tri → Word
  | .f => 0 | .t => 1 | .u => 2
/-- F for 00, T for 01, U for 10 or 11 (R13, R86). -/
def triOfBits (n : Nat) : Tri := if n % 4 = 0 then .f else if n % 4 = 1 then .t else .u

/-- `QTOS` (R86). -/
def execQtos (d : SReg) (q : QReg) (s : State) : Out := setD 4 d (fun c => triWord (c.qVal q)) s

/-- `STOQ` (R86). -/
def execStoq (qd : QReg) (a : SReg) (la : Bool) (s : State) : Out :=
  runStrand 4 (fun c => do
    let x ← readS c a
    .ok (((c.markS a la).writeQ qd (triOfBits x.toNat)).advance 4)) s

/-! ### 16-bit equivalents (R40, R41) -/

/-- `MOV`, 16-bit: `MOV d, a`. -/
def execMov16 (o : OpA) (s : State) : Out :=
  runStrand 2 (fun c => do
    let y ← readS c o.a
    needFree c (.s o.d)
    .ok ((c.writeS o.d y).advance 2)) s

/-- `ADD`, 16-bit. -/
def execAdd16 (o : OpA) (s : State) : Out := alu16 o (· + ·) s

/-- `SUB`, 16-bit. -/
def execSub16 (o : OpA) (s : State) : Out := alu16 o (· - ·) s

/-- `AND`, 16-bit. -/
def execAnd16 (o : OpA) (s : State) : Out := alu16 o (· &&& ·) s

/-- `OR`, 16-bit. -/
def execOr16 (o : OpA) (s : State) : Out := alu16 o (· ||| ·) s

/-- `XOR`, 16-bit. -/
def execXor16 (o : OpA) (s : State) : Out := alu16 o (· ^^^ ·) s

/-- `SHL`, 16-bit. -/
def execShl16 (o : OpA) (s : State) : Out := alu16 o (fun a b => a <<< cnt6 b) s

/-- `SHR`, 16-bit. -/
def execShr16 (o : OpA) (s : State) : Out := alu16 o (fun a b => a >>> cnt6 b) s

/-- `SAR`, 16-bit. -/
def execSar16 (o : OpA) (s : State) : Out := alu16 o (fun a b => a.sshiftRight (cnt6 b)) s

/-- `MOVI`, 16-bit: imm5 sign-extended. -/
def execMovi16 (d : SReg) (imm : BitVec 5) (s : State) : Out := setD 2 d (fun _ => imm.signExtend 64) s

/-- `ADDI`, 16-bit: imm5 signed. -/
def execAddi16 (d : SReg) (imm : BitVec 5) (s : State) : Out := alu16I d (· + imm.signExtend 64) s

/-- `SHLI`, 16-bit. -/
def execShli16 (d : SReg) (cnt : BitVec 4) (s : State) : Out := alu16I d (· <<< cnt.toNat) s

/-- `SHRI`, 16-bit. -/
def execShri16 (d : SReg) (cnt : BitVec 4) (s : State) : Out := alu16I d (· >>> cnt.toNat) s

/-- `SARI`, 16-bit. -/
def execSari16 (d : SReg) (cnt : BitVec 4) (s : State) : Out := alu16I d (·.sshiftRight cnt.toNat) s

/-- `ANDI`, 16-bit: imm5 signed. -/
def execAndi16 (d : SReg) (imm : BitVec 5) (s : State) : Out := alu16I d (· &&& imm.signExtend 64) s

/-! ### Engine descriptions (R196) -/

/-- `XSET` (R196). -/
def execXset (x : XReg) (a : SReg) (la : Bool) (s : State) : Out :=
  runStrand 4 (fun c => do
    let v ← readS c a
    .ok (((c.markS a la).writeX x v).advance 4)) s

/-- `XGET` (R196). -/
def execXget (d : SReg) (x : XReg) (s : State) : Out := setD 4 d (fun c => c.xVal x) s

end Sys2Proof.Machine
end

