-- ==== Sys2Proof/Machine/Control.lean ====
section
/-! DEFINITION. Control transfer (R95-R98), vector length, identity and control registers (R99-R102), and the return from an
upcall (R382). -/

namespace Sys2Proof.Machine

/-- An address a halfword offset away (R45, R95). -/
def target {w : Nat} (pc : Word) (off : BitVec w) : Word := pc + off.signExtend 64 * 2

/-- A direct jump. -/
def jump {w : Nat} (off : BitVec w) : State → Out := runStrand 4 fun c => .ok (c.goto (target c.pc off))

/-- A jump that writes the link (R95): `lk` is `s30`. -/
def callTo (len : Nat) (tgt : Word → Word) : State → Out :=
  runStrand len fun c => do
    needFree c (.s 30)
    .ok ((c.writeS 30 (c.pc + BitVec.ofNat 64 len)).goto (tgt c.pc))

/-- A conditional jump on a predicate (R96). -/
def jumpIf {w : Nat} (len : Nat) (take : Strand → Bool) (off : BitVec w) : State → Out :=
  runStrand len fun c => .ok (if take c then c.goto (target c.pc off) else c.advance len)

/-- `BR` (R95). -/
def execBr (off : BitVec 20) (s : State) : Out := jump off s
/-- `CALL` (R95). -/
def execCall (off : BitVec 20) (s : State) : Out := callTo 4 (fun pc => target pc off) s
/-- `BR.S` (R40, R95). -/
def execBrS (off : BitVec 10) (s : State) : Out := jump off s
/-- `CALL.S` (R40, R95). -/
def execCallS (off : BitVec 10) (s : State) : Out := callTo 2 (fun pc => target pc off) s

/-- `JR` (R95). -/
def execJr (a : SReg) (la : Bool) (imm : BitVec 9) (s : State) : Out :=
  runStrand 4 (fun c => do
    let x ← readS c a
    .ok ((c.markS a la).goto (target x imm))) s

/-- `CALLR` (R95): a is read before the link is written. -/
def execCallr (a : SReg) (la : Bool) (imm : BitVec 9) (s : State) : Out :=
  runStrand 4 (fun c => do
    let x ← readS c a
    needFree c (.s 30)
    .ok (((c.markS a la).writeS 30 (c.pc + 4)).goto (target x imm))) s

/-- `RET` (R95). -/
def execRet (s : State) : Out :=
  runStrand 2 (fun c => do
    let x ← readS c 30
    .ok (c.goto x)) s

/-- Whether a predicate satisfies a condition of `BQ` (R96). -/
def bqTakes (c : BqCond) (v : Tri) : Bool :=
  match c with
  | .t => v == .t
  | .f => v == .f
  | .u => v == .u
  | .nt => v != .t

/-- `BQ` (R96). -/
def execBq (k : BqCond) (q : QReg) (off : BitVec 15) (s : State) : Out := jumpIf 4 (fun c => bqTakes k (c.qVal q)) off s
/-- `BQT` (R96). -/
def execBqt (q : QReg) (off : BitVec 7) (s : State) : Out := jumpIf 2 (fun c => bqTakes .t (c.qVal q)) off s
/-- `BQF` (R96). -/
def execBqf (q : QReg) (off : BitVec 7) (s : State) : Out := jumpIf 2 (fun c => bqTakes .f (c.qVal q)) off s
/-- `BQU` (R96). -/
def execBqu (q : QReg) (off : BitVec 7) (s : State) : Out := jumpIf 2 (fun c => bqTakes .u (c.qVal q)) off s

/-- `LOOP` (R97): the counter is written, and a nonzero result branches. -/
def execLoop (d : SReg) (off : BitVec 15) (s : State) : Out :=
  runStrand 4 (fun c => do
    if d = 0 then throw (.fault ⟨.undef, c.pc, encInfo (encode (.loop d off))⟩)
    let x ← readS c d
    let c1 := c.writeS d (x - 1)
    .ok (if x - 1 ≠ 0 then c1.goto (target c.pc off) else c1.advance 4)) s

/-- `TRAP` (R98): always takes the exception 0x60. -/
def execTrap (imm : BitVec 15) (s : State) : Out :=
  run 4 (fun _ => .error (.fault ⟨.trap, 0, imm.setWidth 64⟩)) s

/-- `SETVL` (R99). -/
def execSetvl (d a : SReg) (la : Bool) (imm : BitVec 9) (s : State) : Out :=
  runStrand 4 (fun c => do
    let x ← readS c a
    needFree c (.s d)
    let v := min (x + imm.setWidth 64).toNat 2048
    .ok ((({ c.markS a la with ctl := { c.ctl with vl := v } }).writeS d (BitVec.ofNat 64 v)).advance 4)) s

/-- The slot as `id.slot` reads (R26): the slot the strand occupies now. -/
def slotNo (c : Strand) : Nat :=
  match c.place with
  | .slot n => n
  | .stopped (some n) _ => n
  | _ => 0

/-- An identity register (R26, R27). -/
def idReg (g : Nat) (c : Strand) (i : Nat) : Option Word :=
  let n (x : Nat) : Option Word := some (BitVec.ofNat 64 x)
  match i with
  | 0 => n g
  | 1 => n c.core
  | 2 => n (slotNo c)
  | 3 => n (dieOf c.core)
  | 4 => n (sgOf c.core)
  | 5 => n c.ident.node
  | 6 => some c.ident.arg
  | 7 => n c.ident.gx
  | 8 => n c.ident.gy
  | 9 => n c.ident.gw
  | 10 => n c.ident.gh
  | 11 => n c.ident.nstr
  | 12 => n c.ident.sidx
  | 13 => n c.ident.ext0
  | 14 => n c.ident.ext1
  | 15 => n c.ident.org0
  | 16 => n c.ident.org1
  | 17 => some c.ident.win
  | 18 => some c.ident.amend
  | _ => none

/-- `RDID` (R100). -/
def execRdid (d : SReg) (idx : BitVec 15) (s : State) : Out :=
  runStrand 4 (fun c =>
    match idReg s.curId c idx.toNat with
    | none => .error (.fault ⟨.undef, c.pc, encInfo (encode (.rdid d idx))⟩)
    | some v => do
      needFree c (.s d)
      .ok ((c.writeS d v).advance 4)) s

/-- A control register (R28, R101): reserved bits read as zero. -/
def ctlReg (s : State) (c : Strand) (i : Nat) : Option Word :=
  let k := s.core c.core
  match i with
  | 0 => some (c.ctl.fpm.setWidth 64)
  | 1 => some (c.ctl.fpf.setWidth 64)
  | 2 => some (c.ctl.ist.setWidth 64)
  | 3 => some (BitVec.ofNat 64 c.ctl.vl)
  | 4 => some (c.ctl.wlim.setWidth 64)
  | 5 => some c.ctl.tvec
  | 6 => some (c.ctl.tcause.setWidth 64)
  | 7 => some c.ctl.tinfo
  | 8 => some c.ctl.taddr
  | 9 => some c.ctl.tpc
  | 10 => some (c.ctl.mig.setWidth 64)
  | 11 => some (if c.ctl.nant then 1 else 0)
  | 12 => some c.ctl.satc
  | 13 => some (c.ctl.quantum.setWidth 64)
  | 16 => some (if k.rot then 1 else 0)
  | 17 => some (BitVec.ofNat 64 k.bslim)
  | 18 => some (BitVec.ofNat 64 k.starve)
  | 19 => some (match s.gangs.find? c.ident.gang with | some g => g.fpf.setWidth 64 | none => 0)
  | 20 => some (match s.gangs.find? c.ident.gang with | some g => if g.np then 1 else 0 | none => 0)
  | _ => none

/-- `RDCTL` (R101). -/
def execRdctl (d : SReg) (idx : BitVec 15) (s : State) : Out :=
  runStrand 4 (fun c =>
    match ctlReg s c idx.toNat with
    | none => .error (.fault ⟨.undef, c.pc, encInfo (encode (.rdctl d idx))⟩)
    | some v => do
      needFree c (.s d)
      .ok ((c.writeS d v).advance 4)) s

/-- A write of a strand-scoped control register (R102): only the listed bits. -/
def writeCtl (c : Ctl) (i : Nat) (v : Word) : Ctl :=
  match i with
  | 0 => { c with fpm := v.setWidth 4 }
  | 1 => { c with fpf := v.setWidth 6 }
  | 2 => { c with ist := v.setWidth 16 &&& 0xFF0F }
  | 3 => { c with vl := min v.toNat 2048 }
  | 4 => { c with wlim := v.setWidth 32 }
  | 5 => { c with tvec := v }
  | 6 => { c with tcause := (c.tcause &&& 0x700) ||| (v.setWidth 8).setWidth 11 }
  | 7 => { c with tinfo := v }
  | 8 => { c with taddr := v }
  | 9 => { c with tpc := v }
  | 10 => { c with mig := v.setWidth 8 }
  | 11 => { c with nant := v.getLsbD 0 }
  | 12 => { c with satc := v }
  | 13 => { c with quantum := v.setWidth 16 }
  | _ => c

/-- `ctl.bslim` as a write leaves it (R102). -/
def bslimOf (v : Word) : Nat :=
  let n := v.toNat % 512
  if n = 0 then 1 else min n 256

/-- A write of a core-scoped control register (R102, R165): the rotation mode in force changes at the next cycle whose count
is a multiple of 16, and a new cap governs the fetch decisions of the next cycle. -/
def writeCoreCtl (s : State) (core i : Nat) (v : Word) : State :=
  match i with
  | 16 =>
    let t := s.modCore core fun k => { k with rot := v.getLsbD 0 }
    t.at_ (s.dieTime core (16 - s.dieNow core % 16)) rankFill .rotModeSwitch { id := core }
  | 17 => (s.modCore core fun k => { k with bslim := bslimOf v }).askFetch core (s.now + 1)
  | 18 => (s.modCore core fun k => { k with starve := v.toNat % 2 ^ 32 }).askFetch core (s.now + 1)
  | _ => s

/-- The bits of `ctl.fpf` and NP of `ctl.ist` that a `WRCTL` sets enter `gang.fpf` and `gang.np` like any bit that a strand sets;
the ones it clears stay there (R65). -/
def State.noteWrite (s : State) (gang i : Nat) (v : Word) : State :=
  match i with
  | 1 => s.noteGang gang (v.setWidth 6) false
  | 2 => s.noteGang gang 0 (v.getLsbD 0)
  | _ => s

/-- `WRCTL` (R102, R29): in user mode a core-scoped index raises fault 0x04, after the faults of the source register;
writes of indices 19 and 20 are ignored. -/
def execWrctl (d : SReg) (idx : BitVec 15) (s : State) : Out :=
  run 4 (fun s =>
    let c := s.cur
    if !ctlIndexOk idx.toNat then .error (.fault ⟨.undef, c.pc, encInfo (encode (.wrctl d idx))⟩)
    else do
      let v ← readS c d
      if idx.toNat ≤ 13 then .ok ((s.noteWrite c.ident.gang idx.toNat v).setCur ({ c with ctl := writeCtl c.ctl idx.toNat v }.advance 4))
      else if idx.toNat ≤ 18 && !c.ident.system then
        .error (.fault ⟨.priv, c.pc, encInfo (encode (.wrctl d idx))⟩)
      else .ok ((writeCoreCtl s c.core idx.toNat v).setCur (c.advance 4))) s

/-- The rotation mode written by the last `WRCTL` comes into force (R165); `arg.id` is the core. -/
def execRotModeSwitch (s : State) : Out :=
  .next (s.modCore s.arg.id fun k => { k with rotNow := k.rot })

/-- `NOP` (R108). -/
def execNop (s : State) : Out := runStrand 2 (fun c => .ok (c.advance 2)) s

/-- `NPCLR` (R108): clears NP of `ctl.ist`. -/
def execNpclr (s : State) : Out :=
  runStrand 2 (fun c => .ok ({ c with ctl := { c.ctl with ist := c.ctl.ist &&& 0xFFFE } }.advance 2)) s

/-- A return from an upcall, or fault 0x01 where UP is 0 (R382). -/
def upretWith (skip : Bool) (h : Half) : State → Out :=
  runStrand 2 fun c => if c.up then .ok (c.upret skip) else .error (.fault ⟨.undef, c.pc, encInfo [h]⟩)

/-- `UPRET` (R382). -/
def execUpret (s : State) : Out := upretWith false 0x7D00 s
/-- `UPRET.SKIP` (R382). -/
def execUpretSkip (s : State) : Out := upretWith true 0x7D01 s

end Sys2Proof.Machine
end

