-- ==== Sys2Proof/Config.lean ====
section
/-! DEFINITION. Free values: what the spec leaves to each implementation as a fixed function of the operands. Each is a
constant without a body, so nothing can be proved of its value. -/

namespace Sys2Proof.Config

/-- Which of the results that R132 allows `VEXP` (0), `VRCP` (1), `VRSQ` (2) and `VTANH` (3) give, as a function of the
format's code, the rounding mode's code and the operand's bits: modulo 3, 0 the rounded exact value, 1 its neighbour toward
zero, 2 its neighbour away from zero. (DESIGN CHOICE, log 6; log 18) -/
opaque approx (op fmt rm bits : Nat) : Nat

/-- Whether a bound of `IEXP` (0), `ILOG` (1), `ISQRT` (2), or of the x (3) or z (4) step of `CEXP`, lies one ulp outside the
correctly rounded outward bound (R70, R139), for the lower and for the upper bound, as a function of the operands' bits.
(DESIGN CHOICE, log 6; log 20) -/
opaque slack (op : Nat) (upper : Bool) (x z : Nat) : Bool

/-- Which bank a home takes for a refresh that it pulls forward in a cycle (R248): modulo 16. (DESIGN CHOICE, log 6; log 38) -/
opaque pullBank (home now : Nat) : Nat

/-- The bytes that a unit of a missing gather or get element is written with, poisoned (R324, R423): as a function of the core, the
command's number and the unit's offset. (DESIGN CHOICE, log 6; log 49) -/
opaque missing (core cmd off : Nat) : BitVec 512

/-- What a save area holds beyond the bits that R166 and R395 give a meaning, as a function of the gang's number and the word's offset: a
command remainder, a window's binding record, and the bits of a context's first word that no value is stated for.
(DESIGN CHOICE, log 6; log 62) -/
opaque saved (gang off : Nat) : BitVec 64

/-- The two bits that a saved context holds for a fill state (R166): of full (0), empty (1), empty with a reply pending (2) and dead (3).
(DESIGN CHOICE, log 6; log 62) -/
opaque fillCode (n : Nat) : BitVec 2

/-- The SHAKE256 digest of 64 bytes (R444, FIPS 202), which the spec names and does not define. (DESIGN CHOICE, log 6; log 22) -/
opaque shake256 (data : List (BitVec 8)) : BitVec 512

/-- The quote that the resident service signs (R445) over a nonce, the measurement register, the life-cycle state and its own
firmware version, with its length. (DESIGN CHOICE, log 6; log 22) -/
opaque quote (nonce meas : List (BitVec 8)) (life : Nat) : List (BitVec 8)

end Sys2Proof.Config
end

