-- ==== Sys2Proof/Machine/Scratch.lean ====
section
/-! DEFINITION. Accesses of strands to their core's scratchpad (R21-R23, R103, R104): address checks, the scoreboard of R206,
poison (R316), and the bytes. -/

namespace Sys2Proof.Machine

/-- Whether two half-open ranges share a 64-byte unit (R206). -/
def overlap (a b : Nat × Nat) : Bool :=
  decide (a.1 < a.2) && decide (b.1 < b.2) && decide (a.1 / 64 ≤ (b.2 - 1) / 64) && decide (b.1 / 64 ≤ (a.2 - 1) / 64)

/-- The ring that a command of a core waits for, itself or behind the head of its queue or behind another queue's head that
holds that head (R206). (DEDUCED, log 50) -/
def cmdRing (k : Core) (q : Nat) (x : Cmd) : Option (Nat × Nat) :=
  match x.ringWait with
  | some r => some r
  | none =>
    let heads := k.queues.toList.filterMap fun l => l.head?
    match (k.queues[q]?).bind (·.head?) with
    | some h =>
      match h.ringWait with
      | some r => some r
      | none => if h.started then none else (heads.findSome? fun y => y.ringWait)
    | none => none

/-- Bytes that a command has read of its scratchpad range, from its start (R206). -/
def Cmd.rdDone (x : Cmd) : Nat :=
  match x.op with
  | .mload _ _ _ _ => 512 * x.unit
  | .cpy _ _ _ => 64 * (x.unit + if x.hold.have_ then 1 else 0)
  | .wpost false _ _ _ => 64 * x.unit
  | .wpost true _ _ _ => 2 ^ 19
  | .stream _ _ _ rs _ => rs * x.unit
  | _ => 0

/-- Bytes that a command has written of its scratchpad range. -/
def Cmd.wrDone (x : Cmd) : Nat :=
  match x.op with
  | .mstore _ _ _ _ _ _ => 512 * x.unit
  | .cpy _ _ _ | .wpost true _ _ _ => 64 * x.unit
  | _ => 0

/-- What is left of ranges when their first `n` bytes are done. -/
def leftOf (n : Nat) (l : List (Nat × Nat)) : List (Nat × Nat) := (l.map fun r => (r.1 + n, r.2)).filter fun r => decide (r.1 < r.2)

/-- Scratchpad ranges that a command still reads (R206). -/
def Cmd.stillRd (x : Cmd) : List (Nat × Nat) := leftOf x.rdDone x.rdSp
/-- Scratchpad ranges that a command still writes. -/
def Cmd.stillWr (x : Cmd) : List (Nat × Nat) := leftOf x.wrDone x.wrSp

/-- The command that holds an access of a strand to the range, if one does: a write waits for commands that still read or write it, a
read for those that still write it (R206); a row load counts as a writer of its row (R262). (DEDUCED, log 16) -/
def holder (k : Core) (r : Nat × Nat) (write : Bool) : Option (Option (Nat × Nat)) :=
  let cmds := (List.range 4).flatMap fun q => ((k.queues[q]?).getD []).map fun x => (q, x)
  match cmds.find? fun (_, x) => x.stillWr.any (overlap r) || (write && x.stillRd.any (overlap r)) with
  | some (q, x) => some (cmdRing k q x)
  | none => if k.rowLoads.any fun (_, l) => overlap r (l.row, l.row + 512) then some none else none

/-- Rows that a range touches. -/
def spRows (addr n : Nat) : List Nat := (List.range ((addr + n - 1) / 512 + 1 - addr / 512)).map (addr / 512 + ·)

/-- Banks of the rows that a range touches (R21). -/
def spBanks (addr n : Nat) : List Nat := ((spRows addr n).map (· % 3)).eraseDups

/-- A strand's access to a range waits behind the scoreboard (R104, R206), and behind a write of its bank in the same cycle
(R24). -/
def needRange (k : Core) (addr n : Nat) (write : Bool) : Except Stop Unit :=
  match holder k (addr, addr + n) write with
  | none => if (spBanks addr n).any (if write then k.bankNo else k.bankWr).contains then .error .forfeit else .ok ()
  | some r => .error (.held r)

/-- The STEP gang that holds slots of a core, if one does. -/
def State.stepGang (s : State) (core : Nat) : Option Nat :=
  (s.core core).slots.toList.findSome? fun o => o.bind fun g => if (s.strand g).ident.step then some (s.strand g).ident.gang else none

/-- Whether a bank of a range serves another row in this cycle, among the rows given (R24). -/
def rowTaken (rows : List Nat) (addr n : Nat) : Bool := (spRows addr n).any fun r => rows.any fun x => x % 3 == r % 3 && x != r

/-- Whether a bank of a range has been written in this cycle by an engine, another core or a row load: each bank serves one row write
(R24). -/
def Core.bankTaken (k : Core) (addr n : Nat) : Bool := rowTaken k.engWr addr n

/-- A write of a range that no strand of the core makes takes its banks in this cycle (R24): strands do not read them when `rd`, and
do not write them except on a core that holds a STEP gang (R180). (DEDUCED, log 46) -/
def State.takeBanks (s : State) (core addr n : Nat) (rd : Bool) : State :=
  let b := spBanks addr n
  let step := (s.stepGang core).isSome
  s.modCore core fun k => { k with
    engWr := k.engWr ++ spRows addr n
    bankWr := if rd then k.bankWr ++ b else k.bankWr
    bankNo := if step then k.bankNo else k.bankNo ++ b }

/-- A tagged write from another core, or the write of a row load, takes its banks: on a core that holds a STEP gang no strand's read
contends with it (R180). (DEDUCED, log 46) -/
def State.takeOther (s : State) (core addr n : Nat) : State := s.takeBanks core addr n (s.stepGang core).isNone

/-- A read of a poisoned unit faults with the address of the lowest one (R316). -/
def needClean (k : Core) (addr n : Nat) : Except Stop Unit :=
  match k.spPoison.find? fun u => decide (addr / 64 ≤ u) && decide (u ≤ (addr + n - 1) / 64) with
  | none => .ok ()
  | some u => .error (.fault ⟨.poison, BitVec.ofNat 64 (u * 64), 0⟩)

/-- The address checks of a scalar access of `n` bytes (R22): fault 0x06 before fault 0x05. -/
def spCheck (addr : Word) (n : Nat) : Except Stop Unit :=
  if addr.toNat > spLast || addr.toNat + n - 1 > spLast then .error (.fault ⟨.range, addr, 0⟩)
  else if addr.toNat % n ≠ 0 then .error (.fault ⟨.align, addr, 0⟩)
  else .ok ()

/-- Numbers of the 64-byte units that a write of `n` bytes covers whole (R316). -/
def wholeUnits (addr n : Nat) : List Nat :=
  ((List.range (n / 64 + 1)).map (addr / 64 + ·)).filter fun u => addr ≤ u * 64 && u * 64 + 64 ≤ addr + n

/-- Writes bytes of the scratchpad; a unit written whole is no longer poisoned (R316). -/
def Core.spWrite (k : Core) (addr : Nat) (bs : List Byte) : Core :=
  { k with
    sp := k.sp.write addr bs
    spPoison := if k.spPoison.isEmpty then [] else k.spPoison.filter fun u => !(wholeUnits addr bs.length).contains u }

/-- The address of format M: base plus the sign-extended offset scaled by `n` (R103, R253). -/
def addrM (base : Word) (off : BitVec 9) (n : Nat) : Word := base + off.signExtend 64 * BitVec.ofNat 64 n

/-- A scalar scratchpad load of `n` bytes (R103). -/
def loadSp (len n : Nat) (t a : SReg) (la : Bool) (off : BitVec 9) : State → Out :=
  run len fun s => do
    let c := s.cur
    let base ← readS c a
    needFree c (.s t)
    needAcq c
    let addr := addrM base off n
    spCheck addr n
    let k := s.core c.core
    needRange k addr.toNat n false
    needClean k addr.toNat n
    .ok (s.setCur (((c.markS a la).writeS t (BitVec.ofNat 64 (k.sp.readN addr.toNat n))).advance len))

/-- A scalar scratchpad store of `n` bytes (R103). -/
def storeSp (len n : Nat) (t a : SReg) (la : Bool) (off : BitVec 9) : State → Out :=
  run len fun s => do
    let c := s.cur
    let base ← readS c a
    let v ← readS c t
    needAcq c
    let addr := addrM base off n
    spCheck addr n
    let k := s.core c.core
    needRange k addr.toNat n true
    .ok ((s.setCore c.core (k.spWrite addr.toNat (leBytes n v.toNat))).setCur ((c.markS a la).advance len))

/-- `LDS.B` (R103). -/
def execLdsB (o : OpM) (s : State) : Out := loadSp 4 1 o.t o.a o.la o.off s
/-- `LDS.H` (R103). -/
def execLdsH (o : OpM) (s : State) : Out := loadSp 4 2 o.t o.a o.la o.off s
/-- `LDS.W` (R103). -/
def execLdsW (o : OpM) (s : State) : Out := loadSp 4 4 o.t o.a o.la o.off s
/-- `LDS.D` (R103). -/
def execLdsD (o : OpM) (s : State) : Out := loadSp 4 8 o.t o.a o.la o.off s
/-- `STS.B` (R103). -/
def execStsB (o : OpM) (s : State) : Out := storeSp 4 1 o.t o.a o.la o.off s
/-- `STS.H` (R103). -/
def execStsH (o : OpM) (s : State) : Out := storeSp 4 2 o.t o.a o.la o.off s
/-- `STS.W` (R103). -/
def execStsW (o : OpM) (s : State) : Out := storeSp 4 4 o.t o.a o.la o.off s
/-- `STS.D` (R103). -/
def execStsD (o : OpM) (s : State) : Out := storeSp 4 8 o.t o.a o.la o.off s
/-- `LDS`, 16-bit: `LDS.D d, [a+0]` (R40). -/
def execLds16 (o : OpA) (s : State) : Out := loadSp 2 8 o.d o.a false 0 s
/-- `STS`, 16-bit: `STS.D d, [a+0]` (R40). -/
def execSts16 (o : OpA) (s : State) : Out := storeSp 2 8 o.d o.a false 0 s
/-- `LDS.SP`: `LDS.D d, [sp+8×imm5]` (R40). -/
def execLdsSp (d : SReg) (imm : BitVec 5) (s : State) : Out := loadSp 2 8 d 31 false (imm.setWidth 9) s
/-- `STS.SP`: `STS.D d, [sp+8×imm5]` (R40). -/
def execStsSp (d : SReg) (imm : BitVec 5) (s : State) : Out := storeSp 2 8 d 31 false (imm.setWidth 9) s

end Sys2Proof.Machine
end

