-- ==== Sys2Proof/Machine/MemOps.lean ====
section
/-! DEFINITION. How an access of a strand reaches main memory: translation (R241-R245), the migration count (R239, R240), the
limits and drains (R254, R255), parking on blocks and misses (R228, R244), and the sending of a request (R226). -/

namespace Sys2Proof.Machine

/-! ### Translation -/

/-- Access kinds as `ctl.tinfo[1:0]` codes them (R377): 0 read, 1 write or read-modify-write, 2 instruction fetch. -/
inductive Kind where
  | read | write | fetch
  deriving DecidableEq, Repr

/-- The code of an access kind (R377). -/
def Kind.code : Kind → Nat
  | .read => 0 | .write => 1 | .fetch => 2

/-- What a page must permit (R242, R252). -/
inductive Need where
  | r | w | rw | x | any
  /-- The copy of a migration: V and GMASK alone (R415). -/
  | page
  deriving DecidableEq, Repr

/-- Whether a leaf permits an access (R242). -/
def permits (leaf : Word) : Need → Bool
  | .r => leaf.getLsbD 1
  | .w => leaf.getLsbD 2
  | .rw => leaf.getLsbD 1 && leaf.getLsbD 2
  | .x => leaf.getLsbD 3
  | .any => leaf.getLsbD 1 || leaf.getLsbD 2 || leaf.getLsbD 3
  | .page => true

/-- The 64 KiB virtual page of an address: VA[47:16] (R241). (DEDUCED, log 13) -/
def vpnOf (va : Word) : Nat := va.toNat % 2 ^ 48 / 65536

/-- Whether a leaf is of a 2 MiB page (R242). -/
def leafBig (leaf : Word) : Bool := leaf.getLsbD 9

/-- Whether a valid entry matches a virtual page (R241). -/
def tlbHit (vpn : Nat) (e : TlbEntry) : Bool :=
  e.tag.getLsbD 63 &&
    (if leafBig e.leaf then e.tag.toNat / 2 ^ 21 % 2 ^ 27 == vpn / 32 else e.tag.toNat / 2 ^ 16 % 2 ^ 32 == vpn)

/-- The lowest-numbered entry that matches (R241). -/
def tlbFind (k : Core) (vpn : Nat) : Option TlbEntry := (List.find? (fun x => tlbHit vpn x.2) k.tlb).map (·.2)

/-- The physical address that a leaf gives a virtual address (R242, R243). -/
def leafPa (leaf : Word) (va : Word) : Nat :=
  let frame := leaf.toNat / 2 ^ 16 % 2 ^ 24
  let size := if leafBig leaf then 2 ^ 21 else 2 ^ 16
  let off := va.toNat % size
  if leaf.getLsbD 5 then
    let h0 := frame / 2 ^ 14
    let o := frame % 2 ^ 14 * 65536
    let b := h0 / 64 * 64
    let k := off / 4096
    (b + (h0 - b + k) % 64) * 2 ^ 30 + (o + 4096 * (k / 64)) + off % 4096
  else if leafBig leaf then frame / 32 * 32 * 65536 + off
  else frame * 65536 + off

/-- `ctl.tinfo` of fault 0x14 (R417): the lowest migration slot that covers the address decides. -/
def hostInfo (s : State) (va : Word) (k : Kind) : Word :=
  let covers (m : MigSlot) : Bool :=
    m.state != 0 && (if m.vpn.getLsbD 0 then m.vpn.toNat / 2 ^ 21 % 2 ^ 27 == va.toNat % 2 ^ 48 / 2 ^ 21
      else m.vpn.toNat / 2 ^ 16 % 2 ^ 32 == vpnOf va)
  match (List.range 16).find? fun n => covers ((s.pkg.mig[n]?).getD {}) with
  | none => BitVec.ofNat 64 k.code
  | some n =>
    let m := (s.pkg.mig[n]?).getD {}
    let mst := if m.state = 3 then 2 else 1
    BitVec.ofNat 64 (k.code + mst * 2 ^ 8 + n * 2 ^ 12 + (if mst = 2 then m.cause * 2 ^ 16 else 0))

/-- The checks of R245 on a leaf, in their order. -/
def leafCheck (s : State) (core : Nat) (leaf comp : Word) (va : Word) (n : Need) (k : Kind) : Except FaultRec Nat :=
  let info := BitVec.ofNat 64 k.code
  if !leaf.getLsbD 0 then .error ⟨.absent, va, info⟩
  else if !permits leaf n then .error ⟨.prot, va, info⟩
  else if !comp.getLsbD (groupBit core) then .error ⟨.group, va, info⟩
  else if leaf.getLsbD 8 && n != .page then .error ⟨.hostPage, va, hostInfo s va k⟩
  else if homeOf (leafPa leaf va) > 767 then .error ⟨.prot, va, info⟩
  else .ok (leafPa leaf va)

/-- The outcome of translating an address through a core's TLB (R244, R245). -/
inductive Xlat where
  | hit (pa : Nat) (leaf : Word)
  | miss (vpn : Nat)
  | fault (f : FaultRec)
  deriving DecidableEq, Repr

/-- Translation through a core's TLB (R241, R245). -/
def translate (s : State) (core : Nat) (va : Word) (n : Need) (k : Kind) : Xlat :=
  match tlbFind (s.core core) (vpnOf va) with
  | none => .miss (vpnOf va)
  | some e =>
    match leafCheck s core e.leaf e.comp va n k with
    | .ok pa => .hit pa e.leaf
    | .error f => .fault f

/-- A waiter joins the miss of its core on a virtual page; the first one sends the miss message to the translation core of
its stack group (R244). -/
def State.joinMiss (s : State) (core vpn : Nat) (w : Waiter) : State :=
  match (s.core core).misses.find? vpn with
  | some m => s.modCore core fun k => { k with misses := k.misses.set vpn { m with joined := m.joined ++ [w] } }
  | none =>
    (s.modCore core fun k => { k with misses := k.misses.set vpn { joined := [w] } }).at_
      (s.now + latency core (walkStop core)) rankWork .tlbMissWalk { id := core, idx := vpn }

/-! ### Waiting for blocks (R228-R231) -/

/-- Whether a block is resident (R227). -/
def resident (h : Home) (blk : Nat) : Bool :=
  match h.frames.find? blk with
  | some f => (match f.st with | .resident _ => true | _ => false)
  | none => false

/-- The cycle in which a queue was marked kept, after an access of cycle `now` that marks it or does not (R231). -/
def WaitQ.mark (q : WaitQ) (kept : Bool) (now : Nat) : Option Nat := q.keptAt.orElse fun _ => if kept then some now else none

/-- A waiter joins the queue of an absent block, which is made if there is room, or the overflow list (R229, R230); an access
through a leaf with K = 1 marks the queue kept (R231). -/
def State.joinQueue (s : State) (h blk : Nat) (w : Waiter) (park : Nat) (kept : Bool) : State :=
  let x := s.home h
  let p : Parked := ⟨w, park⟩
  let x1 := match x.queues.find? blk with
    | some q => { x with queues := x.queues.set blk { q with waiters := q.waiters ++ [p], keptAt := q.mark kept park } }
    | none =>
      if x.queues.length < 1024 then { x with queues := x.queues.set blk { waiters := [p], keptAt := if kept then some park else none } }
      else { x with overflow := x.overflow ++ [(blk, p, kept)] }
  (s.setHome h x1).askFetch h (max s.now (park + 1))

/-! ### Accesses in flight, limits and drains (R254, R255) -/

/-- Whether a home lies in a scope of a core (R269). -/
def inScope (q : FScope) (core home : Nat) : Bool :=
  match q with
  | .core => home == core
  | .sg => dieOf home == dieOf core && sgOf home == sgOf core
  | .die => dieOf home == dieOf core
  | .pkg => true

/-- Whether a drain waits for a request: writes until they are acknowledged, other accesses until they are performed
(R226, R259), and a row load that has failed until the drain can meet its failure (R255). -/
def drains (d : Drain) (core : Nat) (r : Req) : Bool :=
  let write := r.acc.isStore || r.acc.isRed
  let open_ := write || r.stage != .done || r.bad
  match d with
  | .all => open_ && (match r.acc with | .fetch _ _ => false | _ => true)
  | .writes => write
  | .reds => r.acc.isRed
  | .scope q => open_ && inScope q core r.home && (match r.acc with | .fetch _ _ => false | _ => true)

/-- Whether a strand has accesses that a drain waits for. -/
def State.undrained (s : State) (g : Nat) (d : Drain) : Bool :=
  s.reqs.any fun (_, r) => r.strand == some g && drains d (s.strand g).core r

/-- A drain (R255, R277): waits without a limit, and then meets the earliest deferred failure. (DEDUCED, log 15) -/
def needDrained (s : State) (d : Drain) : Except Stop Unit :=
  if s.undrained s.curId d then .error (.wait (.drain d) none)
  else match s.cur.fails with
    | [] => .ok ()
    | (id, f) :: _ => .error (.failAcc id f)

/-- Stores (0), reductions (1) or row loads (2) of a strand in flight (R254). A `VST` counts one store for its lines, a
`VLD` one row load. -/
def State.inFlight (s : State) (g k : Nat) : Nat :=
  let mine := s.reqs.filter fun (_, r) => r.strand == some g
  match k with
  | 0 => (mine.filter fun (_, r) => r.acc.isStore).length
  | 1 => (mine.filter fun (_, r) => r.acc.isRed).length
  | _ => (s.cores.map fun (_, k) => (k.rowLoads.filter fun (_, l) => l.strand == g).length).sum

/-- The most accesses of a kind in flight (R254). -/
def flightLimit (k : Nat) : Nat := if k = 2 then 4 else 8

/-- Waits while the limit of a kind is reached (R254). -/
def needFlight (s : State) (k : Nat) : Except Stop Unit :=
  if s.inFlight s.curId k < flightLimit k then .ok () else .error (.wait (.limit k) none)

/-! ### Migration (R239, R240) -/

/-- The strand leaves for another home: its context arrives there after the latency and four cycles for each unit (R240). The strand of a
victim leaves its slot and is stopped (R393). -/
def State.migrate (s : State) (g home : Nat) : State :=
  let c := s.strand g
  if s.cut c.core home then s.cutOff c.ident.gang
  else if s.stopping c.ident.gang then
    ((s.vacate g (s.now + 1)).modStrand g fun c => { c with place := .ready, wait := none }).stopLeft g
  else (((s.vacate g (s.now + 1)).modStrand g fun c => { c with place := .migrating home, wait := none, fetch := .idle, owe := 0 }).at_
    (s.now + latency c.core home + 4 * c.units) rankMig .migrationArrival { id := g, idx := home })

/-- Whether a strand holds an operand-memory slot (R202). -/
def State.holdsSlot (s : State) (g : Nat) : Bool := (s.core (s.strand g).core).omHold.any fun (_, h) => h == g

/-- What an access to a home does to the migration count (R239): the strand as the access leaves it, or `none` when the strand
migrates instead. -/
def countAccess (s : State) (h : Nat) : Option Strand :=
  let c := s.cur
  if h = c.core then some { c with mcount := 0 }
  else
    let m := if h = c.mhome then c.mcount + 1 else 1
    if c.ctl.mig ≠ 0 && m == c.ctl.mig.toNat then
      if c.ident.step || s.holdsSlot s.curId || !s.room h c then some { c with mhome := h, mcount := c.ctl.mig.toNat - 1 }
      else none
    else some { c with mhome := h, mcount := m }

/-! ### Sending -/

/-- A request leaves for its home, where it arrives after the one-way latency (R226). -/
def State.send (s : State) (r : Req) : State := (s.addReq r).toHome s.nextId r

/-- Translates for the current strand (R253): on a miss the strand parks, or waits in its slot (R244). -/
inductive Addr where
  | ok (pa : Nat) (leaf : Word)
  | wait (t : State)
  deriving DecidableEq, Repr

/-- The translation of a strand's access (R244, R245, R253). -/
def xlate (s : State) (va : Word) (n : Need) (k : Kind) : Except Stop Addr :=
  match translate s s.cur.core va n k with
  | .hit pa leaf => .ok (.ok pa leaf)
  | .fault f => .error (.fault f)
  | .miss vpn =>
    .ok (.wait ((s.joinMiss s.cur.core vpn (.strand s.curId)).park s.curId
      { kind := .miss vpn, since := s.now, va := va, info := BitVec.ofNat 64 k.code, len := 4 }))

/-- Whether a local access of this kind parks its strand on an absent block (R228): all but stores and reductions. -/
def Access.parks : Access → Bool
  | .load _ _ | .ldw _ _ | .amo _ _ _ | .cas _ _ _ | .row _ _ | .fetch _ _ | .sread _ => true
  | _ => false

/-- The strand parks on an absent block of its own home (R228), with the address of its access and the length of its
instruction, 0 for a fetch. -/
def State.parkOn (s : State) (g blk : Nat) (kept : Bool) (va : Word) (len : Nat) : State :=
  (s.joinQueue (s.strand g).core blk (if len = 0 then .fetch g else .strand g) s.now kept).park g
    { kind := .block blk, since := s.now, va := va, len := len }

/-- The request of the current strand for an access at a physical address. -/
def State.reqFor (s : State) (acc : Access) (pa : Nat) (leaf : Word) (va : Word) (ret : Retire) : Req :=
  let c := s.cur
  { acc := acc, strand := some s.curId, gang := c.ident.gang, core := c.core, home := homeOf pa, pa := pa, va := va, pc := c.pc
    kept := leaf.getLsbD 6, checked := leaf.getLsbD 4, retire := ret, owner := some s.curId
    via := (tlbFind (s.core c.core) (vpnOf va)).map fun e => (c.core, e) }

/-- The strand sends the closes of its span and waits for their acknowledgements; its span set is emptied (R283). -/
def State.closeSpan (s : State) : State :=
  let t := s.sendCloses s.curId
  t.setCur { t.cur with span := [], wait := some { kind := .closes, since := s.now } }

/-- A release (R283): it drains, then closes the strand's span, and goes on when every close has been acknowledged. -/
def release (s : State) (d : Drain) (go : Except Stop State) : Except Stop State := do
  needDrained s d
  if !s.cur.span.isEmpty then .ok s.closeSpan
  else if s.cur.closes ≠ 0 then .error (.wait .closes none)
  else go

/-- Whether a checked access is one to a 17th home of the span, which closes the span first (R283). -/
def spanFull (c : Strand) (h : Nat) (checked : Bool) : Bool :=
  checked && !c.span.contains h && decide (16 ≤ c.span.length)

/-- Performs the common part of a strand's access after its own checks (R253-R256, R282): translation, span, migration,
parking on a local absent block; then `go` continues with the request to be sent and the state in which the access counts. -/
def withAccess (s : State) (acc : Access) (va : Word) (n : Need) (k : Kind) (ret : Retire)
    (go : State → Req → Except Stop State) : Except Stop State := do
  match ← xlate s va n k with
  | .wait t => .ok t
  | .ok pa leaf =>
    let h := homeOf pa
    let checked := leaf.getLsbD 4
    if spanFull s.cur h checked then release s .all (.ok s)
    else if s.cur.closes ≠ 0 && checked then throw (.wait .closes none)
    else
      match countAccess s h with
      | none =>
        needDrained s .writes
        .ok (s.migrate s.curId h)
      | some c =>
        if h == c.core && acc.parks && !resident (s.home h) (blockOf pa) then
          .ok (s.parkOn s.curId (blockOf pa) (leaf.getLsbD 6) va 4)
        else
          let c1 := if checked then { c with span := NatSet.add c.span h } else c
          go (s.setCur c1) (s.reqFor acc pa leaf va ret)

/-- The registers that an instruction's reply fills (R15, R363). -/
def Req.dsts (r : Req) : List FillReg :=
  match r.acc, r.retire.dst with
  | .sread d, _ => [.s d, .s (d + 1)]
  | .load _ d, .none => [d]
  | _, .s n => [.s n]
  | _, .iv n => [.iv n]
  | _, .none => []

/-- A strand's destinations are empty with a reply pending from the issue on (R15). -/
def Strand.empties (c : Strand) (ds : List FillReg) : Strand := ds.foldl (fun c d => c.setFill d .pending) c

/-- The strand waits, out of the rotation, for the reply to the request that is sent last (R264, R282): its destinations are empty with
that reply pending. A strand whose access is checked keeps its slot. -/
def State.sendAndWait (s : State) (r : Req) : State :=
  let n := s.nextId
  let s1 := s.send r
  let c := s1.cur
  let ds := r.dsts
  s1.setCur { c.empties ds with
    wait := some { kind := .reply n, since := s.now, retire := r.retire, len := r.retire.len, hold := r.checked
                   old := ds.map fun d => (d, c.fillState d) } }

/-! ### Instruction fetch (R36, R37, R454) -/

/-- Starts the fetch of an instruction at `va`, or of its continuation behind a head that has been read. A fault's address is `va`, and it
is raised at the PC (R37). A strand that waits for the answer to an instruction it has issued does not park (`may` false): its fetch waits
beside it. (DEDUCED, log 45) -/
def State.fetchPart (s : State) (g : Nat) (va : Word) (may : Bool) : State :=
  let c := s.strand g
  let first := c.fetch.firstPart
  let head : Option Half := match c.fetch with | .half x => some x | _ => none
  match translate s c.core va .x .fetch with
  | .fault f => s.setStrand g { c with fetch := .fault f }
  | .miss vpn =>
    let s1 := s.joinMiss c.core vpn (.fetch g)
    if may then s1.park g { kind := .miss vpn, since := s.now, va := va, info := BitVec.ofNat 64 Kind.fetch.code }
    else s1.setStrand g { c with fetch := .held va true vpn head }
  | .hit pa leaf =>
    let h := homeOf pa
    let n := if pa % 64 ≤ 60 && first then 4 else 2
    if h == c.core && !resident (s.home h) (blockOf pa) then
      if may then s.parkOn g (blockOf pa) (leaf.getLsbD 6) va 0
      else (s.joinQueue h (blockOf pa) (.fetch g) s.now (leaf.getLsbD 6)).setStrand g { c with fetch := .held va false (blockOf pa) head }
    else
      let r : Req :=
        { acc := .fetch n (n == 2 && first), strand := some g, gang := c.ident.gang, core := c.core, home := h, pa := pa
          va := va, pc := c.pc, kept := leaf.getLsbD 6, val := (head.map (·.setWidth 64)).getD 0
          via := (tlbFind (s.core c.core) (vpnOf va)).map fun e => (c.core, e) }
      (s.setStrand g { c with fetch := .flight s.nextId }).send r

/-- Starts the fetch of a strand that holds a slot and has none (R454): an odd PC faults at once (R36). A fetch that waits beside an
instruction whose answer has come parks its strand. -/
def State.startFetch (s : State) (g : Nat) : State :=
  let c := s.strand g
  match c.place, c.fetch with
  | .slot _, .idle =>
    if c.wait.any fun w => !w.kind.tried then s
    else if c.pc.getLsbD 0 then s.setStrand g { c with fetch := .fault ⟨.misEntry, c.pc, c.prevPc⟩ }
    else s.fetchPart g c.pc true
  | .slot _, .half _ => if c.wait.any fun w => !w.kind.tried then s else s.fetchPart g (c.pc + 2) true
  | .slot _, .held va miss n h =>
    if c.wait.any fun w => !w.kind.tried then s
    else
      let s1 := s.setStrand g { c with fetch := match h with | some x => .half x | none => .idle }
      s1.park g (if miss then { kind := .miss n, since := s.now, va := va, info := BitVec.ofNat 64 Kind.fetch.code }
        else { kind := .block n, since := s.now, va := va })
  | _, _ => s

/-- The turn in which strand `g` has issued an instruction of `len` bytes whose answer it awaits in its slot: the fetch of the
next one starts (R454). (DEDUCED, log 45) -/
def State.fetchNext (s : State) (g len : Nat) : State :=
  let c := s.strand g
  match c.place with
  | .slot _ => (s.setStrand g { c with fetch := .idle }).fetchPart g (c.pc + BitVec.ofNat 64 len) false
  | _ => s

/-- A waiting strand goes on (R167): a context enters its ready list, a strand that kept its slot is runnable, and its fetch
starts if it has none. -/
def State.resume (s : State) (g : Nat) : State := (s.wake g).startFetch g

/-- What a fetch waited for has come (R234, R244), or has failed with a fault: a fetch that waits beside its strand's instruction goes on
alone, any other resumes its strand. -/
def State.resumeFetch (s : State) (g : Nat) : State :=
  let c := s.strand g
  match c.fetch with
  | .held va _ _ h =>
    (s.setStrand g { c with fetch := match h with | some x => .half x | none => .idle }).fetchPart g va !(c.wait.any fun w => w.kind.issued)
  | _ => s.resume g

/-- A strand's fault that it takes when it next issues (R384): it becomes ready, or takes it in the slot it kept. Its destinations stand as
they did (R32). -/
def State.pendUpcall (s : State) (g : Nat) (f : FaultRec) (len : Nat) : State :=
  let s0 := s.undoWait g
  let c := s0.strand g
  match c.place with
  | .slot _ => ((s0.setStrand g { c with wait := none }).raise g f (lenCode len)).startFetch g
  | _ => (s0.setStrand g { c with upcall := some (f, lenCode len) }).wake g

/-- A fetch that waited meets a fault (R37, R384): beside its strand's instruction it is the fetch's answer, else a pending upcall. -/
def State.fetchFault (s : State) (g : Nat) (cause : Cause) : State :=
  let c := s.strand g
  match c.fetch with
  | .held va _ _ _ => s.setStrand g { c with fetch := .fault ⟨cause, va, if cause = .absent then BitVec.ofNat 64 Kind.fetch.code else 0⟩ }
  | _ =>
    let w := c.wait.getD { kind := .event, since := 0 }
    s.pendUpcall g ⟨cause, w.va, w.info⟩ w.len

end Sys2Proof.Machine
end

