-- ==== Sys2Proof/Machine/Waits.lean ====
section
/-! DEFINITION. When a wait is over (R164, R184): the conditions that the wait instructions test, each stated once. -/

namespace Sys2Proof.Machine

/-- Whether a taking of a slot can succeed (R328): some slot is there, and no earlier waiter of the mode waits. -/
def ringReady (k : Core) (g r : Nat) (m : Bool) : Bool :=
  match k.rings.find? r with
  | none => true
  | some x =>
    decide (0 < if m then x.free else x.filled) &&
      (match k.ringWaits.find? fun (n, b, _) => n == r && b == m with
        | some (_, _, h) => h == .strand g
        | none => true)

/-- The commands of a strand in a queue are finished (R331), on whatever core it queued them. -/
def State.queueDone (s : State) (g q : Nat) : Bool :=
  s.cores.all fun (_, k) => ((k.queues[q]?).getD []).all fun x => x.strand != g || x.last.isSome

/-- The commands of a strand in a set of queues are finished (R331). -/
def State.queuesDone (s : State) (g : Nat) (set : BitVec 4) : Bool :=
  (List.range 4).all fun q => !set.getLsbD q || s.queueDone g q

/-- Whether two runs of slots overlap (R212). -/
def runsOverlap (a n b m : Nat) : Bool := decide (a < b + m) && decide (b < a + n)

/-- A claim can be granted (R212): no slot of the run is held or awaits release, and no earlier claim that overlaps it waits. -/
def claimReady (k : Core) (g slot n : Nat) : Bool :=
  (k.omHold.all fun (x, _) => !(decide (slot ≤ x) && decide (x < slot + n)))
    && (k.omRelease.all fun (x, _) => !(decide (slot ≤ x) && decide (x < slot + n)))
    && ((k.claims.takeWhile fun c => c.strand != g).all fun c => !runsOverlap slot n c.slot c.n)

/-- VALID of a window (R420). -/
def FabWin.valid (w : FabWin) : Bool := w.w0.getLsbD 63
/-- KIND of a window (R420). -/
def FabWin.kind (w : FabWin) : Nat := w.w0.toNat / 2 ^ 61 % 4

/-- A `WWAIT` can end (R424): the counter has reached the target, or the window is not valid. -/
def windowDone (p : Pkg) (w n : Nat) : Bool :=
  let x := (p.wins.find? w).getD {}
  !x.valid || decide (n ≤ x.cnt.toNat)

/-- Whether what a strand waits for has come about, so that it may try its instruction again (R164). -/
def waitOver (s : State) (g : Nat) (c : Strand) : WaitKind → Bool
  | .fill r => match c.fillState r with | .empty | .pending => false | _ => true
  | .pend r => c.fillState r != .pending
  | .drain d => !s.undrained g d
  | .limit k => decide (s.inFlight g k < flightLimit k)
  | .tag _ _ => c.grant.isSome || (s.core c.core).tagWaits.all fun t => t.who != .strand g
  | .ring r m => ringReady (s.core c.core) g r m
  | .queues set => s.queuesDone g set
  | .claim slot n => claimReady (s.core c.core) g slot n
  | .window w n => windowDone s.pkg w n
  | .closes => c.closes == 0
  | .reply _ | .barrier | .array | .miss _ | .block _ | .retry _ | .event => false

/-! ### Ends of waits -/

/-- A strand's instruction completes with the reply to its request or message `m` (R19): it retires, and the strand goes on. -/
def State.completeWait (s : State) (g m : Nat) (v : Word) : State :=
  match s.strands.find? g with
  | none => s
  | some c =>
    match c.wait with
    | some w => if w.kind = .reply m then (s.setStrand g (c.complete w.retire v)).resume g else s
    | none => s

/-- A strand's instruction that waits for the answer `m` faults instead (R255). -/
def State.failWait (s : State) (g m : Nat) (f : FaultRec) : State :=
  match s.strands.find? g with
  | none => s
  | some c =>
    match c.wait with
    | some w => if w.kind = .reply m then s.pendUpcall g f w.retire.len else s
    | none => s

/-- A bounded wait of strand `g` that began in cycle `since` has reached its limit (R184): unless what it waits for has come
about, it is given up as `undo` says, and the instruction takes the fault. -/
def State.expire (s : State) (g since : Nat) (fault : WaitKind → Option FaultRec) (undo : Strand → State → State) : State :=
  match s.strands.find? g with
  | none => s
  | some c =>
    match (c.wait.toList ++ c.kept.toList).find? fun w => w.since = since && w.until_.isSome with
    | none => s
    | some w =>
      if waitOver s g c w.kind then s
      else match fault w.kind with
        | some f => (undo c s).pendUpcall g f w.len
        | none => s

end Sys2Proof.Machine
end

