-- ==== Sys2Proof/Machine/Engine.lean ====
section
/-! DEFINITION. Engine queues (R313-R317): acceptance, starts under the range-overlap scoreboard (R206) and `QFENCE` (R330),
completion and failure; accesses of an engine to main memory (R315); rings and the governor (R325-R329, R181). An engine's own
events are rows `ENGINE_COMMAND_START`, `ENGINE_UNIT` and `ENGINE_COMMAND_COMPLETE`, with `arg.id` the core, `arg.idx` the queue and
`arg.sub` the command. -/

namespace Sys2Proof.Machine

/-! ### Queues -/

/-- A queue of a core. -/
def Core.queue (k : Core) (q : Nat) : List Cmd := (k.queues[q]?).getD []
/-- Replaces a queue. -/
def Core.setQueue (k : Core) (q : Nat) (l : List Cmd) : Core := { k with queues := k.queues.setIfInBounds q l }
/-- All commands of a core. -/
def Core.cmds (k : Core) : List Cmd := k.queues.toList.flatten
/-- The command that a queue is performing. -/
def State.head (s : State) (core q : Nat) : Option Cmd := ((s.core core).queue q).head?.filter (·.started)
/-- Changes the head of a queue. -/
def State.setHead (s : State) (core q : Nat) (x : Cmd) : State :=
  s.modCore core fun k => k.setQueue q (x :: (k.queue q).drop 1)
/-- Whether a command is unfinished. -/
def State.pending (s : State) (id : Nat) : Bool := s.cores.any fun (_, k) => k.cmds.any fun x => x.id == id

/-! ### The scoreboard between commands (R206) -/

/-- Whether a later command's ranges overlap an earlier one's so that it waits. -/
def Cmd.blocks (x y : Cmd) : Bool :=
  let sp (a b : List (Nat × Nat)) : Bool := a.any fun r => b.any fun t => decide (r.1 < t.2) && decide (t.1 < r.2)
  let om (a b : List Nat) : Bool := a.any b.contains
  sp x.wrSp (y.rdSp ++ y.wrSp) || sp x.rdSp y.wrSp || om x.wrOm (y.rdOm ++ y.wrOm) || om x.rdOm y.wrOm

/-- Slots that an array operation writes, and slots that it reads. -/
def ArrayOp.writes (a : ArrayOp) : List Nat := if a.rot then [a.c, a.ra, a.rb] else [a.c]
/-- Slots that an array operation reads. -/
def ArrayOp.reads (a : ArrayOp) : List Nat := if a.new_ then [a.a, a.b] else [a.a, a.b, a.c]

/-- Whether an array operation in progress holds a command. -/
def ArrayOp.blocks (a : ArrayOp) (y : Cmd) : Bool :=
  a.writes.any (fun n => (y.rdOm ++ y.wrOm).contains n) || a.reads.any y.wrOm.contains

/-- Whether a row load under way, accepted earlier, holds a command (R262). -/
def RowLoad.blocks (l : RowLoad) (y : Cmd) : Bool :=
  (y.rdSp ++ y.wrSp).any fun t => decide (l.row < t.2) && decide (t.1 < l.row + 512)

/-- Whether the head of a queue may start (R206, R314, R330, R393). -/
def State.startable (s : State) (core : Nat) (x : Cmd) : Bool :=
  let k := s.core core
  !x.started && !s.stopping x.gang && x.after.all (fun id => !s.pending id)
    && k.cmds.all (fun y => decide (x.id ≤ y.id) || !y.blocks x)
    && k.rowLoads.all (fun (n, l) => decide (x.id ≤ n) || !l.blocks x)
    && (match k.array with | some a => !a.blocks x | none => true)

/-- Heads of a core's queues that may start do so in the next cycle. -/
def State.pokeQueues (s : State) (core : Nat) : State :=
  (List.range 4).foldl (init := s) fun s q =>
    match ((s.core core).queue q).head? with
    | some x =>
      if s.startable core x then s.atOnce (s.now + 1) rankWork .engineCommandStart { id := core, idx := q, sub := x.id } else s
    | none => s

/-! ### Acceptance (R205, R314) -/

/-- The commands that a strand's `QFENCE`s put before one that it accepts into a queue (R330). -/
def Strand.before (c : Strand) (q : Nat) : NatSet :=
  (c.qfences.filter fun f => f.1.getLsbD q).foldl (fun l f => f.2.foldl NatSet.add l) []

/-- A command of the current strand for a queue. -/
def State.newCmd (s : State) (q : Nat) (op : CmdOp) : Cmd :=
  let c := s.cur
  { id := s.nextId, strand := s.curId, gang := c.ident.gang, pc := c.pc, op := op, after := c.before q }

/-- A command enters the tail of its queue, and its instruction retires; a full queue forfeits the turn (R205). -/
def enqueue (s : State) (q : Nat) (x : Cmd) (core : Core → Core) (c : Strand) : Except Stop State :=
  let n := s.cur.core
  let k := s.core n
  if 16 ≤ (k.queue q).length then .error .forfeit
  else .ok (({ s.setCur c with nextId := s.nextId + 1 }.setCore n ((core k).setQueue q (k.queue q ++ [x]))).pokeQueues n)

/-! ### Completion and failure (R314, R317) -/

/-- A command leaves its queue: slots whose release waited for it may be free (R213), commands and completion that wait for it go on
(R178). -/
def State.finishCmd (s : State) (core q : Nat) (x : Cmd) : State :=
  let s1 := s.modCore core fun k =>
    { k.setQueue q ((k.queue q).filter fun y => y.id != x.id) with
      omRelease := (k.omRelease.mapV fun (l : NatSet) => l.del x.id).filter fun e => !e.2.isEmpty }
  let behind := s1.cores.filter fun (c, k) => c != core && k.cmds.any fun y => y.after.contains x.id
  (behind.foldl (fun s (c, _) => s.pokeQueues c) (s1.pokeQueues core)).pokeGang x.gang

/-- A command that failed leaves its queue; its failure waits for a `QWAIT`, or goes to containment when the strand has exited
(R317, R387). -/
def State.failWith (s : State) (core q : Nat) (x : Cmd) (f : FaultRec) : State :=
  let s1 := s.finishCmd core q x
  if x.last.isNone && (s.strands.find? x.strand).isSome then
    s1.modCore core fun k => { k with cmdFails := k.cmdFails.set x.id { strand := x.strand, queue := q, pc := x.pc, fault := f } }
  else s1.toContain x.strand x.gang (x.last.getD core) f.cause x.pc false

/-- The failure of a command at a unit of its range (R317): `missing` is what bits 63:48 of `ctl.tinfo` receive. -/
def State.failCmd (s : State) (core q : Nat) (x : Cmd) (cause : Cause) (addr : Word) (missing : Nat) : State :=
  s.failWith core q x ⟨cause, addr, BitVec.ofNat 64 (min missing 65535 * 2 ^ 48 + x.pc.toNat % 2 ^ 48)⟩

/-- The next step of a command is due. -/
def State.engNext (s : State) (core q id t : Nat) : State := s.at_ t rankWork .engineUnit { id := core, idx := q, sub := id }

/-- Something that a command waits for beside its units has come: an acknowledgement or a unit of a get. -/
def State.engPoke (s : State) (core q id t : Nat) : State := s.at_ t rankWork .engineUnit { id := core, idx := q, sub := id, n := 9 }

/-! ### The banks of the scratchpad (R24, R180) -/

/-- What an engine's use of its banks comes to: it goes on, or is tried again at a time and a rank. -/
abbrev BankUse := Except (State × Nat × Nat) State

/-- An engine's write of a range of a core, for a command of a gang (R24, R180): a bank that has served another row is used in the next
cycle. On a core that holds a STEP gang, the write of another gang's command leaves the bank to the strand whose turn it is, except in
cycles with c mod 4 = 3: it comes behind the turn, and if the strand has read the bank, in the next cycle. (DEDUCED, log 46) -/
def State.engineWrite (s : State) (core addr n gang : Nat) : BankUse :=
  let k := s.core core
  if k.bankTaken addr n then .error (s, s.now + 1, rankWork)
  else if (s.stepGang core).any fun g => g != gang && s.dieNow core % 4 != 3 then
    if s.issueQ.contains core then
      .error (s.modCore core fun k => { k with engWish := k.engWish ++ spBanks addr n }, s.now, rankAfter)
    else if (spBanks addr n).any k.strandRd.contains then .error (s, s.now + 1, rankWork)
    else .ok (s.takeBanks core addr n false)
  else .ok (s.takeBanks core addr n true)

/-- An engine's read of a range of a core (R24): a bank that has served another row's read of an engine is used in the next cycle. No
strand reads the bank in the cycle, except on a core that holds a STEP gang (R180). (DEDUCED, log 46) -/
def State.engineRead (s : State) (core addr n : Nat) : BankUse :=
  if rowTaken (s.core core).engRd addr n then .error (s, s.now + 1, rankWork)
  else
    let step := (s.stepGang core).isSome
    .ok (s.modCore core fun k => { k with
      engRd := k.engRd ++ spRows addr n, bankWr := if step then k.bankWr else k.bankWr ++ spBanks addr n })

/-- A command goes on when its banks let it, or is tried again. -/
def BankUse.gate (u : BankUse) (core q : Nat) (x : Cmd) (go : State → State) : State :=
  match u with
  | .ok s => go s
  | .error (s, t, rank) => s.at_ t rank .engineUnit { id := core, idx := q, sub := x.id }

/-! ### Main memory (R315) -/

/-- How an engine's translation comes out. -/
inductive EngXlat where
  /-- The request can be sent. -/
  | send (r : Req)
  /-- The queue is held by a miss. -/
  | held (s : State)
  | fault (c : Cause)
  deriving DecidableEq, Repr

/-- Translates an engine's access to a line in the name of its core. -/
def engXlat (s : State) (core q : Nat) (x : Cmd) (va : Word) (write : Bool) (acc : Access) : EngXlat :=
  match translate s core va (if write then .w else .r) (if write then .write else .read) with
  | .fault f => .fault f.cause
  | .miss vpn =>
    let joined := ((s.core core).misses.find? vpn).any fun m => m.joined.contains (.engine core q)
    .held (if joined then s else s.joinMiss core vpn (.engine core q))
  | .hit pa leaf =>
    .send { acc := acc, strand := none, gang := x.gang, core := core, home := homeOf pa, pa := pa, va := va, pc := x.pc
            kept := leaf.getLsbD 6, via := (tlbFind (s.core core) (vpnOf va)).map fun e => (core, e) }

/-! ### Rings (R325-R329) and the governor (R181) -/

/-- A stage node's record, from one of its placed instances. -/
def State.stageRec (s : State) (die node : Nat) : Option LaunchRec :=
  ((s.gangs.filter fun (_, g) => g.die == die && g.node == node && g.rec_.pipe != 0).head?).map (·.2.rec_)

/-- Instances of a stage node, counting moves that are under way as made. -/
def State.stageCount (s : State) (die node : Nat) : Nat :=
  (s.gangs.filter fun (_, g) => g.die == die && (if g.moving.isNone then g.node == node else g.moving == some node)).length

/-- Instance limits of a stage node (R170). -/
def LaunchRec.minInst (r : LaunchRec) : Nat := r.fld 0x78 8 4
/-- MAXINST. -/
def LaunchRec.maxInst (r : LaunchRec) : Nat := r.fld 0x78 12 4
/-- ROLE. -/
def LaunchRec.role (r : LaunchRec) : Nat := r.fld 0x10 36 2

/-- Starts a governor move from one stage to another (R181): the instance placed last gives up its rectangle. A move that another
ring of the pipeline called for in the same cycle gives way to one whose consumer has the greater ROLE.
(DEDUCED, log 48) -/
def State.moveInst (s : State) (die fromN toN consumer : Nat) : State :=
  match s.stageRec die fromN, s.stageRec die toN, s.stageRec die consumer with
  | some a, some b, some c =>
    let old := (s.die die).moves.find? fun m => m.pipe == a.pipe
    let weaker := old.any fun m => m.at_ == s.now && decide (m.role < c.role)
    let s0 := match old with
      | some m =>
        if weaker then
          (s.modDie die fun d => { d with moves := d.moves.filter fun x => x != m }).modGang m.gang fun g => { g with moving := none }
        else s
      | none => s
    let giver := (s0.gangs.filter fun (_, g) => g.die == die && g.node == fromN && g.moving.isNone).getLast?
    match giver with
    | some (n, _) =>
      if (old.isNone || weaker) && a.pipe == b.pipe && a.gw == b.gw && a.gh == b.gh && a.step == b.step
          && decide (a.minInst < s0.stageCount die fromN) && decide (s0.stageCount die toN < b.maxInst) then
        (s0.modDie die fun d =>
          { d with moves := d.moves ++ [⟨n, fromN, toN, a.pipe, c.role, s.now⟩] }).modGang n fun g => { g with moving := some toN }
      else s
    | none => s
  | _, _, _ => s

/-- A ring has changed: its governor acts when FILLED has risen to HIGH or fallen to LOW (R181, R326). -/
def State.setRing (s : State) (core r : Nat) (old new : Ring) : State :=
  let s1 := s.modCore core fun k => { k with rings := k.rings.set r new }
  if new.gov && decide (old.filled < new.high) && decide (new.high ≤ new.filled) then s1.moveInst (dieOf core) new.prod new.cons new.cons
  else if new.gov && decide (new.low < old.filled) && decide (new.filled ≤ new.low) then
    s1.moveInst (dieOf core) new.cons new.prod new.cons
  else s1

/-- Takes a slot (R328): the ring after it, and the slot's address. -/
def Ring.take (x : Ring) (free : Bool) : Ring × Nat :=
  if free then ({ x with tail := (x.tail + 1) % x.count, free := x.free - 1 }, x.base + x.tail * x.size)
  else ({ x with head := (x.head + 1) % x.count, filled := x.filled - 1 }, x.base + x.head * x.size)

/-- Engine writes that wait for a free slot and are first in line take one each (R329). -/
def State.serveRing (s : State) (core r : Nat) : Nat → State
  | 0 => s
  | fuel + 1 =>
    let k := s.core core
    match k.rings.find? r, k.ringWaits.find? fun (n, b, _) => n == r && b with
    | some x, some (n, b, .engine c q) =>
      if 0 < x.free then
        let (y, a) := x.take true
        let s1 := (s.setCore core { k with ringWaits := k.ringWaits.erase (n, b, .engine c q) }).setRing core r x y
        (s1.at_ (s.now + latency core c) rankWork .engineUnit { id := c, idx := q, n := 4, v := BitVec.ofNat 64 a }).serveRing core r fuel
      else s
    | _, _ => s

/-- Serves the engine writes that wait on a ring. -/
def State.ringChanged (s : State) (core r : Nat) : State := s.serveRing core r (s.core core).ringWaits.length

/-- Posts slots (R329). -/
def State.postRing (s : State) (core r : Nat) (x : Ring) (filled : Bool) (n : Nat) : State :=
  (s.setRing core r x (if filled then { x with filled := x.filled + n } else { x with free := x.free + n })).ringChanged core r

end Sys2Proof.Machine
end

