-- ==== Sys2Proof/Machine/Fp.lean ====
section
/-! DEFINITION. Numbers: floating-point values as exact dyadic numbers, the one rounding of R61 into each format of R56, the
special values of R58, and the arithmetic made of them (R62, R66, R88-R92). -/

namespace Sys2Proof.Machine

/-- Floating-point formats (R56). -/
inductive FF where
  | f64 | f32 | bf16 | f16 | e5m2 | e4m3 | e2m1
  deriving DecidableEq, Repr

/-- Rounding modes as `ctl.fpm.RM` codes them (R60). -/
inductive RM where
  | rne | rtz | rdn | rup
  deriving DecidableEq, Repr

/-- Exponent bits (R56). -/
def FF.eb : FF → Nat
  | .f64 => 11 | .f32 => 8 | .bf16 => 8 | .f16 => 5 | .e5m2 => 5 | .e4m3 => 4 | .e2m1 => 2
/-- Fraction bits (R56). -/
def FF.fb : FF → Nat
  | .f64 => 52 | .f32 => 23 | .bf16 => 7 | .f16 => 10 | .e5m2 => 2 | .e4m3 => 3 | .e2m1 => 1
/-- Bias (R56). -/
def FF.bias : FF → Nat
  | .f64 => 1023 | .f32 => 127 | .bf16 => 127 | .f16 => 15 | .e5m2 => 15 | .e4m3 => 7 | .e2m1 => 1
/-- Whether the format's all-ones exponent encodes infinities and NaNs (R56). -/
def FF.hasInf : FF → Bool
  | .e4m3 | .e2m1 => false
  | _ => true
/-- F64, F32, BF16 and F16: the formats with an overflow of their own, signalling NaNs, and flushing in vector instructions (R58, R61, R66). -/
def FF.ieee : FF → Bool
  | .f64 | .f32 | .bf16 | .f16 => true
  | _ => false
/-- Exponent of the smallest normal (R56). -/
def FF.emin (f : FF) : Int := 1 - (f.bias : Int)
/-- Exponent of the largest finite (R56). -/
def FF.emax (f : FF) : Int :=
  if f.hasInf then (2 ^ f.eb - 2 : Int) - f.bias else (2 ^ f.eb - 1 : Int) - f.bias
/-- Significand of the largest finite, in units of its last place (R56). -/
def FF.maxSig (f : FF) : Nat := if f = .e4m3 then 14 else 2 ^ (f.fb + 1) - 1
/-- Width in bits. -/
def FF.width (f : FF) : Nat := 1 + f.eb + f.fb
/-- Default NaN (R56); E2M1 has none, and the conversions write +0 in its place (R66). -/
def FF.nan (f : FF) : Nat :=
  match f with
  | .e4m3 => 0x7F
  | .e2m1 => 0
  | _ => (2 ^ f.eb - 1) * 2 ^ f.fb + 2 ^ (f.fb - 1)

/-- What a pattern encodes: a NaN, an infinity, or a sign with the exact magnitude `m × 2^e` (R56). -/
inductive FVal where
  | nan (signalling : Bool)
  | inf (neg : Bool)
  | fin (neg : Bool) (m : Nat) (e : Int)
  deriving DecidableEq, Repr

/-- The value of a pattern (R56-R58). -/
def FF.val (f : FF) (bits : Nat) : FVal :=
  let neg := bits / 2 ^ (f.eb + f.fb) % 2 == 1
  let x := bits / 2 ^ f.fb % 2 ^ f.eb
  let t := bits % 2 ^ f.fb
  if f.hasInf && x == 2 ^ f.eb - 1 then
    if t == 0 then .inf neg else .nan (f.ieee && t / 2 ^ (f.fb - 1) == 0)
  else if f == .e4m3 && x == 15 && t == 7 then .nan false
  else if x == 0 then .fin neg t (f.emin - f.fb)
  else .fin neg (2 ^ f.fb + t) ((x : Int) - f.bias - f.fb)

/-- The value with a subnormal operand read as a zero of its sign when FZI is set (R60, R61). -/
def FF.valZ (f : FF) (fzi : Bool) (bits : Nat) : FVal :=
  match f.val bits with
  | .fin neg m e => if fzi && decide (m < 2 ^ f.fb) then .fin neg 0 e else .fin neg m e
  | v => v

/-- The same in a vector instruction, which never flushes E4M3, E5M2 and E2M1 (R61). -/
def FF.valV (f : FF) (fzi : Bool) (bits : Nat) : FVal := f.valZ (fzi && f.ieee) bits

/-- A result: its pattern, the flags it raises and the saturated elements it counts. -/
structure FR where
  bits : Nat
  fl : BitVec 6 := 0
  sat : Nat := 0
  deriving DecidableEq, Repr

/-- The multiple of `2^q` that `m × 2^e` rounds to, and whether that is inexact. -/
def roundTo (rm : RM) (neg : Bool) (m : Nat) (e q : Int) : Nat × Bool :=
  if q ≤ e then (m * 2 ^ (e - q).toNat, false)
  else
    let s := (q - e).toNat
    let n := m / 2 ^ s
    let r := m % 2 ^ s
    if r = 0 then (n, false)
    else
      let up := match rm with
        | .rne => decide (2 ^ s < 2 * r) || (2 ^ s == 2 * r && n % 2 == 1)
        | .rtz => false
        | .rdn => neg
        | .rup => !neg
      (if up then n + 1 else n, true)

/-- The pattern of a sign, a biased exponent and a fraction. -/
def FF.pack (f : FF) (neg : Bool) (x t : Nat) : Nat := (if neg then 2 ^ (f.eb + f.fb) else 0) + x * 2 ^ f.fb + t
/-- The pattern of a zero. -/
def FF.zero (f : FF) (neg : Bool) : Nat := f.pack neg 0 0
/-- The pattern of an infinity, in a format that has them. -/
def FF.infBits (f : FF) (neg : Bool) : Nat := f.pack neg (2 ^ f.eb - 1) 0
/-- The pattern of the largest finite magnitude. -/
def FF.maxBits (f : FF) (neg : Bool) : Nat :=
  f.pack neg (f.emax + f.bias).toNat (f.maxSig - 2 ^ f.fb)

/-- An overflow (R66): by mode in the formats that have infinities of their own; saturation in the narrow ones. -/
def FF.overflow (f : FF) (rm : RM) (neg : Bool) : FR :=
  if f.ieee then
    let toInf := match rm with
      | .rne => true
      | .rtz => false
      | .rdn => neg
      | .rup => !neg
    ⟨if toInf then f.infBits neg else f.maxBits neg, fOF ||| fNX, 0⟩
  else ⟨f.maxBits neg, fST ||| fNX, 1⟩

/-- Rounds `m × 2^e` once and fits it to the format (R61, R66): tininess is detected after rounding with an unbounded exponent;
FZO replaces a subnormal result by a zero of its sign. -/
def FF.round (f : FF) (rm : RM) (fzo : Bool) (neg : Bool) (m : Nat) (e : Int) : FR :=
  if m = 0 then ⟨f.zero neg, 0, 0⟩
  else
    let top := e + m.log2
    let n0 := (roundTo rm neg m e (top - f.fb)).1
    let top' := if n0 = 2 ^ (f.fb + 1) then top + 1 else top
    let tiny := decide (top' < f.emin)
    let q := max (top - f.fb) (f.emin - f.fb)
    let (n1, inexact) := roundTo rm neg m e q
    let (n, q) := if n1 = 2 ^ (f.fb + 1) then (2 ^ f.fb, q + 1) else (n1, q)
    let lim := f.emax - f.fb
    if lim < q || (lim == q && decide (f.maxSig < n)) then f.overflow rm neg
    else if decide (n < 2 ^ f.fb) && n != 0 && fzo then ⟨f.zero neg, fUF ||| fNX, 0⟩
    else
      let x := if n < 2 ^ f.fb then 0 else (q + f.fb + f.bias).toNat
      ⟨f.pack neg x (n % 2 ^ f.fb), flagIf inexact fNX ||| flagIf (inexact && tiny) fUF, 0⟩

/-! ### Exact dyadic numbers -/

/-- The number `n × 2^e`. -/
structure Dy where
  n : Int
  e : Int
  deriving DecidableEq, Repr

/-- A signed magnitude as a dyadic. -/
def dyOf (neg : Bool) (m : Nat) (e : Int) : Dy := ⟨if neg then -(m : Int) else m, e⟩
/-- The significand of a dyadic at an exponent not above its own. -/
def Dy.at_ (a : Dy) (e : Int) : Int := a.n * 2 ^ (a.e - e).toNat
/-- Exact sum. -/
def Dy.add (a b : Dy) : Dy := let e := min a.e b.e; ⟨a.at_ e + b.at_ e, e⟩
/-- Exact product. -/
def Dy.mul (a b : Dy) : Dy := ⟨a.n * b.n, a.e + b.e⟩
/-- Negation. -/
def Dy.neg (a : Dy) : Dy := ⟨-a.n, a.e⟩
/-- Order. -/
def Dy.lt (a b : Dy) : Bool := let e := min a.e b.e; decide (a.at_ e < b.at_ e)
/-- Order or equality of value. -/
def Dy.le (a b : Dy) : Bool := !b.lt a
/-- Equality of value. -/
def Dy.eq (a b : Dy) : Bool := a.le b && b.le a

/-- Rounds an exact dyadic; a zero takes the sign given. -/
def FF.roundDy (f : FF) (rm : RM) (fzo zeroNeg : Bool) (a : Dy) : FR :=
  if a.n = 0 then ⟨f.zero zeroNeg, 0, 0⟩ else f.round rm fzo (decide (a.n < 0)) a.n.natAbs a.e

/-! ### Arithmetic (R58, R62, R88) -/

/-- Rounding controls: mode, FZI, FZO (R60). -/
structure Rnd where
  rm : RM
  fzi : Bool := false
  fzo : Bool := false
  deriving DecidableEq, Repr

/-- The default NaN with NV where it is due. -/
def FF.nanR (f : FF) (nv : Bool) : FR := ⟨f.nan, flagIf nv fNV, 0⟩

/-- Whether a value is a signalling NaN. -/
def FVal.snan : FVal → Bool
  | .nan s => s
  | _ => false
/-- Whether a value is a NaN. -/
def FVal.isNan : FVal → Bool
  | .nan _ => true
  | _ => false
/-- Negation of a value. -/
def FVal.negate : FVal → FVal
  | .inf n => .inf (!n)
  | .fin n m e => .fin (!n) m e
  | v => v

/-- The sign of an exact zero sum (R62): that of two zeros of one sign, else −0 only toward −∞. -/
def zeroSign (rm : RM) (na nb : Bool) : Bool := if na == nb then na else rm == .rdn

/-- Sum, rounded once (R62, R88). -/
def FF.addV (f : FF) (r : Rnd) (a b : FVal) : FR :=
  match a, b with
  | .nan _, _ | _, .nan _ => f.nanR (a.snan || b.snan)
  | .inf x, .inf y => if x == y then ⟨f.infBits x, 0, 0⟩ else f.nanR true
  | .inf x, _ | _, .inf x => ⟨f.infBits x, 0, 0⟩
  | .fin na ma ea, .fin nb mb eb =>
    let z := if ma = 0 && mb = 0 then zeroSign r.rm na nb else r.rm == .rdn
    f.roundDy r.rm r.fzo z ((dyOf na ma ea).add (dyOf nb mb eb))

/-- Product, rounded once (R88). -/
def FF.mulV (f : FF) (r : Rnd) (a b : FVal) : FR :=
  match a, b with
  | .nan _, _ | _, .nan _ => f.nanR (a.snan || b.snan)
  | .inf x, .inf y => ⟨f.infBits (x != y), 0, 0⟩
  | .inf x, .fin y m _ | .fin y m _, .inf x => if m = 0 then f.nanR true else ⟨f.infBits (x != y), 0, 0⟩
  | .fin na ma ea, .fin nb mb eb => f.round r.rm r.fzo (na != nb) (ma * mb) (ea + eb)

/-- `a × b + c`, rounded once; ∞ × 0 sets NV even beside a quiet NaN (R88). -/
def FF.fmaV (f : FF) (r : Rnd) (a b c : FVal) : FR :=
  let invalid := match a, b with
    | .inf _, .fin _ m _ | .fin _ m _, .inf _ => m == 0
    | _, _ => false
  if a.isNan || b.isNan || c.isNan || invalid then f.nanR (a.snan || b.snan || c.snan || invalid)
  else
    match a, b, c with
    | .fin na ma ea, .fin nb mb eb, .fin nc mc ec =>
      let np := na != nb
      let z := if ma * mb = 0 && mc = 0 then zeroSign r.rm np nc else r.rm == .rdn
      f.roundDy r.rm r.fzo z ((dyOf np (ma * mb) (ea + eb)).add (dyOf nc mc ec))
    | .fin _ _ _, .fin _ _ _, .inf x => ⟨f.infBits x, 0, 0⟩
    | _, _, _ =>
      let neg (v : FVal) : Bool := match v with | .inf n | .fin n _ _ => n | .nan _ => false
      let np := neg a != neg b
      match c with
      | .inf x => if x == np then ⟨f.infBits x, 0, 0⟩ else f.nanR true
      | _ => ⟨f.infBits np, 0, 0⟩

/-- A quotient of magnitudes with enough bits for one rounding into any format: the last bit stands for all below it. -/
def divBits (ma mb : Nat) (ea eb : Int) : Nat × Int :=
  let k := 60 + mb.log2
  let q := ma * 2 ^ k / mb
  let r := ma * 2 ^ k % mb
  (2 * q + (if r = 0 then 0 else 1), ea - eb - k - 1)

/-- Quotient, rounded once (R88). -/
def FF.divV (f : FF) (r : Rnd) (a b : FVal) : FR :=
  match a, b with
  | .nan _, _ | _, .nan _ => f.nanR (a.snan || b.snan)
  | .inf _, .inf _ => f.nanR true
  | .inf x, .fin y _ _ => ⟨f.infBits (x != y), 0, 0⟩
  | .fin x _ _, .inf y => ⟨f.zero (x != y), 0, 0⟩
  | .fin na ma ea, .fin nb mb eb =>
    if mb = 0 then (if ma = 0 then f.nanR true else ⟨f.infBits (na != nb), fDZ, 0⟩)
    else if ma = 0 then ⟨f.zero (na != nb), 0, 0⟩
    else
      let (m, e) := divBits ma mb ea eb
      f.round r.rm r.fzo (na != nb) m e

/-- The integer square root, bit by bit from `2^i` down. -/
def isqrtFrom (n : Nat) : Nat → Nat → Nat
  | 0, r => if (r + 1) * (r + 1) ≤ n then r + 1 else r
  | i + 1, r => isqrtFrom n i (if (r + 2 ^ (i + 1)) * (r + 2 ^ (i + 1)) ≤ n then r + 2 ^ (i + 1) else r)

/-- The integer square root. -/
def isqrt (n : Nat) : Nat := isqrtFrom n (n.log2 / 2 + 1) 0

/-- A square root of `m × 2^e` with enough bits for one rounding: the last bit stands for all below it. -/
def sqrtBits (m : Nat) (e : Int) : Nat × Int :=
  let s : Nat := 128 + (e % 2).toNat
  let x := m * 2 ^ s
  let r := isqrt x
  (2 * r + (if r * r = x then 0 else 1), (e - s) / 2 - 1)

/-- Square root, rounded once (R88). -/
def FF.sqrtV (f : FF) (r : Rnd) (a : FVal) : FR :=
  match a with
  | .nan s => f.nanR s
  | .inf neg => if neg then f.nanR true else ⟨f.infBits false, 0, 0⟩
  | .fin neg m e =>
    if m = 0 then ⟨f.zero neg, 0, 0⟩
    else if neg then f.nanR true
    else
      let (n, q) := sqrtBits m e
      f.round r.rm r.fzo false n q

/-! ### Minimum, maximum, comparison, class (R89-R91, R94) -/

/-- A value's order as a key: −0 below +0, infinities outermost. Both are no NaN. -/
def fLess (a b : FVal) : Bool :=
  match a, b with
  | .inf x, .inf y => x && !y
  | .inf x, _ => x
  | _, .inf y => !y
  | .fin na ma ea, .fin nb mb eb =>
    if ma = 0 && mb = 0 then na && !nb else (dyOf na ma ea).lt (dyOf nb mb eb)
  | _, _ => false

/-- The pattern that `FMIN` and `FMAX` return for an operand: a subnormal under FZI is a zero of its sign (R89). -/
def FF.keep (f : FF) (fzi : Bool) (bits : Nat) : Nat :=
  match f.valZ fzi bits with
  | .fin neg m _ => if m = 0 then f.zero neg else bits % 2 ^ f.width
  | _ => bits % 2 ^ f.width

/-- Minimum or maximum (R89). -/
def FF.minMax (f : FF) (fzi max_ : Bool) (x y : Nat) : FR :=
  let a := f.valZ fzi x
  let b := f.valZ fzi y
  let fl := flagIf (a.snan || b.snan) fNV
  if a.isNan && b.isNan then ⟨f.nan, fl, 0⟩
  else if a.isNan then ⟨f.keep fzi y, fl, 0⟩
  else if b.isNan then ⟨f.keep fzi x, fl, 0⟩
  else if max_ then ⟨if fLess a b then f.keep fzi y else f.keep fzi x, fl, 0⟩
  else ⟨if fLess b a then f.keep fzi y else f.keep fzi x, fl, 0⟩

/-- Values in order as IEEE 754 compares them: −0 = +0. Both are no NaN. -/
def fCmpLt (a b : FVal) : Bool :=
  match a, b with
  | .fin na ma ea, .fin nb mb eb => (dyOf na ma ea).lt (dyOf nb mb eb)
  | _, _ => fLess a b
/-- Equality of values that are no NaN. -/
def fCmpEq (a b : FVal) : Bool := !fCmpLt a b && !fCmpLt b a

/-- Class bit of a pattern (R94). -/
def FF.classBit (f : FF) (bits : Nat) : Nat :=
  match f.val bits with
  | .nan s => if s then 8 else 9
  | .inf neg => if neg then 0 else 7
  | .fin neg m _ =>
    if m = 0 then (if neg then 3 else 4)
    else if m < 2 ^ f.fb then (if neg then 2 else 5)
    else (if neg then 1 else 6)

/-! ### Conversions (R66) -/

/-- A value converted to a floating-point format (R66). -/
def FF.ofVal (f : FF) (r : Rnd) (a : FVal) : FR :=
  match a with
  | .nan s => if f = .e2m1 then ⟨0, fNV, 0⟩ else f.nanR s
  | .inf neg => if f.hasInf then ⟨f.infBits neg, 0, 0⟩ else ⟨f.maxBits neg, fST, 1⟩
  | .fin neg m e => f.round r.rm r.fzo neg m e

/-- The same in a vector instruction and in `MSTORE`, which never flush E4M3, E5M2 and E2M1 (R61). -/
def FF.ofValV (f : FF) (r : Rnd) (a : FVal) : FR := f.ofVal { r with fzo := r.fzo && f.ieee } a

/-- An integer clamped to a range (R55): the value, and whether it was saturated. (DEDUCED, log 29) -/
def clampInt (lo hi v : Int) : Int × Bool := if v < lo then (lo, true) else if hi < v then (hi, true) else (v, false)

/-- Range of an integer format of `w` bits (R55). -/
def intRange (w : Nat) (signed : Bool) : Int × Int :=
  if signed then (-(2 ^ (w - 1) : Int), 2 ^ (w - 1) - 1) else (0, 2 ^ w - 1)

/-- The pattern of an integer in `w` bits. -/
def intBits (w : Nat) (v : Int) : Nat := (v % (2 ^ w : Int)).toNat

/-- The integer that a finite value rounds to, and whether it had a fraction (R66). -/
def roundInt (rm : RM) (neg : Bool) (m : Nat) (e : Int) : Int × Bool :=
  let (n, inexact) := roundTo rm neg m e 0
  (if neg then -(n : Int) else n, inexact)

/-- A value converted to an integer format (R66): clamped and counted outside the range; NX when it had a fraction. -/
def toInt (w : Nat) (signed : Bool) (rm : RM) (a : FVal) : FR :=
  let (lo, hi) := intRange w signed
  match a with
  | .nan _ => ⟨0, fNV, 0⟩
  | .inf neg => ⟨intBits w (if neg then lo else hi), fST, 1⟩
  | .fin neg m e =>
    let (v, frac) := roundInt rm neg m e
    let (x, sat) := clampInt lo hi v
    ⟨intBits w x, flagIf frac fNX ||| flagIf sat fST, if sat then 1 else 0⟩

/-- An integer converted to an integer format (R66). -/
def satInt (w : Nat) (signed : Bool) (v : Int) : FR :=
  let (lo, hi) := intRange w signed
  let (x, sat) := clampInt lo hi v
  ⟨intBits w x, flagIf sat fST, if sat then 1 else 0⟩

/-- An exact integer as a value. -/
def valOfInt (v : Int) : FVal := .fin (decide (v < 0)) v.natAbs 0

end Sys2Proof.Machine
end

