-- ==== Sys2Proof/Machine/Float.lean ====
section
/-! DEFINITION. The scalar float instructions and conversions (R87-R94). -/

namespace Sys2Proof.Machine

/-- `ctl.fpm.RM` (R60). -/
def fpmRm (m : BitVec 4) : RM :=
  match m.toNat % 4 with
  | 0 => .rne
  | 1 => .rtz
  | 2 => .rdn
  | _ => .rup

/-- The rounding controls of `ctl.fpm` (R60). -/
def fpmRnd (m : BitVec 4) : Rnd := { rm := fpmRm m, fzi := m.getLsbD 2, fzo := m.getLsbD 3 }

/-- The rounding controls of a scalar float instruction (R49, R61): FZI and FZO apply whichever mode is in force. -/
def Strand.rnd (c : Strand) (r : FRound) : Rnd :=
  let x := fpmRnd c.ctl.fpm
  match r with
  | .fpm => x
  | .rne => { x with rm := .rne }
  | .rdn => { x with rm := .rdn }
  | .rup => { x with rm := .rup }

/-- The format of a precision field (R87). -/
def precFF : Prec → FF
  | .f32 => .f32
  | .f64 => .f64

/-- The strand retires with flags and saturated elements, which enter its gang's flags as well (R64-R66). -/
def State.retireFp (s : State) (c : Strand) (fl : BitVec 6) (sat : Nat) : State :=
  (s.setCur (c.noteFp fl sat)).noteGang c.ident.gang fl false

/-- A two-source float instruction (R88, R89): `f` gets the rounding controls and both values' patterns. -/
def float2 (o : OpRRR) (r : FRound) (f : Rnd → Nat → Nat → FR) : State → Out :=
  run 4 fun s => do
    let c := s.cur
    let x ← readS c o.a
    let y ← readS c o.b
    needFree c (.s o.d)
    let v := f (c.rnd r) x.toNat y.toNat
    .ok (s.retireFp ((((c.markS o.a o.la).markS o.b o.lb).writeS o.d (BitVec.ofNat 64 v.bits)).advance 4) v.fl v.sat)

/-- The sources of a two-source float instruction. -/
def rrrOf (o : OpF2) : OpRRR := ⟨o.d, o.a, o.b, o.la, o.lb⟩

/-- A float operand as it is read: its low bits (R54), and a subnormal as a zero under FZI (R61). -/
def precRead (p : Prec) (r : Rnd) (x : Nat) : FVal := (precFF p).valZ r.fzi (x % 2 ^ (precFF p).width)

/-- `FADD` (R88). -/
def execFadd (o : OpF2) (s : State) : Out :=
  float2 (rrrOf o) o.r (fun r x y => (precFF o.prec).addV r (precRead o.prec r x) (precRead o.prec r y)) s
/-- `FSUB` (R88). -/
def execFsub (o : OpF2) (s : State) : Out :=
  float2 (rrrOf o) o.r (fun r x y => (precFF o.prec).addV r (precRead o.prec r x) (precRead o.prec r y).negate) s
/-- `FMUL` (R88). -/
def execFmul (o : OpF2) (s : State) : Out :=
  float2 (rrrOf o) o.r (fun r x y => (precFF o.prec).mulV r (precRead o.prec r x) (precRead o.prec r y)) s
/-- `FDIV` (R88). -/
def execFdiv (o : OpF2) (s : State) : Out :=
  float2 (rrrOf o) o.r (fun r x y => (precFF o.prec).divV r (precRead o.prec r x) (precRead o.prec r y)) s

/-- `FFMA` (R88): `d` is a third source, without a mark. -/
def execFfma (o : OpF2) (s : State) : Out :=
  run 4 (fun s => do
    let c := s.cur
    let x ← readS c o.a
    let y ← readS c o.b
    let z ← readS c o.d
    let r := c.rnd o.r
    let v := (precFF o.prec).fmaV r (precRead o.prec r x.toNat) (precRead o.prec r y.toNat) (precRead o.prec r z.toNat)
    .ok (s.retireFp ((((c.markS o.a o.la).markS o.b o.lb).writeS o.d (BitVec.ofNat 64 v.bits)).advance 4) v.fl v.sat)) s

/-- A one-source float instruction that writes an `s` register. -/
def float1 (o : OpRR) (r : FRound) (f : Rnd → Word → FR) : State → Out :=
  run 4 fun s => do
    let c := s.cur
    let x ← readS c o.a
    needFree c (.s o.d)
    let v := f (c.rnd r) x
    .ok (s.retireFp (((c.markS o.a o.la).writeS o.d (BitVec.ofNat 64 v.bits)).advance 4) v.fl v.sat)

/-- `FSQRT` (R88). -/
def execFsqrt (o : OpRR) (prec : Prec) (r : FRound) (s : State) : Out :=
  float1 o r (fun r x => (precFF prec).sqrtV r (precRead prec r x.toNat)) s

/-- `FMIN` (R89). -/
def execFmin (o : OpRRR) (prec : Prec) (s : State) : Out :=
  float2 o .fpm (fun r x y => (precFF prec).minMax r.fzi false (x % 2 ^ (precFF prec).width) (y % 2 ^ (precFF prec).width)) s
/-- `FMAX` (R89). -/
def execFmax (o : OpRRR) (prec : Prec) (s : State) : Out :=
  float2 o .fpm (fun r x y => (precFF prec).minMax r.fzi true (x % 2 ^ (precFF prec).width) (y % 2 ^ (precFF prec).width)) s

/-- The pattern of `FSGN` (R90): the magnitude of `x` with a sign made of both signs. -/
def FF.sgn (f : FF) (m : SgnMode) (x y : Nat) : Nat :=
  let top := f.width - 1
  let sx := x / 2 ^ top % 2 == 1
  let sy := y / 2 ^ top % 2 == 1
  let neg := match m with
    | .cp => sy
    | .neg => !sy
    | .xor => sx != sy
  x % 2 ^ top + (if neg then 2 ^ top else 0)

/-- `FSGN` (R90): copies bits and sets no flag. -/
def execFsgn (o : OpRRR) (prec : Prec) (m : SgnMode) (s : State) : Out :=
  float2 o .fpm (fun _ x y => ⟨(precFF prec).sgn m x y, 0, 0⟩) s

/-- A comparison of `FCMP` with the flags it raises (R91). -/
def fcmpVal (k : FCond) (a b : FVal) : Tri × BitVec 6 :=
  let nan := a.isNan || b.isNan
  let sig := flagIf (a.snan || b.snan) fNV
  let tf (x : Bool) : Tri := if x then .t else .f
  match k with
  | .eq => if nan then (.u, sig) else (tf (fCmpEq a b), 0)
  | .lt => if nan then (.u, fNV) else (tf (fCmpLt a b), 0)
  | .le => if nan then (.u, fNV) else (tf (!fCmpLt b a), 0)
  | .un => (tf nan, sig)

/-- `FCMP` (R91). -/
def execFcmp (k : FCond) (prec : Prec) (qd : QReg) (a b : SReg) (la lb : Bool) (s : State) : Out :=
  run 4 (fun s => do
    let c := s.cur
    let x ← readS c a
    let y ← readS c b
    let r := c.rnd .fpm
    let v := fcmpVal k (precRead prec r x.toNat) (precRead prec r y.toNat)
    .ok (s.retireFp ((((c.markS a la).markS b lb).writeQ qd v.1).advance 4) v.2 0)) s

/-- A float read by a conversion. -/
def FF.read (f : FF) (r : Rnd) (x : Word) : FVal := f.valZ r.fzi (x.toNat % 2 ^ f.width)

/-- The result of a conversion (R92, R93, R66). -/
def cvtVal (c : CvtCode) (r : Rnd) (x : Word) : FR :=
  match c with
  | .f32f64 => FF.f64.ofVal r (FF.f32.read r x)
  | .f64f32 => FF.f32.ofVal r (FF.f64.read r x)
  | .f32f16 => FF.f16.ofVal r (FF.f32.read r x)
  | .f16f32 => FF.f32.ofVal r (FF.f16.read r x)
  | .f32bf16 => FF.bf16.ofVal r (FF.f32.read r x)
  | .bf16f32 => FF.f32.ofVal r (FF.bf16.read r x)
  | .f32e4m3 => FF.e4m3.ofVal r (FF.f32.read r x)
  | .e4m3f32 => FF.f32.ofVal r (FF.e4m3.read r x)
  | .f32e5m2 => FF.e5m2.ofVal r (FF.f32.read r x)
  | .e5m2f32 => FF.f32.ofVal r (FF.e5m2.read r x)
  | .f32e2m1 => FF.e2m1.ofVal r (FF.f32.read r x)
  | .e2m1f32 => FF.f32.ofVal r (FF.e2m1.read r x)
  | .f64i64 => toInt 64 true r.rm (FF.f64.read r x)
  | .f64n64 => toInt 64 false r.rm (FF.f64.read r x)
  | .f32i32 => toInt 32 true r.rm (FF.f32.read r x)
  | .f32n32 => toInt 32 false r.rm (FF.f32.read r x)
  | .i64f64 => FF.f64.ofVal r (valOfInt x.toInt)
  | .n64f64 => FF.f64.ofVal r (valOfInt x.toNat)
  | .i64f32 => FF.f32.ofVal r (valOfInt x.toInt)
  | .n64f32 => FF.f32.ofVal r (valOfInt x.toNat)
  | .i64i32 => satInt 32 true x.toInt
  | .i64i16 => satInt 16 true x.toInt
  | .i64i8 => satInt 8 true x.toInt
  | .i64n32 => satInt 32 false x.toInt
  | .i64n16 => satInt 16 false x.toInt
  | .i64n8 => satInt 8 false x.toInt

/-- `CVT` (R92, R93), with the register moves of codes 26-31. -/
def execCvt (f : CvtForm) (s : State) : Out :=
  match f with
  | .conv k r d a la => float1 ⟨d, a, la⟩ r (cvtVal k) s
  | .toP d a la =>
    runStrand 4 (fun c => do
      let x ← readS c a
      .ok (((c.markS a la).writeP d (x.setWidth 32)).advance 4)) s
  | .ofP d a =>
    runStrand 4 (fun c => do
      needFree c (.s d)
      .ok ((c.writeS d ((c.pVal a).setWidth 64)).advance 4)) s
  | .toK hi d a la =>
    runStrand 4 (fun c => do
      let x ← readS c a
      let old := c.kVal d
      let new : BitVec 128 := if hi then x ++ old.extractLsb' 0 64 else old.extractLsb' 64 64 ++ x
      .ok (((c.markS a la).writeK d new).advance 4)) s
  | .ofK hi d a =>
    runStrand 4 (fun c => do
      needFree c (.s d)
      let x := c.kVal a
      .ok ((c.writeS d (if hi then x.extractLsb' 64 64 else x.extractLsb' 0 64)).advance 4)) s

/-- `FCLASS` (R94): classifies the pattern, ignoring FZI, and sets no flag. -/
def execFclass (o : OpRR) (prec : Prec) (s : State) : Out :=
  float1 o .fpm (fun _ x => ⟨2 ^ (precFF prec).classBit (x.toNat % 2 ^ (precFF prec).width), 0, 0⟩) s

end Sys2Proof.Machine
end

