-- ==== Sys2Proof/Machine/Row.lean ====
section
/-! DEFINITION. Rows of the scratchpad and their elements (R14, R25, R47, R53), and what every vector instruction has in common:
address checks, the scoreboard, extra turns, enabled elements and pointers (R111-R117, R134, R156). -/

namespace Sys2Proof.Machine

/-! ### Formats (R47) -/

/-- Bits of an element. -/
def fmtBits : Fmt → Nat
  | .i8 | .n8 | .e4m3 | .e5m2 => 8
  | .i16 | .n16 | .bf16 | .f16 => 16
  | .i32 | .n32 | .f32 => 32
  | .i64 | .iv32 => 64
  | .e2m1 => 4
  | .t2 => 2
/-- Lanes of a row. -/
def fmtLanes (f : Fmt) : Nat := 4096 / fmtBits f
/-- Codes of R47. -/
def fmtNum : Fmt → Nat
  | .i8 => 0 | .i16 => 1 | .i32 => 2 | .i64 => 3 | .n8 => 4 | .n16 => 5 | .n32 => 6 | .f32 => 7 | .bf16 => 8 | .f16 => 9
  | .e4m3 => 10 | .e5m2 => 11 | .e2m1 => 12 | .t2 => 13 | .iv32 => 14
/-- The floating-point format of a code, if it is one. -/
def fmtFF : Fmt → Option FF
  | .f32 => some .f32
  | .bf16 => some .bf16
  | .f16 => some .f16
  | .e4m3 => some .e4m3
  | .e5m2 => some .e5m2
  | .e2m1 => some .e2m1
  | _ => none
/-- Whether an integer format is signed. -/
def fmtSigned : Fmt → Bool
  | .i8 | .i16 | .i32 | .i64 => true
  | _ => false

/-! ### Elements -/

/-- Element i of a row of elements of `w` bits (R53). -/
def elem (w row i : Nat) : Nat := row / 2 ^ (w * i) % 2 ^ w
/-- The row of a list of elements of `w` bits. -/
def packRow (w : Nat) (l : List Nat) : Nat := l.foldr (fun e r => r * 2 ^ w + e % 2 ^ w) 0
/-- Whether mask `k` enables element i of width `w` (R14). -/
def maskBit (k : BitVec 128) (w i : Nat) : Bool := k.getLsbD (i * w / 32)
/-- min(`ctl.vl`, lanes) (R25). -/
def Strand.count (c : Strand) (lanes : Nat) : Nat := min c.ctl.vl lanes
/-- Whether element i is enabled (R111). -/
def enabled (k : BitVec 128) (w n i : Nat) : Bool := decide (i < n) && maskBit k w i

/-- The number that the low `w` bits hold, signed or not. -/
def intOf (w : Nat) (signed : Bool) (x : Nat) : Int :=
  if signed && decide (2 ^ (w - 1) ≤ x) then (x : Int) - 2 ^ w else x

/-- The value of a T2 code; 10 is read as 0 (R59). -/
def t2Val (x : Nat) : Int := if x = 1 then 1 else if x = 3 then -1 else 0

/-- A source element as a value, with the flags and the count of a reserved T2 code (R59); subnormals under FZI (R61). -/
def elemVal (f : Fmt) (fzi : Bool) (x : Nat) : FVal × BitVec 6 × Nat :=
  match fmtFF f, f with
  | some g, _ => (g.valV fzi x, 0, 0)
  | none, .t2 => (valOfInt (t2Val x), flagIf (x == 2) fST, if x = 2 then 1 else 0)
  | none, _ => (valOfInt (intOf (fmtBits f) (fmtSigned f) x), 0, 0)

/-- The T2 code of −1, 0 or 1. -/
def t2Code (v : Int) : Nat := if v = 1 then 1 else if v = -1 then 3 else 0

/-- A value converted to T2 (R66). -/
def toT2 (rm : RM) (a : FVal) : FR :=
  match a with
  | .nan _ => ⟨0, fNV, 0⟩
  | .inf neg => ⟨t2Code (if neg then -1 else 1), fST, 1⟩
  | .fin neg m e =>
    let (v, frac) := roundInt rm neg m e
    let (x, sat) := clampInt (-1) 1 v
    ⟨t2Code x, flagIf frac fNX ||| flagIf sat fST, if sat then 1 else 0⟩

/-- A value converted to an element of a format (R66). -/
def toElem (f : Fmt) (r : Rnd) (v : FVal) : FR :=
  match fmtFF f, f with
  | some g, _ => g.ofValV r v
  | none, .t2 => toT2 r.rm v
  | none, _ => toInt (fmtBits f) (fmtSigned f) r.rm v

/-! ### Rows written -/

/-- A row as an instruction leaves it, with the 64-byte units it writes whole, its flags and its saturated elements. -/
structure RowOut where
  row : Nat
  whole : List Nat
  fl : BitVec 6
  sat : Nat

/-- 64-byte units of a row all of whose elements of `w` bits are written. -/
def wholeRowUnits (w : Nat) (en : Nat → Bool) : List Nat :=
  (List.range 8).filter fun u => (List.range (512 / w)).all fun j => en (u * (512 / w) + j)

/-- Writes the elements of a row that are enabled (R111). -/
def mapRow (w lanes old : Nat) (en : Nat → Bool) (f : Nat → FR) : RowOut :=
  let rs := (List.range lanes).map fun i => if en i then f i else ⟨elem w old i, 0, 0⟩
  { row := packRow w (rs.map (·.bits)), whole := wholeRowUnits w en
    fl := rs.foldl (fun a r => a ||| r.fl) 0, sat := (rs.map (·.sat)).sum }

/-- Writes a row; units written whole are no longer poisoned (R316). -/
def Core.rowWrite (k : Core) (addr : Nat) (r : RowOut) : Core :=
  { k with
    sp := k.sp.writeN addr 512 r.row
    spPoison := if k.spPoison.isEmpty then [] else k.spPoison.filter fun u => !(r.whole.map (addr / 64 + ·)).contains u }

/-- A row's bits. -/
def Core.row (k : Core) (addr : Nat) : Nat := k.sp.readN addr 512

/-! ### Running a vector instruction -/

/-- The extra turns for rows that are read (R134, R156): as many as the fullest bank holds beyond one. Two operands that name
one row count once. -/
def bankTurns (reads : List Nat) : Nat :=
  let rows := reads.eraseDups
  let at_ (b : Nat) : Nat := (rows.filter fun a => a / 512 % 3 == b).length
  max (at_ 0) (max (at_ 1) (at_ 2)) - 1

/-- No poisoned unit among the first `n` bytes of rows that are read (R316). -/
def needCleanPart (k : Core) (rows : List Nat) (n : Nat) : Except Stop Unit :=
  match k.spPoison.find? fun u => rows.any fun a => decide (a / 64 ≤ u) && decide (u < a / 64 + n / 64) with
  | none => .ok ()
  | some u => .error (.fault ⟨.poison, BitVec.ofNat 64 (u * 64), 0⟩)

/-- No poisoned unit among rows that are read (R316). -/
def needCleanRows (k : Core) (rows : List Nat) : Except Stop Unit := needCleanPart k rows 512

/-- No command holds the first `n` bytes of rows that are read or written (R117, R206). -/
def needPart (k : Core) (rows : List Nat) (n : Nat) (write : Bool) : Except Stop Unit :=
  rows.forM fun a => needRange k a n write

/-- No command holds rows that are read or written (R117, R206). -/
def needRows (k : Core) (rows : List Nat) (write : Bool) : Except Stop Unit := needPart k rows 512 write

/-- What a vector instruction does after its register operands are read: checks of the rows in `rows` with what `ctl.tinfo`
receives for each (R115), the scoreboard and poison, its extra turns, and in its last turn the whole of its effect (R117). Of each row
in `reads` it reads the first `n` bytes. -/
def vecPart (n : Nat) (s : State) (rows : List (Nat × Nat)) (reads writes : List Nat) (extra : Nat) (go : Core → Except Stop State) :
    Except Stop State := do
  let c := s.cur
  needAcq c
  rowsCheck rows
  let k := s.core c.core
  needPart k reads n false
  needRows k writes true
  needCleanPart k reads n
  if extra ≠ 0 && c.owe = 0 then .ok (s.setCur { c with owe := extra })
  else go k

/-- The same of an instruction that reads its rows whole (R111). -/
def vec (s : State) (rows : List (Nat × Nat)) (reads writes : List Nat) (extra : Nat) (go : Core → Except Stop State) :
    Except Stop State := vecPart 512 s rows reads writes extra go

/-- Applies the increments of pointers, each register once (R114). -/
def Strand.stepPs (c : Strand) (l : List (PReg × Bool)) : Strand :=
  ((l.filter (·.2)).map (·.1)).eraseDups.foldl (fun c p => c.stepP p true) c

/-- The strand retires having written rows (address and contents). -/
def retireRows (s : State) (c : Strand) (k : Core) (rows : List (Nat × RowOut)) : State :=
  let fl := rows.foldl (fun a r => a ||| r.2.fl) 0
  let sat := (rows.map (·.2.sat)).sum
  (s.setCore c.core (rows.foldl (fun k r => k.rowWrite r.1 r.2) k)).retireFp c fl sat

end Sys2Proof.Machine
end

