-- ==== Sys2Proof/Machine/Transc.lean ====
section
/-! DEFINITION. Exponential, logarithm, hyperbolic tangent and reciprocal square root: fixed-point values with 256 bits after
the point, accurate to better than 2^-200 of the result, from which the one rounding of R61 is formed; and the results that
R132 and R133 allow the approximate instructions. -/

namespace Sys2Proof.Machine

/-- Bits after the point of the fixed-point values here. -/
def fxBits : Nat := 256
/-- 1 in fixed point. -/
def fxOne : Nat := 2 ^ fxBits
/-- Product in fixed point. -/
def fxMul (a b : Nat) : Nat := a * b / fxOne
/-- `m × 2^e` in fixed point. -/
def fxOf (m : Nat) (e : Int) : Nat :=
  if 0 ≤ e + fxBits then m * 2 ^ (e + fxBits).toNat else m / 2 ^ (-(e + fxBits)).toNat

/-- Terms of the exponential series from the n-th on. -/
def expSeries (r : Nat) : Nat → Nat → Nat → Nat
  | 0, _, _ => 0
  | k + 1, n, term => term + expSeries r k (n + 1) (fxMul term r / (n + 1))

/-- Squares a fixed-point value `k` times. -/
def fxSquares : Nat → Nat → Nat
  | 0, v => v
  | k + 1, v => fxSquares k (fxMul v v)

/-- e^x for a fixed-point x from 0 to 128. (DESIGN CHOICE, log 19) -/
def fxExp (x : Nat) : Nat := fxSquares 12 (expSeries (x / 2 ^ 12) 40 0 fxOne)

/-- e^x for a signed `m × 2^e`; beyond ±128, where every 32-bit format has overflowed or underflowed, as at ±128. -/
def fxExpOf (neg : Bool) (m : Nat) (e : Int) : Nat :=
  let x := min (if decide (e + m.log2 < 7) || m = 0 then fxOf m e else 128 * fxOne) (128 * fxOne)
  if neg then fxOne * fxOne / fxExp x else fxExp x

/-- Terms t^(2n+1)/(2n+1) of the inverse hyperbolic tangent's series, from the n-th power on. -/
def atanhSeries (t2 : Nat) : Nat → Nat → Nat → Nat
  | 0, _, _ => 0
  | k + 1, n, p => p / (2 * n + 1) + atanhSeries t2 k (n + 1) (fxMul p t2)

/-- The natural logarithm of a fixed-point value from 1 to 2. -/
def fxLn1 (f : Nat) : Nat :=
  let t := (f - fxOne) * fxOne / (f + fxOne)
  2 * atanhSeries (fxMul t t) 85 0 t

/-- The natural logarithm of `m × 2^e`, m not 0, in fixed point. (DESIGN CHOICE, log 19) -/
def fxLn (m : Nat) (e : Int) : Int :=
  (e + m.log2) * (fxLn1 (2 * fxOne) : Int) + fxLn1 (m * fxOne / 2 ^ m.log2)

/-- Rounds a fixed-point magnitude that stands a little below the exact value. -/
def FF.roundFx (f : FF) (rm : RM) (neg : Bool) (v : Nat) : FR := f.round rm false neg (2 * v + 1) (-(fxBits : Int) - 1)

/-- e^x, rounded; exact for 0. -/
def FF.expV (f : FF) (rm : RM) (neg : Bool) (m : Nat) (e : Int) : FR :=
  if m = 0 then f.round rm false false 1 0 else f.roundFx rm false (fxExpOf neg m e)

/-- ln of a positive value, rounded; exact for 1. -/
def FF.lnV (f : FF) (rm : RM) (m : Nat) (e : Int) : FR :=
  let v := fxLn m e
  if v = 0 then ⟨f.zero false, 0, 0⟩ else f.roundFx rm (decide (v < 0)) v.natAbs

/-- tanh x of a nonzero value, rounded. Below 2^-60 the result is the operand less less than a 2^-120th of it. -/
def FF.tanhV (f : FF) (rm : RM) (neg : Bool) (m : Nat) (e : Int) : FR :=
  if e + m.log2 < -60 then f.round rm false neg (m * 2 ^ 120 - 1) (e - 120)
  else
    let x := if e + m.log2 < 5 then fxOf m (e + 1) else 64 * fxOne
    let E := fxExp x
    f.roundFx rm neg ((E - fxOne) * fxOne / (E + fxOne))

/-- 1/√x of a positive value, rounded. -/
def FF.rsqrtV (f : FF) (rm : RM) (m : Nat) (e : Int) : FR :=
  let s : Nat := 256 + (e % 2).toNat
  let q := 2 ^ s / m
  let r := isqrt q
  f.round rm false false (2 * r + (if r * r * m = 2 ^ s then 0 else 1)) (-((e + s) / 2) - 1)

/-- The instructions of R132. -/
inductive Approx where
  | exp | rcp | rsq | tanh
  deriving DecidableEq, Repr

/-- Their numbers as `Config.approx` takes them. -/
def Approx.code : Approx → Nat
  | .exp => 0 | .rcp => 1 | .rsq => 2 | .tanh => 3

/-- Codes of the rounding modes (R60). -/
def RM.code : RM → Nat
  | .rne => 0 | .rtz => 1 | .rdn => 2 | .rup => 3

/-- Results of the special operands (R133), if the operand is one. -/
def FF.special (f : FF) (op : Approx) (v : FVal) : Option FR :=
  let one : Nat := f.pack false f.bias 0
  match op, v with
  | _, .nan s => some (f.nanR s)
  | .exp, .inf neg => some ⟨if neg then f.zero false else f.infBits false, 0, 0⟩
  | .rcp, .inf neg => some ⟨f.zero neg, 0, 0⟩
  | .rsq, .inf neg => some (if neg then f.nanR true else ⟨f.zero false, 0, 0⟩)
  | .tanh, .inf neg => some ⟨one + f.zero neg, 0, 0⟩
  | .exp, .fin _ m _ => if m = 0 then some ⟨one, 0, 0⟩ else none
  | .rcp, .fin neg m _ => if m = 0 then some ⟨f.infBits neg, fDZ, 0⟩ else none
  | .rsq, .fin neg m _ => if m = 0 then some ⟨f.infBits neg, fDZ, 0⟩ else if neg then some (f.nanR true) else none
  | .tanh, .fin neg m _ => if m = 0 then some ⟨f.zero neg, 0, 0⟩ else none

/-- The exact value, rounded once, of an operand that is not special. -/
def FF.exactApprox (f : FF) (op : Approx) (rm : RM) (v : FVal) : FR :=
  match v with
  | .fin neg m e =>
    match op with
    | .exp => f.expV rm neg m e
    | .rcp => f.divV { rm := rm } (.fin false 1 0) v
    | .rsq => f.rsqrtV rm m e
    | .tanh => f.tanhV rm neg m e
  | _ => f.nanR false

/-- A neighbour in the format of an inexact result: toward zero (1) or away from it (2), within the limits of R132. Below a
zero stands, for `VTANH`, the smallest magnitude of the other sign; the others keep their sign. -/
def FF.neighbour (f : FF) (op : Approx) (bits choice : Nat) : Nat :=
  let top := 2 ^ (f.eb + f.fb)
  let sign := bits / top * top
  let mag := bits % top
  match choice % 3 with
  | 1 => if mag = 0 then (if op = .tanh then (if sign = 0 then top else 0) + 1 else bits) else sign + (mag - 1)
  | 2 =>
    let limit := if op = .tanh then f.pack false f.bias 0 else f.infBits false
    if mag < limit then sign + (mag + 1) else bits
  | _ => bits

/-- The result of an approximate instruction with its flags (R132): NX unless it is exact, OF when it is infinite or the exact
value overflowed, UF when the exact value is tiny or the result lies below the smallest normal; FZO replaces a subnormal by a zero.
(DESIGN CHOICE, log 18) -/
def FF.approx (f : FF) (op : Approx) (code : Nat) (r : Rnd) (bits : Nat) : FR :=
  let v := f.valZ r.fzi bits
  match f.special op v with
  | some x => x
  | none =>
    let x := f.exactApprox op r.rm v
    if x.fl &&& fNX = 0 then
      -- exact, and subnormal results are still flushed (R61)
      (match f.val x.bits with
        | .fin neg m _ => if r.fzo && m != 0 && decide (m < 2 ^ f.fb) then ⟨f.zero neg, fUF ||| fNX, 0⟩ else x
        | _ => x)
    else
      let y := f.neighbour op x.bits (Config.approx op.code code r.rm.code bits)
      match f.val y with
      | .inf _ => ⟨y, fOF ||| fNX, 0⟩
      | .fin neg m _ =>
        let small := decide (m < 2 ^ f.fb)
        let fl := fNX ||| flagIf small fUF ||| (x.fl &&& (fOF ||| fUF))
        ⟨if small && r.fzo then f.zero neg else y, fl, 0⟩
      | .nan _ => ⟨y, fNX, 0⟩

end Sys2Proof.Machine
end

