-- ==== Sys2Proof/Machine/Vector.lean ====
section
/-! DEFINITION. The vector instructions on scratchpad rows (R109-R135). -/

namespace Sys2Proof.Machine

/-! ### Shapes -/

/-- An instruction of format V with two source rows: element i of pd from the elements of pa and pb, and of pd when `rd`. -/
def vecV (o : OpV) (rd : Bool) (f : Rnd → Nat → Nat → Nat → FR) : State → Out :=
  run 4 fun s =>
    let c := s.cur
    let d := ptrAddr (c.pVal o.pd)
    let a := ptrAddr (c.pVal o.pa)
    let b := ptrAddr (c.pVal o.pb)
    let reads := if rd then [d, a, b] else [a, b]
    vec s [(d, 0), (a, 1), (b, 2)] reads [d] (bankTurns reads) fun k =>
      let w := fmtBits o.fmt
      let lanes := fmtLanes o.fmt
      let en := enabled (c.kVal o.k) w (c.count lanes)
      let old := k.row d
      let ra := k.row a
      let rb := k.row b
      let r := fpmRnd c.ctl.fpm
      let t := mapRow w lanes old en fun i => f r (elem w ra i) (elem w rb i) (elem w old i)
      .ok (retireRows s ((c.stepPs [(o.pd, o.incD), (o.pa, o.incA), (o.pb, o.incB)]).advance 4) k [(d, t)])

/-- An instruction of format V with one source row. -/
def vecV1 (o : OpV1) (extra : Nat) (f : Rnd → Nat → FR) : State → Out :=
  run 4 fun s =>
    let c := s.cur
    let d := ptrAddr (c.pVal o.pd)
    let a := ptrAddr (c.pVal o.pa)
    vec s [(d, 0), (a, 1)] [a] [d] extra fun k =>
      let w := fmtBits o.fmt
      let lanes := fmtLanes o.fmt
      let ra := k.row a
      let r := fpmRnd c.ctl.fpm
      let t := mapRow w lanes (k.row d) (enabled (c.kVal o.k) w (c.count lanes)) fun i => f r (elem w ra i)
      .ok (retireRows s ((c.stepPs [(o.pd, o.incD), (o.pa, o.incA)]).advance 4) k [(d, t)])

/-- An instruction of format VS with a source row and a scalar. -/
def vecVS (o : OpVS) (f : Rnd → Nat → Nat → FR) : State → Out :=
  run 4 fun s => do
    let c := s.cur
    let x ← readS c o.s
    let d := ptrAddr (c.pVal o.pd)
    let a := ptrAddr (c.pVal o.pa)
    vec s [(d, 0), (a, 1)] [a] [d] 0 fun k =>
      let w := fmtBits o.fmt
      let lanes := fmtLanes o.fmt
      let ra := k.row a
      let r := fpmRnd c.ctl.fpm
      let t := mapRow w lanes (k.row d) (enabled (c.kVal o.k) w (c.count lanes)) fun i => f r (elem w ra i) (x.toNat % 2 ^ w)
      .ok (retireRows s (((c.markS o.s o.la).stepPs [(o.pd, o.inc), (o.pa, o.inc)]).advance 4) k [(d, t)])

/-! ### Element-wise arithmetic (R118-R122) -/

/-- An integer result: wrapped modulo 2^w, or saturated (R118, R119). -/
def intElem (f : Fmt) (sat : Bool) (v : Int) : FR :=
  if sat then satInt (fmtBits f) (fmtSigned f) v else ⟨intBits (fmtBits f) v, 0, 0⟩

/-- The integer that an element of an INT format holds. -/
def elemInt (f : Fmt) (x : Nat) : Int := intOf (fmtBits f) (fmtSigned f) x

/-- An operation on two elements: on integers, or on float values. -/
def vArith (f : Fmt) (sat : Bool) (fi : Int → Int → Int) (ff : FF → Rnd → FVal → FVal → FR) (r : Rnd) (a b : Nat) : FR :=
  match fmtFF f with
  | some g => ff g r (g.valZ r.fzi a) (g.valZ r.fzi b)
  | none => intElem f sat (fi (elemInt f a) (elemInt f b))

/-- `VADD` (R118, R119). -/
def execVadd (o : OpV) (sat : Bool) (s : State) : Out :=
  vecV o false (fun r a b _ => vArith o.fmt sat (· + ·) FF.addV r a b) s
/-- `VSUB` (R118, R119). -/
def execVsub (o : OpV) (sat : Bool) (s : State) : Out :=
  vecV o false (fun r a b _ => vArith o.fmt sat (· - ·) (fun g r a b => g.addV r a b.negate) r a b) s
/-- `VMUL` (R118, R119). -/
def execVmul (o : OpV) (sat : Bool) (s : State) : Out :=
  vecV o false (fun r a b _ => vArith o.fmt sat (· * ·) FF.mulV r a b) s

/-- `VFMA` (R118): the old pd element is the addend. -/
def execVfma (o : OpV) (s : State) : Out :=
  vecV o true (fun r a b d =>
    match fmtFF o.fmt with
    | some g => g.fmaV r (g.valZ r.fzi a) (g.valZ r.fzi b) (g.valZ r.fzi d)
    | none => intElem o.fmt false (elemInt o.fmt a * elemInt o.fmt b + elemInt o.fmt d)) s

/-- Minimum or maximum of two elements (R118). -/
def vMinMax (f : Fmt) (max_ : Bool) (r : Rnd) (a b : Nat) : FR :=
  match fmtFF f with
  | some g => g.minMax r.fzi max_ a b
  | none =>
    let less := decide (elemInt f a < elemInt f b)
    ⟨if less != max_ then a else b, 0, 0⟩

/-- `VMIN` (R118). -/
def execVmin (o : OpV) (s : State) : Out := vecV o false (fun r a b _ => vMinMax o.fmt false r a b) s
/-- `VMAX` (R118). -/
def execVmax (o : OpV) (s : State) : Out := vecV o false (fun r a b _ => vMinMax o.fmt true r a b) s

/-- `VAND` (R120). (DEDUCED, log 89) -/
def execVand (o : OpV) (s : State) : Out := vecV o false (fun _ a b _ => ⟨a &&& b, 0, 0⟩) s
/-- `VOR` (R120). (DEDUCED, log 89) -/
def execVor (o : OpV) (s : State) : Out := vecV o false (fun _ a b _ => ⟨a ||| b, 0, 0⟩) s
/-- `VXOR` (R120). (DEDUCED, log 89) -/
def execVxor (o : OpV) (s : State) : Out := vecV o false (fun _ a b _ => ⟨a ^^^ b, 0, 0⟩) s

/-- `VSHL` (R120): the count is taken modulo the width. -/
def execVshl (o : OpV) (s : State) : Out :=
  let w := fmtBits o.fmt
  vecV o false (fun _ a b _ => ⟨a * 2 ^ (b % w) % 2 ^ w, 0, 0⟩) s
/-- `VSHR` (R120). -/
def execVshr (o : OpV) (s : State) : Out :=
  let w := fmtBits o.fmt
  vecV o false (fun _ a b _ => ⟨a / 2 ^ (b % w), 0, 0⟩) s
/-- `VSAR` (R120): copies of bit w - 1 are shifted in, in every format. -/
def execVsar (o : OpV) (s : State) : Out :=
  let w := fmtBits o.fmt
  vecV o false (fun _ a b _ => ⟨intBits w (intOf w true a / 2 ^ (b % w)), 0, 0⟩) s

/-- `VABS` (R121). -/
def execVabs (o : OpV1) (s : State) : Out :=
  let w := fmtBits o.fmt
  vecV1 o 0 (fun _ a =>
    match fmtFF o.fmt with
    | some _ => ⟨a % 2 ^ (w - 1), 0, 0⟩
    | none => ⟨intBits w (elemInt o.fmt a).natAbs, 0, 0⟩) s
/-- `VNEG` (R121). -/
def execVneg (o : OpV1) (s : State) : Out :=
  let w := fmtBits o.fmt
  vecV1 o 0 (fun _ a =>
    match fmtFF o.fmt with
    | some _ => ⟨a ^^^ 2 ^ (w - 1), 0, 0⟩
    | none => ⟨intBits w (-(elemInt o.fmt a)), 0, 0⟩) s
/-- `VMOV` (R121). -/
def execVmov (o : OpV1) (s : State) : Out := vecV1 o 0 (fun _ a => ⟨a, 0, 0⟩) s

/-- `VADDS` (R122). -/
def execVadds (o : OpVS) (s : State) : Out := vecVS o (vArith o.fmt false (· + ·) FF.addV) s
/-- `VMULS` (R122). -/
def execVmuls (o : OpVS) (s : State) : Out := vecVS o (vArith o.fmt false (· * ·) FF.mulV) s

/-- `VBCAST` (R122): the scalar's low bits. -/
def execVbcast (o : OpVS1) (s : State) : Out :=
  run 4 (fun s => do
    let c := s.cur
    let x ← readS c o.s
    let d := ptrAddr (c.pVal o.pd)
    vec s [(d, 0)] [] [d] 0 fun k =>
      let w := fmtBits o.fmt
      let lanes := fmtLanes o.fmt
      let t := mapRow w lanes (k.row d) (enabled (c.kVal o.k) w (c.count lanes)) fun _ => ⟨x.toNat % 2 ^ w, 0, 0⟩
      .ok (retireRows s (((c.markS o.s o.la).stepPs [(o.pd, o.inc)]).advance 4) k [(d, t)])) s

/-! ### Selection, permutation, comparison (R123-R125) -/

/-- `VSEL` (R123): k selects, and every element below the count is written. -/
def execVsel (o : OpV) (s : State) : Out :=
  run 4 (fun s =>
    let c := s.cur
    let d := ptrAddr (c.pVal o.pd)
    let a := ptrAddr (c.pVal o.pa)
    let b := ptrAddr (c.pVal o.pb)
    vec s [(d, 0), (a, 1), (b, 2)] [a, b] [d] (bankTurns [a, b]) fun k =>
      let w := fmtBits o.fmt
      let lanes := fmtLanes o.fmt
      let n := c.count lanes
      let ra := k.row a
      let rb := k.row b
      let t := mapRow w lanes (k.row d) (fun i => decide (i < n)) fun i =>
        ⟨if maskBit (c.kVal o.k) w i then elem w ra i else elem w rb i, 0, 0⟩
      .ok (retireRows s ((c.stepPs [(o.pd, o.incD), (o.pa, o.incA), (o.pb, o.incB)]).advance 4) k [(d, t)])) s

/-- `VPERM` (R124): pb holds N16 indices, of which the low log₂ L bits count. -/
def execVperm (o : OpV) (s : State) : Out :=
  run 4 (fun s =>
    let c := s.cur
    let d := ptrAddr (c.pVal o.pd)
    let a := ptrAddr (c.pVal o.pa)
    let b := ptrAddr (c.pVal o.pb)
    vec s [(d, 0), (a, 1), (b, 2)] [a, b] [d] (bankTurns [a, b]) fun k =>
      let w := fmtBits o.fmt
      let lanes := fmtLanes o.fmt
      let ra := k.row a
      let rb := k.row b
      let t := mapRow w lanes (k.row d) (enabled (c.kVal o.k) w (c.count lanes)) fun i =>
        ⟨elem w ra (elem 16 rb i % lanes), 0, 0⟩
      .ok (retireRows s ((c.stepPs [(o.pd, o.incD), (o.pa, o.incA), (o.pb, o.incB)]).advance 4) k [(d, t)])) s

/-- A comparison of two elements with its flags (R125). -/
def vCmp (cond : VCond) (f : Fmt) (fzi : Bool) (a b : Nat) : Bool × BitVec 6 :=
  match fmtFF f with
  | some g =>
    let x := g.valZ fzi a
    let y := g.valZ fzi b
    let nan := x.isNan || y.isNan
    let sig := flagIf (x.snan || y.snan) fNV
    match cond with
    | .eq => (!nan && fCmpEq x y, sig)
    | .ne => (nan || !fCmpEq x y, sig)
    | .lt => (!nan && fCmpLt x y, flagIf nan fNV)
    | .le => (!nan && !fCmpLt y x, flagIf nan fNV)
  | none =>
    let x := elemInt f a
    let y := elemInt f b
    match cond with
    | .eq => (decide (x = y), 0)
    | .ne => (decide (x ≠ y), 0)
    | .lt => (decide (x < y), 0)
    | .le => (decide (x ≤ y), 0)

/-- The mask of a comparison (R125): bit g from the enabled elements whose lowest byte lies in group g. -/
def cmpMask (w n : Nat) (en : Nat → Bool) (holds : Nat → Bool) : BitVec 128 :=
  BitVec.ofNat 128 ((List.range 128).foldr (fun g m =>
    let es := ((List.range (max 1 (32 / w))).map fun j => if w ≤ 32 then g * (32 / w) + j else g / 2).filter fun i =>
      decide (i < n) && en i && i * w / 32 == g
    2 * m + (if !es.isEmpty && es.all holds then 1 else 0)) 0)

/-- `VCMP` (R125): the whole mask is written. -/
def execVcmp (cond : VCond) (kd : KReg) (pa pb : PReg) (fmt : Fmt) (km : KReg) (incA incB : Bool) (s : State) : Out :=
  run 4 (fun s =>
    let c := s.cur
    let a := ptrAddr (c.pVal pa)
    let b := ptrAddr (c.pVal pb)
    vec s [(a, 1), (b, 2)] [a, b] [] (bankTurns [a, b]) fun k =>
      let w := fmtBits fmt
      let lanes := fmtLanes fmt
      let n := c.count lanes
      let fzi := (fpmRnd c.ctl.fpm).fzi
      let ra := k.row a
      let rb := k.row b
      let en := enabled (c.kVal km) w n
      let at_ (i : Nat) := vCmp cond fmt fzi (elem w ra i) (elem w rb i)
      let fl := ((List.range n).filter en).foldl (fun x i => x ||| (at_ i).2) 0
      let m := cmpMask w n en fun i => (at_ i).1
      .ok (s.retireFp (((c.writeK kd m).stepPs [(pa, incA), (pb, incB)]).advance 4) fl 0)) s

/-! ### Conversion (R126) -/

/-- `VCVT` (R126): a conversion between formats of different lanes runs over several rows of the wider one.
(DEDUCED, log 85) -/
def execVcvt (o : OpV1) (dst : Fmt) (s : State) : Out :=
  run 4 (fun s =>
    let c := s.cur
    let d := ptrAddr (c.pVal o.pd)
    let a := ptrAddr (c.pVal o.pa)
    let ws := fmtBits o.fmt
    let wd := fmtBits dst
    let ls := fmtLanes o.fmt
    let ld := fmtLanes dst
    let n := c.count (max ls ld)
    let ns := (n + ls - 1) / ls
    let nd := (n + ld - 1) / ld
    -- an operand of no rows still has its first one checked (R115)
    let span (base cnt op : Nat) : List (Nat × Nat) := (List.range (max 1 cnt)).map fun i => (base + 512 * i, i * 4 + op)
    let src := (List.range ns).map fun i => a + 512 * i
    let dsts := (List.range nd).map fun i => d + 512 * i
    vec s (span d nd 0 ++ span a ns 1) src dsts (ns + nd - 2) fun k =>
      let r := fpmRnd c.ctl.fpm
      let w := min ws wd
      let en := enabled (c.kVal o.k) w n
      let rows := src.map k.row
      let outs := (List.range nd).map fun j =>
        (d + 512 * j, mapRow wd ld (k.row (d + 512 * j)) (fun i => en (j * ld + i)) fun i =>
          let g := j * ld + i
          let (v, fl, sat) := elemVal o.fmt r.fzi (elem ws (rows.getD (g / ls) 0) (g % ls))
          let x := toElem dst r v
          ⟨x.bits, x.fl ||| fl, x.sat + sat⟩)
      .ok (retireRows s ((c.stepPs [(o.pd, o.incD), (o.pa, o.incA)]).advance 4) k outs)) s

/-! ### Reductions (R67, R127, R128) -/

/-- A value with the flags it brings. -/
structure Leaf where
  v : FVal
  fl : BitVec 6 := 0

/-- Sums neighbours, rounding to F32 at each node (R67). -/
def pairSums (r : Rnd) : List Leaf → List Leaf
  | x :: y :: t =>
    let z := FF.f32.addV r x.v y.v
    ⟨FF.f32.val z.bits, x.fl ||| y.fl ||| z.fl⟩ :: pairSums r t
  | l => l

/-- The tree of R67 down to one value, in `k` levels. -/
def treeSum (r : Rnd) : Nat → List Leaf → Leaf
  | 0, l => l.headD ⟨.fin false 0 0, 0⟩
  | k + 1, l => treeSum r k (pairSums r l)

/-- A quiet NaN, or the value, with NV for a signalling NaN (R58). -/
def leafOf (v : FVal) : Leaf := if v.isNan then ⟨.nan false, flagIf v.snan fNV⟩ else ⟨v, 0⟩

/-- An exact product (R67, R128, R129): ∞ × 0 is NaN with NV. -/
def exactMul (a b : FVal) : Leaf :=
  match a, b with
  | .nan _, _ | _, .nan _ => ⟨.nan false, flagIf (a.snan || b.snan) fNV⟩
  | .inf x, .inf y => ⟨.inf (x != y), 0⟩
  | .inf x, .fin y m _ | .fin y m _, .inf x => if m = 0 then ⟨.nan false, fNV⟩ else ⟨.inf (x != y), 0⟩
  | .fin x m e, .fin y n f => ⟨.fin (x != y) (m * n) (e + f), 0⟩

/-- +0. -/
def plusZero : FVal := .fin false 0 0

/-- The F32 pattern of a value that is representable in F32. -/
def f32Of (v : FVal) : Nat := (FF.f32.ofVal { rm := .rne } v).bits

/-- An integer reduction of R127 over the enabled elements. -/
def vredInt (fn : VRedFn) (f : Fmt) (l : List Nat) : Word :=
  let w := fmtBits f
  let vs := l.map (elemInt f)
  let (lo, hi) := intRange w (fmtSigned f)
  match fn with
  | .add => BitVec.ofInt 64 (vs.foldl (· + ·) 0)
  | .min => BitVec.ofInt 64 (vs.foldl (fun a b => if b < a then b else a) hi)
  | .max => BitVec.ofInt 64 (vs.foldl (fun a b => if a < b then b else a) lo)
  | .and => BitVec.ofNat 64 (l.foldl (· &&& ·) (2 ^ w - 1))
  | .or => BitVec.ofNat 64 (l.foldl (· ||| ·) 0)
  | .xor => BitVec.ofNat 64 (l.foldl (· ^^^ ·) 0)

/-- The greatest or least of float elements, NaNs ignored (R127). -/
def vredMinMax (max_ : Bool) (g : FF) (fzi : Bool) (l : List Nat) : FR :=
  let vs := l.map fun x => g.valZ fzi x
  let fl := flagIf (vs.any FVal.snan) fNV
  let ws := (vs.filter fun v => !v.isNan).map f32Of
  match ws with
  | [] => if l.isEmpty then ⟨FF.f32.infBits max_, fl, 0⟩ else ⟨FF.f32.nan, fl, 0⟩
  | x :: t => ⟨t.foldl (fun a b => (FF.f32.minMax false max_ a b).bits) x, fl, 0⟩

/-- A reduction of R127: `at_` gives the enabled elements by index. -/
def vred (fn : VRedFn) (f : Fmt) (r : Rnd) (lanes : Nat) (en : Nat → Bool) (at_ : Nat → Nat) : FR :=
  let l := ((List.range lanes).filter en).map at_
  match fmtFF f, fn with
  | some g, .add =>
    let t := treeSum r (lanes.log2) ((List.range lanes).map fun i => if en i then leafOf (g.valZ r.fzi (at_ i)) else ⟨plusZero, 0⟩)
    ⟨if t.v.isNan then FF.f32.nan else f32Of t.v, t.fl, 0⟩
  | some g, .min => vredMinMax false g r.fzi l
  | some g, .max => vredMinMax true g r.fzi l
  | _, _ => ⟨(vredInt fn f l).toNat, 0, 0⟩

/-- `VRED` (R127). -/
def execVred (fn : VRedFn) (d : SReg) (pa : PReg) (fmt : Fmt) (km : KReg) (inc : Bool) (s : State) : Out :=
  run 4 (fun s => do
    let c := s.cur
    needFree c (.s d)
    let a := ptrAddr (c.pVal pa)
    vec s [(a, 1)] [a] [] 0 fun k =>
      let w := fmtBits fmt
      let lanes := fmtLanes fmt
      let ra := k.row a
      let x := vred fn fmt (fpmRnd c.ctl.fpm) lanes (enabled (c.kVal km) w (c.count lanes)) (elem w ra)
      .ok (s.retireFp (((c.writeS d (BitVec.ofNat 64 x.bits)).stepPs [(pa, inc)]).advance 4) x.fl 0)) s

/-- The dot product of R128. -/
def vdot (f : Fmt) (r : Rnd) (lanes : Nat) (en : Nat → Bool) (a b : Nat → Nat) : FR :=
  match fmtFF f with
  | some g =>
    let t := treeSum r (lanes.log2) ((List.range lanes).map fun i =>
      if en i then exactMul (g.valV r.fzi (a i)) (g.valV r.fzi (b i)) else ⟨plusZero, 0⟩)
    ⟨if t.v.isNan then FF.f32.nan else f32Of t.v, t.fl, 0⟩
  | none =>
    let v := ((List.range lanes).filter en).foldl (fun n i => n + elemInt f (a i) * elemInt f (b i)) 0
    ⟨intBits 64 v, 0, 0⟩

/-- `VDOT` (R128). -/
def execVdot (d : SReg) (pa pb : PReg) (fmt : Fmt) (km : KReg) (inc : Bool) (s : State) : Out :=
  run 4 (fun s => do
    let c := s.cur
    needFree c (.s d)
    let a := ptrAddr (c.pVal pa)
    let b := ptrAddr (c.pVal pb)
    vec s [(a, 1), (b, 2)] [a, b] [] (bankTurns [a, b]) fun k =>
      let w := fmtBits fmt
      let lanes := fmtLanes fmt
      let ra := k.row a
      let rb := k.row b
      let x := vdot fmt (fpmRnd c.ctl.fpm) lanes (enabled (c.kVal km) w (c.count lanes)) (elem w ra) (elem w rb)
      .ok (s.retireFp (((c.writeS d (BitVec.ofNat 64 x.bits)).stepPs [(pa, inc), (pb, inc)]).advance 4) x.fl 0)) s

/-! ### Block-scaled products (R68, R129-R131) -/

/-- The exact sum of a block's products, rounded once to F32 (R129); a zero sum of zeros of one sign keeps that sign, any other
is signed under R62. (DEDUCED, log 26) -/
def blockSum (r : Rnd) (l : List Leaf) : FR :=
  let fl := l.foldl (fun a x => a ||| x.fl) 0
  let pinf := l.any fun x => x.v == .inf false
  let ninf := l.any fun x => x.v == .inf true
  if l.any (fun x => x.v.isNan) then ⟨FF.f32.nan, fl ||| flagIf (pinf && ninf) fNV, 0⟩
  else if pinf && ninf then ⟨FF.f32.nan, fl ||| fNV, 0⟩
  else if pinf then ⟨FF.f32.infBits false, fl, 0⟩
  else if ninf then ⟨FF.f32.infBits true, fl, 0⟩
  else
    let dy (x : Leaf) : Dy := match x.v with | .fin n m e => dyOf n m e | _ => ⟨0, 0⟩
    let negZero (x : Leaf) : Bool := match x.v with | .fin n m _ => n && m == 0 | _ => false
    let posZero (x : Leaf) : Bool := match x.v with | .fin n m _ => !n && m == 0 | _ => false
    let sum := l.foldl (fun a x => if (dy x).n = 0 then a else a.add (dy x)) ⟨0, 0⟩
    let zeroNeg := if l.all posZero then false else if l.all negZero then true else r.rm == .rdn
    let x := FF.f32.roundDy r.rm r.fzo zeroNeg sum
    ⟨x.bits, x.fl ||| fl, 0⟩

/-- `VBDOT` (R129): format VB has no mask field, so `k0` enables its elements. (DEDUCED, log 25) -/
def execVbdot (pd pa pb : PReg) (fmt : Fmt) (bs : BitVec 2) (incD incA incB : Bool) (s : State) : Out :=
  run 4 (fun s =>
    let c := s.cur
    let d := ptrAddr (c.pVal pd)
    let a := ptrAddr (c.pVal pa)
    let b := ptrAddr (c.pVal pb)
    vec s [(d, 0), (a, 1), (b, 2)] [a, b] [d] (bankTurns [a, b]) fun k =>
      let r := fpmRnd c.ctl.fpm
      let ra := k.row a
      let rb := k.row b
      let wa := fmtBits fmt
      let fb := if fmt = .t2 then Fmt.i8 else fmt
      let wb := fmtBits fb
      let lanes := if fmt = .t2 then 512 else fmtLanes fmt
      let n := c.count lanes
      let size := 8 * 2 ^ bs.toNat
      let blocks := (n + size - 1) / size
      let prod (i : Nat) : Leaf × BitVec 6 × Nat :=
        let (x, f1, s1) := elemVal fmt r.fzi (elem wa ra i)
        let (y, f2, s2) := elemVal fb r.fzi (elem wb rb i)
        let z := exactMul x y
        -- an integer zero has no sign
        let z1 := if (fmtFF fmt).isNone then (match z.v with | .fin _ 0 e => ⟨.fin false 0 e, z.fl⟩ | _ => z) else z
        (z1, f1 ||| f2, s1 + s2)
      let t := mapRow 32 128 (k.row d) (fun i => decide (i < blocks)) fun j =>
        let ps := ((List.range size).filter fun i => j * size + i < n).map fun i => prod (j * size + i)
        let x := blockSum r (ps.map (·.1))
        ⟨x.bits, ps.foldl (fun f p => f ||| p.2.1) x.fl, (ps.map (·.2.2)).sum⟩
      .ok (retireRows s ((c.stepPs [(pd, incD), (pa, incA), (pb, incB)]).advance 4) k [(d, t)])) s

/-- `VSCOMB` (R130): products of scales; element i is enabled by the mask bit of the scale's format. (DEDUCED, log 27) -/
def execVscomb (o : OpV) (s : State) : Out :=
  run 4 (fun s =>
    let c := s.cur
    let d := ptrAddr (c.pVal o.pd)
    let a := ptrAddr (c.pVal o.pa)
    let b := ptrAddr (c.pVal o.pb)
    vec s [(d, 0), (a, 1), (b, 2)] [a, b] [d] (bankTurns [a, b]) fun k =>
      let w := fmtBits o.fmt
      let r := fpmRnd c.ctl.fpm
      let ra := k.row a
      let rb := k.row b
      let t := mapRow 32 128 (k.row d) (enabled (c.kVal o.k) w (c.count 128)) fun i =>
        let x := (elemVal o.fmt r.fzi (elem w ra i)).1
        let y := (elemVal o.fmt r.fzi (elem w rb i)).1
        if x.isNan || y.isNan then ⟨FF.f32.nan, fNV, 0⟩ else FF.f32.mulV r x y
      .ok (retireRows s ((c.stepPs [(o.pd, o.incD), (o.pa, o.incA), (o.pb, o.incB)]).advance 4) k [(d, t)])) s

/-- `VSCACC` (R131): a NaN among the scale products sets no flag. -/
def execVscacc (o : OpV) (s : State) : Out :=
  vecV o true (fun r a b d =>
    let y := match FF.f32.valZ r.fzi b with | .nan _ => FVal.nan false | v => v
    FF.f32.fmaV r (FF.f32.valZ r.fzi a) y (FF.f32.valZ r.fzi d)) s

/-! ### Approximate transcendentals (R132, R133) -/

/-- An approximate instruction on elements of a FLT format; it takes one extra turn (R134). -/
def vecApprox (op : Approx) (o : OpV1) : State → Out :=
  vecV1 o 1 fun r a =>
    match fmtFF o.fmt with
    | some g => g.approx op (fmtNum o.fmt) r a
    | none => ⟨a, 0, 0⟩

/-- `VEXP` (R132). -/
def execVexp (o : OpV1) (s : State) : Out := vecApprox .exp o s
/-- `VRCP` (R132). -/
def execVrcp (o : OpV1) (s : State) : Out := vecApprox .rcp o s
/-- `VRSQ` (R132). -/
def execVrsq (o : OpV1) (s : State) : Out := vecApprox .rsq o s
/-- `VTANH` (R132). -/
def execVtanh (o : OpV1) (s : State) : Out := vecApprox .tanh o s

end Sys2Proof.Machine
end

