-- ==== Sys2Proof/Machine/Matrix.lean ====
section
/-! DEFINITION. Operand memory, the matrix array and multiply-and-rotate (R201-R219). -/

namespace Sys2Proof.Machine

/-! ### Slots and tiles (R201-R203) -/

/-- The tag of a slot; none for NONE (R201). -/
def Core.tag (k : Core) (slot : Nat) : Option Nat := k.omTag.find? slot
/-- Sets a slot's tag. -/
def Core.setTag (k : Core) (slot tag : Nat) : Core := { k with omTag := k.omTag.set slot tag }
/-- The bits of a slot. -/
def Core.slotBits (k : Core) (slot : Nat) : Nat := k.om.readN (slot * 4096) 4096
/-- The format that a tag names. -/
def tagFmt (t : Nat) : Fmt :=
  match t with
  | 0 => .i8 | 2 => .i32 | 7 => .f32 | 8 => .bf16 | 9 => .f16 | 10 => .e4m3 | 11 => .e5m2 | 12 => .e2m1 | _ => .t2
/-- Bytes of a tile (R203). -/
def tileBytes (f : Fmt) : Nat := 128 * fmtBits f

/-- Writes a tile to a slot with the poison of the units it covers (R316). -/
def Core.slotWrite (k : Core) (slot n bits : Nat) (poison : List Nat) : Core :=
  { k with
    om := k.om.writeN (slot * 4096) n bits
    omPoison := poison.foldl (fun p u => NatSet.add p (slot * 64 + u))
      (k.omPoison.filter fun u => !(decide (slot * 64 ≤ u) && decide (u < slot * 64 + n / 64))) }

/-- Fault 0x07 with its slot and reason (R202). -/
def slotFault (slot reason : Nat) : FaultRec := ⟨.slot, 0, BitVec.ofNat 64 (reason * 256 + slot)⟩

/-- The first of the named slots that the current strand does not hold faults (R202). -/
def needHeld (s : State) (slots : List Nat) : Except Stop Unit :=
  match slots.find? fun n => (s.core s.cur.core).omHold.find? n != some s.curId with
  | some n => .error (.fault (slotFault n 1))
  | none => .ok ()

/-- The checks of a tile's scratchpad address (R203). (DEDUCED, log 42) -/
def tileCheck (addr : Word) (f : Fmt) : Except Stop Unit :=
  if spLast < addr.toNat + tileBytes f - 1 then .error (.fault ⟨.range, addr, 0⟩)
  else if addr.toNat % 512 ≠ 0 then .error (.fault ⟨.align, addr, 0⟩)
  else .ok ()

/-! ### Claims (R212, R213) -/

/-- A run of slots. -/
def run_ (slot : BitVec 6) (n1 : BitVec 4) : List Nat := (List.range (n1.toNat + 1)).map (slot.toNat + ·)

/-- `MCLAIM` (R212). -/
def execMclaim (slot : BitVec 6) (n1 : BitVec 4) (lim : BitVec 10) (s : State) : Out :=
  run 4 (fun s => do
    let c := s.cur
    let k := s.core c.core
    let n := n1.toNat + 1
    if 63 < slot.toNat + n1.toNat then throw (.fault ⟨.undef, c.pc, encInfo (encode (.mclaim slot n1 lim))⟩)
    match (run_ slot n1).find? fun x => k.omHold.find? x == some s.curId with
    | some x => throw (.fault (slotFault x 5))
    | none =>
      if claimReady k s.curId slot.toNat n then
        let k1 : Core := { k with
          claims := k.claims.filter fun x => x.strand != s.curId
          omHold := (run_ slot n1).foldl (fun t x => t.set x s.curId) k.omHold }
        .ok ((s.setCore c.core k1).setCur (c.advance 4))
      else
        let k1 : Core := if k.claims.any fun x => x.strand == s.curId then k
          else { k with claims := k.claims ++ [⟨s.curId, slot.toNat, n⟩] }
        .ok ((s.setCore c.core k1).waitFor s.curId (.claim slot.toNat n) (c.lim10 lim) 4)) s

/-- The lowest slot of a run that another strand holds or that awaits its release; the run's first when there is none (R202). -/
def claimBlocker (k : Core) (slot n : Nat) : Nat :=
  (((List.range n).map (slot + ·)).find? fun x => (k.omHold.find? x).isSome || (k.omRelease.find? x).isSome).getD slot

/-- The limit of a claim ends (R212), of strand `arg.id` since cycle `arg.sub`. -/
def execMclaimExpiry (s : State) : Out :=
  let core := (s.strand s.arg.id).core
  .next (s.expire s.arg.id s.arg.sub
    (fun k => match k with | .claim slot n => some (slotFault (claimBlocker (s.core core) slot n) 4) | _ => none)
    (fun c s => s.modCore c.core fun k => { k with claims := k.claims.filter fun x => x.strand != s.arg.id }))

/-- `MRELEASE` (R213). -/
def execMrelease (slot : BitVec 6) (n1 : BitVec 4) (s : State) : Out :=
  run 4 (fun s => do
    let c := s.cur
    let k := s.core c.core
    if 63 < slot.toNat + n1.toNat then throw (.fault ⟨.undef, c.pc, encInfo (encode (.mrelease slot n1))⟩)
    match (run_ slot n1).find? fun x => k.omHold.find? x != some s.curId with
    | some x => throw (.fault (slotFault x 3))
    | none =>
      let users (x : Nat) : NatSet := ((k.cmds.filter fun y => (y.rdOm ++ y.wrOm).contains x).map (·.id)).foldl NatSet.add []
      let free (t : Core) (x : Nat) : Core :=
        { t with omHold := t.omHold.erase x
                 omRelease := if (users x).isEmpty then t.omRelease else t.omRelease.set x (users x) }
      .ok ((s.setCore c.core ((run_ slot n1).foldl free k)).setCur (c.advance 4))) s

/-! ### Matrix commands (R205, R214-R216) -/

/-- `MLOAD` is accepted (R205, R214): the slot takes its tag. -/
def execMload (slot : BitVec 6) (a : SReg) (la : Bool) (fmt : Fmt) (tr : TileTr) (s : State) : Out :=
  run 4 (fun s => do
    let c := s.cur
    if !(fmt.tileOk && tr.ok fmt) then throw (.fault ⟨.undef, c.pc, encInfo (encode (.mload slot a la fmt tr))⟩)
    let addr ← readS c a
    needAcq c
    tileCheck addr fmt
    needHeld s [slot.toNat]
    let n := slot.toNat
    let x := { s.newCmd 2 (.mload n addr.toNat fmt tr) with rdSp := [(addr.toNat, addr.toNat + tileBytes fmt)], wrOm := [n] }
    enqueue s 2 x (fun k => k.setTag n (fmtNum fmt)) ((c.markS a la).advance 4)) s

/-- `MZERO` is accepted (R205, R215). -/
def execMzero (slot : BitVec 6) (int : Bool) (s : State) : Out :=
  run 4 (fun s => do
    let c := s.cur
    needAcq c
    needHeld s [slot.toNat]
    let n := slot.toNat
    let x := { s.newCmd 2 (.mzero n int) with wrOm := [n] }
    enqueue s 2 x (fun k => k.setTag n (if int then 2 else 7)) (c.advance 4)) s

/-- The formats in which `MSTORE` writes a slot of a tag (R216). -/
def storeOk (tag : Nat) (f : Fmt) : Bool :=
  match tag with
  | 7 => match f with | .f32 | .bf16 | .f16 | .e4m3 | .e5m2 | .e2m1 => true | _ => false
  | 2 => match f with | .i32 | .i16 | .i8 | .n32 | .n16 | .n8 => true | _ => false
  | t => fmtNum f == t

/-- `MSTORE` is accepted (R205, R216): its register is empty with a reply pending. -/
def execMstore (d : SReg) (slot : BitVec 6) (a : SReg) (fmt : Fmt) (s : State) : Out :=
  run 4 (fun s => do
    let c := s.cur
    if fmt = .iv32 then throw (.fault ⟨.undef, c.pc, encInfo (encode (.mstore d slot a fmt))⟩)
    let addr ← readS c a
    needFree c (.s d)
    needAcq c
    tileCheck addr fmt
    needHeld s [slot.toNat]
    let n := slot.toNat
    if !((s.core c.core).tag n).any fun t => storeOk t fmt then throw (.fault (slotFault n 2))
    let x := { s.newCmd 2 (.mstore d n addr.toNat fmt c.ctl.fpm ((s.core c.core).tag n)) with rdOm := [n], wrSp := [(addr.toNat, addr.toNat + tileBytes fmt)] }
    enqueue s 2 x id ((c.setSFill d .pending).advance 4)) s

/-- Scratchpad rows that a matrix command reads or writes, one per cycle (R205). -/
def matrixRows (op : CmdOp) : Nat :=
  match op with
  | .mload _ _ f _ | .mstore _ _ _ f _ _ => (tileBytes f + 511) / 512
  | _ => 0

/-- Bytes of a tile in one of its scratchpad rows (R203). -/
def tileRow (f : Fmt) : Nat := min 512 (tileBytes f)

/-- Element of the scratchpad tile that `MLOAD` copies to element `e` of the slot (R214). -/
def tileSrc (tr : TileTr) (e : Nat) : Nat := if tr = .none then e else e % 32 * 32 + e / 32

/-- `MLOAD` is performed with the units of the tile that it has read, each with its poison (R214, R316). -/
def Core.mload (k : Core) (slot : Nat) (f : Fmt) (tr : TileTr) (us : List (List Byte × Bool)) : Core :=
  let w := fmtBits f
  let src := leNat (us.flatMap (·.1))
  let bits := if tr = .none then src else packRow w ((List.range 1024).map fun e => elem w src (tileSrc tr e))
  let bad := (List.range (tileBytes f / 64)).filter fun u =>
    (List.range (512 / w)).any fun j => ((us[tileSrc tr (u * (512 / w) + j) * w / 512]?).map (·.2)).getD false
  let clean := { k with omPoison := k.omPoison.filter fun u => u / 64 != slot }
  clean.slotWrite slot (tileBytes f) bits (if us.any (·.2) then bad else [])

/-- An element as `MSTORE` converts it (R216). -/
def storeElem (tag : Nat) (f : Fmt) (r : Rnd) (x : Nat) : FR :=
  if tag = fmtNum f then ⟨x, 0, 0⟩
  else if tag = 7 then
    let y := toElem f r (FF.f32.valZ r.fzi x)
    ⟨y.bits, y.fl, if f = .bf16 || f = .f16 then 0 else y.sat⟩
  else satInt (fmtBits f) (fmtSigned f) (intOf 32 true x)

/-- The elements from `first` on, `n` of them, of a slot of a tag, as `MSTORE` converts them (R216). -/
def Core.stored (k : Core) (slot tag : Nat) (f : Fmt) (fpm : BitVec 4) (first n : Nat) : List FR :=
  let src := k.slotBits slot
  (List.range n).map fun j => storeElem tag f (fpmRnd fpm) (elem (fmtBits (tagFmt tag)) src (first + j))

/-- `MSTORE` writes row `i` of the tile, with the poison of the units that its elements come from (R216, R316). -/
def Core.mstoreRow (k : Core) (slot tag addr : Nat) (f : Fmt) (fpm : BitVec 4) (i : Nat) : Core :=
  let wi := fmtBits (tagFmt tag)
  let wo := fmtBits f
  let n := tileRow f
  let per := n * 8 / wo
  let at_ := addr + 512 * i
  let bad := (List.range (n / 64)).filter fun u =>
    (List.range (512 / wo)).any fun j => k.omPoison.contains (slot * 64 + (i * per + u * (512 / wo) + j) * wi / 512)
  { k with
    sp := k.sp.writeN at_ n (packRow wo ((k.stored slot tag f fpm (i * per) per).map (·.bits)))
    spPoison := bad.foldl (fun p u => NatSet.add p (at_ / 64 + u))
      (k.spPoison.filter fun u => !(decide (at_ / 64 ≤ u) && decide (u < at_ / 64 + n / 64))) }

/-- The 64-byte units of a range of the scratchpad, each with its poison. -/
def Core.spUnits (k : Core) (a n : Nat) : List (List Byte × Bool) :=
  (List.range (n / 64)).map fun u => (k.sp.read (a + 64 * u) 64, k.spPoison.contains (a / 64 + u))

/-- A matrix command that is under way reads or writes its next row, within the bank rules of R24, and completes four cycles after its last
(R205). -/
def State.matrixGo (s : State) (core : Nat) (x : Cmd) : State :=
  let onward (s : State) (x : Cmd) : State :=
    let x1 := { x with unit := x.unit + 1 }
    let s1 := s.setHead core 2 x1
    if x1.unit < matrixRows x.op then s1.engNext core 2 x.id (s.now + 1)
    else s1.at_ (s.now + 4) rankWork .engineCommandComplete { id := core, idx := 2, sub := x.id }
  match x.op with
  | .mload _ addr f _ =>
    let a := addr + 512 * x.unit
    (s.engineRead core a (tileRow f)).gate core 2 x fun s => onward s { x with got := x.got ++ (s.core core).spUnits a (tileRow f) }
  | .mstore _ slot addr f fpm tag =>
    (s.engineWrite core (addr + 512 * x.unit) (tileRow f) x.gang).gate core 2 x fun s =>
      onward (s.modCore core fun k => k.mstoreRow slot (tag.getD 0) addr f fpm x.unit) x
  | _ => s

/-- A matrix command starts (R205): `MZERO` takes two cycles. -/
def State.matrixStart (s : State) (core : Nat) (x : Cmd) : State :=
  match x.op with
  | .mzero _ _ => s.at_ (s.now + 2) rankWork .engineCommandComplete { id := core, idx := 2, sub := x.id }
  | _ => s.matrixGo core x

/-- A matrix command completes (R205, R214-R216). -/
def State.completeMatrix (s : State) (core : Nat) (x : Cmd) : State :=
  match x.op with
  | .mload slot _ f tr => (s.modCore core fun k => k.mload slot f tr x.got).finishCmd core 2 x
  | .mzero slot _ => (s.modCore core fun k => k.slotWrite slot 4096 0 []).finishCmd core 2 x
  | .mstore d slot _ f fpm tag =>
    let rs := (s.core core).stored slot (tag.getD 0) f fpm 0 1024
    let fl := rs.foldl (fun a r => a ||| r.fl) 0
    let n := (rs.map (·.sat)).sum
    let s1 := if x.last.isNone then s.modStrand x.strand fun c =>
        let c1 := c.noteFp fl n
        if c1.sState d = .pending then c1.writeS d (BitVec.ofNat 64 n) else c1
      else s
    (s1.noteGang x.gang fl false).finishCmd core 2 x
  | _ => s.finishCmd core 2 x

/-! ### Tile products (R208-R210) -/

/-- The tag of C and the multiply time for the tags of A and B (R208). -/
def pairOf (a b : Option Nat) : Option (Nat × Nat) :=
  match a, b with
  | some 8, some 8 | some 9, some 9 => some (7, 16)
  | some 10, some 10 | some 10, some 11 | some 11, some 10 | some 11, some 11 => some (7, 8)
  | some 0, some 0 => some (2, 8)
  | some 12, some 12 => some (7, 4)
  | some 13, some 0 => some (2, 4)
  | _, _ => none

/-- Whether a tag can be A's in some pair. (DEDUCED, log 42) -/
def pairFirst (a : Option Nat) : Bool := [0, 8, 9, 10, 11, 12, 13].any fun t => a == some t

/-- A product of tiles as it will be written: the bits of C, the flags, the count, and the lowest element that is a NaN none of
whose inputs is one (R209, R210). -/
structure Product where
  bits : Nat
  fl : BitVec 6
  sat : Nat
  nanAt : Option Nat

/-- A float tile product (R209). -/
def productF (f g : FF) (a b c : Nat) (new : Bool) : Product :=
  let at_ (i k : Nat) : FVal := f.val (elem f.width a (32 * i + k))
  let bt (k j : Nat) : FVal := g.val (elem g.width b (32 * k + j))
  let ct (i j : Nat) : FVal := FF.f32.val (elem 32 c (32 * i + j))
  let r32 := List.range 32
  let es := r32.flatMap fun i => r32.map fun j =>
    let terms := r32.map fun k => exactMul (at_ i k) (bt k j)
    blockSum { rm := .rne } (if new then terms else terms ++ [⟨ct i j, flagIf (ct i j).snan fNV⟩])
  let clean (i j : Nat) : Bool :=
    r32.all (fun k => !(at_ i k).isNan && !(bt k j).isNan) && (new || !(ct i j).isNan)
  { bits := packRow 32 (es.map (·.bits)), fl := es.foldl (fun x e => x ||| e.fl) 0, sat := 0
    nanAt := ((List.range 1024).zip es).findSome? fun (e, r) =>
      if (FF.f32.val r.bits).isNan && clean (e / 32) (e % 32) then some e else none }

/-- An integer tile product (R209): T2 × I8, or I8 × I8. -/
def productI (t2 : Bool) (a b c : Nat) (new : Bool) : Product :=
  let at_ (i k : Nat) : Int := if t2 then t2Val (elem 2 a (32 * i + k)) else intOf 8 true (elem 8 a (32 * i + k))
  let bt (k j : Nat) : Int := intOf 8 true (elem 8 b (32 * k + j))
  let r32 := List.range 32
  let es := r32.flatMap fun i => r32.map fun j =>
    let sum := r32.foldl (fun v k => v + at_ i k * bt k j) (if new then 0 else intOf 32 true (elem 32 c (32 * i + j)))
    intBits 32 sum
  let bad := if t2 then ((List.range 1024).filter fun e => elem 2 a e == 2).length else 0
  { bits := packRow 32 es, fl := flagIf (decide (0 < bad)) fST, sat := bad, nanAt := none }

/-- The product of two slots into a third (R208, R209). -/
def Core.product (k : Core) (a b c : Nat) (new : Bool) : Product :=
  let x := k.slotBits a
  let y := k.slotBits b
  let z := k.slotBits c
  match k.tag a, k.tag b with
  | some ta, some tb =>
    match fmtFF (tagFmt ta), fmtFF (tagFmt tb) with
    | some f, some g => productF f g x y z new
    | _, _ => productI (ta == 13) x y z new
  | _, _ => productI false x y z new

/-! ### Array operations (R204, R217-R219) -/

/-- Whether a strand of a STEP gang keeps the array of its core from a strand outside the gang (R204). -/
def State.arrayKept (s : State) (c : Strand) : Bool :=
  (s.core c.core).slots.toList.any fun o =>
    match o with
    | some g => (s.strand g).ident.step && (s.strand g).ident.gang != c.ident.gang
    | none => false

/-- An array operation may start: no STEP gang keeps the array, it is not busy, no command holds the operation (R204, R206), and no
slot that it reads is poisoned (R316). -/
def needArray (s : State) (a : ArrayOp) : Except Stop Unit := do
  let k := s.core s.cur.core
  if s.arrayKept s.cur || k.array.isSome then throw .forfeit
  let cmds := (List.range 4).flatMap fun q => (k.queue q).map fun x => (q, x)
  match cmds.find? fun (_, x) => x.rdOm.any a.writes.contains || x.wrOm.any (a.reads ++ a.writes).contains with
  | some (q, x) => throw (.held (cmdRing k q x))
  | none =>
    match k.omPoison.find? fun u => a.reads.contains (u / 64) with
    | some u => throw (.fault ⟨.poison, BitVec.ofNat 64 (u * 64), 1⟩)
    | none => .ok ()

/-- The tags of an array operation's slots (R202, R208): C's tag and the multiply time. -/
def needTags (k : Core) (a b c : Nat) (new : Bool) : Except Stop (Nat × Nat) :=
  match pairOf (k.tag a) (k.tag b) with
  | none => .error (.fault (slotFault (if pairFirst (k.tag a) then b else a) 2))
  | some (t, m) => if new || k.tag c == some t then .ok (t, m) else .error (.fault (slotFault c 2))

/-- An array operation starts (R204): its strand is out of the rotation, and the result is formed from the operands as they stand
(R209). -/
def State.startArray (s : State) (a : ArrayOp) : State :=
  let c := s.cur
  let p := (s.core c.core).product a.a a.b a.c a.new_
  let op := { a with result := p.bits, nanAt := p.nanAt, flags := p.fl, sat := p.sat }
  ((s.modCore c.core fun k => { k with array := some op }).setCur
    { c with wait := some { kind := .array, since := s.now, retire := { len := 4 }, len := 4 } }).at_ a.done rankFill
      .arrayOpComplete { id := c.core }

/-- An array operation of the current strand. -/
def State.arrayOp (s : State) (rot new : Bool) (c a b ra rb m tag : Nat) : ArrayOp :=
  { strand := s.curId, gang := s.cur.ident.gang, pc := s.cur.pc, rot := rot, new_ := new, a := a, b := b, c := c, ra := ra, rb := rb
    done := s.now + m, sent := 0, gotA := 0, gotB := 0, result := 0, nanAt := none, flags := 0, sat := 0, ctag := tag }

/-- `MMA` (R217). -/
def execMma (c a b : BitVec 6) (new : Bool) (s : State) : Out :=
  run 4 (fun s => do
    let k := s.core s.cur.core
    needHeld s [a.toNat, b.toNat, c.toNat]
    if c = a || c = b then throw (.fault (slotFault c.toNat 7))
    let (t, m) ← needTags k a.toNat b.toNat c.toNat new
    let op := s.arrayOp false new c.toNat a.toNat b.toNat 0 0 m t
    needArray s op
    .ok (s.startArray op)) s

/-- An array operation writes C with its tag, enters its flags, and its instruction retires. -/
def State.commitArray (s : State) (core : Nat) (a : ArrayOp) (live : Bool) : State :=
  let s1 := (s.modCore core fun k => (k.slotWrite a.c 4096 a.result []).setTag a.c a.ctag).noteGang a.gang a.flags false
  if live then
    let c := (s1.strand a.strand).noteFp a.flags a.sat
    (s1.setStrand a.strand (c.complete { len := 4 } 0)).resume a.strand
  else s1

/-- An array operation takes effect, or its fault 0x50 is raised (R204, R209, R210, R219). -/
def State.finishArray (s : State) (core : Nat) (a : ArrayOp) : State :=
  let s1 := s.modCore core fun k => { k with array := none }
  let live := (s.strands.find? a.strand).any fun c => c.ident.gang == a.gang
  let c := s.strand a.strand
  let s2 :=
    match a.nanAt with
    | some e =>
      if live && c.ctl.nant then
        s1.pendUpcall a.strand ⟨.fpTrap, 0, BitVec.ofNat 64 (e + if a.rot then 2 ^ 16 else 0)⟩ 4
      else s1.commitArray core a live
    | none => s1.commitArray core a live
  (s2.pokeQueues core).pokeGang a.gang

/-- The array operation of a core completes once everything it waits for has happened (R219). (DEDUCED, log 41) -/
def State.tryArray (s : State) (core : Nat) : State :=
  match (s.core core).array with
  | some a =>
    if a.done ≤ s.now && (!a.rot || (a.sent == 2 && a.gotA == 2 && a.gotB == 2)) then s.finishArray core a else s
  | none => s

/-- The multiply of core `arg.id` is done (R204, R219). -/
def execArrayOpComplete (s : State) : Out := .next (s.tryArray s.arg.id)

/-! ### Multiply-and-rotate (R218, R219) -/

/-- The tile in a landing buffer, and those that wait in the link behind it. -/
def Core.land (k : Core) (south : Bool) : List Tile := if south then k.landS else k.landE
/-- Replaces them. -/
def Core.setLand (k : Core) (south : Bool) (l : List Tile) : Core := if south then { k with landS := l } else { k with landE := l }

/-- A tile has entered the buffer of a neighbour of the core that sent it (R219). -/
def State.tileEntered (s : State) (t : Tile) : State :=
  (s.modCore t.from_ fun k => { k with array := k.array.map fun a => { a with sent := a.sent + 1 } }).tryArray t.from_

/-- An `MROT` in progress begins to copy the tile in a landing buffer, which takes two cycles (R220). -/
def State.takeTile (s : State) (core : Nat) (south : Bool) : State :=
  let k := s.core core
  match k.array with
  | some a =>
    if a.rot && !(k.land south).isEmpty && (if south then a.gotB else a.gotA) == 0 then
      (s.setCore core { k with array := some (if south then { a with gotB := 1 } else { a with gotA := 1 }) }).at_ (s.now + 2) rankFill
        .mrotTileArrival { id := core, flag := south, n := 1 }
    else s
  | none => s

/-- A tile reaches core `arg.id` (`arg.n` 0) at its E or S port (`arg.flag`), or has been copied to its slot (1) (R218, R219).
`arg.idx` is its tag, `arg.sub` the sender. -/
def execMrotTileArrival (s : State) : Out :=
  let core := s.arg.id
  let south := s.arg.flag
  let k := s.core core
  if s.arg.n = 0 then
    let t : Tile := ⟨s.arg.idx, leNat s.arg.data, s.arg.sub⟩
    let l := k.land south
    let s1 := s.setCore core (k.setLand south (l ++ [t]))
    .next ((if l.isEmpty then s1.tileEntered t else s1).takeTile core south)
  else
    match k.array, k.land south with
    | some a, t :: rest =>
      let slot := if south then a.rb else a.ra
      let k1 := ((k.slotWrite slot (tileBytes (tagFmt t.fmt)) t.bits []).setTag slot t.fmt).setLand south rest
      let s1 := s.setCore core { k1 with array := some (if south then { a with gotB := 2 } else { a with gotA := 2 }) }
      let s2 := match rest with
        | u :: _ => s1.tileEntered u
        | [] => s1
      .next (s2.tryArray core)
    | _, _ => .next s

/-- The first slot number that two fields of an `MROT` share (R219). -/
def mrotClash (c a b ra rb : Nat) : Option Nat :=
  if c = a || c = b then some c
  else if ra = rb || ra = c || ra = a || ra = b then some ra
  else if rb = c || rb = a || rb = b then some rb
  else none

/-- Sends a tile from its slot to the landing buffer of a neighbour (R218, R220). -/
def State.sendTile (s : State) (src dst slot : Nat) (south : Bool) : State :=
  let k := s.core src
  let t := (k.tag slot).getD 0
  let n := tileBytes (tagFmt t)
  s.at_ (s.now + (n + 255) / 256 + 4) rankFill .mrotTileArrival
    { id := dst, flag := south, idx := t, sub := src, data := k.om.read (slot * 4096) n }

/-- `MROT` with its description in an `x` register (R219). (DESIGN CHOICE, log 10) -/
def mrot (i : Instr) (xr : XReg) : State → Out :=
  run 4 fun s => do
    let c := s.cur
    let bad : Stop := .fault ⟨.undef, c.pc, encInfo (encode i)⟩
    match s.gangs.find? c.ident.gang with
    | none => throw bad
    | some g =>
      if !(g.step && g.gw == g.gh && [2, 4, 8, 12].contains g.gw) then throw bad
      let d := (c.xVal xr).toNat
      let f (lo : Nat) : Nat := d / 2 ^ lo % 64
      let z := d / 2 ^ 40 % 4
      let reserved := d / 2 ^ 42 ≠ 0 || [38, 30, 22, 14, 6].any fun b => d / 2 ^ b % 4 ≠ 0
      if reserved || 2 ≤ z then throw (.fault (slotFault 0 8))
      needHeld s [f 8, f 16, f 0, f 24, f 32]
      match mrotClash (f 0) (f 8) (f 16) (f 24) (f 32) with
      | some n => throw (.fault (slotFault n 7))
      | none =>
        let (t, m) ← needTags (s.core c.core) (f 8) (f 16) (f 0) (z == 1)
        let op := s.arrayOp true (z == 1) (f 0) (f 8) (f 16) (f 24) (f 32) m t
        needArray s op
        let n := g.gw
        let at_ (x y : Nat) : Nat := (g.cores[y * n + x]?).getD 0
        let s1 := s.sendTile c.core (at_ ((c.ident.gx + n - 1) % n) c.ident.gy) (f 8) false
        let s2 := s1.sendTile c.core (at_ c.ident.gx ((c.ident.gy + n - 1) % n)) (f 16) true
        .ok (((s2.startArray op).takeTile c.core false).takeTile c.core true)

/-- `MROT x0` (R219). -/
def execMrot0 (s : State) : Out := mrot .mrot0 0 s
/-- `MROT x1` (R219). -/
def execMrot1 (s : State) : Out := mrot .mrot1 1 s
/-- `MROT x2` (R219). -/
def execMrot2 (s : State) : Out := mrot .mrot2 2 s
/-- `MROT x3` (R219). -/
def execMrot3 (s : State) : Out := mrot .mrot3 3 s
/-- `MROT x4` (R219). -/
def execMrot4 (s : State) : Out := mrot .mrot4 4 s
/-- `MROT x5` (R219). -/
def execMrot5 (s : State) : Out := mrot .mrot5 5 s
/-- `MROT x6` (R219). -/
def execMrot6 (s : State) : Out := mrot .mrot6 6 s
/-- `MROT x7` (R219). -/
def execMrot7 (s : State) : Out := mrot .mrot7 7 s

end Sys2Proof.Machine
end

