-- ==== Sys2Proof/Machine/Copy.lean ====
section
/-! DEFINITION. Copies and gather windows (R318-R324), rings (R325-R329), and joining the queues (R330, R331). -/

namespace Sys2Proof.Machine

/-! ### Address words (R319) -/

/-- Bits lo .. lo+n-1 of a word. -/
def bits (w : Word) (lo n : Nat) : Nat := w.toNat / 2 ^ lo % 2 ^ n

/-- The core and address that an SP or RING address word names, for an engine of `core`. -/
def spPlace (w : Word) (core : Nat) : Nat × Nat := (if w.getLsbD 34 then bits w 24 10 else core, bits w 0 19)

/-- Whether a reserved bit of an address word of a kind is nonzero, or its core does not exist (R319, R320); `dst` tells RING from
WIN. -/
def wordBad (kind : Nat) (dst : Bool) (w : Word) : Bool :=
  let n := w.toNat
  let rem := w.getLsbD 34
  let core := bits w 24 10
  let remote (low : Nat) : Bool := n / 2 ^ 35 ≠ 0 || n / 2 ^ low % 2 ^ (24 - low) ≠ 0 || (!rem && core ≠ 0) || 767 < core
  match kind with
  | 0 => remote 19
  | 1 => n / 2 ^ 18 ≠ 0
  | 2 => n / 2 ^ 48 ≠ 0
  | _ => if dst then remote 4 else n / 2 ^ 35 ≠ 0

/-- Whether an address word of a kind is misaligned (R320). -/
def wordMisaligned (kind : Nat) (dst : Bool) (w : Word) : Bool :=
  match kind with
  | 3 => !dst && bits w 0 32 % 64 ≠ 0
  | _ => w.toNat % 64 ≠ 0

/-- Whether a range of `len` bytes runs past its memory (R320). -/
def rangePast (kind : Nat) (w : Word) (len : Nat) : Bool :=
  match kind with
  | 0 => 0x60000 < bits w 0 19 + len
  | 1 => 0x40000 < bits w 0 18 + len
  | _ => false

/-- Operand-memory slots that a range touches; one of no bytes touches none. -/
def omSlots (w : Word) (len : Nat) : List Nat :=
  (List.range 64).filter fun n => len ≠ 0 && n * 4096 < bits w 0 18 + len && bits w 0 18 < n * 4096 + 4096

/-- Length of a bound window, as acceptance sees it (R322). -/
def Core.winLen (k : Core) (w : Nat) : Option Nat := (k.bound.find? w).map fun (rsz, n, _) => n * (64 * 2 ^ rsz)

/-- The faults of R320 in their order: control, destination and source in each row of the table. `hasD` and `hasS` are false for
a command that lacks a destination or a source. -/
def copyCheck (s : State) (ctl dst src : Word) (ctlBad : Bool) (lenBad : Bool) (len dk sk : Nat) (hasD hasS : Bool) :
    Except Stop Unit := do
  let fail (c : Cause) (w : Word) (n : Word) : Except Stop Unit := .error (.fault ⟨c, w, n⟩)
  if ctlBad then fail .range ctl 2
  if hasD && wordBad dk true dst then fail .range dst 0
  if hasS && wordBad sk false src then fail .range src 1
  if lenBad then fail .align ctl 2
  if hasD && wordMisaligned dk true dst then fail .align dst 0
  if hasS && wordMisaligned sk false src then fail .align src 1
  if hasD && rangePast dk dst len then fail .range dst 0
  if hasS && rangePast sk src len then fail .range src 1
  needHeld s (if hasD && dk = 1 then omSlots dst len else [])
  needHeld s (if hasS && sk = 1 then omSlots src len else [])
  if hasS && sk = 3 then
    match (s.core s.cur.core).winLen (bits src 32 3) with
    | none => fail .range src 1
    | some n => if n < bits src 0 32 + len then fail .range src 1

/-- Scratchpad bytes of its own core that an address word of kind SP covers. -/
def ownSp (kind : Nat) (w : Word) (len core : Nat) : List (Nat × Nat) :=
  if kind = 0 && (spPlace w core).1 = core && len ≠ 0 then [(bits w 0 19, bits w 0 19 + len)] else []

/-- Slots that an address word of kind OM covers. -/
def ownOm (kind : Nat) (w : Word) (len : Nat) : List Nat := if kind = 1 then omSlots w len else []

/-! ### CPY (R318-R321) -/

/-- LEN, source kind, destination kind and GRAN of a control word (R318). -/
def cpyLen (ctl : Word) : Nat := bits ctl 0 26
/-- SK. -/
def cpySk (ctl : Word) : Nat := bits ctl 36 2
/-- DK. -/
def cpyDk (ctl : Word) : Nat := bits ctl 40 2
/-- GRAN. -/
def cpyGran (ctl : Word) : Nat := bits ctl 44 4

/-- `CPY` and `CPY.G` are accepted (R314, R318, R320). -/
def copyCmd (i : Instr) (x : XReg) (g : Bool) : State → Out :=
  run 4 fun s => do
    let c := s.cur
    if 5 < x.toNat then throw (.fault ⟨.undef, c.pc, encInfo (encode i)⟩)
    needAcq c
    let dst := c.xVal x
    let src := c.xAt x 1
    let ctl := c.xAt x 2
    let len := cpyLen ctl
    let reserved := bits ctl 48 16 ≠ 0 || bits ctl 42 2 ≠ 0 || bits ctl 38 2 ≠ 0 || bits ctl 26 10 ≠ 0
    copyCheck s ctl dst src reserved (len % 64 ≠ 0) len (cpyDk ctl) (cpySk ctl) true true
    let q := if cpySk ctl = 3 || g then 1 else 0
    let cmd := { s.newCmd q (.cpy dst src ctl) with
      rdSp := ownSp (cpySk ctl) src len c.core, wrSp := ownSp (cpyDk ctl) dst len c.core
      rdOm := ownOm (cpySk ctl) src len, wrOm := ownOm (cpyDk ctl) dst len }
    enqueue s q cmd id (c.advance 4)

/-- `CPY` (R318). -/
def execCpy (x : XReg) (s : State) : Out := copyCmd (.cpy x) x false s
/-- `CPY.G` (R318). -/
def execCpyG (x : XReg) (s : State) : Out := copyCmd (.cpyG x) x true s

/-! ### Units -/

/-- Bytes of one unit of the scratchpad, and whether it is poisoned. -/
def Core.spUnit (k : Core) (a : Nat) : List Byte × Bool := (k.sp.read a 64, k.spPoison.contains (a / 64))
/-- Bytes of one unit of operand memory. -/
def Core.omUnit (k : Core) (a : Nat) : List Byte × Bool := (k.om.read a 64, k.omPoison.contains (a / 64))
/-- Writes one unit of the scratchpad with its poison (R316). -/
def Core.spPut (k : Core) (a : Nat) (d : List Byte) (p : Bool) : Core :=
  { k with sp := k.sp.write a d, spPoison := NatSet.put k.spPoison (a / 64) p }
/-- Writes one unit of operand memory with its poison. -/
def Core.omPut (k : Core) (a : Nat) (d : List Byte) (p : Bool) : Core :=
  { k with om := k.om.write a d, omPoison := NatSet.put k.omPoison (a / 64) p }

/-- An address word advanced by an offset. -/
def wordAt (w : Word) (off : Nat) : Word := w + BitVec.ofNat 64 off

/-- A ring fault (R327): reason in bits 7:5, 0 for fault 0x32. -/
def ringFault (cause : Cause) (k : Core) (r : Nat) (free : Bool) (reason : Nat) (held : Bool) : FaultRec :=
  let (base, h, t) := match k.rings.find? r with | some x => (x.base, x.head, x.tail) | none => (0, 0, 0)
  ⟨cause, BitVec.ofNat 64 base,
    BitVec.ofNat 64 (r + (if free then 16 else 0) + reason * 32 + h * 2 ^ 8 + t * 2 ^ 16 + if held then 2 ^ 30 else 0)⟩

/-- Whether a copy's source lies beyond the memories of its engine's core: its units are asked for line by line, ahead of their writes
(R320). -/
def cpyFar (src ctl : Word) (core : Nat) : Bool :=
  match cpySk ctl with
  | 0 => (spPlace src core).1 != core
  | 1 => false
  | _ => true

/-- Units that a copy can move: to its end, or to its next split point while a pre-emption is in force (R321). -/
def State.unitLimit (s : State) (x : Cmd) (ctl : Word) : Nat :=
  let g := cpyGran ctl * 64
  if g ≠ 0 && s.stopping x.gang then min (cpyLen ctl / 64) ((x.unit / g + 1) * g) else cpyLen ctl / 64

/-- The element of a window that a unit of a gather lies in: its number, its size, and the address of the unit, none when the index
names no row (R324). -/
def State.element (s : State) (core : Nat) (src : Word) (unit : Nat) : Nat × Nat × Option Nat :=
  let o := bits src 0 32 + 64 * unit
  match (s.core core).windows.find? (bits src 32 3) with
  | none => (0, 64, none)
  | some g =>
    let size := 64 * 2 ^ g.rsz
    let j := (g.idx[o / size]?).getD 0
    (o / size, size, if g.rcnt ≤ j then none else some (g.tbase + j * size + o % size))

/-- The unit that a command is at has been written: it goes on with the next, stops at a split point while a pre-emption is in force
(R321), or completes, or fails for its missing elements (R324). -/
def State.unitDone (s : State) (core q : Nat) (x : Cmd) : State :=
  match x.op with
  | .cpy _ _ ctl =>
    let n := (x.unit + 1) * 64
    let x1 := { x with unit := x.unit + 1, hold := {}, ahead := x.ahead.erase x.unit }
    if cpyLen ctl ≤ n then
      if x.missing ≠ 0 then s.failCmd core q x1 .gather x.missAddr x.missing else s.finishCmd core q x1
    else if cpyGran ctl ≠ 0 && n % (cpyGran ctl * 4096) = 0 && s.stopping x.gang then
      s.setHead core q { x1 with started := false, asked := x.unit + 1, ahead := [] }
    else
      let quick := cpySk ctl < 2 && cpyDk ctl < 2 && (x.unit + 1) % 8 ≠ 0
      (s.setHead core q x1).engNext core q x.id (if quick then s.now else s.now + 1)
  | _ => s

/-- The piece of a ring that a copy fills is whole once its last unit has been performed (R329). -/
def State.pieceDone (s : State) (core q : Nat) (x : Cmd) (dst : Word) (size : Nat) : State :=
  if (x.unit + 1) * 64 % size = 0 then
    let (rc, _) := spPlace dst core
    (s.setHead core q { x with ringSlot := none }).at_ (s.now + latency core rc) (rankRing + core) .engineUnit
      { die := rc, id := core, idx := q, sub := x.id, n := 5 }
  else s.unitDone core q x

/-- The slot size of the ring that an address word names. -/
def State.ringSize (s : State) (dst : Word) (core : Nat) : Nat :=
  (((s.core (spPlace dst core).1).rings.find? (bits dst 0 4)).map (·.size)).getD 64

/-- The unit that a command wrote has been performed (R320, R329). -/
def State.written (s : State) (core q : Nat) (x : Cmd) : State :=
  match x.op with
  | .cpy dst _ ctl => if cpyDk ctl = 3 then s.pieceDone core q x dst (s.ringSize dst core) else s.unitDone core q x
  | _ => s

/-- The write of the unit that a command holds has set out. -/
def Cmd.setOut (x : Cmd) : Cmd := { x with hold := { x.hold with writing := true } }

/-- A unit is written to a core's scratchpad: on the engine's own core as soon as its bank is free, by a message on another (R315). -/
def State.putSp (s : State) (core q : Nat) (x : Cmd) (into addr : Nat) (d : List Byte) (p : Bool) : State :=
  if into = core then
    (s.engineWrite core addr 64 x.gang).gate core q x fun s => (s.modCore core fun k => k.spPut addr d p).written core q x
  else if s.cut core into then s.cutOff x.gang
  else
    (s.setHead core q x.setOut).at_ (s.now + latency core into + 1) core .remoteSpWrite
      { die := into, id := core, idx := q, sub := x.id, v := BitVec.ofNat 64 addr, data := d, flag := p, gen := x.gang }

/-- Writes the unit that a command holds (R320). -/
def State.putUnit (s : State) (core q : Nat) (x : Cmd) : State :=
  match x.op with
  | .cpy dst _ ctl =>
    let off := x.unit * 64
    let d := x.hold.data
    let p := x.hold.poison
    match cpyDk ctl with
    | 0 => let (into, a) := spPlace dst core; s.putSp core q x into (a + off) d p
    | 1 => (s.modCore core fun k => k.omPut (bits dst 0 18 + off) d p).written core q x
    | 2 =>
      match engXlat s core q x (wordAt dst off) true (.engWrite q x.id (d.map some) p) with
      | .send r => (s.setHead core q x.setOut).send r
      | .held t => t
      | .fault f => s.failCmd core q x f (wordAt dst off) 0
    | _ =>
      match x.ringSlot with
      | some a => s.putSp core q x (spPlace dst core).1 (a + off % s.ringSize dst core) d p
      | none =>
        -- the piece needs a free slot first (R329)
        let (rc, _) := spPlace dst core
        if s.cut core rc then s.cutOff x.gang
        else (s.setHead core q x.setOut).at_ (s.now + latency core rc) (rankRing + core) .engineUnit
          { die := rc, id := core, idx := q, sub := x.id, n := 3 }
  | _ => s

/-- A command holds a unit and writes it. -/
def State.holdUnit (s : State) (core q : Nat) (x : Cmd) (d : List Byte) (p : Bool) : State :=
  let x1 := { x with hold := { data := d, poison := p, have_ := true } }
  (s.setHead core q x1).putUnit core q x1

/-- The element of a gather that the unit belongs to is missing (R324): its units are written poisoned.
(DESIGN CHOICE, log 49) -/
def State.missingUnit (s : State) (core q : Nat) (x : Cmd) (w elem rsz off : Nat) : State :=
  let addr := BitVec.ofNat 64 (w * 2 ^ 32 + elem * rsz)
  let x1 := if x.missLast = some elem then x
    else { x with missing := x.missing + 1, missLast := some elem, missAddr := if x.missing = 0 then addr else x.missAddr }
  s.holdUnit core q x1 (leBytes 64 (Config.missing core x.id off).toNat) true

/-! ### Reading ahead (R320)

A unit of a source in main memory or on another core is asked for before the units below it have been written, unless it lies where one of
those is still to be written. (DEDUCED, log 17) -/

/-- The line of main memory at a virtual address of a core, when its TLB knows it: a kind of place and an address. -/
def State.linePlace (s : State) (core : Nat) (va : Word) : Option (Nat × Nat) :=
  (tlbFind (s.core core) (vpnOf va)).map fun e => (2000, leafPa e.leaf va / 64)

/-- The place of a unit of a copy's source, when it is known. -/
def State.srcPlace (s : State) (core : Nat) (src ctl : Word) (unit : Nat) : Option (Nat × Nat) :=
  match cpySk ctl with
  | 0 => some ((spPlace src core).1, (spPlace src core).2 + 64 * unit)
  | 1 => some (1000, bits src 0 18 + 64 * unit)
  | 2 => s.linePlace core (wordAt src (64 * unit))
  | _ => (s.element core src unit).2.2.bind fun a => s.linePlace core (BitVec.ofNat 64 a)

/-- The place of a unit of a copy's destination, when it is known: of a ring, that it is none of the source's when the source is not
a scratchpad. -/
def State.dstPlace (s : State) (core : Nat) (dst ctl : Word) (unit : Nat) : Option (Nat × Nat) :=
  match cpyDk ctl with
  | 0 => some ((spPlace dst core).1, (spPlace dst core).2 + 64 * unit)
  | 1 => some (1000, bits dst 0 18 + 64 * unit)
  | 2 => s.linePlace core (wordAt dst (64 * unit))
  | _ => if cpySk ctl = 0 then none else some (3000, 0)

/-- Whether a unit must not be asked for yet, since one of those below it is to be written where it lies; the units of the element that a
gather is at are read before any of them is written (R324). -/
def State.unitClash (s : State) (core : Nat) (x : Cmd) (dst src ctl : Word) (v : Nat) : Bool :=
  !(cpySk ctl = 3 && (s.element core src v).1 == (s.element core src x.unit).1) &&
    (List.range (v - x.unit)).any fun i =>
      match s.dstPlace core dst ctl (x.unit + i) with
      | none => true
      | some p => s.srcPlace core src ctl v == some p

/-- The unit that a copy asks for next, if it asks for one now: at most 64 accesses are in flight. -/
def State.nextAsk (s : State) (core : Nat) (x : Cmd) (dst src ctl : Word) : Option Nat :=
  let flying := (x.ahead.filter fun u => !u.2.have_).length + if x.hold.writing then 1 else 0
  let from_ := max x.asked x.unit
  let lim := min (s.unitLimit x ctl) (x.unit + 64)
  if 64 ≤ flying || (cpySk ctl ≠ 3 && x.ahead.any fun u => u.2.fail.isSome) then none
  else (((List.range (lim - from_)).map (from_ + ·)).find? fun v => cpySk ctl ≠ 3 || (s.element core src v).2.2.isSome).filter fun v =>
    !s.unitClash core x dst src ctl v

/-- A copy asks for its next unit, one in a cycle (R320). -/
def State.askUnit (s : State) (core q : Nat) (x : Cmd) : State :=
  match x.op with
  | .cpy dst src ctl =>
    match (if cpyFar src ctl core && decide (x.askAt ≤ s.now) then s.nextAsk core x dst src ctl else none) with
    | none => s
    | some v =>
      let sent (u : UnitSt) : State :=
        (s.setHead core q { x with asked := v + 1, askAt := s.now + 1, ahead := x.ahead.set v u }).engNext core q x.id (s.now + 1)
      match cpySk ctl with
      | 0 =>
        let (from_, a) := spPlace src core
        if s.cut core from_ then s.cutOff x.gang
        else (sent {}).at_ (s.now + latency core from_ + 1) core .engineUnit
          { die := from_, id := core, idx := q, sub := x.id, n := 1, v := BitVec.ofNat 64 (a + 64 * v), gen := v }
      | k =>
        let va := if k = 2 then wordAt src (64 * v) else BitVec.ofNat 64 ((s.element core src v).2.2.getD 0)
        match engXlat s core q x va false (.engRead q x.id v 64) with
        | .send r => (sent {}).send r
        | .held t => t
        | .fault c => sent { have_ := true, fail := some c }
  | _ => s

/-- A copy takes the unit that it is at from those that it has asked for: a failure stops it (R317). An element of a gather is written once
all its units are there, since every unit of a missing one is written poisoned (R324). -/
def State.takeUnit (s : State) (core q : Nat) (x : Cmd) : State :=
  match x.op with
  | .cpy _ src ctl =>
    let mine := x.ahead.find? x.unit
    if cpySk ctl = 3 then
      let (i, size, a) := s.element core src x.unit
      let o := bits src 0 32 + 64 * x.unit
      let rest := (List.range (min ((size - o % size) / 64) (s.unitLimit x ctl - x.unit))).map fun n => x.ahead.find? (x.unit + n)
      if a.isNone || x.missLast = some i then s.missingUnit core q x (bits src 32 3) i size o
      else if !rest.all fun u => u.any (·.have_) then s
      else if rest.any fun u => u.any (·.fail.isSome) then s.missingUnit core q x (bits src 32 3) i size o
      else match mine with
        | some u => s.holdUnit core q x u.data u.poison
        | none => s
    else match mine.filter (·.have_) with
      | some u =>
        (match u.fail with
          | some c => s.failCmd core q x c (wordAt src (64 * x.unit)) 0
          | none => s.holdUnit core q x u.data u.poison)
      | none => s
  | _ => s

/-- Reads the unit that a command is at (R320, R324). -/
def State.getUnit (s : State) (core q : Nat) (x : Cmd) : State :=
  match x.op with
  | .cpy _ src ctl =>
    if cpyFar src ctl core then s.takeUnit core q x
    else if cpySk ctl = 0 then
      let a := (spPlace src core).2 + 64 * x.unit
      (s.engineRead core a 64).gate core q x fun s =>
        let (d, p) := (s.core core).spUnit a
        s.holdUnit core q x d p
    else
      let (d, p) := (s.core core).omUnit (bits src 0 18 + 64 * x.unit)
      s.holdUnit core q x d p
  | _ => s

/-- A copy goes on: it asks for a unit ahead, and writes the unit that it holds, or reads the one that it is at.
(DEDUCED, log 17) -/
def State.cpyGo (s : State) (core q : Nat) (x : Cmd) : State :=
  let s1 := s.askUnit core q x
  match (s1.head core q).filter fun y => y.id == x.id with
  | some y => if !y.hold.have_ then s1.getUnit core q y else if y.hold.writing then s1 else s1.putUnit core q y
  | none => s1

/-- The data of a unit that a copy has asked for is there, or its read has failed (R237, R317, R324). -/
def State.gotUnit (s : State) (core q : Nat) (x : Cmd) (unit : Nat) (u : UnitSt) : State :=
  match (x.ahead.find? unit).filter fun y => !y.have_ with
  | some _ =>
    let x1 := { x with ahead := x.ahead.set unit { u with have_ := true } }
    (s.setHead core q x1).cpyGo core q x1
  | none => s

/-- A write of a copy to main memory has failed (R237, R317). -/
def State.putFail (s : State) (core q : Nat) (x : Cmd) (c : Cause) : State :=
  match x.op with
  | .cpy dst _ _ => s.failCmd core q x c (wordAt dst (64 * x.unit)) 0
  | _ => s

/-- No entry came for the page that a copy waits for (R244): its write fails, or the read of the unit that it would ask for. -/
def State.cpyAbsent (s : State) (core q : Nat) (x : Cmd) (vpn : Nat) : State :=
  match x.op with
  | .cpy dst src ctl =>
    if x.hold.have_ && !x.hold.writing && cpyDk ctl = 2 && vpnOf (wordAt dst (64 * x.unit)) = vpn then s.putFail core q x .absent
    else
      match s.nextAsk core x dst src ctl with
      | some v =>
        let va := if cpySk ctl = 2 then wordAt src (64 * v) else BitVec.ofNat 64 ((s.element core src v).2.2.getD 0)
        if vpnOf va = vpn then
          let x1 := { x with asked := v + 1, ahead := x.ahead.set v { have_ := true, fail := some .absent } }
          (s.setHead core q x1).cpyGo core q x1
        else s
      | none => s
  | _ => s

/-- A copy starts (R320, R329): one of no bytes completes. -/
def State.cpyStart (s : State) (core q : Nat) (x : Cmd) : State :=
  match x.op with
  | .cpy _ _ ctl => if cpyLen ctl = 0 then s.finishCmd core q x else s.cpyGo core q x
  | _ => s

/-- A remote engine write is performed at its target core `arg.die` (R315): it waits while a command there holds an overlapping
range, and for its bank. One that would have crossed an edge that has failed is discarded (R411). -/
def execRemoteSpWrite (s : State) : Out :=
  let a := s.arg
  let k := s.core a.die
  let r := (a.v.toNat, a.v.toNat + 64)
  if s.cut a.id a.die then .next (s.cutOff a.gen)
  else if k.cmds.any fun x => (x.rdSp ++ x.wrSp).any (overlap r) then .next (s.at_ (s.now + 1) a.id .remoteSpWrite a)
  else
    match s.engineWrite a.die a.v.toNat 64 a.gen with
    | .error (t, time, rank) => .next (t.at_ time (if rank = rankAfter then rankAfter else a.id) .remoteSpWrite a)
    | .ok t =>
      .next ((t.modCore a.die fun k => k.spPut a.v.toNat a.data a.flag).at_ (s.now + latency a.die a.id) rankWork .engineUnit
        { id := a.id, idx := a.idx, sub := a.sub, n := 6 })

/-- A remote read of a scratchpad unit at core `arg.die`: it waits while a command there still writes the unit, and for its bank. -/
def State.remoteRead (s : State) (a : EvArg) : State :=
  let k := s.core a.die
  let r := (a.v.toNat, a.v.toNat + 64)
  if s.cut a.id a.die then
    match s.head a.id a.idx with
    | some x => s.cutOff x.gang
    | none => s
  else if k.cmds.any fun x => x.stillWr.any (overlap r) then s.at_ (s.now + 1) a.id .engineUnit a
  else
    match s.engineRead a.die a.v.toNat 64 with
    | .error (t, time, _) => t.at_ time a.id .engineUnit a
    | .ok t =>
      let (d, p) := k.spUnit a.v.toNat
      t.at_ (s.now + latency a.die a.id) rankWork .engineUnit { id := a.id, idx := a.idx, sub := a.sub, n := 2, data := d, flag := p, gen := a.gen }

/-- The command of an engine of core `c` learns of a ring failure at core `core` (R317, R327). -/
def State.ringFails (s : State) (core c q id : Nat) (f : FaultRec) : State :=
  s.at_ (s.now + latency core c) rankWork .engineUnit { id := c, idx := q, sub := id, n := 11, v := f.addr, gen := f.info.toNat }

/-- A copy takes a free slot of the ring that it fills, at the ring's core `arg.die` (R329): it fails if the ring is undefined, with reason 2,
or its length is not a multiple of the slot size, with reason 5, and waits without a limit while no slot is free. -/
def State.ringAsk (s : State) (a : EvArg) : State :=
  match (s.head a.id a.idx).filter fun x => x.id == a.sub with
  | none => s
  | some x =>
    match x.op with
    | .cpy dst _ ctl =>
      let r := bits dst 0 4
      let k := s.core a.die
      match k.rings.find? r with
      | none => s.ringFails a.die a.id a.idx a.sub (ringFault .range k r true 2 false)
      | some y =>
        if x.unit = 0 && cpyLen ctl % y.size ≠ 0 then s.ringFails a.die a.id a.idx a.sub (ringFault .range k r true 5 false)
        else
          let s1 := s.setCore a.die { k with ringWaits := k.ringWaits ++ [(r, true, .engine a.id a.idx)] }
          ((s1.setHead a.id a.idx { x with ringWait := some (a.die, r) }).ringChanged a.die r)
    | _ => s

/-- The slot that a copy has waited for is its own: it writes the unit that it holds there (R329). -/
def State.slotGiven (s : State) (core q : Nat) (x : Cmd) (a : Nat) : State :=
  let x1 := { x with ringSlot := some a, ringWait := none, hold := { x.hold with writing := false } }
  (s.setHead core q x1).putUnit core q x1

/-- A piece is posted at the ring's core (R329), and the copy goes on when it knows. -/
def State.ringPost (s : State) (a : EvArg) : State :=
  match (s.head a.id a.idx).filter fun x => x.id == a.sub with
  | none => s
  | some x =>
    match x.op with
    | .cpy dst _ _ =>
      let r := bits dst 0 4
      let s1 := match (s.core a.die).rings.find? r with
        | some y => s.postRing a.die r y true 1
        | none => s
      s1.at_ (s1.now + latency a.die a.id) rankWork .engineUnit { id := a.id, idx := a.idx, sub := a.sub, n := 7 }
    | _ => s

/-! ### Gather windows (R322, R323) -/

/-- `GWIN` is accepted (R322): the window counts as bound. (DEDUCED, log 83) -/
def execGwin (w : BitVec 3) (x : XReg) (s : State) : Out :=
  run 4 (fun s => do
    let c := s.cur
    if 6 < x.toNat then throw (.fault ⟨.undef, c.pc, encInfo (encode (.gwin w x))⟩)
    needAcq c
    let a := c.xVal x
    let b := c.xAt x 1
    let k := s.core c.core
    let fail (f : Cause) (v : Word) (second : Bool) : Except Stop Unit :=
      .error (.fault ⟨f, v, BitVec.ofNat 64 (w.toNat + if second then 256 else 0)⟩)
    let rsz := bits a 48 3
    let n := bits b 20 11 + 1
    let i := bits b 0 19
    if bits a 51 13 ≠ 0 || rsz = 7 || (k.bound.find? w.toNat).isSome then fail .range a false
    if bits a 0 48 % (64 * 2 ^ rsz) ≠ 0 then fail .align a false
    if b.getLsbD 31 || b.getLsbD 19 || 0x60000 < i + 4 * n then fail .range b true
    if i % 4 ≠ 0 then fail .align b true
    let cmd := { s.newCmd 1 (.gwin w.toNat a b) with rdSp := [(i, i + 4 * n)] }
    enqueue s 1 cmd (fun k => { k with bound := k.bound.set w.toNat (rsz, n, c.ident.gang) }) (c.advance 4)) s

/-- Indices that `n` words of the scratchpad hold. -/
def Core.indices (k : Core) (a n : Nat) : List Nat := (List.range n).map fun i => k.sp.readN (a + 4 * i) 4

/-- A `GWIN` completes: it has copied its indices (R322). -/
def State.gwinDone (s : State) (core : Nat) (x : Cmd) : State :=
  match x.op with
  | .gwin w a b =>
    let n := bits b 20 11 + 1
    let k := s.core core
    let g : GWindow := { rsz := bits a 48 3, tbase := bits a 0 48, rcnt := bits b 32 32, nidx := n
                         idx := k.indices (bits b 0 19) n, gang := x.gang }
    (s.setCore core { k with windows := k.windows.set w g }).finishCmd core 1 x
  | .gunb w => (s.modCore core fun k => { k with windows := k.windows.erase w }).finishCmd core 1 x
  | _ => s

/-- `GUNB` is accepted (R323): the window counts as unbound. (DESIGN CHOICE, log 10) -/
def gunb (w : Nat) : State → Out :=
  run 4 fun s => do
    let c := s.cur
    needAcq c
    if ((s.core c.core).bound.find? w).isNone then throw (.fault ⟨.range, BitVec.ofNat 64 w, BitVec.ofNat 64 w⟩)
    enqueue s 1 (s.newCmd 1 (.gunb w)) (fun k => { k with bound := k.bound.erase w }) (c.advance 4)

/-- `GUNB 0` (R323). -/
def execGunb0 (s : State) : Out := gunb 0 s
/-- `GUNB 1` (R323). -/
def execGunb1 (s : State) : Out := gunb 1 s
/-- `GUNB 2` (R323). -/
def execGunb2 (s : State) : Out := gunb 2 s
/-- `GUNB 3` (R323). -/
def execGunb3 (s : State) : Out := gunb 3 s
/-- `GUNB 4` (R323). -/
def execGunb4 (s : State) : Out := gunb 4 s
/-- `GUNB 5` (R323). -/
def execGunb5 (s : State) : Out := gunb 5 s
/-- `GUNB 6` (R323). -/
def execGunb6 (s : State) : Out := gunb 6 s
/-- `GUNB 7` (R323). -/
def execGunb7 (s : State) : Out := gunb 7 s

/-! ### Rings (R326-R329) -/

/-- Fault 0x06 of a ring. -/
def badRing (k : Core) (r : Nat) (free : Bool) (reason : Nat) : Stop := .fault (ringFault .range k r free reason false)

/-- The descriptor of `RDEF`, or none where it is invalid (R326, R327). -/
def ringOf (a b : Word) : Option Ring :=
  let n := bits a 40 8 + 1
  let ssz := bits a 36 3
  let size := 64 * 2 ^ ssz
  let base := bits a 0 19
  let gov := b.getLsbD 63
  let high := bits b 40 8
  let low := bits b 32 8
  let bad := bits a 48 16 ≠ 0 || a.getLsbD 39 || bits a 19 17 ≠ 0 || ssz = 7 || base % size ≠ 0 || 0x60000 < base + n * size
    || (if gov then bits b 48 15 ≠ 0 || bits b 30 2 ≠ 0 || bits b 14 2 ≠ 0 || high ≤ low || n < high else b ≠ 0)
  if bad then none
  else some { base := base, size := size, count := n, free := n, filled := 0, head := 0, tail := 0, gov := gov, high := high
              low := low, prod := bits b 0 14, cons := bits b 16 14 }

/-- `RDEF` (R326). -/
def execRdef (r : BitVec 4) (x : XReg) (s : State) : Out :=
  run 4 (fun s => do
    let c := s.cur
    if 6 < x.toNat then throw (.fault ⟨.undef, c.pc, encInfo (encode (.rdef r x))⟩)
    let k := s.core c.core
    if (k.rings.find? r.toNat).isSome then throw (badRing k r.toNat false 1)
    match ringOf (c.xVal x) (c.xAt x 1) with
    | none => throw (badRing k r.toNat false 3)
    | some y => .ok ((s.setCore c.core { k with rings := k.rings.set r.toNat y }).setCur (c.advance 4))) s

/-- What `RDEF.OFF` does to one that waits on the ring (R326), with the ring as it stood: a strand faults, an engine's command fails.
(DEDUCED, log 43) -/
def State.ringGone (s : State) (core : Nat) (f : FaultRec) (w : Waiter) : State :=
  match w with
  | .strand g => s.pendUpcall g f 4
  | .engine c q =>
    match s.head c q with
    | some x => s.ringFails core c q x.id f
    | none => s
  | _ => s

/-- `RDEF.OFF` (R326). -/
def execRdefOff (r : BitVec 4) (s : State) : Out :=
  run 4 (fun s => do
    let c := s.cur
    let k := s.core c.core
    if (k.rings.find? r.toNat).isNone then throw (badRing k r.toNat false 2)
    let ws := k.ringWaits.filter fun w => w.1 == r.toNat
    let s1 := (s.setCore c.core { k with
      rings := k.rings.erase r.toNat, ringWaits := k.ringWaits.filter fun w => w.1 != r.toNat }).setCur (c.advance 4)
    .ok (ws.foldl (fun s w => s.ringGone c.core (ringFault .range k r.toNat w.2.1 2 false) w.2.2) s1)) s

/-- `RTAKE.D` and `RTAKE.F` (R328). -/
def rtake (free : Bool) (d : SReg) (r : BitVec 4) (lim : BitVec 10) : State → Out :=
  run 4 fun s => do
    let c := s.cur
    let k := s.core c.core
    needFree c (.s d)
    match k.rings.find? r.toNat with
    | none => throw (badRing k r.toNat free 2)
    | some x =>
      if ringReady k s.curId r.toNat free then
        let (y, a) := x.take free
        let k1 := { k with ringWaits := k.ringWaits.filter fun w => w.2.2 != .strand s.curId }
        .ok ((((s.setCore c.core k1).setRing c.core r.toNat x y).setCur
          ((c.writeS d (BitVec.ofNat 64 a)).advance 4)).ringChanged c.core r.toNat)
      else
        let k1 := if k.ringWaits.any fun w => w.2.2 == .strand s.curId then k
          else { k with ringWaits := k.ringWaits ++ [(r.toNat, free, .strand s.curId)] }
        .ok ((s.setCore c.core k1).waitFor s.curId (.ring r.toNat free) (c.lim10 lim) 4)

/-- `RTAKE.D` (R328). -/
def execRtakeD (d : SReg) (r : BitVec 4) (lim : BitVec 10) (s : State) : Out := rtake false d r lim s
/-- `RTAKE.F` (R328). -/
def execRtakeF (d : SReg) (r : BitVec 4) (lim : BitVec 10) (s : State) : Out := rtake true d r lim s

/-- The limit of an `RTAKE` ends (R328), of strand `arg.id` since cycle `arg.sub`. -/
def execRtakeExpiry (s : State) : Out :=
  let core := (s.strand s.arg.id).core
  .next (s.expire s.arg.id s.arg.sub
    (fun k => match k with | .ring r m => some (ringFault .ringLimit (s.core core) r m 0 false) | _ => none)
    (fun c s =>
      let s1 := s.modCore c.core fun k => { k with ringWaits := k.ringWaits.filter fun w => w.2.2 != .strand s.arg.id }
      (List.range 16).foldl (fun s r => s.ringChanged c.core r) s1))

/-- `RPOST.D` and `RPOST.F` (R329). -/
def rpost (filled : Bool) (r : BitVec 4) (a : SReg) (la : Bool) : State → Out :=
  run 4 fun s => do
    let c := s.cur
    let n ← readS c a
    let k := s.core c.core
    match k.rings.find? r.toNat with
    | none => throw (badRing k r.toNat (!filled) 2)
    | some x =>
      if 256 < n.toNat || x.count < x.free + x.filled + n.toNat then throw (badRing k r.toNat (!filled) 4)
      let go : Except Stop State :=
        .ok ((s.setCur ((c.markS a la).advance 4)).postRing c.core r.toNat x filled n.toNat)
      if filled then release s .writes go else go

/-- `RPOST.D` (R329): a release. -/
def execRpostD (r : BitVec 4) (a : SReg) (la : Bool) (s : State) : Out := rpost true r a la s
/-- `RPOST.F` (R329). -/
def execRpostF (r : BitVec 4) (a : SReg) (la : Bool) (s : State) : Out := rpost false r a la s

/-- A strand access held behind a command that waits for ring slots has used up `ctl.wlim` (R206), of strand `arg.id` since cycle
`arg.sub`, in its slot or out of it: if a command of its core still waits for the ring that held it last, it faults. -/
def execHeldAccessExpiry (s : State) : Out :=
  let g := s.arg.id
  let c := s.strand g
  if c.heldSince = some s.arg.sub then
    let (rc, r) := c.heldRing
    if (s.core c.core).cmds.any fun x => x.ringWait == some (rc, r) then
      .next ((s.modStrand g fun c => { c with heldSince := none }).pendUpcall g (ringFault .ringLimit (s.core rc) r true 0 true) c.heldLen)
    else .next (s.modStrand g fun c => { c with heldSince := none })
  else .next s

/-! ### Joining the queues (R330, R331) -/

/-- `QFENCE` (R330): later commands in the after-set wait for the unfinished earlier ones in the before-set. -/
def execQfence (before after : BitVec 4) (s : State) : Out :=
  run 4 (fun s =>
    let c := s.cur
    let ids := ((List.range 4).filter fun q => before.getLsbD q).flatMap fun q =>
      s.cores.flatMap fun (_, k) => ((k.queue q).filter fun x => x.strand == s.curId).map (·.id)
    let old := c.qfences.filter fun f => f.2.any s.pending
    let fs := if ids.isEmpty || after = 0 then old else old ++ [(after, ids.foldl NatSet.add [])]
    .ok (s.setCur ({ c with qfences := fs }.advance 4))) s

/-- Failures that a `QWAIT` of a set of queues meets, earliest first (R317). -/
def State.failsOf (s : State) (g : Nat) (set : BitVec 4) : List (Nat × CmdFail) :=
  s.cores.flatMap fun (_, k) => k.cmdFails.filter fun (_, f) => f.strand == g && set.getLsbD f.queue

/-- `QWAIT` (R331). -/
def qwait (len : Nat) (set : BitVec 4) (lim : Strand → Option Nat) : State → Out :=
  run len fun s => do
    let c := s.cur
    if set ≠ 0 && !s.queuesDone s.curId set then throw (.wait (.queues set) (lim c))
    match s.failsOf s.curId set with
    | [] => .ok (s.setCur (c.advance len))
    | f :: t =>
      let (id, x) := t.foldl (fun (a b : Nat × CmdFail) => if b.1 < a.1 then b else a) f
      throw (.failCmd id x.fault)

/-- `QWAIT`, 32-bit (R331). -/
def execQwait (set : BitVec 4) (lim : BitVec 10) (s : State) : Out := qwait 4 set (fun c => c.lim10 lim) s
/-- `QWAIT`, 16-bit (R331): its limit is `ctl.wlim`. -/
def execQwait16 (set : BitVec 4) (s : State) : Out := qwait 2 set (fun c => c.wlim) s

/-- The limit of a `QWAIT` ends (R331), of strand `arg.id` since cycle `arg.sub`: the fault names the queues not yet drained. -/
def execQwaitExpiry (s : State) : Out :=
  let g := s.arg.id
  .next (s.expire g s.arg.sub
    (fun k => match k with
      | .queues set =>
        some ⟨.ringLimit, 0, BitVec.ofNat 64 (2 ^ 31 +
          (((List.range 4).filter fun q => set.getLsbD q && !s.queueDone g q).map (2 ^ ·)).sum)⟩
      | _ => none) (fun _ s => s))

end Sys2Proof.Machine
end

