-- ==== Sys2Proof/Machine/Home.lean ====
section
/-! DEFINITION. Homes: requests at their port (R225-R229, R238, R254, R261), conflict checks (R282-R287), waiter queues and the
fetch rule (R230-R233), arrival and eviction (R234-R237), and refresh, elision and patrol (R247-R250). -/

namespace Sys2Proof.Machine

/-! ### Words and lines of main memory -/

/-- The 8-byte word at a physical address. -/
def State.word (s : State) (pa : Nat) : Word := BitVec.ofNat 64 (s.mem.readN pa 8)

/-- The word that an atomic writes and the flags it raises (R264). -/
def amoVal (fn : AmoFn) (w v : Word) : Word × BitVec 6 :=
  match fn with
  | .add => (w + v, 0)
  | .and => (w &&& v, 0)
  | .or => (w ||| v, 0)
  | .xor => (w ^^^ v, 0)
  | .min => (if v.slt w then v else w, 0)
  | .max => (if w.slt v then v else w, 0)
  | .swap => (v, 0)
  | .fadd =>
    let r := FF.f64.addV { rm := .rne } (FF.f64.val w.toNat) (FF.f64.val v.toNat)
    (BitVec.ofNat 64 r.bits, r.fl)

/-- The function of a reduction as an atomic's (R266). -/
def redFn : RedFn → AmoFn
  | .add => .add | .and => .and | .or => .or | .xor => .xor | .min => .min | .max => .max | .fadd => .fadd

/-- Bytes with those that are given put over the old ones. -/
def overlay : List Byte → List (Option Byte) → List Byte
  | b :: bs, o :: os => o.getD b :: overlay bs os
  | bs, _ => bs

/-- Writes the given ones of consecutive bytes. -/
def State.storeBytes (s : State) (pa : Nat) (d : List (Option Byte)) : State :=
  { s with mem := s.mem.write pa (overlay (s.mem.read pa d.length) d) }

/-- A table, if one holds the address, and the record in it that does (R169): the node table of the lowest die first.
(DEDUCED, log 39) -/
def tableAt (s : State) (pa : Nat) : Option (Nat × Nat) :=
  (List.range 4).findSome? fun d =>
    let b := (s.die d).ntbase.toNat
    if b ≤ pa && pa < b + 2 ^ 21 then some (d, (pa - b) / 128) else none

/-- The dispatcher word among the bytes of one line that a write covers (R172): its address, die, node, and whether it is a
STATUS word. -/
def dispWord (s : State) (pa n : Nat) : Option (Nat × Nat × Nat × Bool) :=
  let w := pa / 64 * 64 + 0x28
  if pa < w + 8 && w < pa + n then
    (tableAt s w).map fun (d, k) => (w, d, k, (w - (s.die d).ntbase.toNat) % 128 == 0x68)
  else none

/-- A line is dirty in its block's frame (R233). -/
def Home.touch (x : Home) (pa : Nat) : Home :=
  { x with frames := x.frames.modify (blockOf pa) fun f => { f with dirty := f.dirty.add (pa % 4096 / 64) } }

/-! ### The channel (R233) -/

/-- When a block's write-back ends, 0 if none is under way. -/
def Home.wbEnd (x : Home) (blk : Nat) : Nat := (x.wbs.filter fun w => w.1 == blk).foldl (fun m w => max m w.2.2) 0

/-- When a transfer begins behind one that ends in cycle `prev` (R233). -/
def Home.beginOf (x : Home) (prev : Nat) (t : Xfer) : Nat :=
  if t.fetch then max (max t.ready prev) (max (x.wbEnd t.blk) (x.bankBusy.getD (t.blk % 16) 0)) else max t.ready prev

/-- The end of a transfer. -/
def Xfer.stop (t : Xfer) : Nat := t.begin_ + t.len

/-- A transfer is started: it is the last of the channel's. -/
def Home.transfer (x : Home) (now : Nat) (t : Xfer) : Home :=
  let u := { t with begin_ := x.beginOf x.chanEnd t }
  { x with chan := (x.chan.filter fun y => decide (now ≤ y.stop)) ++ [u], chanEnd := u.stop }

/-- A home whose channel has been idle for 1,024 cycles pulls a refresh forward (R248). -/
def State.armPull (s : State) (h : Nat) : State :=
  let e := (s.home h).chanEnd
  s.at_ (e + 1024) rankWork .refreshPullForward { id := h, sub := e }

/-- A home's channel starts a transfer. -/
def State.startXfer (s : State) (h : Nat) (t : Xfer) : State := (s.modHome h fun x => x.transfer s.now t).armPull h

/-- The transfers that have not begun begin anew behind each other, after a refresh has taken a bank (R233). -/
def Home.rebegin (x : Home) (now : Nat) : Home :=
  let go (a : Home × Nat) (t : Xfer) : Home × Nat :=
    let u := if t.begin_ ≤ now then t else { t with begin_ := a.1.beginOf a.2 t }
    ({ a.1 with
        chan := a.1.chan ++ [u]
        wbs := if t.fetch then a.1.wbs else a.1.wbs.map fun w => if w.1 == t.blk && w.2.2 == t.stop then (w.1, w.2.1, u.stop) else w },
      u.stop)
  let (y, e) := x.chan.foldl go ({ x with chan := [] }, 0)
  if x.chan.isEmpty then x else { y with chanEnd := max e x.chanEnd }

/-- A refresh has taken a bank of a home: blocks on their way arrive later, and write-backs behind them end later (R233). -/
def State.rechannel (s : State) (h : Nat) : State :=
  let x := s.home h
  let y := x.rebegin s.now
  if y.chan = x.chan then s
  else
    let t := (x.chan.zip y.chan).foldl (init := s.setHome h y) fun s (a, b) =>
      if a = b then s
      else if a.fetch then
        (s.unAt fun d => d.ev == .blockArrival && d.arg.id == h && d.arg.idx == b.blk).at_ b.stop rankFill .blockArrival { id := h, idx := b.blk }
      else s.at_ b.stop rankWork .writebackEnd { id := h, idx := b.blk }
    t.armPull h

/-- A home's patrol goes on, and its refreshes: at most one of each is in the calendar (R248, R250).
(DESIGN CHOICE, log 37) -/
def State.startChains (s : State) (h : Nat) : State :=
  let due (ev : Instr) : Bool := s.cal.any fun d => d.ev == ev && d.arg.id == h
  let t := (s.now / 390 + 1) * 390
  let s1 := if due .refreshDue then s else s.at_ t rankWork .refreshDue { id := h, idx := t / 390 % 16 }
  if (s.home h).patrol = 0 || due .patrolFetch then s1 else s1.at_ (s.now + (s.home h).patrol) rankLast .patrolFetch { id := h }

/-- The first write to an ELIDED granule makes it LIVE: its 64 rows are set to zeros, which takes the channel for 96 cycles each (R247,
R249). Its home, if it had no LIVE granule, starts to refresh and to patrol (R248, R250). -/
def State.goLive (s : State) (pa : Nat) : State :=
  let h := homeOf pa
  let x := s.home h
  let g := granuleOf pa
  if x.live.contains g then s
  else
    let s1 := s.startXfer h { blk := blockOf pa, fetch := false, ready := s.now, len := 64 * 96, begin_ := 0 }
    (s1.modHome h fun x => { x with live := x.live.add g, zeroing := x.zeroing.set g x.chanEnd }).startChains h

/-! ### The port (R225, R229) -/

/-- The access that a home's port performs next, and when (R229): the first that is there, a further line of a checked row before a
watcher's reload, that before a further line of another access, and that before any other. (DEDUCED, log 36) -/
def Home.portTop (x : Home) : Option (PortEntry × Nat) :=
  match x.port with
  | [] => none
  | e :: es =>
    let t := max x.portNext (es.foldl (fun m y => min m y.from_) e.from_)
    let there := (e :: es).filter fun y => decide (y.from_ ≤ t)
    let top := there.foldl (fun m y => min m y.cls) 3
    (there.find? fun y => y.cls == top).map fun y => (y, t)

/-- The turn of a home's port for its next access stands in the calendar. (DEDUCED, log 33) -/
def State.portPoke (s : State) (h : Nat) : State :=
  let s0 := s.unAt fun d => (d.ev == .remoteRequestArrival || d.ev == .spanClose) && d.arg.flag && d.arg.idx == h
  match (s.home h).portTop with
  | none => s0
  | some (e, t) =>
    let close := match s.reqs.find? e.req with | some r => (match r.acc with | .close _ => true | _ => false) | none => false
    s0.at_ t rankWork (if close then .spanClose else .remoteRequestArrival) { id := e.req, idx := h, flag := true, flag2 := e.cls == 1 }

/-- A request comes to its home's port, where it can be performed from a cycle on. -/
def State.enterPort (s : State) (n h from_ cls : Nat) : State :=
  ((s.modReq n fun r => { r with stage := .port }).modHome h fun x => { x with port := x.port ++ [⟨n, from_, cls⟩] }).portPoke h

/-- A write on watched lines reloads their watchers, one per cycle from the next on, in the order in which they began, ahead of every
other access to the lines; the block stays resident until they are done (R261). -/
def State.wakeWatchers (s : State) (pa : Nat) (lines : Nat) : State :=
  let h := homeOf pa
  let x := s.home h
  let ws := x.watchers.filter fun n => match s.reqs.find? n with
    | some r => decide (lineOf pa ≤ lineOf r.pa) && decide (lineOf r.pa < lineOf pa + lines)
    | none => false
  if ws.isEmpty then s
  else
    let s1 := ws.foldl (fun s n => s.modReq n fun r => { r with stage := .port }) s
    (s1.modHome h fun x =>
      { x with
        watchers := x.watchers.filter fun n => !ws.contains n
        port := x.port ++ ws.map fun n => ⟨n, s.now + 1, 1⟩
        frames := x.frames.modify (blockOf pa) fun f => { f with reloads := ws.foldl NatSet.add f.reloads } }).portPoke h

/-- What every write to a line of a home does besides its bytes: the granule is LIVE, the line dirty, and its watchers are
woken. -/
def State.wroteLine (s : State) (pa : Nat) : State :=
  (((s.goLive pa).modHome (homeOf pa) fun x => x.touch pa)).wakeWatchers pa 1

/-- Whether a store to a STATUS word is performed (R172): from FREE, DONE or FAULTED to FREE or WAITING. -/
def statusTaken (old new : Nat) : Bool := (old % 8 == 0 || old % 8 == 4 || old % 8 == 5) && decide (new % 8 ≤ 1)

/-- A write of bytes within one line by a program, an engine or the host (R172, R237, R258, R261). A dispatcher word among them
is performed as such in its own step, which receives the word's new value; a store to STATUS that is discarded writes nothing.
(DESIGN CHOICE, log 96) -/
def State.writeLine (s : State) (pa : Nat) (d : List (Option Byte)) (poison : Bool) : State :=
  let s1 := s.goLive pa
  let whole := d.length == 64 && d.all (·.isSome)
  let line := lineOf pa
  let s2 := { s1 with poison := if poison then s1.poison.add line else if whole then s1.poison.del line else s1.poison }
  let s3 :=
    match dispWord s pa d.length with
    | none => (s2.storeBytes pa d).wroteLine pa
    | some (w, die, node, st) =>
      let inWord (i : Nat) : Bool := w ≤ pa + i && pa + i < w + 8
      let pairs := (List.range d.length).zip d
      let outside := pairs.map fun (p : Nat × Option Byte) => if inWord p.1 then none else p.2
      let word := (List.range 8).map fun j => if w + j < pa then none else (d[w + j - pa]?).getD none
      let t := s2.storeBytes pa outside
      if word.any (·.isSome) then
        let v := BitVec.ofNat 64 (leNat (overlay (s2.mem.read w 8) word))
        let t1 := t.at_ s.now rankWork (if st then .statusStore else .predUpdate) { die := die, idx := node, v := v }
        if st && outside.all (·.isNone) && !statusTaken (s2.word w).toNat v.toNat then t1 else t1.wroteLine pa
      else t.wroteLine pa
  s3

/-- Lines that a store of many bytes covers: address, and the bytes given in each. -/
def chunks : Nat → Nat → List (Option Byte) → List (Nat × List (Option Byte))
  | 0, _, _ => []
  | k + 1, pa, d =>
    if d.isEmpty then [] else
    let n := 64 - pa % 64
    (pa, d.take n) :: chunks k (pa + n) (d.drop n)

/-- Those of the lines that hold a byte to be written (R263). -/
def writtenChunks (pa : Nat) (d : List (Option Byte)) : List (Nat × List (Option Byte)) :=
  (chunks 10 pa d).filter fun c => c.2.any (·.isSome)

/-! ### Writes of units -/

/-- A change of STATE to FREE or DONE is told to the die's stream unit when a binding names the node (R350), and so is a completion that
ends FAULTED (`ended`), as which the binding's firing completes (R352, R390). (DEDUCED, log 101) -/
def State.noteState (s : State) (die node state : Nat) (ended : Bool) : State :=
  if (state = 0 || state = 4 || ended) && (s.die die).bindings.any fun (_, b) => b.node == node then
    s.at_ (s.now + latency (homeOf ((s.die die).ntbase.toNat + 128 * node)) (streamStop die)) rankWork .stateNotice
      { die := die, idx := node, sub := state }
  else s

/-- A STATUS word after a dispatcher's write (R171, R172). -/
def statusAfter (old state : Nat) (err fpf : Option Nat) (inst : Bool) : Nat :=
  let e := err.getD (old / 2 ^ 8 % 2 ^ 8)
  let f := fpf.getD (old / 2 ^ 16 % 2 ^ 7)
  let n := (old / 2 ^ 32 + if inst then 1 else 0) % 2 ^ 32
  state % 8 + e % 256 * 2 ^ 8 + f % 128 * 2 ^ 16 + n * 2 ^ 32

/-- Performs a unit's write at its home (R172, R173, R346, R350). (DEDUCED, log 99) -/
def State.unitPut (s : State) (pa : Nat) (op : UnitOp) : State :=
  match op with
  | .bytes d p => s.writeLine pa (d.map some) p
  | .word v => s.writeLine pa ((leBytes 8 v.toNat).map some) false
  | .dec => s.writeLine pa ((leBytes 8 (s.word pa - 1).toNat).map some) false
  | .arm w a =>
    match tableAt s pa with
    | some (die, node) =>
      (s.wroteLine pa).at_ s.now rankWork .statusStore { die := die, idx := node, v := 1, flag := true, id := w.toNat, n := a.toNat }
    | none => s
  | .status state err fpf inst =>
    let s1 := { s with mem := s.mem.writeN pa 8 (statusAfter (s.word pa).toNat state err fpf inst) }.wroteLine pa
    match tableAt s pa with
    | some (die, node) => s1.noteState die node state (state == 5 && (err == some 4 || err == some 5))
    | none => s1

/-- Performs a publication (R362): a stale one writes nothing. -/
def State.publish (s : State) (pa : Nat) (v : Word) (amend : Nat) : State :=
  let w := s.word (pa + 8)
  if w.getLsbD 63 && decide (amend < w.toNat % 2 ^ 32) then s
  else s.writeLine pa ((leBytes 8 v.toNat ++ leBytes 8 (2 ^ 63 + amend % 2 ^ 32)).map some) false

/-! ### Conflict checks (R284-R286) -/

/-- The records of a line that a checked access by `g` finds in its way (R284): the strand named, the writer's or else the
reader's whose record is oldest, and whether it is a reader (R285). -/
def conflictOf (c : CheckRec) (g : Nat) (write : Bool) : Option (Nat × Bool) :=
  match c.writer.filter fun w => w.1 ≠ g with
  | some (w, _) => some (w, false)
  | none =>
    if write then
      let older (m : Option (Nat × Nat)) (r : Nat × Nat) : Option (Nat × Nat) :=
        match m with
        | some a => if r.2 < a.2 then some r else some a
        | none => some r
      ((c.readers.filter fun r => r.1 ≠ g).foldl older none).map fun r => (r.1, true)
    else none

/-- The records after an access that meets no conflict, and how many were displaced (R284). -/
def recordAccess (c : CheckRec) (g now : Nat) (write : Bool) : CheckRec × Nat :=
  if write then ({ writer := some (g, now), readers := c.readers.filter fun r => r.1 ≠ g }, 0)
  else if c.writer.any fun w => w.1 == g then (c, 0)
  else if c.readers.any fun r => r.1 == g then
    ({ c with readers := c.readers.map fun r => if r.1 = g then (g, now) else r }, 0)
  else if c.readers.length < 3 then ({ c with readers := c.readers ++ [(g, now)] }, 0)
  else
    let oldest := c.readers.foldl (fun m r => min m r.2) now
    let kept := c.readers.filter fun r => r.2 ≠ oldest
    ({ c with readers := kept ++ [(g, now)] }, c.readers.length - kept.length)

/-- The cycle of the newest record of an entry. -/
def newest (c : CheckRec) : Nat := c.readers.foldl (fun m r => max m r.2) ((c.writer.map (·.2)).getD 0)

/-- A saturating 32-bit count. -/
def sat32 (n k : Nat) : Nat := min (n + k) (2 ^ 32 - 1)

/-- Enters an access in the check table (R286): a full table gives up the entry whose newest record is oldest. -/
def Home.record (x : Home) (line g now : Nat) (write : Bool) : Home :=
  match x.check.find? line with
  | some c =>
    let (c1, k) := recordAccess c g now write
    { x with check := x.check.set line c1, disp := sat32 x.disp k }
  | none =>
    let c1 := (recordAccess {} g now write).1
    if x.check.length < 4096 then { x with check := x.check.set line c1 }
    else
      let age := x.check.foldl (fun m e => min m (newest e.2)) now
      match List.find? (fun e => newest e.2 == age) x.check with
      | some (l, c) =>
        { x with check := (x.check.erase l).set line c1, disp := sat32 x.disp (c.readers.length + (if c.writer.isSome then 1 else 0)) }
      | none => { x with check := x.check.set line c1 }

/-- Removes a strand's records (R283). -/
def Home.unrecord (x : Home) (g : Nat) : Home :=
  let strip (c : CheckRec) : CheckRec :=
    { writer := c.writer.filter fun w => w.1 != g, readers := c.readers.filter fun r => r.1 != g }
  { x with check := (x.check.mapV strip).filter fun e => e.2.writer.isSome || !e.2.readers.isEmpty }

/-- Whether an access writes under R284. -/
def Access.checkWrites : Access → Bool
  | .store _ | .amo _ _ _ | .cas _ _ _ | .red _ _ | .spub _ _ => true
  | _ => false

/-- The lines of a checked access, as offsets from its address: the eight of a row, else one (R282). -/
def checkedLines (r : Req) : List Nat :=
  match r.acc with
  | .row _ l => if l = 0 then (List.range 8).map (· * 64) else []
  | .store d => (writtenChunks r.pa d).map fun c => c.1 - r.pa
  | _ => [0]

/-- The check of R282 and R284 before an access is performed: the fault, or the home with the records entered. -/
def checkAccess (x : Home) (r : Req) (now : Nat) : Except FaultRec Home :=
  match r.checked && !r.cont, r.owner with
  | true, some g =>
    let w := r.acc.checkWrites
    let ls := checkedLines r
    match ls.findSome? fun o =>
        (conflictOf ((x.check.find? (lineOf (r.pa + o))).getD {}) g w).map fun c => (o, c) with
    | some (o, (n, reader)) =>
      .error ⟨.conflict, r.va + BitVec.ofNat 64 o,
        BitVec.ofNat 64 (n % 2 ^ 22 + (if reader then 2 ^ 22 else 0) + (if w then 2 ^ 23 else 0))⟩
    | none => .ok (ls.foldl (fun x o => x.record (lineOf (r.pa + o)) g now w) x)
  | _, _ => .ok x

/-! ### Frames, queues and the buffer (R227-R231) -/

/-- Whether a frame is kept or fetching, kept. -/
def Frame.isKept (f : Frame) : Bool := match f.st with | .fetching k | .resident k => k
/-- Whether a frame is fetching. -/
def Frame.isFetch (f : Frame) : Bool := match f.st with | .fetching _ => true | _ => false
/-- Kept frames (R227). -/
def Home.keptCount (x : Home) : Nat := (x.frames.filter fun f => f.2.isKept).length
/-- Fetches in flight. -/
def Home.fetchCount (x : Home) : Nat := (x.frames.filter fun f => f.2.isFetch).length
/-- Frames that count against `ctl.bslim` (R227). -/
def Home.capped (x : Home) : Nat := (x.frames.filter fun f => !f.2.isKept).length + (x.wbs.filter fun w => w.2.1).length
/-- Free frames. -/
def Home.freeFrames (x : Home) : Nat := 256 - (x.frames.length + x.wbs.length)

/-- A resident transit block becomes kept, unless 192 frames are (R236). -/
def Home.keep (x : Home) (blk : Nat) : Home :=
  match x.frames.find? blk with
  | some f =>
    if f.st = .resident false then
      if x.keptCount < 192 then { x with frames := x.frames.set blk { f with st := .resident true } }
      else { x with keepDeny := min (x.keepDeny + 1) (2 ^ 16 - 1) }
    else x
  | none => x

/-- The same, and the fetch rule is evaluated, for the frame no longer counts against the cap (R227). -/
def State.keepBlock (s : State) (h blk : Nat) : State := (s.modHome h fun x => x.keep blk).askFetch h s.now

/-- Entries of a home's remote-request buffer in use (R228, R229, R260): a request keeps its entry until it is performed. -/
def State.bufUsed (s : State) (h : Nat) : Nat :=
  (s.reqs.filter fun (_, r) =>
    r.home == h && r.buf).length

/-- Whether an access needs its block in the block store (R228): hints, closes and row copies do not. -/
def Access.needsBlock : Access → Bool
  | .want | .keep | .free | .close _ | .bcopy _ => false
  | _ => true

/-- A request becomes a waiter for its absent block in cycle `a`, or waits in the mesh for a buffer entry (R228, R229). -/
def State.reqWaits (s : State) (n : Nat) (r : Req) (a : Nat) : State :=
  if r.buf || s.bufUsed r.home < 2048 then
    (s.modReq n fun r => { r with stage := .waiting, buf := true, late := false }).joinQueue r.home (blockOf r.pa) (.req n) a r.kept
  else (s.modReq n fun r => { r with stage := .waiting }).modHome r.home fun x => { x with mesh := x.mesh ++ [n] }

/-- Whether an access is a data access, whose order R254 rules. -/
def Access.isData : Access → Bool
  | .fetch _ _ => false
  | _ => true

/-- Whether two requests are a strand's data accesses. -/
def Req.sameStrand (r q : Req) : Bool := r.owner.isSome && q.owner == r.owner && r.acc.isData && q.acc.isData

/-- The first cycle from `t` on in which a request can be performed that goes ahead of hits: behind those of its strand, and those to its
block, that are at the port (R229, R254). -/
def State.portAfter (s : State) (r : Req) (t : Nat) : Nat :=
  (s.home r.home).port.foldl (init := t) fun m e =>
    match s.reqs.find? e.req with
    | some q => if r.sameStrand q || blockOf q.pa == blockOf r.pa then max m (e.from_ + 1) else m
    | none => m

/-- Whether a request is the access of a strand that its block's arrival has woken (R234). -/
def State.inSet (s : State) (r : Req) : Bool :=
  r.isLocal && (match r.strand, (s.home r.home).frames.find? (blockOf r.pa) with
    | some g, some f => f.arr.contains (if r.acc.isData then .strand g else .fetch g)
    | _, _ => false)

/-- A request that has reached its home in cycle `a` comes to the port (R225, R226, R229): it is performed four cycles later; the access
of a strand that its block's arrival has woken, in that cycle (R234). (DEDUCED, log 33) -/
def State.toPort (s : State) (n : Nat) (r : Req) (a : Nat) : State :=
  if s.inSet r then (s.modReq n fun q => { q with late := true }).enterPort n r.home (s.portAfter r a) 3
  else s.enterPort n r.home (a + 4) 3

/-- Whether an access is a host write. -/
def Access.isHostWrite : Access → Bool
  | .hostWrite _ _ => true
  | _ => false

/-- Whether a request is a host write that covers a PRED or STATUS word, which is a release (R413). -/
def State.isRelease (s : State) (r : Req) : Bool :=
  match r.acc with
  | .hostWrite d _ => (dispWord s r.pa d.length).isSome
  | _ => false

/-- Whether a request of a strand, or a host write of a link, comes behind an earlier one to the same home that has not come to the port
(R254); a release of a link comes behind every earlier write of the link that has still to be performed (R413). (DEDUCED, log 34) -/
def State.isBehind (s : State) (n : Nat) (r : Req) : Bool :=
  s.reqs.any fun (m, q) =>
    let link := r.acc.isHostWrite && q.acc.isHostWrite && q.core == r.core
    decide (m < n) &&
      ((q.home == r.home && (q.stage == .sent || q.stage == .waiting || q.stage == .behind) && (r.sameStrand q || link))
        || (link && q.stage != .done && s.isRelease r))

/-- A request stands behind an earlier one: neither it nor its strand keeps its block resident meanwhile, and it waits for the block again
if the block is absent when its turn comes. (DEDUCED, log 34) -/
def State.goBehind (s : State) (n : Nat) (r : Req) : State :=
  let s1 := (s.modReq n fun q => { q with stage := .behind, buf := false, late := false }).leaveArr r.home (blockOf r.pa) (.req n)
  match r.strand with
  | some g => if r.acc.isData then s1.leaveArr r.home (blockOf r.pa) (.strand g) else s1
  | none => s1

/-- A request reaches its home in cycle `a` (R228, R229): a hit goes to the port, unless it comes behind one that waits; any
other waits for its block. The first access ends a work phase (R248). (DEDUCED, log 67) -/
def State.reach (s : State) (n : Nat) (r : Req) (a : Nat) : State :=
  let s1 := s.modHome r.home fun x => { x with phase := false }
  if r.acc.needsBlock && !resident (s.home r.home) (blockOf r.pa) then s1.reqWaits n r a
  else if s1.isBehind n r then s1.goBehind n r
  else (if r.kept && r.acc.needsBlock then s1.keepBlock r.home (blockOf r.pa) else s1).toPort n r a

/-- A request of a strand has been performed or has left the waiters: those that came behind it, and behind no other, go on
(R254, R413). -/
def State.nextBehind (s : State) (r : Req) : State :=
  (s.reqs.filter fun e => e.2.stage == .behind && (e.2.home == r.home || (e.2.acc.isHostWrite && r.acc.isHostWrite))).foldl (init := s) fun s e =>
    if s.isBehind e.1 e.2 then s else (s.modReq e.1 fun q => { q with stage := .sent }).reach e.1 { e.2 with stage := .sent } (s.now - 3)

/-- A buffer entry has become free: the first request that waits in the mesh takes it, and holds it from then on (R229, R260). -/
def State.meshNext (s : State) (h : Nat) : State :=
  match (s.home h).mesh with
  | [] => s
  | n :: rest =>
    if s.bufUsed h < 2048 then
      let s1 := s.modHome h fun x => { x with mesh := rest }
      match s1.reqs.find? n with
      | some r =>
        let r1 := { r with buf := true }
        let s2 := s1.modReq n fun r => { r with buf := true }
        if r.acc.needsBlock && !resident (s.home h) (blockOf r.pa) then s2.reqWaits n r1 s.now
        else if s2.isBehind n r1 then s2.goBehind n r1
        else s2.enterPort n h s.now 3
      | none => s1
    else s

/-! ### Performing a request -/

/-- When what a request asked for is available at its issuer, and an event brings it there (R226). -/
def State.answer (s : State) (n : Nat) (r : Req) (arg : EvArg) : State :=
  let w := latency r.home r.core
  let t := s.now + (if r.late then (if r.isLocal then 8 else 2 * w + 4) else if r.isLocal then 4 else w)
  let ev : Option Instr := match r.acc with
    | .load _ _ | .look _ | .amo _ _ _ | .cas _ _ _ | .ldw _ _ | .row _ _ | .sread _ | .engRead _ _ _ _ | .fabRead _ _ _ => some .replyFill
    | .store _ | .spub _ _ | .red _ _ | .bcopy _ | .engWrite _ _ _ _ | .close _ | .fabWrite _ _ _ _ => some .ackArrival
    | .mig _ _ => some .migrationUnit
    | .fetch _ _ => some .fetchReturn
    | .unitWrite _ note => if note = .none then none else some .stateNotice
    | .unitRead _ _ => some .stateNotice
    | .hostRead _ => some .hostMemoryRead
    | .want | .keep | .free | .hostWrite _ _ => none
  match ev with
  | some .stateNotice => s.at_ t rankReply .stateNotice { id := n, n := 3, flag := arg.flag }
  | some .hostMemoryRead => s.at_ t rankReply .hostMemoryRead { id := n, flag := true, flag2 := arg.flag }
  | some .fetchReturn => s.at_ t rankReply .fetchReturn { id := r.strand.getD 0, sub := n }
  | some .migrationUnit => s.at_ t rankReply .migrationUnit { arg with id := n, flag2 := true }
  | some e => s.at_ t (match r.acc with | .ldw _ _ => rankReply + r.home | _ => rankReply) e { arg with id := n }
  | none => { s with reqs := s.reqs.erase n }

/-- A watcher's reload is done: the block can be evicted again when nothing else keeps it (R235, R261). -/
def State.leaveReload (s : State) (h blk n : Nat) : State :=
  match (s.home h).frames.find? blk with
  | none => s
  | some f =>
    if f.reloads.contains n then
      let f1 := { f with reloads := f.reloads.del n }
      let s1 := s.modHome h fun x => { x with frames := x.frames.set blk f1 }
      if f1.reloads.isEmpty && f1.arr.isEmpty && f1.st == .resident false && (f1.hadArr || decide (f1.at_ + 1024 ≤ s.now)) then
        s1.at_ (s.now + 1) rankFill .blockEvict { id := h, idx := blk }
      else s1
    else s

/-- A request has been performed or refused: it leaves arrival sets, its strand's next request to the home goes on, a buffer
entry may be free, and the answer sets out. -/
def State.finish (s : State) (n : Nat) (r : Req) (arg : EvArg) : State :=
  let s1 := s.modReq n fun q =>
    { q with stage := .done, val := r.val, data := r.data, fail := r.fail, buf := false
             bad := q.bad || (r.acc.isRow && (r.fail.isSome || arg.flag)) }
  let blk := blockOf r.pa
  let s2 := (s1.leaveArr r.home blk (.req n)).leaveReload r.home blk n
  let s3 := match r.strand, r.acc with
    | some g, .fetch _ _ => s2.leaveArr r.home blk (.fetch g)
    | some g, _ => s2.leaveArr r.home blk (.strand g)
    | none, _ => s2
  (((s3.nextBehind r).meshNext r.home).answer n r arg).pokeGang r.gang

/-- Whether the word a consuming access reads is poisoned (R237). -/
def State.poisoned (s : State) (pa : Nat) : Bool := s.poison.contains (lineOf pa)

/-- The failure of an access that consumes a poisoned line (R237). -/
def poisonFail (r : Req) : Option FaultRec := some ⟨.poison, r.va, 0⟩

/-- Performs a row copy (R247): dirty lines of the source row are written back, the row is copied or zeroed with its poison,
and the channel is taken for 96 cycles. (DESIGN CHOICE, log 97) -/
def State.rowCopy (s : State) (pa : Nat) (src : Option Nat) : State :=
  let h := homeOf pa
  let s1 := s.goLive pa
  let data := match src with
    | some b => s1.mem.read b 1024
    | none => List.replicate 1024 0
  let lines := List.range 16
  let poison := lines.foldl (fun p i =>
    p.put (lineOf pa + i) (match src with | some b => s1.poison.contains (lineOf b + i) | none => false)) s1.poison
  let dirtySrc := match src with
    | some b =>
      (match (s1.home h).frames.find? (blockOf b) with
        | some f => (f.dirty.filter fun l => b % 4096 / 64 ≤ l && l < b % 4096 / 64 + 16).length
        | none => 0)
    | none => 0
  let s2 := { s1 with mem := s1.mem.write pa data, poison := poison }
  let s3 := s2.modHome h fun x =>
    let clean (b : Nat) (x : Home) : Home :=
      { x with frames := x.frames.modify (blockOf b) fun f =>
          { f with dirty := f.dirty.filter fun l => !(b % 4096 / 64 ≤ l && l < b % 4096 / 64 + 16) } }
    let x1 := match src with | some b => clean b x | none => x
    clean pa x1
  (s3.startXfer h { blk := blockOf pa, fetch := false, ready := s.now, len := 2 * dirtySrc + 96, begin_ := 0 }).wakeWatchers pa 16

/-- A weight-only entry for an absent block (R231): none when no queue exists and none can be made. -/
def Home.want (x : Home) (blk now : Nat) (keep : Bool) : Home :=
  match x.queues.find? blk with
  | some q => { x with queues := x.queues.set blk { q with wants := q.wants ++ [now], keptAt := q.mark keep now } }
  | none =>
    if x.queues.length < 1024 then
      { x with queues := x.queues.set blk { wants := [now], keptAt := if keep then some now else none } }
    else { x with wantDrop := min (x.wantDrop + 1) (2 ^ 16 - 1) }

/-- Performs a hint (R231, R236, R271). -/
def State.hint (s : State) (r : Req) : State :=
  let h := r.home
  let blk := blockOf r.pa
  let x := s.home h
  if resident x blk then
    match r.acc with
    | .keep => s.keepBlock h blk
    | .free =>
      match x.frames.find? blk with
      | some f =>
        if f.st = .resident true then
          ((s.setHome h { x with frames := x.frames.set blk { f with st := .resident false, arr := [], hadArr := true } }).at_ (s.now + 1)
            rankFill .blockEvict { id := h, idx := blk }).askFetch h s.now
        else s
      | none => s
    | _ => s
  else
    match r.acc with
    | .keep => (s.setHome h (x.want blk s.now true)).askFetch h (s.now + 1)
    | .free => s.setHome h { x with queues := x.queues.modify blk fun q => { q with keptAt := none } }
    | _ => (s.setHome h (x.want blk s.now r.kept)).askFetch h (s.now + 1)

/-- Performs a request at its port (R225, R238, R256-R266, R315): the state after it. A store or row of several lines performs
one line and goes on with the next in the next cycle; an `LDW` that finds its comparand watches its line (R260). `reload` is a
watcher's reload (R261). -/
def State.performReq (s : State) (n : Nat) (r : Req) (reload : Bool) : State :=
  let done (s : State) (r : Req) : State := s.finish n r {}
  match r.acc with
  | .load k _ =>
    if s.poisoned r.pa then done s { r with fail := poisonFail r }
    else done s { r with val := BitVec.ofNat 64 (s.mem.readN r.pa k) }
  | .fetch k _ | .look k =>
    done s { r with data := s.mem.read r.pa k, fail := if s.poisoned r.pa then poisonFail r else none }
  | .store d =>
    match writtenChunks r.pa d with
    | [] => done s r
    | [(a, b)] => done (s.writeLine a b false) r
    | (a, b) :: (a2, _) :: _ =>
      let rest := d.drop (a2 - r.pa)
      ((s.writeLine a b false).modReq n fun q => { q with acc := .store rest, pa := a2, cont := true }).enterPort n r.home (s.now + 1)
        (if r.checked then 0 else 2)
  | .amo fn v _ =>
    if s.poisoned r.pa then done s { r with fail := poisonFail r }
    else
      let old := s.word r.pa
      let (new, fl) := amoVal fn old v
      (s.writeLine r.pa ((leBytes 8 new.toNat).map some) false).finish n { r with val := old } { n := fl.toNat }
  | .red fn v =>
    if s.poisoned r.pa then done s { r with fail := poisonFail r }
    else done (s.writeLine r.pa ((leBytes 8 (amoVal (redFn fn) (s.word r.pa) v).1.toNat).map some) false) r
  | .cas e v _ =>
    if s.poisoned r.pa then done s { r with fail := poisonFail r }
    else
      let old := s.word r.pa
      let s1 := if old = e then s.writeLine r.pa ((leBytes 8 v.toNat).map some) false else s
      done s1 { r with val := old }
  | .ldw cmp _ =>
    if s.poisoned r.pa then done s { r with fail := poisonFail r }
    else if s.word r.pa ≠ cmp || reload then done s { r with val := s.word r.pa }
    else if r.limit.any (· < s.now) then done s { r with fail := some ⟨.ldwLimit, r.va, 0⟩ }
    else
      let s1 := (s.leaveArr r.home (blockOf r.pa) (.req n))
      let s2 := match r.strand with | some g => s1.leaveArr r.home (blockOf r.pa) (.strand g) | none => s1
      if r.buf || s.bufUsed r.home < 2048 then
        (s2.modReq n fun q => { q with stage := .watching, buf := true, late := false }).modHome r.home fun x =>
          { x with watchers := x.watchers ++ [n] }
      else (s2.modReq n fun q => { q with stage := .waiting, late := false }).modHome r.home fun x => { x with mesh := x.mesh ++ [n] }
  | .row id l =>
    let a := r.pa + 64 * l
    let arg : EvArg := { idx := l, data := s.mem.read a 64, flag := s.poisoned a }
    if l = 7 then s.finish n r arg
    else
      ((s.answer n r arg).modReq n fun q => { q with acc := .row id (l + 1), cont := true, bad := q.bad || s.poisoned a }).enterPort n r.home
        (s.now + 1) (if r.checked then 0 else 2)
  | .bcopy src => done (s.rowCopy r.pa src) r
  | .want | .keep | .free => done (s.hint r) r
  | .engRead _ _ _ k =>
    s.finish n { r with data := s.mem.read r.pa k } { flag := s.poisoned r.pa }
  | .engWrite _ _ d p => done (s.writeLine r.pa d p) r
  | .hostRead k => s.finish n { r with data := s.mem.read r.pa k } { flag := s.poisoned r.pa }
  | .hostWrite d p => done (s.writeLine r.pa (d.map some) p) r
  | .close g => done (s.modHome r.home fun x => x.unrecord g) r
  | .unitWrite op _ => done (s.unitPut r.pa op) r
  | .unitRead k _ => s.finish n { r with data := s.mem.read r.pa k } { flag := s.poisoned r.pa }
  | .spub v a => done (s.publish r.pa v a) r
  | .sread _ =>
    if s.poisoned r.pa then done s { r with fail := poisonFail r }
    else done s { r with data := s.mem.read r.pa 16 }
  | .fabWrite _ _ d p => done (s.writeLine r.pa (d.map some) p) r
  | .fabRead _ _ _ | .mig _ none => s.finish n { r with data := s.mem.read r.pa 64 } { flag := s.poisoned r.pa }
  | .mig _ (some (d, p)) => done (s.writeLine r.pa (d.map some) p) r

/-- Whether performing a request writes to its line, so that the line's granule must be LIVE (R249): a failed `CAS` does not. -/
def State.writesLine (s : State) (r : Req) : Bool :=
  match r.acc with
  | .store _ | .amo _ _ _ | .red _ _ | .spub _ _ | .bcopy _ | .engWrite _ _ _ _ | .hostWrite _ _ | .unitWrite _ _ | .fabWrite _ _ _ _
    | .mig _ (some _) => true
  | .cas e _ _ => s.word r.pa == e
  | _ => false

/-- Whether an access reads or writes bytes of its granule, and so waits while its rows are set to zeros (R249): hints and closes do not. -/
def Access.ofRows : Access → Bool
  | .want | .keep | .free | .close _ => false
  | _ => true

/-- A request's turn at its port: it waits while its granule's rows are set to zeros (R249), or again for its block if that has left; it is
refused on a conflict (R284), or is performed. -/
def State.atPort (s : State) (n : Nat) (r : Req) (reload : Bool) : State :=
  let x := s.home r.home
  let ready := x.zeroing.getD (granuleOf r.pa) 0
  if r.acc.needsBlock && !reload && !resident x (blockOf r.pa) then s.reqWaits n r s.now
  else if r.acc.ofRows && decide (s.now < ready) then s.enterPort n r.home ready (if reload then 1 else 3)
  else if s.writesLine r && !x.live.contains (granuleOf r.pa) then
    let t := s.goLive r.pa
    t.enterPort n r.home ((t.home r.home).zeroing.getD (granuleOf r.pa) 0) 3
  else
    match checkAccess x r s.now with
    | .error f =>
      (s.modHome r.home fun x => { x with conf := sat32 x.conf 1 }).finish n { r with fail := some f } {}
    | .ok x => (s.setHome r.home x).performReq n r reload

/-- The turn of a home's port for a request: the port performs one access in a cycle (R225), and the next has its turn after it. -/
def State.portTurn (s : State) (n : Nat) (r : Req) (reload : Bool) : State :=
  let s1 := s.modHome r.home fun x => { x with port := x.port.filter (·.req != n), portNext := max x.portNext (s.now + 1) }
  (s1.atPort n r reload).portPoke r.home

/-- A request that is no more leaves the port of a home, whose next one has its turn. -/
def State.leavePort (s : State) (n h : Nat) : State := (s.modHome h fun x => { x with port := x.port.filter (·.req != n) }).portPoke h

/-- A request leaves whatever it waits in at its home. -/
def State.unwait (s : State) (n : Nat) (r : Req) : State :=
  let s1 := (s.dropWaiters r.home fun w => w == .req n).modHome r.home fun x =>
    { x with
      watchers := x.watchers.filter (· != n)
      mesh := x.mesh.filter (· != n)
      port := x.port.filter (·.req != n) }
  ((s1.leaveArr r.home (blockOf r.pa) (.req n)).leaveReload r.home (blockOf r.pa) n).portPoke r.home

/-- A request reaches its home (`arg.flag` false), or its turn at the home's port comes (true; `arg.flag2` for a watcher's
reload); `arg.id` is the request. While READY is 0 it is held (R443), and so it is while the stacks refresh themselves after a thermal stop
(R447). One that would have crossed an edge that has failed is discarded (R411). -/
def execRemoteRequestArrival (s : State) : Out :=
  match s.reqs.find? s.arg.id with
  | none => .next (if s.arg.flag then s.leavePort s.arg.id s.arg.idx else s)
  | some r =>
    if s.arg.flag then .next (if s.pkg.thermal then s else s.portTurn s.arg.id r s.arg.flag2)
    else if s.cut r.core r.home then
      .next { (if r.owned then s.cutOff r.gang else s) with reqs := s.reqs.erase s.arg.id }
    else if !s.pkg.ready || s.pkg.thermal then
      if s.pkg.tfail && (match r.acc with | .hostRead _ | .hostWrite _ _ => true | _ => false) then
        let s1 := { s with reqs := s.reqs.erase s.arg.id }
        .next (if r.acc.isHostWrite then s1 else s1.out (.hostError 2))
      else .next (s.modPkg fun p => { p with heldReqs := p.heldReqs ++ [s.arg.id] })
    else
      let a := if r.isLocal then s.now else s.now - 1
      let s1 := match r.acc, r.limit with
        | .ldw _ _, some l => s.at_ (max (l + 1) s.now) rankExpiry .ldwExpiry { id := s.arg.id }
        | _, _ => s
      .next (s1.reach s.arg.id r a)

/-- A close is performed at a home (R283); `arg.id` is the request. -/
def execSpanClose (s : State) : Out :=
  match s.reqs.find? s.arg.id with
  | none => .next (s.leavePort s.arg.id s.arg.idx)
  | some r => .next (s.portTurn s.arg.id r false)

/-- The limit of an `LDW` request ends at its home (R260): the request is withdrawn there, and its strand learns of it. A request
that is being answered stays. -/
def State.expireWatch (s : State) (n : Nat) : State :=
  match s.reqs.find? n with
  | none => s
  | some r =>
    if r.stage == .done || r.stage == .sent || r.stage == .port then s
    else (s.unwait n r).finish n { r with fail := some ⟨.ldwLimit, r.va, 0⟩ } {}

/-! ### The fetch rule (R232, R233) -/

/-- Waiters of a queue that count from a cycle on (R230). -/
def WaitQ.counted (q : WaitQ) (now : Nat) : List Parked := q.waiters.filter fun p => p.park < now
/-- Weight (R230, R231), as it stands at the start of a cycle. -/
def WaitQ.weight (q : WaitQ) (now : Nat) : Nat := (q.counted now).length + (q.wants.filter (· < now)).length
/-- Whether a queue is marked kept at the start of a cycle. -/
def WaitQ.isKept (q : WaitQ) (now : Nat) : Bool := q.keptAt.any fun t => decide (t < now)
/-- Park time of the oldest waiter; of a queue of weight-only entries, the cycle of the first (R230, R231). -/
def WaitQ.oldest (q : WaitQ) (now : Nat) : Nat :=
  match q.counted now with
  | [] => q.wants.foldl min now
  | p :: t => t.foldl (fun m x => min m x.park) p.park

/-- Whether a queue's fetch could take a frame (R232). -/
def eligible (x : Home) (bslim now : Nat) (q : WaitQ) : Bool :=
  !q.inFlight && decide (0 < q.weight now) && decide (0 < x.freeFrames) &&
    (if q.isKept now then decide (x.keptCount < 192) else decide (x.capped < bslim))

/-- The better of two queues under an order of (oldest, block). -/
def older (now : Nat) (a b : Nat × WaitQ) : Nat × WaitQ :=
  if b.2.oldest now < a.2.oldest now || (b.2.oldest now == a.2.oldest now && decide (b.1 < a.1)) then b else a

/-- The steward's choice (R232): block, queue, and whether rule 1 chose it among several (R402). (DEDUCED, log 32) -/
def choose (x : Home) (bslim starve now : Nat) : Option (Nat × WaitQ × Bool) :=
  let es := x.queues.filter fun e => eligible x bslim now e.2
  let starving := es.filter fun e => !(e.2.counted now).isEmpty && decide (starve ≤ now - e.2.oldest now)
  match starving with
  | e :: t => let b := t.foldl (older now) e; some (b.1, b.2, decide (1 < es.length))
  | [] =>
    let top := es.foldl (fun m e => max m (e.2.weight now)) 0
    match es.filter fun e => e.2.weight now == top with
    | e :: t => let b := t.foldl (older now) e; some (b.1, b.2, false)
    | [] => none

/-- Whether a block's granule is LIVE (R249). -/
def Home.isLive (x : Home) (blk : Nat) : Bool := x.live.contains (blk / 16)

/-- Starts the fetch of a block into a frame (R233, R249): its arrival is in the calendar. -/
def State.startBlock (s : State) (h blk : Nat) (kept patrol : Bool) : State :=
  let d := dieOf h
  let n := (s.die d).fetches
  let s := (s.modDie d fun y => { y with fetches := n + 1 }).crossed d 4 n (n + 1)
  let x := s.home h
  let f : Frame := { st := .fetching kept, at_ := s.now, patrol := patrol, zeros := !x.isLive blk }
  let x1 := { x with frames := x.frames.set blk f, queues := x.queues.modify blk fun q => { q with inFlight := true }, fetchAt := s.now + 1 }
  if x.isLive blk then
    let s1 := (s.setHome h x1).startXfer h { blk := blk, fetch := true, ready := s.now + 128, len := 128, begin_ := 0 }
    s1.at_ (s1.home h).chanEnd rankFill .blockArrival { id := h, idx := blk }
  else (s.setHome h x1).at_ (s.now + 16) rankFill .blockArrival { id := h, idx := blk }

/-- The sum of `hs.evt.STARVED` over the homes of a die (R449). -/
def State.starvedSum (s : State) (die : Nat) : Nat := ((s.homes.filter fun e => dieOf e.1 == die).map fun e => e.2.starved).sum

/-- The steward may start one fetch in a cycle (R232); `arg.id` is the home. -/
def execStewardFetchStart (s : State) : Out :=
  let h := s.arg.id
  let x := s.home h
  let k := s.core h
  if s.now < x.fetchAt then .next (s.askFetch h x.fetchAt)
  else if x.fetchCount < 8 then
    match choose x k.bslim k.starve s.now with
    | some (blk, q, starved) =>
      let s2 := if starved then
          let t := s.modHome h fun x => { x with starved := sat32 x.starved 1 }
          t.crossed (dieOf h) 5 (s.starvedSum (dieOf h)) (t.starvedSum (dieOf h))
        else s
      .next ((s2.startBlock h blk (q.isKept s.now) false).askFetch h (s.now + 1))
    | none =>
      -- what came in this cycle counts from the next on
      let fresh (q : WaitQ) : Bool := (q.waiters.any fun p => p.park == s.now) || q.wants.contains s.now || q.keptAt == some s.now
      .next (if x.queues.any fun e => fresh e.2 then s.askFetch h (s.now + 1) else s)
  else .next s

/-! ### Arrival (R234, R237) -/

/-- Waiters of an arrived block go on (R234): strands become ready in park order, requests are performed in park order, one per
cycle from now on; one that comes behind a request to another block leaves the arrival set (R254). -/
def State.letIn (s : State) (h : Nat) (ws : List Parked) : State :=
  let one (s : State) (p : Parked) : State :=
    match p.who with
    | .req n =>
      (match s.reqs.find? n with
        | some r =>
          if s.isBehind n { r with stage := .sent } then s.goBehind n r
          else (s.modReq n fun r => { r with late := true }).enterPort n h (s.portAfter r s.now) 3
        | none => s)
    | .strand g => s.resume g
    | .fetch g => s.resumeFetch g
    | _ => s
  ws.foldl one s

/-- Lines of a block by their numbers over the whole memory. -/
def blockLines (h blk : Nat) : List Nat := (List.range 64).map fun i => lineOf (h * 2 ^ 30 + blk * 4096) + i

/-- A block becomes resident with its arrival set (R234); it is kept if its queue is still marked kept (R236).
(DEDUCED, log 35) -/
def State.becomeResident (s : State) (h blk : Nat) (f : Frame) (fixed : NatSet) : State :=
  let x := s.home h
  let q := (x.queues.find? blk).getD {}
  let f1 : Frame := { f with st := .resident (f.isKept && q.keptAt.isSome), dirty := fixed, arr := q.waiters.map (·.who), at_ := s.now
                             hadArr := !q.waiters.isEmpty }
  let x1 := { x with frames := x.frames.set blk f1, queues := x.queues.erase blk }
  let x2 := if q.keptAt.isSome && !f.isKept then x1.keep blk else x1
  let s1 := (s.setHome h x2).letIn h q.waiters
  let s2 := if q.waiters.isEmpty then s1.at_ (s.now + 1024) rankFill .transitIdleEvict { id := h, idx := blk, sub := s.now } else s1
  let s3 := if x.overflow.isEmpty then s2 else s2.at_ (s.now + 1) rankFill .overflowMove { id := h }
  s3.askFetch h s.now

/-- The fetch of a block fails (R237): its frame stays taken until the write-back ends, but its block is none that was evicted, and does not
count against the cap (R227, R402). (DEDUCED, log 32) -/
def State.failFetch (s : State) (h blk : Nat) (bad soft : List Nat) : State :=
  let x := s.home h
  let q := (x.queues.find? blk).getD {}
  let d := bad.length + soft.length
  let host (p : Parked) : Bool := match p.who with
    | .req n => (match s.reqs.find? n with
        | some r => (match r.acc with
            | .unitWrite _ (.save _) | .mig _ none => false
            | .hostRead _ | .hostWrite _ _ | .unitWrite _ _ | .unitRead _ (.record _ _ _) | .mig _ (some _) => true
            | _ => false)
        | none => false)
    | _ => false
  let stay := q.waiters.filter host
  let qs := x.queues.erase blk
  let x0 := x.transfer s.now { blk := blk, fetch := false, ready := s.now, len := 2 * d, begin_ := 0 }
  let x1 : Home := { x0 with
    frames := x.frames.erase blk
    wbs := x.wbs ++ [(blk, false, x0.chanEnd)]
    uncorr := sat32 x.uncorr bad.length
    corr := sat32 x.corr soft.length
    queues := if stay.isEmpty then qs else qs.set blk { waiters := stay } }
  let s1 : State := { s.setHome h x1 with
    poison := bad.foldl NatSet.add s.poison
    eccBad := s.eccBad.filter fun l => !bad.contains l
    eccSoft := s.eccSoft.filter fun l => !soft.contains l }
  let s2 := ((s1.armPull h).at_ x0.chanEnd rankWork .writebackEnd { id := h, idx := blk }).askFetch h s.now
  let s3 := if x.overflow.isEmpty then s2 else s2.at_ (s.now + 1) rankFill .overflowMove { id := h }
  (q.waiters.filter fun p => !host p).foldl (init := s3) fun s p =>
    match p.who with
    | .req n => (match s.reqs.find? n with
        | some r => s.finish n { r with fail := some ⟨.memErr, r.va, 0⟩, late := true } {}
        | none => s)
    | .fetch g => s.fetchFault g .memErr
    | .strand g =>
      let w := (s.strand g).wait.getD { kind := .event, since := 0 }
      s.pendUpcall g ⟨.memErr, w.va, 0⟩ w.len
    | _ => s

/-- A fetched block arrives (R233, R234), or its fetch fails (R237); `arg.id` is the home, `arg.idx` the block.
(DESIGN CHOICE, log 24) -/
def execBlockArrival (s : State) : Out :=
  let h := s.arg.id
  let blk := s.arg.idx
  match (s.home h).frames.find? blk with
  | some f =>
    if !f.isFetch then .next s
    else
      let ls := if f.zeros then [] else blockLines h blk
      let bad := ls.filter (s.eccBad.contains ·)
      let soft := ls.filter (s.eccSoft.contains ·)
      if bad.isEmpty then
        let s1 := { s with eccSoft := s.eccSoft.filter fun l => !soft.contains l }
        let s2 := s1.modHome h fun x => { x with corr := sat32 x.corr soft.length }
        .next (s2.becomeResident h blk f (soft.foldl (fun d l => NatSet.add d (l % 64)) []))
      else .next (s.failFetch h blk bad soft)
  | none => .next s

/-! ### Eviction (R235) -/

/-- Evicts a transit block whose arrival set is empty: its frame is free at once, or after the write-back of its dirty lines
(R233, R235). -/
def State.evict (s : State) (h blk : Nat) : State :=
  let x := s.home h
  match x.frames.find? blk with
  | some f =>
    if f.st == .resident false && f.arr.isEmpty && f.reloads.isEmpty then
      let x1 := { x with frames := x.frames.erase blk }
      if f.dirty.isEmpty then (s.setHome h x1).askFetch h s.now
      else
        let x2 := x1.transfer s.now { blk := blk, fetch := false, ready := s.now, len := 2 * f.dirty.length, begin_ := 0 }
        ((s.setHome h { x2 with wbs := x.wbs ++ [(blk, true, x2.chanEnd)] }).armPull h).at_ x2.chanEnd rankWork .writebackEnd
          { id := h, idx := blk }
    else s
  | none => s

/-- A transit block is evicted in the cycle after its arrival set has become empty (R235). -/
def execBlockEvict (s : State) : Out := .next (s.evict s.arg.id s.arg.idx)

/-- A transit block whose arrival set was empty on arrival, in cycle `arg.sub`, is evicted 1,024 cycles later (R235). -/
def execTransitIdleEvict (s : State) : Out :=
  match (s.home s.arg.id).frames.find? s.arg.idx with
  | some f => .next (if f.at_ = s.arg.sub && !f.hadArr then s.evict s.arg.id s.arg.idx else s)
  | none => .next s

/-- The frame of a write-back that has ended is free (R235). -/
def execWritebackEnd (s : State) : Out :=
  .next ((s.modHome s.arg.id fun x =>
    { x with wbs := x.wbs.filter fun w => !(w.1 == s.arg.idx && decide (w.2.2 ≤ s.now)) }).askFetch s.arg.id s.now)

/-- Overflow waiters (R230) whose block is resident join its arrival set; else the head and the others of its block move into a
free entry of the queue table. -/
def execOverflowMove (s : State) : Out :=
  let h := s.arg.id
  let x := s.home h
  let here := x.overflow.filter fun o => resident x o.1
  let away := x.overflow.filter fun o => !resident x o.1
  let x1 := here.foldl (fun x o =>
    let y := { x with frames := x.frames.modify o.1 fun f => { f with arr := f.arr ++ [o.2.1.who], hadArr := true } }
    if o.2.2 then y.keep o.1 else y) { x with overflow := away }
  let s1 := (s.setHome h x1).letIn h (here.map (·.2.1))
  match away with
  | [] => .next s1
  | (blk, _) :: _ =>
    let y := s1.home h
    if y.queues.length < 1024 || (y.queues.find? blk).isSome then
      let mv := away.filter fun o => o.1 == blk
      let q := (y.queues.find? blk).getD {}
      let q1 := { q with waiters := q.waiters ++ mv.map (·.2.1), keptAt := q.mark (mv.any (·.2.2)) s.now }
      let rest := away.filter fun o => o.1 != blk
      let s2 := s1.setHome h { y with overflow := rest, queues := y.queues.set blk q1 }
      let s3 := s2.askFetch h s.now
      .next (if rest.isEmpty then s3 else s3.at_ (s.now + 1) rankFill .overflowMove { id := h })
    else .next s1

/-! ### Patrol and refresh (R248, R250) -/

/-- Blocks that patrol covers: those of LIVE granules whose checkpoint-set bit is 0, in ascending order from `from_` on and
around. -/
def Home.patrolNext (x : Home) (from_ : Nat) : Option Nat :=
  let gs := x.live.filter fun g => !x.ckset.contains g
  let ahead := gs.findSome? fun g =>
    if from_ ≤ 16 * g then some (16 * g) else if from_ < 16 * g + 16 then some from_ else none
  ahead.orElse fun _ => gs.head?.map (16 * ·)

/-- A home patrols one block (R250); `arg.id` is the home. A block that is resident or awaited needs no fetch of its own; when no
fetch can be started, which any queue's goes before, the patrol is tried again in the next cycle. -/
def execPatrolFetch (s : State) : Out :=
  let h := s.arg.id
  let x := s.home h
  if x.patrol = 0 || x.live.isEmpty then .next s
  else
    match x.patrolNext x.patrolPos with
    | none => .next (s.at_ (s.now + x.patrol) rankLast .patrolFetch { id := h })
    | some blk =>
      let onward (s : State) : State :=
        (s.modHome h fun x => { x with patrolPos := blk + 1 }).at_ (s.now + x.patrol) rankLast .patrolFetch { id := h }
      if (x.frames.find? blk).isSome || (x.queues.find? blk).isSome then .next (onward s)
      else if x.fetchCount < 8 && 0 < x.freeFrames && x.capped < (s.core h).bslim && x.queues.length < 1024
          && (choose x (s.core h).bslim (s.core h).starve s.now).isNone then
        let s1 := s.setHome h { x with queues := x.queues.set blk {} }
        .next (onward (s1.startBlock h blk false true))
      else .next (s.at_ (s.now + 1) rankLast .patrolFetch { id := h })

/-- A refresh takes a bank for 192 cycles (R248): fetches to it wait (R233). -/
def State.takeBank (s : State) (h b : Nat) (x : Home) : State :=
  (s.setHome h { x with bankBusy := x.bankBusy.set b (max s.now (x.bankBusy.getD b 0) + 192) }).rechannel h

/-- A refresh of bank `arg.idx` of home `arg.id` falls due (R248): a credit is used up, or the bank is taken for 192 cycles. -/
def execRefreshDue (s : State) : Out :=
  let h := s.arg.id
  let b := s.arg.idx
  let x := s.home h
  let c := x.credit.getD b 0
  let s1 := if 0 < c then s.setHome h { x with credit := x.credit.set b (c - 1) } else s.takeBank h b x
  .next (if x.live.isEmpty then s1
    else s1.at_ (s.now + 390) rankWork .refreshDue { id := h, idx := (b + 1) % 16 })

/-- A home pulls refreshes forward, one at a time (R248): in a work phase while its channel has no transfer queued, or when its channel has
been idle for 1,024 cycles since `arg.sub`, as long as that lasts. Which bank it takes is the implementation's.
(DESIGN CHOICE, log 38) -/
def execRefreshPullForward (s : State) : Out :=
  let h := s.arg.id
  let x := s.home h
  let idle := decide (x.chanEnd ≤ s.now)
  let due := if s.arg.flag then x.phase && idle else x.chanEnd == s.arg.sub && !x.live.isEmpty
  let on := if s.arg.flag then x.phase else due
  let b := Config.pullBank h s.now % 16
  let c := x.credit.getD b 0
  let s1 := if due && decide (c < 8) then s.takeBank h b { x with credit := x.credit.set b (c + 1) } else s
  .next (if on then s1.atTime (if idle then s.now + 192 else x.chanEnd) rankWork .refreshPullForward s.arg else s1)

end Sys2Proof.Machine
end

