-- ==== Sys2Proof/Machine/MemInstr.lean ====
section
/-! DEFINITION. The main-memory instructions (R252-R272). -/

namespace Sys2Proof.Machine

/-- Alignment of an access of `n` bytes (R253). -/
def aligned (va : Word) (n : Nat) (info : Word) : Except Stop Unit :=
  if va.toNat % n = 0 then .ok () else .error (.fault ⟨.align, va, info⟩)

/-- A request is sent; on a checked page the strand waits for it (R282), otherwise `post` gives the strand as it goes on. -/
def State.sendOr (s : State) (r : Req) (post : Strand → Strand) : State :=
  if r.checked then s.sendAndWait r
  else
    let t := s.send r
    t.setCur (post t.cur)

/-- A read that an instruction makes of what it goes on with (R333, R357), at its home: the strand waits in its slot, or parks on an absent
block of its own home or on a miss (R228, R244). `name` is the address that a fault names. (DEDUCED, log 53) -/
def look (s : State) (va : Word) (n : Nat) (need : Need) (k : Kind) (name : Word) : Except Stop State :=
  let c := s.cur
  match translate s c.core va need k with
  | .fault f => .error (.fault { f with addr := name })
  | .miss vpn =>
    .ok ((s.joinMiss c.core vpn (.strand s.curId)).park s.curId
      { kind := .miss vpn, since := s.now, va := name, info := BitVec.ofNat 64 k.code, len := 4 })
  | .hit pa leaf =>
    if homeOf pa == c.core && !resident (s.home c.core) (blockOf pa) then .ok (s.parkOn s.curId (blockOf pa) (leaf.getLsbD 6) name 4)
    else
      let t := s.send { s.reqFor (.look n) pa leaf va { len := 4 } with checked := false }
      .ok (t.setCur { t.cur with wait := some { kind := .event, since := s.now, va := name, len := 4, info := BitVec.ofNat 64 s.nextId } })

/-- What the strand's instruction asked for as request `n` is there, or its read has failed. -/
def State.looked (s : State) (g n : Nat) (r : Req) : State :=
  match (s.strand g).wait.filter fun w => w.kind == .event && w.info == BitVec.ofNat 64 n with
  | none => s
  | some w =>
    match r.fail with
    | some f => s.pendUpcall g { f with addr := w.va } 4
    | none => (s.modStrand g fun c => { c with bind := { c.bind with seen := c.bind.seen ++ r.data } }).resume g

/-! ### Loads and stores (R256-R259) -/

/-- A split-phase load of `n` bytes into a register of either class (R256, R257). -/
def loadMem (n : Nat) (dst : FillReg) (a : SReg) (la : Bool) (off : BitVec 9) (acquire : Bool) : State → Out :=
  run 4 fun s => do
    let c := s.cur
    let base ← readS c a
    needFree c dst
    needAcq c
    let va := addrM base off n
    aligned va n 0
    let ret : Retire := { len := 4, marksS := marked [(a, la)], dst := match dst with | .s r => .s r | .iv r => .iv r }
    withAccess s (.load n dst) va .r .read ret fun s r =>
      .ok (s.sendOr r fun c =>
        let c1 := (c.markS a la).setFill dst .pending
        { c1 with acq := if acquire then some dst else if c.acq = some dst then none else c.acq }.advance 4)

/-- A posted store of bytes (R258). -/
def postStore (s : State) (acc : Access) (va : Word) (ret : Retire) : Except Stop State :=
  withAccess s acc va .w .write ret fun s r => do
    needFlight s 0
    .ok (s.sendOr r fun c => c.retire ret 0)

/-- A store of the low `n` bytes of a register (R258). -/
def storeMem (n : Nat) (src : FillReg) (a : SReg) (la : Bool) (off : BitVec 9) : State → Out :=
  run 4 fun s => do
    let c := s.cur
    let base ← readS c a
    needFull c src
    needAcq c
    let v := match src with | .s r => c.sVal r | .iv r => c.ivVal r
    let va := addrM base off n
    aligned va n 0
    postStore s (.store ((leBytes n v.toNat).map some)) va { len := 4, marksS := marked [(a, la)] }

/-- `LD.B` (R256). -/
def execLdB (o : OpM) (s : State) : Out := loadMem 1 (.s o.t) o.a o.la o.off false s
/-- `LD.H` (R256). -/
def execLdH (o : OpM) (s : State) : Out := loadMem 2 (.s o.t) o.a o.la o.off false s
/-- `LD.W` (R256). -/
def execLdW (o : OpM) (s : State) : Out := loadMem 4 (.s o.t) o.a o.la o.off false s
/-- `LD.D` (R256). -/
def execLdD (o : OpM) (s : State) : Out := loadMem 8 (.s o.t) o.a o.la o.off false s
/-- `LD.ACQ` (R257). -/
def execLdAcq (o : OpM) (s : State) : Out := loadMem 8 (.s o.t) o.a o.la o.off true s
/-- `ILD` (R256). -/
def execIld (o : OpMIv) (s : State) : Out := loadMem 8 (.iv o.t) o.a o.la o.off false s
/-- `ST.B` (R258). -/
def execStB (o : OpM) (s : State) : Out := storeMem 1 (.s o.t) o.a o.la o.off s
/-- `ST.H` (R258). -/
def execStH (o : OpM) (s : State) : Out := storeMem 2 (.s o.t) o.a o.la o.off s
/-- `ST.W` (R258). -/
def execStW (o : OpM) (s : State) : Out := storeMem 4 (.s o.t) o.a o.la o.off s
/-- `ST.D` (R258). -/
def execStD (o : OpM) (s : State) : Out := storeMem 8 (.s o.t) o.a o.la o.off s
/-- `IST` (R258). -/
def execIst (o : OpMIv) (s : State) : Out := storeMem 8 (.iv o.t) o.a o.la o.off s

/-- The checks of an access that an instruction makes before it waits for a drain (R378): translation, or a park on its miss. -/
def checkFirst (s : State) (va : Word) (n : Need) (k : Kind) (go : Except Stop State) : Except Stop State := do
  match ← xlate s va n k with
  | .wait t => .ok t
  | .ok _ _ => go

/-- `ST.REL` (R259): a release, then a store. -/
def execStRel (o : OpM) (s : State) : Out :=
  run 4 (fun s => do
    let c := s.cur
    let base ← readS c o.a
    let v ← readS c o.t
    needAcq c
    let va := addrM base o.off 8
    aligned va 8 0
    checkFirst s va .w .write
      (release s .all (postStore s (.store ((leBytes 8 v.toNat).map some)) va { len := 4, marksS := marked [(o.a, o.la)] }))) s

/-! ### Load-when-changed (R260) -/

/-- The cycle of the first attempt of the `LDW` at the PC, kept while its strand is parked on a block or a miss (R184). -/
def Strand.ldwSince (c : Strand) (now : Nat) : Nat :=
  match c.kept with
  | some w => if w.kind = .event then w.since else now
  | none => now

/-- The strand waits for the reply to its `LDW`: an ARRIVAL strand parks (R260), but one whose access is checked keeps its slot (R282). -/
def State.awaitLdw (s : State) (g : Nat) (checked : Bool) (w : Wait) : State :=
  if checked then s.modStrand g fun c => { c with wait := some { w with hold := true } } else s.park g w

/-- `LDW` (R260): the strand waits until the reply. -/
def execLdw (o : OpLW) (s : State) : Out :=
  run 4 (fun s => do
    let c := s.cur
    let va ← readS c o.a
    let cmp ← readS c o.d
    needAcq c
    aligned va 8 0
    let since := c.ldwSince s.now
    let lim := (c.lim10 o.lim).map (since + ·)
    let k : Wait := { kind := .event, since := since, until_ := lim, va := va, len := 4 }
    let s1 := if c.kept = some k then s else
      match lim with
      | some l => s.at_ (l + 1) rankExpiry .ldwExpiry { id := s.curId, sub := since, flag := true }
      | none => s
    let ret : Retire := { len := 4, dst := .s o.d }
    withAccess (s1.setCur { c with kept := some k }) (.ldw cmp o.d) va .r .read ret fun s r =>
      let n := s.nextId
      .ok ((s.send { r with limit := lim }).awaitLdw s.curId r.checked
        { kind := .reply n, since := s.now, va := va, retire := ret, len := 4 })) s

/-- The limit of an `LDW` ends while its strand is parked on the block or the miss (`arg.flag`), or at the request's home. -/
def execLdwExpiry (s : State) : Out :=
  if s.arg.flag then
    let c := s.strand s.arg.id
    if c.wait.any fun w => match w.kind with | .reply _ => true | _ => false then .next s
    else
      .next (s.expire s.arg.id s.arg.sub (fun k => if k = .event then some ⟨.ldwLimit, ((c.kept.getD { kind := .event, since := 0 }).va), 0⟩ else none)
        (fun c s => (s.leaveHome c.core s.arg.id).modCore c.core fun k =>
          { k with misses := k.misses.map fun (v, m) => (v, { m with joined := m.joined.filter (· != .strand s.arg.id) }) }))
  else .next (s.expireWatch s.arg.id)

/-! ### Atomics and reductions (R264-R267) -/

/-- A returning atomic (R264, R265): the strand is out of the rotation until the reply. -/
def atomic (acc : Access) (va : Word) (ret : Retire) (s : State) : Except Stop State :=
  withAccess s acc va .rw .write ret fun s r => .ok (s.sendAndWait r)

/-- `AMO` (R264). -/
def execAmo (fn : AmoFn) (o : OpRRR) (s : State) : Out :=
  run 4 (fun s => do
    let c := s.cur
    let va ← readS c o.a
    let v ← readS c o.b
    needFree c (.s o.d)
    needAcq c
    aligned va 8 0
    atomic (.amo fn v o.d) va { len := 4, marksS := marked [(o.a, o.la), (o.b, o.lb)], dst := .s o.d } s) s

/-- `CAS` (R265). -/
def execCas (o : OpRRR) (s : State) : Out :=
  run 4 (fun s => do
    let c := s.cur
    let va ← readS c o.a
    let v ← readS c o.b
    let e ← readS c o.d
    needAcq c
    aligned va 8 0
    atomic (.cas e v o.d) va { len := 4, marksS := marked [(o.a, o.la), (o.b, o.lb)], dst := .s o.d } s) s

/-- `RED` (R266). -/
def execRed (fn : RedFn) (a b : SReg) (la lb : Bool) (s : State) : Out :=
  run 4 (fun s => do
    let c := s.cur
    let va ← readS c a
    let v ← readS c b
    needAcq c
    aligned va 8 0
    let ret : Retire := { len := 4, marksS := marked [(a, la), (b, lb)] }
    withAccess s (.red fn v) va .w .write ret fun s r => do
      needFlight s 1
      .ok (s.sendOr r fun c => c.retire ret 0)) s

/-- `WAITRED` (R267). -/
def execWaitred (s : State) : Out := run 2 (fun s => do needDrained s .reds; .ok (s.setCur (s.cur.advance 2))) s

/-! ### Row loads and stores (R262, R263) -/

/-- `VLD` (R262): at issue it registers its row and retires; the lines come later. -/
def execVld (o : OpVS1) (s : State) : Out :=
  run 4 (fun s => do
    let c := s.cur
    let va ← readS c o.s
    needAcq c
    let row := ptrAddr (c.pVal o.pd)
    rowCheck row 0
    aligned va 512 3
    needRows (s.core c.core) [row] true
    let w := fmtBits o.fmt
    let lanes := fmtLanes o.fmt
    let ret : Retire := { len := 4, marksS := marked [(o.s, o.la)], ptr := if o.inc then some o.pd else none }
    withAccess s (.row s.nextId 0) va .r .read ret fun s r => do
      needFlight s 2
      let load : RowLoad :=
        { strand := s.curId, gang := c.ident.gang, row := row, width := w
          enabled := (List.range lanes).map (enabled (c.kVal o.k) w (c.count lanes)) }
      let s1 := s.modCore c.core fun k => { k with rowLoads := k.rowLoads.set s.nextId load }
      .ok (s1.sendOr { r with acc := .row s.nextId 0 } fun c => c.retire ret 0)) s

/-- The bytes of a row that its enabled elements cover: a byte that several elements share is stored when one of them is
enabled. (DEDUCED, log 28) -/
def storedBytes (w : Nat) (en : Nat → Bool) (row : Nat) : List (Option Byte) :=
  (List.range 512).map fun b =>
    let on := if w < 8 then (List.range (8 / w)).any fun j => en (b * (8 / w) + j) else en (b * 8 / w)
    if on then some (BitVec.ofNat 8 (row / 256 ^ b)) else none

/-- `VST` (R263): the row is read in the issue turn, and one write is posted for each line that holds an enabled element. -/
def execVst (o : OpVS1) (s : State) : Out :=
  run 4 (fun s => do
    let c := s.cur
    let va ← readS c o.s
    needAcq c
    let row := ptrAddr (c.pVal o.pd)
    rowCheck row 0
    aligned va 512 3
    let k := s.core c.core
    needRows k [row] false
    needCleanRows k [row]
    let w := fmtBits o.fmt
    let d := storedBytes w (enabled (c.kVal o.k) w (c.count (fmtLanes o.fmt))) (k.row row)
    let ret : Retire := { len := 4, marksS := marked [(o.s, o.la)], ptr := if o.inc then some o.pd else none }
    if d.all (·.isNone) then checkFirst s va .w .write (.ok (s.setCur (c.retire ret 0)))
    else postStore s (.store d) va ret) s

/-! ### Fences (R268, R269) -/

/-- `FENCE` (R268). -/
def execFence (s : State) : Out := run 2 (fun s => release s .all (.ok (s.setCur (s.cur.advance 2)))) s

/-- A fence of one scope (R269): it waits for the strand's accesses to homes of the scope alone, and then meets a failure as every drain does
(R255). (DEDUCED, log 100) -/
def fenceScope (q : FScope) : State → Out := run 4 fun s => do needDrained s (.scope q); .ok (s.setCur (s.cur.advance 4))

/-- `FENCE.S.CORE` (R269). -/
def execFenceSCore (s : State) : Out := fenceScope .core s
/-- `FENCE.S.SG` (R269). -/
def execFenceSSg (s : State) : Out := fenceScope .sg s
/-- `FENCE.S.DIE` (R269). -/
def execFenceSDie (s : State) : Out := fenceScope .die s
/-- `FENCE.S.PKG` (R269). -/
def execFenceSPkg (s : State) : Out := fenceScope .pkg s

/-! ### Migration and hints (R270, R271) -/

/-- The lowest operand-memory slot that a strand holds (R202). -/
def State.lowestSlot (s : State) (g : Nat) : Nat :=
  (((s.core (s.strand g).core).omHold.filter fun (_, h) => h == g).head?.map (·.1)).getD 0

/-- `MIGR` (R270, R240): the strand leaves, and performs the instruction from the start at the home it has reached. -/
def execMigr (a : SReg) (la : Bool) (s : State) : Out :=
  run 4 (fun s => do
    let c := s.cur
    let va ← readS c a
    needAcq c
    match ← xlate s va .any .read with
    | .wait t => .ok t
    | .ok pa _ =>
      let h := homeOf pa
      let stay (c : Strand) : Except Stop State := .ok (s.setCur ((c.markS a la).advance 4))
      if h ≠ c.core && !c.ident.step && s.holdsSlot s.curId then
        throw (.fault ⟨.slot, 0, BitVec.ofNat 64 (6 * 256 + s.lowestSlot s.curId)⟩)
      needDrained s .writes
      if h = c.core then stay { c with mcount := 0 }
      else if c.ident.step || !s.room h c then stay c
      else .ok (s.migrate s.curId h)) s

/-- A hint is sent to the home of its address (R271). -/
def hintTo (acc : Access) (a : SReg) (la : Bool) : State → Out :=
  run 4 fun s => do
    let c := s.cur
    let va ← readS c a
    needAcq c
    match ← xlate s va .any .read with
    | .wait t => .ok t
    | .ok pa leaf =>
      let ret : Retire := { len := 4, marksS := marked [(a, la)] }
      .ok ((s.send { s.reqFor acc pa leaf va ret with checked := false }).setCur (c.retire ret 0))

/-- `BWANT` (R271). -/
def execBwant (a : SReg) (la : Bool) (s : State) : Out := hintTo .want a la s
/-- `BKEEP` (R271). -/
def execBkeep (a : SReg) (la : Bool) (s : State) : Out := hintTo .keep a la s
/-- `BFREE` (R271). -/
def execBfree (a : SReg) (la : Bool) (s : State) : Out := hintTo .free a la s

/-! ### Row copies (R272) -/

/-- The row copy is posted to the home of its destination. -/
def sendCopy (s : State) (pa : Nat) (leaf : Word) (va : Word) (src : Option Nat) (ret : Retire) : Except Stop State := do
  needFlight s 0
  .ok ((s.send { s.reqFor (.bcopy src) pa leaf va ret with checked := false }).setCur (s.cur.retire ret 0))

/-- `BCOPY` (R272): both addresses are translated, the destination first; then they are aligned to rows, and of one home, bank and
subarray. -/
def execBcopy (a b : SReg) (la lb : Bool) (s : State) : Out :=
  run 4 (fun s => do
    let c := s.cur
    let da ← readS c a
    let sa ← readS c b
    needAcq c
    match ← xlate s da .w .write with
    | .wait t => .ok t
    | .ok pa leaf =>
      match ← xlate s sa .r .read with
      | .wait t => .ok t
      | .ok pb _ =>
        aligned da 1024 1
        aligned sa 1024 1
        if homeOf pa ≠ homeOf pb || bankOf pa ≠ bankOf pb || subarrayOf pa ≠ subarrayOf pb then
          throw (.fault ⟨.align, da, 2⟩)
        sendCopy s pa leaf da (some pb) { len := 4, marksS := marked [(a, la), (b, lb)] }) s

/-- `BCOPY.ZERO` (R272). -/
def execBcopyZero (a : SReg) (la : Bool) (s : State) : Out :=
  run 4 (fun s => do
    let c := s.cur
    let da ← readS c a
    needAcq c
    match ← xlate s da .w .write with
    | .wait t => .ok t
    | .ok pa leaf =>
      aligned da 1024 1
      sendCopy s pa leaf da none { len := 4, marksS := marked [(a, la)] }) s

end Sys2Proof.Machine
end

