-- ==== Sys2Proof/Machine/Slots.lean ====
section
/-! DEFINITION. Slots and contexts (R166-R168), arrivals of migrating contexts (R240), misses and their replies (R244), shoot-downs
(R246), the end of a containment retry (R387), and withdrawals (R389). -/

namespace Sys2Proof.Machine

/-! ### Order of nodes (R176) -/

/-- Whether a READY node comes before another (R176). -/
def ReadyNode.before (a b : ReadyNode) : Bool :=
  decide (b.rec_.prio < a.rec_.prio) ||
    (a.rec_.prio == b.rec_.prio && (decide (a.since < b.since) || (a.since == b.since && decide (a.node < b.node))))

/-- Enters a node in the order of R176. -/
def insertNode (n : ReadyNode) : List ReadyNode → List ReadyNode
  | [] => [n]
  | m :: t => if n.before m then n :: m :: t else m :: insertNode n t

/-- Whether FIXED cores of a die leave their empty slots to a STEP node (R176). -/
def Die.draining (d : Die) : Bool :=
  match d.nodes with
  | n :: _ => n.rec_.step && decide (64 ≤ n.fails)
  | [] => false

/-! ### Slots and contexts -/

/-- Strands that kept their slots for want of room leave them while there is room (R229). -/
def State.parkLate (s : State) (core : Nat) : State :=
  (s.core core).slots.toList.foldl (init := s) fun s o =>
    match o with
    | some g =>
      let c := s.strand g
      if c.lateParker && s.room core c then
        ((s.vacate g (s.now + 1)).modStrand g fun c => { c with place := .parked, fetch := c.fetch.kept, owe := 0 }).stopLeft g
      else s
    | none => s

/-- A strand enters a slot, where it may issue from the ninth cycle on (R167): its pending upcall is delivered, and the fetch of
its instruction starts. -/
def State.enterSlot (s : State) (g core slot : Nat) : State :=
  let s1 := s.modCore core fun k => { k with slots := k.slots.setIfInBounds slot (some g) }
  let c := s.strand g
  let s2 := s1.setStrand g { c with place := .slot slot, readyAt := s.dieNow core + 8, turns := 0, upcall := none }
  let s3 := match c.upcall with
    | some (f, len) => s2.raise g f len
    | none => s2
  s3.startFetch g

/-- Whether a gang has been placed and its strands have not started. -/
def Gang.starting (g : Gang) : Bool := match g.phase with | .preloading _ => true | _ => false

/-- Whether a pre-emption can name a gang (R392): its strands have started and it has not completed, and no lapsed save of it goes on. -/
def Gang.canStop (g : Gang) : Bool := g.phase == .running && g.saving == 0

/-- Empty slots of a core that a placed STEP gang's strands will enter (R177). (DEDUCED, log 56) -/
def State.promised (s : State) (core : Nat) : Nat :=
  ((s.gangs.filter fun (_, g) => g.starting && g.step && g.cores.contains core).map fun (_, g) => g.rec_.nstr).sum

/-- The lowest of a core's empty working slots (R164, R167). -/
def Core.emptySlot (k : Core) : Option Nat :=
  (List.range 16).find? fun n => !k.missing.contains n && ((k.slots[n]?).getD none).isNone

/-- How many working slots of a core are empty. -/
def Core.emptySlots (k : Core) : Nat :=
  ((List.range 16).filter fun n => !k.missing.contains n && ((k.slots[n]?).getD none).isNone).length

/-- The head of the ready list of core `arg.id` is loaded into the lowest empty slot, one context per cycle (R167), unless a STEP node at
the head of the die's nodes drains the slots (R176). -/
def execSlotLoad (s : State) : Out :=
  let core := s.arg.id
  let s0 := s.parkLate core
  let k := s0.core core
  match k.ready, k.emptySlot with
  | g :: rest, some n =>
    if (!k.rotNow && (s0.die (dieOf core)).draining) || k.emptySlots ≤ s0.promised core then .next s0
    else
      let s1 := s0.setCore core { k with ready := rest }
      .next (((s1.enterSlot g core n).askPass (dieOf core)).askLoad core (s.now + 1))
  | _, _ => .next s0

/-- Cores of a die may load contexts again, for its slots are drained no more (R176). -/
def State.askLoads (s : State) (die : Nat) : State :=
  (s.cores.filter fun (c, k) => dieOf c == die && !k.ready.isEmpty).foldl (fun s (c, _) => s.askLoad c s.now) s

/-- The context of strand `arg.id` arrives at core `arg.idx` (R240). -/
def execMigrationArrival (s : State) : Out :=
  let g := s.arg.id
  let h := s.arg.idx
  match s.strands.find? g with
  | none => .next s
  | some c =>
    let c1 := { c with core := h, mcount := 0 }
    match c.place with
    | .migrating _ =>
      let s1 := (s.setStrand g { c1 with place := .ready }).modCore h fun k => { k with ready := k.ready ++ [g] }
      .next ((s1.askLoad h s.now).stopLeft g)
    | _ => .next (s.setStrand g c1)

/-- A containment retry resumes (R387): the strand `arg.id` performs the faulting instruction from the start. With `arg.flag` the fault of
that strand is decided (R388), with `arg.idx` its gang, `arg.sub` its core, `arg.n` the code and `arg.v` the PC; `arg.flag2` when the strand
has not exited. -/
def execContainRetryResume (s : State) : Out :=
  let a := s.arg
  if a.flag then
    if a.flag2 && (s.strands.find? a.id).isNone then .next (s.pokeGang a.idx)
    else .next (s.contain a.id a.idx a.sub a.n a.v a.flag2)
  else
    match s.strands.find? a.id with
    | none => .next s
    | some c =>
      match c.wait with
      | some w =>
        if w.kind = .retry s.now then .next ((s.setStrand a.id { c with fetch := .idle }).resume a.id) else .next s
      | none => .next s

/-- A strand that has stopped as a victim's learns that its request or message has been withdrawn at another core (R393). -/
def State.tellWithdrawn (s : State) (g n from_ : Nat) : State :=
  if (s.strand g).awaits n then
    s.at_ (s.now + latency from_ (s.strand g).core) rankReply .waitWithdrawal { id := n, sub := g, n := 1 }
  else s

/-- Whether a request that waits or watches at its home, or an `LDW` that is about to, can be withdrawn (R389); any other is
performed. -/
def Req.revocable (r : Req) : Bool :=
  match r.stage with
  | .waiting | .behind | .watching => true
  | .port => (match r.acc with | .ldw _ _ => true | _ => false)
  | _ => false

/-- A withdrawal by strand `arg.sub` reaches the home of its request `arg.id`, or the core of its tagged request or fill (`arg.flag`)
(R389); with `arg.n` 1, a strand that has stopped learns of it. One that overtakes its request on the way is performed behind it.
(DEDUCED, log 60) -/
def execWaitWithdrawal (s : State) : Out :=
  let n := s.arg.id
  let g := s.arg.sub
  if s.arg.n = 1 then .next (s.unwaitReply g n)
  else if s.arg.flag then
    match s.msgs.find? n with
    | none => .next s
    | some m =>
      if m.done || m.kind = 2 then .next s
      else if !m.arrived then .next (s.at_ (s.now + 1) rankWork .waitWithdrawal s.arg)
      else
        let at_ := if m.kind = 3 then s.fillCore m.target else m.target
        let s1 := s.modCore at_ fun k => { k with tagWaits := k.tagWaits.filter fun t => t.who != .req n }
        .next ({ s1 with msgs := s1.msgs.erase n }.tellWithdrawn g n at_)
  else
    match s.reqs.find? n with
    | none => .next s
    | some r =>
      if r.revocable then
        let s1 := s.unwait n r
        let s2 := { s1 with reqs := s1.reqs.erase n }.tellWithdrawn g n r.home
        .next ((s2.nextBehind r).meshNext r.home)
      else if r.stage == .sent && !s.pkg.heldReqs.contains n then .next (s.at_ (s.now + 1) rankWork .waitWithdrawal s.arg)
      else .next s

/-! ### Translation (R244, R246) -/

/-- A miss message `arg.idx` of core `arg.id` reaches the translation core of its stack group, whose reply sets out (R244). -/
def execTlbMissWalk (s : State) : Out :=
  .next (s.at_ (s.now + latency s.arg.id (walkStop s.arg.id)) rankMiss .missReply { id := s.arg.id, idx := s.arg.idx })

/-- The leaf and companion that the page tables hold for a virtual page. (DESIGN CHOICE, log 23) -/
def State.walk (s : State) (vpn : Nat) : Option (Word × Word) :=
  match s.pages.find? vpn with
  | some e => some e
  | none => (s.pages.find? (vpn / 32 * 32)).filter fun e => leafBig e.1

/-- LOCK of an entry (R241). -/
def TlbEntry.locked (e : TlbEntry) : Bool := e.tag.getLsbD 62

/-- The unlocked entry at or after the replacement pointer (R244). -/
def Core.victim (k : Core) : Option Nat :=
  ((List.range 256).map fun i => (k.tlbPtr + i) % 256).find? fun n => !(k.tlb.getD n {}).locked

/-- Writes an entry at the replacement pointer (R244). -/
def Core.install (k : Core) (e : TlbEntry) : Core :=
  match k.victim with
  | some n => { k with tlb := k.tlb.set n e, tlbPtr := (n + 1) % 256 }
  | none => k

/-- What a request needs of the page it goes to (R242, R252). -/
def Access.need : Access → Need × Kind
  | .unitWrite _ _ | .fabWrite _ _ _ _ | .engWrite _ _ _ _ => (.w, .write)
  | .mig _ put => (.page, if put.isSome then .write else .read)
  | _ => (.r, .read)

/-- Translates the address of the request `n` of a unit through the TLB of a core, and sends it (R244, R245); when the translation fails the
unit learns of it at once. -/
def State.sendVia (s : State) (n : Nat) (r : Req) (core : Nat) : State :=
  match translate s core r.va r.acc.need.1 r.acc.need.2 with
  | .hit pa leaf =>
    let q := { r with pa := pa, home := homeOf pa, kept := leaf.getLsbD 6
                      via := (tlbFind (s.core core) (vpnOf r.va)).map fun e => (core, e) }
    { s with reqs := s.reqs.set n q }.toHome n q
  | .miss vpn => { s with reqs := s.reqs.set n { r with via := some (core, {}) } }.joinMiss core vpn (.req n)
  | .fault f =>
    let q := { r with stage := .done, home := r.core, fail := some f }
    { s with reqs := s.reqs.set n q }.answer n q {}

/-- A request of a unit for an address that a core translates. -/
def State.sendAs (s : State) (r : Req) (core : Nat) : State := (s.addReq r).sendVia s.nextId r core

/-- A waiter of a miss goes on, or takes fault 0x11 (R244, R384): a strand itself, an engine or a firing by an event, a
request of a unit by being sent, or by its unit's learning of the fault. -/
def State.missWaiter (s : State) (core vpn : Nat) (ok : Bool) (w : Waiter) : State :=
  match w with
  | .strand g =>
    if ok then s.resume g
    else
      let x := (s.strand g).wait.getD { kind := .event, since := 0 }
      s.pendUpcall g ⟨.absent, x.va, x.info⟩ x.len
  | .fetch g => if ok then s.resumeFetch g else s.fetchFault g .absent
  | .engine _ q => s.at_ s.now rankWork .engineUnit { id := core, idx := q, n := if ok then 0 else Cause.code .absent, v := BitVec.ofNat 64 vpn }
  | .firing die b => s.at_ s.now rankWork .stateNotice { die := die, idx := b, n := 5, flag := !ok }
  | .req n =>
    match s.reqs.find? n with
    | none => s
    | some r =>
      if ok then s.sendVia n r core
      else
        let q := { r with stage := .done, home := r.core, fail := some ⟨.absent, r.va, BitVec.ofNat 64 r.acc.need.2.code⟩ }
        { s with reqs := s.reqs.set n q }.answer n q {}

/-- The reply to a miss of core `arg.id` on virtual page `arg.idx` (R244). -/
def execMissReply (s : State) : Out :=
  let core := s.arg.id
  let vpn := s.arg.idx
  let k := s.core core
  match (s.walk vpn).filter fun e => e.1.getLsbD 0 with
  | some (leaf, comp) =>
    let big := leafBig leaf
    let tag := BitVec.ofNat 64 (2 ^ 63 + (if big then vpn / 32 * 32 else vpn) * 65536)
    let hit (v : Nat) : Bool := v == vpn || (big && v / 32 == vpn / 32)
    let ws := (k.misses.filter fun m => hit m.1).flatMap fun m => m.2.joined
    let k1 := k.install { tag := tag, leaf := leaf, comp := comp }
    let s1 := s.setCore core { k1 with misses := k.misses.filter fun m => !hit m.1 }
    .next (ws.foldl (fun s w => s.missWaiter core vpn true w) s1)
  | none =>
    match k.misses.find? vpn with
    | some m => .next (m.joined.foldl (fun s w => s.missWaiter core vpn false w) (s.setCore core { k with misses := k.misses.erase vpn }))
    | none => .next s

/-- Whether a shoot-down names an entry (R453): mode 0 those of a virtual page, 1 every unlocked one, 2 all. -/
def TlbEntry.named (e : TlbEntry) (mode vpn : Nat) : Bool :=
  match mode with
  | 0 => tlbHit vpn e
  | 1 => !e.locked
  | _ => true

/-- Removes from a TLB the entries that a shoot-down names (R453). -/
def Core.invalidate (k : Core) (mode vpn : Nat) : Core := { k with tlb := k.tlb.filter fun (_, e) => !e.named mode vpn }

/-- A strand's shoot-down invalidates entries of a core: accesses that the core translated through them, and that have not reached their
homes' ports, are marked (R246). (DEDUCED, log 47) -/
def State.shoot (s : State) (core mode vpn g : Nat) : State :=
  let gone := ((s.core core).tlb.filter fun (_, e) => e.named mode vpn).map (·.2)
  let s1 := s.modCore core fun k => k.invalidate mode vpn
  { s1 with reqs := s1.reqs.mapV fun (r : Req) =>
      if r.stage == .sent && r.via.any fun v => v.1 == core && gone.contains v.2 then { r with shots := r.shots.add g } else r }

/-- Whether an access that a core translated through an entry that the strand's shoot-down has invalidated has still to reach its home's
port (R246). -/
def State.unsettled (s : State) (core g : Nat) : Bool :=
  s.reqs.any fun (_, r) => r.stage == .sent && r.shots.contains g && r.via.any fun v => v.1 == core

/-- A shoot-down: `arg.n` 0, it reaches core `arg.id` and invalidates the entries that `arg.idx` (mode) and `arg.v` (virtual page)
name; 1, the core acknowledges it once every access translated through them has reached its home (R246); 2, the acknowledgement
reaches the strand `arg.sub`, whose `TLBI` retires with the last one (R453). -/
def execShootdown (s : State) : Out :=
  let a := s.arg
  match a.n with
  | 0 =>
    .next ((s.shoot a.id a.idx a.v.toNat a.sub).at_ s.now rankWork .shootdown { a with n := 1 })
  | 1 =>
    if s.unsettled a.id a.sub then .next (s.at_ (s.now + 1) rankWork .shootdown a)
    else .next (s.at_ (s.now + latency a.id (s.strand a.sub).core) rankReply .shootdown { a with n := 2 })
  | _ =>
    match s.strands.find? a.sub with
    | none => .next s
    | some c =>
      match c.wait with
      | some w =>
        if w.kind ≠ .event then .next s
        else if w.info = 1 then .next ((s.setStrand a.sub (c.retire w.retire 0)).resume a.sub)
        else .next (s.setStrand a.sub { c with wait := some { w with info := w.info - 1 } })
      | none => .next s

end Sys2Proof.Machine
end

