-- ==== Sys2Proof/Machine/Streams.lean ====
section
/-! DEFINITION. Stream units: stream events (R341-R344), panes and records (R345-R347), firing (R348-R352), and the writes that a
unit makes (R346, R350). A stream event's `arg` has the die, the stream in `id` and the source in `idx`; of a command, its number in
`sub`, its core plus 1 in `n` and the number of its stream's definition in `gen`; `flag2` when its turn has come. -/

namespace Sys2Proof.Machine

/-! ### Parts -/

/-- A stream of a die's unit. -/
def State.stream (s : State) (d i : Nat) : Option Stream := (s.die d).streams.find? i
/-- Replaces a stream. -/
def State.setStream (s : State) (d i : Nat) (x : Stream) : State := s.modDie d fun y => { y with streams := y.streams.set i x }
/-- A binding of a die's unit. -/
def State.binding (s : State) (d i : Nat) : Option Binding := (s.die d).bindings.find? i
/-- Replaces a binding. -/
def State.setBinding (s : State) (d i : Nat) (x : Binding) : State := s.modDie d fun y => { y with bindings := y.bindings.set i x }

/-! ### Instances and panes (R345) -/

/-- start_k. -/
def Binding.start (b : Binding) (k : Nat) : Int := b.origin + k * b.hop
/-- end_k. -/
def Binding.end_ (b : Binding) (k : Nat) : Int := b.start k + b.len
/-- Pane size. -/
def Binding.pane (b : Binding) : Nat := Nat.gcd b.len b.hop
/-- Panes of an instance. -/
def Binding.np (b : Binding) : Nat := b.len / b.pane
/-- How many instances have their end at or before an event time. -/
def Binding.ended (b : Binding) (w : Int) : Nat :=
  if w < b.origin + b.len then 0 else (w - b.origin - b.len).toNat / b.hop + 1
/-- The existing instances that contain an event time, in ascending order (R347). -/
def Binding.covering (b : Binding) (t : Int) : List Nat :=
  if t < b.origin then []
  else
    let x := (t - b.origin).toNat
    let k := x / b.hop
    (List.range (b.len / b.hop + 1)).reverse.filterMap fun j =>
      if j ≤ k && decide (b.k0 ≤ k - j) && decide (x < (k - j) * b.hop + b.len) then some (k - j) else none
/-- The first pane of an instance. -/
def Binding.firstPane (b : Binding) (k : Nat) : Nat := k * b.hop / b.pane
/-- Existing instances that contain a pane. -/
def Binding.holding (b : Binding) (p : Nat) : List Nat :=
  (List.range (b.np + 1)).filterMap fun j =>
    let k := p * b.pane / b.hop
    if j ≤ k && decide (b.k0 ≤ k - j) && decide (b.firstPane (k - j) ≤ p) && decide (p < b.firstPane (k - j) + b.np) then some (k - j)
    else none

/-- Whether an instance has retired at a stream watermark (R345). -/
def Binding.retired (b : Binding) (w : Int) (k : Nat) : Bool := decide (b.end_ k + b.late ≤ w)

/-- Whether a firing that has not completed lists a pane (R347). -/
def Binding.lists (b : Binding) (p : Nat) : Bool :=
  (b.queue ++ b.current.toList).any fun f => decide (b.firstPane f.k ≤ p) && decide (p < b.firstPane f.k + b.np)

/-- The occupant of a slot: a slot is free once every instance that contains its pane has retired and every firing that lists it has
completed (R347). -/
def Binding.occupant (b : Binding) (w : Int) (i : Nat) : Option PaneSlot :=
  (b.slots.find? i).filter fun x => b.lists x.pane || !(b.holding x.pane).all (b.retired w)

/-! ### Writes to the area (R346) -/

/-- The physical address of a byte of the area (R357). -/
def Binding.pa (b : Binding) (off : Nat) : Nat :=
  let va := b.area + off
  match b.map.find? fun e => e.1 == va % 2 ^ 48 / 65536 with
  | some (_, leaf) => leafPa leaf (BitVec.ofNat 64 va)
  | none => 0

/-- A write of a unit sets out from its mesh stop (R455). -/
def State.unitWrite (s : State) (stop pa : Nat) (op : UnitOp) (note : UnitNote) : State :=
  let r : Req := { acc := .unitWrite op note, strand := none, gang := 0, core := stop, home := homeOf pa, pa := pa, va := 0, pc := 0 }
  (s.addReq r).toHome s.nextId r

/-- A write of a unit at a virtual address sets out from its stop, translated in the name of a core (R315, R350). -/
def State.unitWriteVa (s : State) (stop core : Nat) (va : Word) (op : UnitOp) (note : UnitNote) : State :=
  s.sendAs { acc := .unitWrite op note, strand := none, gang := 0, core := stop, home := stop, pa := 0, va := va, pc := 0 } core

/-- A read of a unit sets out from its mesh stop (R225, R455), in a cycle that its request keeps. -/
def State.unitAsk (s : State) (stop pa n : Nat) (note : UnitNote) : State :=
  let r : Req := { acc := .unitRead n note, strand := none, gang := 0, core := stop, home := homeOf pa, pa := pa, va := 0, pc := 0
                   val := BitVec.ofNat 64 s.now }
  (s.addReq r).toHome s.nextId r

/-- Writes bytes of the area, at most four lines. -/
def State.areaBytes (s : State) (d : Nat) (b : Binding) (off : Nat) (bs : List Byte) (note : UnitNote) : Nat → State
  | 0 => s
  | fuel + 1 =>
    if bs.isEmpty then s
    else
      let n := 64 - (b.area + off) % 64
      (s.unitWrite (streamStop d) (b.pa off) (.bytes (bs.take n) false) note).areaBytes d b (off + n) (bs.drop n) note fuel

/-- Writes bytes of the area. -/
def State.areaWrite (s : State) (d : Nat) (b : Binding) (off : Nat) (bs : List Byte) (note : UnitNote) : State :=
  s.areaBytes d b off bs note 5

/-- Bytes of one pane slot. -/
def Binding.slotBytes (b : Binding) (rs : Nat) : Nat := 64 + (b.mcap + b.lcap) * rs

/-- The counter word at an offset of the area's header (R346). -/
def Binding.counter (b : Binding) (off : Nat) : Nat :=
  match off with
  | 16 => b.tooLate
  | 24 => b.early % 2 ^ 32 * 2 ^ 32 + b.paneFull % 2 ^ 32
  | 32 => b.fireFail % 2 ^ 32 * 2 ^ 32 + b.noWin % 2 ^ 32
  | 40 => b.fired
  | _ => 0

/-- A counter has changed: the unit writes its word (R346). -/
def State.counted (s : State) (d bi : Nat) (b : Binding) (off : Nat) : State :=
  (s.setBinding d bi b).areaWrite d b off (leBytes 8 (b.counter off)) .none

/-! ### Firing (R348-R352) -/

/-- A slot's counts for a pane, with its late count at the previous firing. -/
def Binding.paneCounts (b : Binding) (k : Nat) (prev : List Nat) : List (Nat × Nat × Nat) :=
  (List.range b.np).map fun j =>
    let p := b.firstPane k + j
    match (b.slots.find? (p % b.npane)).filter fun x => x.pane == p with
    | some x => (x.main, x.late, prev.getD j 0)
    | none => (0, 0, prev.getD j 0)

/-- Word of a firing record for a listed pane (R349). -/
def paneWord (p : Nat × Nat × Nat) : Nat := p.1 + p.2.1 * 2 ^ 16 + p.2.2 * 2 ^ 32

/-- WIN of a firing record (R349). -/
def winOf (d bi : Nat) : Nat := bi + d * 2 ^ 10

/-- The firing record (R349). -/
def Firing.record (f : Firing) (b : Binding) (d bi : Nat) : List Byte :=
  leBytes 8 (BitVec.ofInt 64 (b.start f.k)).toNat ++ leBytes 8 (BitVec.ofInt 64 (b.end_ f.k)).toNat
    ++ leBytes 4 (winOf d bi) ++ leBytes 4 f.amend
    ++ leBytes 2 ((if f.amend = 0 then 0 else 1) + if f.last then 2 else 0) ++ leBytes 1 b.np ++ leBytes 1 0
    ++ leBytes 2 (b.firstPane f.k % b.npane) ++ leBytes 2 0
    ++ leBytes 32 ((f.panes.map paneWord).foldr (fun w n => w + 2 ^ 64 * n) 0)

/-- STATE of a node's STATUS word. -/
def State.nodeState (s : State) (d node : Nat) : Nat := (s.word ((s.die d).ntbase.toNat + 128 * node + 0x68)).toNat % 8

/-- How far the run of completed first firings goes on (R352). -/
def runTo (done : NatSet) : Nat → Nat → Nat
  | n, 0 => n
  | n, fuel + 1 => if done.contains n then runTo done (n + 1) fuel else n

/-- A first firing has completed, or was discarded (R350, R352): the completed run may raise the derived source. -/
def State.firstDone (s : State) (d bi k : Nat) : State :=
  match s.binding d bi with
  | none => s
  | some b =>
    let set := NatSet.add b.doneSet k
    let n := runTo set b.doneTo set.length
    let s1 := s.setBinding d bi { b with doneSet := set.filter fun x => decide (n ≤ x), doneTo := n }
    if b.outEn && decide (b.doneTo < n) then
      s1.at_ s.now rankSuDerived .derivedRaise { die := d, id := b.outStr, idx := b.outSrc, v := BitVec.ofInt 64 (b.end_ (n - 1)) }
    else s1

/-- Whether pane writes that a firing's snapshot counts have still to be performed (R350). -/
def State.paneWritesOpen (s : State) (d bi seq : Nat) : Bool :=
  s.reqs.any fun (n, r) => decide (n < seq) &&
    (match r.acc with | .unitWrite _ (.pane e b _) => e == d && b == bi | _ => false)

/-- The head firing of a binding is discarded (R350): FIREFAIL counts it, and it counts as completed. -/
def State.discardFiring (s : State) (d bi : Nat) : State :=
  match s.binding d bi with
  | none => s
  | some b =>
    match b.queue with
    | f :: rest =>
      let s1 := s.counted d bi { b with step := 0, queue := rest, fireFail := b.fireFail + 1 } 32
      (if f.amend = 0 then s1.firstDone d bi f.k else s1).at_ s.now rankWork .stateNotice { die := d, idx := bi, n := 4 }
    | [] => s

/-- Step 2 of R350: once the head firing's ARG is translated through the TLB of the binding's core, for which a miss may be waited for
(R244), the header is updated. `absent` when no entry came. -/
def State.fireHeader (s : State) (d bi : Nat) (absent : Bool) : State :=
  match s.binding d bi with
  | none => s
  | some b =>
    if b.step ≠ 7 then s
    else if absent then s.discardFiring d bi
    else match translate s b.core (BitVec.ofNat 64 b.recAt) .w .write with
      | .fault _ => s.discardFiring d bi
      | .miss vpn => s.joinMiss b.core vpn (.firing d bi)
      | .hit _ _ =>
        let w := ((s.stream d b.stream).map (·.wm)).getD 0
        let b1 := { b with step := 2, fired := b.fired + 1 }
        (s.setBinding d bi b1).areaWrite d b1 16
          ([16, 24, 32, 40].flatMap (fun o => leBytes 8 (b1.counter o)) ++ leBytes 8 (BitVec.ofInt 64 w).toNat) (.step d bi)

/-- The node's ARG has been read for the head firing; a poisoned one is discarded as a misaligned one is. (DESIGN CHOICE, log 75) -/
def State.fireArg (s : State) (d bi arg : Nat) (bad : Bool) : State :=
  match s.binding d bi with
  | none => s
  | some b =>
    if bad || arg % 64 ≠ 0 then s.discardFiring d bi else (s.setBinding d bi { b with step := 7, recAt := arg }).fireHeader d bi false

/-- Step 1 of R350 is over once every pane write of the snapshot has been performed: the node's ARG is read. -/
def State.firePanes (s : State) (d bi : Nat) : State :=
  match s.binding d bi with
  | none => s
  | some b =>
    match b.queue with
    | f :: _ =>
      if b.step ≠ 1 || s.paneWritesOpen d bi f.seq then s
      else (s.setBinding d bi { b with step := 6 }).unitAsk (streamStop d) ((s.die d).ntbase.toNat + 128 * b.node + 8) 8 (.step d bi)
    | [] => s

/-- The unit begins with the head firing of a binding (R350). -/
def State.beginFiring (s : State) (d bi : Nat) : State :=
  match s.binding d bi with
  | none => s
  | some b => if b.step = 0 && !b.queue.isEmpty then (s.setBinding d bi { b with step := 1 }).firePanes d bi else s

/-- A firing has reached the head of its binding's queue: the unit begins at once if the node is FREE or DONE (R350). -/
def State.headFiring (s : State) (d bi : Nat) : State :=
  match s.binding d bi with
  | none => s
  | some b => if s.nodeState d b.node == 0 || s.nodeState d b.node == 4 then s.beginFiring d bi else s

/-- Decides a firing of an instance: a snapshot enters the binding's queue (R348). -/
def State.decideFiring (s : State) (d bi k amend : Nat) (last : Bool) : State :=
  match s.binding d bi with
  | none => s
  | some b =>
    let old := b.insts.getD k {}
    let ps := b.paneCounts k old.prev
    let f : Firing := { k := k, amend := amend, last := last, panes := ps, seq := s.nextId }
    let inst : Inst := { amend := amend, hold := none, prev := ps.map fun p => p.2.1 }
    let s1 := s.setBinding d bi { b with queue := b.queue ++ [f], insts := b.insts.set k inst }
    if b.queue.isEmpty then s1.headFiring d bi else s1

/-- The write of the step that a binding is at has been performed, or its ARG has been read: the next step (R350). `r` is the request, and
`poison` that of what it read. -/
def State.nextStep (s : State) (d bi : Nat) (r : Req) (poison : Bool) : State :=
  match s.binding d bi with
  | none => s
  | some b =>
    match b.queue with
    | [] => s
    | f :: rest =>
      let rec_ := (s.die d).ntbase.toNat + 128 * b.node
      let at_ (step : Nat) : State := s.setBinding d bi { b with step := step }
      match b.step with
      | 6 => s.fireArg d bi (leNat r.data) (poison || r.fail.isSome)
      | 2 => (at_ 3).unitWriteVa (streamStop d) b.core (BitVec.ofNat 64 b.recAt) (.bytes (f.record b d bi) false) (.step d bi)
      | 3 =>
        if r.fail.isSome then (s.counted d bi { b with fired := b.fired - 1 } 40).discardFiring d bi
        else (at_ 4).unitWrite (streamStop d) (rec_ + 0x28) (.word (BitVec.ofNat 64 b.pinit)) (.step d bi)
      | 4 => (at_ 5).unitWrite (streamStop d) (rec_ + 0x68) (.arm (BitVec.ofNat 64 (winOf d bi)) (BitVec.ofNat 64 f.amend)) (.step d bi)
      | 5 =>
        (s.setBinding d bi { b with step := 0, queue := rest, current := some f }).unitWrite (streamStop d) (rec_ + 0x28) .dec .none
      | _ => s

/-- The node of a binding has become FREE (0) or DONE (4), or its gang's completion has left it FAULTED (5) (R178, R350, R352, R390): the
firing whose kernel ran has completed, and the next one begins unless the node is FAULTED. -/
def State.nodeNotice (s : State) (d bi state : Nat) : State :=
  match s.binding d bi with
  | none => s
  | some b =>
    let s1 := match b.current with
      | some f =>
        let t := s.setBinding d bi { b with current := none }
        if state ≠ 0 && f.amend = 0 then t.firstDone d bi f.k else t
      | none => s
    if state = 5 then s1 else s1.beginFiring d bi

/-! ### Stream events (R341-R344, R347, R348) -/

/-- The stream watermark after an event (R344). -/
def Stream.nextWm (x : Stream) : Int :=
  match (x.srcs.filter fun y => !y.idle).map (·.wm) with
  | [] => x.wm
  | w :: t => max x.wm (t.foldl min w)

/-- The decisions of R348 for one binding when the stream watermark rises. -/
def State.decide_ (s : State) (d bi : Nat) (b : Binding) (old new : Int) : State :=
  let range (lo hi : Nat) : List Nat := (List.range (hi - lo)).map (lo + ·)
  let firsts := range (max b.k0 (b.ended old)) (b.ended new)
  let gone := range (max b.k0 (b.ended (old - b.late))) (b.ended (new - b.late))
  let s1 := firsts.foldl (fun s k => s.decideFiring d bi k 0 (b.retired new k)) s
  gone.foldl (init := s1) fun s k =>
    match s.binding d bi with
    | none => s
    | some x =>
      let i := x.insts.getD k {}
      let t := if i.hold.isSome then s.decideFiring d bi k (i.amend + 1) true else s
      match t.binding d bi with
      | some y => t.setBinding d bi { y with insts := y.insts.erase k }
      | none => t

/-- Bindings of a stream, in ascending order. -/
def State.bindingsOf (s : State) (d si : Nat) : List (Nat × Binding) := (s.die d).bindings.filter fun (_, b) => b.stream == si

/-- Every stream event ends with the stream watermark and what its rise decides (R344, R348). (DEDUCED, log 60) -/
def State.settle (s : State) (d si : Nat) : State :=
  match s.stream d si with
  | none => s
  | some x =>
    let w := x.nextWm
    if w = x.wm then s
    else (s.bindingsOf d si).foldl (fun s (bi, b) => s.decide_ d bi b x.wm w) (s.setStream d si { x with wm := w })

/-- A source's record or watermark is performed (R343): the source is active and its timeout counts from now. -/
def State.touch (s : State) (d si src : Nat) : State :=
  match s.stream d si with
  | none => s
  | some x =>
    let s1 := s.setStream d si { x with srcs := x.srcs.modify src fun y => { y with idle := false, last := s.now } }
    if x.idleT = 0 then s1
    else s1.at_ (s.now + 256 * x.idleT) rankSuIdle .idleTimeout { die := d, id := si, idx := src, sub := s.now }

/-- Starts the amend hold of an instance, unless one runs (R351). -/
def State.startHold (s : State) (d bi k : Nat) : State :=
  match s.binding d bi with
  | none => s
  | some b =>
    let i := b.insts.getD k {}
    if i.hold.isSome then s
    else
      (s.setBinding d bi { b with insts := b.insts.set k { i with hold := some s.now } }).at_ (s.now + 256 * b.ahold) rankWork
        .amendHoldExpiry { die := d, id := bi, idx := k, sub := s.now }

/-- Assigns a record of event time `t` to a binding (R347). -/
def State.assign (s : State) (d bi rs : Nat) (w t : Int) (rec_ : List Byte) (cmd : Option (Nat × Nat)) : State :=
  match s.binding d bi with
  | none => s
  | some b =>
    let ks := b.covering t
    match ks.getLast? with
    | none => s.counted d bi { b with noWin := b.noWin + 1 } 32
    | some kl =>
      if b.retired w kl then
        let s1 := if b.drn = 0 then s
          else s.areaWrite d b (64 + b.npane * b.slotBytes rs + b.tooLate % b.drn * rs) rec_ .none
        s1.counted d bi { b with tooLate := b.tooLate + 1 } 16
      else
        let note := UnitNote.pane d bi cmd
        let p := (t - b.origin).toNat / b.pane
        let i := p % b.npane
        let base := 64 + i * b.slotBytes rs
        let cur := b.occupant w i
        if cur.any fun x => x.pane != p then s.counted d bi { b with early := b.early + 1 } 24
        else
          let x := cur.getD { pane := p }
          let s1 := if cur.isSome then s else s.areaWrite d b base (leBytes 64 p) note
          let late := decide (t < w)
          let n := if late then x.late else x.main
          if n = (if late then b.lcap else b.mcap) then
            s1.counted d bi { b with slots := b.slots.set i x, paneFull := b.paneFull + 1 } 24
          else
            let y := if late then { x with late := n + 1 } else { x with main := n + 1 }
            let s2 := s1.setBinding d bi { b with slots := b.slots.set i y }
            let s3 := s2.areaWrite d b (base + 64 + ((if late then b.mcap else 0) + n) * rs) rec_ note
            let s4 := s3.areaWrite d b (base + 8) (leBytes 4 y.main ++ leBytes 4 y.late) note
            (ks.filter fun k => decide (b.end_ k ≤ w) && !b.retired w k).foldl (fun s k => s.startHold d bi k) s4

/-- Adds to BADREC of a stream, be it defined or not (R364, R365). -/
def State.badRec (s : State) (d si : Nat) : State :=
  s.modDie d fun y =>
    match y.streams.find? si with
    | some x => { y with streams := y.streams.set si { x with badRec := sat32 x.badRec 1 } }
    | none => let (l, b) := y.suCnt.getD si (0, 0); { y with suCnt := y.suCnt.set si (l, sat32 b 1) }

/-- Whether a stream event concerns the stream as it is defined: a command's does not when its stream has been removed since (R358). -/
def State.current (s : State) (a : EvArg) : Bool := a.n == 0 || (s.stream a.die a.id).any fun x => x.gen == a.gen

/-- Whether a host write concerns a source that is not there (R364). -/
def State.hostGone (s : State) (a : EvArg) : Bool := a.n == 0 && !(s.stream a.die a.id).any fun x => decide (a.idx < x.srcs.length)

/-- Performs a record event (R341, R347). -/
def State.performRecord (s : State) (d si : Nat) (rec_ : List Byte) (poison : Bool) (cmd : Option (Nat × Nat)) : State :=
  match s.stream d si with
  | none => s.badRec d si
  | some x =>
    let src := leNat ((rec_.drop 8).take 4)
    if poison || decide (x.srcs.length ≤ src) then s.badRec d si
    else
      let t := (BitVec.ofNat 64 (leNat (rec_.take 8))).toInt
      let s1 := s.touch d si src
      ((s1.bindingsOf d si).foldl (fun s (bi, _) => s.assign d bi x.rs x.wm t rec_ cmd) s1).settle d si

/-- Performs a source watermark event (R342); a derived raise counts no LOWER (R352). -/
def State.performWm (s : State) (d si src : Nat) (v : Int) (derived : Bool) : State :=
  match s.stream d si with
  | none => s
  | some x =>
    match x.srcs[src]? with
    | none => s
    | some y =>
      let s1 := s.touch d si src
      let s2 := s1.modDie d fun z => { z with streams := z.streams.modify si fun x =>
        if v < y.wm then { x with lower := sat32 x.lower (if derived then 0 else 1) }
        else { x with srcs := x.srcs.modify src fun y => { y with wm := v } } }
      s2.settle d si

/-- Makes a source idle (R343). -/
def State.performIdle (s : State) (d si src : Nat) : State :=
  match s.stream d si with
  | none => s
  | some x => (s.setStream d si { x with srcs := x.srcs.modify src fun y => { y with idle := true } }).settle d si

/-- A stream event has its turn: one is performed per cycle and die (R341); one whose cycle is taken is put off. -/
def suTurn (s : State) (ev : Instr) (go : State → State) : Out :=
  if s.arg.flag2 then .next (go s)
  else
    let t := max s.now (s.die s.arg.die).suNext
    let s1 := s.modDie s.arg.die fun y => { y with suNext := t + 1 }
    .next (if t = s.now then go s1 else s1.at_ t rankSuQueued ev { s.arg with flag2 := true })

/-- A command of the STREAM queue has completed at the unit (R359, R360), of which its core learns. -/
def State.suCmdDone (s : State) (d core cmd : Nat) : State :=
  s.at_ (s.now + latency core (streamStop d)) rankWork .engineCommandComplete { id := core, idx := 3, sub := cmd }

/-- Pane writes that a `SEMIT` caused have still to be performed. -/
def State.semitOpen (s : State) (core cmd : Nat) : Bool :=
  s.reqs.any fun (_, r) => match r.acc with | .unitWrite _ (.pane _ _ c) => c == some (core, cmd) | _ => false

/-- A `SEMIT` completes once every record and every pane write it caused has been performed (R359). -/
def State.semitDone (s : State) (d core cmd : Nat) : State :=
  match (s.head core 3).filter fun x => x.id == cmd with
  | some x =>
    match x.op with
    | .stream _ a _ _ _ => if a.toNat / 2 ^ 32 % 2 ^ 12 < x.unit && x.open_ = 0 && !s.semitOpen core cmd then s.suCmdDone d core cmd else s
    | _ => s
  | none => s

/-- A record reaches a stream unit (R341): `arg.data`, with its poison in `arg.flag`. -/
def execStreamRecord (s : State) : Out :=
  suTurn s .streamRecord fun s =>
    let a := s.arg
    if a.n = 0 then s.performRecord a.die a.id a.data a.flag none
    else
      let core := a.n - 1
      let s1 := if s.current a then s.performRecord a.die a.id a.data a.flag (some (core, a.sub)) else s
      match (s1.head core 3).filter fun x => x.id == a.sub with
      | some x => (s1.setHead core 3 { x with open_ := x.open_ - 1 }).semitDone a.die core a.sub
      | none => s1

/-- A source watermark reaches a stream unit (R342): `arg.v`. -/
def execSourceWatermark (s : State) : Out :=
  suTurn s .sourceWatermark fun s =>
    let a := s.arg
    let s1 := if s.hostGone a then s.badRec a.die a.id else if s.current a then s.performWm a.die a.id a.idx a.v.toInt false else s
    if a.n = 0 then s1 else s1.suCmdDone a.die (a.n - 1) a.sub

/-- A source is made idle (R343). -/
def execSourceIdle (s : State) : Out :=
  suTurn s .sourceIdle fun s =>
    let a := s.arg
    let s1 := if s.hostGone a then s.badRec a.die a.id else if s.current a then s.performIdle a.die a.id a.idx else s
    if a.n = 0 then s1 else s1.suCmdDone a.die (a.n - 1) a.sub

/-- Whether the timeout of a source that counts from cycle `since` is still to come. -/
def State.idleDue (s : State) (d si src since : Nat) : Bool :=
  match (s.stream d si).bind fun x => x.srcs[src]? with
  | some y => !y.idle && y.last == since
  | none => false

/-- A source times out (R343), that has been silent since cycle `arg.sub`. -/
def execIdleTimeout (s : State) : Out :=
  let a := s.arg
  if s.idleDue a.die a.id a.idx a.sub then
    suTurn s .idleTimeout fun s => if s.idleDue a.die a.id a.idx a.sub then s.performIdle a.die a.id a.idx else s
  else .next s

/-- A derived raise (R352). -/
def execDerivedRaise (s : State) : Out :=
  suTurn s .derivedRaise fun s => s.performWm s.arg.die s.arg.id s.arg.idx s.arg.v.toInt true

/-- An amend hold ends (R351): of instance `arg.idx` of binding `arg.id`, started in cycle `arg.sub`. -/
def execAmendHoldExpiry (s : State) : Out :=
  let a := s.arg
  match s.binding a.die a.id with
  | none => .next s
  | some b =>
    match b.insts.find? a.idx with
    | some i =>
      .next (if i.hold = some a.sub then s.decideFiring a.die a.id a.idx (i.amend + 1) false else s)
    | none => .next s

end Sys2Proof.Machine
end

