-- ==== Sys2Proof/Machine/StreamInstr.lean ====
section
/-! DEFINITION. The stream instructions (R353-R363), and the `SBIND`s at their unit (R358). -/

namespace Sys2Proof.Machine

/-! ### Stream addresses (R354, R355) -/

/-- DIE of a stream address. -/
def saDie (v : Word) : Nat := v.toNat / 2 ^ 16 % 4
/-- SRC. -/
def saSrc (v : Word) : Nat := v.toNat / 2 ^ 8 % 64
/-- INDEX of a stream. -/
def saIndex (v : Word) : Nat := v.toNat % 2 ^ 8
/-- COUNT. -/
def saCount (v : Word) : Nat := v.toNat / 2 ^ 32 % 2 ^ 12

/-- Fault 0x06 of a stream instruction (R355). -/
def streamFault (die index reason : Nat) (bind : Bool) (addr : Word) : FaultRec :=
  ⟨.range, addr, BitVec.ofNat 64 (index + die * 2 ^ 10 + reason * 2 ^ 12 + if bind then 2 ^ 16 else 0)⟩

/-- Whether reserved bits of a stream address are nonzero (R354): COUNT and SRC are zero where they are not used.
(DEDUCED, log 77) -/
def saBad (v : Word) (count src bind : Bool) : Bool :=
  let n := v.toNat
  n / 2 ^ 44 ≠ 0 || n / 2 ^ 18 % 2 ^ 14 ≠ 0 || n / 2 ^ 14 % 4 ≠ 0 || (!count && saCount v ≠ 0)
    || (if bind then n / 2 ^ 10 % 2 ^ 4 ≠ 0 else !src && saSrc v ≠ 0)

/-- The stream that a queued command names (R355, R359, R360). -/
def needStream (s : State) (v : Word) (count src : Bool) : Except Stop Stream := do
  let fail (r : Nat) : Stop := .fault (streamFault (saDie v) (saIndex v) r false 0)
  if saBad v count src false then throw (fail 3)
  match s.stream (saDie v) (saIndex v) with
  | none => throw (fail 2)
  | some x => if src && x.srcs.length ≤ saSrc v then throw (fail 6) else .ok x

/-! ### SBIND (R356-R358) -/

/-- An `SBIND` sets out for its unit, and its strand waits for the reply (R358); those that arrive in one cycle are performed in order of
their cores (R341). -/
def State.askBind (s : State) (die : Nat) (b : BindReq) (ret : Retire) : State :=
  let n := s.nextId
  let s1 := { s with nextId := n + 1 }.modDie die fun y => { y with sbinds := y.sbinds.set n b }
  let s2 := if s.cut b.core (streamStop die) then s1.cutOff s.cur.ident.gang
    else s1.at_ (s.now + latency b.core (streamStop die)) (rankSuCmd + b.core) .stateNotice { die := die, id := n, n := 1 }
  s2.setCur { s2.cur with wait := some { kind := .reply n, since := s.now, retire := ret, len := 4 } }

/-- `SBIND.S` (R356). -/
def execSbindS (a : SReg) (la : Bool) (x : XReg) (s : State) : Out :=
  run 4 (fun s => do
    let c := s.cur
    if 6 < x.toNat then throw (.fault ⟨.undef, c.pc, encInfo (encode (.sbindS a la x))⟩)
    let v ← readS c a
    needAcq c
    let w := (c.xVal x).toNat
    if saBad v false false false || w / 2 ^ 40 ≠ 0 then throw (.fault (streamFault (saDie v) (saIndex v) 3 false 0))
    let wm := (c.xAt x 1).toInt
    let st : Stream := { rs := 32 * 2 ^ (w / 2 ^ 32 % 4), idleT := w % 2 ^ 32, wm := wm
                         srcs := List.replicate (w / 2 ^ 34 % 64 + 1) { wm := wm, last := 0 } }
    release s .writes (.ok (s.askBind (saDie v)
      { strand := s.curId, core := c.core, kind := 0, index := saIndex v, stream := some st }
      { len := 4, marksS := marked [(a, la)] }))) s

/-- Bytes of a binding's area (R346). -/
def Binding.areaLen (b : Binding) (rs : Nat) : Nat := 64 + b.npane * b.slotBytes rs + b.drn * rs

/-- The 64 KiB virtual pages of an area, each by an address in it. -/
def areaPages (area len : Nat) : List Nat :=
  (List.range ((area % 65536 + len + 65535) / 65536)).map fun i => if i = 0 then area else (area / 65536 + i) * 65536

/-- Leaves of pages of an area beside those that are known, through a core's TLB, and the first page that it does not know or that
faults. -/
def leavesOf (s : State) (core : Nat) : List Nat → List (Nat × Word) → List (Nat × Word) × Option (Word × Xlat)
  | [], m => (m, none)
  | a :: t, m =>
    let va := BitVec.ofNat 64 a
    if m.any fun e => e.1 == vpnOf va then leavesOf s core t m
    else match translate s core va .rw .write with
      | .hit _ leaf => leavesOf s core t (m ++ [(vpnOf va, leaf)])
      | x => (m, some (va, x))

/-- An `SBIND.W` translates its whole area (R357), by miss after miss (R244), and then goes on with the leaves. -/
def bindPages (s : State) (area len : Nat) (go : List (Nat × Word) → Except Stop State) : Except Stop State :=
  let c := s.cur
  match leavesOf s c.core (areaPages area len) c.bind.map with
  | (m, none) => go m
  | (_, some (_, .fault f)) => .error (.fault f)
  | (m, some (va, _)) => do
    match ← xlate (s.setCur { c with bind := { c.bind with map := m } }) va .rw .write with
    | .wait t => .ok t
    | .ok _ _ => .ok s

/-- The binding that `SBIND.W` makes from its four words and the two header words of its area, or fault 0x06 with reason 3 (R357). -/
def bindingOf (s : State) (die core : Nat) (o hl l a : Word) (w0 w1 : Nat) : Option Binding :=
  let len := hl.toNat % 2 ^ 32
  let hop := if hl.toNat / 2 ^ 32 = 0 then len else hl.toNat / 2 ^ 32
  let b : Binding :=
    { stream := l.toNat % 2 ^ 8, origin := o.toInt, len := len, hop := hop, late := l.toNat / 2 ^ 32
      ahold := l.toNat / 2 ^ 16 % 2 ^ 16, pinit := l.toNat / 2 ^ 8 % 2 ^ 8, core := core, area := a.toNat, map := []
      npane := w0 % 2 ^ 16, mcap := w0 / 2 ^ 16 % 2 ^ 16, lcap := w0 / 2 ^ 32 % 2 ^ 16, drn := w0 / 2 ^ 48
      node := w1 % 2 ^ 14, outEn := w1 / 2 ^ 15 % 2 == 1, outStr := w1 / 2 ^ 16 % 2 ^ 8, outSrc := w1 / 2 ^ 24 % 2 ^ 6 }
  let out := match s.stream die b.outStr with | some x => decide (b.outSrc < x.srcs.length) | none => false
  if len = 0 || 4 < b.np || b.pinit = 0 || b.npane < b.np || 4096 < b.npane || b.mcap + b.lcap = 0
      || w1 / 2 ^ 30 ≠ 0 || w1 / 2 ^ 14 % 2 ≠ 0 || (b.outEn && !out) then none
  else some b

/-- `SBIND.W` (R357): after its drain it reads the header and translates the area, and then asks the unit. -/
def execSbindW (a : SReg) (la : Bool) (x : XReg) (s : State) : Out :=
  run 4 (fun s => do
    let c := s.cur
    if 4 < x.toNat then throw (.fault ⟨.undef, c.pc, encInfo (encode (.sbindW a la x))⟩)
    let v ← readS c a
    needAcq c
    let die := saDie v
    let bi := v.toNat % 2 ^ 10
    let area := c.xAt x 3
    let bad : Stop := .fault (streamFault die bi 3 true ((area.setWidth 48).setWidth 64))
    if saBad v false false true || area.toNat / 2 ^ 48 ≠ 0 || area.toNat % 64 ≠ 0 || (c.xAt x 1).toNat % 2 ^ 32 = 0 then throw bad
    release s .writes do
      if c.bind.seen.length < 16 then look s area 16 .rw .write area
      else
        let si := (c.xAt x 2).toNat % 2 ^ 8
        match s.stream die si with
        | none => throw (.fault (streamFault die si 2 false 0))
        | some st =>
          match bindingOf s die c.core (c.xVal x) (c.xAt x 1) (c.xAt x 2) area (leNat (c.bind.seen.take 8)) (leNat (c.bind.seen.drop 8)) with
          | none => throw bad
          | some b =>
            bindPages s area.toNat (b.areaLen st.rs) fun m =>
              .ok (s.askBind die { strand := s.curId, core := c.core, kind := 1, index := bi, binding := some { b with map := m } }
                { len := 4, marksS := marked [(a, la)] })) s

/-- An `SBIND.OFF` form (R358). -/
def bindOff (w : Bool) (a : SReg) (la : Bool) : State → Out :=
  run 4 fun s => do
    let c := s.cur
    let v ← readS c a
    needAcq c
    let i := if w then v.toNat % 2 ^ 10 else saIndex v
    if saBad v false false w then throw (.fault (streamFault (saDie v) i 3 w 0))
    release s .writes (.ok (s.askBind (saDie v) { strand := s.curId, core := c.core, kind := if w then 3 else 2, index := i }
      { len := 4, marksS := marked [(a, la)] }))

/-- `SBIND.OFF.S` (R358). -/
def execSbindOffS (a : SReg) (la : Bool) (s : State) : Out := bindOff false a la s
/-- `SBIND.OFF.W` (R358). -/
def execSbindOffW (a : SReg) (la : Bool) (s : State) : Out := bindOff true a la s

/-- The reply to an `SBIND` sets out, with a fault or none. -/
def State.bindReply (s : State) (die m : Nat) (f : Option FaultRec) : State :=
  match (s.die die).sbinds.find? m with
  | none => s
  | some b =>
    (s.modDie die fun y => { y with sbinds := y.sbinds.set m { b with fail := f } }).at_ (s.now + latency b.core (streamStop die)) rankReply
      .stateNotice { die := die, id := m, n := 2 }

/-- An `SBIND` is performed at its unit (R345, R355-R358). -/
def State.bindAt (s : State) (die m : Nat) : State :=
  match (s.die die).sbinds.find? m with
  | none => s
  | some r =>
    let i := r.index
    let fail (reason : Nat) (bind : Bool) : State := s.bindReply die m (some (streamFault die i reason bind 0))
    match r.kind, r.stream, r.binding with
    | 0, some x, _ =>
      if (s.stream die i).isSome then fail 1 false
      else
        let s1 := (s.setStream die i { x with gen := m, srcs := x.srcs.map fun y => { y with last := s.now } }).modDie die fun y =>
          { y with suCnt := y.suCnt.erase i }
        let s2 := if x.idleT = 0 then s1
          else (List.range x.srcs.length).foldl (init := s1) fun s k =>
            s.at_ (s.now + 256 * x.idleT) rankSuIdle .idleTimeout { die := die, id := i, idx := k, sub := s.now }
        s2.bindReply die m none
    | 1, _, some b =>
      if (s.binding die i).isSome then fail 1 true
      else match s.stream die b.stream with
        | none => s.bindReply die m (some (streamFault die b.stream 2 false 0))
        | some x =>
          if (s.die die).bindings.any fun (_, y) => y.node == b.node then fail 5 true
          else
            let n := b.ended x.wm
            let b1 := { b with k0 := n, doneTo := n }
            (s.setBinding die i b1).areaWrite die b1 16 (List.replicate 48 0) (.bound die m)
    | 2, _, _ =>
      if (s.stream die i).isNone then fail 2 false
      else if (s.bindingsOf die i).isEmpty then
        let n := (s.stream die i).map fun x => (x.lower, x.badRec)
        (s.modDie die fun y =>
          { y with streams := y.streams.erase i, suCnt := y.suCnt.set i (n.getD (0, 0)) }).bindReply die m none
      else fail 4 false
    | _, _, _ =>
      if (s.binding die i).isNone then fail 2 true
      else (s.modDie die fun y => { y with bindings := y.bindings.erase i }).bindReply die m none

/-! ### Commands of the STREAM queue (R359, R360) -/

/-- `SEMIT` is accepted (R359). -/
def execSemit (o : OpSS) (s : State) : Out :=
  run 4 (fun s => do
    let c := s.cur
    let v ← readS c o.a
    let w ← readS c o.b
    needAcq c
    let x ← needStream s v true false
    let fail : Stop := .fault (streamFault (saDie v) (saIndex v) 3 false w)
    let addr := w.toNat % 2 ^ 19
    let len := (saCount v + 1) * x.rs
    if w.toNat / 2 ^ 19 ≠ 0 then throw fail
    if addr % x.rs ≠ 0 then throw (.fault ⟨.align, w, 0⟩)
    if spLast < addr + len - 1 then throw fail
    enqueue s 3 { s.newCmd 3 (.stream 0 v w x.rs x.gen) with rdSp := [(addr, addr + len)] } id
      (((c.markS o.a o.la).markS o.b o.lb).advance 4)) s

/-- `SWM` is accepted (R360). -/
def execSwm (o : OpSS) (s : State) : Out :=
  run 4 (fun s => do
    let c := s.cur
    let v ← readS c o.a
    let w ← readS c o.b
    needAcq c
    let x ← needStream s v false true
    enqueue s 3 (s.newCmd 3 (.stream 1 v w x.rs x.gen)) id (((c.markS o.a o.la).markS o.b o.lb).advance 4)) s

/-- `SIDLE` is accepted (R360). -/
def execSidle (a : SReg) (la : Bool) (s : State) : Out :=
  run 4 (fun s => do
    let c := s.cur
    let v ← readS c a
    needAcq c
    let x ← needStream s v false true
    enqueue s 3 (s.newCmd 3 (.stream 2 v 0 x.rs x.gen)) id ((c.markS a la).advance 4)) s

/-- The next record of a `SEMIT` is read and sent to the unit (R359); an `SWM` or `SIDLE` is sent. -/
def State.streamGo (s : State) (core : Nat) (x : Cmd) : State :=
  match x.op with
  | .stream op a b rs gen =>
    let d := saDie a
    let arg : EvArg := { die := d, id := saIndex a, sub := x.id, n := core + 1, gen := gen }
    if s.cut core (streamStop d) then s.cutOff x.gang
    else
      let send (s : State) (ev : Instr) (arg : EvArg) : State := s.at_ (s.now + latency core (streamStop d)) (rankSuCmd + core) ev arg
      match op with
      | 0 =>
        let at_ := b.toNat % 2 ^ 19 + x.unit * rs
        (s.engineRead core at_ rs).gate core 3 x fun s =>
          let k := s.core core
          let poison := k.spPoison.any fun u => decide (at_ / 64 ≤ u) && decide (u ≤ (at_ + rs - 1) / 64)
          let s1 := send (s.setHead core 3 { x with unit := x.unit + 1, open_ := x.open_ + 1 }) .streamRecord
            { arg with data := k.sp.read at_ rs, flag := poison }
          if x.unit < saCount a then s1.engNext core 3 x.id (s.now + 1) else s1
      | 1 => send s .sourceWatermark { arg with idx := saSrc a, v := b }
      | _ => send s .sourceIdle { arg with idx := saSrc a }
  | _ => s

/-! ### Publication (R361-R363) -/

/-- `SPUB` (R362). -/
def execSpub (o : OpSS) (s : State) : Out :=
  run 4 (fun s => do
    let c := s.cur
    let va ← readS c o.a
    let v ← readS c o.b
    needAcq c
    aligned va 16 0
    checkFirst s va .w .write (release s .all
      (postStore s (.spub v c.ident.amend.toNat) va { len := 4, marksS := marked [(o.a, o.la), (o.b, o.lb)] }))) s

/-- `SREAD` (R363). -/
def execSread (d a : SReg) (la : Bool) (s : State) : Out :=
  run 4 (fun s => do
    let c := s.cur
    if d = 0 || d = 31 then throw (.fault ⟨.undef, c.pc, encInfo (encode (.sread d a la))⟩)
    let va ← readS c a
    needFree c (.s d)
    needFree c (.s (d + 1))
    needAcq c
    aligned va 16 0
    withAccess s (.sread d) va .r .read { len := 4, marksS := marked [(a, la)] } fun s r =>
      .ok (s.sendOr r fun c =>
        { (((c.markS a la).setSFill d .pending).setSFill (d + 1) .pending) with acq := some (.s d) }.advance 4)) s

end Sys2Proof.Machine
end

