-- ==== Sys2Proof/Machine/Dispatcher.lean ====
section
/-! DEFINITION. The dispatchers: dispatcher words (R172, R173), placement (R174-R177, R181), the start of strands (R30, R177), the
completion of gangs (R178, R181, R390), and triggers (R182). -/

namespace Sys2Proof.Machine

/-! ### Records (R169-R171, R174) -/

/-- Physical address of a node's record. -/
def State.recordAt (s : State) (die node : Nat) : Nat := (s.die die).ntbase.toNat + 128 * node

/-- The record that 128 bytes make (R170). -/
def recordOf (bs : List Byte) : LaunchRec := ⟨(List.range 16).map fun i => BitVec.ofNat 64 (leNat ((bs.drop (8 * i)).take 8))⟩

/-- Whether reserved fields of a record are zero (R170). -/
def LaunchRec.reservedZero (r : LaunchRec) : Bool :=
  [(0x10, 38, 26), (0x10, 29, 3), (0x10, 12, 4), (0x10, 5, 3), (0x20, 32, 32), (0x28, 32, 32), (0x38, 16, 48), (0x38, 3, 5),
    (0x50, 8, 56), (0x58, 12, 52), (0x60, 32, 32), (0x78, 16, 48)].all fun (o, lo, w) => r.fld o lo w == 0

/-- Whether a record is valid (R174, R181). An entry of SUCC names its die in two bits, so every entry names a die from 0 to 3. An NSUCC
outside its range makes a record invalid, as a GW outside its range does. (DEDUCED, log 93) -/
def LaunchRec.valid (r : LaunchRec) : Bool :=
  r.reservedZero && decide (1 ≤ r.gw) && decide (r.gw ≤ 16) && decide (1 ≤ r.gh) && decide (r.gh ≤ 12) && decide (1 ≤ r.nstr)
    && decide (r.nstr ≤ if r.step then 16 else 4096) && decide (r.fld 0x38 0 3 ≤ 4)
    && (r.pipe == 0 || (decide (1 ≤ r.minInst) && decide (r.minInst ≤ r.maxInst)))

/-- Successor entries in SUCC (R170), each a die and a node. -/
def LaunchRec.succs (r : LaunchRec) : List (Nat × Nat) :=
  (List.range (r.fld 0x38 0 3)).map fun j => (r.fld 0x30 (16 * j + 14) 2, r.fld 0x30 (16 * j) 14)

/-! ### Rectangles (R175) -/

/-- Origins that a node may take, in the order in which they are tried (R175, R176): a row and a column.
(DEDUCED, log 57) -/
def LaunchRec.origins (r : LaunchRec) : List (Nat × Nat) :=
  let square := r.step && r.gw == r.gh && (r.gw == 2 || r.gw == 4 || r.gw == 8 || r.gw == 12)
  let all := (List.range (13 - r.gh)).flatMap fun y => (List.range (17 - r.gw)).map fun x => (y, x)
  if !square then all
  else if r.gw == 12 then all.filter fun (y, x) => y == 0 && (x == 0 || x == 4)
  else all.filter fun (y, x) => y % r.gw == 0 && x % r.gw == 0

/-- Cores of a rectangle, row by row. -/
def LaunchRec.rect (r : LaunchRec) (die : Nat) (o : Nat × Nat) : List Nat :=
  (List.range r.gh).flatMap fun y => (List.range r.gw).map fun x => coreAt die (o.1 + y) (o.2 + x)

/-- How many of the sixteen slots of a core work (R164, R175). -/
def Core.working (k : Core) : Nat := ((List.range 16).filter fun n => !k.missing.contains n).length

/-- Whether a core meets the conditions of R175 for a node, with the gangs of `gone` away. -/
def coreFits (s : State) (r : LaunchRec) (gone : List Nat) (core : Nat) : Bool :=
  let k := s.core core
  let here := (s.strands.filter fun (_, c) => c.core == core && c.place != .saved && !gone.contains c.ident.gang).map (·.2)
  let coming := (s.gangs.filter fun (n, g) => g.starting && g.cores.contains core && !gone.contains n).map (·.2)
  let promised (step : Bool) : Nat := ((coming.filter fun g => g.step == step).map fun g => g.rec_.nstr).sum
  if r.step then
    let held := (k.slots.toList.filter fun o => match o with | some g => !gone.contains (s.strand g).ident.gang | none => false).length
    !k.rot && decide (r.nstr + held + promised true ≤ k.working) && here.all (fun c => !c.ident.step) && coming.all (fun g => !g.step)
  else
    let used := ((here.filter fun c => c.isContext core).map (·.units)).sum
    decide (r.nstr + used + promised false ≤ 4096)

/-- Whether some rectangle of a die could hold a node with every core idle (R174): each core of it has as many working slots as a STEP node
needs. (DEDUCED, log 57) -/
def State.holdable (s : State) (die : Nat) (r : LaunchRec) : Bool :=
  r.origins.any fun o => (r.rect die o).all fun c => !r.step || decide (r.nstr ≤ (s.core c).working)

/-- The first rectangle on which a node fits (R176). -/
def findRect (s : State) (die : Nat) (r : LaunchRec) (gone : List Nat) : Option (List Nat) :=
  r.origins.findSome? fun o => let cs := r.rect die o; if cs.all (coreFits s r gone) then some cs else none

/-! ### STATUS and PRED (R172) -/

/-- The dispatcher's write to a node's STATUS word sets out from its mesh stop (R172, R455). -/
def State.status (s : State) (die node state : Nat) (err fpf : Option Nat) (inst : Bool) (note : UnitNote) : State :=
  s.unitWrite (dispStop die) (s.recordAt die node + 0x68) (.status state err fpf inst) note

/-- Adds to `dsp.lost` (R182). -/
def State.loseEvents (s : State) (die n : Nat) : State := s.modDie die fun d => { d with lost := sat32 d.lost n }

/-- The READY nodes of a die change: FIXED cores whose slots were kept empty for the head load contexts again when it is another, or is
placed (R176). -/
def State.setNodes (s : State) (die : Nat) (f : List ReadyNode → List ReadyNode) : State :=
  let t := s.modDie die fun d => { d with nodes := f d.nodes }
  if (s.die die).draining && !(t.die die).draining then t.askLoads die else t

/-- A node becomes READY at its home (R172), which is a write to its STATUS line (log 98), and its dispatcher reads its record, in two lines,
from its mesh stop (R455). (DEDUCED, log 98) -/
def State.makeReady (s : State) (die node : Nat) : State :=
  let a := s.recordAt die node + 0x68
  let s1 := { s with mem := s.mem.writeN a 8 ((s.word a).toNat / 8 * 8 + 2) }.wroteLine a
  (s1.unitAsk (dispStop die) (s.recordAt die node) 64 (.record die node 0)).unitAsk (dispStop die) (s.recordAt die node + 64) 64
    (.record die node 1)

/-- The dispatcher has its copy of the record of a node that became READY in cycle `since` (R172): it checks it, and the node joins its READY
nodes (R174, R176). -/
def State.joinReady (s : State) (die node since : Nat) (r : LaunchRec) : State :=
  if !r.valid then s.status die node 5 (some 1) none false .none
  else if !s.holdable die r then s.status die node 5 (some 2) none false .none
  else
    let kept := ((s.die die).kept.find? node).getD (0, 0)
    let n : ReadyNode := { node := node, rec_ := r, since := since, win := kept.1, amend := kept.2
                           count := if r.pipe = 0 then 1 else r.minInst }
    (s.setNodes die (insertNode n)).askPass die

/-- One of the two lines of a record has reached the dispatcher (R172): with the other, the copy is whole. What a poisoned line holds is read
as it stands. (DESIGN CHOICE, log 75) -/
def State.gotRecord (s : State) (die node part : Nat) (r : Req) : State :=
  let other := 2 * node + (1 - part)
  match (s.die die).reads.find? other with
  | none => s.modDie die fun d => { d with reads := d.reads.set (2 * node + part) r.data }
  | some bs =>
    (s.modDie die fun d => { d with reads := d.reads.erase other }).joinReady die node r.val.toNat
      (recordOf (if part = 0 then r.data ++ bs else bs ++ r.data))

/-- A store to the STATUS word of node `arg.idx` (R172): `arg.v` is the word's new value; `arg.flag` for a stream unit's arming, with
the WIN and AMEND that are kept with the node in `arg.id` and `arg.n` (R350). -/
def execStatusStore (s : State) : Out :=
  let a := s.arg
  let at_ := s.recordAt a.die a.idx + 0x68
  let old := (s.word at_).toNat
  let new := a.v.toNat % 8
  if !statusTaken old new then .next (s.loseEvents a.die 1)
  else
    let inst := if new = 1 then 0 else old / 2 ^ 32
    let s1 := { s with mem := s.mem.writeN at_ 8 (new + old / 2 ^ 16 % 2 ^ 7 * 2 ^ 16 + inst * 2 ^ 32) }.noteState a.die a.idx new false
    if new = 1 then
      let s2 := s1.modDie a.die fun d =>
        { d with kept := if a.flag then d.kept.set a.idx (BitVec.ofNat 64 a.id, BitVec.ofNat 64 a.n) else d.kept.erase a.idx }
      .next (if (s2.word (s.recordAt a.die a.idx + 0x28)).toNat % 2 ^ 32 = 0 then s2.makeReady a.die a.idx else s2)
    else .next s1

/-- The PRED word of node `arg.idx` is performed (R172): `arg.v` is the word's new value, read as signed. -/
def execPredUpdate (s : State) : Out :=
  let a := s.arg
  let at_ := s.recordAt a.die a.idx + 0x28
  let old := (s.word at_).toNat % 2 ^ 32
  let v := a.v.toInt
  let (new, excess) : Nat × Nat :=
    if v < 0 then (0, (-v).toNat) else if 2 ^ 32 ≤ v then (2 ^ 32 - 1, (v - (2 ^ 32 - 1)).toNat) else (v.toNat, 0)
  let s1 := { s with mem := s.mem.writeN at_ 8 new }.loseEvents a.die excess
  .next (if old ≠ 0 && new = 0 && s1.nodeState a.die a.idx = 1 then s1.makeReady a.die a.idx else s1)

/-! ### Placement (R176, R177, R181) -/

/-- The number of strands that no strand has; it names whom a core's preload belongs to. -/
def noStrand : Nat := 2 ^ 22

/-- A placed gang on its rectangle (R177): its preload is put in the COPY queues of its cores, or its strands start. -/
def State.newGang (s : State) (die : Nat) (n : ReadyNode) (cores : List Nat) : State :=
  let gid := s.nextId
  let r := n.rec_
  let pre := r.fld 0x50 0 8 ≠ 0 && !n.saved
  let g : Gang :=
    { die := die, node := n.node, rec_ := r, cores := cores, gw := r.gw, gh := r.gh, step := r.step, since := n.since, retried := n.retried
      win := n.win, amend := n.amend, restored := n.saved, phase := .preloading (if pre then cores.length else 0) }
  let s1 := { s with gangs := s.gangs.set gid g, nextId := gid + 1 }
  if pre then
    cores.foldl (init := s1) fun s c =>
      let x : Cmd := { id := s.nextId, strand := noStrand, gang := gid, pc := 0, op := .preload [] none }
      ({ s with nextId := s.nextId + 1 }.modCore c fun k => k.setQueue 0 (k.queue 0 ++ [x])).pokeQueues c
  else s1.at_ s.now rankLaunch .strandStart { id := gid }

/-- Places all instances of a node, if each finds a rectangle (R176, R181). -/
def State.placeAll (s : State) (die : Nat) (n : ReadyNode) : Nat → Option State
  | 0 => some s
  | k + 1 =>
    match findRect s die n.rec_ [] with
    | some cs => (s.newGang die n cs).placeAll die n k
    | none => none

/-- A node is placed, if it fits: STATE becomes PLACED, and one is added to INST (R177). A restore adds none (R398). -/
def State.placeNode (s : State) (die : Nat) (n : ReadyNode) : Option State :=
  (s.placeAll die n n.count).map fun t =>
    let t1 := (t.setNodes die fun l => l.filter fun m => m.node != n.node).modDie die fun d => { d with kept := d.kept.erase n.node }
    if n.saved then t1 else t1.status die n.node 3 none none true .none

/-- Walks the READY nodes of a pass in order (R176): behind a node whose count stands at 64 and that is not placed, the nodes,
whose priority is equal or lower, are not placed. (DEDUCED, log 55) -/
def State.walkNodes (s : State) (die : Nat) : List ReadyNode → State
  | [] => s
  | n :: t =>
    match s.placeNode die n with
    | some s1 => s1.walkNodes die t
    | none => if 64 ≤ n.fails then s else s.walkNodes die t

/-- Gangs with a strand or context on some of the cores. -/
def gangsOn (s : State) (cores : List Nat) : List Nat :=
  ((s.strands.filter fun (_, c) => cores.contains c.core && c.place != .saved).map fun (_, c) => c.ident.gang).eraseDups

/-- Whether a gang may be chosen as a victim for a node of a priority (R392, R396, R397). -/
def State.removable (s : State) (prio g : Nat) : Bool :=
  match s.gangs.find? g with
  | some x => decide (x.rec_.prio < prio) && x.rec_.deadline != 0 && decide (x.noVictimUntil ≤ s.now) && x.canStop
  | none => false

/-- The victims that a reservation chooses (R392): those on the first rectangle where the head would fit without them and where no
gang of its priority or a higher one stands. -/
def State.victimsFor (s : State) (die : Nat) (r : LaunchRec) : Option (List Nat) :=
  r.origins.findSome? fun o =>
    let cs := r.rect die o
    let gs := gangsOn s cs
    let gone := gs.filter (s.removable r.prio)
    if gs.all (fun g => match s.gangs.find? g with | some x => decide (x.rec_.prio < r.prio) | none => true)
        && !gone.isEmpty && cs.all (coreFits s r gone) then some gone else none

/-- The victims of a request are told (R392, R393): their contexts stop at once, those that migrate as well, and each victim's deadline is
set (R397). -/
def State.requestPreempt (s : State) (die : Nat) (victims : List Nat) (host : Bool) : State :=
  let s1 := s.modDie die fun d => { d with preempt := some { at_ := s.now, host := host, victims := victims } }
  victims.foldl (init := s1) fun s g =>
    let s2 := s.modGang g fun x => { x with preempt := some s.now }
    let ctx := s2.strands.filter fun (_, c) =>
      c.ident.gang == g && (match c.place with | .ready | .parked | .migrating _ => true | _ => false)
    let s3 := ctx.foldl (fun s (n, _) => s.stopContext n) s2
    let dl := ((s.gangs.find? g).map fun x => x.rec_.deadline).getD 0
    (s3.at_ s.now rankLast .saveStart { id := g }).at_ (s.now + dl) rankAfter .preemptLapse { id := g, sub := s.now }

/-- While a die's reservation is in force and no request is, its dispatcher examines the rectangles in every cycle (R392). -/
def State.examine (s : State) (die : Nat) : State :=
  match (s.die die).nodes with
  | h :: _ =>
    if h.fails < 64 || (s.die die).preempt.isSome || s.pkg.halted then s
    else match s.victimsFor die h.rec_ with
      | some vs => s.requestPreempt die vs false
      | none => s.atTime (s.now + 1) rankLast .placementPass { die := die, flag := true }
  | [] => s

/-- A placement pass of die `arg.die` (R176): the nodes are walked in order; a head that the pass does not place fails once more. While
its count stands at 64, no other node is placed, and a pre-emption may be requested (R392): with `arg.flag` that alone is examined. -/
def execPlacementPass (s : State) : Out :=
  let die := s.arg.die
  if s.arg.flag then .next (s.examine die)
  else
    let s1 := s.modDie die fun d => { d with passDue := false, lastPass := some s.now }
    if s.pkg.halted then .next s1
    else
      match (s1.die die).nodes with
      | [] => .next s1
      | h :: _ =>
        let s2 := s1.walkNodes die (s1.die die).nodes
        if !(s2.die die).nodes.any fun n => n.node == h.node then .next s2
        else
          .next ((s2.setNodes die fun l => l.map fun n => if n.node = h.node then { n with fails := min (n.fails + 1) 127 } else n).examine die)

/-- The rectangle of a gang is released (R177, R178): its windows and landing tiles are dropped (R219, R323). -/
def State.releaseGang (s : State) (gid : Nat) (g : Gang) : State :=
  let clean (k : Core) : Core :=
    { k with windows := k.windows.filter fun e => e.2.gang != gid, bound := k.bound.filter fun e => e.2.2.2 != gid }
  let s0 := s.dropVictim gid g.die
  let s1 := { s0 with gangs := s0.gangs.erase gid, cores := s0.cores.mapV clean }
  let s2 := if g.step then g.cores.foldl (fun s c => s.modCore c fun k => { k with landE := [], landS := [] }) s1 else s1
  let s3 := s2.modDie g.die fun d => { d with moves := d.moves.filter fun m => m.gang != gid }
  (if g.starting && g.step then g.cores.foldl (fun s c => s.askLoad c s.now) s3 else s3).askPass g.die

/-! ### Preload (R177) -/

/-- A preload has failed (R177): the rectangle is released, and the node ends FAULTED. -/
def State.preloadFail (s : State) (core : Nat) (x : Cmd) (err : Nat) : State :=
  let s1 := s.finishCmd core 0 x
  match s1.gangs.find? x.gang with
  | some g => (s1.releaseGang x.gang g).status g.die g.node 5 (some err) none false .none
  | none => s1

/-- Lines that a list of `n` bytes at an address lies in. -/
def listLines (base n : Nat) : Nat := (base % 64 + n + 63) / 64

/-- The bytes of a list of `n` bytes at an address, from its lines. -/
def listBytes (base n : Nat) (ls : List Byte) : List Byte := (ls.drop (base % 64)).take n

/-- The units that a core copies under a preload list (R177), or none when an entry is invalid: its row count is none of 1 to 768, its
reserved bits are not zero, its destination is no row, or its rows run past the scratchpad. Every entry is checked before a row is copied.
(DESIGN CHOICE, log 94) -/
def preloadUnits (g : Gang) (pos : Nat) (bs : List Byte) : Option (List (Nat × Nat)) :=
  (List.range (g.rec_.fld 0x50 0 8)).foldlM (init := []) fun l e =>
    let src := leNat ((bs.drop (16 * e)).take 8)
    let w := leNat ((bs.drop (16 * e + 8)).take 8)
    let dst := w % 2 ^ 19
    let rows := w / 2 ^ 19 % 2 ^ 10
    if w / 2 ^ 30 ≠ 0 || dst % 512 ≠ 0 || rows = 0 || 768 < rows || 0x60000 < dst + rows * 512 then none
    else
      let from_ := src + if w.testBit 29 then pos * rows * 512 else 0
      some (l ++ (List.range (rows * 8)).map fun u => ((from_ + 64 * u) % 2 ^ 64, dst + 64 * u))

/-- A core's preload asks for the next line of its list, through its own TLB (R177, R315). -/
def State.preloadList (s : State) (core : Nat) (x : Cmd) (g : Gang) : State :=
  let va := BitVec.ofNat 64 (g.rec_.at_ 0x48 / 64 * 64 + 64 * x.unit)
  if x.asked ≠ x.unit then s
  else match engXlat s core 0 x va false (.engRead 0 x.id x.unit 64) with
    | .send r => (s.setHead core 0 { x with asked := x.unit + 1 }).send r
    | .held t => t
    | .fault _ => s.preloadFail core x 3

/-- It asks for the next of its units, one in a cycle, with at most 64 in flight (R177, R320). -/
def State.preloadAsk (s : State) (core : Nat) (x : Cmd) (us : List (Nat × Nat)) : State :=
  match us[x.asked]? with
  | none => s
  | some (src, _) =>
    if s.now < x.askAt || x.unit + 64 ≤ x.asked then s
    else
      let sent (u : UnitSt) : State :=
        (s.setHead core 0 { x with asked := x.asked + 1, askAt := s.now + 1, ahead := x.ahead.set x.asked u }).engNext core 0 x.id (s.now + 1)
      match engXlat s core 0 x (BitVec.ofNat 64 src) false (.engRead 0 x.id x.asked 64) with
      | .send r => (sent {}).send r
      | .held t => t
      | .fault c => sent { have_ := true, fail := some c }

/-- It writes the unit that it is at, when that is there (R24, R316); a failure of its read ends it. With the last unit it has completed,
and the strands start when every core's has. -/
def State.preloadPut (s : State) (core : Nat) (x : Cmd) (us : List (Nat × Nat)) : State :=
  match us[x.unit]? with
  | none =>
    let left := match (s.gangs.find? x.gang).map (·.phase) with | some (.preloading n) => n - 1 | _ => 0
    let s1 := (s.finishCmd core 0 x).modGang x.gang fun g => { g with phase := .preloading left }
    if left = 0 then s1.at_ s.now rankLaunch .strandStart { id := x.gang } else s1
  | some (_, dst) =>
    match (x.ahead.find? x.unit).filter (·.have_) with
    | none => s
    | some u =>
      if u.fail.isSome then s.preloadFail core x 3
      else
        (s.engineWrite core dst 64 x.gang).gate core 0 x fun s =>
          ((s.modCore core fun k => k.spPut dst u.data u.poison).setHead core 0
            { x with unit := x.unit + 1, ahead := x.ahead.erase x.unit }).engNext core 0 x.id (s.now + 1)

/-- A core's preload goes on. -/
def State.preloadGo (s : State) (core : Nat) (x : Cmd) : State :=
  match x.op, s.gangs.find? x.gang with
  | .preload _ none, some g => s.preloadList core x g
  | .preload _ (some us), some _ =>
    let s1 := s.preloadAsk core x us
    match (s1.head core 0).filter fun y => y.id == x.id with
    | some y => s1.preloadPut core y us
    | none => s1
  | _, _ => s.finishCmd core 0 x

/-- A read of a core's preload has come, or has failed: a line of its list, of which a poisoned one counts as failed, or a unit with its
poison (R177, R316). (DESIGN CHOICE, log 75) -/
def State.preloadGot (s : State) (core : Nat) (x : Cmd) (unit : Nat) (u : UnitSt) : State :=
  match x.op, s.gangs.find? x.gang with
  | .preload ws none, some g =>
    if u.fail.isSome || u.poison then s.preloadFail core x 3
    else
      let all := ws ++ (List.range 8).map fun i => BitVec.ofNat 64 (leNat ((u.data.drop (8 * i)).take 8))
      let base := g.rec_.at_ 0x48
      let n := 16 * g.rec_.fld 0x50 0 8
      let x1 := { x with unit := x.unit + 1, op := .preload all none }
      if x1.unit < listLines base n then (s.setHead core 0 x1).preloadGo core x1
      else
        match preloadUnits g ((g.cores.findIdx? (· == core)).getD 0) (listBytes base n (all.flatMap fun w => leBytes 8 w.toNat)) with
        | none => s.preloadFail core x 1
        | some us =>
          let x2 := { x1 with op := .preload all (some us), unit := 0, asked := 0, wrSp := us.map fun u => (u.2, u.2 + 64) }
          (s.setHead core 0 x2).preloadGo core x2
  | .preload _ (some _), some _ =>
    let x1 := { x with ahead := x.ahead.set unit { u with have_ := true } }
    (s.setHead core 0 x1).preloadGo core x1
  | _, _ => s.finishCmd core 0 x

/-- No entry came for the page that a core's preload asked for (R244). -/
def State.preloadAbsent (s : State) (core : Nat) (x : Cmd) : State :=
  s.preloadGot core { x with asked := x.asked + 1 } x.asked { fail := some .absent }

/-! ### Start (R26, R30, R177) -/

/-- Origin and extent of a core's part of a dimension (R177). -/
def part (ext tile g n : Nat) : Nat × Nat :=
  let t := max tile 1
  let q := ((ext + t - 1) / t + n - 1) / n
  let org := min (g * q * t) ext
  (org, min (q * t) (ext - org))

/-- The identity that a launch gives a strand (R26, R177, R451). -/
def identOf (s : State) (gid : Nat) (g : Gang) (pos sidx : Nat) : Ident :=
  let r := g.rec_
  let gx := pos % g.gw
  let gy := pos / g.gw
  let (o0, e0) := part (r.fld 0x18 0 32) (r.fld 0x20 0 16) gx g.gw
  let (o1, e1) := part (r.fld 0x18 32 32) (r.fld 0x20 16 16) gy g.gh
  { gang := gid, die := g.die, node := g.node, arg := BitVec.ofNat 64 (r.at_ 8), gx := gx, gy := gy, gw := g.gw, gh := g.gh
    nstr := r.nstr, sidx := sidx, ext0 := e0, ext1 := e1, org0 := o0, org1 := o1, win := g.win, amend := g.amend, step := g.step
    system := decide (g.node < s.pkg.sysn.toNat) }

/-- A strand enters its core: a STEP strand the lowest empty slot, an ARRIVAL strand the ready list (R177, R398). -/
def State.enter (s : State) (g core : Nat) (step : Bool) : State :=
  if step then
    match (s.core core).emptySlot with
    | some n => s.enterSlot g core n
    | none => s
  else
    ((s.modStrand g fun c => { c with place := .ready }).modCore core fun k => { k with ready := k.ready ++ [g] }).askLoad core (s.now + 1)

/-- Whether enough local indices of a core are free for a launch (R177). (DESIGN CHOICE, log 95) -/
def Core.hasLocals (k : Core) (n : Nat) : Bool := decide (n + k.locals_.length ≤ 4096)

/-- Launches the strand of index `sidx` on the core at a gang position. (DEDUCED, log 59) -/
def State.launch (s : State) (gid : Nat) (g : Gang) (pos core sidx : Nat) : State :=
  let k := s.core core
  let i := ((List.range 4096).find? fun i => !k.locals_.contains i).getD 0
  let n := core * 4096 + i
  let c : Strand := { pc := BitVec.ofNat 64 (g.rec_.at_ 0), ident := identOf s gid g pos sidx, core := core }
  let s1 := (s.setStrand n c).modCore core fun k => { k with locals_ := NatSet.add k.locals_ i }
  (s1.modGang gid fun g => { g with alive := g.alive.add n }).enter n core g.step

/-- Every strand of a gang starts (R177), and the governor's move that made the gang is over (R181). -/
def State.startGang (s : State) (gid : Nat) (g : Gang) : State :=
  let s1 := (s.modGang gid fun g => { g with phase := .running }).modDie g.die fun d =>
    { d with moves := d.moves.filter fun m => m.gang != gid }
  ((List.range g.cores.length).zip g.cores).foldl (init := s1) fun s (pos, core) =>
    (List.range g.rec_.nstr).foldl (fun s i => s.launch gid g pos core i) s

/-! ### Completion (R178, R181, R390) -/

/-- The node of a gang has completed (R178, R390): `more` are the successors of its list, none when the list could not be read.
(DEDUCED, log 54) -/
def State.nodeDone (s : State) (g : Gang) (more : Option (List (Nat × Nat))) : State :=
  let fl := some (g.fpf.toNat + if g.np then 64 else 0)
  if g.ended = 2 then s.status g.die g.node 5 (some 4) fl false .none
  else match more with
    | none => s.status g.die g.node 5 (some 5) fl false .none
    | some l => s.status g.die g.node 4 (if g.ended = 1 then some 4 else none) fl false (.succ g.die (g.rec_.succs ++ l))

/-- A placed instance of a stage node beside the gang `gid`. (DEDUCED, log 58) -/
def State.sibling (s : State) (gid : Nat) (g : Gang) : Option Nat :=
  if g.rec_.pipe = 0 then none
  else ((s.gangs.filter fun (n, x) => n != gid && x.die == g.die && x.node == g.node).head?).map (·.1)

/-- A gang is over and its rectangle released: what it leaves joins another instance of its node, or ends the node (R178, R181); a governor's
move gives the rectangle to the receiving stage, unless the dispatchers have stopped (R453). -/
def State.finishGang (s : State) (gid : Nat) (g : Gang) (more : Option (List (Nat × Nat))) : State :=
  let move := (s.die g.die).moves.find? fun m => m.gang == gid
  let s1 := s.releaseGang gid g
  let s2 := match s1.sibling gid g with
    | some o => s1.modGang o fun x => { x with fpf := x.fpf ||| g.fpf, np := x.np || g.np, ended := max x.ended g.ended }
    | none => s1.nodeDone g more
  match g.moving, move with
  | some rec2, some m =>
    (match s2.stageRec g.die rec2 with
      | none => s2
      | some r =>
        if s.pkg.halted then s2
        else
          let used := s2.gangs.any fun (_, x) => x.die == g.die && x.node == rec2 && x.retried
          (s2.modDie g.die fun d => { d with moves := d.moves ++ [{ m with gang := s2.nextId }] }).newGang g.die
            { node := rec2, rec_ := r, since := s.now, retried := used } g.cores)
  | _, _ => s2

/-- NSX and SXADDR (R170): how many bytes a node's list of further successors has, and where it is. -/
def LaunchRec.sxBytes (r : LaunchRec) : Nat := 2 * r.fld 0x38 8 8
/-- SXADDR. -/
def LaunchRec.sxAddr (r : LaunchRec) : Nat := r.at_ 0x40

/-- The entries of a list of further successors (R170), each a die and a node. -/
def succsOf (bs : List Byte) : List (Nat × Nat) :=
  (List.range (bs.length / 2)).map fun i => let e := leNat ((bs.drop (2 * i)).take 2); (e / 2 ^ 14, e % 2 ^ 14)

/-- The dispatcher reads the next line of a gang's list of further successors, through the TLB of the gang's core at position (0, 0) and in
its name (R178, R315). -/
def State.askMore (s : State) (gid : Nat) (g : Gang) : State :=
  let core := g.cores.headD 0
  let k := g.list.length / 64
  s.sendAs { acc := .unitRead 64 (.more gid k), strand := none, gang := 0, core := core, home := core, pa := 0
             va := BitVec.ofNat 64 (g.rec_.sxAddr / 64 * 64 + 64 * k), pc := 0 } core

/-- A line of a gang's list of further successors has been read, or its read has failed, as one of a poisoned line has (R178).
(DESIGN CHOICE, log 75) -/
def State.gotMore (s : State) (gid : Nat) (r : Req) (poison : Bool) : State :=
  match s.gangs.find? gid with
  | none => s
  | some g =>
    if r.fail.isSome || poison then s.finishGang gid g none
    else
      let g1 := { g with list := g.list ++ r.data }
      let n := g.rec_.sxBytes
      if g1.list.length / 64 < listLines g.rec_.sxAddr n then (s.modGang gid fun _ => g1).askMore gid g1
      else s.finishGang gid g1 (some (succsOf (listBytes g.rec_.sxAddr n g1.list)))

/-- A gang has completed (R178): a relaunch makes its node READY again (R390); otherwise the last instance of a node reads its list of further
successors, and is over. -/
def execGangComplete (s : State) : Out :=
  let gid := s.arg.id
  match s.gangs.find? gid with
  | none => .next s
  | some g =>
    if !s.gangQuiet gid g then .next s
    else
      match g.phase with
      | .draining => .next s
      | .relaunching =>
        let s1 := s.releaseGang gid g
        let n : ReadyNode := { node := g.node, rec_ := g.rec_, since := g.since, retried := true, win := g.win, amend := g.amend }
        .next (((s1.status g.die g.node 2 none none false .none).setNodes g.die (insertNode n)).askPass g.die)
      | _ =>
        if g.ended = 2 || g.rec_.sxBytes = 0 || (s.sibling gid g).isSome then .next (s.finishGang gid g (some []))
        else .next ((s.modGang gid fun x => { x with phase := .draining }).askMore gid g)

/-! ### Triggers (R182, R449) -/

/-- Trigger `arg.idx` of die `arg.die` fires (R182): it is disarmed, and its node's PRED is decremented (R173). -/
def execTriggerFire (s : State) : Out :=
  let d := s.arg.die
  let w := (((s.die d).trig[s.arg.idx]?).getD 0).toNat
  if w.testBit 31 then
    let s1 := s.modDie d fun x => { x with trig := x.trig.setIfInBounds s.arg.idx (BitVec.ofNat 64 (w - 2 ^ 31)) }
    .next (s1.unitWrite (dispStop d) (s.recordAt (w / 2 ^ 14 % 4) (w % 2 ^ 14) + 0x28) .dec .none)
  else .next s

end Sys2Proof.Machine
end

