-- ==== Sys2Proof/Machine/Fabric.lean ====
section
/-! DEFINITION. The fabric (R419-R426): puts, gets and `WWAIT` on the device's side, windows and ports, and what arrives from other
devices. A row's `arg` names a unit that this device sent by its number in `id`; for what arrives, `idx` is the window, `v` the offset,
`n` the sending device and `sub` its tag. -/

namespace Sys2Proof.Machine

/-! ### Windows and ports (R419, R420, R425) -/

/-- A window of the package. -/
def State.win (s : State) (w : Nat) : FabWin := (s.pkg.wins.find? w).getD {}
/-- Changes a window. -/
def State.modWin (s : State) (w : Nat) (f : FabWin → FabWin) : State := s.modPkg fun p => { p with wins := p.wins.set w (f ((p.wins.find? w).getD {})) }
/-- ORD. -/
def FabWin.ord (x : FabWin) : Bool := x.w0.getLsbD 58
/-- RWIN. -/
def FabWin.rwin (x : FabWin) : Nat := x.w1.toNat / 2 ^ 40 % 2 ^ 8
/-- LEN. -/
def FabWin.len (x : FabWin) : Nat := x.w1.toNat % 2 ^ 40
/-- PEER. -/
def FabWin.peer (x : FabWin) : Nat := x.w2.toNat % 2 ^ 13
/-- Whether a device is permitted by an inbound window. -/
def FabWin.permits (x : FabWin) (dev : Nat) : Bool := x.peer == 0x1FFF || x.peer == dev
/-- Ports that are up, ascending. -/
def Pkg.ports (p : Pkg) : List Nat := (List.range 24).filter p.portUp.getLsbD
/-- The port that a number chooses among those that are up (R422, R425). (DESIGN CHOICE, log 79) -/
def Pkg.portFor (p : Pkg) (n : Nat) : Option Nat := if p.ports.isEmpty then none else p.ports[n % p.ports.length]?
/-- A saturating 64-bit count. -/
def sat64 (n k : Nat) : Nat := min (n + k) (2 ^ 64 - 1)

/-- A write of words 0-3 of a window (R420): words 1 and 2 while it is not registered; word 0 registers or unregisters it. -/
def State.winWrite (s : State) (w word : Nat) (v : Word) : State :=
  let x := s.win w
  match word with
  | 0 =>
    let kind := v.toNat / 2 ^ 61 % 4
    let v0 := v &&& ~~~(BitVec.ofNat 64 (0x3FF * 2 ^ 48))
    if kind = 3 || (x.valid && v.getLsbD 63) then s
    else if v.getLsbD 63 then
      s.modWin w fun y => { y with w0 := v0, cnt := 0, port := (s.pkg.portFor y.rwin).getD 0 }
    else s.modWin w fun y => { y with w0 := v0 }
  | 1 => if x.valid then s else s.modWin w fun y => { y with w1 := BitVec.ofNat 64 (v.toNat % 2 ^ 48) }
  | 2 => if x.valid then s else s.modWin w fun y => { y with w2 := BitVec.ofNat 64 (v.toNat % 2 ^ 13 + v.toNat / 2 ^ 18 % 2 ^ 20 * 2 ^ 18) }
  | _ => s

/-- The increment of a window's counter (R422, R423, R426). -/
def State.countWin (s : State) (w : Nat) : State := s.modWin w fun x => { x with cnt := x.cnt + 1 }

/-! ### WPOST and WWAIT (R421, R424) -/

/-- Fault 0x41 (R421, R424). -/
def windowFault (w reason : Nat) : FaultRec := ⟨.window, 0, BitVec.ofNat 64 (w + reason * 256)⟩

/-- The window of a put or get is outbound and registered (R421). -/
def needOutbound (s : State) (w : Nat) : Except Stop Unit :=
  let x := s.win w
  if x.valid && x.kind == 1 then .ok () else .error (.fault (windowFault w 2))

/-- `WPOST` is accepted: a put (R421). (DEDUCED, log 76) -/
def execWpost (x : XReg) (s : State) : Out :=
  run 4 (fun s => do
    let c := s.cur
    if 5 < x.toNat then throw (.fault ⟨.undef, c.pc, encInfo (encode (.wpost x))⟩)
    needAcq c
    let w := c.xVal x
    let src := c.xAt x 1
    let ctl := c.xAt x 2
    let len := cpyLen ctl
    let sk := cpySk ctl
    let ctlBad := bits ctl 48 16 ≠ 0 || bits ctl 38 6 ≠ 0 || bits ctl 26 10 ≠ 0 || (sk ≠ 0 && sk ≠ 2)
    let fail (f : Cause) (v : Word) (n : Word) : Except Stop Unit := .error (.fault ⟨f, v, n⟩)
    if ctlBad then fail .range ctl 2
    if bits w 40 24 ≠ 0 then fail .range w 0
    if wordBad sk false src || (sk = 0 && src.getLsbD 34) then fail .range src 1
    if len % 64 ≠ 0 then fail .align ctl 2
    if bits w 0 32 % 64 ≠ 0 then fail .align w 0
    if wordMisaligned sk false src then fail .align src 1
    if rangePast sk src len then fail .range src 1
    needOutbound s (bits w 32 8)
    enqueue s 0 { s.newCmd 0 (.wpost false w src ctl) with rdSp := ownSp sk src len c.core } id (c.advance 4)) s

/-- `WPOST.G` is accepted: a get (R421, R423), which copies its indices. -/
def execWpostG (x : XReg) (s : State) : Out :=
  run 4 (fun s => do
    let c := s.cur
    if 5 < x.toNat then throw (.fault ⟨.undef, c.pc, encInfo (encode (.wpostG x))⟩)
    needAcq c
    let w := c.xVal x
    let dst := c.xAt x 1
    let ctl := c.xAt x 2
    let dk := cpyDk ctl
    let n := bits ctl 20 11 + 1
    let i := bits ctl 0 19
    let rsz := bits w 48 3
    let len := n * (64 * 2 ^ rsz)
    let fail (f : Cause) (v : Word) (n : Word) : Except Stop Unit := .error (.fault ⟨f, v, n⟩)
    if bits ctl 42 22 ≠ 0 || bits ctl 31 9 ≠ 0 || bits ctl 19 1 ≠ 0 || (dk ≠ 0 && dk ≠ 2) then fail .range ctl 2
    if wordBad dk true dst || (dk = 0 && dst.getLsbD 34) then fail .range dst 0
    if bits w 51 13 ≠ 0 || bits w 40 8 ≠ 0 || rsz = 7 then fail .range w 1
    if i % 4 ≠ 0 then fail .align ctl 2
    if wordMisaligned dk true dst then fail .align dst 0
    if bits w 0 32 % 64 ≠ 0 then fail .align w 1
    if 0x60000 < i + 4 * n then fail .range ctl 2
    if rangePast dk dst len then fail .range dst 0
    needOutbound s (bits w 32 8)
    enqueue s 1 { s.newCmd 1 (.wpost true w dst ctl) with
        rdSp := [(i, i + 4 * n)], wrSp := ownSp dk dst len c.core, idx := (s.core c.core).indices i n } id (c.advance 4)) s

/-- `WWAIT` (R424). -/
def execWwait (a b : SReg) (lim : BitVec 10) (s : State) : Out :=
  run 4 (fun s => do
    let c := s.cur
    let v ← readS c a
    let n ← readS c b
    let w := v.toNat % 256
    if v.toNat / 256 ≠ 0 then throw (.fault ⟨.range, v, 0⟩)
    if !(s.win w).valid then throw (.fault (windowFault w 2))
    if (s.win w).cnt.toNat < n.toNat then throw (.wait (.window w n.toNat) (c.lim10 lim))
    .ok (s.setCur (c.advance 4))) s

/-- The limit of a `WWAIT` ends (R424), of strand `arg.id` since cycle `arg.sub`. -/
def execWwaitExpiry (s : State) : Out :=
  .next (s.expire s.arg.id s.arg.sub (fun k => match k with | .window w _ => some (windowFault w 1) | _ => none) (fun _ s => s))

/-! ### Units of a command (R422, R423) -/

/-- The command of a number in a queue. -/
def State.cmd? (s : State) (core q id : Nat) : Option Cmd := ((s.core core).queue q).find? fun x => x.id == id
/-- Changes the command of a number in a queue. -/
def State.modCmd (s : State) (core q id : Nat) (f : Cmd → Cmd) : State :=
  s.modCore core fun k => k.setQueue q ((k.queue q).map fun x => if x.id = id then f x else x)

/-- A unit is lost (R422, R423): a put's command remembers the lowest lost offset, a get's unit is missing. -/
def State.loseUnit (s : State) (n : Nat) (u : FabUnit) : State :=
  let s0 := s.modPkg fun p => { p with fabLost := sat64 p.fabLost 1 }
  let s1 := (List.range 4).foldl (fun t d => t.crossed d 7 s.pkg.fabLost s0.pkg.fabLost) s0
  let s2 :=
    if u.get then s1.modPkg fun p => { p with units := p.units.set n { u with missing := true } }
    else
      let addr := BitVec.ofNat 64 (u.win * 2 ^ 32 + u.off)
      (s1.modPkg fun p => { p with units := p.units.erase n }).modCmd u.core u.queue u.cmd fun x =>
        { x with
          open_ := x.open_ - 1, missing := x.missing + 1
          missAddr := if x.missing = 0 || decide (addr.toNat < x.missAddr.toNat) then addr else x.missAddr }
  s2.engPoke u.core u.queue u.cmd s.now

/-- A unit or a request is on its way on a port: it is lost when no acknowledgement has come within `fab.tmo` cycles (R422). -/
def State.sendUnit (s : State) (u : FabUnit) : State :=
  ({ s with nextId := s.nextId + 1 }.modPkg fun p => { p with units := p.units.set s.nextId u }).at_ (s.now + s.pkg.tmo.toNat) rankLast
    .fabricUnitTimeout { id := s.nextId }

/-- Sends the unit that a put holds (R422). -/
def State.putOut (s : State) (core : Nat) (x : Cmd) (d : List Byte) (p : Bool) : State :=
  match x.op with
  | .wpost _ w _ _ =>
    let n := bits w 32 8
    let y := s.win n
    let off := bits w 0 32 + 64 * x.unit
    let port := if y.ord then (if s.pkg.ports.isEmpty then none else some y.port) else s.pkg.portFor (y.rwin + x.unit)
    let u : FabUnit := { core := core, queue := 0, cmd := x.id, win := n, off := off, port := port.getD 0 }
    let s1 := s.setHead core 0 { x with unit := x.unit + 1, open_ := x.open_ + 1, ahead := x.ahead.erase x.unit }
    match port with
    | some r => ((s1.sendUnit u).out (.putUnit r y.peer y.rwin off s1.nextId d p)).engNext core 0 x.id (s.now + 1)
    | none => ((s1.sendUnit u).loseUnit s1.nextId u).engNext core 0 x.id (s.now + 1)
  | _ => s

/-- A put completes once every unit has been sent, and acknowledged or lost (R422). -/
def State.putEnd (s : State) (core : Nat) (x : Cmd) : State :=
  match x.op with
  | .wpost _ _ _ ctl =>
    if 64 * x.unit < cpyLen ctl || x.open_ ≠ 0 then s
    else if x.missing ≠ 0 then s.failCmd core 0 x .window x.missAddr 0
    else s.finishCmd core 0 x
  | _ => s

/-- A put whose source is in main memory asks for its next unit, one in a cycle, with at most 64 in flight (R320, R422). -/
def State.putAsk (s : State) (core : Nat) (x : Cmd) (src ctl : Word) : State :=
  if cpySk ctl = 0 || s.now < x.askAt || min (s.unitLimit x ctl) (x.unit + 64) ≤ x.asked then s
  else
    let sent (u : UnitSt) : State :=
      (s.setHead core 0 { x with asked := x.asked + 1, askAt := s.now + 1, ahead := x.ahead.set x.asked u }).engNext core 0 x.id (s.now + 1)
    match engXlat s core 0 x (wordAt src (64 * x.asked)) false (.engRead 0 x.id x.asked 64) with
    | .send r => (sent {}).send r
    | .held t => t
    | .fault c => sent { have_ := true, fail := some c }

/-- A put sends the unit that it is at, when that has been read; a failure of its read stops it (R317). -/
def State.putUp (s : State) (core : Nat) (x : Cmd) (src ctl : Word) : State :=
  if cpySk ctl = 0 then
    let a := bits src 0 19 + 64 * x.unit
    (s.engineRead core a 64).gate core 0 x fun s =>
      let (d, p) := (s.core core).spUnit a
      s.putOut core x d p
  else match (x.ahead.find? x.unit).filter (·.have_) with
    | none => s
    | some u =>
      match u.fail with
      | some c => s.failCmd core 0 x c (wordAt src (64 * x.unit)) 0
      | none => s.putOut core x u.data u.poison

/-- A put goes on (R422): it stops at a split point while a pre-emption is in force. -/
def State.putGo (s : State) (core : Nat) (x : Cmd) : State :=
  match x.op with
  | .wpost g w src ctl =>
    let n := 64 * x.unit
    if cpyLen ctl ≤ n then s.putEnd core x
    else if n ≠ 0 && cpyGran ctl ≠ 0 && n % (cpyGran ctl * 4096) = 0 && s.stopping x.gang then
      s.setHead core 0 { x with
        started := false, unit := 0, asked := 0, ahead := [], op := .wpost g (wordAt w n) (wordAt src n) (ctl - BitVec.ofNat 64 n) }
    else
      let s1 := s.putAsk core x src ctl
      match (s1.head core 0).filter fun y => y.id == x.id with
      | some y => s1.putUp core y src ctl
      | none => s1
  | _ => s

/-- A unit that a put has asked for is there, or its read has failed. -/
def State.putGot (s : State) (core : Nat) (x : Cmd) (unit : Nat) (u : UnitSt) : State :=
  let x1 := { x with ahead := x.ahead.set unit { u with have_ := true } }
  (s.setHead core 0 x1).putGo core x1

/-- Row size of a get. -/
def getRow (w : Word) : Nat := 64 * 2 ^ bits w 48 3

/-- A get starts (R423): every row is requested. (DEDUCED, log 80) -/
def State.getStart (s : State) (core : Nat) (x : Cmd) : State :=
  match x.op with
  | .wpost _ w _ _ =>
    let n := bits w 32 8
    let y := s.win n
    let size := getRow w
    let s1 := ((List.range x.idx.length).zip x.idx).foldl (init := s) fun s (i, j) =>
      let port := if y.ord then (if s.pkg.ports.isEmpty then none else some y.port) else s.pkg.portFor (y.rwin + i)
      let first := s.nextId
      let s2 := (List.range (size / 64)).foldl (init := s) fun s k =>
        let u : FabUnit := { core := core, queue := 1, cmd := x.id, win := n, off := 64 * k, port := port.getD 0, get := true
                             unit := i * (size / 64) + k }
        if port.isSome then s.sendUnit u else (s.sendUnit u).loseUnit s.nextId u
      match port with
      | some r => s2.out (.getReq r y.peer y.rwin (bits w 0 32 + j * size) size first)
      | none => s2
    s1.engPoke core 1 x.id s.now
  | _ => s

/-- The unit that a get holds has been written (R423): the window counts a unit that was received. -/
def State.getWritten (s : State) (core : Nat) (x : Cmd) : State :=
  match x.op with
  | .wpost _ w _ _ =>
    let s1 := if x.hold.poison && x.missLast == some (x.unit / (getRow w / 64)) then s else s.countWin (bits w 32 8)
    (s1.setHead core 1 { x with unit := x.unit + 1, hold := {} }).engPoke core 1 x.id (s.now + 1)
  | _ => s

/-- Writes the unit that a get holds. -/
def State.getPut (s : State) (core : Nat) (x : Cmd) : State :=
  match x.op with
  | .wpost _ _ dst ctl =>
    let off := 64 * x.unit
    match cpyDk ctl with
    | 0 =>
      let a := bits dst 0 19 + off
      (s.engineWrite core a 64 x.gang).gate core 1 x fun s =>
        (s.modCore core fun k => k.spPut a x.hold.data x.hold.poison).getWritten core x
    | _ =>
      match engXlat s core 1 x (wordAt dst off) true (.engWrite 1 x.id (x.hold.data.map some) x.hold.poison) with
      | .send r => (s.setHead core 1 x.setOut).send r
      | .held t => t
      | .fault f =>
        (s.modPkg fun p => { p with units := p.units.filter fun (_, u) => u.cmd != x.id }).failCmd core 1 x f (wordAt dst off) 0
  | _ => s

/-- A get goes on (R423): an element is written once all its units have arrived or one is missing; every unit of a missing one is
written poisoned. -/
def State.getGo (s : State) (core : Nat) (x : Cmd) : State :=
  match x.op with
  | .wpost _ w _ _ =>
    if x.hold.writing then s
    else if x.hold.have_ then s.getPut core x
    else
      let per := getRow w / 64
      if x.idx.length * per ≤ x.unit then
        let s1 := s.modPkg fun p => { p with units := p.units.filter fun (_, u) => u.cmd != x.id }
        if x.missing ≠ 0 then s1.failCmd core 1 x .gather x.missAddr x.missing else s1.finishCmd core 1 x
      else
        let e := x.unit / per
        let us := (s.pkg.units.filter fun (_, u) => u.cmd == x.id && u.unit / per == e).map (·.2)
        if us.any fun u => u.missing then
          let x1 := if x.missLast = some e then x
            else { x with
              missing := x.missing + 1, missLast := some e
              missAddr := if x.missing = 0 then BitVec.ofNat 64 (bits w 32 8 * 2 ^ 32 + e * getRow w) else x.missAddr }
          let x2 := { x1 with hold := { data := leBytes 64 (Config.missing core x.id (64 * x.unit)).toNat, poison := true, have_ := true } }
          (s.setHead core 1 x2).getPut core x2
        else if us.all fun u => u.got.isSome then
          match (us.find? fun u => u.unit == x.unit).bind (·.got) with
          | some (d, p) =>
            let x2 := { x with hold := { data := d, poison := p, have_ := true } }
            (s.setHead core 1 x2).getPut core x2
          | none => s
        else s
  | _ => s

/-- An acknowledgement or a unit has come for a command. -/
def State.wpostPoke (s : State) (core : Nat) (x : Cmd) : State :=
  match x.op with
  | .wpost g _ _ _ => if !g then s.putEnd core x else if x.hold.have_ then s else s.getGo core x
  | _ => s

/-- A put or a get goes on. -/
def State.wpostGo (s : State) (core : Nat) (x : Cmd) : State :=
  match x.op with
  | .wpost g _ _ _ => if g then s.getGo core x else s.putGo core x
  | _ => s

/-- The write of a get to main memory has failed (R317): the command stops. -/
def State.getFail (s : State) (core : Nat) (x : Cmd) (c : Cause) : State :=
  match x.op with
  | .wpost true _ dst _ =>
    (s.modPkg fun p => { p with units := p.units.filter fun (_, u) => u.cmd != x.id }).failCmd core 1 x c (wordAt dst (64 * x.unit)) 0
  | _ => s

/-- No entry came for the page that a put or a get waits for (R244). -/
def State.wpostAbsent (s : State) (core : Nat) (x : Cmd) : State :=
  match x.op with
  | .wpost true _ _ _ => s.getFail core x .absent
  | _ => s.putGot core { x with asked := x.asked + 1 } x.asked { fail := some .absent }

/-! ### What the fabric answers -/

/-- An acknowledgement of unit `arg.id` arrives, or its refusal (`arg.flag`) (R422). -/
def execFabricAckArrival (s : State) : Out :=
  match (s.pkg.units.find? s.arg.id).filter fun u => !u.get with
  | none => .next s
  | some u =>
    if s.arg.flag then .next (s.loseUnit s.arg.id u)
    else
      let s1 := (s.modPkg fun p => { p with units := p.units.erase s.arg.id }).countWin u.win
      .next ((s1.modCmd u.core u.queue u.cmd fun x => { x with open_ := x.open_ - 1 }).engPoke u.core u.queue u.cmd s.now)

/-- A unit that a get asked for arrives (R423): `arg.data`, with its poison in `arg.flag2`, or its refusal or failure (`arg.flag` false). -/
def execFabricGetUnitArrival (s : State) : Out :=
  match (s.pkg.units.find? s.arg.id).filter fun u => u.get with
  | none => .next s
  | some u =>
    if u.missing then .next s
    else
      let v := if s.arg.flag then { u with got := some (s.arg.data, s.arg.flag2) } else { u with missing := true }
      .next ((s.modPkg fun p => { p with units := p.units.set s.arg.id v }).engPoke u.core u.queue u.cmd s.now)

/-- Whether a unit has still to be answered. -/
def FabUnit.waits (u : FabUnit) : Bool := u.got.isNone && !u.missing

/-- Unit `arg.id` has not been acknowledged within `fab.tmo` cycles (R422). -/
def execFabricUnitTimeout (s : State) : Out :=
  match (s.pkg.units.find? s.arg.id).filter (·.waits) with
  | some u => .next (s.loseUnit s.arg.id u)
  | none => .next s

/-- The next up port after one, in ascending order and around (R425). -/
def Pkg.nextPort (p : Pkg) (n : Nat) : Nat :=
  match p.ports.find? fun q => decide (n < q) with
  | some q => q
  | none => p.ports.headD n

/-- Port `arg.idx` goes down (R419, R422, R425): its units in flight are lost, and ordered windows move to the next up port. -/
def execPortDown (s : State) : Out :=
  let n := s.arg.idx
  let s1 := s.modPkg fun p => { p with portUp := p.portUp &&& ~~~(BitVec.ofNat 24 (2 ^ n)) }
  let s2 := s1.modPkg fun p => { p with wins := p.wins.mapV fun (x : FabWin) => if x.port = n then { x with port := p.nextPort n } else x }
  .next ((s2.pkg.units.filter fun (_, u) => u.port == n && u.waits).foldl (fun s (i, u) => s.loseUnit i u) s2)

/-- The link of port `arg.idx` has retrained (R419). -/
def execPortRetrain (s : State) : Out := .next (s.modPkg fun p => { p with portUp := p.portUp ||| BitVec.ofNat 24 (2 ^ s.arg.idx) })

/-- A containment notice of device `arg.n` arrives (R419). -/
def execContainmentNotice (s : State) : Out :=
  .next ((s.modPkg fun p => { p with cnote := BitVec.ofNat 64 (2 ^ 63 + s.arg.n % 2 ^ 13) }).irq 0)

/-! ### What arrives from other devices (R422, R423, R425) -/

/-- A write of a stream's ingress page (R364): it becomes stream events in order, or counts in BADREC. -/
def State.ingress (s : State) (rank d si off : Nat) (data : List Byte) (poison : Bool) : State :=
  match s.stream d si with
  | none => s.badRec d si
  | some x =>
    let n := data.length
    let src (base : Nat) : Bool := decide (base ≤ off) && decide (off < base + 8 * x.srcs.length) && off % 8 == 0 && n == 8
    if n ≠ 0 && off + n ≤ 0x800 && off % x.rs = 0 && n % x.rs = 0 then
      (List.range (n / x.rs)).foldl (init := s) fun s i =>
        s.at_ s.now rank .streamRecord { die := d, id := si, data := (data.drop (i * x.rs)).take x.rs, flag := poison }
    else if src 0x800 && !poison then
      s.at_ s.now rank .sourceWatermark { die := d, id := si, idx := (off - 0x800) / 8, v := BitVec.ofNat 64 (leNat data) }
    else if src 0xA00 && !poison then s.at_ s.now rank .sourceIdle { die := d, id := si, idx := (off - 0xA00) / 8 }
    else s.badRec d si

/-- A unit for a stream inbound window (R425): one in the watermark or idle part is eight words. (DEDUCED, log 81) -/
def State.ingressUnit (s : State) (d si off : Nat) (data : List Byte) (poison : Bool) : State :=
  if off < 0x800 then s.ingress rankSuFabric d si off data poison
  else (List.range 8).foldl (fun s i => s.ingress rankSuFabric d si (off + 8 * i) ((data.drop (8 * i)).take 8) poison) s

/-- An arriving unit is refused (R422). -/
def State.refuse (s : State) (tag : Nat) : State := (s.modPkg fun p => { p with refused := sat64 p.refused 1 }).out (.ack tag false)

/-- An access to an inbound window has been performed, or has failed (R422, R423). -/
def State.inboundDone (s : State) (r : Req) (poison : Bool) : State :=
  match r.acc with
  | .fabWrite w tag _ _ => if r.fail.isSome then s.refuse tag else (s.countWin w).out (.ack tag true)
  | .fabRead _ tag peer => if r.fail.isSome then s.out (.getData peer tag false [] false) else s.out (.getData peer tag true r.data poison)
  | _ => s

/-- An access to an inbound window, made in the name of the window's core (R422, R423). -/
def inboundReq (x : FabWin) (off : Nat) (acc : Access) : Req :=
  let core := x.w2.toNat / 2 ^ 28 % 2 ^ 10
  { acc := acc, strand := none, gang := 0, core := core, home := core, pa := 0, va := BitVec.ofNat 64 (x.w0.toNat % 2 ^ 48 + off), pc := 0 }

/-- Sends an access to an inbound window to its home, translated by the window's core (R422, R423). (DEDUCED, log 78) -/
def State.inbound (s : State) (r : Req) : State := s.sendAs r r.core

/-- A put unit arrives at window `arg.idx` (R422): `arg.data` at offset `arg.v`, with its poison in `arg.flag`. -/
def execFabricPutArrival (s : State) : Out :=
  let a := s.arg
  let x := s.win a.idx
  let off := a.v.toNat
  if !x.valid || (x.kind ≠ 0 && x.kind ≠ 2) || !x.w0.getLsbD 60 || !x.permits a.n || x.len < off + 64 then .next (s.refuse a.sub)
  else if x.kind = 2 then
    let s1 := s.ingressUnit (x.w2.toNat / 2 ^ 26 % 4) (x.w2.toNat / 2 ^ 18 % 2 ^ 8) off a.data a.flag
    .next ((s1.countWin a.idx).out (.ack a.sub true))
  else .next (s.inbound (inboundReq x off (.fabWrite a.idx a.sub a.data a.flag)))

/-- A row of an inbound window is asked for (R423): `arg.id` bytes at offset `arg.v` of window `arg.idx`; each unit is read at its home. -/
def execFabricGetRequest (s : State) : Out :=
  let a := s.arg
  let x := s.win a.idx
  let off := a.v.toNat
  let ok := x.valid && x.kind == 0 && x.w0.getLsbD 59 && x.permits a.n && decide (off + a.id ≤ x.len)
  .next ((List.range (a.id / 64)).foldl (init := s) fun s i =>
    if ok then s.inbound (inboundReq x (off + 64 * i) (.fabRead a.idx (a.sub + i) a.n))
    else s.out (.getData a.n (a.sub + i) false [] false))

end Sys2Proof.Machine
end

