-- ==== Sys2Proof/Machine/Issue.lean ====
section
/-! DEFINITION. Whose turn it is (R164, R165, R168), and the instruction that a strand issues in its turn (R34-R38, R51). -/

namespace Sys2Proof.Machine

/-- Whether the fetch of the strand's next instruction has returned (R164, R454). -/
def Strand.fetched (c : Strand) : Bool :=
  match c.fetch with
  | .ready _ _ | .fault _ => true
  | _ => false

/-- Whether a strand in a slot is runnable (R164). -/
def runnable (s : State) (g : Nat) : Bool :=
  let c := s.strand g
  c.slot?.isSome && decide (c.readyAt ≤ s.dieNow c.core) && c.fetched &&
    (match c.wait with
      | none => true
      | some w => waitOver s g c w.kind)

/-- Whether a slot has not issued in the seven cycles before this one (R165). -/
def rested (now : Nat) (k : Core) (n : Nat) : Bool :=
  let i := (k.issued[n]?).getD 0
  i == 0 || decide (i + 7 ≤ now)

/-- The strand of a slot that may issue, if it may. -/
def candidate (s : State) (k : Core) (n : Nat) : Option Nat :=
  match (k.slots[n]?).getD none with
  | some g => if runnable s g && (!k.rotNow || rested (s.dieNow (s.strand g).core) k n) then some g else none
  | none => none

/-- The slot of a core whose turn this cycle is (R164). -/
def turnSlot (s : State) (core : Nat) : Nat := s.dieNow core % 16

/-- What happens in a core's turn. -/
inductive Turn where
  /-- The strand of the slot yields (R168), and the turn goes on. -/
  | yield (slot : Nat)
  /-- A strand issues from a slot (R165). -/
  | issue (g slot : Nat)
  /-- No instruction issues. -/
  | none
  deriving DecidableEq, Repr

/-- Whether the strand whose slot has its turn yields (R168): COMPACT mode, its turns are used up, and the ready list is not
empty; not in a STEP gang, not while its matrix operation is in progress, not while its checked access keeps it in its slot (R282), and not
between the turns of one instruction (R134). (DEDUCED, log 91) -/
def yields (s : State) (core : Nat) : Bool :=
  let k := s.core core
  match (k.slots[turnSlot s core]?).getD none with
  | some g =>
    let c := s.strand g
    k.rotNow && c.slot?.isSome && !k.ready.isEmpty && c.ctl.quantum != 0 && decide (c.ctl.quantum.toNat ≤ c.turns) && !c.ident.step
      && c.owe == 0 && (match c.wait with | some w => w.kind != .array && !w.hold | none => true)
  | none => false

/-- A core's turn in this cycle (R165, R168). -/
def turnOf (s : State) (core : Nat) : Turn :=
  let k := s.core core
  if yields s core then .yield (turnSlot s core)
  else
    let order := if k.rotNow then (List.range 16).map fun i => (turnSlot s core + i) % 16 else [turnSlot s core]
    match order.findSome? fun n => (candidate s k n).map fun g => (g, n) with
    | some (g, n) => .issue g n
    | none => .none

/-- The cycle's turn counts for the strand whose slot it belongs to (R168). -/
def State.countTurn (s : State) (core : Nat) : State :=
  match ((s.core core).slots[turnSlot s core]?).getD none with
  | some g => s.modStrand g fun c => { c with turns := c.turns + 1 }
  | none => s

/-- The state in which a strand issues from a slot: the core's turn is used. -/
def State.begin_ (s : State) (core g slot : Nat) : State :=
  let s1 := s.countTurn core
  { s1.modCore core fun k => { k with issued := k.issued.setIfInBounds slot (s.dieNow core + 1) } with
    curId := g, issueQ := s.issueQ.drop 1 }

/-- What a strand does in its turn. -/
inductive Act where
  /-- It holds its slot and issues nothing: an extra turn of its instruction before the last (R134). -/
  | owe
  /-- It takes the fault of its fetch (R36, R37). -/
  | fault (f : FaultRec)
  /-- It issues an instruction. -/
  | instr (i : Instr) (len : Nat)
  /-- What it fetched is no instruction (R50, R51). -/
  | bad (a : EvArg)
  deriving DecidableEq, Repr

/-- What is decoded from the halfwords that a fetch returned (R51). (DEDUCED, log 51) -/
def decodeAct (h : Half) (c : Option Half) (pc prev : Word) : Act :=
  match decodeHalves h (c.getD 0) with
  | .ok (i, len) => .instr i len
  | .error .continuation => .fault ⟨.misEntry, pc, prev⟩
  | .error e =>
    .bad { flag := isHead h, flag2 := isSysHead h, n := if e = .noContinuation then 0 else if isHead h then 4 else 2
           v := if isHead h then encInfo [h, c.getD 0] else encInfo [h] }

/-- What the strand whose turn it is does (R51, R134). -/
def actOf (c : Strand) : Act :=
  if 1 < c.owe then .owe
  else match c.fetch with
    | .fault f => .fault f
    | .ready h k => decodeAct h k c.pc c.prevPc
    | _ => .owe

/-- The turn of an instruction is over: the fetch of the next one starts (R454). -/
def State.endTurn (s : State) : State :=
  match s.cur.wait.filter fun w => w.kind.issued with
  | some w => s.fetchNext s.curId w.len
  | none => s.startFetch s.curId

/-- The same on an outcome. -/
def endTurn : Out → Out
  | .next t => .next t.endTurn
  | .fault f => .fault f
  | .refused r => .refused r

/-- Halfwords that are no instruction (R50, R51): fault 0x01, or fault 0x04 for a system-only opcode in user mode. `arg.v` is
what `ctl.tinfo` receives, `arg.n` the length as decoded (0 when R51 stops before step 6), `arg.flag2` a system-only opcode. -/
def execUndefinedEncoding (s : State) : Out :=
  let c := s.cur
  let cause := if s.arg.flag2 && s.arg.n != 0 && !c.ident.system then Cause.priv else .undef
  .next (s.raise s.curId ⟨cause, c.pc, s.arg.v⟩ (lenCode s.arg.n))

/-- Whether some governed ring of a die is empty while an `RTAKE.D` waits on it (R449). -/
def State.ringStarved (s : State) (die : Nat) : Bool :=
  s.cores.any fun (c, k) => dieOf c == die &&
    k.ringWaits.any fun (r, free, _) => !free && (k.rings.find? r).any fun x => x.gov && x.filled == 0

/-- The cycle counts for the counter of starved rings of each die (R449). -/
def State.countStarved (s : State) : State :=
  (List.range 4).foldl (init := s) fun s d =>
    if s.ringStarved d then
      let n := (s.die d).starvedRings
      (s.modDie d fun x => { x with starvedRings := n + 1 }).crossed d 3 n (n + 1)
    else s

/-- The register blocks as they stand (R446). -/
def State.regs (s : State) : Regs :=
  { now := s.now, pkg := s.pkg, dies := s.dies, homes := s.homes
    ctx := (s.strands.filter fun (_, c) => c.isContext c.core).foldl (fun t (_, c) => t.set c.core (t.getD c.core 0 + 1)) [] }

/-- A die's clock advances by one reference cycle (R164, R448): its count falls behind when it is below 1.6 GHz. -/
def Die.advance (d : Die) : Die :=
  if d.frac + d.fmhz < 1600 then { d with frac := d.frac + d.fmhz }
  else { d with frac := d.frac + d.fmhz - 1600, count := d.count + 1 }

/-- Whether a core's die begins a cycle of its own with the next reference cycle. -/
def State.clocked (s : State) (core : Nat) : Bool := decide (1600 ≤ (s.die (dieOf core)).frac + (s.die (dieOf core)).fmhz)

/-- Whether a core holds a strand in a slot, or a context that may enter one in the coming cycle. -/
def State.hasStrand (s : State) (core : Nat) (k : Core) : Bool :=
  k.slots.toList.any (·.isSome) || s.strands.any fun (_, c) =>
    match c.place with
    | .migrating h => h == core
    | .saved => false
    | _ => c.core == core

/-- The banks of a core are free again. -/
def Core.freeBanks (k : Core) : Core :=
  if k.engWr.isEmpty && k.engRd.isEmpty && k.engWish.isEmpty then k
  else { k with bankWr := [], bankNo := [], engWr := [], engRd := [], engWish := [], strandRd := [] }

/-- A die has begun a cycle of its own, if its count has moved from `old`: triggers on the count may fire (R449), and in every 16,000th
cycle Thermidor steps the clock (R447). -/
def State.dieTick (s : State) (d old : Nat) : State :=
  let n := (s.die d).count
  if n = old then s
  else
    let t := s.crossed d 0 old n
    if n % 16000 = 0 && !s.pkg.thermal then t.at_ s.now rankWork .thermidorStep { die := d, flag2 := true } else t

/-- The next cycle begins (R164): every core of a die that begins a cycle, and that holds a strand, has a turn, unless the package has
stopped (R447, R453). (DESIGN CHOICE, log 1) -/
def State.tick (s : State) : State :=
  let s1 := { s with now := s.now + 1, dies := s.dies.map Die.advance }.countStarved
  let s2 := (List.range 4).foldl (fun t d => t.dieTick d (s.die d).count) s1
  { s2 with
    cores := s2.cores.mapV Core.freeBanks
    cycleRegs := s1.regs
    issueQ := if s.pkg.halted then [] else (s.cores.filter fun (c, k) => s.clocked c && s.hasStrand c k).map (·.1) }

end Sys2Proof.Machine
end

