-- ==== Sys2Proof/Machine/Replies.lean ====
section
/-! DEFINITION. The events of engines (R314-R324, R329), replies and acknowledgements of accesses (R15, R254-R267, R282), row writes
(R262), and the return of fetched halfwords (R37, R454). -/

namespace Sys2Proof.Machine

/-! ### Engines -/

/-- A started command goes on: with the unit it holds, or with the next (R205, R320, R359, R422, R423). -/
def State.cmdGo (s : State) (core q : Nat) (x : Cmd) : State :=
  match x.op with
  | .cpy _ _ _ => s.cpyGo core q x
  | .wpost _ _ _ _ => s.wpostGo core x
  | .stream _ _ _ _ _ => s.streamGo core x
  | .preload _ _ => s.preloadGo core x
  | .mload _ _ _ _ | .mstore _ _ _ _ _ _ => s.matrixGo core x
  | _ => s

/-- A unit that a command asked for is there, or its read has failed (R317, R320, R422). -/
def State.cmdRead (s : State) (core q : Nat) (x : Cmd) (unit : Nat) (u : UnitSt) : State :=
  match x.op with
  | .cpy _ _ _ => s.gotUnit core q x unit u
  | .wpost false _ _ _ => s.putGot core x unit u
  | .preload _ _ => s.preloadGot core x unit u
  | _ => s

/-- A unit that a command wrote has been performed. -/
def State.cmdWritten (s : State) (core q : Nat) (x : Cmd) : State :=
  match x.op with
  | .cpy _ _ _ => s.written core q x
  | .wpost true _ _ _ => s.getWritten core x
  | _ => s

/-- A write of a command to main memory has failed (R317). -/
def State.cmdFail (s : State) (core q : Nat) (x : Cmd) (c : Cause) : State :=
  match x.op with
  | .cpy _ _ _ => s.putFail core q x c
  | .wpost true _ _ _ => s.getFail core x c
  | _ => s

/-- No entry came for the page `vpn` that a command waits for (R244). -/
def State.cmdAbsent (s : State) (core q : Nat) (x : Cmd) (vpn : Nat) : State :=
  match x.op with
  | .cpy _ _ _ => s.cpyAbsent core q x vpn
  | .wpost _ _ _ _ => s.wpostAbsent core x
  | .preload _ _ => s.preloadAbsent core x
  | _ => s

/-- The command at the head of queue `arg.idx` of core `arg.id` starts, if it still may (R206, R314). -/
def execEngineCommandStart (s : State) : Out :=
  let core := s.arg.id
  let q := s.arg.idx
  match ((s.core core).queue q).head? with
  | none => .next s
  | some x =>
    if x.id = s.arg.sub && s.startable core x then
      let x1 := { x with started := true }
      let s1 := s.setHead core q x1
      let later (t : Nat) : State := s1.at_ t rankWork .engineCommandComplete { id := core, idx := q, sub := x.id }
      match x.op with
      | .mload _ _ _ _ | .mstore _ _ _ _ _ _ | .mzero _ _ => .next (s1.matrixStart core x1)
      | .gwin _ _ b => .next (later (s.now + (4 * (bits b 20 11 + 1) + 511) / 512))
      | .gunb _ => .next (later (s.now + 1))
      | .cpy _ _ _ => .next (s1.cpyStart core q x1)
      | .wpost g _ _ _ => .next (if g then s1.getStart core x1 else s1.putGo core x1)
      | .stream _ _ _ _ _ => .next (s1.streamGo core x1)
      | .preload _ _ => .next (s1.preloadGo core x1)
    else .next s

/-- One step of a command or of a ring (R315-R329); `arg.n` says which. -/
def execEngineUnit (s : State) : Out :=
  let a := s.arg
  let mine (go : Cmd → State) : Out :=
    match (s.head a.id a.idx).filter fun x => x.id == a.sub with
    | some x => .next (go x)
    | none => .next s
  let any (go : Cmd → State) : Out :=
    match s.head a.id a.idx with
    | some x => .next (go x)
    | none => .next s
  match a.n with
  | 0 => if a.sub = 0 then any fun x => s.cmdGo a.id a.idx x else mine fun x => s.cmdGo a.id a.idx x
  | 0x11 => any fun x => s.cmdAbsent a.id a.idx x a.v.toNat
  | 1 => .next (s.remoteRead a)
  | 2 => mine fun x => s.cmdRead a.id a.idx x a.gen { data := a.data, poison := a.flag }
  | 3 => .next (s.ringAsk a)
  | 4 => any fun x => s.slotGiven a.id a.idx x a.v.toNat
  | 5 => .next (s.ringPost a)
  | 6 => mine fun x => s.cmdWritten a.id a.idx x
  | 7 => mine fun x => s.unitDone a.id a.idx x
  | 9 => mine fun x => s.wpostPoke a.id x
  | 11 => mine fun x => s.failWith a.id a.idx { x with ringWait := none } ⟨.range, a.v, BitVec.ofNat 64 a.gen⟩
  | _ => .next ((List.range 16).foldl (fun s r => s.ringChanged a.id r) s)

/-- A command completes (R314): `arg.sub` of queue `arg.idx` of core `arg.id`. -/
def execEngineCommandComplete (s : State) : Out :=
  let a := s.arg
  match (s.head a.id a.idx).filter fun x => x.id == a.sub with
  | none => .next s
  | some x =>
    match a.idx with
    | 1 => .next (s.gwinDone a.id x)
    | 2 => .next (s.completeMatrix a.id x)
    | q => .next (s.finishCmd a.id q x)

/-! ### Replies -/

/-- The failure that a request's reply reports (R255). -/
def Req.failure (r : Req) : Option Failure := r.fail.map fun f => ⟨f.cause, f.addr, r.pc⟩

/-- A reply fills the register that awaits it, or reports a failure there (R15, R255, R257). -/
def Strand.reply (c : Strand) (r : FillReg) (v : Word) (f : Option Failure) : Strand :=
  match f with
  | some f => c.setFill r (.failed f)
  | none => { c.writeFill r v with acq := if c.acq = some r then none else c.acq }

/-- The two words of a result entry. -/
def entryWords (d : List Byte) : Word × Word := (BitVec.ofNat 64 (leNat (d.take 8)), BitVec.ofNat 64 (leNat (d.drop 8)))

/-- A reply fills both registers of an `SREAD` together (R363). -/
def Strand.replyPair (c : Strand) (d : SReg) (bs : List Byte) (f : Option Failure) : Strand :=
  let (v, w) := entryWords bs
  (c.reply (.s (d + 1)) w f).reply (.s d) v f

/-- A strand's request `n` whose reply is there has failed: precisely when the strand waits for it, else at a later drain (R255). -/
def State.failLater (s : State) (n : Nat) (r : Req) (f : FaultRec) : State :=
  match r.strand with
  | none => s
  | some g =>
    if (s.strand g).awaits n then s.failWait g n f
    else s.modStrand g fun c => { c with fails := c.fails.set n ⟨f.cause, f.addr, r.pc⟩ }

/-- A line of a `VLD` arrives (R262): with the last one the row is written; a failure ends the load (R255). -/
def State.rowReply (s : State) (n : Nat) (r : Req) (line : Nat) (d : List Byte) (poison : Bool) : State :=
  let s0 := if line = 7 || r.fail.isSome then { s with reqs := s.reqs.erase n } else s
  match (s.core r.core).rowLoads.find? n with
  | none => s0
  | some l =>
    let fail : Option FaultRec := match r.fail with
      | some f => some f
      | none => if poison then some ⟨.poison, r.va + BitVec.ofNat 64 (64 * line), 0⟩ else none
    match fail with
    | some f =>
      let s1 := s0.modCore r.core fun k => { k with rowLoads := k.rowLoads.erase n }
      ((s1.failLater n r f).pokeQueues r.core).pokeGang r.gang
    | none =>
      let s1 := s0.modCore r.core fun k => { k with rowLoads := k.rowLoads.set n { l with lines := l.lines.set line d, left := l.left - 1 } }
      if l.left = 1 then s1.at_ s.now rankReply .vldRowWrite { id := r.core, idx := n } else s1

/-- The row of a `VLD` is written, whole (R262), as soon as its bank is free (R24): `arg.idx` of core `arg.id`. -/
def execVldRowWrite (s : State) : Out :=
  let core := s.arg.id
  let n := s.arg.idx
  let k := s.core core
  match k.rowLoads.find? n with
  | none => .next s
  | some l =>
    if k.bankTaken l.row 512 then .next (s.at_ (s.now + 1) rankReply .vldRowWrite s.arg)
    else
      let lanes := 4096 / l.width
      let v := leNat (l.lines.flatMap (·.2))
      let out := mapRow l.width lanes (k.row l.row) (fun i => l.enabled.getD i false) fun i => ⟨elem l.width v i, 0, 0⟩
      let s1 := (s.setCore core { k.rowWrite l.row out with rowLoads := k.rowLoads.erase n }).takeOther core l.row 512
      .next (((s1.completeWait l.strand n 0).pokeQueues core).pokeGang l.gang)

/-- A command of a core's queue that a request was for is still the one under way. -/
def State.engOf (s : State) (core q id : Nat) : Option Cmd := (s.head core q).filter fun x => x.id == id

/-- A reply that would cross an edge that has failed is discarded, and its gang is removed (R411). -/
def State.replyCut (s : State) (n : Nat) (r : Req) : State :=
  { (if r.owned then s.cutOff r.gang else s) with reqs := s.reqs.erase n }

/-- The reply to request `arg.id` reaches its issuer (R15, R226, R254-R265, R282, R315). -/
def execReplyFill (s : State) : Out :=
  let n := s.arg.id
  match s.reqs.find? n with
  | none => .next s
  | some r =>
    let s0 := { s with reqs := s.reqs.erase n }
    if s.cut r.home r.core then .next (s.replyCut n r)
    else
      match r.acc with
      | .row _ _ => .next (s.rowReply n r s.arg.idx s.arg.data s.arg.flag)
      | .engRead q id unit _ =>
        match s0.engOf r.core q id with
        | some x => .next (s0.cmdRead r.core q x unit { data := r.data, poison := s.arg.flag, fail := r.fail.map (·.cause) })
        | none => .next s0
      | .fabRead _ _ _ => .next (s0.inboundDone r s.arg.flag)
      | acc =>
        match r.strand with
        | none => .next s0
        | some g =>
          if (s.strand g).awaits n then
            match r.fail with
            | some f => .next (s0.failWait g n f)
            | none =>
              let s1 := s0.completeWait g n r.val
              let fl := BitVec.ofNat 6 s.arg.n
              match acc with
              | .amo _ _ _ => .next ((s1.modStrand g fun c => c.noteFp fl 0).noteGang r.gang fl false)
              | .sread d => .next (s1.modStrand g fun c => c.replyPair d r.data none)
              | _ => .next s1
          else
            match acc with
            | .load _ dst => .next ((s0.modStrand g fun c => c.reply dst r.val r.failure).offer g dst)
            | .sread d => .next (((s0.modStrand g fun c => c.replyPair d r.data r.failure).offer g (.s d)).offer g (.s (d + 1)))
            | .look _ => .next (s0.looked g n r)
            | _ => .next s0

/-- The acknowledgement of request `arg.id` reaches its issuer (R226, R254, R266, R283, R315). -/
def execAckArrival (s : State) : Out :=
  let n := s.arg.id
  match s.reqs.find? n with
  | none => .next s
  | some r =>
    let s0 := { s with reqs := s.reqs.erase n }
    if s.cut r.home r.core then .next (s.replyCut n r) else
    match r.acc with
    | .close g => .next (s0.modStrand g fun c => { c with closes := c.closes - 1 })
    | .engWrite q id _ _ =>
      match s0.engOf r.core q id with
      | some x => (match r.fail with
          | some f => .next (s0.cmdFail r.core q x f.cause)
          | none => .next (s0.cmdWritten r.core q x))
      | none => .next s0
    | .fabWrite _ _ _ _ => .next (s0.inboundDone r false)
    | _ =>
      match r.fail, r.strand with
      | some f, _ => .next (s0.failLater n r f)
      | none, some g => .next (s0.completeWait g n 0)
      | none, none => .next s0

/-! ### Fetches (R37, R454) -/

/-- The fetch of a strand has returned. -/
def State.fetched (s : State) (g : Nat) (f : Fetch) : State := s.modStrand g fun c => { c with fetch := f }

/-- A fetch of strand `arg.id` returns as request `arg.sub` (R37, R454): a head at the end of a line needs a second event for its
continuation. -/
def execFetchReturn (s : State) : Out :=
  let g := s.arg.id
  let n := s.arg.sub
  match s.reqs.find? n with
  | none => .next s
  | some r =>
    let s0 := { s with reqs := s.reqs.erase n }
    if s.cut r.home r.core then .next (s.replyCut n r) else
    match s0.strands.find? g, r.acc with
    | some c, .fetch k more =>
      if c.fetch ≠ .flight n || r.strand ≠ some g then .next s0
      else
        match r.fail with
        | some f => .next (s0.fetched g (.fault ⟨f.cause, r.va, 0⟩))
        | none =>
          let h : Half := BitVec.ofNat 16 (leNat (r.data.take 2))
          let h2 : Half := BitVec.ofNat 16 (leNat ((r.data.drop 2).take 2))
          if k = 2 && !more then .next (s0.fetched g (.ready (r.val.setWidth 16) (some h)))
          else if !isHead h then .next (s0.fetched g (.ready h none))
          else if k = 4 then .next (s0.fetched g (.ready h (some h2)))
          else if more then
            .next ((s0.fetched g (.half h)).fetchPart g (r.va + 2) !(c.wait.any fun w => w.kind.issued))
          else .next s0
    | _, _ => .next s0

end Sys2Proof.Machine
end

