-- ==== Sys2Proof/Machine/Sync.lean ====
section
/-! DEFINITION. Registers across strands: tagged words (R185-R189), fills (R190-R192, R105, R106), barriers (R193-R195),
leaving a slot (R197, R198), and the expiries of their waits. -/

namespace Sys2Proof.Machine

/-! ### Tagged words -/

/-- The core and the byte address that a tagged-word address names (R185), for a strand of `core`. -/
def tagTarget (v : Word) (core : Nat) : Except Stop (Nat × Nat) :=
  let n := v.toNat
  let a := n % 2 ^ 19
  let c := n / 2 ^ 24 % 2 ^ 10
  let remote := n / 2 ^ 34 % 2 == 1
  if n / 2 ^ 35 ≠ 0 || n / 2 ^ 19 % 2 ^ 5 ≠ 0 || (!remote && c ≠ 0) || 767 < c || spLast < a then
    .error (.fault ⟨.range, v, 0⟩)
  else if a % 8 ≠ 0 then .error (.fault ⟨.align, v, 0⟩)
  else .ok (if remote then c else core, a)

/-- Whether the tag of a word is full (R23). -/
def Core.tagFull (k : Core) (a : Nat) : Bool := k.tags.contains (a / 8)

/-- Performs a tagged access (R186): a `TLDS` when `full`, else a `TSTS` of `v`. The word that it takes is answered. -/
def Core.tagAccess (k : Core) (a : Nat) (full : Bool) (v : Word) : Core × Word :=
  if full then ({ k with tags := k.tags.del (a / 8) }, BitVec.ofNat 64 (k.sp.readN a 8))
  else ({ k.spWrite a (leBytes 8 v.toNat) with tags := k.tags.add (a / 8) }, 0)

/-- The answer to a remote tagged request returns to its strand (R187). -/
def State.tagReply (s : State) (m : Nat) (x : Msg) (v : Word) (f : Option FaultRec) : State :=
  { s with msgs := s.msgs.set m { x with val := v, fail := f, arrived := true, done := true } }.at_
    (s.now + latency x.target (s.strand x.strand).core) rankReply .taggedRequestArrival { id := m, flag := true }

/-- What a tagged access by `who` at a core comes to once its word lets it through: a `TLDS` of a poisoned unit faults (R316), any
other is performed (R187). (DEDUCED, log 40) -/
def State.tagServe (s : State) (core : Nat) (t : TagWait) : State :=
  let k := s.core core
  let clean := !t.full || (match needClean k t.addr 8 with | .ok _ => true | .error _ => false)
  let (k1, v) := k.tagAccess t.addr t.full t.val
  match t.who with
  | .strand g => if clean then (s.setCore core k1).modStrand g fun c => { c with grant := some v } else s
  | .req m =>
    match s.msgs.find? m with
    | some x =>
      if clean then
        let s1 := s.setCore core k1
        (if t.full then s1 else s1.takeOther core t.addr 8).tagReply m x v none
      else s.tagReply m x 0 (some ⟨.poison, BitVec.ofNat 64 (t.addr / 64 * 64), 0⟩)
    | none => s
  | _ => s

/-- One handoff for each change of a word's tag (R187): the first entry of its queue that the tag satisfies is performed, which
changes the tag again. -/
def State.handTags (s : State) (core a : Nat) : Nat → State
  | 0 => s
  | fuel + 1 =>
    let k := s.core core
    match k.tagWaits.find? fun t => t.addr == a && t.full == k.tagFull a with
    | none => s
    | some t => ((s.setCore core { k with tagWaits := k.tagWaits.erase t }).tagServe core t).handTags core a fuel

/-- Serves the queue of a word after its tag has changed (R187). -/
def State.tagChanged (s : State) (core a : Nat) : State := s.handTags core a (s.core core).tagWaits.length

/-- A message to another core sets out, and its strand waits for the answer (R187, R190); a destination is empty meanwhile, with that answer
pending (R15). -/
def State.ask (s : State) (m : Msg) (ev : Instr) (tgt dist : Nat) (rank : Nat) (ret : Retire) : State :=
  let n := s.nextId
  let s0 := s.addMsg m
  let s1 := if s.cut s.cur.core tgt then s0.cutOff s.cur.ident.gang else s0.at_ (s.now + dist) rank ev { id := n }
  let ds : List FillReg := match ret.dst with | .s d => [.s d] | .iv d => [.iv d] | .none => []
  s1.setCur { s1.cur.empties ds with
    wait := some { kind := .reply n, since := s.now, retire := ret, len := ret.len, old := ds.map fun d => (d, s1.cur.fillState d) } }

/-- `TLDS` (`full`) and `TSTS` (R186-R189). -/
def tagged (full : Bool) (o : OpLW) : State → Out :=
  run 4 fun s => do
    let c := s.cur
    let a ← readS c o.a
    let v ← if full then (do needFree c (.s o.d); .ok 0) else readS c o.d
    needAcq c
    let (core, addr) ← tagTarget a c.core
    let finish (s : State) (w : Word) : State := s.setCur ((if full then s.cur.writeS o.d w else s.cur).advance 4)
    let go : Except Stop State := do
      match c.grant with
      | some w => .ok (finish s w)
      | none =>
        if core ≠ c.core then
          let m : Msg := { kind := if full then 0 else 1, strand := s.curId, target := core, addr := addr, reg := .s o.d, val := v
                           limit := (c.lim10 o.lim).map (s.now + ·) }
          .ok (s.ask m .taggedRequestArrival core (latency c.core core + 1) c.core { len := 4, dst := if full then .s o.d else .none })
        else
          let k := s.core core
          needRange k addr 8 (!full)
          if k.tagFull addr == full then
            if full then needClean k addr 8
            let (k1, w) := k.tagAccess addr full v
            .ok (finish (s.setCore core k1) w |>.tagChanged core addr)
          else
            let t : TagWait := { addr := addr, who := .strand s.curId, full := full, val := v }
            let s1 := if k.tagWaits.any fun x => x.who == .strand s.curId then s
              else s.setCore core { k with tagWaits := k.tagWaits ++ [t] }
            .ok (s1.waitFor s.curId (.tag a.toNat full) (c.lim10 o.lim) 4)
    if full then go else release s .writes go

/-- `TLDS` (R186). -/
def execTlds (o : OpLW) (s : State) : Out := tagged true o s
/-- `TSTS` (R186). -/
def execTsts (o : OpLW) (s : State) : Out := tagged false o s

/-- Makes the tag of a word empty (R186). -/
def State.tagReset (s : State) (core a : Nat) : State :=
  (s.modCore core fun k => { k with tags := k.tags.del (a / 8) }).tagChanged core a

/-- `TSTR` (R186, R188). -/
def execTstr (a : SReg) (s : State) : Out :=
  run 4 (fun s => do
    let c := s.cur
    let v ← readS c a
    needAcq c
    let (core, addr) ← tagTarget v c.core
    release s .writes do
      if core ≠ c.core then
        let m : Msg := { kind := 2, strand := s.curId, target := core, addr := addr, reg := .s 0, val := 0, limit := none }
        .ok (s.ask m .taggedRequestArrival core (latency c.core core + 1) c.core { len := 4 })
      else
        needRange (s.core core) addr 8 true
        .ok ((s.setCur (c.advance 4)).tagReset core addr)) s

/-- A remote tagged request `arg.id` reaches its core (R187, R189), or its answer reaches its strand (`arg.flag`).
(DEDUCED, log 103) -/
def execTaggedRequestArrival (s : State) : Out :=
  match s.msgs.find? s.arg.id with
  | none => .next s
  | some m =>
    let n := s.arg.id
    if s.arg.flag then
      let s1 := { s with msgs := s.msgs.erase n }
      match m.fail with
      | some f => .next (s1.failWait m.strand n f)
      | none => .next (s1.completeWait m.strand n m.val)
    else if m.kind = 2 then .next ((s.tagReset m.target m.addr).tagReply n m 0 none)
    else
      let full := m.kind = 0
      let t : TagWait := { addr := m.addr, who := .req n, full := full, val := m.val }
      if (s.core m.target).tagFull m.addr = decide full then
        if !full && (s.core m.target).bankTaken m.addr 8 then
          .next (s.at_ (s.now + 1) (s.strand m.strand).core .taggedRequestArrival s.arg)
        else .next ((s.tagServe m.target t).tagChanged m.target m.addr)
      else
        let s1 := { s with msgs := s.msgs.set n { m with arrived := true } }
        let s2 := s1.modCore m.target fun k => { k with tagWaits := k.tagWaits ++ [t] }
        .next (match m.limit with
          | some l => s2.at_ (max (l + 1) s.now) rankExpiry .taggedWaitExpiry { id := n, flag := true }
          | none => s2)

/-- The fault of an expired tagged wait (R189): the tagged-word address, and whether it is a `TSTS`. -/
def tagFault (addr : Word) (full : Bool) : FaultRec := ⟨.tagLimit, addr, if full then 0 else 1⟩

/-- The tagged-word address of a word of another core (R185). -/
def tagWord (core a : Nat) : Word := BitVec.ofNat 64 (2 ^ 34 + core * 2 ^ 24 + a)

/-- A tagged wait expires (R189): of strand `arg.id` on a word of its own core, since cycle `arg.sub`, or of the remote request
`arg.id` (`arg.flag`), which is withdrawn at the word. -/
def execTaggedWaitExpiry (s : State) : Out :=
  if s.arg.flag then
    match s.msgs.find? s.arg.id with
    | none => .next s
    | some m =>
      if m.done then .next s
      else
        let s1 := s.modCore m.target fun k => { k with tagWaits := k.tagWaits.filter fun t => t.who != .req s.arg.id }
        .next (s1.tagReply s.arg.id m 0 (some (tagFault (tagWord m.target m.addr) (m.kind == 0))))
  else
    .next (s.expire s.arg.id s.arg.sub
      (fun k => match k with | .tag a full => some (tagFault (BitVec.ofNat 64 a) full) | _ => none)
      (fun c s => s.modCore c.core fun k => { k with tagWaits := k.tagWaits.filter fun t => t.who != .strand s.arg.id }))

/-! ### Fills -/

/-- `RFILL` (R190). -/
def execRfill (d : FillReg) (a : SReg) (la : Bool) (b : FillReg) (lb : Bool) (s : State) : Out :=
  run 4 (fun s => do
    let c := s.cur
    let t ← readS c a
    needFull c b
    needAcq c
    let v := match b with | .s n => c.sVal n | .iv n => c.ivVal n
    release s .writes do
      let g := t.toNat % 2 ^ 22
      let m : Msg := { kind := 3, strand := s.curId, target := g, addr := 0, reg := d, val := v, limit := c.wlim.map (s.now + ·) }
      let ret : Retire :=
        { len := 4, marksS := marked ([(a, la)] ++ (match b with | .s n => [(n, lb)] | .iv _ => []))
          marksIv := marked (match b with | .iv n => [(n, lb)] | .s _ => []) }
      let s1 := s.ask m .rfillArrival (s.fillCore g) (latency c.core (s.fillCore g)) rankReply ret
      .ok (match m.limit with
        | some l => s1.at_ (l + 1) rankExpiry .heldFillExpiry { id := s.nextId }
        | none => s1)) s

/-- A fill (R191): `arg.n` 0, the fill `arg.id` reaches its target; 1, a held fill is applied to the register `arg.idx` of strand
`arg.id`; 2, the issuer of fill `arg.id` learns that it has been accepted, and its `RFILL` retires. -/
def execRfillArrival (s : State) : Out :=
  match s.arg.n with
  | 0 =>
    match s.msgs.find? s.arg.id with
    | none => .next s
    | some m =>
      match s.strands.find? m.target with
      | none => .next (s.accept s.arg.id m (s.fillCore m.target))
      | some c =>
        if m.reg = .s 0 then .next (s.accept s.arg.id m c.core)
        else .next ({ s with msgs := s.msgs.set s.arg.id { m with arrived := true, since := s.now } }.offer m.target m.reg)
  | 1 =>
    let g := s.arg.id
    let r : FillReg := if s.arg.idx < 256 then .s (BitVec.ofNat 5 s.arg.idx) else .iv (BitVec.ofNat 4 s.arg.idx)
    if (s.strand g).takes r then
      match s.firstFill g r with
      | some (n, m) => .next ((s.modStrand g fun c => c.writeFill r m.val).accept n m (s.strand g).core)
      | none => .next s
    else .next s
  | _ =>
    match s.msgs.find? s.arg.id with
    | none => .next s
    | some m => .next ({ s with msgs := s.msgs.erase s.arg.id }.completeWait m.strand s.arg.id 0)

/-- The limit of the held fill `arg.id` ends (R191): the fill is withdrawn, and its issuer takes the fault. A fill that its
register takes in this cycle counts as accepted (R184). -/
def execHeldFillExpiry (s : State) : Out :=
  match s.msgs.find? s.arg.id with
  | none => .next s
  | some m =>
    let taken := (s.strand m.target).takes m.reg && (s.firstFill m.target m.reg).any fun f => f.1 == s.arg.id
    if m.done || taken then .next s
    else
      .next ({ s with msgs := s.msgs.erase s.arg.id }.failWait m.strand s.arg.id
        ⟨.regLimit, 0, BitVec.ofNat 64 (regCode m.reg % 512 + 2 ^ 9)⟩)

/-- `WAITF` (R192): waits until a register is full without reading it. -/
def execWaitf (r : FillReg) (lim : BitVec 10) (s : State) : Out :=
  runStrand 4 (fun c =>
    match c.fillState r with
    | .full => .ok (c.advance 4)
    | .dead => .error (.fault ⟨.dead, 0, fillInfo r⟩)
    | .failed f => .error (.failReg r f)
    | _ => .error (.wait (.fill r) (c.lim10 lim))) s

/-- The limit of a wait on a register ends (R17, R192), for strand `arg.id` since cycle `arg.sub`. -/
def execRegisterWaitExpiry (s : State) : Out :=
  .next (s.expire s.arg.id s.arg.sub
    (fun k => match k with | .fill r | .pend r => some ⟨.regLimit, 0, fillInfo r⟩ | _ => none) (fun _ s => s))

/-- `TAKE` (R105). -/
def execTake (o : OpA) (s : State) : Out :=
  run 2 (fun s => do
    let c := s.cur
    let v ← readS c o.a
    if o.d ≠ o.a then needFree c (.s o.d)
    .ok ((s.setCur (((c.setSFill o.a .empty).writeS o.d v).advance 2)).offer s.curId (.s o.a))) s

/-- `EMPTY` (R106). -/
def execEmpty (n : SReg) (s : State) : Out :=
  run 2 (fun s => do
    let c := s.cur
    needFree c (.s n)
    .ok ((s.setCur ((c.setSFill n .empty).advance 2)).offer s.curId (.s n))) s

/-! ### Barriers -/

/-- Arrival at the gang's barrier (R193-R195): a release, then the strand waits for the gang with its contribution entered. `form`
is what the wait's `info` holds. -/
def barrier (len : Nat) (form : Nat) (contrib : Strand → Tri) : State → Out :=
  run len fun s => release s .writes do
    let c := s.cur
    let s1 := s.modGang c.ident.gang fun g =>
      { g with arrived := g.arrived.add s.curId, barOr := kOr g.barOr (contrib c), barNp := g.barNp || istNp c.ctl.ist }
    .ok ((s1.park s.curId { kind := .barrier, since := s.now, info := BitVec.ofNat 64 form, len := len }).checkBarrier c.ident.gang)

/-- `BAR` (R193). -/
def execBar (s : State) : Out := barrier 2 0 (fun _ => .f) s
/-- `BAR.OR` (R193). -/
def execBarOr (qd qa : QReg) (s : State) : Out := barrier 4 (qd.toNat + 8) (fun c => c.qVal qa) s
/-- `BAR.NP` (R193). -/
def execBarNp (qd : QReg) (s : State) : Out := barrier 4 (qd.toNat + 16) (fun _ => .f) s

/-- What a barrier's release does to a strand that arrived (R193, R194): its form's result, and the instruction retires. -/
def Strand.released (c : Strand) (w : Wait) (or_ : Tri) (np : Bool) : Strand :=
  let q : QReg := BitVec.ofNat 3 w.info.toNat
  let c1 := if w.info.toNat / 8 = 1 then c.writeQ q or_ else if w.info.toNat / 8 = 2 then c.writeQ q (triOf np) else c
  { c1.advance w.len with barriers := c.barriers + 1, fetch := c.fetch }

/-- The homes of a STEP gang's cores begin a work phase (R248). -/
def State.workPhase (s : State) (cores : List Nat) : State :=
  cores.foldl (init := s) fun s h =>
    let s1 := s.modHome h fun x => { x with phase := true }
    if s.cal.any fun d => d.ev == .refreshPullForward && d.arg.id == h && d.arg.flag then s1
    else s1.at_ s.now rankWork .refreshPullForward { id := h, flag := true }

/-- The open barrier of gang `arg.id` completes (R179, R194): its strands are released in order of id, and the next barrier is
open. (DEDUCED, log 82) -/
def execBarrierRelease (s : State) : Out :=
  match s.gangs.find? s.arg.id with
  | none => .next s
  | some g =>
    let s1 := s.modGang s.arg.id fun g =>
      { g with arrived := [], barOr := .f, barNp := false, releasing := false, bark := g.bark + 1 }
    let s2 := g.arrived.foldl (init := s1) fun s n =>
      match (s.strand n).wait with
      | some w => if w.kind = .barrier then (s.setStrand n ((s.strand n).released w g.barOr g.barNp)).resume n else s
      | none => s
    .next (if g.step then s2.workPhase g.cores else s2)

/-! ### Leaving a slot -/

/-- `EXIT` (R198): a release, then the strand ends. -/
def execExit (s : State) : Out :=
  run 2 (fun s => release s .writes (.ok ((s.endStrand s.curId (s.now + 1)).orphanFails s.curId s.cur.ident.gang s.cur.core))) s

/-- The ready list with a strand that yields in cycle `now` from a slot at its tail, but ahead of one that has yielded in that cycle from a
higher slot (R167). -/
def State.readyAfter (s : State) (g slot : Nat) (l : List Nat) : List Nat :=
  match l.getLast? with
  | some h => if (s.strand h).left.1 = s.now && decide (slot < (s.strand h).left.2) then l.dropLast ++ [g, h] else l ++ [g]
  | none => [g]

/-- A strand goes from its slot to the tail of its core's ready list with all its fill states (R168, R197). -/
def State.yieldSlot (s : State) (g : Nat) : State :=
  let c := s.strand g
  let n := (c.slot?).getD 0
  let s1 := (s.vacate g (s.now + 1)).modCore c.core fun k => { k with ready := s.readyAfter g n k.ready }
  let s2 := s1.askLoad c.core (s.now + 1)
  (s2.modStrand g fun c => { c with place := .ready, fetch := .idle, owe := 0, turns := 0, left := (s.now, n) }).stopLeft g

/-- `YIELD` (R197). -/
def execYield (s : State) : Out :=
  run 2 (fun s =>
    let c := s.cur
    let k := s.core c.core
    let s1 := s.setCur (c.advance 2)
    .ok (if k.rotNow && !k.ready.isEmpty && !c.ident.step then s1.yieldSlot s.curId else s1)) s

/-- The strand of slot `arg.idx` of core `arg.id` has used up its turns and yields (R168). -/
def execQuantumYield (s : State) : Out :=
  match ((s.core s.arg.id).slots[s.arg.idx]?).getD none with
  | some g => .next (s.yieldSlot g)
  | none => .next s

end Sys2Proof.Machine
end

