-- ==== Sys2Proof/Machine/Preempt.lean ====
section
/-! DEFINITION. Pre-emption (R392-R398): `CKPT` and its live-range table (R332, R333), the save of a gang (R394, R395), the end of a
save attempt or of a request (R396, R397), and restore (R398). The start of strands after a placement is here as well, since a
restore is one. -/

namespace Sys2Proof.Machine

/-! ### Live ranges (R332) -/

/-- A range that an entry names: whether of operand memory, its start, and its length; none for an invalid entry (R332). -/
def entryRange (e : Nat) : Option (Bool × Nat × Nat) :=
  let om := e.testBit 63
  let size := if om then 0x40000 else 0x60000
  let start := e % 2 ^ 19
  let len := e / 2 ^ 32 % 2 ^ 19
  if e / 2 ^ 51 % 2 ^ 12 ≠ 0 || e / 2 ^ 19 % 2 ^ 13 ≠ 0 || start % 64 ≠ 0 || len % 64 ≠ 0 || size ≤ start || size < start + len then none
  else some (om, start, len)

/-- A word of a table at an address, from the lines read from the first of them on. -/
def tableWord (va : Word) (bs : List Byte) (i : Nat) : Nat := leNat ((bs.drop (va.toNat % 64 + 8 * i)).take 8)

/-- Bytes that must have been read, as far as the ones read show: the table's first word, and then its entries. -/
def tableNeed (va : Word) (bs : List Byte) : Nat :=
  let o := va.toNat % 64 + 8
  if bs.length < o then o else o + 8 * (tableWord va bs 0 % 256)

/-- The ranges of a table (R332, R333): an invalid entry is named itself, and reserved bits of the first word that are not zero by the
table's address. (DEDUCED, log 102) -/
def tableRanges (va : Word) (bs : List Byte) : Except FaultRec (List (Bool × Nat × Nat)) :=
  if 256 ≤ tableWord va bs 0 then .error ⟨.range, va, 0⟩
  else (List.range (tableWord va bs 0)).mapM fun i =>
    match entryRange (tableWord va bs (i + 1)) with
    | some r => .ok r
    | none => .error ⟨.range, va + BitVec.ofNat 64 (8 * (i + 1)), 0⟩

/-- A `CKPT` goes on with the ranges of its table, which it has read line by line with permission X; a fault of the fetch names the table
(R333). -/
def liveRanges (s : State) (off : BitVec 20) (go : List (Bool × Nat × Nat) → Except Stop State) : Except Stop State :=
  if off = 0 then go []
  else
    let c := s.cur
    let va := target c.pc off
    let seen := c.bind.seen
    if seen.length < tableNeed va seen then look s (BitVec.ofNat 64 (va.toNat / 64 * 64 + seen.length)) 64 .x .fetch va
    else match tableRanges va seen with
      | .ok rs => go rs
      | .error f => .error (.fault f)

/-! ### `CKPT` (R333) -/

/-- Whether a governor move takes the strand's instance (R181). -/
def State.moving (s : State) (gang : Nat) : Bool := (s.gangs.find? gang).any fun g => g.moving.isSome

/-- `CKPT` (R333): the strand stops for a pre-emption with the ranges of its table (R393), exits for a governor move, or goes on. -/
def execCkpt (off : BitVec 20) (s : State) : Out :=
  run 4 (fun s => do
    let c := s.cur
    let gang := c.ident.gang
    let c1 := c.advance 4
    if s.stopping gang then
      if c.up then .ok (s.setCur c1)
      else
        let stop (rs : List (Bool × Nat × Nat)) : State :=
          (s.setCur { c1 with place := .stopped c.slot? true, ranges := rs }).atOnce s.now rankLast .saveStart { id := gang }
        liveRanges s off fun rs => release s .writes (.ok (stop rs))
    else if s.moving gang then release s .writes (.ok ((s.endStrand s.curId (s.now + 1)).orphanFails s.curId gang c.core))
    else .ok (s.setCur c1)) s

/-! ### Stopping (R393, R394) -/

/-- Strands of a gang, in ascending order. -/
def State.strandsOf (s : State) (gid : Nat) : List (Nat × Strand) := s.strands.filter fun (_, c) => c.ident.gang == gid

/-- The gang position of the core where a strand was launched (R26). -/
def Gang.posOf (g : Gang) (c : Strand) : Nat := c.ident.gy * g.gw + c.ident.gx

/-- Strands of a gang at a position. (DEDUCED, log 61) -/
def State.strandsAt (s : State) (gid : Nat) (g : Gang) (pos : Nat) : List (Nat × Strand) :=
  (s.strandsOf gid).filter fun (_, c) => g.posOf c == pos

/-- The position that a command of a gang counts at: its strand's, or its core's once that has exited. (DEDUCED, log 61) -/
def State.cmdPos (s : State) (g : Gang) (core : Nat) (x : Cmd) : Nat :=
  match (s.strands.find? x.strand).filter fun _ => x.last.isNone with
  | some c => g.posOf c
  | none => (g.cores.findIdx? (· == core)).getD 0

/-- Unfinished commands of a gang at a position, queue by queue. -/
def State.cmdsAt (s : State) (gid : Nat) (g : Gang) (pos : Nat) : List (Nat × Cmd) :=
  (List.range 4).flatMap fun q => s.cores.flatMap fun (core, k) =>
    ((k.queue q).filter fun x => x.gang == gid && s.cmdPos g core x == pos).map fun x => (q, x)

/-- The home that a migrating context is on its way to (R240). -/
def State.onWay (s : State) (g : Nat) : Option Nat := (s.cal.find? fun d => d.ev == .migrationArrival && d.arg.id == g).map (·.arg.idx)

/-- Whether a strand is stopped. -/
def Strand.stopped (c : Strand) : Bool := match c.place with | .stopped _ _ => true | _ => false

/-- Whether every strand and every engine command of a position has stopped (R394). -/
def State.coreStopped (s : State) (gid : Nat) (g : Gang) (pos : Nat) : Bool :=
  (s.strandsAt gid g pos).all (fun (n, c) => c.stopped && (s.onWay n).isNone)
    && (s.cmdsAt gid g pos).all fun (_, x) => !x.started && x.open_ == 0

/-- Whether step 1 of R394 is over at a position: no reply is pending for its strands, and every write of the gang has been performed. -/
def State.coreQuiet (s : State) (gid : Nat) (g : Gang) (pos : Nat) : Bool :=
  let mine := s.strandsAt gid g pos
  !g.releasing
    && mine.all (fun (_, c) => !c.wait.any fun w => match w.kind with | .reply _ => true | _ => false)
    && s.reqs.all (fun (_, r) => r.gang != gid || !r.owned
      || !(r.strand.any (fun n => mine.any fun x => x.1 == n) || (r.acc.isWrite && r.stage != .done)))
    && s.cores.all fun (_, k) =>
      k.rowLoads.all (fun (_, l) => l.gang != gid) && (match k.array with | some a => a.gang != gid | none => true)

/-! ### The end of a request (R396, R397) -/

/-- A stopped strand goes on: in the slot it kept, on its way, in its core's ready list, or parked at its barrier. -/
def State.goOn (s : State) (g : Nat) : State :=
  let c := s.strand g
  match c.place with
  | .stopped (some n) _ => (s.setStrand g { c with place := .slot n, ranges := [] }).startFetch g
  | .stopped none _ =>
    match s.onWay g with
    | some h => s.setStrand g { c with place := .migrating h }
    | none =>
      if c.wait.any fun w => w.kind == .barrier then s.setStrand g { c with place := .parked }
      else
        ((s.setStrand g { c with place := .ready }).modCore c.core fun k => { k with ready := k.ready ++ [g] }).askLoad c.core (s.now + 1)
  | _ => s

/-- The strands of a gang at positions that a condition names go on, and so do commands (R396, R397). -/
def State.goOnAt (s : State) (gid : Nat) (g : Gang) (p : Nat → Bool) : State :=
  let s1 := ((s.strandsOf gid).filter fun (_, c) => p (g.posOf c)).foldl (fun s (n, _) => s.goOn n) s
  (s.cores.map (·.1)).foldl (fun s c => s.pokeQueues c) s1

/-- A save attempt is over without a save (R396): the gang is no victim, nothing of its area counts, and all of it goes on. -/
def State.endAttempt (s : State) (gid : Nat) (g : Gang) : State :=
  let s1 := (s.dropVictim gid g.die).modGang gid fun x => { x with saving := 0, begun := [] }
  { s1 with saved := s1.saved.erase (g.die * 16384 + g.node) }.goOnAt gid g fun _ => true

/-- A victim is not chosen again for 2 × DEADLINE cycles (R396, R397). -/
def State.spare (s : State) (gid : Nat) : State := s.modGang gid fun x => { x with noVictimUntil := s.now + 2 * x.rec_.deadline }

/-- Positions that lie before every one whose core has not begun its save: their blocks can be placed. -/
def Gang.firstBegun (g : Gang) : List Nat := (List.range g.cores.length).takeWhile g.begun.contains

/-- The deadline of a victim, of a request made in cycle `arg.sub`, has come (R397): the request lapses if some core has not begun its save.
Those that have begun end theirs, as far as their blocks can be placed, and the others go on. (DEDUCED, log 61) -/
def execPreemptLapse (s : State) : Out :=
  let gid := s.arg.id
  match s.gangs.find? gid with
  | none => .next s
  | some g =>
    let keep := g.firstBegun
    if g.preempt ≠ some s.arg.sub || keep.length = g.cores.length then .next s
    else
      let s1 := s.spare gid
      if keep.isEmpty then .next (s1.endAttempt gid g)
      else
        let s2 := ((s1.dropVictim gid g.die).modGang gid fun x => { x with saving := 3, begun := keep }).goOnAt gid g fun p => !keep.contains p
        .next (s2.atOnce (s.now + 1) rankLast .saveStart { id := gid })

/-! ### Saving (R394, R395) -/

/-- Runs of consecutive numbers in a rising list: each with its first number and its length. -/
def runsOf : List Nat → List (Nat × Nat)
  | [] => []
  | n :: t =>
    match runsOf t with
    | (m, k) :: r => if n + 1 = m then (n, k + 1) :: r else (n, 1) :: (m, k) :: r
    | [] => [(n, 1)]

/-- The units that the tables of strands stopped at a `CKPT` name in one of the two memories, each once, with its data and poison from
the core of the strand (R394). -/
def rangeUnits (s : State) (om : Bool) (cs : List (Nat × Strand)) : Tbl (List Byte × Bool) :=
  cs.foldl (init := []) fun t (_, c) =>
    (c.ranges.filter fun r => r.1 == om).foldl (init := t) fun t (_, start, len) =>
      (List.range (len / 64)).foldl (init := t) fun t i =>
        let u := start / 64 + i
        if (t.find? u).isSome then t
        else t.set u (if om then (s.core c.core).omUnit (u * 64) else (s.core c.core).spUnit (u * 64))

/-- Pads bytes to a multiple of 64. -/
def pad64 (l : List Byte) : List Byte := l ++ List.replicate ((64 - l.length % 64) % 64) 0

/-- The entry of a range, followed by its data (R395). -/
def rangeBytes (om : Bool) (us : Tbl (List Byte × Bool)) (r : Nat × Nat) : List Byte :=
  pad64 (leBytes 8 ((if om then 2 ^ 63 else 0) + r.2 * 64 * 2 ^ 32 + r.1 * 64)
    ++ (List.range r.2).flatMap fun i => ((us.find? (r.1 + i)).map (·.1)).getD [])

/-- Words that a save writes without a stated meaning. (DESIGN CHOICE, log 62) -/
def opaqueWords (gid off n : Nat) : List Byte := (List.range n).flatMap fun i => leBytes 8 (Config.saved gid (off + 8 * i)).toNat

/-- Numbers below 2 ^ w behind each other, the first in the lowest bits. -/
def packBits (w : Nat) (l : List Nat) : Nat := l.foldr (fun x n => x % 2 ^ w + 2 ^ w * n) 0

/-- The code of a fill state in a saved context (R166). -/
def Fill.code : Fill → Nat
  | .full => (Config.fillCode 0).toNat
  | .empty | .failed _ => (Config.fillCode 1).toNat
  | .pending => (Config.fillCode 2).toNat
  | .dead => (Config.fillCode 3).toNat

/-- The header unit of a context (R166): of the first word, the unit count and `id.sidx`; the other items in the order of the rule's table. A
home of the span set that is not there is 0x3FF. (DESIGN CHOICE, log 62) -/
def contextHead (s : State) (gid off g : Nat) (c : Strand) : List Byte :=
  let w := (Config.saved gid off).toNat
  let held := ((s.core c.core).omHold.filter fun h => h.2 == g).map (·.1)
  leBytes 8 (c.units % 16 + w / 2 ^ 4 % 2 ^ 12 * 2 ^ 4 + c.ident.sidx % 2 ^ 12 * 2 ^ 16 + w / 2 ^ 28 * 2 ^ 28)
    ++ leBytes 8 c.pc.toNat
    ++ leBytes 12 (packBits 2 ((c.sFill.toList ++ c.ivFill.toList).map Fill.code))
    ++ leBytes 2 (packBits 2 ((c.q.toList.drop 1).map fun q => (triWord q).toNat))
    ++ leBytes 3 (c.mhome % 2 ^ 10 + c.mcount % 2 ^ 8 * 2 ^ 16)
    ++ leBytes 8 (held.foldl (fun n x => n + 2 ^ x) 0)
    ++ leBytes 20 (packBits 10 (c.span ++ List.replicate (16 - c.span.length) 0x3FF))

/-- The body of a context (R166), in the order in which the rule lists its parts. (DESIGN CHOICE, log 62) -/
def contextBody (s : State) (c : Strand) : List Byte :=
  let full (l : List (Fill × Word)) : List Byte := (l.filter fun x => x.1 != .dead).flatMap fun x => leBytes 8 x.2.toNat
  full ((c.sFill.toList.zip c.s.toList).drop 1) ++ full (c.ivFill.toList.zip c.iv.toList)
    ++ (c.p.toList.filter (· != 0)).flatMap (fun v => leBytes 4 v.toNat)
    ++ ((c.k.toList.drop 1).filter (· != 0)).flatMap (fun v => leBytes 16 v.toNat)
    ++ (c.x.toList.filter (· != 0)).flatMap (fun v => leBytes 8 v.toNat)
    ++ (List.range 14).flatMap fun i =>
      let v := ctlReg s c i
      if v = ctlReg s { c with ctl := {} } i then [] else leBytes 8 ((v.map (·.toNat)).getD 0)

/-- A context in a save area at an offset (R166, R395). -/
def contextBytes (s : State) (gid off : Nat) (x : Nat × Strand) : List Byte :=
  pad64 (contextHead s gid off x.1 x.2) ++ pad64 (contextBody s x.2)

/-- Puts parts behind each other from an offset on, each made at its own offset. -/
def layParts {α : Type} (mk : Nat → α → List Byte) : Nat → List α → List Byte
  | _, [] => []
  | off, a :: t => let b := mk off a; b ++ layParts mk (off + b.length) t

/-- Offsets of the data of ranges that lie behind each other from an offset on. -/
def dataOffsets : Nat → List (Nat × Nat) → List (Nat × Nat × Nat)
  | _, [] => []
  | off, (u, n) :: t => (u * 64, n * 64, off + 8) :: dataOffsets (off + (8 + n * 64 + 63) / 64 * 64) t

/-- The block of the core at a gang position, at an offset of the save area, and what the dispatcher keeps of it (R394, R395). -/
def saveBlock (s : State) (gid : Nat) (g : Gang) (pos off : Nat) : List Byte × SavedCore :=
  let core := g.cores.getD pos 0
  let cs := s.strandsAt gid g pos
  let ids := cs.map (·.1)
  let at_ := cs.filter fun (_, c) => match c.place with | .stopped _ b => b | _ => false
  let sp := rangeUnits s false at_
  let om := rangeUnits s true at_
  let spR := runsOf (sp.map (·.1))
  let omR := runsOf (om.map (·.1))
  let cmds := s.cmdsAt gid g pos
  let wins := (s.core core).windows.filter fun w => w.2.gang == gid
  let ctx := layParts (contextBytes s gid) (off + 64) cs
  let o1 := off + 64 + ctx.length
  let rng := spR.flatMap (rangeBytes false sp) ++ omR.flatMap (rangeBytes true om)
  let spO := dataOffsets o1 spR
  let omO := dataOffsets (o1 + (spR.flatMap (rangeBytes false sp)).length) omR
  let o2 := o1 + rng.length
  let cmdB := layParts (fun o (_ : Nat × Cmd) => opaqueWords gid o 8) o2 cmds
  let winB := layParts (fun o (w : Nat × GWindow) => opaqueWords gid o 8 ++ pad64 (w.2.idx.flatMap (leBytes 4))) (o2 + cmdB.length) wins
  let size := 64 + ctx.length + rng.length + cmdB.length + winB.length
  let head := leBytes 8 size
    ++ leBytes 8 (cs.length % 2 ^ 13 + (spR.length + omR.length) % 2 ^ 16 * 2 ^ 16 + cmds.length % 2 ^ 8 * 2 ^ 32 + wins.length % 2 ^ 4 * 2 ^ 40)
    ++ List.replicate 48 0
  let poisoned (t : Tbl (List Byte × Bool)) : NatSet := (t.filter fun u => u.2.2).map (·.1)
  (head ++ ctx ++ rng ++ cmdB ++ winB,
    { ranges := (spO.map fun (a, n, o) => (false, a, n, o)) ++ omO.map fun (a, n, o) => (true, a, n, o)
      spPoison := poisoned sp, omPoison := poisoned om, cmds := cmds, windows := wins, strands := ids
      slots := s.cores.flatMap fun (_, k) => k.omHold.filter fun h => ids.contains h.2
      releases := s.cores.flatMap fun (_, k) => k.omRelease.filter fun r => cmds.any fun x => r.2.contains x.2.id })

/-- The header of a save area (R395). -/
def saveHeader (g : Gang) (len : Nat) : List Byte :=
  leBytes 8 len ++ leBytes 8 ((if g.step then 2 ^ 32 else 0) + g.rec_.nstr * 2 ^ 16 + g.gh * 2 ^ 8 + g.gw)
    ++ leBytes 8 (g.bark % 2 ^ 32 + g.arrived.length % 2 ^ 16 * 2 ^ 32 + (triWord g.barOr).toNat * 2 ^ 48 + (if g.barNp then 2 ^ 50 else 0))
    ++ leBytes 8 (g.fpf.toNat + (if g.np then 2 ^ 8 else 0)) ++ List.replicate 32 0

/-- Lines of bytes that begin on a line. -/
def linesOf : Nat → List Byte → List (Nat × List Byte)
  | _, [] => []
  | off, b :: t =>
    match linesOf (off + 1) t with
    | (o, l) :: r => if off % 64 = 63 then (off, [b]) :: (o, l) :: r else (off, b :: l) :: r
    | [] => [(off, [b])]

/-- SAVEADDR (R170). -/
def LaunchRec.saveAddr (r : LaunchRec) : Nat := r.at_ 0x70

/-- Where a gang's save is kept. -/
def Gang.savedKey (g : Gang) : Nat := g.die * 16384 + g.node

/-- Bytes of a save area set out from a mesh stop, in the name of a core and through its TLB (R394). (DEDUCED, log 61) -/
def State.sendArea (s : State) (gid : Nat) (g : Gang) (stop core off : Nat) (bs : List Byte) : State :=
  (linesOf off bs).foldl (init := s) fun s (o, d) =>
    s.unitWriteVa stop core (BitVec.ofNat 64 (g.rec_.saveAddr + o)) (.bytes d false) (.save gid)

/-- Whether lines of a gang's save area have still to be performed. -/
def State.saveOpen (s : State) (gid : Nat) : Bool :=
  s.reqs.any fun (_, r) => match r.acc with | .unitWrite _ (.save g) => g == gid | _ => false

/-- Cores that have begun write their blocks, in order of their positions, each once its step 1 is over and the spans of its strands are closed
(R283, R394): the place of a block rests on the sizes of those before it. (DEDUCED, log 61) -/
def State.saveCores (s : State) (gid : Nat) (g : Gang) (v : Saved) : Nat → State
  | 0 => s
  | fuel + 1 =>
    let pos := v.cores.length
    let mine := s.strandsAt gid g pos
    let spans := mine.filter fun (_, c) => !c.span.isEmpty
    if g.cores.length ≤ pos || !g.begun.contains pos || !s.coreQuiet gid g pos then s
    else if !spans.isEmpty then spans.foldl (fun s (n, _) => (s.sendCloses n).modStrand n fun c => { c with span := [] }) s
    else if mine.any fun (_, c) => c.closes != 0 then s
    else
      let core := g.cores.getD pos 0
      let (b, k) := saveBlock s gid g pos v.len
      let v1 := { v with len := v.len + b.length, cores := v.cores ++ [k] }
      ({ s with saved := s.saved.set g.savedKey v1 }.sendArea gid g core core v.len b).saveCores gid g v1 fuel

/-- The save of gang `arg.id` goes on (R394): cores begin it once their strands and commands have stopped, they write their blocks, and when
every block has been written the dispatcher writes the header, through the TLB of the core at position (0, 0). An area that does not begin on
a line ends the attempt (R396). -/
def execSaveStart (s : State) : Out :=
  let gid := s.arg.id
  match s.gangs.find? gid with
  | none => .next s
  | some g =>
    if (g.preempt.isNone && g.saving ≠ 3) || g.saving = 1 || g.saving = 2 || s.gangQuiet gid g then .next s
    else
      let begun := if g.saving = 3 then g.begun
        else (List.range g.cores.length).filter fun p => g.begun.contains p || s.coreStopped gid g p
      let g1 := { g with begun := begun }
      let s1 := s.modGang gid fun _ => g1
      if begun.isEmpty then .next (s1.atOnce (s.now + 1) rankLast .saveStart { id := gid })
      else if g.rec_.saveAddr % 64 ≠ 0 then .next ((s1.spare gid).endAttempt gid g1)
      else
        let v := (s.saved.find? g.savedKey).getD { gang := g, area := BitVec.ofNat 64 g.rec_.saveAddr, len := 64, cores := [] }
        let s2 := s1.saveCores gid g1 v g.cores.length
        let v2 := (s2.saved.find? g.savedKey).getD v
        if s2.saveOpen gid || v2.cores.length ≠ (if g.saving = 3 then begun else g.cores).length then
          .next (s2.atOnce (s.now + 1) rankLast .saveStart { id := gid })
        else if g.saving = 3 then .next (s2.endAttempt gid g1)
        else .next ((s2.modGang gid fun x => { x with saving := 1 }).sendArea gid g1 (dispStop g.die) (g.cores.headD 0) 0 (saveHeader g1 v2.len))

/-- A gang has been saved (R394 step 3): its STATE is SAVED, its node is READY for a restore (R398), and its rectangle is released. -/
def State.saveDone (s : State) (gid : Nat) (g : Gang) : State :=
  let mine := (s.strandsOf gid).map (·.1)
  let clean (k : Core) : Core :=
    let cmds := (k.cmds.filter fun x => x.gang == gid).map (·.id)
    { k with
      slots := k.slots.map fun o => o.filter fun n => !mine.contains n
      queues := k.queues.map fun (q : List Cmd) => q.filter fun x => x.gang != gid
      omHold := k.omHold.filter fun h => !mine.contains h.2
      omRelease := k.omRelease.filter fun r => !r.2.any cmds.contains }
  let s2 : State := { s with
    cores := s.cores.mapV clean
    strands := s.strands.mapV fun (c : Strand) => if c.ident.gang = gid then { c with place := .saved } else c
    saved := s.saved.modify g.savedKey fun v => { v with gang := g } }
  let n : ReadyNode := { node := g.node, rec_ := g.rec_, since := s.now, saved := true, retried := g.retried }
  let s3 := ((s2.releaseGang gid g).setNodes g.die (insertNode n)).askPass g.die
  (s.cores.map (·.1)).foldl (fun s c => (s.askLoad c (s.now + 1)).pokeQueues c) s3

/-- A write of the save of gang `arg.id` has been performed, or with `arg.flag` has met a fault (R396): after the header STATE becomes SAVED, and
after that the rectangle is released (R394). -/
def execSaveComplete (s : State) : Out :=
  let gid := s.arg.id
  match s.gangs.find? gid with
  | none => .next s
  | some g =>
    if s.arg.flag then
      .next (if g.saving = 3 then s.endAttempt gid g else if g.begun.isEmpty then s else (s.spare gid).endAttempt gid g)
    else if g.saving = 2 then .next (s.saveDone gid g)
    else if g.saving = 1 && !s.saveOpen gid then
      .next ((s.modGang gid fun x => { x with saving := 2 }).status g.die g.node 6 none none false (.save gid))
    else .next s

/-! ### Restore (R398) -/

/-- The two parts of a unit's data in a save area, whose ranges begin 8 bytes behind a line: the offset and the length of each. -/
def unitParts (off : Nat) : List (Nat × Nat) := [(off, 56), (off + 56, 8)]

/-- The reads of a core's ranges set out, in the core's name (R398); the units are clean until a part of them turns out to be poisoned. -/
def State.readRanges (s : State) (gid core area : Nat) (x : SavedCore) : State :=
  x.ranges.foldl (init := s) fun s (om, start, len, off) =>
    (List.range (len / 64)).foldl (init := s) fun s i =>
      let u := start / 64 + i
      let bad := (if om then x.omPoison else x.spPoison).contains u
      let s1 := s.modCore core fun k => if om then { k with omPoison := k.omPoison.del u } else { k with spPoison := k.spPoison.del u }
      (unitParts (off + 64 * i)).foldl (init := s1) fun s (o, n) =>
        s.sendAs { acc := .unitRead n (.restore gid core om u bad), strand := none, gang := 0, core := core, home := core, pa := 0
                   va := BitVec.ofNat 64 (area + o), pc := 0 } core

/-- The holder that stands for the commands of a gang at a slot whose release waits for them while the gang is restored. -/
def holderOf (gid : Nat) : Nat := noStrand + 1 + gid

/-- Grants those claims of holders that a condition names which can be granted (R212): no slot of the run is held or awaits release, and no
earlier claim that overlaps it waits. -/
def Core.grant (mine : Nat → Bool) (k : Core) (early : List Claim) : List Claim → Core
  | [] => { k with claims := early }
  | c :: t =>
    let run := (List.range c.n).map (c.slot + ·)
    if mine c.strand && run.all (fun x => (k.omHold.find? x).isNone && (k.omRelease.find? x).isNone)
        && early.all (fun e => !runsOverlap c.slot c.n e.slot e.n) then
      Core.grant mine { k with omHold := run.foldl (fun t x => t.set x c.strand) k.omHold } early t
    else Core.grant mine k (early ++ [c]) t

/-- The new number of a command: each of a restored gang's commands takes one, in the order in which they were accepted. -/
def renumber (olds : NatSet) (first n : Nat) : Nat :=
  if olds.contains n then first + (olds.filter (· < n)).length else n

/-- What a save holds of a core, with its commands under their new numbers. -/
def SavedCore.renumber (x : SavedCore) (gid : Nat) (num : Nat → Nat) : SavedCore :=
  { x with
    cmds := x.cmds.map fun (q, c) => (q, { c with id := num c.id, gang := gid, after := c.after.map num, ringWait := none })
    releases := x.releases.mapV fun (l : NatSet) => l.map num }

/-- The claims that a restore makes on a core (R398). -/
def SavedCore.claims (x : SavedCore) (gid : Nat) : List Claim :=
  x.slots.map (fun (n, g) => ⟨g, n, 1⟩) ++ x.releases.map fun (n, _) => ⟨holderOf gid, n, 1⟩

/-- Whether the queue entries that a saved core needs are free on its new core (R398). -/
def coreTakes (k : Core) (x : SavedCore) : Bool :=
  (List.range 4).all fun q => decide ((k.queue q).length + (x.cmds.filter fun c => c.1 == q).length ≤ 16)

/-- A core of a gang is restored but for its ranges, its claims and its contexts (R398): windows, and command remainders in their queues. -/
def restoreCore (k : Core) (gid : Nat) (x : SavedCore) : Core :=
  let k1 := x.cmds.foldl (fun k (q, c) => k.setQueue q (k.queue q ++ [c])) k
  { k1 with
    windows := x.windows.foldl (fun t (n, w) => t.set n { w with gang := gid }) k.windows
    bound := x.windows.foldl (fun t (n, w) => t.set n (w.rsz, w.nidx, gid)) k.bound
    omHold := k.omHold.filter fun h => h.2 != holderOf gid
    omRelease := x.releases.foldl (fun t (n, l) => t.set n l) k.omRelease }

/-- A saved strand stands on its new core again (R398): at a barrier it stays parked, else it enters; fills held for it are offered. -/
def State.restoreStrand (s : State) (gid core : Nat) (step : Bool) (g : Nat) : State :=
  let c := s.strand g
  let c1 : Strand := { c with core := core, ident := { c.ident with gang := gid }, ranges := [] }
  let parked := c.wait.any fun w => w.kind == .barrier
  let s1 := s.setStrand g { c1 with place := if parked then .parked else .ready }
  let s2 := if parked then s1 else s1.enter g core step
  s2.msgs.foldl (fun s (_, m) => if m.kind == 3 && m.target == g then s.offer g m.reg else s) s2

/-- A restore whose area cannot be read (R398): the strands end, their claims are dropped, the rectangle is released, and the node is
FAULTED. (DEDUCED, log 63) -/
def State.restoreFail (s : State) (gid : Nat) (g : Gang) (err : Nat) : State :=
  let ids := (((s.saved.find? g.savedKey).map fun v => v.cores.flatMap (·.strands)).getD []) ++ [holderOf gid]
  let s1 := ids.foldl (init := s) fun s n =>
    let t := s.acceptAll n
    { t with strands := t.strands.erase n }.modCore (n / 4096) fun k => { k with locals_ := k.locals_.del (n % 4096) }
  let s2 := g.cores.foldl (init := s1) fun s c => s.modCore c fun k =>
    { k with claims := k.claims.filter fun x => !ids.contains x.strand, omHold := k.omHold.filter fun h => !ids.contains h.2 }
  ({ s2 with saved := s2.saved.erase g.savedKey }.releaseGang gid g).status g.die g.node 5 (some err) none false .none

/-- Part of a unit of a save area has been read for a core of a gang that is being restored (R398), or its read has failed. -/
def State.gotRange (s : State) (gid core : Nat) (om : Bool) (unit : Nat) (bad : Bool) (r : Req) : State :=
  match s.gangs.find? gid with
  | none => s
  | some g =>
    if r.fail.isSome then s.restoreFail gid g 3
    else
      let a := unit * 64 + if r.data.length = 8 then 56 else 0
      s.modCore core fun k =>
        if om then { k with om := k.om.write a r.data, omPoison := if bad then k.omPoison.add unit else k.omPoison }
        else { k with sp := k.sp.write a r.data, spPoison := if bad then k.spPoison.add unit else k.spPoison }

/-- Whether reads of a gang's save area are under way. -/
def State.restoreOpen (s : State) (gid : Nat) : Bool :=
  s.reqs.any fun (_, r) => match r.acc with | .unitRead _ (.restore g _ _ _ _) => g == gid | _ => false

/-- A restore begins (R398): the ranges are asked for, the claims join the claims of their cores behind those that wait (R212), and the
command remainders take new numbers. -/
def State.restoreBegin (s : State) (gid : Nat) (g : Gang) (v : Saved) : State :=
  let olds := (v.cores.flatMap fun x => x.cmds.map fun c => c.2.id).foldl NatSet.add []
  let num := renumber olds s.nextId
  let cores := v.cores.map fun x => x.renumber gid num
  let ids := v.cores.flatMap (·.strands)
  let s1 : State := { s with
    nextId := s.nextId + olds.length
    saved := s.saved.set g.savedKey { v with cores := cores }
    strands := s.strands.map fun (n, c) =>
      (n, if ids.contains n then { c with qfences := c.qfences.map fun (q, l) => (q, l.map num) } else c) }
  let s2 := (g.cores.zip cores).foldl (init := s1) fun s (c, x) =>
    (s.modCore c fun k => { k with claims := k.claims ++ x.claims gid }).readRanges gid c v.area.toNat x
  s2.modGang gid fun x => { x with saving := 1 }

/-- A gang is restored on its rectangle (R398). While its ranges are being read, a claim of it waits, or a queue entry that it needs is not
free there, the restore waits. -/
def State.restoreGang (s : State) (gid : Nat) (g : Gang) : State :=
  let later (s : State) : State := s.at_ (s.now + 1) rankLaunch .strandStart { id := gid }
  match s.saved.find? g.savedKey with
  | none => s.startGang gid g
  | some v =>
    if g.saving = 0 then later (s.restoreBegin gid g v)
    else
      let ids := v.cores.flatMap (·.strands) ++ [holderOf gid]
      let s0 := g.cores.foldl (init := s) fun s c => s.modCore c fun k => Core.grant ids.contains k [] k.claims
      let pairs := g.cores.zip v.cores
      if s0.restoreOpen gid || !pairs.all fun (c, x) => coreTakes (s0.core c) x && (s0.core c).claims.all fun y => !ids.contains y.strand then
        later s0
      else
        let s1 := { s0 with saved := s0.saved.erase g.savedKey }
        let s2 := pairs.foldl (fun s (c, x) => s.modCore c fun k => restoreCore k gid x) s1
        let back : Gang := { v.gang with
          cores := g.cores, phase := .running, since := g.since, preempt := none, saving := 0, begun := [], moving := none, restored := false }
        let s3 := s2.modGang gid fun _ => back
        let s4 := pairs.foldl (fun s (c, x) => x.strands.foldl (fun s n => s.restoreStrand gid c g.step n) s) s3
        let s5 := g.cores.foldl (fun s c => s.pokeQueues c) s4
        ((s5.status g.die g.node 3 none none false .none).checkBarrier gid).pokeGang gid

/-- The strands of the placed gang `arg.id` start (R177), once each of its cores has enough free local indices (log 95), or are restored
(R398). (DESIGN CHOICE, log 95) -/
def execStrandStart (s : State) : Out :=
  let gid := s.arg.id
  match s.gangs.find? gid with
  | none => .next s
  | some g =>
    if !g.starting then .next s
    else if g.restored then .next (s.restoreGang gid g)
    else if g.cores.all fun c => (s.core c).hasLocals g.rec_.nstr then .next (s.startGang gid g)
    else .next (s.at_ (s.now + 1) rankLaunch .strandStart { id := gid })

/-- The pre-emption request register is written (R392, R446): with GO it asks for the placed gang of a node, and GO is clear again at once
when there is none that a request can name. A write is ignored while GO is 1. (DEDUCED, log 64) -/
def State.preemptWrite (s : State) (v : Word) : State :=
  if s.pkg.preempt.getLsbD 63 then s
  else
    let w := v &&& BitVec.ofNat 64 (2 ^ 63 + 0xFFFF)
    let die := v.toNat / 2 ^ 14 % 4
    let node := v.toNat % 2 ^ 14
    let s1 := s.modPkg fun p => { p with preempt := w &&& BitVec.ofNat 64 0xFFFF }
    if !v.getLsbD 63 then s1
    else
      match (s.gangs.filter fun (_, g) => g.die == die && g.node == node && g.canStop && g.rec_.deadline != 0
          && decide (g.noVictimUntil ≤ s.now)).head? with
      | some (gid, _) =>
        if (s.die die).preempt.isSome then s1
        else (s1.modPkg fun p => { p with preempt := w }).requestPreempt die [gid] true
      | none => s1

end Sys2Proof.Machine
end

