-- ==== Sys2Proof/Machine/Notices.lean ====
section
/-! DEFINITION. What stream units and dispatchers learn by messages: that a write or a read of theirs has been performed (R172, R173,
R178, R350, R358, R394, R398), that a node's STATE has changed (R350), and the `SBIND`s and their replies (R358). -/

namespace Sys2Proof.Machine

/-- What follows when a unit learns that its request has been performed, or has failed; `poison` is that of what it read. -/
def State.noted (s : State) (note : UnitNote) (r : Req) (poison : Bool) : State :=
  match note with
  | .none => s
  | .pane d bi cmd =>
    let s1 := s.firePanes d bi
    match cmd with
    | some (core, id) => s1.semitDone d core id
    | none => s1
  | .step d bi => s.nextStep d bi r poison
  | .bound d m => s.bindReply d m none
  | .succ d nodes => nodes.foldl (init := s) fun s (e, n) => s.unitWrite (dispStop d) (s.recordAt e n + 0x28) .dec .none
  | .save g => s.at_ s.now rankWork .saveComplete { id := g, flag := r.fail.isSome }
  | .record d node part => s.gotRecord d node part r
  | .more g _ => s.gotMore g r poison
  | .restore g core om unit bad => s.gotRange g core om unit (bad || poison) r

/-- The reply to an `SBIND` reaches its strand (R358), or is discarded at an edge that has failed (R411). -/
def State.bindEnd (s : State) (die m : Nat) : State :=
  match (s.die die).sbinds.find? m with
  | none => s
  | some b =>
    let s1 := s.modDie die fun y => { y with sbinds := y.sbinds.erase m }
    if s.cut (streamStop die) b.core then s1.cutOff (s.strand b.strand).ident.gang
    else match b.fail with
      | some f => s1.failWait b.strand m f
      | none => s1.completeWait b.strand m 0

/-- A unit's request has been answered; an answer that would cross an edge that has failed is discarded (R411). -/
def State.unitAnswer (s : State) (n : Nat) (poison : Bool) : State :=
  match s.reqs.find? n with
  | none => s
  | some r =>
    let s1 := { s with reqs := s.reqs.erase n }
    if s.cut r.home r.core then s1
    else match r.acc with
      | .unitWrite _ note => s1.noted note r poison
      | .unitRead _ note => s1.noted note r poison
      | _ => s1

/-- A notice: `arg.n` 0, the STATE of the node `arg.idx` of a die has become `arg.sub` (R350); 1, an `SBIND` reaches its unit, and 2, its
reply its strand (R358); 3, a unit's request `arg.id` has been answered, with the poison of what it read in `arg.flag`; 4, the firing queue of
binding `arg.idx` goes on behind a discarded firing (R350); 5, the translation of its ARG is there, or with `arg.flag` no entry came (R244). -/
def execStateNotice (s : State) : Out :=
  let a := s.arg
  match a.n with
  | 0 =>
    if s.cut (homeOf (s.recordAt a.die a.idx)) (streamStop a.die) then .next s
    else .next (((s.die a.die).bindings.filter fun (_, b) => b.node == a.idx).foldl (fun s (bi, _) => s.nodeNotice a.die bi a.sub) s)
  | 1 => .next (s.bindAt a.die a.id)
  | 2 => .next (s.bindEnd a.die a.id)
  | 3 => .next (s.unitAnswer a.id a.flag)
  | 4 => .next (s.headFiring a.die a.idx)
  | _ => .next (s.fireHeader a.die a.idx a.flag)

end Sys2Proof.Machine
end

