-- ==== Sys2Proof/Machine/Registers.lean ====
section
/-! DEFINITION. The registers of BAR 0 (R446): dispatchers (R182, R391), homes (R251, R287), stream units (R365), the fabric block (R414,
R419, R420), Thermidor (R447), the package block, the mailbox (R445), and the snapshot copy (R450); the wipe and the boot (R441-R444).
Reads are of a view of the blocks, so that the copy is read as the blocks are. -/

namespace Sys2Proof.Machine

/-! ### Reads -/

/-- A bit as a number. -/
def bit01 (b : Bool) : Nat := if b then 1 else 0

/-- A word of bytes, at a byte offset; bytes that are not there read 0. -/
def bytesWord (l : List Byte) (off : Nat) : Word := BitVec.ofNat 64 (leNat ((l.drop off).take 8))

/-- `pkg.stat` (R446). -/
def Pkg.stat (p : Pkg) : Word :=
  BitVec.ofNat 64 (bit01 p.ready + 2 * bit01 p.tfail + 4 * bit01 p.bootErr + 8 * bit01 p.halted + 16 * p.life.toNat)

/-- The package block and the mailbox (R445, R446). -/
def pkgRead (now : Nat) (p : Pkg) (off : Nat) : Option Word :=
  match off with
  | 0x00 => some p.stat
  | 0x08 => some 0
  | 0x10 => some (p.irq.setWidth 64)
  | 0x18 => some p.preempt
  | 0x20 => some (BitVec.ofNat 64 ((if p.snapUser then 2 ^ 62 else 0) + p.snapSeq.toNat))
  | 0x28 => some p.haltReg
  | 0x30 => some (p.sysn.setWidth 64)
  | 0x38 => some (BitVec.ofNat 64 now)
  | 0x1040 => some (BitVec.ofNat 64 (bit01 p.quoteReq))
  | 0x1048 => some (BitVec.ofNat 64 p.quote.length)
  | o =>
    if 0x40 ≤ o && o < 0x80 then some (bytesWord p.meas (o - 0x40))
    else if 0x1000 ≤ o && o < 0x1040 then some (bytesWord p.nonce (o - 0x1000))
    else if 0x1100 ≤ o && o < 0x2000 then some (bytesWord p.quote (o - 0x1100))
    else none

/-- `dsp.head` (R182). -/
def Die.head (d : Die) : Word :=
  match d.nodes with
  | n :: _ => BitVec.ofNat 64 (n.node % 2 ^ 14 + 2 ^ 14 + min n.fails 127 * 2 ^ 16 + bit01 (decide (64 ≤ n.fails)) * 2 ^ 23)
  | [] => 0

/-- A dispatcher's registers (R182, R391). -/
def dspRead (d : Die) (off : Nat) : Option Word :=
  match off with
  | 0x00 => some d.ntbase
  | 0x08 => some (BitVec.ofNat 64 d.lost)
  | 0x10 => some d.head
  | 0x18 => some d.clog0
  | 0x20 => some d.clog1
  | 0x28 => some (BitVec.ofNat 64 d.ccnt)
  | o => if 0x40 ≤ o && o < 0xC0 then d.trig[(o - 0x40) / 8]? else none

/-- `hs.stat` (R251). -/
def Home.stat (x : Home) (ctx : Nat) : Word :=
  BitVec.ofNat 64 (x.freeFrames + x.capped * 2 ^ 9 + x.keptCount * 2 ^ 18 + x.fetchCount * 2 ^ 26 + x.queues.length * 2 ^ 30 + ctx * 2 ^ 41)
/-- `hs.ecc`. -/
def Home.ecc (x : Home) : Word := BitVec.ofNat 64 (x.corr + x.uncorr * 2 ^ 32)
/-- `hs.evt`. -/
def Home.evt (x : Home) : Word := BitVec.ofNat 64 (x.wantDrop + x.keepDeny * 2 ^ 16 + x.starved * 2 ^ 32)
/-- `hs.chk` (R287). -/
def Home.chk (x : Home) : Word := BitVec.ofNat 64 (x.conf + x.disp * 2 ^ 32)

/-- A home's registers (R251, R287). -/
def homeRead (x : Home) (ctx off : Nat) : Option Word :=
  match off with
  | 0x00 => some (x.stat ctx)
  | 0x08 => some x.ecc
  | 0x10 => some x.evt
  | 0x18 => some x.elideReg
  | 0x20 => some x.cksetReg
  | 0x28 => some (BitVec.ofNat 64 x.patrol)
  | 0x30 => some x.chk
  | _ => none

/-- `su.cnt` (R365). -/
def Stream.cnt (x : Stream) : Word := BitVec.ofNat 64 (x.lower + x.badRec * 2 ^ 32)

/-- `su.cnt` of a stream, or what an index without one has counted (R364, R365). -/
def Die.suCount (d : Die) (i : Nat) : Word :=
  match d.streams.find? i with
  | some x => x.cnt
  | none => let n := d.suCnt.getD i (0, 0); BitVec.ofNat 64 (n.1 + n.2 * 2 ^ 32)

/-- A stream unit's registers (R365); but for `su.cnt`, those of a stream that is not defined read 0. -/
def suRead (d : Die) (off : Nat) : Option Word :=
  if 0x4000 ≤ off && off < 0x6000 then
    let i := (off - 0x4000) / 32
    if off % 32 = 8 then some (d.suCount i)
    else match d.streams.find? i with
      | none => some 0
      | some x =>
        match off % 32 with
        | 0 => some (BitVec.ofInt 64 x.wm)
        | 16 => some (BitVec.ofNat 64 (((List.range x.srcs.length).zip x.srcs).map fun (i, y) => bit01 y.idle * 2 ^ i).sum)
        | _ => some (BitVec.ofNat 64 (2 ^ 63 + (x.srcs.length - 1) % 64 * 2 ^ 34 + (Nat.log2 (x.rs / 32)) % 4 * 2 ^ 32 + x.idleT % 2 ^ 32))
  else if 0x8000 ≤ off && off < 0x28000 then
    match (d.streams.find? ((off - 0x8000) / 512)).bind fun x => x.srcs[(off - 0x8000) % 512 / 8]? with
    | some y => some (BitVec.ofInt 64 y.wm)
    | none => some 0
  else none

/-- Word 3 of a migration slot (R414). -/
def MigSlot.status (m : MigSlot) : Word :=
  BitVec.ofNat 64 (m.state + m.cause % 2 ^ 8 * 2 ^ 8 + m.lerr % 2 ^ 4 * 2 ^ 16 + min m.poison (2 ^ 32 - 1) * 2 ^ 32)

/-- The fabric block (R414, R419, R420). -/
def fabRead (p : Pkg) (off : Nat) : Option Word :=
  match off with
  | 0x00 => some (p.devid.setWidth 64)
  | 0x08 => some (p.portUp.setWidth 64)
  | 0x10 => some (p.tmo.setWidth 64)
  | 0x18 => some (BitVec.ofNat 64 p.fabLost)
  | 0x20 => some (BitVec.ofNat 64 p.refused)
  | 0x28 => some p.cnote
  | o =>
    if 0x1000 ≤ o && o < 0x3000 then
      let x := (p.wins.find? ((o - 0x1000) / 32)).getD {}
      some (match o % 32 with | 0 => x.w0 | 8 => x.w1 | 16 => x.w2 | _ => x.cnt)
    else if 0x3000 ≤ o && o < 0x3200 then
      let m := (p.mig[(o - 0x3000) / 32]?).getD {}
      some (match o % 32 with | 0 => m.vpn | 8 => m.hpa | 16 => m.ctl | _ => m.status)
    else none

/-- Thermidor's registers (R447). -/
def thmRead (d : Die) (off : Nat) : Option Word :=
  match off with
  | 0 => some (BitVec.ofNat 64 (d.tmax % 2 ^ 12 * 2 ^ 12 + d.pwr % 2 ^ 16 * 2 ^ 24 + d.fmhz % 2 ^ 12 * 2 ^ 40))
  | 8 => some (BitVec.ofNat 64 (d.tgt.toNat * 2 ^ 8 + d.pcap.toNat * 2 ^ 16))
  | _ => none

/-- The register at an offset of BAR 0 below the snapshot copy, if the offset names one. (DEDUCED, log 74) -/
def regRead (v : Regs) (off : Nat) : Option Word :=
  let die (n : Nat) : Die := (v.dies[n]?).getD {}
  if off % 8 ≠ 0 then none
  else if off < 0x100000 then pkgRead v.now v.pkg off
  else if off < 0x140000 then dspRead (die ((off - 0x100000) / 0x10000)) (off % 0x10000)
  else if 0x200000 ≤ off && off < 0x200000 + 768 * 0x100 then
    let c := (off - 0x200000) / 0x100
    homeRead (v.homes.getD c {}) (v.ctx.getD c 0) (off % 0x100)
  else if 0x400000 ≤ off && off < 0x500000 then suRead (die ((off - 0x400000) / 0x40000)) (off % 0x40000)
  else if 0x500000 ≤ off && off < 0x510000 then fabRead v.pkg (off - 0x500000)
  else if 0x600000 ≤ off && off < 0x604000 then thmRead (die ((off - 0x600000) / 0x1000)) (off % 0x1000)
  else none

/-- The register at an offset of BAR 0, in the blocks or in the snapshot copy (R446, R450). -/
def State.reg (s : State) (off : Nat) : Option Word :=
  if 0x2000000 ≤ off then regRead s.snap (off - 0x2000000) else regRead s.regs off

/-- What a read of an RC register clears (R7). -/
def State.regClear (s : State) (off : Nat) : State :=
  let d := (off - 0x100000) / 0x10000
  let h := (off - 0x200000) / 0x100
  if 0x100000 ≤ off && off < 0x140000 then
    match off % 0x10000 with
    | 0x08 => s.modDie d fun x => { x with lost := 0 }
    | 0x28 => s.modDie d fun x => { x with ccnt := 0 }
    | _ => s
  else if 0x200000 ≤ off && off < 0x200000 + 768 * 0x100 then
    match off % 0x100 with
    | 0x08 => s.modHome h fun x => { x with corr := 0, uncorr := 0 }
    | 0x10 => s.modHome h fun x => { x with starved := 0, keepDeny := 0, wantDrop := 0 }
    | 0x30 => s.modHome h fun x => { x with conf := 0, disp := 0 }
    | _ => s
  else if 0x400000 ≤ off && off < 0x500000 then
    let o := off % 0x40000
    if 0x4000 ≤ o && o < 0x6000 && o % 32 == 8 then
      s.modDie ((off - 0x400000) / 0x40000) fun y =>
        { y with
          streams := y.streams.modify ((o - 0x4000) / 32) fun x => { x with lower := 0, badRec := 0 }
          suCnt := y.suCnt.erase ((o - 0x4000) / 32) }
    else s
  else
    match off with
    | 0x500018 => s.modPkg fun p => { p with fabLost := 0 }
    | 0x500020 => s.modPkg fun p => { p with refused := 0 }
    | 0x500028 => s.modPkg fun p => { p with cnote := 0 }
    | _ => s

/-- Whether the package answers register requests of the host: after a failed boot only the mailbox does, and `pkg.stat` at every moment
(R441, R444). -/
def State.answers (s : State) (off : Nat) : Bool := !s.pkg.bootErr || off == 0 || (decide (0x1000 ≤ off) && decide (off < 0x2000))

/-- A host read of a register: its value is returned, and an RC register is cleared (R7). A read that the package does not answer completes
with Completer Abort. (DESIGN CHOICE, log 66) -/
def State.hostRegRead (s : State) (off : Nat) : State :=
  if !s.answers off then s.out (.hostError 2)
  else match s.reg off with
    | some v => (s.out (.regData v)).regClear off
    | none => s.out (.hostError 1)

/-! ### Snapshot (R450) -/

/-- The common trigger fires: the copy holds every register as it stood at the start of this cycle; requests of one reference cycle
make one snapshot. (DESIGN CHOICE, log 69) -/
def State.latch (s : State) : State :=
  if s.pkg.snapAt = some s.now then s
  else ({ s with snap := s.cycleRegs }.modPkg fun p => { p with snapSeq := p.snapSeq + 1, snapAt := some s.now }).irq 3

/-! ### Wipe and boot (R441-R444) -/

/-- The measurement register after the images whose digests are given (R444). (DESIGN CHOICE, log 22) -/
def measure : List Byte → List (List Byte) → List Byte
  | m, [] => m
  | m, d :: t => measure (leBytes 64 (Config.shake256 (m ++ d)).toNat) t

/-- Writes that have reached their homes when the engines and cores of the package stop are performed there, in the order in which they
were made (R441). (DESIGN CHOICE, log 66) -/
def State.performWrites (s : State) : State :=
  (s.reqs.filter fun e => e.2.stage == .port || e.2.stage == .behind || e.2.stage == .waiting).foldl (init := s) fun s (n, r) =>
    match r.acc with
    | .store d => (writtenChunks r.pa d).foldl (fun s c => s.writeLine c.1 c.2 false) (s.goLive r.pa)
    | _ => if s.writesLine r then (s.goLive r.pa).performReq n r false else s

/-- A reset: the wipe (R442), after which a cold one has lost the memory and a warm one has kept it with granule states and
checkpoint-set bits (R441); then the boot of the images that the step's particulars describe (R444): `arg.data` their digests of 64
bytes each, `arg.flag` that one fails, and `arg.n` the SYSN that Germinal writes (R451).
(DESIGN CHOICE, log 5; DESIGN CHOICE, log 66) -/
def State.resetWith (s : State) (cold : Bool) : State :=
  let a := s.arg
  let digests := (List.range (a.data.length / 64)).map fun i => (a.data.drop (64 * i)).take 64
  let home (x : Home) : Home := { ({} : Home) with live := x.live, ckset := x.ckset }
  let p : Pkg := { ({} : Pkg) with
    life := if cold then s.pkg.lifeNext.getD s.pkg.life else s.pkg.life
    lifeNext := if cold then none else s.pkg.lifeNext
    bootErr := a.flag, sysn := BitVec.ofNat 14 a.n, meas := measure (List.replicate 64 0) digests
    linkUp := s.pkg.linkUp }
  let t : State := { State.reset with pkg := p, inputs := s.inputs, outs := s.outs, nextId := s.nextId }
  if cold then t
  else
    let u := s.performWrites
    let w : State := { t with
      mem := u.mem, poison := u.poison, eccBad := s.eccBad, eccSoft := s.eccSoft, pages := s.pages, homes := u.homes.mapV home }
    ((u.homes.filter fun e => !e.2.live.isEmpty).map (·.1)).foldl (fun s h => s.startChains h) w

/-! ### Writes -/

/-- An attestation request with the nonce in the mailbox (R445); the resident service answers in the next cycle. A second request
meanwhile is ignored, and so is one after a failed boot (R444). (DESIGN CHOICE, log 68) -/
def State.askQuote (s : State) : State :=
  if s.pkg.quoteReq || s.pkg.bootErr then s
  else (s.modPkg fun p => { p with quoteReq := true }).at_ (s.now + 1) rankLast .attestationRequest { flag2 := true }

/-- Bytes with a word put over them at an offset. -/
def putWord (l : List Byte) (off : Nat) (v : Word) : List Byte :=
  let m := l ++ List.replicate (64 - l.length) 0
  m.take off ++ leBytes 8 v.toNat ++ m.drop (off + 8)

/-- A write in the package block or the mailbox (R445, R446). A reset is a step of its own, behind whose write no other is waited for
(`idx` 1), with the particulars of its boot. -/
def State.pkgWrite (s : State) (off : Nat) (v : Word) (boot : EvArg) : State :=
  match off with
  | 0x08 =>
    let a := { boot with idx := 1 }
    if v = 1 then s.at_ s.now rankLast .pkgRstWarm a else if v = 2 then s.at_ s.now rankLast .pkgRstCold a else s
  | 0x10 => s.modPkg fun p => { p with irq := p.irq &&& ~~~(v.setWidth 4) }
  | 0x18 => s.preemptWrite v
  | 0x20 =>
    let s1 := s.modPkg fun p => { p with snapUser := v.getLsbD 62 }
    if v.getLsbD 63 then s1.latch else s1
  | 0x30 => s.modPkg fun p => { p with sysn := v.setWidth 14 }
  | 0x1040 => if v = 1 then s.askQuote else s
  | o => if 0x1000 ≤ o && o < 0x1040 then s.modPkg fun p => { p with nonce := putWord p.nonce (o - 0x1000) v } else s

/-- A write of a dispatcher's register (R182). -/
def State.dspWrite (s : State) (d off : Nat) (v : Word) : State :=
  if off = 0 then s.modDie d fun x => { x with ntbase := BitVec.ofNat 64 (v.toNat / 2 ^ 21 % 2 ^ 19 * 2 ^ 21) }
  else if 0x40 ≤ off && off < 0xC0 then
    s.modDie d fun x =>
      { x with trig := x.trig.setIfInBounds ((off - 0x40) / 8) (BitVec.ofNat 64 (v.toNat / 2 ^ 31 * 2 ^ 31 + v.toNat % 2 ^ 24)) }
  else s

/-- A granule becomes ELIDED (R249): its resident blocks are discarded, and the waiters on those being fetched run as if the blocks had
arrived. A block whose arrival set is not empty stays, as zeros, until its members are done. (DEDUCED, log 70) -/
def State.elide (s : State) (h g : Nat) : State :=
  let lo := h * 2 ^ 30 + g * 65536
  let line (l : Nat) : Bool := decide (lineOf lo ≤ l) && decide (l < lineOf lo + 1024)
  let mine := (s.home h).frames.filter fun e => e.1 / 16 == g
  let keep (e : Nat × Frame) : Bool := e.1 / 16 != g || e.2.isFetch || !e.2.arr.isEmpty
  let clean (e : Nat × Frame) : Nat × Frame := if e.1 / 16 = g then (e.1, { e.2 with dirty := [], zeros := true }) else e
  let s1 : State := { s with
    mem := s.mem.filter fun c => !(decide (lo ≤ c.1) && decide (c.1 < lo + 65536))
    poison := s.poison.filter fun l => !line l
    eccBad := s.eccBad.filter fun l => !line l
    eccSoft := s.eccSoft.filter fun l => !line l }
  let s2 := s1.modHome h fun x =>
    { x with live := x.live.del g, frames := (x.frames.filter keep).map clean, elideReg := BitVec.ofNat 64 g }
  ((mine.filter fun e => e.2.isFetch).foldl (init := s2) fun s (b, f) =>
    if f.isFetch then s.becomeResident h b { f with zeros := true } [] else s).askFetch h (s.now + 1)

/-- A write of a home's register (R251). -/
def State.homeWrite (s : State) (h off : Nat) (v : Word) : State :=
  match off with
  | 0x18 => s.elide h (v.toNat % 2 ^ 14)
  | 0x20 =>
    s.modHome h fun x =>
      { x with
        ckset := NatSet.put x.ckset (v.toNat % 2 ^ 14) (v.getLsbD 63)
        cksetReg := v &&& BitVec.ofNat 64 (2 ^ 63 + 2 ^ 14 - 1) }
  | 0x28 =>
    let n := v.toNat % 2 ^ 32
    let s1 := (s.modHome h fun x => { x with patrol := n }).unAt fun d => d.ev == .patrolFetch && d.arg.id == h
    if n = 0 || (s.home h).live.isEmpty then s1 else s1.at_ (s.now + n) rankLast .patrolFetch { id := h }
  | _ => s

/-- Changes a migration slot. -/
def State.modMig (s : State) (n : Nat) (f : MigSlot → MigSlot) : State :=
  s.modPkg fun p => { p with mig := p.mig.setIfInBounds n (f ((p.mig[n]?).getD {})) }

/-- A migration slot. -/
def State.mig (s : State) (n : Nat) : MigSlot := (s.pkg.mig[n]?).getD {}

/-- LINK of a slot. -/
def MigSlot.link (m : MigSlot) : Bool := m.ctl.getLsbD 17
/-- DIR: device to host. -/
def MigSlot.out (m : MigSlot) : Bool := m.ctl.getLsbD 16
/-- CORE. -/
def MigSlot.core (m : MigSlot) : Nat := m.ctl.toNat % 2 ^ 10
/-- Bytes of the page. -/
def MigSlot.size (m : MigSlot) : Nat := if m.vpn.getLsbD 0 then 2 ^ 21 else 2 ^ 16
/-- Virtual address of the unit that the copy is at. -/
def MigSlot.va (m : MigSlot) : Word := BitVec.ofNat 64 (m.vpn.toNat / 2 ^ 16 % 2 ^ 32 * 2 ^ 16 + 64 * m.unit)

/-- A copy ends in DONE (2) or FAILED (3), with its MSI-X vector (R415). -/
def State.migEnd (s : State) (n state cause lerr : Nat) : State :=
  (s.modMig n fun m => { m with state := state, cause := cause, lerr := lerr }).out (.msix (16 + n))

/-- The access of a copy to a unit of the device page: from the mesh stop of its link (R455), translated through the TLB of CORE, of whose
leaf V and GMASK alone are checked (R415). -/
def State.migAsk (s : State) (n : Nat) (put : Option (List Byte × Bool)) : State :=
  let m := s.mig n
  let stop := linkStop m.link
  s.sendAs { acc := .mig n put, strand := none, gang := 0, core := stop, home := stop, pa := 0, va := m.va, pc := 0 } m.core

/-- A copy goes on with its next unit, or is DONE (R415). (DEDUCED, log 71) -/
def State.migGo (s : State) (n : Nat) : State :=
  let m := s.mig n
  if m.size ≤ 64 * m.unit then s.migEnd n 2 0 0
  else if !(s.pkg.linkUp[bit01 m.link]?).getD false then s.migEnd n 3 0 4
  else if m.out then s.migAsk n none
  else s.out (.hostGet m.link (m.hpa.toNat + 64 * m.unit))

/-- START of a slot (R414): ignored unless its STATE is FREE. -/
def State.migStart (s : State) (n : Nat) : State :=
  if (s.mig n).state ≠ 0 then s
  else (s.modMig n fun m => { m with state := 1, unit := 0, poison := 0, lerr := 0, cause := 0 }).migGo n

/-- STATE := 0 of a slot (R414): taken only from DONE or FAILED. -/
def State.migFree (s : State) (n : Nat) : State :=
  if (s.mig n).state = 2 || (s.mig n).state = 3 then s.modMig n fun m => { m with state := 0 } else s

/-- A write of a migration slot's word (R414). -/
def State.migWrite (s : State) (n word : Nat) (v : Word) : State :=
  match word with
  | 0 => s.modMig n fun m => { m with vpn := BitVec.ofNat 64 (v.toNat / 2 ^ 16 % 2 ^ 32 * 2 ^ 16 + v.toNat % 2) }
  | 1 => s.modMig n fun m => { m with hpa := v }
  | 2 =>
    let s1 := s.modMig n fun m => { m with ctl := BitVec.ofNat 64 (v.toNat / 2 ^ 16 % 4 * 2 ^ 16 + v.toNat % 2 ^ 10) }
    if v.getLsbD 31 then s1.migStart n else s1
  | _ => if v.toNat % 8 = 0 then s.migFree n else s

/-- A write in the fabric block (R414, R419, R420). -/
def State.fabWrite (s : State) (off : Nat) (v : Word) : State :=
  match off with
  | 0x00 => s.modPkg fun p => { p with devid := v.setWidth 13 }
  | 0x10 => s.modPkg fun p => { p with tmo := v.setWidth 32 }
  | o =>
    if 0x1000 ≤ o && o < 0x3000 then s.winWrite ((o - 0x1000) / 32) (o % 32 / 8) v
    else if 0x3000 ≤ o && o < 0x3200 then s.migWrite ((o - 0x3000) / 32) (o % 32 / 8) v
    else s

/-- A write of the register at an offset of BAR 0 (R446); none where the offset names no register. A write to a register that is read
only, or to the copy, is ignored (R7). `boot` describes the boot after a reset. -/
def State.regWrite (s : State) (off : Nat) (v : Word) (boot : EvArg) : Option State :=
  if (s.reg off).isNone then none
  else some (
    if off < 0x100000 then s.pkgWrite off v boot
    else if off < 0x140000 then s.dspWrite ((off - 0x100000) / 0x10000) (off % 0x10000) v
    else if 0x200000 ≤ off && off < 0x200000 + 768 * 0x100 then s.homeWrite ((off - 0x200000) / 0x100) (off % 0x100) v
    else if 0x500000 ≤ off && off < 0x510000 then s.fabWrite (off - 0x500000) v
    else if 0x600000 ≤ off && off < 0x604000 && off % 0x1000 = 8 then
      s.modDie ((off - 0x600000) / 0x1000) fun d => { d with pcap := (v >>> 16).setWidth 16, tgt := (v >>> 8).setWidth 8 }
    else s)

end Sys2Proof.Machine
end

