-- ==== Sys2Proof/Machine/HostSide.lean ====
section
/-! DEFINITION. The package's side of the host and of the world (R411-R419, R441-R450): resets and training, register requests, host
reads and writes of main memory, ingress pages, migration copies, links and edges, and Thermidor. A host request's `arg.flag2` is the
link it came on, and `arg.sub`, once it waits for earlier writes, a number that those have not reached (R413). -/

namespace Sys2Proof.Machine

/-! ### Order of host requests (R413) -/

/-- Host writes to registers that are releases (R413). -/
def hostRelease (i : Instr) : Bool :=
  i == .registerWrite || i == .migrationStart || i == .migrationSlotFree || i == .pkgRstWarm || i == .pkgRstCold

/-- Whether a write of a link, older than a request number, has still to be performed: one to memory, or a release to a register that waits. -/
def State.writesOpen (s : State) (link : Bool) (before : Nat) : Bool :=
  s.reqs.any (fun (n, r) => decide (n < before) && r.acc.isHostWrite && r.core == linkStop link && r.stage != .done)
    || s.cal.any fun d => hostRelease d.ev && d.arg.flag2 == link && d.arg.sub != 0 && decide (d.arg.sub < before)

/-- Performs a host write to a register that is a release only after every earlier write on its link has been performed (R413). -/
def afterWrites (s : State) (ev : Instr) (go : State → State) : Out :=
  let before := if s.arg.sub = 0 then s.nextId else s.arg.sub
  if s.writesOpen s.arg.flag2 before then
    .next ({ s with nextId := if s.arg.sub = 0 then s.nextId + 1 else s.nextId }.at_ (s.now + 1) rankWork ev { s.arg with sub := before })
  else .next (go s)

/-! ### Resets, boot and training (R441-R445) -/

/-- Power-on, or the fundamental reset of PCI Express (R441): a cold reset. -/
def execPowerOnReset (s : State) : Out := .next (s.resetWith true)

/-- `pkg.rst` := 1 (R441): a warm reset with retain, after earlier writes of the link; a thermal stop lets none pass (R447). -/
def execPkgRstWarm (s : State) : Out :=
  let go (s : State) : State := if s.pkg.thermal || !s.answers 8 then s else s.resetWith false
  if s.arg.idx = 1 then .next (go s) else afterWrites s .pkgRstWarm go

/-- `pkg.rst` := 2 (R441): a cold reset. -/
def execPkgRstCold (s : State) : Out :=
  let go (s : State) : State := if s.answers 8 then s.resetWith true else s
  if s.arg.idx = 1 then .next (go s) else afterWrites s .pkgRstCold go

/-- Training ends (R443): well, with `arg.flag`, so that READY is set and the held requests are performed; or badly, so that TFAIL is
set and host requests are aborted. -/
def execTrainingComplete (s : State) : Out :=
  if s.pkg.ready || s.pkg.tfail then .next s
  else
    let held := s.pkg.heldReqs
    if s.arg.flag then
      let s1 := s.modPkg fun p => { p with ready := true, heldReqs := [] }
      .next (held.foldl (fun s n => s.at_ s.now rankWork .remoteRequestArrival { id := n }) s1)
    else
      let s1 := s.modPkg fun p => { p with tfail := true, heldReqs := [] }
      .next (held.foldl (fun s n => s.at_ s.now rankWork .remoteRequestArrival { id := n }) s1)

/-- The host asks for a quote (R445), with the nonce in `arg.data` unless the mailbox holds it; with `arg.flag2` the resident service
answers. -/
def execAttestationRequest (s : State) : Out :=
  if s.arg.flag2 then
    .next (if !s.pkg.quoteReq then s else s.modPkg fun p => { p with quoteReq := false, quote := Config.quote p.nonce p.meas p.life.toNat })
  else if s.pkg.quoteReq || s.pkg.bootErr then .next s
  else
    let s1 := if s.arg.data.isEmpty then s else s.modPkg fun p => { p with nonce := s.arg.data }
    .next s1.askQuote

/-- A life-cycle command moves the fuses to state `arg.n` (R442, R444): forward only, when its signature is verified (`arg.flag`), with
the next cold reset. -/
def execLifeCycleCommand (s : State) : Out :=
  if s.arg.flag && decide (s.pkg.life.toNat < s.arg.n) && decide (s.arg.n ≤ 3) then
    .next (s.modPkg fun p => { p with lifeNext := some (BitVec.ofNat 2 s.arg.n) })
  else .next s

/-! ### Register requests (R446) -/

/-- A host write of `arg.v` to the register at BAR 0 offset `arg.id` (R446). One to a trigger, a migration slot or `pkg.rst` is a release
(R413, R441). -/
def execRegisterWrite (s : State) : Out :=
  let off := s.arg.id
  let trig := decide (0x100000 ≤ off) && decide (off < 0x140000) && decide (0x40 ≤ off % 0x10000)
  let mig := decide (0x503000 ≤ off) && decide (off < 0x503200)
  let go (s : State) : State := if s.answers off then (s.regWrite off s.arg.v s.arg).getD s else s
  if trig || mig || off = 8 then afterWrites s .registerWrite go else .next (go s)

/-- A host write to a register, if the package answers it. -/
def State.hostRegWrite (s : State) (off : Nat) (v : Word) : State := if s.answers off then (s.regWrite off v {}).getD s else s

/-- The host writes the pre-emption request register (R392): `arg.v`. -/
def execPkgPreemptWrite (s : State) : Out := .next (s.hostRegWrite 0x18 s.arg.v)

/-- `pkg.irq`: the bits of `arg.v` are cleared (R446). -/
def execPkgIrqClear (s : State) : Out := .next (s.hostRegWrite 0x10 s.arg.v)
/-- `pkg.snap` is written with TRIG = 1 (R450): USER is bit 62 of `arg.v`. -/
def execPkgSnapTrigger (s : State) : Out := .next (s.hostRegWrite 0x20 (s.arg.v ||| BitVec.ofNat 64 (2 ^ 63)))
/-- `dsp.lost` of die `arg.die` is read and cleared (R182). -/
def execDspLostRead (s : State) : Out := .next (s.hostRegRead (0x100008 + s.arg.die * 0x10000))
/-- `dsp.ccnt` of die `arg.die` is read and cleared (R391). -/
def execDspCcntRead (s : State) : Out := .next (s.hostRegRead (0x100028 + s.arg.die * 0x10000))
/-- `hs.ecc` of home `arg.id` is read and cleared (R251). -/
def execHsEccRead (s : State) : Out := .next (s.hostRegRead (0x200008 + s.arg.id * 0x100))
/-- `hs.evt` of home `arg.id` is read and cleared (R251). -/
def execHsEvtRead (s : State) : Out := .next (s.hostRegRead (0x200010 + s.arg.id * 0x100))
/-- `hs.chk` of home `arg.id` is read and cleared (R287). -/
def execHsChkRead (s : State) : Out := .next (s.hostRegRead (0x200030 + s.arg.id * 0x100))
/-- `su.cnt` of stream `arg.id` of die `arg.die` is read and cleared (R365). -/
def execSuCntRead (s : State) : Out := .next (s.hostRegRead (0x404008 + s.arg.die * 0x40000 + s.arg.id * 32))
/-- `hs.elide` of home `arg.id` is written with `arg.v` (R249). -/
def execHsElideWrite (s : State) : Out := .next (s.hostRegWrite (0x200018 + s.arg.id * 0x100) s.arg.v)
/-- `hs.ckset` of home `arg.id` is written with `arg.v` (R250). -/
def execHsCksetWrite (s : State) : Out := .next (s.hostRegWrite (0x200020 + s.arg.id * 0x100) s.arg.v)

/-- `fab.lost` is read and cleared (R419, R446). -/
def execFabLostRead (s : State) : Out := .next (s.hostRegRead 0x500018)
/-- `fab.refused` is read and cleared. -/
def execFabRefusedRead (s : State) : Out := .next (s.hostRegRead 0x500020)
/-- `fab.cnote` is read and cleared. -/
def execFabCnoteRead (s : State) : Out := .next (s.hostRegRead 0x500028)
/-- Registration of window `arg.idx` by a write of word 0 (R420). -/
def execWindowRegister (s : State) : Out := .next (s.hostRegWrite (0x501000 + s.arg.idx * 32) (s.arg.v ||| BitVec.ofNat 64 (2 ^ 63)))
/-- A write of word 0 that unregisters window `arg.idx` (R420). -/
def execWindowUnregister (s : State) : Out :=
  .next (s.hostRegWrite (0x501000 + s.arg.idx * 32) (s.arg.v &&& ~~~(BitVec.ofNat 64 (2 ^ 63))))

/-! ### Main memory (R413) -/

/-- Bytes of main memory (R2). -/
def memBytes : Nat := 768 * 2 ^ 30

/-- Whether a link is up. -/
def State.linkIsUp (s : State) (link : Bool) : Bool := (s.pkg.linkUp[bit01 link]?).getD false

/-- A unit of a host request sets out from its link's stop (R413, R455). -/
def State.hostUnit (s : State) (link : Bool) (pa : Nat) (acc : Access) : State :=
  s.send { acc := acc, strand := none, gang := 0, core := linkStop link, home := homeOf pa, pa := pa, va := 0, pc := 0 }

/-- A host read (R413): of `arg.n` bytes at `arg.id` of the memory aperture, one event for each line; with `arg.idx` 1 of the register at BAR 0
offset `arg.id`, and with 2 of an ingress page, which reads zeros (R364). With `arg.flag` the completion of request `arg.id` has come back to
the link's stop, with EP in `arg.flag2`, and leaves the package. (DESIGN CHOICE, log 73) -/
def execHostMemoryRead (s : State) : Out :=
  let a := s.arg
  if a.flag then
    match s.reqs.find? a.id with
    | none => .next s
    | some r => .next ({ s with reqs := s.reqs.erase a.id }.out (.hostData r.pa r.data a.flag2))
  else if !s.linkIsUp a.flag2 then .next s
  else if a.idx = 1 then .next (s.hostRegRead a.id)
  else if a.idx = 2 then .next (s.out (if s.pkg.bootErr then .hostError 2 else .regData 0))
  else if memBytes < a.id + a.n then .next (s.out (.hostError 1))
  else if s.pkg.tfail || s.pkg.bootErr then .next (s.out (.hostError 2))
  else
    .next ((chunks (a.n / 64 + 2) a.id (List.replicate a.n none)).foldl (fun s c => s.hostUnit a.flag2 c.1 (.hostRead c.2.length)) s)

/-- A host write of `arg.data` at `arg.id` of the memory aperture (R413): one event for each line. With `arg.flag` it has EP set (R412), and what
it writes is poisoned. (DEDUCED, log 72) -/
def execHostMemoryWrite (s : State) : Out :=
  let a := s.arg
  if !s.linkIsUp a.flag2 || decide (memBytes < a.id + a.data.length) || s.pkg.tfail || s.pkg.bootErr then .next s
  else
    .next ((chunks (a.data.length / 64 + 2) a.id (a.data.map some)).foldl (init := s) fun s c =>
      s.hostUnit a.flag2 c.1 (.hostWrite (c.2.filterMap id) a.flag))

/-! ### Ingress pages (R364) -/

/-- A host write of bytes at an offset of an ingress page; with EP its records are poisoned (R341, R412). -/
def State.pageWrite (s : State) (off : Nat) (data : List Byte) : State :=
  if s.pkg.bootErr then s else s.ingress rankSuHost s.arg.die s.arg.id off data s.arg.flag

/-- A host write of `arg.data` at offset `arg.idx` of the ingress page of stream `arg.id` of die `arg.die`. -/
def execIngressRecordWrite (s : State) : Out := .next (s.pageWrite s.arg.idx s.arg.data)
/-- A host write of the watermark `arg.v` for source `arg.idx`. -/
def execIngressWatermarkWrite (s : State) : Out := .next (s.pageWrite (0x800 + 8 * s.arg.idx) (leBytes 8 s.arg.v.toNat))
/-- A host write that makes source `arg.idx` idle. -/
def execIngressIdleWrite (s : State) : Out := .next (s.pageWrite (0xA00 + 8 * s.arg.idx) (leBytes 8 s.arg.v.toNat))

/-! ### Migration copies (R414, R415) -/

/-- START of slot `arg.idx` (R414), after earlier writes of the link. -/
def execMigrationStart (s : State) : Out := afterWrites s .migrationStart fun s => if s.pkg.bootErr then s else s.migStart s.arg.idx
/-- STATE := 0 of slot `arg.idx` (R414). -/
def execMigrationSlotFree (s : State) : Out := afterWrites s .migrationSlotFree fun s => if s.pkg.bootErr then s else s.migFree s.arg.idx

/-- A unit written poisoned or with EP counts (R415). -/
def MigSlot.counted (m : MigSlot) (p : Bool) : MigSlot := { m with poison := min (m.poison + bit01 p) (2 ^ 32 - 1) }

/-- The access of a copy to the device page has been performed, with its line's poison, or could not be translated (R415). -/
def State.migGot (s : State) (r : Req) (n : Nat) (put poison : Bool) : State :=
  let m := s.mig n
  if m.state ≠ 1 || m.va ≠ r.va then s
  else match r.fail.filter fun f => f.cause != .memErr with
    | some f => s.migEnd n 3 f.cause.code 0
    | none =>
      if put then (s.modMig n fun m => { m with unit := m.unit + 1 }).migGo n
      else
        let p := poison || r.fail.isSome
        let d := if r.fail.isSome then s.mem.read r.pa 64 else r.data
        let s1 := s.out (.hostPut m.link (m.hpa.toNat + 64 * m.unit) d p)
        (s1.modMig n fun m => ({ m with unit := m.unit + 1 } : MigSlot).counted p).migGo n

/-- A unit of a copy (R415). The host's completion of the read that slot `arg.idx` waits for brings `arg.data`, poisoned with `arg.flag`,
or the error `arg.n`; with `arg.flag2` the access `arg.id` to the device page has been answered, its line poisoned with `arg.flag`. -/
def execMigrationUnit (s : State) : Out :=
  let a := s.arg
  if a.flag2 then
    match s.reqs.find? a.id with
    | none => .next s
    | some r =>
      let s0 := { s with reqs := s.reqs.erase a.id }
      match r.acc with
      | .mig n put => .next (if s.cut r.home r.core then s0 else s0.migGot r n put.isSome a.flag)
      | _ => .next s0
  else
    let n := a.idx
    let m := s.mig n
    if m.state ≠ 1 || m.out then .next s
    else if a.n ≠ 0 then .next (s.migEnd n 3 0 a.n)
    else .next ((s.modMig n fun m => m.counted a.flag).migAsk n (some (a.data, a.flag)))

/-! ### Links and edges (R411, R412, R415) -/

/-- Host link `arg.idx` has trained (R412). -/
def execHostLinkTraining (s : State) : Out := .next (s.modPkg fun p => { p with linkUp := p.linkUp.setIfInBounds s.arg.idx true })

/-- Host link `arg.idx` is lost (R412): migration copies that use it stop (R415). -/
def execHostLinkDown (s : State) : Out :=
  let s1 := s.modPkg fun p => { p with linkUp := p.linkUp.setIfInBounds s.arg.idx false }
  .next ((List.range 16).foldl (init := s1) fun s n =>
    if (s.mig n).state = 1 && bit01 (s.mig n).link = s.arg.idx then s.migEnd n 3 0 4 else s)

/-- A gang is removed at the package level (R389, R411): its node goes to FAULTED with ERR = 4. One that has not started gives up its
rectangle at once. -/
def State.removeGang (s : State) (gid : Nat) : State :=
  match s.gangs.find? gid with
  | none => s
  | some g =>
    if g.starting && g.restored then s.restoreFail gid g 4
    else if g.starting then
      let drop (k : Core) : Core := { k with queues := k.queues.map fun (q : List Cmd) => q.filter fun x => x.gang != gid }
      (({ s with cores := s.cores.mapV drop }.releaseGang gid g).status g.die g.node 5 (some 4) none false .none)
    else
      let s1 := (s.modGang gid fun g => { g with ended := 2 }).dropVictim gid g.die
      ((s.strandsOf gid).foldl (fun s (n, _) => s.removeStrand n) s1).pokeGang gid

/-- Whether an event brings a message over an edge that has failed: a stream command or an `SBIND` to its unit, a shoot-down, or a migrating
context (R411). What else crosses an edge meets the failure where it arrives. -/
def State.lost (s : State) (d : Due) : Bool :=
  let a := d.arg
  match d.ev with
  | .streamRecord | .sourceWatermark | .sourceIdle => a.n != 0 && s.cut (a.n - 1) (streamStop a.die)
  | .stateNotice => a.n == 1 && ((s.die a.die).sbinds.find? a.id).any fun b => s.cut b.core (streamStop a.die)
  | .shootdown => s.cut (s.strand a.sub).core a.id
  | .migrationArrival => s.cut (s.strand a.id).core a.idx
  | _ => false

/-- Messages on their way over a failed edge are discarded (R411). -/
def State.dropLost (s : State) : State :=
  let gone (m : Msg) : Bool := !m.arrived && s.cut (s.strand m.strand).core (if m.kind = 3 then s.fillCore m.target else m.target)
  { s with msgs := s.msgs.filter fun e => !gone e.2, cal := s.cal.filter fun d => !s.lost d }

/-- The edge between dies `arg.id` and `arg.idx` fails (R411): the package containment interrupt is raised, and every placed gang is
removed. With `arg.flag` an access of gang `arg.id` would have crossed a failed edge. -/
def execDieEdgeFailure (s : State) : Out :=
  if s.arg.flag then .next (s.removeGang s.arg.id)
  else
    let e := (min s.arg.id s.arg.idx, max s.arg.id s.arg.idx)
    let s1 := (s.modPkg fun p => { p with failedEdges := if p.failedEdges.contains e then p.failedEdges else p.failedEdges ++ [e] }).irq 0
    .next ((s.gangs.map (·.1)).foldl (fun s g => s.removeGang g) s1.dropLost)

/-! ### Thermidor (R447) -/

/-- A die's clock after a step of Thermidor (R447). -/
def Die.stepped (d : Die) : Die :=
  if decide (d.tgt.toNat * 8 < d.tmax) || decide (d.pcap.toNat < d.pwr) then { d with fmhz := max 800 (d.fmhz - 100) }
  else { d with fmhz := min 1600 (d.fmhz + 100) }

/-- TMAX of a die changes, and fires triggers on it (R447, R449). -/
def State.heat (s : State) (die t : Nat) : State :=
  (s.modDie die fun x => { x with tmax := t }).crossed die 2 (s.die die).tmax t

/-- With `arg.flag2`, the step of Thermidor on die `arg.die` that every 16,000th cycle of the die makes (R447). Otherwise the monitors of the
die are read: the hottest is at `arg.n` in units of 0.125 °C, and the power is `arg.id` W. A reading that reaches 115 °C or 125 °C has the
effects stated for it. (DESIGN CHOICE, log 1) -/
def execThermidorStep (s : State) : Out :=
  let a := s.arg
  let d := s.die a.die
  if a.flag2 then .next (s.modDie a.die Die.stepped)
  else
    let t := a.n % 2 ^ 12
    let p := a.id % 2 ^ 16
    let s1 := ((s.modDie a.die fun x => { x with pwr := p }).crossed a.die 1 d.pwr p).heat a.die t
    let s2 := if decide (d.tmax < 920) && decide (920 ≤ t) then s1.at_ s.now rankWork .criticalTemperature { die := a.die } else s1
    .next (if decide (d.tmax < 1000) && decide (1000 ≤ t) then s2.at_ s.now rankWork .thermalStop { die := a.die } else s2)

/-- A monitor of die `arg.die` has reached 115 °C (R447), which TMAX shows. -/
def execCriticalTemperature (s : State) : Out :=
  .next (((s.modDie s.arg.die fun x => { x with fmhz := 800 }).heat s.arg.die (max (s.die s.arg.die).tmax 920)).irq 2)

/-- Every core stops issuing and the dispatchers stop placing (R447, R453). -/
def State.halt (s : State) : State := { s with issueQ := [] }.modPkg fun p => { p with halted := true }

/-- A monitor of die `arg.die` has reached 125 °C (R447), which TMAX shows: the package stops until a cold reset, and its stacks are accessed
no more. -/
def execThermalStop (s : State) : Out :=
  .next (((s.heat s.arg.die (max (s.die s.arg.die).tmax 1000)).halt.modPkg fun p => { p with thermal := true }).irq 2)

end Sys2Proof.Machine
end

