-- ==== Sys2Proof/Machine/IvMath.lean ====
section
/-! DEFINITION. Intervals: the classes of R69, real sets with open and closed ends, the enclosure of R139, the forward
operations of R143 and the projections of R147 and R148. -/

namespace Sys2Proof.Machine

/-! ### Ends and segments -/

/-- An end of a real set: a real, or unbounded. -/
inductive End where
  | ninf | fin (r : Rat) | pinf
  deriving DecidableEq, Repr

/-- Order of ends. -/
def End.le : End → End → Bool
  | .ninf, _ | _, .pinf => true
  | .fin a, .fin b => decide (a ≤ b)
  | _, _ => false

/-- Strict order of ends. -/
def End.lt (a b : End) : Bool := !End.le b a

/-- A set of reals between two ends; an end that is a real belongs to it when it is closed. -/
structure Seg where
  lo : End
  lc : Bool
  hi : End
  hc : Bool
  deriving DecidableEq, Repr

/-- Whether a segment holds a real. -/
def Seg.some? (s : Seg) : Bool :=
  match s.lo, s.hi with
  | .fin a, .fin b => decide (a < b) || (decide (a = b) && s.lc && s.hc)
  | .pinf, _ | _, .ninf => false
  | _, _ => true

/-- The greater of two lower ends with its closure. -/
def maxLo (a : End) (ac : Bool) (b : End) (bc : Bool) : End × Bool :=
  if End.lt a b then (b, bc) else if End.lt b a then (a, ac) else (a, ac && bc)
/-- The lesser of two upper ends with its closure. -/
def minHi (a : End) (ac : Bool) (b : End) (bc : Bool) : End × Bool :=
  if End.lt a b then (a, ac) else if End.lt b a then (b, bc) else (a, ac && bc)
/-- The lesser of two lower ends with its closure. -/
def minLo (a : End) (ac : Bool) (b : End) (bc : Bool) : End × Bool :=
  if End.lt a b then (a, ac) else if End.lt b a then (b, bc) else (a, ac || bc)
/-- The greater of two upper ends with its closure. -/
def maxHi (a : End) (ac : Bool) (b : End) (bc : Bool) : End × Bool :=
  if End.lt a b then (b, bc) else if End.lt b a then (a, ac) else (a, ac || bc)

/-- Intersection. -/
def Seg.meet (s t : Seg) : Seg :=
  let l := maxLo s.lo s.lc t.lo t.lc
  let h := minHi s.hi s.hc t.hi t.hc
  ⟨l.1, l.2, h.1, h.2⟩

/-- The least segment around two. -/
def Seg.hull2 (s t : Seg) : Seg :=
  let l := minLo s.lo s.lc t.lo t.lc
  let h := maxHi s.hi s.hc t.hi t.hc
  ⟨l.1, l.2, h.1, h.2⟩

/-- The least segment around the nonempty ones of a list. -/
def hull (l : List Seg) : Option Seg :=
  match l.filter Seg.some? with
  | [] => none
  | s :: t => some (t.foldl Seg.hull2 s)

/-- All reals. -/
def Seg.all : Seg := ⟨.ninf, false, .pinf, false⟩
/-- The positive reals. -/
def Seg.pos : Seg := ⟨.fin 0, false, .pinf, false⟩
/-- The negative reals. -/
def Seg.neg : Seg := ⟨.ninf, false, .fin 0, false⟩
/-- The reals from 0 on. -/
def Seg.nonneg : Seg := ⟨.fin 0, true, .pinf, false⟩
/-- The reals up to 0. -/
def Seg.nonpos : Seg := ⟨.ninf, false, .fin 0, true⟩

/-- Whether 0 belongs to a segment. -/
def Seg.has0 (s : Seg) : Bool := (s.meet ⟨.fin 0, true, .fin 0, true⟩).some?

/-- Negation of an end. -/
def End.neg : End → End
  | .ninf => .pinf
  | .pinf => .ninf
  | .fin a => .fin (-a)
/-- Negation of a set. -/
def Seg.negate (s : Seg) : Seg := ⟨s.hi.neg, s.hc, s.lo.neg, s.lc⟩

/-- Sum of two ends of one side, of which `inf` is the unbounded one. -/
def endAdd (inf : End) : End → End → End
  | .fin a, .fin b => .fin (a + b)
  | _, _ => inf
/-- Sum of two nonempty sets. -/
def Seg.add (s t : Seg) : Seg := ⟨endAdd .ninf s.lo t.lo, s.lc && t.lc, endAdd .pinf s.hi t.hi, s.hc && t.hc⟩
/-- Difference of two nonempty sets. -/
def Seg.sub (s t : Seg) : Seg := s.add t.negate

/-- An end with its closure. -/
structure Corner where
  v : End
  c : Bool

/-- Product of two ends: 0 × ∞ is 0, the limit of products beside it. It is attained when both ends are, or when an attained
end is 0. -/
def Corner.mul (a b : Corner) : Corner :=
  let zero (x : Corner) : Bool := x.c && x.v == .fin 0
  ⟨match a.v, b.v with
    | .fin x, .fin y => .fin (x * y)
    | .fin x, inf | inf, .fin x => if x = 0 then .fin 0 else if x < 0 then inf.neg else inf
    | .pinf, .pinf | .ninf, .ninf => .pinf
    | _, _ => .ninf,
   (a.c && b.c) || zero a || zero b⟩

/-- Product of two nonempty sets: its ends are the extreme corner products. -/
def Seg.mul (s t : Seg) : Seg :=
  let a : Corner := ⟨s.lo, s.lc⟩
  let b : Corner := ⟨s.hi, s.hc⟩
  let c : Corner := ⟨t.lo, t.lc⟩
  let d : Corner := ⟨t.hi, t.hc⟩
  let ps := [a.mul d, b.mul c, b.mul d]
  let p := a.mul c
  let l := ps.foldl (fun m x => minLo m.1 m.2 x.v x.c) (p.v, p.c)
  let h := ps.foldl (fun m x => maxHi m.1 m.2 x.v x.c) (p.v, p.c)
  ⟨l.1, l.2, h.1, h.2⟩

/-- Reciprocal of an end of a set of positive reals: 0 and +∞ change places. -/
def endInv : End → End
  | .fin a => if a = 0 then .pinf else .fin (1 / a)
  | _ => .fin 0
/-- Reciprocals of a nonempty set of positive reals. -/
def Seg.inv (s : Seg) : Seg := ⟨endInv s.hi, s.hc && s.hi != .pinf, endInv s.lo, s.lc && s.lo != .fin 0⟩

/-- Quotients x ÷ y with y ≠ 0 (R143, R147): one segment for the positive and one for the negative y. -/
def quotients (x y : Seg) : List Seg :=
  let yp := y.meet Seg.pos
  let yn := y.negate.meet Seg.pos
  (if x.some? && yp.some? then [x.mul yp.inv] else []) ++ (if x.some? && yn.some? then [(x.mul yn.inv).negate] else [])

/-- Squares. -/
def Seg.sqr (s : Seg) : Seg :=
  let p := s.meet Seg.nonneg
  let n := s.negate.meet Seg.nonneg
  let sq (e : End) : End := match e with | .fin a => .fin (a * a) | _ => .pinf
  let one (t : Seg) : Seg := ⟨sq t.lo, t.lc, sq t.hi, t.hc⟩
  (hull ((if p.some? then [one p] else []) ++ (if n.some? then [one n] else []))).getD s

/-- Minimum or maximum of two nonempty sets, end by end. -/
def Seg.max (s t : Seg) : Seg :=
  let l := maxLo s.lo s.lc t.lo t.lc
  let h := maxHi s.hi s.hc t.hi t.hc
  ⟨l.1, l.2, h.1, h.2⟩
/-- Minimum of two nonempty sets. -/
def Seg.min (s t : Seg) : Seg := (s.negate.max t.negate).negate
/-- max(x, 0). -/
def Seg.relu (s : Seg) : Seg := s.max ⟨.fin 0, true, .fin 0, true⟩

/-! ### F32 ends -/

/-- The real that a finite F32 value is. -/
def ratOf (neg : Bool) (m : Nat) (e : Int) : Rat :=
  let r : Rat := if 0 ≤ e then (m : Rat) * (2 ^ e.toNat : Nat) else mkRat m (2 ^ (-e).toNat)
  if neg then -r else r

/-- The end that an F32 pattern stands for; a NaN never stands for one. -/
def endOf (bits : Nat) : End :=
  match FF.f32.val bits with
  | .inf neg => if neg then .ninf else .pinf
  | .fin neg m e => .fin (ratOf neg m e)
  | .nan _ => .fin 0

/-- A rational rounded to F32. -/
def ratRound (rm : RM) (r : Rat) : Nat :=
  let (m, e) := divBits r.num.natAbs r.den 0 0
  (FF.f32.round rm false (decide (r.num < 0)) m e).bits

/-- `RoundDown` of a lower end (R139): a zero is −0. -/
def roundLo : End → Nat
  | .ninf => FF.f32.infBits true
  | .pinf => FF.f32.infBits false
  | .fin r =>
    let b := if r = 0 then 0 else ratRound .rdn r
    if b % 2 ^ 31 = 0 then 2 ^ 31 else b
/-- `RoundUp` of an upper end (R139): a zero is +0. -/
def roundHi : End → Nat
  | .ninf => FF.f32.infBits true
  | .pinf => FF.f32.infBits false
  | .fin r =>
    let b := if r = 0 then 0 else ratRound .rup r
    if b % 2 ^ 31 = 0 then 0 else b

/-! ### Intervals (R69) -/

/-- An interval operand as R138 reads it: NaI, EMPTY, or canonical bounds as F32 patterns. -/
inductive Iv where
  | nai | empty | iv (lo hi : Nat)
  deriving DecidableEq, Repr

/-- The pattern of NaI (R69). -/
def naiBits : Nat := 0x7FC000007FC00000
/-- The pattern of EMPTY (R69). -/
def emptyBits : Nat := 0xFF8000007F800000

/-- The pattern of an interval (R69). -/
def Iv.bits : Iv → Nat
  | .nai => naiBits
  | .empty => emptyBits
  | .iv lo hi => hi * 2 ^ 32 + lo

/-- A canonical interval of two bounds, with its zeros as R69 writes them. -/
def ivOf (lo hi : Nat) : Iv :=
  .iv (if lo % 2 ^ 31 = 0 then 2 ^ 31 else lo) (if hi % 2 ^ 31 = 0 then 0 else hi)

/-- Whether two F32 patterns can be the bounds of an interval (R69, R140). -/
def boundsOk (lo hi : Nat) : Bool :=
  let a := FF.f32.val lo
  let b := FF.f32.val hi
  !a.isNan && !b.isNan && !fCmpLt b a && a != .inf false && b != .inf true

/-- How a pattern is read (R69, R138): its interval, and whether it is non-canonical. -/
def ivRead (v : Nat) : Iv × Bool :=
  let lo := v % 2 ^ 32
  let hi := v / 2 ^ 32 % 2 ^ 32
  if v = naiBits then (.nai, false)
  else if v = emptyBits then (.empty, false)
  else if boundsOk lo hi then (ivOf lo hi, false)
  else (.nai, true)

/-- The reals of a canonical interval. -/
def segOf (lo hi : Nat) : Seg :=
  let l := endOf lo
  let h := endOf hi
  ⟨l, l != .ninf, h, h != .pinf⟩

/-- `Enc` (R139). -/
def enc (s : Option Seg) : Iv :=
  match s with
  | none => .empty
  | some s => if s.some? then .iv (roundLo s.lo) (roundHi s.hi) else .empty

/-! ### Functions whose bounds may lie an ulp outside (R70, R139) -/

/-- The pattern one ulp below. -/
def ulpDown (b : Nat) : Nat :=
  if b = FF.f32.infBits true then b
  else if b % 2 ^ 31 = 0 then 2 ^ 31 + 1
  else if b / 2 ^ 31 % 2 = 1 then b + 1 else b - 1
/-- The pattern one ulp above. -/
def ulpUp (b : Nat) : Nat :=
  if b = FF.f32.infBits false then b
  else if b % 2 ^ 31 = 0 then 1
  else if b / 2 ^ 31 % 2 = 1 then b - 1 else b + 1

/-- A bound as an F32 pattern, and whether it is the exact one. -/
structure Bound where
  bits : Nat
  exact : Bool

/-- A rounded result as a bound. -/
def boundOf (r : FR) : Bound := ⟨r.bits, r.fl &&& fNX == 0⟩
/-- The unbounded bound below, or above. -/
def infBound (neg : Bool) : Bound := ⟨FF.f32.infBits neg, true⟩
/-- The bound 0. -/
def zeroBound : Bound := ⟨0, true⟩

/-- The bound of e^x for a bound of x, rounded outward. -/
def expBound (up : Bool) (x : Nat) : Bound :=
  match FF.f32.val x with
  | .inf neg => if neg then zeroBound else infBound false
  | .fin neg m e => boundOf (FF.f32.expV (if up then .rup else .rdn) neg m e)
  | .nan _ => zeroBound
/-- The bound of ln x for a bound of x, rounded outward; −∞ for 0 and below. -/
def lnBound (up : Bool) (x : Nat) : Bound :=
  match FF.f32.val x with
  | .inf neg => infBound neg
  | .fin neg m e => if neg || m = 0 then infBound true else boundOf (FF.f32.lnV (if up then .rup else .rdn) m e)
  | .nan _ => zeroBound
/-- The bound of √x for a bound of x, rounded outward; 0 for 0 and below. -/
def sqrtBound (up : Bool) (x : Nat) : Bound :=
  match FF.f32.val x with
  | .inf neg => if neg then zeroBound else infBound false
  | .fin neg m e =>
    if neg || m = 0 then zeroBound else boundOf (FF.f32.sqrtV { rm := if up then .rup else .rdn } (.fin false m e))
  | .nan _ => zeroBound

/-- A lower bound, moved an ulp outward where it is not exact and the slack is taken. (DESIGN CHOICE, log 20) -/
def slackLo (op x z : Nat) (b : Bound) : Nat := if !b.exact && Config.slack op false x z then ulpDown b.bits else b.bits
/-- The same for an upper bound. (DESIGN CHOICE, log 20) -/
def slackHi (op x z : Nat) (b : Bound) : Nat := if !b.exact && Config.slack op true x z then ulpUp b.bits else b.bits

/-- The set between two bounds; an end that is not exact lies outside it. -/
def boundSeg (l h : Bound) : Seg :=
  let s := segOf l.bits h.bits
  { s with lc := s.lc && l.exact, hc := s.hc && h.exact }

/-! ### Operations (R138, R143) -/

/-- The result of an interval instruction: the interval written and the sticky bits it sets. -/
structure IvR where
  v : Iv
  ni : Bool := false
  em : Bool := false
  deriving DecidableEq, Repr

/-- An operation on one operand (R138). -/
def ivOp1 (x : Nat) (f : Nat → Nat → Iv) : IvR :=
  let (a, n) := ivRead x
  match a with
  | .nai => ⟨.nai, n, false⟩
  | .empty => ⟨.empty, n, false⟩
  | .iv lo hi => let r := f lo hi; ⟨r, n, r == .empty⟩

/-- An operation on two operands (R138). -/
def ivOp2 (x y : Nat) (f : Nat × Nat → Nat × Nat → Iv) : IvR :=
  let (a, n) := ivRead x
  let (b, m) := ivRead y
  match a, b with
  | .nai, _ | _, .nai => ⟨.nai, n || m, false⟩
  | .empty, _ | _, .empty => ⟨.empty, n || m, false⟩
  | .iv l1 h1, .iv l2 h2 => let r := f (l1, h1) (l2, h2); ⟨r, n || m, r == .empty⟩

/-- An operation whose real set is one segment of both operands' reals. -/
def ivSeg2 (f : Seg → Seg → Option Seg) (a b : Nat × Nat) : Iv := enc (f (segOf a.1 a.2) (segOf b.1 b.2))

/-- `IADD` (R143). -/
def ivAdd (x y : Nat) : IvR := ivOp2 x y (ivSeg2 fun a b => some (a.add b))
/-- `ISUB`. -/
def ivSub (x y : Nat) : IvR := ivOp2 x y (ivSeg2 fun a b => some (a.sub b))
/-- `IMUL`. -/
def ivMul (x y : Nat) : IvR := ivOp2 x y (ivSeg2 fun a b => some (a.mul b))
/-- `IDIV`. -/
def ivDiv (x y : Nat) : IvR := ivOp2 x y (ivSeg2 fun a b => hull (quotients a b))
/-- `IMIN`. -/
def ivMin (x y : Nat) : IvR := ivOp2 x y (ivSeg2 fun a b => some (a.min b))
/-- `IMAX`. -/
def ivMax (x y : Nat) : IvR := ivOp2 x y (ivSeg2 fun a b => some (a.max b))
/-- `IHULL`. -/
def ivHull (x y : Nat) : IvR := ivOp2 x y (ivSeg2 fun a b => some (a.hull2 b))
/-- `IMEET`. -/
def ivMeet (x y : Nat) : IvR := ivOp2 x y (ivSeg2 fun a b => some (a.meet b))
/-- `ISQR`. -/
def ivSqr (x : Nat) : IvR := ivOp1 x fun lo hi => enc (some (segOf lo hi).sqr)
/-- `IRELU`. -/
def ivRelu (x : Nat) : IvR := ivOp1 x fun lo hi => enc (some (segOf lo hi).relu)
/-- `IMOV` (R141). -/
def ivMove (x : Nat) : IvR := { v := (ivRead x).1, ni := (ivRead x).2 }

/-- `ISQRT`: EMPTY when the upper bound is below 0 (R143). -/
def ivSqrt (x : Nat) : IvR :=
  ivOp1 x fun lo hi =>
    if End.lt (endOf hi) (.fin 0) then .empty
    else ivOf (slackLo 2 x 0 (sqrtBound false lo)) (slackHi 2 x 0 (sqrtBound true hi))
/-- `IEXP`. -/
def ivExp (x : Nat) : IvR :=
  ivOp1 x fun lo hi => ivOf (slackLo 0 x 0 (expBound false lo)) (slackHi 0 x 0 (expBound true hi))
/-- `ILOG`: EMPTY when the upper bound is 0 or below (R143). -/
def ivLog (x : Nat) : IvR :=
  ivOp1 x fun lo hi =>
    if End.le (endOf hi) (.fin 0) then .empty
    else ivOf (slackLo 1 x 0 (lnBound false lo)) (slackHi 1 x 0 (lnBound true hi))

/-- `ISCALE` (R144): the scalar is an F32 pattern. -/
def ivScale (x s : Nat) : IvR :=
  let (a, n) := ivRead x
  match a with
  | .nai => ⟨.nai, n, false⟩
  | .empty => ⟨.empty, n, false⟩
  | .iv lo hi =>
    match FF.f32.val s with
    | .fin neg m e =>
      let t := End.fin (ratOf neg m e)
      ⟨enc (some ((segOf lo hi).mul ⟨t, true, t, true⟩)), n, false⟩
    | _ => ⟨.nai, true, false⟩

/-- `IMAKE` (R140): two F32 patterns. -/
def ivMake (lo hi : Nat) : IvR := if boundsOk lo hi then { v := ivOf lo hi } else { v := .nai, ni := true }

/-! ### Reading intervals (R142) -/

/-- The default NaN of F32. -/
def nan32 : Nat := 0x7FC00000

/-- `ILO` (R142). -/
def ivLo (x : Nat) : Nat :=
  match (ivRead x).1 with
  | .nai => nan32
  | .empty => 0x7F800000
  | .iv lo _ => lo
/-- `IHI`. -/
def ivHi (x : Nat) : Nat :=
  match (ivRead x).1 with
  | .nai => nan32
  | .empty => 0xFF800000
  | .iv _ hi => hi
/-- `IWID`. -/
def ivWid (x : Nat) : Nat :=
  match (ivRead x).1 with
  | .nai | .empty => nan32
  | .iv lo hi =>
    match endOf lo, endOf hi with
    | .fin a, .fin b => if a = b then 0 else ratRound .rup (b - a)
    | _, _ => 0x7F800000
/-- `IMID`: a zero is +0. -/
def ivMid (x : Nat) : Nat :=
  match (ivRead x).1 with
  | .nai | .empty => nan32
  | .iv lo hi =>
    match endOf lo, endOf hi with
    | .fin a, .fin b =>
      let r := if a + b = 0 then 0 else ratRound .rne ((a + b) / 2)
      if r % 2 ^ 31 = 0 then 0 else r
    | .ninf, .fin _ => 0xFF7FFFFF
    | .fin _, .pinf => 0x7F7FFFFF
    | _, _ => 0

/-! ### Comparison (R145) -/

/-- `ICMP` (R145): three-valued; an operand read as NaI gives U. -/
def ivCmp (c : ICond) (x y : Iv) : Tri :=
  let tf (b : Bool) : Tri := if b then .t else .f
  match c, x, y with
  | .emp, .nai, _ => .u
  | .emp, .empty, _ => .t
  | .emp, _, _ => .f
  | _, .nai, _ | _, _, .nai => .u
  | .sub _ _, .empty, _ => .t
  | .sub _ _, _, .empty => .f
  | .dis _ _, .empty, _ | .dis _ _, _, .empty => .t
  | _, .empty, _ | _, _, .empty => .u
  | .lt _ _, .iv a1 a2, .iv b1 b2 =>
    if End.lt (endOf a2) (endOf b1) then .t else if End.le (endOf b2) (endOf a1) then .f else .u
  | .le _ _, .iv a1 a2, .iv b1 b2 =>
    if End.le (endOf a2) (endOf b1) then .t else if End.lt (endOf b2) (endOf a1) then .f else .u
  | .eq _ _, .iv a1 a2, .iv b1 b2 =>
    if endOf a1 == endOf a2 && endOf a2 == endOf b1 && endOf b1 == endOf b2 then .t
    else if End.lt (endOf a2) (endOf b1) || End.lt (endOf b2) (endOf a1) then .f else .u
  | .sub _ _, .iv a1 a2, .iv b1 b2 => tf (End.le (endOf b1) (endOf a1) && End.le (endOf a2) (endOf b2))
  | .dis _ _, .iv a1 a2, .iv b1 b2 => tf (End.lt (endOf a2) (endOf b1) || End.lt (endOf b2) (endOf a1))

/-! ### Contractors (R147-R150) -/

/-- The relations of R147. -/
inductive Rel where
  | add | sub | mul | div | sqr | exp | relu | max
  deriving DecidableEq, Repr

/-- Whether a relation has a y operand. -/
def Rel.binary : Rel → Bool
  | .add | .sub | .mul | .div | .max => true
  | _ => false

/-- The part of `v` that lies in one of some sets. -/
def within (v : Seg) (l : List Seg) : Option Seg := hull (l.map v.meet)

/-- Solutions v of v × y ∈ z for some y (R148). -/
def factors (z y : Seg) : List Seg := if y.has0 && z.has0 then [Seg.all] else quotients z y

/-- Solutions v ≠ 0 of x = z × v, for the y step of `CDIV`. -/
def divisors (x z : Seg) : List Seg :=
  if x.has0 && z.has0 then [Seg.pos, Seg.neg]
  else [x.meet Seg.pos, x.meet Seg.neg].flatMap fun p => quotients p z

/-- v with max(v, y) ∈ z for some y: v itself, or v below an attained y. -/
def maxArgs (z y : Seg) : List Seg :=
  let zy := z.meet y
  z.meet { y with hi := .pinf, hc := false } :: (if zy.some? then [{ zy with lo := .ninf, lc := false }] else [])

/-- The x step's set (R148), within x. -/
def projX (r : Rel) (x y z : Seg) : Option Seg :=
  match r with
  | .add => within x [z.sub y]
  | .sub => within x [z.add y]
  | .mul => within x (factors z y)
  | .div =>
    within x ([y.meet Seg.pos, y.meet Seg.neg].flatMap fun p => if p.some? then [z.mul p] else [])
  | .relu => within x (z.meet Seg.nonneg :: (if z.has0 then [Seg.nonpos] else []))
  | .max => within x (maxArgs z y)
  | .sqr | .exp => some x

/-- The y step's set (R148), within y. -/
def projY (r : Rel) (x y z : Seg) : Option Seg :=
  match r with
  | .add => within y [z.sub x]
  | .sub => within y [x.sub z]
  | .mul => within y (factors z x)
  | .div => within y (divisors x z)
  | .max => within y (maxArgs z x)
  | .sqr | .exp | .relu => some y

/-- The z step's set (R148), within z. -/
def projZ (r : Rel) (x y z : Seg) : Option Seg :=
  match r with
  | .add => within z [x.add y]
  | .sub => within z [x.sub y]
  | .mul => within z [x.mul y]
  | .div => within z (quotients x y)
  | .sqr => within z [x.sqr]
  | .relu => within z [x.relu]
  | .max => within z [x.max y]
  | .exp => some z

/-- The projection of a bound of `v` onto an enclosure whose bounds may have slack (R139): emptiness is that of the exact set,
and the result never leaves `v`. -/
def meetBounds (v : Nat × Nat) (l h : Bound) (lo hi : Nat) : Iv :=
  if ((segOf v.1 v.2).meet (boundSeg l h)).some? then
    ivOf (if End.lt (endOf lo) (endOf v.1) then v.1 else lo) (if End.lt (endOf v.2) (endOf hi) then v.2 else hi)
  else .empty

/-- The x step of `CSQR`: v with v² ∈ z, from the two signs of v. -/
def sqrX (x z : Nat × Nat) : Iv :=
  if End.lt (endOf z.2) (.fin 0) then .empty
  else
    let s := boundSeg (sqrtBound false z.1) (sqrtBound true z.2)
    enc (within (segOf x.1 x.2) [s, s.negate])

/-- The x step of `CEXP`: ln of the positive part of z. -/
def expX (x z : Nat × Nat) : Iv :=
  if End.le (endOf z.2) (.fin 0) then .empty
  else
    let l := lnBound false z.1
    let h := lnBound true z.2
    meetBounds x l h (slackLo 3 (x.2 * 2 ^ 32 + x.1) (z.2 * 2 ^ 32 + z.1) l) (slackHi 3 (x.2 * 2 ^ 32 + x.1) (z.2 * 2 ^ 32 + z.1) h)

/-- The z step of `CEXP`. 0 is the limit of e^x, never its value. -/
def expZ (x z : Nat × Nat) : Iv :=
  let l := expBound false x.1
  let h := expBound true x.2
  let l1 : Bound := if endOf x.1 = .ninf then { l with exact := false } else l
  meetBounds z l1 h (slackLo 4 (x.2 * 2 ^ 32 + x.1) (z.2 * 2 ^ 32 + z.1) l) (slackHi 4 (x.2 * 2 ^ 32 + x.1) (z.2 * 2 ^ 32 + z.1) h)

/-- A step of a contractor on canonical operands (R148): 0 x, 1 y, 2 z. -/
def stepOf (r : Rel) (n : Nat) (x y z : Nat × Nat) : Iv :=
  let sx := segOf x.1 x.2
  let sy := segOf y.1 y.2
  let sz := segOf z.1 z.2
  match r, n with
  | .sqr, 0 => sqrX x z
  | .exp, 0 => expX x z
  | .exp, 2 => expZ x z
  | _, 0 => enc (projX r sx sy sz)
  | _, 1 => enc (projY r sx sy sz)
  | _, _ => enc (projZ r sx sy sz)

/-- Which operands of a contractor share a register (R149). -/
structure Shared where
  xy : Bool := false
  xz : Bool := false
  yz : Bool := false

/-- The operands of a contractor while its steps run. -/
structure Boxes where
  x : Nat × Nat
  y : Nat × Nat
  z : Nat × Nat

/-- Writes an operand, and every other one in the same register (R149). -/
def Boxes.put (b : Boxes) (s : Shared) (n : Nat) (v : Nat × Nat) : Boxes :=
  match n with
  | 0 => ⟨v, if s.xy then v else b.y, if s.xz then v else b.z⟩
  | 1 => ⟨if s.xy then v else b.x, v, if s.yz then v else b.z⟩
  | _ => ⟨if s.xz then v else b.x, if s.yz then v else b.y, v⟩

/-- Runs steps in order; `none` with the operand's number when one produces EMPTY. (DEDUCED, log 21) -/
def runSteps (r : Rel) (s : Shared) : List Nat → Boxes → Except Nat Boxes
  | [], b => .ok b
  | n :: t, b =>
    match stepOf r n b.x b.y b.z with
    | .iv lo hi => runSteps r s t (b.put s n (lo, hi))
    | _ => .error n

/-- A contractor's result: the operands after it, the sticky bits, and the operand whose step produced EMPTY. -/
structure CtrR where
  x : Nat
  y : Nat
  z : Nat
  ni : Bool
  em : Bool
  np : Bool
  which : Nat := 0
  deriving DecidableEq, Repr

/-- `ord` of an F32 pattern (R72). -/
def ordOf (b : Nat) : Int := if b / 2 ^ 31 % 2 = 1 then -((b % 2 ^ 31 : Nat) : Int) else (b % 2 ^ 31 : Nat)
/-- Whether an F32 pattern is infinite. -/
def isInf (b : Nat) : Bool := b % 2 ^ 31 == 0x7F800000
/-- Whether a bound moves by more than `nth` ulps (R72). -/
def movedBound (nth old new : Nat) : Bool :=
  decide ((nth : Int) < ((ordOf old - ordOf new).natAbs : Int)) || isInf old != isInf new
/-- Whether an operand moves, or becomes EMPTY (R150). -/
def moved (nth : Nat) (old new : Iv) : Bool :=
  match old, new with
  | .empty, .empty => false
  | _, .empty => true
  | .iv a b, .iv c d => movedBound nth a c || movedBound nth b d
  | _, _ => false

/-- A contractor on three patterns (R147-R150); `noZ` is lz = 1. The operands it does not write keep their patterns, unless
they share a register with one it writes. -/
def contract (r : Rel) (s : Shared) (noZ : Bool) (nth x y z : Nat) : CtrR :=
  let (a, n1) := ivRead x
  let (b, n2) := if r.binary then ivRead y else (Iv.iv 0 0, false)
  let (c, n3) := ivRead z
  let ni := n1 || n2 || n3
  let writesY := r.binary
  let writesZ := !noZ
  -- all written operands take one value
  let all (v : Iv) (em : Bool) (which : Nat) : CtrR :=
    let np := v == .empty && (moved nth a v || (writesY && moved nth b v) || (writesZ && moved nth c v))
    let zs := writesZ || s.xz || (writesY && s.yz)
    { x := v.bits, y := if writesY then v.bits else y, z := if zs then v.bits else z, ni := ni, em := em, np := np
      which := which }
  match a, b, c with
  | .nai, _, _ | _, .nai, _ | _, _, .nai => all .nai false 0
  | .empty, _, _ | _, .empty, _ | _, _, .empty => all .empty false 0
  | .iv xl xh, .iv yl yh, .iv zl zh =>
    let steps := [0] ++ (if writesY then [1] else []) ++ (if writesZ then [2] else [])
    match runSteps r s steps ⟨(xl, xh), (yl, yh), (zl, zh)⟩ with
    | .error n => all .empty true n
    | .ok t =>
      let fx := Iv.iv t.x.1 t.x.2
      let fy := Iv.iv t.y.1 t.y.2
      let fz := Iv.iv t.z.1 t.z.2
      let zs := writesZ || s.xz || (writesY && s.yz)
      { x := fx.bits, y := if writesY then fy.bits else y, z := if zs then fz.bits else z, ni := ni, em := false
        np := moved nth a fx || (writesY && moved nth b fy) || (writesZ && moved nth c fz) }

end Sys2Proof.Machine
end

