-- ==== Sys2Proof/Machine/Interval.lean ====
section
/-! DEFINITION. The scalar interval and contractor instructions (R136-R150). -/

namespace Sys2Proof.Machine

/-- Fault 0x51 (R73): operand and, for a vector form, element. -/
def emptyFault (elem operand : Nat) : Stop := .fault ⟨.emptyIv, 0, BitVec.ofNat 64 (elem * 16 + operand)⟩

/-- The strand retires with sticky bits of `ctl.ist` (R73), NP entering its gang's as well (R65); with TE set, producing EMPTY
raises fault 0x51 instead. -/
def retireIv (s : State) (c : Strand) (ni em np : Bool) (elem operand : Nat) : Except Stop State :=
  if em && istTe c.ctl.ist then .error (emptyFault elem operand)
  else .ok ((s.setCur (c.noteIst ni em np)).noteGang c.ident.gang 0 np)

/-- A binary interval instruction (R143). -/
def iv2 (o : OpIV2) (f : Nat → Nat → IvR) : State → Out :=
  run 4 fun s => do
    let c := s.cur
    let x ← readIv c o.a
    let y ← readIv c o.b
    needFree c (.iv o.d)
    let r := f x.toNat y.toNat
    retireIv s ((((c.markIv o.a o.la).markIv o.b o.lb).writeIv o.d (BitVec.ofNat 64 r.v.bits)).advance 4) r.ni r.em false 0 0

/-- A unary interval instruction (R143). -/
def iv1 (o : OpIV1) (f : Nat → IvR) : State → Out :=
  run 4 fun s => do
    let c := s.cur
    let x ← readIv c o.a
    needFree c (.iv o.d)
    let r := f x.toNat
    retireIv s (((c.markIv o.a o.la).writeIv o.d (BitVec.ofNat 64 r.v.bits)).advance 4) r.ni r.em false 0 0

/-- An instruction that reads one bound or measure of an interval (R142). -/
def ivToS (o : OpSIv) (f : Nat → Nat) : State → Out :=
  run 4 fun s => do
    let c := s.cur
    let x ← readIv c o.a
    needFree c (.s o.d)
    retireIv s (((c.markIv o.a o.la).writeS o.d (BitVec.ofNat 64 (f x.toNat))).advance 4) (ivRead x.toNat).2 false false 0 0

/-- `IADD` (R143). -/
def execIadd (o : OpIV2) (s : State) : Out := iv2 o ivAdd s
/-- `ISUB` (R143). -/
def execIsub (o : OpIV2) (s : State) : Out := iv2 o ivSub s
/-- `IMUL` (R143). -/
def execImul (o : OpIV2) (s : State) : Out := iv2 o ivMul s
/-- `IDIV` (R143). -/
def execIdiv (o : OpIV2) (s : State) : Out := iv2 o ivDiv s
/-- `ISQR` (R143). -/
def execIsqr (o : OpIV1) (s : State) : Out := iv1 o ivSqr s
/-- `ISQRT` (R143). -/
def execIsqrt (o : OpIV1) (s : State) : Out := iv1 o ivSqrt s
/-- `IEXP` (R143). -/
def execIexp (o : OpIV1) (s : State) : Out := iv1 o ivExp s
/-- `ILOG` (R143). -/
def execIlog (o : OpIV1) (s : State) : Out := iv1 o ivLog s
/-- `IRELU` (R143). -/
def execIrelu (o : OpIV1) (s : State) : Out := iv1 o ivRelu s
/-- `IMIN` (R143). -/
def execImin (o : OpIV2) (s : State) : Out := iv2 o ivMin s
/-- `IMAX` (R143). -/
def execImax (o : OpIV2) (s : State) : Out := iv2 o ivMax s
/-- `IHULL` (R143). -/
def execIhull (o : OpIV2) (s : State) : Out := iv2 o ivHull s
/-- `IMEET` (R143). -/
def execImeet (o : OpIV2) (s : State) : Out := iv2 o ivMeet s
/-- `IMOV` (R141). -/
def execImov (o : OpIV1) (s : State) : Out := iv1 o ivMove s
/-- `ILO` (R142). -/
def execIlo (o : OpSIv) (s : State) : Out := ivToS o ivLo s
/-- `IHI` (R142). -/
def execIhi (o : OpSIv) (s : State) : Out := ivToS o ivHi s
/-- `IWID` (R142). -/
def execIwid (o : OpSIv) (s : State) : Out := ivToS o ivWid s
/-- `IMID` (R142). -/
def execImid (o : OpSIv) (s : State) : Out := ivToS o ivMid s

/-- `IMAKE` (R140). -/
def execImake (d : IvReg) (a b : SReg) (la lb : Bool) (s : State) : Out :=
  run 4 (fun s => do
    let c := s.cur
    let x ← readS c a
    let y ← readS c b
    needFree c (.iv d)
    let r := ivMake (x.toNat % 2 ^ 32) (y.toNat % 2 ^ 32)
    retireIv s ((((c.markS a la).markS b lb).writeIv d (BitVec.ofNat 64 r.v.bits)).advance 4) r.ni false false 0 0) s

/-- `ISCALE` (R144). -/
def execIscale (d a : IvReg) (b : SReg) (la lb : Bool) (s : State) : Out :=
  run 4 (fun s => do
    let c := s.cur
    let x ← readIv c a
    let y ← readS c b
    needFree c (.iv d)
    let r := ivScale x.toNat (y.toNat % 2 ^ 32)
    retireIv s ((((c.markIv a la).markS b lb).writeIv d (BitVec.ofNat 64 r.v.bits)).advance 4) r.ni r.em false 0 0) s

/-- The second operand of `ICMP`, if the condition reads one, with its mark. -/
def icmpB : ICond → Option (IvReg × Bool)
  | .lt b l | .le b l | .eq b l | .sub b l | .dis b l => some (b, l)
  | .emp => none

/-- `ICMP` (R145). -/
def execIcmp (k : ICond) (qd : QReg) (a : IvReg) (la : Bool) (s : State) : Out :=
  run 4 (fun s => do
    let c := s.cur
    let x ← readIv c a
    let c1 := c.markIv a la
    match icmpB k with
    | none =>
      let (p, n) := ivRead x.toNat
      retireIv s ((c1.writeQ qd (ivCmp k p p)).advance 4) n false false 0 0
    | some (b, lb) =>
      let y ← readIv c b
      let (p, n) := ivRead x.toNat
      let (q, m) := ivRead y.toNat
      retireIv s (((c1.markIv b lb).writeQ qd (ivCmp k p q)).advance 4) (n || m) false false 0 0) s

/-- `NPQ` (R146). -/
def execNpq (qd : QReg) (s : State) : Out :=
  runStrand 4 (fun c => .ok ((c.writeQ qd (if istNp c.ctl.ist then .t else .f)).advance 4)) s

/-- A contractor instruction (R147-R150): `y` is read and written by the binary relations only, and under `lz` z is read, not
written, and becomes dead unless it shares a register with an operand that is written. -/
def ctr (r : Rel) (x y z : IvReg) (lz : Bool) : State → Out :=
  run 4 fun s => do
    let c := s.cur
    let vx ← readIv c x
    let vy ← if r.binary then readIv c y else .ok 0
    let vz ← readIv c z
    let sh : Shared := { xy := r.binary && x == y, xz := x == z, yz := r.binary && y == z }
    let t := contract r sh lz (istNth c.ctl.ist) vx.toNat vy.toNat vz.toNat
    let c1 := c.markIv z lz
    let c2 := c1.writeIv x (BitVec.ofNat 64 t.x)
    let c3 := if r.binary then c2.writeIv y (BitVec.ofNat 64 t.y) else c2
    let c4 := if lz then c3 else c3.writeIv z (BitVec.ofNat 64 t.z)
    retireIv s (c4.advance 4) t.ni t.em t.np 0 t.which

/-- `CADD` (R147). -/
def execCadd (o : OpIC3) (s : State) : Out := ctr .add o.x o.y o.z o.lz s
/-- `CSUB` (R147). -/
def execCsub (o : OpIC3) (s : State) : Out := ctr .sub o.x o.y o.z o.lz s
/-- `CMUL` (R147). -/
def execCmul (o : OpIC3) (s : State) : Out := ctr .mul o.x o.y o.z o.lz s
/-- `CDIV` (R147). -/
def execCdiv (o : OpIC3) (s : State) : Out := ctr .div o.x o.y o.z o.lz s
/-- `CSQR` (R147). -/
def execCsqr (o : OpIC2) (s : State) : Out := ctr .sqr o.x 0 o.z o.lz s
/-- `CEXP` (R147). -/
def execCexp (o : OpIC2) (s : State) : Out := ctr .exp o.x 0 o.z o.lz s
/-- `CRELU` (R147). -/
def execCrelu (o : OpIC2) (s : State) : Out := ctr .relu o.x 0 o.z o.lz s
/-- `CMAX` (R147). -/
def execCmax (o : OpIC3) (s : State) : Out := ctr .max o.x o.y o.z o.lz s

end Sys2Proof.Machine
end

