-- ==== Sys2Proof/Machine/System.lean ====
section
/-! DEFINITION. The system-only instructions (R52, R452, R453), and the snapshot's (R108, R450). -/

namespace Sys2Proof.Machine

/-- A system-only instruction raises fault 0x04 in user mode, with its own words (R50, R52). -/
def needSystem (c : Strand) (i : Instr) : Except Stop Unit :=
  if c.ident.system then .ok () else .error (.fault ⟨.priv, c.pc, encInfo (encode i)⟩)

/-- `TLBW` (R453): writes an entry of the core's TLB. The check of n follows R452. -/
def execTlbw (x : XReg) (a : SReg) (s : State) : Out :=
  run 4 (fun s => do
    let c := s.cur
    needSystem c (.tlbw x a)
    if 5 < x.toNat then throw (.fault ⟨.undef, c.pc, encInfo (encode (.tlbw x a))⟩)
    let v ← readS c a
    if 255 < v.toNat then throw (.fault ⟨.range, v, 0⟩)
    let e : TlbEntry := { tag := c.xVal x, leaf := c.xAt x 1, comp := c.xAt x 2 }
    .ok ((s.modCore c.core fun k => { k with tlb := k.tlb.set v.toNat e }).setCur (c.advance 4))) s

/-- Cores of the stack groups whose bits are set (R242, R453). -/
def groupCores (set : Nat) : List Nat := (List.range 768).filter fun c => set.testBit (groupBit c)

/-- The mode of a shoot-down. -/
def tlbiMode : TlbiMode → Nat
  | .va => 0 | .unl => 1 | .all => 2

/-- `TLBI` (R453): drains as `FENCE` does, sends a shoot-down to every core of the groups, and waits for the acknowledgements. -/
def execTlbi (a b : SReg) (m : TlbiMode) (s : State) : Out :=
  run 4 (fun s => do
    let c := s.cur
    needSystem c (.tlbi a b m)
    let v ← readS c a
    let w ← readS c b
    if w.toNat / 2 ^ 12 ≠ 0 then throw (.fault ⟨.range, w, 0⟩)
    release s .all do
      let cs := groupCores w.toNat
      if cs.isEmpty then .ok (s.setCur (c.advance 4))
      else
        let s1 := cs.foldl (init := s) fun s n =>
          s.at_ (s.now + latency c.core n) rankWork .shootdown
            { id := n, idx := tlbiMode m, sub := s.curId, v := BitVec.ofNat 64 (vpnOf v) }
        .ok (s1.setCur { c with wait := some { kind := .event, since := s.now, retire := { len := 4 }, info := BitVec.ofNat 64 cs.length
                                               len := 4 } })) s

/-- The checks of a `PRIVCTL` on its offset (R453). -/
def needReg (s : State) (v : Word) : Except Stop Word :=
  if v.toNat % 8 ≠ 0 then .error (.fault ⟨.align, v, 0⟩)
  else match s.reg v.toNat with
    | some w => .ok w
    | none => .error (.fault ⟨.range, v, 0⟩)

/-- `PRIVCTL.RD` (R453): an RC register is cleared by the read (R7). -/
def execPrivctlRd (d a : SReg) (s : State) : Out :=
  run 4 (fun s => do
    let c := s.cur
    needSystem c (.privctlRd d a)
    let v ← readS c a
    needFree c (.s d)
    let w ← needReg s v
    release s .all (.ok ((s.setCur ((c.writeS d w).advance 4)).regClear v.toNat))) s

/-- `PRIVCTL.WR` (R453): a release, with the effect of the host's write. -/
def execPrivctlWr (a b : SReg) (s : State) : Out :=
  run 4 (fun s => do
    let c := s.cur
    needSystem c (.privctlWr a b)
    let v ← readS c a
    let w ← readS c b
    let _ ← needReg s v
    release s .all
      (let t := s.setCur (c.advance 4)
       .ok ((t.regWrite v.toNat w {}).getD t))) s

/-- `SNAPT` (R453): fires the snapshot trigger. -/
def execSnapt (s : State) : Out :=
  run 4 (fun s => do
    let c := s.cur
    needSystem c .snapt
    .ok (s.setCur (c.advance 4)).latch) s

/-- `SNAP` (R108, R450): fires the trigger while `pkg.snap.USER` is 1. -/
def execSnap (s : State) : Out :=
  run 2 (fun s =>
    let t := s.setCur (s.cur.advance 2)
    .ok (if s.pkg.snapUser then t.latch else t)) s

/-- `HALT` (R453): drains as `EXIT` does, and stops the package. -/
def execHalt (a : SReg) (s : State) : Out :=
  run 4 (fun s => do
    let c := s.cur
    needSystem c (.halt a)
    let v ← readS c a
    release s .writes
      (.ok (((s.setCur (c.advance 4)).halt.modPkg fun p => { p with haltReg := BitVec.ofNat 64 (2 ^ 63 + v.toNat % 2 ^ 16) }).irq 1))) s

end Sys2Proof.Machine
end

