-- ==== Sys2Proof/Machine/VectorIv.lean ====
section
/-! DEFINITION. The vector interval and contractor instructions on rows of 64 intervals (R151-R156). -/

namespace Sys2Proof.Machine

/-- Which elements of a row of intervals are enabled (R151). -/
def ivEnabled (c : Strand) (k : KReg) : Nat → Bool := enabled (c.kVal k) 64 (c.count 64)

/-- The elements of one operand of a vector interval instruction as the instruction leaves them, with sticky bits and, in
order of elements, those that became EMPTY and by which operand. -/
structure IvRow where
  ni : Bool := false
  em : Bool := false
  np : Bool := false
  first : Option (Nat × Nat) := none

/-- Collects the sticky bits of elements: each with NI, EM, NP and the operand. -/
def ivCollect (l : List (Nat × Bool × Bool × Bool × Nat)) : IvRow :=
  { ni := l.any fun x => x.2.1, em := l.any fun x => x.2.2.1, np := l.any fun x => x.2.2.2.1
    first := (l.find? fun x => x.2.2.1).map fun x => (x.1, x.2.2.2.2) }

/-- Retires a vector interval instruction that writes rows, or raises fault 0x51 for the lowest element (R151). -/
def retireIvRows (s : State) (c : Strand) (k : Core) (rows : List (Nat × RowOut)) (r : IvRow) : Except Stop State :=
  let (e, o) := r.first.getD (0, 0)
  retireIv (s.setCore c.core (rows.foldl (fun k r => k.rowWrite r.1 r.2) k)) c r.ni r.em r.np e o

/-- The 64 elements of a row with those enabled replaced. -/
def ivMap (old : Nat) (en : Nat → Bool) (f : Nat → Nat) : RowOut := mapRow 64 64 old en fun i => ⟨f i, 0, 0⟩

/-- A binary instruction of format V (R152); `w` is the width of the source elements, of which it reads 64 (R153).
(DEDUCED, log 92) -/
def viV2 (o : OpVI) (w : Nat) (f : Nat → Nat → IvR) : State → Out :=
  run 4 fun s =>
    let c := s.cur
    let d := ptrAddr (c.pVal o.pd)
    let a := ptrAddr (c.pVal o.pa)
    let b := ptrAddr (c.pVal o.pb)
    vecPart (8 * w) s [(d, 0), (a, 1), (b, 2)] [a, b] [d] (bankTurns [a, b]) fun k =>
      let en := ivEnabled c o.k
      let ra := k.row a
      let rb := k.row b
      let at_ (i : Nat) : IvR := f (elem w ra i) (elem w rb i)
      let r := ivCollect (((List.range 64).filter en).map fun i => (i, (at_ i).ni, (at_ i).em, false, 0))
      let t := ivMap (k.row d) en fun i => (at_ i).v.bits
      retireIvRows s ((c.stepPs [(o.pd, o.incD), (o.pa, o.incA), (o.pb, o.incB)]).advance 4) k [(d, t)] r

/-- `VIADD` (R152). -/
def execViadd (o : OpVI) (s : State) : Out := viV2 o 64 ivAdd s
/-- `VISUB` (R152). -/
def execVisub (o : OpVI) (s : State) : Out := viV2 o 64 ivSub s
/-- `VIMUL` (R152). -/
def execVimul (o : OpVI) (s : State) : Out := viV2 o 64 ivMul s
/-- `VIHULL` (R152). -/
def execVihull (o : OpVI) (s : State) : Out := viV2 o 64 ivHull s
/-- `VIMEET` (R152). -/
def execVimeet (o : OpVI) (s : State) : Out := viV2 o 64 ivMeet s
/-- `VIMAKE` (R153): from the first 64 F32 lanes of two rows. -/
def execVimake (o : OpVI) (s : State) : Out := viV2 o 32 ivMake s

/-- `VIRELU` (R152). -/
def execVirelu (pd pa : PReg) (km : KReg) (incD incA : Bool) (s : State) : Out :=
  run 4 (fun s =>
    let c := s.cur
    let d := ptrAddr (c.pVal pd)
    let a := ptrAddr (c.pVal pa)
    vec s [(d, 0), (a, 1)] [a] [d] 0 fun k =>
      let en := ivEnabled c km
      let ra := k.row a
      let at_ (i : Nat) : IvR := ivRelu (elem 64 ra i)
      let r := ivCollect (((List.range 64).filter en).map fun i => (i, (at_ i).ni, (at_ i).em, false, 0))
      let t := ivMap (k.row d) en fun i => (at_ i).v.bits
      retireIvRows s ((c.stepPs [(pd, incD), (pa, incA)]).advance 4) k [(d, t)] r) s

/-- The product of two intervals as a set (R154): bounds over the reals. -/
def ivProdSeg (x y : Iv) : Seg :=
  match x, y with
  | .iv a b, .iv c d => (segOf a b).mul (segOf c d)
  | _, _ => ⟨.fin 0, true, .fin 0, true⟩

/-- The enclosure of a dot product (R154): no EM. -/
def ivDot (l : List (Nat × Nat)) : Iv :=
  let vs := l.map fun p => ((ivRead p.1).1, (ivRead p.2).1)
  if vs.any fun p => p.1 == .nai || p.2 == .nai then .nai
  else if vs.any fun p => p.1 == .empty || p.2 == .empty then .empty
  else
    let t := vs.foldl (fun a p => a.add (ivProdSeg p.1 p.2)) (⟨.fin 0, true, .fin 0, true⟩ : Seg)
    .iv (roundLo t.lo) (roundHi t.hi)

/-- `VIDOT` (R154). -/
def execVidot (d : IvReg) (pa pb : PReg) (km : KReg) (inc : Bool) (s : State) : Out :=
  run 4 (fun s => do
    let c := s.cur
    needFree c (.iv d)
    let a := ptrAddr (c.pVal pa)
    let b := ptrAddr (c.pVal pb)
    vec s [(a, 1), (b, 2)] [a, b] [] (bankTurns [a, b]) fun k =>
      let en := ivEnabled c km
      let l := ((List.range 64).filter en).map fun i => (elem 64 (k.row a) i, elem 64 (k.row b) i)
      let ni := l.any fun p => (ivRead p.1).2 || (ivRead p.2).2
      retireIv s (((c.writeIv d (BitVec.ofNat 64 (ivDot l).bits)).stepPs [(pa, inc), (pb, inc)]).advance 4) ni false false 0 0) s

/-- A vector contractor (R155): x in row pd, y in row pa, z in row pb. Every row contracted is written; where pointers name one
row, it holds what the last step that writes it left. -/
def vctr (r : Rel) (px : PReg) (py : Option PReg) (pz : PReg) (km : KReg) (incs : List (PReg × Bool)) : State → Out :=
  run 4 fun s =>
    let c := s.cur
    let x := ptrAddr (c.pVal px)
    let y := py.map fun p => ptrAddr (c.pVal p)
    let z := ptrAddr (c.pVal pz)
    let all := [x] ++ y.toList ++ [z]
    vec s ([(x, 0)] ++ (y.toList.map fun a => (a, 1)) ++ [(z, 2)]) all all (bankTurns all) fun k =>
      let en := ivEnabled c km
      let rx := k.row x
      let ry := k.row (y.getD x)
      let rz := k.row z
      let sh : Shared := { xy := y == some x, xz := x == z, yz := y == some z }
      let at_ (i : Nat) : CtrR := contract r sh false (istNth c.ctl.ist) (elem 64 rx i) (elem 64 ry i) (elem 64 rz i)
      let q := ivCollect (((List.range 64).filter en).map fun i => (i, (at_ i).ni, (at_ i).em, (at_ i).np, (at_ i).which))
      let tx := ivMap rx en fun i => (at_ i).x
      let ty := y.toList.map fun a => (a, ivMap ry en fun i => (at_ i).y)
      let tz := ivMap rz en fun i => (at_ i).z
      retireIvRows s ((c.stepPs incs).advance 4) k ([(x, tx)] ++ ty ++ [(z, tz)]) q

/-- `VCADD` (R155). -/
def execVcadd (o : OpVI) (s : State) : Out :=
  vctr .add o.pd (some o.pa) o.pb o.k [(o.pd, o.incD), (o.pa, o.incA), (o.pb, o.incB)] s
/-- `VCMUL` (R155). -/
def execVcmul (o : OpVI) (s : State) : Out :=
  vctr .mul o.pd (some o.pa) o.pb o.k [(o.pd, o.incD), (o.pa, o.incA), (o.pb, o.incB)] s
/-- `VCRELU` (R155). -/
def execVcrelu (px pz : PReg) (km : KReg) (incX incZ : Bool) (s : State) : Out :=
  vctr .relu px none pz km [(px, incX), (pz, incZ)] s

end Sys2Proof.Machine
end

