-- ==== Sys2Proof/Machine/Dispatch.lean ====
section
/-! DEFINITION. One arm per constructor of `Instr`: the meaning of each instruction and of each step of another agent. -/

namespace Sys2Proof.Machine

def exec (i : Instr) (s : State) : Host.Outcome State Fault Refusal :=
  match i with
  | .add o => Sys2Proof.Machine.execAdd o s
  | .sub o => Sys2Proof.Machine.execSub o s
  | .mul o => Sys2Proof.Machine.execMul o s
  | .mulh o => Sys2Proof.Machine.execMulh o s
  | .mulhn o => Sys2Proof.Machine.execMulhn o s
  | .div o => Sys2Proof.Machine.execDiv o s
  | .divn o => Sys2Proof.Machine.execDivn o s
  | .rem o => Sys2Proof.Machine.execRem o s
  | .remn o => Sys2Proof.Machine.execRemn o s
  | .and o => Sys2Proof.Machine.execAnd o s
  | .or o => Sys2Proof.Machine.execOr o s
  | .xor o => Sys2Proof.Machine.execXor o s
  | .andn o => Sys2Proof.Machine.execAndn o s
  | .shl o => Sys2Proof.Machine.execShl o s
  | .shr o => Sys2Proof.Machine.execShr o s
  | .sar o => Sys2Proof.Machine.execSar o s
  | .rol o => Sys2Proof.Machine.execRol o s
  | .min o => Sys2Proof.Machine.execMin o s
  | .max o => Sys2Proof.Machine.execMax o s
  | .minn o => Sys2Proof.Machine.execMinn o s
  | .maxn o => Sys2Proof.Machine.execMaxn o s
  | .clz o => Sys2Proof.Machine.execClz o s
  | .ctz o => Sys2Proof.Machine.execCtz o s
  | .popc o => Sys2Proof.Machine.execPopc o s
  | .brev o => Sys2Proof.Machine.execBrev o s
  | .bswap o => Sys2Proof.Machine.execBswap o s
  | .bfx o => Sys2Proof.Machine.execBfx o s
  | .bfxn o => Sys2Proof.Machine.execBfxn o s
  | .bfi o => Sys2Proof.Machine.execBfi o s
  | .fsh o => Sys2Proof.Machine.execFsh o s
  | .sel o q => Sys2Proof.Machine.execSel o q s
  | .mov o => Sys2Proof.Machine.execMov o s
  | .addi o => Sys2Proof.Machine.execAddi o s
  | .andi o => Sys2Proof.Machine.execAndi o s
  | .ori o => Sys2Proof.Machine.execOri o s
  | .xori o => Sys2Proof.Machine.execXori o s
  | .shli o => Sys2Proof.Machine.execShli o s
  | .shri o => Sys2Proof.Machine.execShri o s
  | .sari o => Sys2Proof.Machine.execSari o s
  | .movi d imm => Sys2Proof.Machine.execMovi d imm s
  | .movh d imm => Sys2Proof.Machine.execMovh d imm s
  | .cmp c qd a b la lb => Sys2Proof.Machine.execCmp c qd a b la lb s
  | .cmpi c qd a la imm => Sys2Proof.Machine.execCmpi c qd a la imm s
  | .qop qd op => Sys2Proof.Machine.execQop qd op s
  | .qtos d q => Sys2Proof.Machine.execQtos d q s
  | .stoq qd a la => Sys2Proof.Machine.execStoq qd a la s
  | .fadd o => Sys2Proof.Machine.execFadd o s
  | .fsub o => Sys2Proof.Machine.execFsub o s
  | .fmul o => Sys2Proof.Machine.execFmul o s
  | .ffma o => Sys2Proof.Machine.execFfma o s
  | .fdiv o => Sys2Proof.Machine.execFdiv o s
  | .fsqrt o prec r => Sys2Proof.Machine.execFsqrt o prec r s
  | .fmin o prec => Sys2Proof.Machine.execFmin o prec s
  | .fmax o prec => Sys2Proof.Machine.execFmax o prec s
  | .fsgn o prec m => Sys2Proof.Machine.execFsgn o prec m s
  | .fcmp c prec qd a b la lb => Sys2Proof.Machine.execFcmp c prec qd a b la lb s
  | .cvt f => Sys2Proof.Machine.execCvt f s
  | .fclass o prec => Sys2Proof.Machine.execFclass o prec s
  | .imake d a b la lb => Sys2Proof.Machine.execImake d a b la lb s
  | .ilo o => Sys2Proof.Machine.execIlo o s
  | .ihi o => Sys2Proof.Machine.execIhi o s
  | .iadd o => Sys2Proof.Machine.execIadd o s
  | .isub o => Sys2Proof.Machine.execIsub o s
  | .imul o => Sys2Proof.Machine.execImul o s
  | .idiv o => Sys2Proof.Machine.execIdiv o s
  | .isqr o => Sys2Proof.Machine.execIsqr o s
  | .isqrt o => Sys2Proof.Machine.execIsqrt o s
  | .iexp o => Sys2Proof.Machine.execIexp o s
  | .ilog o => Sys2Proof.Machine.execIlog o s
  | .irelu o => Sys2Proof.Machine.execIrelu o s
  | .imin o => Sys2Proof.Machine.execImin o s
  | .imax o => Sys2Proof.Machine.execImax o s
  | .ihull o => Sys2Proof.Machine.execIhull o s
  | .imeet o => Sys2Proof.Machine.execImeet o s
  | .iwid o => Sys2Proof.Machine.execIwid o s
  | .imid o => Sys2Proof.Machine.execImid o s
  | .icmp c qd a la => Sys2Proof.Machine.execIcmp c qd a la s
  | .imov o => Sys2Proof.Machine.execImov o s
  | .iscale d a b la lb => Sys2Proof.Machine.execIscale d a b la lb s
  | .npq qd => Sys2Proof.Machine.execNpq qd s
  | .cadd o => Sys2Proof.Machine.execCadd o s
  | .csub o => Sys2Proof.Machine.execCsub o s
  | .cmul o => Sys2Proof.Machine.execCmul o s
  | .cdiv o => Sys2Proof.Machine.execCdiv o s
  | .csqr o => Sys2Proof.Machine.execCsqr o s
  | .cexp o => Sys2Proof.Machine.execCexp o s
  | .crelu o => Sys2Proof.Machine.execCrelu o s
  | .cmax o => Sys2Proof.Machine.execCmax o s
  | .br off => Sys2Proof.Machine.execBr off s
  | .call off => Sys2Proof.Machine.execCall off s
  | .jr a la imm => Sys2Proof.Machine.execJr a la imm s
  | .callr a la imm => Sys2Proof.Machine.execCallr a la imm s
  | .bq c q off => Sys2Proof.Machine.execBq c q off s
  | .loop d off => Sys2Proof.Machine.execLoop d off s
  | .trap imm => Sys2Proof.Machine.execTrap imm s
  | .setvl d a la imm => Sys2Proof.Machine.execSetvl d a la imm s
  | .rdid d idx => Sys2Proof.Machine.execRdid d idx s
  | .rdctl d idx => Sys2Proof.Machine.execRdctl d idx s
  | .wrctl d idx => Sys2Proof.Machine.execWrctl d idx s
  | .ldsB o => Sys2Proof.Machine.execLdsB o s
  | .ldsH o => Sys2Proof.Machine.execLdsH o s
  | .ldsW o => Sys2Proof.Machine.execLdsW o s
  | .ldsD o => Sys2Proof.Machine.execLdsD o s
  | .stsB o => Sys2Proof.Machine.execStsB o s
  | .stsH o => Sys2Proof.Machine.execStsH o s
  | .stsW o => Sys2Proof.Machine.execStsW o s
  | .stsD o => Sys2Proof.Machine.execStsD o s
  | .tlds o => Sys2Proof.Machine.execTlds o s
  | .tsts o => Sys2Proof.Machine.execTsts o s
  | .tstr a => Sys2Proof.Machine.execTstr a s
  | .rfill d a la b lb => Sys2Proof.Machine.execRfill d a la b lb s
  | .waitf r lim => Sys2Proof.Machine.execWaitf r lim s
  | .barOr qd qa => Sys2Proof.Machine.execBarOr qd qa s
  | .barNp qd => Sys2Proof.Machine.execBarNp qd s
  | .xset x a la => Sys2Proof.Machine.execXset x a la s
  | .xget d x => Sys2Proof.Machine.execXget d x s
  | .ldB o => Sys2Proof.Machine.execLdB o s
  | .ldH o => Sys2Proof.Machine.execLdH o s
  | .ldW o => Sys2Proof.Machine.execLdW o s
  | .ldD o => Sys2Proof.Machine.execLdD o s
  | .ldAcq o => Sys2Proof.Machine.execLdAcq o s
  | .ldw o => Sys2Proof.Machine.execLdw o s
  | .stB o => Sys2Proof.Machine.execStB o s
  | .stH o => Sys2Proof.Machine.execStH o s
  | .stW o => Sys2Proof.Machine.execStW o s
  | .stD o => Sys2Proof.Machine.execStD o s
  | .stRel o => Sys2Proof.Machine.execStRel o s
  | .ild o => Sys2Proof.Machine.execIld o s
  | .ist o => Sys2Proof.Machine.execIst o s
  | .amo fn o => Sys2Proof.Machine.execAmo fn o s
  | .cas o => Sys2Proof.Machine.execCas o s
  | .red fn a b la lb => Sys2Proof.Machine.execRed fn a b la lb s
  | .vld o => Sys2Proof.Machine.execVld o s
  | .vst o => Sys2Proof.Machine.execVst o s
  | .migr a la => Sys2Proof.Machine.execMigr a la s
  | .bwant a la => Sys2Proof.Machine.execBwant a la s
  | .bkeep a la => Sys2Proof.Machine.execBkeep a la s
  | .bfree a la => Sys2Proof.Machine.execBfree a la s
  | .bcopy a b la lb => Sys2Proof.Machine.execBcopy a b la lb s
  | .bcopyZero a la => Sys2Proof.Machine.execBcopyZero a la s
  | .vadd o sat => Sys2Proof.Machine.execVadd o sat s
  | .vsub o sat => Sys2Proof.Machine.execVsub o sat s
  | .vmul o sat => Sys2Proof.Machine.execVmul o sat s
  | .vfma o => Sys2Proof.Machine.execVfma o s
  | .vmin o => Sys2Proof.Machine.execVmin o s
  | .vmax o => Sys2Proof.Machine.execVmax o s
  | .vand o => Sys2Proof.Machine.execVand o s
  | .vor o => Sys2Proof.Machine.execVor o s
  | .vxor o => Sys2Proof.Machine.execVxor o s
  | .vshl o => Sys2Proof.Machine.execVshl o s
  | .vshr o => Sys2Proof.Machine.execVshr o s
  | .vsar o => Sys2Proof.Machine.execVsar o s
  | .vabs o => Sys2Proof.Machine.execVabs o s
  | .vneg o => Sys2Proof.Machine.execVneg o s
  | .vcvt o dst => Sys2Proof.Machine.execVcvt o dst s
  | .vsel o => Sys2Proof.Machine.execVsel o s
  | .vcmp c kd pa pb fmt k incA incB => Sys2Proof.Machine.execVcmp c kd pa pb fmt k incA incB s
  | .vred fn d pa fmt k inc => Sys2Proof.Machine.execVred fn d pa fmt k inc s
  | .vdot d pa pb fmt k inc => Sys2Proof.Machine.execVdot d pa pb fmt k inc s
  | .vbcast o => Sys2Proof.Machine.execVbcast o s
  | .vadds o => Sys2Proof.Machine.execVadds o s
  | .vmuls o => Sys2Proof.Machine.execVmuls o s
  | .vperm o => Sys2Proof.Machine.execVperm o s
  | .vmov o => Sys2Proof.Machine.execVmov o s
  | .vbdot pd pa pb fmt bs incD incA incB => Sys2Proof.Machine.execVbdot pd pa pb fmt bs incD incA incB s
  | .vscacc o => Sys2Proof.Machine.execVscacc o s
  | .vscomb o => Sys2Proof.Machine.execVscomb o s
  | .vexp o => Sys2Proof.Machine.execVexp o s
  | .vrcp o => Sys2Proof.Machine.execVrcp o s
  | .vrsq o => Sys2Proof.Machine.execVrsq o s
  | .vtanh o => Sys2Proof.Machine.execVtanh o s
  | .viadd o => Sys2Proof.Machine.execViadd o s
  | .visub o => Sys2Proof.Machine.execVisub o s
  | .vimul o => Sys2Proof.Machine.execVimul o s
  | .virelu pd pa k incD incA => Sys2Proof.Machine.execVirelu pd pa k incD incA s
  | .vihull o => Sys2Proof.Machine.execVihull o s
  | .vimeet o => Sys2Proof.Machine.execVimeet o s
  | .vidot d pa pb k inc => Sys2Proof.Machine.execVidot d pa pb k inc s
  | .vimake o => Sys2Proof.Machine.execVimake o s
  | .vcadd o => Sys2Proof.Machine.execVcadd o s
  | .vcmul o => Sys2Proof.Machine.execVcmul o s
  | .vcrelu px pz k incX incZ => Sys2Proof.Machine.execVcrelu px pz k incX incZ s
  | .mclaim slot n1 lim => Sys2Proof.Machine.execMclaim slot n1 lim s
  | .mrelease slot n1 => Sys2Proof.Machine.execMrelease slot n1 s
  | .mload slot a la fmt tr => Sys2Proof.Machine.execMload slot a la fmt tr s
  | .mstore d slot a fmt => Sys2Proof.Machine.execMstore d slot a fmt s
  | .mzero slot int => Sys2Proof.Machine.execMzero slot int s
  | .mma c a b new => Sys2Proof.Machine.execMma c a b new s
  | .cpy x => Sys2Proof.Machine.execCpy x s
  | .cpyG x => Sys2Proof.Machine.execCpyG x s
  | .gwin w x => Sys2Proof.Machine.execGwin w x s
  | .rdef r x => Sys2Proof.Machine.execRdef r x s
  | .rdefOff r => Sys2Proof.Machine.execRdefOff r s
  | .rpostD r a la => Sys2Proof.Machine.execRpostD r a la s
  | .rpostF r a la => Sys2Proof.Machine.execRpostF r a la s
  | .rtakeD d r lim => Sys2Proof.Machine.execRtakeD d r lim s
  | .rtakeF d r lim => Sys2Proof.Machine.execRtakeF d r lim s
  | .qfence before after => Sys2Proof.Machine.execQfence before after s
  | .qwait set lim => Sys2Proof.Machine.execQwait set lim s
  | .ckpt off => Sys2Proof.Machine.execCkpt off s
  | .wpost x => Sys2Proof.Machine.execWpost x s
  | .wpostG x => Sys2Proof.Machine.execWpostG x s
  | .wwait a b lim => Sys2Proof.Machine.execWwait a b lim s
  | .sbindS a la x => Sys2Proof.Machine.execSbindS a la x s
  | .sbindW a la x => Sys2Proof.Machine.execSbindW a la x s
  | .sbindOffS a la => Sys2Proof.Machine.execSbindOffS a la s
  | .sbindOffW a la => Sys2Proof.Machine.execSbindOffW a la s
  | .semit o => Sys2Proof.Machine.execSemit o s
  | .swm o => Sys2Proof.Machine.execSwm o s
  | .sidle a la => Sys2Proof.Machine.execSidle a la s
  | .spub o => Sys2Proof.Machine.execSpub o s
  | .sread d a la => Sys2Proof.Machine.execSread d a la s
  | .tlbw x a => Sys2Proof.Machine.execTlbw x a s
  | .tlbi a b m => Sys2Proof.Machine.execTlbi a b m s
  | .privctlRd d a => Sys2Proof.Machine.execPrivctlRd d a s
  | .privctlWr a b => Sys2Proof.Machine.execPrivctlWr a b s
  | .halt a => Sys2Proof.Machine.execHalt a s
  | .mov16 o => Sys2Proof.Machine.execMov16 o s
  | .add16 o => Sys2Proof.Machine.execAdd16 o s
  | .sub16 o => Sys2Proof.Machine.execSub16 o s
  | .and16 o => Sys2Proof.Machine.execAnd16 o s
  | .or16 o => Sys2Proof.Machine.execOr16 o s
  | .xor16 o => Sys2Proof.Machine.execXor16 o s
  | .shl16 o => Sys2Proof.Machine.execShl16 o s
  | .shr16 o => Sys2Proof.Machine.execShr16 o s
  | .sar16 o => Sys2Proof.Machine.execSar16 o s
  | .lds16 o => Sys2Proof.Machine.execLds16 o s
  | .sts16 o => Sys2Proof.Machine.execSts16 o s
  | .take o => Sys2Proof.Machine.execTake o s
  | .movi16 d imm => Sys2Proof.Machine.execMovi16 d imm s
  | .addi16 d imm => Sys2Proof.Machine.execAddi16 d imm s
  | .shli16 d cnt => Sys2Proof.Machine.execShli16 d cnt s
  | .shri16 d cnt => Sys2Proof.Machine.execShri16 d cnt s
  | .sari16 d cnt => Sys2Proof.Machine.execSari16 d cnt s
  | .andi16 d imm => Sys2Proof.Machine.execAndi16 d imm s
  | .ldsSp d imm => Sys2Proof.Machine.execLdsSp d imm s
  | .stsSp d imm => Sys2Proof.Machine.execStsSp d imm s
  | .brS off => Sys2Proof.Machine.execBrS off s
  | .callS off => Sys2Proof.Machine.execCallS off s
  | .bqt q off => Sys2Proof.Machine.execBqt q off s
  | .bqf q off => Sys2Proof.Machine.execBqf q off s
  | .bqu q off => Sys2Proof.Machine.execBqu q off s
  | .empty n => Sys2Proof.Machine.execEmpty n s
  | .qwait16 set => Sys2Proof.Machine.execQwait16 set s
  | .nop => Sys2Proof.Machine.execNop s
  | .ret => Sys2Proof.Machine.execRet s
  | .exit => Sys2Proof.Machine.execExit s
  | .yield => Sys2Proof.Machine.execYield s
  | .bar => Sys2Proof.Machine.execBar s
  | .waitred => Sys2Proof.Machine.execWaitred s
  | .fence => Sys2Proof.Machine.execFence s
  | .npclr => Sys2Proof.Machine.execNpclr s
  | .upret => Sys2Proof.Machine.execUpret s
  | .upretSkip => Sys2Proof.Machine.execUpretSkip s
  | .snap => Sys2Proof.Machine.execSnap s
  | .snapt => Sys2Proof.Machine.execSnapt s
  | .fenceSCore => Sys2Proof.Machine.execFenceSCore s
  | .fenceSSg => Sys2Proof.Machine.execFenceSSg s
  | .fenceSDie => Sys2Proof.Machine.execFenceSDie s
  | .fenceSPkg => Sys2Proof.Machine.execFenceSPkg s
  | .gunb0 => Sys2Proof.Machine.execGunb0 s
  | .gunb1 => Sys2Proof.Machine.execGunb1 s
  | .gunb2 => Sys2Proof.Machine.execGunb2 s
  | .gunb3 => Sys2Proof.Machine.execGunb3 s
  | .gunb4 => Sys2Proof.Machine.execGunb4 s
  | .gunb5 => Sys2Proof.Machine.execGunb5 s
  | .gunb6 => Sys2Proof.Machine.execGunb6 s
  | .gunb7 => Sys2Proof.Machine.execGunb7 s
  | .mrot0 => Sys2Proof.Machine.execMrot0 s
  | .mrot1 => Sys2Proof.Machine.execMrot1 s
  | .mrot2 => Sys2Proof.Machine.execMrot2 s
  | .mrot3 => Sys2Proof.Machine.execMrot3 s
  | .mrot4 => Sys2Proof.Machine.execMrot4 s
  | .mrot5 => Sys2Proof.Machine.execMrot5 s
  | .mrot6 => Sys2Proof.Machine.execMrot6 s
  | .mrot7 => Sys2Proof.Machine.execMrot7 s
  | .powerOnReset => Sys2Proof.Machine.execPowerOnReset s
  | .pkgRstWarm => Sys2Proof.Machine.execPkgRstWarm s
  | .pkgRstCold => Sys2Proof.Machine.execPkgRstCold s
  | .trainingComplete => Sys2Proof.Machine.execTrainingComplete s
  | .attestationRequest => Sys2Proof.Machine.execAttestationRequest s
  | .thermidorStep => Sys2Proof.Machine.execThermidorStep s
  | .criticalTemperature => Sys2Proof.Machine.execCriticalTemperature s
  | .thermalStop => Sys2Proof.Machine.execThermalStop s
  | .pkgIrqClear => Sys2Proof.Machine.execPkgIrqClear s
  | .pkgPreemptWrite => Sys2Proof.Machine.execPkgPreemptWrite s
  | .pkgSnapTrigger => Sys2Proof.Machine.execPkgSnapTrigger s
  | .registerWrite => Sys2Proof.Machine.execRegisterWrite s
  | .dspLostRead => Sys2Proof.Machine.execDspLostRead s
  | .dspCcntRead => Sys2Proof.Machine.execDspCcntRead s
  | .hsEccRead => Sys2Proof.Machine.execHsEccRead s
  | .hsEvtRead => Sys2Proof.Machine.execHsEvtRead s
  | .hsChkRead => Sys2Proof.Machine.execHsChkRead s
  | .suCntRead => Sys2Proof.Machine.execSuCntRead s
  | .fabLostRead => Sys2Proof.Machine.execFabLostRead s
  | .fabRefusedRead => Sys2Proof.Machine.execFabRefusedRead s
  | .fabCnoteRead => Sys2Proof.Machine.execFabCnoteRead s
  | .hsElideWrite => Sys2Proof.Machine.execHsElideWrite s
  | .hsCksetWrite => Sys2Proof.Machine.execHsCksetWrite s
  | .migrationStart => Sys2Proof.Machine.execMigrationStart s
  | .migrationSlotFree => Sys2Proof.Machine.execMigrationSlotFree s
  | .migrationUnit => Sys2Proof.Machine.execMigrationUnit s
  | .windowRegister => Sys2Proof.Machine.execWindowRegister s
  | .windowUnregister => Sys2Proof.Machine.execWindowUnregister s
  | .hostMemoryRead => Sys2Proof.Machine.execHostMemoryRead s
  | .hostMemoryWrite => Sys2Proof.Machine.execHostMemoryWrite s
  | .ingressRecordWrite => Sys2Proof.Machine.execIngressRecordWrite s
  | .ingressWatermarkWrite => Sys2Proof.Machine.execIngressWatermarkWrite s
  | .ingressIdleWrite => Sys2Proof.Machine.execIngressIdleWrite s
  | .hostLinkDown => Sys2Proof.Machine.execHostLinkDown s
  | .dieEdgeFailure => Sys2Proof.Machine.execDieEdgeFailure s
  | .portDown => Sys2Proof.Machine.execPortDown s
  | .portRetrain => Sys2Proof.Machine.execPortRetrain s
  | .fabricPutArrival => Sys2Proof.Machine.execFabricPutArrival s
  | .fabricAckArrival => Sys2Proof.Machine.execFabricAckArrival s
  | .fabricUnitTimeout => Sys2Proof.Machine.execFabricUnitTimeout s
  | .fabricGetRequest => Sys2Proof.Machine.execFabricGetRequest s
  | .fabricGetUnitArrival => Sys2Proof.Machine.execFabricGetUnitArrival s
  | .containmentNotice => Sys2Proof.Machine.execContainmentNotice s
  | .statusStore => Sys2Proof.Machine.execStatusStore s
  | .predUpdate => Sys2Proof.Machine.execPredUpdate s
  | .placementPass => Sys2Proof.Machine.execPlacementPass s
  | .strandStart => Sys2Proof.Machine.execStrandStart s
  | .gangComplete => Sys2Proof.Machine.execGangComplete s
  | .triggerFire => Sys2Proof.Machine.execTriggerFire s
  | .slotLoad => Sys2Proof.Machine.execSlotLoad s
  | .quantumYield => Sys2Proof.Machine.execQuantumYield s
  | .rotModeSwitch => Sys2Proof.Machine.execRotModeSwitch s
  | .barrierRelease => Sys2Proof.Machine.execBarrierRelease s
  | .replyFill => Sys2Proof.Machine.execReplyFill s
  | .rfillArrival => Sys2Proof.Machine.execRfillArrival s
  | .registerWaitExpiry => Sys2Proof.Machine.execRegisterWaitExpiry s
  | .heldFillExpiry => Sys2Proof.Machine.execHeldFillExpiry s
  | .taggedRequestArrival => Sys2Proof.Machine.execTaggedRequestArrival s
  | .taggedWaitExpiry => Sys2Proof.Machine.execTaggedWaitExpiry s
  | .ldwExpiry => Sys2Proof.Machine.execLdwExpiry s
  | .rtakeExpiry => Sys2Proof.Machine.execRtakeExpiry s
  | .qwaitExpiry => Sys2Proof.Machine.execQwaitExpiry s
  | .mclaimExpiry => Sys2Proof.Machine.execMclaimExpiry s
  | .wwaitExpiry => Sys2Proof.Machine.execWwaitExpiry s
  | .heldAccessExpiry => Sys2Proof.Machine.execHeldAccessExpiry s
  | .remoteRequestArrival => Sys2Proof.Machine.execRemoteRequestArrival s
  | .ackArrival => Sys2Proof.Machine.execAckArrival s
  | .migrationArrival => Sys2Proof.Machine.execMigrationArrival s
  | .stewardFetchStart => Sys2Proof.Machine.execStewardFetchStart s
  | .blockArrival => Sys2Proof.Machine.execBlockArrival s
  | .writebackEnd => Sys2Proof.Machine.execWritebackEnd s
  | .blockEvict => Sys2Proof.Machine.execBlockEvict s
  | .transitIdleEvict => Sys2Proof.Machine.execTransitIdleEvict s
  | .overflowMove => Sys2Proof.Machine.execOverflowMove s
  | .patrolFetch => Sys2Proof.Machine.execPatrolFetch s
  | .refreshDue => Sys2Proof.Machine.execRefreshDue s
  | .refreshPullForward => Sys2Proof.Machine.execRefreshPullForward s
  | .fetchReturn => Sys2Proof.Machine.execFetchReturn s
  | .tlbMissWalk => Sys2Proof.Machine.execTlbMissWalk s
  | .missReply => Sys2Proof.Machine.execMissReply s
  | .shootdown => Sys2Proof.Machine.execShootdown s
  | .spanClose => Sys2Proof.Machine.execSpanClose s
  | .waitWithdrawal => Sys2Proof.Machine.execWaitWithdrawal s
  | .engineCommandStart => Sys2Proof.Machine.execEngineCommandStart s
  | .engineUnit => Sys2Proof.Machine.execEngineUnit s
  | .engineCommandComplete => Sys2Proof.Machine.execEngineCommandComplete s
  | .remoteSpWrite => Sys2Proof.Machine.execRemoteSpWrite s
  | .vldRowWrite => Sys2Proof.Machine.execVldRowWrite s
  | .arrayOpComplete => Sys2Proof.Machine.execArrayOpComplete s
  | .mrotTileArrival => Sys2Proof.Machine.execMrotTileArrival s
  | .containRetryResume => Sys2Proof.Machine.execContainRetryResume s
  | .saveStart => Sys2Proof.Machine.execSaveStart s
  | .saveComplete => Sys2Proof.Machine.execSaveComplete s
  | .preemptLapse => Sys2Proof.Machine.execPreemptLapse s
  | .streamRecord => Sys2Proof.Machine.execStreamRecord s
  | .sourceWatermark => Sys2Proof.Machine.execSourceWatermark s
  | .sourceIdle => Sys2Proof.Machine.execSourceIdle s
  | .idleTimeout => Sys2Proof.Machine.execIdleTimeout s
  | .derivedRaise => Sys2Proof.Machine.execDerivedRaise s
  | .amendHoldExpiry => Sys2Proof.Machine.execAmendHoldExpiry s
  | .stateNotice => Sys2Proof.Machine.execStateNotice s
  | .undefinedEncoding => Sys2Proof.Machine.execUndefinedEncoding s
  | .hostLinkTraining => Sys2Proof.Machine.execHostLinkTraining s
  | .lifeCycleCommand => Sys2Proof.Machine.execLifeCycleCommand s

end Sys2Proof.Machine
end

