-- ==== Sys2Proof/Machine/Place.lean ====
section
/-! DEFINITION. A strand placed so that its next turn runs given halfwords: what `State.withFetchWord` sets. -/

namespace Sys2Proof.Machine

/-- A leaf of an ordinary device-owned page that maps a virtual page onto the same physical page, with R, W and X (R242). -/
def plainLeaf (vpn : Nat) : Word := BitVec.ofNat 64 (vpn * 65536 + 0xF)

/-- A record of a one-core, one-strand ARRIVAL node (R170). -/
def plainRec : LaunchRec := ⟨[0, 0, 0x10101, 0, 0, 0, 0, 0, 0, 0, 0, 0, 0, 0, 0, 0]⟩

/-- A launched strand of system mode on core 0, slot 0 (R30, R444: the first node that Germinal launches is a system node),
whose instruction at address 0 has been fetched. -/
def placedStrand (h0 h1 : Half) : Strand :=
  { ident := { system := true, gw := 1, gh := 1, nstr := 1 }, place := .slot 0
    fetch := .ready h0 (if isHead h0 then some h1 else none) }

/-- The state with `bs` stored at physical and virtual address 0, and a launched strand in slot 0 of core 0 that has fetched
its first instruction from there and whose turn is next. (DESIGN CHOICE, log 8) -/
def State.place (s : State) (h0 h1 : Half) : State :=
  { s with
    curId := 0
    mem := s.mem.write 0 (halfBytes h0 ++ halfBytes h1)
    pages := s.pages.set 0 (plainLeaf 0, 0xFFF)
    strands := s.strands.set 0 (placedStrand h0 h1)
    gangs := s.gangs.set 0
      { die := 0, node := 0, rec_ := plainRec, cores := [0], gw := 1, gh := 1, step := false, alive := [0] }
    cores := s.cores.set 0 { (s.core 0) with
      slots := (s.core 0).slots.set 0 (some 0), issued := (s.core 0).issued.set 0 0, locals_ := NatSet.add (s.core 0).locals_ 0
      engWish := []
      tlb := (s.core 0).tlb.set 0 { tag := 2 ^ 63, leaf := plainLeaf 0, comp := 0xFFF } }
    homes := s.homes.set 0 { (s.home 0) with
      frames := (s.home 0).frames.set 0 { st := .resident true }, live := NatSet.add (s.home 0).live 0 }
    pkg := { s.pkg with ready := true, sysn := 1 }
    now := s.now / 16 * 16
    dies := s.dies.set 0 { (s.die 0) with count := (s.die 0).count / 16 * 16 }
    inputs := []
    cal := []
    issueQ := [0] }

end Sys2Proof.Machine
end

