-- ==== Sys2Proof/Machine/Turn.lean ====
section
/-! DEFINITION. The banks of the scratchpad that the strand of a turn reads, to which an engine's write may have to give way (R24, R180). -/

namespace Sys2Proof.Machine

/-- A state in which no banks of a core are taken but the given ones, from which no strand reads. -/
def State.onlyBanks (s : State) (core : Nat) (l : List Nat) : State := s.modCore core fun k => { k with bankWr := l, bankNo := [] }

/-- Whether an instruction forfeits its turn (R24): it changes nothing. -/
def forfeits (i : Instr) (s : State) : Bool :=
  match exec i s with
  | .next t => decide (t = s)
  | _ => false

/-- Of the banks that engine writes leave to the turn of a core, those that the instruction of the turn reads are noted (R180): it would
forfeit its turn if such a bank were taken. (DEDUCED, log 46) -/
def State.noteReads (s : State) (core : Nat) (i : Instr) : State :=
  if (s.core core).engWish.isEmpty then s
  else
    let runs := !forfeits i (s.onlyBanks core [])
    s.modCore core fun k => { k with strandRd := k.engWish.filter fun b => runs && forfeits i (s.onlyBanks core [b]) }

end Sys2Proof.Machine
end

