-- ==== Sys2Proof/Machine/Step.lean ====
section
/-! DEFINITION. One step of the package: the next outside event, or else the next event that is due in this cycle, or else the
next core's turn in this cycle, or else the next cycle. -/

namespace Sys2Proof.Machine

/-- A core's turn: its strand yields, or issues, or no instruction issues (R165, R168). (DESIGN CHOICE, log 87) -/
def runTurn (core : Nat) (s : State) : Out :=
  match turnOf s core with
  | .yield n => exec .quantumYield { s with arg := { id := core, idx := n } }
  | .none => .next { s.countTurn core with issueQ := s.issueQ.drop 1 }
  | .issue g n =>
    let t := s.begin_ core g n
    match actOf t.cur with
    | .owe => .next (t.setCur { t.cur with owe := t.cur.owe - 1 })
    | .fault f => endTurn (.next (t.raise g f 0))
    | .bad a => endTurn (exec .undefinedEncoding { t with arg := a })
    | .instr i _ => endTurn (exec i (t.noteReads core i))

/-- One step. (DESIGN CHOICE, log 86) -/
def step (s : State) : Host.Outcome State Fault Refusal :=
  match s.inputs with
  | (i, a) :: rest => exec i { s with inputs := rest, arg := a }
  | [] =>
    let idle : Out :=
      match s.issueQ with
      | c :: _ => runTurn c s
      | [] => .next s.tick
    match s.cal with
    | d :: rest =>
      if d.time < s.now || (d.time == s.now && (decide (d.rank < rankAfter) || s.issueQ.isEmpty)) then
        exec d.ev { s with cal := rest, arg := d.arg }
      else idle
    | [] => idle

/-- The state with an instruction, numbered as spec/opcode_table.json numbers it, where the next step fetches and runs it. -/
def State.withFetchWord (s : State) (nbits w : Nat) : State :=
  s.place (tableHalves nbits w).1 (tableHalves nbits w).2

end Sys2Proof.Machine
end

