-- ==== Sys2Proof/Safety.lean ====
section
/-! DEFINITION. The terms in which claims speak of a step: what counts as a safe run, what an instruction leaves as it was, and how a
strand goes on. -/

namespace Sys2Proof.Machine

/-- A state from which the next step is taken: no instruction is refused and nothing stops. -/
def Safe (s : State) : Prop := ∃ t, step s = .next t

/-- The canonical form of every memory: addresses rise, and no byte listed is the zero that an unlisted address reads as. -/
def State.canonical (s : State) : Prop := s.mem.wf = true ∧ ∀ e ∈ s.cores, e.2.sp.wf = true ∧ e.2.om.wf = true

/-- From `s` to `t` no byte of main memory, of a scratchpad or of an operand memory changes, and memories in canonical form stay so. -/
def State.sameMem (s t : State) : Prop :=
  t.mem = s.mem ∧ (∀ c, (t.core c).sp = (s.core c).sp ∧ (t.core c).om = (s.core c).om) ∧ (s.canonical → t.canonical)

/-- Registers of a strand, by class. -/
structure RegSet where
  s : List SReg := []
  iv : List IvReg := []
  p : List PReg := []
  q : List QReg := []
  k : List KReg := []
  x : List XReg := []

/-- From `c` to `c'` an instruction writes at most the registers `w`, and ends the values of the registers `mS` and `mIv` that it reads
under a last-use mark (R19); no other register, fill state or identity register changes, and the strand keeps its core and its place.
Control registers and the program counter are spoken of apart. -/
def Strand.keepsRegs (c c' : Strand) (w : RegSet) (mS : List SReg) (mIv : List IvReg) : Prop :=
  (∀ r, r ∉ w.s → c'.sVal r = c.sVal r) ∧ (∀ r, r ∉ w.s → r ∉ mS → c'.sState r = c.sState r) ∧
  (∀ r, r ∉ w.s → r ∈ mS → r ≠ 0 → c'.sState r = .dead) ∧
  (∀ r, r ∉ w.iv → c'.ivVal r = c.ivVal r) ∧ (∀ r, r ∉ w.iv → r ∉ mIv → c'.ivState r = c.ivState r) ∧
  (∀ r, r ∉ w.iv → r ∈ mIv → c'.ivState r = .dead) ∧
  (∀ r, r ∉ w.p → c'.pVal r = c.pVal r) ∧ (∀ r, r ∉ w.q → c'.qVal r = c.qVal r) ∧
  (∀ r, r ∉ w.k → c'.kVal r = c.kVal r) ∧ (∀ r, r ∉ w.x → c'.xVal r = c.xVal r) ∧
  c'.ident = c.ident ∧ c'.core = c.core ∧ c'.place = c.place

/-- The same, and what the machine notes of the strand's accesses, barriers and fences stays. -/
def Strand.keeps (c c' : Strand) (w : RegSet) (mS : List SReg) (mIv : List IvReg) : Prop :=
  c.keepsRegs c' w mS mIv ∧ c'.span = c.span ∧ c'.closes = c.closes ∧ c'.fails = c.fails ∧ c'.acq = c.acq ∧ c'.barriers = c.barriers ∧
  c'.qfences = c.qfences ∧ c'.mhome = c.mhome ∧ c'.mcount = c.mcount

/-- From `s` to `t` nothing but the strand whose turn it is changes: every byte of every memory, every other strand, every register
outside the strand, and everything under way is as before. -/
def State.onlyCur (s t : State) : Prop := t = s.setCur t.cur

/-- From `s` to `t` no other strand changes, and nothing of the package but its calendar. -/
def State.elsewhere (s t : State) : Prop :=
  t.mem = s.mem ∧ t.cores = s.cores ∧ t.homes = s.homes ∧ t.dies = s.dies ∧ t.gangs = s.gangs ∧ t.pkg = s.pkg ∧ t.reqs = s.reqs ∧
  t.msgs = s.msgs ∧ t.now = s.now ∧ t.curId = s.curId ∧ ∀ g, g ≠ s.curId → t.strands.find? g = s.strands.find? g

/-- An `s` register after a write of `v`: `s0` reads as zero (R10). -/
def wroteS (r : SReg) (v : Word) : Word := if r = 0 then 0 else v

/-- An instruction of `len` bytes of the strand retires at the next instruction, having written at most the registers `w` and ended the
values `mS` and `mIv`; no control register changes, and nothing outside the strand. -/
def State.retires (s t : State) (len : Nat) (w : RegSet) (mS : List SReg) (mIv : List IvReg) : Prop :=
  s.onlyCur t ∧ s.cur.keeps t.cur w mS mIv ∧ t.cur.ctl = s.cur.ctl ∧ t.cur.pc = s.cur.pc + BitVec.ofNat 64 len ∧ t.cur.wait = none

/-- An instruction of `len` bytes completes: it answers the state in which the strand has retired as `State.retires` says, and in which
`post` holds. -/
def completes (i : Instr) (s : State) (len : Nat) (w : RegSet) (mS : List SReg) (mIv : List IvReg) (post : State → Prop) : Prop :=
  ∃ t, exec i s = .next t ∧ s.retires t len w mS mIv ∧ post t

/-- As `State.retires`, but the strand goes on at the address `dest` (R95). -/
def State.goes (s t : State) (dest : Word) (w : RegSet) (mS : List SReg) : Prop :=
  s.onlyCur t ∧ s.cur.keeps t.cur w mS [] ∧ t.cur.ctl = s.cur.ctl ∧ t.cur.pc = dest ∧ t.cur.wait = none

/-- As `State.retires`, but with flags `fl` set in `ctl.fpf` and in the gang's (R64, R65), `sat` elements counted in `ctl.satc` (R66), and
the sticky bits `ni`, `em`, `np` of `ctl.ist` set (R73), the last in `gang.np` as well. -/
def State.retiresFlags (s t : State) (len : Nat) (w : RegSet) (mS : List SReg) (mIv : List IvReg) (fl : BitVec 6) (sat : Nat)
    (ni em np : Bool) : Prop :=
  t = (s.setCur t.cur).noteGang s.cur.ident.gang fl np ∧ s.cur.keeps t.cur w mS mIv ∧
  t.cur.ctl = { s.cur.ctl with fpf := s.cur.ctl.fpf ||| fl, satc := satAdd s.cur.ctl.satc sat, ist := istSet s.cur.ctl.ist ni em np } ∧
  t.cur.pc = s.cur.pc + BitVec.ofNat 64 len ∧ t.cur.wait = none

/-- A scalar float instruction completes: flags and counts as said, and `post` holds (R64, R66). -/
def completesFp (i : Instr) (s : State) (w : RegSet) (mS : List SReg) (fl : BitVec 6) (sat : Nat) (post : State → Prop) : Prop :=
  ∃ t, exec i s = .next t ∧ s.retiresFlags t 4 w mS [] fl sat false false false ∧ post t

/-- It completes with the result `r` in an `s` register, which is full then, and with the flags and the count of `r`. -/
def completesR (i : Instr) (s : State) (d : SReg) (mS : List SReg) (r : FR) : Prop :=
  completesFp i s { s := [d] } mS r.fl r.sat fun t => t.cur.sVal d = wroteS d (BitVec.ofNat 64 r.bits) ∧ t.cur.sState d = .full

/-- An interval instruction completes (R73): it sets the bits `ni`, `em` and `np` of `ctl.ist`, and no bit of `ctl.fpf` (R64). -/
def completesIst (i : Instr) (s : State) (w : RegSet) (mS : List SReg) (mIv : List IvReg) (ni em np : Bool) (post : State → Prop) : Prop :=
  ∃ t, exec i s = .next t ∧ s.retiresFlags t 4 w mS mIv 0 0 ni em np ∧ post t

/-- It completes with `r` in an `iv` register, which is full then; where `r` is a new EMPTY and TE is set, it takes fault 0x51 instead, and
nothing of its effect is visible (R32, R73). -/
def completesIv (i : Instr) (s : State) (d : IvReg) (mS : List SReg) (mIv : List IvReg) (r : IvR) : Prop :=
  if r.em ∧ istTe s.cur.ctl.ist then exec i s = .next (s.raise s.curId ⟨.emptyIv, 0, 0⟩ 2)
  else completesIst i s { iv := [d] } mS mIv r.ni r.em false fun t =>
    t.cur.ivVal d = BitVec.ofNat 64 r.v.bits ∧ t.cur.ivState d = .full

/-- A control transfer completes: the strand goes on at `dest`. -/
def jumps (i : Instr) (s : State) (dest : Word) (w : RegSet) (mS : List SReg) (post : State → Prop) : Prop :=
  ∃ t, exec i s = .next t ∧ s.goes t dest w mS ∧ post t

/-- It completes with a result in an `s` register, which is full then. -/
def completesS (i : Instr) (s : State) (len : Nat) (d : SReg) (mS : List SReg) (v : Word) : Prop :=
  completes i s len { s := [d] } mS [] fun t => t.cur.sVal d = wroteS d v ∧ t.cur.sState d = .full

end Sys2Proof.Machine
end

