-- ==== Sys2Proof/Certificates/Slice0/Obligations.lean ====
section
/-! DEFINITION. What is claimed of the machine. Results are written anew here from the rules, over integers, rationals and lists of bits
where the meanings compute on words, so that a statement and a meaning do not share a mistake. -/

open Sys2Proof Sys2Proof.Machine

/-! ### Integer and predicate instructions -/

/-- The two-source integer instructions with the result that R76, R77 and R79 give each, computed exactly and narrowed. -/
def Spec.int2 : List ((OpRRR → Instr) × (Word → Word → Word)) :=
  [(.add, fun a b => BitVec.ofInt 64 (a.toInt + b.toInt)), (.sub, fun a b => BitVec.ofInt 64 (a.toInt - b.toInt)),
    (.mul, fun a b => BitVec.ofInt 64 (a.toInt * b.toInt)),
    (.mulh, fun a b => BitVec.ofInt 64 (a.toInt * b.toInt / 2 ^ 64)),
    (.mulhn, fun a b => BitVec.ofNat 64 (a.toNat * b.toNat / 2 ^ 64)),
    (.div, fun a b => if b = 0 then BitVec.ofInt 64 (-1) else BitVec.ofInt 64 (a.toInt.tdiv b.toInt)),
    (.divn, fun a b => if b = 0 then BitVec.ofNat 64 (2 ^ 64 - 1) else BitVec.ofNat 64 (a.toNat / b.toNat)),
    (.rem, fun a b => if b = 0 then a else BitVec.ofInt 64 (a.toInt.tmod b.toInt)),
    (.remn, fun a b => if b = 0 then a else BitVec.ofNat 64 (a.toNat % b.toNat)),
    (.and, fun a b => a &&& b), (.or, fun a b => a ||| b), (.xor, fun a b => a ^^^ b), (.andn, fun a b => a &&& ~~~b),
    (.shl, fun a b => BitVec.ofNat 64 (a.toNat * 2 ^ (b.toNat % 64))),
    (.shr, fun a b => BitVec.ofNat 64 (a.toNat / 2 ^ (b.toNat % 64))),
    (.sar, fun a b => BitVec.ofInt 64 (a.toInt / 2 ^ (b.toNat % 64))),
    (.rol, fun a b => BitVec.ofNat 64 (a.toNat * 2 ^ (b.toNat % 64) % 2 ^ 64 + a.toNat * 2 ^ (b.toNat % 64) / 2 ^ 64)),
    (.min, fun a b => if a.toInt ≤ b.toInt then a else b), (.max, fun a b => if a.toInt ≤ b.toInt then b else a),
    (.minn, fun a b => if a.toNat ≤ b.toNat then a else b), (.maxn, fun a b => if a.toNat ≤ b.toNat then b else a),
    (.bfx, fun a b => ((a >>> (b.toNat % 64)).setWidth (min (b.toNat / 256 % 128) (64 - b.toNat % 64))).signExtend 64),
    (.bfxn, fun a b => ((a >>> (b.toNat % 64)).setWidth (min (b.toNat / 256 % 128) (64 - b.toNat % 64))).setWidth 64)]

/-- R76, R77, R79, R19: on full sources, and with no reply pending for the destination, each two-source integer instruction completes; the
destination holds its result, the marked sources are dead, and nothing else changes. -/
def Spec.claimTwoSourceResults : Prop :=
  ∀ e ∈ Spec.int2, ∀ (o : OpRRR) (s : State),
    s.cur.sState o.a = .full → s.cur.sState o.b = .full → s.cur.sState o.d ≠ .pending →
    completesS (e.1 o) s 4 o.d (marked [(o.a, o.la), (o.b, o.lb)]) (e.2 (s.cur.sVal o.a) (s.cur.sVal o.b))

/-- What R78 says of the result of each one-source instruction. -/
def Spec.int1 : List ((OpRR → Instr) × (Word → Word → Prop)) :=
  [(.clz, fun a v => v.toNat ≤ 64 ∧ (∀ i, 64 - v.toNat ≤ i → a.getLsbD i = false) ∧
      (v.toNat < 64 → a.getLsbD (63 - v.toNat) = true)),
    (.ctz, fun a v => v.toNat ≤ 64 ∧ (∀ i, i < v.toNat → a.getLsbD i = false) ∧ (v.toNat < 64 → a.getLsbD v.toNat = true)),
    (.popc, fun a v => v.toNat = ((List.range 64).filter fun i => a.getLsbD i).length),
    (.brev, fun a v => ∀ i, i < 64 → v.getLsbD i = a.getLsbD (63 - i)),
    (.bswap, fun a v => ∀ i j, i < 8 → j < 8 → v.getLsbD (8 * i + j) = a.getLsbD (8 * (7 - i) + j)),
    (.mov, fun a v => v = a)]

/-- R78: the one-source instructions. -/
def Spec.claimCountAndReverseResults : Prop :=
  ∀ e ∈ Spec.int1, ∀ (o : OpRR) (s : State), s.cur.sState o.a = .full → s.cur.sState o.d ≠ .pending →
    ∃ v, e.2 (s.cur.sVal o.a) v ∧ completesS (e.1 o) s 4 o.d (marked [(o.a, o.la)]) v

/-- R79, R80, R81: the instructions that insert a field, shift a register pair, or select: `BFI` and `FSH` read their destination too, and a
predicate that is U selects b. -/
def Spec.claimInsertFunnelSelectResults : Prop :=
  ∀ (o : OpRRR) (s : State), s.cur.sState o.a = .full → s.cur.sState o.b = .full →
    let x := s.cur.sVal o.a
    let y := s.cur.sVal o.b
    let z := s.cur.sVal o.d
    let m := marked [(o.a, o.la), (o.b, o.lb)]
    (s.cur.sState o.d = .full →
      (∃ v : Word, (∀ i, i < 64 → v.getLsbD i =
          if y.toNat % 64 ≤ i ∧ i < y.toNat % 64 + y.toNat / 256 % 128 then x.getLsbD (i - y.toNat % 64) else z.getLsbD i) ∧
        completesS (.bfi o) s 4 o.d m v) ∧
      completesS (.fsh o) s 4 o.d m (((z ++ x : BitVec 128) >>> (y.toNat % 64)).setWidth 64)) ∧
    (s.cur.sState o.d ≠ .pending → ∀ q, completesS (.sel o q) s 4 o.d m (match s.cur.qVal q with | .t => x | .f | .u => y))

/-- The immediate forms of R82: the immediate is sign-extended from nine bits. -/
def Spec.intImm : List ((OpRRI → Instr) × (Word → Int → Word)) :=
  [(.addi, fun a n => BitVec.ofInt 64 (a.toInt + n)), (.andi, fun a n => a &&& BitVec.ofInt 64 n),
    (.ori, fun a n => a ||| BitVec.ofInt 64 n), (.xori, fun a n => a ^^^ BitVec.ofInt 64 n)]

/-- The shifts by an immediate count of R82. -/
def Spec.intShift : List ((OpShift → Instr) × (Word → Nat → Word)) :=
  [(.shli, fun a n => BitVec.ofNat 64 (a.toNat * 2 ^ n)), (.shri, fun a n => BitVec.ofNat 64 (a.toNat / 2 ^ n)),
    (.sari, fun a n => BitVec.ofInt 64 (a.toInt / 2 ^ n))]

/-- R82, R83: the immediate forms; `MOVI` zero-extends, and `MOVH` shifts its full destination up by 15 bits. -/
def Spec.claimImmediateResults : Prop :=
  (∀ e ∈ Spec.intImm, ∀ (o : OpRRI) (s : State), s.cur.sState o.a = .full → s.cur.sState o.d ≠ .pending →
    completesS (e.1 o) s 4 o.d (marked [(o.a, o.la)]) (e.2 (s.cur.sVal o.a) o.imm.toInt)) ∧
  (∀ e ∈ Spec.intShift, ∀ (o : OpShift) (s : State), s.cur.sState o.a = .full → s.cur.sState o.d ≠ .pending →
    completesS (e.1 o) s 4 o.d (marked [(o.a, o.la)]) (e.2 (s.cur.sVal o.a) o.cnt.toNat)) ∧
  (∀ (d : SReg) (n : BitVec 15) (s : State), s.cur.sState d ≠ .pending →
    completesS (.movi d n) s 4 d [] (BitVec.ofNat 64 n.toNat)) ∧
  (∀ (d : SReg) (n : BitVec 15) (s : State), s.cur.sState d = .full →
    completesS (.movh d n) s 4 d [] (BitVec.ofNat 64 ((s.cur.sVal d).toNat * 2 ^ 15 + n.toNat)))

/-- The 16-bit instructions of R40 that compute d from d and a. -/
def Spec.short2 : List ((OpA → Instr) × (Word → Word → Word)) :=
  [(.add16, fun a b => BitVec.ofInt 64 (a.toInt + b.toInt)), (.sub16, fun a b => BitVec.ofInt 64 (a.toInt - b.toInt)),
    (.and16, fun a b => a &&& b), (.or16, fun a b => a ||| b), (.xor16, fun a b => a ^^^ b),
    (.shl16, fun a b => BitVec.ofNat 64 (a.toNat * 2 ^ (b.toNat % 64))),
    (.shr16, fun a b => BitVec.ofNat 64 (a.toNat / 2 ^ (b.toNat % 64))),
    (.sar16, fun a b => BitVec.ofInt 64 (a.toInt / 2 ^ (b.toNat % 64)))]

/-- R40, R41: the 16-bit equivalents of the integer instructions retire two bytes on and carry no marks. -/
def Spec.claimShortFormResults : Prop :=
  (∀ e ∈ Spec.short2, ∀ (o : OpA) (s : State), s.cur.sState o.a = .full → s.cur.sState o.d = .full →
    completesS (e.1 o) s 2 o.d [] (e.2 (s.cur.sVal o.d) (s.cur.sVal o.a))) ∧
  (∀ (o : OpA) (s : State), s.cur.sState o.a = .full → s.cur.sState o.d ≠ .pending →
    completesS (.mov16 o) s 2 o.d [] (s.cur.sVal o.a)) ∧
  (∀ (d : SReg) (n : BitVec 5) (s : State), s.cur.sState d ≠ .pending →
    completesS (.movi16 d n) s 2 d [] (BitVec.ofInt 64 n.toInt)) ∧
  (∀ (d : SReg) (n : BitVec 5) (k : BitVec 4) (s : State), s.cur.sState d = .full →
    let v := s.cur.sVal d
    completesS (.addi16 d n) s 2 d [] (BitVec.ofInt 64 (v.toInt + n.toInt)) ∧
    completesS (.andi16 d n) s 2 d [] (v &&& BitVec.ofInt 64 n.toInt) ∧
    completesS (.shli16 d k) s 2 d [] (BitVec.ofNat 64 (v.toNat * 2 ^ k.toNat)) ∧
    completesS (.shri16 d k) s 2 d [] (BitVec.ofNat 64 (v.toNat / 2 ^ k.toNat)) ∧
    completesS (.sari16 d k) s 2 d [] (BitVec.ofInt 64 (v.toInt / 2 ^ k.toNat)))

/-- T when a condition holds, and F otherwise. -/
def Spec.tri (p : Prop) [Decidable p] : Tri := if p then .t else .f

/-- The conditions of `CMP` (R84). -/
def Spec.cmp (a b : Word) : CmpCond → Tri
  | .eq => Spec.tri (a.toInt = b.toInt) | .ne => Spec.tri (a.toInt ≠ b.toInt) | .lt => Spec.tri (a.toInt < b.toInt)
  | .le => Spec.tri (a.toInt ≤ b.toInt) | .ltn => Spec.tri (a.toNat < b.toNat) | .len => Spec.tri (a.toNat ≤ b.toNat)
  | .bits => Spec.tri (a &&& b ≠ 0)

/-- The conditions of `CMPI` (R84). -/
def Spec.cmpi (a b : Word) : CmpiCond → Tri
  | .eq => Spec.tri (a.toInt = b.toInt) | .ne => Spec.tri (a.toInt ≠ b.toInt) | .lt => Spec.tri (a.toInt < b.toInt)
  | .ltn => Spec.tri (a.toNat < b.toNat)

/-- F, U, T as 0, 1, 2: the order of R85. -/
def Spec.rank : Tri → Nat
  | .f => 0 | .u => 1 | .t => 2
/-- The predicate of a rank. -/
def Spec.ofRank (n : Nat) : Tri := if n = 0 then .f else if n = 1 then .u else .t

/-- The operations of `QOP` (R85), on ranks: AND is the lesser, OR the greater, NOT the mirror image. -/
def Spec.qop (v : QReg → Tri) : QOp → Tri
  | .and a b => Spec.ofRank (min (Spec.rank (v a)) (Spec.rank (v b)))
  | .or a b => Spec.ofRank (max (Spec.rank (v a)) (Spec.rank (v b)))
  | .not a => Spec.ofRank (2 - Spec.rank (v a))
  | .xor a b => if v a = .u ∨ v b = .u then .u else Spec.tri (v a ≠ v b)
  | .known a => Spec.tri (v a ≠ .u)
  | .mov a => v a
  | .sett => .t
  | .setf => .f
  | .setu => .u

/-- A predicate register after a write of `v`: `q0` reads T (R10). -/
def Spec.wroteQ (r : QReg) (v : Tri) : Tri := if r = 0 then .t else v

/-- R84, R85, R86: the predicate instructions. A write to `q0` is discarded; `QTOS` then `STOQ` carries a predicate through unchanged. -/
def Obligations.PredicateResults : Prop :=
  (∀ k qd (a b : SReg) la lb (s : State), s.cur.sState a = .full → s.cur.sState b = .full →
    completes (.cmp k qd a b la lb) s 4 { q := [qd] } (marked [(a, la), (b, lb)]) [] fun t =>
      t.cur.qVal qd = Spec.wroteQ qd (Spec.cmp (s.cur.sVal a) (s.cur.sVal b) k)) ∧
  (∀ k qd (a : SReg) la (n : BitVec 9) (s : State), s.cur.sState a = .full →
    completes (.cmpi k qd a la n) s 4 { q := [qd] } (marked [(a, la)]) [] fun t =>
      t.cur.qVal qd = Spec.wroteQ qd (Spec.cmpi (s.cur.sVal a) (BitVec.ofInt 64 n.toInt) k)) ∧
  (∀ qd op (s : State), completes (.qop qd op) s 4 { q := [qd] } [] [] fun t =>
      t.cur.qVal qd = Spec.wroteQ qd (Spec.qop s.cur.qVal op)) ∧
  (∀ (d : SReg) q (s : State), s.cur.sState d ≠ .pending →
    completesS (.qtos d q) s 4 d [] (match s.cur.qVal q with | .f => 0 | .t => 1 | .u => 2)) ∧
  (∀ qd (a : SReg) la (s : State), s.cur.sState a = .full →
    completes (.stoq qd a la) s 4 { q := [qd] } (marked [(a, la)]) [] fun t =>
      t.cur.qVal qd = Spec.wroteQ qd (if (s.cur.sVal a).getLsbD 1 then .u else if (s.cur.sVal a).getLsbD 0 then .t else .f))

/-! ### Floating point -/

/-- The rational number of an exact dyadic value. -/
def Spec.rat (neg : Bool) (m : Nat) (e : Int) : Rat := (if neg then -1 else 1) * (m : Rat) * (2 : Rat) ^ e

/-- The rational number that a pattern encodes by R56, from its fields; none for an infinity and a NaN. -/
def Spec.value (f : FF) (bits : Nat) : Option Rat :=
  let x := bits / 2 ^ f.fb % 2 ^ f.eb
  let t := bits % 2 ^ f.fb
  let sgn : Rat := if bits / 2 ^ (f.eb + f.fb) % 2 = 1 then -1 else 1
  if f.hasInf ∧ x = 2 ^ f.eb - 1 ∨ f = .e4m3 ∧ x = 15 ∧ t = 7 then none
  else if x = 0 then some (sgn * t * (2 : Rat) ^ (1 - (f.bias : Int) - f.fb))
  else some (sgn * (2 ^ f.fb + t : Nat) * (2 : Rat) ^ ((x : Int) - f.bias - f.fb))

/-- The number that a float operand is read as: a subnormal is 0 under FZI (R60, R61). -/
def Spec.operand (f : FF) (fzi : Bool) (b : Nat) : Option Rat :=
  if fzi ∧ b % 2 ^ (f.eb + f.fb) < 2 ^ f.fb then some 0 else Spec.value f b

/-- The magnitudes of a format's infinity, where it has one, and of its largest finite number (R56). -/
def Spec.infOf (f : FF) : Nat := (2 ^ f.eb - 1) * 2 ^ f.fb
def Spec.topOf (f : FF) : Nat := if f = .e4m3 then 0x7E else if f = .e2m1 then 7 else Spec.infOf f - 1
/-- The smallest normal number of a format. -/
def Spec.leastOf (f : FF) : Rat := 2 ^ (1 - (f.bias : Int))

/-- Whether a directed mode rounds away from zero. -/
def Spec.outward (rm : RM) (x : ℝ) : Prop := rm = .rdn ∧ x < 0 ∨ rm = .rup ∧ 0 < x

/-- Whether a number, rounded with an unbounded exponent, lies beyond the largest finite number `t`, whose unit is `u` (R61, R66). The E4M3 number
after 448 has an odd significand, so that a tie there does not overflow. -/
def Spec.overflows (f : FF) (rm : RM) (x : ℝ) : Prop :=
  let t : ℝ := ((Spec.value f (Spec.topOf f)).getD 0 : Rat)
  let u : ℝ := t - ((Spec.value f (Spec.topOf f - 1)).getD 0 : Rat)
  rm = .rne ∧ (t + u / 2 < |x| ∨ f ≠ .e4m3 ∧ t + u / 2 = |x|) ∨ Spec.outward rm x ∧ t < |x| ∨
    rm ≠ .rne ∧ ¬Spec.outward rm x ∧ t + u ≤ |x|

/-- Whether a number, rounded with an unbounded exponent, lies below the smallest normal (R61). -/
def Spec.tiny (f : FF) (rm : RM) (x : ℝ) : Prop :=
  let n : ℝ := Spec.leastOf f
  let u : ℝ := n / 2 ^ f.fb
  rm = .rne ∧ |x| < n - u / 4 ∨ Spec.outward rm x ∧ |x| ≤ n - u / 2 ∨ rm ≠ .rne ∧ ¬Spec.outward rm x ∧ |x| < n

/-- `y`, of pattern `b`, is the number of the format that the mode names for `x`: the nearest, of two equally near the one of the even pattern, or the
next in the mode's direction. -/
def Spec.named (f : FF) (rm : RM) (x : ℝ) (b : Nat) (y : ℝ) : Prop :=
  ∀ (c : Nat) (v : Rat), Spec.value f c = some v →
    let z : ℝ := v
    (rm = .rne → |y - x| ≤ |z - x| ∧ (z ≠ y → |y - x| = |z - x| → b % 2 = 0)) ∧ (rm = .rdn → y ≤ x ∧ (z ≤ x → z ≤ y)) ∧
      (rm = .rup → x ≤ y ∧ (x ≤ z → y ≤ z)) ∧ (rm = .rtz → |y| ≤ |x| ∧ (0 ≤ z * x → |z| ≤ |x| → |z| ≤ |y|))

/-- R56, R61, R63, R66: `q` is `x` rounded once and fitted to the format, with its flags. Beyond the largest finite number the result is infinite or that
number, by mode, with OF and NX, or in E5M2, E4M3 and E2M1 saturated, with ST, NX and a count. Otherwise it is the number that the mode names, with
NX where that is another number and UF where `x` is tiny as well; FZO puts a zero of its sign in the place of a subnormal, with UF and NX. -/
def Spec.rounds (f : FF) (rm : RM) (fzo : Bool) (x : ℝ) (q : FR) : Prop :=
  let sign (b : Nat) : Prop := (x < 0 → b = 2 ^ (f.eb + f.fb)) ∧ (0 < x → b = 0)
  let inf : Prop := f.ieee = true ∧ (rm = .rne ∨ Spec.outward rm x)
  (Spec.overflows f rm x → ∃ b, sign b ∧ (inf → q.bits = b + Spec.infOf f) ∧ (¬inf → q.bits = b + Spec.topOf f) ∧
    q.fl = (if f.ieee then fOF else fST) ||| fNX ∧ q.sat = if f.ieee then 0 else 1) ∧
  (¬Spec.overflows f rm x → ∃ (b m : Nat) (y : Rat), (x ≠ 0 → sign b) ∧ (b = 0 ∨ b = 2 ^ (f.eb + f.fb)) ∧ m < 2 ^ (f.eb + f.fb) ∧
    Spec.value f (b + m) = some y ∧ Spec.named f rm x (b + m) y ∧
    let flushed := fzo = true ∧ 0 < m ∧ m < 2 ^ f.fb
    (flushed → q = ⟨b, fUF ||| fNX, 0⟩) ∧
    (¬flushed → q.bits = b + m ∧ q.sat = 0 ∧ (q.fl.getLsbD 0 = true ↔ (y : ℝ) ≠ x) ∧
      (q.fl.getLsbD 1 = true ↔ (y : ℝ) ≠ x ∧ Spec.tiny f rm x) ∧ q.fl &&& ~~~(fNX ||| fUF) = 0))

/-- R56, R61, R66: the rounding of an exact number into a format, in every mode, with and without FZO; a zero keeps its sign. -/
def Obligations.RoundingIsToTheNeighbour : Prop :=
  ∀ (f : FF) (rm : RM) (fzo neg : Bool) (m : Nat) (e : Int),
    Spec.rounds f rm fzo (Spec.rat neg m e : Rat) (f.round rm fzo neg m e) ∧
    (m = 0 → (f.round rm fzo neg m e).bits = if neg then 2 ^ (f.eb + f.fb) else 0)

/-- The controls under which a float instruction of field `r` rounds (R61). -/
def Spec.mode (s : State) (r : FRound) : Rnd :=
  let m := s.cur.ctl.fpm
  { rm := match r with
      | .rne => .rne
      | .rdn => .rdn
      | .rup => .rup
      | .fpm => if m.toNat % 4 = 0 then .rne else if m.toNat % 4 = 1 then .rtz else if m.toNat % 4 = 2 then .rdn else .rup
    fzi := m.getLsbD 2, fzo := m.getLsbD 3 }

/-- The two-source float instructions with the value that each forms from its operands' values (R88). -/
def Spec.float2 : List ((OpF2 → Instr) × (FF → Rnd → FVal → FVal → FR)) :=
  [(.fadd, fun f r a b => f.addV r a b), (.fsub, fun f r a b => f.addV r a b.negate), (.fmul, fun f r a b => f.mulV r a b),
    (.fdiv, fun f r a b => f.divV r a b)]

/-- The magnitude of a pattern of `w` bits, without its sign. -/
def Spec.mag (w x : Nat) : Nat := x % 2 ^ (w - 1)
/-- The sign of a pattern of `w` bits. -/
def Spec.neg (w x : Nat) : Bool := x / 2 ^ (w - 1) % 2 = 1
/-- The pattern of a sign and a magnitude. -/
def Spec.signed (w : Nat) (neg : Bool) (mag : Nat) : Nat := mag + (if neg then 2 ^ (w - 1) else 0)
/-- Bits of a precision, its default NaN, and the magnitudes of its infinity, its first signalling and its first quiet NaN (R56). -/
def Spec.width : Prec → Nat
  | .f32 => 32 | .f64 => 64
def Spec.inf : Prec → Nat
  | .f32 => 0x7F800000 | .f64 => 0x7FF0000000000000
def Spec.nan : Prec → Nat
  | .f32 => 0x7FC00000 | .f64 => 0x7FF8000000000000
/-- The magnitude of the smallest normal. -/
def Spec.normal : Prec → Nat
  | .f32 => 0x00800000 | .f64 => 0x0010000000000000
/-- Whether a pattern is a NaN, and a signalling one (R56, R58). -/
def Spec.isNan (p : Prec) (x : Nat) : Bool := Spec.inf p < Spec.mag (Spec.width p) x
def Spec.isSnan (p : Prec) (x : Nat) : Bool := Spec.isNan p x && decide (Spec.mag (Spec.width p) x < Spec.nan p)
/-- The magnitude as it is read: that of a subnormal is 0 under FZI (R60). -/
def Spec.magZ (p : Prec) (fzi : Bool) (x : Nat) : Nat :=
  let m := Spec.mag (Spec.width p) x
  if fzi ∧ m < Spec.normal p then 0 else m
/-- A pattern's place in the order of values: patterns of one sign are ordered as their magnitudes; −0 lies at 0 with +0. -/
def Spec.place (p : Prec) (fzi : Bool) (x : Nat) : Int :=
  let m : Int := Spec.magZ p fzi x
  if Spec.neg (Spec.width p) x then -m else m
/-- The same with −0 below +0 (R89). -/
def Spec.placeZ (p : Prec) (fzi : Bool) (x : Nat) : Int :=
  let m : Int := Spec.magZ p fzi x
  if Spec.neg (Spec.width p) x then -m - 1 else m

/-- R61, R64, R88: the float arithmetic instructions complete with the exact result rounded once under the instruction's mode, its flags
entering `ctl.fpf` and the gang's register, and nothing else changes. On finite operands it is the exact sum, difference, product, quotient, fused
sum or root that is rounded, and a zero has the sign of R62. -/
def Obligations.FloatArithmeticCompletes : Prop :=
  (∀ e ∈ Spec.float2, ∀ (o : OpF2) (s : State),
    s.cur.sState o.a = .full → s.cur.sState o.b = .full → s.cur.sState o.d ≠ .pending →
    let f := precFF o.prec
    let r := Spec.mode s o.r
    completesR (e.1 o) s o.d (marked [(o.a, o.la), (o.b, o.lb)])
      (e.2 f r (precRead o.prec r (s.cur.sVal o.a).toNat) (precRead o.prec r (s.cur.sVal o.b).toNat))) ∧
  (∀ (o : OpF2) (s : State), s.cur.sState o.a = .full → s.cur.sState o.b = .full → s.cur.sState o.d = .full →
    let f := precFF o.prec
    let r := Spec.mode s o.r
    completesR (.ffma o) s o.d (marked [(o.a, o.la), (o.b, o.lb)])
      (f.fmaV r (precRead o.prec r (s.cur.sVal o.a).toNat) (precRead o.prec r (s.cur.sVal o.b).toNat)
        (precRead o.prec r (s.cur.sVal o.d).toNat))) ∧
  (∀ (o : OpRR) p fr (s : State), s.cur.sState o.a = .full → s.cur.sState o.d ≠ .pending →
    let r := Spec.mode s fr
    completesR (.fsqrt o p fr) s o.d (marked [(o.a, o.la)]) ((precFF p).sqrtV r (precRead p r (s.cur.sVal o.a).toNat))) ∧
  (∀ (o : OpF2) (s : State), s.cur.sState o.a = .full → s.cur.sState o.b = .full → s.cur.sState o.d ≠ .pending →
    let r := Spec.mode s o.r
    let v (x : SReg) : Option Rat := Spec.operand (precFF o.prec) r.fzi (s.cur.sVal x).toNat
    let neg (x : SReg) : Bool := Spec.neg (Spec.width o.prec) (s.cur.sVal x).toNat
    let sum (m n : Bool) : Bool := if m = n then m else decide (r.rm = .rdn)
    let ends (i : Instr) (m : List SReg) (x : ℝ) (n : Bool) : Prop :=
      ∃ q, completesR i s o.d m q ∧ Spec.rounds (precFF o.prec) r.rm r.fzo x q ∧ (x = 0 → q.bits = Spec.signed (Spec.width o.prec) n 0)
    let both := marked [(o.a, o.la), (o.b, o.lb)]
    let sg := neg o.a != neg o.b
    ∀ a b, v o.a = some a → v o.b = some b →
      ends (.fadd o) both ((a : ℝ) + b) (sum (neg o.a) (neg o.b)) ∧ ends (.fsub o) both ((a : ℝ) - b) (sum (neg o.a) (!neg o.b)) ∧
      ends (.fmul o) both ((a : ℝ) * b) sg ∧ (b ≠ 0 → ends (.fdiv o) both ((a : ℝ) / b) sg) ∧
      (∀ c, v o.d = some c → s.cur.sState o.d = .full → ends (.ffma o) both ((a : ℝ) * b + c) (sum sg (neg o.d))) ∧
      (0 ≤ a → ends (.fsqrt ⟨o.d, o.a, o.la⟩ o.prec o.r) (marked [(o.a, o.la)]) (Real.sqrt a) (neg o.a)))

/-- The number of a finite value. -/
def Spec.fin : FVal → Option Rat
  | .fin neg m e => some (Spec.rat neg m e)
  | _ => none

/-- R61, R62, R88, R116: the sum, difference, product and fused product of finite values, in any format, are the exact ones rounded once, whatever
reads the operands and writes the result; and an operand is read as the number of its pattern. -/
def Spec.claimFiniteArithmetic : Prop :=
  (∀ (f : FF) (fzi : Bool) (b : Nat), Spec.fin (f.valZ fzi b) = Spec.operand f fzi b) ∧
  ∀ (f : FF) (r : Rnd) (u v w : FVal) (a b c : Rat), Spec.fin u = some a → Spec.fin v = some b → Spec.fin w = some c →
    let ends (x : ℝ) (q : FR) : Prop := Spec.rounds f r.rm r.fzo x q
    ends ((a : ℝ) + b) (f.addV r u v) ∧ ends ((a : ℝ) - b) (f.addV r u v.negate) ∧ ends ((a : ℝ) * b) (f.mulV r u v) ∧
      ends ((a : ℝ) * b + c) (f.fmaV r u v w)

/-- The operand that `FMIN` (`up` false) or `FMAX` returns, by R89. -/
def Spec.minMax (p : Prec) (fzi up : Bool) (x y : Nat) : Nat :=
  let w := Spec.width p
  let pick (z : Nat) := Spec.signed w (Spec.neg w z) (Spec.magZ p fzi z)
  if Spec.isNan p x ∧ Spec.isNan p y then Spec.nan p
  else if Spec.isNan p x then pick y
  else if Spec.isNan p y then pick x
  else if (Spec.placeZ p fzi x ≤ Spec.placeZ p fzi y) = (up = false) then pick x else pick y

/-- R89, R90, R94: `FMIN` and `FMAX` order values as their patterns are ordered and set NV for a signalling NaN alone; `FSGN` and `FCLASS`
work on the pattern and set no flag. -/
def Obligations.FloatPatternResults : Prop :=
  ∀ (o : OpRRR) (p : Prec) (s : State), s.cur.sState o.a = .full → s.cur.sState o.b = .full → s.cur.sState o.d ≠ .pending →
    let w := Spec.width p
    let x := (s.cur.sVal o.a).toNat
    let y := (s.cur.sVal o.b).toNat
    let z := s.cur.ctl.fpm.getLsbD 2
    let m := marked [(o.a, o.la), (o.b, o.lb)]
    let nv := flagIf (Spec.isSnan p x || Spec.isSnan p y) fNV
    completesR (.fmin o p) s o.d m ⟨Spec.minMax p z false x y, nv, 0⟩ ∧
    completesR (.fmax o p) s o.d m ⟨Spec.minMax p z true x y, nv, 0⟩ ∧
    completesR (.fsgn o p .cp) s o.d m ⟨Spec.signed w (Spec.neg w y) (Spec.mag w x), 0, 0⟩ ∧
    completesR (.fsgn o p .neg) s o.d m ⟨Spec.signed w (!Spec.neg w y) (Spec.mag w x), 0, 0⟩ ∧
    completesR (.fsgn o p .xor) s o.d m ⟨Spec.signed w (Spec.neg w x != Spec.neg w y) (Spec.mag w x), 0, 0⟩ ∧
    completesR (.fclass ⟨o.d, o.a, o.la⟩ p) s o.d (marked [(o.a, o.la)])
      ⟨2 ^ (if Spec.isSnan p x then 8 else if Spec.isNan p x then 9
        else
          let k := if Spec.mag w x = Spec.inf p then 3 else if Spec.normal p ≤ Spec.mag w x then 2 else if 0 < Spec.mag w x then 1 else 0
          if Spec.neg w x then 3 - k else 4 + k), 0, 0⟩

/-- R91: `FCMP` writes U where an operand is a NaN, and −0 equals +0. -/
def Spec.claimFloatComparisonResults : Prop :=
  ∀ (p : Prec) (qd : QReg) (a b : SReg) (la lb : Bool) (s : State), s.cur.sState a = .full → s.cur.sState b = .full →
    let x := (s.cur.sVal a).toNat
    let y := (s.cur.sVal b).toNat
    let z := s.cur.ctl.fpm.getLsbD 2
    let nan := Spec.isNan p x || Spec.isNan p y
    let sig := flagIf (Spec.isSnan p x || Spec.isSnan p y) fNV
    let ends (k : FCond) (fl : BitVec 6) (v : Tri) : Prop :=
      completesFp (.fcmp k p qd a b la lb) s { q := [qd] } (marked [(a, la), (b, lb)]) fl 0 fun t => t.cur.qVal qd = Spec.wroteQ qd v
    ends .eq sig (if nan then .u else Spec.tri (Spec.place p z x = Spec.place p z y)) ∧
    ends .lt (flagIf nan fNV) (if nan then .u else Spec.tri (Spec.place p z x < Spec.place p z y)) ∧
    ends .le (flagIf nan fNV) (if nan then .u else Spec.tri (Spec.place p z x ≤ Spec.place p z y)) ∧
    ends .un sig (Spec.tri (nan = true))

/-- R88, R56, R58: the special results of the float arithmetic instructions, on infinities, zeros and NaNs of either precision. -/
def Spec.claimFloatSpecialResults : Prop :=
  ∀ (o : OpF2) (s : State), s.cur.sState o.a = .full → s.cur.sState o.b = .full → s.cur.sState o.d ≠ .pending →
    let p := o.prec
    let w := Spec.width p
    let x := (s.cur.sVal o.a).toNat
    let y := (s.cur.sVal o.b).toNat
    let z := s.cur.ctl.fpm.getLsbD 2
    let mx := Spec.magZ p z x
    let my := Spec.magZ p z y
    let sg := Spec.neg w x != Spec.neg w y
    let ends (i : Instr) (bits : Nat) (fl : BitVec 6) : Prop := completesR i s o.d (marked [(o.a, o.la), (o.b, o.lb)]) ⟨bits, fl, 0⟩
    let root (bits : Nat) (fl : BitVec 6) : Prop :=
      completesR (.fsqrt ⟨o.d, o.a, o.la⟩ p o.r) s o.d (marked [(o.a, o.la)]) ⟨bits, fl, 0⟩
    (Spec.isNan p x ∨ Spec.isNan p y →
      let fl := flagIf (Spec.isSnan p x || Spec.isSnan p y) fNV
      ends (.fadd o) (Spec.nan p) fl ∧ ends (.fsub o) (Spec.nan p) fl ∧ ends (.fmul o) (Spec.nan p) fl ∧ ends (.fdiv o) (Spec.nan p) fl) ∧
    (mx = Spec.inf p → my = 0 → ends (.fmul o) (Spec.nan p) fNV) ∧
    (mx = Spec.inf p → my = Spec.inf p → ends (.fdiv o) (Spec.nan p) fNV) ∧
    (mx = 0 → my = 0 → ends (.fdiv o) (Spec.nan p) fNV) ∧
    (0 < mx → mx < Spec.inf p → my = 0 → ends (.fdiv o) (Spec.signed w sg (Spec.inf p)) fDZ) ∧
    (mx = Spec.inf p → my = Spec.inf p →
      (if sg then ends (.fadd o) (Spec.nan p) fNV else ends (.fsub o) (Spec.nan p) fNV)) ∧
    (mx = 0 → root (Spec.signed w (Spec.neg w x) 0) 0) ∧
    (Spec.isNan p x = false → 0 < mx → Spec.neg w x → root (Spec.nan p) fNV)

/-- R92, R93: every conversion completes with what R66 gives of its value under the instruction's mode; the register moves among the
codes move bits and set no flag, and a write of one half of a mask keeps the other. -/
def Spec.claimConversionsAndRegisterMoves : Prop :=
  (∀ k fr (o : OpRR) (s : State), s.cur.sState o.a = .full → s.cur.sState o.d ≠ .pending →
    completesR (.cvt (.conv k fr o.d o.a o.la)) s o.d (marked [(o.a, o.la)]) (cvtVal k (Spec.mode s fr) (s.cur.sVal o.a))) ∧
  (∀ d (a : SReg) la (s : State), s.cur.sState a = .full →
    completes (.cvt (.toP d a la)) s 4 { p := [d] } (marked [(a, la)]) [] fun t =>
      t.cur.pVal d = BitVec.ofNat 32 ((s.cur.sVal a).toNat % 2 ^ 32)) ∧
  (∀ (d : SReg) a (s : State), s.cur.sState d ≠ .pending →
    completesS (.cvt (.ofP d a)) s 4 d [] (BitVec.ofNat 64 (s.cur.pVal a).toNat)) ∧
  (∀ hi d (a : SReg) la (s : State), s.cur.sState a = .full →
    completes (.cvt (.toK hi d a la)) s 4 { k := [d] } (marked [(a, la)]) [] fun t =>
      ∀ i < 128, (t.cur.kVal d).getLsbD i =
        if d = 0 then true
        else if 64 ≤ i then (if hi then (s.cur.sVal a).getLsbD (i - 64) else (s.cur.kVal d).getLsbD i)
        else (if hi then (s.cur.kVal d).getLsbD i else (s.cur.sVal a).getLsbD i)) ∧
  (∀ hi (d : SReg) a (s : State), s.cur.sState d ≠ .pending →
    completesS (.cvt (.ofK hi d a)) s 4 d [] (BitVec.ofNat 64 ((s.cur.kVal a).toNat / (if hi then 2 ^ 64 else 1))))

/-- R66, R55: a conversion to an integer of `w` bits gives the value rounded in the mode, clamped to the range; it is counted exactly where
it is clamped, and NX is set exactly where the source has a fraction. -/
def Spec.claimIntegerConversionClamps : Prop :=
  ∀ (w : Nat) (signed : Bool) (rm : RM) (neg : Bool) (m : Nat) (e : Int), 0 < w →
    let x := Spec.rat neg m e
    let lo : Int := if signed then -2 ^ (w - 1) else 0
    let hi : Int := if signed then 2 ^ (w - 1) - 1 else 2 ^ w - 1
    let r := toInt w signed rm (.fin neg m e)
    ∃ v : Int, |(v : Rat) - x| < 1 ∧ (rm = .rne → |(v : Rat) - x| ≤ 1 / 2) ∧ (rm = .rdn → (v : Rat) ≤ x) ∧ (rm = .rup → x ≤ (v : Rat)) ∧
      (rm = .rtz → |(v : Rat)| ≤ |x|) ∧
      ((r.bits : Int) - max lo (min hi v)) % 2 ^ w = 0 ∧ r.bits < 2 ^ w ∧ r.sat = (if v < lo ∨ hi < v then 1 else 0) ∧
      (r.fl.getLsbD 5 = true ↔ r.sat = 1) ∧ (r.fl.getLsbD 0 = true ↔ ∀ n : Int, x ≠ n)

/-! ### Intervals -/

/-- Whether a pattern is read as an interval (R69): it is canonical, or a zero variant. -/
def Spec.isBox (v : Nat) : Prop :=
  let lo := v % 2 ^ 32
  let hi := v / 2 ^ 32
  v < 2 ^ 64 ∧ Spec.isNan .f32 lo = false ∧ Spec.isNan .f32 hi = false ∧ lo ≠ 0x7F800000 ∧ hi ≠ 0xFF800000 ∧
    Spec.place .f32 false lo ≤ Spec.place .f32 false hi

/-- The numbers of the interval that a pattern is read as; an infinite bound bounds nothing. -/
def Spec.inBox (v : Nat) (q : ℝ) : Prop :=
  Spec.isBox v ∧ (∀ l : Rat, Spec.value .f32 (v % 2 ^ 32) = some l → l ≤ q) ∧ (∀ h : Rat, Spec.value .f32 (v / 2 ^ 32) = some h → q ≤ h)

/-- The bounds of an interval as R142 returns them: a zero lower bound as −0, a zero upper one as +0. -/
def Spec.lo (v : Nat) : Nat := if v % 2 ^ 31 = 0 then 0x80000000 else v % 2 ^ 32
def Spec.hi (v : Nat) : Nat := if v / 2 ^ 32 % 2 ^ 31 = 0 then 0 else v / 2 ^ 32

/-- `r` is a canonical interval (R69). -/
def Spec.canonicalBox (r : Nat) : Prop := Spec.isBox r ∧ r % 2 ^ 32 = Spec.lo r ∧ r / 2 ^ 32 = Spec.hi r

/-- R139: `r` is the tightest interval around the numbers of a set: it holds all of them, and lies within every interval that does. -/
def Spec.tightest (hit : ℝ → Prop) (r : Nat) : Prop :=
  (∀ v, hit v → Spec.inBox r v) ∧ ∀ j, Spec.isBox j → (∀ v, hit v → Spec.inBox j v) → ∀ q, Spec.inBox r q → Spec.inBox j q

/-- R70, R139: `r` holds all numbers of a set, and no bound lies more than an ulp beyond that of an interval that does. -/
def Spec.anUlpWide (hit : ℝ → Prop) (r : Nat) : Prop :=
  (∀ v, hit v → Spec.inBox r v) ∧ ∀ j, Spec.isBox j → (∀ v, hit v → Spec.inBox j v) →
    Spec.place .f32 false (j % 2 ^ 32) - 1 ≤ Spec.place .f32 false (r % 2 ^ 32) ∧
    Spec.place .f32 false (r / 2 ^ 32) ≤ Spec.place .f32 false (j / 2 ^ 32) + 1

/-- The binary interval operations of R143 with the set of results that each encloses. -/
def Spec.ivSet : List ((Nat → Nat → IvR) × (ℝ → ℝ → ℝ → Prop)) :=
  [(ivAdd, fun x y v => v = x + y), (ivSub, fun x y v => v = x - y), (ivMul, fun x y v => v = x * y),
    (ivDiv, fun x y v => y ≠ 0 ∧ v = x / y), (ivMin, fun x y v => v = min x y), (ivMax, fun x y v => v = max x y),
    (ivHull, fun x y v => v = x ∨ v = y), (ivMeet, fun x y v => x = y ∧ v = x), (fun x _ => ivSqr x, fun x _ v => v = x * x),
    (fun x _ => ivRelu x, fun x _ v => v = max x 0), (fun x _ => ivMove x, fun x _ v => v = x)]

/-- R70, R139, R143: on two intervals, each operation encloses every result, and nothing that encloses every result with F32 bounds is
narrower. It gives EMPTY, with EM, exactly where there is no result. -/
def Obligations.IntervalResultsAreTightest : Prop :=
  ∀ e ∈ Spec.ivSet, ∀ a b : Nat, Spec.isBox a → Spec.isBox b →
    let r := e.1 a b
    let hit (v : ℝ) : Prop := ∃ x y, Spec.inBox a x ∧ Spec.inBox b y ∧ e.2 x y v
    Spec.tightest hit r.v.bits ∧ (r.em = true ↔ ¬∃ v, hit v) ∧ (r.em = false → Spec.canonicalBox r.v.bits) ∧
    (r.em = true → r.v = .empty) ∧ r.ni = false

/-- The interval instructions of two and of one operand (R141, R143), with the operations. -/
def Spec.iv2 : List ((OpIV2 → Instr) × (Nat → Nat → IvR)) :=
  [(.iadd, ivAdd), (.isub, ivSub), (.imul, ivMul), (.idiv, ivDiv), (.imin, ivMin), (.imax, ivMax), (.ihull, ivHull), (.imeet, ivMeet)]
def Spec.iv1 : List ((OpIV1 → Instr) × (Nat → IvR)) :=
  [(.isqr, ivSqr), (.isqrt, ivSqrt), (.iexp, ivExp), (.ilog, ivLog), (.irelu, ivRelu), (.imov, ivMove)]

/-- R64, R73, R138, R141, R143, R144: the interval instructions complete with the result of their operation, which
`IntervalResultsAreTightest` speaks of, and set the sticky bits of `ctl.ist` that it gives; a new EMPTY under TE is fault 0x51. -/
def Spec.claimIntervalInstructionsComplete : Prop :=
  (∀ e ∈ Spec.iv2, ∀ (o : OpIV2) (s : State), s.cur.ivState o.a = .full → s.cur.ivState o.b = .full → s.cur.ivState o.d ≠ .pending →
    completesIv (e.1 o) s o.d [] (marked [(o.a, o.la), (o.b, o.lb)]) (e.2 (s.cur.ivVal o.a).toNat (s.cur.ivVal o.b).toNat)) ∧
  (∀ e ∈ Spec.iv1, ∀ (o : OpIV1) (s : State), s.cur.ivState o.a = .full → s.cur.ivState o.d ≠ .pending →
    completesIv (e.1 o) s o.d [] (marked [(o.a, o.la)]) (e.2 (s.cur.ivVal o.a).toNat)) ∧
  (∀ d (a : IvReg) (b : SReg) la lb (s : State), s.cur.ivState a = .full → s.cur.sState b = .full → s.cur.ivState d ≠ .pending →
    completesIv (.iscale d a b la lb) s d (marked [(b, lb)]) (marked [(a, la)])
      (ivScale (s.cur.ivVal a).toNat ((s.cur.sVal b).toNat % 2 ^ 32)))

/-- What R142 says `ILO`, `IHI`, `IWID` and `IMID` return: the pattern for each kind of operand. For an interval with finite bounds a width
rounds up and a midpoint lies between the bounds. -/
def Spec.measure : List ((OpSIv → Instr) × (Nat → Nat → Prop)) :=
  let nan := 0x7FC00000
  [(.ilo, fun v r => (Spec.isBox v → r = Spec.lo v) ∧ (v = 0xFF8000007F800000 → r = 0x7F800000) ∧
      (¬Spec.isBox v → v ≠ 0xFF8000007F800000 → r = nan)),
    (.ihi, fun v r => (Spec.isBox v → r = Spec.hi v) ∧ (v = 0xFF8000007F800000 → r = 0xFF800000) ∧
      (¬Spec.isBox v → v ≠ 0xFF8000007F800000 → r = nan)),
    (.iwid, fun v r => (¬Spec.isBox v → r = nan) ∧
      (Spec.isBox v → ∀ l h, Spec.value .f32 (v % 2 ^ 32) = some l → Spec.value .f32 (v / 2 ^ 32) = some h →
        (r = 0x7F800000 ∧ ∀ b z, Spec.value .f32 b = some z → z < h - l) ∨
        ∃ w, Spec.value .f32 r = some w ∧ h - l ≤ w ∧ ∀ b z, Spec.value .f32 b = some z → h - l ≤ z → w ≤ z) ∧
      (Spec.isBox v → Spec.value .f32 (v % 2 ^ 32) = none ∨ Spec.value .f32 (v / 2 ^ 32) = none → r = 0x7F800000)),
    (.imid, fun v r => (¬Spec.isBox v → r = nan) ∧
      (Spec.isBox v → ∀ l h, Spec.value .f32 (v % 2 ^ 32) = some l → Spec.value .f32 (v / 2 ^ 32) = some h →
        ∃ w, Spec.value .f32 r = some w ∧ l ≤ w ∧ w ≤ h ∧ ∀ b z, Spec.value .f32 b = some z → |w - (l + h) / 2| ≤ |z - (l + h) / 2|) ∧
      (Spec.isBox v → v % 2 ^ 32 = 0xFF800000 → Spec.value .f32 (v / 2 ^ 32) ≠ none → r = 0xFF7FFFFF) ∧
      (Spec.isBox v → v / 2 ^ 32 = 0x7F800000 → Spec.value .f32 (v % 2 ^ 32) ≠ none → r = 0x7F7FFFFF) ∧
      (v = 0x7F800000FF800000 → r = 0))]

/-- R142: the instructions that read a bound or a measure; a pattern that is not canonical, a zero variant, EMPTY or NaI sets NI. -/
def Spec.claimIntervalMeasures : Prop :=
  ∀ e ∈ Spec.measure, ∀ (o : OpSIv) (s : State), s.cur.ivState o.a = .full → s.cur.sState o.d ≠ .pending →
    let v := (s.cur.ivVal o.a).toNat
    ∃ (r : Nat) (ni : Bool), r < 2 ^ 32 ∧ e.2 v r ∧
      (ni = true ↔ ¬Spec.isBox v ∧ v ≠ 0xFF8000007F800000 ∧ v ≠ 0x7FC000007FC00000) ∧
      completesIst (e.1 o) s { s := [o.d] } [] (marked [(o.a, o.la)]) ni false false fun t =>
        t.cur.sVal o.d = wroteS o.d (BitVec.ofNat 64 r) ∧ t.cur.sState o.d = .full

/-- R140, R145, R146: `IMAKE` writes an interval of two bounds that can be one, and NaI with NI of any others; `ICMP` compares with −0
equal to +0 and answers U on a NaI; `NPQ` reads NP. -/
def Spec.claimIntervalMakeAndCompare : Prop :=
  (∀ d (a b : SReg) la lb (s : State), s.cur.sState a = .full → s.cur.sState b = .full → s.cur.ivState d ≠ .pending →
    let v := (s.cur.sVal b).toNat % 2 ^ 32 * 2 ^ 32 + (s.cur.sVal a).toNat % 2 ^ 32
    ∃ (r : Nat) (ni : Bool), (Spec.isBox v → r = Spec.hi v * 2 ^ 32 + Spec.lo v ∧ ni = false) ∧
      (¬Spec.isBox v → r = 0x7FC000007FC00000 ∧ ni = true) ∧
      completesIst (.imake d a b la lb) s { iv := [d] } (marked [(a, la), (b, lb)]) [] ni false false fun t =>
        t.cur.ivVal d = BitVec.ofNat 64 r ∧ t.cur.ivState d = .full) ∧
  (∀ qd (a b : IvReg) la lb (s : State), s.cur.ivState a = .full → s.cur.ivState b = .full →
    let v := (s.cur.ivVal a).toNat
    let w := (s.cur.ivVal b).toNat
    let a1 := Spec.place .f32 false (v % 2 ^ 32)
    let a2 := Spec.place .f32 false (v / 2 ^ 32)
    let b1 := Spec.place .f32 false (w % 2 ^ 32)
    let b2 := Spec.place .f32 false (w / 2 ^ 32)
    Spec.isBox v → Spec.isBox w →
    let ends (k : ICond) (r : Tri) : Prop := completesIst (.icmp k qd a la) s { q := [qd] } [] (marked [(a, la), (b, lb)]) false false false
      fun t => t.cur.qVal qd = Spec.wroteQ qd r
    ends (.lt b lb) (if a2 < b1 then .t else if b2 ≤ a1 then .f else .u) ∧
    ends (.le b lb) (if a2 ≤ b1 then .t else if b2 < a1 then .f else .u) ∧
    ends (.eq b lb) (if a1 = a2 ∧ a2 = b1 ∧ b1 = b2 then .t else if a2 < b1 ∨ b2 < a1 then .f else .u) ∧
    ends (.sub b lb) (Spec.tri (b1 ≤ a1 ∧ a2 ≤ b2)) ∧ ends (.dis b lb) (Spec.tri (a2 < b1 ∨ b2 < a1))) ∧
  (∀ qd (a : IvReg) la (s : State), s.cur.ivState a = .full →
    let v := (s.cur.ivVal a).toNat
    (v = 0xFF8000007F800000 ∨ Spec.isBox v → completesIst (.icmp .emp qd a la) s { q := [qd] } [] (marked [(a, la)]) false false false fun t =>
      t.cur.qVal qd = Spec.wroteQ qd (Spec.tri (v = 0xFF8000007F800000))) ∧
    (v = 0x7FC000007FC00000 → ∀ (b : IvReg) lb, s.cur.ivState b = .full →
      ∀ k ∈ [ICond.lt b lb, .le b lb, .eq b lb, .sub b lb, .dis b lb], ∃ t, exec (.icmp k qd a la) s = .next t ∧
        t.cur.qVal qd = Spec.wroteQ qd .u)) ∧
  (∀ qd (s : State), completes (.npq qd) s 4 { q := [qd] } [] [] fun t =>
    t.cur.qVal qd = Spec.wroteQ qd (Spec.tri (s.cur.ctl.ist.getLsbD 0 = true)))

/-- The contractors' relations over numbers (R147). -/
def Spec.relation : List (Rel × (ℝ → ℝ → ℝ → Prop)) :=
  [(.add, fun x y z => z = x + y), (.sub, fun x y z => z = x - y), (.mul, fun x y z => z = x * y),
    (.div, fun x y z => y ≠ 0 ∧ z = x / y), (.sqr, fun x _ z => z = x * x), (.relu, fun x _ z => z = max x 0),
    (.max, fun x y z => z = max x y)]

/-- A step of a contractor (R148): `v` becomes the interval around those of its numbers that some numbers of the other operands complete to a
solution, as `around` says of the two; there is none exactly where there is no such number. -/
def Spec.step (around : (ℝ → Prop) → Nat → Prop) (hit : ℝ → Prop) (v : Nat) (r : Option Nat) : Prop :=
  let set (q : ℝ) : Prop := Spec.inBox v q ∧ hit q
  (r = none ↔ ¬∃ q, set q) ∧ ∀ x, r = some x → Spec.canonicalBox x ∧ around set x ∧ ∀ q, Spec.inBox x q → Spec.inBox v q

/-- Whether a bound moves by more than `nth` ulps, or between infinite and finite (R72). -/
def Spec.moves (nth old new : Nat) : Prop :=
  (nth : Int) < |Spec.place .f32 false old - Spec.place .f32 false new| ∨ (old % 2 ^ 31 = 0x7F800000 ↔ ¬new % 2 ^ 31 = 0x7F800000)

/-- R148 to R150: what a contractor of relation `P` leaves of the operands a, b (`bin`) and c, of which some share a register as `sh` says. Its steps
run in order, each over the newest values; where one finds nothing, every operand written is EMPTY. `ok` is what an exponential step needs of
the operand it reads. -/
def Spec.runs (around : (ℝ → Prop) → Nat → Prop) (ok : Bool → Nat → Prop) (P : ℝ → ℝ → ℝ → Prop) (bin noZ : Bool) (sh : Shared) (nth a b c : Nat)
    (t : CtrR) : Prop :=
  let zWritten : Bool := !noZ || sh.xz || (bin && sh.yz)
  let emptied (n : Nat) : Prop := t.em = true ∧ t.which = n ∧ t.np = true ∧ t.x = 0xFF8000007F800000 ∧
    (bin = true → t.y = 0xFF8000007F800000) ∧ (zWritten = true → t.z = 0xFF8000007F800000)
  t.ni = false ∧ (bin = false → t.y = b) ∧ (zWritten = false → t.z = c) ∧ (ok true c →
    ∃ x1, Spec.step around (fun q => ∃ v w, Spec.inBox b v ∧ Spec.inBox c w ∧ P q v w) a x1 ∧ (x1 = none → emptied 0) ∧ ∀ x, x1 = some x →
      let b1 := if sh.xy then x else b
      let c1 := if sh.xz then x else c
      ∃ y1, (if bin then Spec.step around (fun q => ∃ u w, Spec.inBox x u ∧ Spec.inBox c1 w ∧ P u q w) b1 y1 else y1 = some b1) ∧
        (y1 = none → emptied 1) ∧ ∀ y, y1 = some y →
        let x2 := if bin ∧ sh.xy then y else x
        let c2 := if bin ∧ sh.yz then y else c1
        (noZ = true ∨ ok false x2) →
          ∃ z1, (if noZ then z1 = some c2 else Spec.step around (fun q => ∃ u v, Spec.inBox x2 u ∧ Spec.inBox y v ∧ P u v q) c2 z1) ∧
            (z1 = none → emptied 2) ∧ ∀ z, z1 = some z →
            t.em = false ∧ t.x = (if !noZ && sh.xz then z else x2) ∧ (bin = true → t.y = if !noZ && sh.yz then z else y) ∧
            (zWritten = true → t.z = z) ∧
            (t.np = true ↔ ∃ p ∈ [(a, t.x)] ++ (if bin then [(b, t.y)] else []) ++ (if noZ then [] else [(c, t.z)]),
              Spec.moves nth (p.1 % 2 ^ 32) (p.2 % 2 ^ 32) ∨ Spec.moves nth (p.1 / 2 ^ 32) (p.2 / 2 ^ 32)))

/-- R147 to R150: each step of a contractor leaves the projection of its relation, rounded outward and no wider, with any operands in one register; so
no triple that satisfies the relation and lies in the old intervals is lost, and nothing is widened. The exponential contractor has its own
statement, `TranscendentalResultsStayNear`.
The model's choice: emptiness is decided before an ulp is added (log 21). -/
def Obligations.ContractorsLoseNoSolution : Prop :=
  ∀ e ∈ Spec.relation, ∀ (noZ : Bool) (sh : Shared) (nth a b c : Nat), Spec.isBox a → Spec.isBox b → Spec.isBox c →
    let t := contract e.1 sh noZ nth a b c
    Spec.runs Spec.tightest (fun _ _ => True) e.2 e.1.binary noZ sh nth a b c t ∧
    ((sh.xy = true → a = b) → (sh.xz = true → a = c) → (sh.yz = true → b = c) →
      (∀ x y z, (sh.xy = true → x = y) → (sh.xz = true → x = z) → (sh.yz = true → y = z) →
        Spec.inBox a x → Spec.inBox b y → Spec.inBox c z → e.2 x y z →
        t.em = false ∧ Spec.inBox t.x x ∧ Spec.inBox t.y y ∧ Spec.inBox t.z z) ∧
      (∀ q, Spec.inBox t.x q → Spec.inBox a q) ∧ (∀ q, Spec.inBox t.y q → Spec.inBox b q) ∧ (∀ q, Spec.inBox t.z q → Spec.inBox c q))

/-- R132: a result `v` for the exact value `x` is that value rounded, or a neighbour of it in the format. NX is set unless it is the exact value,
OF where it is infinite, UF where it is inexact below the smallest normal; FZO puts a zero in the place of a subnormal. -/
def Spec.near (g : FF) (r : Rnd) (x : ℝ) (v : FR) : Prop :=
  let top := 2 ^ (g.width - 1)
  let ord (b : Nat) : Int := if b / top % 2 = 1 then -(b % top : Nat) else (b % top : Nat)
  ∃ q b, Spec.rounds g r.rm false x q ∧ |ord b - ord q.bits| ≤ 1 ∧ b < 2 * top ∧ b % top ≤ Spec.infOf g ∧
    v.bits = (if r.fzo ∧ 0 < b % top ∧ b % top < 2 ^ g.fb then b / top * top else b) ∧
    (v.fl &&& fNX = 0 ↔ ∃ y, Spec.value g v.bits = some y ∧ (y : ℝ) = x) ∧ (b % top = Spec.infOf g → v.fl &&& fOF ≠ 0) ∧
    (v.fl &&& fNX ≠ 0 → b % top < 2 ^ g.fb → v.fl &&& fUF ≠ 0) ∧ v.fl &&& (fDZ ||| fNV ||| fST) = 0 ∧ v.sat = 0

/-- A number keeps away from every number of 26 bits that is no multiple of a power of two below 2⁻¹⁵², and so from every point where a rounding to
F32, BF16 or F16 turns, by more than 2⁻²⁰⁰, or that part of itself. -/
def Spec.clear (x : ℝ) : Prop :=
  ∀ n k : Int, n ≠ 0 → |n| ≤ 2 ^ 26 → -152 ≤ k → (2 : ℝ) ^ (-200 : Int) * max 1 |x| < |x - n * (2 : ℝ) ^ k|

/-- Every finite bound of an interval at which `f` is not exact (`at_`) has a clear result. -/
def Spec.clearBounds (f : ℝ → ℝ) (dom : ℝ → Prop) (at_ : ℝ) (v : Nat) : Prop :=
  ∀ b ∈ [v % 2 ^ 32, v / 2 ^ 32], ∀ q : Rat, Spec.value .f32 b = some q → dom q → (q : ℝ) = at_ ∨ Spec.clear (f q)

/-- R70, R132, R139, R148: the exponential, the logarithm, the root and the hyperbolic tangent. `ISQRT`, `IEXP` and `ILOG` enclose every result, and no
bound lies more than an ulp beyond the tightest; the steps of `CEXP` do the same and widen nothing; an element of `VEXP` or `VTANH` is the exact
value rounded, or a neighbour. `ISQRT` apart, it is said of results that are not within 2⁻²⁰⁰ of a point where a rounding turns.
The model's choice: an ulp that may be added, and a neighbour that may be taken, are free values, and results come of numbers with 256 bits after
the point (log 18, 19, 20, 21). -/
def Obligations.TranscendentalResultsStayNear : Prop :=
  (∀ a : Nat, Spec.isBox a →
    let ends (r : IvR) (hit : ℝ → Prop) : Prop :=
      (r.em = true ↔ ¬∃ v, hit v) ∧ (r.em = true → r.v = .empty) ∧ r.ni = false ∧
      (r.em = false → Spec.canonicalBox r.v.bits ∧ Spec.anUlpWide hit r.v.bits)
    ends (ivSqrt a) (fun v => ∃ x, Spec.inBox a x ∧ 0 ≤ x ∧ v = Real.sqrt x) ∧
    (Spec.clearBounds Real.exp (fun _ => True) 0 a → ends (ivExp a) fun v => ∃ x, Spec.inBox a x ∧ v = Real.exp x) ∧
    (Spec.clearBounds Real.log (0 < ·) 1 a → ends (ivLog a) fun v => ∃ x, Spec.inBox a x ∧ 0 < x ∧ v = Real.log x)) ∧
  (∀ (noZ : Bool) (sh : Shared) (nth a b c : Nat), Spec.isBox a → Spec.isBox b → Spec.isBox c →
    Spec.runs Spec.anUlpWide (fun log v => if log then Spec.clearBounds Real.log (0 < ·) 1 v else Spec.clearBounds Real.exp (fun _ => True) 0 v)
      (fun x _ z => z = Real.exp x) false noZ sh nth a b c (contract .exp sh noZ nth a b c)) ∧
  (∀ g ∈ [FF.f32, .bf16, .f16], ∀ (code : Nat) (r : Rnd) (x : Nat), x < 2 ^ g.width → ∀ a, Spec.operand g r.fzi x = some a → a ≠ 0 →
    (Spec.clear (Real.exp a) → Spec.near g r (Real.exp a) (g.approx .exp code r x)) ∧
    (Spec.clear (Real.tanh a) ∨ |a| < 2 ^ (-60 : Int) ∨ 32 ≤ |a| → Spec.near g r (Real.tanh a) (g.approx .tanh code r x)))

/-- The contractor instructions (R147), each with its relation. -/
def Spec.ctr3 : List ((OpIC3 → Instr) × Rel) := [(.cadd, .add), (.csub, .sub), (.cmul, .mul), (.cdiv, .div), (.cmax, .max)]
def Spec.ctr2 : List ((OpIC2 → Instr) × Rel) := [(.csqr, .sqr), (.cexp, .exp), (.crelu, .relu)]

/-- What a contractor of registers x, y (`bin`) and z leaves, by R148 to R150. -/
def Spec.contracts (i : Instr) (s : State) (r : Rel) (bin : Bool) (x y z : IvReg) (lz : Bool) : Prop :=
  let v (n : IvReg) := (s.cur.ivVal n).toNat
  let t := contract r { xy := bin && x == y, xz := x == z, yz := bin && y == z } lz (istNth s.cur.ctl.ist) (v x)
    (if bin then v y else 0) (v z)
  if t.em ∧ istTe s.cur.ctl.ist then exec i s = .next (s.raise s.curId ⟨.emptyIv, 0, BitVec.ofNat 64 t.which⟩ 2)
  else completesIst i s { iv := [x] ++ (if bin then [y] else []) ++ (if lz then [] else [z]) } [] (marked [(z, lz)]) t.ni t.em t.np fun u =>
    u.cur.ivVal x = BitVec.ofNat 64 t.x ∧ u.cur.ivState x = .full ∧
    (bin → u.cur.ivVal y = BitVec.ofNat 64 t.y ∧ u.cur.ivState y = .full) ∧
    (lz = false → u.cur.ivVal z = BitVec.ofNat 64 t.z ∧ u.cur.ivState z = .full)

/-- R147 to R150: the contractor instructions write every operand that they contract, and under lz leave z dead instead of writing it. -/
def Spec.claimContractorsComplete : Prop :=
  (∀ e ∈ Spec.ctr3, ∀ (o : OpIC3) (s : State), s.cur.ivState o.x = .full → s.cur.ivState o.y = .full → s.cur.ivState o.z = .full →
    Spec.contracts (e.1 o) s e.2 true o.x o.y o.z o.lz) ∧
  (∀ e ∈ Spec.ctr2, ∀ (o : OpIC2) (s : State), s.cur.ivState o.x = .full → s.cur.ivState o.z = .full →
    Spec.contracts (e.1 o) s e.2 false o.x 0 o.z o.lz)

/-! ### Control transfer, identity and control registers -/

/-- The address `n` halfwords from another (R45). -/
def Spec.away (a : Word) (n : Int) : Word := BitVec.ofInt 64 (a.toInt + 2 * n)

/-- Whether a predicate satisfies a condition of `BQ` (R96). -/
def Spec.takes : BqCond → Tri → Prop
  | .t, v => v = .t
  | .f, v => v = .f
  | .u, v => v = .u
  | .nt, v => v = .f ∨ v = .u

/-- R95: jumps, calls and the return. A call writes the address behind it to `s30`; `CALLR` reads its register before that. -/
def Spec.claimJumpsAndCalls : Prop :=
  ∀ (s : State), let pc := s.cur.pc
    (∀ off, jumps (.br off) s (Spec.away pc off.toInt) {} [] fun _ => True) ∧
    (∀ off, jumps (.brS off) s (Spec.away pc off.toInt) {} [] fun _ => True) ∧
    (∀ (a : SReg) la n, s.cur.sState a = .full →
      jumps (.jr a la n) s (Spec.away (s.cur.sVal a) n.toInt) {} (marked [(a, la)]) fun _ => True) ∧
    (s.cur.sState 30 = .full → jumps .ret s (s.cur.sVal 30) {} [] fun _ => True) ∧
    (s.cur.sState 30 ≠ .pending →
      (∀ off, jumps (.call off) s (Spec.away pc off.toInt) { s := [30] } [] fun t =>
        t.cur.sVal 30 = pc + 4 ∧ t.cur.sState 30 = .full) ∧
      (∀ off, jumps (.callS off) s (Spec.away pc off.toInt) { s := [30] } [] fun t =>
        t.cur.sVal 30 = pc + 2 ∧ t.cur.sState 30 = .full) ∧
      (∀ (a : SReg) la n, s.cur.sState a = .full →
        jumps (.callr a la n) s (Spec.away (s.cur.sVal a) n.toInt) { s := [30] } (marked [(a, la)]) fun t =>
          t.cur.sVal 30 = pc + 4 ∧ t.cur.sState 30 = .full))

/-- R96, R97: conditional branches; `LOOP` counts down modulo 2⁶⁴ and branches unless the count has become 0, and on `s0` it is fault
0x01. -/
def Spec.claimConditionalBranches : Prop :=
  ∀ (s : State), let pc := s.cur.pc
    (∀ k q off, (Spec.takes k (s.cur.qVal q) → jumps (.bq k q off) s (Spec.away pc off.toInt) {} [] fun _ => True) ∧
      (¬Spec.takes k (s.cur.qVal q) → jumps (.bq k q off) s (pc + 4) {} [] fun _ => True)) ∧
    (∀ e ∈ [((Instr.bqt, Tri.t) : (QReg → BitVec 7 → Instr) × Tri), (.bqf, .f), (.bqu, .u)], ∀ q off,
      jumps (e.1 q off) s (if s.cur.qVal q = e.2 then Spec.away pc off.toInt else pc + 2) {} [] fun _ => True) ∧
    (∀ (d : SReg) off, d ≠ 0 → s.cur.sState d = .full →
      let v := BitVec.ofInt 64 ((s.cur.sVal d).toInt - 1)
      jumps (.loop d off) s (if v.toNat = 0 then pc + 4 else Spec.away pc off.toInt) { s := [d] } [] fun t =>
        t.cur.sVal d = v ∧ t.cur.sState d = .full) ∧
    (∀ off, exec (.loop 0 off) s = .next (s.raise s.curId ⟨.undef, pc, encInfo (encode (.loop 0 off))⟩ 2))

/-- R98, R107, R382: `TRAP` always takes the exception 0x60 with its number. `UPRET` clears UP and goes on at `ctl.tpc`, `UPRET.SKIP` behind the
instruction there; with UP = 0 either is fault 0x01 with its halfword. -/
def Spec.claimTrapAndUpcallReturn : Prop :=
  ∀ (s : State), let c := s.cur
    (∀ n : BitVec 15, exec (.trap n) s = .next (s.raise s.curId ⟨.trap, 0, BitVec.ofNat 64 n.toNat⟩ 2)) ∧
    (c.ctl.tcause.getLsbD 8 = true →
      ∀ e ∈ [((Instr.upret, 0, 0) : Instr × Nat × Nat), (.upretSkip, 2, 4)], ∃ t, exec e.1 s = .next t ∧ s.onlyCur t ∧ c.keeps t.cur {} [] [] ∧
        (∃ k, t.cur.ctl = { c.ctl with tcause := k } ∧ ∀ i < 11, k.getLsbD i = if i = 8 then false else c.ctl.tcause.getLsbD i) ∧
        t.cur.pc = c.ctl.tpc + (match c.ctl.tcause.toNat / 2 ^ 9 with | 1 => BitVec.ofNat 64 e.2.1 | 2 => BitVec.ofNat 64 e.2.2 | _ => 0) ∧
        t.cur.wait = none) ∧
    (c.ctl.tcause.getLsbD 8 = false →
      exec .upret s = .next (s.raise s.curId ⟨.undef, c.pc, 0x7D00⟩ 1) ∧ exec .upretSkip s = .next (s.raise s.curId ⟨.undef, c.pc, 0x7D01⟩ 1))

/-- The identity registers by index (R26). -/
def Spec.identity (s : State) : List Word :=
  let c := s.cur
  let i := c.ident
  let n (x : Nat) := BitVec.ofNat 64 x
  [n s.curId, n c.core, (match c.place with | .slot k => n k | .stopped (some k) _ => n k | _ => 0), n (c.core / 192), n (c.core % 192 / 64),
    n i.node, i.arg, n i.gx, n i.gy, n i.gw, n i.gh, n i.nstr, n i.sidx, n i.ext0, n i.ext1, n i.org0, n i.org1, i.win, i.amend]

/-- The strand-scoped control registers by index (R28), and behind the reserved indices 14 and 15 the core's and the gang's. -/
def Spec.control (s : State) : List (Option Word) :=
  let c := s.cur.ctl
  let k := s.core s.cur.core
  let g := s.gangs.find? s.cur.ident.gang
  let n (x : Nat) := some (BitVec.ofNat 64 x)
  [n c.fpm.toNat, n c.fpf.toNat, n c.ist.toNat, n c.vl, n c.wlim.toNat, some c.tvec, n c.tcause.toNat, some c.tinfo, some c.taddr, some c.tpc,
    n c.mig.toNat, n c.nant.toNat, some c.satc, n c.quantum.toNat, none, none, n k.rot.toNat, n k.bslim, n k.starve,
    n (match g with | some g => g.fpf.toNat | none => 0), n (match g with | some g => g.np.toNat | none => 0)]

/-- R26, R28, R29, R100, R101: `RDID` and `RDCTL` write the register of the index; any other index is fault 0x01. -/
def Spec.claimIdentityAndControlReads : Prop :=
  ∀ (d : SReg) (n : BitVec 15) (s : State),
    (∀ v, (Spec.identity s)[n.toNat]? = some v → s.cur.sState d ≠ .pending → completesS (.rdid d n) s 4 d [] v) ∧
    ((Spec.identity s)[n.toNat]? = none →
      exec (.rdid d n) s = .next (s.raise s.curId ⟨.undef, s.cur.pc, encInfo (encode (.rdid d n))⟩ 2)) ∧
    (∀ v, (Spec.control s)[n.toNat]? = some (some v) → s.cur.sState d ≠ .pending → completesS (.rdctl d n) s 4 d [] v) ∧
    ((Spec.control s)[n.toNat]?.join = none →
      exec (.rdctl d n) s = .next (s.raise s.curId ⟨.undef, s.cur.pc, encInfo (encode (.rdctl d n))⟩ 2))

/-- What a control register holds after a write of `v` over `old` (R102). -/
def Spec.written (i : Nat) (old v : Nat) : Nat :=
  match i with
  | 0 => v % 2 ^ 4
  | 1 => v % 2 ^ 6
  | 2 => v % 2 ^ 16 / 2 ^ 8 * 2 ^ 8 + v % 2 ^ 4
  | 3 => min v 2048
  | 4 => v % 2 ^ 32
  | 6 => old / 2 ^ 8 * 2 ^ 8 + v % 2 ^ 8
  | 10 => v % 2 ^ 8
  | 11 => v % 2
  | 13 => v % 2 ^ 16
  | 16 => v % 2
  | 17 => if v % 2 ^ 9 = 0 then 1 else min (v % 2 ^ 9) 256
  | 18 => v % 2 ^ 32
  | 19 | 20 => old
  | _ => v

/-- R7, R29, R65, R102: `WRCTL` writes the listed bits of one control register and no other one, but that the bits it sets in `ctl.fpf` and
in NP enter the gang's registers. It completes for a strand-scoped index, for the gang's, which it ignores, and in system mode for the
core's; in user mode a core-scoped index is fault 0x04, once the source is read, and an unlisted one fault 0x01. -/
def Spec.claimControlWrites : Prop :=
  ∀ (d : SReg) (n : BitVec 15) (s : State),
    let i := n.toNat
    let v := s.cur.sVal d
    (∀ old, (Spec.control s)[i]? = some (some old) → s.cur.sState d = .full → (16 ≤ i → i ≤ 18 → s.cur.ident.system = true) →
      ∃ t, exec (.wrctl d n) s = .next t ∧ s.cur.keeps t.cur {} [] [] ∧ t.cur.pc = s.cur.pc + 4 ∧ t.cur.wait = none ∧ t.mem = s.mem ∧
        (∀ c, t.core c = s.core c ∨ 16 ≤ i ∧ i ≤ 18 ∧ c = s.cur.core ∧
          t.core c = { s.core c with rot := (t.core c).rot, bslim := (t.core c).bslim, starve := (t.core c).starve }) ∧
        (Spec.control t)[i]? = some (some (BitVec.ofNat 64 (Spec.written i old.toNat v.toNat))) ∧
        ∀ j, j ≠ i → j ≤ 18 → (Spec.control t)[j]? = (Spec.control s)[j]?) ∧
    (s.cur.sState d = .full → ∀ g, s.gangs.find? s.cur.ident.gang = some g → ∃ t, exec (.wrctl d n) s = .next t ∧
      (i = 1 → (t.gangs.find? s.cur.ident.gang).map (·.fpf) = some (g.fpf ||| v.setWidth 6)) ∧
      (i = 2 → (t.gangs.find? s.cur.ident.gang).map (·.np) = some (g.np || v.getLsbD 0)) ∧
      (3 ≤ i → i ≤ 13 → t.gangs.find? s.cur.ident.gang = some g)) ∧
    (16 ≤ i → i ≤ 18 → s.cur.ident.system = false → s.cur.sState d = .full →
      exec (.wrctl d n) s = .next (s.raise s.curId ⟨.priv, s.cur.pc, encInfo (encode (.wrctl d n))⟩ 2)) ∧
    (16 ≤ i → i ≤ 18 → s.cur.sState d = .dead →
      exec (.wrctl d n) s = .next (s.raise s.curId ⟨.dead, 0, BitVec.ofNat 64 d.toNat⟩ 2)) ∧
    ((i = 14 ∨ i = 15 ∨ 21 ≤ i) →
      exec (.wrctl d n) s = .next (s.raise s.curId ⟨.undef, s.cur.pc, encInfo (encode (.wrctl d n))⟩ 2))

/-- R165, R102: a `WRCTL` of `ctl.rot` is in force from the next cycle whose count on the core's die is a multiple of 16: until then the mode
stays, and the event of that cycle brings in what the register then holds. -/
def Spec.claimRotationModeSwitch : Prop :=
  (∀ (d : SReg) (s : State), s.cur.sState d = .full → s.cur.ident.system = true →
    ∃ t, exec (.wrctl d 16) s = .next t ∧ (t.core s.cur.core).rotNow = (s.core s.cur.core).rotNow ∧
      ∃ n, 0 < n ∧ n ≤ 16 ∧ (s.dieNow s.cur.core + n) % 16 = 0 ∧
        (⟨s.dieTime s.cur.core n, rankFill, .rotModeSwitch, { id := s.cur.core }⟩ : Due) ∈ t.cal) ∧
  (∀ (s : State), ∃ t, exec .rotModeSwitch s = .next t ∧ (t.core s.arg.id).rotNow = (s.core s.arg.id).rot ∧
    (∀ c, c ≠ s.arg.id → t.core c = s.core c) ∧ t.strands = s.strands ∧ t.mem = s.mem ∧ t.cal = s.cal)

/-- R99, R108, R196: `SETVL` grants at most 2,048 and returns what it grants; `NOP` and `NPCLR` do only what they say; `XSET` and `XGET` move
a doubleword between an `s` and an `x` register. -/
def Obligations.LengthNopAndDescriptionMoves : Prop :=
  (∀ (d a : SReg) la (n : BitVec 9) (s : State), s.cur.sState a = .full → s.cur.sState d ≠ .pending →
    let v := min (((s.cur.sVal a).toNat + n.toNat) % 2 ^ 64) 2048
    ∃ t, exec (.setvl d a la n) s = .next t ∧ s.onlyCur t ∧ s.cur.keeps t.cur { s := [d] } (marked [(a, la)]) [] ∧
      t.cur.ctl = { s.cur.ctl with vl := v } ∧ t.cur.sVal d = wroteS d (BitVec.ofNat 64 v) ∧ t.cur.sState d = .full ∧
      t.cur.pc = s.cur.pc + 4 ∧ t.cur.wait = none) ∧
  (∀ s : State, completes .nop s 2 {} [] [] fun _ => True) ∧
  (∀ s : State, ∃ t, exec .npclr s = .next t ∧ s.onlyCur t ∧ s.cur.keeps t.cur {} [] [] ∧
    (∃ k, t.cur.ctl = { s.cur.ctl with ist := k } ∧ ∀ i < 16, k.getLsbD i = (i != 0 && s.cur.ctl.ist.getLsbD i)) ∧
    t.cur.pc = s.cur.pc + 2 ∧ t.cur.wait = none) ∧
  (∀ x (a : SReg) la (s : State), s.cur.sState a = .full →
    completes (.xset x a la) s 4 { x := [x] } (marked [(a, la)]) [] fun t => t.cur.xVal x = s.cur.sVal a) ∧
  (∀ (d : SReg) x (s : State), s.cur.sState d ≠ .pending → completesS (.xget d x) s 4 d [] (s.cur.xVal x))

/-! ### Scratchpad, tagged words, fills and barriers -/

/-- The scratchpad loads and stores with their sizes and lengths (R103, R40): the instruction, its bytes, its size, and its operands of format
M. The 16-bit forms carry no mark; `LDS.SP` and `STS.SP` are based on `s31` with an unsigned offset. -/
def Spec.spForms (o : OpM) (n : BitVec 5) : List (Instr × Instr × Nat × Nat × OpM) :=
  [(.ldsB o, .stsB o, 4, 1, o), (.ldsH o, .stsH o, 4, 2, o), (.ldsW o, .stsW o, 4, 4, o), (.ldsD o, .stsD o, 4, 8, o),
    (.lds16 ⟨o.t, o.a⟩, .sts16 ⟨o.t, o.a⟩, 2, 8, ⟨o.t, o.a, false, 0⟩),
    (.ldsSp o.t n, .stsSp o.t n, 2, 8, ⟨o.t, 31, false, n.setWidth 9⟩)]

/-- The address of format M, and the number that bytes hold in little-endian order (R4). -/
def Spec.addrM (base : Word) (off : BitVec 9) (n : Nat) : Word := BitVec.ofInt 64 (base.toInt + off.toInt * n)
def Spec.bytes (m : Nat → Byte) (a : Nat) : Nat → Nat
  | 0 => 0
  | n + 1 => (m a).toNat + 256 * Spec.bytes m (a + 1) n

/-- R22, R103: where its address lies in the scratchpad, its operands are there and nothing holds the range, a load writes the bytes,
zero-extended, and changes no memory; a store writes the low bytes of its register at that address, and every other byte of every
scratchpad, every tag and all of main memory stay. -/
def Obligations.ScratchpadAccesses : Prop :=
  ∀ (o0 : OpM) (n5 : BitVec 5), ∀ e ∈ Spec.spForms o0 n5, ∀ (s : State),
    let len := e.2.2.1
    let n := e.2.2.2.1
    let o := e.2.2.2.2
    let ad := addrM (s.cur.sVal o.a) o.off n
    let k := s.core s.cur.core
    s.cur.sState o.a = .full → s.cur.acq = none → ad.toNat + n ≤ 0x60000 → ad.toNat % n = 0 →
    ad = Spec.addrM (s.cur.sVal o.a) o.off n ∧
    (s.cur.sState o.t ≠ .pending → needRange k ad.toNat n false = .ok () → needClean k ad.toNat n = .ok () → k.sp.wf = true →
      completesS e.1 s len o.t (marked [(o.a, o.la)]) (BitVec.ofNat 64 (Spec.bytes k.sp.get ad.toNat n))) ∧
    (s.cur.sState o.t = .full → needRange k ad.toNat n true = .ok () →
      ∃ t, exec e.2.1 s = .next t ∧ s.cur.keeps t.cur {} (marked [(o.a, o.la)]) [] ∧ t.cur.ctl = s.cur.ctl ∧
        t.cur.pc = s.cur.pc + BitVec.ofNat 64 len ∧ t.cur.wait = none ∧
        (∀ a, (t.core s.cur.core).sp.get a =
          if ad.toNat ≤ a ∧ a < ad.toNat + n then BitVec.ofNat 8 ((s.cur.sVal o.t).toNat / 256 ^ (a - ad.toNat)) else k.sp.get a) ∧
        t.core s.cur.core = { k with sp := (t.core s.cur.core).sp, spPoison := (t.core s.cur.core).spPoison } ∧
        t = { s with strands := t.strands, cores := t.cores } ∧ (∀ c, c ≠ s.cur.core → t.core c = s.core c) ∧
        ∀ g, g ≠ s.curId → t.strands.find? g = s.strands.find? g)

/-- R22: an access whose bytes leave the scratchpad is fault 0x06, any other whose address is not a multiple of its size is fault 0x05. -/
def Spec.claimScratchpadFaults : Prop :=
  ∀ (o0 : OpM) (n5 : BitVec 5), ∀ e ∈ Spec.spForms o0 n5, ∀ (s : State),
    let n := e.2.2.2.1
    let o := e.2.2.2.2
    let ad := addrM (s.cur.sVal o.a) o.off n
    s.cur.sState o.a = .full → s.cur.acq = none →
    ∀ i ∈ [e.1, e.2.1], (i = e.1 → s.cur.sState o.t ≠ .pending) → (i = e.2.1 → s.cur.sState o.t = .full) →
      (0x60000 < ad.toNat + n → exec i s = .next (s.raise s.curId ⟨.range, ad, 0⟩ (if e.2.2.1 = 2 then 1 else 2))) ∧
      (ad.toNat + n ≤ 0x60000 → ad.toNat % n ≠ 0 → exec i s = .next (s.raise s.curId ⟨.align, ad, 0⟩ (if e.2.2.1 = 2 then 1 else 2)))

/-- R105, R106, R191, R192: `TAKE` moves a value and leaves its source empty, unless source and destination are one; `EMPTY` makes a register
empty; `WAITF` on a full register goes on. A fill held for the emptied register is applied at the start of the next cycle. -/
def Obligations.TakeEmptyAndWaitf : Prop :=
  ∀ (s : State),
    let held (t : State) (r : SReg) : Prop := r ≠ 0 → t.cur.sState r = .empty → s.cur.place ≠ .saved → s.heldFills s.curId (.s r) ≠ [] →
      ∃ d ∈ t.cal, d.time ≤ s.now + 1 ∧ d.ev = .rfillArrival ∧ d.arg.id = s.curId ∧ d.arg.idx = r.toNat
    (∀ (o : OpA), s.cur.sState o.a = .full → s.cur.sState o.d ≠ .pending →
      ∃ t, exec (.take o) s = .next t ∧ s.elsewhere t ∧ s.cur.keeps t.cur { s := [o.a, o.d] } [] [] ∧ t.cur.ctl = s.cur.ctl ∧
        t.cur.pc = s.cur.pc + 2 ∧ t.cur.wait = none ∧ t.cur.sVal o.d = wroteS o.d (s.cur.sVal o.a) ∧ t.cur.sState o.d = .full ∧
        (o.a ≠ o.d → o.a ≠ 0 → t.cur.sState o.a = .empty) ∧ held t o.a) ∧
    (∀ (n : SReg), s.cur.sState n ≠ .pending →
      ∃ t, exec (.empty n) s = .next t ∧ s.elsewhere t ∧ s.cur.keeps t.cur { s := [n] } [] [] ∧ t.cur.ctl = s.cur.ctl ∧
        t.cur.pc = s.cur.pc + 2 ∧ t.cur.wait = none ∧ t.cur.sState n = (if n = 0 then .full else .empty) ∧ held t n) ∧
    (∀ (r : FillReg) l, s.cur.fillState r = .full → completes (.waitf r l) s 4 {} [] [] fun _ => True)

/-- Nothing holds up a drain of the strand (R255), and no close of a span (R283). -/
def Spec.drained (s : State) (d : Drain) : Prop :=
  s.undrained s.curId d = false ∧ s.cur.fails = [] ∧ s.cur.span = [] ∧ s.cur.closes = 0

/-- The tagged-word address `a` of the strand's own core, and of core `c` (R185). -/
def Spec.tagLocal (a : Nat) : Word := BitVec.ofNat 64 a
def Spec.tagRemote (c a : Nat) : Word := BitVec.ofNat 64 (2 ^ 34 + c * 2 ^ 24 + a)

/-- R186, R187, R188: on a word of the strand's own core for which nobody waits, `TLDS` of a full word takes it and leaves it empty, `TSTS` of
an empty one writes it and leaves it full, and `TSTR` leaves it empty with its data. Nothing else of the scratchpad or its tags
changes. -/
def Spec.claimTaggedWordsOfTheOwnCore : Prop :=
  ∀ (s : State) (a : Nat) (o : OpLW), a + 8 ≤ 0x60000 → a % 8 = 0 →
    let k := s.core s.cur.core
    s.cur.acq = none → s.cur.grant = none → s.cur.sState o.a = .full → s.cur.sVal o.a = Spec.tagLocal a → (∀ t ∈ k.tagWaits, t.addr ≠ a) →
    let ends (i : Instr) (w : RegSet) (full : Bool) (post : State → Prop) : Prop :=
      ∃ t, exec i s = .next t ∧ s.cur.keeps t.cur w [] [] ∧ t.cur.ctl = s.cur.ctl ∧ t.cur.pc = s.cur.pc + 4 ∧ t.cur.wait = none ∧
        t.mem = s.mem ∧ t.reqs = s.reqs ∧ (∀ c, c ≠ s.cur.core → t.core c = s.core c) ∧
        (∀ g, g ≠ s.curId → t.strands.find? g = s.strands.find? g) ∧
        (∀ n, n ∈ (t.core s.cur.core).tags ↔ if n = a / 8 then full = true else n ∈ k.tags) ∧ post t
    (a / 8 ∈ k.tags → s.cur.sState o.d ≠ .pending → needRange k a 8 false = .ok () → needClean k a 8 = .ok () → k.sp.wf = true →
      ends (.tlds o) { s := [o.d] } false fun t => (t.core s.cur.core).sp = k.sp ∧
        t.cur.sVal o.d = wroteS o.d (BitVec.ofNat 64 (Spec.bytes k.sp.get a 8)) ∧ t.cur.sState o.d = .full) ∧
    (a / 8 ∉ k.tags → s.cur.sState o.d = .full → Spec.drained s .writes → needRange k a 8 true = .ok () →
      ends (.tsts o) {} true fun t => ∀ b, (t.core s.cur.core).sp.get b =
        if a ≤ b ∧ b < a + 8 then BitVec.ofNat 8 ((s.cur.sVal o.d).toNat / 256 ^ (b - a)) else k.sp.get b) ∧
    (Spec.drained s .writes → needRange k a 8 true = .ok () →
      ends (.tstr o.a) {} false fun t => (t.core s.cur.core).sp = k.sp)

/-- R187: one handoff for each change. A `TSTS` of an empty word for which one strand waits in a `TLDS` gives that strand the value and leaves
the word empty again. -/
def Spec.claimTagHandoff : Prop :=
  ∀ (s : State) (a g : Nat) (o : OpLW) (c : Strand) (v : Word), a + 8 ≤ 0x60000 → a % 8 = 0 →
    let k := s.core s.cur.core
    s.cur.acq = none → s.cur.grant = none → s.cur.sState o.a = .full → s.cur.sVal o.a = Spec.tagLocal a → s.cur.sState o.d = .full →
    a / 8 ∉ k.tags → Spec.drained s .writes → needRange k a 8 true = .ok () → k.spPoison = [] →
    k.tagWaits = [{ addr := a, who := .strand g, full := true, val := v }] → g ≠ s.curId → s.strands.find? g = some c →
    ∃ t, exec (.tsts o) s = .next t ∧ t.strands.find? g = some { c with grant := some (s.cur.sVal o.d) } ∧
      a / 8 ∉ (t.core s.cur.core).tags ∧ (t.core s.cur.core).tagWaits = [] ∧ t.cur.pc = s.cur.pc + 4

/-- The registers of a destination. -/
def Spec.regs : FillReg → RegSet
  | .s n => { s := [n] }
  | .iv n => { iv := [n] }

/-- The strand's destinations `ds` are empty with a reply pending, and every other register is as it was (R15); `s0` stays full (R10). -/
def Spec.awaits (c c' : Strand) (ds : List FillReg) : Prop :=
  c.keepsRegs c' { s := ds.flatMap fun d => (Spec.regs d).s, iv := ds.flatMap fun d => (Spec.regs d).iv } [] [] ∧
  ∀ d ∈ ds, c'.fillState d = (if d = .s 0 then .full else .pending) ∧
    (match d with | .s n => c'.sVal n = c.sVal n | .iv n => c'.ivVal n = c.ivVal n)

/-- Strand `s.curId` has sent message `m`, which reaches core `c` as event `ev` in `d` cycles, and waits for the answer, for which its
destinations `ds` are pending. -/
def Spec.asked (s t : State) (m : Msg) (ev : Instr) (rank d : Nat) (len : Nat) (ds : List FillReg) : Prop :=
  t.msgs = s.msgs.set s.nextId m ∧ t.nextId = s.nextId + 1 ∧ (⟨s.now + d, rank, ev, { id := s.nextId }⟩ : Due) ∈ t.cal ∧
  Spec.awaits s.cur t.cur ds ∧ t.cur.pc = s.cur.pc ∧ t.cur.ctl = s.cur.ctl ∧
  (∃ w, t.cur.wait = some w ∧ w.kind = .reply s.nextId ∧ w.len = len ∧ w.retire.len = len) ∧
  t.mem = s.mem ∧ t.cores = s.cores ∧ t.homes = s.homes ∧ t.reqs = s.reqs ∧
  ∀ g, g ≠ s.curId → t.strands.find? g = s.strands.find? g

/-- R187, R190: a tagged access to another core's word, and a fill of a register of any strand id, go out as messages, and the strand waits for
the answer out of the rotation, the register of a `TLDS` empty and pending. A tagged request arrives after the one-way latency and a cycle.
A fill for a strand that is not there goes to the core that its id names.
The model's choice: when the issuer of a fill goes on (log 31), and the cycle that a tagged request takes at its core (log 103). -/
def Obligations.RemoteTaggedAccessesAndFills : Prop :=
  (∀ (s : State) (c a : Nat) (o : OpLW), c ≤ 767 → a + 8 ≤ 0x60000 → a % 8 = 0 → c ≠ s.cur.core → s.cut s.cur.core c = false →
    s.cur.acq = none → s.cur.grant = none → s.cur.sState o.a = .full → s.cur.sVal o.a = Spec.tagRemote c a →
    let lat := latency s.cur.core c
    (s.cur.sState o.d ≠ .pending → ∃ t m, exec (.tlds o) s = .next t ∧ m.kind = 0 ∧ m.strand = s.curId ∧ m.target = c ∧ m.addr = a ∧
      Spec.asked s t m .taggedRequestArrival s.cur.core (lat + 1) 4 [.s o.d]) ∧
    (s.cur.sState o.d = .full → Spec.drained s .writes → ∃ t m, exec (.tsts o) s = .next t ∧ m.kind = 1 ∧ m.strand = s.curId ∧ m.target = c ∧
      m.addr = a ∧ m.val = s.cur.sVal o.d ∧ Spec.asked s t m .taggedRequestArrival s.cur.core (lat + 1) 4 []) ∧
    (Spec.drained s .writes → ∃ t m, exec (.tstr o.a) s = .next t ∧ m.kind = 2 ∧ m.strand = s.curId ∧ m.target = c ∧ m.addr = a ∧
      Spec.asked s t m .taggedRequestArrival s.cur.core (lat + 1) 4 [])) ∧
  ∀ (s : State) (a : SReg) (r b : FillReg) (la lb : Bool), s.cur.acq = none → s.cur.sState a = .full → s.cur.fillState b = .full →
    Spec.drained s .writes →
    let g := (s.cur.sVal a).toNat % 2 ^ 22
    let core := match s.strands.find? g with | some d => d.core | none => min (g / 4096) 767
    s.cut s.cur.core core = false →
    ∃ t m, exec (.rfill r a la b lb) s = .next t ∧ m.kind = 3 ∧ m.strand = s.curId ∧ m.target = g ∧
      m.reg = r ∧ m.val = (match b with | .s n => s.cur.sVal n | .iv n => s.cur.ivVal n) ∧
      Spec.asked s t m .rfillArrival rankReply (latency s.cur.core core) 4 []

/-- The barrier forms (R193): instruction, length, and contribution to the predicate combine. -/
def Spec.barriers (qd qa : QReg) (s : State) : List (Instr × Nat × Tri) :=
  [(.bar, 2, .f), (.barOr qd qa, 4, s.cur.qVal qa), (.barNp qd, 4, .f)]

/-- R193, R194, R195, R179: a strand arrives at its gang's barrier and waits, with its registers as they are; an ARRIVAL strand leaves its slot
if the park store has room for it, a STEP strand does not. Its contributions enter the gang's combines, and the arrival that was missing has
the barrier release 12 + 2⌈log₂(GW × GH)⌉ cycles later. -/
def Spec.claimBarrierArrivals : Prop :=
  ∀ (qd qa : QReg) (s : State) (g : Gang), ∀ e ∈ Spec.barriers qd qa s,
    s.gangs.find? s.cur.ident.gang = some g → Spec.drained s .writes → s.stopping s.cur.ident.gang = false →
    s.strands.find? s.curId ≠ none → g.gw * g.gh ≤ 192 →
    ∃ t g', exec e.1 s = .next t ∧ t.mem = s.mem ∧ t.cur.pc = s.cur.pc ∧ t.cur.ctl = s.cur.ctl ∧
      s.cur.keepsRegs { t.cur with place := s.cur.place } {} [] [] ∧ (t.cur.wait.map fun w => (w.kind, w.len)) = some (.barrier, e.2.1) ∧
      (s.cur.ident.step = true → t.cur.place = s.cur.place) ∧
      (s.cur.ident.step = false → s.room s.cur.core s.cur = true → t.cur.place = .parked) ∧
      (∀ n, n ≠ s.curId → t.strands.find? n = s.strands.find? n) ∧
      t.gangs.find? s.cur.ident.gang = some g' ∧ (∀ n, n ∈ g'.arrived ↔ n = s.curId ∨ n ∈ g.arrived) ∧
      Spec.rank g'.barOr = max (Spec.rank g.barOr) (Spec.rank e.2.2) ∧ g'.barNp = (g.barNp || s.cur.ctl.ist.getLsbD 0) ∧
      ((∀ n ∈ g.alive, n = s.curId ∨ n ∈ g.arrived) → g.releasing = false →
        (⟨s.now + 12 + 2 * Nat.clog 2 (g.gw * g.gh), rankBar, .barrierRelease, { id := s.cur.ident.gang }⟩ : Due) ∈ t.cal)

/-- R193, R194: at the release every strand that arrived goes on behind its instruction with the result of its own form, and the gang's next
barrier is open. -/
def Spec.claimBarrierRelease : Prop :=
  ∀ (s : State) (g : Gang), s.gangs.find? s.arg.id = some g →
    ∃ t g', exec .barrierRelease s = .next t ∧ t.mem = s.mem ∧ t.gangs.find? s.arg.id = some g' ∧ g'.arrived = [] ∧ g'.releasing = false ∧
      g'.bark = g.bark + 1 ∧ g'.barOr = .f ∧ g'.barNp = false ∧
      ∀ n ∈ g.arrived, ∀ c w, s.strands.find? n = some c → c.wait = some w → w.kind = .barrier →
        ∃ c', t.strands.find? n = some c' ∧ c'.barriers = c.barriers + 1 ∧ c'.pc = c.pc + BitVec.ofNat 64 w.len ∧ c'.ctl = c.ctl ∧
          ∀ q : QReg, c'.qVal q =
            if q.toNat = w.info.toNat % 8 ∧ q ≠ 0 then
              (if w.info.toNat / 8 = 1 then g.barOr else if w.info.toNat / 8 = 2 then Spec.tri (g.barNp = true) else c.qVal q)
            else c.qVal q

/-- A ready list `l` with strand `g` that yields in this cycle from slot `n`: at its tail, but ahead of one that has yielded in this cycle from a
higher slot (R167). -/
def Spec.yielded (s : State) (l : List Nat) (g n : Nat) : List Nat :=
  match l.getLast? with
  | some h => if (s.strand h).left.1 = s.now ∧ n < (s.strand h).left.2 then l.dropLast ++ [g, h] else l ++ [g]
  | none => [g]

/-- R167, R168, R197, R198: `YIELD` goes on in its slot where nobody is ready, the mode is FIXED or the gang is a STEP gang; otherwise the strand
goes to the tail of the ready list, keeping its registers; those that yield in one cycle enter it by slot. A slot whose turns are used up
yields likewise. `EXIT` ends the strand: it is
gone, its gang counts it no more, and its local index is free. -/
def Obligations.LeavingTheSlot : Prop :=
  ∀ (s : State), let c := s.cur
    let k := s.core c.core
    (k.rotNow = false ∨ k.ready = [] ∨ c.ident.step = true → completes .yield s 2 {} [] [] fun _ => True) ∧
    (∀ n, c.place = .slot n → k.rotNow = true → k.ready ≠ [] → c.ident.step = false → s.stopping c.ident.gang = false → n < 16 →
      s.strands.find? s.curId ≠ none →
      ∃ t, exec .yield s = .next t ∧ (t.core c.core).ready = Spec.yielded s k.ready s.curId n ∧ (t.core c.core).slots[n]? = some none ∧
        t.cur.place = .ready ∧ t.cur.pc = c.pc + 2 ∧ t.cur.ctl = c.ctl ∧ c.keepsRegs { t.cur with place := c.place } {} [] [] ∧ t.mem = s.mem) ∧
    (∀ g n d, n = s.arg.idx → n < 16 → (s.core s.arg.id).slots[n]? = some (some g) → s.strands.find? g = some d → d.place = .slot n → d.core = s.arg.id →
      s.stopping d.ident.gang = false →
      ∃ t d', exec .quantumYield s = .next t ∧ (t.core s.arg.id).ready = Spec.yielded s (s.core s.arg.id).ready g n ∧
        (t.core s.arg.id).slots[n]? = some none ∧ t.strands.find? g = some d' ∧ d'.place = .ready ∧ d'.pc = d.pc ∧ d'.turns = 0 ∧
        d.keepsRegs { d' with place := d.place } {} [] [] ∧ t.mem = s.mem) ∧
    (∀ x, s.gangs.find? c.ident.gang = some x → Spec.drained s .writes → (∀ e ∈ s.cores, e.2.cmdFails = []) →
      ∃ t x', exec .exit s = .next t ∧ t.strands.find? s.curId = none ∧ t.gangs.find? c.ident.gang = some x' ∧ s.curId ∉ x'.alive ∧
        (∀ n, n ≠ s.curId → (n ∈ x'.alive ↔ n ∈ x.alive)) ∧ s.curId % 4096 ∉ (t.core (s.curId / 4096)).locals_ ∧ t.mem = s.mem)

/-! ### Main memory -/

/-- An access of the strand at `va` goes straight to the home of its physical address `pa` (R239, R244, R245, R253, R257, R283): its page
permits it, nothing that must come before it is under way, and the strand neither migrates nor, where the access would park it on an
absent block of its own home, lacks the block. -/
def Spec.reaches (s : State) (va : Word) (n : Need) (k : Kind) (pa : Nat) (leaf : Word) (parks : Bool) : Prop :=
  translate s s.cur.core va n k = .hit pa leaf ∧ s.cur.acq = none ∧ s.cur.closes = 0 ∧
  (leaf.getLsbD 4 = true → homeOf pa ∈ s.cur.span ∨ s.cur.span.length < 16) ∧ countAccess s (homeOf pa) ≠ none ∧
  s.cut s.cur.core (homeOf pa) = false ∧
  (parks = true → homeOf pa = s.cur.core → resident (s.home (homeOf pa)) (blockOf pa) = true)

/-- The strand's request `r` at `pa` has set out under a new number, to arrive at its home after the one-way latency and a cycle, or in this
cycle at its own (R226); no byte of memory and nothing at a home has changed, and no other strand. -/
def Spec.sent (s t : State) (acc : Access) (pa : Nat) (leaf va : Word) (chk : Bool) : Prop :=
  (∃ r, t.reqs.find? s.nextId = some r ∧ r.acc = acc ∧ r.strand = some s.curId ∧ r.core = s.cur.core ∧ r.home = homeOf pa ∧ r.pa = pa ∧
    r.va = va ∧ r.pc = s.cur.pc ∧ r.kept = leaf.getLsbD 6 ∧ r.checked = chk ∧ r.stage = .sent) ∧
  (∀ n, n ≠ s.nextId → t.reqs.find? n = s.reqs.find? n) ∧
  (⟨if homeOf pa = s.cur.core then s.now else s.now + latency s.cur.core (homeOf pa) + 1, s.cur.core, .remoteRequestArrival,
    { id := s.nextId }⟩ : Due) ∈ t.cal ∧
  t.mem = s.mem ∧ t.homes = s.homes ∧ ∀ g, g ≠ s.curId → t.strands.find? g = s.strands.find? g

/-- The strand has retired at the next instruction, having written `w`; on a checked page (`chk`) it waits in its slot for the answer instead,
with its destinations `ds` pending and its other registers as they are (R15, R282). -/
def Spec.issued (s t : State) (chk : Bool) (w : RegSet) (mS : List SReg) (ds : List FillReg) : Prop :=
  t.cur.ctl = s.cur.ctl ∧
  if chk then Spec.awaits s.cur t.cur ds ∧ t.cur.pc = s.cur.pc ∧ (t.cur.wait.map (·.kind)) = some (.reply s.nextId)
  else s.cur.keepsRegs t.cur w mS [] ∧ t.cur.pc = s.cur.pc + 4 ∧ t.cur.wait = none

/-- The loads and the plain stores of R256 to R258, with size, register, base, mark and offset. -/
def Spec.memForms (o : OpM) (v : OpMIv) : List (Instr × Instr × Nat × FillReg × SReg × Bool × BitVec 9) :=
  [(.ldB o, .stB o, 1, .s o.t, o.a, o.la, o.off), (.ldH o, .stH o, 2, .s o.t, o.a, o.la, o.off),
    (.ldW o, .stW o, 4, .s o.t, o.a, o.la, o.off), (.ldD o, .stD o, 8, .s o.t, o.a, o.la, o.off),
    (.ldAcq o, .stRel o, 8, .s o.t, o.a, o.la, o.off), (.ild v, .ist v, 8, .iv v.t, v.a, v.la, v.off)]

/-- R256, R257: a load is split-phase: it sends its request and retires with its destination empty and a reply pending (`s0` stays full).
After an `LD.ACQ` the strand notes the register that later accesses wait for. -/
def Obligations.LoadsAreSplitPhase : Prop :=
  ∀ (o : OpM) (v : OpMIv), ∀ e ∈ Spec.memForms o v, ∀ (s : State) (pa : Nat) (leaf : Word),
    let n := e.2.2.1
    let dst := e.2.2.2.1
    let a := e.2.2.2.2.1
    let la := e.2.2.2.2.2.1
    let va := addrM (s.cur.sVal a) e.2.2.2.2.2.2 n
    let chk := leaf.getLsbD 4
    s.cur.sState a = .full → s.cur.fillState dst ≠ .pending → va.toNat % n = 0 → Spec.reaches s va .r .read pa leaf true →
    ∃ t, exec e.1 s = .next t ∧ Spec.sent s t (.load n dst) pa leaf va chk ∧ t.cores = s.cores ∧
      Spec.issued s t chk (Spec.regs dst) (marked [(a, la)]) [dst] ∧
      (chk = false → t.cur.fillState dst = (if dst = .s 0 then .full else .pending) ∧
        t.cur.acq = if e.1 = .ldAcq o then some dst else none)

/-- R258, R259: a store is posted: it sends the low bytes of its register and retires. `ST.REL` does so once every earlier access of its strand
has been performed. The bytes are written when the home performs the request, as `HomeAccessesWriteTheirBytes` says. -/
def Obligations.StoresArePosted : Prop :=
  ∀ (o : OpM) (v : OpMIv), ∀ e ∈ Spec.memForms o v, ∀ (s : State) (pa : Nat) (leaf : Word),
    let n := e.2.2.1
    let src := e.2.2.2.1
    let a := e.2.2.2.2.1
    let la := e.2.2.2.2.2.1
    let va := addrM (s.cur.sVal a) e.2.2.2.2.2.2 n
    let chk := leaf.getLsbD 4
    let x := match src with | .s r => s.cur.sVal r | .iv r => s.cur.ivVal r
    s.cur.sState a = .full → s.cur.fillState src = .full → va.toNat % n = 0 → Spec.reaches s va .w .write pa leaf false →
    s.inFlight s.curId 0 < 8 → (e.1 = .ldAcq o → Spec.drained s .all) →
    ∃ t, exec e.2.1 s = .next t ∧
      Spec.sent s t (.store ((List.range n).map fun i => some (BitVec.ofNat 8 (x.toNat / 256 ^ i)))) pa leaf va chk ∧ t.cores = s.cores ∧
      Spec.issued s t chk {} (marked [(a, la)]) []

/-- R15, R260, R264, R265, R266: `AMO` and `CAS` wait, out of the rotation, for the word that stood before, their destination empty meanwhile; `RED` is posted;
`LDW` parks its strand, or on a checked page keeps it in its slot (R282), with the value that it watches, with its limit counted from its
first attempt. -/
def Obligations.AtomicsReductionsAndWatches : Prop :=
  ∀ (o : OpRRR) (w : OpLW) (s : State) (pa : Nat) (leaf : Word),
    let va := s.cur.sVal o.a
    let chk := leaf.getLsbD 4
    s.cur.sState o.a = .full → va.toNat % 8 = 0 →
    (∀ fn, s.cur.sState o.b = .full → s.cur.sState o.d ≠ .pending → Spec.reaches s va .rw .write pa leaf true →
      ∃ t, exec (.amo fn o) s = .next t ∧ Spec.sent s t (.amo fn (s.cur.sVal o.b) o.d) pa leaf va chk ∧ Spec.issued s t true {} [] [.s o.d]) ∧
    (s.cur.sState o.b = .full → s.cur.sState o.d = .full → Spec.reaches s va .rw .write pa leaf true →
      ∃ t, exec (.cas o) s = .next t ∧ Spec.sent s t (.cas (s.cur.sVal o.d) (s.cur.sVal o.b) o.d) pa leaf va chk ∧ Spec.issued s t true {} [] [.s o.d]) ∧
    (∀ fn, s.cur.sState o.b = .full → Spec.reaches s va .w .write pa leaf false → s.inFlight s.curId 1 < 8 →
      ∃ t, exec (.red fn o.a o.b o.la o.lb) s = .next t ∧ Spec.sent s t (.red fn (s.cur.sVal o.b)) pa leaf va chk ∧
        Spec.issued s t chk {} (marked [(o.a, o.la), (o.b, o.lb)]) []) ∧
    (w.a = o.a → s.cur.sState w.d = .full → s.cur.kept = none → Spec.reaches s va .r .read pa leaf true → s.stopping s.cur.ident.gang = false →
      s.strands.find? s.curId ≠ none →
      ∃ t r, exec (.ldw w) s = .next t ∧ t.reqs.find? s.nextId = some r ∧ r.acc = .ldw (s.cur.sVal w.d) w.d ∧ r.pa = pa ∧
        r.limit = (s.cur.lim10 w.lim).map (s.now + ·) ∧ t.mem = s.mem ∧ t.cur.pc = s.cur.pc ∧
        t.cur.wait.map (·.kind) = some (.reply s.nextId) ∧ s.cur.keepsRegs { t.cur with place := s.cur.place } {} [] [] ∧
        (chk = true → t.cur.place = s.cur.place) ∧
        (chk = false → s.cur.ident.step = false → s.room s.cur.core s.cur = true → t.cur.place = .parked))

/-- R228, R239, R240, R245: an access that does not go straight to its home: a load of an absent block of the strand's own home parks it there in
the block's queue; a load that completes the count of R239 moves the strand to the home instead; a page that does not permit it faults.
None retires.
The model's choice: translation by a list of leaves (log 13, 23). -/
def Obligations.AccessesThatPark : Prop :=
  ∀ (o : OpM) (s : State) (pa : Nat) (leaf : Word),
    let va := addrM (s.cur.sVal o.a) o.off 8
    s.cur.sState o.a = .full → s.cur.sState o.t ≠ .pending → s.cur.acq = none → va.toNat % 8 = 0 → s.stopping s.cur.ident.gang = false →
    s.strands.find? s.curId ≠ none →
    (∀ f, translate s s.cur.core va .r .read = .fault f → exec (.ldD o) s = .next (s.raise s.curId f 2)) ∧
    (translate s s.cur.core va .r .read = .hit pa leaf → leaf.getLsbD 4 = false →
      (homeOf pa = s.cur.core → resident (s.home s.cur.core) (blockOf pa) = false →
        (s.home s.cur.core).queues.find? (blockOf pa) = none → (s.home s.cur.core).queues.length < 1024 →
        ∃ t q, exec (.ldD o) s = .next t ∧ (t.home s.cur.core).queues.find? (blockOf pa) = some q ∧ q.waiters = [⟨.strand s.curId, s.now⟩] ∧
          q.keptAt = (if leaf.getLsbD 6 then some s.now else none) ∧ t.cur.wait.map (·.kind) = some (.block (blockOf pa)) ∧ t.cur.pc = s.cur.pc ∧ t.mem = s.mem ∧
          s.cur.keepsRegs { t.cur with place := s.cur.place } {} [] [] ∧
          (s.cur.ident.step = false → s.room s.cur.core s.cur = true → t.cur.place = .parked)) ∧
      (homeOf pa ≠ s.cur.core → s.cur.ctl.mig ≠ 0 → s.cur.mhome = homeOf pa → s.cur.mcount + 1 = s.cur.ctl.mig.toNat →
        s.cur.ident.step = false → s.holdsSlot s.curId = false → s.room (homeOf pa) s.cur = true → s.cut s.cur.core (homeOf pa) = false →
        s.undrained s.curId .writes = false → s.cur.fails = [] →
        ∃ t, exec (.ldD o) s = .next t ∧ t.cur.place = .migrating (homeOf pa) ∧ t.cur.pc = s.cur.pc ∧ t.mem = s.mem ∧
          s.cur.keepsRegs { t.cur with place := s.cur.place } {} [] [] ∧
          (⟨s.now + latency s.cur.core (homeOf pa) + 4 * s.cur.units, rankMig, .migrationArrival, { id := s.curId, idx := homeOf pa }⟩ : Due)
            ∈ t.cal))

/-- R262, R263: `VLD` registers its row, with the elements that will be written, and `VST` posts the bytes of its enabled elements; each
retires with its pointer advanced where its flag says so. A `VST` with no element enabled sends nothing.
The model's choice: a byte of a sub-byte format is stored when any element in it is enabled (log 28). -/
def Obligations.RowLoadsAndStores : Prop :=
  ∀ (o : OpVS1) (s : State) (pa : Nat) (leaf : Word),
    let va := s.cur.sVal o.s
    let row := (s.cur.pVal o.pd).toNat % 2 ^ 19
    let k := s.core s.cur.core
    let chk := leaf.getLsbD 4
    let p' := BitVec.ofNat 32 ((s.cur.pVal o.pd).toNat / 2 ^ 19 * 2 ^ 19 + (row + (s.cur.pVal o.pd).toNat / 2 ^ 19 * 512) % 2 ^ 19)
    let en := enabled (s.cur.kVal o.k) (fmtBits o.fmt) (s.cur.count (fmtLanes o.fmt))
    let bump (t : State) : Prop := chk = false → t.cur.pVal o.pd = if o.inc then p' else s.cur.pVal o.pd
    s.cur.sState o.s = .full → row ≤ 0x5FFFF → row % 512 = 0 → va.toNat % 512 = 0 →
    (needRows k [row] true = .ok () → Spec.reaches s va .r .read pa leaf true → s.inFlight s.curId 2 < 4 →
      ∃ t l, exec (.vld o) s = .next t ∧ Spec.sent s t (.row s.nextId 0) pa leaf va chk ∧
        Spec.issued s t chk { p := [o.pd] } (marked [(o.s, o.la)]) [] ∧ bump t ∧ (t.core s.cur.core).rowLoads.find? s.nextId = some l ∧
        l.row = row ∧ l.strand = s.curId ∧ l.left = 8 ∧ l.lines = [] ∧ l.width = fmtBits o.fmt ∧
        l.enabled = (List.range (fmtLanes o.fmt)).map en ∧ (t.core s.cur.core).sp = k.sp) ∧
    (needRows k [row] false = .ok () → needCleanRows k [row] = .ok () → Spec.reaches s va .w .write pa leaf false → s.inFlight s.curId 0 < 8 →
      let d := storedBytes (fmtBits o.fmt) en (k.row row)
      (d.all (·.isNone) = false → ∃ t, exec (.vst o) s = .next t ∧ Spec.sent s t (.store d) pa leaf va chk ∧ t.cores = s.cores ∧
        Spec.issued s t chk { p := [o.pd] } (marked [(o.s, o.la)]) [] ∧ bump t) ∧
      (d.all (·.isNone) = true → ∃ t, exec (.vst o) s = .next t ∧ s.onlyCur t ∧
        Spec.issued s t false { p := [o.pd] } (marked [(o.s, o.la)]) [] ∧ t.cur.pVal o.pd = if o.inc then p' else s.cur.pVal o.pd))

/-- R267, R268, R269: the fences and `WAITRED` complete once what each waits for is over, and change nothing. -/
def Spec.claimFencesComplete : Prop :=
  ∀ (s : State), s.cur.fails = [] →
    (s.undrained s.curId .reds = false → completes .waitred s 2 {} [] [] fun _ => True) ∧
    (Spec.drained s .all → completes .fence s 2 {} [] [] fun _ => True) ∧
    (∀ e ∈ [((Instr.fenceSCore, FScope.core) : Instr × FScope), (.fenceSSg, .sg), (.fenceSDie, .die), (.fenceSPkg, .pkg)],
      s.undrained s.curId (.scope e.2) = false → completes e.1 s 4 {} [] [] fun _ => True)

/-- R270, R271, R272: `MIGR` to the strand's own home, of a STEP strand, or without room goes on; otherwise the strand leaves for the home.
The hints and the row copies are posted to the home of their address. -/
def Spec.claimMigrationHintsAndRowCopies : Prop :=
  ∀ (a b : SReg) (la lb : Bool) (s : State) (pa : Nat) (leaf : Word),
    let va := s.cur.sVal a
    s.cur.sState a = .full → s.cur.acq = none → s.cut s.cur.core (homeOf pa) = false → s.stopping s.cur.ident.gang = false →
    let post (i : Instr) (acc : Access) (mS : List SReg) : Prop :=
      ∃ t, exec i s = .next t ∧ Spec.sent s t acc pa leaf va false ∧ t.cores = s.cores ∧ Spec.issued s t false {} mS []
    (translate s s.cur.core va .any .read = .hit pa leaf →
      (s.undrained s.curId .writes = false → s.cur.fails = [] →
        (homeOf pa = s.cur.core ∨ s.cur.ident.step = true ∨ (s.room (homeOf pa) s.cur = false ∧ s.holdsSlot s.curId = false) →
          ∃ t, exec (.migr a la) s = .next t ∧ s.onlyCur t ∧ s.cur.keepsRegs t.cur {} (marked [(a, la)]) [] ∧ t.cur.ctl = s.cur.ctl ∧
            t.cur.pc = s.cur.pc + 4) ∧
        (homeOf pa ≠ s.cur.core → s.cur.ident.step = false → s.room (homeOf pa) s.cur = true → s.holdsSlot s.curId = false →
          s.strands.find? s.curId ≠ none →
          ∃ t, exec (.migr a la) s = .next t ∧ t.cur.place = .migrating (homeOf pa) ∧ t.cur.pc = s.cur.pc ∧ t.mem = s.mem ∧
            s.cur.keepsRegs { t.cur with place := s.cur.place } {} [] [] ∧
            (⟨s.now + latency s.cur.core (homeOf pa) + 4 * s.cur.units, rankMig, .migrationArrival,
              { id := s.curId, idx := homeOf pa }⟩ : Due) ∈ t.cal)) ∧
      post (.bwant a la) .want (marked [(a, la)]) ∧ post (.bkeep a la) .keep (marked [(a, la)]) ∧ post (.bfree a la) .free (marked [(a, la)])) ∧
    (translate s s.cur.core va .w .write = .hit pa leaf → va.toNat % 1024 = 0 → s.inFlight s.curId 0 < 8 →
      post (.bcopyZero a la) (.bcopy none) (marked [(a, la)]) ∧
      (∀ pb leaf2, s.cur.sState b = .full → translate s s.cur.core (s.cur.sVal b) .r .read = .hit pb leaf2 → (s.cur.sVal b).toNat % 1024 = 0 →
        homeOf pa = homeOf pb → bankOf pa = bankOf pb → subarrayOf pa = subarrayOf pb →
        post (.bcopy a b la lb) (.bcopy (some pb)) (marked [(a, la), (b, lb)])))

/-! ### Vectors -/

/-- The rows that a vector instruction reads and writes lie in the scratchpad, nothing holds them, no unit that is read is poisoned, and its
extra turns are over (R115, R117, R134, R206, R316). -/
def Spec.rowsReady (s : State) (reads writes : List Nat) (extra : Nat) : Prop :=
  let k := s.core s.cur.core
  s.cur.acq = none ∧ (∀ a ∈ reads ++ writes, a ≤ 0x5FFFF ∧ a % 512 = 0) ∧ needRows k reads false = .ok () ∧ needRows k writes true = .ok () ∧
    needCleanRows k reads = .ok () ∧ (extra = 0 ∨ s.cur.owe ≠ 0)

/-- A row address of a pointer (R11), and a pointer after its increment (R12). -/
def Spec.addr (s : State) (p : PReg) : Nat := (s.cur.pVal p).toNat % 2 ^ 19
def Spec.bumped (p : BitVec 32) : BitVec 32 :=
  let stride := p.toNat / 2 ^ 19
  BitVec.ofNat 32 (stride * 2 ^ 19 + (p.toNat % 2 ^ 19 + stride * 512) % 2 ^ 19)

/-- A vector instruction has retired, having written the registers `w`: flags and counts as said (R116), each pointer named with its flag
advanced once (R114), no byte of main memory changed, no tag, no other core, no other strand. -/
def Spec.vecRetires (s t : State) (w : RegSet) (mS : List SReg) (fl : BitVec 6) (sat : Nat) (ni em np : Bool)
    (ptrs : List (PReg × Bool)) : Prop :=
  s.cur.keeps t.cur { w with p := [0, 1, 2, 3, 4, 5, 6, 7] } mS [] ∧ t.cur.pc = s.cur.pc + 4 ∧ t.cur.wait = none ∧
  t.cur.ctl = { s.cur.ctl with fpf := s.cur.ctl.fpf ||| fl, satc := satAdd s.cur.ctl.satc sat, ist := istSet s.cur.ctl.ist ni em np } ∧
  (∀ r, t.cur.pVal r = if (r, true) ∈ ptrs then Spec.bumped (s.cur.pVal r) else s.cur.pVal r) ∧
  t = { (s.noteGang s.cur.ident.gang fl np) with strands := t.strands, cores := t.cores } ∧
  (∀ g, g ≠ s.curId → t.strands.find? g = s.strands.find? g) ∧
  (∀ c, c ≠ s.cur.core → t.core c = s.core c) ∧
  t.core s.cur.core = { s.core s.cur.core with sp := (t.core s.cur.core).sp, spPoison := (t.core s.cur.core).spPoison }

/-- Of the rows at `rows`, with elements of `w` bits, those elements have been written that are enabled: element i of row j is `f (j, i)`. Every
other element and every other byte of the scratchpad is as before (R111). -/
def Spec.rowsWritten (s t : State) (rows : List Nat) (w : Nat) (on : Nat → Nat → Bool) (f : Nat → Nat → Nat) : Prop :=
  let k := s.core s.cur.core
  let k' := t.core s.cur.core
  (∀ j d, rows[j]? = some d → ∀ i < 4096 / w, elem w (k'.row d) i = if on j i then f j i % 2 ^ w else elem w (k.row d) i) ∧
  ∀ b, (∀ d ∈ rows, b < d ∨ d + 512 ≤ b) → k'.sp.get b = k.sp.get b

/-- Whether element i of `w` bits is enabled, of `n` at most, by mask `k` (R14, R111). -/
def Spec.on (s : State) (k : KReg) (w n i : Nat) : Bool := decide (i < min s.cur.ctl.vl n) && (s.cur.kVal k).getLsbD (i * w / 32)

/-- The flags and the count that enabled elements raise together (R64, R66). -/
def Spec.flags (n : Nat) (on : Nat → Bool) (f : Nat → FR) : BitVec 6 := ((List.range n).filter on).foldl (fun a i => a ||| (f i).fl) 0
def Spec.sats (n : Nat) (on : Nat → Bool) (f : Nat → FR) : Nat := (((List.range n).filter on).map fun i => (f i).sat).sum

/-- A vector instruction that writes the row of `pd` completes: element i becomes `f i` where it is enabled. -/
def Spec.rowResult (i : Instr) (s : State) (pd : PReg) (w : Nat) (on : Nat → Bool) (f : Nat → FR) (mS : List SReg)
    (ptrs : List (PReg × Bool)) : Prop :=
  ∃ t, exec i s = .next t ∧ Spec.rowsWritten s t [Spec.addr s pd] w (fun _ => on) (fun _ i => (f i).bits) ∧
    Spec.vecRetires s t {} mS (Spec.flags (4096 / w) on f) (Spec.sats (4096 / w) on f) false false false ptrs

/-- The number that an element of an integer format holds: two's complement in an I format (R47). -/
def Spec.int (f : Fmt) (x : Nat) : Int :=
  let w := fmtBits f
  let x := x % 2 ^ w
  match f with
  | .i8 | .i16 | .i32 | .i64 => if 2 ^ (w - 1) ≤ x then (x : Int) - 2 ^ w else x
  | _ => x

/-- An exact integer in an element (R55, R118, R119): wrapped, or clamped to the format's range with ST and a count. -/
def Spec.fit (f : Fmt) (sat : Bool) (v : Int) : FR :=
  let w := fmtBits f
  let signed : Bool := match f with | .i8 | .i16 | .i32 | .i64 => true | _ => false
  let lo : Int := if signed then -2 ^ (w - 1) else 0
  let hi : Int := if signed then 2 ^ (w - 1) - 1 else 2 ^ w - 1
  if sat then ⟨(max lo (min hi v) % 2 ^ w).toNat, if v < lo ∨ hi < v then fST else 0, if v < lo ∨ hi < v then 1 else 0⟩
  else ⟨(v % 2 ^ w).toNat, 0, 0⟩

/-- An element-wise operation on two elements, on integers or on float values (R118, R116). -/
def Spec.arith (f : Fmt) (sat : Bool) (fi : Int → Int → Int) (ff : FF → Rnd → FVal → FVal → FR) (r : Rnd) (a b : Nat) : FR :=
  match fmtFF f with
  | some g => ff g r (g.valZ r.fzi a) (g.valZ r.fzi b)
  | none => Spec.fit f sat (fi (Spec.int f a) (Spec.int f b))

/-- Bit operations and shifts of elements of `w` bits (R120); a shift count is taken modulo the width. -/
def Spec.bits (w : Nat) (f : BitVec w → BitVec w → BitVec w) (a b : Nat) : FR := ⟨(f (BitVec.ofNat w a) (BitVec.ofNat w b)).toNat, 0, 0⟩

/-- The element-wise instructions of format V: from the elements of pa and pb, and of the old pd (R118 to R120, R131). -/
def Spec.vecV (o : OpV) : List (Instr × (Rnd → Nat → Nat → Nat → FR)) :=
  let f := o.fmt
  let w := fmtBits f
  [(.vadd o false, fun r a b _ => Spec.arith f false (· + ·) FF.addV r a b), (.vadd o true, fun r a b _ => Spec.arith f true (· + ·) FF.addV r a b),
    (.vsub o false, fun r a b _ => Spec.arith f false (· - ·) (fun g r a b => g.addV r a b.negate) r a b),
    (.vsub o true, fun r a b _ => Spec.arith f true (· - ·) (fun g r a b => g.addV r a b.negate) r a b),
    (.vmul o false, fun r a b _ => Spec.arith f false (· * ·) FF.mulV r a b), (.vmul o true, fun r a b _ => Spec.arith f true (· * ·) FF.mulV r a b),
    (.vmin o, fun r a b _ => match fmtFF f with
      | some g => g.minMax r.fzi false a b
      | none => ⟨if Spec.int f a ≤ Spec.int f b then a else b, 0, 0⟩),
    (.vmax o, fun r a b _ => match fmtFF f with
      | some g => g.minMax r.fzi true a b
      | none => ⟨if Spec.int f a ≤ Spec.int f b then b else a, 0, 0⟩),
    (.vand o, fun _ a b _ => Spec.bits w (· &&& ·) a b), (.vor o, fun _ a b _ => Spec.bits w (· ||| ·) a b),
    (.vxor o, fun _ a b _ => Spec.bits w (· ^^^ ·) a b), (.vshl o, fun _ a b _ => Spec.bits w (fun x y => x <<< (y.toNat % w)) a b),
    (.vshr o, fun _ a b _ => Spec.bits w (fun x y => x >>> (y.toNat % w)) a b),
    (.vsar o, fun _ a b _ => Spec.bits w (fun x y => x.sshiftRight (y.toNat % w)) a b)]

/-- The same for those that read the old pd as a third source (R118, R131). -/
def Spec.vecV3 (o : OpV) : List (Instr × (Rnd → Nat → Nat → Nat → FR)) :=
  [(.vfma o, fun r a b d => match fmtFF o.fmt with
      | some g => g.fmaV r (g.valZ r.fzi a) (g.valZ r.fzi b) (g.valZ r.fzi d)
      | none => Spec.fit o.fmt false (Spec.int o.fmt a * Spec.int o.fmt b + Spec.int o.fmt d)),
    (.vscacc o, fun r a b d => FF.f32.fmaV r (FF.f32.valZ r.fzi a) (match FF.f32.valZ r.fzi b with | .nan _ => .nan false | v => v)
      (FF.f32.valZ r.fzi d))]

/-- R14, R111, R114, R116 to R120, R123, R124, R131: the instructions of format V complete: every enabled element of pd is the operation of the elements
of its sources as they stood before, and nothing else of the scratchpad changes. -/
def Spec.claimVectorElementwiseResults : Prop :=
  ∀ (o : OpV) (s : State),
    let w := fmtBits o.fmt
    let d := Spec.addr s o.pd
    let a := Spec.addr s o.pa
    let b := Spec.addr s o.pb
    let k := s.core s.cur.core
    let at_ (x i : Nat) : Nat := elem w (k.row x) i
    let r := Spec.mode s .fpm
    let on := Spec.on s o.k w (4096 / w)
    let ptrs := [(o.pd, o.incD), (o.pa, o.incA), (o.pb, o.incB)]
    (Spec.rowsReady s [a, b] [d] (bankTurns [a, b]) →
      (∀ e ∈ Spec.vecV o, Spec.rowResult e.1 s o.pd w on (fun i => e.2 r (at_ a i) (at_ b i) (at_ d i)) [] ptrs) ∧
      Spec.rowResult (.vsel o) s o.pd w (fun i => decide (i < min s.cur.ctl.vl (4096 / w)))
        (fun i => ⟨if (s.cur.kVal o.k).getLsbD (i * w / 32) then at_ a i else at_ b i, 0, 0⟩) [] ptrs ∧
      Spec.rowResult (.vperm o) s o.pd w on (fun i => ⟨at_ a (elem 16 (k.row b) i % (4096 / w)), 0, 0⟩) [] ptrs) ∧
    (Spec.rowsReady s [d, a, b] [d] (bankTurns [d, a, b]) → ∀ e ∈ Spec.vecV3 o, (e.1 = .vscacc o → o.fmt = .f32) →
      Spec.rowResult e.1 s o.pd w on (fun i => e.2 r (at_ a i) (at_ b i) (at_ d i)) [] ptrs)

/-- R121, R122, R132: the unary and the scalar forms. The approximate transcendentals have their own rounding, which is a free value within R132's
bounds. -/
def Spec.claimVectorUnaryAndScalarResults : Prop :=
  (∀ (o : OpV1) (s : State),
    let f := o.fmt
    let w := fmtBits f
    let a := Spec.addr s o.pa
    let at_ (i : Nat) : Nat := elem w ((s.core s.cur.core).row a) i
    let on := Spec.on s o.k w (4096 / w)
    let ends (i : Instr) (g : Nat → FR) : Prop := Spec.rowResult i s o.pd w on (fun i => g (at_ i)) [] [(o.pd, o.incD), (o.pa, o.incA)]
    (Spec.rowsReady s [a] [Spec.addr s o.pd] 0 →
      ends (.vabs o) (fun x => if (fmtFF f).isSome then ⟨x % 2 ^ (w - 1), 0, 0⟩ else Spec.fit f false |Spec.int f x|) ∧
      ends (.vneg o) (fun x => if (fmtFF f).isSome then ⟨(x + 2 ^ (w - 1)) % 2 ^ w, 0, 0⟩ else Spec.fit f false (-Spec.int f x)) ∧
      ends (.vmov o) (fun x => ⟨x, 0, 0⟩)) ∧
    (Spec.rowsReady s [a] [Spec.addr s o.pd] 1 →
      ∀ e ∈ [((Instr.vexp o, Approx.exp) : Instr × Approx), (.vrcp o, .rcp), (.vrsq o, .rsq), (.vtanh o, .tanh)], ∀ g, fmtFF f = some g →
        ends e.1 fun x => g.approx e.2 (fmtNum f) (Spec.mode s .fpm) x)) ∧
  (∀ (o : OpVS) (s : State),
    let f := o.fmt
    let w := fmtBits f
    let a := Spec.addr s o.pa
    let x := (s.cur.sVal o.s).toNat % 2 ^ w
    let at_ (i : Nat) : Nat := elem w ((s.core s.cur.core).row a) i
    let ends (i : Instr) (g : Nat → FR) : Prop :=
      Spec.rowResult i s o.pd w (Spec.on s o.k w (4096 / w)) (fun i => g (at_ i)) (marked [(o.s, o.la)]) [(o.pd, o.inc), (o.pa, o.inc)]
    s.cur.sState o.s = .full → Spec.rowsReady s [a] [Spec.addr s o.pd] 0 →
      ends (.vadds o) (fun y => Spec.arith f false (· + ·) FF.addV (Spec.mode s .fpm) y x) ∧
      ends (.vmuls o) (fun y => Spec.arith f false (· * ·) FF.mulV (Spec.mode s .fpm) y x)) ∧
  (∀ (o : OpVS1) (s : State),
    let w := fmtBits o.fmt
    s.cur.sState o.s = .full → Spec.rowsReady s [] [Spec.addr s o.pd] 0 →
      Spec.rowResult (.vbcast o) s o.pd w (Spec.on s o.k w (4096 / w)) (fun _ => ⟨(s.cur.sVal o.s).toNat % 2 ^ w, 0, 0⟩) (marked [(o.s, o.la)])
        [(o.pd, o.inc)])

/-- R133: the special operands of the approximate instructions, with the operand read as a zero of its sign under FZI. -/
def Spec.claimApproximationSpecials : Prop :=
  ∀ g ∈ [FF.f32, .bf16, .f16], ∀ (code : Nat) (r : Rnd) (x : Nat), x < 2 ^ g.width →
    let top := 2 ^ (g.width - 1)
    let neg : Bool := decide (top ≤ x)
    let m := if r.fzi ∧ x % top < 2 ^ g.fb then 0 else x % top
    let inf := Spec.infOf g
    let nan := inf + 2 ^ (g.fb - 1)
    let one := g.bias * 2 ^ g.fb
    let signed (b : Nat) : Nat := b + if neg then top else 0
    let is (op : Approx) (bits : Nat) (fl : BitVec 6) : Prop := g.approx op code r x = ⟨bits, fl, 0⟩
    (m = 0 → is .exp one 0 ∧ is .rcp (signed inf) fDZ ∧ is .rsq (signed inf) fDZ ∧ is .tanh (signed 0) 0) ∧
    (m = inf → is .exp (if neg then 0 else inf) 0 ∧ is .rcp (signed 0) 0 ∧ (if neg then is .rsq nan fNV else is .rsq 0 0) ∧
      is .tanh (signed one) 0) ∧
    (0 < m → m < inf → neg = true → is .rsq nan fNV) ∧
    (inf < m → ∀ op, is op nan (if m < nan then fNV else 0))

/-- R132: `VRCP` and `VRSQ` give the exact reciprocal, or that of the root, or a neighbour, and keep its sign; `VEXP` gives no negative result, and
`VTANH` none beyond −1 and 1. -/
def Spec.claimApproximationsStayNear : Prop :=
  ∀ g ∈ [FF.f32, .bf16, .f16], ∀ (code : Nat) (r : Rnd) (x : Nat), x < 2 ^ g.width → ∀ a, Spec.operand g r.fzi x = some a → a ≠ 0 →
    let top := 2 ^ (g.width - 1)
    let v (op : Approx) : FR := g.approx op code r x
    Spec.near g r (1 / (a : ℝ)) (v .rcp) ∧ (v .rcp).bits / top = x / top ∧
    (0 < a → Spec.near g r (1 / Real.sqrt a) (v .rsq) ∧ (v .rsq).bits < top) ∧
    (v .exp).bits < top ∧ (v .tanh).bits % top ≤ g.bias * 2 ^ g.fb

/-- The order of elements that `VCMP` compares (R125): whether a < b, and whether a = b, neither holding of a NaN. -/
def Spec.vless (f : Fmt) (fzi : Bool) (a b : Nat) : Bool × Bool :=
  match fmtFF f with
  | some g =>
    let x := g.valZ fzi a
    let y := g.valZ fzi b
    if x.isNan || y.isNan then (false, false) else (fCmpLt x y, fCmpEq x y)
  | none => (decide (Spec.int f a < Spec.int f b), decide (Spec.int f a = Spec.int f b))

/-- R125: `VCMP` writes the whole mask: bit g is 1 exactly where some enabled element has its lowest byte in group g and the condition holds of
every one that has. -/
def Spec.claimVectorCompareMask : Prop :=
  ∀ (cond : VCond) (kd : KReg) (pa pb : PReg) (f : Fmt) (k : KReg) (incA incB : Bool) (s : State),
    let w := fmtBits f
    let a := Spec.addr s pa
    let b := Spec.addr s pb
    let row (x i : Nat) : Nat := elem w ((s.core s.cur.core).row x) i
    let on := Spec.on s k w (4096 / w)
    let cmp (i : Nat) : Bool × Bool := Spec.vless f (s.cur.ctl.fpm.getLsbD 2) (row a i) (row b i)
    let holds (i : Nat) : Bool := match cond with
      | .eq => (cmp i).2
      | .ne => !(cmp i).2
      | .lt => (cmp i).1
      | .le => (cmp i).1 || (cmp i).2
    Spec.rowsReady s [a, b] [] (bankTurns [a, b]) →
    ∃ t fl, exec (.vcmp cond kd pa pb f k incA incB) s = .next t ∧
      Spec.vecRetires s t { k := [kd] } [] fl 0 false false false [(pa, incA), (pb, incB)] ∧ (t.core s.cur.core).sp = (s.core s.cur.core).sp ∧
      (fmtFF f = none → fl = 0) ∧
      ∀ g < 128, (t.cur.kVal kd).getLsbD g = if kd = 0 then true else
        decide ((∃ i < 4096 / w, on i = true ∧ i * w / 32 = g) ∧ ∀ i < 4096 / w, on i = true → i * w / 32 = g → holds i = true)

/-- R126: `VCVT` reads all its rows before it writes any; element g over the rows of pd is the conversion of element g over the rows of pa where it is
enabled. The row that a pointer names lies in the scratchpad, though no element of it may be reached. -/
def Spec.claimVectorConversion : Prop :=
  ∀ (o : OpV1) (dst : Fmt) (s : State),
    let ws := fmtBits o.fmt
    let wd := fmtBits dst
    let n := min s.cur.ctl.vl (4096 / min ws wd)
    let count (w : Nat) : Nat := (n + 4096 / w - 1) / (4096 / w)
    let src := (List.range (count ws)).map fun i => Spec.addr s o.pa + 512 * i
    let out := (List.range (count wd)).map fun i => Spec.addr s o.pd + 512 * i
    let k := s.core s.cur.core
    let on (j i : Nat) : Bool := Spec.on s o.k (min ws wd) (4096 / min ws wd) (j * (4096 / wd) + i)
    let conv (j i : Nat) : FR :=
      let g := j * (4096 / wd) + i
      let x := elemVal o.fmt (s.cur.ctl.fpm.getLsbD 2) (elem ws (k.row (Spec.addr s o.pa + 512 * (g / (4096 / ws)))) (g % (4096 / ws)))
      let y := toElem dst (Spec.mode s .fpm) x.1
      ⟨y.bits, y.fl ||| x.2.1, y.sat + x.2.2⟩
    Spec.rowsReady s src out (count ws + count wd - 2) → (∀ r ∈ [o.pd, o.pa], Spec.addr s r ≤ 0x5FFFF ∧ Spec.addr s r % 512 = 0) →
    ∃ t, exec (.vcvt o dst) s = .next t ∧ Spec.rowsWritten s t out wd on (fun j i => (conv j i).bits) ∧
      Spec.vecRetires s t {} []
        (Spec.flags n (fun g => on 0 g) fun g => conv 0 g)
        (Spec.sats n (fun g => on 0 g) fun g => conv 0 g) false false false [(o.pd, o.incD), (o.pa, o.incA)]

/-- R59, R61, R66: an element is read as the number it holds, and written into a float format rounded once, into an integer format clamped; FZI and FZO
pass over E4M3, E5M2 and E2M1. A reserved T2 code is read as 0 and counted. -/
def Spec.claimElementsAreNumbers : Prop :=
  (∀ (f : Fmt) (g : FF) (fzi : Bool) (x : Nat), fmtFF f = some g →
    (elemVal f fzi x).2 = (0, 0) ∧ Spec.fin (elemVal f fzi x).1 = Spec.operand g (fzi && g.ieee) x) ∧
  (∀ (f : Fmt) (fzi : Bool) (x : Nat), fmtFF f = none → f ≠ .t2 → x < 2 ^ fmtBits f →
    (elemVal f fzi x).2 = (0, 0) ∧ Spec.fin (elemVal f fzi x).1 = some (Spec.int f x : Rat)) ∧
  (∀ (fzi : Bool), ∀ e ∈ [((0, 0) : Nat × Rat), (1, 1), (3, -1)], (elemVal .t2 fzi e.1).2 = (0, 0) ∧ Spec.fin (elemVal .t2 fzi e.1).1 = some e.2) ∧
  (∀ fzi : Bool, (elemVal .t2 fzi 2).2 = (fST, 1) ∧ Spec.fin (elemVal .t2 fzi 2).1 = some 0) ∧
  (∀ (f : Fmt) (g : FF) (r : Rnd) (neg : Bool) (m : Nat) (e : Int), fmtFF f = some g →
    Spec.rounds g r.rm (r.fzo && g.ieee) (Spec.rat neg m e : Rat) (toElem f r (.fin neg m e))) ∧
  (∀ (f : Fmt) (r : Rnd) (v : FVal), fmtFF f = none → f ≠ .t2 → toElem f r v = toInt (fmtBits f) (f matches .i8 | .i16 | .i32 | .i64) r.rm v)

/-- The bitwise reduction of elements (R127). -/
def Spec.foldBits (f : Bool → Bool → Bool) (z : Bool) (w : Nat) (l : List Nat) (v : Word) : Prop :=
  ∀ i < 64, v.getLsbD i = if i < w then l.foldl (fun b x => f b (x.testBit i)) z else false

/-- A node of R67's tree: the sum of two, rounded to F32, with the flags below it. -/
def Spec.node (r : Rnd) (x y : FVal × BitVec 6) : FVal × BitVec 6 :=
  let z := FF.f32.addV r x.1 y.1
  (FF.f32.val z.bits, x.2 ||| y.2 ||| z.fl)

/-- Node i of level k of R67's tree, over the leaves i × 2ᵏ and on. -/
def Spec.tree (r : Rnd) (leaf : Nat → FVal × BitVec 6) : Nat → Nat → FVal × BitVec 6
  | 0, i => leaf i
  | k + 1, i => Spec.node r (Spec.tree r leaf k (2 * i)) (Spec.tree r leaf k (2 * i + 1))

/-- The F32 pattern of a root: the default NaN for a NaN. -/
def Spec.root (x : FVal) (v : Word) : Prop :=
  v.toNat < 2 ^ 32 ∧ if x.isNan then v.toNat = 0x7FC00000 else FF.f32.val v.toNat = x

/-- Whether an element's pattern is a NaN, and a signalling one (R56, R58). -/
def Spec.nanOf (g : FF) (x : Nat) : Bool := (Spec.value g x).isNone && !(g.hasInf && decide (x % 2 ^ g.fb = 0))
def Spec.snanOf (g : FF) (x : Nat) : Bool := Spec.nanOf g x && g.ieee && decide (x / 2 ^ (g.fb - 1) % 2 = 0)

/-- `b` is the F32 pattern of an element that is no NaN: its number or infinity, with its sign (R127). -/
def Spec.widened (g : FF) (fzi : Bool) (x b : Nat) : Prop :=
  b < 2 ^ 32 ∧ b / 2 ^ 31 = x / 2 ^ (g.width - 1) % 2 ∧ Spec.value .f32 b = Spec.operand g fzi x ∧
    (Spec.value .f32 b = none → b % 2 ^ 31 = 0x7F800000)

/-- R67, R127, R128: `VRED` and `VDOT` reduce the enabled elements into a full `s` register: integers exactly, modulo 2⁶⁴, and floats along the tree of
R67. With no element enabled the result is the identity. -/
def Spec.claimVectorReductions : Prop :=
  ∀ (d : SReg) (pa pb : PReg) (f : Fmt) (k : KReg) (inc : Bool) (s : State),
    let w := fmtBits f
    let a := Spec.addr s pa
    let b := Spec.addr s pb
    let row (x i : Nat) : Nat := elem w ((s.core s.cur.core).row x) i
    let on := Spec.on s k w (4096 / w)
    let l := ((List.range (4096 / w)).filter on).map (row a)
    let ends (i : Instr) (ptrs : List (PReg × Bool)) (fl : BitVec 6) (p : Word → Prop) : Prop :=
      ∃ t v, exec i s = .next t ∧ Spec.vecRetires s t { s := [d] } [] fl 0 false false false ptrs ∧ p v ∧ t.cur.sVal d = wroteS d v ∧
        t.cur.sState d = .full ∧ (t.core s.cur.core).sp = (s.core s.cur.core).sp
    s.cur.sState d ≠ .pending →
    (Spec.rowsReady s [a] [] 0 →
      (fmtFF f = none →
        ends (.vred .add d pa f k inc) [(pa, inc)] 0 (fun v => v = BitVec.ofInt 64 (l.map (Spec.int f)).sum) ∧
        (let signed : Bool := f matches .i8 | .i16 | .i32 | .i64
         l = [] → ends (.vred .min d pa f k inc) [(pa, inc)] 0 (fun v => v = BitVec.ofInt 64 (if signed then 2 ^ (w - 1) - 1 else 2 ^ w - 1)) ∧
          ends (.vred .max d pa f k inc) [(pa, inc)] 0 (fun v => v = BitVec.ofInt 64 (if signed then -2 ^ (w - 1) else 0))) ∧
        (l ≠ [] → ends (.vred .min d pa f k inc) [(pa, inc)] 0
          (fun v => (∃ x ∈ l, v = BitVec.ofInt 64 (Spec.int f x)) ∧ ∀ x ∈ l, ∃ y ∈ l, v = BitVec.ofInt 64 (Spec.int f y) ∧ Spec.int f y ≤ Spec.int f x) ∧
        ends (.vred .max d pa f k inc) [(pa, inc)] 0
          (fun v => (∃ x ∈ l, v = BitVec.ofInt 64 (Spec.int f x)) ∧ ∀ x ∈ l, ∃ y ∈ l, v = BitVec.ofInt 64 (Spec.int f y) ∧ Spec.int f x ≤ Spec.int f y))) ∧
      ends (.vred .and d pa f k inc) [(pa, inc)] 0 (Spec.foldBits (· && ·) true w l) ∧
      ends (.vred .or d pa f k inc) [(pa, inc)] 0 (Spec.foldBits (· || ·) false w l) ∧
      ends (.vred .xor d pa f k inc) [(pa, inc)] 0 (Spec.foldBits xor false w l) ∧
      (∀ g, fmtFF f = some g →
        let z := s.cur.ctl.fpm.getLsbD 2
        let leaf (i : Nat) : FVal × BitVec 6 :=
          if on i = false then (.fin false 0 0, 0)
          else if Spec.nanOf g (row a i) then (.nan false, flagIf (Spec.snanOf g (row a i)) fNV) else (g.valZ z (row a i), 0)
        let root := Spec.tree (Spec.mode s .fpm) leaf (4096 / w).log2 0
        let nums := l.filter fun x => !Spec.nanOf g x
        ends (.vred .add d pa f k inc) [(pa, inc)] root.2 (Spec.root root.1) ∧
        ∀ up : Bool, ends (.vred (if up then .max else .min) d pa f k inc) [(pa, inc)] (flagIf (l.any (Spec.snanOf g)) fNV) fun v =>
          (l = [] → v = if up then 0xFF800000 else 0x7F800000) ∧ (l ≠ [] → nums = [] → v = 0x7FC00000) ∧
          (nums ≠ [] → (∃ x ∈ nums, Spec.widened g z x v.toNat) ∧ ∀ x ∈ nums, ∀ b, Spec.widened g z x b →
            if up then Spec.placeZ .f32 false b ≤ Spec.placeZ .f32 false v.toNat
            else Spec.placeZ .f32 false v.toNat ≤ Spec.placeZ .f32 false b))) ∧
    (Spec.rowsReady s [a, b] [] (bankTurns [a, b]) →
      (fmtFF f = none → ends (.vdot d pa pb f k inc) [(pa, inc), (pb, inc)] 0 fun v =>
        v = BitVec.ofInt 64 (((List.range (4096 / w)).filter on).map fun i => Spec.int f (row a i) * Spec.int f (row b i)).sum) ∧
      (∀ g, fmtFF f = some g →
        let z := s.cur.ctl.fpm.getLsbD 2 && g.ieee
        let leaf (i : Nat) : FVal × BitVec 6 :=
          if on i = false then (.fin false 0 0, 0)
          else
            let p := exactMul (g.valZ z (row a i)) (g.valZ z (row b i))
            (p.v, p.fl)
        let root := Spec.tree (Spec.mode s .fpm) leaf (4096 / w).log2 0
        ends (.vdot d pa pb f k inc) [(pa, inc), (pb, inc)] root.2 (Spec.root root.1)))

/-- The products of a block of `VBDOT` (R129): element i of pa with element i of pb, which is I8 beside T2; each with its flags and count. -/
def Spec.product (s : State) (pa pb : PReg) (f : Fmt) (i : Nat) : Leaf × BitVec 6 × Nat :=
  let k := s.core s.cur.core
  let fb := if f = .t2 then Fmt.i8 else f
  let z := s.cur.ctl.fpm.getLsbD 2
  let x := elemVal f z (elem (fmtBits f) (k.row (Spec.addr s pa)) i)
  let y := elemVal fb z (elem (fmtBits fb) (k.row (Spec.addr s pb)) i)
  let p := exactMul x.1 y.1
  let p := if (fmtFF f).isNone then (match p.v with | .fin _ 0 e => ⟨.fin false 0 e, p.fl⟩ | _ => p) else p
  (p, x.2.1 ||| y.2.1, x.2.2 + y.2.2)

/-- R68, R129, R130: `VBDOT` writes one sum for each block of products, rounded once, and `VSCOMB` the products of scales: a NaN scale gives the default
NaN with NV. -/
def Spec.claimVectorBlockProducts : Prop :=
  (∀ (pd pa pb : PReg) (f : Fmt) (bs : BitVec 2) (incD incA incB : Bool) (s : State),
    let size := 8 * 2 ^ bs.toNat
    let n := min s.cur.ctl.vl (if f = .t2 then 512 else 4096 / fmtBits f)
    let sum (j : Nat) : FR :=
      let ps := ((List.range size).filter fun i => j * size + i < n).map fun i => Spec.product s pa pb f (j * size + i)
      let x := blockSum (Spec.mode s .fpm) (ps.map (·.1))
      ⟨x.bits, ps.foldl (fun f p => f ||| p.2.1) x.fl, (ps.map (·.2.2)).sum⟩
    Spec.rowsReady s [Spec.addr s pa, Spec.addr s pb] [Spec.addr s pd] (bankTurns [Spec.addr s pa, Spec.addr s pb]) →
    Spec.rowResult (.vbdot pd pa pb f bs incD incA incB) s pd 32 (fun j => decide (j < (n + size - 1) / size)) sum [] [(pd, incD), (pa, incA), (pb, incB)]) ∧
  (∀ (o : OpV) (s : State),
    let w := fmtBits o.fmt
    let k := s.core s.cur.core
    let v (x i : Nat) : FVal := (elemVal o.fmt (s.cur.ctl.fpm.getLsbD 2) (elem w (k.row x) i)).1
    let a := Spec.addr s o.pa
    let b := Spec.addr s o.pb
    Spec.rowsReady s [a, b] [Spec.addr s o.pd] (bankTurns [a, b]) →
    Spec.rowResult (.vscomb o) s o.pd 32 (Spec.on s o.k w 128)
      (fun i => if (v a i).isNan || (v b i).isNan then ⟨0x7FC00000, fNV, 0⟩ else FF.f32.mulV (Spec.mode s .fpm) (v a i) (v b i)) []
      [(o.pd, o.incD), (o.pa, o.incA), (o.pb, o.incB)])

/-- R67, R68, R128, R129: the product of two values is exact, ∞ × 0 a NaN with NV; a node of the tree is the sum of two finite numbers rounded to F32, a
block's sum that of all its products, rounded once; a NaN, or infinities of both signs, make it NaN. -/
def Spec.claimSumsAndProducts : Prop :=
  (∀ u v a b, Spec.fin u = some a → Spec.fin v = some b → (exactMul u v).fl = 0 ∧ Spec.fin (exactMul u v).v = some (a * b)) ∧
  (∀ (n : Bool) (v : FVal) (a : Rat), Spec.fin v = some a → ∀ x ∈ [exactMul (.inf n) v, exactMul v (.inf n)],
    (a = 0 → x.v = .nan false ∧ x.fl = fNV) ∧ (0 < a → x.v = .inf n ∧ x.fl = 0) ∧ (a < 0 → x.v = .inf (!n) ∧ x.fl = 0)) ∧
  (∀ n p : Bool, (exactMul (.inf n) (.inf p)).v = .inf (n != p) ∧ (exactMul (.inf n) (.inf p)).fl = 0) ∧
  (∀ (u v : FVal), u.isNan ∨ v.isNan → (exactMul u v).v = .nan false ∧ (exactMul u v).fl = flagIf (u.snan || v.snan) fNV) ∧
  (∀ (r : Rnd) (u v : FVal) a b, Spec.fin u = some a → Spec.fin v = some b →
    Spec.rounds .f32 r.rm r.fzo ((a : ℝ) + b) (FF.f32.addV r u v) ∧ Spec.rounds .f32 r.rm r.fzo ((a : ℝ) * b) (FF.f32.mulV r u v)) ∧
  (∀ (r : Rnd) (l : List (FVal × Rat)), (∀ x ∈ l, Spec.fin x.1 = some x.2) →
    Spec.rounds .f32 r.rm r.fzo ((l.map (·.2)).sum : Rat) (blockSum r (l.map fun x => ⟨x.1, 0⟩))) ∧
  (∀ (r : Rnd) (l : List FVal),
    let q := blockSum r (l.map fun x => ⟨x, 0⟩)
    (l.any FVal.isNan ∨ .inf true ∈ l ∧ .inf false ∈ l → q.bits = 0x7FC00000) ∧
    (l.any FVal.isNan = false → ∀ n, .inf n ∈ l → .inf (!n) ∉ l → q.bits = if n then 0xFF800000 else 0x7F800000))

/-- Whether some enabled element satisfies a condition. -/
def Spec.anyOn (s : State) (k : KReg) (p : Nat → Bool) : Bool := (List.range 64).any fun i => Spec.on s k 64 64 i && p i

/-- R73, R151 to R155: the vector interval instructions complete with each enabled element as the scalar instruction leaves it, and set the sticky bits
of any of them. Under TE, an element that becomes EMPTY anew is fault 0x51, which names the lowest, and nothing is written. -/
def Spec.claimVectorIntervals : Prop :=
  ∀ (o : OpVI) (s : State),
    let d := Spec.addr s o.pd
    let a := Spec.addr s o.pa
    let b := Spec.addr s o.pb
    let k := s.core s.cur.core
    let on := Spec.on s o.k 64 64
    let ends (i : Instr) (f : Nat → IvR) (ptrs : List (PReg × Bool)) : Prop :=
      (Spec.anyOn s o.k (fun i => (f i).em) = false ∨ istTe s.cur.ctl.ist = false →
        ∃ t, exec i s = .next t ∧ Spec.rowsWritten s t [d] 64 (fun _ => on) (fun _ i => (f i).v.bits) ∧
          Spec.vecRetires s t {} [] 0 0 (Spec.anyOn s o.k fun i => (f i).ni) (Spec.anyOn s o.k fun i => (f i).em) false ptrs) ∧
      (∀ e < 64, on e = true → (f e).em = true → (∀ j < e, on j = true → (f j).em = false) → istTe s.cur.ctl.ist = true →
        exec i s = .next (s.raise s.curId ⟨.emptyIv, 0, BitVec.ofNat 64 (e * 16)⟩ 2))
    let ptrs := [(o.pd, o.incD), (o.pa, o.incA), (o.pb, o.incB)]
    (Spec.rowsReady s [a, b] [d] (bankTurns [a, b]) →
      (∀ e ∈ [((Instr.viadd o, ivAdd) : Instr × (Nat → Nat → IvR)), (.visub o, ivSub), (.vimul o, ivMul), (.vihull o, ivHull), (.vimeet o, ivMeet)],
        ends e.1 (fun i => e.2 (elem 64 (k.row a) i) (elem 64 (k.row b) i)) ptrs)) ∧
    -- the lanes 64 to 127 of its sources are not read
    (s.cur.acq = none → (∀ r ∈ [a, b, d], r ≤ 0x5FFFF ∧ r % 512 = 0) → needRows k [a, b] false = .ok () → needRows k [d] true = .ok () →
      (∀ u ∈ k.spPoison, ∀ r ∈ [a, b], ¬(r / 64 ≤ u ∧ u < r / 64 + 4)) → (bankTurns [a, b] = 0 ∨ s.cur.owe ≠ 0) →
      ends (.vimake o) (fun i => ivMake (elem 32 (k.row a) i) (elem 32 (k.row b) i)) ptrs) ∧
    (Spec.rowsReady s [a] [d] 0 →
      ends (.virelu o.pd o.pa o.k o.incD o.incA) (fun i => ivRelu (elem 64 (k.row a) i)) [(o.pd, o.incD), (o.pa, o.incA)])

/-- R154, R155: `VIDOT` writes one interval for the products of its enabled elements, and [−0, +0] for none; the vector contractors narrow each triple by
itself and write every row that they contract. -/
def Spec.claimVectorIntervalDotAndContractors : Prop :=
  (∀ (d : IvReg) (pa pb : PReg) (km : KReg) (inc : Bool) (s : State),
    let a := Spec.addr s pa
    let b := Spec.addr s pb
    let at_ (x i : Nat) : Nat := elem 64 ((s.core s.cur.core).row x) i
    let odd (v : Nat) : Bool := (ivRead v).2
    s.cur.ivState d ≠ .pending → Spec.rowsReady s [a, b] [] (bankTurns [a, b]) →
    ∃ t r, exec (.vidot d pa pb km inc) s = .next t ∧
      Spec.vecRetires s t { iv := [d] } [] 0 0 (Spec.anyOn s km fun i => odd (at_ a i) || odd (at_ b i)) false false [(pa, inc), (pb, inc)] ∧
      (t.core s.cur.core).sp = (s.core s.cur.core).sp ∧ t.cur.ivVal d = BitVec.ofNat 64 r ∧ t.cur.ivState d = .full ∧
      ((∀ i, Spec.on s km 64 64 i = false) → r = 0x0000000080000000) ∧
      ((∀ i < 64, Spec.on s km 64 64 i = true → Spec.isBox (at_ a i) ∧ Spec.isBox (at_ b i)) →
        ∀ x y : Nat → ℝ, (∀ i < 64, Spec.on s km 64 64 i = true → Spec.inBox (at_ a i) (x i) ∧ Spec.inBox (at_ b i) (y i)) →
          Spec.inBox r (((List.range 64).filter (Spec.on s km 64 64)).map fun i => x i * y i).sum)) ∧
  (∀ (o : OpVI) (s : State),
    let x := Spec.addr s o.pd
    let y := Spec.addr s o.pa
    let z := Spec.addr s o.pb
    let at_ (r i : Nat) : Nat := elem 64 ((s.core s.cur.core).row r) i
    let on := Spec.on s o.k 64 64
    let ends (i : Instr) (rows : List Nat) (c : Nat → CtrR) (ptrs : List (PReg × Bool)) : Prop :=
      (Spec.anyOn s o.k (fun i => (c i).em) = false ∨ istTe s.cur.ctl.ist = false →
        ∃ t, exec i s = .next t ∧
          Spec.rowsWritten s t rows 64 (fun _ => on) (fun j i => if rows[j]? = some x ∧ j = 0 then (c i).x else if j + 1 = rows.length then (c i).z else (c i).y) ∧
          Spec.vecRetires s t {} [] 0 0 (Spec.anyOn s o.k fun i => (c i).ni) (Spec.anyOn s o.k fun i => (c i).em)
            (Spec.anyOn s o.k fun i => (c i).np) ptrs) ∧
      (∀ e < 64, on e = true → (c e).em = true → (∀ j < e, on j = true → (c j).em = false) → istTe s.cur.ctl.ist = true →
        exec i s = .next (s.raise s.curId ⟨.emptyIv, 0, BitVec.ofNat 64 (e * 16 + (c e).which)⟩ 2))
    (Spec.rowsReady s [x, y, z] [x, y, z] (bankTurns [x, y, z]) → x ≠ y → y ≠ z → x ≠ z →
      ∀ e ∈ [((Instr.vcadd o, Rel.add) : Instr × Rel), (.vcmul o, .mul)],
        ends e.1 [x, y, z] (fun i => contract e.2 {} false (istNth s.cur.ctl.ist) (at_ x i) (at_ y i) (at_ z i))
          [(o.pd, o.incD), (o.pa, o.incA), (o.pb, o.incB)]) ∧
    (Spec.rowsReady s [x, z] [x, z] (bankTurns [x, z]) → x ≠ z →
      ends (.vcrelu o.pd o.pb o.k o.incD o.incB) [x, z]
        (fun i => contract .relu {} false (istNth s.cur.ctl.ist) (at_ x i) (at_ x i) (at_ z i)) [(o.pd, o.incD), (o.pb, o.incB)]))

/-- R22, R115, R134: a row operand past the scratchpad is fault 0x06, before fault 0x05 of any that is not aligned, and the fault names the first such
operand, and for `VCVT` the row of its span; extra turns hold the slot and do nothing else. -/
def Spec.claimVectorRowFaultsAndTurns : Prop :=
  ∀ (o : OpV) (s : State), s.cur.acq = none →
    let rows := [(Spec.addr s o.pd, 0), (Spec.addr s o.pa, 1), (Spec.addr s o.pb, 2)]
    (∀ j < 3, ∀ r, rows[j]? = some r →
      (0x5FFFF < r.1 → (∀ i < j, ∀ q, rows[i]? = some q → q.1 ≤ 0x5FFFF) →
        exec (.vadd o false) s = .next (s.raise s.curId ⟨.range, BitVec.ofNat 64 r.1, BitVec.ofNat 64 r.2⟩ 2)) ∧
      ((∀ q ∈ rows, q.1 ≤ 0x5FFFF) → r.1 % 512 ≠ 0 → (∀ i < j, ∀ q, rows[i]? = some q → q.1 % 512 = 0) →
        exec (.vadd o false) s = .next (s.raise s.curId ⟨.align, BitVec.ofNat 64 r.1, BitVec.ofNat 64 r.2⟩ 2))) ∧
    (let a := Spec.addr s o.pa
     let b := Spec.addr s o.pb
     let k := s.core s.cur.core
     (∀ r ∈ rows, r.1 ≤ 0x5FFFF ∧ r.1 % 512 = 0) → needRows k [a, b] false = .ok () → needRows k [Spec.addr s o.pd] true = .ok () →
       needCleanRows k [a, b] = .ok () → a ≠ b → a / 512 % 3 = b / 512 % 3 → s.cur.owe = 0 →
       exec (.vadd o false) s = .next (s.setCur { s.cur with owe := 1 })) ∧
    ∀ (v : OpV1) (dst : Fmt),
      let d := Spec.addr s v.pd
      let a := Spec.addr s v.pa
      let lanes (f : Fmt) : Nat := 4096 / fmtBits f
      let n := min s.cur.ctl.vl (max (lanes v.fmt) (lanes dst))
      let count (f : Fmt) : Nat := max 1 ((n + lanes f - 1) / lanes f)
      (∀ i < count dst, 0x5FFFF < d + 512 * i → (∀ j < i, d + 512 * j ≤ 0x5FFFF) →
        exec (.vcvt v dst) s = .next (s.raise s.curId ⟨.range, BitVec.ofNat 64 d, BitVec.ofNat 64 (4 * i)⟩ 2)) ∧
      ((∀ j < count dst, d + 512 * j ≤ 0x5FFFF) → ∀ i < count v.fmt, 0x5FFFF < a + 512 * i → (∀ j < i, a + 512 * j ≤ 0x5FFFF) →
        exec (.vcvt v dst) s = .next (s.raise s.curId ⟨.range, BitVec.ofNat 64 a, BitVec.ofNat 64 (4 * i + 1)⟩ 2))

/-! ### Operand memory and the matrix array -/

/-- Between `s` and `t` only strand `g`, core `c` and the calendar change, and the next free number. -/
def Spec.onlyCore (s t : State) (c g : Nat) : Prop :=
  t.mem = s.mem ∧ t.homes = s.homes ∧ t.reqs = s.reqs ∧ t.msgs = s.msgs ∧ t.dies = s.dies ∧ t.pkg = s.pkg ∧ t.now = s.now ∧
  (∀ k, k ≠ c → t.core k = s.core k) ∧ ∀ n, n ≠ g → t.strands.find? n = s.strands.find? n

/-- The strand has retired, having written `w`. -/
def Spec.retired (s t : State) (len : Nat) (w : RegSet) (mS : List SReg) : Prop :=
  s.cur.keepsRegs t.cur w mS [] ∧ t.cur.ctl = s.cur.ctl ∧ t.cur.pc = s.cur.pc + BitVec.ofNat 64 len ∧ t.cur.wait = none

/-- R202, R212, R213: `MCLAIM` takes a run of slots that nobody holds, awaits or claimed before; `MRELEASE` gives up a run that the strand
holds, and a slot that no unfinished command names is free at once. No slot changes its bits or its tag. -/
def Spec.claimSlotClaims : Prop :=
  ∀ (slot : BitVec 6) (n1 : BitVec 4) (lim : BitVec 10) (s : State),
    let k := s.core s.cur.core
    let inRun (x : Nat) : Prop := slot.toNat ≤ x ∧ x ≤ slot.toNat + n1.toNat
    let same (t : State) : Prop := Spec.onlyCore s t s.cur.core s.curId ∧ Spec.retired s t 4 {} [] ∧
      (t.core s.cur.core).om = k.om ∧ (t.core s.cur.core).omTag = k.omTag ∧ (t.core s.cur.core).sp = k.sp ∧ t.gangs = s.gangs
    slot.toNat + n1.toNat ≤ 63 →
    ((∀ e ∈ k.omHold, ¬inRun e.1) → (∀ e ∈ k.omRelease, ¬inRun e.1) →
      (∀ e ∈ k.claims, e.strand ≠ s.curId → ∀ x, inRun x → ¬(e.slot ≤ x ∧ x < e.slot + e.n)) →
      ∃ t, exec (.mclaim slot n1 lim) s = .next t ∧ same t ∧
        ∀ x, (inRun x → (t.core s.cur.core).omHold.find? x = some s.curId) ∧
          (¬inRun x → (t.core s.cur.core).omHold.find? x = k.omHold.find? x)) ∧
    ((∀ x, inRun x → k.omHold.find? x = some s.curId) →
      (∃ t, exec (.mrelease slot n1) s = .next t ∧ same t ∧
        (∀ x, (t.core s.cur.core).omHold.find? x = if slot.toNat ≤ x ∧ x ≤ slot.toNat + n1.toNat then none else k.omHold.find? x) ∧
        ∀ x, (t.core s.cur.core).omRelease.find? x ≠ k.omRelease.find? x → inRun x ∧ ∃ y ∈ k.cmds, x ∈ y.rdOm ++ y.wrOm) ∧
      exec (.mclaim slot n1 lim) s = .next (s.raise s.curId (slotFault slot.toNat 5) 2)) ∧
    (∀ x, inRun x → (∀ y < x, inRun y → k.omHold.find? y = some s.curId) → k.omHold.find? x ≠ some s.curId →
      exec (.mrelease slot n1) s = .next (s.raise s.curId (slotFault x 3) 2))

/-- A command has entered the tail of queue `q` of the strand's core as it was accepted (R205, R206, R314, R330): its operation, what it
reads and writes, and the commands that a `QFENCE` puts before it. Nothing else of the machine changes but slot tags and what the
particular instruction says of its strand. -/
def Spec.accepted (s t : State) (q : Nat) (op : CmdOp) (rdSp wrSp : List (Nat × Nat)) (rdOm wrOm : List Nat) : Prop :=
  let c := s.cur.core
  (∃ x, (t.core c).queue q = (s.core c).queue q ++ [x] ∧ x.id = s.nextId ∧ x.strand = s.curId ∧ x.gang = s.cur.ident.gang ∧ x.pc = s.cur.pc ∧
    x.op = op ∧ x.started = false ∧ x.rdSp = rdSp ∧ x.wrSp = wrSp ∧ x.rdOm = rdOm ∧ x.wrOm = wrOm ∧
    ∀ n, n ∈ x.after ↔ ∃ f ∈ s.cur.qfences, f.1.getLsbD q = true ∧ n ∈ f.2) ∧
  (∀ p, p ≠ q → (t.core c).queue p = (s.core c).queue p) ∧ (t.core c).sp = (s.core c).sp ∧ (t.core c).om = (s.core c).om ∧
  (t.core c).omHold = (s.core c).omHold ∧ Spec.onlyCore s t c s.curId ∧ t.nextId = s.nextId + 1 ∧ t.gangs = s.gangs

/-- R203, R205, R208, R214, R215, R216: a matrix command on a slot that its strand holds enters a queue that is not full, and its instruction
retires; `MLOAD` and `MZERO` give their slot its tag then, and the register of `MSTORE` is empty with a reply pending. -/
def Spec.claimMatrixCommands : Prop :=
  ∀ (slot : BitVec 6) (a d : SReg) (la int : Bool) (f : Fmt) (tr : TileTr) (s : State),
    let k := s.core s.cur.core
    let v := s.cur.sVal a
    let n := slot.toNat
    let bytes := 128 * fmtBits f
    let tags (t : State) (g : Nat → Option Nat) : Prop := ∀ x, (t.core s.cur.core).omTag.find? x = g x
    s.cur.acq = none → k.omHold.find? n = some s.curId → (k.queue 2).length < 16 →
    (f ∈ [Fmt.i8, .i32, .f32, .bf16, .f16, .e4m3, .e5m2, .e2m1, .t2] →
      (tr = .none ∨ tr = .tr8 ∧ f ∈ [Fmt.i8, .e4m3, .e5m2] ∨ tr = .tr16 ∧ f ∈ [Fmt.bf16, .f16]) →
      s.cur.sState a = .full → v.toNat + bytes ≤ 0x60000 → v.toNat % 512 = 0 →
      ∃ t, exec (.mload slot a la f tr) s = .next t ∧
        Spec.accepted s t 2 (.mload n v.toNat f tr) [(v.toNat, v.toNat + bytes)] [] [] [n] ∧ Spec.retired s t 4 {} (marked [(a, la)]) ∧
        tags t fun x => if x = n then some (fmtNum f) else k.omTag.find? x) ∧
    (∃ t, exec (.mzero slot int) s = .next t ∧ Spec.accepted s t 2 (.mzero n int) [] [] [] [n] ∧ Spec.retired s t 4 {} [] ∧
      tags t fun x => if x = n then some (if int then 2 else 7) else k.omTag.find? x) ∧
    (∀ tag, k.omTag.find? n = some tag →
      (tag = fmtNum f ∨ tag = 7 ∧ f ∈ [Fmt.f32, .bf16, .f16, .e4m3, .e5m2, .e2m1] ∨ tag = 2 ∧ f ∈ [Fmt.i32, .i16, .i8, .n32, .n16, .n8]) →
      f ≠ .iv32 → s.cur.sState a = .full → s.cur.sState d ≠ .pending → v.toNat + bytes ≤ 0x60000 → v.toNat % 512 = 0 →
      ∃ t, exec (.mstore d slot a f) s = .next t ∧
        Spec.accepted s t 2 (.mstore d n v.toNat f s.cur.ctl.fpm (some tag)) [] [(v.toNat, v.toNat + bytes)] [n] [] ∧ Spec.retired s t 4 { s := [d] } [] ∧
        t.cur.sState d = (if d = 0 then .full else .pending) ∧ tags t k.omTag.find?)

/-- The element of a tile product (R209): integers exactly modulo 2³², floats as one sum rounded once. `ta` and `tb` are the tags. -/
def Spec.tile (k : Core) (a b c : Nat) (new : Bool) (ta tb i j : Nat) : Nat :=
  let x (e : Nat) : Nat := elem (fmtBits (tagFmt ta)) (k.slotBits a) e
  let y (e : Nat) : Nat := elem (fmtBits (tagFmt tb)) (k.slotBits b) e
  let z : Nat := elem 32 (k.slotBits c) (32 * i + j)
  match fmtFF (tagFmt ta), fmtFF (tagFmt tb) with
  | some f, some g =>
    let terms := (List.range 32).map fun n => exactMul (f.val (x (32 * i + n))) (g.val (y (32 * n + j)))
    (blockSum { rm := .rne } (if new then terms else terms ++ [⟨FF.f32.val z, if (FF.f32.val z).snan then fNV else 0⟩])).bits
  | _, _ =>
    let t2 (v : Nat) : Int := if v = 1 then 1 else if v = 3 then -1 else 0
    let signed (w v : Nat) : Int := if v < 2 ^ (w - 1) then v else (v : Int) - 2 ^ w
    let p := (List.range 32).map fun n =>
      (if ta = 13 then t2 (x (32 * i + n)) else signed 8 (x (32 * i + n))) * signed 8 (y (32 * n + j))
    (((if new then 0 else signed 32 z) + p.sum) % 2 ^ 32).toNat

/-- The pairs of R208 with C's tag and the multiply time. -/
def Spec.pairs : List (Nat × Nat × Nat × Nat) :=
  [(8, 8, 7, 16), (9, 9, 7, 16), (10, 10, 7, 8), (10, 11, 7, 8), (11, 10, 7, 8), (11, 11, 7, 8), (0, 0, 2, 8), (12, 12, 7, 4), (13, 0, 2, 4)]

/-- The slots of an array operation may be used: the strand holds them, no command touches them, the array is idle and no STEP gang keeps
it, and no unit is poisoned (R202, R204, R206, R316). -/
def Spec.arrayFree (s : State) (slots : List Nat) : Prop :=
  let k := s.core s.cur.core
  (∀ n ∈ slots, k.omHold.find? n = some s.curId) ∧ k.array = none ∧ s.arrayKept s.cur = false ∧ k.omPoison = [] ∧
  ∀ q < 4, ∀ x ∈ k.queue q, ∀ n ∈ slots, n ∉ x.rdOm ∧ n ∉ x.wrOm

/-- R204, R208, R209, R217: `MMA` starts on slots that its strand holds, whose tags are a pair, and waits for the array; the result is that of
the operands as they stand. At the end of the multiply slot c holds it with its tag, the flags are entered, and the instruction
retires. -/
def Spec.claimTileMultiply : Prop :=
  (∀ (c a b : BitVec 6) (new : Bool) (s : State), ∀ e ∈ Spec.pairs,
    let k := s.core s.cur.core
    c ≠ a → c ≠ b → Spec.arrayFree s [a.toNat, b.toNat, c.toNat] → k.omTag.find? a.toNat = some e.1 → k.omTag.find? b.toNat = some e.2.1 →
    (new = true ∨ k.omTag.find? c.toNat = some e.2.2.1) →
    ∃ t x, exec (.mma c a b new) s = .next t ∧ (t.core s.cur.core).array = some x ∧ t.core s.cur.core = { k with array := some x } ∧
      x.strand = s.curId ∧ x.rot = false ∧ x.c = c.toNat ∧ x.ctag = e.2.2.1 ∧ x.done = s.now + e.2.2.2 ∧
      (∀ i < 32, ∀ j < 32, elem 32 x.result (32 * i + j) = Spec.tile k a.toNat b.toNat c.toNat new e.1 e.2.1 i j) ∧
      Spec.onlyCore s t s.cur.core s.curId ∧ s.cur.keepsRegs t.cur {} [] [] ∧ t.cur.pc = s.cur.pc ∧
      t.cur.wait.map (·.kind) = some .array ∧
      (⟨s.now + e.2.2.2, rankFill, .arrayOpComplete, { id := s.cur.core }⟩ : Due) ∈ t.cal) ∧
  (∀ (s : State) (x : ArrayOp) (d : Strand), (s.core s.arg.id).array = some x → x.rot = false → x.done ≤ s.now → x.nanAt = none →
    x.result < 2 ^ 32768 → s.strands.find? x.strand = some d → d.ident.gang = x.gang →
    ∃ t d', exec .arrayOpComplete s = .next t ∧ (t.core s.arg.id).array = none ∧ (t.core s.arg.id).slotBits x.c = x.result ∧
      (∀ n, n ≠ x.c → (t.core s.arg.id).slotBits n = (s.core s.arg.id).slotBits n) ∧
      (∀ n, (t.core s.arg.id).omTag.find? n = if n = x.c then some x.ctag else (s.core s.arg.id).omTag.find? n) ∧
      t.mem = s.mem ∧ (∀ n, n ≠ x.strand → t.strands.find? n = s.strands.find? n) ∧ t.strands.find? x.strand = some d' ∧
      { d with place := d'.place }.keepsRegs d' {} [] [] ∧ d'.pc = d.pc + 4 ∧
      d'.ctl = { d.ctl with fpf := d.ctl.fpf ||| x.flags, satc := satAdd d.ctl.satc x.sat })

/-- The number of an `x` register that an `MROT` row names (R219). -/
def Spec.mrots : List (Instr × XReg) :=
  [(.mrot0, 0), (.mrot1, 1), (.mrot2, 2), (.mrot3, 3), (.mrot4, 4), (.mrot5, 5), (.mrot6, 6), (.mrot7, 7)]

/-- R218, R219: `MROT` of a square STEP gang starts as an `MMA` does, and sends A to the core on the left and B to the core above, wrapped around
the square; the tiles arrive after the transfer and the link's latency. A tile that arrives at an idle array waits in its landing
buffer, and one that has been copied stands in its slot with its tag. -/
def Spec.claimMultiplyAndRotate : Prop :=
  (∀ e ∈ Spec.mrots, ∀ (s : State) (g : Gang) (c a b ra rb : BitVec 6) (new : Bool), ∀ p ∈ Spec.pairs,
    let k := s.core s.cur.core
    let n := g.gw
    let core (x y : Nat) : Nat := (g.cores[y * n + x]?).getD 0
    s.gangs.find? s.cur.ident.gang = some g → g.step = true → g.gh = n → n ∈ [2, 4, 8, 12] →
    s.cur.xVal e.2 = BitVec.ofNat 64 (c.toNat + a.toNat * 2 ^ 8 + b.toNat * 2 ^ 16 + ra.toNat * 2 ^ 24 + rb.toNat * 2 ^ 32 + new.toNat * 2 ^ 40) →
    c ∉ [a, b] → ra ∉ [rb, c, a, b] → rb ∉ [c, a, b] → Spec.arrayFree s [a.toNat, b.toNat, c.toNat, ra.toNat, rb.toNat] →
    k.omTag.find? a.toNat = some p.1 → k.omTag.find? b.toNat = some p.2.1 → (new = true ∨ k.omTag.find? c.toNat = some p.2.2.1) →
    ∃ t x, exec e.1 s = .next t ∧ (t.core s.cur.core).array = some x ∧ x.rot = true ∧ x.strand = s.curId ∧
      (x.c, x.ra, x.rb, x.ctag, x.done) = (c.toNat, ra.toNat, rb.toNat, p.2.2.1, s.now + p.2.2.2) ∧
      (∀ i < 32, ∀ j < 32, elem 32 x.result (32 * i + j) = Spec.tile k a.toNat b.toNat c.toNat new p.1 p.2.1 i j) ∧
      Spec.onlyCore s t s.cur.core s.curId ∧ s.cur.keepsRegs t.cur {} [] [] ∧ t.cur.pc = s.cur.pc ∧
      t.cur.wait.map (·.kind) = some .array ∧
      let sent (slot dst tag : Nat) (south : Bool) : Prop :=
        let bytes := 128 * fmtBits (tagFmt tag)
        (⟨s.now + (bytes + 255) / 256 + 4, rankFill, .mrotTileArrival,
          { id := dst, flag := south, idx := tag, sub := s.cur.core, data := k.om.read (slot * 4096) bytes }⟩ : Due) ∈ t.cal
      sent a.toNat (core ((s.cur.ident.gx + n - 1) % n) s.cur.ident.gy) p.1 false ∧
      sent b.toNat (core s.cur.ident.gx ((s.cur.ident.gy + n - 1) % n)) p.2.1 true) ∧
  (∀ (s : State), s.arg.n = 0 → (s.core s.arg.id).array = none → (s.core s.arg.sub).array = none →
    ∃ t, exec .mrotTileArrival s = .next t ∧ t.strands = s.strands ∧ t.mem = s.mem ∧ (∀ c, c ≠ s.arg.id → c ≠ s.arg.sub → t.core c = s.core c) ∧
      (t.core s.arg.id).land s.arg.flag = (s.core s.arg.id).land s.arg.flag ++ [⟨s.arg.idx, leNat s.arg.data, s.arg.sub⟩] ∧
      (t.core s.arg.id).land (!s.arg.flag) = (s.core s.arg.id).land (!s.arg.flag) ∧ (t.core s.arg.id).om = (s.core s.arg.id).om) ∧
  (∀ (s : State) (x : ArrayOp) (y : Tile), s.arg.n = 1 → (s.core s.arg.id).array = some x → x.sent < 2 → x.rot = true →
    (s.core s.arg.id).land s.arg.flag = [y] → y.bits < 2 ^ (1024 * fmtBits (tagFmt y.fmt)) →
    let slot := if s.arg.flag then x.rb else x.ra
    ∃ t, exec .mrotTileArrival s = .next t ∧ t.strands = s.strands ∧ t.mem = s.mem ∧ (t.core s.arg.id).land s.arg.flag = [] ∧
      (t.core s.arg.id).omTag.find? slot = some y.fmt ∧
      (t.core s.arg.id).om.readN (slot * 4096) (128 * fmtBits (tagFmt y.fmt)) = y.bits ∧
      (t.core s.arg.id).array = some (if s.arg.flag then { x with gotB := 2 } else { x with gotA := 2 }))

/-! ### Engine commands, windows, rings and queues -/

/-- A valid address word of `CPY` (R318, R319, R320) for `len` bytes: kind 0 scratchpad, 1 operand memory, 2 main memory, 3 a ring as
destination or a gather window as source. -/
def Spec.addressWord (s : State) (kind : Nat) (dst : Bool) (w : Word) (len : Nat) : Prop :=
  let k := s.core s.cur.core
  let n := w.toNat
  match kind with
  | 0 => n % 64 = 0 ∧ n % 2 ^ 19 + len ≤ 0x60000 ∧ (n < 2 ^ 19 ∨ ∃ c ≤ 767, n = 2 ^ 34 + c * 2 ^ 24 + n % 2 ^ 19)
  | 1 => n % 64 = 0 ∧ n + len ≤ 0x40000 ∧ n < 2 ^ 18 ∧
    ∀ m < 64, len ≠ 0 → m * 4096 < n + len → n < m * 4096 + 4096 → k.omHold.find? m = some s.curId
  | 2 => n % 64 = 0 ∧ n < 2 ^ 48
  | _ =>
    if dst then n < 16 ∨ ∃ c ≤ 767, ∃ r < 16, n = 2 ^ 34 + c * 2 ^ 24 + r
    else n % 64 = 0 ∧ n < 2 ^ 35 ∧ ∃ z count g, k.bound.find? (n / 2 ^ 32) = some (z, count, g) ∧ n % 2 ^ 32 + len ≤ count * (64 * 2 ^ z)

/-- The bytes of the core's own scratchpad, and the operand-memory slots, that an address word covers (R206). -/
def Spec.ownBytes (s : State) (kind : Nat) (w : Word) (len : Nat) : List (Nat × Nat) :=
  let n := w.toNat
  if kind = 0 ∧ len ≠ 0 ∧ (n < 2 ^ 19 ∨ n / 2 ^ 24 % 2 ^ 10 = s.cur.core) then [(n % 2 ^ 19, n % 2 ^ 19 + len)] else []
def Spec.ownSlots (kind : Nat) (w : Word) (len : Nat) : List Nat :=
  if kind = 1 ∧ len ≠ 0 then (List.range 64).filter fun m => m * 4096 < w.toNat + len ∧ w.toNat < m * 4096 + 4096 else []

/-- R205, R314, R318 to R323: `CPY` with a valid description enters the COPY queue, `CPY.G` and a copy out of a window the GATHER queue;
a length that is not a multiple of 64 is fault 0x05 of the control word. `GWIN` and `GUNB` enter the GATHER queue, and their window counts
as bound, or not, from then on. Each retires. -/
def Spec.claimCopiesAndWindows : Prop :=
  ∀ (s : State), s.cur.acq = none →
    let c := s.cur
    let k := s.core c.core
    let bound (t : State) : Nat → Option (Nat × Nat × Nat) := (t.core c.core).bound.find?
    (∀ (x : XReg) (len sk dk gran : Nat), x.toNat ≤ 5 → len < 2 ^ 26 → sk < 4 → dk < 4 → gran < 16 →
      let dst := c.xVal x
      let src := c.xVal (x + 1)
      let ctl := c.xVal (x + 2)
      ctl = BitVec.ofNat 64 (len + sk * 2 ^ 36 + dk * 2 ^ 40 + gran * 2 ^ 44) → Spec.addressWord s dk true dst len → Spec.addressWord s sk false src len →
      ∀ e ∈ [((Instr.cpy x, if sk = 3 then 1 else 0) : Instr × Nat), (.cpyG x, 1)],
        (len % 64 = 0 → (k.queue e.2).length < 16 →
          ∃ t, exec e.1 s = .next t ∧ Spec.retired s t 4 {} [] ∧ bound t = bound s ∧
            Spec.accepted s t e.2 (.cpy dst src ctl) (Spec.ownBytes s sk src len) (Spec.ownBytes s dk dst len) (Spec.ownSlots sk src len)
              (Spec.ownSlots dk dst len)) ∧
        (len % 64 ≠ 0 → exec e.1 s = .next (s.raise s.curId ⟨.align, ctl, 2⟩ 2))) ∧
    (∀ (w : BitVec 3) (x : XReg) (base z count idx rows : Nat), x.toNat ≤ 6 → z < 7 → base < 2 ^ 48 → base % (64 * 2 ^ z) = 0 → count < 2048 →
      idx % 4 = 0 → idx + 4 * (count + 1) ≤ 0x60000 → rows < 2 ^ 32 → bound s w.toNat = none → (k.queue 1).length < 16 →
      c.xVal x = BitVec.ofNat 64 (base + z * 2 ^ 48) → c.xVal (x + 1) = BitVec.ofNat 64 (idx + count * 2 ^ 20 + rows * 2 ^ 32) →
      ∃ t, exec (.gwin w x) s = .next t ∧ Spec.retired s t 4 {} [] ∧
        Spec.accepted s t 1 (.gwin w.toNat (c.xVal x) (c.xVal (x + 1))) [(idx, idx + 4 * (count + 1))] [] [] [] ∧
        ∀ n, bound t n = if n = w.toNat then some (z, count + 1, c.ident.gang) else bound s n) ∧
    (∀ e ∈ [((Instr.gunb0, 0) : Instr × Nat), (.gunb1, 1), (.gunb2, 2), (.gunb3, 3), (.gunb4, 4), (.gunb5, 5), (.gunb6, 6), (.gunb7, 7)],
      (bound s e.2 ≠ none → (k.queue 1).length < 16 → ∃ t, exec e.1 s = .next t ∧ Spec.retired s t 4 {} [] ∧
        Spec.accepted s t 1 (.gunb e.2) [] [] [] [] ∧ ∀ n, bound t n = if n = e.2 then none else bound s n) ∧
      (bound s e.2 = none → exec e.1 s = .next (s.raise s.curId ⟨.range, BitVec.ofNat 64 e.2, BitVec.ofNat 64 e.2⟩ 2)))

/-- R421, R423, R424: `WPOST` and `WPOST.G` to a registered outbound window enter their queue and retire; a get has copied its indices.
Another window is fault 0x41 with reason 2. `WWAIT` retires once the window's counter has reached its target. -/
def Spec.claimWindowPosts : Prop :=
  ∀ (s : State) (x : XReg) (win off : Nat), s.cur.acq = none → x.toNat ≤ 5 → win < 256 → off < 2 ^ 32 → off % 64 = 0 →
    let c := s.cur
    let k := s.core c.core
    let y := (s.pkg.wins.find? win).getD {}
    let outbound : Prop := y.w0.toNat / 2 ^ 61 = 5
    (∀ len sk, len < 2 ^ 26 → len % 64 = 0 → (sk = 0 ∧ (c.xVal (x + 1)).toNat < 2 ^ 19 ∨ sk = 2) → Spec.addressWord s sk false (c.xVal (x + 1)) len →
      c.xVal x = BitVec.ofNat 64 (win * 2 ^ 32 + off) → c.xVal (x + 2) = BitVec.ofNat 64 (len + sk * 2 ^ 36) →
      (outbound → (k.queue 0).length < 16 → ∃ t, exec (.wpost x) s = .next t ∧ Spec.retired s t 4 {} [] ∧
        Spec.accepted s t 0 (.wpost false (c.xVal x) (c.xVal (x + 1)) (c.xVal (x + 2))) (Spec.ownBytes s sk (c.xVal (x + 1)) len) [] [] []) ∧
      (¬outbound → exec (.wpost x) s = .next (s.raise s.curId ⟨.window, 0, BitVec.ofNat 64 (win + 2 * 256)⟩ 2))) ∧
    (∀ count z idx dk, count < 2048 → z < 7 → idx % 4 = 0 → idx + 4 * (count + 1) ≤ 0x60000 →
      let len := (count + 1) * (64 * 2 ^ z)
      (dk = 0 ∧ (c.xVal (x + 1)).toNat < 2 ^ 19 ∨ dk = 2) → Spec.addressWord s dk true (c.xVal (x + 1)) len →
      c.xVal x = BitVec.ofNat 64 (win * 2 ^ 32 + off + z * 2 ^ 48) → c.xVal (x + 2) = BitVec.ofNat 64 (idx + count * 2 ^ 20 + dk * 2 ^ 40) →
      outbound → (k.queue 1).length < 16 → k.sp.wf = true → ∃ t, exec (.wpostG x) s = .next t ∧ Spec.retired s t 4 {} [] ∧
        Spec.accepted s t 1 (.wpost true (c.xVal x) (c.xVal (x + 1)) (c.xVal (x + 2))) [(idx, idx + 4 * (count + 1))]
          (Spec.ownBytes s dk (c.xVal (x + 1)) len) [] [] ∧
        ∃ q, ((t.core c.core).queue 1).getLast? = some q ∧
          q.idx = (List.range (count + 1)).map fun i => Spec.bytes k.sp.get (idx + 4 * i) 4) ∧
    (∀ (a b : SReg) lim, c.sState a = .full → c.sState b = .full → (c.sVal a).toNat = win →
      (y.w0.getLsbD 63 = true → (c.sVal b).toNat ≤ y.cnt.toNat → completes (.wwait a b lim) s 4 {} [] [] fun _ => True) ∧
      (y.w0.getLsbD 63 = false → exec (.wwait a b lim) s = .next (s.raise s.curId ⟨.window, 0, BitVec.ofNat 64 (win + 2 * 256)⟩ 2)))

/-- What a ring holds (R325, R326) and what changes with an instruction on it. -/
def Spec.ringStep (s t : State) (r : Nat) (y : Option Ring) (w : RegSet) (mS : List SReg) : Prop :=
  let c := s.cur.core
  (∀ n, (t.core c).rings.find? n = if n = r then y else (s.core c).rings.find? n) ∧ (t.core c).sp = (s.core c).sp ∧
  (t.core c).queues = (s.core c).queues ∧ Spec.onlyCore s t c s.curId ∧ t.gangs = s.gangs ∧ Spec.retired s t 4 w mS

/-- R326, R328, R329: `RDEF` makes an undefined ring with every slot free; `RDEF.OFF` ends one; `RTAKE` takes the oldest slot of its mode and
writes its address; `RPOST` posts slots. On a ring that is not defined each but `RDEF` is fault 0x06 with reason 2. Rings without a
governor, for which nobody waits. -/
def Spec.claimRings : Prop :=
  ∀ (r : BitVec 4) (x : XReg) (d a : SReg) (la : Bool) (lim : BitVec 10) (s : State),
    let c := s.cur
    let k := s.core c.core
    let bad (i : Instr) (free : Nat) : Prop := exec i s = .next (s.raise s.curId ⟨.range, 0, BitVec.ofNat 64 (r.toNat + free * 16 + 2 * 32)⟩ 2)
    (∀ w ∈ k.ringWaits, w.1 ≠ r.toNat) →
    (k.rings.find? r.toNat = none →
      (∀ base z count, z < 7 → count < 256 → base % (64 * 2 ^ z) = 0 → base + (count + 1) * (64 * 2 ^ z) ≤ 0x60000 → x.toNat ≤ 6 →
        c.xVal x = BitVec.ofNat 64 (base + z * 2 ^ 36 + count * 2 ^ 40) → c.xVal (x + 1) = 0 →
        ∃ t y, exec (.rdef r x) s = .next t ∧ Spec.ringStep s t r.toNat (some y) {} [] ∧ y.gov = false ∧
          (y.base, y.size, y.count, y.free, y.filled, y.head, y.tail) = (base, 64 * 2 ^ z, count + 1, count + 1, 0, 0, 0)) ∧
      bad (.rdefOff r) 0 ∧ (c.sState d ≠ .pending → bad (.rtakeD d r lim) 0 ∧ bad (.rtakeF d r lim) 1) ∧
      (c.sState a = .full → bad (.rpostD r a la) 0 ∧ bad (.rpostF r a la) 1)) ∧
    (∀ y, k.rings.find? r.toNat = some y → y.gov = false → 
      (∃ t, exec (.rdefOff r) s = .next t ∧ Spec.ringStep s t r.toNat none {} []) ∧
      (c.sState d ≠ .pending →
        (0 < y.filled → ∃ t, exec (.rtakeD d r lim) s = .next t ∧ t.cur.sVal d = wroteS d (BitVec.ofNat 64 (y.base + y.head * y.size)) ∧
          t.cur.sState d = .full ∧
          Spec.ringStep s t r.toNat (some { y with head := (y.head + 1) % y.count, filled := y.filled - 1 }) { s := [d] } []) ∧
        (0 < y.free → ∃ t, exec (.rtakeF d r lim) s = .next t ∧ t.cur.sVal d = wroteS d (BitVec.ofNat 64 (y.base + y.tail * y.size)) ∧
          t.cur.sState d = .full ∧
          Spec.ringStep s t r.toNat (some { y with tail := (y.tail + 1) % y.count, free := y.free - 1 }) { s := [d] } [])) ∧
      (c.sState a = .full →
        let n := (c.sVal a).toNat
        n ≤ 256 → y.free + y.filled + n ≤ y.count →
        (Spec.drained s .writes → ∃ t, exec (.rpostD r a la) s = .next t ∧
          Spec.ringStep s t r.toNat (some { y with filled := y.filled + n }) {} (marked [(a, la)])) ∧
        ∃ t, exec (.rpostF r a la) s = .next t ∧ Spec.ringStep s t r.toNat (some { y with free := y.free + n }) {} (marked [(a, la)])))

/-- R330, R331, R333: `QFENCE` orders later commands of its after-set behind the unfinished ones of its before-set and changes nothing else; `QWAIT`
retires when the strand has no command in its queues and no failure of one; `CKPT` goes on where no pre-emption and no move of the
governor is in force. -/
def Spec.claimJoiningTheQueues : Prop :=
  ∀ (s : State), let c := s.cur
    (∀ before after : BitVec 4, ∃ t, exec (.qfence before after) s = .next t ∧ s.onlyCur t ∧ c.keepsRegs t.cur {} [] [] ∧ t.cur.ctl = c.ctl ∧
      t.cur.pc = c.pc + 4 ∧ t.cur.wait = none ∧
      ∀ q < 4, ∀ n, (∃ f ∈ t.cur.qfences, f.1.getLsbD q = true ∧ n ∈ f.2 ∧ s.pending n = true) ↔
        s.pending n = true ∧ ((∃ f ∈ c.qfences, f.1.getLsbD q = true ∧ n ∈ f.2) ∨
          after.getLsbD q = true ∧ ∃ p < 4, before.getLsbD p = true ∧ ∃ e ∈ s.cores, ∃ x ∈ e.2.queue p, x.strand = s.curId ∧ x.id = n)) ∧
    (∀ set lim, (∀ q < 4, set.getLsbD q = true → ∀ e ∈ s.cores, ∀ x ∈ e.2.queue q, x.strand ≠ s.curId) →
      (∀ e ∈ s.cores, ∀ f ∈ e.2.cmdFails, f.2.strand = s.curId → set.getLsbD f.2.queue = false) →
      completes (.qwait set lim) s 4 {} [] [] (fun _ => True) ∧ completes (.qwait16 set) s 2 {} [] [] fun _ => True) ∧
    (∀ off, (∀ g, s.gangs.find? c.ident.gang = some g → g.preempt = none ∧ g.moving = none) →
      completes (.ckpt off) s 4 {} [] [] fun _ => True)

/-! ### Stream instructions -/

/-- A binding request of kind `kind` for entry `idx` of die `die`'s unit is on its way (R358), and the strand waits for the answer. -/
def Spec.bindAsked (s t : State) (die kind idx : Nat) (stream : Option Stream) (binding : Option Binding) : Prop :=
  (∃ b, (t.die die).sbinds.find? s.nextId = some b ∧ b.strand = s.curId ∧ b.core = s.cur.core ∧ b.kind = kind ∧ b.index = idx ∧
    b.stream = stream ∧ b.binding = binding ∧ b.fail = none) ∧
  (⟨s.now + latency s.cur.core (streamStop die), rankSuCmd + s.cur.core, .stateNotice, { die := die, id := s.nextId, n := 1 }⟩ : Due) ∈ t.cal ∧
  s.cur.keepsRegs t.cur {} [] [] ∧ t.cur.pc = s.cur.pc ∧ t.cur.ctl = s.cur.ctl ∧ t.cur.wait.map (·.kind) = some (.reply s.nextId) ∧
  t.mem = s.mem ∧ t.cores = s.cores ∧ t.homes = s.homes ∧ t.reqs = s.reqs ∧ (∀ g, g ≠ s.curId → t.strands.find? g = s.strands.find? g) ∧
  (∀ i, (t.die die).streams.find? i = (s.die die).streams.find? i) ∧ ∀ i, (t.die die).bindings.find? i = (s.die die).bindings.find? i

/-- R354, R356 to R358: the `SBIND`s with a valid description ask their unit, once the strand's writes are performed, and wait for its
answer. An `SBIND.W` reads the two header words of its area at their home first, and translates each 64 KiB page of the area through the TLB
of its core.
The model's choice: the header is read once, when the drain is over (log 53). -/
def Spec.claimStreamBindings : Prop :=
  ∀ (a : SReg) (la : Bool) (x : XReg) (s : State) (die idx : Nat), die < 4 → s.cur.acq = none → s.cur.sState a = .full → Spec.drained s .writes →
    s.cur.sVal a = BitVec.ofNat 64 (idx + die * 2 ^ 16) → s.cut s.cur.core (streamStop die) = false →
    let c := s.cur
    (idx < 256 → ∀ idle z n, x.toNat ≤ 6 → idle < 2 ^ 32 → z < 4 → n < 64 → c.xVal x = BitVec.ofNat 64 (idle + z * 2 ^ 32 + n * 2 ^ 34) →
      ∃ t, exec (.sbindS a la x) s = .next t ∧ Spec.bindAsked s t die 0 idx
        (some { rs := 32 * 2 ^ z, idleT := idle, wm := (c.xVal (x + 1)).toInt
                srcs := List.replicate (n + 1) { wm := (c.xVal (x + 1)).toInt, last := 0 } }) none) ∧
    (idx < 1024 → x.toNat ≤ 4 → (c.xVal (x + 1)).toNat % 2 ^ 32 ≠ 0 → (c.xVal (x + 3)).toNat < 2 ^ 48 → (c.xVal (x + 3)).toNat % 64 = 0 →
      c.bind.seen = [] → ∀ pa leaf, translate s c.core (c.xVal (x + 3)) .rw .write = .hit pa leaf → s.cut c.core (homeOf pa) = false →
      (homeOf pa = c.core → resident (s.home (homeOf pa)) (blockOf pa) = true) →
      ∃ t, exec (.sbindW a la x) s = .next t ∧ Spec.sent s t (.look 16) pa leaf (c.xVal (x + 3)) false ∧ t.cores = s.cores ∧
        c.keepsRegs t.cur {} [] [] ∧ t.cur.pc = c.pc ∧ t.cur.ctl = c.ctl ∧ t.cur.wait.map (·.kind) = some .event) ∧
    (idx < 1024 → ∀ (st : Stream) (leaf : Nat → Word) (len hop late ahold pinit si npane mcap lcap drn node : Nat),
      let p := Nat.gcd len (if hop = 0 then len else hop)
      let area := c.xVal (x + 3)
      let bytes := 64 + npane * (64 + (mcap + lcap) * st.rs) + drn * st.rs
      let pages := List.range' (area.toNat / 65536) ((area.toNat + bytes - 1) / 65536 + 1 - area.toNat / 65536)
      x.toNat ≤ 4 → 0 < len → len < 2 ^ 32 → hop < 2 ^ 32 → late < 2 ^ 32 → ahold < 2 ^ 16 → 0 < pinit → pinit < 2 ^ 8 → si < 2 ^ 8 →
      npane ≤ 4096 → mcap < 2 ^ 16 → lcap < 2 ^ 16 → drn < 2 ^ 16 → node < 2 ^ 14 → len / p ≤ 4 → len / p ≤ npane → 0 < mcap + lcap →
      c.xVal (x + 1) = BitVec.ofNat 64 (len + hop * 2 ^ 32) →
      c.xVal (x + 2) = BitVec.ofNat 64 (si + pinit * 2 ^ 8 + ahold * 2 ^ 16 + late * 2 ^ 32) → area.toNat < 2 ^ 48 → area.toNat % 64 = 0 →
      c.bind.seen.length = 16 → c.bind.map = [] → area.toNat + bytes ≤ 2 ^ 48 →
      Spec.bytes (fun i => c.bind.seen.getD i 0) 0 8 = npane + mcap * 2 ^ 16 + lcap * 2 ^ 32 + drn * 2 ^ 48 →
      Spec.bytes (fun i => c.bind.seen.getD i 0) 8 8 = node → (s.die die).streams.find? si = some st →
      (∀ v ∈ pages, ∃ pa, translate s c.core (BitVec.ofNat 64 (max area.toNat (v * 65536))) .rw .write = .hit pa (leaf v)) →
      ∃ t, exec (.sbindW a la x) s = .next t ∧ Spec.bindAsked s t die 1 idx none
        (some { stream := si, origin := (c.xVal x).toInt, len := len, hop := if hop = 0 then len else hop, late := late, ahold := ahold
                pinit := pinit, core := c.core, area := area.toNat, map := pages.map fun v => (v, leaf v), npane := npane, mcap := mcap, lcap := lcap, drn := drn
                node := node, outEn := false, outStr := 0, outSrc := 0 })) ∧
    (idx < 256 → ∃ t, exec (.sbindOffS a la) s = .next t ∧ Spec.bindAsked s t die 2 idx none none) ∧
    (idx < 1024 → ∃ t, exec (.sbindOffW a la) s = .next t ∧ Spec.bindAsked s t die 3 idx none none)

/-- R355, R359, R360, R362, R363: the commands of the STREAM queue on a defined stream; an undefined one is fault 0x06 with reason 2. `SPUB` is
posted once every earlier access has been performed; `SREAD` leaves its two registers pending, and later accesses wait for the first. -/
def Spec.claimStreamCommandsAndPublication : Prop :=
  ∀ (a b d : SReg) (la lb : Bool) (s : State), s.cur.acq = none → s.cur.sState a = .full → s.cur.sState b = .full →
    let c := s.cur
    let k := s.core c.core
    let w := c.sVal b
    (∀ die idx src n, die < 4 → idx < 256 → src < 64 → n < 4096 →
      (∀ st, (s.die die).streams.find? idx = some st → (k.queue 3).length < 16 →
        (c.sVal a = BitVec.ofNat 64 (idx + die * 2 ^ 16 + n * 2 ^ 32) → 0 < st.rs → w.toNat % st.rs = 0 →
          w.toNat + (n + 1) * st.rs ≤ 0x60000 → ∃ t, exec (.semit ⟨a, la, b, lb⟩) s = .next t ∧ Spec.retired s t 4 {} (marked [(a, la), (b, lb)]) ∧
            Spec.accepted s t 3 (.stream 0 (c.sVal a) w st.rs st.gen) [(w.toNat, w.toNat + (n + 1) * st.rs)] [] [] []) ∧
        (c.sVal a = BitVec.ofNat 64 (idx + src * 2 ^ 8 + die * 2 ^ 16) → src < st.srcs.length →
          (∃ t, exec (.swm ⟨a, la, b, lb⟩) s = .next t ∧ Spec.retired s t 4 {} (marked [(a, la), (b, lb)]) ∧
            Spec.accepted s t 3 (.stream 1 (c.sVal a) w st.rs st.gen) [] [] [] []) ∧
          ∃ t, exec (.sidle a la) s = .next t ∧ Spec.retired s t 4 {} (marked [(a, la)]) ∧
            Spec.accepted s t 3 (.stream 2 (c.sVal a) 0 st.rs st.gen) [] [] [] [])) ∧
      ((s.die die).streams.find? idx = none → c.sVal a = BitVec.ofNat 64 (idx + die * 2 ^ 16) →
        ∀ i ∈ [Instr.semit ⟨a, la, b, lb⟩, .swm ⟨a, la, b, lb⟩, .sidle a la],
          exec i s = .next (s.raise s.curId ⟨.range, 0, BitVec.ofNat 64 (idx + die * 2 ^ 10 + 2 * 2 ^ 12)⟩ 2))) ∧
    (∀ pa leaf, (c.sVal a).toNat % 16 = 0 →
      let va := c.sVal a
      let chk := leaf.getLsbD 4
      (Spec.reaches s va .w .write pa leaf false → Spec.drained s .all → s.inFlight s.curId 0 < 8 →
        ∃ t, exec (.spub ⟨a, la, b, lb⟩) s = .next t ∧ Spec.sent s t (.spub w c.ident.amend.toNat) pa leaf va chk ∧ t.cores = s.cores ∧
          Spec.issued s t chk {} (marked [(a, la), (b, lb)]) []) ∧
      (Spec.reaches s va .r .read pa leaf true → 1 ≤ d.toNat → d.toNat ≤ 30 → c.sState d ≠ .pending → c.sState (d + 1) ≠ .pending →
        ∃ t, exec (.sread d a la) s = .next t ∧ Spec.sent s t (.sread d) pa leaf va chk ∧ t.cores = s.cores ∧
          Spec.issued s t chk { s := [d, d + 1] } (marked [(a, la)]) [.s d, .s (d + 1)] ∧
          (chk = false → t.cur.sState d = .pending ∧ t.cur.sState (d + 1) = .pending ∧ t.cur.acq = some (.s d))))

/-! ### System mode -/

/-- R52, R450, R452, R453: in system mode the system-only instructions have their effects; in user mode each is fault 0x04 with its own words.
`SNAP` is for either mode. -/
def Obligations.SystemInstructions : Prop :=
  ∀ (x : XReg) (a b d : SReg) (m : TlbiMode) (s : State),
    let c := s.cur
    let v := c.sVal a
    let w := c.sVal b
    let ends (t : State) (len : Nat) (r : RegSet) : Prop :=
      c.keepsRegs t.cur r [] [] ∧ t.cur.ctl = c.ctl ∧ t.cur.pc = c.pc + BitVec.ofNat 64 len ∧ t.cur.wait = none ∧ t.mem = s.mem ∧
      ∀ n, n ≠ s.curId → t.strands.find? n = s.strands.find? n
    let snaps (t : State) (len : Nat) : Prop := ends t len {} ∧
      (s.pkg.snapAt = some s.now → t = s.setCur t.cur) ∧
      (s.pkg.snapAt ≠ some s.now → t.snap = s.cycleRegs ∧ t.pkg.snapSeq = s.pkg.snapSeq + 1 ∧ t.pkg.irq.getLsbD 3 = true ∧
        ∀ i < 3, t.pkg.irq.getLsbD i = s.pkg.irq.getLsbD i)
    (c.ident.system = false → ∀ i ∈ [Instr.tlbw x a, .tlbi a b m, .privctlRd d a, .privctlWr a b, .snapt, .halt a],
      exec i s = .next (s.raise s.curId ⟨.priv, c.pc, encInfo (encode i)⟩ 2)) ∧
    (if s.pkg.snapUser then ∃ t, exec .snap s = .next t ∧ snaps t 2 else completes .snap s 2 {} [] [] fun _ => True) ∧
    (c.ident.system = true → c.sState a = .full →
      (x.toNat ≤ 5 → v.toNat ≤ 255 → ∃ t, exec (.tlbw x a) s = .next t ∧ ends t 4 {} ∧
        (∀ n, n ≠ c.core → t.core n = s.core n) ∧ t.core c.core = { s.core c.core with tlb := (t.core c.core).tlb } ∧
        ∀ n, (t.core c.core).tlb.find? n =
          if n = v.toNat then some ⟨c.xVal x, c.xVal (x + 1), c.xVal (x + 2)⟩ else (s.core c.core).tlb.find? n) ∧
      (c.sState b = .full → w.toNat < 2 ^ 12 → Spec.drained s .all →
        (w = 0 → completes (.tlbi a b m) s 4 {} [] [] fun _ => True) ∧
        (w ≠ 0 → ∃ t, exec (.tlbi a b m) s = .next t ∧ c.keepsRegs t.cur {} [] [] ∧ t.cur.pc = c.pc ∧ t.cores = s.cores ∧ t.mem = s.mem ∧
          (∃ q, t.cur.wait = some q ∧ q.kind = .event ∧ q.until_ = none ∧
            q.info.toNat = ((List.range 768).filter fun n => w.getLsbD (n / 64)).length) ∧
          ∀ n < 768, w.getLsbD (n / 64) = true → (⟨s.now + latency c.core n, rankWork, .shootdown,
            { id := n, idx := (match m with | .va => 0 | .unl => 1 | .all => 2), sub := s.curId
              v := BitVec.ofNat 64 (v.toNat % 2 ^ 48 / 2 ^ 16) }⟩ : Due) ∈ t.cal)) ∧
      (∀ r, v.toNat % 8 = 0 → s.reg v.toNat = some r → Spec.drained s .all →
        (c.sState d ≠ .pending → ∃ t, exec (.privctlRd d a) s = .next t ∧ ends t 4 { s := [d] } ∧ t.cur.sVal d = wroteS d r ∧
          t.cur.sState d = .full ∧ t = (s.setCur t.cur).regClear v.toNat) ∧
        (c.sState b = .full → ∃ t u, exec (.privctlWr a b) s = .next t ∧ (s.setCur (c.advance 4)).regWrite v.toNat w {} = some u ∧ t = u)) ∧
      (∃ t, exec .snapt s = .next t ∧ snaps t 4) ∧
      (Spec.drained s .writes → ∃ t, exec (.halt a) s = .next t ∧ ends t 4 {} ∧ t.pkg.halted = true ∧
        t.pkg.haltReg.toNat = 2 ^ 63 + v.toNat % 2 ^ 16 ∧ t.pkg.irq.getLsbD 1 = true ∧ t.issueQ = [] ∧ t.cores = s.cores ∧ t.homes = s.homes))

/-! ### Homes -/

/-- Request `r` of number `s.arg.id` has its turn at its home's port and is performed now (R225, R228, R249): its block is there, the rows of its
granule are not being zeroed, its granule is LIVE if it writes, its page is not checked, nothing waits in the mesh for the home, nothing is
poisoned, and none of its bytes is a word of a dispatcher. -/
def Spec.atHome (s : State) (r : Req) (n : Nat) : Prop :=
  s.reqs.find? s.arg.id = some r ∧ s.arg.flag = true ∧ s.arg.flag2 = false ∧ s.pkg.thermal = false ∧
  resident (s.home r.home) (blockOf r.pa) = true ∧ (s.home r.home).zeroing.getD (granuleOf r.pa) 0 ≤ s.now ∧
  (s.writesLine r = true → granuleOf r.pa ∈ (s.home r.home).live) ∧ r.checked = false ∧ (s.home r.home).mesh = [] ∧ s.poison = [] ∧ s.mem.wf = true ∧ r.pa % 64 + n ≤ 64 ∧ dispWord s r.pa n = none

/-- It has been performed, with `v` for its issuer, and `ev` will bring the answer. -/
def Spec.performed (s t : State) (r : Req) (v : Word) (ev : Instr) : Prop :=
  (∃ q, t.reqs.find? s.arg.id = some q ∧ q.stage = .done ∧ q.val = v ∧ q.fail = r.fail) ∧
  (∃ d ∈ t.cal, d.ev = ev ∧ d.arg.id = s.arg.id ∧ s.now ≤ d.time) ∧ t.strands = s.strands

/-- What an atomic leaves in its word (R264, R266). -/
def Spec.amo (fn : AmoFn) (old v : Word) : Word :=
  match fn with
  | .add => BitVec.ofNat 64 (old.toNat + v.toNat)
  | .and => old &&& v
  | .or => old ||| v
  | .xor => old ^^^ v
  | .min => if v.toInt < old.toInt then v else old
  | .max => if old.toInt < v.toInt then v else old
  | .swap => v
  | .fadd => BitVec.ofNat 64 (FF.f64.addV { rm := .rne } (FF.f64.val old.toNat) (FF.f64.val v.toNat)).bits

/-- R225, R249, R256, R258, R260, R264, R265, R266: a home performs a load by reading its bytes and a store by writing exactly those given; `AMO` and `RED`
write the function's value over the word, `CAS` its new value where the word equals what it expects, and each but `RED` answers with the
old word; an `LDW` answers unless the word equals its comparand. No other byte of main memory changes. The first write to an ELIDED granule
makes it LIVE and waits until the channel has set its 64 rows to zeros.
The model's choice: when an access is scheduled at the port (log 33, 34). -/
def Obligations.HomeAccessesWriteTheirBytes : Prop :=
  ∀ (s : State) (r : Req), r.val = 0 →
    let old : Word := BitVec.ofNat 64 (Spec.bytes s.mem.get r.pa 8)
    let ends (ev : Instr) (v : Word) (new : List (Option Byte)) : Prop :=
      ∃ t, exec .remoteRequestArrival s = .next t ∧ Spec.performed s t r v ev ∧
        ∀ a, t.mem.get a = if r.pa ≤ a ∧ a < r.pa + new.length then ((new[a - r.pa]?).join).getD (s.mem.get a) else s.mem.get a
    let word (v : Word) : List (Option Byte) := (List.range 8).map fun i => some (BitVec.ofNat 8 (v.toNat / 256 ^ i))
    (∀ n dst, r.acc = .load n dst → n ≤ 8 → Spec.atHome s r n →
      ends .replyFill (BitVec.ofNat 64 (Spec.bytes s.mem.get r.pa n)) []) ∧
    (∀ d, r.acc = .store d → d.any (·.isSome) = true → Spec.atHome s r d.length → ends .ackArrival 0 d) ∧
    (∀ fn v dst, r.acc = .amo fn v dst → Spec.atHome s r 8 → ends .replyFill old (word (Spec.amo fn old v))) ∧
    (∀ fn v, r.acc = .red fn v → Spec.atHome s r 8 → ends .ackArrival 0 (word (Spec.amo (redFn fn) old v))) ∧
    (∀ e v dst, r.acc = .cas e v dst → Spec.atHome s r 8 → ends .replyFill old (if old = e then word v else [])) ∧
    (∀ v dst, r.acc = .ldw v dst → Spec.atHome s r 8 →
      (old ≠ v → ends .replyFill old []) ∧
      (old = v → (∀ l, r.limit = some l → s.now ≤ l) → s.bufUsed r.home < 2048 → ∃ t, exec .remoteRequestArrival s = .next t ∧
        t.mem = s.mem ∧ t.reqs.find? s.arg.id = some { r with stage := .watching, buf := true, late := false } ∧
        s.arg.id ∈ (t.home r.home).watchers)) ∧
    (s.reqs.find? s.arg.id = some r → s.arg.flag = true → s.arg.flag2 = false → s.pkg.thermal = false → r.acc.needsBlock = true →
      resident (s.home r.home) (blockOf r.pa) = true → (s.home r.home).zeroing.getD (granuleOf r.pa) 0 ≤ s.now → s.writesLine r = true →
      granuleOf r.pa ∉ (s.home r.home).live →
      let end_ := max s.now (s.home r.home).chanEnd + 64 * 96
      ∃ t, exec .remoteRequestArrival s = .next t ∧ t.mem = s.mem ∧ t.reqs.find? s.arg.id = some { r with stage := .port } ∧
        (∀ g, g ∈ (t.home r.home).live ↔ g = granuleOf r.pa ∨ g ∈ (s.home r.home).live) ∧ (t.home r.home).chanEnd = end_ ∧
        (t.home r.home).zeroing.getD (granuleOf r.pa) 0 = end_ ∧ ⟨s.arg.id, end_, 3⟩ ∈ (t.home r.home).port) ∧
    (∀ g, r.acc = .close g → s.reqs.find? s.arg.id = some r → (s.home r.home).mesh = [] → ∃ t, exec .spanClose s = .next t ∧ Spec.performed s t r 0 .ackArrival ∧
      t.mem = s.mem ∧ ∀ line c, (t.home r.home).check.find? line = some c →
        (∀ w, c.writer = some w → w.1 ≠ g) ∧ ∀ x ∈ c.readers, x.1 ≠ g)

/-- Between `s` and `t` at most home `h` and the calendar change, and what `more` allows. -/
def Spec.onlyHome (s t : State) (h : Nat) : Prop :=
  t.mem = s.mem ∧ t.strands = s.strands ∧ t.cores = s.cores ∧ t.reqs = s.reqs ∧ t.gangs = s.gangs ∧ t.pkg = s.pkg ∧ t.poison = s.poison ∧
  ∀ x, x ≠ h → t.home x = s.home x

/-- R229 to R235, R248, R249, R250: the events of a home. The steward starts the fetch that R232 chooses, whose block arrives 16 cycles later in a
granule that is ELIDED; a block that arrives is resident, with its waiters as arrival set; a transit block leaves, with its frame free
at once when it is clean; a write-back frees its frame; overflow waiters move; refreshes fall due every 390 cycles.
The model's choice: credits and patrol start at 0, refresh and patrol run for homes with a LIVE granule, a pulled-forward
bank is a free value, and an error in DRAM is an outside input (log 4, 24, 32, 35, 36, 37, 38). -/
def Obligations.HomeEvents : Prop :=
  ∀ (s : State), let h := s.arg.id
    let blk := s.arg.idx
    let x := s.home h
    let k := s.core h
    (∀ q, choose x k.bslim k.starve s.now = some (blk, q, false) → x.fetchAt ≤ s.now → x.fetchCount < 8 → x.isLive blk = false →
      ∃ t f, exec .stewardFetchStart s = .next t ∧ Spec.onlyHome s t h ∧ (t.home h).frames.find? blk = some f ∧
        (f.st = .fetching true ↔ ∃ t0, q.keptAt = some t0 ∧ t0 < s.now) ∧ f.isFetch = true ∧
        f.zeros = true ∧ f.patrol = false ∧ (∀ b, b ≠ blk → (t.home h).frames.find? b = x.frames.find? b) ∧
        (⟨s.now + 16, rankFill, .blockArrival, { id := h, idx := blk }⟩ : Due) ∈ t.cal) ∧
    (∀ f b, x.frames.find? blk = some f → f.st = .fetching b → (f.zeros = true ∨ s.eccBad = []) →
      (∀ q, x.queues.find? blk = some q → ∀ p ∈ q.waiters, (∃ g c, p.who = .strand g ∧ s.strands.find? g = some c ∧ c.place = .parked) ∨
        ∃ n r, p.who = .req n ∧ s.reqs.find? n = some r ∧ s.isBehind n { r with stage := .sent } = false) →
      ∃ t y, exec .blockArrival s = .next t ∧ (t.home h).frames.find? blk = some y ∧ resident (t.home h) blk = true ∧
        (t.home h).queues.find? blk = none ∧ t.mem = s.mem ∧ t.poison = s.poison ∧
        y.arr = match x.queues.find? blk with | some q => q.waiters.map (·.who) | none => []) ∧
    (∀ f, x.frames.find? blk = some f → f.st = .resident false → f.arr = [] → f.reloads = [] → f.dirty = [] →
      (∃ t, exec .blockEvict s = .next t ∧ Spec.onlyHome s t h ∧ (t.home h).frames.find? blk = none ∧
        ∀ b, b ≠ blk → (t.home h).frames.find? b = x.frames.find? b) ∧
      (f.at_ = s.arg.sub → f.hadArr = false → exec .transitIdleEvict s = exec .blockEvict s)) ∧
    (∃ t, exec .writebackEnd s = .next t ∧ Spec.onlyHome s t h ∧ (t.home h).frames = x.frames ∧
      ∀ w, w ∈ (t.home h).wbs ↔ w ∈ x.wbs ∧ ¬(w.1 = blk ∧ w.2.2 ≤ s.now)) ∧
    (∀ b p kept, x.overflow = [(b, p, kept)] → resident x b = false → x.queues.find? b = none → x.queues.length < 1024 →
      ∃ t, exec .overflowMove s = .next t ∧ Spec.onlyHome s t h ∧ (t.home h).overflow = [] ∧
        (t.home h).queues.find? b = some { waiters := [p], keptAt := if kept then some s.now else none }) ∧
    (x.patrol ≠ 0 → x.live ≠ [] → x.patrolNext x.patrolPos = some blk → x.frames.find? blk ≠ none →
      ∃ t, exec .patrolFetch s = .next t ∧ Spec.onlyHome s t h ∧ t.home h = { x with patrolPos := blk + 1 } ∧
        (⟨s.now + x.patrol, rankLast, .patrolFetch, { id := h }⟩ : Due) ∈ t.cal) ∧
    (∃ t, exec .refreshDue s = .next t ∧ Spec.onlyHome s t h ∧
      (0 < x.credit.getD blk 0 → t.home h = { x with credit := x.credit.set blk (x.credit.getD blk 0 - 1) }) ∧
      (x.credit.getD blk 0 = 0 → (t.home h).bankBusy.find? blk = some (max s.now (x.bankBusy.getD blk 0) + 192) ∧
        (x.chan = [] → t.home h = { x with bankBusy := x.bankBusy.set blk (max s.now (x.bankBusy.getD blk 0) + 192) })) ∧
      (x.live ≠ [] → (⟨s.now + 390, rankWork, .refreshDue, { id := h, idx := (blk + 1) % 16 }⟩ : Due) ∈ t.cal)) ∧
    (s.arg.flag = true → x.phase = true → x.chanEnd ≤ s.now →
      let b := Config.pullBank h s.now % 16
      x.credit.getD b 0 < 8 → ∃ t, exec .refreshPullForward s = .next t ∧ Spec.onlyHome s t h ∧
        (t.home h).credit.getD b 0 = x.credit.getD b 0 + 1)

/-! ### Ends of waits, replies and messages -/

/-- A bounded wait of strand `g` for `k`, begun in cycle `s.arg.sub`, that nothing has ended (R184). -/
def Spec.waits (s : State) (g : Nat) (c : Strand) (k : WaitKind) (len : Nat) : Prop :=
  s.strands.find? g = some c ∧ waitOver s g c k = false ∧
  ∃ w, c.wait = some w ∧ w.kind = k ∧ w.since = s.arg.sub ∧ w.until_ ≠ none ∧ w.len = len

/-- The strand takes fault `f` of its instruction of `len` bytes: at once where it holds a slot, else when it is loaded (R384). -/
def Spec.faults (s t : State) (g : Nat) (f : FaultRec) (len : Nat) : Prop :=
  ∃ u : State, t = u.pendUpcall g f len ∧ u.strands = s.strands ∧ u.mem = s.mem ∧ u.reqs = s.reqs

/-- R17, R184, R189, R191, R206, R212, R260, R328, R331, R424: a wait whose limit has passed ends in the fault that its instruction names, and what
it waited in at its core forgets it; the expiry of a wait that is over does nothing. A held fill is withdrawn, and its issuer faults.
The model's choice: which of two waiting commands the expiry of a held access names (log 50). -/
def Obligations.WaitsExpire : Prop :=
  ∀ (s : State) (c : Strand) (len : Nat), let g := s.arg.id
    let ends (ev : Instr) (k : WaitKind) (f : FaultRec) : Prop :=
      Spec.waits s g c k len → ∃ t, exec ev s = .next t ∧ Spec.faults s t g f len
    let ring (r : Nat) (m : Bool) : Word :=
      let y := ((s.core c.core).rings.find? r)
      BitVec.ofNat 64 (r + (if m then 16 else 0) + (y.map (·.head)).getD 0 * 2 ^ 8 + (y.map (·.tail)).getD 0 * 2 ^ 16)
    (∀ r, ends .registerWaitExpiry (.fill r) ⟨.regLimit, 0, fillInfo r⟩ ∧ ends .registerWaitExpiry (.pend r) ⟨.regLimit, 0, fillInfo r⟩) ∧
    (∀ a full, s.arg.flag = false → ends .taggedWaitExpiry (.tag a full) ⟨.tagLimit, BitVec.ofNat 64 a, if full then 0 else 1⟩) ∧
    (∀ r m, ends .rtakeExpiry (.ring r m)
      ⟨.ringLimit, BitVec.ofNat 64 ((((s.core c.core).rings.find? r).map (·.base)).getD 0), ring r m⟩) ∧
    (∀ set : BitVec 4, ends .qwaitExpiry (.queues set) ⟨.ringLimit, 0, BitVec.ofNat 64 (2 ^ 31 +
      ∑ q ∈ Finset.range 4, if set.getLsbD q = true ∧ ∃ e ∈ s.cores, ∃ x ∈ e.2.queue q, x.strand = g then 2 ^ q else 0)⟩) ∧
    (∀ slot n x, (∀ y < x, slot ≤ y → (s.core c.core).omHold.find? y = none ∧ (s.core c.core).omRelease.find? y = none) → slot ≤ x → x < slot + n →
      ((s.core c.core).omHold.find? x ≠ none ∨ (s.core c.core).omRelease.find? x ≠ none) →
      ends .mclaimExpiry (.claim slot n) ⟨.slot, 0, BitVec.ofNat 64 (4 * 256 + x)⟩) ∧
    (∀ w n, ends .wwaitExpiry (.window w n) ⟨.window, 0, BitVec.ofNat 64 (w + 256)⟩) ∧
    (∀ k, s.strands.find? g = some c → c.kept = none → (∃ w, c.wait = some w ∧ w.kind = k) → waitOver s g c k = true →
      ∀ ev ∈ [Instr.registerWaitExpiry, .rtakeExpiry, .qwaitExpiry, .mclaimExpiry, .wwaitExpiry], exec ev s = .next s) ∧
    (∀ w, s.arg.flag = true → s.strands.find? g = some c → c.wait = some w → (∃ b, w.kind = .block b ∨ w.kind = .miss b) →
      (∀ k, c.kept = some k → k.kind = .event → k.since = s.arg.sub → k.until_ ≠ none → k.since ≠ w.since →
        ∃ (t u : State), exec .ldwExpiry s = .next t ∧ t = u.pendUpcall g ⟨.ldwLimit, k.va, 0⟩ k.len ∧ u.mem = s.mem)) ∧
    (∀ r v d, s.arg.flag = false → s.reqs.find? g = some r → r.acc = .ldw v d → (r.stage = .watching ∨ r.stage = .waiting) → (s.home r.home).mesh = [] →
      ∃ t q, exec .ldwExpiry s = .next t ∧ t.reqs.find? g = some q ∧ q.stage = .done ∧ q.fail = some ⟨.ldwLimit, r.va, 0⟩ ∧
        g ∉ (t.home r.home).watchers ∧ t.mem = s.mem ∧ t.strands = s.strands) ∧
    (∀ rc r, s.strands.find? g = some c → c.heldSince = some s.arg.sub → c.heldRing = (rc, r) →
      let y := (s.core rc).rings.find? r
      let part (f : Ring → Nat) : Nat := (y.map f).getD 0
      ((∃ x ∈ (s.core c.core).cmds, x.ringWait = some (rc, r)) →
        ∃ (t u : State), exec .heldAccessExpiry s = .next t ∧ t = u.pendUpcall g ⟨.ringLimit, BitVec.ofNat 64 (part (·.base)),
            BitVec.ofNat 64 (r + 16 + part (·.head) * 2 ^ 8 + part (·.tail) * 2 ^ 16 + 2 ^ 30)⟩ c.heldLen ∧
          u = { s with strands := u.strands } ∧ u.strands.find? g = some { c with heldSince := none } ∧
          ∀ h, h ≠ g → u.strands.find? h = s.strands.find? h) ∧
      ((∀ x ∈ (s.core c.core).cmds, x.ringWait ≠ some (rc, r)) →
        ∃ t, exec .heldAccessExpiry s = .next t ∧ t = { s with strands := t.strands } ∧ t.strands.find? g = some { c with heldSince := none } ∧
          ∀ h, h ≠ g → t.strands.find? h = s.strands.find? h)) ∧
    (∀ m, s.msgs.find? g = some m → m.done = false → (s.strand m.target).takes m.reg = false →
      ∃ (t u : State), exec .heldFillExpiry s = .next t ∧ u.msgs.find? g = none ∧ u.strands = s.strands ∧ u.mem = s.mem ∧
        t = u.failWait m.strand g ⟨.regLimit, 0, BitVec.ofNat 64 (2 ^ 9 + match m.reg with | .s n => n.toNat | .iv n => 256 + n.toNat)⟩) ∧
    (∀ m, s.arg.flag = true → s.msgs.find? g = some m → m.done = false →
      ∃ t y, exec .taggedWaitExpiry s = .next t ∧ t.msgs.find? g = some y ∧ y.done = true ∧
        y.fail = some ⟨.tagLimit, BitVec.ofNat 64 (2 ^ 34 + m.target * 2 ^ 24 + m.addr), if m.kind = 0 then 0 else 1⟩ ∧
        (∀ e ∈ (t.core m.target).tagWaits, e.who ≠ .req g) ∧ (t.core m.target).sp = (s.core m.target).sp ∧
        (t.core m.target).tags = (s.core m.target).tags ∧ t.strands = s.strands)

/-- Strand `g` from `c` to `c'` goes on behind its instruction of `len` bytes, where `c` waited for `m`. -/
def Spec.wentOn (c c' : Strand) (w : RegSet) (mS : List SReg) (len : Nat) : Prop :=
  { c with place := c'.place }.keepsRegs c' w mS [] ∧ c'.pc = c.pc + BitVec.ofNat 64 len ∧ c'.wait = none

/-- R15, R187, R191, R226, R240, R244, R246, R257, R262, R264, R387, R389, R454: what arrives is entered: a reply in its register, or its failure there;
an answer lets the instruction that waits for it retire; halfwords, contexts, translations, shoot-downs, fills and tagged requests reach
those they are for.
The model's choice: the result of a walk, the drain of a shoot-down, and the answer to a fill (log 23, 31, 47). -/
def Obligations.RepliesAndMessages : Prop :=
  ∀ (s : State) (g : Nat) (c : Strand), s.strands.find? g = some c →
    let n := s.arg.id
    let others (t : State) : Prop := t.mem = s.mem ∧ ∀ h, h ≠ g → t.strands.find? h = s.strands.find? h
    (∀ r k dst, s.reqs.find? n = some r → r.acc = .load k dst → r.strand = some g → s.cut r.home r.core = false → c.awaits n = false →
      ∃ t c', exec .replyFill s = .next t ∧ others t ∧ t.reqs.find? n = none ∧ t.strands.find? g = some c' ∧ c.keepsRegs c' (Spec.regs dst) [] [] ∧
        c'.pc = c.pc ∧ c'.wait = c.wait ∧ c'.ctl = c.ctl ∧
        (r.fail = none → (dst ≠ .s 0 → c'.fillState dst = .full ∧ (match dst with | .s d => c'.sVal d = r.val | .iv d => c'.ivVal d = r.val)) ∧
          c'.acq = if c.acq = some dst then none else c.acq) ∧
        (∀ f, r.fail = some f → dst ≠ .s 0 → c'.fillState dst = .failed ⟨f.cause, f.addr, r.pc⟩)) ∧
    (∀ r fn v d w, s.reqs.find? n = some r → r.acc = .amo fn v d → r.strand = some g → r.gang = c.ident.gang → r.fail = none → s.cut r.home r.core = false →
      c.wait = some w → w.kind = .reply n → w.retire = { len := 4, dst := .s d } → c.place = .parked →
      ∃ t c', exec .replyFill s = .next t ∧ t.mem = s.mem ∧ t.strands.find? g = some c' ∧ Spec.wentOn c c' { s := [d] } [] 4 ∧
        c'.sVal d = wroteS d r.val ∧ c'.sState d = .full ∧ c'.ctl.fpf = c.ctl.fpf ||| BitVec.ofNat 6 s.arg.n ∧ c'.place = .ready) ∧
    (∀ r d, s.reqs.find? n = some r → r.acc = .store d → r.strand = some g → s.cut r.home r.core = false → c.awaits n = false →
      ∃ t c', exec .ackArrival s = .next t ∧ others t ∧ t.reqs.find? n = none ∧ t.strands.find? g = some c' ∧
        c' = { c with fails := match r.fail with | some f => c.fails.set n ⟨f.cause, f.addr, r.pc⟩ | none => c.fails }) ∧
    (∀ r (h h2 : Half) more, s.arg.id = g → c.fetch = .flight s.arg.sub → s.reqs.find? s.arg.sub = some r → r.strand = some g → r.fail = none → s.cut r.home r.core = false →
      r.acc = .fetch 4 more → r.data = [h.setWidth 8, (h >>> 8).setWidth 8, h2.setWidth 8, (h2 >>> 8).setWidth 8] →
      ∃ t, exec .fetchReturn s = .next t ∧ others t ∧ t.reqs.find? s.arg.sub = none ∧
        t.strands.find? g = some { c with fetch := .ready h (if h.getLsbD 15 && h.getLsbD 14 then some h2 else none) }) ∧
    (∃ t, exec .tlbMissWalk s = .next t ∧ t = { s with cal := t.cal } ∧
      (⟨s.now + latency n (walkStop n), rankMiss, .missReply, { id := n, idx := s.arg.idx }⟩ : Due) ∈ t.cal) ∧
    (∀ leaf comp slot, s.pages.find? s.arg.idx = some (leaf, comp) → leaf.getLsbD 0 = true → leafBig leaf = false →
      (s.core n).victim = some slot → (s.core n).misses.find? s.arg.idx = none →
      ∃ t, exec .missReply s = .next t ∧ t.strands = s.strands ∧ t.mem = s.mem ∧ (t.core n).tlbPtr = (slot + 1) % 256 ∧
        ∀ i, (t.core n).tlb.find? i = if i = slot then some ⟨BitVec.ofNat 64 (2 ^ 63 + s.arg.idx * 2 ^ 16), leaf, comp⟩
          else (s.core n).tlb.find? i) ∧
    (s.arg.n = 0 → s.arg.idx ≤ 2 → ∃ t, exec .shootdown s = .next t ∧ t.strands = s.strands ∧ t.mem = s.mem ∧
      (∀ i e, (i, e) ∈ (t.core n).tlb ↔ (i, e) ∈ (s.core n).tlb ∧
        ¬(s.arg.idx = 0 ∧ tlbHit s.arg.v.toNat e = true ∨ s.arg.idx = 1 ∧ e.locked = false ∨ s.arg.idx = 2)) ∧
      (⟨s.now, rankWork, .shootdown, { s.arg with n := 1 }⟩ : Due) ∈ t.cal) ∧
    (s.arg.n = 2 → s.arg.sub = g → ∀ w, c.wait = some w → w.kind = .event → w.info = 1 → w.retire = { len := 4 } → c.place = .parked →
      ∃ t c', exec .shootdown s = .next t ∧ others t ∧ t.strands.find? g = some c' ∧ Spec.wentOn c c' {} [] 4) ∧
    (n = g → ∀ h, c.place = .migrating h → s.stopping c.ident.gang = false → ∃ t, exec .migrationArrival s = .next t ∧ others t ∧
      t.strands.find? g = some { c with core := s.arg.idx, mcount := 0, place := .ready } ∧
      (t.core s.arg.idx).ready = (s.core s.arg.idx).ready ++ [g]) ∧
    (∀ l, (s.core n).rowLoads.find? s.arg.idx = some l → l.width ∈ [2, 4, 8, 16, 32, 64] → (∀ e ∈ l.lines, e.2.length = 64) →
      l.lines.length = 8 → (∀ i, (s.strand i).awaits s.arg.idx = false) →
      ((s.core n).bankTaken l.row 512 = true → exec .vldRowWrite s = .next (s.at_ (s.now + 1) rankReply .vldRowWrite s.arg)) ∧
      ((s.core n).bankTaken l.row 512 = false → (s.core n).sp.wf = true →
        ∃ t, exec .vldRowWrite s = .next t ∧ t.strands = s.strands ∧ t.mem = s.mem ∧ (t.core n).rowLoads.find? s.arg.idx = none ∧
          ∀ i < 4096 / l.width, elem l.width ((t.core n).row l.row) i =
            if l.enabled[i]? = some true then elem l.width (leNat (l.lines.flatMap (·.2))) i else elem l.width ((s.core n).row l.row) i)) ∧
    (s.arg.flag = true → s.arg.n = 0 → ∀ m, s.msgs.find? n = some m → m.done = false → m.kind ≤ 1 → m.arrived = true → ∃ t, exec .waitWithdrawal s = .next t ∧ t.strands = s.strands ∧
      t.msgs.find? n = none ∧ t.mem = s.mem ∧ ∀ e ∈ (t.core m.target).tagWaits, e.who ≠ .req n) ∧
    (n = g → s.arg.flag = false → ∀ w, c.wait = some w → w.kind = .retry s.now → c.place = .ready → ∃ t, exec .containRetryResume s = .next t ∧ others t ∧
      t.strands.find? g = some { c with fetch := .idle, wait := none }) ∧
    (∀ m d, s.arg.n = 0 → s.msgs.find? n = some m → m.target = g → m.reg = .s d → d ≠ 0 → c.sState d = .full →
      ∃ t, exec .rfillArrival s = .next t ∧ t.strands = s.strands ∧ t.msgs.find? n = some { m with arrived := true, since := s.now }) ∧
    (∀ m d i, s.arg.n = 1 → n = g → s.arg.idx = d.toNat → d ≠ (0 : SReg) → c.sState d = .empty → c.place ≠ .saved →
      s.heldFills g (.s d) = [(i, m)] → m.since < s.now → ∃ t c', exec .rfillArrival s = .next t ∧ others t ∧ t.strands.find? g = some c' ∧
        c.keepsRegs c' { s := [d] } [] [] ∧ c'.sVal d = m.val ∧ c'.sState d = .full ∧ c'.pc = c.pc ∧
        t.msgs.find? i = some { m with arrived := true, done := true }) ∧
    (∀ m, s.arg.flag = false → s.msgs.find? n = some m → m.kind = 2 → (∀ e ∈ (s.core m.target).tagWaits, e.addr ≠ m.addr) →
      ∃ t, exec .taggedRequestArrival s = .next t ∧ t.strands = s.strands ∧ (t.core m.target).sp = (s.core m.target).sp ∧
        (∀ i, i ∈ (t.core m.target).tags ↔ i ∈ (s.core m.target).tags ∧ i ≠ m.addr / 8) ∧
        t.msgs.find? n = some { m with val := 0, fail := none, arrived := true, done := true })

/-! ### The package, its registers, the host and the fabric -/

/-- Between `s` and `t` only the package's own part, what it sends out and the calendar change. -/
def Spec.onlyPkg (s t : State) : Prop := t = { s with pkg := t.pkg, outs := t.outs, cal := t.cal }

/-- Everything that a reset wipes (R441, R442) is as after power-on. -/
def Spec.wiped (s t : State) : Prop :=
  t.strands = [] ∧ t.cores = [] ∧ t.gangs = [] ∧ t.saved = [] ∧ t.reqs = [] ∧ t.msgs = [] ∧ t.dies = Vector.replicate 4 {} ∧
  (∀ h, (t.home h).frames = [] ∧ (t.home h).queues = [] ∧ (t.home h).check = []) ∧
  t.pkg.ready = false ∧ t.pkg.tfail = false ∧ t.pkg.halted = false ∧ t.pkg.thermal = false ∧ t.pkg.irq = 0 ∧ t.pkg.bootErr = s.arg.flag ∧
  t.pkg.sysn = BitVec.ofNat 14 s.arg.n

/-- Every host write, of memory or of a register, has been performed (R413). -/
def Spec.hostWritten (s : State) : Prop :=
  (∀ e ∈ s.reqs, e.2.acc.isHostWrite = true → e.2.stage = .done) ∧ ∀ d ∈ s.cal, hostRelease d.ev = true → d.arg.sub = 0

/-- R441 to R448, R412, R419: resets wipe the package, a cold one loses the memory and a warm one keeps it with its granules; training sets READY or
TFAIL; a quote is asked for once at a time; life cycles go forward only; every 16,000th cycle of a die Thermidor steps its clock by 100 MHz
between 800 and 1,600; a die's own count falls behind the reference count when its clock is slower; a
critical temperature slows a die, a thermal stop halts the package; a notice is latched; a link trains. After a failed boot nothing but the
mailbox and `pkg.stat` answers.
The model's choice: resets take no time, links are up and a new part is in PRODUCTION, the digest and the quote are free
values, and the readings of the monitors come as events (log 1, 5, 22, 52, 66, 68). -/
def Obligations.PackageEvents : Prop :=
  ∀ (s : State), let a := s.arg
    (∀ ev ∈ [Instr.powerOnReset, .pkgRstCold], (ev = .pkgRstCold → s.pkg.bootErr = false ∧ (a.idx = 1 ∨ a.sub = 0 ∧ Spec.hostWritten s)) →
      ∃ t, exec ev s = .next t ∧ Spec.wiped s t ∧ t.mem = [] ∧ t.homes = [] ∧ t.pages = [] ∧ t.pkg.life = (s.pkg.lifeNext).getD s.pkg.life) ∧
    ((a.idx = 1 ∨ a.sub = 0 ∧ Spec.hostWritten s) → s.pkg.bootErr = false → s.pkg.thermal = false →
      ∃ t, exec .pkgRstWarm s = .next t ∧ Spec.wiped s t ∧ t.pkg.life = s.pkg.life ∧
        ((∀ e ∈ s.reqs, e.2.stage ∈ [.sent, .watching, .done]) → t.mem = s.mem ∧ t.poison = s.poison ∧
          ∀ h, (t.home h).live = (s.home h).live ∧ (t.home h).ckset = (s.home h).ckset) ∧
        (∀ n r (d : List Byte), s.reqs = [(n, r)] → r.stage ∈ [.port, .behind, .waiting] → r.acc = .store (d.map some) → r.pa % 64 + d.length ≤ 64 →
          dispWord s r.pa d.length = none → s.mem.wf = true →
          ∀ p, t.mem.get p = if r.pa ≤ p ∧ p < r.pa + d.length then d.getD (p - r.pa) 0 else s.mem.get p)) ∧
    ((s.pkg.bootErr = true ∨ s.pkg.thermal = true) → a.idx = 1 → exec .pkgRstWarm s = .next s) ∧
    (s.pkg.ready = false → s.pkg.tfail = false → ∃ t, exec .trainingComplete s = .next t ∧ Spec.onlyPkg s t ∧
      t.pkg = { s.pkg with ready := a.flag, tfail := !a.flag, heldReqs := [] } ∧
      ∀ n ∈ s.pkg.heldReqs, (⟨s.now, rankWork, .remoteRequestArrival, { id := n }⟩ : Due) ∈ t.cal) ∧
    (a.flag2 = false → s.pkg.quoteReq = false → s.pkg.bootErr = false → ∃ t, exec .attestationRequest s = .next t ∧ Spec.onlyPkg s t ∧
      t.pkg = { s.pkg with quoteReq := true, nonce := if a.data = [] then s.pkg.nonce else a.data } ∧
      (⟨s.now + 1, rankLast, .attestationRequest, { flag2 := true }⟩ : Due) ∈ t.cal) ∧
    (a.flag2 = false → (s.pkg.quoteReq = true ∨ s.pkg.bootErr = true) → exec .attestationRequest s = .next s) ∧
    (a.flag2 = true → s.pkg.quoteReq = true → exec .attestationRequest s = .next { s with pkg :=
      { s.pkg with quoteReq := false, quote := Config.quote s.pkg.nonce s.pkg.meas s.pkg.life.toNat } }) ∧
    (exec .lifeCycleCommand s = .next { s with pkg := { s.pkg with
      lifeNext := if a.flag = true ∧ s.pkg.life.toNat < a.n ∧ a.n ≤ 3 then some (BitVec.ofNat 2 a.n) else s.pkg.lifeNext } }) ∧
    (a.die < 4 → let d := s.die a.die
      (a.flag2 = true →
        let slower : Prop := d.tgt.toNat * 8 < d.tmax ∨ d.pcap.toNat < d.pwr
        (slower → exec .thermidorStep s = .next (s.setDie a.die { d with fmhz := max 800 (d.fmhz - 100) })) ∧
        (¬slower → exec .thermidorStep s = .next (s.setDie a.die { d with fmhz := min 1600 (d.fmhz + 100) }))) ∧
      (a.flag2 = false → ∃ t, exec .thermidorStep s = .next t ∧ t = { s with dies := t.dies, cal := t.cal } ∧
        t.die a.die = { d with pwr := a.id % 2 ^ 16, tmax := a.n % 2 ^ 12 } ∧
        (d.tmax < 115 * 8 → 115 * 8 ≤ a.n % 2 ^ 12 → (⟨s.now, rankWork, .criticalTemperature, { die := a.die }⟩ : Due) ∈ t.cal) ∧
        (d.tmax < 125 * 8 → 125 * 8 ≤ a.n % 2 ^ 12 → (⟨s.now, rankWork, .thermalStop, { die := a.die }⟩ : Due) ∈ t.cal)) ∧
      (∃ t, exec .criticalTemperature s = .next t ∧ t = { s with dies := t.dies, pkg := t.pkg, outs := t.outs, cal := t.cal } ∧
        t.die a.die = { d with fmhz := 800, tmax := max d.tmax (115 * 8) } ∧ t.pkg = { s.pkg with irq := s.pkg.irq ||| 4 } ∧
        t.outs = .msix 2 :: s.outs) ∧
      (∃ t, exec .thermalStop s = .next t ∧ t = { s with dies := t.dies, pkg := t.pkg, outs := t.outs, cal := t.cal, issueQ := [] } ∧
        t.die a.die = { d with tmax := max d.tmax (125 * 8) } ∧
        t.pkg = { s.pkg with halted := true, thermal := true, irq := s.pkg.irq ||| 4 } ∧ t.outs = .msix 2 :: s.outs) ∧
      (s.tick.now = s.now + 1 ∧ (s.tick.die a.die).count = if d.frac + d.fmhz < 1600 then d.count else d.count + 1) ∧
      (1600 ≤ d.frac + d.fmhz → (d.count + 1) % 16000 = 0 → s.pkg.thermal = false →
        (⟨s.now + 1, rankWork, .thermidorStep, { die := a.die, flag2 := true }⟩ : Due) ∈ s.tick.cal)) ∧
    (∃ t, exec .containmentNotice s = .next t ∧ Spec.onlyPkg s t ∧
      t.pkg = { s.pkg with cnote := BitVec.ofNat 64 (2 ^ 63 + a.n % 2 ^ 13), irq := s.pkg.irq ||| 1 } ∧ t.outs = .msix 0 :: s.outs) ∧
    (a.idx < 2 → ∃ t, exec .hostLinkTraining s = .next t ∧ Spec.onlyPkg s t ∧ t.pkg.linkUp[a.idx]? = some true ∧
      t.pkg.linkUp[1 - a.idx]? = s.pkg.linkUp[1 - a.idx]?)

/-- R7, R182, R249, R250, R251, R287, R365, R391, R392, R414, R419, R420, R446, R450: a read of a register that a read clears returns its value and
clears it; writes of the registers with an effect have that effect and no other; after a failed boot neither is answered (R444).
The model's choice: the snapshot copy before the first snapshot and reads that change nothing (log 69, 70, 74). -/
def Obligations.HostRegisters : Prop :=
  ∀ (s : State), let a := s.arg
    let reads (ev : Instr) (v : Nat) (t : State) : Prop := exec ev s = .next { t with outs := .regData (BitVec.ofNat 64 v) :: s.outs }
    let x := s.home a.id
    (s.pkg.bootErr = true →
      (∀ ev ∈ [Instr.dspLostRead, .dspCcntRead, .suCntRead, .hsEccRead, .hsEvtRead, .hsChkRead, .fabLostRead, .fabRefusedRead, .fabCnoteRead],
        exec ev s = .next { s with outs := .hostError 2 :: s.outs }) ∧
      (∀ ev ∈ [Instr.pkgIrqClear, .pkgSnapTrigger, .pkgPreemptWrite, .hsElideWrite, .hsCksetWrite, .windowRegister, .windowUnregister],
        exec ev s = .next s)) ∧
    (s.pkg.bootErr = false →
    (a.die < 4 →
      reads .dspLostRead (s.die a.die).lost (s.setDie a.die { s.die a.die with lost := 0 }) ∧
      reads .dspCcntRead (s.die a.die).ccnt (s.setDie a.die { s.die a.die with ccnt := 0 }) ∧
      (∀ y, a.id < 256 → (s.die a.die).streams.find? a.id = some y → ∃ t, exec .suCntRead s = .next t ∧
        t.outs = .regData (BitVec.ofNat 64 (y.lower + y.badRec * 2 ^ 32)) :: s.outs ∧ t = { s with outs := t.outs, dies := t.dies } ∧
        (t.die a.die).streams.find? a.id = some { y with lower := 0, badRec := 0 }) ∧
      (a.id < 256 → (s.die a.die).streams.find? a.id = none → let n := ((s.die a.die).suCnt.find? a.id).getD (0, 0)
        ∃ t, exec .suCntRead s = .next t ∧ t.outs = .regData (BitVec.ofNat 64 (n.1 + n.2 * 2 ^ 32)) :: s.outs ∧
          t = { s with outs := t.outs, dies := t.dies } ∧ (t.die a.die).suCnt.find? a.id = none)) ∧
    (a.id < 768 →
      reads .hsEccRead (x.corr + x.uncorr * 2 ^ 32) (s.setHome a.id { x with corr := 0, uncorr := 0 }) ∧
      reads .hsEvtRead (x.wantDrop + x.keepDeny * 2 ^ 16 + x.starved * 2 ^ 32) (s.setHome a.id { x with starved := 0, keepDeny := 0, wantDrop := 0 }) ∧
      reads .hsChkRead (x.conf + x.disp * 2 ^ 32) (s.setHome a.id { x with conf := 0, disp := 0 })) ∧
    reads .fabLostRead s.pkg.fabLost { s with pkg := { s.pkg with fabLost := 0 } } ∧
    reads .fabRefusedRead s.pkg.refused { s with pkg := { s.pkg with refused := 0 } } ∧
    reads .fabCnoteRead s.pkg.cnote.toNat { s with pkg := { s.pkg with cnote := 0 } } ∧
    (∃ t, exec .pkgIrqClear s = .next t ∧ t = { s with pkg := { s.pkg with irq := t.pkg.irq } } ∧
      ∀ i < 4, t.pkg.irq.getLsbD i = (s.pkg.irq.getLsbD i && !a.v.getLsbD i)) ∧
    (s.pkg.snapAt ≠ some s.now → ∃ t, exec .pkgSnapTrigger s = .next t ∧ t.snap = s.cycleRegs ∧ t.pkg.snapSeq = s.pkg.snapSeq + 1 ∧
      t.pkg.snapUser = a.v.getLsbD 62 ∧ t.pkg.irq = s.pkg.irq ||| 8 ∧ t = { s with pkg := t.pkg, snap := t.snap, outs := t.outs }) ∧
    (s.pkg.preempt.getLsbD 63 = false → a.v.getLsbD 63 = false →
      ∃ t, exec .pkgPreemptWrite s = .next t ∧ Spec.onlyPkg s t ∧ t.pkg.preempt = BitVec.ofNat 64 (a.v.toNat % 2 ^ 16)) ∧
    (a.id < 768 → ∃ t, exec .hsElideWrite s = .next t ∧
      let g := a.v.toNat % 2 ^ 14
      (∀ p, t.mem.get p = if a.id * 2 ^ 30 + g * 65536 ≤ p ∧ p < a.id * 2 ^ 30 + (g + 1) * 65536 then 0 else s.mem.get p) ∧
      ∀ i, i ∈ (t.home a.id).live ↔ i ∈ (s.home a.id).live ∧ i ≠ g) ∧
    (a.id < 768 → ∃ t, exec .hsCksetWrite s = .next t ∧ Spec.onlyHome s t a.id ∧ (t.home a.id).frames = x.frames ∧
      (t.home a.id).cksetReg = a.v &&& BitVec.ofNat 64 (2 ^ 63 + 2 ^ 14 - 1) ∧
      ∀ i, i ∈ (t.home a.id).ckset ↔ if i = a.v.toNat % 2 ^ 14 then a.v.getLsbD 63 = true else i ∈ x.ckset) ∧
    (a.idx < 256 → let y := s.win a.idx
     (y.valid = false → a.v.toNat / 2 ^ 61 % 4 ≠ 3 → ∃ t, exec .windowRegister s = .next t ∧ Spec.onlyPkg s t ∧ (t.win a.idx).valid = true ∧
       (t.win a.idx).cnt = 0 ∧ (t.win a.idx).w1 = y.w1 ∧ (t.win a.idx).w2 = y.w2 ∧
       ∀ i < 63, (t.win a.idx).w0.getLsbD i = (a.v.getLsbD i && !(decide (48 ≤ i) && decide (i < 58)))) ∧
     (a.v.toNat / 2 ^ 61 % 4 ≠ 3 → ∃ t, exec .windowUnregister s = .next t ∧ Spec.onlyPkg s t ∧ (t.win a.idx).valid = false)) ∧
    (∃ t, exec .portRetrain s = .next t ∧ Spec.onlyPkg s t ∧ ∀ i < 24, t.pkg.portUp.getLsbD i = (s.pkg.portUp.getLsbD i || decide (i = a.idx))) ∧
    (a.sub = 0 → Spec.hostWritten s → a.idx < 16 → ∃ t, exec .migrationSlotFree s = .next t ∧
      Spec.onlyPkg s t ∧ t.mig a.idx = { s.mig a.idx with state := if (s.mig a.idx).state = 2 ∨ (s.mig a.idx).state = 3 then 0 else (s.mig a.idx).state }) ∧
    (
      (∀ d < 4, a.id = 0x100000 + d * 0x10000 → exec .registerWrite s =
        .next (s.setDie d { s.die d with ntbase := BitVec.ofNat 64 (a.v.toNat / 2 ^ 21 % 2 ^ 19 * 2 ^ 21) })) ∧
      (a.id = 0x500010 → exec .registerWrite s = .next { s with pkg := { s.pkg with tmo := BitVec.ofNat 32 a.v.toNat } }) ∧
      (a.id = 0x30 → exec .registerWrite s = .next { s with pkg := { s.pkg with sysn := BitVec.ofNat 14 a.v.toNat } }) ∧
      (∀ d < 4, a.id = 0x600008 + d * 0x1000 → exec .registerWrite s = .next (s.setDie d
        { s.die d with tgt := BitVec.ofNat 8 (a.v.toNat / 2 ^ 8), pcap := BitVec.ofNat 16 (a.v.toNat / 2 ^ 16) }))))

/-- The lines that `n` bytes at `pa` touch, in ascending order: of each the first byte touched and how many (R413). -/
def Spec.lines (pa n : Nat) : List (Nat × Nat) :=
  (List.range (if n = 0 then 0 else (pa % 64 + n + 63) / 64)).map fun i =>
    let lo := max pa (pa / 64 * 64 + 64 * i)
    (lo, min (pa + n) (pa / 64 * 64 + 64 * i + 64) - lo)

/-- A host request of a link at its stop (R413, R455). -/
def Spec.hostReq (link : Bool) (pa : Nat) (acc : Access) : Req :=
  { acc := acc, strand := none, gang := 0, core := if link then 3 * 192 + 11 * 16 + 15 else 0, home := pa / 2 ^ 30, pa := pa, va := 0, pc := 0 }

/-- Request `r` of a unit is on its way to the home of `pa`, to which core `core` has translated its address through a leaf (R244, R315). -/
def Spec.unitSent (s t : State) (r : Req) (core pa : Nat) (leaf : Word) : Prop :=
  ∃ q, t = { s with reqs := s.reqs.set s.nextId q, nextId := s.nextId + 1, cal := t.cal } ∧
    q = { r with pa := pa, home := pa / 2 ^ 30, kept := leaf.getLsbD 6, via := (tlbFind (s.core core) (vpnOf r.va)).map fun e => (core, e) } ∧
    (⟨if q.isLocal then s.now else s.now + latency r.core (pa / 2 ^ 30) + 1, r.core, .remoteRequestArrival, { id := s.nextId }⟩ : Due) ∈ t.cal

/-- The access of a copy to its device page (R415), from the mesh stop of its link (R455). -/
def Spec.migReq (link : Bool) (va : Word) (acc : Access) : Req :=
  { acc := acc, strand := none, gang := 0, core := linkStop link, home := linkStop link, pa := 0, va := va, pc := 0 }

/-- R364, R411 to R415, R446: a host request sets out line by line, or is answered by an error, and the completion of a read leaves from its link's
stop; a release waits for the writes of its link; a write of an ingress page is the stream events that it
spells, or counts in BADREC; a lost link fails the copies that use it; a failed edge raises the containment interrupt, removes every placed
gang and lets no message across; a copy moves one unit after another, translated by its core, and ends in DONE or FAILED with its interrupt.
The model's choice: which messages a failed edge cuts, one unit of a migration copy at a time, and answers of the host as
events (log 65, 71, 72, 73). -/
def Obligations.HostTraffic : Prop :=
  ∀ (s : State), let a := s.arg
    let up (l : Bool) : Prop := s.pkg.linkUp[if l then 1 else 0]? = some true
    (∀ ev ∈ [Instr.migrationStart, .migrationSlotFree, .pkgRstWarm, .pkgRstCold], ∀ e ∈ s.reqs, e.1 < s.nextId → e.2.acc.isHostWrite = true →
      e.2.stage ≠ .done → e.2.core = (if a.flag2 then 3 * 192 + 11 * 16 + 15 else 0) → a.sub = 0 → a.idx ≠ 1 →
      exec ev s = .next ({ s with nextId := s.nextId + 1 }.at_ (s.now + 1) rankWork ev { a with sub := s.nextId })) ∧
    (a.flag = true → ∀ r, s.reqs.find? a.id = some r →
      exec .hostMemoryRead s = .next { s with reqs := s.reqs.erase a.id, outs := .hostData r.pa r.data a.flag2 :: s.outs }) ∧
    (a.flag = false → up a.flag2 → s.pkg.bootErr = false →
      (a.idx = 1 → a.id = 0x38 → exec .hostMemoryRead s = .next { s with outs := .regData (BitVec.ofNat 64 s.now) :: s.outs }) ∧
      (a.idx = 2 → exec .hostMemoryRead s = .next { s with outs := .regData 0 :: s.outs })) ∧
    (a.flag = false → a.idx = 0 → s.pkg.tfail = false → s.pkg.bootErr = false → up a.flag2 →
      (a.id + a.n ≤ 768 * 2 ^ 30 → exec .hostMemoryRead s =
        .next ((Spec.lines a.id a.n).foldl (fun t l => t.send (Spec.hostReq a.flag2 l.1 (.hostRead l.2))) s)) ∧
      (768 * 2 ^ 30 < a.id + a.n → exec .hostMemoryRead s = .next { s with outs := .hostError 1 :: s.outs }) ∧
      (768 * 2 ^ 30 < a.id + a.data.length → exec .hostMemoryWrite s = .next s)) ∧
    (s.pkg.tfail = false → s.pkg.bootErr = false → up a.flag2 → a.id + a.data.length ≤ 768 * 2 ^ 30 → exec .hostMemoryWrite s =
        .next ((Spec.lines a.id a.data.length).foldl (fun t l =>
          t.send (Spec.hostReq a.flag2 l.1 (.hostWrite ((a.data.drop (l.1 - a.id)).take l.2) a.flag))) s)) ∧
    (a.flag = false → a.idx = 0 → s.pkg.tfail = true → up a.flag2 → a.id + a.n ≤ 768 * 2 ^ 30 →
      exec .hostMemoryRead s = .next { s with outs := .hostError 2 :: s.outs } ∧ exec .hostMemoryWrite s = .next s) ∧
    (s.pkg.bootErr = false → (s.die a.die).streams.find? a.id = none → a.die < 4 →
      ∀ ev ∈ [Instr.ingressRecordWrite, .ingressWatermarkWrite, .ingressIdleWrite], ∃ t, exec ev s = .next t ∧ t = { s with dies := t.dies } ∧
        let n := ((s.die a.die).suCnt.find? a.id).getD (0, 0)
        (t.die a.die).suCnt.find? a.id = some (n.1, min (n.2 + 1) (2 ^ 32 - 1)) ∧ (t.die a.die).streams = (s.die a.die).streams) ∧
    (∀ x, s.pkg.bootErr = false → (s.die a.die).streams.find? a.id = some x → x.srcs.length ≤ 64 →
      (a.data ≠ [] → a.idx + a.data.length ≤ 0x800 → a.idx % x.rs = 0 → a.data.length % x.rs = 0 →
        ∃ t, exec .ingressRecordWrite s = .next t ∧ t = { s with cal := t.cal } ∧ ∀ i < a.data.length / x.rs,
          (⟨s.now, rankSuHost, .streamRecord, { die := a.die, id := a.id, data := (a.data.drop (i * x.rs)).take x.rs, flag := a.flag }⟩ : Due) ∈ t.cal) ∧
      (a.data ≠ [] → a.idx + a.data.length ≤ 0x800 → ¬(a.idx % x.rs = 0 ∧ a.data.length % x.rs = 0) → a.die < 4 →
        ∃ t, exec .ingressRecordWrite s = .next t ∧ t = { s with dies := t.dies } ∧ ∀ i, (t.die a.die).streams.find? i =
          if i = a.id then some { x with badRec := min (x.badRec + 1) (2 ^ 32 - 1) } else (s.die a.die).streams.find? i) ∧
      (a.idx < x.srcs.length → a.flag = false →
        exec .ingressWatermarkWrite s = .next (s.at_ s.now rankSuHost .sourceWatermark { die := a.die, id := a.id, idx := a.idx, v := a.v }) ∧
        exec .ingressIdleWrite s = .next (s.at_ s.now rankSuHost .sourceIdle { die := a.die, id := a.id, idx := a.idx }))) ∧
    (a.idx < 2 → ∃ t, exec .hostLinkDown s = .next t ∧ Spec.onlyPkg s t ∧ t.pkg.linkUp[a.idx]? = some false ∧
      ∀ n < 16, let m := s.mig n
        let hit : Prop := m.state = 1 ∧ (if m.ctl.getLsbD 17 then 1 else 0) = a.idx
        (hit → t.mig n = { m with state := 3, cause := 0, lerr := 4 } ∧ .msix (16 + n) ∈ t.outs) ∧ (¬hit → t.mig n = m)) ∧
    (s.gangs = [] → a.flag = false → ∃ t, exec .dieEdgeFailure s = .next t ∧
      t = { s with pkg := t.pkg, outs := t.outs, cal := t.cal, msgs := t.msgs } ∧ t.outs = .msix 0 :: s.outs ∧
      (∀ d ∈ t.cal, d ∈ s.cal) ∧ (∀ n m, m.kind ≠ 3 →
        ((n, m) ∈ t.msgs ↔ (n, m) ∈ s.msgs ∧ ¬(m.arrived = false ∧ t.cut (s.strand m.strand).core m.target = true))) ∧
      (∀ d ∈ s.cal, d.ev = .migrationArrival → (d ∈ t.cal ↔ t.cut (s.strand d.arg.id).core d.arg.idx = false)) ∧
      t.pkg = { s.pkg with irq := s.pkg.irq ||| 1, failedEdges := t.pkg.failedEdges } ∧
      ∀ e, e ∈ t.pkg.failedEdges ↔ e ∈ s.pkg.failedEdges ∨ e = (min a.id a.idx, max a.id a.idx)) ∧
    (∀ g, a.flag = true → s.gangs.find? a.id = some g → g.starting = false → s.strandsOf a.id = [] → ∃ t, exec .dieEdgeFailure s = .next t ∧
      t.gangs.find? a.id = some { g with ended := 2, preempt := none, saving := 0, begun := [] } ∧ t.mem = s.mem ∧ t.strands = s.strands ∧
      t.cores = s.cores) ∧
    (a.idx < 16 → let m := s.mig a.idx
      let at0 := { m with state := 1, unit := 0, poison := 0, lerr := 0, cause := 0 : MigSlot }
      let started : State := { s with pkg := { s.pkg with mig := s.pkg.mig.setIfInBounds a.idx at0 } }
      let link : Bool := m.ctl.getLsbD 17
      a.sub = 0 → Spec.hostWritten s → s.pkg.bootErr = false →
      (m.state ≠ 0 → exec .migrationStart s = .next s) ∧
      (m.state = 0 → up link → m.ctl.getLsbD 16 = false →
        exec .migrationStart s = .next { started with outs := .hostGet link m.hpa.toNat :: s.outs }) ∧
      (m.state = 0 → up link → m.ctl.getLsbD 16 = true → ∀ pa leaf, translate s (m.ctl.toNat % 2 ^ 10) at0.va .page .read = .hit pa leaf →
        s.cut (linkStop link) (homeOf pa) = false →
        ∃ t, exec .migrationStart s = .next t ∧ Spec.unitSent started t (Spec.migReq link at0.va (.mig a.idx none)) (m.ctl.toNat % 2 ^ 10) pa leaf) ∧
      (m.state = 0 → up link → m.ctl.getLsbD 16 = true → translate s (m.ctl.toNat % 2 ^ 10) at0.va .page .read = .miss (vpnOf at0.va) →
        ∃ t, exec .migrationStart s = .next t ∧ t.mem = s.mem ∧ t.pkg = started.pkg ∧
          ∃ w, (t.core (m.ctl.toNat % 2 ^ 10)).misses.find? (vpnOf at0.va) = some w ∧ Waiter.req s.nextId ∈ w.joined) ∧
      (m.state = 0 → s.pkg.linkUp[if link then 1 else 0]? = some false →
        ∃ t, exec .migrationStart s = .next t ∧ Spec.onlyPkg s t ∧ t.mig a.idx = { at0 with state := 3, lerr := 4 } ∧
          t.outs = .msix (16 + a.idx) :: s.outs)) ∧
    (a.idx < 16 → a.flag2 = false → let m := s.mig a.idx
      m.state = 1 → m.ctl.getLsbD 16 = false →
      (a.n ≠ 0 → ∃ t, exec .migrationUnit s = .next t ∧ Spec.onlyPkg s t ∧ t.mig a.idx = { m with state := 3, cause := 0, lerr := a.n } ∧
        t.outs = .msix (16 + a.idx) :: s.outs) ∧
      (a.n = 0 → ∀ pa leaf, translate s (m.ctl.toNat % 2 ^ 10) m.va .page .write = .hit pa leaf → s.cut (linkStop m.link) (homeOf pa) = false →
        ∃ t u, exec .migrationUnit s = .next t ∧ Spec.onlyPkg s u ∧ u.outs = s.outs ∧ u.cal = s.cal ∧
        u.mig a.idx = { m with poison := if a.flag then min (m.poison + 1) (2 ^ 32 - 1) else min m.poison (2 ^ 32 - 1) } ∧
        Spec.unitSent u t (Spec.migReq m.link m.va (.mig a.idx (some (a.data, a.flag)))) (m.ctl.toNat % 2 ^ 10) pa leaf)) ∧
    (∀ (r : Req) n put f, a.flag2 = true → s.reqs.find? a.id = some r → r.acc = .mig n put → r.fail = some f → f.cause ≠ .memErr → n < 16 →
      s.cut r.home r.core = false → let m := s.mig n
      m.state = 1 → m.va = r.va → ∃ t, exec .migrationUnit s = .next t ∧ t.mig n = { m with state := 3, cause := f.cause.code, lerr := 0 } ∧
        t.outs = .msix (16 + n) :: s.outs ∧ t = { s with pkg := t.pkg, outs := t.outs, reqs := s.reqs.erase a.id }) ∧
    (∀ (r : Req) n put, a.flag2 = true → s.reqs.find? a.id = some r → r.acc = .mig n (some put) → r.fail = none → n < 16 →
      s.cut r.home r.core = false → let m := s.mig n
      m.state = 1 → m.va = r.va → m.size = 64 * (m.unit + 1) → ∃ t, exec .migrationUnit s = .next t ∧
        t.mig n = { m with unit := m.unit + 1, state := 2, cause := 0, lerr := 0 } ∧ t.outs = .msix (16 + n) :: s.outs ∧
        t = { s with pkg := t.pkg, outs := t.outs, reqs := s.reqs.erase a.id }) ∧
    (∀ (r : Req) n, a.flag2 = true → s.reqs.find? a.id = some r → r.acc = .mig n none → r.fail = none → n < 16 →
      s.cut r.home r.core = false → let m := s.mig n
      m.state = 1 → m.va = r.va → m.size = 64 * (m.unit + 1) → ∃ t, exec .migrationUnit s = .next t ∧
        t.mig n = { m with unit := m.unit + 1, state := 2, cause := 0, lerr := 0, poison := min (m.poison + if a.flag then 1 else 0) (2 ^ 32 - 1) } ∧
        t.outs = .msix (16 + n) :: .hostPut m.link (m.hpa.toNat + 64 * m.unit) r.data a.flag :: s.outs)

/-- What the fabric's answer to a unit that this device sent does to the command that waits for it (R422, R423). -/
def Spec.unitEnds (s t : State) (u : FabUnit) : Prop :=
  t.mem = s.mem ∧ t.strands = s.strands ∧ t.homes = s.homes ∧ t.reqs = s.reqs ∧
  (⟨s.now, rankWork, .engineUnit, { id := u.core, idx := u.queue, sub := u.cmd, n := 9 }⟩ : Due) ∈ t.cal

/-- R419, R422, R423, R425: a unit of a put that a window takes is written, or becomes stream events, is counted and acknowledged; one that it does
not take is refused; an acknowledgement counts in the sender's window; a unit refused or without an answer is lost, and counted; the
rows of a get are read, and what arrives is kept for its command; a port that goes down takes the ordered windows to the next that is up.
The model's choice: the bytes of a missing unit are a free value, the port of an unordered unit is that of its number, and
the order of a get's requests (log 49, 78, 79, 80, 81). -/
def Obligations.FabricTraffic : Prop :=
  ∀ (s : State), let a := s.arg
    let x := s.win a.idx
    let base (acc : Access) (i : Nat) : Req :=
      { acc := acc, strand := none, gang := 0, core := x.w2.toNat / 2 ^ 28 % 2 ^ 10, home := x.w2.toNat / 2 ^ 28 % 2 ^ 10, pa := 0
        va := BitVec.ofNat 64 (x.w0.toNat % 2 ^ 48 + a.v.toNat + 64 * i), pc := 0 }
    let kind := x.w0.toNat / 2 ^ 61 % 4
    let open_ (bit n : Nat) : Prop := x.w0.getLsbD 63 = true ∧ x.w0.getLsbD bit = true ∧
      (x.w2.toNat % 2 ^ 13 = 2 ^ 13 - 1 ∨ x.w2.toNat % 2 ^ 13 = a.n) ∧ a.v.toNat + n ≤ x.w1.toNat % 2 ^ 40
    (a.flag2 = false →
      (open_ 60 64 → kind = 0 → let r := base (.fabWrite a.idx a.sub a.data a.flag) 0
        (∀ pa leaf, translate s r.core r.va .w .write = .hit pa leaf → s.cut r.core (homeOf pa) = false →
          ∃ t, exec .fabricPutArrival s = .next t ∧ Spec.unitSent s t r r.core pa leaf) ∧
        (∀ f, translate s r.core r.va .w .write = .fault f → ∃ t q, exec .fabricPutArrival s = .next t ∧
          t = { s with reqs := s.reqs.set s.nextId q, nextId := s.nextId + 1, cal := t.cal } ∧ q.acc = r.acc ∧ q.fail = some f ∧ q.stage = .done ∧
          ∃ d ∈ t.cal, d.ev = .ackArrival ∧ d.arg.id = s.nextId)) ∧
      (open_ 60 64 → kind = 2 → ∀ y, (s.die (x.w2.toNat / 2 ^ 26 % 4)).streams.find? (x.w2.toNat / 2 ^ 18 % 2 ^ 8) = some y →
        a.data.length = 64 → a.v.toNat + 64 ≤ 0x800 → a.v.toNat % 64 = 0 → y.rs ∈ [32, 64] → ∃ t, exec .fabricPutArrival s = .next t ∧
          t = { s with pkg := t.pkg, outs := .ack a.sub true :: s.outs, cal := t.cal } ∧ (t.win a.idx).cnt = x.cnt + 1 ∧
          ∀ i < 64 / y.rs, (⟨s.now, rankSuFabric, .streamRecord, { die := x.w2.toNat / 2 ^ 26 % 4, id := x.w2.toNat / 2 ^ 18 % 2 ^ 8
                                                                   data := (a.data.drop (i * y.rs)).take y.rs, flag := a.flag }⟩ : Due) ∈ t.cal) ∧
      (¬(open_ 60 64 ∧ (kind = 0 ∨ kind = 2)) → exec .fabricPutArrival s = .next { s with
        pkg := { s.pkg with refused := min (s.pkg.refused + 1) (2 ^ 64 - 1) }, outs := .ack a.sub false :: s.outs })) ∧
    (∀ u, s.pkg.units.find? a.id = some u → u.get = false →
      (a.flag = false → ∃ t, exec .fabricAckArrival s = .next t ∧ Spec.unitEnds s t u ∧ t.pkg.units.find? a.id = none ∧
        (t.win u.win).cnt = (s.win u.win).cnt + 1 ∧ t.pkg.fabLost = s.pkg.fabLost) ∧
      (a.flag = true → ∃ t, exec .fabricAckArrival s = .next t ∧ Spec.unitEnds s t u ∧ t.pkg.units.find? a.id = none ∧
        t.pkg.fabLost = min (s.pkg.fabLost + 1) (2 ^ 64 - 1))) ∧
    (∀ u, s.pkg.units.find? a.id = some u → u.get = true → u.missing = false →
      (u.got = none → ∃ t, exec .fabricUnitTimeout s = .next t ∧ Spec.unitEnds s t u ∧ t.pkg.units.find? a.id = some { u with missing := true } ∧
        t.pkg.fabLost = min (s.pkg.fabLost + 1) (2 ^ 64 - 1)) ∧
      ∃ t, exec .fabricGetUnitArrival s = .next t ∧ Spec.unitEnds s t u ∧
        t.pkg.units.find? a.id = some (if a.flag then { u with got := some (a.data, a.flag2) } else { u with missing := true })) ∧
    (open_ 59 a.id → kind = 0 → exec .fabricGetRequest s = .next ((List.range (a.id / 64)).foldl (fun t i =>
      t.inbound (base (.fabRead a.idx (a.sub + i) a.n) i)) s)) ∧
    (open_ 59 a.id → kind = 0 → a.id = 64 → let r := base (.fabRead a.idx a.sub a.n) 0
      ∀ pa leaf, translate s r.core r.va .r .read = .hit pa leaf → s.cut r.core (homeOf pa) = false →
        ∃ t, exec .fabricGetRequest s = .next t ∧ Spec.unitSent s t r r.core pa leaf) ∧
    (∀ r w tag d p, s.reqs.find? a.id = some r → r.acc = .fabWrite w tag d p → s.cut r.home r.core = false →
      (r.fail = none → ∃ t, exec .ackArrival s = .next t ∧ t = { s with pkg := t.pkg, outs := .ack tag true :: s.outs, reqs := s.reqs.erase a.id } ∧
        (t.win w).cnt = (s.win w).cnt + 1) ∧
      (r.fail ≠ none → exec .ackArrival s = .next { s with
        pkg := { s.pkg with refused := min (s.pkg.refused + 1) (2 ^ 64 - 1) }, outs := .ack tag false :: s.outs, reqs := s.reqs.erase a.id })) ∧
    (∀ r w tag peer, s.reqs.find? a.id = some r → r.acc = .fabRead w tag peer → s.cut r.home r.core = false → r.fail = none →
      exec .replyFill s = .next { s with outs := .getData peer tag true r.data a.flag :: s.outs, reqs := s.reqs.erase a.id }) ∧
    (¬(open_ 59 a.id ∧ kind = 0) → ∃ t, exec .fabricGetRequest s = .next t ∧ t = { s with outs := t.outs } ∧
      ∀ i < a.id / 64, .getData a.n (a.sub + i) false [] false ∈ t.outs) ∧
    (a.idx < 24 → (∀ e ∈ s.pkg.units, e.2.port ≠ a.idx) → ∃ t, exec .portDown s = .next t ∧ Spec.onlyPkg s t ∧
      (∀ i < 24, t.pkg.portUp.getLsbD i = (s.pkg.portUp.getLsbD i && decide (i ≠ a.idx))) ∧
      ∀ w y, s.pkg.wins.find? w = some y → ∃ p, t.pkg.wins.find? w = some { y with port := p } ∧ (y.port ≠ a.idx → p = y.port) ∧
        (y.port = a.idx → ∀ q < 24, t.pkg.portUp.getLsbD q = true → p < 24 ∧ t.pkg.portUp.getLsbD p = true ∧
          (p - a.idx : Int) % 24 ≤ (q - a.idx) % 24))

/-! ### The dispatchers -/

/-- Between `s` and `t` only dispatcher `d`'s own part and the calendar change. -/
def Spec.onlyDie (s t : State) (d : Nat) : Prop :=
  t = { s with dies := t.dies, cal := t.cal } ∧ ∀ x, x ≠ d → (t.die x) = s.die x

/-- R171 to R176, R182, R392: a store arms or frees a node that is at rest, and any other is lost; PRED goes to the word's value, clamped, and
what is beyond counts as lost; of a node that is armed with no predecessor left the dispatcher reads both lines of the record, checks it, and
lets it take part in the passes; a pass places a node that fits and counts a failure of its head, which at 64 reserves and chooses victims; a
trigger decrements PRED once.
The model's choice: when a reservation begins, what ERR 2 looks at, and a poisoned line of a record (log 55, 57, 75). -/
def Obligations.DispatcherNodes : Prop :=
  ∀ (s : State), let a := s.arg
    let d := s.die a.die
    let node := d.ntbase.toNat + 128 * a.idx
    let status := Spec.bytes s.mem.get (node + 0x68) 8
    let pred := Spec.bytes s.mem.get (node + 0x28) 8 % 2 ^ 32
    let word (t : State) (o v : Nat) : Prop := Spec.bytes t.mem.get (node + o) 8 = v ∧
      ∀ p, ¬(node + o ≤ p ∧ p < node + o + 8) → t.mem.get p = s.mem.get p
    let same (t : State) : Prop := t.strands = s.strands ∧ t.cores = s.cores ∧ t.gangs = s.gangs ∧ t.pkg = s.pkg
    let ready (t : State) : Prop := ∀ part < 2, ∃ r, t.reqs.find? (s.nextId + part) = some r ∧ r.acc = .unitRead 64 (.record a.die a.idx part) ∧
      r.pa = node + 64 * part ∧ r.val = BitVec.ofNat 64 s.now ∧
      (⟨s.now + latency (dispStop a.die) (r.pa / 2 ^ 30) + 1, dispStop a.die, .remoteRequestArrival, { id := s.nextId + part }⟩ : Due) ∈ t.cal
    a.die < 4 → s.mem.wf = true → s.pkg.failedEdges = [] →
    (¬(status % 8 ∈ [0, 4, 5] ∧ a.v.toNat % 8 ≤ 1) → exec .statusStore s =
      .next (s.setDie a.die { d with lost := min (d.lost + 1) (2 ^ 32 - 1) })) ∧
    (status % 8 ∈ [0, 4, 5] → a.v.toNat % 8 = 0 → ∃ t, exec .statusStore s = .next t ∧ same t ∧ t.dies = s.dies ∧
      word t 0x68 (status / 2 ^ 16 % 2 ^ 7 * 2 ^ 16 + status / 2 ^ 32 * 2 ^ 32)) ∧
    (status % 8 ∈ [0, 4, 5] → a.v.toNat % 8 = 1 → ∃ t, exec .statusStore s = .next t ∧ same t ∧
      (pred ≠ 0 → word t 0x68 (1 + status / 2 ^ 16 % 2 ^ 7 * 2 ^ 16) ∧ t.reqs = s.reqs) ∧
      (pred = 0 → word t 0x68 (2 + status / 2 ^ 16 % 2 ^ 7 * 2 ^ 16) ∧ ready t)) ∧
    (∃ t, exec .predUpdate s = .next t ∧ same t ∧
      let v := a.v.toInt
      let new := min (max v 0) (2 ^ 32 - 1)
      (t.die a.die).lost = min (d.lost + (v - new).natAbs) (2 ^ 32 - 1) ∧
      (¬(pred ≠ 0 ∧ v ≤ 0 ∧ status % 8 = 1) → word t 0x28 new.toNat ∧ t.reqs = s.reqs) ∧
      (pred ≠ 0 → v ≤ 0 → status % 8 = 1 → ready t ∧ Spec.bytes t.mem.get (node + 0x28) 8 = 0 ∧
        Spec.bytes t.mem.get (node + 0x68) 8 = status / 8 * 8 + 2)) ∧
    (∀ r k first (R : LaunchRec), a.n = 3 → s.reqs.find? a.id = some r → r.acc = .unitRead 64 (.record a.die k 1) → r.data.length = 64 →
      first.length = 64 → d.reads.find? (2 * k) = some first →
      R.words = (List.range 16).map (fun i => BitVec.ofNat 64 (Spec.bytes (fun p => (first ++ r.data).getD p 0) (8 * i) 8)) →
      let faulted (err : Nat) : Prop := ∃ u : State, exec .stateNotice s = .next (u.status a.die k 5 (some err) none false .none) ∧ u.mem = s.mem ∧
        (u.die a.die).nodes = d.nodes ∧ u.gangs = s.gangs
      (R.valid = false → faulted 1) ∧ (R.valid = true → s.holdable a.die R = false → faulted 2) ∧
      (R.valid = true → s.holdable a.die R = true → ∃ t n, exec .stateNotice s = .next t ∧ same t ∧ t.mem = s.mem ∧ n ∈ (t.die a.die).nodes ∧ n.node = k ∧
        n.rec_ = R ∧ n.since = r.val.toNat ∧ n.fails = 0 ∧ (∀ m ∈ d.nodes, m ∈ (t.die a.die).nodes) ∧ (t.die a.die).passDue = true)) ∧
    (a.flag = false → s.pkg.halted = true ∨ d.nodes = [] → exec .placementPass s =
      .next (s.setDie a.die { d with passDue := false, lastPass := some s.now })) ∧
    (∀ n, a.flag = true → s.pkg.halted = false → d.nodes = [n] → 64 ≤ n.fails → d.preempt = none → s.victimsFor a.die n.rec_ = none →
      ∃ t, exec .placementPass s = .next t ∧ t = { s with cal := t.cal } ∧
        (⟨s.now + 1, rankLast, .placementPass, { die := a.die, flag := true }⟩ : Due) ∈ t.cal) ∧
    (∀ n, a.flag = false → s.pkg.halted = false → d.nodes = [n] → n.count = 1 →
      (findRect s a.die n.rec_ [] = none → n.fails + 1 < 64 → exec .placementPass s =
        .next (s.setDie a.die { d with passDue := false, lastPass := some s.now, nodes := [{ n with fails := n.fails + 1 }] })) ∧
      (findRect s a.die n.rec_ [] = none → 64 ≤ n.fails + 1 → n.fails < 127 → d.preempt = none → ∀ vs, s.victimsFor a.die n.rec_ = some vs →
        ∃ t, exec .placementPass s = .next t ∧ t.mem = s.mem ∧ (t.die a.die).preempt = some { at_ := s.now, host := false, victims := vs } ∧
          ∀ g ∈ vs, (t.gangs.find? g).bind (·.preempt) = some s.now ∧ (⟨s.now, rankLast, .saveStart, { id := g }⟩ : Due) ∈ t.cal ∧
            (⟨s.now + (((s.gangs.find? g).map fun x => x.rec_.deadline).getD 0), rankAfter, .preemptLapse, { id := g, sub := s.now }⟩ : Due) ∈ t.cal) ∧
      (∀ core, findRect s a.die n.rec_ [] = some [core] → n.saved = false → n.rec_.fld 0x50 0 8 ≠ 0 →
        ∃ (u : State) (x : Cmd), exec .placementPass s = .next (u.status a.die n.node 3 none none true .none) ∧ u.mem = s.mem ∧ u.strands = s.strands ∧
          (u.core core).queue 0 = (s.core core).queue 0 ++ [x] ∧ x.op = .preload [] none ∧ x.gang = s.nextId ∧
          (u.gangs.find? s.nextId).map (·.phase) = some (.preloading 1)) ∧
      (∀ cs, findRect s a.die n.rec_ [] = some cs → n.saved = false → n.rec_.fld 0x50 0 8 = 0 →
        ∃ u : State, exec .placementPass s = .next (u.status a.die n.node 3 none none true .none) ∧ u.mem = s.mem ∧ u.strands = s.strands ∧
          u.cores = s.cores ∧ (u.die a.die).nodes = [] ∧ u.gangs.find? s.nextId = some {
            die := a.die, node := n.node, rec_ := n.rec_, cores := cs, gw := n.rec_.gw, gh := n.rec_.gh, step := n.rec_.step, since := n.since
            retried := n.retried, win := n.win, amend := n.amend, phase := .preloading 0 } ∧ (⟨s.now, rankLaunch, .strandStart, { id := s.nextId }⟩ : Due) ∈ u.cal)) ∧
    (∀ w, d.trig[a.idx]? = some w →
      (w.getLsbD 31 = true → exec .triggerFire s = .next
        ((s.setDie a.die { d with trig := d.trig.setIfInBounds a.idx (w &&& BitVec.ofNat 64 (2 ^ 64 - 1 - 2 ^ 31)) }).unitWrite (dispStop a.die)
          ((s.die (w.toNat / 2 ^ 14 % 4)).ntbase.toNat + 128 * (w.toNat % 2 ^ 14) + 0x28) .dec .none)) ∧
      (w.getLsbD 31 = false → exec .triggerFire s = .next s))

/-- R26, R30, R167, R177, R178, R181, R394, R397, R398: the strands of a placed gang start with the identities that its record and their place give
them; a ready strand is loaded into the lowest empty working slot and may issue from the ninth cycle on; a gang with nothing left under way
reads its list of further successors, gives up its rectangle, and its node ends; a core begins its save when its part of the gang has
stopped, the header follows the last block and STATE := SAVED the header, and the rectangle is released behind it; a request lapses unless
every core has begun its save.
The model's choice: what is kept of a stage's flags, when a launched strand may be loaded, how a save goes, a poisoned line of a list, and
a launch that finds no local index free (log 56, 58, 59, 61, 75, 95). -/
def Obligations.GangLifeCycle : Prop :=
  ∀ (s : State) (gid : Nat) (g : Gang), s.gangs.find? gid = some g →
    let flags := some (g.fpf.toNat + if g.np then 64 else 0)
    let away (u : State) : Prop := u.gangs.find? gid = none ∧ u.mem = s.mem ∧ u.strands = s.strands ∧ u.now = s.now ∧
      ∀ c, ((u.core c).windows = (s.core c).windows.filter fun e => e.2.gang != gid)
    (s.arg.id = gid → g.phase = .preloading 0 → g.restored = false → g.step = false → ∀ core, g.cores = [core] → g.rec_.nstr = 1 →
      (∀ i, i ∉ (s.core core).locals_) → (s.core core).ready = [] →
      ∃ t c, exec .strandStart s = .next t ∧ t.mem = s.mem ∧ t.strands.find? (core * 4096) = some c ∧ (t.core core).ready = [core * 4096] ∧
        t.gangs.find? gid = some { g with phase := .running, alive := g.alive.add (core * 4096) } ∧
        c.pc = BitVec.ofNat 64 (g.rec_.at_ 0) ∧ c.core = core ∧ c.place = .ready ∧ c.ident = identOf s gid g 0 0 ∧ c.ident.system = decide (g.node < s.pkg.sysn.toNat) ∧ c.ident.arg = BitVec.ofNat 64 (g.rec_.at_ 8) ∧
        (∀ r, c.sVal r = 0) ∧ (∀ r, c.sState r = if r = 0 then .full else .dead) ∧ (∀ r, c.ivState r = .dead) ∧
        ∀ x, x ≠ core * 4096 → t.strands.find? x = s.strands.find? x) ∧
    (s.arg.id = gid → g.starting = false → exec .strandStart s = .next s) ∧
    (s.arg.id = gid → g.starting = true → g.restored = false → (∃ c ∈ g.cores, 4096 < g.rec_.nstr + (s.core c).locals_.length) →
      exec .strandStart s = .next (s.at_ (s.now + 1) rankLaunch .strandStart { id := gid })) ∧
    (s.arg.id = gid → s.gangQuiet gid g = false → exec .gangComplete s = .next s) ∧
    (s.arg.id = gid → s.gangQuiet gid g = true → g.phase = .running → g.moving = none → g.rec_.pipe = 0 →
      (g.ended = 2 → ∃ u : State, exec .gangComplete s = .next (u.status g.die g.node 5 (some 4) flags false .none) ∧ away u) ∧
      (g.ended = 0 → g.rec_.fld 0x38 8 8 = 0 →
        ∃ u : State, exec .gangComplete s = .next (u.status g.die g.node 4 none flags false (.succ g.die g.rec_.succs)) ∧ away u) ∧
      (∀ core rest pa leaf, g.ended = 0 → g.rec_.fld 0x38 8 8 ≠ 0 → g.cores = core :: rest → g.list = [] →
        let va := BitVec.ofNat 64 (g.rec_.at_ 0x40 / 64 * 64)
        translate s core va .r .read = .hit pa leaf → s.cut core (homeOf pa) = false →
        ∃ t, exec .gangComplete s = .next t ∧ Spec.unitSent { s with gangs := s.gangs.modify gid fun x => { x with phase := .draining } } t
          { acc := .unitRead 64 (.more gid 0), strand := none, gang := 0, core := core, home := core, pa := 0, va := va, pc := 0 } core pa leaf)) ∧
    (∀ r k, s.arg.n = 3 → s.reqs.find? s.arg.id = some r → r.acc = .unitRead 64 (.more gid k) → s.cut r.home r.core = false → g.moving = none →
      g.rec_.pipe = 0 → g.ended = 0 →
      (r.fail ≠ none ∨ s.arg.flag = true → ∃ u : State, exec .stateNotice s = .next (u.status g.die g.node 5 (some 5) flags false .none) ∧
        away u) ∧
      (r.fail = none → s.arg.flag = false → g.list = [] → r.data.length = 64 → g.rec_.at_ 0x40 % 64 = 0 → g.rec_.fld 0x38 8 8 ≤ 32 →
        let entry (i : Nat) : Nat × Nat := let e := Spec.bytes (fun p => r.data.getD p 0) (2 * i) 2; (e / 2 ^ 14, e % 2 ^ 14)
        ∃ u : State, exec .stateNotice s = .next (u.status g.die g.node 4 none flags false
          (.succ g.die (g.rec_.succs ++ (List.range (g.rec_.fld 0x38 8 8)).map entry))) ∧ away u)) ∧
    (s.arg.id = gid → g.phase = .relaunching → s.gangQuiet gid g = true → g.die < 4 → ∃ t, exec .gangComplete s = .next t ∧ t.gangs.find? gid = none ∧
      t.mem = s.mem ∧ t.strands = s.strands ∧ ∃ n ∈ (t.die g.die).nodes, n.node = g.node ∧ n.rec_ = g.rec_ ∧ n.retried = true) ∧
    (∀ core x rest c n, s.arg.id = core → let k := s.core core
      let taken (m : Nat) : Prop := m ∈ k.missing ∨ ∃ y, k.slots[m]? = some (some y)
      n < 16 → ¬taken n → (∀ m < n, taken m) → (∀ m < 16, ∀ y, k.slots[m]? = some (some y) → (s.strand y).lateParker = false) → k.ready = x :: rest →
      s.promised core < k.emptySlots → (k.rotNow = true ∨ (s.die (dieOf core)).draining = false) →
      s.strands.find? x = some c → c.core = core → c.upcall = none → c.wait = none → (∃ h q, c.fetch = .ready h q) →
      ∃ t, exec .slotLoad s = .next t ∧ t.mem = s.mem ∧ t.gangs = s.gangs ∧ t.strands.find? x = some { c with place := .slot n, readyAt := s.dieNow core + 8, turns := 0 } ∧
        (∀ y, y ≠ x → t.strands.find? y = s.strands.find? y) ∧ (t.core core).ready = rest ∧ (t.core core).slots[n]? = some (some x)) ∧
    (s.arg.id = gid → ((g.preempt = none ∧ g.saving ≠ 3) ∨ g.saving = 1 ∨ g.saving = 2 ∨ s.gangQuiet gid g = true) → exec .saveStart s = .next s) ∧
    (s.arg.id = gid → g.preempt ≠ none → g.saving = 0 → s.gangQuiet gid g = false → s.pkg.failedEdges = [] → g.rec_.saveAddr % 64 = 0 →
      let tried (t : State) : Prop := ∃ d ∈ t.cal, d.ev = .saveStart ∧ d.arg.id = gid ∧ d.time ≤ s.now + 1
      (g.begun = [] → (∀ p < g.cores.length, s.coreStopped gid g p = false) → ∃ t, exec .saveStart s = .next t ∧ tried t ∧
        t = { s with gangs := t.gangs, cal := t.cal } ∧ t.gangs.find? gid = some g) ∧
      (∀ core, g.cores = [core] → s.saved.find? g.savedKey = none → s.coreStopped gid g 0 = true → s.coreQuiet gid g 0 = true →
        (∀ e ∈ s.strands, e.2.span = [] ∧ e.2.closes = 0) → ∃ t v, exec .saveStart s = .next t ∧ tried t ∧ t.mem = s.mem ∧ t.strands = s.strands ∧
          t.gangs.find? gid = some { g with begun := [0] } ∧ t.saved.find? g.savedKey = some v ∧ v.cores.length = 1 ∧
          v.area = BitVec.ofNat 64 g.rec_.saveAddr) ∧
      (∀ v, g.begun = List.range g.cores.length → g.cores ≠ [] → s.saved.find? g.savedKey = some v → v.cores.length = g.cores.length →
        s.saveOpen gid = false → ∃ t, exec .saveStart s = .next t ∧ t.mem = s.mem ∧ t.strands = s.strands ∧
          t.gangs.find? gid = some { g with saving := 1 } ∧ t.saved = s.saved)) ∧
    (s.arg.id = gid → s.arg.flag = false →
      (g.saving = 1 → s.saveOpen gid = false → ∃ u : State, exec .saveComplete s = .next (u.status g.die g.node 6 none none false (.save gid)) ∧
        u = { s with gangs := u.gangs } ∧ u.gangs.find? gid = some { g with saving := 2 }) ∧
      (g.saving = 1 → s.saveOpen gid = true → exec .saveComplete s = .next s) ∧
      (g.saving = 2 → g.die < 4 → ∃ t, exec .saveComplete s = .next t ∧ t.mem = s.mem ∧ t.gangs.find? gid = none ∧
        (∀ x c, s.strands.find? x = some c → t.strands.find? x = some (if c.ident.gang = gid then { c with place := .saved } else c)) ∧
        ∃ n ∈ (t.die g.die).nodes, n.node = g.node ∧ n.saved = true)) ∧
    (let ended (t : State) : Prop := t.strands = s.strands ∧ t.mem = s.mem ∧
       t.gangs.find? gid = some { g with preempt := none, saving := 0, begun := [], noVictimUntil := s.now + 2 * g.rec_.deadline }
     s.arg.id = gid → (∀ e ∈ s.strands, e.2.ident.gang ≠ gid) →
       (s.arg.flag = true → g.saving ≠ 3 → g.begun ≠ [] → ∃ t, exec .saveComplete s = .next t ∧ ended t) ∧
       (g.preempt = some s.arg.sub → 0 ∉ g.begun → g.cores ≠ [] → ∃ t, exec .preemptLapse s = .next t ∧ ended t)) ∧
    (s.arg.id = gid → (g.preempt ≠ some s.arg.sub ∨ ∀ p < g.cores.length, p ∈ g.begun) → exec .preemptLapse s = .next s)

/-! ### Engines and streams at work -/

/-- The bytes `d` at `a` in a memory, and the rest as before. -/
def Spec.wrote (old new : Nat → Byte) (a n : Nat) (d : Nat → Byte) : Prop :=
  ∀ p, new p = if a ≤ p ∧ p < a + n then d (p - a) else old p

/-- No bank of a core's scratchpad has served an engine in this cycle, and no STEP gang holds a slot of the core (R24, R180). -/
def Spec.banksFree (s : State) (core : Nat) : Prop :=
  (s.core core).engRd = [] ∧ (s.core core).engWr = [] ∧ ∀ g, some g ∈ (s.core core).slots.toList → (s.strand g).ident.step = false

/-- From `s` to `t` an engine of core `core` has worked: no main memory, home, request or other core has changed. -/
def Spec.engineOnly (s t : State) (core : Nat) : Prop :=
  t.mem = s.mem ∧ t.homes = s.homes ∧ t.reqs = s.reqs ∧ t.pkg = s.pkg ∧ ∀ c, c ≠ core → t.core c = s.core c

/-- An element as `MSTORE` converts it from a slot of tag `tag` (R216): unchanged in the tag's own format, rounded from F32, clamped from I32. -/
def Spec.storeElem (tag : Nat) (f : Fmt) (fpm : BitVec 4) (x : Nat) : FR :=
  if tag = fmtNum f then ⟨x, 0, 0⟩
  else if tag = 7 then
    let y := toElem f (fpmRnd fpm) (FF.f32.valZ (fpm.getLsbD 2) x)
    ⟨y.bits, y.fl, if f = .bf16 ∨ f = .f16 then 0 else y.sat⟩
  else Spec.fit f true (Spec.int .i32 x)

/-- The format of a tag and those in which `MSTORE` writes it (R216). -/
def Spec.stores (tag : Nat) (src f : Fmt) : Prop :=
  tag = fmtNum src ∧ (src = f ∧ f.tileOk = true ∨ src = .f32 ∧ f ∈ [Fmt.bf16, .f16, .e4m3, .e5m2, .e2m1] ∨
    src = .i32 ∧ f ∈ [Fmt.i16, .i8, .n32, .n16, .n8])

/-- Matrix command `x` at the head of the MATRIX queue of core `core` has read or written the scratchpad row that it is at (R205, R214, R216), and goes on with
the next one in the next cycle, or completes four cycles after its last. -/
def Spec.rowDone (s t : State) (core : Nat) (x : Cmd) (q : List Cmd) : Prop :=
  let k := s.core core
  let k' := t.core core
  let rows (f : Fmt) : Nat := (128 * fmtBits f + 511) / 512
  let next (f : Fmt) : Prop := (if x.unit + 1 < rows f then (⟨s.now + 1, rankWork, .engineUnit, { id := core, idx := 2, sub := x.id }⟩ : Due)
    else ⟨s.now + 4, rankWork, .engineCommandComplete, { id := core, idx := 2, sub := x.id }⟩) ∈ t.cal
  Spec.engineOnly s t core ∧ t.strands = s.strands ∧ k'.om = k.om ∧ k'.omPoison = k.omPoison ∧
  match x.op with
  | .mload _ addr f _ =>
    let at_ := addr + 512 * x.unit
    next f ∧ k'.sp = k.sp ∧ k'.spPoison = k.spPoison ∧ k'.queue 2 = { x with started := true, unit := x.unit + 1, got := x.got ++
      ((List.range (min 512 (128 * fmtBits f) / 64)).map fun u => (k.sp.read (at_ + 64 * u) 64, k.spPoison.contains (at_ / 64 + u))) } :: q
  | .mstore _ slot addr f fpm tag =>
    let at_ := addr + 512 * x.unit
    let n := min 512 (128 * fmtBits f)
    let per := n * 8 / fmtBits f
    next f ∧ k'.queue 2 = { x with started := true, unit := x.unit + 1 } :: q ∧ (∀ p, ¬(at_ ≤ p ∧ p < at_ + n) → k'.sp.get p = k.sp.get p) ∧
    ∀ src g, tag = some g → Spec.stores g src f →
      (∀ j < per, elem (fmtBits f) (k'.sp.readN at_ n) j =
        (Spec.storeElem g f fpm (elem (fmtBits src) (k.om.readN (slot * 4096) 4096) (x.unit * per + j))).bits % 2 ^ fmtBits f) ∧
      ∀ u, u ∈ k'.spPoison ↔ if at_ / 64 ≤ u ∧ u < at_ / 64 + n / 64
        then ∃ j < per, j * fmtBits f / 512 = u - at_ / 64 ∧ slot * 64 + (x.unit * per + j) * fmtBits src / 512 ∈ k.omPoison
        else u ∈ k.spPoison
  | _ => False

/-- R24, R180, R205, R206, R214 to R216: a matrix command starts when nothing holds it; `MLOAD` and `MSTORE` take one row of the scratchpad a cycle, unless its
bank serves another row or is left to a strand of a STEP gang, and complete four cycles after the last; `MZERO` takes two. `MLOAD` moves
the elements into its slot, transposed or not, with their poison, and leaves every other unit of the slot clean; `MSTORE` writes each
element as its tag and format say, and its register receives the count of those that saturated. -/
def Spec.claimMatrixWork : Prop :=
  ∀ (s : State), let a := s.arg
    let k := s.core a.id
    ∀ x q, a.idx = 2 → k.queue 2 = x :: q → x.id = a.sub → (∀ y ∈ q, y.id ≠ x.id) → k.om.wf = true → k.sp.wf = true →
    let aligned : Prop := match x.op with | .mload _ addr f _ | .mstore _ _ addr f _ _ => addr % 512 = 0 ∧ f ≠ .iv32 | _ => False
    let done (t : State) : Prop := Spec.engineOnly s t a.id ∧ (t.core a.id).queue 2 = q
    (s.startable a.id x = false → exec .engineCommandStart s = .next s) ∧
    (s.startable a.id x = true →
      (∀ slot i, x.op = .mzero slot i → ∃ t, exec .engineCommandStart s = .next t ∧ Spec.engineOnly s t a.id ∧ t.strands = s.strands ∧
        t.core a.id = k.setQueue 2 ({ x with started := true } :: q) ∧
        (⟨s.now + 2, rankWork, .engineCommandComplete, { id := a.id, idx := 2, sub := x.id }⟩ : Due) ∈ t.cal) ∧
      (aligned → Spec.banksFree s a.id → ∃ t, exec .engineCommandStart s = .next t ∧ Spec.rowDone s t a.id x q)) ∧
    (x.started = true → a.n = 0 →
      (aligned → Spec.banksFree s a.id → ∃ t, exec .engineUnit s = .next t ∧ Spec.rowDone s t a.id x q) ∧
      (∀ d slot addr f m tag, x.op = .mstore d slot addr f m tag → addr % 512 = 0 → f ≠ .iv32 →
        ((∃ r ∈ k.engWr, r % 3 = (addr / 512 + x.unit) % 3 ∧ r ≠ addr / 512 + x.unit) →
          exec .engineUnit s = .next (s.at_ (s.now + 1) rankWork .engineUnit { id := a.id, idx := 2, sub := x.id })) ∧
        (∀ g, k.engWr = [] → s.stepGang a.id = some g → g ≠ x.gang → s.dieNow a.id % 4 ≠ 3 → a.id ∈ s.issueQ →
          ∃ t, exec .engineUnit s = .next t ∧ Spec.engineOnly s t a.id ∧ (t.core a.id).queue 2 = x :: q ∧ (t.core a.id).sp = k.sp ∧
            (⟨s.now, rankAfter, .engineUnit, { id := a.id, idx := 2, sub := x.id }⟩ : Due) ∈ t.cal))) ∧
    (x.started = true →
      (∀ slot i, x.op = .mzero slot i → ∃ t, exec .engineCommandComplete s = .next t ∧ done t ∧ t.strands = s.strands ∧ (t.core a.id).sp = k.sp ∧
        Spec.wrote k.om.get (t.core a.id).om.get (slot * 4096) 4096 (fun _ => 0) ∧
        ∀ u, u ∈ (t.core a.id).omPoison ↔ u / 64 ≠ slot ∧ u ∈ k.omPoison) ∧
      (∀ slot addr f tr, x.op = .mload slot addr f tr → f.tileOk = true → ∃ t, exec .engineCommandComplete s = .next t ∧ done t ∧
        t.strands = s.strands ∧ (t.core a.id).sp = k.sp ∧
        let w := fmtBits f
        let from_ (e : Nat) : Nat := if tr = .none then e else e % 32 * 32 + e / 32
        (∀ e < 1024, elem w ((t.core a.id).om.readN (slot * 4096) (128 * w)) e = elem w (leNat (x.got.flatMap (·.1))) (from_ e)) ∧
        (∀ p, ¬(slot * 4096 ≤ p ∧ p < slot * 4096 + 128 * w) → (t.core a.id).om.get p = k.om.get p) ∧
        ∀ u, u ∈ (t.core a.id).omPoison ↔ if u / 64 = slot
          then ∃ e < 1024, e * w / 512 = u % 64 ∧ (x.got[from_ e * w / 512]?).map (·.2) = some true else u ∈ k.omPoison) ∧
      (∀ d slot addr f fpm tag src g, x.op = .mstore d slot addr f fpm tag → tag = some g → Spec.stores g src f →
        let es := (List.range 1024).map fun e => Spec.storeElem g f fpm (elem (fmtBits src) (k.om.readN (slot * 4096) 4096) e)
        let fl := es.foldl (fun a r => a ||| r.fl) 0
        let n := (es.map (·.sat)).sum
        (∀ c, x.last = none → s.strands.find? x.strand = some c → (d = 0 ∨ c.sState d = .pending) →
          ∃ t c', exec .engineCommandComplete s = .next t ∧ done t ∧ (t.core a.id).om = k.om ∧ (t.core a.id).sp = k.sp ∧
            t.strands.find? x.strand = some c' ∧ c.keeps c' { s := if d = 0 then [] else [d] } [] [] ∧ c'.pc = c.pc ∧
            (d ≠ 0 → c'.sVal d = BitVec.ofNat 64 n ∧ c'.sState d = .full) ∧
            c'.ctl = { c.ctl with fpf := c.ctl.fpf ||| fl, satc := satAdd c.ctl.satc n }) ∧
        (x.last ≠ none → ∃ t, exec .engineCommandComplete s = .next t ∧ done t ∧ t.strands = s.strands ∧
          ∀ h, s.gangs.find? x.gang = some h → ∃ h', t.gangs.find? x.gang = some h' ∧ h'.fpf = h.fpf ||| fl)))

/-- R315, R316, R318, R320, R321, R324: a copy moves its units in order, each with its poison: from the memories of its core to
them, from main memory through the TLB of its core by a read of a line, to main memory by a write of one. A gather takes the row that its
index names; a missing element is written poisoned and counted, and the copy ends with its failure.
The model's choice: the bytes of a missing element are free values (log 17, 49). -/
def Spec.claimCopyWork : Prop :=
  ∀ (s : State) (core qn : Nat) (x : Cmd) (q : List Cmd) (dst src ctl : Word),
    let a := s.arg
    let k := s.core core
    let off := 64 * x.unit
    let sk := Machine.bits ctl 36 2
    let dk := Machine.bits ctl 40 2
    let len := Machine.bits ctl 0 26
    let own (kind : Nat) (w : Word) : Prop := kind = 0 ∧ (w.getLsbD 34 = false ∨ Machine.bits w 24 10 = core) ∨ kind = 1
    let base (kind : Nat) (w : Word) : Nat := if kind = 0 then Machine.bits w 0 19 else Machine.bits w 0 18
    let unit : Prop := a.id = core ∧ a.idx = qn ∧ a.sub = x.id ∧ a.n = 0
    -- the unit has been written, as `d` with its poison, and the copy is at the next one
    let moved (ev : Instr) (d : Nat → Byte) (p : Prop) (more : Cmd → Prop) : Prop :=
      ∃ t x', exec ev s = .next t ∧ t.mem = s.mem ∧ t.homes = s.homes ∧ t.strands = s.strands ∧ (∀ c, c ≠ core → t.core c = s.core c) ∧
        (t.core core).queue qn = x' :: q ∧ x'.unit = x.unit + 1 ∧ x'.op = x.op ∧ x'.hold = {} ∧ more x' ∧
        (dk = 0 → (t.core core).om = k.om ∧ Spec.wrote k.sp.get (t.core core).sp.get (base dk dst + off) 64 d ∧
          ∀ u, u ∈ (t.core core).spPoison ↔ if u = (base dk dst + off) / 64 then p else u ∈ k.spPoison) ∧
        (dk = 1 → (t.core core).sp = k.sp ∧ Spec.wrote k.om.get (t.core core).om.get (base dk dst + off) 64 d ∧
          ∀ u, u ∈ (t.core core).omPoison ↔ if u = (base dk dst + off) / 64 then p else u ∈ k.omPoison)
    -- the request `acc` of a line is on its way
    let asks (va : Word) (acc : Access) (pa : Nat) (leaf : Word) : Prop :=
      ∃ t r, exec .engineUnit s = .next t ∧ t.mem = s.mem ∧ t.homes = s.homes ∧ t.strands = s.strands ∧ (t.core core).sp = k.sp ∧ (t.core core).om = k.om ∧
        t.nextId = s.nextId + 1 ∧ t.reqs = s.reqs.set s.nextId r ∧ r.acc = acc ∧ r.core = core ∧ r.pa = pa ∧ r.va = va ∧ r.home = homeOf pa ∧
        r.gang = x.gang ∧ r.kept = leaf.getLsbD 6 ∧ ∃ d ∈ t.cal, d.ev = .remoteRequestArrival ∧ d.arg.id = s.nextId
    let table := k.windows.find? (Machine.bits src 32 3)
    k.queue qn = x :: q → x.started = true → x.op = .cpy dst src ctl → (∀ y ∈ q, y.id ≠ x.id) → k.sp.wf = true → k.om.wf = true →
    (own sk src → own dk dst → x.hold.have_ = false → unit → off + 64 < len → Machine.bits ctl 44 4 = 0 → Spec.banksFree s core →
      moved .engineUnit (if sk = 0 then fun i => k.sp.get (base sk src + off + i) else fun i => k.om.get (base sk src + off + i))
        (if sk = 0 then (base sk src + off) / 64 ∈ k.spPoison else (base sk src + off) / 64 ∈ k.omPoison) fun _ => True) ∧
    (unit → x.hold = {} → x.ahead = [] → x.asked = x.unit → x.askAt ≤ s.now → off + 64 ≤ len → Machine.bits ctl 44 4 = 0 →
      (∀ pa leaf, sk = 2 → translate s core (src + BitVec.ofNat 64 off) .r .read = .hit pa leaf → s.cut core (homeOf pa) = false →
        asks (src + BitVec.ofNat 64 off) (.engRead qn x.id x.unit 64) pa leaf) ∧
      (∀ g j pa leaf, sk = 3 → table = some g → x.missLast = none → Machine.bits src 0 32 % 64 = 0 →
        let size := 64 * 2 ^ g.rsz
        let o := Machine.bits src 0 32 + off
        let va := BitVec.ofNat 64 (g.tbase + j * size + o % size)
        g.idx[o / size]? = some j → j < g.rcnt → translate s core va .r .read = .hit pa leaf → s.cut core (homeOf pa) = false →
          asks va (.engRead qn x.id x.unit 64) pa leaf)) ∧
    (∀ n r u, a.id = n → s.reqs.find? n = some r → r.acc = .engRead qn x.id x.unit 64 → r.core = core → s.cut r.home core = false → r.fail = none →
      x.ahead.find? x.unit = some u → u.have_ = false → x.hold = {} → sk = 2 → own dk dst → len ≤ 64 * x.asked → off + 64 < len →
      Machine.bits ctl 44 4 = 0 → r.data.length = 64 → Spec.banksFree s core →
        moved .replyFill (fun i => r.data.getD i 0) (a.flag = true) fun _ => True) ∧
    (∀ pa leaf, unit → x.hold.have_ = true → x.hold.writing = false → dk = 2 → (own sk src ∨ len ≤ 64 * x.asked) →
      translate s core (dst + BitVec.ofNat 64 off) .w .write = .hit pa leaf → s.cut core (homeOf pa) = false →
        asks (dst + BitVec.ofNat 64 off) (.engWrite qn x.id (x.hold.data.map some) x.hold.poison) pa leaf) ∧
    (∀ g j, unit → sk = 3 → own dk dst → table = some g → x.hold = {} → x.missLast ≠ some ((Machine.bits src 0 32 + off) / (64 * 2 ^ g.rsz)) →
      g.idx[(Machine.bits src 0 32 + off) / (64 * 2 ^ g.rsz)]? = some j → g.rcnt ≤ j → len ≤ 64 * x.asked → off + 64 < len → Machine.bits ctl 44 4 = 0 →
      Spec.banksFree s core → ∃ d, moved .engineUnit d True fun x' => x'.missing = x.missing + 1 ∧
        x'.missAddr = if x.missing = 0 then BitVec.ofNat 64 (Machine.bits src 32 3 * 2 ^ 32 + (Machine.bits src 0 32 + off) / (64 * 2 ^ g.rsz) * (64 * 2 ^ g.rsz))
          else x.missAddr) ∧
    (a.id = core → a.idx = qn → a.sub = x.id → a.n = 7 → len ≤ off + 64 →
      (x.missing = 0 → ∃ t, exec .engineUnit s = .next t ∧ Spec.engineOnly s t core ∧ t.strands = s.strands ∧ (t.core core).queue qn = q ∧
        (t.core core).sp = k.sp ∧ (t.core core).om = k.om) ∧
      (∀ c, x.missing ≠ 0 → x.last = none → s.strands.find? x.strand = some c → ∃ t, exec .engineUnit s = .next t ∧ Spec.engineOnly s t core ∧
        t.strands = s.strands ∧ (t.core core).queue qn = q ∧ (t.core core).cmdFails.find? x.id = some { strand := x.strand, queue := qn, pc := x.pc, fault :=
          ⟨.gather, x.missAddr, BitVec.ofNat 64 (min x.missing 65535 * 2 ^ 48 + x.pc.toNat % 2 ^ 48)⟩ }))

/-- R177, R315, R316, R320: a unit that a core's preload has asked for is written to its scratchpad; a remote write waits while a command of its target
has a unit of it in its ranges, and then its core learns of it; an event for a queue whose head has not started does nothing. -/
def Spec.claimUnitsArrive : Prop :=
  ∀ (s : State), let a := s.arg
    (∀ r x q ws us src dst, let k := s.core r.core
      s.reqs.find? a.id = some r → r.acc = .engRead 0 x.id x.unit 64 → s.cut r.home r.core = false → r.fail = none → k.queue 0 = x :: q →
      x.started = true → x.op = .preload ws (some us) → us.length ≤ x.asked → us[x.unit]? = some (src, dst) →
      s.gangs.find? x.gang ≠ none → k.sp.wf = true → Spec.banksFree s r.core →
        ∃ t x', exec .replyFill s = .next t ∧ t.mem = s.mem ∧ t.strands = s.strands ∧ (∀ c, c ≠ r.core → t.core c = s.core c) ∧
          (t.core r.core).queue 0 = x' :: q ∧ x'.unit = x.unit + 1 ∧ (t.core r.core).om = k.om ∧
          (∀ p, (t.core r.core).sp.get p = if dst ≤ p ∧ p < dst + r.data.length then r.data.getD (p - dst) 0 else k.sp.get p) ∧
          (a.flag = true ↔ dst / 64 ∈ (t.core r.core).spPoison)) ∧
    (s.head a.id a.idx = none → a.n ∈ [0, 2, 4, 6, 7, 9, 11] → exec .engineUnit s = .next s) ∧
    (let k := s.core a.die
     let held : Prop := ∃ x ∈ k.cmds, ∃ r ∈ x.rdSp ++ x.wrSp, r.1 < r.2 ∧ r.1 / 64 ≤ (a.v.toNat + 63) / 64 ∧ a.v.toNat / 64 ≤ (r.2 - 1) / 64
     s.cut a.id a.die = false →
     (held → exec .remoteSpWrite s = .next (s.at_ (s.now + 1) a.id .remoteSpWrite a)) ∧
     (¬held → k.sp.wf = true → Spec.banksFree s a.die → ∃ t, exec .remoteSpWrite s = .next t ∧ t.mem = s.mem ∧ t.strands = s.strands ∧
       (∀ p, (t.core a.die).sp.get p = if a.v.toNat ≤ p ∧ p < a.v.toNat + a.data.length then a.data.getD (p - a.v.toNat) 0 else k.sp.get p) ∧
       (∀ c, c ≠ a.die → t.core c = s.core c) ∧ ∃ e ∈ t.cal, e.ev = .engineUnit ∧ e.arg.id = a.id ∧ e.arg.sub = a.sub ∧ e.arg.n = 6))

/-- R177, R180, R205, R206, R214 to R216, R314 to R316, R318, R320, R321, R324: what matrix commands, copies, gathers and preloads do, row by row and unit by unit.
The model's choice: the bytes of a missing element are free values (log 17, 46, 49). -/
def Obligations.EngineWork : Prop := Spec.claimMatrixWork ∧ Spec.claimCopyWork ∧ Spec.claimUnitsArrive

/-- The watermark of a stream with the sources `srcs` after an event, where it was `old` (R344). -/
def Spec.watermark (srcs : List Source) (old new : Int) : Prop :=
  ((∀ y ∈ srcs, y.idle = true) → new = old) ∧
  ∀ m ∈ srcs, m.idle = false → (∀ y ∈ srcs, y.idle = false → m.wm ≤ y.wm) → new = max old m.wm

/-- R341 to R347, R350 to R352, R355, R356, R358, R365, R390: one stream event a cycle and die is performed. A record makes its source active, and enters the pane of the instances
that contain its time, unless none does, or all have retired; a watermark raises its source, or is counted when it lies below; a source
goes idle at once or by its timeout; after each the stream watermark is the least of the active sources', and never falls. An amend hold
that ends decides the next amendment; a first firing that has ended raises the derived source. A command accepted for a stream that has been
removed since does nothing; an `SBIND` is performed at its unit, or its reply says why it is not.
The model's choice: the stream event that marks a firing as the last, and the notice of a FAULTED node (log 60, 101). -/
def Obligations.StreamEvents : Prop :=
  ∀ (s : State) (x : Stream), let a := s.arg
    let d := s.die a.die
    a.die < 4 →
    (∀ ev ∈ [Instr.streamRecord, .sourceWatermark, .sourceIdle, .derivedRaise], a.flag2 = false → s.now < d.suNext → exec ev s =
      .next ((s.setDie a.die { d with suNext := d.suNext + 1 }).at_ d.suNext rankSuQueued ev { a with flag2 := true })) ∧
    (a.flag2 = true → a.n = 0 → d.streams.find? a.id = some x →
      let src := Spec.bytes (fun i => a.data.getD i 0) 8 4
      let time := (BitVec.ofNat 64 (Spec.bytes (fun i => a.data.getD i 0) 0 8)).toInt
      let ends (ev : Instr) (srcs : List Source) (lower bad : Nat) : Prop :=
        ∃ t w, exec ev s = .next t ∧ Spec.onlyDie s t a.die ∧ (t.die a.die).bindings = d.bindings ∧
          (t.die a.die).streams.find? a.id = some { x with srcs := srcs, wm := w, lower := lower, badRec := bad } ∧ Spec.watermark srcs x.wm w
      let heard (v : Option Int) (y : Source) : Source := { y with idle := false, last := s.now, wm := v.getD y.wm }
      ((a.flag = true ∨ x.srcs.length ≤ src) → a.data.length = x.rs → 32 ≤ x.rs → ∃ t, exec .streamRecord s = .next t ∧ Spec.onlyDie s t a.die ∧
        (t.die a.die).streams.find? a.id = some { x with badRec := min (x.badRec + 1) (2 ^ 32 - 1) }) ∧
      ((∀ e ∈ d.bindings, e.2.stream ≠ a.id) →
        (a.flag = false → src < x.srcs.length → a.data.length = x.rs → 32 ≤ x.rs →
          ends .streamRecord (x.srcs.modify src (heard none)) x.lower x.badRec) ∧
        (∀ y, x.srcs[a.idx]? = some y →
          (y.wm ≤ a.v.toInt → ends .sourceWatermark (x.srcs.modify a.idx (heard a.v.toInt)) x.lower x.badRec ∧
            ends .derivedRaise (x.srcs.modify a.idx (heard a.v.toInt)) x.lower x.badRec) ∧
          (a.v.toInt < y.wm → x.lower ≤ 2 ^ 32 - 1 →
            ends .sourceWatermark (x.srcs.modify a.idx (heard none)) (min (x.lower + 1) (2 ^ 32 - 1)) x.badRec ∧
            ends .derivedRaise (x.srcs.modify a.idx (heard none)) x.lower x.badRec) ∧
          ends .sourceIdle (x.srcs.modify a.idx fun y => { y with idle := true }) x.lower x.badRec ∧
          (y.idle = false ∧ y.last = a.sub → ends .idleTimeout (x.srcs.modify a.idx fun y => { y with idle := true }) x.lower x.badRec) ∧
          (¬(y.idle = false ∧ y.last = a.sub) → exec .idleTimeout s = .next s))) ∧
      (∀ bi b, d.bindings.filter (fun e => e.2.stream == a.id) = [(bi, b)] → d.bindings.find? bi = some b → a.flag = false → src < x.srcs.length →
        a.data.length = x.rs → 32 ≤ x.rs → (∀ y ∈ x.srcs, y.wm ≤ x.wm) → 0 < b.hop → 0 < b.len → 0 < b.npane →
        let within (k : Nat) : Prop := b.k0 ≤ k ∧ b.origin + k * b.hop ≤ time ∧ time < b.origin + k * b.hop + b.len
        let past (k : Nat) : Prop := b.origin + k * b.hop + b.len + b.late ≤ x.wm
        let pane := (time - b.origin).toNat / Nat.gcd b.len b.hop
        let binding (t : State) (b' : Binding) : Prop := t.mem = s.mem ∧ t.strands = s.strands ∧ t.cores = s.cores ∧
          (t.die a.die).bindings.find? bi = some b'
        ((∀ k, ¬within k) → ∃ t, exec .streamRecord s = .next t ∧ binding t { b with noWin := b.noWin + 1 }) ∧
        ((∃ k, within k) → (∀ k, within k → past k) → ∃ t, exec .streamRecord s = .next t ∧ binding t { b with tooLate := b.tooLate + 1 }) ∧
        ((∃ k, within k ∧ ¬past k) → x.wm ≤ time → 0 < b.mcap → b.slots.find? (pane % b.npane) = none →
          ∃ t, exec .streamRecord s = .next t ∧ binding t { b with slots := b.slots.set (pane % b.npane) { pane := pane, main := 1 } }))) ∧
    (∀ b i, d.bindings.find? a.id = some b → b.insts.find? a.idx = some i →
      (i.hold ≠ some a.sub → exec .amendHoldExpiry s = .next s) ∧
      (i.hold = some a.sub → (b.queue ≠ [] ∨ b.step ≠ 0) → ∃ t f j, exec .amendHoldExpiry s = .next t ∧ Spec.onlyDie s t a.die ∧
        (t.die a.die).bindings.find? a.id = some { b with queue := b.queue ++ [f], insts := b.insts.set a.idx j } ∧
        f.k = a.idx ∧ f.amend = i.amend + 1 ∧ f.last = false ∧ j.amend = i.amend + 1 ∧ j.hold = none)) ∧
    (∀ bi b f, a.n = 0 → d.bindings = [(bi, b)] → b.node = a.idx → b.current = some f → b.queue = [] → b.step = 0 →
      s.cut (homeOf (d.ntbase.toNat + 128 * a.idx)) (streamStop a.die) = false →
      (∃ t b', exec .stateNotice s = .next t ∧ Spec.onlyDie s t a.die ∧ (t.die a.die).bindings.find? bi = some b' ∧ b'.current = none ∧
        (a.sub = 0 → b'.doneTo = b.doneTo) ∧
        (a.sub = 4 ∨ a.sub = 5 → f.amend = 0 → b.outEn = true → f.k = b.doneTo → b.doneSet = [] → b'.doneTo = b.doneTo + 1 ∧
          (⟨s.now, rankSuDerived, .derivedRaise, { die := a.die, id := b.outStr, idx := b.outSrc
                                                   v := BitVec.ofInt 64 (b.origin + f.k * b.hop + b.len) }⟩ : Due) ∈ t.cal))) ∧
    (a.flag2 = true → a.n ≠ 0 → (∀ y, d.streams.find? a.id = some y → y.gen ≠ a.gen) →
      ∀ ev ∈ [Instr.streamRecord, .sourceWatermark, .sourceIdle], ∃ t, exec ev s = .next t ∧ t.dies = s.dies ∧ t.mem = s.mem) ∧
    (∀ b, a.n = 1 → d.sbinds.find? a.id = some b →
      let ends (f : Option FaultRec) (streams : Nat → Option Stream) (bindings : Nat → Option Binding) : Prop :=
        ∃ t, exec .stateNotice s = .next t ∧ Spec.onlyDie s t a.die ∧ (t.die a.die).sbinds.find? a.id = some { b with fail := f } ∧
          (∀ i, (t.die a.die).streams.find? i = streams i) ∧ ∀ i, (t.die a.die).bindings.find? i = bindings i
      let same := d.streams.find?
      let sameB := d.bindings.find?
      (∀ y, b.kind = 0 → b.stream = some y → same b.index = none → ends none (fun i => if i = b.index then
        some { y with gen := a.id, srcs := y.srcs.map fun z => { z with last := s.now } } else same i) sameB) ∧
      (∀ y, b.kind = 0 → b.stream = some y → same b.index ≠ none → ends (some (streamFault a.die b.index 1 false 0)) same sameB) ∧
      (b.kind = 2 → same b.index = none → ends (some (streamFault a.die b.index 2 false 0)) same sameB) ∧
      (b.kind = 2 → same b.index ≠ none → (∃ e ∈ d.bindings, e.2.stream = b.index) →
        ends (some (streamFault a.die b.index 4 false 0)) same sameB) ∧
      (b.kind = 2 → same b.index ≠ none → (∀ e ∈ d.bindings, e.2.stream ≠ b.index) →
        ends none (fun i => if i = b.index then none else same i) sameB) ∧
      (b.kind = 3 → sameB b.index = none → ends (some (streamFault a.die b.index 2 true 0)) same sameB) ∧
      (b.kind = 3 → sameB b.index ≠ none → ends none same fun i => if i = b.index then none else sameB i)) ∧
    (∀ b c w, a.n = 2 → d.sbinds.find? a.id = some b → b.fail = none → s.cut (streamStop a.die) b.core = false → s.strands.find? b.strand = some c → c.wait = some w → w.kind = .reply a.id →
      w.retire = { len := 4 } → c.place = .parked → ∃ t c', exec .stateNotice s = .next t ∧ t.mem = s.mem ∧ t.strands.find? b.strand = some c' ∧
        Spec.wentOn c c' {} [] 4)

/-! ### The machine as a whole -/

/-- R4, R10, R21, R23, R201, R202, R241, R249, R316, R325, R443, R447: after a reset no strand runs, every memory reads zero with nothing poisoned and no
tag full, no slot is held, no translation is valid, no ring is defined, every granule is ELIDED, the dies run at 1,600 MHz and READY is 0.
The model's choice: memory that nothing has written reads 0 because its granules are ELIDED (log 88). -/
def Obligations.ResetState : Prop :=
  let s := State.reset
  s.strands = [] ∧ s.gangs = [] ∧ s.reqs = [] ∧ s.msgs = [] ∧ s.now = 0 ∧ s.inputs = [] ∧ s.cal = [] ∧ s.poison = [] ∧
  s.pkg.ready = false ∧ s.pkg.tfail = false ∧ s.pkg.halted = false ∧ s.pkg.irq = 0 ∧ s.pkg.tmo = 262144 ∧ s.pkg.portUp = 0 ∧ s.pkg.devid = 0 ∧
  s.mem.wf = true ∧ (∀ a, s.mem.get a = 0) ∧ (∀ n < 16, (s.mig n).state = 0) ∧ (∀ w, (s.win w).valid = false) ∧
  (∀ c, let k := s.core c
    (∀ a, k.sp.get a = 0 ∧ k.om.get a = 0 ∧ k.tagFull a = false) ∧ k.spPoison = [] ∧ k.omPoison = [] ∧
    (∀ n, k.omTag.find? n = none ∧ k.omHold.find? n = none ∧ k.tlb.find? n = none ∧ k.rings.find? n = none ∧ k.windows.find? n = none) ∧
    (∀ q, k.queue q = []) ∧ (∀ i < 16, k.slots[i]? = some none) ∧ k.rot = true ∧ k.bslim = 256 ∧ k.starve = 32768) ∧
  (∀ h, let x := s.home h
    x.live = [] ∧ x.ckset = [] ∧ x.frames = [] ∧ x.queues = [] ∧ x.check = [] ∧ x.patrol = 65536 ∧ x.corr = 0 ∧ x.uncorr = 0) ∧
  ∀ d, let x := s.die d
    x.fmhz = 1600 ∧ x.pcap = 500 ∧ x.tgt = 95 ∧ x.lost = 0 ∧ x.ccnt = 0 ∧ x.nodes = [] ∧ x.streams = [] ∧ x.bindings = [] ∧ x.ntbase = 0

/-- R34, R35, R39 to R43, R50, R51: words written out from the encoding tables decode to the instructions they stand for; a continuation in front, a head
with no continuation behind, an unassigned opcode and a reserved field that is not zero are told apart. -/
def Obligations.DecodesSpecWords : Prop :=
  (∀ e ∈ ([
      -- `add s3, s1!, s2`, `movi s1, -1`, `fcmp.lt.f32 q1, s2, s1`, `cvt.f32.e4m3 s3, s2`
      (0xC006, 0x8450, .add ⟨3, 1, 2, true, false⟩, 4), (0x403F, 0, .movi16 1 (-1), 2), (0xCE48, 0x8822, .fcmp .lt .f32 1 2 1 false false, 4),
      (0xCE86, 0x88C0, .cvt (.conv .f32e4m3 .fpm 3 2 false), 4),
      -- `tlds s4, [s2], 0`, `bar.or q2, q1`, `trap 5`, `wrctl s30, 5`, `exit`, `upret.skip`
      (0xDE08, 0x8800, .tlds ⟨4, 2, 0⟩, 4), (0xDF50, 0x8400, .barOr 2 1, 4), (0xD980, 0x8005, .trap 5, 4), (0xDABC, 0x8005, .wrctl 30 5, 4),
      (0x7C40, 0, .exit, 2), (0x7D01, 0, .upretSkip, 2)] : List (Nat × Nat × Instr × Nat)),
    decodeHalves (BitVec.ofNat 16 e.1) (BitVec.ofNat 16 e.2.1) = .ok (e.2.2.1, e.2.2.2)) ∧
  (∀ (h c : Half), h.getLsbD 15 = true → h.getLsbD 14 = false → decodeHalves h c = .error .continuation) ∧
  (∀ (h c : Half), h.getLsbD 15 = true → h.getLsbD 14 = true → ¬(c.getLsbD 15 = true ∧ c.getLsbD 14 = false) →
    decodeHalves h c = .error .noContinuation) ∧
  decodeHalves 0xFFFF 0x8000 = .error .unassigned ∧ decodeHalves 0x7D80 0 = .error .unassigned ∧ decodeHalves 0x7C41 0 = .error .reserved ∧
  decodeHalves 0xC006 0x8451 = .error .reserved

/-- R34 to R52: every well-formed instruction that has an encoding, with every operand at every value that the encoding admits, is laid out in one
halfword or in a head and its continuation, and those halfwords, from any bytes, decode to it and to its length. -/
def Obligations.EncodeDecodeRoundTrip : Prop :=
  ∀ i : Instr, i.wf = true → i.encoded = true →
    (∃ h : Half, encode i = [h] ∧ h.getLsbD 15 = false ∧ (∀ c, decodeHalves h c = .ok (i, 2)) ∧
      ∀ rest, decodeBytes (encodeBytes i ++ rest) = .ok (i, 2)) ∨
    (∃ h c : Half, encode i = [h, c] ∧ h.getLsbD 15 = true ∧ h.getLsbD 14 = true ∧ c.getLsbD 15 = true ∧ c.getLsbD 14 = false ∧
      decodeHalves h c = .ok (i, 4) ∧ ∀ rest, decodeBytes (encodeBytes i ++ rest) = .ok (i, 4))

/-- R43, R51: whatever the halfwords, what decoding answers is a well-formed instruction, and they are its encoding: no two words have one meaning. -/
def Obligations.DecodedWordsEncodeBack : Prop :=
  ∀ (h c : Half) (i : Instr) (len : Nat), decodeHalves h c = .ok (i, len) →
    i.wf = true ∧ i.encoded = true ∧ (len = 2 ∧ encode i = [h] ∨ len = 4 ∧ encode i = [h, c])

/-- R34, R164, R165, R454: when no event comes first and a core's turn goes to a strand whose fetched halfwords decode to `i`, the step is `i` in the state in which
the turn is used, and then the fetch of the next instruction begins; an event that is due goes before the turns, and with nothing left to
do the next cycle begins. An instruction placed at address 0, fetched, runs first.
The model's choice: one step is one event or one core's turn, how the placed program comes to run, and the banks of which an engine
learns that the strand of the turn reads them (log 7, 8, 45, 46, 87). -/
def Obligations.StepRunsTheDecodedInstruction : Prop :=
  ∀ (s : State), s.inputs = [] →
    (∀ core rest g n i len h k, (∀ d ∈ s.cal, s.now < d.time ∨ d.time = s.now ∧ rankAfter ≤ d.rank) → s.issueQ = core :: rest →
      turnOf s core = .issue g n → (s.begin_ core g n).cur.owe ≤ 1 → (s.begin_ core g n).cur.fetch = .ready h k →
      decodeHalves h (k.getD 0) = .ok (i, len) →
      let b := s.begin_ core g n
      let t := b.noteReads core i
      step s = endTurn (exec i t) ∧ b.curId = g ∧ b.issueQ = rest ∧ b.cur.pc = (s.strand g).pc ∧ b.mem = s.mem ∧
        ((s.core core).engWish = [] → t = b) ∧ (t = b ∨ ∃ l, t = b.modCore core fun k => { k with strandRd := l })) ∧
    (∀ d rest, s.cal = d :: rest → (d.time < s.now ∨ d.time = s.now ∧ (d.rank < rankAfter ∨ s.issueQ = [])) →
      step s = exec d.ev { s with cal := rest, arg := d.arg }) ∧
    ((∀ d ∈ s.cal, s.now < d.time) → s.issueQ = [] → ∃ t, step s = .next t ∧ t.now = s.now + 1 ∧ t.mem = s.mem ∧ t.strands = s.strands) ∧
    ∀ (h0 h1 : Half) i len, decodeHalves h0 (if h0.getLsbD 15 && h0.getLsbD 14 then h1 else 0) = .ok (i, len) →
      let t := s.place h0 h1
      step t = endTurn (exec i (t.begin_ 0 0 0)) ∧ t.curId = 0 ∧ (t.begin_ 0 0 0).cur.pc = 0 ∧
        (s.mem.wf = true → t.mem.get 0 = h0.setWidth 8 ∧ t.mem.get 1 = (h0 >>> 8).setWidth 8 ∧ t.mem.get 2 = h1.setWidth 8 ∧
          t.mem.get 3 = (h1 >>> 8).setWidth 8)

/-- R36, R50, R51, R379 to R381, R388: a fault is an upcall when UP is 0 and there is a handler: the four saved registers receive the pc, the
address, the information and LEN, UP and CAUSE, the pc goes to `ctl.tvec`, and nothing else changes. Else it goes to containment, which decides
at the end of the cycle, in order of the core and the slot, and blocks the strand alone until then. Halfwords that are no
instruction take fault 0x01, or 0x04 where R51 gets as far as a system-only opcode in user mode. -/
def Spec.claimFaultsAreTaken : Prop :=
  ∀ (s : State) (f : FaultRec) (len : BitVec 2), let c := s.cur
    let t := s.raise s.curId f len
    exec .undefinedEncoding s = .next (s.raise s.curId
      ⟨if s.arg.flag2 = true ∧ s.arg.n ≠ 0 ∧ c.ident.system = false then .priv else .undef, c.pc, s.arg.v⟩
      (if s.arg.n = 2 then 1 else if s.arg.n = 4 then 2 else 0)) ∧
    (c.ctl.tcause.getLsbD 8 = false → c.ctl.tvec ≠ 0 → (s.home c.core).frames = [] →
      s.onlyCur t ∧ c.keeps t.cur {} [] [] ∧ t.cur.pc = c.ctl.tvec ∧ t.cur.wait = none ∧
      ∃ k, t.cur.ctl = { c.ctl with tpc := c.pc, taddr := f.addr, tinfo := f.info, tcause := k } ∧
        k.toNat = len.toNat * 2 ^ 9 + 2 ^ 8 + f.cause.code) ∧
    ((c.ctl.tcause.getLsbD 8 = true ∨ c.ctl.tvec = 0) → s.strands.find? s.curId = some c → c.wait = none →
      t = { s with strands := t.strands, cal := t.cal } ∧ (∀ x, x ≠ s.curId → t.strands.find? x = s.strands.find? x) ∧
      t.strands.find? s.curId = some { c with wait := some { kind := .event, since := s.now }, kept := none } ∧
      ∃ d ∈ t.cal, d.time = s.now ∧ d.rank = rankDecide + c.core * 32 + (c.slot?).getD 16 ∧ d.ev = .containRetryResume ∧
        d.arg = { id := s.curId, idx := c.ident.gang, sub := c.core, n := f.cause.code, v := c.pc, flag := true, flag2 := true })

/-- R387 to R391: the decision on a fault: RETRY at level 0 lets the strand try again after 4,096 cycles, at most three times in a row at one
address; KILL_SELF there removes the strand, and KILL_PARENT the gang's strands on its core; the die's registers receive it. A strand
that has been removed since is not decided on again. -/
def Spec.claimContainmentDecides : Prop :=
  ∀ (s : State) (c : Strand) (g : Gang), let a := s.arg
    a.flag = true → a.flag2 = true →
    (s.strands.find? a.id = none → ∃ t, exec .containRetryResume s = .next t ∧ t = { s with cal := t.cal } ∧
      ((∀ y, s.gangs.find? a.idx = some y → y.alive ≠ []) → t = s)) ∧
    (s.strands.find? a.id = some c → s.gangs.find? a.idx = some g → g.die < 4 →
      let log (t : State) (act : Nat) : Prop :=
        (t.die g.die).clog0 = BitVec.ofNat 64 (a.n * 2 ^ 56 + act * 2 ^ 51 + a.id % 2 ^ 22 * 2 ^ 24 + g.node) ∧
        (t.die g.die).clog1 = BitVec.ofNat 64 (a.v.toNat % 2 ^ 48) ∧ (t.die g.die).ccnt = min ((s.die g.die).ccnt + 1) (2 ^ 32 - 1)
      (g.rec_.fld 0x58 0 2 = 1 → (c.retryPc = a.v → c.retries < 3) → ∃ t, exec .containRetryResume s = .next t ∧ log t 1 ∧ t.mem = s.mem ∧
        t.cores = s.cores ∧ (∀ x, x ≠ a.id → t.strands.find? x = s.strands.find? x) ∧
        t.strands.find? a.id = some { c with
          wait := some { kind := .retry (s.now + 4096), since := s.now }
          retries := (if c.retryPc = a.v then c.retries else 0) + 1, retryPc := a.v } ∧
        (⟨s.now + 4096, rankFill, .containRetryResume, { id := a.id }⟩ : Due) ∈ t.cal) ∧
      (g.rec_.fld 0x58 0 2 = 2 → (∀ e ∈ s.strands, e.1 ≠ a.id → e.2.ident.gang ≠ c.ident.gang) →
        ∃ t, exec .containRetryResume s = .next t ∧ log t 2 ∧ t.mem = s.mem ∧ t.strands.find? a.id = none ∧
          ∀ x, x ≠ a.id → t.strands.find? x = s.strands.find? x) ∧
      (g.rec_.fld 0x58 0 2 = 3 → ∃ t, exec .containRetryResume s = .next t ∧ log t 3 ∧ t.mem = s.mem ∧
        ∀ e ∈ s.strands, e.2.ident.gang = a.idx → e.2.core = a.sub → t.strands.find? e.1 = none))

/-- The memories of the reset state (R21, R201, R224, R442) have the model's canonical form (`State.canonical`).
The model's choice: the canonical form is the model's own. -/
def Obligations.ResetIsCanonical : Prop := State.reset.canonical

/-- Every step keeps the model's canonical form of main memory (R224), of every scratchpad (R21) and of every operand memory (R201): addresses
rise, and no byte listed is the zero that an unlisted address reads as. It does so from any state, so that equal memories stay equal
data.
The model's choice: the canonical form is the model's own. -/
def Obligations.MemoryStaysCanonical : Prop :=
  ∀ (s t : State), s.canonical → step s = .next t → t.canonical

/-- R384, R448: no step stops the machine: whatever the state and whatever comes next, there is a next state.
The model's choice: no fault or refusal of a step exists (log 12). -/
def Obligations.NothingStops : Prop :=
  (∀ s : State, Safe s) ∧ ∀ (i : Instr) (s : State), ∃ t, exec i s = .next t

/-! ### Statements of several parts -/

/-- R76 to R81, R19: on full sources, and with no reply pending for the destination, each integer instruction of one or two sources completes; the
destination holds its result, the marked sources are dead, and nothing else changes. `BFI` and `FSH` read their destination too, and a
predicate that is U selects b. -/
def Obligations.IntegerResults : Prop :=
  Spec.claimTwoSourceResults ∧ Spec.claimCountAndReverseResults ∧ Spec.claimInsertFunnelSelectResults

/-- R82, R83: the immediate forms; `MOVI` zero-extends, and `MOVH` shifts its full destination up by 15 bits.

R40, R41: the 16-bit equivalents of the integer instructions retire two bytes on and carry no marks. -/
def Obligations.ImmediateAndShortFormResults : Prop :=
  Spec.claimImmediateResults ∧ Spec.claimShortFormResults

/-- R91: `FCMP` writes U where an operand is a NaN, and −0 equals +0.

R88, R56, R58: the special results of the float arithmetic instructions, on infinities, zeros and NaNs of either precision. -/
def Obligations.FloatComparisonAndSpecialResults : Prop :=
  Spec.claimFloatComparisonResults ∧ Spec.claimFloatSpecialResults

/-- R92, R93: every conversion completes with what R66 gives of its value under the instruction's mode; the register moves among the
codes move bits and set no flag, and a write of one half of a mask keeps the other.

R66, R55: a conversion to an integer of `w` bits gives the value rounded in the mode, clamped to the range; it is counted exactly where
it is clamped, and NX is set exactly where the source has a fraction.
The model's choice: a saturated integer is counted when it lies outside the range (log 29). -/
def Obligations.ConversionResults : Prop :=
  Spec.claimConversionsAndRegisterMoves ∧ Spec.claimIntegerConversionClamps

/-- R142: the instructions that read a bound or a measure; a pattern that is not canonical, a zero variant, EMPTY or NaI sets NI.

R140, R145, R146: `IMAKE` writes an interval of two bounds that can be one, and NaI with NI of any others; `ICMP` compares with −0
equal to +0 and answers U on a NaI; `NPQ` reads NP. -/
def Obligations.IntervalMeasuresMakeAndCompare : Prop :=
  Spec.claimIntervalMeasures ∧ Spec.claimIntervalMakeAndCompare

/-- R64, R73, R138, R141, R143, R144: the interval instructions complete with the result of their operation, which
`IntervalResultsAreTightest` speaks of, and set the sticky bits of `ctl.ist` that it gives; a new EMPTY under TE is fault 0x51.

R147 to R150: the contractor instructions write every operand that they contract, and under lz leave z dead instead of writing it.
The model's choice: the slack of `IEXP`, `ILOG`, `ISQRT` and the exponential steps is a free value (log 20). -/
def Obligations.IntervalAndContractorCompletion : Prop :=
  Spec.claimIntervalInstructionsComplete ∧ Spec.claimContractorsComplete

/-- R95: jumps, calls and the return. A call writes the address behind it to `s30`; `CALLR` reads its register before that.

R96, R97: conditional branches; `LOOP` counts down modulo 2⁶⁴ and branches unless the count has become 0, and on `s0` it is fault
0x01. -/
def Obligations.ControlTransfers : Prop :=
  Spec.claimJumpsAndCalls ∧ Spec.claimConditionalBranches

/-- R26, R28, R29, R100, R101: `RDID` and `RDCTL` write the register of the index; any other index is fault 0x01.

R7, R29, R65, R102: `WRCTL` writes the listed bits of one control register and no other one, but that the bits it sets in `ctl.fpf` and
in NP enter the gang's registers. It completes for a strand-scoped index, for the gang's, which it ignores, and in system mode for the
core's; in user mode a core-scoped index is fault 0x04, once the source is read, and an unlisted one fault 0x01.

R165, R102: a `WRCTL` of `ctl.rot` is in force from the next cycle whose count on the core's die is a multiple of 16: until then the mode
stays, and the event of that cycle brings in what the register then holds.
The model's choice: the cycle is found at the rate of the die's clock as it stands (log 1). -/
def Obligations.ControlRegisters : Prop :=
  Spec.claimIdentityAndControlReads ∧ Spec.claimControlWrites ∧ Spec.claimRotationModeSwitch

/-- R22: an access whose bytes leave the scratchpad is fault 0x06, any other whose address is not a multiple of its size is fault 0x05.

R22, R115, R134: a row operand past the scratchpad is fault 0x06, before fault 0x05 of any that is not aligned, and the fault names the first such
operand, and for `VCVT` the row of its span; extra turns hold the slot and do nothing else. -/
def Obligations.ScratchpadAndRowFaults : Prop :=
  Spec.claimScratchpadFaults ∧ Spec.claimVectorRowFaultsAndTurns

/-- R186, R187, R188: on a word of the strand's own core for which nobody waits, `TLDS` of a full word takes it and leaves it empty, `TSTS` of
an empty one writes it and leaves it full, and `TSTR` leaves it empty with its data. Nothing else of the scratchpad or its tags
changes.

R187: one handoff for each change. A `TSTS` of an empty word for which one strand waits in a `TLDS` gives that strand the value and leaves
the word empty again.
The model's choice: when the scoreboard holds a tagged access (log 40). -/
def Obligations.TaggedWords : Prop :=
  Spec.claimTaggedWordsOfTheOwnCore ∧ Spec.claimTagHandoff

/-- R193, R194, R195, R179: a strand arrives at its gang's barrier and waits, with its registers as they are; an ARRIVAL strand leaves its slot
if the park store has room for it, a STEP strand does not. Its contributions enter the gang's combines, and the arrival that was missing has
the barrier release 12 + 2⌈log₂(GW × GH)⌉ cycles later.

R193, R194: at the release every strand that arrived goes on behind its instruction with the result of its own form, and the gang's next
barrier is open.
The model's choice: no strand issues its barrier instruction again (log 82). -/
def Obligations.Barriers : Prop :=
  Spec.claimBarrierArrivals ∧ Spec.claimBarrierRelease

/-- R267, R268, R269: the fences and `WAITRED` complete once what each waits for is over, and change nothing.

R270, R271, R272: `MIGR` to the strand's own home, of a STEP strand, or without room goes on; otherwise the strand leaves for the home.
The hints and the row copies are posted to the home of their address.
The model's choice: `FENCE.S` waits for the accesses of its scope, and closes no span (log 100). -/
def Obligations.FencesHintsAndRowCopies : Prop :=
  Spec.claimFencesComplete ∧ Spec.claimMigrationHintsAndRowCopies

/-- R14, R111, R114, R116 to R120, R123, R124, R131: the instructions of format V complete: every enabled element of pd is the operation of the elements
of its sources as they stood before, and nothing else of the scratchpad changes.

R121, R122, R132, R133: the unary and the scalar forms, with the special operands of the approximate instructions, and their bounds.

R61, R116: on finite elements, float results are the exact sums, differences, products and fused products rounded once to the format.
The model's choice: which result of R132 an approximate element takes is a free value (log 18, 19). -/
def Obligations.VectorResults : Prop :=
  Spec.claimVectorElementwiseResults ∧ Spec.claimVectorUnaryAndScalarResults ∧ Spec.claimFiniteArithmetic ∧ Spec.claimApproximationSpecials ∧
    Spec.claimApproximationsStayNear

/-- R126: `VCVT` reads all its rows before it writes any; element g over the rows of pd is the conversion of element g over the rows of pa where it is
enabled.

R125: `VCMP` writes the whole mask: bit g is 1 exactly where some enabled element has its lowest byte in group g and the condition holds of
every one that has.

R59, R61, R66: what an element is read as, and what a conversion of it writes. -/
def Obligations.VectorConversionAndCompare : Prop :=
  Spec.claimVectorConversion ∧ Spec.claimVectorCompareMask ∧ Spec.claimElementsAreNumbers

/-- R67, R127, R128: `VRED` and `VDOT` reduce the enabled elements into a full `s` register: integers exactly, modulo 2⁶⁴, and floats along the tree of
R67. With no element enabled the result is the identity.

R68, R129, R130: `VBDOT` writes one sum for each block of products, rounded once, and `VSCOMB` the products of scales: a NaN scale gives the default
NaN with NV.

R67, R68, R128, R129: the products are exact, a node of the tree is the sum of two rounded to F32, and a block's sum that of all its products.
The model's choice: `VBDOT` runs under k0, a sum of exactly zero takes its sign as R62 says, and the lanes of `VSCOMB` are
enabled as its scales are (log 25, 26, 27). -/
def Obligations.VectorReductionsAndProducts : Prop :=
  Spec.claimVectorReductions ∧ Spec.claimVectorBlockProducts ∧ Spec.claimSumsAndProducts

/-- R73, R151 to R155: the vector interval instructions complete with each enabled element as the scalar instruction leaves it, and set the sticky bits
of any of them. Under TE, an element that becomes EMPTY anew is fault 0x51, which names the lowest, and nothing is written.

R154, R155: `VIDOT` writes one interval for the products of its enabled elements, and [−0, +0] for none; the vector contractors narrow each triple by
itself and write every row that they contract.
The model's choice: the slack of the exponential steps is a free value (log 20). -/
def Obligations.VectorIntervalResults : Prop :=
  Spec.claimVectorIntervals ∧ Spec.claimVectorIntervalDotAndContractors

/-- R202, R212, R213: `MCLAIM` takes a run of slots that nobody holds, awaits or claimed before; `MRELEASE` gives up a run that the strand
holds, and a slot that no unfinished command names is free at once. No slot changes its bits or its tag.

R203, R205, R208, R214, R215, R216: a matrix command on a slot that its strand holds enters a queue that is not full, and its instruction
retires; `MLOAD` and `MZERO` give their slot its tag then, and the register of `MSTORE` is empty with a reply pending.
The model's choice: the order of the faults of a tile's address and slot (log 42). -/
def Obligations.OperandMemoryCommands : Prop :=
  Spec.claimSlotClaims ∧ Spec.claimMatrixCommands

/-- R204, R208, R209, R217: `MMA` starts on slots that its strand holds, whose tags are a pair, and waits for the array; the result is that of
the operands as they stand. At the end of the multiply slot c holds it with its tag, the flags are entered, and the instruction
retires.

R218, R219: `MROT` of a square STEP gang starts as an `MMA` does, and sends A to the core on the left and B to the core above, wrapped around
the square; the tiles arrive after the transfer and the link's latency. A tile that arrives at an idle array waits in its landing
buffer, and one that has been copied stands in its slot with its tag.
The model's choice: when an array operation finds its array free, and the end of one whose strand is removed (log 41, 44). -/
def Obligations.TileProducts : Prop :=
  Spec.claimTileMultiply ∧ Spec.claimMultiplyAndRotate

/-- R205, R314, R318 to R323: `CPY` with a valid description enters the COPY queue, `CPY.G` and a copy out of a window the GATHER queue;
a length that is not a multiple of 64 is fault 0x05 of the control word. `GWIN` and `GUNB` enter the GATHER queue, and their window counts
as bound, or not, from then on. Each retires.

R421, R423, R424: `WPOST` and `WPOST.G` to a registered outbound window enter their queue and retire; a get has copied its indices.
Another window is fault 0x41 with reason 2. `WWAIT` retires once the window's counter has reached its target.
The model's choice: all ranges of a command are held from its acceptance, `GWIN` checks word by word, and a `WPOST` reads its
own core (log 16, 76, 83). -/
def Obligations.CopiesWindowsAndPosts : Prop :=
  Spec.claimCopiesAndWindows ∧ Spec.claimWindowPosts

/-- R326, R328, R329: `RDEF` makes an undefined ring with every slot free; `RDEF.OFF` ends one; `RTAKE` takes the oldest slot of its mode and
writes its address; `RPOST` posts slots. On a ring that is not defined each but `RDEF` is fault 0x06 with reason 2. Rings without a
governor, for which nobody waits.

R330, R331, R333: `QFENCE` orders later commands of its after-set behind the unfinished ones of its before-set and changes nothing else; `QWAIT`
retires when the strand has no command in its queues and no failure of one; `CKPT` goes on where no pre-emption and no move of the
governor is in force. -/
def Obligations.RingsAndQueues : Prop :=
  Spec.claimRings ∧ Spec.claimJoiningTheQueues

/-- R354, R356 to R358: the `SBIND`s with a valid description ask their unit, once the strand's writes are performed, and wait for its
answer. An `SBIND.W` reads the two header words of its area at their home first, and translates each 64 KiB page of the area through the TLB
of its core.

R355, R359, R360, R362, R363: the commands of the STREAM queue on a defined stream; an undefined one is fault 0x06 with reason 2. `SPUB` is
posted once every earlier access has been performed; `SREAD` leaves its two registers pending, and later accesses wait for the first.
The model's choice: of two reasons, reason 3 comes first, and the header is read once, when the drain is over (log 53, 77). -/
def Obligations.StreamInstructions : Prop :=
  Spec.claimStreamBindings ∧ Spec.claimStreamCommandsAndPublication

/-- R36, R50, R51, R379 to R381, R388: a fault is an upcall when UP is 0 and there is a handler: the four saved registers receive the pc, the
address, the information and LEN, UP and CAUSE, the pc goes to `ctl.tvec`, and nothing else changes. Else it goes to containment, which decides
at the end of the cycle, in order of the core and the slot, and blocks the strand alone until then. Halfwords that are no
instruction take fault 0x01, or 0x04 where R51 gets as far as a system-only opcode in user mode.

R387 to R391: the decision on a fault: RETRY at level 0 lets the strand try again after 4,096 cycles, at most three times in a row at one
address; KILL_SELF there removes the strand, and KILL_PARENT the gang's strands on its core; the die's registers receive it.

R98, R107, R382: `TRAP` always takes the exception 0x60 with its number. `UPRET` clears UP and goes on at `ctl.tpc`, `UPRET.SKIP` behind the
instruction there; with UP = 0 either is fault 0x01 with its halfword.
The model's choice: LEN of an undecodable instruction (log 51). -/
def Obligations.FaultsAndReturns : Prop :=
  Spec.claimFaultsAreTaken ∧ Spec.claimContainmentDecides ∧ Spec.claimTrapAndUpcallReturn
end

