-- ==== Sys2Proof/Laws/Encoding.lean ====
section
/-! SUPPORT. Each field that the encoder lays into a payload is what the decoder reads there (R43): one lemma per operand
record of Sys2Proof/Syntax.lean, and one per code. -/

namespace Sys2Proof.Laws

/-- The payload of a 32-bit instruction: its opcode above P[19:0] (R35, R43). -/
def wordOf (op p : Nat) : Nat := op * 1048576 + p

theorem b2n_le (b : Bool) : b2n b ≤ 1 := by cases b <;> decide

/-- The entry of the opcode map in row `h` and column `l` (R48). -/
def mapAt (h l p : Nat) : Except DecodeErr Instr :=
  match h with
  | 0 => row0 l p | 1 => row1 l p | 2 => row2 l p | 3 => row3 l p
  | 4 => row4 l p | 5 => row5 l p | 6 => row6 l p | 7 => row7 l p
  | 8 => row8 l p | 9 => row9 l p | 10 => rowA l p | 11 => rowB l p
  | 12 => rowC l p | 13 => rowD l p | 14 => rowE l p | 15 => rowF l p
  | _ => .error .unassigned

/-- The entry of the opcode map that an opcode selects (R48). -/
def rowAt (op p : Nat) : Except DecodeErr Instr := mapAt (op / 16) (op % 16) p

/-- `decodeRow` looks up the opcode that `wordOf` laid down. -/
theorem decodeRow_wordOf {op p : Nat} (hop : op < 256) (hp : p < 2 ^ 20) :
    decodeRow (wordOf op p) = rowAt op (wordOf op p) := by
  have h1 : fldN (wordOf op p) 24 4 = op / 16 := by simp only [fldN, wordOf]; omega
  have h2 : fldN (wordOf op p) 20 4 = op % 16 := by simp only [fldN, wordOf]; omega
  have h : decodeRow (wordOf op p) = mapAt (fldN (wordOf op p) 24 4) (fldN (wordOf op p) 20 4) (wordOf op p) := rfl
  rw [h, h1, h2, rowAt]

theorem b2n_false : b2n false = 0 := rfl
theorem b2n_true : b2n true = 1 := rfl

theorem fld_eq {w p lo : Nat} {x : BitVec w} (h : p / 2 ^ lo % 2 ^ w = x.toNat) : fld p lo w = x :=
  BitVec.eq_of_toNat_eq (by simpa [fld] using h)

theorem fldN_eq {w p lo n : Nat} (h : p / 2 ^ lo % 2 ^ w = n) : fldN p lo w = n := h

theorem bitB_eq {p n : Nat} {b : Bool} (h : p / 2 ^ n % 2 = b2n b) : bitB p n = b := by
  cases b <;> simp_all [bitB, b2n]

theorem isZero_eq {p lo w : Nat} (h : p / 2 ^ lo % 2 ^ w = 0) : isZero p lo w = true := by
  simp [isZero, fldN, h]

theorem okIf_eq {c : Bool} {i j : Instr} (hc : c = true) (hi : i = j) : okIf c i = .ok j := by
  simp [okIf, hc, hi]

theorem and_t {a b : Bool} (ha : a = true) (hb : b = true) : (a && b) = true := by simp [ha, hb]

/-! ### Codes -/

theorem fmtOf_code (f : Fmt) : fmtOf f.code = some f := by cases f <;> rfl
theorem fmt_code_lt (f : Fmt) : f.code < 15 := by cases f <;> decide
theorem withFmt_code (f : Fmt) (k : Fmt → Except DecodeErr Instr) : withFmt f.code k = k f := by
  simp [withFmt, fmtOf_code]
theorem withFmt_eq {c : Nat} {f : Fmt} {k : Fmt → Except DecodeErr Instr} {j : Except DecodeErr Instr}
    (hc : c = f.code) (hk : k f = j) : withFmt c k = j := by rw [hc, withFmt_code, hk]
theorem precOf_eq {b : Bool} {p : Prec} (h : b2n b = p.code) : precOf b = p := by
  cases p <;> cases b <;> simp_all [precOf, b2n, Prec.code]
theorem prec_code_le (p : Prec) : p.code ≤ 1 := by cases p <;> decide
theorem roundOf_code (r : FRound) : roundOf r.code = r := by cases r <;> rfl
theorem round_code_le (r : FRound) : r.code ≤ 3 := by cases r <;> decide
theorem bitB_prec {p n : Nat} {x : Prec} (h : p / 2 ^ n % 2 = x.code) : precOf (bitB p n) = x := by
  cases x <;> simp_all [bitB, precOf, Prec.code]
theorem round_eq {p lo w : Nat} {r : FRound} (h : p / 2 ^ lo % 2 ^ w = r.code) : roundOf (fldN p lo w) = r := by
  rw [fldN_eq h, roundOf_code]
theorem cmpCondOf_code (c : CmpCond) : cmpCondOf c.code = some c := by cases c <;> rfl
theorem cmpCondOf_le (c : CmpCond) : c.code ≤ 6 := by cases c <;> decide
theorem cmpiCondOf_code (c : CmpiCond) : cmpiCondOf c.code = c := by cases c <;> rfl
theorem cmpiCondOf_le (c : CmpiCond) : c.code ≤ 3 := by cases c <;> decide
theorem cmpiCondOf_eq {n : Nat} {c : CmpiCond} (h : n = c.code) : cmpiCondOf n = c := by rw [h, cmpiCondOf_code]
theorem cvtCodeOf_code (c : CvtCode) : cvtCodeOf c.code = some c := by cases c <;> rfl
theorem cvtCodeOf_le (c : CvtCode) : c.code ≤ 25 := by cases c <;> decide
theorem sgnOf_code (c : SgnMode) : sgnOf c.code = some c := by cases c <;> rfl
theorem sgnOf_le (c : SgnMode) : c.code ≤ 2 := by cases c <;> decide
theorem fcondOf_code (c : FCond) : fcondOf c.code = c := by cases c <;> rfl
theorem fcondOf_le (c : FCond) : c.code ≤ 3 := by cases c <;> decide
theorem fcondOf_eq {n : Nat} {c : FCond} (h : n = c.code) : fcondOf n = c := by rw [h, fcondOf_code]
theorem bqOf_code (c : BqCond) : bqOf c.code = c := by cases c <;> rfl
theorem bqOf_le (c : BqCond) : c.code ≤ 3 := by cases c <;> decide
theorem bqOf_eq {n : Nat} {c : BqCond} (h : n = c.code) : bqOf n = c := by rw [h, bqOf_code]
theorem amoOf_code (c : AmoFn) : amoOf c.code = c := by cases c <;> rfl
theorem amoOf_le (c : AmoFn) : c.code ≤ 7 := by cases c <;> decide
theorem amoOf_eq {n : Nat} {c : AmoFn} (h : n = c.code) : amoOf n = c := by rw [h, amoOf_code]
theorem redOf_code (c : RedFn) : redOf c.code = some c := by cases c <;> rfl
theorem redOf_le (c : RedFn) : c.code ≤ 6 := by cases c <;> decide
theorem vcondOf_code (c : VCond) : vcondOf c.code = c := by cases c <;> rfl
theorem vcondOf_le (c : VCond) : c.code ≤ 3 := by cases c <;> decide
theorem vcondOf_eq {n : Nat} {c : VCond} (h : n = c.code) : vcondOf n = c := by rw [h, vcondOf_code]
theorem vredOf_code (c : VRedFn) : vredOf c.code = some c := by cases c <;> rfl
theorem vredOf_le (c : VRedFn) : c.code ≤ 5 := by cases c <;> decide
theorem trOf_code (c : TileTr) : trOf c.code = some c := by cases c <;> rfl
theorem trOf_le (c : TileTr) : c.code ≤ 2 := by cases c <;> decide
theorem tlbiOf_code (c : TlbiMode) : tlbiOf c.code = some c := by cases c <;> rfl
theorem tlbiOf_le (c : TlbiMode) : c.code ≤ 2 := by cases c <;> decide

/-- Codes below 26 of `CVT` are conversions (R92). -/
theorem decCvt_conv (c : CvtCode) {p : Nat} (h : fldN p 5 5 = c.code) :
    decCvt p = okIf (isZero p 3 1 && isZero p 0 1)
      (.cvt (.conv c (roundOf (fldN p 1 2)) (fld p 15 5) (fld p 10 5) (bitB p 4))) := by
  unfold decCvt
  rw [h]
  cases c <;> rfl

/-! ### Operand records -/
theorem dRRR_word (op f : Nat) (o : OpRRR) (h0 : f < 8) : dRRR (wordOf op (eRRR o f)) = o := by
  have := o.d.isLt
  have := o.a.isLt
  have := o.b.isLt
  have := b2n_le o.la
  have := b2n_le o.lb
  cases o
  simp only [dRRR, eRRR, wordOf, OpRRR.mk.injEq] at *
  exact ⟨fld_eq (by omega), fld_eq (by omega), fld_eq (by omega), bitB_eq (by omega), bitB_eq (by omega)⟩
theorem dRR_word (op b f : Nat) (o : OpRR) (h0 : b < 32) (h1 : f < 16) : dRR (wordOf op (eRR o b f)) = o := by
  have := o.d.isLt
  have := o.a.isLt
  have := b2n_le o.la
  cases o
  simp only [dRR, eRR, wordOf, OpRR.mk.injEq] at *
  exact ⟨fld_eq (by omega), fld_eq (by omega), bitB_eq (by omega)⟩
theorem dRRI_word (op : Nat) (o : OpRRI) : dRRI (wordOf op (eRRI o)) = o := by
  have := o.d.isLt
  have := o.a.isLt
  have := b2n_le o.la
  have := o.imm.isLt
  cases o
  simp only [dRRI, eRRI, wordOf, OpRRI.mk.injEq] at *
  exact ⟨fld_eq (by omega), fld_eq (by omega), bitB_eq (by omega), fld_eq (by omega)⟩
theorem dShift_word (op : Nat) (o : OpShift) : dShift (wordOf op (eShift o)) = o := by
  have := o.d.isLt
  have := o.a.isLt
  have := b2n_le o.la
  have := o.cnt.isLt
  cases o
  simp only [dShift, eShift, wordOf, OpShift.mk.injEq] at *
  exact ⟨fld_eq (by omega), fld_eq (by omega), bitB_eq (by omega), fld_eq (by omega)⟩
theorem dF2_word (op : Nat) (o : OpF2) : dF2 (wordOf op (eF2 o)) = o := by
  have := o.d.isLt
  have := o.a.isLt
  have := o.b.isLt
  have := b2n_le o.la
  have := b2n_le o.lb
  have := prec_code_le o.prec
  have := round_code_le o.r
  cases o
  simp only [dF2, eF2, wordOf, OpF2.mk.injEq] at *
  exact ⟨fld_eq (by omega), fld_eq (by omega), fld_eq (by omega), bitB_eq (by omega), bitB_eq (by omega), bitB_prec (by omega), round_eq (by omega)⟩
theorem dM_word (op : Nat) (o : OpM) : dM (wordOf op (eM o)) = o := by
  have := o.t.isLt
  have := o.a.isLt
  have := b2n_le o.la
  have := o.off.isLt
  cases o
  simp only [dM, eM, wordOf, OpM.mk.injEq] at *
  exact ⟨fld_eq (by omega), fld_eq (by omega), bitB_eq (by omega), fld_eq (by omega)⟩
theorem dMIv_word (op : Nat) (o : OpMIv) : dMIv (wordOf op (eMIv o)) = o := by
  have := o.t.isLt
  have := o.a.isLt
  have := b2n_le o.la
  have := o.off.isLt
  cases o
  simp only [dMIv, eMIv, wordOf, OpMIv.mk.injEq] at *
  exact ⟨fld_eq (by omega), fld_eq (by omega), bitB_eq (by omega), fld_eq (by omega)⟩
theorem dLW_word (op : Nat) (o : OpLW) : dLW (wordOf op (eLW o)) = o := by
  have := o.d.isLt
  have := o.a.isLt
  have := o.lim.isLt
  cases o
  simp only [dLW, eLW, wordOf, OpLW.mk.injEq] at *
  exact ⟨fld_eq (by omega), fld_eq (by omega), fld_eq (by omega)⟩
theorem dV_word (op v : Nat) (o : OpV) (h0 : v < 2) : dV (wordOf op (eV o v)) o.fmt = o := by
  have := o.pd.isLt
  have := o.pa.isLt
  have := o.pb.isLt
  have := fmt_code_lt o.fmt
  have := o.k.isLt
  have := b2n_le o.incD
  have := b2n_le o.incA
  have := b2n_le o.incB
  cases o
  simp only [dV, eV, wordOf, OpV.mk.injEq] at *
  exact ⟨fld_eq (by omega), fld_eq (by omega), fld_eq (by omega), trivial, fld_eq (by omega), bitB_eq (by omega), bitB_eq (by omega), bitB_eq (by omega)⟩
theorem dV1_word (op b v : Nat) (o : OpV1) (h0 : b < 8) (h1 : v < 4) : dV1 (wordOf op (eV1 o b v)) o.fmt = o := by
  have := o.pd.isLt
  have := o.pa.isLt
  have := fmt_code_lt o.fmt
  have := o.k.isLt
  have := b2n_le o.incD
  have := b2n_le o.incA
  cases o
  simp only [dV1, eV1, wordOf, OpV1.mk.injEq] at *
  exact ⟨fld_eq (by omega), fld_eq (by omega), trivial, fld_eq (by omega), bitB_eq (by omega), bitB_eq (by omega)⟩
theorem dVI_word (op : Nat) (o : OpVI) : dVI (wordOf op (eVI o)) = o := by
  have := o.pd.isLt
  have := o.pa.isLt
  have := o.pb.isLt
  have := o.k.isLt
  have := b2n_le o.incD
  have := b2n_le o.incA
  have := b2n_le o.incB
  cases o
  simp only [dVI, eVI, wordOf, OpVI.mk.injEq] at *
  exact ⟨fld_eq (by omega), fld_eq (by omega), fld_eq (by omega), fld_eq (by omega), bitB_eq (by omega), bitB_eq (by omega), bitB_eq (by omega)⟩
theorem dVS_word (op : Nat) (o : OpVS) : dVS (wordOf op (eVS o)) o.fmt = o := by
  have := o.pd.isLt
  have := o.pa.isLt
  have := o.s.isLt
  have := b2n_le o.la
  have := fmt_code_lt o.fmt
  have := o.k.isLt
  have := b2n_le o.inc
  cases o
  simp only [dVS, eVS, wordOf, OpVS.mk.injEq] at *
  exact ⟨fld_eq (by omega), fld_eq (by omega), fld_eq (by omega), bitB_eq (by omega), trivial, fld_eq (by omega), bitB_eq (by omega)⟩
theorem dVS1_word (op : Nat) (o : OpVS1) : dVS1 (wordOf op (eVS1 o)) o.fmt = o := by
  have := o.pd.isLt
  have := o.s.isLt
  have := b2n_le o.la
  have := fmt_code_lt o.fmt
  have := o.k.isLt
  have := b2n_le o.inc
  cases o
  simp only [dVS1, eVS1, wordOf, OpVS1.mk.injEq] at *
  exact ⟨fld_eq (by omega), fld_eq (by omega), bitB_eq (by omega), trivial, fld_eq (by omega), bitB_eq (by omega)⟩
theorem dIV2_word (op : Nat) (o : OpIV2) : dIV2 (wordOf op (eIV2 o)) = o := by
  have := o.d.isLt
  have := o.a.isLt
  have := o.b.isLt
  have := b2n_le o.la
  have := b2n_le o.lb
  cases o
  simp only [dIV2, eIV2, wordOf, OpIV2.mk.injEq] at *
  exact ⟨fld_eq (by omega), fld_eq (by omega), fld_eq (by omega), bitB_eq (by omega), bitB_eq (by omega)⟩
theorem dIV1_word (op : Nat) (o : OpIV1) : dIV1 (wordOf op (eIV1 o)) = o := by
  have := o.d.isLt
  have := o.a.isLt
  have := b2n_le o.la
  cases o
  simp only [dIV1, eIV1, wordOf, OpIV1.mk.injEq] at *
  exact ⟨fld_eq (by omega), fld_eq (by omega), bitB_eq (by omega)⟩
theorem dIC3_word (op : Nat) (o : OpIC3) : dIC3 (wordOf op (eIC3 o)) = o := by
  have := o.x.isLt
  have := o.y.isLt
  have := o.z.isLt
  have := b2n_le o.lz
  cases o
  simp only [dIC3, eIC3, wordOf, OpIC3.mk.injEq] at *
  exact ⟨fld_eq (by omega), fld_eq (by omega), fld_eq (by omega), bitB_eq (by omega)⟩
theorem dIC2_word (op : Nat) (o : OpIC2) : dIC2 (wordOf op (eIC2 o)) = o := by
  have := o.x.isLt
  have := o.z.isLt
  have := b2n_le o.lz
  cases o
  simp only [dIC2, eIC2, wordOf, OpIC2.mk.injEq] at *
  exact ⟨fld_eq (by omega), fld_eq (by omega), bitB_eq (by omega)⟩
theorem dSIv_word (op : Nat) (o : OpSIv) : dSIv (wordOf op (eSIv o)) = o := by
  have := o.d.isLt
  have := o.a.isLt
  have := b2n_le o.la
  cases o
  simp only [dSIv, eSIv, wordOf, OpSIv.mk.injEq] at *
  exact ⟨fld_eq (by omega), fld_eq (by omega), bitB_eq (by omega)⟩
theorem dSS_word (op : Nat) (o : OpSS) : dSS (wordOf op (eSS o)) = o := by
  have := o.a.isLt
  have := b2n_le o.la
  have := o.b.isLt
  have := b2n_le o.lb
  cases o
  simp only [dSS, eSS, wordOf, OpSS.mk.injEq] at *
  exact ⟨fld_eq (by omega), bitB_eq (by omega), fld_eq (by omega), bitB_eq (by omega)⟩

/-! ### The two formats that split a code over two fields (R49, R126, R125) -/

theorem eV1_fields (op b v : Nat) (o : OpV1) (hb : b < 8) (hv : v < 2) :
    eV1 o b v < 2 ^ 20 ∧ fldN (wordOf op (eV1 o b v)) 7 4 = o.fmt.code ∧ fldN (wordOf op (eV1 o b v)) 11 3 = b ∧
      fldN (wordOf op (eV1 o b v)) 0 1 = v ∧ isZero (wordOf op (eV1 o b v)) 1 1 = true := by
  have := o.pd.isLt
  have := o.pa.isLt
  have := fmt_code_lt o.fmt
  have := o.k.isLt
  have := b2n_le o.incD
  have := b2n_le o.incA
  simp only [eV1, wordOf]
  exact ⟨by omega, fldN_eq (by omega), fldN_eq (by omega), fldN_eq (by omega), isZero_eq (by omega)⟩

/-- Payload of `VCMP` with its condition in two bits. -/
theorem vcmp_fields (op hi lo : Nat) (kd : KReg) (pa pb : PReg) (f : Fmt) (k : KReg) (ia ib : Bool) (hh : hi < 2)
    (hl : lo < 2) {p : Nat}
    (hp : p = kd.toNat * 2 ^ 17 + pa.toNat * 2 ^ 14 + pb.toNat * 2 ^ 11 + f.code * 2 ^ 7 + k.toNat * 2 ^ 4
      + hi * 8 + b2n ia * 4 + b2n ib * 2 + lo) :
    p < 2 ^ 20 ∧ fldN (wordOf op p) 7 4 = f.code ∧ fldN (wordOf op p) 3 1 = hi ∧ fldN (wordOf op p) 0 1 = lo ∧
      fld (wordOf op p) 17 3 = kd ∧ fld (wordOf op p) 14 3 = pa ∧ fld (wordOf op p) 11 3 = pb ∧
      fld (wordOf op p) 4 3 = k ∧ bitB (wordOf op p) 2 = ia ∧ bitB (wordOf op p) 1 = ib := by
  have := kd.isLt
  have := pa.isLt
  have := pb.isLt
  have := fmt_code_lt f
  have := k.isLt
  have := b2n_le ia
  have := b2n_le ib
  subst hp
  simp only [wordOf]
  exact ⟨by omega, fldN_eq (by omega), fldN_eq (by omega), fldN_eq (by omega), fld_eq (by omega), fld_eq (by omega),
    fld_eq (by omega), fld_eq (by omega), bitB_eq (by omega), bitB_eq (by omega)⟩

end Sys2Proof.Laws
end

