-- ==== Sys2Proof/Laws/Memory.lean ====
section
/-! SUPPORT. Byte memories: every operation keeps the canonical form, and a read after a write gives what was written there and
what stood elsewhere. -/

namespace Sys2Proof.Machine

/-! ### The canonical form -/

/-- The canonical form, as a statement about all pairs of cells. -/
theorem Memory.wf_iff (m : Memory) : m.wf = true ↔ m.Pairwise (fun c d => c.1 < d.1) ∧ ∀ c ∈ m, c.2 ≠ 0 := by
  induction m with
  | nil => simp [Memory.wf]
  | cons c t ih =>
    cases t with
    | nil => simp [Memory.wf]
    | cons d t =>
      simp only [Memory.wf, Bool.and_eq_true, bne_iff_ne, ne_eq, decide_eq_true_eq]
      rw [ih]
      constructor
      · rintro ⟨⟨h1, h2⟩, h3, h4⟩
        refine ⟨List.pairwise_cons.2 ⟨?_, h3⟩, ?_⟩
        · intro e he
          rcases List.mem_cons.1 he with rfl | he
          · exact h2
          · exact lt_trans h2 ((List.pairwise_cons.1 h3).1 e he)
        · intro e he
          rcases List.mem_cons.1 he with rfl | he
          · exact h1
          · exact h4 e he
      · rintro ⟨h1, h2⟩
        obtain ⟨h3, h4⟩ := List.pairwise_cons.1 h1
        exact ⟨⟨h2 c (by simp), h3 d (by simp)⟩, h4, fun e he => h2 e (by simp [List.mem_cons.1 he])⟩

theorem Memory.wf_nil : Memory.wf [] = true := rfl

theorem Memory.wf_filter (m : Memory) (p : Host.Cell → Bool) (h : m.wf = true) : Memory.wf (m.filter p) = true := by
  rw [Memory.wf_iff] at *
  exact ⟨h.1.filter p, fun c hc => h.2 c (List.mem_filter.1 hc).1⟩

theorem Memory.mem_cells (a : Nat) (bs : List Byte) (c : Host.Cell) (h : c ∈ Memory.cells a bs) :
    a ≤ c.1 ∧ c.1 < a + bs.length ∧ c.2 ≠ 0 := by
  induction bs generalizing a with
  | nil => simp [Memory.cells] at h
  | cons b t ih =>
    simp only [Memory.cells] at h
    split at h
    · obtain ⟨h1, h2, h3⟩ := ih (a + 1) h
      exact ⟨by omega, by simp only [List.length_cons]; omega, h3⟩
    · rename_i hb
      rcases List.mem_cons.1 h with rfl | h
      · exact ⟨le_refl _, by simp, hb⟩
      · obtain ⟨h1, h2, h3⟩ := ih (a + 1) h
        exact ⟨by omega, by simp only [List.length_cons]; omega, h3⟩

theorem Memory.wf_cells (a : Nat) (bs : List Byte) : (Memory.cells a bs).wf = true := by
  rw [Memory.wf_iff]
  refine ⟨?_, fun c hc => (Memory.mem_cells a bs c hc).2.2⟩
  induction bs generalizing a with
  | nil => simp [Memory.cells]
  | cons b t ih =>
    simp only [Memory.cells]
    split
    · exact ih (a + 1)
    · refine List.pairwise_cons.2 ⟨fun c hc => ?_, ih (a + 1)⟩
      have := (Memory.mem_cells (a + 1) t c hc).1
      show a < c.1
      omega

/-- A write keeps the canonical form. -/
theorem Memory.wf_write (m : Memory) (a : Nat) (bs : List Byte) (h : m.wf = true) : (m.write a bs).wf = true := by
  have hc := Memory.wf_cells a bs
  rw [Memory.wf_iff] at *
  unfold Memory.write
  refine ⟨?_, ?_⟩
  · rw [List.pairwise_append, List.pairwise_append]
    refine ⟨h.1.filter _, ⟨hc.1, h.1.filter _, ?_⟩, ?_⟩
    · intro c h1 d h2
      have h3 := (Memory.mem_cells a bs c h1).2.1
      have h4 := (List.mem_filter.1 h2).2
      simp only [decide_eq_true_eq] at h4
      exact lt_of_lt_of_le h3 h4
    · intro c h1 d h2
      have h3 := (List.mem_filter.1 h1).2
      simp only [decide_eq_true_eq] at h3
      rcases List.mem_append.1 h2 with h2 | h2
      · exact lt_of_lt_of_le h3 (Memory.mem_cells a bs d h2).1
      · have h4 := (List.mem_filter.1 h2).2
        simp only [decide_eq_true_eq] at h4
        omega
  · intro c h1
    rcases List.mem_append.1 h1 with h1 | h1
    · exact h.2 c (List.mem_filter.1 h1).1
    · rcases List.mem_append.1 h1 with h1 | h1
      · exact hc.2 c h1
      · exact h.2 c (List.mem_filter.1 h1).1

/-- A write of a number keeps the canonical form. -/
theorem Memory.wf_writeN (m : Memory) (a n v : Nat) (h : m.wf = true) : (m.writeN a n v).wf = true := m.wf_write a _ h

/-! ### Reading one byte -/

theorem Memory.get_append (m n : Memory) (x : Nat) (h : ∀ c ∈ m, c.1 ≠ x) : Memory.get (m ++ n) x = n.get x := by
  induction m with
  | nil => rfl
  | cons c t ih =>
    obtain ⟨k, v⟩ := c
    have hk : k ≠ x := h (k, v) (by simp)
    simp only [List.cons_append, Memory.get, hk, if_false]
    exact ih fun c hc => h c (by simp [hc])

theorem Memory.get_none (m : Memory) (x : Nat) (h : ∀ c ∈ m, c.1 ≠ x) : m.get x = 0 := by
  have := Memory.get_append m [] x h
  simpa [Memory.get] using this

theorem Memory.get_filter (m : Memory) (p : Host.Cell → Bool) (x : Nat) (h : ∀ v, p (x, v) = true) : Memory.get (m.filter p) x = m.get x := by
  induction m with
  | nil => rfl
  | cons c t ih =>
    obtain ⟨k, v⟩ := c
    by_cases hk : k = x
    · subst hk
      simp [h, Memory.get]
    · rw [List.filter_cons]
      split
      · simp [Memory.get, hk, ih]
      · simp [Memory.get, hk, ih]

theorem Memory.get_append_left (m n : Memory) (x : Nat) (h : ∀ c ∈ n, c.1 ≠ x) : Memory.get (m ++ n) x = m.get x := by
  induction m with
  | nil => simpa [Memory.get] using Memory.get_none n x h
  | cons c t ih =>
    obtain ⟨k, v⟩ := c
    simp only [List.cons_append, Memory.get, ih]

theorem Memory.get_cells (a : Nat) (bs : List Byte) (x : Nat) (h1 : a ≤ x) (h2 : x < a + bs.length) :
    (Memory.cells a bs).get x = bs.getD (x - a) 0 := by
  induction bs generalizing a with
  | nil => simp at h2; omega
  | cons b t ih =>
    by_cases hx : x = a
    · subst hx
      simp only [Memory.cells]
      split
      · rename_i hb
        rw [Memory.get_none]
        · simp [hb]
        · intro c hc
          have := (Memory.mem_cells _ t c hc).1
          omega
      · simp [Memory.get]
    · have hlt : a + 1 ≤ x := by omega
      have h3 : x < a + 1 + t.length := by simp only [List.length_cons] at h2; omega
      have e : x - a = (x - (a + 1)) + 1 := by omega
      rw [e]
      simp only [Memory.cells, List.getD_cons_succ]
      split
      · exact ih (a + 1) hlt h3
      · simp only [Memory.get, if_neg (Ne.symm hx)]
        exact ih (a + 1) hlt h3

/-- A byte inside the range of a write reads as it was written. -/
theorem Memory.get_write_in (m : Memory) (a : Nat) (bs : List Byte) (x : Nat) (h1 : a ≤ x) (h2 : x < a + bs.length) :
    (m.write a bs).get x = bs.getD (x - a) 0 := by
  unfold Memory.write
  rw [Memory.get_append, Memory.get_append_left]
  · exact Memory.get_cells a bs x h1 h2
  · intro c hc
    have := (List.mem_filter.1 hc).2
    simp only [decide_eq_true_eq] at this
    omega
  · intro c hc
    have := (List.mem_filter.1 hc).2
    simp only [decide_eq_true_eq] at this
    omega

/-- A byte outside the range of a write reads as before. -/
theorem Memory.get_write_out (m : Memory) (a : Nat) (bs : List Byte) (x : Nat) (h : x < a ∨ a + bs.length ≤ x) :
    (m.write a bs).get x = m.get x := by
  unfold Memory.write
  rcases h with h | h
  · rw [Memory.get_append_left]
    · exact Memory.get_filter _ _ _ (by simp [h])
    · intro c hc
      rcases List.mem_append.1 hc with hc | hc
      · have := (Memory.mem_cells a bs c hc).1
        omega
      · have := (List.mem_filter.1 hc).2
        simp only [decide_eq_true_eq] at this
        omega
  · rw [Memory.get_append, Memory.get_append]
    · exact Memory.get_filter _ _ _ (by simp [h])
    · intro c hc
      have := (Memory.mem_cells a bs c hc).2.1
      omega
    · intro c hc
      have := (List.mem_filter.1 hc).2
      simp only [decide_eq_true_eq] at this
      omega

/-! ### Bytes and numbers (R4) -/

@[simp] theorem leBytes_length (n v : Nat) : (leBytes n v).length = n := by
  induction n generalizing v with
  | zero => rfl
  | succ n ih => simp [leBytes, ih]

theorem leNat_leBytes (n v : Nat) : leNat (leBytes n v) = v % 256 ^ n := by
  induction n generalizing v with
  | zero => simp [leBytes, leNat, Nat.mod_one]
  | succ n ih =>
    simp only [leBytes, leNat, BitVec.toNat_ofNat, ih]
    rw [Nat.pow_succ' (m := 256), Nat.mod_mul]

/-- The number that one more byte in front makes. -/
theorem Memory.readN_succ (m : Memory) (a n : Nat) (h : m.wf = true) :
    m.readN a (n + 1) = (m.get a).toNat + 256 * m.readN (a + 1) n := by
  rw [Memory.wf_iff] at h
  obtain ⟨h, -⟩ := h
  have step : ∀ (l : Memory), (∀ c ∈ l, a + 1 ≤ c.1) →
      l.foldr (fun c v => c.2.toNat * 256 ^ (c.1 - a) + v) 0 = 256 * l.foldr (fun c v => c.2.toNat * 256 ^ (c.1 - (a + 1)) + v) 0 := by
    intro l hl
    induction l with
    | nil => rfl
    | cons c t ih =>
      have e : c.1 - a = (c.1 - (a + 1)) + 1 := by have := hl c (by simp); omega
      simp only [List.foldr_cons]
      rw [ih fun c hc => hl c (by simp [hc]), e, pow_succ]
      ring
  unfold Memory.readN Memory.span
  induction m with
  | nil => simp [Memory.get]
  | cons c t ih =>
    obtain ⟨k, v⟩ := c
    obtain ⟨h1, h2⟩ := List.pairwise_cons.1 h
    by_cases hk : k = a
    · subst hk
      have e1 : ((k, v) :: t).filter (fun c => decide (k ≤ c.1) && decide (c.1 < k + (n + 1))) =
          (k, v) :: t.filter (fun c => decide (k + 1 ≤ c.1) && decide (c.1 < k + 1 + n)) := by
        rw [List.filter_cons]
        simp only [le_refl, decide_true, Bool.true_and, decide_eq_true_eq]
        rw [if_pos (by omega)]
        congr 1
        apply List.filter_congr
        intro c hc
        have := h1 c hc
        simp only at this
        have e : (decide (k ≤ c.1)) = decide (k + 1 ≤ c.1) := by simp; omega
        rw [e, show k + (n + 1) = k + 1 + n by omega]
      have e2 : ((k, v) :: t).filter (fun c => decide (k + 1 ≤ c.1) && decide (c.1 < k + 1 + n)) =
          t.filter (fun c => decide (k + 1 ≤ c.1) && decide (c.1 < k + 1 + n)) := by
        rw [List.filter_cons]
        simp
      rw [e1, e2]
      simp only [List.foldr_cons, Nat.sub_self, pow_zero, mul_one, Memory.get, if_true]
      rw [step]
      intro c hc
      have := (List.mem_filter.1 hc).2
      simp only [Bool.and_eq_true, decide_eq_true_eq] at this
      exact this.1
    · have ih' := ih h2
      by_cases hlt : k < a
      · have e1 : ((k, v) :: t).filter (fun c => decide (a ≤ c.1) && decide (c.1 < a + (n + 1))) =
            t.filter (fun c => decide (a ≤ c.1) && decide (c.1 < a + (n + 1))) := by
          rw [List.filter_cons]
          simp only [Bool.and_eq_true, decide_eq_true_eq]
          rw [if_neg (by omega)]
        have e2 : ((k, v) :: t).filter (fun c => decide (a + 1 ≤ c.1) && decide (c.1 < a + 1 + n)) =
            t.filter (fun c => decide (a + 1 ≤ c.1) && decide (c.1 < a + 1 + n)) := by
          rw [List.filter_cons]
          simp only [Bool.and_eq_true, decide_eq_true_eq]
          rw [if_neg (by omega)]
        rw [e1, e2]
        simp only [Memory.get, hk, if_false]
        exact ih'
      · have hgt : a < k := by omega
        have g0 : Memory.get ((k, v) :: t) a = 0 := by
          apply Memory.get_none
          intro c hc
          rcases List.mem_cons.1 hc with rfl | hc
          · exact hk
          · have := h1 c hc
            simp only at this
            omega
        have e1 : ((k, v) :: t).filter (fun c => decide (a ≤ c.1) && decide (c.1 < a + (n + 1))) =
            ((k, v) :: t).filter (fun c => decide (a + 1 ≤ c.1) && decide (c.1 < a + 1 + n)) := by
          apply List.filter_congr
          intro c hc
          have hc' : a < c.1 := by
            rcases List.mem_cons.1 hc with rfl | hc
            · exact hgt
            · have := h1 c hc
              simp only at this
              omega
          have e : (decide (a ≤ c.1)) = decide (a + 1 ≤ c.1) := by simp; omega
          rw [e, show a + (n + 1) = a + 1 + n by omega]
        rw [e1, g0]
        rw [step]
        · simp
        · intro c hc
          have := (List.mem_filter.1 hc).2
          simp only [Bool.and_eq_true, decide_eq_true_eq] at this
          exact this.1

/-- The bytes that a read gives are those at its addresses. -/
theorem Memory.read_eq (m : Memory) (a n : Nat) (h : m.wf = true) : m.read a n = (List.range n).map fun i => m.get (a + i) := by
  unfold Memory.read
  induction n generalizing a with
  | zero => rfl
  | succ n ih =>
    rw [Memory.readN_succ m a n h, leBytes, List.range_succ_eq_map]
    simp only [List.map_cons, List.map_map, Nat.add_zero]
    congr 1
    · apply BitVec.eq_of_toNat_eq
      have := (m.get a).isLt
      simp only [BitVec.toNat_ofNat]
      omega
    · rw [show ((m.get a).toNat + 256 * m.readN (a + 1) n) / 256 = m.readN (a + 1) n by have := (m.get a).isLt; omega]
      rw [ih (a + 1)]
      apply List.map_congr_left
      intro i _
      simp only [Function.comp]
      congr 1
      omega

end Sys2Proof.Machine
end

