-- ==== Sys2Proof/Laws/State.lean ====
section
/-! SUPPORT. What each update of the state and of a strand leaves in each field: one lemma for each field, so that no proof unfolds an
update; and reading back what an update wrote. -/

namespace Sys2Proof.Machine

/-! ### Tables -/

@[simp] theorem Tbl.find?_set_same {α : Type} (t : Tbl α) (n : Nat) (v : α) : (t.set n v).find? n = some v := by
  induction t with
  | nil => simp [Tbl.set, Tbl.find?]
  | cons e t ih =>
    obtain ⟨k, w⟩ := e
    simp only [Tbl.set]
    split
    · simp [Tbl.find?]
    · split
      · simp [Tbl.find?]
      · rename_i h
        simp [Tbl.find?, h, ih]

theorem Tbl.find?_set_other {α : Type} (t : Tbl α) (n m : Nat) (v : α) (h : m ≠ n) : (t.set n v).find? m = t.find? m := by
  induction t with
  | nil => simp [Tbl.set, Tbl.find?, Ne.symm h]
  | cons e t ih =>
    obtain ⟨k, w⟩ := e
    simp only [Tbl.set]
    split
    · simp [Tbl.find?, Ne.symm h]
    · split
      · rename_i hk
        subst hk
        simp [Tbl.find?, Ne.symm h]
      · simp only [Tbl.find?, ih]

@[simp] theorem Tbl.getD_set_same {α : Type} (t : Tbl α) (n : Nat) (v d : α) : (t.set n v).getD n d = v := by
  simp [Tbl.getD]

theorem Tbl.getD_set_other {α : Type} (t : Tbl α) (n m : Nat) (v d : α) (h : m ≠ n) : (t.set n v).getD m d = t.getD m d := by
  simp [Tbl.getD, Tbl.find?_set_other t n m v h]

/-! ### Updates of the state -/

@[simp] theorem State.setStrand_curId (s : State) (g : Nat) (c : Strand) : (s.setStrand g c).curId = s.curId := rfl
@[simp] theorem State.setStrand_arg (s : State) (g : Nat) (c : Strand) : (s.setStrand g c).arg = s.arg := rfl
@[simp] theorem State.setStrand_cores (s : State) (g : Nat) (c : Strand) : (s.setStrand g c).cores = s.cores := rfl
@[simp] theorem State.setStrand_homes (s : State) (g : Nat) (c : Strand) : (s.setStrand g c).homes = s.homes := rfl
@[simp] theorem State.setStrand_dies (s : State) (g : Nat) (c : Strand) : (s.setStrand g c).dies = s.dies := rfl
@[simp] theorem State.setStrand_gangs (s : State) (g : Nat) (c : Strand) : (s.setStrand g c).gangs = s.gangs := rfl
@[simp] theorem State.setStrand_saved (s : State) (g : Nat) (c : Strand) : (s.setStrand g c).saved = s.saved := rfl
@[simp] theorem State.setStrand_pkg (s : State) (g : Nat) (c : Strand) : (s.setStrand g c).pkg = s.pkg := rfl
@[simp] theorem State.setStrand_mem (s : State) (g : Nat) (c : Strand) : (s.setStrand g c).mem = s.mem := rfl
@[simp] theorem State.setStrand_poison (s : State) (g : Nat) (c : Strand) : (s.setStrand g c).poison = s.poison := rfl
@[simp] theorem State.setStrand_eccBad (s : State) (g : Nat) (c : Strand) : (s.setStrand g c).eccBad = s.eccBad := rfl
@[simp] theorem State.setStrand_eccSoft (s : State) (g : Nat) (c : Strand) : (s.setStrand g c).eccSoft = s.eccSoft := rfl
@[simp] theorem State.setStrand_reqs (s : State) (g : Nat) (c : Strand) : (s.setStrand g c).reqs = s.reqs := rfl
@[simp] theorem State.setStrand_msgs (s : State) (g : Nat) (c : Strand) : (s.setStrand g c).msgs = s.msgs := rfl
@[simp] theorem State.setStrand_nextId (s : State) (g : Nat) (c : Strand) : (s.setStrand g c).nextId = s.nextId := rfl
@[simp] theorem State.setStrand_pages (s : State) (g : Nat) (c : Strand) : (s.setStrand g c).pages = s.pages := rfl
@[simp] theorem State.setStrand_cycleRegs (s : State) (g : Nat) (c : Strand) : (s.setStrand g c).cycleRegs = s.cycleRegs := rfl
@[simp] theorem State.setStrand_snap (s : State) (g : Nat) (c : Strand) : (s.setStrand g c).snap = s.snap := rfl
@[simp] theorem State.setStrand_now (s : State) (g : Nat) (c : Strand) : (s.setStrand g c).now = s.now := rfl
@[simp] theorem State.setStrand_inputs (s : State) (g : Nat) (c : Strand) : (s.setStrand g c).inputs = s.inputs := rfl
@[simp] theorem State.setStrand_cal (s : State) (g : Nat) (c : Strand) : (s.setStrand g c).cal = s.cal := rfl
@[simp] theorem State.setStrand_issueQ (s : State) (g : Nat) (c : Strand) : (s.setStrand g c).issueQ = s.issueQ := rfl
@[simp] theorem State.setStrand_outs (s : State) (g : Nat) (c : Strand) : (s.setStrand g c).outs = s.outs := rfl

@[simp] theorem State.setCur_curId (s : State) (c : Strand) : (s.setCur c).curId = s.curId := rfl
@[simp] theorem State.setCur_arg (s : State) (c : Strand) : (s.setCur c).arg = s.arg := rfl
@[simp] theorem State.setCur_cores (s : State) (c : Strand) : (s.setCur c).cores = s.cores := rfl
@[simp] theorem State.setCur_homes (s : State) (c : Strand) : (s.setCur c).homes = s.homes := rfl
@[simp] theorem State.setCur_dies (s : State) (c : Strand) : (s.setCur c).dies = s.dies := rfl
@[simp] theorem State.setCur_gangs (s : State) (c : Strand) : (s.setCur c).gangs = s.gangs := rfl
@[simp] theorem State.setCur_saved (s : State) (c : Strand) : (s.setCur c).saved = s.saved := rfl
@[simp] theorem State.setCur_pkg (s : State) (c : Strand) : (s.setCur c).pkg = s.pkg := rfl
@[simp] theorem State.setCur_mem (s : State) (c : Strand) : (s.setCur c).mem = s.mem := rfl
@[simp] theorem State.setCur_poison (s : State) (c : Strand) : (s.setCur c).poison = s.poison := rfl
@[simp] theorem State.setCur_eccBad (s : State) (c : Strand) : (s.setCur c).eccBad = s.eccBad := rfl
@[simp] theorem State.setCur_eccSoft (s : State) (c : Strand) : (s.setCur c).eccSoft = s.eccSoft := rfl
@[simp] theorem State.setCur_reqs (s : State) (c : Strand) : (s.setCur c).reqs = s.reqs := rfl
@[simp] theorem State.setCur_msgs (s : State) (c : Strand) : (s.setCur c).msgs = s.msgs := rfl
@[simp] theorem State.setCur_nextId (s : State) (c : Strand) : (s.setCur c).nextId = s.nextId := rfl
@[simp] theorem State.setCur_pages (s : State) (c : Strand) : (s.setCur c).pages = s.pages := rfl
@[simp] theorem State.setCur_cycleRegs (s : State) (c : Strand) : (s.setCur c).cycleRegs = s.cycleRegs := rfl
@[simp] theorem State.setCur_snap (s : State) (c : Strand) : (s.setCur c).snap = s.snap := rfl
@[simp] theorem State.setCur_now (s : State) (c : Strand) : (s.setCur c).now = s.now := rfl
@[simp] theorem State.setCur_inputs (s : State) (c : Strand) : (s.setCur c).inputs = s.inputs := rfl
@[simp] theorem State.setCur_cal (s : State) (c : Strand) : (s.setCur c).cal = s.cal := rfl
@[simp] theorem State.setCur_issueQ (s : State) (c : Strand) : (s.setCur c).issueQ = s.issueQ := rfl
@[simp] theorem State.setCur_outs (s : State) (c : Strand) : (s.setCur c).outs = s.outs := rfl

@[simp] theorem State.modStrand_curId (s : State) (g : Nat) (f : Strand → Strand) : (s.modStrand g f).curId = s.curId := rfl
@[simp] theorem State.modStrand_arg (s : State) (g : Nat) (f : Strand → Strand) : (s.modStrand g f).arg = s.arg := rfl
@[simp] theorem State.modStrand_cores (s : State) (g : Nat) (f : Strand → Strand) : (s.modStrand g f).cores = s.cores := rfl
@[simp] theorem State.modStrand_homes (s : State) (g : Nat) (f : Strand → Strand) : (s.modStrand g f).homes = s.homes := rfl
@[simp] theorem State.modStrand_dies (s : State) (g : Nat) (f : Strand → Strand) : (s.modStrand g f).dies = s.dies := rfl
@[simp] theorem State.modStrand_gangs (s : State) (g : Nat) (f : Strand → Strand) : (s.modStrand g f).gangs = s.gangs := rfl
@[simp] theorem State.modStrand_saved (s : State) (g : Nat) (f : Strand → Strand) : (s.modStrand g f).saved = s.saved := rfl
@[simp] theorem State.modStrand_pkg (s : State) (g : Nat) (f : Strand → Strand) : (s.modStrand g f).pkg = s.pkg := rfl
@[simp] theorem State.modStrand_mem (s : State) (g : Nat) (f : Strand → Strand) : (s.modStrand g f).mem = s.mem := rfl
@[simp] theorem State.modStrand_poison (s : State) (g : Nat) (f : Strand → Strand) : (s.modStrand g f).poison = s.poison := rfl
@[simp] theorem State.modStrand_eccBad (s : State) (g : Nat) (f : Strand → Strand) : (s.modStrand g f).eccBad = s.eccBad := rfl
@[simp] theorem State.modStrand_eccSoft (s : State) (g : Nat) (f : Strand → Strand) : (s.modStrand g f).eccSoft = s.eccSoft := rfl
@[simp] theorem State.modStrand_reqs (s : State) (g : Nat) (f : Strand → Strand) : (s.modStrand g f).reqs = s.reqs := rfl
@[simp] theorem State.modStrand_msgs (s : State) (g : Nat) (f : Strand → Strand) : (s.modStrand g f).msgs = s.msgs := rfl
@[simp] theorem State.modStrand_nextId (s : State) (g : Nat) (f : Strand → Strand) : (s.modStrand g f).nextId = s.nextId := rfl
@[simp] theorem State.modStrand_pages (s : State) (g : Nat) (f : Strand → Strand) : (s.modStrand g f).pages = s.pages := rfl
@[simp] theorem State.modStrand_cycleRegs (s : State) (g : Nat) (f : Strand → Strand) : (s.modStrand g f).cycleRegs = s.cycleRegs := rfl
@[simp] theorem State.modStrand_snap (s : State) (g : Nat) (f : Strand → Strand) : (s.modStrand g f).snap = s.snap := rfl
@[simp] theorem State.modStrand_now (s : State) (g : Nat) (f : Strand → Strand) : (s.modStrand g f).now = s.now := rfl
@[simp] theorem State.modStrand_inputs (s : State) (g : Nat) (f : Strand → Strand) : (s.modStrand g f).inputs = s.inputs := rfl
@[simp] theorem State.modStrand_cal (s : State) (g : Nat) (f : Strand → Strand) : (s.modStrand g f).cal = s.cal := rfl
@[simp] theorem State.modStrand_issueQ (s : State) (g : Nat) (f : Strand → Strand) : (s.modStrand g f).issueQ = s.issueQ := rfl
@[simp] theorem State.modStrand_outs (s : State) (g : Nat) (f : Strand → Strand) : (s.modStrand g f).outs = s.outs := rfl

@[simp] theorem State.setCore_curId (s : State) (g : Nat) (k : Core) : (s.setCore g k).curId = s.curId := rfl
@[simp] theorem State.setCore_arg (s : State) (g : Nat) (k : Core) : (s.setCore g k).arg = s.arg := rfl
@[simp] theorem State.setCore_strands (s : State) (g : Nat) (k : Core) : (s.setCore g k).strands = s.strands := rfl
@[simp] theorem State.setCore_homes (s : State) (g : Nat) (k : Core) : (s.setCore g k).homes = s.homes := rfl
@[simp] theorem State.setCore_dies (s : State) (g : Nat) (k : Core) : (s.setCore g k).dies = s.dies := rfl
@[simp] theorem State.setCore_gangs (s : State) (g : Nat) (k : Core) : (s.setCore g k).gangs = s.gangs := rfl
@[simp] theorem State.setCore_saved (s : State) (g : Nat) (k : Core) : (s.setCore g k).saved = s.saved := rfl
@[simp] theorem State.setCore_pkg (s : State) (g : Nat) (k : Core) : (s.setCore g k).pkg = s.pkg := rfl
@[simp] theorem State.setCore_mem (s : State) (g : Nat) (k : Core) : (s.setCore g k).mem = s.mem := rfl
@[simp] theorem State.setCore_poison (s : State) (g : Nat) (k : Core) : (s.setCore g k).poison = s.poison := rfl
@[simp] theorem State.setCore_eccBad (s : State) (g : Nat) (k : Core) : (s.setCore g k).eccBad = s.eccBad := rfl
@[simp] theorem State.setCore_eccSoft (s : State) (g : Nat) (k : Core) : (s.setCore g k).eccSoft = s.eccSoft := rfl
@[simp] theorem State.setCore_reqs (s : State) (g : Nat) (k : Core) : (s.setCore g k).reqs = s.reqs := rfl
@[simp] theorem State.setCore_msgs (s : State) (g : Nat) (k : Core) : (s.setCore g k).msgs = s.msgs := rfl
@[simp] theorem State.setCore_nextId (s : State) (g : Nat) (k : Core) : (s.setCore g k).nextId = s.nextId := rfl
@[simp] theorem State.setCore_pages (s : State) (g : Nat) (k : Core) : (s.setCore g k).pages = s.pages := rfl
@[simp] theorem State.setCore_cycleRegs (s : State) (g : Nat) (k : Core) : (s.setCore g k).cycleRegs = s.cycleRegs := rfl
@[simp] theorem State.setCore_snap (s : State) (g : Nat) (k : Core) : (s.setCore g k).snap = s.snap := rfl
@[simp] theorem State.setCore_now (s : State) (g : Nat) (k : Core) : (s.setCore g k).now = s.now := rfl
@[simp] theorem State.setCore_inputs (s : State) (g : Nat) (k : Core) : (s.setCore g k).inputs = s.inputs := rfl
@[simp] theorem State.setCore_cal (s : State) (g : Nat) (k : Core) : (s.setCore g k).cal = s.cal := rfl
@[simp] theorem State.setCore_issueQ (s : State) (g : Nat) (k : Core) : (s.setCore g k).issueQ = s.issueQ := rfl
@[simp] theorem State.setCore_outs (s : State) (g : Nat) (k : Core) : (s.setCore g k).outs = s.outs := rfl

@[simp] theorem State.modCore_curId (s : State) (g : Nat) (f : Core → Core) : (s.modCore g f).curId = s.curId := rfl
@[simp] theorem State.modCore_arg (s : State) (g : Nat) (f : Core → Core) : (s.modCore g f).arg = s.arg := rfl
@[simp] theorem State.modCore_strands (s : State) (g : Nat) (f : Core → Core) : (s.modCore g f).strands = s.strands := rfl
@[simp] theorem State.modCore_homes (s : State) (g : Nat) (f : Core → Core) : (s.modCore g f).homes = s.homes := rfl
@[simp] theorem State.modCore_dies (s : State) (g : Nat) (f : Core → Core) : (s.modCore g f).dies = s.dies := rfl
@[simp] theorem State.modCore_gangs (s : State) (g : Nat) (f : Core → Core) : (s.modCore g f).gangs = s.gangs := rfl
@[simp] theorem State.modCore_saved (s : State) (g : Nat) (f : Core → Core) : (s.modCore g f).saved = s.saved := rfl
@[simp] theorem State.modCore_pkg (s : State) (g : Nat) (f : Core → Core) : (s.modCore g f).pkg = s.pkg := rfl
@[simp] theorem State.modCore_mem (s : State) (g : Nat) (f : Core → Core) : (s.modCore g f).mem = s.mem := rfl
@[simp] theorem State.modCore_poison (s : State) (g : Nat) (f : Core → Core) : (s.modCore g f).poison = s.poison := rfl
@[simp] theorem State.modCore_eccBad (s : State) (g : Nat) (f : Core → Core) : (s.modCore g f).eccBad = s.eccBad := rfl
@[simp] theorem State.modCore_eccSoft (s : State) (g : Nat) (f : Core → Core) : (s.modCore g f).eccSoft = s.eccSoft := rfl
@[simp] theorem State.modCore_reqs (s : State) (g : Nat) (f : Core → Core) : (s.modCore g f).reqs = s.reqs := rfl
@[simp] theorem State.modCore_msgs (s : State) (g : Nat) (f : Core → Core) : (s.modCore g f).msgs = s.msgs := rfl
@[simp] theorem State.modCore_nextId (s : State) (g : Nat) (f : Core → Core) : (s.modCore g f).nextId = s.nextId := rfl
@[simp] theorem State.modCore_pages (s : State) (g : Nat) (f : Core → Core) : (s.modCore g f).pages = s.pages := rfl
@[simp] theorem State.modCore_cycleRegs (s : State) (g : Nat) (f : Core → Core) : (s.modCore g f).cycleRegs = s.cycleRegs := rfl
@[simp] theorem State.modCore_snap (s : State) (g : Nat) (f : Core → Core) : (s.modCore g f).snap = s.snap := rfl
@[simp] theorem State.modCore_now (s : State) (g : Nat) (f : Core → Core) : (s.modCore g f).now = s.now := rfl
@[simp] theorem State.modCore_inputs (s : State) (g : Nat) (f : Core → Core) : (s.modCore g f).inputs = s.inputs := rfl
@[simp] theorem State.modCore_cal (s : State) (g : Nat) (f : Core → Core) : (s.modCore g f).cal = s.cal := rfl
@[simp] theorem State.modCore_issueQ (s : State) (g : Nat) (f : Core → Core) : (s.modCore g f).issueQ = s.issueQ := rfl
@[simp] theorem State.modCore_outs (s : State) (g : Nat) (f : Core → Core) : (s.modCore g f).outs = s.outs := rfl

@[simp] theorem State.setHome_curId (s : State) (g : Nat) (x : Home) : (s.setHome g x).curId = s.curId := rfl
@[simp] theorem State.setHome_arg (s : State) (g : Nat) (x : Home) : (s.setHome g x).arg = s.arg := rfl
@[simp] theorem State.setHome_strands (s : State) (g : Nat) (x : Home) : (s.setHome g x).strands = s.strands := rfl
@[simp] theorem State.setHome_cores (s : State) (g : Nat) (x : Home) : (s.setHome g x).cores = s.cores := rfl
@[simp] theorem State.setHome_dies (s : State) (g : Nat) (x : Home) : (s.setHome g x).dies = s.dies := rfl
@[simp] theorem State.setHome_gangs (s : State) (g : Nat) (x : Home) : (s.setHome g x).gangs = s.gangs := rfl
@[simp] theorem State.setHome_saved (s : State) (g : Nat) (x : Home) : (s.setHome g x).saved = s.saved := rfl
@[simp] theorem State.setHome_pkg (s : State) (g : Nat) (x : Home) : (s.setHome g x).pkg = s.pkg := rfl
@[simp] theorem State.setHome_mem (s : State) (g : Nat) (x : Home) : (s.setHome g x).mem = s.mem := rfl
@[simp] theorem State.setHome_poison (s : State) (g : Nat) (x : Home) : (s.setHome g x).poison = s.poison := rfl
@[simp] theorem State.setHome_eccBad (s : State) (g : Nat) (x : Home) : (s.setHome g x).eccBad = s.eccBad := rfl
@[simp] theorem State.setHome_eccSoft (s : State) (g : Nat) (x : Home) : (s.setHome g x).eccSoft = s.eccSoft := rfl
@[simp] theorem State.setHome_reqs (s : State) (g : Nat) (x : Home) : (s.setHome g x).reqs = s.reqs := rfl
@[simp] theorem State.setHome_msgs (s : State) (g : Nat) (x : Home) : (s.setHome g x).msgs = s.msgs := rfl
@[simp] theorem State.setHome_nextId (s : State) (g : Nat) (x : Home) : (s.setHome g x).nextId = s.nextId := rfl
@[simp] theorem State.setHome_pages (s : State) (g : Nat) (x : Home) : (s.setHome g x).pages = s.pages := rfl
@[simp] theorem State.setHome_cycleRegs (s : State) (g : Nat) (x : Home) : (s.setHome g x).cycleRegs = s.cycleRegs := rfl
@[simp] theorem State.setHome_snap (s : State) (g : Nat) (x : Home) : (s.setHome g x).snap = s.snap := rfl
@[simp] theorem State.setHome_now (s : State) (g : Nat) (x : Home) : (s.setHome g x).now = s.now := rfl
@[simp] theorem State.setHome_inputs (s : State) (g : Nat) (x : Home) : (s.setHome g x).inputs = s.inputs := rfl
@[simp] theorem State.setHome_cal (s : State) (g : Nat) (x : Home) : (s.setHome g x).cal = s.cal := rfl
@[simp] theorem State.setHome_issueQ (s : State) (g : Nat) (x : Home) : (s.setHome g x).issueQ = s.issueQ := rfl
@[simp] theorem State.setHome_outs (s : State) (g : Nat) (x : Home) : (s.setHome g x).outs = s.outs := rfl

@[simp] theorem State.modHome_curId (s : State) (g : Nat) (f : Home → Home) : (s.modHome g f).curId = s.curId := rfl
@[simp] theorem State.modHome_arg (s : State) (g : Nat) (f : Home → Home) : (s.modHome g f).arg = s.arg := rfl
@[simp] theorem State.modHome_strands (s : State) (g : Nat) (f : Home → Home) : (s.modHome g f).strands = s.strands := rfl
@[simp] theorem State.modHome_cores (s : State) (g : Nat) (f : Home → Home) : (s.modHome g f).cores = s.cores := rfl
@[simp] theorem State.modHome_dies (s : State) (g : Nat) (f : Home → Home) : (s.modHome g f).dies = s.dies := rfl
@[simp] theorem State.modHome_gangs (s : State) (g : Nat) (f : Home → Home) : (s.modHome g f).gangs = s.gangs := rfl
@[simp] theorem State.modHome_saved (s : State) (g : Nat) (f : Home → Home) : (s.modHome g f).saved = s.saved := rfl
@[simp] theorem State.modHome_pkg (s : State) (g : Nat) (f : Home → Home) : (s.modHome g f).pkg = s.pkg := rfl
@[simp] theorem State.modHome_mem (s : State) (g : Nat) (f : Home → Home) : (s.modHome g f).mem = s.mem := rfl
@[simp] theorem State.modHome_poison (s : State) (g : Nat) (f : Home → Home) : (s.modHome g f).poison = s.poison := rfl
@[simp] theorem State.modHome_eccBad (s : State) (g : Nat) (f : Home → Home) : (s.modHome g f).eccBad = s.eccBad := rfl
@[simp] theorem State.modHome_eccSoft (s : State) (g : Nat) (f : Home → Home) : (s.modHome g f).eccSoft = s.eccSoft := rfl
@[simp] theorem State.modHome_reqs (s : State) (g : Nat) (f : Home → Home) : (s.modHome g f).reqs = s.reqs := rfl
@[simp] theorem State.modHome_msgs (s : State) (g : Nat) (f : Home → Home) : (s.modHome g f).msgs = s.msgs := rfl
@[simp] theorem State.modHome_nextId (s : State) (g : Nat) (f : Home → Home) : (s.modHome g f).nextId = s.nextId := rfl
@[simp] theorem State.modHome_pages (s : State) (g : Nat) (f : Home → Home) : (s.modHome g f).pages = s.pages := rfl
@[simp] theorem State.modHome_cycleRegs (s : State) (g : Nat) (f : Home → Home) : (s.modHome g f).cycleRegs = s.cycleRegs := rfl
@[simp] theorem State.modHome_snap (s : State) (g : Nat) (f : Home → Home) : (s.modHome g f).snap = s.snap := rfl
@[simp] theorem State.modHome_now (s : State) (g : Nat) (f : Home → Home) : (s.modHome g f).now = s.now := rfl
@[simp] theorem State.modHome_inputs (s : State) (g : Nat) (f : Home → Home) : (s.modHome g f).inputs = s.inputs := rfl
@[simp] theorem State.modHome_cal (s : State) (g : Nat) (f : Home → Home) : (s.modHome g f).cal = s.cal := rfl
@[simp] theorem State.modHome_issueQ (s : State) (g : Nat) (f : Home → Home) : (s.modHome g f).issueQ = s.issueQ := rfl
@[simp] theorem State.modHome_outs (s : State) (g : Nat) (f : Home → Home) : (s.modHome g f).outs = s.outs := rfl

@[simp] theorem State.setDie_curId (s : State) (d : Nat) (x : Die) : (s.setDie d x).curId = s.curId := rfl
@[simp] theorem State.setDie_arg (s : State) (d : Nat) (x : Die) : (s.setDie d x).arg = s.arg := rfl
@[simp] theorem State.setDie_strands (s : State) (d : Nat) (x : Die) : (s.setDie d x).strands = s.strands := rfl
@[simp] theorem State.setDie_cores (s : State) (d : Nat) (x : Die) : (s.setDie d x).cores = s.cores := rfl
@[simp] theorem State.setDie_homes (s : State) (d : Nat) (x : Die) : (s.setDie d x).homes = s.homes := rfl
@[simp] theorem State.setDie_gangs (s : State) (d : Nat) (x : Die) : (s.setDie d x).gangs = s.gangs := rfl
@[simp] theorem State.setDie_saved (s : State) (d : Nat) (x : Die) : (s.setDie d x).saved = s.saved := rfl
@[simp] theorem State.setDie_pkg (s : State) (d : Nat) (x : Die) : (s.setDie d x).pkg = s.pkg := rfl
@[simp] theorem State.setDie_mem (s : State) (d : Nat) (x : Die) : (s.setDie d x).mem = s.mem := rfl
@[simp] theorem State.setDie_poison (s : State) (d : Nat) (x : Die) : (s.setDie d x).poison = s.poison := rfl
@[simp] theorem State.setDie_eccBad (s : State) (d : Nat) (x : Die) : (s.setDie d x).eccBad = s.eccBad := rfl
@[simp] theorem State.setDie_eccSoft (s : State) (d : Nat) (x : Die) : (s.setDie d x).eccSoft = s.eccSoft := rfl
@[simp] theorem State.setDie_reqs (s : State) (d : Nat) (x : Die) : (s.setDie d x).reqs = s.reqs := rfl
@[simp] theorem State.setDie_msgs (s : State) (d : Nat) (x : Die) : (s.setDie d x).msgs = s.msgs := rfl
@[simp] theorem State.setDie_nextId (s : State) (d : Nat) (x : Die) : (s.setDie d x).nextId = s.nextId := rfl
@[simp] theorem State.setDie_pages (s : State) (d : Nat) (x : Die) : (s.setDie d x).pages = s.pages := rfl
@[simp] theorem State.setDie_cycleRegs (s : State) (d : Nat) (x : Die) : (s.setDie d x).cycleRegs = s.cycleRegs := rfl
@[simp] theorem State.setDie_snap (s : State) (d : Nat) (x : Die) : (s.setDie d x).snap = s.snap := rfl
@[simp] theorem State.setDie_now (s : State) (d : Nat) (x : Die) : (s.setDie d x).now = s.now := rfl
@[simp] theorem State.setDie_inputs (s : State) (d : Nat) (x : Die) : (s.setDie d x).inputs = s.inputs := rfl
@[simp] theorem State.setDie_cal (s : State) (d : Nat) (x : Die) : (s.setDie d x).cal = s.cal := rfl
@[simp] theorem State.setDie_issueQ (s : State) (d : Nat) (x : Die) : (s.setDie d x).issueQ = s.issueQ := rfl
@[simp] theorem State.setDie_outs (s : State) (d : Nat) (x : Die) : (s.setDie d x).outs = s.outs := rfl

@[simp] theorem State.modDie_curId (s : State) (d : Nat) (f : Die → Die) : (s.modDie d f).curId = s.curId := rfl
@[simp] theorem State.modDie_arg (s : State) (d : Nat) (f : Die → Die) : (s.modDie d f).arg = s.arg := rfl
@[simp] theorem State.modDie_strands (s : State) (d : Nat) (f : Die → Die) : (s.modDie d f).strands = s.strands := rfl
@[simp] theorem State.modDie_cores (s : State) (d : Nat) (f : Die → Die) : (s.modDie d f).cores = s.cores := rfl
@[simp] theorem State.modDie_homes (s : State) (d : Nat) (f : Die → Die) : (s.modDie d f).homes = s.homes := rfl
@[simp] theorem State.modDie_gangs (s : State) (d : Nat) (f : Die → Die) : (s.modDie d f).gangs = s.gangs := rfl
@[simp] theorem State.modDie_saved (s : State) (d : Nat) (f : Die → Die) : (s.modDie d f).saved = s.saved := rfl
@[simp] theorem State.modDie_pkg (s : State) (d : Nat) (f : Die → Die) : (s.modDie d f).pkg = s.pkg := rfl
@[simp] theorem State.modDie_mem (s : State) (d : Nat) (f : Die → Die) : (s.modDie d f).mem = s.mem := rfl
@[simp] theorem State.modDie_poison (s : State) (d : Nat) (f : Die → Die) : (s.modDie d f).poison = s.poison := rfl
@[simp] theorem State.modDie_eccBad (s : State) (d : Nat) (f : Die → Die) : (s.modDie d f).eccBad = s.eccBad := rfl
@[simp] theorem State.modDie_eccSoft (s : State) (d : Nat) (f : Die → Die) : (s.modDie d f).eccSoft = s.eccSoft := rfl
@[simp] theorem State.modDie_reqs (s : State) (d : Nat) (f : Die → Die) : (s.modDie d f).reqs = s.reqs := rfl
@[simp] theorem State.modDie_msgs (s : State) (d : Nat) (f : Die → Die) : (s.modDie d f).msgs = s.msgs := rfl
@[simp] theorem State.modDie_nextId (s : State) (d : Nat) (f : Die → Die) : (s.modDie d f).nextId = s.nextId := rfl
@[simp] theorem State.modDie_pages (s : State) (d : Nat) (f : Die → Die) : (s.modDie d f).pages = s.pages := rfl
@[simp] theorem State.modDie_cycleRegs (s : State) (d : Nat) (f : Die → Die) : (s.modDie d f).cycleRegs = s.cycleRegs := rfl
@[simp] theorem State.modDie_snap (s : State) (d : Nat) (f : Die → Die) : (s.modDie d f).snap = s.snap := rfl
@[simp] theorem State.modDie_now (s : State) (d : Nat) (f : Die → Die) : (s.modDie d f).now = s.now := rfl
@[simp] theorem State.modDie_inputs (s : State) (d : Nat) (f : Die → Die) : (s.modDie d f).inputs = s.inputs := rfl
@[simp] theorem State.modDie_cal (s : State) (d : Nat) (f : Die → Die) : (s.modDie d f).cal = s.cal := rfl
@[simp] theorem State.modDie_issueQ (s : State) (d : Nat) (f : Die → Die) : (s.modDie d f).issueQ = s.issueQ := rfl
@[simp] theorem State.modDie_outs (s : State) (d : Nat) (f : Die → Die) : (s.modDie d f).outs = s.outs := rfl

@[simp] theorem State.modGang_curId (s : State) (g : Nat) (f : Gang → Gang) : (s.modGang g f).curId = s.curId := rfl
@[simp] theorem State.modGang_arg (s : State) (g : Nat) (f : Gang → Gang) : (s.modGang g f).arg = s.arg := rfl
@[simp] theorem State.modGang_strands (s : State) (g : Nat) (f : Gang → Gang) : (s.modGang g f).strands = s.strands := rfl
@[simp] theorem State.modGang_cores (s : State) (g : Nat) (f : Gang → Gang) : (s.modGang g f).cores = s.cores := rfl
@[simp] theorem State.modGang_homes (s : State) (g : Nat) (f : Gang → Gang) : (s.modGang g f).homes = s.homes := rfl
@[simp] theorem State.modGang_dies (s : State) (g : Nat) (f : Gang → Gang) : (s.modGang g f).dies = s.dies := rfl
@[simp] theorem State.modGang_saved (s : State) (g : Nat) (f : Gang → Gang) : (s.modGang g f).saved = s.saved := rfl
@[simp] theorem State.modGang_pkg (s : State) (g : Nat) (f : Gang → Gang) : (s.modGang g f).pkg = s.pkg := rfl
@[simp] theorem State.modGang_mem (s : State) (g : Nat) (f : Gang → Gang) : (s.modGang g f).mem = s.mem := rfl
@[simp] theorem State.modGang_poison (s : State) (g : Nat) (f : Gang → Gang) : (s.modGang g f).poison = s.poison := rfl
@[simp] theorem State.modGang_eccBad (s : State) (g : Nat) (f : Gang → Gang) : (s.modGang g f).eccBad = s.eccBad := rfl
@[simp] theorem State.modGang_eccSoft (s : State) (g : Nat) (f : Gang → Gang) : (s.modGang g f).eccSoft = s.eccSoft := rfl
@[simp] theorem State.modGang_reqs (s : State) (g : Nat) (f : Gang → Gang) : (s.modGang g f).reqs = s.reqs := rfl
@[simp] theorem State.modGang_msgs (s : State) (g : Nat) (f : Gang → Gang) : (s.modGang g f).msgs = s.msgs := rfl
@[simp] theorem State.modGang_nextId (s : State) (g : Nat) (f : Gang → Gang) : (s.modGang g f).nextId = s.nextId := rfl
@[simp] theorem State.modGang_pages (s : State) (g : Nat) (f : Gang → Gang) : (s.modGang g f).pages = s.pages := rfl
@[simp] theorem State.modGang_cycleRegs (s : State) (g : Nat) (f : Gang → Gang) : (s.modGang g f).cycleRegs = s.cycleRegs := rfl
@[simp] theorem State.modGang_snap (s : State) (g : Nat) (f : Gang → Gang) : (s.modGang g f).snap = s.snap := rfl
@[simp] theorem State.modGang_now (s : State) (g : Nat) (f : Gang → Gang) : (s.modGang g f).now = s.now := rfl
@[simp] theorem State.modGang_inputs (s : State) (g : Nat) (f : Gang → Gang) : (s.modGang g f).inputs = s.inputs := rfl
@[simp] theorem State.modGang_cal (s : State) (g : Nat) (f : Gang → Gang) : (s.modGang g f).cal = s.cal := rfl
@[simp] theorem State.modGang_issueQ (s : State) (g : Nat) (f : Gang → Gang) : (s.modGang g f).issueQ = s.issueQ := rfl
@[simp] theorem State.modGang_outs (s : State) (g : Nat) (f : Gang → Gang) : (s.modGang g f).outs = s.outs := rfl

@[simp] theorem State.modPkg_curId (s : State) (f : Pkg → Pkg) : (s.modPkg f).curId = s.curId := rfl
@[simp] theorem State.modPkg_arg (s : State) (f : Pkg → Pkg) : (s.modPkg f).arg = s.arg := rfl
@[simp] theorem State.modPkg_strands (s : State) (f : Pkg → Pkg) : (s.modPkg f).strands = s.strands := rfl
@[simp] theorem State.modPkg_cores (s : State) (f : Pkg → Pkg) : (s.modPkg f).cores = s.cores := rfl
@[simp] theorem State.modPkg_homes (s : State) (f : Pkg → Pkg) : (s.modPkg f).homes = s.homes := rfl
@[simp] theorem State.modPkg_dies (s : State) (f : Pkg → Pkg) : (s.modPkg f).dies = s.dies := rfl
@[simp] theorem State.modPkg_gangs (s : State) (f : Pkg → Pkg) : (s.modPkg f).gangs = s.gangs := rfl
@[simp] theorem State.modPkg_saved (s : State) (f : Pkg → Pkg) : (s.modPkg f).saved = s.saved := rfl
@[simp] theorem State.modPkg_mem (s : State) (f : Pkg → Pkg) : (s.modPkg f).mem = s.mem := rfl
@[simp] theorem State.modPkg_poison (s : State) (f : Pkg → Pkg) : (s.modPkg f).poison = s.poison := rfl
@[simp] theorem State.modPkg_eccBad (s : State) (f : Pkg → Pkg) : (s.modPkg f).eccBad = s.eccBad := rfl
@[simp] theorem State.modPkg_eccSoft (s : State) (f : Pkg → Pkg) : (s.modPkg f).eccSoft = s.eccSoft := rfl
@[simp] theorem State.modPkg_reqs (s : State) (f : Pkg → Pkg) : (s.modPkg f).reqs = s.reqs := rfl
@[simp] theorem State.modPkg_msgs (s : State) (f : Pkg → Pkg) : (s.modPkg f).msgs = s.msgs := rfl
@[simp] theorem State.modPkg_nextId (s : State) (f : Pkg → Pkg) : (s.modPkg f).nextId = s.nextId := rfl
@[simp] theorem State.modPkg_pages (s : State) (f : Pkg → Pkg) : (s.modPkg f).pages = s.pages := rfl
@[simp] theorem State.modPkg_cycleRegs (s : State) (f : Pkg → Pkg) : (s.modPkg f).cycleRegs = s.cycleRegs := rfl
@[simp] theorem State.modPkg_snap (s : State) (f : Pkg → Pkg) : (s.modPkg f).snap = s.snap := rfl
@[simp] theorem State.modPkg_now (s : State) (f : Pkg → Pkg) : (s.modPkg f).now = s.now := rfl
@[simp] theorem State.modPkg_inputs (s : State) (f : Pkg → Pkg) : (s.modPkg f).inputs = s.inputs := rfl
@[simp] theorem State.modPkg_cal (s : State) (f : Pkg → Pkg) : (s.modPkg f).cal = s.cal := rfl
@[simp] theorem State.modPkg_issueQ (s : State) (f : Pkg → Pkg) : (s.modPkg f).issueQ = s.issueQ := rfl
@[simp] theorem State.modPkg_outs (s : State) (f : Pkg → Pkg) : (s.modPkg f).outs = s.outs := rfl

@[simp] theorem State.out_curId (s : State) (o : Output) : (s.out o).curId = s.curId := rfl
@[simp] theorem State.out_arg (s : State) (o : Output) : (s.out o).arg = s.arg := rfl
@[simp] theorem State.out_strands (s : State) (o : Output) : (s.out o).strands = s.strands := rfl
@[simp] theorem State.out_cores (s : State) (o : Output) : (s.out o).cores = s.cores := rfl
@[simp] theorem State.out_homes (s : State) (o : Output) : (s.out o).homes = s.homes := rfl
@[simp] theorem State.out_dies (s : State) (o : Output) : (s.out o).dies = s.dies := rfl
@[simp] theorem State.out_gangs (s : State) (o : Output) : (s.out o).gangs = s.gangs := rfl
@[simp] theorem State.out_saved (s : State) (o : Output) : (s.out o).saved = s.saved := rfl
@[simp] theorem State.out_pkg (s : State) (o : Output) : (s.out o).pkg = s.pkg := rfl
@[simp] theorem State.out_mem (s : State) (o : Output) : (s.out o).mem = s.mem := rfl
@[simp] theorem State.out_poison (s : State) (o : Output) : (s.out o).poison = s.poison := rfl
@[simp] theorem State.out_eccBad (s : State) (o : Output) : (s.out o).eccBad = s.eccBad := rfl
@[simp] theorem State.out_eccSoft (s : State) (o : Output) : (s.out o).eccSoft = s.eccSoft := rfl
@[simp] theorem State.out_reqs (s : State) (o : Output) : (s.out o).reqs = s.reqs := rfl
@[simp] theorem State.out_msgs (s : State) (o : Output) : (s.out o).msgs = s.msgs := rfl
@[simp] theorem State.out_nextId (s : State) (o : Output) : (s.out o).nextId = s.nextId := rfl
@[simp] theorem State.out_pages (s : State) (o : Output) : (s.out o).pages = s.pages := rfl
@[simp] theorem State.out_cycleRegs (s : State) (o : Output) : (s.out o).cycleRegs = s.cycleRegs := rfl
@[simp] theorem State.out_snap (s : State) (o : Output) : (s.out o).snap = s.snap := rfl
@[simp] theorem State.out_now (s : State) (o : Output) : (s.out o).now = s.now := rfl
@[simp] theorem State.out_inputs (s : State) (o : Output) : (s.out o).inputs = s.inputs := rfl
@[simp] theorem State.out_cal (s : State) (o : Output) : (s.out o).cal = s.cal := rfl
@[simp] theorem State.out_issueQ (s : State) (o : Output) : (s.out o).issueQ = s.issueQ := rfl

@[simp] theorem State.at__curId (s : State) (t r : Nat) (i : Instr) (a : EvArg) : (s.at_ t r i a).curId = s.curId := rfl
@[simp] theorem State.at__arg (s : State) (t r : Nat) (i : Instr) (a : EvArg) : (s.at_ t r i a).arg = s.arg := rfl
@[simp] theorem State.at__strands (s : State) (t r : Nat) (i : Instr) (a : EvArg) : (s.at_ t r i a).strands = s.strands := rfl
@[simp] theorem State.at__cores (s : State) (t r : Nat) (i : Instr) (a : EvArg) : (s.at_ t r i a).cores = s.cores := rfl
@[simp] theorem State.at__homes (s : State) (t r : Nat) (i : Instr) (a : EvArg) : (s.at_ t r i a).homes = s.homes := rfl
@[simp] theorem State.at__dies (s : State) (t r : Nat) (i : Instr) (a : EvArg) : (s.at_ t r i a).dies = s.dies := rfl
@[simp] theorem State.at__gangs (s : State) (t r : Nat) (i : Instr) (a : EvArg) : (s.at_ t r i a).gangs = s.gangs := rfl
@[simp] theorem State.at__saved (s : State) (t r : Nat) (i : Instr) (a : EvArg) : (s.at_ t r i a).saved = s.saved := rfl
@[simp] theorem State.at__pkg (s : State) (t r : Nat) (i : Instr) (a : EvArg) : (s.at_ t r i a).pkg = s.pkg := rfl
@[simp] theorem State.at__mem (s : State) (t r : Nat) (i : Instr) (a : EvArg) : (s.at_ t r i a).mem = s.mem := rfl
@[simp] theorem State.at__poison (s : State) (t r : Nat) (i : Instr) (a : EvArg) : (s.at_ t r i a).poison = s.poison := rfl
@[simp] theorem State.at__eccBad (s : State) (t r : Nat) (i : Instr) (a : EvArg) : (s.at_ t r i a).eccBad = s.eccBad := rfl
@[simp] theorem State.at__eccSoft (s : State) (t r : Nat) (i : Instr) (a : EvArg) : (s.at_ t r i a).eccSoft = s.eccSoft := rfl
@[simp] theorem State.at__reqs (s : State) (t r : Nat) (i : Instr) (a : EvArg) : (s.at_ t r i a).reqs = s.reqs := rfl
@[simp] theorem State.at__msgs (s : State) (t r : Nat) (i : Instr) (a : EvArg) : (s.at_ t r i a).msgs = s.msgs := rfl
@[simp] theorem State.at__nextId (s : State) (t r : Nat) (i : Instr) (a : EvArg) : (s.at_ t r i a).nextId = s.nextId := rfl
@[simp] theorem State.at__pages (s : State) (t r : Nat) (i : Instr) (a : EvArg) : (s.at_ t r i a).pages = s.pages := rfl
@[simp] theorem State.at__cycleRegs (s : State) (t r : Nat) (i : Instr) (a : EvArg) : (s.at_ t r i a).cycleRegs = s.cycleRegs := rfl
@[simp] theorem State.at__snap (s : State) (t r : Nat) (i : Instr) (a : EvArg) : (s.at_ t r i a).snap = s.snap := rfl
@[simp] theorem State.at__now (s : State) (t r : Nat) (i : Instr) (a : EvArg) : (s.at_ t r i a).now = s.now := rfl
@[simp] theorem State.at__inputs (s : State) (t r : Nat) (i : Instr) (a : EvArg) : (s.at_ t r i a).inputs = s.inputs := rfl
@[simp] theorem State.at__issueQ (s : State) (t r : Nat) (i : Instr) (a : EvArg) : (s.at_ t r i a).issueQ = s.issueQ := rfl
@[simp] theorem State.at__outs (s : State) (t r : Nat) (i : Instr) (a : EvArg) : (s.at_ t r i a).outs = s.outs := rfl

@[simp] theorem State.unAt_curId (s : State) (p : Due → Bool) : (s.unAt p).curId = s.curId := rfl
@[simp] theorem State.unAt_arg (s : State) (p : Due → Bool) : (s.unAt p).arg = s.arg := rfl
@[simp] theorem State.unAt_strands (s : State) (p : Due → Bool) : (s.unAt p).strands = s.strands := rfl
@[simp] theorem State.unAt_cores (s : State) (p : Due → Bool) : (s.unAt p).cores = s.cores := rfl
@[simp] theorem State.unAt_homes (s : State) (p : Due → Bool) : (s.unAt p).homes = s.homes := rfl
@[simp] theorem State.unAt_dies (s : State) (p : Due → Bool) : (s.unAt p).dies = s.dies := rfl
@[simp] theorem State.unAt_gangs (s : State) (p : Due → Bool) : (s.unAt p).gangs = s.gangs := rfl
@[simp] theorem State.unAt_saved (s : State) (p : Due → Bool) : (s.unAt p).saved = s.saved := rfl
@[simp] theorem State.unAt_pkg (s : State) (p : Due → Bool) : (s.unAt p).pkg = s.pkg := rfl
@[simp] theorem State.unAt_mem (s : State) (p : Due → Bool) : (s.unAt p).mem = s.mem := rfl
@[simp] theorem State.unAt_poison (s : State) (p : Due → Bool) : (s.unAt p).poison = s.poison := rfl
@[simp] theorem State.unAt_eccBad (s : State) (p : Due → Bool) : (s.unAt p).eccBad = s.eccBad := rfl
@[simp] theorem State.unAt_eccSoft (s : State) (p : Due → Bool) : (s.unAt p).eccSoft = s.eccSoft := rfl
@[simp] theorem State.unAt_reqs (s : State) (p : Due → Bool) : (s.unAt p).reqs = s.reqs := rfl
@[simp] theorem State.unAt_msgs (s : State) (p : Due → Bool) : (s.unAt p).msgs = s.msgs := rfl
@[simp] theorem State.unAt_nextId (s : State) (p : Due → Bool) : (s.unAt p).nextId = s.nextId := rfl
@[simp] theorem State.unAt_pages (s : State) (p : Due → Bool) : (s.unAt p).pages = s.pages := rfl
@[simp] theorem State.unAt_cycleRegs (s : State) (p : Due → Bool) : (s.unAt p).cycleRegs = s.cycleRegs := rfl
@[simp] theorem State.unAt_snap (s : State) (p : Due → Bool) : (s.unAt p).snap = s.snap := rfl
@[simp] theorem State.unAt_now (s : State) (p : Due → Bool) : (s.unAt p).now = s.now := rfl
@[simp] theorem State.unAt_inputs (s : State) (p : Due → Bool) : (s.unAt p).inputs = s.inputs := rfl
@[simp] theorem State.unAt_issueQ (s : State) (p : Due → Bool) : (s.unAt p).issueQ = s.issueQ := rfl
@[simp] theorem State.unAt_outs (s : State) (p : Due → Bool) : (s.unAt p).outs = s.outs := rfl

@[simp] theorem State.modReq_curId (s : State) (r : Nat) (f : Req → Req) : (s.modReq r f).curId = s.curId := rfl
@[simp] theorem State.modReq_arg (s : State) (r : Nat) (f : Req → Req) : (s.modReq r f).arg = s.arg := rfl
@[simp] theorem State.modReq_strands (s : State) (r : Nat) (f : Req → Req) : (s.modReq r f).strands = s.strands := rfl
@[simp] theorem State.modReq_cores (s : State) (r : Nat) (f : Req → Req) : (s.modReq r f).cores = s.cores := rfl
@[simp] theorem State.modReq_homes (s : State) (r : Nat) (f : Req → Req) : (s.modReq r f).homes = s.homes := rfl
@[simp] theorem State.modReq_dies (s : State) (r : Nat) (f : Req → Req) : (s.modReq r f).dies = s.dies := rfl
@[simp] theorem State.modReq_gangs (s : State) (r : Nat) (f : Req → Req) : (s.modReq r f).gangs = s.gangs := rfl
@[simp] theorem State.modReq_saved (s : State) (r : Nat) (f : Req → Req) : (s.modReq r f).saved = s.saved := rfl
@[simp] theorem State.modReq_pkg (s : State) (r : Nat) (f : Req → Req) : (s.modReq r f).pkg = s.pkg := rfl
@[simp] theorem State.modReq_mem (s : State) (r : Nat) (f : Req → Req) : (s.modReq r f).mem = s.mem := rfl
@[simp] theorem State.modReq_poison (s : State) (r : Nat) (f : Req → Req) : (s.modReq r f).poison = s.poison := rfl
@[simp] theorem State.modReq_eccBad (s : State) (r : Nat) (f : Req → Req) : (s.modReq r f).eccBad = s.eccBad := rfl
@[simp] theorem State.modReq_eccSoft (s : State) (r : Nat) (f : Req → Req) : (s.modReq r f).eccSoft = s.eccSoft := rfl
@[simp] theorem State.modReq_msgs (s : State) (r : Nat) (f : Req → Req) : (s.modReq r f).msgs = s.msgs := rfl
@[simp] theorem State.modReq_nextId (s : State) (r : Nat) (f : Req → Req) : (s.modReq r f).nextId = s.nextId := rfl
@[simp] theorem State.modReq_pages (s : State) (r : Nat) (f : Req → Req) : (s.modReq r f).pages = s.pages := rfl
@[simp] theorem State.modReq_cycleRegs (s : State) (r : Nat) (f : Req → Req) : (s.modReq r f).cycleRegs = s.cycleRegs := rfl
@[simp] theorem State.modReq_snap (s : State) (r : Nat) (f : Req → Req) : (s.modReq r f).snap = s.snap := rfl
@[simp] theorem State.modReq_now (s : State) (r : Nat) (f : Req → Req) : (s.modReq r f).now = s.now := rfl
@[simp] theorem State.modReq_inputs (s : State) (r : Nat) (f : Req → Req) : (s.modReq r f).inputs = s.inputs := rfl
@[simp] theorem State.modReq_cal (s : State) (r : Nat) (f : Req → Req) : (s.modReq r f).cal = s.cal := rfl
@[simp] theorem State.modReq_issueQ (s : State) (r : Nat) (f : Req → Req) : (s.modReq r f).issueQ = s.issueQ := rfl
@[simp] theorem State.modReq_outs (s : State) (r : Nat) (f : Req → Req) : (s.modReq r f).outs = s.outs := rfl

@[simp] theorem State.strand_setStrand_same (s : State) (g : Nat) (c : Strand) : (s.setStrand g c).strand g = c := by
  simp [State.strand, State.setStrand]

theorem State.strand_setStrand_other (s : State) (g h : Nat) (c : Strand) (n : h ≠ g) : (s.setStrand g c).strand h = s.strand h := by
  simp [State.strand, State.setStrand, Tbl.getD_set_other _ _ _ _ _ n]

@[simp] theorem State.cur_setCur (s : State) (c : Strand) : (s.setCur c).cur = c := by
  simp [State.cur, State.setCur]

theorem State.strand_setCur_other (s : State) (h : Nat) (c : Strand) (n : h ≠ s.curId) : (s.setCur c).strand h = s.strand h :=
  s.strand_setStrand_other _ _ _ n

@[simp] theorem State.core_setCore_same (s : State) (g : Nat) (k : Core) : (s.setCore g k).core g = k := by
  simp [State.core, State.setCore]

theorem State.core_setCore_other (s : State) (g h : Nat) (k : Core) (n : h ≠ g) : (s.setCore g k).core h = s.core h := by
  simp [State.core, State.setCore, Tbl.getD_set_other _ _ _ _ _ n]

@[simp] theorem State.home_setHome_same (s : State) (g : Nat) (x : Home) : (s.setHome g x).home g = x := by
  simp [State.home, State.setHome]

theorem State.home_setHome_other (s : State) (g h : Nat) (x : Home) (n : h ≠ g) : (s.setHome g x).home h = s.home h := by
  simp [State.home, State.setHome, Tbl.getD_set_other _ _ _ _ _ n]

@[simp] theorem State.core_setStrand (s : State) (g h : Nat) (c : Strand) : (s.setStrand g c).core h = s.core h := rfl
@[simp] theorem State.core_setCur (s : State) (h : Nat) (c : Strand) : (s.setCur c).core h = s.core h := rfl
@[simp] theorem State.home_setStrand (s : State) (g h : Nat) (c : Strand) : (s.setStrand g c).home h = s.home h := rfl
@[simp] theorem State.home_setCur (s : State) (h : Nat) (c : Strand) : (s.setCur c).home h = s.home h := rfl
@[simp] theorem State.home_setCore (s : State) (g h : Nat) (k : Core) : (s.setCore g k).home h = s.home h := rfl
@[simp] theorem State.strand_setCore (s : State) (g h : Nat) (k : Core) : (s.setCore g k).strand h = s.strand h := rfl
@[simp] theorem State.cur_setCore (s : State) (g : Nat) (k : Core) : (s.setCore g k).cur = s.cur := rfl
@[simp] theorem State.strand_setHome (s : State) (g h : Nat) (x : Home) : (s.setHome g x).strand h = s.strand h := rfl
@[simp] theorem State.cur_setHome (s : State) (g : Nat) (x : Home) : (s.setHome g x).cur = s.cur := rfl
@[simp] theorem State.core_setHome (s : State) (g h : Nat) (x : Home) : (s.setHome g x).core h = s.core h := rfl
@[simp] theorem State.die_setStrand (s : State) (g d : Nat) (c : Strand) : (s.setStrand g c).die d = s.die d := rfl
@[simp] theorem State.die_setCur (s : State) (d : Nat) (c : Strand) : (s.setCur c).die d = s.die d := rfl

/-! ### Updates of a strand -/

@[simp] theorem Strand.setSFill_s (c : Strand) (r : SReg) (f : Fill) : (c.setSFill r f).s = c.s := by
  unfold Strand.setSFill; split <;> rfl
@[simp] theorem Strand.setSFill_iv (c : Strand) (r : SReg) (f : Fill) : (c.setSFill r f).iv = c.iv := by
  unfold Strand.setSFill; split <;> rfl
@[simp] theorem Strand.setSFill_ivFill (c : Strand) (r : SReg) (f : Fill) : (c.setSFill r f).ivFill = c.ivFill := by
  unfold Strand.setSFill; split <;> rfl
@[simp] theorem Strand.setSFill_p (c : Strand) (r : SReg) (f : Fill) : (c.setSFill r f).p = c.p := by
  unfold Strand.setSFill; split <;> rfl
@[simp] theorem Strand.setSFill_q (c : Strand) (r : SReg) (f : Fill) : (c.setSFill r f).q = c.q := by
  unfold Strand.setSFill; split <;> rfl
@[simp] theorem Strand.setSFill_k (c : Strand) (r : SReg) (f : Fill) : (c.setSFill r f).k = c.k := by
  unfold Strand.setSFill; split <;> rfl
@[simp] theorem Strand.setSFill_x (c : Strand) (r : SReg) (f : Fill) : (c.setSFill r f).x = c.x := by
  unfold Strand.setSFill; split <;> rfl
@[simp] theorem Strand.setSFill_pc (c : Strand) (r : SReg) (f : Fill) : (c.setSFill r f).pc = c.pc := by
  unfold Strand.setSFill; split <;> rfl
@[simp] theorem Strand.setSFill_ctl (c : Strand) (r : SReg) (f : Fill) : (c.setSFill r f).ctl = c.ctl := by
  unfold Strand.setSFill; split <;> rfl
@[simp] theorem Strand.setSFill_ident (c : Strand) (r : SReg) (f : Fill) : (c.setSFill r f).ident = c.ident := by
  unfold Strand.setSFill; split <;> rfl
@[simp] theorem Strand.setSFill_core (c : Strand) (r : SReg) (f : Fill) : (c.setSFill r f).core = c.core := by
  unfold Strand.setSFill; split <;> rfl
@[simp] theorem Strand.setSFill_place (c : Strand) (r : SReg) (f : Fill) : (c.setSFill r f).place = c.place := by
  unfold Strand.setSFill; split <;> rfl
@[simp] theorem Strand.setSFill_fetch (c : Strand) (r : SReg) (f : Fill) : (c.setSFill r f).fetch = c.fetch := by
  unfold Strand.setSFill; split <;> rfl
@[simp] theorem Strand.setSFill_prevPc (c : Strand) (r : SReg) (f : Fill) : (c.setSFill r f).prevPc = c.prevPc := by
  unfold Strand.setSFill; split <;> rfl
@[simp] theorem Strand.setSFill_wait (c : Strand) (r : SReg) (f : Fill) : (c.setSFill r f).wait = c.wait := by
  unfold Strand.setSFill; split <;> rfl
@[simp] theorem Strand.setSFill_kept (c : Strand) (r : SReg) (f : Fill) : (c.setSFill r f).kept = c.kept := by
  unfold Strand.setSFill; split <;> rfl
@[simp] theorem Strand.setSFill_heldSince (c : Strand) (r : SReg) (f : Fill) : (c.setSFill r f).heldSince = c.heldSince := by
  unfold Strand.setSFill; split <;> rfl
@[simp] theorem Strand.setSFill_heldRing (c : Strand) (r : SReg) (f : Fill) : (c.setSFill r f).heldRing = c.heldRing := by
  unfold Strand.setSFill; split <;> rfl
@[simp] theorem Strand.setSFill_heldLen (c : Strand) (r : SReg) (f : Fill) : (c.setSFill r f).heldLen = c.heldLen := by
  unfold Strand.setSFill; split <;> rfl
@[simp] theorem Strand.setSFill_grant (c : Strand) (r : SReg) (f : Fill) : (c.setSFill r f).grant = c.grant := by
  unfold Strand.setSFill; split <;> rfl
@[simp] theorem Strand.setSFill_bind (c : Strand) (r : SReg) (f : Fill) : (c.setSFill r f).bind = c.bind := by
  unfold Strand.setSFill; split <;> rfl
@[simp] theorem Strand.setSFill_owe (c : Strand) (r : SReg) (f : Fill) : (c.setSFill r f).owe = c.owe := by
  unfold Strand.setSFill; split <;> rfl
@[simp] theorem Strand.setSFill_readyAt (c : Strand) (r : SReg) (f : Fill) : (c.setSFill r f).readyAt = c.readyAt := by
  unfold Strand.setSFill; split <;> rfl
@[simp] theorem Strand.setSFill_turns (c : Strand) (r : SReg) (f : Fill) : (c.setSFill r f).turns = c.turns := by
  unfold Strand.setSFill; split <;> rfl
@[simp] theorem Strand.setSFill_mhome (c : Strand) (r : SReg) (f : Fill) : (c.setSFill r f).mhome = c.mhome := by
  unfold Strand.setSFill; split <;> rfl
@[simp] theorem Strand.setSFill_mcount (c : Strand) (r : SReg) (f : Fill) : (c.setSFill r f).mcount = c.mcount := by
  unfold Strand.setSFill; split <;> rfl
@[simp] theorem Strand.setSFill_span (c : Strand) (r : SReg) (f : Fill) : (c.setSFill r f).span = c.span := by
  unfold Strand.setSFill; split <;> rfl
@[simp] theorem Strand.setSFill_closes (c : Strand) (r : SReg) (f : Fill) : (c.setSFill r f).closes = c.closes := by
  unfold Strand.setSFill; split <;> rfl
@[simp] theorem Strand.setSFill_fails (c : Strand) (r : SReg) (f : Fill) : (c.setSFill r f).fails = c.fails := by
  unfold Strand.setSFill; split <;> rfl
@[simp] theorem Strand.setSFill_upcall (c : Strand) (r : SReg) (f : Fill) : (c.setSFill r f).upcall = c.upcall := by
  unfold Strand.setSFill; split <;> rfl
@[simp] theorem Strand.setSFill_acq (c : Strand) (r : SReg) (f : Fill) : (c.setSFill r f).acq = c.acq := by
  unfold Strand.setSFill; split <;> rfl
@[simp] theorem Strand.setSFill_retries (c : Strand) (r : SReg) (f : Fill) : (c.setSFill r f).retries = c.retries := by
  unfold Strand.setSFill; split <;> rfl
@[simp] theorem Strand.setSFill_retryPc (c : Strand) (r : SReg) (f : Fill) : (c.setSFill r f).retryPc = c.retryPc := by
  unfold Strand.setSFill; split <;> rfl
@[simp] theorem Strand.setSFill_barriers (c : Strand) (r : SReg) (f : Fill) : (c.setSFill r f).barriers = c.barriers := by
  unfold Strand.setSFill; split <;> rfl
@[simp] theorem Strand.setSFill_qfences (c : Strand) (r : SReg) (f : Fill) : (c.setSFill r f).qfences = c.qfences := by
  unfold Strand.setSFill; split <;> rfl
@[simp] theorem Strand.setSFill_left (c : Strand) (r : SReg) (f : Fill) : (c.setSFill r f).left = c.left := by
  unfold Strand.setSFill; split <;> rfl
@[simp] theorem Strand.setSFill_ranges (c : Strand) (r : SReg) (f : Fill) : (c.setSFill r f).ranges = c.ranges := by
  unfold Strand.setSFill; split <;> rfl

@[simp] theorem Strand.setIvFill_s (c : Strand) (r : IvReg) (f : Fill) : (c.setIvFill r f).s = c.s := rfl
@[simp] theorem Strand.setIvFill_iv (c : Strand) (r : IvReg) (f : Fill) : (c.setIvFill r f).iv = c.iv := rfl
@[simp] theorem Strand.setIvFill_sFill (c : Strand) (r : IvReg) (f : Fill) : (c.setIvFill r f).sFill = c.sFill := rfl
@[simp] theorem Strand.setIvFill_p (c : Strand) (r : IvReg) (f : Fill) : (c.setIvFill r f).p = c.p := rfl
@[simp] theorem Strand.setIvFill_q (c : Strand) (r : IvReg) (f : Fill) : (c.setIvFill r f).q = c.q := rfl
@[simp] theorem Strand.setIvFill_k (c : Strand) (r : IvReg) (f : Fill) : (c.setIvFill r f).k = c.k := rfl
@[simp] theorem Strand.setIvFill_x (c : Strand) (r : IvReg) (f : Fill) : (c.setIvFill r f).x = c.x := rfl
@[simp] theorem Strand.setIvFill_pc (c : Strand) (r : IvReg) (f : Fill) : (c.setIvFill r f).pc = c.pc := rfl
@[simp] theorem Strand.setIvFill_ctl (c : Strand) (r : IvReg) (f : Fill) : (c.setIvFill r f).ctl = c.ctl := rfl
@[simp] theorem Strand.setIvFill_ident (c : Strand) (r : IvReg) (f : Fill) : (c.setIvFill r f).ident = c.ident := rfl
@[simp] theorem Strand.setIvFill_core (c : Strand) (r : IvReg) (f : Fill) : (c.setIvFill r f).core = c.core := rfl
@[simp] theorem Strand.setIvFill_place (c : Strand) (r : IvReg) (f : Fill) : (c.setIvFill r f).place = c.place := rfl
@[simp] theorem Strand.setIvFill_fetch (c : Strand) (r : IvReg) (f : Fill) : (c.setIvFill r f).fetch = c.fetch := rfl
@[simp] theorem Strand.setIvFill_prevPc (c : Strand) (r : IvReg) (f : Fill) : (c.setIvFill r f).prevPc = c.prevPc := rfl
@[simp] theorem Strand.setIvFill_wait (c : Strand) (r : IvReg) (f : Fill) : (c.setIvFill r f).wait = c.wait := rfl
@[simp] theorem Strand.setIvFill_kept (c : Strand) (r : IvReg) (f : Fill) : (c.setIvFill r f).kept = c.kept := rfl
@[simp] theorem Strand.setIvFill_heldSince (c : Strand) (r : IvReg) (f : Fill) : (c.setIvFill r f).heldSince = c.heldSince := rfl
@[simp] theorem Strand.setIvFill_heldRing (c : Strand) (r : IvReg) (f : Fill) : (c.setIvFill r f).heldRing = c.heldRing := rfl
@[simp] theorem Strand.setIvFill_heldLen (c : Strand) (r : IvReg) (f : Fill) : (c.setIvFill r f).heldLen = c.heldLen := rfl
@[simp] theorem Strand.setIvFill_grant (c : Strand) (r : IvReg) (f : Fill) : (c.setIvFill r f).grant = c.grant := rfl
@[simp] theorem Strand.setIvFill_bind (c : Strand) (r : IvReg) (f : Fill) : (c.setIvFill r f).bind = c.bind := rfl
@[simp] theorem Strand.setIvFill_owe (c : Strand) (r : IvReg) (f : Fill) : (c.setIvFill r f).owe = c.owe := rfl
@[simp] theorem Strand.setIvFill_readyAt (c : Strand) (r : IvReg) (f : Fill) : (c.setIvFill r f).readyAt = c.readyAt := rfl
@[simp] theorem Strand.setIvFill_turns (c : Strand) (r : IvReg) (f : Fill) : (c.setIvFill r f).turns = c.turns := rfl
@[simp] theorem Strand.setIvFill_mhome (c : Strand) (r : IvReg) (f : Fill) : (c.setIvFill r f).mhome = c.mhome := rfl
@[simp] theorem Strand.setIvFill_mcount (c : Strand) (r : IvReg) (f : Fill) : (c.setIvFill r f).mcount = c.mcount := rfl
@[simp] theorem Strand.setIvFill_span (c : Strand) (r : IvReg) (f : Fill) : (c.setIvFill r f).span = c.span := rfl
@[simp] theorem Strand.setIvFill_closes (c : Strand) (r : IvReg) (f : Fill) : (c.setIvFill r f).closes = c.closes := rfl
@[simp] theorem Strand.setIvFill_fails (c : Strand) (r : IvReg) (f : Fill) : (c.setIvFill r f).fails = c.fails := rfl
@[simp] theorem Strand.setIvFill_upcall (c : Strand) (r : IvReg) (f : Fill) : (c.setIvFill r f).upcall = c.upcall := rfl
@[simp] theorem Strand.setIvFill_acq (c : Strand) (r : IvReg) (f : Fill) : (c.setIvFill r f).acq = c.acq := rfl
@[simp] theorem Strand.setIvFill_retries (c : Strand) (r : IvReg) (f : Fill) : (c.setIvFill r f).retries = c.retries := rfl
@[simp] theorem Strand.setIvFill_retryPc (c : Strand) (r : IvReg) (f : Fill) : (c.setIvFill r f).retryPc = c.retryPc := rfl
@[simp] theorem Strand.setIvFill_barriers (c : Strand) (r : IvReg) (f : Fill) : (c.setIvFill r f).barriers = c.barriers := rfl
@[simp] theorem Strand.setIvFill_qfences (c : Strand) (r : IvReg) (f : Fill) : (c.setIvFill r f).qfences = c.qfences := rfl
@[simp] theorem Strand.setIvFill_left (c : Strand) (r : IvReg) (f : Fill) : (c.setIvFill r f).left = c.left := rfl
@[simp] theorem Strand.setIvFill_ranges (c : Strand) (r : IvReg) (f : Fill) : (c.setIvFill r f).ranges = c.ranges := rfl

@[simp] theorem Strand.writeS_iv (c : Strand) (r : SReg) (v : Word) : (c.writeS r v).iv = c.iv := by
  unfold Strand.writeS; split <;> rfl
@[simp] theorem Strand.writeS_ivFill (c : Strand) (r : SReg) (v : Word) : (c.writeS r v).ivFill = c.ivFill := by
  unfold Strand.writeS; split <;> rfl
@[simp] theorem Strand.writeS_p (c : Strand) (r : SReg) (v : Word) : (c.writeS r v).p = c.p := by
  unfold Strand.writeS; split <;> rfl
@[simp] theorem Strand.writeS_q (c : Strand) (r : SReg) (v : Word) : (c.writeS r v).q = c.q := by
  unfold Strand.writeS; split <;> rfl
@[simp] theorem Strand.writeS_k (c : Strand) (r : SReg) (v : Word) : (c.writeS r v).k = c.k := by
  unfold Strand.writeS; split <;> rfl
@[simp] theorem Strand.writeS_x (c : Strand) (r : SReg) (v : Word) : (c.writeS r v).x = c.x := by
  unfold Strand.writeS; split <;> rfl
@[simp] theorem Strand.writeS_pc (c : Strand) (r : SReg) (v : Word) : (c.writeS r v).pc = c.pc := by
  unfold Strand.writeS; split <;> rfl
@[simp] theorem Strand.writeS_ctl (c : Strand) (r : SReg) (v : Word) : (c.writeS r v).ctl = c.ctl := by
  unfold Strand.writeS; split <;> rfl
@[simp] theorem Strand.writeS_ident (c : Strand) (r : SReg) (v : Word) : (c.writeS r v).ident = c.ident := by
  unfold Strand.writeS; split <;> rfl
@[simp] theorem Strand.writeS_core (c : Strand) (r : SReg) (v : Word) : (c.writeS r v).core = c.core := by
  unfold Strand.writeS; split <;> rfl
@[simp] theorem Strand.writeS_place (c : Strand) (r : SReg) (v : Word) : (c.writeS r v).place = c.place := by
  unfold Strand.writeS; split <;> rfl
@[simp] theorem Strand.writeS_fetch (c : Strand) (r : SReg) (v : Word) : (c.writeS r v).fetch = c.fetch := by
  unfold Strand.writeS; split <;> rfl
@[simp] theorem Strand.writeS_prevPc (c : Strand) (r : SReg) (v : Word) : (c.writeS r v).prevPc = c.prevPc := by
  unfold Strand.writeS; split <;> rfl
@[simp] theorem Strand.writeS_wait (c : Strand) (r : SReg) (v : Word) : (c.writeS r v).wait = c.wait := by
  unfold Strand.writeS; split <;> rfl
@[simp] theorem Strand.writeS_kept (c : Strand) (r : SReg) (v : Word) : (c.writeS r v).kept = c.kept := by
  unfold Strand.writeS; split <;> rfl
@[simp] theorem Strand.writeS_heldSince (c : Strand) (r : SReg) (v : Word) : (c.writeS r v).heldSince = c.heldSince := by
  unfold Strand.writeS; split <;> rfl
@[simp] theorem Strand.writeS_heldRing (c : Strand) (r : SReg) (v : Word) : (c.writeS r v).heldRing = c.heldRing := by
  unfold Strand.writeS; split <;> rfl
@[simp] theorem Strand.writeS_heldLen (c : Strand) (r : SReg) (v : Word) : (c.writeS r v).heldLen = c.heldLen := by
  unfold Strand.writeS; split <;> rfl
@[simp] theorem Strand.writeS_grant (c : Strand) (r : SReg) (v : Word) : (c.writeS r v).grant = c.grant := by
  unfold Strand.writeS; split <;> rfl
@[simp] theorem Strand.writeS_bind (c : Strand) (r : SReg) (v : Word) : (c.writeS r v).bind = c.bind := by
  unfold Strand.writeS; split <;> rfl
@[simp] theorem Strand.writeS_owe (c : Strand) (r : SReg) (v : Word) : (c.writeS r v).owe = c.owe := by
  unfold Strand.writeS; split <;> rfl
@[simp] theorem Strand.writeS_readyAt (c : Strand) (r : SReg) (v : Word) : (c.writeS r v).readyAt = c.readyAt := by
  unfold Strand.writeS; split <;> rfl
@[simp] theorem Strand.writeS_turns (c : Strand) (r : SReg) (v : Word) : (c.writeS r v).turns = c.turns := by
  unfold Strand.writeS; split <;> rfl
@[simp] theorem Strand.writeS_mhome (c : Strand) (r : SReg) (v : Word) : (c.writeS r v).mhome = c.mhome := by
  unfold Strand.writeS; split <;> rfl
@[simp] theorem Strand.writeS_mcount (c : Strand) (r : SReg) (v : Word) : (c.writeS r v).mcount = c.mcount := by
  unfold Strand.writeS; split <;> rfl
@[simp] theorem Strand.writeS_span (c : Strand) (r : SReg) (v : Word) : (c.writeS r v).span = c.span := by
  unfold Strand.writeS; split <;> rfl
@[simp] theorem Strand.writeS_closes (c : Strand) (r : SReg) (v : Word) : (c.writeS r v).closes = c.closes := by
  unfold Strand.writeS; split <;> rfl
@[simp] theorem Strand.writeS_fails (c : Strand) (r : SReg) (v : Word) : (c.writeS r v).fails = c.fails := by
  unfold Strand.writeS; split <;> rfl
@[simp] theorem Strand.writeS_upcall (c : Strand) (r : SReg) (v : Word) : (c.writeS r v).upcall = c.upcall := by
  unfold Strand.writeS; split <;> rfl
@[simp] theorem Strand.writeS_acq (c : Strand) (r : SReg) (v : Word) : (c.writeS r v).acq = c.acq := by
  unfold Strand.writeS; split <;> rfl
@[simp] theorem Strand.writeS_retries (c : Strand) (r : SReg) (v : Word) : (c.writeS r v).retries = c.retries := by
  unfold Strand.writeS; split <;> rfl
@[simp] theorem Strand.writeS_retryPc (c : Strand) (r : SReg) (v : Word) : (c.writeS r v).retryPc = c.retryPc := by
  unfold Strand.writeS; split <;> rfl
@[simp] theorem Strand.writeS_barriers (c : Strand) (r : SReg) (v : Word) : (c.writeS r v).barriers = c.barriers := by
  unfold Strand.writeS; split <;> rfl
@[simp] theorem Strand.writeS_qfences (c : Strand) (r : SReg) (v : Word) : (c.writeS r v).qfences = c.qfences := by
  unfold Strand.writeS; split <;> rfl
@[simp] theorem Strand.writeS_left (c : Strand) (r : SReg) (v : Word) : (c.writeS r v).left = c.left := by
  unfold Strand.writeS; split <;> rfl
@[simp] theorem Strand.writeS_ranges (c : Strand) (r : SReg) (v : Word) : (c.writeS r v).ranges = c.ranges := by
  unfold Strand.writeS; split <;> rfl

@[simp] theorem Strand.writeIv_s (c : Strand) (r : IvReg) (v : Word) : (c.writeIv r v).s = c.s := rfl
@[simp] theorem Strand.writeIv_sFill (c : Strand) (r : IvReg) (v : Word) : (c.writeIv r v).sFill = c.sFill := rfl
@[simp] theorem Strand.writeIv_p (c : Strand) (r : IvReg) (v : Word) : (c.writeIv r v).p = c.p := rfl
@[simp] theorem Strand.writeIv_q (c : Strand) (r : IvReg) (v : Word) : (c.writeIv r v).q = c.q := rfl
@[simp] theorem Strand.writeIv_k (c : Strand) (r : IvReg) (v : Word) : (c.writeIv r v).k = c.k := rfl
@[simp] theorem Strand.writeIv_x (c : Strand) (r : IvReg) (v : Word) : (c.writeIv r v).x = c.x := rfl
@[simp] theorem Strand.writeIv_pc (c : Strand) (r : IvReg) (v : Word) : (c.writeIv r v).pc = c.pc := rfl
@[simp] theorem Strand.writeIv_ctl (c : Strand) (r : IvReg) (v : Word) : (c.writeIv r v).ctl = c.ctl := rfl
@[simp] theorem Strand.writeIv_ident (c : Strand) (r : IvReg) (v : Word) : (c.writeIv r v).ident = c.ident := rfl
@[simp] theorem Strand.writeIv_core (c : Strand) (r : IvReg) (v : Word) : (c.writeIv r v).core = c.core := rfl
@[simp] theorem Strand.writeIv_place (c : Strand) (r : IvReg) (v : Word) : (c.writeIv r v).place = c.place := rfl
@[simp] theorem Strand.writeIv_fetch (c : Strand) (r : IvReg) (v : Word) : (c.writeIv r v).fetch = c.fetch := rfl
@[simp] theorem Strand.writeIv_prevPc (c : Strand) (r : IvReg) (v : Word) : (c.writeIv r v).prevPc = c.prevPc := rfl
@[simp] theorem Strand.writeIv_wait (c : Strand) (r : IvReg) (v : Word) : (c.writeIv r v).wait = c.wait := rfl
@[simp] theorem Strand.writeIv_kept (c : Strand) (r : IvReg) (v : Word) : (c.writeIv r v).kept = c.kept := rfl
@[simp] theorem Strand.writeIv_heldSince (c : Strand) (r : IvReg) (v : Word) : (c.writeIv r v).heldSince = c.heldSince := rfl
@[simp] theorem Strand.writeIv_heldRing (c : Strand) (r : IvReg) (v : Word) : (c.writeIv r v).heldRing = c.heldRing := rfl
@[simp] theorem Strand.writeIv_heldLen (c : Strand) (r : IvReg) (v : Word) : (c.writeIv r v).heldLen = c.heldLen := rfl
@[simp] theorem Strand.writeIv_grant (c : Strand) (r : IvReg) (v : Word) : (c.writeIv r v).grant = c.grant := rfl
@[simp] theorem Strand.writeIv_bind (c : Strand) (r : IvReg) (v : Word) : (c.writeIv r v).bind = c.bind := rfl
@[simp] theorem Strand.writeIv_owe (c : Strand) (r : IvReg) (v : Word) : (c.writeIv r v).owe = c.owe := rfl
@[simp] theorem Strand.writeIv_readyAt (c : Strand) (r : IvReg) (v : Word) : (c.writeIv r v).readyAt = c.readyAt := rfl
@[simp] theorem Strand.writeIv_turns (c : Strand) (r : IvReg) (v : Word) : (c.writeIv r v).turns = c.turns := rfl
@[simp] theorem Strand.writeIv_mhome (c : Strand) (r : IvReg) (v : Word) : (c.writeIv r v).mhome = c.mhome := rfl
@[simp] theorem Strand.writeIv_mcount (c : Strand) (r : IvReg) (v : Word) : (c.writeIv r v).mcount = c.mcount := rfl
@[simp] theorem Strand.writeIv_span (c : Strand) (r : IvReg) (v : Word) : (c.writeIv r v).span = c.span := rfl
@[simp] theorem Strand.writeIv_closes (c : Strand) (r : IvReg) (v : Word) : (c.writeIv r v).closes = c.closes := rfl
@[simp] theorem Strand.writeIv_fails (c : Strand) (r : IvReg) (v : Word) : (c.writeIv r v).fails = c.fails := rfl
@[simp] theorem Strand.writeIv_upcall (c : Strand) (r : IvReg) (v : Word) : (c.writeIv r v).upcall = c.upcall := rfl
@[simp] theorem Strand.writeIv_acq (c : Strand) (r : IvReg) (v : Word) : (c.writeIv r v).acq = c.acq := rfl
@[simp] theorem Strand.writeIv_retries (c : Strand) (r : IvReg) (v : Word) : (c.writeIv r v).retries = c.retries := rfl
@[simp] theorem Strand.writeIv_retryPc (c : Strand) (r : IvReg) (v : Word) : (c.writeIv r v).retryPc = c.retryPc := rfl
@[simp] theorem Strand.writeIv_barriers (c : Strand) (r : IvReg) (v : Word) : (c.writeIv r v).barriers = c.barriers := rfl
@[simp] theorem Strand.writeIv_qfences (c : Strand) (r : IvReg) (v : Word) : (c.writeIv r v).qfences = c.qfences := rfl
@[simp] theorem Strand.writeIv_left (c : Strand) (r : IvReg) (v : Word) : (c.writeIv r v).left = c.left := rfl
@[simp] theorem Strand.writeIv_ranges (c : Strand) (r : IvReg) (v : Word) : (c.writeIv r v).ranges = c.ranges := rfl

@[simp] theorem Strand.writeP_s (c : Strand) (r : PReg) (v : BitVec 32) : (c.writeP r v).s = c.s := rfl
@[simp] theorem Strand.writeP_iv (c : Strand) (r : PReg) (v : BitVec 32) : (c.writeP r v).iv = c.iv := rfl
@[simp] theorem Strand.writeP_sFill (c : Strand) (r : PReg) (v : BitVec 32) : (c.writeP r v).sFill = c.sFill := rfl
@[simp] theorem Strand.writeP_ivFill (c : Strand) (r : PReg) (v : BitVec 32) : (c.writeP r v).ivFill = c.ivFill := rfl
@[simp] theorem Strand.writeP_q (c : Strand) (r : PReg) (v : BitVec 32) : (c.writeP r v).q = c.q := rfl
@[simp] theorem Strand.writeP_k (c : Strand) (r : PReg) (v : BitVec 32) : (c.writeP r v).k = c.k := rfl
@[simp] theorem Strand.writeP_x (c : Strand) (r : PReg) (v : BitVec 32) : (c.writeP r v).x = c.x := rfl
@[simp] theorem Strand.writeP_pc (c : Strand) (r : PReg) (v : BitVec 32) : (c.writeP r v).pc = c.pc := rfl
@[simp] theorem Strand.writeP_ctl (c : Strand) (r : PReg) (v : BitVec 32) : (c.writeP r v).ctl = c.ctl := rfl
@[simp] theorem Strand.writeP_ident (c : Strand) (r : PReg) (v : BitVec 32) : (c.writeP r v).ident = c.ident := rfl
@[simp] theorem Strand.writeP_core (c : Strand) (r : PReg) (v : BitVec 32) : (c.writeP r v).core = c.core := rfl
@[simp] theorem Strand.writeP_place (c : Strand) (r : PReg) (v : BitVec 32) : (c.writeP r v).place = c.place := rfl
@[simp] theorem Strand.writeP_fetch (c : Strand) (r : PReg) (v : BitVec 32) : (c.writeP r v).fetch = c.fetch := rfl
@[simp] theorem Strand.writeP_prevPc (c : Strand) (r : PReg) (v : BitVec 32) : (c.writeP r v).prevPc = c.prevPc := rfl
@[simp] theorem Strand.writeP_wait (c : Strand) (r : PReg) (v : BitVec 32) : (c.writeP r v).wait = c.wait := rfl
@[simp] theorem Strand.writeP_kept (c : Strand) (r : PReg) (v : BitVec 32) : (c.writeP r v).kept = c.kept := rfl
@[simp] theorem Strand.writeP_heldSince (c : Strand) (r : PReg) (v : BitVec 32) : (c.writeP r v).heldSince = c.heldSince := rfl
@[simp] theorem Strand.writeP_heldRing (c : Strand) (r : PReg) (v : BitVec 32) : (c.writeP r v).heldRing = c.heldRing := rfl
@[simp] theorem Strand.writeP_heldLen (c : Strand) (r : PReg) (v : BitVec 32) : (c.writeP r v).heldLen = c.heldLen := rfl
@[simp] theorem Strand.writeP_grant (c : Strand) (r : PReg) (v : BitVec 32) : (c.writeP r v).grant = c.grant := rfl
@[simp] theorem Strand.writeP_bind (c : Strand) (r : PReg) (v : BitVec 32) : (c.writeP r v).bind = c.bind := rfl
@[simp] theorem Strand.writeP_owe (c : Strand) (r : PReg) (v : BitVec 32) : (c.writeP r v).owe = c.owe := rfl
@[simp] theorem Strand.writeP_readyAt (c : Strand) (r : PReg) (v : BitVec 32) : (c.writeP r v).readyAt = c.readyAt := rfl
@[simp] theorem Strand.writeP_turns (c : Strand) (r : PReg) (v : BitVec 32) : (c.writeP r v).turns = c.turns := rfl
@[simp] theorem Strand.writeP_mhome (c : Strand) (r : PReg) (v : BitVec 32) : (c.writeP r v).mhome = c.mhome := rfl
@[simp] theorem Strand.writeP_mcount (c : Strand) (r : PReg) (v : BitVec 32) : (c.writeP r v).mcount = c.mcount := rfl
@[simp] theorem Strand.writeP_span (c : Strand) (r : PReg) (v : BitVec 32) : (c.writeP r v).span = c.span := rfl
@[simp] theorem Strand.writeP_closes (c : Strand) (r : PReg) (v : BitVec 32) : (c.writeP r v).closes = c.closes := rfl
@[simp] theorem Strand.writeP_fails (c : Strand) (r : PReg) (v : BitVec 32) : (c.writeP r v).fails = c.fails := rfl
@[simp] theorem Strand.writeP_upcall (c : Strand) (r : PReg) (v : BitVec 32) : (c.writeP r v).upcall = c.upcall := rfl
@[simp] theorem Strand.writeP_acq (c : Strand) (r : PReg) (v : BitVec 32) : (c.writeP r v).acq = c.acq := rfl
@[simp] theorem Strand.writeP_retries (c : Strand) (r : PReg) (v : BitVec 32) : (c.writeP r v).retries = c.retries := rfl
@[simp] theorem Strand.writeP_retryPc (c : Strand) (r : PReg) (v : BitVec 32) : (c.writeP r v).retryPc = c.retryPc := rfl
@[simp] theorem Strand.writeP_barriers (c : Strand) (r : PReg) (v : BitVec 32) : (c.writeP r v).barriers = c.barriers := rfl
@[simp] theorem Strand.writeP_qfences (c : Strand) (r : PReg) (v : BitVec 32) : (c.writeP r v).qfences = c.qfences := rfl
@[simp] theorem Strand.writeP_left (c : Strand) (r : PReg) (v : BitVec 32) : (c.writeP r v).left = c.left := rfl
@[simp] theorem Strand.writeP_ranges (c : Strand) (r : PReg) (v : BitVec 32) : (c.writeP r v).ranges = c.ranges := rfl

@[simp] theorem Strand.writeQ_s (c : Strand) (r : QReg) (v : Tri) : (c.writeQ r v).s = c.s := by
  unfold Strand.writeQ; split <;> rfl
@[simp] theorem Strand.writeQ_iv (c : Strand) (r : QReg) (v : Tri) : (c.writeQ r v).iv = c.iv := by
  unfold Strand.writeQ; split <;> rfl
@[simp] theorem Strand.writeQ_sFill (c : Strand) (r : QReg) (v : Tri) : (c.writeQ r v).sFill = c.sFill := by
  unfold Strand.writeQ; split <;> rfl
@[simp] theorem Strand.writeQ_ivFill (c : Strand) (r : QReg) (v : Tri) : (c.writeQ r v).ivFill = c.ivFill := by
  unfold Strand.writeQ; split <;> rfl
@[simp] theorem Strand.writeQ_p (c : Strand) (r : QReg) (v : Tri) : (c.writeQ r v).p = c.p := by
  unfold Strand.writeQ; split <;> rfl
@[simp] theorem Strand.writeQ_k (c : Strand) (r : QReg) (v : Tri) : (c.writeQ r v).k = c.k := by
  unfold Strand.writeQ; split <;> rfl
@[simp] theorem Strand.writeQ_x (c : Strand) (r : QReg) (v : Tri) : (c.writeQ r v).x = c.x := by
  unfold Strand.writeQ; split <;> rfl
@[simp] theorem Strand.writeQ_pc (c : Strand) (r : QReg) (v : Tri) : (c.writeQ r v).pc = c.pc := by
  unfold Strand.writeQ; split <;> rfl
@[simp] theorem Strand.writeQ_ctl (c : Strand) (r : QReg) (v : Tri) : (c.writeQ r v).ctl = c.ctl := by
  unfold Strand.writeQ; split <;> rfl
@[simp] theorem Strand.writeQ_ident (c : Strand) (r : QReg) (v : Tri) : (c.writeQ r v).ident = c.ident := by
  unfold Strand.writeQ; split <;> rfl
@[simp] theorem Strand.writeQ_core (c : Strand) (r : QReg) (v : Tri) : (c.writeQ r v).core = c.core := by
  unfold Strand.writeQ; split <;> rfl
@[simp] theorem Strand.writeQ_place (c : Strand) (r : QReg) (v : Tri) : (c.writeQ r v).place = c.place := by
  unfold Strand.writeQ; split <;> rfl
@[simp] theorem Strand.writeQ_fetch (c : Strand) (r : QReg) (v : Tri) : (c.writeQ r v).fetch = c.fetch := by
  unfold Strand.writeQ; split <;> rfl
@[simp] theorem Strand.writeQ_prevPc (c : Strand) (r : QReg) (v : Tri) : (c.writeQ r v).prevPc = c.prevPc := by
  unfold Strand.writeQ; split <;> rfl
@[simp] theorem Strand.writeQ_wait (c : Strand) (r : QReg) (v : Tri) : (c.writeQ r v).wait = c.wait := by
  unfold Strand.writeQ; split <;> rfl
@[simp] theorem Strand.writeQ_kept (c : Strand) (r : QReg) (v : Tri) : (c.writeQ r v).kept = c.kept := by
  unfold Strand.writeQ; split <;> rfl
@[simp] theorem Strand.writeQ_heldSince (c : Strand) (r : QReg) (v : Tri) : (c.writeQ r v).heldSince = c.heldSince := by
  unfold Strand.writeQ; split <;> rfl
@[simp] theorem Strand.writeQ_heldRing (c : Strand) (r : QReg) (v : Tri) : (c.writeQ r v).heldRing = c.heldRing := by
  unfold Strand.writeQ; split <;> rfl
@[simp] theorem Strand.writeQ_heldLen (c : Strand) (r : QReg) (v : Tri) : (c.writeQ r v).heldLen = c.heldLen := by
  unfold Strand.writeQ; split <;> rfl
@[simp] theorem Strand.writeQ_grant (c : Strand) (r : QReg) (v : Tri) : (c.writeQ r v).grant = c.grant := by
  unfold Strand.writeQ; split <;> rfl
@[simp] theorem Strand.writeQ_bind (c : Strand) (r : QReg) (v : Tri) : (c.writeQ r v).bind = c.bind := by
  unfold Strand.writeQ; split <;> rfl
@[simp] theorem Strand.writeQ_owe (c : Strand) (r : QReg) (v : Tri) : (c.writeQ r v).owe = c.owe := by
  unfold Strand.writeQ; split <;> rfl
@[simp] theorem Strand.writeQ_readyAt (c : Strand) (r : QReg) (v : Tri) : (c.writeQ r v).readyAt = c.readyAt := by
  unfold Strand.writeQ; split <;> rfl
@[simp] theorem Strand.writeQ_turns (c : Strand) (r : QReg) (v : Tri) : (c.writeQ r v).turns = c.turns := by
  unfold Strand.writeQ; split <;> rfl
@[simp] theorem Strand.writeQ_mhome (c : Strand) (r : QReg) (v : Tri) : (c.writeQ r v).mhome = c.mhome := by
  unfold Strand.writeQ; split <;> rfl
@[simp] theorem Strand.writeQ_mcount (c : Strand) (r : QReg) (v : Tri) : (c.writeQ r v).mcount = c.mcount := by
  unfold Strand.writeQ; split <;> rfl
@[simp] theorem Strand.writeQ_span (c : Strand) (r : QReg) (v : Tri) : (c.writeQ r v).span = c.span := by
  unfold Strand.writeQ; split <;> rfl
@[simp] theorem Strand.writeQ_closes (c : Strand) (r : QReg) (v : Tri) : (c.writeQ r v).closes = c.closes := by
  unfold Strand.writeQ; split <;> rfl
@[simp] theorem Strand.writeQ_fails (c : Strand) (r : QReg) (v : Tri) : (c.writeQ r v).fails = c.fails := by
  unfold Strand.writeQ; split <;> rfl
@[simp] theorem Strand.writeQ_upcall (c : Strand) (r : QReg) (v : Tri) : (c.writeQ r v).upcall = c.upcall := by
  unfold Strand.writeQ; split <;> rfl
@[simp] theorem Strand.writeQ_acq (c : Strand) (r : QReg) (v : Tri) : (c.writeQ r v).acq = c.acq := by
  unfold Strand.writeQ; split <;> rfl
@[simp] theorem Strand.writeQ_retries (c : Strand) (r : QReg) (v : Tri) : (c.writeQ r v).retries = c.retries := by
  unfold Strand.writeQ; split <;> rfl
@[simp] theorem Strand.writeQ_retryPc (c : Strand) (r : QReg) (v : Tri) : (c.writeQ r v).retryPc = c.retryPc := by
  unfold Strand.writeQ; split <;> rfl
@[simp] theorem Strand.writeQ_barriers (c : Strand) (r : QReg) (v : Tri) : (c.writeQ r v).barriers = c.barriers := by
  unfold Strand.writeQ; split <;> rfl
@[simp] theorem Strand.writeQ_qfences (c : Strand) (r : QReg) (v : Tri) : (c.writeQ r v).qfences = c.qfences := by
  unfold Strand.writeQ; split <;> rfl
@[simp] theorem Strand.writeQ_left (c : Strand) (r : QReg) (v : Tri) : (c.writeQ r v).left = c.left := by
  unfold Strand.writeQ; split <;> rfl
@[simp] theorem Strand.writeQ_ranges (c : Strand) (r : QReg) (v : Tri) : (c.writeQ r v).ranges = c.ranges := by
  unfold Strand.writeQ; split <;> rfl

@[simp] theorem Strand.writeK_s (c : Strand) (r : KReg) (v : BitVec 128) : (c.writeK r v).s = c.s := by
  unfold Strand.writeK; split <;> rfl
@[simp] theorem Strand.writeK_iv (c : Strand) (r : KReg) (v : BitVec 128) : (c.writeK r v).iv = c.iv := by
  unfold Strand.writeK; split <;> rfl
@[simp] theorem Strand.writeK_sFill (c : Strand) (r : KReg) (v : BitVec 128) : (c.writeK r v).sFill = c.sFill := by
  unfold Strand.writeK; split <;> rfl
@[simp] theorem Strand.writeK_ivFill (c : Strand) (r : KReg) (v : BitVec 128) : (c.writeK r v).ivFill = c.ivFill := by
  unfold Strand.writeK; split <;> rfl
@[simp] theorem Strand.writeK_p (c : Strand) (r : KReg) (v : BitVec 128) : (c.writeK r v).p = c.p := by
  unfold Strand.writeK; split <;> rfl
@[simp] theorem Strand.writeK_q (c : Strand) (r : KReg) (v : BitVec 128) : (c.writeK r v).q = c.q := by
  unfold Strand.writeK; split <;> rfl
@[simp] theorem Strand.writeK_x (c : Strand) (r : KReg) (v : BitVec 128) : (c.writeK r v).x = c.x := by
  unfold Strand.writeK; split <;> rfl
@[simp] theorem Strand.writeK_pc (c : Strand) (r : KReg) (v : BitVec 128) : (c.writeK r v).pc = c.pc := by
  unfold Strand.writeK; split <;> rfl
@[simp] theorem Strand.writeK_ctl (c : Strand) (r : KReg) (v : BitVec 128) : (c.writeK r v).ctl = c.ctl := by
  unfold Strand.writeK; split <;> rfl
@[simp] theorem Strand.writeK_ident (c : Strand) (r : KReg) (v : BitVec 128) : (c.writeK r v).ident = c.ident := by
  unfold Strand.writeK; split <;> rfl
@[simp] theorem Strand.writeK_core (c : Strand) (r : KReg) (v : BitVec 128) : (c.writeK r v).core = c.core := by
  unfold Strand.writeK; split <;> rfl
@[simp] theorem Strand.writeK_place (c : Strand) (r : KReg) (v : BitVec 128) : (c.writeK r v).place = c.place := by
  unfold Strand.writeK; split <;> rfl
@[simp] theorem Strand.writeK_fetch (c : Strand) (r : KReg) (v : BitVec 128) : (c.writeK r v).fetch = c.fetch := by
  unfold Strand.writeK; split <;> rfl
@[simp] theorem Strand.writeK_prevPc (c : Strand) (r : KReg) (v : BitVec 128) : (c.writeK r v).prevPc = c.prevPc := by
  unfold Strand.writeK; split <;> rfl
@[simp] theorem Strand.writeK_wait (c : Strand) (r : KReg) (v : BitVec 128) : (c.writeK r v).wait = c.wait := by
  unfold Strand.writeK; split <;> rfl
@[simp] theorem Strand.writeK_kept (c : Strand) (r : KReg) (v : BitVec 128) : (c.writeK r v).kept = c.kept := by
  unfold Strand.writeK; split <;> rfl
@[simp] theorem Strand.writeK_heldSince (c : Strand) (r : KReg) (v : BitVec 128) : (c.writeK r v).heldSince = c.heldSince := by
  unfold Strand.writeK; split <;> rfl
@[simp] theorem Strand.writeK_heldRing (c : Strand) (r : KReg) (v : BitVec 128) : (c.writeK r v).heldRing = c.heldRing := by
  unfold Strand.writeK; split <;> rfl
@[simp] theorem Strand.writeK_heldLen (c : Strand) (r : KReg) (v : BitVec 128) : (c.writeK r v).heldLen = c.heldLen := by
  unfold Strand.writeK; split <;> rfl
@[simp] theorem Strand.writeK_grant (c : Strand) (r : KReg) (v : BitVec 128) : (c.writeK r v).grant = c.grant := by
  unfold Strand.writeK; split <;> rfl
@[simp] theorem Strand.writeK_bind (c : Strand) (r : KReg) (v : BitVec 128) : (c.writeK r v).bind = c.bind := by
  unfold Strand.writeK; split <;> rfl
@[simp] theorem Strand.writeK_owe (c : Strand) (r : KReg) (v : BitVec 128) : (c.writeK r v).owe = c.owe := by
  unfold Strand.writeK; split <;> rfl
@[simp] theorem Strand.writeK_readyAt (c : Strand) (r : KReg) (v : BitVec 128) : (c.writeK r v).readyAt = c.readyAt := by
  unfold Strand.writeK; split <;> rfl
@[simp] theorem Strand.writeK_turns (c : Strand) (r : KReg) (v : BitVec 128) : (c.writeK r v).turns = c.turns := by
  unfold Strand.writeK; split <;> rfl
@[simp] theorem Strand.writeK_mhome (c : Strand) (r : KReg) (v : BitVec 128) : (c.writeK r v).mhome = c.mhome := by
  unfold Strand.writeK; split <;> rfl
@[simp] theorem Strand.writeK_mcount (c : Strand) (r : KReg) (v : BitVec 128) : (c.writeK r v).mcount = c.mcount := by
  unfold Strand.writeK; split <;> rfl
@[simp] theorem Strand.writeK_span (c : Strand) (r : KReg) (v : BitVec 128) : (c.writeK r v).span = c.span := by
  unfold Strand.writeK; split <;> rfl
@[simp] theorem Strand.writeK_closes (c : Strand) (r : KReg) (v : BitVec 128) : (c.writeK r v).closes = c.closes := by
  unfold Strand.writeK; split <;> rfl
@[simp] theorem Strand.writeK_fails (c : Strand) (r : KReg) (v : BitVec 128) : (c.writeK r v).fails = c.fails := by
  unfold Strand.writeK; split <;> rfl
@[simp] theorem Strand.writeK_upcall (c : Strand) (r : KReg) (v : BitVec 128) : (c.writeK r v).upcall = c.upcall := by
  unfold Strand.writeK; split <;> rfl
@[simp] theorem Strand.writeK_acq (c : Strand) (r : KReg) (v : BitVec 128) : (c.writeK r v).acq = c.acq := by
  unfold Strand.writeK; split <;> rfl
@[simp] theorem Strand.writeK_retries (c : Strand) (r : KReg) (v : BitVec 128) : (c.writeK r v).retries = c.retries := by
  unfold Strand.writeK; split <;> rfl
@[simp] theorem Strand.writeK_retryPc (c : Strand) (r : KReg) (v : BitVec 128) : (c.writeK r v).retryPc = c.retryPc := by
  unfold Strand.writeK; split <;> rfl
@[simp] theorem Strand.writeK_barriers (c : Strand) (r : KReg) (v : BitVec 128) : (c.writeK r v).barriers = c.barriers := by
  unfold Strand.writeK; split <;> rfl
@[simp] theorem Strand.writeK_qfences (c : Strand) (r : KReg) (v : BitVec 128) : (c.writeK r v).qfences = c.qfences := by
  unfold Strand.writeK; split <;> rfl
@[simp] theorem Strand.writeK_left (c : Strand) (r : KReg) (v : BitVec 128) : (c.writeK r v).left = c.left := by
  unfold Strand.writeK; split <;> rfl
@[simp] theorem Strand.writeK_ranges (c : Strand) (r : KReg) (v : BitVec 128) : (c.writeK r v).ranges = c.ranges := by
  unfold Strand.writeK; split <;> rfl

@[simp] theorem Strand.writeX_s (c : Strand) (r : XReg) (v : Word) : (c.writeX r v).s = c.s := rfl
@[simp] theorem Strand.writeX_iv (c : Strand) (r : XReg) (v : Word) : (c.writeX r v).iv = c.iv := rfl
@[simp] theorem Strand.writeX_sFill (c : Strand) (r : XReg) (v : Word) : (c.writeX r v).sFill = c.sFill := rfl
@[simp] theorem Strand.writeX_ivFill (c : Strand) (r : XReg) (v : Word) : (c.writeX r v).ivFill = c.ivFill := rfl
@[simp] theorem Strand.writeX_p (c : Strand) (r : XReg) (v : Word) : (c.writeX r v).p = c.p := rfl
@[simp] theorem Strand.writeX_q (c : Strand) (r : XReg) (v : Word) : (c.writeX r v).q = c.q := rfl
@[simp] theorem Strand.writeX_k (c : Strand) (r : XReg) (v : Word) : (c.writeX r v).k = c.k := rfl
@[simp] theorem Strand.writeX_pc (c : Strand) (r : XReg) (v : Word) : (c.writeX r v).pc = c.pc := rfl
@[simp] theorem Strand.writeX_ctl (c : Strand) (r : XReg) (v : Word) : (c.writeX r v).ctl = c.ctl := rfl
@[simp] theorem Strand.writeX_ident (c : Strand) (r : XReg) (v : Word) : (c.writeX r v).ident = c.ident := rfl
@[simp] theorem Strand.writeX_core (c : Strand) (r : XReg) (v : Word) : (c.writeX r v).core = c.core := rfl
@[simp] theorem Strand.writeX_place (c : Strand) (r : XReg) (v : Word) : (c.writeX r v).place = c.place := rfl
@[simp] theorem Strand.writeX_fetch (c : Strand) (r : XReg) (v : Word) : (c.writeX r v).fetch = c.fetch := rfl
@[simp] theorem Strand.writeX_prevPc (c : Strand) (r : XReg) (v : Word) : (c.writeX r v).prevPc = c.prevPc := rfl
@[simp] theorem Strand.writeX_wait (c : Strand) (r : XReg) (v : Word) : (c.writeX r v).wait = c.wait := rfl
@[simp] theorem Strand.writeX_kept (c : Strand) (r : XReg) (v : Word) : (c.writeX r v).kept = c.kept := rfl
@[simp] theorem Strand.writeX_heldSince (c : Strand) (r : XReg) (v : Word) : (c.writeX r v).heldSince = c.heldSince := rfl
@[simp] theorem Strand.writeX_heldRing (c : Strand) (r : XReg) (v : Word) : (c.writeX r v).heldRing = c.heldRing := rfl
@[simp] theorem Strand.writeX_heldLen (c : Strand) (r : XReg) (v : Word) : (c.writeX r v).heldLen = c.heldLen := rfl
@[simp] theorem Strand.writeX_grant (c : Strand) (r : XReg) (v : Word) : (c.writeX r v).grant = c.grant := rfl
@[simp] theorem Strand.writeX_bind (c : Strand) (r : XReg) (v : Word) : (c.writeX r v).bind = c.bind := rfl
@[simp] theorem Strand.writeX_owe (c : Strand) (r : XReg) (v : Word) : (c.writeX r v).owe = c.owe := rfl
@[simp] theorem Strand.writeX_readyAt (c : Strand) (r : XReg) (v : Word) : (c.writeX r v).readyAt = c.readyAt := rfl
@[simp] theorem Strand.writeX_turns (c : Strand) (r : XReg) (v : Word) : (c.writeX r v).turns = c.turns := rfl
@[simp] theorem Strand.writeX_mhome (c : Strand) (r : XReg) (v : Word) : (c.writeX r v).mhome = c.mhome := rfl
@[simp] theorem Strand.writeX_mcount (c : Strand) (r : XReg) (v : Word) : (c.writeX r v).mcount = c.mcount := rfl
@[simp] theorem Strand.writeX_span (c : Strand) (r : XReg) (v : Word) : (c.writeX r v).span = c.span := rfl
@[simp] theorem Strand.writeX_closes (c : Strand) (r : XReg) (v : Word) : (c.writeX r v).closes = c.closes := rfl
@[simp] theorem Strand.writeX_fails (c : Strand) (r : XReg) (v : Word) : (c.writeX r v).fails = c.fails := rfl
@[simp] theorem Strand.writeX_upcall (c : Strand) (r : XReg) (v : Word) : (c.writeX r v).upcall = c.upcall := rfl
@[simp] theorem Strand.writeX_acq (c : Strand) (r : XReg) (v : Word) : (c.writeX r v).acq = c.acq := rfl
@[simp] theorem Strand.writeX_retries (c : Strand) (r : XReg) (v : Word) : (c.writeX r v).retries = c.retries := rfl
@[simp] theorem Strand.writeX_retryPc (c : Strand) (r : XReg) (v : Word) : (c.writeX r v).retryPc = c.retryPc := rfl
@[simp] theorem Strand.writeX_barriers (c : Strand) (r : XReg) (v : Word) : (c.writeX r v).barriers = c.barriers := rfl
@[simp] theorem Strand.writeX_qfences (c : Strand) (r : XReg) (v : Word) : (c.writeX r v).qfences = c.qfences := rfl
@[simp] theorem Strand.writeX_left (c : Strand) (r : XReg) (v : Word) : (c.writeX r v).left = c.left := rfl
@[simp] theorem Strand.writeX_ranges (c : Strand) (r : XReg) (v : Word) : (c.writeX r v).ranges = c.ranges := rfl

@[simp] theorem Strand.stepP_s (c : Strand) (r : PReg) (b : Bool) : (c.stepP r b).s = c.s := by
  unfold Strand.stepP; split <;> rfl
@[simp] theorem Strand.stepP_iv (c : Strand) (r : PReg) (b : Bool) : (c.stepP r b).iv = c.iv := by
  unfold Strand.stepP; split <;> rfl
@[simp] theorem Strand.stepP_sFill (c : Strand) (r : PReg) (b : Bool) : (c.stepP r b).sFill = c.sFill := by
  unfold Strand.stepP; split <;> rfl
@[simp] theorem Strand.stepP_ivFill (c : Strand) (r : PReg) (b : Bool) : (c.stepP r b).ivFill = c.ivFill := by
  unfold Strand.stepP; split <;> rfl
@[simp] theorem Strand.stepP_q (c : Strand) (r : PReg) (b : Bool) : (c.stepP r b).q = c.q := by
  unfold Strand.stepP; split <;> rfl
@[simp] theorem Strand.stepP_k (c : Strand) (r : PReg) (b : Bool) : (c.stepP r b).k = c.k := by
  unfold Strand.stepP; split <;> rfl
@[simp] theorem Strand.stepP_x (c : Strand) (r : PReg) (b : Bool) : (c.stepP r b).x = c.x := by
  unfold Strand.stepP; split <;> rfl
@[simp] theorem Strand.stepP_pc (c : Strand) (r : PReg) (b : Bool) : (c.stepP r b).pc = c.pc := by
  unfold Strand.stepP; split <;> rfl
@[simp] theorem Strand.stepP_ctl (c : Strand) (r : PReg) (b : Bool) : (c.stepP r b).ctl = c.ctl := by
  unfold Strand.stepP; split <;> rfl
@[simp] theorem Strand.stepP_ident (c : Strand) (r : PReg) (b : Bool) : (c.stepP r b).ident = c.ident := by
  unfold Strand.stepP; split <;> rfl
@[simp] theorem Strand.stepP_core (c : Strand) (r : PReg) (b : Bool) : (c.stepP r b).core = c.core := by
  unfold Strand.stepP; split <;> rfl
@[simp] theorem Strand.stepP_place (c : Strand) (r : PReg) (b : Bool) : (c.stepP r b).place = c.place := by
  unfold Strand.stepP; split <;> rfl
@[simp] theorem Strand.stepP_fetch (c : Strand) (r : PReg) (b : Bool) : (c.stepP r b).fetch = c.fetch := by
  unfold Strand.stepP; split <;> rfl
@[simp] theorem Strand.stepP_prevPc (c : Strand) (r : PReg) (b : Bool) : (c.stepP r b).prevPc = c.prevPc := by
  unfold Strand.stepP; split <;> rfl
@[simp] theorem Strand.stepP_wait (c : Strand) (r : PReg) (b : Bool) : (c.stepP r b).wait = c.wait := by
  unfold Strand.stepP; split <;> rfl
@[simp] theorem Strand.stepP_kept (c : Strand) (r : PReg) (b : Bool) : (c.stepP r b).kept = c.kept := by
  unfold Strand.stepP; split <;> rfl
@[simp] theorem Strand.stepP_heldSince (c : Strand) (r : PReg) (b : Bool) : (c.stepP r b).heldSince = c.heldSince := by
  unfold Strand.stepP; split <;> rfl
@[simp] theorem Strand.stepP_heldRing (c : Strand) (r : PReg) (b : Bool) : (c.stepP r b).heldRing = c.heldRing := by
  unfold Strand.stepP; split <;> rfl
@[simp] theorem Strand.stepP_heldLen (c : Strand) (r : PReg) (b : Bool) : (c.stepP r b).heldLen = c.heldLen := by
  unfold Strand.stepP; split <;> rfl
@[simp] theorem Strand.stepP_grant (c : Strand) (r : PReg) (b : Bool) : (c.stepP r b).grant = c.grant := by
  unfold Strand.stepP; split <;> rfl
@[simp] theorem Strand.stepP_bind (c : Strand) (r : PReg) (b : Bool) : (c.stepP r b).bind = c.bind := by
  unfold Strand.stepP; split <;> rfl
@[simp] theorem Strand.stepP_owe (c : Strand) (r : PReg) (b : Bool) : (c.stepP r b).owe = c.owe := by
  unfold Strand.stepP; split <;> rfl
@[simp] theorem Strand.stepP_readyAt (c : Strand) (r : PReg) (b : Bool) : (c.stepP r b).readyAt = c.readyAt := by
  unfold Strand.stepP; split <;> rfl
@[simp] theorem Strand.stepP_turns (c : Strand) (r : PReg) (b : Bool) : (c.stepP r b).turns = c.turns := by
  unfold Strand.stepP; split <;> rfl
@[simp] theorem Strand.stepP_mhome (c : Strand) (r : PReg) (b : Bool) : (c.stepP r b).mhome = c.mhome := by
  unfold Strand.stepP; split <;> rfl
@[simp] theorem Strand.stepP_mcount (c : Strand) (r : PReg) (b : Bool) : (c.stepP r b).mcount = c.mcount := by
  unfold Strand.stepP; split <;> rfl
@[simp] theorem Strand.stepP_span (c : Strand) (r : PReg) (b : Bool) : (c.stepP r b).span = c.span := by
  unfold Strand.stepP; split <;> rfl
@[simp] theorem Strand.stepP_closes (c : Strand) (r : PReg) (b : Bool) : (c.stepP r b).closes = c.closes := by
  unfold Strand.stepP; split <;> rfl
@[simp] theorem Strand.stepP_fails (c : Strand) (r : PReg) (b : Bool) : (c.stepP r b).fails = c.fails := by
  unfold Strand.stepP; split <;> rfl
@[simp] theorem Strand.stepP_upcall (c : Strand) (r : PReg) (b : Bool) : (c.stepP r b).upcall = c.upcall := by
  unfold Strand.stepP; split <;> rfl
@[simp] theorem Strand.stepP_acq (c : Strand) (r : PReg) (b : Bool) : (c.stepP r b).acq = c.acq := by
  unfold Strand.stepP; split <;> rfl
@[simp] theorem Strand.stepP_retries (c : Strand) (r : PReg) (b : Bool) : (c.stepP r b).retries = c.retries := by
  unfold Strand.stepP; split <;> rfl
@[simp] theorem Strand.stepP_retryPc (c : Strand) (r : PReg) (b : Bool) : (c.stepP r b).retryPc = c.retryPc := by
  unfold Strand.stepP; split <;> rfl
@[simp] theorem Strand.stepP_barriers (c : Strand) (r : PReg) (b : Bool) : (c.stepP r b).barriers = c.barriers := by
  unfold Strand.stepP; split <;> rfl
@[simp] theorem Strand.stepP_qfences (c : Strand) (r : PReg) (b : Bool) : (c.stepP r b).qfences = c.qfences := by
  unfold Strand.stepP; split <;> rfl
@[simp] theorem Strand.stepP_left (c : Strand) (r : PReg) (b : Bool) : (c.stepP r b).left = c.left := by
  unfold Strand.stepP; split <;> rfl
@[simp] theorem Strand.stepP_ranges (c : Strand) (r : PReg) (b : Bool) : (c.stepP r b).ranges = c.ranges := by
  unfold Strand.stepP; split <;> rfl

@[simp] theorem Strand.markS_s (c : Strand) (r : SReg) (b : Bool) : (c.markS r b).s = c.s := by
  unfold Strand.markS; split <;> simp
@[simp] theorem Strand.markS_iv (c : Strand) (r : SReg) (b : Bool) : (c.markS r b).iv = c.iv := by
  unfold Strand.markS; split <;> simp
@[simp] theorem Strand.markS_ivFill (c : Strand) (r : SReg) (b : Bool) : (c.markS r b).ivFill = c.ivFill := by
  unfold Strand.markS; split <;> simp
@[simp] theorem Strand.markS_p (c : Strand) (r : SReg) (b : Bool) : (c.markS r b).p = c.p := by
  unfold Strand.markS; split <;> simp
@[simp] theorem Strand.markS_q (c : Strand) (r : SReg) (b : Bool) : (c.markS r b).q = c.q := by
  unfold Strand.markS; split <;> simp
@[simp] theorem Strand.markS_k (c : Strand) (r : SReg) (b : Bool) : (c.markS r b).k = c.k := by
  unfold Strand.markS; split <;> simp
@[simp] theorem Strand.markS_x (c : Strand) (r : SReg) (b : Bool) : (c.markS r b).x = c.x := by
  unfold Strand.markS; split <;> simp
@[simp] theorem Strand.markS_pc (c : Strand) (r : SReg) (b : Bool) : (c.markS r b).pc = c.pc := by
  unfold Strand.markS; split <;> simp
@[simp] theorem Strand.markS_ctl (c : Strand) (r : SReg) (b : Bool) : (c.markS r b).ctl = c.ctl := by
  unfold Strand.markS; split <;> simp
@[simp] theorem Strand.markS_ident (c : Strand) (r : SReg) (b : Bool) : (c.markS r b).ident = c.ident := by
  unfold Strand.markS; split <;> simp
@[simp] theorem Strand.markS_core (c : Strand) (r : SReg) (b : Bool) : (c.markS r b).core = c.core := by
  unfold Strand.markS; split <;> simp
@[simp] theorem Strand.markS_place (c : Strand) (r : SReg) (b : Bool) : (c.markS r b).place = c.place := by
  unfold Strand.markS; split <;> simp
@[simp] theorem Strand.markS_fetch (c : Strand) (r : SReg) (b : Bool) : (c.markS r b).fetch = c.fetch := by
  unfold Strand.markS; split <;> simp
@[simp] theorem Strand.markS_prevPc (c : Strand) (r : SReg) (b : Bool) : (c.markS r b).prevPc = c.prevPc := by
  unfold Strand.markS; split <;> simp
@[simp] theorem Strand.markS_wait (c : Strand) (r : SReg) (b : Bool) : (c.markS r b).wait = c.wait := by
  unfold Strand.markS; split <;> simp
@[simp] theorem Strand.markS_kept (c : Strand) (r : SReg) (b : Bool) : (c.markS r b).kept = c.kept := by
  unfold Strand.markS; split <;> simp
@[simp] theorem Strand.markS_heldSince (c : Strand) (r : SReg) (b : Bool) : (c.markS r b).heldSince = c.heldSince := by
  unfold Strand.markS; split <;> simp
@[simp] theorem Strand.markS_heldRing (c : Strand) (r : SReg) (b : Bool) : (c.markS r b).heldRing = c.heldRing := by
  unfold Strand.markS; split <;> simp
@[simp] theorem Strand.markS_heldLen (c : Strand) (r : SReg) (b : Bool) : (c.markS r b).heldLen = c.heldLen := by
  unfold Strand.markS; split <;> simp
@[simp] theorem Strand.markS_grant (c : Strand) (r : SReg) (b : Bool) : (c.markS r b).grant = c.grant := by
  unfold Strand.markS; split <;> simp
@[simp] theorem Strand.markS_bind (c : Strand) (r : SReg) (b : Bool) : (c.markS r b).bind = c.bind := by
  unfold Strand.markS; split <;> simp
@[simp] theorem Strand.markS_owe (c : Strand) (r : SReg) (b : Bool) : (c.markS r b).owe = c.owe := by
  unfold Strand.markS; split <;> simp
@[simp] theorem Strand.markS_readyAt (c : Strand) (r : SReg) (b : Bool) : (c.markS r b).readyAt = c.readyAt := by
  unfold Strand.markS; split <;> simp
@[simp] theorem Strand.markS_turns (c : Strand) (r : SReg) (b : Bool) : (c.markS r b).turns = c.turns := by
  unfold Strand.markS; split <;> simp
@[simp] theorem Strand.markS_mhome (c : Strand) (r : SReg) (b : Bool) : (c.markS r b).mhome = c.mhome := by
  unfold Strand.markS; split <;> simp
@[simp] theorem Strand.markS_mcount (c : Strand) (r : SReg) (b : Bool) : (c.markS r b).mcount = c.mcount := by
  unfold Strand.markS; split <;> simp
@[simp] theorem Strand.markS_span (c : Strand) (r : SReg) (b : Bool) : (c.markS r b).span = c.span := by
  unfold Strand.markS; split <;> simp
@[simp] theorem Strand.markS_closes (c : Strand) (r : SReg) (b : Bool) : (c.markS r b).closes = c.closes := by
  unfold Strand.markS; split <;> simp
@[simp] theorem Strand.markS_fails (c : Strand) (r : SReg) (b : Bool) : (c.markS r b).fails = c.fails := by
  unfold Strand.markS; split <;> simp
@[simp] theorem Strand.markS_upcall (c : Strand) (r : SReg) (b : Bool) : (c.markS r b).upcall = c.upcall := by
  unfold Strand.markS; split <;> simp
@[simp] theorem Strand.markS_acq (c : Strand) (r : SReg) (b : Bool) : (c.markS r b).acq = c.acq := by
  unfold Strand.markS; split <;> simp
@[simp] theorem Strand.markS_retries (c : Strand) (r : SReg) (b : Bool) : (c.markS r b).retries = c.retries := by
  unfold Strand.markS; split <;> simp
@[simp] theorem Strand.markS_retryPc (c : Strand) (r : SReg) (b : Bool) : (c.markS r b).retryPc = c.retryPc := by
  unfold Strand.markS; split <;> simp
@[simp] theorem Strand.markS_barriers (c : Strand) (r : SReg) (b : Bool) : (c.markS r b).barriers = c.barriers := by
  unfold Strand.markS; split <;> simp
@[simp] theorem Strand.markS_qfences (c : Strand) (r : SReg) (b : Bool) : (c.markS r b).qfences = c.qfences := by
  unfold Strand.markS; split <;> simp
@[simp] theorem Strand.markS_left (c : Strand) (r : SReg) (b : Bool) : (c.markS r b).left = c.left := by
  unfold Strand.markS; split <;> simp
@[simp] theorem Strand.markS_ranges (c : Strand) (r : SReg) (b : Bool) : (c.markS r b).ranges = c.ranges := by
  unfold Strand.markS; split <;> simp

@[simp] theorem Strand.markIv_s (c : Strand) (r : IvReg) (b : Bool) : (c.markIv r b).s = c.s := by
  unfold Strand.markIv; split <;> rfl
@[simp] theorem Strand.markIv_iv (c : Strand) (r : IvReg) (b : Bool) : (c.markIv r b).iv = c.iv := by
  unfold Strand.markIv; split <;> rfl
@[simp] theorem Strand.markIv_sFill (c : Strand) (r : IvReg) (b : Bool) : (c.markIv r b).sFill = c.sFill := by
  unfold Strand.markIv; split <;> rfl
@[simp] theorem Strand.markIv_p (c : Strand) (r : IvReg) (b : Bool) : (c.markIv r b).p = c.p := by
  unfold Strand.markIv; split <;> rfl
@[simp] theorem Strand.markIv_q (c : Strand) (r : IvReg) (b : Bool) : (c.markIv r b).q = c.q := by
  unfold Strand.markIv; split <;> rfl
@[simp] theorem Strand.markIv_k (c : Strand) (r : IvReg) (b : Bool) : (c.markIv r b).k = c.k := by
  unfold Strand.markIv; split <;> rfl
@[simp] theorem Strand.markIv_x (c : Strand) (r : IvReg) (b : Bool) : (c.markIv r b).x = c.x := by
  unfold Strand.markIv; split <;> rfl
@[simp] theorem Strand.markIv_pc (c : Strand) (r : IvReg) (b : Bool) : (c.markIv r b).pc = c.pc := by
  unfold Strand.markIv; split <;> rfl
@[simp] theorem Strand.markIv_ctl (c : Strand) (r : IvReg) (b : Bool) : (c.markIv r b).ctl = c.ctl := by
  unfold Strand.markIv; split <;> rfl
@[simp] theorem Strand.markIv_ident (c : Strand) (r : IvReg) (b : Bool) : (c.markIv r b).ident = c.ident := by
  unfold Strand.markIv; split <;> rfl
@[simp] theorem Strand.markIv_core (c : Strand) (r : IvReg) (b : Bool) : (c.markIv r b).core = c.core := by
  unfold Strand.markIv; split <;> rfl
@[simp] theorem Strand.markIv_place (c : Strand) (r : IvReg) (b : Bool) : (c.markIv r b).place = c.place := by
  unfold Strand.markIv; split <;> rfl
@[simp] theorem Strand.markIv_fetch (c : Strand) (r : IvReg) (b : Bool) : (c.markIv r b).fetch = c.fetch := by
  unfold Strand.markIv; split <;> rfl
@[simp] theorem Strand.markIv_prevPc (c : Strand) (r : IvReg) (b : Bool) : (c.markIv r b).prevPc = c.prevPc := by
  unfold Strand.markIv; split <;> rfl
@[simp] theorem Strand.markIv_wait (c : Strand) (r : IvReg) (b : Bool) : (c.markIv r b).wait = c.wait := by
  unfold Strand.markIv; split <;> rfl
@[simp] theorem Strand.markIv_kept (c : Strand) (r : IvReg) (b : Bool) : (c.markIv r b).kept = c.kept := by
  unfold Strand.markIv; split <;> rfl
@[simp] theorem Strand.markIv_heldSince (c : Strand) (r : IvReg) (b : Bool) : (c.markIv r b).heldSince = c.heldSince := by
  unfold Strand.markIv; split <;> rfl
@[simp] theorem Strand.markIv_heldRing (c : Strand) (r : IvReg) (b : Bool) : (c.markIv r b).heldRing = c.heldRing := by
  unfold Strand.markIv; split <;> rfl
@[simp] theorem Strand.markIv_heldLen (c : Strand) (r : IvReg) (b : Bool) : (c.markIv r b).heldLen = c.heldLen := by
  unfold Strand.markIv; split <;> rfl
@[simp] theorem Strand.markIv_grant (c : Strand) (r : IvReg) (b : Bool) : (c.markIv r b).grant = c.grant := by
  unfold Strand.markIv; split <;> rfl
@[simp] theorem Strand.markIv_bind (c : Strand) (r : IvReg) (b : Bool) : (c.markIv r b).bind = c.bind := by
  unfold Strand.markIv; split <;> rfl
@[simp] theorem Strand.markIv_owe (c : Strand) (r : IvReg) (b : Bool) : (c.markIv r b).owe = c.owe := by
  unfold Strand.markIv; split <;> rfl
@[simp] theorem Strand.markIv_readyAt (c : Strand) (r : IvReg) (b : Bool) : (c.markIv r b).readyAt = c.readyAt := by
  unfold Strand.markIv; split <;> rfl
@[simp] theorem Strand.markIv_turns (c : Strand) (r : IvReg) (b : Bool) : (c.markIv r b).turns = c.turns := by
  unfold Strand.markIv; split <;> rfl
@[simp] theorem Strand.markIv_mhome (c : Strand) (r : IvReg) (b : Bool) : (c.markIv r b).mhome = c.mhome := by
  unfold Strand.markIv; split <;> rfl
@[simp] theorem Strand.markIv_mcount (c : Strand) (r : IvReg) (b : Bool) : (c.markIv r b).mcount = c.mcount := by
  unfold Strand.markIv; split <;> rfl
@[simp] theorem Strand.markIv_span (c : Strand) (r : IvReg) (b : Bool) : (c.markIv r b).span = c.span := by
  unfold Strand.markIv; split <;> rfl
@[simp] theorem Strand.markIv_closes (c : Strand) (r : IvReg) (b : Bool) : (c.markIv r b).closes = c.closes := by
  unfold Strand.markIv; split <;> rfl
@[simp] theorem Strand.markIv_fails (c : Strand) (r : IvReg) (b : Bool) : (c.markIv r b).fails = c.fails := by
  unfold Strand.markIv; split <;> rfl
@[simp] theorem Strand.markIv_upcall (c : Strand) (r : IvReg) (b : Bool) : (c.markIv r b).upcall = c.upcall := by
  unfold Strand.markIv; split <;> rfl
@[simp] theorem Strand.markIv_acq (c : Strand) (r : IvReg) (b : Bool) : (c.markIv r b).acq = c.acq := by
  unfold Strand.markIv; split <;> rfl
@[simp] theorem Strand.markIv_retries (c : Strand) (r : IvReg) (b : Bool) : (c.markIv r b).retries = c.retries := by
  unfold Strand.markIv; split <;> rfl
@[simp] theorem Strand.markIv_retryPc (c : Strand) (r : IvReg) (b : Bool) : (c.markIv r b).retryPc = c.retryPc := by
  unfold Strand.markIv; split <;> rfl
@[simp] theorem Strand.markIv_barriers (c : Strand) (r : IvReg) (b : Bool) : (c.markIv r b).barriers = c.barriers := by
  unfold Strand.markIv; split <;> rfl
@[simp] theorem Strand.markIv_qfences (c : Strand) (r : IvReg) (b : Bool) : (c.markIv r b).qfences = c.qfences := by
  unfold Strand.markIv; split <;> rfl
@[simp] theorem Strand.markIv_left (c : Strand) (r : IvReg) (b : Bool) : (c.markIv r b).left = c.left := by
  unfold Strand.markIv; split <;> rfl
@[simp] theorem Strand.markIv_ranges (c : Strand) (r : IvReg) (b : Bool) : (c.markIv r b).ranges = c.ranges := by
  unfold Strand.markIv; split <;> rfl

@[simp] theorem Strand.goto_s (c : Strand) (a : Word) : (c.goto a).s = c.s := rfl
@[simp] theorem Strand.goto_iv (c : Strand) (a : Word) : (c.goto a).iv = c.iv := rfl
@[simp] theorem Strand.goto_sFill (c : Strand) (a : Word) : (c.goto a).sFill = c.sFill := rfl
@[simp] theorem Strand.goto_ivFill (c : Strand) (a : Word) : (c.goto a).ivFill = c.ivFill := rfl
@[simp] theorem Strand.goto_p (c : Strand) (a : Word) : (c.goto a).p = c.p := rfl
@[simp] theorem Strand.goto_q (c : Strand) (a : Word) : (c.goto a).q = c.q := rfl
@[simp] theorem Strand.goto_k (c : Strand) (a : Word) : (c.goto a).k = c.k := rfl
@[simp] theorem Strand.goto_x (c : Strand) (a : Word) : (c.goto a).x = c.x := rfl
@[simp] theorem Strand.goto_ctl (c : Strand) (a : Word) : (c.goto a).ctl = c.ctl := rfl
@[simp] theorem Strand.goto_ident (c : Strand) (a : Word) : (c.goto a).ident = c.ident := rfl
@[simp] theorem Strand.goto_core (c : Strand) (a : Word) : (c.goto a).core = c.core := rfl
@[simp] theorem Strand.goto_place (c : Strand) (a : Word) : (c.goto a).place = c.place := rfl
@[simp] theorem Strand.goto_heldRing (c : Strand) (a : Word) : (c.goto a).heldRing = c.heldRing := rfl
@[simp] theorem Strand.goto_heldLen (c : Strand) (a : Word) : (c.goto a).heldLen = c.heldLen := rfl
@[simp] theorem Strand.goto_readyAt (c : Strand) (a : Word) : (c.goto a).readyAt = c.readyAt := rfl
@[simp] theorem Strand.goto_turns (c : Strand) (a : Word) : (c.goto a).turns = c.turns := rfl
@[simp] theorem Strand.goto_mhome (c : Strand) (a : Word) : (c.goto a).mhome = c.mhome := rfl
@[simp] theorem Strand.goto_mcount (c : Strand) (a : Word) : (c.goto a).mcount = c.mcount := rfl
@[simp] theorem Strand.goto_span (c : Strand) (a : Word) : (c.goto a).span = c.span := rfl
@[simp] theorem Strand.goto_closes (c : Strand) (a : Word) : (c.goto a).closes = c.closes := rfl
@[simp] theorem Strand.goto_fails (c : Strand) (a : Word) : (c.goto a).fails = c.fails := rfl
@[simp] theorem Strand.goto_upcall (c : Strand) (a : Word) : (c.goto a).upcall = c.upcall := rfl
@[simp] theorem Strand.goto_acq (c : Strand) (a : Word) : (c.goto a).acq = c.acq := rfl
@[simp] theorem Strand.goto_retryPc (c : Strand) (a : Word) : (c.goto a).retryPc = c.retryPc := rfl
@[simp] theorem Strand.goto_barriers (c : Strand) (a : Word) : (c.goto a).barriers = c.barriers := rfl
@[simp] theorem Strand.goto_qfences (c : Strand) (a : Word) : (c.goto a).qfences = c.qfences := rfl
@[simp] theorem Strand.goto_left (c : Strand) (a : Word) : (c.goto a).left = c.left := rfl
@[simp] theorem Strand.goto_ranges (c : Strand) (a : Word) : (c.goto a).ranges = c.ranges := rfl

@[simp] theorem Strand.advance_s (c : Strand) (n : Nat) : (c.advance n).s = c.s := rfl
@[simp] theorem Strand.advance_iv (c : Strand) (n : Nat) : (c.advance n).iv = c.iv := rfl
@[simp] theorem Strand.advance_sFill (c : Strand) (n : Nat) : (c.advance n).sFill = c.sFill := rfl
@[simp] theorem Strand.advance_ivFill (c : Strand) (n : Nat) : (c.advance n).ivFill = c.ivFill := rfl
@[simp] theorem Strand.advance_p (c : Strand) (n : Nat) : (c.advance n).p = c.p := rfl
@[simp] theorem Strand.advance_q (c : Strand) (n : Nat) : (c.advance n).q = c.q := rfl
@[simp] theorem Strand.advance_k (c : Strand) (n : Nat) : (c.advance n).k = c.k := rfl
@[simp] theorem Strand.advance_x (c : Strand) (n : Nat) : (c.advance n).x = c.x := rfl
@[simp] theorem Strand.advance_ctl (c : Strand) (n : Nat) : (c.advance n).ctl = c.ctl := rfl
@[simp] theorem Strand.advance_ident (c : Strand) (n : Nat) : (c.advance n).ident = c.ident := rfl
@[simp] theorem Strand.advance_core (c : Strand) (n : Nat) : (c.advance n).core = c.core := rfl
@[simp] theorem Strand.advance_place (c : Strand) (n : Nat) : (c.advance n).place = c.place := rfl
@[simp] theorem Strand.advance_heldRing (c : Strand) (n : Nat) : (c.advance n).heldRing = c.heldRing := rfl
@[simp] theorem Strand.advance_heldLen (c : Strand) (n : Nat) : (c.advance n).heldLen = c.heldLen := rfl
@[simp] theorem Strand.advance_readyAt (c : Strand) (n : Nat) : (c.advance n).readyAt = c.readyAt := rfl
@[simp] theorem Strand.advance_turns (c : Strand) (n : Nat) : (c.advance n).turns = c.turns := rfl
@[simp] theorem Strand.advance_mhome (c : Strand) (n : Nat) : (c.advance n).mhome = c.mhome := rfl
@[simp] theorem Strand.advance_mcount (c : Strand) (n : Nat) : (c.advance n).mcount = c.mcount := rfl
@[simp] theorem Strand.advance_span (c : Strand) (n : Nat) : (c.advance n).span = c.span := rfl
@[simp] theorem Strand.advance_closes (c : Strand) (n : Nat) : (c.advance n).closes = c.closes := rfl
@[simp] theorem Strand.advance_fails (c : Strand) (n : Nat) : (c.advance n).fails = c.fails := rfl
@[simp] theorem Strand.advance_upcall (c : Strand) (n : Nat) : (c.advance n).upcall = c.upcall := rfl
@[simp] theorem Strand.advance_acq (c : Strand) (n : Nat) : (c.advance n).acq = c.acq := rfl
@[simp] theorem Strand.advance_retryPc (c : Strand) (n : Nat) : (c.advance n).retryPc = c.retryPc := rfl
@[simp] theorem Strand.advance_barriers (c : Strand) (n : Nat) : (c.advance n).barriers = c.barriers := rfl
@[simp] theorem Strand.advance_qfences (c : Strand) (n : Nat) : (c.advance n).qfences = c.qfences := rfl
@[simp] theorem Strand.advance_left (c : Strand) (n : Nat) : (c.advance n).left = c.left := rfl
@[simp] theorem Strand.advance_ranges (c : Strand) (n : Nat) : (c.advance n).ranges = c.ranges := rfl

@[simp] theorem Strand.noteFp_s (c : Strand) (fl : BitVec 6) (n : Nat) : (c.noteFp fl n).s = c.s := rfl
@[simp] theorem Strand.noteFp_iv (c : Strand) (fl : BitVec 6) (n : Nat) : (c.noteFp fl n).iv = c.iv := rfl
@[simp] theorem Strand.noteFp_sFill (c : Strand) (fl : BitVec 6) (n : Nat) : (c.noteFp fl n).sFill = c.sFill := rfl
@[simp] theorem Strand.noteFp_ivFill (c : Strand) (fl : BitVec 6) (n : Nat) : (c.noteFp fl n).ivFill = c.ivFill := rfl
@[simp] theorem Strand.noteFp_p (c : Strand) (fl : BitVec 6) (n : Nat) : (c.noteFp fl n).p = c.p := rfl
@[simp] theorem Strand.noteFp_q (c : Strand) (fl : BitVec 6) (n : Nat) : (c.noteFp fl n).q = c.q := rfl
@[simp] theorem Strand.noteFp_k (c : Strand) (fl : BitVec 6) (n : Nat) : (c.noteFp fl n).k = c.k := rfl
@[simp] theorem Strand.noteFp_x (c : Strand) (fl : BitVec 6) (n : Nat) : (c.noteFp fl n).x = c.x := rfl
@[simp] theorem Strand.noteFp_pc (c : Strand) (fl : BitVec 6) (n : Nat) : (c.noteFp fl n).pc = c.pc := rfl
@[simp] theorem Strand.noteFp_ident (c : Strand) (fl : BitVec 6) (n : Nat) : (c.noteFp fl n).ident = c.ident := rfl
@[simp] theorem Strand.noteFp_core (c : Strand) (fl : BitVec 6) (n : Nat) : (c.noteFp fl n).core = c.core := rfl
@[simp] theorem Strand.noteFp_place (c : Strand) (fl : BitVec 6) (n : Nat) : (c.noteFp fl n).place = c.place := rfl
@[simp] theorem Strand.noteFp_fetch (c : Strand) (fl : BitVec 6) (n : Nat) : (c.noteFp fl n).fetch = c.fetch := rfl
@[simp] theorem Strand.noteFp_prevPc (c : Strand) (fl : BitVec 6) (n : Nat) : (c.noteFp fl n).prevPc = c.prevPc := rfl
@[simp] theorem Strand.noteFp_wait (c : Strand) (fl : BitVec 6) (n : Nat) : (c.noteFp fl n).wait = c.wait := rfl
@[simp] theorem Strand.noteFp_kept (c : Strand) (fl : BitVec 6) (n : Nat) : (c.noteFp fl n).kept = c.kept := rfl
@[simp] theorem Strand.noteFp_heldSince (c : Strand) (fl : BitVec 6) (n : Nat) : (c.noteFp fl n).heldSince = c.heldSince := rfl
@[simp] theorem Strand.noteFp_heldRing (c : Strand) (fl : BitVec 6) (n : Nat) : (c.noteFp fl n).heldRing = c.heldRing := rfl
@[simp] theorem Strand.noteFp_heldLen (c : Strand) (fl : BitVec 6) (n : Nat) : (c.noteFp fl n).heldLen = c.heldLen := rfl
@[simp] theorem Strand.noteFp_grant (c : Strand) (fl : BitVec 6) (n : Nat) : (c.noteFp fl n).grant = c.grant := rfl
@[simp] theorem Strand.noteFp_bind (c : Strand) (fl : BitVec 6) (n : Nat) : (c.noteFp fl n).bind = c.bind := rfl
@[simp] theorem Strand.noteFp_owe (c : Strand) (fl : BitVec 6) (n : Nat) : (c.noteFp fl n).owe = c.owe := rfl
@[simp] theorem Strand.noteFp_readyAt (c : Strand) (fl : BitVec 6) (n : Nat) : (c.noteFp fl n).readyAt = c.readyAt := rfl
@[simp] theorem Strand.noteFp_turns (c : Strand) (fl : BitVec 6) (n : Nat) : (c.noteFp fl n).turns = c.turns := rfl
@[simp] theorem Strand.noteFp_mhome (c : Strand) (fl : BitVec 6) (n : Nat) : (c.noteFp fl n).mhome = c.mhome := rfl
@[simp] theorem Strand.noteFp_mcount (c : Strand) (fl : BitVec 6) (n : Nat) : (c.noteFp fl n).mcount = c.mcount := rfl
@[simp] theorem Strand.noteFp_span (c : Strand) (fl : BitVec 6) (n : Nat) : (c.noteFp fl n).span = c.span := rfl
@[simp] theorem Strand.noteFp_closes (c : Strand) (fl : BitVec 6) (n : Nat) : (c.noteFp fl n).closes = c.closes := rfl
@[simp] theorem Strand.noteFp_fails (c : Strand) (fl : BitVec 6) (n : Nat) : (c.noteFp fl n).fails = c.fails := rfl
@[simp] theorem Strand.noteFp_upcall (c : Strand) (fl : BitVec 6) (n : Nat) : (c.noteFp fl n).upcall = c.upcall := rfl
@[simp] theorem Strand.noteFp_acq (c : Strand) (fl : BitVec 6) (n : Nat) : (c.noteFp fl n).acq = c.acq := rfl
@[simp] theorem Strand.noteFp_retries (c : Strand) (fl : BitVec 6) (n : Nat) : (c.noteFp fl n).retries = c.retries := rfl
@[simp] theorem Strand.noteFp_retryPc (c : Strand) (fl : BitVec 6) (n : Nat) : (c.noteFp fl n).retryPc = c.retryPc := rfl
@[simp] theorem Strand.noteFp_barriers (c : Strand) (fl : BitVec 6) (n : Nat) : (c.noteFp fl n).barriers = c.barriers := rfl
@[simp] theorem Strand.noteFp_qfences (c : Strand) (fl : BitVec 6) (n : Nat) : (c.noteFp fl n).qfences = c.qfences := rfl
@[simp] theorem Strand.noteFp_left (c : Strand) (fl : BitVec 6) (n : Nat) : (c.noteFp fl n).left = c.left := rfl
@[simp] theorem Strand.noteFp_ranges (c : Strand) (fl : BitVec 6) (n : Nat) : (c.noteFp fl n).ranges = c.ranges := rfl

@[simp] theorem Strand.noteIst_s (c : Strand) (a b d : Bool) : (c.noteIst a b d).s = c.s := rfl
@[simp] theorem Strand.noteIst_iv (c : Strand) (a b d : Bool) : (c.noteIst a b d).iv = c.iv := rfl
@[simp] theorem Strand.noteIst_sFill (c : Strand) (a b d : Bool) : (c.noteIst a b d).sFill = c.sFill := rfl
@[simp] theorem Strand.noteIst_ivFill (c : Strand) (a b d : Bool) : (c.noteIst a b d).ivFill = c.ivFill := rfl
@[simp] theorem Strand.noteIst_p (c : Strand) (a b d : Bool) : (c.noteIst a b d).p = c.p := rfl
@[simp] theorem Strand.noteIst_q (c : Strand) (a b d : Bool) : (c.noteIst a b d).q = c.q := rfl
@[simp] theorem Strand.noteIst_k (c : Strand) (a b d : Bool) : (c.noteIst a b d).k = c.k := rfl
@[simp] theorem Strand.noteIst_x (c : Strand) (a b d : Bool) : (c.noteIst a b d).x = c.x := rfl
@[simp] theorem Strand.noteIst_pc (c : Strand) (a b d : Bool) : (c.noteIst a b d).pc = c.pc := rfl
@[simp] theorem Strand.noteIst_ident (c : Strand) (a b d : Bool) : (c.noteIst a b d).ident = c.ident := rfl
@[simp] theorem Strand.noteIst_core (c : Strand) (a b d : Bool) : (c.noteIst a b d).core = c.core := rfl
@[simp] theorem Strand.noteIst_place (c : Strand) (a b d : Bool) : (c.noteIst a b d).place = c.place := rfl
@[simp] theorem Strand.noteIst_fetch (c : Strand) (a b d : Bool) : (c.noteIst a b d).fetch = c.fetch := rfl
@[simp] theorem Strand.noteIst_prevPc (c : Strand) (a b d : Bool) : (c.noteIst a b d).prevPc = c.prevPc := rfl
@[simp] theorem Strand.noteIst_wait (c : Strand) (a b d : Bool) : (c.noteIst a b d).wait = c.wait := rfl
@[simp] theorem Strand.noteIst_kept (c : Strand) (a b d : Bool) : (c.noteIst a b d).kept = c.kept := rfl
@[simp] theorem Strand.noteIst_heldSince (c : Strand) (a b d : Bool) : (c.noteIst a b d).heldSince = c.heldSince := rfl
@[simp] theorem Strand.noteIst_heldRing (c : Strand) (a b d : Bool) : (c.noteIst a b d).heldRing = c.heldRing := rfl
@[simp] theorem Strand.noteIst_heldLen (c : Strand) (a b d : Bool) : (c.noteIst a b d).heldLen = c.heldLen := rfl
@[simp] theorem Strand.noteIst_grant (c : Strand) (a b d : Bool) : (c.noteIst a b d).grant = c.grant := rfl
@[simp] theorem Strand.noteIst_bind (c : Strand) (a b d : Bool) : (c.noteIst a b d).bind = c.bind := rfl
@[simp] theorem Strand.noteIst_owe (c : Strand) (a b d : Bool) : (c.noteIst a b d).owe = c.owe := rfl
@[simp] theorem Strand.noteIst_readyAt (c : Strand) (a b d : Bool) : (c.noteIst a b d).readyAt = c.readyAt := rfl
@[simp] theorem Strand.noteIst_turns (c : Strand) (a b d : Bool) : (c.noteIst a b d).turns = c.turns := rfl
@[simp] theorem Strand.noteIst_mhome (c : Strand) (a b d : Bool) : (c.noteIst a b d).mhome = c.mhome := rfl
@[simp] theorem Strand.noteIst_mcount (c : Strand) (a b d : Bool) : (c.noteIst a b d).mcount = c.mcount := rfl
@[simp] theorem Strand.noteIst_span (c : Strand) (a b d : Bool) : (c.noteIst a b d).span = c.span := rfl
@[simp] theorem Strand.noteIst_closes (c : Strand) (a b d : Bool) : (c.noteIst a b d).closes = c.closes := rfl
@[simp] theorem Strand.noteIst_fails (c : Strand) (a b d : Bool) : (c.noteIst a b d).fails = c.fails := rfl
@[simp] theorem Strand.noteIst_upcall (c : Strand) (a b d : Bool) : (c.noteIst a b d).upcall = c.upcall := rfl
@[simp] theorem Strand.noteIst_acq (c : Strand) (a b d : Bool) : (c.noteIst a b d).acq = c.acq := rfl
@[simp] theorem Strand.noteIst_retries (c : Strand) (a b d : Bool) : (c.noteIst a b d).retries = c.retries := rfl
@[simp] theorem Strand.noteIst_retryPc (c : Strand) (a b d : Bool) : (c.noteIst a b d).retryPc = c.retryPc := rfl
@[simp] theorem Strand.noteIst_barriers (c : Strand) (a b d : Bool) : (c.noteIst a b d).barriers = c.barriers := rfl
@[simp] theorem Strand.noteIst_qfences (c : Strand) (a b d : Bool) : (c.noteIst a b d).qfences = c.qfences := rfl
@[simp] theorem Strand.noteIst_left (c : Strand) (a b d : Bool) : (c.noteIst a b d).left = c.left := rfl
@[simp] theorem Strand.noteIst_ranges (c : Strand) (a b d : Bool) : (c.noteIst a b d).ranges = c.ranges := rfl

@[simp] theorem Strand.deliver_s (c : Strand) (f : FaultRec) (l : BitVec 2) : (c.deliver f l).s = c.s := rfl
@[simp] theorem Strand.deliver_iv (c : Strand) (f : FaultRec) (l : BitVec 2) : (c.deliver f l).iv = c.iv := rfl
@[simp] theorem Strand.deliver_sFill (c : Strand) (f : FaultRec) (l : BitVec 2) : (c.deliver f l).sFill = c.sFill := rfl
@[simp] theorem Strand.deliver_ivFill (c : Strand) (f : FaultRec) (l : BitVec 2) : (c.deliver f l).ivFill = c.ivFill := rfl
@[simp] theorem Strand.deliver_p (c : Strand) (f : FaultRec) (l : BitVec 2) : (c.deliver f l).p = c.p := rfl
@[simp] theorem Strand.deliver_q (c : Strand) (f : FaultRec) (l : BitVec 2) : (c.deliver f l).q = c.q := rfl
@[simp] theorem Strand.deliver_k (c : Strand) (f : FaultRec) (l : BitVec 2) : (c.deliver f l).k = c.k := rfl
@[simp] theorem Strand.deliver_x (c : Strand) (f : FaultRec) (l : BitVec 2) : (c.deliver f l).x = c.x := rfl
@[simp] theorem Strand.deliver_ident (c : Strand) (f : FaultRec) (l : BitVec 2) : (c.deliver f l).ident = c.ident := rfl
@[simp] theorem Strand.deliver_core (c : Strand) (f : FaultRec) (l : BitVec 2) : (c.deliver f l).core = c.core := rfl
@[simp] theorem Strand.deliver_place (c : Strand) (f : FaultRec) (l : BitVec 2) : (c.deliver f l).place = c.place := rfl
@[simp] theorem Strand.deliver_heldRing (c : Strand) (f : FaultRec) (l : BitVec 2) : (c.deliver f l).heldRing = c.heldRing := rfl
@[simp] theorem Strand.deliver_heldLen (c : Strand) (f : FaultRec) (l : BitVec 2) : (c.deliver f l).heldLen = c.heldLen := rfl
@[simp] theorem Strand.deliver_readyAt (c : Strand) (f : FaultRec) (l : BitVec 2) : (c.deliver f l).readyAt = c.readyAt := rfl
@[simp] theorem Strand.deliver_turns (c : Strand) (f : FaultRec) (l : BitVec 2) : (c.deliver f l).turns = c.turns := rfl
@[simp] theorem Strand.deliver_mhome (c : Strand) (f : FaultRec) (l : BitVec 2) : (c.deliver f l).mhome = c.mhome := rfl
@[simp] theorem Strand.deliver_mcount (c : Strand) (f : FaultRec) (l : BitVec 2) : (c.deliver f l).mcount = c.mcount := rfl
@[simp] theorem Strand.deliver_span (c : Strand) (f : FaultRec) (l : BitVec 2) : (c.deliver f l).span = c.span := rfl
@[simp] theorem Strand.deliver_closes (c : Strand) (f : FaultRec) (l : BitVec 2) : (c.deliver f l).closes = c.closes := rfl
@[simp] theorem Strand.deliver_fails (c : Strand) (f : FaultRec) (l : BitVec 2) : (c.deliver f l).fails = c.fails := rfl
@[simp] theorem Strand.deliver_upcall (c : Strand) (f : FaultRec) (l : BitVec 2) : (c.deliver f l).upcall = c.upcall := rfl
@[simp] theorem Strand.deliver_acq (c : Strand) (f : FaultRec) (l : BitVec 2) : (c.deliver f l).acq = c.acq := rfl
@[simp] theorem Strand.deliver_retries (c : Strand) (f : FaultRec) (l : BitVec 2) : (c.deliver f l).retries = c.retries := rfl
@[simp] theorem Strand.deliver_retryPc (c : Strand) (f : FaultRec) (l : BitVec 2) : (c.deliver f l).retryPc = c.retryPc := rfl
@[simp] theorem Strand.deliver_barriers (c : Strand) (f : FaultRec) (l : BitVec 2) : (c.deliver f l).barriers = c.barriers := rfl
@[simp] theorem Strand.deliver_qfences (c : Strand) (f : FaultRec) (l : BitVec 2) : (c.deliver f l).qfences = c.qfences := rfl
@[simp] theorem Strand.deliver_left (c : Strand) (f : FaultRec) (l : BitVec 2) : (c.deliver f l).left = c.left := rfl
@[simp] theorem Strand.deliver_ranges (c : Strand) (f : FaultRec) (l : BitVec 2) : (c.deliver f l).ranges = c.ranges := rfl

@[simp] theorem Strand.goto_pc (c : Strand) (a : Word) : (c.goto a).pc = a := rfl
@[simp] theorem Strand.advance_pc (c : Strand) (n : Nat) : (c.advance n).pc = c.pc + BitVec.ofNat 64 n := rfl
@[simp] theorem Strand.goto_wait (c : Strand) (a : Word) : (c.goto a).wait = none := rfl
@[simp] theorem Strand.advance_wait (c : Strand) (n : Nat) : (c.advance n).wait = none := rfl
@[simp] theorem Strand.goto_fetch (c : Strand) (a : Word) : (c.goto a).fetch = .idle := rfl
@[simp] theorem Strand.advance_fetch (c : Strand) (n : Nat) : (c.advance n).fetch = .idle := rfl
@[simp] theorem Strand.goto_prevPc (c : Strand) (a : Word) : (c.goto a).prevPc = c.pc := rfl
@[simp] theorem Strand.deliver_pc (c : Strand) (f : FaultRec) (l : BitVec 2) : (c.deliver f l).pc = c.ctl.tvec := rfl
@[simp] theorem Strand.deliver_tpc (c : Strand) (f : FaultRec) (l : BitVec 2) : (c.deliver f l).ctl.tpc = c.pc := rfl
@[simp] theorem Strand.deliver_taddr (c : Strand) (f : FaultRec) (l : BitVec 2) : (c.deliver f l).ctl.taddr = f.addr := rfl
@[simp] theorem Strand.deliver_tinfo (c : Strand) (f : FaultRec) (l : BitVec 2) : (c.deliver f l).ctl.tinfo = f.info := rfl

/-! ### Registers read back -/

/-- `s0` reads 0 whatever has been written (R10). -/
@[simp] theorem Strand.sVal_zero (c : Strand) : c.sVal 0 = 0 := rfl
/-- `s0` is always full (R10). -/
@[simp] theorem Strand.sState_zero (c : Strand) : c.sState 0 = .full := rfl
/-- A write to `s0` is discarded (R10). -/
@[simp] theorem Strand.writeS_zero (c : Strand) (v : Word) : c.writeS 0 v = c := rfl
/-- `q0` reads T (R10). -/
@[simp] theorem Strand.qVal_zero (c : Strand) : c.qVal 0 = .t := rfl
/-- A write to `q0` is discarded (R10). -/
@[simp] theorem Strand.writeQ_zero (c : Strand) (v : Tri) : c.writeQ 0 v = c := rfl
/-- `k0` reads as all ones (R10). -/
@[simp] theorem Strand.kVal_zero (c : Strand) : c.kVal 0 = BitVec.allOnes 128 := rfl
/-- A write to `k0` is discarded (R10). -/
@[simp] theorem Strand.writeK_zero (c : Strand) (v : BitVec 128) : c.writeK 0 v = c := rfl

theorem Strand.sVal_writeS_same (c : Strand) (r : SReg) (v : Word) (h : r ≠ 0) : (c.writeS r v).sVal r = v := by
  unfold Strand.sVal Strand.writeS
  rw [if_neg h]; simp only [if_neg h, Vector.getElem_set_self]
theorem Strand.sState_writeS_same (c : Strand) (r : SReg) (v : Word) : (c.writeS r v).sState r = .full := by
  unfold Strand.sState Strand.writeS; split <;> simp
theorem Strand.sVal_writeS_other (c : Strand) (r n : SReg) (v : Word) (h : n ≠ r) : (c.writeS r v).sVal n = c.sVal n := by
  unfold Strand.sVal Strand.writeS
  split
  · rfl
  · split
    · rfl
    · rw [Vector.getElem_set_ne]
      exact fun e => h (BitVec.eq_of_toNat_eq e.symm)
theorem Strand.sState_writeS_other (c : Strand) (r n : SReg) (v : Word) (h : n ≠ r) : (c.writeS r v).sState n = c.sState n := by
  unfold Strand.sState Strand.writeS
  split
  · rfl
  · split
    · rfl
    · rw [Vector.getElem_set_ne]
      exact fun e => h (BitVec.eq_of_toNat_eq e.symm)
theorem Strand.ivVal_writeIv_same (c : Strand) (r : IvReg) (v : Word) : (c.writeIv r v).ivVal r = v := by
  simp [Strand.ivVal, Strand.writeIv]
theorem Strand.ivVal_writeIv_other (c : Strand) (r n : IvReg) (v : Word) (h : n ≠ r) : (c.writeIv r v).ivVal n = c.ivVal n := by
  unfold Strand.ivVal Strand.writeIv
  rw [Vector.getElem_set_ne]
  exact fun e => h (BitVec.eq_of_toNat_eq e.symm)
theorem Strand.qVal_writeQ_same (c : Strand) (r : QReg) (v : Tri) (h : r ≠ 0) : (c.writeQ r v).qVal r = v := by
  unfold Strand.qVal Strand.writeQ
  rw [if_neg h]; simp only [if_neg h, Vector.getElem_set_self]
theorem Strand.kVal_writeK_same (c : Strand) (r : KReg) (v : BitVec 128) (h : r ≠ 0) : (c.writeK r v).kVal r = v := by
  unfold Strand.kVal Strand.writeK
  rw [if_neg h]; simp only [if_neg h, Vector.getElem_set_self]
theorem Strand.pVal_writeP_same (c : Strand) (r : PReg) (v : BitVec 32) : (c.writeP r v).pVal r = v := by
  simp [Strand.pVal, Strand.writeP]
theorem Strand.xVal_writeX_same (c : Strand) (r : XReg) (v : Word) : (c.writeX r v).xVal r = v := by
  simp [Strand.xVal, Strand.writeX]

/-- A last-use mark makes a register dead (R19); `s0` stays full. -/
theorem Strand.sState_markS (c : Strand) (r : SReg) (h : r ≠ 0) : (c.markS r true).sState r = .dead := by
  unfold Strand.markS Strand.setSFill Strand.sState
  rw [if_neg h, if_pos rfl]; simp only [if_neg h, Vector.getElem_set_self]

@[simp] theorem Strand.sVal_markS (c : Strand) (r n : SReg) (b : Bool) : (c.markS r b).sVal n = c.sVal n := by
  unfold Strand.sVal; simp
@[simp] theorem Strand.sVal_advance (c : Strand) (n : Nat) (r : SReg) : (c.advance n).sVal r = c.sVal r := rfl
@[simp] theorem Strand.sState_advance (c : Strand) (n : Nat) (r : SReg) : (c.advance n).sState r = c.sState r := rfl
@[simp] theorem Strand.ivVal_advance (c : Strand) (n : Nat) (r : IvReg) : (c.advance n).ivVal r = c.ivVal r := rfl
@[simp] theorem Strand.qVal_advance (c : Strand) (n : Nat) (r : QReg) : (c.advance n).qVal r = c.qVal r := rfl
@[simp] theorem Strand.kVal_advance (c : Strand) (n : Nat) (r : KReg) : (c.advance n).kVal r = c.kVal r := rfl
@[simp] theorem Strand.xVal_advance (c : Strand) (n : Nat) (r : XReg) : (c.advance n).xVal r = c.xVal r := rfl
@[simp] theorem Strand.pVal_advance (c : Strand) (n : Nat) (r : PReg) : (c.advance n).pVal r = c.pVal r := rfl
@[simp] theorem Strand.sVal_goto (c : Strand) (a : Word) (r : SReg) : (c.goto a).sVal r = c.sVal r := rfl
@[simp] theorem Strand.sState_goto (c : Strand) (a : Word) (r : SReg) : (c.goto a).sState r = c.sState r := rfl

/-! ### What an access to a register comes to -/

theorem readS_full (c : Strand) (r : SReg) (h : c.sState r = .full) : readS c r = .ok (c.sVal r) := by
  simp [readS, needFull, Strand.fillState, h, Except.map]
theorem readIv_full (c : Strand) (r : IvReg) (h : c.ivState r = .full) : readIv c r = .ok (c.ivVal r) := by
  simp [readIv, needFull, Strand.fillState, h, Except.map]
theorem readS_dead (c : Strand) (r : SReg) (h : c.sState r = .dead) : readS c r = .error (.fault ⟨.dead, 0, fillInfo (.s r)⟩) := by
  simp [readS, needFull, Strand.fillState, h, Except.map]
theorem readS_empty (c : Strand) (r : SReg) (h : c.sState r = .empty) : readS c r = .error (.wait (.fill (.s r)) c.wlim) := by
  simp [readS, needFull, Strand.fillState, h, Except.map]
theorem needFree_s (c : Strand) (r : SReg) (h : c.sState r ≠ .pending) : needFree c (.s r) = .ok () := by
  unfold needFree Strand.fillState
  split <;> simp_all
theorem needFree_iv (c : Strand) (r : IvReg) (h : c.ivState r ≠ .pending) : needFree c (.iv r) = .ok () := by
  unfold needFree Strand.fillState
  split <;> simp_all

end Sys2Proof.Machine
end

