-- ==== Sys2Proof/Laws/Retire.lean ====
section
/-! SUPPORT. What the strand updates an instruction is made of keep (`Strand.keeps`), how such facts compose, and the ends of `run` and
`runStrand` stated once. -/

namespace Sys2Proof.Machine

/-! ### The ends of an instruction -/

theorem onlyCur_setCur (s : State) (c : Strand) : s.onlyCur (s.setCur c) := by
  simp only [State.onlyCur, State.cur_setCur]

/-- An instruction always answers a next state. -/
theorem run_next (len : Nat) (body : State → Except Stop State) (s : State) : ∃ t, run len body s = .next t := by
  unfold run; split <;> exact ⟨_, rfl⟩

theorem run_ok {len : Nat} {body : State → Except Stop State} {s t : State} (h : body s = .ok t) : run len body s = .next t := by
  simp only [run, h]

theorem run_error {len : Nat} {body : State → Except Stop State} {s : State} {e : Stop} (h : body s = .error e) :
    run len body s = .next (s.stop len e) := by
  simp only [run, h]

theorem runStrand_ok {len : Nat} {body : Strand → Except Stop Strand} {s : State} {c : Strand} (h : body s.cur = .ok c) :
    runStrand len body s = .next (s.setCur c) := by
  simp only [runStrand, run, h, Except.map]

theorem runStrand_error {len : Nat} {body : Strand → Except Stop Strand} {s : State} {e : Stop} (h : body s.cur = .error e) :
    runStrand len body s = .next (s.stop len e) := by
  simp only [runStrand, run, h, Except.map]

/-! ### What updates keep -/

theorem Strand.keeps_refl (c : Strand) : c.keeps c {} [] [] := by
  simp [Strand.keeps, Strand.keepsRegs]

/-- Frames compose: the writes and the marks of both. -/
theorem Strand.keeps_trans {c d e : Strand} {w v : RegSet} {mS nS : List SReg} {mI nI : List IvReg}
    (h : c.keeps d w mS mI) (k : d.keeps e v nS nI) :
    c.keeps e ⟨w.s ++ v.s, w.iv ++ v.iv, w.p ++ v.p, w.q ++ v.q, w.k ++ v.k, w.x ++ v.x⟩ (mS ++ nS) (mI ++ nI) := by
  obtain ⟨⟨a1, a2, a3, a4, a5, a6, a7, a8, a9, a10, a11, a12, a13⟩, a14, a15, a16, a17, a18, a19, a20, a21⟩ := h
  obtain ⟨⟨b1, b2, b3, b4, b5, b6, b7, b8, b9, b10, b11, b12, b13⟩, b14, b15, b16, b17, b18, b19, b20, b21⟩ := k
  simp only [Strand.keeps, Strand.keepsRegs, Strand.keepsRegs, List.mem_append, not_or]
  refine ⟨⟨fun r q => (b1 r q.2).trans (a1 r q.1), fun r q m => (b2 r q.2 m.2).trans (a2 r q.1 m.1), ?_,
    fun r q => (b4 r q.2).trans (a4 r q.1), fun r q m => (b5 r q.2 m.2).trans (a5 r q.1 m.1), ?_,
    fun r q => (b7 r q.2).trans (a7 r q.1), fun r q => (b8 r q.2).trans (a8 r q.1), fun r q => (b9 r q.2).trans (a9 r q.1),
    fun r q => (b10 r q.2).trans (a10 r q.1), b11.trans a11, b12.trans a12, b13.trans a13⟩, b14.trans a14, b15.trans a15, b16.trans a16,
    b17.trans a17, b18.trans a18, b19.trans a19, b20.trans a20, b21.trans a21⟩
  · intro r q m hr
    by_cases hm : r ∈ nS
    · exact b3 r q.2 hm hr
    · exact (b2 r q.2 hm).trans (a3 r q.1 (m.resolve_right hm) hr)
  · intro r q m
    by_cases hm : r ∈ nI
    · exact b6 r q.2 hm
    · exact (b5 r q.2 hm).trans (a6 r q.1 (m.resolve_right hm))

theorem Strand.keeps_goto (c : Strand) (a : Word) : c.keeps (c.goto a) {} [] [] := by
  simp [Strand.keeps, Strand.keepsRegs, Strand.goto, Strand.sVal, Strand.sState, Strand.ivVal, Strand.ivState, Strand.pVal, Strand.qVal, Strand.kVal,
    Strand.xVal]

theorem Strand.keeps_advance (c : Strand) (n : Nat) : c.keeps (c.advance n) {} [] [] := c.keeps_goto _

theorem Strand.keeps_ctl (c : Strand) (k : Ctl) : c.keeps { c with ctl := k } {} [] [] := by
  simp [Strand.keeps, Strand.keepsRegs, Strand.sVal, Strand.sState, Strand.ivVal, Strand.ivState, Strand.pVal, Strand.qVal, Strand.kVal, Strand.xVal]

theorem Strand.keeps_noteFp (c : Strand) (f : BitVec 6) (n : Nat) : c.keeps (c.noteFp f n) {} [] [] := c.keeps_ctl _

theorem Strand.keeps_noteIst (c : Strand) (ni em np : Bool) : c.keeps (c.noteIst ni em np) {} [] [] := c.keeps_ctl _

theorem Vector.get_set_ne {α : Type} {n : Nat} (v : Vector α n) (i j : Nat) (x : α) (hi : i < n) (hj : j < n) (h : i ≠ j) :
    (v.set i x hi)[j]'hj = v[j]'hj := by
  simp [h]

theorem BitVec.toNat_ne_of_ne {w : Nat} {a b : BitVec w} (h : a ≠ b) : a.toNat ≠ b.toNat := fun e => h (BitVec.eq_of_toNat_eq e)

theorem Strand.keeps_writeS (c : Strand) (d : SReg) (v : Word) : c.keeps (c.writeS d v) { s := [d] } [] [] := by
  by_cases hd : d = 0
  · subst hd
    simp [Strand.keeps, Strand.keepsRegs, Strand.writeS]
  · have h (r : SReg) (h : ¬r = d) : d.toNat ≠ r.toNat := BitVec.toNat_ne_of_ne fun e => h e.symm
    unfold Strand.writeS
    rw [if_neg hd]
    simp +contextual [Strand.keeps, Strand.keepsRegs, Strand.sVal, Strand.sState, Strand.ivVal, Strand.ivState, Strand.pVal,
      Strand.qVal, Strand.kVal, Strand.xVal, h]

theorem Strand.keeps_writeIv (c : Strand) (d : IvReg) (v : Word) : c.keeps (c.writeIv d v) { iv := [d] } [] [] := by
  have h (r : IvReg) (h : ¬r = d) : d.toNat ≠ r.toNat := BitVec.toNat_ne_of_ne fun e => h e.symm
  simp +contextual [Strand.keeps, Strand.keepsRegs, Strand.writeIv, Strand.sVal, Strand.sState, Strand.ivVal, Strand.ivState, Strand.pVal,
    Strand.qVal, Strand.kVal, Strand.xVal, h]

theorem Strand.keeps_writeP (c : Strand) (d : PReg) (v : BitVec 32) : c.keeps (c.writeP d v) { p := [d] } [] [] := by
  have h (r : PReg) (h : ¬r = d) : d.toNat ≠ r.toNat := BitVec.toNat_ne_of_ne fun e => h e.symm
  simp +contextual [Strand.keeps, Strand.keepsRegs, Strand.writeP, Strand.sVal, Strand.sState, Strand.ivVal, Strand.ivState, Strand.pVal,
    Strand.qVal, Strand.kVal, Strand.xVal, h]

theorem Strand.keeps_writeQ (c : Strand) (d : QReg) (v : Tri) : c.keeps (c.writeQ d v) { q := [d] } [] [] := by
  by_cases hd : d = 0
  · subst hd
    simp [Strand.keeps, Strand.keepsRegs, Strand.writeQ]
  · have h (r : QReg) (h : ¬r = d) : d.toNat ≠ r.toNat := BitVec.toNat_ne_of_ne fun e => h e.symm
    unfold Strand.writeQ
    rw [if_neg hd]
    simp +contextual [Strand.keeps, Strand.keepsRegs, Strand.sVal, Strand.sState, Strand.ivVal, Strand.ivState, Strand.pVal,
      Strand.qVal, Strand.kVal, Strand.xVal, h]

theorem Strand.keeps_writeK (c : Strand) (d : KReg) (v : BitVec 128) : c.keeps (c.writeK d v) { k := [d] } [] [] := by
  by_cases hd : d = 0
  · subst hd
    simp [Strand.keeps, Strand.keepsRegs, Strand.writeK]
  · have h (r : KReg) (h : ¬r = d) : d.toNat ≠ r.toNat := BitVec.toNat_ne_of_ne fun e => h e.symm
    unfold Strand.writeK
    rw [if_neg hd]
    simp +contextual [Strand.keeps, Strand.keepsRegs, Strand.sVal, Strand.sState, Strand.ivVal, Strand.ivState, Strand.pVal,
      Strand.qVal, Strand.kVal, Strand.xVal, h]

theorem Strand.keeps_writeX (c : Strand) (d : XReg) (v : Word) : c.keeps (c.writeX d v) { x := [d] } [] [] := by
  have h (r : XReg) (h : ¬r = d) : d.toNat ≠ r.toNat := BitVec.toNat_ne_of_ne fun e => h e.symm
  simp +contextual [Strand.keeps, Strand.keepsRegs, Strand.writeX, Strand.sVal, Strand.sState, Strand.ivVal, Strand.ivState, Strand.pVal,
    Strand.qVal, Strand.kVal, Strand.xVal, h]

theorem Strand.keeps_setSFill_dead (c : Strand) (r : SReg) : c.keeps (c.setSFill r .dead) {} [r] [] := by
  by_cases hd : r = 0
  · subst hd
    simp [Strand.keeps, Strand.keepsRegs, Strand.setSFill]
  · have h (x : SReg) (h : ¬x = r) : r.toNat ≠ x.toNat := BitVec.toNat_ne_of_ne fun e => h e.symm
    unfold Strand.setSFill
    rw [if_neg hd]
    simp +contextual [Strand.keeps, Strand.keepsRegs, Strand.sVal, Strand.sState, Strand.ivVal, Strand.ivState, Strand.pVal,
      Strand.qVal, Strand.kVal, Strand.xVal, h]

theorem Strand.keeps_setIvFill_dead (c : Strand) (r : IvReg) : c.keeps (c.setIvFill r .dead) {} [] [r] := by
  have h (x : IvReg) (h : ¬x = r) : r.toNat ≠ x.toNat := BitVec.toNat_ne_of_ne fun e => h e.symm
  simp +contextual [Strand.keeps, Strand.keepsRegs, Strand.setIvFill, Strand.sVal, Strand.sState, Strand.ivVal, Strand.ivState, Strand.pVal,
    Strand.qVal, Strand.kVal, Strand.xVal, h]

theorem marked_cons {α : Type} (r : α) (l : Bool) (t : List (α × Bool)) : marked ((r, l) :: t) = (if l then [r] else []) ++ marked t := by
  cases l <;> simp [marked]

theorem Strand.keeps_markS (c : Strand) (r : SReg) (l : Bool) : c.keeps (c.markS r l) {} (marked [(r, l)]) [] := by
  cases l
  · exact c.keeps_refl
  · exact c.keeps_setSFill_dead r

theorem Strand.keeps_markIv (c : Strand) (r : IvReg) (l : Bool) : c.keeps (c.markIv r l) {} [] (marked [(r, l)]) := by
  cases l
  · exact c.keeps_refl
  · exact c.keeps_setIvFill_dead r

theorem Strand.keeps_stepP (c : Strand) (r : PReg) (i : Bool) : c.keeps (c.stepP r i) { p := marked [(r, i)] } [] [] := by
  cases i
  · exact c.keeps_refl
  · exact c.keeps_writeP r _

end Sys2Proof.Machine
end

