-- ==== Sys2Proof/Laws/Shapes.lean ====
section
/-! SUPPORT. The shapes of the scalar instructions (R76-R83), each with everything it does when its operands are there. -/

namespace Sys2Proof.Machine

/-- An instruction whose body answers a strand that has retired. -/
theorem retires_of {s : State} {c : Strand} {len : Nat} {w : RegSet} {mS : List SReg} {mIv : List IvReg}
    (hk : s.cur.keeps c w mS mIv) (hc : c.ctl = s.cur.ctl) (hp : c.pc = s.cur.pc + BitVec.ofNat 64 len) (hw : c.wait = none) :
    s.retires (s.setCur c) len w mS mIv := by
  simp only [State.retires, State.cur_setCur]
  exact ⟨onlyCur_setCur s c, hk, hc, hp, hw⟩

/-- `d` written behind marks, and the program counter moved: what every result in an `s` register goes through. -/
theorem retires_writeS {s : State} {c : Strand} {mS : List SReg} {mIv : List IvReg} (len : Nat) (d : SReg) (v : Word)
    (hk : s.cur.keeps c {} mS mIv) (hc : c.ctl = s.cur.ctl) (hp : c.pc = s.cur.pc) :
    let t := s.setCur ((c.writeS d v).advance len)
    s.retires t len { s := [d] } mS mIv ∧ t.cur.sVal d = wroteS d v ∧ t.cur.sState d = .full := by
  intro t
  refine ⟨retires_of ?_ ?_ ?_ ?_, ?_⟩
  · simpa using Strand.keeps_trans (Strand.keeps_trans hk (c.keeps_writeS d v)) ((c.writeS d v).keeps_advance len)
  · simp [Strand.advance, Strand.goto, hc]
  · simp [Strand.advance, Strand.goto, hp]
  · simp [Strand.advance, Strand.goto]
  · simp only [t, State.cur_setCur]
    refine ⟨?_, c.sState_writeS_same d v⟩
    by_cases hd : d = 0
    · subst hd
      rfl
    · rw [wroteS, if_neg hd]
      exact c.sVal_writeS_same d v hd

/-- A result in an `s` register, written behind marks. -/
theorem completesS_of {i : Instr} {s : State} {c : Strand} {len : Nat} {d : SReg} {mS : List SReg} {v : Word}
    (he : exec i s = .next (s.setCur ((c.writeS d v).advance len))) (hk : s.cur.keeps c {} mS []) (hc : c.ctl = s.cur.ctl)
    (hp : c.pc = s.cur.pc) : completesS i s len d mS v :=
  ⟨_, he, retires_writeS len d v hk hc hp⟩

theorem Strand.keeps_marks2 (c : Strand) (a b : SReg) (la lb : Bool) :
    c.keeps ((c.markS a la).markS b lb) {} (marked [(a, la), (b, lb)]) [] := by
  have h := Strand.keeps_trans (c.keeps_markS a la) ((c.markS a la).keeps_markS b lb)
  cases la <;> cases lb <;> exact h

/-- `d := f a b` (R76). -/
theorem alu2_eq (o : OpRRR) (f : Word → Word → Word) (s : State) (ha : s.cur.sState o.a = .full) (hb : s.cur.sState o.b = .full)
    (hd : s.cur.sState o.d ≠ .pending) :
    alu2 o f s = .next (s.setCur
      ((((s.cur.markS o.a o.la).markS o.b o.lb).writeS o.d (f (s.cur.sVal o.a) (s.cur.sVal o.b))).advance 4)) := by
  refine runStrand_ok ?_
  simp only [readS_full _ _ ha, readS_full _ _ hb, needFree_s _ _ hd]
  rfl

/-- `d := f a` (R78). -/
theorem alu1_eq (o : OpRR) (f : Word → Word) (s : State) (ha : s.cur.sState o.a = .full) (hd : s.cur.sState o.d ≠ .pending) :
    alu1 o f s = .next (s.setCur (((s.cur.markS o.a o.la).writeS o.d (f (s.cur.sVal o.a))).advance 4)) := by
  refine runStrand_ok ?_
  simp only [readS_full _ _ ha, needFree_s _ _ hd]
  rfl

/-- `d := f d a b` (R79, R80). -/
theorem alu3_eq (o : OpRRR) (f : Word → Word → Word → Word) (s : State) (ha : s.cur.sState o.a = .full)
    (hb : s.cur.sState o.b = .full) (hd : s.cur.sState o.d = .full) :
    alu3 o f s = .next (s.setCur
      ((((s.cur.markS o.a o.la).markS o.b o.lb).writeS o.d (f (s.cur.sVal o.d) (s.cur.sVal o.a) (s.cur.sVal o.b))).advance 4)) := by
  refine runStrand_ok ?_
  simp only [readS_full _ _ ha, readS_full _ _ hb, readS_full _ _ hd]
  rfl

/-- The immediate forms (R82). -/
theorem aluI_eq (o : OpRRI) (f : Word → Word → Word) (s : State) (ha : s.cur.sState o.a = .full) (hd : s.cur.sState o.d ≠ .pending) :
    aluI o f s = .next (s.setCur (((s.cur.markS o.a o.la).writeS o.d (f (s.cur.sVal o.a) (o.imm.signExtend 64))).advance 4)) := by
  refine runStrand_ok ?_
  simp only [readS_full _ _ ha, needFree_s _ _ hd]
  rfl

/-- The shifts by an immediate count (R82). -/
theorem aluSh_eq (o : OpShift) (f : Word → Nat → Word) (s : State) (ha : s.cur.sState o.a = .full) (hd : s.cur.sState o.d ≠ .pending) :
    aluSh o f s = .next (s.setCur (((s.cur.markS o.a o.la).writeS o.d (f (s.cur.sVal o.a) o.cnt.toNat)).advance 4)) := by
  refine runStrand_ok ?_
  simp only [readS_full _ _ ha, needFree_s _ _ hd]
  rfl

/-- The 16-bit forms of two registers (R40). -/
theorem alu16_eq (o : OpA) (f : Word → Word → Word) (s : State) (ha : s.cur.sState o.a = .full) (hd : s.cur.sState o.d = .full) :
    alu16 o f s = .next (s.setCur ((s.cur.writeS o.d (f (s.cur.sVal o.d) (s.cur.sVal o.a))).advance 2)) := by
  refine runStrand_ok ?_
  simp only [readS_full _ _ ha, readS_full _ _ hd]
  rfl

/-- The 16-bit forms of one register and an immediate (R40). -/
theorem alu16I_eq (d : SReg) (f : Word → Word) (s : State) (hd : s.cur.sState d = .full) :
    alu16I d f s = .next (s.setCur ((s.cur.writeS d (f (s.cur.sVal d))).advance 2)) := by
  refine runStrand_ok ?_
  simp only [readS_full _ _ hd]
  rfl

/-- A write of `d` from the strand's other state. -/
theorem setD_eq (len : Nat) (d : SReg) (f : Strand → Word) (s : State) (hd : s.cur.sState d ≠ .pending) :
    setD len d f s = .next (s.setCur ((s.cur.writeS d (f s.cur)).advance len)) := by
  refine runStrand_ok ?_
  simp only [needFree_s _ _ hd]
  rfl

end Sys2Proof.Machine
end

