-- ==== Sys2Proof/Laws/Ops.lean ====
section
/-! SUPPORT. The shared operations, each with what it can do: none of them changes a byte of any memory (`State.sameMem`), and taking an
exception, parking, waking and the ends of control transfers and float instructions are said once. -/

namespace Sys2Proof.Machine

/-! ### Operations that leave every memory as it is -/

theorem State.sameMem_refl (s : State) : s.sameMem s := ⟨rfl, fun _ => ⟨rfl, rfl⟩, id⟩

theorem State.sameMem.trans {s t u : State} (h : s.sameMem t) (k : t.sameMem u) : s.sameMem u :=
  ⟨k.1.trans h.1, fun c => ⟨(k.2.1 c).1.trans (h.2.1 c).1, (k.2.1 c).2.trans (h.2.1 c).2⟩, fun w => k.2.2 (h.2.2 w)⟩

/-- An update of neither main memory nor the cores. -/
theorem State.sameMem_of_eq {s t : State} (hm : t.mem = s.mem) (hc : t.cores = s.cores) : s.sameMem t := by
  refine ⟨hm, fun c => ?_, fun w => ?_⟩
  · simp only [State.core, hc, and_self]
  · simpa only [State.canonical, hm, hc] using w

/-- Entries of a table after a write of one. -/
theorem Tbl.mem_set {α : Type} (t : Tbl α) (n : Nat) (v : α) (e : Nat × α) (h : e ∈ t.set n v) : e ∈ t ∨ e = (n, v) := by
  induction t with
  | nil => exact .inr (by simpa [Tbl.set] using h)
  | cons x t ih =>
    obtain ⟨k, w⟩ := x
    simp only [Tbl.set] at h
    split at h
    · rcases List.mem_cons.1 h with rfl | h
      · exact .inr rfl
      · exact .inl h
    · split at h
      · rcases List.mem_cons.1 h with rfl | h
        · exact .inr rfl
        · exact .inl (List.mem_cons_of_mem _ h)
      · rcases List.mem_cons.1 h with rfl | h
        · exact .inl List.mem_cons_self
        · exact (ih h).imp_left (List.mem_cons_of_mem _)

/-- What a table holds is among its entries. -/
theorem Tbl.mem_of_find? {α : Type} (t : Tbl α) (n : Nat) (v : α) (h : t.find? n = some v) : (n, v) ∈ t := by
  induction t with
  | nil => simp [Tbl.find?] at h
  | cons x t ih =>
    obtain ⟨k, w⟩ := x
    simp only [Tbl.find?] at h
    split at h
    · next e => obtain rfl := e; cases h; exact List.mem_cons_self
    · exact List.mem_cons_of_mem _ (ih h)

/-- The memories of a core of a state in canonical form, listed or not. -/
theorem State.core_wf {s : State} (w : s.canonical) (c : Nat) : (s.core c).sp.wf = true ∧ (s.core c).om.wf = true := by
  unfold State.core Tbl.getD
  cases h : s.cores.find? c with
  | none => exact ⟨rfl, rfl⟩
  | some k => exact w.2 _ (Tbl.mem_of_find? _ _ _ h)

theorem State.canonical_setCore {s : State} (c : Nat) (k : Core) (w : s.canonical) (hs : k.sp.wf = true) (ho : k.om.wf = true) :
    (s.setCore c k).canonical := by
  refine ⟨w.1, fun e he => ?_⟩
  rcases Tbl.mem_set _ _ _ _ he with h | rfl
  · exact w.2 e h
  · exact ⟨hs, ho⟩

theorem State.sameMem_setCore (s : State) (c : Nat) (k : Core) (hs : k.sp = (s.core c).sp) (ho : k.om = (s.core c).om) :
    s.sameMem (s.setCore c k) := by
  refine ⟨rfl, fun d => ?_, fun w => ?_⟩
  · by_cases h : d = c
    · subst h; simp [hs, ho]
    · rw [State.core_setCore_other _ _ _ _ h]; exact ⟨rfl, rfl⟩
  · have := State.core_wf w c
    exact State.canonical_setCore c k w (hs ▸ this.1) (ho ▸ this.2)

theorem State.sameMem_modCore (s : State) (c : Nat) (f : Core → Core) (hs : ∀ k, (f k).sp = k.sp) (ho : ∀ k, (f k).om = k.om) :
    s.sameMem (s.modCore c f) := s.sameMem_setCore c _ (hs _) (ho _)

theorem Tbl.getD_mapV {α : Type} (t : Tbl α) (f : α → α) (n : Nat) (d : α) : (t.mapV f).getD n d = if (t.find? n).isSome then f (t.getD n d) else d := by
  have h : (t.mapV f).find? n = (t.find? n).map f := by
    induction t with
    | nil => rfl
    | cons x t ih =>
      obtain ⟨k, w⟩ := x
      simp only [Tbl.mapV, List.map_cons, Tbl.find?] at ih ⊢
      split
      · rfl
      · exact ih
  rw [Tbl.getD, h, Tbl.getD]
  cases t.find? n <;> rfl

theorem State.sameMem_mapCores (s : State) (f : Core → Core) (hs : ∀ k, (f k).sp = k.sp) (ho : ∀ k, (f k).om = k.om) :
    s.sameMem { s with cores := s.cores.mapV f } := by
  refine ⟨rfl, fun c => ?_, fun w => ⟨w.1, fun e he => ?_⟩⟩
  · simp only [State.core, Tbl.getD_mapV]
    split
    · exact ⟨hs _, ho _⟩
    · next h => rw [Tbl.getD, Option.not_isSome_iff_eq_none.1 h]; exact ⟨rfl, rfl⟩
  · obtain ⟨x, hx, rfl⟩ := List.mem_map.1 he
    exact ⟨(congrArg Memory.wf (hs x.2)).trans (w.2 x hx).1, (congrArg Memory.wf (ho x.2)).trans (w.2 x hx).2⟩

theorem State.sameMem_foldl {α : Type} (f : State → α → State) (h : ∀ (s : State) a, s.sameMem (f s a)) (l : List α) (s : State) :
    s.sameMem (l.foldl f s) := by
  induction l generalizing s with
  | nil => exact s.sameMem_refl
  | cons a l ih => exact State.sameMem.trans (h s a) (ih _)

theorem State.sameMem_at (s : State) (t r : Nat) (e : Instr) (a : EvArg) : s.sameMem (s.at_ t r e a) := State.sameMem_of_eq rfl rfl
theorem State.sameMem_setStrand (s : State) (g : Nat) (c : Strand) : s.sameMem (s.setStrand g c) := State.sameMem_of_eq rfl rfl
theorem State.sameMem_setCur (s : State) (c : Strand) : s.sameMem (s.setCur c) := State.sameMem_of_eq rfl rfl
theorem State.sameMem_modStrand (s : State) (g : Nat) (f : Strand → Strand) : s.sameMem (s.modStrand g f) := State.sameMem_of_eq rfl rfl
theorem State.sameMem_modHome (s : State) (h : Nat) (f : Home → Home) : s.sameMem (s.modHome h f) := State.sameMem_of_eq rfl rfl
theorem State.sameMem_setHome (s : State) (h : Nat) (x : Home) : s.sameMem (s.setHome h x) := State.sameMem_of_eq rfl rfl
theorem State.sameMem_modDie (s : State) (d : Nat) (f : Die → Die) : s.sameMem (s.modDie d f) := State.sameMem_of_eq rfl rfl
theorem State.sameMem_modGang (s : State) (g : Nat) (f : Gang → Gang) : s.sameMem (s.modGang g f) := State.sameMem_of_eq rfl rfl
theorem State.sameMem_out (s : State) (o : Output) : s.sameMem (s.out o) := State.sameMem_of_eq rfl rfl
theorem State.sameMem_irq (s : State) (n : Nat) : s.sameMem (s.irq n) := State.sameMem_of_eq rfl rfl
theorem State.sameMem_noteGang (s : State) (g : Nat) (fl : BitVec 6) (np : Bool) : s.sameMem (s.noteGang g fl np) := State.sameMem_of_eq rfl rfl

theorem State.sameMem_atOnce (s : State) (t r : Nat) (e : Instr) (a : EvArg) : s.sameMem (s.atOnce t r e a) := by
  unfold State.atOnce; split
  · exact s.sameMem_refl
  · exact s.sameMem_at ..

theorem State.sameMem_cutOff (s : State) (g : Nat) : s.sameMem (s.cutOff g) := s.sameMem_at ..

theorem State.sameMem_toHome (s : State) (n : Nat) (r : Req) : s.sameMem (s.toHome n r) := by
  unfold State.toHome; split
  · dsimp only; split <;> exact State.sameMem_of_eq rfl rfl
  · split <;> exact s.sameMem_at ..

theorem State.sameMem_send (s : State) (r : Req) : s.sameMem (s.send r) :=
  State.sameMem.trans (t := s.addReq r) (State.sameMem_of_eq rfl rfl) (State.sameMem_toHome ..)

theorem State.sameMem_crossed (s : State) (d sel o n : Nat) : s.sameMem (s.crossed d sel o n) := by
  refine State.sameMem_foldl _ (fun t i => ?_) _ s
  dsimp only; split
  · exact t.sameMem_at ..
  · exact t.sameMem_refl

theorem State.sameMem_askPass (s : State) (d : Nat) : s.sameMem (s.askPass d) := by
  unfold State.askPass; split
  · exact s.sameMem_refl
  · exact (s.sameMem_modDie ..).trans (State.sameMem_at ..)

theorem State.sameMem_atTime (s : State) (t r : Nat) (e : Instr) (a : EvArg) : s.sameMem (s.atTime t r e a) := by
  unfold State.atTime; split
  · exact s.sameMem_refl
  · exact s.sameMem_at ..

theorem State.sameMem_askLoad (s : State) (c t : Nat) : s.sameMem (s.askLoad c t) := by
  unfold State.askLoad; split
  · exact s.sameMem_refl
  · exact s.sameMem_atOnce ..

theorem State.sameMem_askFetch (s : State) (h t : Nat) : s.sameMem (s.askFetch h t) := s.sameMem_atTime ..

theorem State.sameMem_leaveArr (s : State) (h b : Nat) (w : Waiter) : s.sameMem (s.leaveArr h b w) := by
  unfold State.leaveArr
  split
  · exact s.sameMem_refl
  · split
    · dsimp only; split
      · exact (s.sameMem_modHome ..).trans (State.sameMem_at ..)
      · exact s.sameMem_modHome ..
    · exact s.sameMem_refl

theorem State.sameMem_leaveSets (s : State) (h g : Nat) : s.sameMem (s.leaveSets h g) :=
  State.sameMem_foldl _ (fun t _ => (t.sameMem_leaveArr ..).trans (State.sameMem_leaveArr ..)) _ s

theorem State.sameMem_dropWaiters (s : State) (h : Nat) (p : Waiter → Bool) : s.sameMem (s.dropWaiters h p) := by
  unfold State.dropWaiters
  dsimp only
  split
  exacts [(s.sameMem_setHome ..).trans (State.sameMem_atTime ..), s.sameMem_setHome ..]

theorem State.sameMem_leaveHome (s : State) (h g : Nat) : s.sameMem (s.leaveHome h g) :=
  (s.sameMem_dropWaiters ..).trans (State.sameMem_leaveSets ..)

theorem State.sameMem_dropFetch (s : State) (g : Nat) : s.sameMem (s.dropFetch g) := by
  unfold State.dropFetch
  dsimp only
  split
  · refine (((s.sameMem_dropWaiters ..).trans (State.sameMem_leaveArr ..)).trans (State.sameMem_modCore _ _ _ ?_ ?_)).trans
      (State.sameMem_modStrand ..) <;> exact fun _ => rfl
  · exact s.sameMem_refl

theorem State.sameMem_vacate (s : State) (g t : Nat) : s.sameMem (s.vacate g t) := by
  unfold State.vacate
  dsimp only
  refine (s.sameMem_dropFetch g).trans ?_
  generalize s.dropFetch g = u
  split
  · refine State.sameMem.trans (State.sameMem.trans (State.sameMem_modCore _ _ _ ?_ ?_) (State.sameMem_askPass ..)) (State.sameMem_askLoad ..) <;>
      exact fun _ => rfl
  · exact (u.sameMem_askPass _).trans (State.sameMem_askLoad ..)

theorem State.sameMem_offer (s : State) (g : Nat) (r : FillReg) : s.sameMem (s.offer g r) := by
  unfold State.offer; split
  exacts [s.sameMem_atOnce .., s.sameMem_refl]

theorem State.sameMem_accept (s : State) (m : Nat) (x : Msg) (f : Nat) : s.sameMem (s.accept m x f) :=
  State.sameMem.trans (t := { s with msgs := s.msgs.set m { x with arrived := true, done := true } }) (State.sameMem_of_eq rfl rfl)
    (State.sameMem_at ..)

theorem State.sameMem_acceptAll (s : State) (g : Nat) : s.sameMem (s.acceptAll g) := by
  refine State.sameMem_foldl _ (fun t e => ?_) _ s
  dsimp only; split
  exacts [t.sameMem_accept .., t.sameMem_refl]

theorem State.sameMem_withdraw (s : State) (g : Nat) : s.sameMem (s.withdraw g) := by
  unfold State.withdraw
  have h : s.sameMem ((s.leaveHome (s.strand g).core g).modCore (s.strand g).core fun k =>
      { k with
        ready := k.ready.filter (· != g)
        claims := k.claims.filter fun x => x.strand != g
        ringWaits := k.ringWaits.filter fun (_, _, x) => x != .strand g
        tagWaits := k.tagWaits.filter fun t => t.who != .strand g
        misses := k.misses.map fun (v, m) => (v, { m with joined := m.joined.filter (· != .strand g) }) }) :=
    (s.sameMem_leaveHome ..).trans (State.sameMem_modCore _ _ _ (fun _ => rfl) fun _ => rfl)
  dsimp only
  split
  exacts [h.trans (State.sameMem_at ..), h]

theorem State.sameMem_recall (s : State) (g : Nat) (p : Nat → Bool) : s.sameMem (s.recall g p) := by
  unfold State.recall
  refine State.sameMem.trans (State.sameMem_foldl _ (fun t e => ?_) _ _) (State.sameMem_foldl _ (fun t e => ?_) _ _) <;>
    dsimp only <;> split <;> first | exact t.sameMem_at .. | exact t.sameMem_refl

theorem State.sameMem_undoWait (s : State) (g : Nat) : s.sameMem (s.undoWait g) := by
  unfold State.undoWait
  split
  · exact (s.sameMem_modStrand ..).trans (State.sameMem_foldl _ (fun t e => t.sameMem_offer ..) _ _)
  · exact s.sameMem_refl

theorem State.sameMem_stopContext (s : State) (g : Nat) : s.sameMem (s.stopContext g) :=
  ((s.sameMem_withdraw g).trans (State.sameMem_recall ..)).trans (State.sameMem_modStrand ..)

theorem State.sameMem_stopLeft (s : State) (g : Nat) : s.sameMem (s.stopLeft g) := by
  unfold State.stopLeft; split
  · exact (s.sameMem_stopContext g).trans (State.sameMem_at ..)
  · exact s.sameMem_refl

theorem State.sameMem_checkBarrier (s : State) (g : Nat) : s.sameMem (s.checkBarrier g) := by
  unfold State.checkBarrier
  split
  · exact s.sameMem_refl
  · split
    · exact (s.sameMem_modGang ..).trans (State.sameMem_at ..)
    · exact s.sameMem_refl

theorem State.sameMem_pokeGang (s : State) (g : Nat) : s.sameMem (s.pokeGang g) := by
  unfold State.pokeGang
  split
  · exact s.sameMem_refl
  · split
    · exact s.sameMem_refl
    · split
      · exact s.sameMem_atOnce ..
      · exact s.sameMem_refl

theorem State.sameMem_sendCloses (s : State) (g : Nat) : s.sameMem (s.sendCloses g) :=
  State.sameMem_foldl _ (fun (t : State) _ => State.sameMem.trans (t := t.addReq _) (State.sameMem_of_eq rfl rfl)
    ((State.sameMem_toHome ..).trans (State.sameMem_modStrand ..))) _ s

theorem State.sameMem_headsLeft (s : State) (g : Nat) (t : State) : t.sameMem (s.headsLeft g t) := by
  refine State.sameMem_foldl _ (fun t e => State.sameMem_foldl _ (fun u q => ?_) _ t) _ t
  split
  · exact u.sameMem_refl
  · split
    · exact u.sameMem_refl
    · split
      · exact u.sameMem_at ..
      · exact u.sameMem_refl

theorem State.sameMem_endStrand (s : State) (g t : Nat) : s.sameMem (s.endStrand g t) := by
  unfold State.endStrand
  have h := ((((s.sameMem_withdraw g).trans (State.sameMem_recall _ g fun _ => true)).trans (State.sameMem_sendCloses _ g)).trans
    (State.sameMem_acceptAll _ g)).trans (State.sameMem_vacate _ g t)
  generalize ((((s.withdraw g).recall g fun _ => true).sendCloses g).acceptAll g).vacate g t = u at h
  dsimp only
  refine State.sameMem.trans (State.sameMem.trans (State.sameMem.trans (h.trans ?_) (State.sameMem_modGang ..)) (State.sameMem_checkBarrier ..))
    (State.sameMem_pokeGang ..)
  generalize hv : (u.modCore (s.strand g).core _).modCore (g / 4096) _ = v
  have k : u.sameMem v := by
    subst hv
    refine State.sameMem.trans (State.sameMem_modCore _ _ _ ?_ ?_) (State.sameMem_modCore _ _ _ ?_ ?_) <;> exact fun _ => rfl
  refine k.trans (State.sameMem.trans (State.sameMem_mapCores v (fun (k : Core) =>
    { k with queues := k.queues.map fun (q : List Cmd) => q.map fun (x : Cmd) =>
        if x.strand == g && x.last.isNone then { x with last := some (s.strand g).core } else x }) (fun _ => rfl) fun _ => rfl)
    (State.sameMem_of_eq rfl rfl))

theorem State.sameMem_removeStrand (s : State) (g : Nat) : s.sameMem (s.removeStrand g) := by
  unfold State.removeStrand
  split
  · exact s.sameMem_refl
  · refine State.sameMem.trans (State.sameMem.trans (State.sameMem_mapCores s _ ?_ ?_) (State.sameMem_headsLeft ..)) (State.sameMem_endStrand ..) <;>
      exact fun _ => rfl

theorem State.sameMem_modPkg (s : State) (f : Pkg → Pkg) : s.sameMem (s.modPkg f) := State.sameMem_of_eq rfl rfl

theorem State.sameMem_dropVictim (s : State) (gid d : Nat) : s.sameMem (s.dropVictim gid d) := by
  unfold State.dropVictim
  dsimp only
  split
  exacts [((s.sameMem_modGang ..).trans (State.sameMem_modDie ..)).trans (State.sameMem_modPkg ..),
    (s.sameMem_modGang ..).trans (State.sameMem_modDie ..)]

theorem State.sameMem_removeUnit (s : State) (gang g core lvl : Nat) (live : Bool) : s.sameMem (s.removeUnit gang g core lvl live) := by
  unfold State.removeUnit
  dsimp only
  refine State.sameMem.trans ?_ (State.sameMem_pokeGang ..)
  have hn (v : State) : v.sameMem ((List.range 24).foldl (fun s p => if s.pkg.portUp.getLsbD p then s.out (.notice p) else s) v) :=
    State.sameMem_foldl _ (fun t p => by split; exacts [t.sameMem_out _, t.sameMem_refl]) _ v
  generalize hu : (if lvl ≥ 3 then _ else _ : State) = u
  have h1 : s.sameMem u := by
    subst hu; split
    exacts [(s.sameMem_modGang ..).trans (State.sameMem_dropVictim ..), s.sameMem_modGang ..]
  generalize hw : List.foldl _ u _ = w
  have h2 : u.sameMem w := hw ▸ State.sameMem_foldl _ (fun t n => t.sameMem_removeStrand n) _ _
  refine (h1.trans h2).trans ?_
  split <;> split
  · exact (w.sameMem_irq 0).trans (hn _)
  · exact hn w
  · exact w.sameMem_irq 0
  · exact w.sameMem_refl

theorem State.sameMem_contain (s : State) (g gang core code : Nat) (pc : Word) (live : Bool) :
    s.sameMem (s.contain g gang core code pc live) := by
  unfold State.contain
  split
  · split
    · exact s.sameMem_removeStrand g
    · exact s.sameMem_refl
  · dsimp only
    generalize consult _ _ 0 6 = p
    obtain ⟨lvl, act⟩ := p
    dsimp only
    generalize hu : State.crossed _ _ _ _ _ = u
    have k : s.sameMem u := hu ▸ (s.sameMem_modDie ..).trans (State.sameMem_crossed ..)
    refine k.trans ?_
    split
    · split
      · exact (u.sameMem_modStrand ..).trans (State.sameMem_at ..)
      · refine State.sameMem.trans ?_ ((State.sameMem_foldl _ (fun t n => t.sameMem_removeStrand n) _ _).trans (State.sameMem_pokeGang ..))
        refine State.sameMem.trans ?_ (State.sameMem_dropVictim ..)
        exact State.sameMem.trans (State.sameMem_of_eq rfl rfl) (State.sameMem_modGang ..)
    · exact u.sameMem_removeUnit ..
    · exact u.sameMem_removeUnit ..
    · exact u.sameMem_removeUnit ..

/-- A fault on its way to containment leaves every memory as it is (R388). -/
theorem State.sameMem_toContain (s : State) (g gang core : Nat) (cause : Cause) (pc : Word) (live : Bool) :
    s.sameMem (s.toContain g gang core cause pc live) := by
  unfold State.toContain
  dsimp only
  split
  exacts [((s.sameMem_undoWait g).trans (State.sameMem_modStrand ..)).trans (State.sameMem_at ..), s.sameMem_at ..]

theorem State.sameMem_orphanFails (s : State) (g gang core : Nat) : s.sameMem (s.orphanFails g gang core) := by
  refine State.sameMem_foldl _ (fun t e => State.sameMem_foldl _ (fun u f => ?_) _ t) _ s
  obtain ⟨id, f⟩ := f
  dsimp only
  refine State.sameMem.trans (State.sameMem_modCore u _ _ ?_ ?_) (State.sameMem_toContain ..) <;> exact fun _ => rfl

/-- Taking an exception leaves every memory as it is (R380, R381). -/
theorem State.sameMem_raise (s : State) (g : Nat) (f : FaultRec) (len : BitVec 2) : s.sameMem (s.raise g f len) := by
  unfold State.raise
  dsimp only
  split
  · exact s.sameMem_toContain ..
  · exact (s.sameMem_setStrand ..).trans (State.sameMem_leaveSets ..)

theorem State.sameMem_newWait (s : State) (g : Nat) (c : Strand) (k : WaitKind) (lim : Option Nat) (len : Nat) :
    s.sameMem (s.newWait g c k lim len) := by
  unfold State.newWait
  dsimp only
  split
  · exact (s.sameMem_setStrand ..).trans (State.sameMem_at ..)
  · exact s.sameMem_setStrand ..

theorem State.sameMem_waitFor (s : State) (g : Nat) (k : WaitKind) (lim : Option Nat) (len : Nat) : s.sameMem (s.waitFor g k lim len) := by
  unfold State.waitFor
  dsimp only
  split
  · exact s.sameMem_setStrand ..
  · exact s.sameMem_newWait ..

theorem State.sameMem_park (s : State) (g : Nat) (w : Wait) : s.sameMem (s.park g w) := by
  unfold State.park
  dsimp only
  split
  · exact s.sameMem_setStrand ..
  · exact ((s.sameMem_vacate ..).trans (State.sameMem_modStrand ..)).trans (State.sameMem_stopLeft ..)

theorem State.sameMem_wake (s : State) (g : Nat) : s.sameMem (s.wake g) := by
  have h : s.sameMem (((s.setStrand g { s.strand g with wait := none, place := .ready }).modCore (s.strand g).core fun k =>
      { k with ready := k.ready ++ [g] }).askLoad (s.strand g).core s.now) := by
    refine State.sameMem.trans (State.sameMem.trans (s.sameMem_setStrand ..) (State.sameMem_modCore _ _ _ ?_ ?_)) (State.sameMem_askLoad ..) <;>
      exact fun _ => rfl
  unfold State.wake
  dsimp only
  split
  exacts [s.sameMem_setStrand .., s.sameMem_setStrand .., h, h, s.sameMem_setStrand ..]

theorem State.sameMem_joinMiss (s : State) (c v : Nat) (w : Waiter) : s.sameMem (s.joinMiss c v w) := by
  unfold State.joinMiss
  split
  · refine s.sameMem_modCore _ _ ?_ ?_ <;> exact fun _ => rfl
  · refine State.sameMem.trans (s.sameMem_modCore _ _ ?_ ?_) (State.sameMem_at ..) <;> exact fun _ => rfl

theorem State.sameMem_joinQueue (s : State) (h b : Nat) (w : Waiter) (p : Nat) (k : Bool) : s.sameMem (s.joinQueue h b w p k) :=
  (s.sameMem_setHome ..).trans (State.sameMem_askFetch ..)

theorem State.sameMem_migrate (s : State) (g h : Nat) : s.sameMem (s.migrate g h) := by
  unfold State.migrate
  dsimp only
  split
  · exact s.sameMem_cutOff _
  · split
    · exact ((s.sameMem_vacate ..).trans (State.sameMem_modStrand ..)).trans (State.sameMem_stopLeft ..)
    · exact ((s.sameMem_vacate ..).trans (State.sameMem_modStrand ..)).trans (State.sameMem_at ..)

theorem State.sameMem_parkOn (s : State) (g b : Nat) (k : Bool) (va : Word) (len : Nat) : s.sameMem (s.parkOn g b k va len) :=
  (s.sameMem_joinQueue ..).trans (State.sameMem_park ..)

theorem State.sameMem_closeSpan (s : State) : s.sameMem s.closeSpan := (s.sameMem_sendCloses _).trans (State.sameMem_setCur ..)

theorem State.sameMem_sendAndWait (s : State) (r : Req) : s.sameMem (s.sendAndWait r) := (s.sameMem_send r).trans (State.sameMem_setCur ..)

theorem State.sameMem_fetchPart (s : State) (g : Nat) (va : Word) (may : Bool) : s.sameMem (s.fetchPart g va may) := by
  unfold State.fetchPart
  dsimp only
  split
  · exact s.sameMem_setStrand ..
  · split
    exacts [(s.sameMem_joinMiss ..).trans (State.sameMem_park ..), (s.sameMem_joinMiss ..).trans (State.sameMem_setStrand ..)]
  · split
    · split
      exacts [s.sameMem_parkOn .., (s.sameMem_joinQueue ..).trans (State.sameMem_setStrand ..)]
    · exact (s.sameMem_setStrand ..).trans (State.sameMem_send ..)

theorem State.sameMem_startFetch (s : State) (g : Nat) : s.sameMem (s.startFetch g) := by
  unfold State.startFetch
  dsimp only
  split
  · split
    · exact s.sameMem_refl
    · split
      exacts [s.sameMem_setStrand .., s.sameMem_fetchPart ..]
  · split
    exacts [s.sameMem_refl, s.sameMem_fetchPart ..]
  · split
    exacts [s.sameMem_refl, (s.sameMem_setStrand ..).trans (State.sameMem_park ..)]
  · exact s.sameMem_refl

theorem State.sameMem_fetchNext (s : State) (g len : Nat) : s.sameMem (s.fetchNext g len) := by
  unfold State.fetchNext
  dsimp only
  split
  exacts [(s.sameMem_setStrand ..).trans (State.sameMem_fetchPart ..), s.sameMem_refl]

theorem State.sameMem_resume (s : State) (g : Nat) : s.sameMem (s.resume g) := (s.sameMem_wake g).trans (State.sameMem_startFetch ..)

theorem State.sameMem_pendUpcall (s : State) (g : Nat) (f : FaultRec) (len : Nat) : s.sameMem (s.pendUpcall g f len) := by
  unfold State.pendUpcall
  dsimp only
  refine (s.sameMem_undoWait g).trans ?_
  split
  · exact ((State.sameMem_setStrand ..).trans (State.sameMem_raise ..)).trans (State.sameMem_startFetch ..)
  · exact (State.sameMem_setStrand ..).trans (State.sameMem_wake ..)

/-- Whatever keeps an instruction from retiring, nothing of its effect is visible in a memory (R32). -/
theorem State.sameMem_stop (s : State) (len : Nat) (e : Stop) : s.sameMem (s.stop len e) := by
  unfold State.stop
  split
  · exact s.sameMem_raise ..
  · exact ((s.sameMem_setCur _).trans (State.sameMem_offer ..)).trans (State.sameMem_raise ..)
  · exact (s.sameMem_setCur _).trans (State.sameMem_raise ..)
  · refine State.sameMem.trans (s.sameMem_mapCores _ ?_ ?_) (State.sameMem_raise ..) <;> exact fun _ => rfl
  · exact s.sameMem_waitFor ..
  · exact s.sameMem_refl
  · dsimp only
    split
    exacts [(s.sameMem_setCur _).trans (State.sameMem_at ..), s.sameMem_setCur _, s.sameMem_setCur _, s.sameMem_refl]

/-- `run` changes memories only as its body does. -/
theorem run_sameMem {len : Nat} {body : State → Except Stop State} {s t : State} (hb : ∀ u, body s = .ok u → s.sameMem u)
    (h : run len body s = .next t) : s.sameMem t := by
  unfold run at h
  split at h
  · next e => cases h; exact hb _ e
  · cases h; exact s.sameMem_stop ..

/-- An instruction that acts on its strand alone leaves every memory as it is. -/
theorem runStrand_sameMem {len : Nat} {body : Strand → Except Stop Strand} {s t : State} (h : runStrand len body s = .next t) : s.sameMem t := by
  refine run_sameMem (fun u e => ?_) h
  cases hc : body s.cur with
  | error x => rw [hc] at e; cases e
  | ok c => rw [hc] at e; cases e; exact s.sameMem_setCur c

/-! ### Scratchpad accesses (R103, R104) -/

/-- What a scalar load reads when nothing keeps it from retiring. -/
theorem loadSp_eq {len n : Nat} {d a : SReg} {la : Bool} {off : BitVec 9} {s : State} (ha : s.cur.sState a = .full) (hd : s.cur.sState d ≠ .pending)
    (hq : needAcq s.cur = .ok ()) (hc : spCheck (addrM (s.cur.sVal a) off n) n = .ok ())
    (hr : needRange (s.core s.cur.core) (addrM (s.cur.sVal a) off n).toNat n false = .ok ())
    (hp : needClean (s.core s.cur.core) (addrM (s.cur.sVal a) off n).toNat n = .ok ()) :
    loadSp len n d a la off s = .next (s.setCur (((s.cur.markS a la).writeS d
      (BitVec.ofNat 64 ((s.core s.cur.core).sp.readN (addrM (s.cur.sVal a) off n).toNat n))).advance len)) := by
  refine run_ok ?_
  simp only [readS_full _ _ ha, needFree_s _ _ hd, hq, bind, Except.bind, hc, hr, hp]

/-- What a scalar store writes when nothing keeps it from retiring. -/
theorem storeSp_eq {len n : Nat} {d a : SReg} {la : Bool} {off : BitVec 9} {s : State} (ha : s.cur.sState a = .full) (hd : s.cur.sState d = .full)
    (hq : needAcq s.cur = .ok ()) (hc : spCheck (addrM (s.cur.sVal a) off n) n = .ok ())
    (hr : needRange (s.core s.cur.core) (addrM (s.cur.sVal a) off n).toNat n true = .ok ()) :
    storeSp len n d a la off s = .next ((s.setCore s.cur.core ((s.core s.cur.core).spWrite (addrM (s.cur.sVal a) off n).toNat
      (leBytes n (s.cur.sVal d).toNat))).setCur ((s.cur.markS a la).advance len)) := by
  refine run_ok ?_
  simp only [readS_full _ _ ha, readS_full _ _ hd, hq, bind, Except.bind, hc, hr]

/-- A write of the scratchpad keeps the canonical form. -/
theorem State.canonical_spWrite {s : State} (c a : Nat) (bs : List Byte) (w : s.canonical) : (s.setCore c ((s.core c).spWrite a bs)).canonical :=
  State.canonical_setCore c _ w (Memory.wf_write _ _ _ (State.core_wf w c).1) (State.core_wf w c).2

/-! ### Accesses (R253 to R256, R283) -/

/-- A release drains, and then closes the span or goes on. -/
theorem release_cases {s t : State} {d : Drain} {go : Except Stop State} (h : release s d go = .ok t) :
    needDrained s d = .ok () ∧ (s.cur.span ≠ [] ∧ t = s.closeSpan ∨ s.cur.span = [] ∧ s.cur.closes = 0 ∧ go = .ok t) := by
  unfold release at h
  cases hd : needDrained s d with
  | error e => rw [hd] at h; cases h
  | ok u =>
    rw [hd] at h
    refine ⟨rfl, ?_⟩
    cases hs : s.cur.span with
    | cons a l =>
      refine .inl ⟨List.cons_ne_nil _ _, ?_⟩
      simpa [hs, bind, Except.bind, eq_comm] using h
    | nil =>
      by_cases hc : s.cur.closes = 0
      · refine .inr ⟨rfl, hc, ?_⟩
        simpa [hs, hc, bind, Except.bind] using h
      · simp [hs, hc, bind, Except.bind] at h

/-- An access that does not stop its instruction leaves the strand waiting or on its way, with every memory as it was, or goes on with the
request for the address that its translation gives. -/
theorem withAccess_cases {s t : State} {acc : Access} {va : Word} {n : Need} {k : Kind} {ret : Retire} {go : State → Req → Except Stop State}
    (h : withAccess s acc va n k ret go = .ok t) :
    s.sameMem t ∨ ∃ c pa leaf, xlate s va n k = .ok (.ok pa leaf) ∧ go (s.setCur c) (s.reqFor acc pa leaf va ret) = .ok t := by
  unfold withAccess at h
  cases hx : xlate s va n k with
  | error e => rw [hx] at h; cases h
  | ok a =>
    rw [hx] at h
    cases a with
    | wait u =>
      cases h
      unfold xlate at hx
      split at hx
      · cases hx
      · cases hx
      · cases hx; exact .inl ((s.sameMem_joinMiss ..).trans (State.sameMem_park ..))
    | ok pa leaf =>
      dsimp only [bind, Except.bind] at h
      split at h
      · rcases (release_cases h).2 with ⟨-, rfl⟩ | ⟨-, -, h⟩
        · exact .inl s.sameMem_closeSpan
        · cases h; exact .inl s.sameMem_refl
      · split at h
        · cases h
        · split at h
          · cases hd : needDrained s .writes with
            | error e => rw [hd] at h; cases h
            | ok u => rw [hd] at h; cases h; exact .inl (s.sameMem_migrate ..)
          · split at h
            · cases h; exact .inl (s.sameMem_parkOn ..)
            · exact .inr ⟨_, pa, leaf, rfl, h⟩

/-! ### Taking an exception (R379 to R382) -/

/-- With a handler and UP at 0 an exception is an upcall. -/
theorem State.raise_upcall {s : State} {g : Nat} (f : FaultRec) (len : BitVec 2) (hu : (s.strand g).up = false) (hv : (s.strand g).ctl.tvec ≠ 0) :
    s.raise g f len = (s.setStrand g ((s.strand g).deliver f len)).leaveSets (s.strand g).core g := by
  have : ((s.strand g).up || (s.strand g).ctl.tvec == 0) = false := by
    rw [hu, Bool.false_or]; exact beq_eq_false_iff_ne.2 hv
  simp only [State.raise, this, Bool.false_eq_true, if_false]

/-- Else it goes to containment, which decides at the end of the cycle (R388). -/
theorem State.raise_contain {s : State} {g : Nat} (f : FaultRec) (len : BitVec 2) (h : (s.strand g).up = true ∨ (s.strand g).ctl.tvec = 0) :
    s.raise g f len = s.toContain g (s.strand g).ident.gang (s.strand g).core f.cause (s.strand g).pc true := by
  have : ((s.strand g).up || (s.strand g).ctl.tvec == 0) = true := by
    rcases h with h | h <;> rw [h]
    · rfl
    · exact Bool.or_true _
  simp only [State.raise, this, if_true]

/-- A strand of a home with no frames leaves no arrival set. -/
theorem State.leaveSets_nil {s : State} {h : Nat} (g : Nat) (hf : (s.home h).frames = []) : s.leaveSets h g = s := by
  simp [State.leaveSets, hf]

/-- An upcall keeps every register; what it writes is said of `ctl` apart. -/
theorem Strand.keeps_deliver (c : Strand) (f : FaultRec) (len : BitVec 2) : c.keeps (c.deliver f len) {} [] [] := by
  simp [Strand.keeps, Strand.keepsRegs, Strand.deliver, Strand.sVal, Strand.sState, Strand.ivVal, Strand.ivState, Strand.pVal, Strand.qVal, Strand.kVal,
    Strand.xVal]

/-- `ctl.tcause` after a delivery, as a number: LEN, UP and CAUSE (R379). -/
theorem tcauseOf_toNat (len : BitVec 2) (code : Nat) (h : code < 256) : (tcauseOf len code).toNat = len.toNat * 2 ^ 9 + 2 ^ 8 + code := by
  have e : (len ++ (1 : BitVec 1) ++ BitVec.ofNat 8 code : BitVec 11).toNat = ((len.toNat <<< 1 ||| 1) <<< 8) ||| code := by
    rw [BitVec.toNat_append, BitVec.toNat_append, BitVec.toNat_ofNat, Nat.mod_eq_of_lt h]; rfl
  rw [tcauseOf, e, ← Nat.shiftLeft_add_eq_or_of_lt h, Nat.shiftLeft_eq, ← Nat.shiftLeft_add_eq_or_of_lt (by decide : 1 < 2 ^ 1), Nat.shiftLeft_eq]
  omega

/-- The return keeps every register. -/
theorem Strand.keeps_upret (c : Strand) (skip : Bool) : c.keeps (c.upret skip) {} [] [] := by
  unfold Strand.upret
  dsimp only
  exact Strand.keeps_trans (w := {}) (v := {}) (mS := []) (mI := []) (nS := []) (nI := []) (c.keeps_ctl _) (Strand.keeps_goto _ _)

/-! ### Ends of control transfers and of instructions with flags -/

/-- A control transfer whose strand is as said. -/
theorem goes_of {s : State} {c : Strand} {dest : Word} {w : RegSet} {mS : List SReg}
    (hk : s.cur.keeps c w mS []) (hc : c.ctl = s.cur.ctl) (hp : c.pc = dest) (hw : c.wait = none) : s.goes (s.setCur c) dest w mS := by
  simp only [State.goes, State.cur_setCur]
  exact ⟨onlyCur_setCur s c, hk, hc, hp, hw⟩

theorem goto_goes {s : State} {c : Strand} {dest : Word} {w : RegSet} {mS : List SReg} (hk : s.cur.keeps c w mS [])
    (hc : c.ctl = s.cur.ctl) : s.goes (s.setCur (c.goto dest)) dest w mS :=
  goes_of (by simpa using Strand.keeps_trans hk (c.keeps_goto dest)) hc rfl rfl

@[simp] theorem State.noteGang_cur (s : State) (g : Nat) (fl : BitVec 6) (np : Bool) : (s.noteGang g fl np).cur = s.cur := rfl

/-- A strand that retires with float flags enters them in its own registers and in its gang's. -/
theorem retiresFlags_of {s : State} {c : Strand} {len : Nat} {w : RegSet} {mS : List SReg} {mIv : List IvReg} {fl : BitVec 6} {sat : Nat}
    (hk : s.cur.keeps c w mS mIv) (hc : c.ctl = s.cur.ctl) (hp : c.pc = s.cur.pc + BitVec.ofNat 64 len) (hw : c.wait = none) :
    s.retiresFlags (s.retireFp c fl sat) len w mS mIv fl sat false false false ∧ (s.retireFp c fl sat).cur = c.noteFp fl sat := by
  have hi : c.ident = s.cur.ident := hk.1.2.2.2.2.2.2.2.2.2.2.1
  have e : (s.retireFp c fl sat).cur = c.noteFp fl sat := by simp [State.retireFp]
  refine ⟨⟨?_, ?_, ?_, ?_, ?_⟩, e⟩
  · rw [e, ← hi]; rfl
  · rw [e]
    simpa using Strand.keeps_trans hk (c.keeps_noteFp fl sat)
  · rw [e]; simp [Strand.noteFp, hc, istSet]
  · rw [e]; simp [Strand.noteFp, hp]
  · rw [e]; simp [Strand.noteFp, hw]

/-- A two-source float instruction with its operands there (R88, R89). -/
theorem float2_eq (o : OpRRR) (r : FRound) (f : Rnd → Nat → Nat → FR) (s : State) (ha : s.cur.sState o.a = .full) (hb : s.cur.sState o.b = .full)
    (hd : s.cur.sState o.d ≠ .pending) :
    let v := f (s.cur.rnd r) (s.cur.sVal o.a).toNat (s.cur.sVal o.b).toNat
    float2 o r f s = .next (s.retireFp ((((s.cur.markS o.a o.la).markS o.b o.lb).writeS o.d (BitVec.ofNat 64 v.bits)).advance 4) v.fl v.sat) := by
  intro v
  refine run_ok ?_
  simp only [readS_full _ _ ha, readS_full _ _ hb, needFree_s _ _ hd]
  rfl

/-- A one-source float instruction with its operand there. -/
theorem float1_eq (o : OpRR) (r : FRound) (f : Rnd → Word → FR) (s : State) (ha : s.cur.sState o.a = .full) (hd : s.cur.sState o.d ≠ .pending) :
    let v := f (s.cur.rnd r) (s.cur.sVal o.a)
    float1 o r f s = .next (s.retireFp (((s.cur.markS o.a o.la).writeS o.d (BitVec.ofNat 64 v.bits)).advance 4) v.fl v.sat) := by
  intro v
  refine run_ok ?_
  simp only [readS_full _ _ ha, needFree_s _ _ hd]
  rfl

end Sys2Proof.Machine
end

