-- ==== Sys2Proof/Laws/PerInstr.lean ====
section
/-! SUPPORT. Decoding the encoding of each instruction (R34-R52): one lemma per constructor of `Instr`. -/

namespace Sys2Proof.Laws.RoundTrip

/-- A well-formed instruction is laid out in a halfword below 0x8000 that `decode16` reads back, or as an opcode and twenty
payload bits that the opcode map reads back; a step of another agent has no encoding. -/
def Statement (i : Instr) : Prop :=
  i.wf = true →
    match enc i with
    | .half h => h < 2 ^ 15 ∧ decode16 h = .ok i
    | .word op p => op < 256 ∧ p < 2 ^ 20 ∧ decodeRow (op * 1048576 + p) = .ok i
    | .none => i.encoded = false

theorem word_ok {i : Instr} {op p : Nat} {F : Nat → Except DecodeErr Instr} (he : enc i = .word op p)
    (hop : op < 256) (hrow : ∀ q, rowAt op q = F q) (hp : p < 2 ^ 20)
    (h : i.wf = true → F (wordOf op p) = .ok i) : Statement i := by
  intro hwf
  rw [he]
  exact ⟨hop, hp, (decodeRow_wordOf hop hp).trans ((hrow _).trans (h hwf))⟩

theorem half_ok {i : Instr} {h : Nat} (he : enc i = .half h) (hh : h < 2 ^ 15) (hd : decode16 h = .ok i) :
    Statement i := by
  intro _
  rw [he]
  exact ⟨hh, hd⟩

/-! ### Shapes that several instructions share -/

theorem intRRR_ok {i : Instr} {op : Nat} {c : OpRRR → Instr} (o : OpRRR) (he : enc i = .word op (eRRR o 0)) (hop : op < 256)
    (hrow : ∀ q, rowAt op q = intRRR q c) (hi : c o = i) : Statement i := by
  have := o.d.isLt
  have := o.a.isLt
  have := o.b.isLt
  have := b2n_le o.la
  have := b2n_le o.lb
  refine word_ok he hop hrow (by simp only [eRRR]; omega) fun _ => ?_
  refine okIf_eq (isZero_eq (by simp only [wordOf, eRRR]; omega)) ?_
  rw [dRRR_word _ _ _ (by omega), hi]

theorem intRR_ok {i : Instr} {op : Nat} {c : OpRR → Instr} (o : OpRR) (he : enc i = .word op (eRR o 0 0)) (hop : op < 256)
    (hrow : ∀ q, rowAt op q = intRR q c) (hi : c o = i) : Statement i := by
  have := o.d.isLt
  have := o.a.isLt
  have := b2n_le o.la
  refine word_ok he hop hrow (by simp only [eRR]; omega) fun _ => ?_
  refine okIf_eq (and_t (isZero_eq (by simp only [wordOf, eRR]; omega))
      (isZero_eq (by simp only [wordOf, eRR]; omega))) ?_
  rw [dRR_word _ _ _ _ (by omega) (by omega), hi]

theorem shiftI_ok {i : Instr} {op : Nat} {c : OpShift → Instr} (o : OpShift) (he : enc i = .word op (eShift o)) (hop : op < 256)
    (hrow : ∀ q, rowAt op q = shiftI q c) (hi : c o = i) : Statement i := by
  have := o.d.isLt
  have := o.a.isLt
  have := b2n_le o.la
  have := o.cnt.isLt
  refine word_ok he hop hrow (by simp only [eShift]; omega) fun _ => ?_
  refine okIf_eq (isZero_eq (by simp only [wordOf, eShift]; omega)) ?_
  rw [dShift_word _ _, hi]

theorem sIv_ok {i : Instr} {op : Nat} {c : OpSIv → Instr} (o : OpSIv) (he : enc i = .word op (eSIv o)) (hop : op < 256)
    (hrow : ∀ q, rowAt op q = sIv q c) (hi : c o = i) : Statement i := by
  have := o.d.isLt
  have := o.a.isLt
  have := b2n_le o.la
  refine word_ok he hop hrow (by simp only [eSIv]; omega) fun _ => ?_
  refine okIf_eq (and_t (and_t (isZero_eq (by simp only [wordOf, eSIv]; omega))
      (isZero_eq (by simp only [wordOf, eSIv]; omega))) (isZero_eq (by simp only [wordOf, eSIv]; omega))) ?_
  rw [dSIv_word _ _, hi]

theorem iv2_ok {i : Instr} {op : Nat} {c : OpIV2 → Instr} (o : OpIV2) (he : enc i = .word op (eIV2 o)) (hop : op < 256)
    (hrow : ∀ q, rowAt op q = iv2 q c) (hi : c o = i) : Statement i := by
  have := o.d.isLt
  have := o.a.isLt
  have := o.b.isLt
  have := b2n_le o.la
  have := b2n_le o.lb
  refine word_ok he hop hrow (by simp only [eIV2]; omega) fun _ => ?_
  refine okIf_eq (isZero_eq (by simp only [wordOf, eIV2]; omega)) ?_
  rw [dIV2_word _ _, hi]

theorem iv1_ok {i : Instr} {op : Nat} {c : OpIV1 → Instr} (o : OpIV1) (he : enc i = .word op (eIV1 o)) (hop : op < 256)
    (hrow : ∀ q, rowAt op q = iv1 q c) (hi : c o = i) : Statement i := by
  have := o.d.isLt
  have := o.a.isLt
  have := b2n_le o.la
  refine word_ok he hop hrow (by simp only [eIV1]; omega) fun _ => ?_
  refine okIf_eq (and_t (isZero_eq (by simp only [wordOf, eIV1]; omega))
      (isZero_eq (by simp only [wordOf, eIV1]; omega))) ?_
  rw [dIV1_word _ _, hi]

theorem ic3_ok {i : Instr} {op : Nat} {c : OpIC3 → Instr} (o : OpIC3) (he : enc i = .word op (eIC3 o)) (hop : op < 256)
    (hrow : ∀ q, rowAt op q = ic3 q c) (hi : c o = i) : Statement i := by
  have := o.x.isLt
  have := o.y.isLt
  have := o.z.isLt
  have := b2n_le o.lz
  refine word_ok he hop hrow (by simp only [eIC3]; omega) fun _ => ?_
  refine okIf_eq (isZero_eq (by simp only [wordOf, eIC3]; omega)) ?_
  rw [dIC3_word _ _, hi]

theorem ic2_ok {i : Instr} {op : Nat} {c : OpIC2 → Instr} (o : OpIC2) (he : enc i = .word op (eIC2 o)) (hop : op < 256)
    (hrow : ∀ q, rowAt op q = ic2 q c) (hi : c o = i) : Statement i := by
  have := o.x.isLt
  have := o.z.isLt
  have := b2n_le o.lz
  refine word_ok he hop hrow (by simp only [eIC2]; omega) fun _ => ?_
  refine okIf_eq (and_t (isZero_eq (by simp only [wordOf, eIC2]; omega))
      (isZero_eq (by simp only [wordOf, eIC2]; omega))) ?_
  rw [dIC2_word _ _, hi]

theorem vec_ok {i : Instr} {op : Nat} {c : OpV → Instr} (o : OpV) (he : enc i = .word op (eV o 0)) (hop : op < 256)
    (hrow : ∀ q, rowAt op q = vec q c) (hi : c o = i) : Statement i := by
  have := o.pd.isLt
  have := o.pa.isLt
  have := o.pb.isLt
  have := fmt_code_lt o.fmt
  have := o.k.isLt
  have := b2n_le o.incD
  have := b2n_le o.incA
  have := b2n_le o.incB
  refine word_ok he hop hrow (by simp only [eV]; omega) fun _ => ?_
  refine withFmt_eq (f := o.fmt) (fldN_eq (by simp only [wordOf, eV]; omega)) ?_
  refine okIf_eq (isZero_eq (by simp only [wordOf, eV]; omega)) ?_
  rw [dV_word _ _ _ (by omega), hi]

theorem vec1_ok {i : Instr} {op : Nat} {c : OpV1 → Instr} (o : OpV1) (he : enc i = .word op (eV1 o 0 0)) (hop : op < 256)
    (hrow : ∀ q, rowAt op q = vec1 q c) (hi : c o = i) : Statement i := by
  have := o.pd.isLt
  have := o.pa.isLt
  have := fmt_code_lt o.fmt
  have := o.k.isLt
  have := b2n_le o.incD
  have := b2n_le o.incA
  refine word_ok he hop hrow (by simp only [eV1]; omega) fun _ => ?_
  refine withFmt_eq (f := o.fmt) (fldN_eq (by simp only [wordOf, eV1]; omega)) ?_
  refine okIf_eq (and_t (isZero_eq (by simp only [wordOf, eV1]; omega))
      (isZero_eq (by simp only [wordOf, eV1]; omega))) ?_
  rw [dV1_word _ _ _ _ (by omega) (by omega), hi]

theorem vs1_ok {i : Instr} {op : Nat} {c : OpVS1 → Instr} (o : OpVS1) (he : enc i = .word op (eVS1 o)) (hop : op < 256)
    (hrow : ∀ q, rowAt op q = vs1 q c) (hi : c o = i) : Statement i := by
  have := o.pd.isLt
  have := o.s.isLt
  have := b2n_le o.la
  have := fmt_code_lt o.fmt
  have := o.k.isLt
  have := b2n_le o.inc
  refine word_ok he hop hrow (by simp only [eVS1]; omega) fun _ => ?_
  refine withFmt_eq (f := o.fmt) (fldN_eq (by simp only [wordOf, eVS1]; omega)) ?_
  refine okIf_eq (isZero_eq (by simp only [wordOf, eVS1]; omega)) ?_
  rw [dVS1_word _ _, hi]

theorem vs2_ok {i : Instr} {op : Nat} {c : OpVS → Instr} (o : OpVS) (he : enc i = .word op (eVS o)) (hop : op < 256)
    (hrow : ∀ q, rowAt op q = vs2 q c) (hi : c o = i) : Statement i := by
  have := o.pd.isLt
  have := o.pa.isLt
  have := o.s.isLt
  have := b2n_le o.la
  have := fmt_code_lt o.fmt
  have := o.k.isLt
  have := b2n_le o.inc
  refine word_ok he hop hrow (by simp only [eVS]; omega) fun _ => ?_
  refine withFmt_eq (f := o.fmt) (fldN_eq (by simp only [wordOf, eVS]; omega)) ?_
  refine okIf_eq rfl ?_
  rw [dVS_word _ _, hi]

theorem vecI_ok {i : Instr} {op : Nat} {c : OpVI → Instr} (o : OpVI) (he : enc i = .word op (eVI o)) (hop : op < 256)
    (hrow : ∀ q, rowAt op q = vecI q c) (hi : c o = i) : Statement i := by
  have := o.pd.isLt
  have := o.pa.isLt
  have := o.pb.isLt
  have := o.k.isLt
  have := b2n_le o.incD
  have := b2n_le o.incA
  have := b2n_le o.incB
  refine word_ok he hop hrow (by simp only [eVI]; omega) fun _ => ?_
  refine okIf_eq (and_t (by rw [fldN_eq (n := 14) (by simp only [wordOf, eVI]; omega)]; rfl)
      (isZero_eq (by simp only [wordOf, eVI]; omega))) ?_
  rw [dVI_word _ _, hi]

theorem vecSat_ok {i : Instr} {op : Nat} {c : OpV → Bool → Instr} (o : OpV) (sat : Bool) (he : enc i = .word op (eV o (b2n sat)))
    (hop : op < 256) (hrow : ∀ q, rowAt op q = vecSat q c) (hi : c o sat = i) : Statement i := by
  have := o.pd.isLt
  have := o.pa.isLt
  have := o.pb.isLt
  have := fmt_code_lt o.fmt
  have := o.k.isLt
  have := b2n_le o.incD
  have := b2n_le o.incA
  have := b2n_le o.incB
  have := b2n_le sat
  refine word_ok he hop hrow (by simp only [eV]; omega) fun _ => ?_
  refine withFmt_eq (f := o.fmt) (fldN_eq (by simp only [wordOf, eV]; omega)) ?_
  refine okIf_eq rfl ?_
  rw [dV_word _ _ _ (by omega), bitB_eq (b := sat) (by simp only [wordOf, eV]; omega), hi]

theorem hintI_ok {i : Instr} {op : Nat} {c : SReg → Bool → Instr} (a : SReg) (la : Bool) (he : enc i = .word op (eHint a la))
    (hop : op < 256) (hrow : ∀ q, rowAt op q = hintI q c) (hi : c a la = i) : Statement i := by
  have := a.isLt
  have := b2n_le la
  refine word_ok he hop hrow (by simp only [eHint]; omega) fun _ => ?_
  refine okIf_eq (and_t (isZero_eq (by simp only [wordOf, eHint]; omega))
      (isZero_eq (by simp only [wordOf, eHint]; omega))) ?_
  rw [fld_eq (x := a) (by simp only [wordOf, eHint]; omega), bitB_eq (b := la) (by simp only [wordOf, eHint]; omega),
      hi]

theorem rri_ok {i : Instr} {op : Nat} {c : OpRRI → Instr} (o : OpRRI) (he : enc i = .word op (eRRI o)) (hop : op < 256)
    (hrow : ∀ q, rowAt op q = okIf true (c (dRRI q))) (hi : c o = i) : Statement i := by
  have := o.d.isLt
  have := o.a.isLt
  have := b2n_le o.la
  have := o.imm.isLt
  refine word_ok he hop hrow (by simp only [eRRI]; omega) fun _ => okIf_eq rfl ?_
  rw [dRRI_word _ _, hi]

theorem f2_ok {i : Instr} {op : Nat} {c : OpF2 → Instr} (o : OpF2) (he : enc i = .word op (eF2 o)) (hop : op < 256)
    (hrow : ∀ q, rowAt op q = okIf true (c (dF2 q))) (hi : c o = i) : Statement i := by
  have := o.d.isLt
  have := o.a.isLt
  have := o.b.isLt
  have := b2n_le o.la
  have := b2n_le o.lb
  have := prec_code_le o.prec
  have := round_code_le o.r
  refine word_ok he hop hrow (by simp only [eF2]; omega) fun _ => okIf_eq rfl ?_
  rw [dF2_word _ _, hi]

theorem m_ok {i : Instr} {op : Nat} {c : OpM → Instr} (o : OpM) (he : enc i = .word op (eM o)) (hop : op < 256)
    (hrow : ∀ q, rowAt op q = okIf true (c (dM q))) (hi : c o = i) : Statement i := by
  have := o.t.isLt
  have := o.a.isLt
  have := b2n_le o.la
  have := o.off.isLt
  refine word_ok he hop hrow (by simp only [eM]; omega) fun _ => okIf_eq rfl ?_
  rw [dM_word _ _, hi]

theorem lw_ok {i : Instr} {op : Nat} {c : OpLW → Instr} (o : OpLW) (he : enc i = .word op (eLW o)) (hop : op < 256)
    (hrow : ∀ q, rowAt op q = okIf true (c (dLW q))) (hi : c o = i) : Statement i := by
  have := o.d.isLt
  have := o.a.isLt
  have := o.lim.isLt
  refine word_ok he hop hrow (by simp only [eLW]; omega) fun _ => okIf_eq rfl ?_
  rw [dLW_word _ _, hi]

theorem opA_ok {i : Instr} {op : Nat} {c : OpA → Instr} (o : OpA) (he : enc i = .half (e16 op o.d o.a.toNat)) (hop : op < 31)
    (hrow : ∀ q, fldN q 10 5 = op → decode16 q = okIf true (c (dA q))) (hi : c o = i) : Statement i := by
  have := o.d.isLt
  have := o.a.isLt
  refine half_ok he (by simp only [e16]; omega) ((hrow _ (fldN_eq (by simp only [e16]; omega))).trans (okIf_eq rfl ?_))
  rw [dA, fld_eq (x := o.d) (by simp only [e16]; omega), fld_eq (x := o.a) (by simp only [e16]; omega), hi]

theorem ri5_ok {i : Instr} {op : Nat} {c : SReg → BitVec 5 → Instr} (d : SReg) (n : BitVec 5)
    (he : enc i = .half (e16 op d n.toNat)) (hop : op < 31) (hrow : ∀ q, fldN q 10 5 = op → decode16 q = okIf true (c (fld q 5 5) (fld q 0 5)))
    (hi : c d n = i) : Statement i := by
  have := d.isLt
  have := n.isLt
  refine half_ok he (by simp only [e16]; omega) ((hrow _ (fldN_eq (by simp only [e16]; omega))).trans (okIf_eq rfl ?_))
  rw [fld_eq (x := d) (by simp only [e16]; omega), fld_eq (x := n) (by simp only [e16]; omega), hi]

theorem shift16_ok {i : Instr} {op : Nat} {c : SReg → BitVec 4 → Instr} (d : SReg) (n : BitVec 4)
    (he : enc i = .half (e16 op d n.toNat)) (hop : op < 31) (hrow : ∀ q, fldN q 10 5 = op → decode16 q = shift16 q c)
    (hi : c d n = i) : Statement i := by
  have := d.isLt
  have := n.isLt
  refine half_ok he (by simp only [e16]; omega) ((hrow _ (fldN_eq (by simp only [e16]; omega))).trans (okIf_eq (isZero_eq (by simp only [e16]; omega)) ?_))
  rw [fld_eq (x := d) (by simp only [e16]; omega), fld_eq (x := n) (by simp only [e16]; omega), hi]

/-! ### One lemma per constructor -/

theorem add (o : OpRRR) : Statement (.add o) := intRRR_ok o rfl (by decide) (fun _ => rfl) rfl
theorem sub (o : OpRRR) : Statement (.sub o) := intRRR_ok o rfl (by decide) (fun _ => rfl) rfl
theorem mul (o : OpRRR) : Statement (.mul o) := intRRR_ok o rfl (by decide) (fun _ => rfl) rfl
theorem mulh (o : OpRRR) : Statement (.mulh o) := intRRR_ok o rfl (by decide) (fun _ => rfl) rfl
theorem mulhn (o : OpRRR) : Statement (.mulhn o) := intRRR_ok o rfl (by decide) (fun _ => rfl) rfl
theorem div (o : OpRRR) : Statement (.div o) := intRRR_ok o rfl (by decide) (fun _ => rfl) rfl
theorem divn (o : OpRRR) : Statement (.divn o) := intRRR_ok o rfl (by decide) (fun _ => rfl) rfl
theorem rem (o : OpRRR) : Statement (.rem o) := intRRR_ok o rfl (by decide) (fun _ => rfl) rfl
theorem remn (o : OpRRR) : Statement (.remn o) := intRRR_ok o rfl (by decide) (fun _ => rfl) rfl
theorem and (o : OpRRR) : Statement (.and o) := intRRR_ok o rfl (by decide) (fun _ => rfl) rfl
theorem or (o : OpRRR) : Statement (.or o) := intRRR_ok o rfl (by decide) (fun _ => rfl) rfl
theorem xor (o : OpRRR) : Statement (.xor o) := intRRR_ok o rfl (by decide) (fun _ => rfl) rfl
theorem andn (o : OpRRR) : Statement (.andn o) := intRRR_ok o rfl (by decide) (fun _ => rfl) rfl
theorem shl (o : OpRRR) : Statement (.shl o) := intRRR_ok o rfl (by decide) (fun _ => rfl) rfl
theorem shr (o : OpRRR) : Statement (.shr o) := intRRR_ok o rfl (by decide) (fun _ => rfl) rfl
theorem sar (o : OpRRR) : Statement (.sar o) := intRRR_ok o rfl (by decide) (fun _ => rfl) rfl
theorem rol (o : OpRRR) : Statement (.rol o) := intRRR_ok o rfl (by decide) (fun _ => rfl) rfl
theorem min (o : OpRRR) : Statement (.min o) := intRRR_ok o rfl (by decide) (fun _ => rfl) rfl
theorem max (o : OpRRR) : Statement (.max o) := intRRR_ok o rfl (by decide) (fun _ => rfl) rfl
theorem minn (o : OpRRR) : Statement (.minn o) := intRRR_ok o rfl (by decide) (fun _ => rfl) rfl
theorem maxn (o : OpRRR) : Statement (.maxn o) := intRRR_ok o rfl (by decide) (fun _ => rfl) rfl
theorem clz (o : OpRR) : Statement (.clz o) := intRR_ok o rfl (by decide) (fun _ => rfl) rfl
theorem ctz (o : OpRR) : Statement (.ctz o) := intRR_ok o rfl (by decide) (fun _ => rfl) rfl
theorem popc (o : OpRR) : Statement (.popc o) := intRR_ok o rfl (by decide) (fun _ => rfl) rfl
theorem brev (o : OpRR) : Statement (.brev o) := intRR_ok o rfl (by decide) (fun _ => rfl) rfl
theorem bswap (o : OpRR) : Statement (.bswap o) := intRR_ok o rfl (by decide) (fun _ => rfl) rfl
theorem bfx (o : OpRRR) : Statement (.bfx o) := intRRR_ok o rfl (by decide) (fun _ => rfl) rfl
theorem bfxn (o : OpRRR) : Statement (.bfxn o) := intRRR_ok o rfl (by decide) (fun _ => rfl) rfl
theorem bfi (o : OpRRR) : Statement (.bfi o) := intRRR_ok o rfl (by decide) (fun _ => rfl) rfl
theorem fsh (o : OpRRR) : Statement (.fsh o) := intRRR_ok o rfl (by decide) (fun _ => rfl) rfl
theorem sel (o : OpRRR) (q : QReg) : Statement (.sel o q) := by
  have := o.d.isLt
  have := o.a.isLt
  have := o.b.isLt
  have := b2n_le o.la
  have := b2n_le o.lb
  have := q.isLt
  refine word_ok (F := fun q => okIf true (.sel (dRRR q) (fld q 0 3)))
      rfl (by decide) (fun _ => rfl) (by simp only [eRRR]; omega) fun _ => ?_
  refine okIf_eq rfl ?_
  rw [dRRR_word _ _ _ (by omega), fld_eq (x := q) (by simp only [wordOf, eRRR]; omega)]
theorem mov (o : OpRR) : Statement (.mov o) := intRR_ok o rfl (by decide) (fun _ => rfl) rfl
theorem addi (o : OpRRI) : Statement (.addi o) := rri_ok o rfl (by decide) (fun _ => rfl) rfl
theorem andi (o : OpRRI) : Statement (.andi o) := rri_ok o rfl (by decide) (fun _ => rfl) rfl
theorem ori (o : OpRRI) : Statement (.ori o) := rri_ok o rfl (by decide) (fun _ => rfl) rfl
theorem xori (o : OpRRI) : Statement (.xori o) := rri_ok o rfl (by decide) (fun _ => rfl) rfl
theorem shli (o : OpShift) : Statement (.shli o) := shiftI_ok o rfl (by decide) (fun _ => rfl) rfl
theorem shri (o : OpShift) : Statement (.shri o) := shiftI_ok o rfl (by decide) (fun _ => rfl) rfl
theorem sari (o : OpShift) : Statement (.sari o) := shiftI_ok o rfl (by decide) (fun _ => rfl) rfl
theorem movi (d : SReg) (imm : BitVec 15) : Statement (.movi d imm) := by
  have := d.isLt
  have := imm.isLt
  refine word_ok (F := fun q => okIf true (.movi (fld q 15 5) (fld q 0 15)))
      rfl (by decide) (fun _ => rfl) (by simp only [eRI]; omega) fun _ => ?_
  refine okIf_eq rfl ?_
  rw [fld_eq (x := d) (by simp only [wordOf, eRI]; omega), fld_eq (x := imm) (by simp only [wordOf, eRI]; omega)]
theorem movh (d : SReg) (imm : BitVec 15) : Statement (.movh d imm) := by
  have := d.isLt
  have := imm.isLt
  refine word_ok (F := fun q => okIf true (.movh (fld q 15 5) (fld q 0 15)))
      rfl (by decide) (fun _ => rfl) (by simp only [eRI]; omega) fun _ => ?_
  refine okIf_eq rfl ?_
  rw [fld_eq (x := d) (by simp only [wordOf, eRI]; omega), fld_eq (x := imm) (by simp only [wordOf, eRI]; omega)]
theorem cmp (c : CmpCond) (qd : QReg) (a : SReg) (b : SReg) (la : Bool) (lb : Bool) : Statement
    (.cmp c qd a b la lb) := by
  have := cmpCondOf_le c
  have := qd.isLt
  have := a.isLt
  have := b.isLt
  have := b2n_le la
  have := b2n_le lb
  refine word_ok (F := fun q => 
    match cmpCondOf (fldN q 0 3) with
      | some c => okIf (isZero q 15 2) (.cmp c (fld q 17 3) (fld q 10 5) (fld q 5 5) (bitB q 4) (bitB q 3))
      | none => .error .reserved) rfl (by decide) (fun _ => rfl) (by simp only [eQC]; omega) fun _ => ?_
  rw [fldN_eq (n := c.code) (by simp only [wordOf, eQC]; omega), cmpCondOf_code]
  refine okIf_eq (isZero_eq (by simp only [wordOf, eQC]; omega)) ?_
  rw [fld_eq (x := qd) (by simp only [wordOf, eQC]; omega), fld_eq (x := a) (by simp only [wordOf, eQC]; omega),
      fld_eq (x := b) (by simp only [wordOf, eQC]; omega), bitB_eq (b := la) (by simp only [wordOf, eQC]; omega),
          bitB_eq (b := lb) (by simp only [wordOf, eQC]; omega)]
theorem cmpi (c : CmpiCond) (qd : QReg) (a : SReg) (la : Bool) (imm : BitVec 9) : Statement (.cmpi c qd a la imm) := by
  have := cmpiCondOf_le c
  have := qd.isLt
  have := a.isLt
  have := b2n_le la
  have := imm.isLt
  refine word_ok (F := fun q => okIf true
      (.cmpi (cmpiCondOf (fldN q 15 2)) (fld q 17 3) (fld q 10 5) (bitB q 9) (fld q 0 9)))
          rfl (by decide) (fun _ => rfl) (by omega) fun _ => ?_
  refine okIf_eq rfl ?_
  rw [cmpiCondOf_eq (c := c) (by simp only [fldN, wordOf]; omega), fld_eq (x := qd) (by simp only [wordOf]; omega),
      fld_eq (x := a) (by simp only [wordOf]; omega), bitB_eq (b := la) (by simp only [wordOf]; omega),
          fld_eq (x := imm) (by simp only [wordOf]; omega)]
theorem qop (qd : QReg) (op : QOp) : Statement (.qop qd op) := by
  have := qd.isLt
  cases op with
  | and a b =>
    have := a.isLt
    have := b.isLt
    refine word_ok (F := decQop) rfl (by decide) (fun _ => rfl) (by simp only [eQop, eQC, b2n_false]; omega) fun _ => ?_
    unfold decQop
    rw [fldN_eq (n := 0) (by simp only [wordOf, eQop, eQC, b2n_false]; omega)]
    refine okIf_eq ?_ ?_
    · repeat' apply and_t
      all_goals exact isZero_eq (by simp only [wordOf, eQop, eQC, b2n_false]; omega)
    · rw [fld_eq (x := qd) (by simp only [wordOf, eQop, eQC, b2n_false]; omega),
        fld_eq (x := a) (by simp only [wordOf, eQop, eQC, b2n_false]; omega),
            fld_eq (x := b) (by simp only [wordOf, eQop, eQC, b2n_false]; omega)]
  | or a b =>
    have := a.isLt
    have := b.isLt
    refine word_ok (F := decQop) rfl (by decide) (fun _ => rfl) (by simp only [eQop, eQC, b2n_false]; omega) fun _ => ?_
    unfold decQop
    rw [fldN_eq (n := 1) (by simp only [wordOf, eQop, eQC, b2n_false]; omega)]
    refine okIf_eq ?_ ?_
    · repeat' apply and_t
      all_goals exact isZero_eq (by simp only [wordOf, eQop, eQC, b2n_false]; omega)
    · rw [fld_eq (x := qd) (by simp only [wordOf, eQop, eQC, b2n_false]; omega),
        fld_eq (x := a) (by simp only [wordOf, eQop, eQC, b2n_false]; omega),
            fld_eq (x := b) (by simp only [wordOf, eQop, eQC, b2n_false]; omega)]
  | not a =>
    have := a.isLt
    refine word_ok (F := decQop) rfl (by decide) (fun _ => rfl) (by simp only [eQop, eQC, b2n_false]; omega) fun _ => ?_
    unfold decQop
    rw [fldN_eq (n := 2) (by simp only [wordOf, eQop, eQC, b2n_false]; omega)]
    refine okIf_eq ?_ ?_
    · repeat' apply and_t
      all_goals exact isZero_eq (by simp only [wordOf, eQop, eQC, b2n_false]; omega)
    · rw [fld_eq (x := qd) (by simp only [wordOf, eQop, eQC, b2n_false]; omega),
        fld_eq (x := a) (by simp only [wordOf, eQop, eQC, b2n_false]; omega)]
  | xor a b =>
    have := a.isLt
    have := b.isLt
    refine word_ok (F := decQop) rfl (by decide) (fun _ => rfl) (by simp only [eQop, eQC, b2n_false]; omega) fun _ => ?_
    unfold decQop
    rw [fldN_eq (n := 3) (by simp only [wordOf, eQop, eQC, b2n_false]; omega)]
    refine okIf_eq ?_ ?_
    · repeat' apply and_t
      all_goals exact isZero_eq (by simp only [wordOf, eQop, eQC, b2n_false]; omega)
    · rw [fld_eq (x := qd) (by simp only [wordOf, eQop, eQC, b2n_false]; omega),
        fld_eq (x := a) (by simp only [wordOf, eQop, eQC, b2n_false]; omega),
            fld_eq (x := b) (by simp only [wordOf, eQop, eQC, b2n_false]; omega)]
  | known a =>
    have := a.isLt
    refine word_ok (F := decQop) rfl (by decide) (fun _ => rfl) (by simp only [eQop, eQC, b2n_false]; omega) fun _ => ?_
    unfold decQop
    rw [fldN_eq (n := 4) (by simp only [wordOf, eQop, eQC, b2n_false]; omega)]
    refine okIf_eq ?_ ?_
    · repeat' apply and_t
      all_goals exact isZero_eq (by simp only [wordOf, eQop, eQC, b2n_false]; omega)
    · rw [fld_eq (x := qd) (by simp only [wordOf, eQop, eQC, b2n_false]; omega),
        fld_eq (x := a) (by simp only [wordOf, eQop, eQC, b2n_false]; omega)]
  | mov a =>
    have := a.isLt
    refine word_ok (F := decQop) rfl (by decide) (fun _ => rfl) (by simp only [eQop, eQC, b2n_false]; omega) fun _ => ?_
    unfold decQop
    rw [fldN_eq (n := 5) (by simp only [wordOf, eQop, eQC, b2n_false]; omega)]
    refine okIf_eq ?_ ?_
    · repeat' apply and_t
      all_goals exact isZero_eq (by simp only [wordOf, eQop, eQC, b2n_false]; omega)
    · rw [fld_eq (x := qd) (by simp only [wordOf, eQop, eQC, b2n_false]; omega),
        fld_eq (x := a) (by simp only [wordOf, eQop, eQC, b2n_false]; omega)]
  | sett =>
    refine word_ok (F := decQop) rfl (by decide) (fun _ => rfl) (by simp only [eQop, eQC, b2n_false]; omega) fun _ => ?_
    unfold decQop
    rw [fldN_eq (n := 6) (by simp only [wordOf, eQop, eQC, b2n_false]; omega)]
    refine okIf_eq ?_ ?_
    · repeat' apply and_t
      all_goals exact isZero_eq (by simp only [wordOf, eQop, eQC, b2n_false]; omega)
    · rw [fld_eq (x := qd) (by simp only [wordOf, eQop, eQC, b2n_false]; omega)]
  | setf =>
    refine word_ok (F := decQop) rfl (by decide) (fun _ => rfl) (by simp only [eQop, eQC, b2n_false]; omega) fun _ => ?_
    unfold decQop
    rw [fldN_eq (n := 7) (by simp only [wordOf, eQop, eQC, b2n_false]; omega)]
    refine okIf_eq ?_ ?_
    · repeat' apply and_t
      all_goals exact isZero_eq (by simp only [wordOf, eQop, eQC, b2n_false]; omega)
    · rw [fld_eq (x := qd) (by simp only [wordOf, eQop, eQC, b2n_false]; omega)]
  | setu =>
    refine word_ok (F := decQop) rfl (by decide) (fun _ => rfl) (by simp only [eQop, eQC, b2n_false]; omega) fun _ => ?_
    unfold decQop
    rw [fldN_eq (n := 8) (by simp only [wordOf, eQop, eQC, b2n_false]; omega)]
    refine okIf_eq ?_ ?_
    · repeat' apply and_t
      all_goals exact isZero_eq (by simp only [wordOf, eQop, eQC, b2n_false]; omega)
    · rw [fld_eq (x := qd) (by simp only [wordOf, eQop, eQC, b2n_false]; omega)]
theorem qtos (d : SReg) (q : QReg) : Statement (.qtos d q) := by
  have := d.isLt
  have := q.isLt
  refine word_ok (F := fun q => okIf (isZero q 13 2 && isZero q 0 10) (.qtos (fld q 15 5) (fld q 10 3)))
      rfl (by decide) (fun _ => rfl) (by omega) fun _ => ?_
  refine okIf_eq (and_t (isZero_eq (by simp only [wordOf]; omega)) (isZero_eq (by simp only [wordOf]; omega))) ?_
  rw [fld_eq (x := d) (by simp only [wordOf]; omega), fld_eq (x := q) (by simp only [wordOf]; omega)]
theorem stoq (qd : QReg) (a : SReg) (la : Bool) : Statement (.stoq qd a la) := by
  have := qd.isLt
  have := a.isLt
  have := b2n_le la
  refine word_ok (F := fun q => okIf (isZero q 15 2 && isZero q 5 5 && isZero q 0 4)
      (.stoq (fld q 17 3) (fld q 10 5) (bitB q 4)))
          rfl (by decide) (fun _ => rfl) (by simp only [eQC, b2n_false]; omega) fun _ => ?_
  refine okIf_eq (and_t (and_t (isZero_eq (by simp only [wordOf, eQC, b2n_false]; omega))
      (isZero_eq (by simp only [wordOf, eQC, b2n_false]; omega)))
          (isZero_eq (by simp only [wordOf, eQC, b2n_false]; omega))) ?_
  rw [fld_eq (x := qd) (by simp only [wordOf, eQC, b2n_false]; omega),
      fld_eq (x := a) (by simp only [wordOf, eQC, b2n_false]; omega),
          bitB_eq (b := la) (by simp only [wordOf, eQC, b2n_false]; omega)]
theorem fadd (o : OpF2) : Statement (.fadd o) := f2_ok o rfl (by decide) (fun _ => rfl) rfl
theorem fsub (o : OpF2) : Statement (.fsub o) := f2_ok o rfl (by decide) (fun _ => rfl) rfl
theorem fmul (o : OpF2) : Statement (.fmul o) := f2_ok o rfl (by decide) (fun _ => rfl) rfl
theorem ffma (o : OpF2) : Statement (.ffma o) := f2_ok o rfl (by decide) (fun _ => rfl) rfl
theorem fdiv (o : OpF2) : Statement (.fdiv o) := f2_ok o rfl (by decide) (fun _ => rfl) rfl
theorem fsqrt (o : OpRR) (prec : Prec) (r : FRound) : Statement (.fsqrt o prec r) := by
  have := o.d.isLt
  have := o.a.isLt
  have := b2n_le o.la
  have := prec_code_le prec
  have := round_code_le r
  refine word_ok (F := fun q => okIf (isZero q 5 5 && isZero q 3 1)
      (.fsqrt (dRR q) (precOf (bitB q 0)) (roundOf (fldN q 1 2))))
          rfl (by decide) (fun _ => rfl) (by simp only [eRR]; omega) fun _ => ?_
  refine okIf_eq (and_t (isZero_eq (by simp only [wordOf, eRR]; omega))
      (isZero_eq (by simp only [wordOf, eRR]; omega))) ?_
  rw [dRR_word _ _ _ _ (by omega) (by omega), bitB_prec (x := prec) (by simp only [wordOf, eRR]; omega),
      round_eq (r := r) (by simp only [wordOf, eRR]; omega)]
theorem fmin (o : OpRRR) (prec : Prec) : Statement (.fmin o prec) := by
  have := o.d.isLt
  have := o.a.isLt
  have := o.b.isLt
  have := b2n_le o.la
  have := b2n_le o.lb
  have := prec_code_le prec
  refine word_ok (F := fun q => okIf (isZero q 1 2) (.fmin (dRRR q) (precOf (bitB q 0))))
      rfl (by decide) (fun _ => rfl) (by simp only [eRRR]; omega) fun _ => ?_
  refine okIf_eq (isZero_eq (by simp only [wordOf, eRRR]; omega)) ?_
  rw [dRRR_word _ _ _ (by omega), bitB_prec (x := prec) (by simp only [wordOf, eRRR]; omega)]
theorem fmax (o : OpRRR) (prec : Prec) : Statement (.fmax o prec) := by
  have := o.d.isLt
  have := o.a.isLt
  have := o.b.isLt
  have := b2n_le o.la
  have := b2n_le o.lb
  have := prec_code_le prec
  refine word_ok (F := fun q => okIf (isZero q 1 2) (.fmax (dRRR q) (precOf (bitB q 0))))
      rfl (by decide) (fun _ => rfl) (by simp only [eRRR]; omega) fun _ => ?_
  refine okIf_eq (isZero_eq (by simp only [wordOf, eRRR]; omega)) ?_
  rw [dRRR_word _ _ _ (by omega), bitB_prec (x := prec) (by simp only [wordOf, eRRR]; omega)]
theorem fsgn (o : OpRRR) (prec : Prec) (m : SgnMode) : Statement (.fsgn o prec m) := by
  have := o.d.isLt
  have := o.a.isLt
  have := o.b.isLt
  have := b2n_le o.la
  have := b2n_le o.lb
  have := prec_code_le prec
  have := sgnOf_le m
  refine word_ok (F := fun q => 
    match sgnOf (fldN q 1 2) with
      | some m => okIf true (.fsgn (dRRR q) (precOf (bitB q 0)) m)
      | none => .error .reserved) rfl (by decide) (fun _ => rfl) (by simp only [eRRR]; omega) fun _ => ?_
  rw [fldN_eq (n := m.code) (by simp only [wordOf, eRRR]; omega), sgnOf_code]
  refine okIf_eq rfl ?_
  rw [dRRR_word _ _ _ (by omega), bitB_prec (x := prec) (by simp only [wordOf, eRRR]; omega)]
theorem fcmp (c : FCond) (prec : Prec) (qd : QReg) (a : SReg) (b : SReg) (la : Bool) (lb : Bool) : Statement
    (.fcmp c prec qd a b la lb) := by
  have := fcondOf_le c
  have := prec_code_le prec
  have := qd.isLt
  have := a.isLt
  have := b.isLt
  have := b2n_le la
  have := b2n_le lb
  refine word_ok (F := fun q => okIf (isZero q 15 2)
      (.fcmp (fcondOf (fldN q 1 2)) (precOf (bitB q 0)) (fld q 17 3) (fld q 10 5) (fld q 5 5) (bitB q 4) (bitB q 3))) rfl (by decide) (fun _ => rfl) (by simp only [eQC]; omega) fun _ => ?_
  refine okIf_eq (isZero_eq (by simp only [wordOf, eQC]; omega)) ?_
  rw [fcondOf_eq (c := c) (by simp only [fldN, wordOf, eQC]; omega),
      bitB_prec (x := prec) (by simp only [wordOf, eQC]; omega),
          fld_eq (x := qd) (by simp only [wordOf, eQC]; omega), fld_eq (x := a) (by simp only [wordOf, eQC]; omega),
              fld_eq (x := b) (by simp only [wordOf, eQC]; omega),
                  bitB_eq (b := la) (by simp only [wordOf, eQC]; omega),
                      bitB_eq (b := lb) (by simp only [wordOf, eQC]; omega)]
theorem cvt (f : CvtForm) : Statement (.cvt f) := by
  cases f with
  | conv c r d a la =>
    have := d.isLt
    have := a.isLt
    have := b2n_le la
    have := round_code_le r
    have := cvtCodeOf_le c
    refine word_ok rfl (by decide) (fun _ => rfl) (by simp only [eCvt]; omega)
        fun _ => (decCvt_conv c (fldN_eq (by simp only [wordOf, eCvt]; omega))).trans ?_
    refine okIf_eq ?_ ?_
    · repeat' apply and_t
      all_goals exact isZero_eq (by simp only [wordOf, eCvt]; omega)
    · rw [round_eq (r := r) (by simp only [wordOf, eCvt]; omega),
        fld_eq (x := d) (by simp only [wordOf, eCvt]; omega), fld_eq (x := a) (by simp only [wordOf, eCvt]; omega),
            bitB_eq (b := la) (by simp only [wordOf, eCvt]; omega)]
  | toP d a la =>
    have := d.isLt
    have := a.isLt
    have := b2n_le la
    refine word_ok (F := decCvt) rfl (by decide) (fun _ => rfl) (by simp only [eCvt]; omega) fun _ => ?_
    unfold decCvt
    rw [fldN_eq (n := 26) (by simp only [wordOf, eCvt]; omega)]
    refine okIf_eq ?_ ?_
    · repeat' apply and_t
      all_goals exact isZero_eq (by simp only [wordOf, eCvt]; omega)
    · rw [fld_eq (x := d) (by simp only [wordOf, eCvt]; omega), fld_eq (x := a) (by simp only [wordOf, eCvt]; omega),
        bitB_eq (b := la) (by simp only [wordOf, eCvt]; omega)]
  | ofP d a =>
    have := d.isLt
    have := a.isLt
    refine word_ok (F := decCvt) rfl (by decide) (fun _ => rfl) (by simp only [eCvt]; omega) fun _ => ?_
    unfold decCvt
    rw [fldN_eq (n := 27) (by simp only [wordOf, eCvt]; omega)]
    refine okIf_eq ?_ ?_
    · repeat' apply and_t
      all_goals exact isZero_eq (by simp only [wordOf, eCvt]; omega)
    · rw [fld_eq (x := d) (by simp only [wordOf, eCvt]; omega), fld_eq (x := a) (by simp only [wordOf, eCvt]; omega)]
  | toK hi d a la =>
    have := d.isLt
    have := a.isLt
    have := b2n_le la
    cases hi
    · refine word_ok (F := decCvt) rfl (by decide) (fun _ => rfl) (by simp only [eCvt, b2n_false]; omega) fun _ => ?_
      unfold decCvt
      rw [fldN_eq (n := 28) (by simp only [wordOf, eCvt, b2n_false]; omega)]
      refine okIf_eq ?_ ?_
      · repeat' apply and_t
        all_goals exact isZero_eq (by simp only [wordOf, eCvt, b2n_false]; omega)
      · rw [fld_eq (x := d) (by simp only [wordOf, eCvt, b2n_false]; omega),
          fld_eq (x := a) (by simp only [wordOf, eCvt, b2n_false]; omega),
              bitB_eq (b := la) (by simp only [wordOf, eCvt, b2n_false]; omega)]
    · refine word_ok (F := decCvt) rfl (by decide) (fun _ => rfl) (by simp only [eCvt, b2n_true]; omega) fun _ => ?_
      unfold decCvt
      rw [fldN_eq (n := 29) (by simp only [wordOf, eCvt, b2n_true]; omega)]
      refine okIf_eq ?_ ?_
      · repeat' apply and_t
        all_goals exact isZero_eq (by simp only [wordOf, eCvt, b2n_true]; omega)
      · rw [fld_eq (x := d) (by simp only [wordOf, eCvt, b2n_true]; omega),
          fld_eq (x := a) (by simp only [wordOf, eCvt, b2n_true]; omega),
              bitB_eq (b := la) (by simp only [wordOf, eCvt, b2n_true]; omega)]
  | ofK hi d a =>
    have := d.isLt
    have := a.isLt
    cases hi
    · refine word_ok (F := decCvt) rfl (by decide) (fun _ => rfl) (by simp only [eCvt, b2n_false]; omega) fun _ => ?_
      unfold decCvt
      rw [fldN_eq (n := 30) (by simp only [wordOf, eCvt, b2n_false]; omega)]
      refine okIf_eq ?_ ?_
      · repeat' apply and_t
        all_goals exact isZero_eq (by simp only [wordOf, eCvt, b2n_false]; omega)
      · rw [fld_eq (x := d) (by simp only [wordOf, eCvt, b2n_false]; omega),
          fld_eq (x := a) (by simp only [wordOf, eCvt, b2n_false]; omega)]
    · refine word_ok (F := decCvt) rfl (by decide) (fun _ => rfl) (by simp only [eCvt, b2n_true]; omega) fun _ => ?_
      unfold decCvt
      rw [fldN_eq (n := 31) (by simp only [wordOf, eCvt, b2n_true]; omega)]
      refine okIf_eq ?_ ?_
      · repeat' apply and_t
        all_goals exact isZero_eq (by simp only [wordOf, eCvt, b2n_true]; omega)
      · rw [fld_eq (x := d) (by simp only [wordOf, eCvt, b2n_true]; omega),
          fld_eq (x := a) (by simp only [wordOf, eCvt, b2n_true]; omega)]
theorem fclass (o : OpRR) (prec : Prec) : Statement (.fclass o prec) := by
  have := o.d.isLt
  have := o.a.isLt
  have := b2n_le o.la
  have := prec_code_le prec
  refine word_ok (F := fun q => okIf (isZero q 5 5 && isZero q 3 1 && isZero q 1 2)
      (.fclass (dRR q) (precOf (bitB q 0)))) rfl (by decide) (fun _ => rfl) (by simp only [eRR]; omega) fun _ => ?_
  refine okIf_eq (and_t (and_t (isZero_eq (by simp only [wordOf, eRR]; omega))
      (isZero_eq (by simp only [wordOf, eRR]; omega))) (isZero_eq (by simp only [wordOf, eRR]; omega))) ?_
  rw [dRR_word _ _ _ _ (by omega) (by omega), bitB_prec (x := prec) (by simp only [wordOf, eRR]; omega)]
theorem imake (d : IvReg) (a : SReg) (b : SReg) (la : Bool) (lb : Bool) : Statement (.imake d a b la lb) := by
  have := d.isLt
  have := a.isLt
  have := b.isLt
  have := b2n_le la
  have := b2n_le lb
  refine word_ok (F := fun q => okIf (isZero q 19 1 && isZero q 0 3)
      (.imake (fld q 15 4) (fld q 10 5) (fld q 5 5) (bitB q 4) (bitB q 3)))
          rfl (by decide) (fun _ => rfl) (by omega) fun _ => ?_
  refine okIf_eq (and_t (isZero_eq (by simp only [wordOf]; omega)) (isZero_eq (by simp only [wordOf]; omega))) ?_
  rw [fld_eq (x := d) (by simp only [wordOf]; omega), fld_eq (x := a) (by simp only [wordOf]; omega),
      fld_eq (x := b) (by simp only [wordOf]; omega), bitB_eq (b := la) (by simp only [wordOf]; omega),
          bitB_eq (b := lb) (by simp only [wordOf]; omega)]
theorem ilo (o : OpSIv) : Statement (.ilo o) := sIv_ok o rfl (by decide) (fun _ => rfl) rfl
theorem ihi (o : OpSIv) : Statement (.ihi o) := sIv_ok o rfl (by decide) (fun _ => rfl) rfl
theorem iadd (o : OpIV2) : Statement (.iadd o) := iv2_ok o rfl (by decide) (fun _ => rfl) rfl
theorem isub (o : OpIV2) : Statement (.isub o) := iv2_ok o rfl (by decide) (fun _ => rfl) rfl
theorem imul (o : OpIV2) : Statement (.imul o) := iv2_ok o rfl (by decide) (fun _ => rfl) rfl
theorem idiv (o : OpIV2) : Statement (.idiv o) := iv2_ok o rfl (by decide) (fun _ => rfl) rfl
theorem isqr (o : OpIV1) : Statement (.isqr o) := iv1_ok o rfl (by decide) (fun _ => rfl) rfl
theorem isqrt (o : OpIV1) : Statement (.isqrt o) := iv1_ok o rfl (by decide) (fun _ => rfl) rfl
theorem iexp (o : OpIV1) : Statement (.iexp o) := iv1_ok o rfl (by decide) (fun _ => rfl) rfl
theorem ilog (o : OpIV1) : Statement (.ilog o) := iv1_ok o rfl (by decide) (fun _ => rfl) rfl
theorem irelu (o : OpIV1) : Statement (.irelu o) := iv1_ok o rfl (by decide) (fun _ => rfl) rfl
theorem imin (o : OpIV2) : Statement (.imin o) := iv2_ok o rfl (by decide) (fun _ => rfl) rfl
theorem imax (o : OpIV2) : Statement (.imax o) := iv2_ok o rfl (by decide) (fun _ => rfl) rfl
theorem ihull (o : OpIV2) : Statement (.ihull o) := iv2_ok o rfl (by decide) (fun _ => rfl) rfl
theorem imeet (o : OpIV2) : Statement (.imeet o) := iv2_ok o rfl (by decide) (fun _ => rfl) rfl
theorem iwid (o : OpSIv) : Statement (.iwid o) := sIv_ok o rfl (by decide) (fun _ => rfl) rfl
theorem imid (o : OpSIv) : Statement (.imid o) := sIv_ok o rfl (by decide) (fun _ => rfl) rfl
theorem icmp (c : ICond) (qd : QReg) (a : IvReg) (la : Bool) : Statement (.icmp c qd a la) := by
  have := qd.isLt
  have := a.isLt
  have := b2n_le la
  cases c with
  | lt b lb =>
    have := b.isLt
    have := b2n_le lb
    refine word_ok (F := decIcmp) rfl (by decide) (fun _ => rfl) (by simp only [eIcmp, eQC]; omega) fun _ => ?_
    unfold decIcmp
    rw [fldN_eq (n := 0) (by simp only [wordOf, eIcmp, eQC]; omega)]
    refine okIf_eq ?_ ?_
    · repeat' apply and_t
      all_goals exact isZero_eq (by simp only [wordOf, eIcmp, eQC]; omega)
    · rw [fld_eq (x := qd) (by simp only [wordOf, eIcmp, eQC]; omega),
        fld_eq (x := a) (by simp only [wordOf, eIcmp, eQC]; omega),
            fld_eq (x := b) (by simp only [wordOf, eIcmp, eQC]; omega),
                bitB_eq (b := la) (by simp only [wordOf, eIcmp, eQC]; omega),
                    bitB_eq (b := lb) (by simp only [wordOf, eIcmp, eQC]; omega)]
  | le b lb =>
    have := b.isLt
    have := b2n_le lb
    refine word_ok (F := decIcmp) rfl (by decide) (fun _ => rfl) (by simp only [eIcmp, eQC]; omega) fun _ => ?_
    unfold decIcmp
    rw [fldN_eq (n := 1) (by simp only [wordOf, eIcmp, eQC]; omega)]
    refine okIf_eq ?_ ?_
    · repeat' apply and_t
      all_goals exact isZero_eq (by simp only [wordOf, eIcmp, eQC]; omega)
    · rw [fld_eq (x := qd) (by simp only [wordOf, eIcmp, eQC]; omega),
        fld_eq (x := a) (by simp only [wordOf, eIcmp, eQC]; omega),
            fld_eq (x := b) (by simp only [wordOf, eIcmp, eQC]; omega),
                bitB_eq (b := la) (by simp only [wordOf, eIcmp, eQC]; omega),
                    bitB_eq (b := lb) (by simp only [wordOf, eIcmp, eQC]; omega)]
  | eq b lb =>
    have := b.isLt
    have := b2n_le lb
    refine word_ok (F := decIcmp) rfl (by decide) (fun _ => rfl) (by simp only [eIcmp, eQC]; omega) fun _ => ?_
    unfold decIcmp
    rw [fldN_eq (n := 2) (by simp only [wordOf, eIcmp, eQC]; omega)]
    refine okIf_eq ?_ ?_
    · repeat' apply and_t
      all_goals exact isZero_eq (by simp only [wordOf, eIcmp, eQC]; omega)
    · rw [fld_eq (x := qd) (by simp only [wordOf, eIcmp, eQC]; omega),
        fld_eq (x := a) (by simp only [wordOf, eIcmp, eQC]; omega),
            fld_eq (x := b) (by simp only [wordOf, eIcmp, eQC]; omega),
                bitB_eq (b := la) (by simp only [wordOf, eIcmp, eQC]; omega),
                    bitB_eq (b := lb) (by simp only [wordOf, eIcmp, eQC]; omega)]
  | sub b lb =>
    have := b.isLt
    have := b2n_le lb
    refine word_ok (F := decIcmp) rfl (by decide) (fun _ => rfl) (by simp only [eIcmp, eQC]; omega) fun _ => ?_
    unfold decIcmp
    rw [fldN_eq (n := 3) (by simp only [wordOf, eIcmp, eQC]; omega)]
    refine okIf_eq ?_ ?_
    · repeat' apply and_t
      all_goals exact isZero_eq (by simp only [wordOf, eIcmp, eQC]; omega)
    · rw [fld_eq (x := qd) (by simp only [wordOf, eIcmp, eQC]; omega),
        fld_eq (x := a) (by simp only [wordOf, eIcmp, eQC]; omega),
            fld_eq (x := b) (by simp only [wordOf, eIcmp, eQC]; omega),
                bitB_eq (b := la) (by simp only [wordOf, eIcmp, eQC]; omega),
                    bitB_eq (b := lb) (by simp only [wordOf, eIcmp, eQC]; omega)]
  | dis b lb =>
    have := b.isLt
    have := b2n_le lb
    refine word_ok (F := decIcmp) rfl (by decide) (fun _ => rfl) (by simp only [eIcmp, eQC]; omega) fun _ => ?_
    unfold decIcmp
    rw [fldN_eq (n := 4) (by simp only [wordOf, eIcmp, eQC]; omega)]
    refine okIf_eq ?_ ?_
    · repeat' apply and_t
      all_goals exact isZero_eq (by simp only [wordOf, eIcmp, eQC]; omega)
    · rw [fld_eq (x := qd) (by simp only [wordOf, eIcmp, eQC]; omega),
        fld_eq (x := a) (by simp only [wordOf, eIcmp, eQC]; omega),
            fld_eq (x := b) (by simp only [wordOf, eIcmp, eQC]; omega),
                bitB_eq (b := la) (by simp only [wordOf, eIcmp, eQC]; omega),
                    bitB_eq (b := lb) (by simp only [wordOf, eIcmp, eQC]; omega)]
  | emp =>
    refine word_ok (F := decIcmp) rfl (by decide) (fun _ => rfl) (by simp only [eIcmp, eQC, b2n_false]; omega)
        fun _ => ?_
    unfold decIcmp
    rw [fldN_eq (n := 5) (by simp only [wordOf, eIcmp, eQC, b2n_false]; omega)]
    refine okIf_eq ?_ ?_
    · repeat' apply and_t
      all_goals exact isZero_eq (by simp only [wordOf, eIcmp, eQC, b2n_false]; omega)
    · rw [fld_eq (x := qd) (by simp only [wordOf, eIcmp, eQC, b2n_false]; omega),
        fld_eq (x := a) (by simp only [wordOf, eIcmp, eQC, b2n_false]; omega),
            bitB_eq (b := la) (by simp only [wordOf, eIcmp, eQC, b2n_false]; omega)]
theorem imov (o : OpIV1) : Statement (.imov o) := iv1_ok o rfl (by decide) (fun _ => rfl) rfl
theorem iscale (d : IvReg) (a : IvReg) (b : SReg) (la : Bool) (lb : Bool) : Statement (.iscale d a b la lb) := by
  have := d.isLt
  have := a.isLt
  have := b.isLt
  have := b2n_le la
  have := b2n_le lb
  refine word_ok (F := fun q => okIf (isZero q 19 1 && isZero q 14 1 && isZero q 0 3)
      (.iscale (fld q 15 4) (fld q 10 4) (fld q 5 5) (bitB q 4) (bitB q 3)))
          rfl (by decide) (fun _ => rfl) (by omega) fun _ => ?_
  refine okIf_eq (and_t (and_t (isZero_eq (by simp only [wordOf]; omega))
      (isZero_eq (by simp only [wordOf]; omega))) (isZero_eq (by simp only [wordOf]; omega))) ?_
  rw [fld_eq (x := d) (by simp only [wordOf]; omega), fld_eq (x := a) (by simp only [wordOf]; omega),
      fld_eq (x := b) (by simp only [wordOf]; omega), bitB_eq (b := la) (by simp only [wordOf]; omega),
          bitB_eq (b := lb) (by simp only [wordOf]; omega)]
theorem npq (qd : QReg) : Statement (.npq qd) := by
  have := qd.isLt
  refine word_ok (F := fun q => okIf (isZero q 0 17) (.npq (fld q 17 3)))
      rfl (by decide) (fun _ => rfl) (by omega) fun _ => ?_
  refine okIf_eq (isZero_eq (by simp only [wordOf]; omega)) ?_
  rw [fld_eq (x := qd) (by simp only [wordOf]; omega)]
theorem cadd (o : OpIC3) : Statement (.cadd o) := ic3_ok o rfl (by decide) (fun _ => rfl) rfl
theorem csub (o : OpIC3) : Statement (.csub o) := ic3_ok o rfl (by decide) (fun _ => rfl) rfl
theorem cmul (o : OpIC3) : Statement (.cmul o) := ic3_ok o rfl (by decide) (fun _ => rfl) rfl
theorem cdiv (o : OpIC3) : Statement (.cdiv o) := ic3_ok o rfl (by decide) (fun _ => rfl) rfl
theorem csqr (o : OpIC2) : Statement (.csqr o) := ic2_ok o rfl (by decide) (fun _ => rfl) rfl
theorem cexp (o : OpIC2) : Statement (.cexp o) := ic2_ok o rfl (by decide) (fun _ => rfl) rfl
theorem crelu (o : OpIC2) : Statement (.crelu o) := ic2_ok o rfl (by decide) (fun _ => rfl) rfl
theorem cmax (o : OpIC3) : Statement (.cmax o) := ic3_ok o rfl (by decide) (fun _ => rfl) rfl
theorem br (off : BitVec 20) : Statement (.br off) := by
  have := off.isLt
  refine word_ok (F := fun q => okIf true (.br (fld q 0 20))) rfl (by decide) (fun _ => rfl) (by omega) fun _ => ?_
  refine okIf_eq rfl ?_
  rw [fld_eq (x := off) (by simp only [wordOf]; omega)]
theorem call (off : BitVec 20) : Statement (.call off) := by
  have := off.isLt
  refine word_ok (F := fun q => okIf true (.call (fld q 0 20))) rfl (by decide) (fun _ => rfl) (by omega) fun _ => ?_
  refine okIf_eq rfl ?_
  rw [fld_eq (x := off) (by simp only [wordOf]; omega)]
theorem jr (a : SReg) (la : Bool) (imm : BitVec 9) : Statement (.jr a la imm) := by
  have := a.isLt
  have := b2n_le la
  have := imm.isLt
  refine word_ok (F := fun q => okIf (isZero q 15 5) (.jr (fld q 10 5) (bitB q 9) (fld q 0 9)))
      rfl (by decide) (fun _ => rfl) (by omega) fun _ => ?_
  refine okIf_eq (isZero_eq (by simp only [wordOf]; omega)) ?_
  rw [fld_eq (x := a) (by simp only [wordOf]; omega), bitB_eq (b := la) (by simp only [wordOf]; omega),
      fld_eq (x := imm) (by simp only [wordOf]; omega)]
theorem callr (a : SReg) (la : Bool) (imm : BitVec 9) : Statement (.callr a la imm) := by
  have := a.isLt
  have := b2n_le la
  have := imm.isLt
  refine word_ok (F := fun q => okIf (isZero q 15 5) (.callr (fld q 10 5) (bitB q 9) (fld q 0 9)))
      rfl (by decide) (fun _ => rfl) (by omega) fun _ => ?_
  refine okIf_eq (isZero_eq (by simp only [wordOf]; omega)) ?_
  rw [fld_eq (x := a) (by simp only [wordOf]; omega), bitB_eq (b := la) (by simp only [wordOf]; omega),
      fld_eq (x := imm) (by simp only [wordOf]; omega)]
theorem bq (c : BqCond) (q : QReg) (off : BitVec 15) : Statement (.bq c q off) := by
  have := bqOf_le c
  have := q.isLt
  have := off.isLt
  refine word_ok (F := fun q => okIf true (.bq (bqOf (fldN q 15 2)) (fld q 17 3) (fld q 0 15)))
      rfl (by decide) (fun _ => rfl) (by omega) fun _ => ?_
  refine okIf_eq rfl ?_
  rw [bqOf_eq (c := c) (by simp only [fldN, wordOf]; omega), fld_eq (x := q) (by simp only [wordOf]; omega),
      fld_eq (x := off) (by simp only [wordOf]; omega)]
theorem loop (d : SReg) (off : BitVec 15) : Statement (.loop d off) := by
  have := d.isLt
  have := off.isLt
  refine word_ok (F := fun q => okIf true (.loop (fld q 15 5) (fld q 0 15)))
      rfl (by decide) (fun _ => rfl) (by simp only [eRI]; omega) fun _ => ?_
  refine okIf_eq rfl ?_
  rw [fld_eq (x := d) (by simp only [wordOf, eRI]; omega), fld_eq (x := off) (by simp only [wordOf, eRI]; omega)]
theorem trap (imm : BitVec 15) : Statement (.trap imm) := by
  have := imm.isLt
  refine word_ok (F := fun q => okIf (isZero q 15 5) (.trap (fld q 0 15)))
      rfl (by decide) (fun _ => rfl) (by omega) fun _ => ?_
  refine okIf_eq (isZero_eq (by simp only [wordOf]; omega)) ?_
  rw [fld_eq (x := imm) (by simp only [wordOf]; omega)]
theorem setvl (d : SReg) (a : SReg) (la : Bool) (imm : BitVec 9) : Statement (.setvl d a la imm) := by
  have := d.isLt
  have := a.isLt
  have := b2n_le la
  have := imm.isLt
  refine word_ok (F := fun q => okIf true (.setvl (fld q 15 5) (fld q 10 5) (bitB q 9) (fld q 0 9)))
      rfl (by decide) (fun _ => rfl) (by omega) fun _ => ?_
  refine okIf_eq rfl ?_
  rw [fld_eq (x := d) (by simp only [wordOf]; omega), fld_eq (x := a) (by simp only [wordOf]; omega),
      bitB_eq (b := la) (by simp only [wordOf]; omega), fld_eq (x := imm) (by simp only [wordOf]; omega)]
theorem rdid (d : SReg) (idx : BitVec 15) : Statement (.rdid d idx) := by
  have := d.isLt
  have := idx.isLt
  refine word_ok (F := fun q => okIf true (.rdid (fld q 15 5) (fld q 0 15)))
      rfl (by decide) (fun _ => rfl) (by simp only [eRI]; omega) fun _ => ?_
  refine okIf_eq rfl ?_
  rw [fld_eq (x := d) (by simp only [wordOf, eRI]; omega), fld_eq (x := idx) (by simp only [wordOf, eRI]; omega)]
theorem rdctl (d : SReg) (idx : BitVec 15) : Statement (.rdctl d idx) := by
  have := d.isLt
  have := idx.isLt
  refine word_ok (F := fun q => okIf true (.rdctl (fld q 15 5) (fld q 0 15)))
      rfl (by decide) (fun _ => rfl) (by simp only [eRI]; omega) fun _ => ?_
  refine okIf_eq rfl ?_
  rw [fld_eq (x := d) (by simp only [wordOf, eRI]; omega), fld_eq (x := idx) (by simp only [wordOf, eRI]; omega)]
theorem wrctl (d : SReg) (idx : BitVec 15) : Statement (.wrctl d idx) := by
  have := d.isLt
  have := idx.isLt
  refine word_ok (F := fun q => okIf true (.wrctl (fld q 15 5) (fld q 0 15)))
      rfl (by decide) (fun _ => rfl) (by simp only [eRI]; omega) fun _ => ?_
  refine okIf_eq rfl ?_
  rw [fld_eq (x := d) (by simp only [wordOf, eRI]; omega), fld_eq (x := idx) (by simp only [wordOf, eRI]; omega)]
theorem ldsB (o : OpM) : Statement (.ldsB o) := m_ok o rfl (by decide) (fun _ => rfl) rfl
theorem ldsH (o : OpM) : Statement (.ldsH o) := m_ok o rfl (by decide) (fun _ => rfl) rfl
theorem ldsW (o : OpM) : Statement (.ldsW o) := m_ok o rfl (by decide) (fun _ => rfl) rfl
theorem ldsD (o : OpM) : Statement (.ldsD o) := m_ok o rfl (by decide) (fun _ => rfl) rfl
theorem stsB (o : OpM) : Statement (.stsB o) := m_ok o rfl (by decide) (fun _ => rfl) rfl
theorem stsH (o : OpM) : Statement (.stsH o) := m_ok o rfl (by decide) (fun _ => rfl) rfl
theorem stsW (o : OpM) : Statement (.stsW o) := m_ok o rfl (by decide) (fun _ => rfl) rfl
theorem stsD (o : OpM) : Statement (.stsD o) := m_ok o rfl (by decide) (fun _ => rfl) rfl
theorem tlds (o : OpLW) : Statement (.tlds o) := lw_ok o rfl (by decide) (fun _ => rfl) rfl
theorem tsts (o : OpLW) : Statement (.tsts o) := lw_ok o rfl (by decide) (fun _ => rfl) rfl
theorem tstr (a : SReg) : Statement (.tstr a) := by
  have := a.isLt
  refine word_ok (F := fun q => okIf (isZero q 15 5 && isZero q 0 10) (.tstr (fld q 10 5)))
      rfl (by decide) (fun _ => rfl) (by omega) fun _ => ?_
  refine okIf_eq (and_t (isZero_eq (by simp only [wordOf]; omega)) (isZero_eq (by simp only [wordOf]; omega))) ?_
  rw [fld_eq (x := a) (by simp only [wordOf]; omega)]
theorem rfill (d : FillReg) (a : SReg) (la : Bool) (b : FillReg) (lb : Bool) : Statement (.rfill d a la b lb) := by
  have := a.isLt
  have := b2n_le la
  have := b2n_le lb
  cases d with
  | s d =>
    have := d.isLt
    cases b with
    | iv b => exact fun h => by simp [Instr.wf, FillReg.sameClass] at h
    | s b =>
      have := b.isLt
      refine word_ok (F := decRfill)
          rfl (by decide) (fun _ => rfl) (by simp only [FillReg.num, FillReg.isIv, b2n_false]; omega) fun _ => ?_
      unfold decRfill
      rw [bitB_eq (n := 0) (b := false) (by simp only [wordOf, FillReg.num, FillReg.isIv, b2n_false]; omega)]
      refine okIf_eq (and_t (isZero_eq (by simp only [wordOf, FillReg.num, FillReg.isIv, b2n_false]; omega)) rfl) ?_
      simp only [dFill, if_false, Bool.false_eq_true]
      rw [fld_eq (x := d) (by simp only [wordOf, FillReg.num, FillReg.isIv, b2n_false]; omega),
          fld_eq (x := a) (by simp only [wordOf, FillReg.num, FillReg.isIv, b2n_false]; omega),
              fld_eq (x := b) (by simp only [wordOf, FillReg.num, FillReg.isIv, b2n_false]; omega),
        bitB_eq (b := la) (by simp only [wordOf, FillReg.num, FillReg.isIv, b2n_false]; omega),
            bitB_eq (b := lb) (by simp only [wordOf, FillReg.num, FillReg.isIv, b2n_false]; omega)]
  | iv d =>
    have := d.isLt
    cases b with
    | s b => exact fun h => by simp [Instr.wf, FillReg.sameClass] at h
    | iv b =>
      have := b.isLt
      refine word_ok (F := decRfill)
          rfl (by decide) (fun _ => rfl) (by simp only [FillReg.num, FillReg.isIv, b2n_true]; omega) fun _ => ?_
      unfold decRfill
      rw [bitB_eq (n := 0) (b := true) (by simp only [wordOf, FillReg.num, FillReg.isIv, b2n_true]; omega)]
      refine okIf_eq (and_t (isZero_eq (by simp only [wordOf, FillReg.num, FillReg.isIv, b2n_true]; omega))
          (and_t (isZero_eq (by simp only [wordOf, FillReg.num, FillReg.isIv, b2n_true]; omega))
              (isZero_eq (by simp only [wordOf, FillReg.num, FillReg.isIv, b2n_true]; omega)))) ?_
      simp only [dFill, if_true]
      rw [fld_eq (x := d) (by simp only [wordOf, FillReg.num, FillReg.isIv, b2n_true]; omega),
          fld_eq (x := a) (by simp only [wordOf, FillReg.num, FillReg.isIv, b2n_true]; omega),
              fld_eq (x := b) (by simp only [wordOf, FillReg.num, FillReg.isIv, b2n_true]; omega),
        bitB_eq (b := la) (by simp only [wordOf, FillReg.num, FillReg.isIv, b2n_true]; omega),
            bitB_eq (b := lb) (by simp only [wordOf, FillReg.num, FillReg.isIv, b2n_true]; omega)]
theorem waitf (r : FillReg) (lim : BitVec 10) : Statement (.waitf r lim) := by
  have := lim.isLt
  cases r with
  | s r =>
    have := r.isLt
    refine word_ok (F := decWaitf)
        rfl (by decide) (fun _ => rfl) (by simp only [FillReg.num, FillReg.isIv, b2n_false]; omega) fun _ => ?_
    unfold decWaitf
    rw [bitB_eq (n := 10) (b := false) (by simp only [wordOf, FillReg.num, FillReg.isIv, b2n_false]; omega)]
    refine okIf_eq (and_t (isZero_eq (by simp only [wordOf, FillReg.num, FillReg.isIv, b2n_false]; omega)) rfl) ?_
    simp only [dFill, if_false, Bool.false_eq_true]
    rw [fld_eq (x := r) (by simp only [wordOf, FillReg.num, FillReg.isIv, b2n_false]; omega),
        fld_eq (x := lim) (by simp only [wordOf, FillReg.num, FillReg.isIv, b2n_false]; omega)]
  | iv r =>
    have := r.isLt
    refine word_ok (F := decWaitf)
        rfl (by decide) (fun _ => rfl) (by simp only [FillReg.num, FillReg.isIv, b2n_true]; omega) fun _ => ?_
    unfold decWaitf
    rw [bitB_eq (n := 10) (b := true) (by simp only [wordOf, FillReg.num, FillReg.isIv, b2n_true]; omega)]
    refine okIf_eq (and_t (isZero_eq (by simp only [wordOf, FillReg.num, FillReg.isIv, b2n_true]; omega))
        (isZero_eq (by simp only [wordOf, FillReg.num, FillReg.isIv, b2n_true]; omega))) ?_
    simp only [dFill, if_true]
    rw [fld_eq (x := r) (by simp only [wordOf, FillReg.num, FillReg.isIv, b2n_true]; omega),
        fld_eq (x := lim) (by simp only [wordOf, FillReg.num, FillReg.isIv, b2n_true]; omega)]
theorem barOr (qd : QReg) (qa : QReg) : Statement (.barOr qd qa) := by
  have := qd.isLt
  have := qa.isLt
  refine word_ok (F := fun q => decBar q) rfl (by decide) (fun _ => rfl) (by omega) fun _ => ?_
  show decBar _ = _
  unfold decBar
  rw [fldN_eq (n := 0) (by simp only [wordOf]; omega)]
  refine okIf_eq (and_t (and_t (isZero_eq (by simp only [wordOf]; omega))
      (isZero_eq (by simp only [wordOf]; omega))) (isZero_eq (by simp only [wordOf]; omega))) ?_
  rw [fld_eq (x := qd) (by simp only [wordOf]; omega), fld_eq (x := qa) (by simp only [wordOf]; omega)]
theorem barNp (qd : QReg) : Statement (.barNp qd) := by
  have := qd.isLt
  refine word_ok (F := fun q => decBar q) rfl (by decide) (fun _ => rfl) (by omega) fun _ => ?_
  show decBar _ = _
  unfold decBar
  rw [fldN_eq (n := 1) (by simp only [wordOf]; omega)]
  refine okIf_eq (isZero_eq (by simp only [wordOf]; omega)) ?_
  rw [fld_eq (x := qd) (by simp only [wordOf]; omega)]
theorem xset (x : XReg) (a : SReg) (la : Bool) : Statement (.xset x a la) := by
  have := x.isLt
  have := a.isLt
  have := b2n_le la
  refine word_ok (F := fun q => okIf (isZero q 15 2 && isZero q 0 9)
      (.xset (fld q 17 3) (fld q 10 5) (bitB q 9))) rfl (by decide) (fun _ => rfl) (by omega) fun _ => ?_
  refine okIf_eq (and_t (isZero_eq (by simp only [wordOf]; omega)) (isZero_eq (by simp only [wordOf]; omega))) ?_
  rw [fld_eq (x := x) (by simp only [wordOf]; omega), fld_eq (x := a) (by simp only [wordOf]; omega),
      bitB_eq (b := la) (by simp only [wordOf]; omega)]
theorem xget (d : SReg) (x : XReg) : Statement (.xget d x) := by
  have := d.isLt
  have := x.isLt
  refine word_ok (F := fun q => okIf (isZero q 0 12) (.xget (fld q 15 5) (fld q 12 3)))
      rfl (by decide) (fun _ => rfl) (by omega) fun _ => ?_
  refine okIf_eq (isZero_eq (by simp only [wordOf]; omega)) ?_
  rw [fld_eq (x := d) (by simp only [wordOf]; omega), fld_eq (x := x) (by simp only [wordOf]; omega)]
theorem ldB (o : OpM) : Statement (.ldB o) := m_ok o rfl (by decide) (fun _ => rfl) rfl
theorem ldH (o : OpM) : Statement (.ldH o) := m_ok o rfl (by decide) (fun _ => rfl) rfl
theorem ldW (o : OpM) : Statement (.ldW o) := m_ok o rfl (by decide) (fun _ => rfl) rfl
theorem ldD (o : OpM) : Statement (.ldD o) := m_ok o rfl (by decide) (fun _ => rfl) rfl
theorem ldAcq (o : OpM) : Statement (.ldAcq o) := m_ok o rfl (by decide) (fun _ => rfl) rfl
theorem ldw (o : OpLW) : Statement (.ldw o) := lw_ok o rfl (by decide) (fun _ => rfl) rfl
theorem stB (o : OpM) : Statement (.stB o) := m_ok o rfl (by decide) (fun _ => rfl) rfl
theorem stH (o : OpM) : Statement (.stH o) := m_ok o rfl (by decide) (fun _ => rfl) rfl
theorem stW (o : OpM) : Statement (.stW o) := m_ok o rfl (by decide) (fun _ => rfl) rfl
theorem stD (o : OpM) : Statement (.stD o) := m_ok o rfl (by decide) (fun _ => rfl) rfl
theorem stRel (o : OpM) : Statement (.stRel o) := m_ok o rfl (by decide) (fun _ => rfl) rfl
theorem ild (o : OpMIv) : Statement (.ild o) := by
  have := o.t.isLt
  have := o.a.isLt
  have := b2n_le o.la
  have := o.off.isLt
  refine word_ok (F := fun q => okIf (isZero q 19 1) (.ild (dMIv q)))
      rfl (by decide) (fun _ => rfl) (by simp only [eMIv]; omega) fun _ => ?_
  refine okIf_eq (isZero_eq (by simp only [wordOf, eMIv]; omega)) ?_
  rw [dMIv_word _ _]
theorem ist (o : OpMIv) : Statement (.ist o) := by
  have := o.t.isLt
  have := o.a.isLt
  have := b2n_le o.la
  have := o.off.isLt
  refine word_ok (F := fun q => okIf (isZero q 19 1) (.ist (dMIv q)))
      rfl (by decide) (fun _ => rfl) (by simp only [eMIv]; omega) fun _ => ?_
  refine okIf_eq (isZero_eq (by simp only [wordOf, eMIv]; omega)) ?_
  rw [dMIv_word _ _]
theorem amo (fn : AmoFn) (o : OpRRR) : Statement (.amo fn o) := by
  have := amoOf_le fn
  have := o.d.isLt
  have := o.a.isLt
  have := o.b.isLt
  have := b2n_le o.la
  have := b2n_le o.lb
  refine word_ok (F := fun q => okIf true (.amo (amoOf (fldN q 0 3)) (dRRR q)))
      rfl (by decide) (fun _ => rfl) (by simp only [eRRR]; omega) fun _ => ?_
  refine okIf_eq rfl ?_
  rw [amoOf_eq (c := fn) (by simp only [fldN, wordOf, eRRR]; omega), dRRR_word _ _ _ (by omega)]
theorem cas (o : OpRRR) : Statement (.cas o) := intRRR_ok o rfl (by decide) (fun _ => rfl) rfl
theorem red (fn : RedFn) (a : SReg) (b : SReg) (la : Bool) (lb : Bool) : Statement (.red fn a b la lb) := by
  have := redOf_le fn
  have := a.isLt
  have := b.isLt
  have := b2n_le la
  have := b2n_le lb
  refine word_ok (F := fun q => 
    match redOf (fldN q 0 3) with
      | some f => okIf (isZero q 15 5) (.red f (fld q 10 5) (fld q 5 5) (bitB q 4) (bitB q 3))
      | none => .error .reserved) rfl (by decide) (fun _ => rfl) (by omega) fun _ => ?_
  rw [fldN_eq (n := fn.code) (by simp only [wordOf]; omega), redOf_code]
  refine okIf_eq (isZero_eq (by simp only [wordOf]; omega)) ?_
  rw [fld_eq (x := a) (by simp only [wordOf]; omega), fld_eq (x := b) (by simp only [wordOf]; omega),
      bitB_eq (b := la) (by simp only [wordOf]; omega), bitB_eq (b := lb) (by simp only [wordOf]; omega)]
theorem vld (o : OpVS1) : Statement (.vld o) := vs1_ok o rfl (by decide) (fun _ => rfl) rfl
theorem vst (o : OpVS1) : Statement (.vst o) := vs1_ok o rfl (by decide) (fun _ => rfl) rfl
theorem migr (a : SReg) (la : Bool) : Statement (.migr a la) := hintI_ok a la rfl (by decide) (fun _ => rfl) rfl
theorem bwant (a : SReg) (la : Bool) : Statement (.bwant a la) := hintI_ok a la rfl (by decide) (fun _ => rfl) rfl
theorem bkeep (a : SReg) (la : Bool) : Statement (.bkeep a la) := hintI_ok a la rfl (by decide) (fun _ => rfl) rfl
theorem bfree (a : SReg) (la : Bool) : Statement (.bfree a la) := hintI_ok a la rfl (by decide) (fun _ => rfl) rfl
theorem bcopy (a : SReg) (b : SReg) (la : Bool) (lb : Bool) : Statement (.bcopy a b la lb) := by
  have := a.isLt
  have := b.isLt
  have := b2n_le la
  have := b2n_le lb
  refine word_ok (F := fun q => 
    match fldN q 0 3 with
      | 0 => okIf (isZero q 15 5) (.bcopy (fld q 10 5) (fld q 5 5) (bitB q 4) (bitB q 3))
      | 1 => okIf (isZero q 15 5 && isZero q 5 5 && isZero q 3 1) (.bcopyZero (fld q 10 5) (bitB q 4))
      | _ => .error .reserved) rfl (by decide) (fun _ => rfl) (by omega) fun _ => ?_
  rw [fldN_eq (n := 0) (by simp only [wordOf]; omega)]
  refine okIf_eq (isZero_eq (by simp only [wordOf]; omega)) ?_
  rw [fld_eq (x := a) (by simp only [wordOf]; omega), fld_eq (x := b) (by simp only [wordOf]; omega),
      bitB_eq (b := la) (by simp only [wordOf]; omega), bitB_eq (b := lb) (by simp only [wordOf]; omega)]
theorem bcopyZero (a : SReg) (la : Bool) : Statement (.bcopyZero a la) := by
  have := a.isLt
  have := b2n_le la
  refine word_ok (F := fun q => 
    match fldN q 0 3 with
      | 0 => okIf (isZero q 15 5) (.bcopy (fld q 10 5) (fld q 5 5) (bitB q 4) (bitB q 3))
      | 1 => okIf (isZero q 15 5 && isZero q 5 5 && isZero q 3 1) (.bcopyZero (fld q 10 5) (bitB q 4))
      | _ => .error .reserved) rfl (by decide) (fun _ => rfl) (by omega) fun _ => ?_
  rw [fldN_eq (n := 1) (by simp only [wordOf]; omega)]
  refine okIf_eq (and_t (and_t (isZero_eq (by simp only [wordOf]; omega))
      (isZero_eq (by simp only [wordOf]; omega))) (isZero_eq (by simp only [wordOf]; omega))) ?_
  rw [fld_eq (x := a) (by simp only [wordOf]; omega), bitB_eq (b := la) (by simp only [wordOf]; omega)]
theorem vadd (o : OpV) (sat : Bool) : Statement (.vadd o sat) := vecSat_ok o sat rfl (by decide) (fun _ => rfl) rfl
theorem vsub (o : OpV) (sat : Bool) : Statement (.vsub o sat) := vecSat_ok o sat rfl (by decide) (fun _ => rfl) rfl
theorem vmul (o : OpV) (sat : Bool) : Statement (.vmul o sat) := vecSat_ok o sat rfl (by decide) (fun _ => rfl) rfl
theorem vfma (o : OpV) : Statement (.vfma o) := vec_ok o rfl (by decide) (fun _ => rfl) rfl
theorem vmin (o : OpV) : Statement (.vmin o) := vec_ok o rfl (by decide) (fun _ => rfl) rfl
theorem vmax (o : OpV) : Statement (.vmax o) := vec_ok o rfl (by decide) (fun _ => rfl) rfl
theorem vand (o : OpV) : Statement (.vand o) := vec_ok o rfl (by decide) (fun _ => rfl) rfl
theorem vor (o : OpV) : Statement (.vor o) := vec_ok o rfl (by decide) (fun _ => rfl) rfl
theorem vxor (o : OpV) : Statement (.vxor o) := vec_ok o rfl (by decide) (fun _ => rfl) rfl
theorem vshl (o : OpV) : Statement (.vshl o) := vec_ok o rfl (by decide) (fun _ => rfl) rfl
theorem vshr (o : OpV) : Statement (.vshr o) := vec_ok o rfl (by decide) (fun _ => rfl) rfl
theorem vsar (o : OpV) : Statement (.vsar o) := vec_ok o rfl (by decide) (fun _ => rfl) rfl
theorem vabs (o : OpV1) : Statement (.vabs o) := vec1_ok o rfl (by decide) (fun _ => rfl) rfl
theorem vneg (o : OpV1) : Statement (.vneg o) := vec1_ok o rfl (by decide) (fun _ => rfl) rfl
theorem vcvt (o : OpV1) (dst : Fmt) : Statement (.vcvt o dst) := by
  have hc := fmt_code_lt dst
  obtain ⟨hp, h1, h2, h3, h4⟩ := eV1_fields 0xAE (dst.code % 8) (dst.code / 8) o (by omega) (by omega)
  refine word_ok (F := decVcvt) rfl (by decide) (fun _ => rfl) hp fun _ => ?_
  refine withFmt_eq (f := o.fmt) h1 (withFmt_eq (f := dst) (by rw [h3, h2]; omega) (okIf_eq h4 ?_))
  rw [dV1_word _ _ _ _ (by omega) (by omega)]
theorem vsel (o : OpV) : Statement (.vsel o) := vec_ok o rfl (by decide) (fun _ => rfl) rfl
theorem vcmp (c : VCond) (kd : KReg) (pa : PReg) (pb : PReg) (fmt : Fmt) (k : KReg) (incA : Bool) (incB : Bool) : Statement (.vcmp c kd pa pb fmt k incA incB) := by
  have hc := vcondOf_le c
  obtain ⟨hp, h1, h2, h3, h4, h5, h6, h7, h8, h9⟩ := vcmp_fields 0xB0 (c.code / 2) (c.code % 2) kd pa pb fmt k incA incB
    (by omega) (by omega) rfl
  refine word_ok rfl (by decide) (fun _ => rfl) hp fun _ => ?_
  refine withFmt_eq (f := fmt) h1 (okIf_eq rfl ?_)
  rw [vcondOf_eq (c := c) (by rw [h2, h3]; omega), h4, h5, h6, h7, h8, h9]
theorem vred (fn : VRedFn) (d : SReg) (pa : PReg) (fmt : Fmt) (k : KReg) (inc : Bool) : Statement
    (.vred fn d pa fmt k inc) := by
  have := vredOf_le fn
  have := d.isLt
  have := pa.isLt
  have := fmt_code_lt fmt
  have := k.isLt
  have := b2n_le inc
  refine word_ok (F := fun q => 
    match vredOf (fldN q 0 4) with
      | some g => withFmt (fldN q 8 4) fun f => okIf true (.vred g (fld q 15 5) (fld q 12 3) f (fld q 5 3) (bitB q 4))
      | none => .error .reserved) rfl (by decide) (fun _ => rfl) (by simp only [eVR]; omega) fun _ => ?_
  rw [fldN_eq (n := fn.code) (by simp only [wordOf, eVR]; omega), vredOf_code]
  refine withFmt_eq (f := fmt) (fldN_eq (by simp only [wordOf, eVR]; omega)) ?_
  refine okIf_eq rfl ?_
  rw [fld_eq (x := d) (by simp only [wordOf, eVR]; omega), fld_eq (x := pa) (by simp only [wordOf, eVR]; omega),
      fld_eq (x := k) (by simp only [wordOf, eVR]; omega), bitB_eq (b := inc) (by simp only [wordOf, eVR]; omega)]
theorem vdot (d : SReg) (pa : PReg) (pb : PReg) (fmt : Fmt) (k : KReg) (inc : Bool) : Statement
    (.vdot d pa pb fmt k inc) := by
  have := d.isLt
  have := pa.isLt
  have := pb.isLt
  have := fmt_code_lt fmt
  have := k.isLt
  have := b2n_le inc
  refine word_ok (F := fun q => withFmt (fldN q 8 4) fun f => okIf (isZero q 3 1)
      (.vdot (fld q 15 5) (fld q 12 3) (fld q 0 3) f (fld q 5 3) (bitB q 4)))
          rfl (by decide) (fun _ => rfl) (by simp only [eVR]; omega) fun _ => ?_
  refine withFmt_eq (f := fmt) (fldN_eq (by simp only [wordOf, eVR]; omega)) ?_
  refine okIf_eq (isZero_eq (by simp only [wordOf, eVR]; omega)) ?_
  rw [fld_eq (x := d) (by simp only [wordOf, eVR]; omega), fld_eq (x := pa) (by simp only [wordOf, eVR]; omega),
      fld_eq (x := pb) (by simp only [wordOf, eVR]; omega), fld_eq (x := k) (by simp only [wordOf, eVR]; omega),
          bitB_eq (b := inc) (by simp only [wordOf, eVR]; omega)]
theorem vbcast (o : OpVS1) : Statement (.vbcast o) := vs1_ok o rfl (by decide) (fun _ => rfl) rfl
theorem vadds (o : OpVS) : Statement (.vadds o) := vs2_ok o rfl (by decide) (fun _ => rfl) rfl
theorem vmuls (o : OpVS) : Statement (.vmuls o) := vs2_ok o rfl (by decide) (fun _ => rfl) rfl
theorem vperm (o : OpV) : Statement (.vperm o) := vec_ok o rfl (by decide) (fun _ => rfl) rfl
theorem vmov (o : OpV1) : Statement (.vmov o) := vec1_ok o rfl (by decide) (fun _ => rfl) rfl
theorem vbdot (pd : PReg) (pa : PReg) (pb : PReg) (fmt : Fmt) (bs : BitVec 2) (incD : Bool) (incA : Bool) (incB : Bool) : Statement (.vbdot pd pa pb fmt bs incD incA incB) := by
  have := pd.isLt
  have := pa.isLt
  have := pb.isLt
  have := fmt_code_lt fmt
  have := bs.isLt
  have := b2n_le incD
  have := b2n_le incA
  have := b2n_le incB
  refine word_ok (F := fun q => withFmt (fldN q 7 4) fun f => okIf (isZero q 0 2)
      (.vbdot (fld q 17 3) (fld q 14 3) (fld q 11 3) f (fld q 5 2) (bitB q 4) (bitB q 3) (bitB q 2)))
          rfl (by decide) (fun _ => rfl) (by omega) fun _ => ?_
  refine withFmt_eq (f := fmt) (fldN_eq (by simp only [wordOf]; omega)) ?_
  refine okIf_eq (isZero_eq (by simp only [wordOf]; omega)) ?_
  rw [fld_eq (x := pd) (by simp only [wordOf]; omega), fld_eq (x := pa) (by simp only [wordOf]; omega),
      fld_eq (x := pb) (by simp only [wordOf]; omega), fld_eq (x := bs) (by simp only [wordOf]; omega),
          bitB_eq (b := incD) (by simp only [wordOf]; omega), bitB_eq (b := incA) (by simp only [wordOf]; omega),
              bitB_eq (b := incB) (by simp only [wordOf]; omega)]
theorem vscacc (o : OpV) : Statement (.vscacc o) := vec_ok o rfl (by decide) (fun _ => rfl) rfl
theorem vscomb (o : OpV) : Statement (.vscomb o) := vec_ok o rfl (by decide) (fun _ => rfl) rfl
theorem vexp (o : OpV1) : Statement (.vexp o) := vec1_ok o rfl (by decide) (fun _ => rfl) rfl
theorem vrcp (o : OpV1) : Statement (.vrcp o) := vec1_ok o rfl (by decide) (fun _ => rfl) rfl
theorem vrsq (o : OpV1) : Statement (.vrsq o) := vec1_ok o rfl (by decide) (fun _ => rfl) rfl
theorem vtanh (o : OpV1) : Statement (.vtanh o) := vec1_ok o rfl (by decide) (fun _ => rfl) rfl
theorem viadd (o : OpVI) : Statement (.viadd o) := vecI_ok o rfl (by decide) (fun _ => rfl) rfl
theorem visub (o : OpVI) : Statement (.visub o) := vecI_ok o rfl (by decide) (fun _ => rfl) rfl
theorem vimul (o : OpVI) : Statement (.vimul o) := vecI_ok o rfl (by decide) (fun _ => rfl) rfl
theorem virelu (pd : PReg) (pa : PReg) (k : KReg) (incD : Bool) (incA : Bool) : Statement
    (.virelu pd pa k incD incA) := by
  have := pd.isLt
  have := pa.isLt
  have := k.isLt
  have := b2n_le incD
  have := b2n_le incA
  refine word_ok (F := fun q => okIf (fldN q 7 4 == 14 && isZero q 11 3 && isZero q 0 2)
      (.virelu (fld q 17 3) (fld q 14 3) (fld q 4 3) (bitB q 3) (bitB q 2)))
          rfl (by decide) (fun _ => rfl) (by omega) fun _ => ?_
  refine okIf_eq (and_t (and_t (by rw [fldN_eq (n := 14) (by simp only [wordOf]; omega)]; rfl)
      (isZero_eq (by simp only [wordOf]; omega))) (isZero_eq (by simp only [wordOf]; omega))) ?_
  rw [fld_eq (x := pd) (by simp only [wordOf]; omega), fld_eq (x := pa) (by simp only [wordOf]; omega),
      fld_eq (x := k) (by simp only [wordOf]; omega), bitB_eq (b := incD) (by simp only [wordOf]; omega),
          bitB_eq (b := incA) (by simp only [wordOf]; omega)]
theorem vihull (o : OpVI) : Statement (.vihull o) := vecI_ok o rfl (by decide) (fun _ => rfl) rfl
theorem vimeet (o : OpVI) : Statement (.vimeet o) := vecI_ok o rfl (by decide) (fun _ => rfl) rfl
theorem vidot (d : IvReg) (pa : PReg) (pb : PReg) (k : KReg) (inc : Bool) : Statement (.vidot d pa pb k inc) := by
  have := d.isLt
  have := pa.isLt
  have := pb.isLt
  have := k.isLt
  have := b2n_le inc
  refine word_ok (F := fun q => okIf (fldN q 8 4 == 14 && isZero q 19 1 && isZero q 3 1)
      (.vidot (fld q 15 4) (fld q 12 3) (fld q 0 3) (fld q 5 3) (bitB q 4)))
          rfl (by decide) (fun _ => rfl) (by simp only [eVR, Fmt.code]; omega) fun _ => ?_
  refine okIf_eq (and_t (and_t (by rw [fldN_eq (n := 14) (by simp only [wordOf, eVR, Fmt.code, Fmt.code]; omega)]; rfl) (isZero_eq (by simp only [wordOf, eVR, Fmt.code]; omega))) (isZero_eq (by simp only [wordOf, eVR, Fmt.code]; omega))) ?_
  rw [fld_eq (x := d) (by simp only [wordOf, eVR, Fmt.code]; omega),
      fld_eq (x := pa) (by simp only [wordOf, eVR, Fmt.code]; omega),
          fld_eq (x := pb) (by simp only [wordOf, eVR, Fmt.code]; omega),
              fld_eq (x := k) (by simp only [wordOf, eVR, Fmt.code]; omega),
                  bitB_eq (b := inc) (by simp only [wordOf, eVR, Fmt.code]; omega)]
theorem vimake (o : OpVI) : Statement (.vimake o) := vecI_ok o rfl (by decide) (fun _ => rfl) rfl
theorem vcadd (o : OpVI) : Statement (.vcadd o) := vecI_ok o rfl (by decide) (fun _ => rfl) rfl
theorem vcmul (o : OpVI) : Statement (.vcmul o) := vecI_ok o rfl (by decide) (fun _ => rfl) rfl
theorem vcrelu (px : PReg) (pz : PReg) (k : KReg) (incX : Bool) (incZ : Bool) : Statement
    (.vcrelu px pz k incX incZ) := by
  have := px.isLt
  have := pz.isLt
  have := k.isLt
  have := b2n_le incX
  have := b2n_le incZ
  refine word_ok (F := fun q => okIf (fldN q 7 4 == 14 && isZero q 14 3 && isZero q 2 1 && isZero q 0 1)
      (.vcrelu (fld q 17 3) (fld q 11 3) (fld q 4 3) (bitB q 3) (bitB q 1)))
          rfl (by decide) (fun _ => rfl) (by omega) fun _ => ?_
  refine okIf_eq (and_t (and_t (and_t (by rw [fldN_eq (n := 14) (by simp only [wordOf]; omega)]; rfl)
      (isZero_eq (by simp only [wordOf]; omega))) (isZero_eq (by simp only [wordOf]; omega)))
          (isZero_eq (by simp only [wordOf]; omega))) ?_
  rw [fld_eq (x := px) (by simp only [wordOf]; omega), fld_eq (x := pz) (by simp only [wordOf]; omega),
      fld_eq (x := k) (by simp only [wordOf]; omega), bitB_eq (b := incX) (by simp only [wordOf]; omega),
          bitB_eq (b := incZ) (by simp only [wordOf]; omega)]
theorem mclaim (slot : BitVec 6) (n1 : BitVec 4) (lim : BitVec 10) : Statement (.mclaim slot n1 lim) := by
  have := slot.isLt
  have := n1.isLt
  have := lim.isLt
  refine word_ok (F := fun q => okIf true (.mclaim (fld q 14 6) (fld q 10 4) (fld q 0 10)))
      rfl (by decide) (fun _ => rfl) (by omega) fun _ => ?_
  refine okIf_eq rfl ?_
  rw [fld_eq (x := slot) (by simp only [wordOf]; omega), fld_eq (x := n1) (by simp only [wordOf]; omega),
      fld_eq (x := lim) (by simp only [wordOf]; omega)]
theorem mrelease (slot : BitVec 6) (n1 : BitVec 4) : Statement (.mrelease slot n1) := by
  have := slot.isLt
  have := n1.isLt
  refine word_ok (F := fun q => okIf (isZero q 0 10) (.mrelease (fld q 14 6) (fld q 10 4)))
      rfl (by decide) (fun _ => rfl) (by omega) fun _ => ?_
  refine okIf_eq (isZero_eq (by simp only [wordOf]; omega)) ?_
  rw [fld_eq (x := slot) (by simp only [wordOf]; omega), fld_eq (x := n1) (by simp only [wordOf]; omega)]
theorem mload (slot : BitVec 6) (a : SReg) (la : Bool) (fmt : Fmt) (tr : TileTr) : Statement
    (.mload slot a la fmt tr) := by
  have := slot.isLt
  have := a.isLt
  have := b2n_le la
  have := fmt_code_lt fmt
  have := trOf_le tr
  refine word_ok (F := fun q => 
    match trOf (fldN q 2 2) with
      | some tr => withFmt (fldN q 4 4) fun f => okIf (isZero q 0 2) (.mload (fld q 14 6) (fld q 9 5) (bitB q 8) f tr)
      | none => .error .reserved) rfl (by decide) (fun _ => rfl) (by omega) fun _ => ?_
  rw [fldN_eq (n := tr.code) (by simp only [wordOf]; omega), trOf_code]
  refine withFmt_eq (f := fmt) (fldN_eq (by simp only [wordOf]; omega)) ?_
  refine okIf_eq (isZero_eq (by simp only [wordOf]; omega)) ?_
  rw [fld_eq (x := slot) (by simp only [wordOf]; omega), fld_eq (x := a) (by simp only [wordOf]; omega),
      bitB_eq (b := la) (by simp only [wordOf]; omega)]
theorem mstore (d : SReg) (slot : BitVec 6) (a : SReg) (fmt : Fmt) : Statement (.mstore d slot a fmt) := by
  have := d.isLt
  have := slot.isLt
  have := a.isLt
  have := fmt_code_lt fmt
  refine word_ok (F := fun q => withFmt (fldN q 0 4) fun f => okIf true
      (.mstore (fld q 15 5) (fld q 9 6) (fld q 4 5) f)) rfl (by decide) (fun _ => rfl) (by omega) fun _ => ?_
  refine withFmt_eq (f := fmt) (fldN_eq (by simp only [wordOf]; omega)) ?_
  refine okIf_eq rfl ?_
  rw [fld_eq (x := d) (by simp only [wordOf]; omega), fld_eq (x := slot) (by simp only [wordOf]; omega),
      fld_eq (x := a) (by simp only [wordOf]; omega)]
theorem mzero (slot : BitVec 6) (int : Bool) : Statement (.mzero slot int) := by
  have := slot.isLt
  have := b2n_le int
  refine word_ok (F := fun q => okIf (isZero q 0 13) (.mzero (fld q 14 6) (bitB q 13)))
      rfl (by decide) (fun _ => rfl) (by omega) fun _ => ?_
  refine okIf_eq (isZero_eq (by simp only [wordOf]; omega)) ?_
  rw [fld_eq (x := slot) (by simp only [wordOf]; omega), bitB_eq (b := int) (by simp only [wordOf]; omega)]
theorem mma (c : BitVec 6) (a : BitVec 6) (b : BitVec 6) (new : Bool) : Statement (.mma c a b new) := by
  have := c.isLt
  have := a.isLt
  have := b.isLt
  have := b2n_le new
  refine word_ok (F := fun q => okIf (isZero q 1 1) (.mma (fld q 14 6) (fld q 8 6) (fld q 2 6) (bitB q 0)))
      rfl (by decide) (fun _ => rfl) (by omega) fun _ => ?_
  refine okIf_eq (isZero_eq (by simp only [wordOf]; omega)) ?_
  rw [fld_eq (x := c) (by simp only [wordOf]; omega), fld_eq (x := a) (by simp only [wordOf]; omega),
      fld_eq (x := b) (by simp only [wordOf]; omega), bitB_eq (b := new) (by simp only [wordOf]; omega)]
theorem cpy (x : XReg) : Statement (.cpy x) := by
  have := x.isLt
  refine word_ok (F := fun q => okIf (isZero q 0 16) (if bitB q 16 then .cpyG (fld q 17 3)
      else .cpy (fld q 17 3))) rfl (by decide) (fun _ => rfl) (by omega) fun _ => ?_
  have hb : bitB (wordOf 224 ((x.toNat * 2 ^ 17))) 16 = false :=
    bitB_eq (show _ = 0 by simp only [wordOf]; omega)
  simp only [hb, if_true, if_false, Bool.false_eq_true]
  refine okIf_eq (isZero_eq (by simp only [wordOf]; omega)) ?_
  rw [fld_eq (x := x) (by simp only [wordOf]; omega)]
theorem cpyG (x : XReg) : Statement (.cpyG x) := by
  have := x.isLt
  refine word_ok (F := fun q => okIf (isZero q 0 16) (if bitB q 16 then .cpyG (fld q 17 3)
      else .cpy (fld q 17 3))) rfl (by decide) (fun _ => rfl) (by omega) fun _ => ?_
  have hb : bitB (wordOf 224 ((x.toNat * 2 ^ 17 + 2 ^ 16))) 16 = true :=
    bitB_eq (show _ = 1 by simp only [wordOf]; omega)
  simp only [hb, if_true, if_false, Bool.false_eq_true]
  refine okIf_eq (isZero_eq (by simp only [wordOf]; omega)) ?_
  rw [fld_eq (x := x) (by simp only [wordOf]; omega)]
theorem gwin (w : BitVec 3) (x : XReg) : Statement (.gwin w x) := by
  have := w.isLt
  have := x.isLt
  refine word_ok (F := fun q => okIf (isZero q 0 14) (.gwin (fld q 17 3) (fld q 14 3)))
      rfl (by decide) (fun _ => rfl) (by omega) fun _ => ?_
  refine okIf_eq (isZero_eq (by simp only [wordOf]; omega)) ?_
  rw [fld_eq (x := w) (by simp only [wordOf]; omega), fld_eq (x := x) (by simp only [wordOf]; omega)]
theorem rdef (r : BitVec 4) (x : XReg) : Statement (.rdef r x) := by
  have := r.isLt
  have := x.isLt
  refine word_ok (F := fun q =>  if bitB q 12 then okIf (isZero q 0 12 && isZero q 13 3) (.rdefOff (fld q 16 4))
      else okIf (isZero q 0 12) (.rdef (fld q 16 4) (fld q 13 3))) rfl (by decide) (fun _ => rfl) (by omega) fun _ => ?_
  have hb : bitB (wordOf 227 ((r.toNat * 2 ^ 16 + x.toNat * 2 ^ 13))) 12 = false :=
    bitB_eq (show _ = 0 by simp only [wordOf]; omega)
  simp only [hb, if_true, if_false, Bool.false_eq_true]
  refine okIf_eq (isZero_eq (by simp only [wordOf]; omega)) ?_
  rw [fld_eq (x := r) (by simp only [wordOf]; omega), fld_eq (x := x) (by simp only [wordOf]; omega)]
theorem rdefOff (r : BitVec 4) : Statement (.rdefOff r) := by
  have := r.isLt
  refine word_ok (F := fun q =>  if bitB q 12 then okIf (isZero q 0 12 && isZero q 13 3) (.rdefOff (fld q 16 4))
      else okIf (isZero q 0 12) (.rdef (fld q 16 4) (fld q 13 3))) rfl (by decide) (fun _ => rfl) (by omega) fun _ => ?_
  have hb : bitB (wordOf 227 ((r.toNat * 2 ^ 16 + 2 ^ 12))) 12 = true :=
    bitB_eq (show _ = 1 by simp only [wordOf]; omega)
  simp only [hb, if_true, if_false, Bool.false_eq_true]
  refine okIf_eq (and_t (isZero_eq (by simp only [wordOf]; omega)) (isZero_eq (by simp only [wordOf]; omega))) ?_
  rw [fld_eq (x := r) (by simp only [wordOf]; omega)]
theorem rpostD (r : BitVec 4) (a : SReg) (la : Bool) : Statement (.rpostD r a la) := by
  have := r.isLt
  have := a.isLt
  have := b2n_le la
  refine word_ok (F := fun q => okIf (isZero q 0 9) (if bitB q 15 then .rpostF (fld q 16 4) (fld q 10 5) (bitB q 9) else .rpostD (fld q 16 4) (fld q 10 5) (bitB q 9))) rfl (by decide) (fun _ => rfl) (by omega) fun _ => ?_
  have hb : bitB (wordOf 228 ((r.toNat * 2 ^ 16 + a.toNat * 2 ^ 10 + b2n la * 2 ^ 9))) 15 = false :=
    bitB_eq (show _ = 0 by simp only [wordOf]; omega)
  simp only [hb, if_true, if_false, Bool.false_eq_true]
  refine okIf_eq (isZero_eq (by simp only [wordOf]; omega)) ?_
  rw [fld_eq (x := r) (by simp only [wordOf]; omega), fld_eq (x := a) (by simp only [wordOf]; omega),
      bitB_eq (b := la) (by simp only [wordOf]; omega)]
theorem rpostF (r : BitVec 4) (a : SReg) (la : Bool) : Statement (.rpostF r a la) := by
  have := r.isLt
  have := a.isLt
  have := b2n_le la
  refine word_ok (F := fun q => okIf (isZero q 0 9) (if bitB q 15 then .rpostF (fld q 16 4) (fld q 10 5) (bitB q 9) else .rpostD (fld q 16 4) (fld q 10 5) (bitB q 9))) rfl (by decide) (fun _ => rfl) (by omega) fun _ => ?_
  have hb : bitB (wordOf 228 ((r.toNat * 2 ^ 16 + 2 ^ 15 + a.toNat * 2 ^ 10 + b2n la * 2 ^ 9))) 15 = true :=
    bitB_eq (show _ = 1 by simp only [wordOf]; omega)
  simp only [hb, if_true, if_false, Bool.false_eq_true]
  refine okIf_eq (isZero_eq (by simp only [wordOf]; omega)) ?_
  rw [fld_eq (x := r) (by simp only [wordOf]; omega), fld_eq (x := a) (by simp only [wordOf]; omega),
      bitB_eq (b := la) (by simp only [wordOf]; omega)]
theorem rtakeD (d : SReg) (r : BitVec 4) (lim : BitVec 10) : Statement (.rtakeD d r lim) := by
  have := d.isLt
  have := r.isLt
  have := lim.isLt
  refine word_ok (F := fun q => okIf true (if bitB q 10 then .rtakeF (fld q 15 5) (fld q 11 4) (fld q 0 10)
      else .rtakeD (fld q 15 5) (fld q 11 4) (fld q 0 10))) rfl (by decide) (fun _ => rfl) (by omega) fun _ => ?_
  have hb : bitB (wordOf 229 ((d.toNat * 2 ^ 15 + r.toNat * 2 ^ 11 + lim.toNat))) 10 = false :=
    bitB_eq (show _ = 0 by simp only [wordOf]; omega)
  simp only [hb, if_true, if_false, Bool.false_eq_true]
  refine okIf_eq rfl ?_
  rw [fld_eq (x := d) (by simp only [wordOf]; omega), fld_eq (x := r) (by simp only [wordOf]; omega),
      fld_eq (x := lim) (by simp only [wordOf]; omega)]
theorem rtakeF (d : SReg) (r : BitVec 4) (lim : BitVec 10) : Statement (.rtakeF d r lim) := by
  have := d.isLt
  have := r.isLt
  have := lim.isLt
  refine word_ok (F := fun q => okIf true (if bitB q 10 then .rtakeF (fld q 15 5) (fld q 11 4) (fld q 0 10)
      else .rtakeD (fld q 15 5) (fld q 11 4) (fld q 0 10))) rfl (by decide) (fun _ => rfl) (by omega) fun _ => ?_
  have hb : bitB (wordOf 229 ((d.toNat * 2 ^ 15 + r.toNat * 2 ^ 11 + 2 ^ 10 + lim.toNat))) 10 = true :=
    bitB_eq (show _ = 1 by simp only [wordOf]; omega)
  simp only [hb, if_true, if_false, Bool.false_eq_true]
  refine okIf_eq rfl ?_
  rw [fld_eq (x := d) (by simp only [wordOf]; omega), fld_eq (x := r) (by simp only [wordOf]; omega),
      fld_eq (x := lim) (by simp only [wordOf]; omega)]
theorem qfence (before : BitVec 4) (after : BitVec 4) : Statement (.qfence before after) := by
  have := before.isLt
  have := after.isLt
  refine word_ok (F := fun q => okIf (isZero q 0 12) (.qfence (fld q 16 4) (fld q 12 4)))
      rfl (by decide) (fun _ => rfl) (by omega) fun _ => ?_
  refine okIf_eq (isZero_eq (by simp only [wordOf]; omega)) ?_
  rw [fld_eq (x := before) (by simp only [wordOf]; omega), fld_eq (x := after) (by simp only [wordOf]; omega)]
theorem qwait (set : BitVec 4) (lim : BitVec 10) : Statement (.qwait set lim) := by
  have := set.isLt
  have := lim.isLt
  refine word_ok (F := fun q => okIf (isZero q 14 6) (.qwait (fld q 10 4) (fld q 0 10)))
      rfl (by decide) (fun _ => rfl) (by omega) fun _ => ?_
  refine okIf_eq (isZero_eq (by simp only [wordOf]; omega)) ?_
  rw [fld_eq (x := set) (by simp only [wordOf]; omega), fld_eq (x := lim) (by simp only [wordOf]; omega)]
theorem ckpt (off : BitVec 20) : Statement (.ckpt off) := by
  have := off.isLt
  refine word_ok (F := fun q => okIf true (.ckpt (fld q 0 20))) rfl (by decide) (fun _ => rfl) (by omega) fun _ => ?_
  refine okIf_eq rfl ?_
  rw [fld_eq (x := off) (by simp only [wordOf]; omega)]
theorem wpost (x : XReg) : Statement (.wpost x) := by
  have := x.isLt
  refine word_ok (F := fun q => okIf (isZero q 0 16) (if bitB q 16 then .wpostG (fld q 17 3)
      else .wpost (fld q 17 3))) rfl (by decide) (fun _ => rfl) (by omega) fun _ => ?_
  have hb : bitB (wordOf 233 ((x.toNat * 2 ^ 17))) 16 = false :=
    bitB_eq (show _ = 0 by simp only [wordOf]; omega)
  simp only [hb, if_true, if_false, Bool.false_eq_true]
  refine okIf_eq (isZero_eq (by simp only [wordOf]; omega)) ?_
  rw [fld_eq (x := x) (by simp only [wordOf]; omega)]
theorem wpostG (x : XReg) : Statement (.wpostG x) := by
  have := x.isLt
  refine word_ok (F := fun q => okIf (isZero q 0 16) (if bitB q 16 then .wpostG (fld q 17 3)
      else .wpost (fld q 17 3))) rfl (by decide) (fun _ => rfl) (by omega) fun _ => ?_
  have hb : bitB (wordOf 233 ((x.toNat * 2 ^ 17 + 2 ^ 16))) 16 = true :=
    bitB_eq (show _ = 1 by simp only [wordOf]; omega)
  simp only [hb, if_true, if_false, Bool.false_eq_true]
  refine okIf_eq (isZero_eq (by simp only [wordOf]; omega)) ?_
  rw [fld_eq (x := x) (by simp only [wordOf]; omega)]
theorem wwait (a : SReg) (b : SReg) (lim : BitVec 10) : Statement (.wwait a b lim) := by
  have := a.isLt
  have := b.isLt
  have := lim.isLt
  refine word_ok (F := fun q => okIf true (.wwait (fld q 15 5) (fld q 10 5) (fld q 0 10)))
      rfl (by decide) (fun _ => rfl) (by omega) fun _ => ?_
  refine okIf_eq rfl ?_
  rw [fld_eq (x := a) (by simp only [wordOf]; omega), fld_eq (x := b) (by simp only [wordOf]; omega),
      fld_eq (x := lim) (by simp only [wordOf]; omega)]
theorem sbindS (a : SReg) (la : Bool) (x : XReg) : Statement (.sbindS a la x) := by
  have := a.isLt
  have := b2n_le la
  have := x.isLt
  refine word_ok (F := fun q => decSbind q) rfl (by decide) (fun _ => rfl) (by simp only [eHint]; omega) fun _ => ?_
  show decSbind _ = _
  unfold decSbind
  rw [fldN_eq (n := 0) (by simp only [wordOf, eHint]; omega)]
  refine okIf_eq (isZero_eq (by simp only [wordOf, eHint]; omega)) ?_
  rw [fld_eq (x := a) (by simp only [wordOf, eHint]; omega), bitB_eq (b := la) (by simp only [wordOf, eHint]; omega),
      fld_eq (x := x) (by simp only [wordOf, eHint]; omega)]
theorem sbindW (a : SReg) (la : Bool) (x : XReg) : Statement (.sbindW a la x) := by
  have := a.isLt
  have := b2n_le la
  have := x.isLt
  refine word_ok (F := fun q => decSbind q) rfl (by decide) (fun _ => rfl) (by simp only [eHint]; omega) fun _ => ?_
  show decSbind _ = _
  unfold decSbind
  rw [fldN_eq (n := 1) (by simp only [wordOf, eHint]; omega)]
  refine okIf_eq (isZero_eq (by simp only [wordOf, eHint]; omega)) ?_
  rw [fld_eq (x := a) (by simp only [wordOf, eHint]; omega), bitB_eq (b := la) (by simp only [wordOf, eHint]; omega),
      fld_eq (x := x) (by simp only [wordOf, eHint]; omega)]
theorem sbindOffS (a : SReg) (la : Bool) : Statement (.sbindOffS a la) := by
  have := a.isLt
  have := b2n_le la
  refine word_ok (F := fun q => decSbind q) rfl (by decide) (fun _ => rfl) (by simp only [eHint]; omega) fun _ => ?_
  show decSbind _ = _
  unfold decSbind
  rw [fldN_eq (n := 2) (by simp only [wordOf, eHint]; omega)]
  refine okIf_eq (and_t (isZero_eq (by simp only [wordOf, eHint]; omega))
      (isZero_eq (by simp only [wordOf, eHint]; omega))) ?_
  rw [fld_eq (x := a) (by simp only [wordOf, eHint]; omega), bitB_eq (b := la) (by simp only [wordOf, eHint]; omega)]
theorem sbindOffW (a : SReg) (la : Bool) : Statement (.sbindOffW a la) := by
  have := a.isLt
  have := b2n_le la
  refine word_ok (F := fun q => decSbind q) rfl (by decide) (fun _ => rfl) (by simp only [eHint]; omega) fun _ => ?_
  show decSbind _ = _
  unfold decSbind
  rw [fldN_eq (n := 3) (by simp only [wordOf, eHint]; omega)]
  refine okIf_eq (and_t (isZero_eq (by simp only [wordOf, eHint]; omega))
      (isZero_eq (by simp only [wordOf, eHint]; omega))) ?_
  rw [fld_eq (x := a) (by simp only [wordOf, eHint]; omega), bitB_eq (b := la) (by simp only [wordOf, eHint]; omega)]
theorem semit (o : OpSS) : Statement (.semit o) := by
  have := o.a.isLt
  have := b2n_le o.la
  have := o.b.isLt
  have := b2n_le o.lb
  refine word_ok (F := fun q => okIf (isZero q 0 8) (.semit (dSS q)))
      rfl (by decide) (fun _ => rfl) (by simp only [eSS]; omega) fun _ => ?_
  refine okIf_eq (isZero_eq (by simp only [wordOf, eSS]; omega)) ?_
  rw [dSS_word _ _]
theorem swm (o : OpSS) : Statement (.swm o) := by
  have := o.a.isLt
  have := b2n_le o.la
  have := o.b.isLt
  have := b2n_le o.lb
  refine word_ok (F := fun q => okIf (isZero q 0 8) (.swm (dSS q)))
      rfl (by decide) (fun _ => rfl) (by simp only [eSS]; omega) fun _ => ?_
  refine okIf_eq (isZero_eq (by simp only [wordOf, eSS]; omega)) ?_
  rw [dSS_word _ _]
theorem sidle (a : SReg) (la : Bool) : Statement (.sidle a la) := by
  have := a.isLt
  have := b2n_le la
  refine word_ok (F := fun q => okIf (isZero q 0 14) (.sidle (fld q 15 5) (bitB q 14)))
      rfl (by decide) (fun _ => rfl) (by omega) fun _ => ?_
  refine okIf_eq (isZero_eq (by simp only [wordOf]; omega)) ?_
  rw [fld_eq (x := a) (by simp only [wordOf]; omega), bitB_eq (b := la) (by simp only [wordOf]; omega)]
theorem spub (o : OpSS) : Statement (.spub o) := by
  have := o.a.isLt
  have := b2n_le o.la
  have := o.b.isLt
  have := b2n_le o.lb
  refine word_ok (F := fun q => okIf (isZero q 0 8) (.spub (dSS q)))
      rfl (by decide) (fun _ => rfl) (by simp only [eSS]; omega) fun _ => ?_
  refine okIf_eq (isZero_eq (by simp only [wordOf, eSS]; omega)) ?_
  rw [dSS_word _ _]
theorem sread (d : SReg) (a : SReg) (la : Bool) : Statement (.sread d a la) := by
  have := d.isLt
  have := a.isLt
  have := b2n_le la
  refine word_ok (F := fun q => okIf (isZero q 0 9) (.sread (fld q 15 5) (fld q 10 5) (bitB q 9)))
      rfl (by decide) (fun _ => rfl) (by omega) fun _ => ?_
  refine okIf_eq (isZero_eq (by simp only [wordOf]; omega)) ?_
  rw [fld_eq (x := d) (by simp only [wordOf]; omega), fld_eq (x := a) (by simp only [wordOf]; omega),
      bitB_eq (b := la) (by simp only [wordOf]; omega)]
theorem tlbw (x : XReg) (a : SReg) : Statement (.tlbw x a) := by
  have := x.isLt
  have := a.isLt
  refine word_ok (F := fun q => okIf (isZero q 15 2 && isZero q 0 10) (.tlbw (fld q 17 3) (fld q 10 5)))
      rfl (by decide) (fun _ => rfl) (by omega) fun _ => ?_
  refine okIf_eq (and_t (isZero_eq (by simp only [wordOf]; omega)) (isZero_eq (by simp only [wordOf]; omega))) ?_
  rw [fld_eq (x := x) (by simp only [wordOf]; omega), fld_eq (x := a) (by simp only [wordOf]; omega)]
theorem tlbi (a : SReg) (b : SReg) (m : TlbiMode) : Statement (.tlbi a b m) := by
  have := a.isLt
  have := b.isLt
  have := tlbiOf_le m
  refine word_ok (F := fun q => 
    match tlbiOf (fldN q 8 2) with
      | some m => okIf (isZero q 0 8) (.tlbi (fld q 15 5) (fld q 10 5) m)
      | none => .error .reserved) rfl (by decide) (fun _ => rfl) (by omega) fun _ => ?_
  rw [fldN_eq (n := m.code) (by simp only [wordOf]; omega), tlbiOf_code]
  refine okIf_eq (isZero_eq (by simp only [wordOf]; omega)) ?_
  rw [fld_eq (x := a) (by simp only [wordOf]; omega), fld_eq (x := b) (by simp only [wordOf]; omega)]
theorem privctlRd (d : SReg) (a : SReg) : Statement (.privctlRd d a) := by
  have := d.isLt
  have := a.isLt
  refine word_ok (F := fun q =>  if bitB q 4 then okIf (isZero q 15 5 && isZero q 0 4)
      (.privctlWr (fld q 10 5) (fld q 5 5)) else okIf (isZero q 5 5 && isZero q 0 4)
          (.privctlRd (fld q 15 5) (fld q 10 5))) rfl (by decide) (fun _ => rfl) (by omega) fun _ => ?_
  have hb : bitB (wordOf 250 ((d.toNat * 2 ^ 15 + a.toNat * 2 ^ 10))) 4 = false :=
    bitB_eq (show _ = 0 by simp only [wordOf]; omega)
  simp only [hb, if_true, if_false, Bool.false_eq_true]
  refine okIf_eq (and_t (isZero_eq (by simp only [wordOf]; omega)) (isZero_eq (by simp only [wordOf]; omega))) ?_
  rw [fld_eq (x := d) (by simp only [wordOf]; omega), fld_eq (x := a) (by simp only [wordOf]; omega)]
theorem privctlWr (a : SReg) (b : SReg) : Statement (.privctlWr a b) := by
  have := a.isLt
  have := b.isLt
  refine word_ok (F := fun q =>  if bitB q 4 then okIf (isZero q 15 5 && isZero q 0 4)
      (.privctlWr (fld q 10 5) (fld q 5 5)) else okIf (isZero q 5 5 && isZero q 0 4)
          (.privctlRd (fld q 15 5) (fld q 10 5))) rfl (by decide) (fun _ => rfl) (by omega) fun _ => ?_
  have hb : bitB (wordOf 250 ((a.toNat * 2 ^ 10 + b.toNat * 2 ^ 5 + 16))) 4 = true :=
    bitB_eq (show _ = 1 by simp only [wordOf]; omega)
  simp only [hb, if_true, if_false, Bool.false_eq_true]
  refine okIf_eq (and_t (isZero_eq (by simp only [wordOf]; omega)) (isZero_eq (by simp only [wordOf]; omega))) ?_
  rw [fld_eq (x := a) (by simp only [wordOf]; omega), fld_eq (x := b) (by simp only [wordOf]; omega)]
theorem halt (a : SReg) : Statement (.halt a) := by
  have := a.isLt
  refine word_ok (F := fun q => okIf (isZero q 15 5 && isZero q 0 10) (.halt (fld q 10 5)))
      rfl (by decide) (fun _ => rfl) (by omega) fun _ => ?_
  refine okIf_eq (and_t (isZero_eq (by simp only [wordOf]; omega)) (isZero_eq (by simp only [wordOf]; omega))) ?_
  rw [fld_eq (x := a) (by simp only [wordOf]; omega)]
theorem mov16 (o : OpA) : Statement (.mov16 o) :=
  opA_ok o rfl (by decide) (fun q h => by unfold decode16; rw [h]; rfl) rfl
theorem add16 (o : OpA) : Statement (.add16 o) :=
  opA_ok o rfl (by decide) (fun q h => by unfold decode16; rw [h]; rfl) rfl
theorem sub16 (o : OpA) : Statement (.sub16 o) :=
  opA_ok o rfl (by decide) (fun q h => by unfold decode16; rw [h]; rfl) rfl
theorem and16 (o : OpA) : Statement (.and16 o) :=
  opA_ok o rfl (by decide) (fun q h => by unfold decode16; rw [h]; rfl) rfl
theorem or16 (o : OpA) : Statement (.or16 o) :=
  opA_ok o rfl (by decide) (fun q h => by unfold decode16; rw [h]; rfl) rfl
theorem xor16 (o : OpA) : Statement (.xor16 o) :=
  opA_ok o rfl (by decide) (fun q h => by unfold decode16; rw [h]; rfl) rfl
theorem shl16 (o : OpA) : Statement (.shl16 o) :=
  opA_ok o rfl (by decide) (fun q h => by unfold decode16; rw [h]; rfl) rfl
theorem shr16 (o : OpA) : Statement (.shr16 o) :=
  opA_ok o rfl (by decide) (fun q h => by unfold decode16; rw [h]; rfl) rfl
theorem sar16 (o : OpA) : Statement (.sar16 o) :=
  opA_ok o rfl (by decide) (fun q h => by unfold decode16; rw [h]; rfl) rfl
theorem lds16 (o : OpA) : Statement (.lds16 o) :=
  opA_ok o rfl (by decide) (fun q h => by unfold decode16; rw [h]; rfl) rfl
theorem sts16 (o : OpA) : Statement (.sts16 o) :=
  opA_ok o rfl (by decide) (fun q h => by unfold decode16; rw [h]; rfl) rfl
theorem take (o : OpA) : Statement (.take o) :=
  opA_ok o rfl (by decide) (fun q h => by unfold decode16; rw [h]; rfl) rfl
theorem movi16 (d : SReg) (imm : BitVec 5) : Statement (.movi16 d imm) :=
  ri5_ok d imm rfl (by decide) (fun q h => by unfold decode16; rw [h]; rfl) rfl
theorem addi16 (d : SReg) (imm : BitVec 5) : Statement (.addi16 d imm) :=
  ri5_ok d imm rfl (by decide) (fun q h => by unfold decode16; rw [h]; rfl) rfl
theorem shli16 (d : SReg) (cnt : BitVec 4) : Statement (.shli16 d cnt) :=
  shift16_ok d cnt rfl (by decide) (fun q h => by unfold decode16; rw [h]; rfl) rfl
theorem shri16 (d : SReg) (cnt : BitVec 4) : Statement (.shri16 d cnt) :=
  shift16_ok d cnt rfl (by decide) (fun q h => by unfold decode16; rw [h]; rfl) rfl
theorem sari16 (d : SReg) (cnt : BitVec 4) : Statement (.sari16 d cnt) :=
  shift16_ok d cnt rfl (by decide) (fun q h => by unfold decode16; rw [h]; rfl) rfl
theorem andi16 (d : SReg) (imm : BitVec 5) : Statement (.andi16 d imm) :=
  ri5_ok d imm rfl (by decide) (fun q h => by unfold decode16; rw [h]; rfl) rfl
theorem ldsSp (d : SReg) (imm : BitVec 5) : Statement (.ldsSp d imm) :=
  ri5_ok d imm rfl (by decide) (fun q h => by unfold decode16; rw [h]; rfl) rfl
theorem stsSp (d : SReg) (imm : BitVec 5) : Statement (.stsSp d imm) :=
  ri5_ok d imm rfl (by decide) (fun q h => by unfold decode16; rw [h]; rfl) rfl
theorem brS (off : BitVec 10) : Statement (.brS off) := by
  have := off.isLt
  have hop : fldN ((0x18 * 2 ^ 10 + off.toNat)) 10 5 = 24 := fldN_eq (by omega)
  refine half_ok rfl (by omega) ?_
  unfold decode16
  rw [hop]
  refine okIf_eq rfl ?_
  rw [fld_eq (x := off) (by omega)]
theorem callS (off : BitVec 10) : Statement (.callS off) := by
  have := off.isLt
  have hop : fldN ((0x19 * 2 ^ 10 + off.toNat)) 10 5 = 25 := fldN_eq (by omega)
  refine half_ok rfl (by omega) ?_
  unfold decode16
  rw [hop]
  refine okIf_eq rfl ?_
  rw [fld_eq (x := off) (by omega)]
theorem bqt (q : QReg) (off : BitVec 7) : Statement (.bqt q off) := by
  have := q.isLt
  have := off.isLt
  have hop : fldN ((0x1A * 2 ^ 10 + q.toNat * 2 ^ 7 + off.toNat)) 10 5 = 26 := fldN_eq (by omega)
  refine half_ok rfl (by omega) ?_
  unfold decode16
  rw [hop]
  refine okIf_eq rfl ?_
  rw [fld_eq (x := q) (by omega), fld_eq (x := off) (by omega)]
theorem bqf (q : QReg) (off : BitVec 7) : Statement (.bqf q off) := by
  have := q.isLt
  have := off.isLt
  have hop : fldN ((0x1B * 2 ^ 10 + q.toNat * 2 ^ 7 + off.toNat)) 10 5 = 27 := fldN_eq (by omega)
  refine half_ok rfl (by omega) ?_
  unfold decode16
  rw [hop]
  refine okIf_eq rfl ?_
  rw [fld_eq (x := q) (by omega), fld_eq (x := off) (by omega)]
theorem bqu (q : QReg) (off : BitVec 7) : Statement (.bqu q off) := by
  have := q.isLt
  have := off.isLt
  have hop : fldN ((0x1C * 2 ^ 10 + q.toNat * 2 ^ 7 + off.toNat)) 10 5 = 28 := fldN_eq (by omega)
  refine half_ok rfl (by omega) ?_
  unfold decode16
  rw [hop]
  refine okIf_eq rfl ?_
  rw [fld_eq (x := q) (by omega), fld_eq (x := off) (by omega)]
theorem empty (n : SReg) : Statement (.empty n) := by
  have := n.isLt
  have hop : fldN ((eSys 10 n.toNat)) 10 5 = 31 := fldN_eq (by simp only [eSys]; omega)
  have hs : fldN ((eSys 10 n.toNat)) 5 5 = 10 := fldN_eq (by simp only [eSys]; omega)
  refine half_ok rfl (by simp only [eSys]; omega) ?_
  unfold decode16
  rw [hop]
  show decSys _ = _
  unfold decSys
  rw [hs]
  refine okIf_eq rfl ?_
  rw [fld_eq (x := n) (by simp only [eSys]; omega)]
theorem qwait16 (set : BitVec 4) : Statement (.qwait16 set) := by
  have := set.isLt
  have hop : fldN ((eSys 11 set.toNat)) 10 5 = 31 := fldN_eq (by simp only [eSys]; omega)
  have hs : fldN ((eSys 11 set.toNat)) 5 5 = 11 := fldN_eq (by simp only [eSys]; omega)
  refine half_ok rfl (by simp only [eSys]; omega) ?_
  unfold decode16
  rw [hop]
  show decSys _ = _
  unfold decSys
  rw [hs]
  refine okIf_eq (isZero_eq (by simp only [eSys]; omega)) ?_
  rw [fld_eq (x := set) (by simp only [eSys]; omega)]
theorem nop : Statement (.nop) := half_ok rfl (by decide) (by decide)
theorem ret : Statement (.ret) := half_ok rfl (by decide) (by decide)
theorem exit : Statement (.exit) := half_ok rfl (by decide) (by decide)
theorem yield : Statement (.yield) := half_ok rfl (by decide) (by decide)
theorem bar : Statement (.bar) := half_ok rfl (by decide) (by decide)
theorem waitred : Statement (.waitred) := half_ok rfl (by decide) (by decide)
theorem fence : Statement (.fence) := half_ok rfl (by decide) (by decide)
theorem npclr : Statement (.npclr) := half_ok rfl (by decide) (by decide)
theorem upret : Statement (.upret) := half_ok rfl (by decide) (by decide)
theorem upretSkip : Statement (.upretSkip) := half_ok rfl (by decide) (by decide)
theorem snap : Statement (.snap) := half_ok rfl (by decide) (by decide)
theorem snapt : Statement (.snapt) := word_ok rfl (by decide) (fun _ => rfl) (by decide) (fun _ => by decide)
theorem fenceSCore : Statement (.fenceSCore) := word_ok rfl (by decide) (fun _ => rfl) (by decide) (fun _ => by decide)
theorem fenceSSg : Statement (.fenceSSg) := word_ok rfl (by decide) (fun _ => rfl) (by decide) (fun _ => by decide)
theorem fenceSDie : Statement (.fenceSDie) := word_ok rfl (by decide) (fun _ => rfl) (by decide) (fun _ => by decide)
theorem fenceSPkg : Statement (.fenceSPkg) := word_ok rfl (by decide) (fun _ => rfl) (by decide) (fun _ => by decide)
theorem gunb0 : Statement (.gunb0) := word_ok rfl (by decide) (fun _ => rfl) (by decide) (fun _ => by decide)
theorem gunb1 : Statement (.gunb1) := word_ok rfl (by decide) (fun _ => rfl) (by decide) (fun _ => by decide)
theorem gunb2 : Statement (.gunb2) := word_ok rfl (by decide) (fun _ => rfl) (by decide) (fun _ => by decide)
theorem gunb3 : Statement (.gunb3) := word_ok rfl (by decide) (fun _ => rfl) (by decide) (fun _ => by decide)
theorem gunb4 : Statement (.gunb4) := word_ok rfl (by decide) (fun _ => rfl) (by decide) (fun _ => by decide)
theorem gunb5 : Statement (.gunb5) := word_ok rfl (by decide) (fun _ => rfl) (by decide) (fun _ => by decide)
theorem gunb6 : Statement (.gunb6) := word_ok rfl (by decide) (fun _ => rfl) (by decide) (fun _ => by decide)
theorem gunb7 : Statement (.gunb7) := word_ok rfl (by decide) (fun _ => rfl) (by decide) (fun _ => by decide)
theorem mrot0 : Statement (.mrot0) := word_ok rfl (by decide) (fun _ => rfl) (by decide) (fun _ => by decide)
theorem mrot1 : Statement (.mrot1) := word_ok rfl (by decide) (fun _ => rfl) (by decide) (fun _ => by decide)
theorem mrot2 : Statement (.mrot2) := word_ok rfl (by decide) (fun _ => rfl) (by decide) (fun _ => by decide)
theorem mrot3 : Statement (.mrot3) := word_ok rfl (by decide) (fun _ => rfl) (by decide) (fun _ => by decide)
theorem mrot4 : Statement (.mrot4) := word_ok rfl (by decide) (fun _ => rfl) (by decide) (fun _ => by decide)
theorem mrot5 : Statement (.mrot5) := word_ok rfl (by decide) (fun _ => rfl) (by decide) (fun _ => by decide)
theorem mrot6 : Statement (.mrot6) := word_ok rfl (by decide) (fun _ => rfl) (by decide) (fun _ => by decide)
theorem mrot7 : Statement (.mrot7) := word_ok rfl (by decide) (fun _ => rfl) (by decide) (fun _ => by decide)
theorem powerOnReset : Statement (.powerOnReset) := fun _ => rfl
theorem pkgRstWarm : Statement (.pkgRstWarm) := fun _ => rfl
theorem pkgRstCold : Statement (.pkgRstCold) := fun _ => rfl
theorem trainingComplete : Statement (.trainingComplete) := fun _ => rfl
theorem attestationRequest : Statement (.attestationRequest) := fun _ => rfl
theorem thermidorStep : Statement (.thermidorStep) := fun _ => rfl
theorem criticalTemperature : Statement (.criticalTemperature) := fun _ => rfl
theorem thermalStop : Statement (.thermalStop) := fun _ => rfl
theorem pkgIrqClear : Statement (.pkgIrqClear) := fun _ => rfl
theorem pkgPreemptWrite : Statement (.pkgPreemptWrite) := fun _ => rfl
theorem pkgSnapTrigger : Statement (.pkgSnapTrigger) := fun _ => rfl
theorem registerWrite : Statement (.registerWrite) := fun _ => rfl
theorem dspLostRead : Statement (.dspLostRead) := fun _ => rfl
theorem dspCcntRead : Statement (.dspCcntRead) := fun _ => rfl
theorem hsEccRead : Statement (.hsEccRead) := fun _ => rfl
theorem hsEvtRead : Statement (.hsEvtRead) := fun _ => rfl
theorem hsChkRead : Statement (.hsChkRead) := fun _ => rfl
theorem suCntRead : Statement (.suCntRead) := fun _ => rfl
theorem fabLostRead : Statement (.fabLostRead) := fun _ => rfl
theorem fabRefusedRead : Statement (.fabRefusedRead) := fun _ => rfl
theorem fabCnoteRead : Statement (.fabCnoteRead) := fun _ => rfl
theorem hsElideWrite : Statement (.hsElideWrite) := fun _ => rfl
theorem hsCksetWrite : Statement (.hsCksetWrite) := fun _ => rfl
theorem migrationStart : Statement (.migrationStart) := fun _ => rfl
theorem migrationSlotFree : Statement (.migrationSlotFree) := fun _ => rfl
theorem migrationUnit : Statement (.migrationUnit) := fun _ => rfl
theorem windowRegister : Statement (.windowRegister) := fun _ => rfl
theorem windowUnregister : Statement (.windowUnregister) := fun _ => rfl
theorem hostMemoryRead : Statement (.hostMemoryRead) := fun _ => rfl
theorem hostMemoryWrite : Statement (.hostMemoryWrite) := fun _ => rfl
theorem ingressRecordWrite : Statement (.ingressRecordWrite) := fun _ => rfl
theorem ingressWatermarkWrite : Statement (.ingressWatermarkWrite) := fun _ => rfl
theorem ingressIdleWrite : Statement (.ingressIdleWrite) := fun _ => rfl
theorem hostLinkDown : Statement (.hostLinkDown) := fun _ => rfl
theorem dieEdgeFailure : Statement (.dieEdgeFailure) := fun _ => rfl
theorem portDown : Statement (.portDown) := fun _ => rfl
theorem portRetrain : Statement (.portRetrain) := fun _ => rfl
theorem fabricPutArrival : Statement (.fabricPutArrival) := fun _ => rfl
theorem fabricAckArrival : Statement (.fabricAckArrival) := fun _ => rfl
theorem fabricUnitTimeout : Statement (.fabricUnitTimeout) := fun _ => rfl
theorem fabricGetRequest : Statement (.fabricGetRequest) := fun _ => rfl
theorem fabricGetUnitArrival : Statement (.fabricGetUnitArrival) := fun _ => rfl
theorem containmentNotice : Statement (.containmentNotice) := fun _ => rfl
theorem statusStore : Statement (.statusStore) := fun _ => rfl
theorem predUpdate : Statement (.predUpdate) := fun _ => rfl
theorem placementPass : Statement (.placementPass) := fun _ => rfl
theorem strandStart : Statement (.strandStart) := fun _ => rfl
theorem gangComplete : Statement (.gangComplete) := fun _ => rfl
theorem triggerFire : Statement (.triggerFire) := fun _ => rfl
theorem slotLoad : Statement (.slotLoad) := fun _ => rfl
theorem quantumYield : Statement (.quantumYield) := fun _ => rfl
theorem rotModeSwitch : Statement (.rotModeSwitch) := fun _ => rfl
theorem barrierRelease : Statement (.barrierRelease) := fun _ => rfl
theorem replyFill : Statement (.replyFill) := fun _ => rfl
theorem rfillArrival : Statement (.rfillArrival) := fun _ => rfl
theorem registerWaitExpiry : Statement (.registerWaitExpiry) := fun _ => rfl
theorem heldFillExpiry : Statement (.heldFillExpiry) := fun _ => rfl
theorem taggedRequestArrival : Statement (.taggedRequestArrival) := fun _ => rfl
theorem taggedWaitExpiry : Statement (.taggedWaitExpiry) := fun _ => rfl
theorem ldwExpiry : Statement (.ldwExpiry) := fun _ => rfl
theorem rtakeExpiry : Statement (.rtakeExpiry) := fun _ => rfl
theorem qwaitExpiry : Statement (.qwaitExpiry) := fun _ => rfl
theorem mclaimExpiry : Statement (.mclaimExpiry) := fun _ => rfl
theorem wwaitExpiry : Statement (.wwaitExpiry) := fun _ => rfl
theorem heldAccessExpiry : Statement (.heldAccessExpiry) := fun _ => rfl
theorem remoteRequestArrival : Statement (.remoteRequestArrival) := fun _ => rfl
theorem ackArrival : Statement (.ackArrival) := fun _ => rfl
theorem migrationArrival : Statement (.migrationArrival) := fun _ => rfl
theorem stewardFetchStart : Statement (.stewardFetchStart) := fun _ => rfl
theorem blockArrival : Statement (.blockArrival) := fun _ => rfl
theorem writebackEnd : Statement (.writebackEnd) := fun _ => rfl
theorem blockEvict : Statement (.blockEvict) := fun _ => rfl
theorem transitIdleEvict : Statement (.transitIdleEvict) := fun _ => rfl
theorem overflowMove : Statement (.overflowMove) := fun _ => rfl
theorem patrolFetch : Statement (.patrolFetch) := fun _ => rfl
theorem refreshDue : Statement (.refreshDue) := fun _ => rfl
theorem refreshPullForward : Statement (.refreshPullForward) := fun _ => rfl
theorem fetchReturn : Statement (.fetchReturn) := fun _ => rfl
theorem tlbMissWalk : Statement (.tlbMissWalk) := fun _ => rfl
theorem missReply : Statement (.missReply) := fun _ => rfl
theorem shootdown : Statement (.shootdown) := fun _ => rfl
theorem spanClose : Statement (.spanClose) := fun _ => rfl
theorem waitWithdrawal : Statement (.waitWithdrawal) := fun _ => rfl
theorem engineCommandStart : Statement (.engineCommandStart) := fun _ => rfl
theorem engineUnit : Statement (.engineUnit) := fun _ => rfl
theorem engineCommandComplete : Statement (.engineCommandComplete) := fun _ => rfl
theorem remoteSpWrite : Statement (.remoteSpWrite) := fun _ => rfl
theorem vldRowWrite : Statement (.vldRowWrite) := fun _ => rfl
theorem arrayOpComplete : Statement (.arrayOpComplete) := fun _ => rfl
theorem mrotTileArrival : Statement (.mrotTileArrival) := fun _ => rfl
theorem containRetryResume : Statement (.containRetryResume) := fun _ => rfl
theorem saveStart : Statement (.saveStart) := fun _ => rfl
theorem saveComplete : Statement (.saveComplete) := fun _ => rfl
theorem preemptLapse : Statement (.preemptLapse) := fun _ => rfl
theorem streamRecord : Statement (.streamRecord) := fun _ => rfl
theorem sourceWatermark : Statement (.sourceWatermark) := fun _ => rfl
theorem sourceIdle : Statement (.sourceIdle) := fun _ => rfl
theorem idleTimeout : Statement (.idleTimeout) := fun _ => rfl
theorem derivedRaise : Statement (.derivedRaise) := fun _ => rfl
theorem amendHoldExpiry : Statement (.amendHoldExpiry) := fun _ => rfl
theorem stateNotice : Statement (.stateNotice) := fun _ => rfl
theorem undefinedEncoding : Statement (.undefinedEncoding) := fun _ => rfl
theorem hostLinkTraining : Statement (.hostLinkTraining) := fun _ => rfl
theorem lifeCycleCommand : Statement (.lifeCycleCommand) := fun _ => rfl

end Sys2Proof.Laws.RoundTrip
end

