-- ==== Sys2Proof/Tests/Slice0.lean ====
section
/-! SUPPORT. Tests: ill-formed terms that `Instr.wf` refuses, words written out from the spec's encodings, single steps with the value that
the spec gives, and for each obligation states and operands that meet its hypotheses. -/

namespace Sys2Proof.Tests

open Sys2Proof Sys2Proof.Machine

set_option Elab.async false

/-! ### Ill-formed terms are refused -/

theorem test_wf_cvt : Instr.wf (.cvt (.conv .f32f64 .rdn 1 2 false)) = false := by decide
theorem test_wf_loop : Instr.wf (.loop 0 5) = false := by decide
theorem test_wf_rdid : Instr.wf (.rdid 1 19) = false := by decide
theorem test_wf_rdctl : Instr.wf (.rdctl 1 14) = false := by decide
theorem test_wf_wrctl : Instr.wf (.wrctl 1 21) = false := by decide
theorem test_wf_rfill : Instr.wf (.rfill (.s 1) 2 false (.iv 3) false) = false := by decide
theorem test_wf_vadd_fmt : Instr.wf (.vadd ⟨1, 2, 3, .t2, 0, false, false, false⟩ false) = false := by decide
theorem test_wf_vadd_sat : Instr.wf (.vadd ⟨1, 2, 3, .f32, 0, false, false, false⟩ true) = false := by decide
theorem test_wf_vfma : Instr.wf (.vfma ⟨1, 2, 3, .e2m1, 0, false, false, false⟩) = false := by decide
theorem test_wf_vmin : Instr.wf (.vmin ⟨1, 2, 3, .iv32, 0, false, false, false⟩) = false := by decide
theorem test_wf_vshl : Instr.wf (.vshl ⟨1, 2, 3, .f32, 0, false, false, false⟩) = false := by decide
theorem test_wf_vabs : Instr.wf (.vabs ⟨1, 2, .t2, 0, false, false⟩) = false := by decide
theorem test_wf_vcmp : Instr.wf (.vcmp .eq 1 2 3 .t2 0 false false) = false := by decide
theorem test_wf_vcvt : Instr.wf (.vcvt ⟨1, 2, .f32, 0, false, false⟩ .iv32) = false := by decide
theorem test_wf_vred : Instr.wf (.vred .add 1 2 .iv32 0 false) = false := by decide
theorem test_wf_vdot : Instr.wf (.vdot 1 2 3 .t2 0 false) = false := by decide
theorem test_wf_vadds : Instr.wf (.vadds ⟨1, 2, 3, false, .t2, 0, false⟩) = false := by decide
theorem test_wf_vperm : Instr.wf (.vperm ⟨1, 2, 3, .i8, 0, false, false, false⟩) = false := by decide
theorem test_wf_vbdot : Instr.wf (.vbdot 1 2 3 .f32 0 false false false) = false := by decide
theorem test_wf_vscacc : Instr.wf (.vscacc ⟨1, 2, 3, .f16, 0, false, false, false⟩) = false := by decide
theorem test_wf_vscomb : Instr.wf (.vscomb ⟨1, 2, 3, .i8, 0, false, false, false⟩) = false := by decide
theorem test_wf_vexp : Instr.wf (.vexp ⟨1, 2, .i32, 0, false, false⟩) = false := by decide
theorem test_wf_mclaim : Instr.wf (.mclaim 63 1 0) = false := by decide
theorem test_wf_mrelease : Instr.wf (.mrelease 60 4) = false := by decide
theorem test_wf_mload_fmt : Instr.wf (.mload 1 2 false .n8 .none) = false := by decide
theorem test_wf_mload_tr : Instr.wf (.mload 1 2 false .f32 .tr8) = false := by decide
theorem test_wf_mstore : Instr.wf (.mstore 1 2 3 .iv32) = false := by decide
theorem test_wf_cpy : Instr.wf (.cpy 6) = false := by decide
theorem test_wf_wpost : Instr.wf (.wpost 6) = false := by decide
theorem test_wf_tlbw : Instr.wf (.tlbw 6 1) = false := by decide
theorem test_wf_gwin : Instr.wf (.gwin 0 7) = false := by decide
theorem test_wf_rdef : Instr.wf (.rdef 0 7) = false := by decide
theorem test_wf_sbindS : Instr.wf (.sbindS 1 false 7) = false := by decide
theorem test_wf_sbindW : Instr.wf (.sbindW 1 false 5) = false := by decide
theorem test_wf_sread : Instr.wf (.sread 31 1 false) = false ∧ Instr.wf (.sread 0 1 false) = false := by decide
/-! ### Words written out from the encoding tables (R34, R40-R42, R43, R48, R49, R353, R452), one or more for each instruction -/

theorem test_decode_integer_ops_00 : ([
    (0xC007, 0x8550, .add ⟨3, 17, 10, true, false⟩), (0xC07C, 0x9B28, .sub ⟨30, 6, 25, false, true⟩),
    (0xC0AA, 0xB038, .mul ⟨21, 12, 1, true, true⟩), (0xC0D1, 0xBE00, .mulh ⟨8, 31, 16, false, false⟩),
    (0xC107, 0x8550, .mulhn ⟨3, 17, 10, true, false⟩), (0xC17C, 0x9B28, .div ⟨30, 6, 25, false, true⟩),
    (0xC1AA, 0xB038, .divn ⟨21, 12, 1, true, true⟩), (0xC1D1, 0xBE00, .rem ⟨8, 31, 16, false, false⟩),
    (0xC207, 0x8550, .remn ⟨3, 17, 10, true, false⟩), (0xC27C, 0x9B28, .and ⟨30, 6, 25, false, true⟩),
    (0xC2AA, 0xB038, .or ⟨21, 12, 1, true, true⟩), (0xC2D1, 0xBE00, .xor ⟨8, 31, 16, false, false⟩),
    (0xC307, 0x8550, .andn ⟨3, 17, 10, true, false⟩), (0xC37C, 0x9B28, .shl ⟨30, 6, 25, false, true⟩),
    (0xC3AA, 0xB038, .shr ⟨21, 12, 1, true, true⟩), (0xC3D1, 0xBE00, .sar ⟨8, 31, 16, false, false⟩)] :
    List (Nat × Nat × Instr)).all (fun e => decodeHalves (BitVec.ofNat 16 e.1) (BitVec.ofNat 16 e.2.1) = .ok (e.2.2, 4) ∧ e.2.2.wf) = true := by decide +kernel

theorem test_decode_integer_ops_10 : ([
    (0xC407, 0x8550, .rol ⟨3, 17, 10, true, false⟩), (0xC47C, 0x9B28, .min ⟨30, 6, 25, false, true⟩),
    (0xC4AA, 0xB038, .max ⟨21, 12, 1, true, true⟩), (0xC4D1, 0xBE00, .minn ⟨8, 31, 16, false, false⟩),
    (0xC507, 0x8550, .maxn ⟨3, 17, 10, true, false⟩), (0xC547, 0x8410, .clz ⟨3, 17, true⟩), (0xC5BC, 0x9800, .ctz ⟨30, 6, false⟩),
    (0xC5EA, 0xB010, .popc ⟨21, 12, true⟩), (0xC611, 0xBC00, .brev ⟨8, 31, false⟩), (0xC647, 0x8410, .bswap ⟨3, 17, true⟩),
    (0xC7FC, 0x9800, .mov ⟨30, 6, false⟩), (0xC687, 0x8550, .bfx ⟨3, 17, 10, true, false⟩),
    (0xC6FC, 0x9B28, .bfxn ⟨30, 6, 25, false, true⟩), (0xC72A, 0xB038, .bfi ⟨21, 12, 1, true, true⟩),
    (0xC751, 0xBE00, .fsh ⟨8, 31, 16, false, false⟩), (0xC787, 0x8556, .sel ⟨3, 17, 10, true, false⟩ 6)] :
    List (Nat × Nat × Instr)).all (fun e => decodeHalves (BitVec.ofNat 16 e.1) (BitVec.ofNat 16 e.2.1) = .ok (e.2.2, 4) ∧ e.2.2.wf) = true := by decide +kernel

theorem test_decode_immediates_and_predicates : ([
    (0xC807, 0x85FE, .addi ⟨3, 17, false, 510⟩), (0xC849, 0x8AAB, .andi ⟨4, 18, true, 171⟩), (0xC88B, 0x8D01, .ori ⟨5, 19, false, 257⟩),
    (0xC8CD, 0x92FF, .xori ⟨6, 20, true, 255⟩), (0xC907, 0x8425, .shli ⟨3, 17, false, 37⟩), (0xC949, 0x8A26, .shri ⟨4, 18, true, 38⟩),
    (0xC98B, 0x8C27, .sari ⟨5, 19, false, 39⟩), (0xC9E7, 0x9A3C, .movi 19 0x5A3C), (0xCA03, 0xBC18, .movh 1 0x7C18),
    (0xCA69, 0x8554, .cmp .ltn 5 17 10 true false), (0xCAAD, 0x87FF, .cmpi .lt 5 17 true 0x1FF), (0xCAD8, 0x8440, .qop 3 (.and 1 2)),
    (0xCAD8, 0x8402, .qop 3 (.not 1)), (0xCAD0, 0x8008, .qop 2 .setu), (0xCB26, 0x9400, .qtos 19 5), (0xCB69, 0x8C10, .stoq 5 19 true)] :
    List (Nat × Nat × Instr)).all (fun e => decodeHalves (BitVec.ofNat 16 e.1) (BitVec.ofNat 16 e.2.1) = .ok (e.2.2, 4) ∧ e.2.2.wf) = true := by decide +kernel

theorem test_decode_scalar_float : ([
    (0xCC07, 0x8548, .fadd ⟨3, 17, 10, false, true, .f32, .fpm⟩), (0xCC49, 0x8973, .fsub ⟨4, 18, 11, true, false, .f64, .rne⟩),
    (0xCC8B, 0x8D8D, .fmul ⟨5, 19, 12, false, true, .f64, .rdn⟩), (0xCCCD, 0x91B6, .ffma ⟨6, 20, 13, true, false, .f32, .rup⟩),
    (0xCD0F, 0x95C9, .fdiv ⟨7, 21, 14, false, true, .f64, .fpm⟩), (0xCD47, 0x8415, .fsqrt ⟨3, 17, true⟩ .f64 .rdn),
    (0xCD87, 0x8551, .fmin ⟨3, 17, 10, true, false⟩ .f64), (0xCDC7, 0x8548, .fmax ⟨3, 17, 10, false, true⟩ .f32),
    (0xCE07, 0x854B, .fsgn ⟨3, 17, 10, false, true⟩ .f64 .neg), (0xCE69, 0x854C, .fcmp .le .f32 5 17 10 false true),
    (0xCE87, 0x85B4, .cvt (.conv .f64n64 .rdn 3 17 true)), (0xCE87, 0x8750, .cvt (.toP 3 17 true)), (0xCEA6, 0x9760, .cvt (.ofP 19 5)),
    (0xCE8B, 0x8FB0, .cvt (.toK true 5 19 true)), (0xCEA6, 0x97C0, .cvt (.ofK false 19 5)), (0xCEC7, 0x8411, .fclass ⟨3, 17, true⟩ .f64)] :
    List (Nat × Nat × Instr)).all (fun e => decodeHalves (BitVec.ofNat 16 e.1) (BitVec.ofNat 16 e.2.1) = .ok (e.2.2, 4) ∧ e.2.2.wf) = true := by decide +kernel

theorem test_decode_intervals : ([
    (0xD01B, 0x8550, .imake 13 17 10 true false), (0xD062, 0xA400, .ilo ⟨17, 9, false⟩), (0xD0A4, 0xA810, .ihi ⟨18, 10, true⟩),
    (0xD0E0, 0x9F40, .iadd ⟨8, 1, 15, false, true⟩), (0xD124, 0xAE80, .isub ⟨9, 2, 14, true, false⟩),
    (0xD168, 0xBD40, .imul ⟨10, 3, 13, false, true⟩), (0xD1AD, 0x8C80, .idiv ⟨11, 4, 12, true, false⟩),
    (0xD331, 0x9B40, .imin ⟨12, 5, 11, false, true⟩), (0xD375, 0xAA80, .imax ⟨13, 6, 10, true, false⟩),
    (0xD3B9, 0xB940, .ihull ⟨14, 7, 9, false, true⟩), (0xD3FE, 0x8880, .imeet ⟨15, 8, 8, true, false⟩),
    (0xD1E5, 0xA000, .isqr ⟨9, 6, false⟩), (0xD229, 0xB080, .isqrt ⟨10, 7, true⟩), (0xD26E, 0x8000, .iexp ⟨11, 8, false⟩),
    (0xD2B2, 0x9080, .ilog ⟨12, 9, true⟩), (0xD2F6, 0xA000, .irelu ⟨13, 10, false⟩)] :
    List (Nat × Nat × Instr)).all (fun e => decodeHalves (BitVec.ofNat 16 e.1) (BitVec.ofNat 16 e.2.1) = .ok (e.2.2, 4) ∧ e.2.2.wf) = true := by decide +kernel

theorem test_decode_intervals_and_contractors : ([
    (0xD426, 0xAC00, .iwid ⟨19, 11, false⟩), (0xD468, 0xB010, .imid ⟨20, 12, true⟩), (0xD4FA, 0xB080, .imov ⟨14, 11, true⟩),
    (0xD4A8, 0xA5CB, .icmp (.sub 14 true) 5 9 false), (0xD4A8, 0xA415, .icmp .emp 5 9 true), (0xD51A, 0xA6A8, .iscale 13 9 21 false true),
    (0xD568, 0x8000, .npq 5), (0xD620, 0x9F00, .cadd ⟨8, 1, 15, false⟩), (0xD664, 0xAE80, .csub ⟨9, 2, 14, true⟩),
    (0xD6A8, 0xBD00, .cmul ⟨10, 3, 13, false⟩), (0xD6ED, 0x8C80, .cdiv ⟨11, 4, 12, true⟩), (0xD7F1, 0x9B00, .cmax ⟨12, 5, 11, false⟩),
    (0xD720, 0x8F00, .csqr ⟨8, 15, false⟩), (0xD764, 0x8E80, .cexp ⟨9, 14, true⟩), (0xD7A8, 0x8D00, .crelu ⟨10, 13, false⟩)] :
    List (Nat × Nat × Instr)).all (fun e => decodeHalves (BitVec.ofNat 16 e.1) (BitVec.ofNat 16 e.2.1) = .ok (e.2.2, 4) ∧ e.2.2.wf) = true := by decide +kernel

theorem test_decode_control : ([
    (0xD823, 0x85A3, .br 0x8C5A3), (0xD84D, 0x9A7C, .call 0x35A7C), (0xD881, 0x87F0, .jr 17 true 0x1F0),
    (0xD8C0, 0xA8F3, .callr 10 false 0x0F3), (0xD92D, 0x9A3C, .bq .u 5 0x5A3C), (0xD91E, 0x8001, .bq .nt 3 1),
    (0xD967, 0xBFFD, .loop 19 0x7FFD), (0xD980, 0x8005, .trap 5), (0xD9E6, 0xAB01, .setvl 19 10 true 0x101), (0xDA26, 0x8012, .rdid 19 18),
    (0xDA66, 0x800D, .rdctl 19 13), (0xDABC, 0x8005, .wrctl 30 5)] :
    List (Nat × Nat × Instr)).all (fun e => decodeHalves (BitVec.ofNat 16 e.1) (BitVec.ofNat 16 e.2.1) = .ok (e.2.2, 4) ∧ e.2.2.wf) = true := by decide +kernel

theorem test_decode_scratchpad_and_sync : ([
    (0xDC07, 0xB4A1, .ldsB ⟨3, 29, false, 161⟩), (0xDC49, 0xB3F3, .ldsH ⟨4, 28, true, 499⟩), (0xDC8B, 0xACAB, .ldsW ⟨5, 27, false, 171⟩),
    (0xDCCD, 0xABF9, .ldsD ⟨6, 26, true, 505⟩), (0xDD0F, 0xA4B5, .stsB ⟨7, 25, false, 181⟩), (0xDD51, 0xA3FF, .stsH ⟨8, 24, true, 511⟩),
    (0xDD93, 0x9CBF, .stsW ⟨9, 23, false, 191⟩), (0xDDD5, 0x9A05, .stsD ⟨10, 22, true, 5⟩), (0xDE0E, 0x8428, .tlds ⟨7, 1, 40⟩),
    (0xDE47, 0x8BFF, .tsts ⟨3, 18, 0x3FF⟩), (0xDE81, 0x8800, .tstr 18), (0xDECA, 0x8880, .rfill (.s 5) 2 false (.s 4) false),
    (0xDEDB, 0x88D1, .rfill (.iv 13) 18 true (.iv 6) false), (0xDF0A, 0x8028, .waitf (.s 5) 40), (0xDF1A, 0x86A5, .waitf (.iv 13) 0x2A5),
    (0xDF50, 0x8400, .barOr 2 1), (0xDF58, 0x8001, .barNp 3), (0xDFA9, 0x8E00, .xset 5 19 true), (0xDFE7, 0x9000, .xget 19 5)] :
    List (Nat × Nat × Instr)).all (fun e => decodeHalves (BitVec.ofNat 16 e.1) (BitVec.ofNat 16 e.2.1) = .ok (e.2.2, 4) ∧ e.2.2.wf) = true := by decide +kernel

theorem test_decode_memory_80 : ([
    (0xE017, 0x94C9, .ldB ⟨11, 21, false, 201⟩), (0xE059, 0x920B, .ldH ⟨12, 20, true, 11⟩), (0xE09B, 0x8CD3, .ldW ⟨13, 19, false, 211⟩),
    (0xE0DD, 0x8A11, .ldD ⟨14, 18, true, 17⟩), (0xE11F, 0x84DD, .ldAcq ⟨15, 17, false, 221⟩), (0xE1A1, 0x8217, .stB ⟨16, 16, true, 23⟩),
    (0xE1E2, 0xBCE7, .stH ⟨17, 15, false, 231⟩), (0xE224, 0xBA1D, .stW ⟨18, 14, true, 29⟩), (0xE266, 0xB4F1, .stD ⟨19, 13, false, 241⟩),
    (0xE2A8, 0xB223, .stRel ⟨20, 12, true, 35⟩), (0xE2DB, 0x97F0, .ild ⟨13, 21, true, 0x1F0⟩),
    (0xE30D, 0x94A5, .ist ⟨6, 21, false, 0x0A5⟩), (0xE16B, 0x8AA5, .ldw ⟨21, 18, 0x2A5⟩),
    (0xE347, 0x8556, .amo .swap ⟨3, 17, 10, true, false⟩), (0xE347, 0x8549, .amo .and ⟨3, 17, 10, false, true⟩),
    (0xE387, 0x8550, .cas ⟨3, 17, 10, true, false⟩), (0xE3C1, 0x854E, .red .fadd 17 10 false true)] :
    List (Nat × Nat × Instr)).all (fun e => decodeHalves (BitVec.ofNat 16 e.1) (BitVec.ofNat 16 e.2.1) = .ok (e.2.2, 4) ∧ e.2.2.wf) = true := by decide +kernel

theorem test_decode_memory_90 : ([
    (0xE428, 0xA697, .vld ⟨5, 19, false, .f16, 3, true⟩), (0xE460, 0xA9D8, .vst ⟨4, 20, true, .t2, 4, false⟩),
    (0xE481, 0x8400, .migr 17 false), (0xE4C1, 0x8A00, .bwant 18 true), (0xE501, 0x8C00, .bkeep 19 false),
    (0xE541, 0x9200, .bfree 20 true), (0xE581, 0x8548, .bcopy 17 10 false true), (0xE581, 0x8411, .bcopyZero 17 true),
    (0xE5C0, 0x8000, .fenceSCore), (0xE5C0, 0x8001, .fenceSSg), (0xE5C0, 0x8002, .fenceSDie), (0xE5C0, 0x8003, .fenceSPkg)] :
    List (Nat × Nat × Instr)).all (fun e => decodeHalves (BitVec.ofNat 16 e.1) (BitVec.ofNat 16 e.2.1) = .ok (e.2.2, 4) ∧ e.2.2.wf) = true := by decide +kernel

theorem test_decode_vector_A0 : ([
    (0xE82A, 0xB8B9, .vadd ⟨5, 2, 7, .i16, 3, true, false, false⟩ true),
    (0xE86B, 0xB3C4, .vsub ⟨5, 3, 6, .f32, 4, false, true, false⟩ false),
    (0xE8AC, 0xAA53, .vmul ⟨5, 4, 5, .n8, 5, false, false, true⟩ true), (0xE8EA, 0xBC18, .vfma ⟨5, 2, 7, .bf16, 1, true, false, false⟩),
    (0xE92B, 0xB4A4, .vmin ⟨5, 3, 6, .f16, 2, false, true, false⟩), (0xE96C, 0xA9B2, .vmax ⟨5, 4, 5, .i64, 3, false, false, true⟩),
    (0xE9AD, 0xBEC8, .vand ⟨5, 5, 7, .t2, 4, true, false, false⟩), (0xE9EA, 0xB054, .vor ⟨5, 2, 6, .i8, 5, false, true, false⟩),
    (0xEA2B, 0xAF12, .vxor ⟨5, 3, 5, .iv32, 1, false, false, true⟩), (0xEA6C, 0xB928, .vshl ⟨5, 4, 7, .i32, 2, true, false, false⟩),
    (0xEAAD, 0xB2B4, .vshr ⟨5, 5, 6, .n16, 3, false, true, false⟩), (0xEAEA, 0xA8C2, .vsar ⟨5, 2, 5, .i16, 4, false, false, true⟩),
    (0xEBEB, 0xBD58, .vsel ⟨5, 3, 7, .e4m3, 5, true, false, false⟩), (0xEB2A, 0x8094, .vabs ⟨5, 2, .i16, 1, false, true⟩),
    (0xEB63, 0x83A8, .vneg ⟨4, 3, .f32, 2, true, false⟩), (0xEBAA, 0x9BB9, .vcvt ⟨5, 2, .f32, 3, true, false⟩ .e5m2),
    (0xEB8E, 0x8E45, .vcvt ⟨1, 6, .e2m1, 4, false, true⟩ .f16)] :
    List (Nat × Nat × Instr)).all (fun e => decodeHalves (BitVec.ofNat 16 e.1) (BitVec.ofNat 16 e.2.1) = .ok (e.2.2, 4) ∧ e.2.2.wf) = true := by decide +kernel

theorem test_decode_vector_B0 : ([
    (0xECD8, 0xAA6B, .vbcast ⟨3, 21, false, .n32, 5, true⟩), (0xEDAC, 0xB314, .vperm ⟨5, 4, 6, .n32, 1, false, true, false⟩),
    (0xEE6D, 0xABA2, .vscacc ⟨5, 5, 5, .f32, 2, false, false, true⟩), (0xEEAA, 0xBDB8, .vscomb ⟨5, 2, 7, .e5m2, 3, true, false, false⟩),
    (0xEDDC, 0x8734, .vmov ⟨3, 4, .iv32, 3, false, true⟩), (0xEEED, 0x84C8, .vexp ⟨5, 5, .f16, 4, true, false⟩),
    (0xEF26, 0x8454, .vrcp ⟨4, 6, .bf16, 5, false, true⟩), (0xEF5A, 0x83E8, .vrsq ⟨3, 2, .f32, 6, true, false⟩),
    (0xEFAB, 0x8494, .vtanh ⟨5, 3, .f16, 1, false, true⟩), (0xEC2A, 0xB2B5, .vcmp .ne 5 2 6 .n16 3 true false),
    (0xEC2A, 0xB4BA, .vcmp .lt 5 2 6 .f16 3 false true), (0xEC67, 0x9274, .vred .or 19 5 .i32 3 true),
    (0xECA7, 0x9A76, .vdot 19 5 6 .e4m3 3 true), (0xED2A, 0xA776, .vadds ⟨5, 2, 19, true, .f32, 3, false⟩),
    (0xED55, 0x940D, .vmuls ⟨2, 5, 10, false, .i8, 6, true⟩), (0xEE2A, 0xB650, .vbdot 5 2 6 .e2m1 2 true false false),
    (0xEE1C, 0x8C24, .vbdot 3 4 1 .bf16 1 false false true)] :
    List (Nat × Nat × Instr)).all (fun e => decodeHalves (BitVec.ofNat 16 e.1) (BitVec.ofNat 16 e.2.1) = .ok (e.2.2, 4) ∧ e.2.2.wf) = true := by decide +kernel

theorem test_decode_vector_interval : ([
    (0xF02A, 0xBF18, .viadd ⟨5, 2, 7, 1, true, false, false⟩), (0xF06B, 0xB724, .visub ⟨5, 3, 6, 2, false, true, false⟩),
    (0xF0AC, 0xAF32, .vimul ⟨5, 4, 5, 3, false, false, true⟩), (0xF12D, 0xBF48, .vihull ⟨5, 5, 7, 4, true, false, false⟩),
    (0xF16A, 0xB754, .vimeet ⟨5, 2, 6, 5, false, true, false⟩), (0xF1EB, 0xAF12, .vimake ⟨5, 3, 5, 1, false, false, true⟩),
    (0xF22C, 0xBF28, .vcadd ⟨5, 4, 7, 2, true, false, false⟩), (0xF26D, 0xB734, .vcmul ⟨5, 5, 6, 3, false, true, false⟩),
    (0xF0EA, 0x8738, .virelu 5 2 3 true false), (0xF19B, 0x9E76, .vidot 13 5 6 3 true), (0xF2A8, 0x9738, .vcrelu 5 2 3 true false)] :
    List (Nat × Nat × Instr)).all (fun e => decodeHalves (BitVec.ofNat 16 e.1) (BitVec.ofNat 16 e.2.1) = .ok (e.2.2, 4) ∧ e.2.2.wf) = true := by decide +kernel

theorem test_decode_matrix : ([
    (0xF42D, 0xA6A5, .mclaim 45 9 0x2A5), (0xF46D, 0xA400, .mrelease 45 9), (0xF4AD, 0xA7A4, .mload 45 19 true .e4m3 .tr8),
    (0xF492, 0x9498, .mload 18 10 false .f16 .tr16), (0xF4E7, 0x9AA7, .mstore 19 45 10 .f32), (0xF52D, 0xA000, .mzero 45 true),
    (0xF56D, 0x9295, .mma 45 18 37 true), (0xF552, 0xAD68, .mma 18 45 26 false), (0xF580, 0x8000, .mrot0), (0xF588, 0x8000, .mrot1),
    (0xF590, 0x8000, .mrot2), (0xF598, 0x8000, .mrot3), (0xF5A0, 0x8000, .mrot4), (0xF5A8, 0x8000, .mrot5), (0xF5B0, 0x8000, .mrot6),
    (0xF5B8, 0x8000, .mrot7)] :
    List (Nat × Nat × Instr)).all (fun e => decodeHalves (BitVec.ofNat 16 e.1) (BitVec.ofNat 16 e.2.1) = .ok (e.2.2, 4) ∧ e.2.2.wf) = true := by decide +kernel

theorem test_decode_engine : ([
    (0xF828, 0x8000, .cpy 5), (0xF824, 0x8000, .cpyG 4), (0xFA58, 0x8000, .wpost 3), (0xFA54, 0x8000, .wpostG 2),
    (0xF85E, 0x8000, .gwin 3 6), (0xF880, 0x8000, .gunb0), (0xF888, 0x8000, .gunb1), (0xF890, 0x8000, .gunb2), (0xF898, 0x8000, .gunb3),
    (0xF8A0, 0x8000, .gunb4), (0xF8A8, 0x8000, .gunb5), (0xF8B0, 0x8000, .gunb6), (0xF8B8, 0x8000, .gunb7), (0xF8F6, 0xA000, .rdef 13 5),
    (0xF8F4, 0x9000, .rdefOff 13), (0xF935, 0x8E00, .rpostD 13 19 true), (0xF91A, 0xA800, .rpostF 6 10 false),
    (0xF967, 0xAAA5, .rtakeD 19 13 0x2A5), (0xF954, 0xB55A, .rtakeF 10 6 0x15A), (0xF9B5, 0xA000, .qfence 13 6),
    (0xF9C0, 0xB6A5, .qwait 13 0x2A5), (0xFA16, 0xA3C7, .ckpt 0x5A3C7), (0xFAA6, 0xAAA5, .wwait 19 10 0x2A5)] :
    List (Nat × Nat × Instr)).all (fun e => decodeHalves (BitVec.ofNat 16 e.1) (BitVec.ofNat 16 e.2.1) = .ok (e.2.2, 4) ∧ e.2.2.wf) = true := by decide +kernel

theorem test_decode_stream_and_system : ([
    (0xFC21, 0x9400, .sbindOffS 21 false), (0xFC31, 0x9A00, .sbindOffW 22 true), (0xFC0D, 0x8E00, .sbindS 19 true 6),
    (0xFC18, 0xA800, .sbindW 10 false 4), (0xFC66, 0x9500, .semit ⟨19, false, 10, true⟩), (0xFCA9, 0x9200, .swm ⟨20, true, 9, false⟩),
    (0xFD2A, 0x9100, .spub ⟨21, false, 8, true⟩), (0xFCE7, 0x8000, .sidle 19 true), (0xFD66, 0xAA00, .sread 19 10 true),
    (0xFE29, 0x8800, .tlbw 5 18), (0xFE64, 0x9600, .tlbi 18 5 .all), (0xFE44, 0x8C00, .tlbi 2 3 .va), (0xFEAB, 0x8800, .privctlRd 21 18),
    (0xFE81, 0x88B0, .privctlWr 18 5), (0xFEC0, 0x8000, .snapt), (0xFF01, 0x9000, .halt 20)] :
    List (Nat × Nat × Instr)).all (fun e => decodeHalves (BitVec.ofNat 16 e.1) (BitVec.ofNat 16 e.2.1) = .ok (e.2.2, 4) ∧ e.2.2.wf) = true := by decide +kernel

theorem test_decode_sixteen_bit : ([
    (0x007C, 0, .mov16 ⟨3, 28⟩), (0x04BB, 0, .add16 ⟨5, 27⟩), (0x08FA, 0, .sub16 ⟨7, 26⟩), (0x0D39, 0, .and16 ⟨9, 25⟩),
    (0x1178, 0, .or16 ⟨11, 24⟩), (0x15B7, 0, .xor16 ⟨13, 23⟩), (0x19F6, 0, .shl16 ⟨15, 22⟩), (0x1E35, 0, .shr16 ⟨17, 21⟩),
    (0x2274, 0, .sar16 ⟨19, 20⟩), (0x26B3, 0, .lds16 ⟨21, 19⟩), (0x2AF2, 0, .sts16 ⟨23, 18⟩), (0x2F31, 0, .take ⟨25, 17⟩),
    (0x407F, 0, .movi16 3 31), (0x44D0, 0, .addi16 6 16), (0x492D, 0, .shli16 9 13), (0x4D86, 0, .shri16 12 6), (0x51E9, 0, .sari16 15 9),
    (0x5655, 0, .andi16 18 21), (0x5AB2, 0, .ldsSp 21 18), (0x5F1D, 0, .stsSp 24 29), (0x62A5, 0, .brS 0x2A5), (0x6409, 0, .callS 9),
    (0x6ACA, 0, .bqt 5 74), (0x6E4B, 0, .bqf 4 75), (0x71CC, 0, .bqu 3 76), (0x7C00, 0, .nop), (0x7C20, 0, .ret), (0x7C40, 0, .exit),
    (0x7C60, 0, .yield), (0x7C80, 0, .bar), (0x7CA0, 0, .waitred), (0x7CC0, 0, .fence), (0x7CE0, 0, .npclr), (0x7D00, 0, .upret),
    (0x7D01, 0, .upretSkip), (0x7D20, 0, .snap), (0x7D53, 0, .empty 19), (0x7D6D, 0, .qwait16 13)] :
    List (Nat × Nat × Instr)).all (fun e => decodeHalves (BitVec.ofNat 16 e.1) (BitVec.ofNat 16 e.2.1) = .ok (e.2.2, 2) ∧ e.2.2.wf) = true := by decide +kernel
/-- The words that the spec's own tables of examples give. -/
theorem test_decode_spec_examples_one : ([
    (0xE8D9, 0x93AE, .vfma ⟨3, 1, 2, .f32, 2, true, true, true⟩), (0xED11, 0x8E71, .vadds ⟨2, 1, 7, false, .f32, 0, true⟩),
    (0xEC48, 0x9740, .vred .add 4 1 .f32 2 false), (0xEE19, 0x9600, .vbdot 3 1 2 .e2m1 0 false false false),
    (0xEB91, 0x9381, .vcvt ⟨2, 1, .f32, 0, false, false⟩ .e4m3), (0xDE08, 0x8800, .tlds ⟨4, 2, 0⟩), (0xDE46, 0x8800, .tsts ⟨3, 2, 0⟩),
    (0xDE80, 0x8800, .tstr 2), (0xDE0E, 0x8428, .tlds ⟨7, 1, 40⟩), (0xF400, 0x8800, .mclaim 0 2 0),
    (0xF480, 0x8080, .mload 0 0 false .bf16 .none), (0xF481, 0x8988, .mload 1 4 true .bf16 .tr16), (0xF542, 0x8005, .mma 2 0 1 true),
    (0xF542, 0x8004, .mma 2 0 1 false), (0xF4CC, 0x845A, .mstore 6 2 5 .e4m3), (0xF4D0, 0x8477, .mstore 8 2 7 .f32),
    (0xF440, 0x8800, .mrelease 0 2), (0xF505, 0xA000, .mzero 5 true), (0xF588, 0x8000, .mrot1), (0xE10A, 0x8800, .ldAcq ⟨5, 2, false, 0⟩),
    (0xE14C, 0x8828, .ldw ⟨6, 2, 40⟩), (0xE286, 0x8800, .stRel ⟨3, 2, false, 0⟩), (0xE34E, 0x8860, .amo .add ⟨7, 2, 3, false, false⟩),
    (0xE38A, 0x88C0, .cas ⟨5, 2, 6, false, false⟩), (0xE3C0, 0x888E, .red .fadd 2 4 false true),
    (0xE418, 0x8471, .vld ⟨3, 2, false, .f32, 0, true⟩), (0xE480, 0x8800, .migr 2 false), (0xE580, 0x8860, .bcopy 2 3 false false),
    (0xE5C0, 0x8001, .fenceSSg), (0xF800, 0x8000, .cpy 0), (0xF81C, 0x8000, .cpyG 3), (0xF848, 0x8000, .gwin 1 0)] :
    List (Nat × Nat × Instr)).all (fun e => decodeHalves (BitVec.ofNat 16 e.1) (BitVec.ofNat 16 e.2.1) = .ok (e.2.2, 4)) = true := by decide +kernel

theorem test_decode_spec_examples_two : ([
    (0xF888, 0x8000, .gunb1), (0xF8C8, 0x8000, .rdef 2 0), (0xF90C, 0x9800, .rpostD 3 6 false), (0xF94A, 0x9800, .rtakeD 5 3 0),
    (0xF984, 0xA000, .qfence 1 2), (0xF9C0, 0x8828, .qwait 2 40), (0xFA00, 0x8000, .ckpt 0), (0xFC00, 0x8800, .sbindS 2 false 0),
    (0xFC10, 0x8C00, .sbindW 3 false 0), (0xFC48, 0x8A00, .semit ⟨4, false, 5, false⟩), (0xFC88, 0x8C00, .swm ⟨4, false, 6, false⟩),
    (0xFCC8, 0x8000, .sidle 4 false), (0xFD04, 0x8E00, .spub ⟨2, false, 7, false⟩), (0xFD50, 0x8800, .sread 8 2 false),
    (0xE4C0, 0x8800, .bwant 2 false), (0xE0D4, 0x9400, .ldD ⟨10, 5, false, 0⟩), (0xE450, 0xAE30, .vst ⟨2, 23, false, .i64, 0, false⟩),
    (0xC798, 0xB584, .sel ⟨12, 13, 12, false, false⟩ 4), (0xDAA8, 0x8004, .wrctl 20 4), (0xDE80, 0xBC00, .tstr 15),
    (0xDE36, 0xBC00, .tlds ⟨27, 15, 0⟩), (0xDE76, 0xB000, .tsts ⟨27, 12, 0⟩), (0xE3C0, 0x8EC0, .red .add 3 22 false false),
    (0xFA40, 0x8000, .wpost 0), (0xFA5C, 0x8000, .wpostG 3), (0xFA84, 0x8C28, .wwait 2 3 40), (0xFE00, 0x8800, .tlbw 0 2),
    (0xFE44, 0x8C00, .tlbi 2 3 .va), (0xFE8A, 0x8800, .privctlRd 5 2), (0xFE80, 0x8870, .privctlWr 2 3), (0xFEC0, 0x8000, .snapt),
    (0xFF00, 0x9000, .halt 4)] :
    List (Nat × Nat × Instr)).all (fun e => decodeHalves (BitVec.ofNat 16 e.1) (BitVec.ofNat 16 e.2.1) = .ok (e.2.2, 4)) = true := by decide +kernel

/-! ### Small states -/

/-- A system strand of core 0, slot 0, at address 0, and its gang. -/
def w0 : State := State.reset.place 0x7C00 0
def on (s : State) (f : Strand → Strand) : State := s.setCur (f s.cur)
/-- The strand with every `s` and `iv` register full, the `s` registers named holding the values given. -/
def regs (l : List (Nat × Nat)) (s : State) : State :=
  on s fun c => { c with
    s := l.foldl (fun v e => v.setIfInBounds e.1 (BitVec.ofNat 64 e.2)) c.s
    sFill := Vector.replicate 32 .full, ivFill := Vector.replicate 16 .full }
def ivs (l : List (Nat × Nat)) (s : State) : State :=
  on s fun c => { c with iv := l.foldl (fun v e => v.setIfInBounds e.1 (BitVec.ofNat 64 e.2)) c.iv }
def xregs (l : List (Nat × Nat)) (s : State) : State :=
  on s fun c => { c with x := l.foldl (fun v e => v.setIfInBounds e.1 (BitVec.ofNat 64 e.2)) c.x }
def pregs (l : List (Nat × Nat)) (s : State) : State :=
  on s fun c => { c with p := l.foldl (fun v e => v.setIfInBounds e.1 (BitVec.ofNat 32 e.2)) c.p }
def upCtl (f : Ctl → Ctl) (s : State) : State := on s fun c => { c with ctl := f c.ctl }
def upCore (s : State) (c : Nat) (f : Core → Core) : State := { s with cores := s.cores.set c (f (s.core c)) }
def upHome (s : State) (c : Nat) (f : Home → Home) : State := { s with homes := s.homes.set c (f (s.home c)) }
def upGang (s : State) (f : Gang → Gang) : State := { s with gangs := s.gangs.modify 0 f }
def user (s : State) : State := on s fun c => { c with ident := { c.ident with system := false } }
/-- The strand's virtual page `vpn` lies at physical address `pa`, with the permission bits given (R242). -/
def page (vpn pa bits : Nat) (s : State) : State :=
  let leaf := BitVec.ofNat 64 (pa + bits)
  let t := upCore s 0 fun k => { k with tlb := k.tlb.set vpn { tag := BitVec.ofNat 64 (2 ^ 63 + vpn * 65536), leaf := leaf, comp := 0xFFF } }
  { t with pages := t.pages.set vpn (leaf, 0xFFF) }
/-- An `s` register after an instruction. -/
def resS (i : Instr) (s : State) (d : SReg) : Option Word :=
  match exec i s with
  | .next t => some (t.cur.sVal d)
  | _ => none

/-- A `q` register after an instruction. -/
def resQ (i : Instr) (s : State) (q : QReg) : Option Tri :=
  match exec i s with
  | .next t => some (t.cur.qVal q)
  | _ => none
/-- An `iv` register after an instruction. -/
def resIv (i : Instr) (s : State) (d : IvReg) : Option Word :=
  match exec i s with
  | .next t => some (t.cur.ivVal d)
  | _ => none
/-- `ctl.fpf` after an instruction. -/
def resFl (i : Instr) (s : State) : Option (BitVec 6) :=
  match exec i s with
  | .next t => some t.cur.ctl.fpf
  | _ => none

/-- What an event leaves, read by `f`. -/
def after {α : Type} (ev : Instr) (s : State) (f : State → α) : Option α :=
  match exec ev s with
  | .next t => some (f t)
  | _ => none

/-! ### Integer and predicate instructions -/

/-- `s1` −2^63, `s2` −1, `s4` a control of position 1 and `s6` one of position 4 and width 8 (R79), `s5` a mixed pattern. -/
def sA : State := regs [(1, 0x8000000000000000), (2, 0xFFFFFFFFFFFFFFFF), (4, 0x841), (5, 0x123456789ABCDEF0), (6, 0x0804)] w0

/-- Hand calculation from R76, R77, R78 and R79: the ends of the ranges, a divisor 0 and −1, a field with its top bit set. -/
theorem test_integer_results : ([(.add ⟨3, 1, 2, false, false⟩, 0x7FFFFFFFFFFFFFFF), (.sub ⟨3, 2, 1, false, false⟩, 0x7FFFFFFFFFFFFFFF),
    (.mul ⟨3, 5, 2, false, false⟩, 0xEDCBA98765432110), (.mulh ⟨3, 2, 5, false, false⟩, 0xFFFFFFFFFFFFFFFF),
    (.mulhn ⟨3, 2, 5, false, false⟩, 0x123456789ABCDEEF), (.div ⟨3, 1, 0, false, false⟩, 0xFFFFFFFFFFFFFFFF),
    (.div ⟨3, 1, 2, false, false⟩, 0x8000000000000000), (.divn ⟨3, 5, 0, false, false⟩, 0xFFFFFFFFFFFFFFFF),
    (.rem ⟨3, 1, 2, false, false⟩, 0), (.rem ⟨3, 5, 0, false, false⟩, 0x123456789ABCDEF0), (.remn ⟨3, 2, 5, false, false⟩, 0x123456789ABCEDF),
    (.and ⟨3, 2, 5, false, false⟩, 0x123456789ABCDEF0), (.or ⟨3, 2, 5, false, false⟩, 0xFFFFFFFFFFFFFFFF),
    (.xor ⟨3, 2, 5, false, false⟩, 0xEDCBA9876543210F), (.andn ⟨3, 2, 5, false, false⟩, 0xEDCBA9876543210F),
    (.shl ⟨3, 5, 4, false, false⟩, 0x2468ACF13579BDE0), (.shr ⟨3, 1, 4, false, false⟩, 0x4000000000000000),
    (.sar ⟨3, 1, 4, false, false⟩, 0xC000000000000000), (.rol ⟨3, 1, 4, false, false⟩, 1), (.min ⟨3, 5, 1, false, false⟩, 0x8000000000000000),
    (.minn ⟨3, 5, 1, false, false⟩, 0x123456789ABCDEF0), (.max ⟨3, 5, 1, false, false⟩, 0x123456789ABCDEF0),
    (.maxn ⟨3, 5, 1, false, false⟩, 0x8000000000000000), (.clz ⟨3, 5, false⟩, 3), (.clz ⟨3, 0, false⟩, 64), (.ctz ⟨3, 5, false⟩, 4),
    (.popc ⟨3, 4, false⟩, 3), (.brev ⟨3, 1, false⟩, 1), (.bswap ⟨3, 5, false⟩, 0xF0DEBC9A78563412), (.mov ⟨3, 5, false⟩, 0x123456789ABCDEF0),
    (.bfx ⟨3, 5, 6, false, false⟩, 0xFFFFFFFFFFFFFFEF), (.bfxn ⟨3, 5, 6, false, false⟩, 0xEF), (.bfi ⟨4, 2, 6, false, false⟩, 0xFF1),
    (.fsh ⟨2, 1, 4, false, false⟩, 0xC000000000000000), (.sel ⟨3, 5, 1, false, false⟩ 0, 0x123456789ABCDEF0)] : List (Instr × Word)).all
    (fun e => resS e.1 sA (match e.1 with | .bfi o | .fsh o => o.d | _ => 3) = some e.2) = true := by decide +kernel

/-- R82 and R83, with the spec's example: `movi s1, -1` and then `movh s1, 0x7C18` give −1000. -/
theorem test_immediate_results : ([(.addi ⟨3, 2, false, 1⟩, 0), (.andi ⟨3, 5, false, 0x1F0⟩, 0x123456789ABCDEF0), (.ori ⟨3, 1, false, 0x100⟩, 0xFFFFFFFFFFFFFF00),
    (.xori ⟨3, 2, false, 0x1FF⟩, 0), (.shli ⟨3, 2, false, 63⟩, 0x8000000000000000), (.shri ⟨3, 2, false, 63⟩, 1),
    (.sari ⟨3, 1, false, 63⟩, 0xFFFFFFFFFFFFFFFF), (.movi 3 0x7FFF, 0x7FFF), (.movi16 3 31, 0xFFFFFFFFFFFFFFFF), (.mov16 ⟨3, 5⟩, 0x123456789ABCDEF0),
    (.qtos 3 0, 1)] : List (Instr × Word)).all (fun e => resS e.1 sA 3 = some e.2) = true ∧
    resS (.movh 2 0x7C18) sA 2 = some 0xFFFFFFFFFFFFFC18 := by decide +kernel

/-- R40: the short forms compute d from d and a. -/
theorem test_short_results : ([(.add16 ⟨1, 2⟩, 0x7FFFFFFFFFFFFFFF), (.sub16 ⟨1, 2⟩, 0x8000000000000001), (.and16 ⟨1, 5⟩, 0), (.or16 ⟨1, 4⟩, 0x8000000000000841),
    (.xor16 ⟨1, 2⟩, 0x7FFFFFFFFFFFFFFF), (.shl16 ⟨1, 4⟩, 0), (.shr16 ⟨1, 4⟩, 0x4000000000000000), (.sar16 ⟨1, 4⟩, 0xC000000000000000),
    (.addi16 1 16, 0x7FFFFFFFFFFFFFF0), (.andi16 1 31, 0x8000000000000000), (.shli16 1 1, 0), (.shri16 1 15, 0x1000000000000),
    (.sari16 1 15, 0xFFFF000000000000)] : List (Instr × Word)).all (fun e => resS e.1 sA 1 = some e.2) = true := by decide +kernel

/-- R84, R85 and R86: −2^63 is below −1 only as unsigned numbers differ; U AND F is F, and U XOR T is U. -/
theorem test_predicate_results : ([(.cmp .lt 1 5 1 false false, .f), (.cmp .ltn 1 5 1 false false, .t), (.cmp .bits 1 1 5 false false, .f),
    (.cmp .le 1 1 1 false false, .t), (.cmpi .lt 1 2 false 0, .t), (.cmpi .ltn 1 2 false 0x1FF, .f), (.cmpi .eq 1 2 false 0x1FF, .t),
    (.qop 1 (.and 2 3), .f), (.qop 1 (.or 2 3), .u), (.qop 1 (.xor 2 0), .u), (.qop 1 (.not 2), .u), (.qop 1 (.known 2), .f), (.qop 1 .setu, .u),
    (.qop 0 .setf, .t), (.stoq 1 2 false, .u), (.stoq 1 4 false, .t)] : List (Instr × Tri)).all
    (fun e => resQ e.1 (on sA fun c => { c with q := (c.q.set 2 .u).set 3 .f }) (match e.1 with | .qop d _ => d | _ => 1) = some e.2) = true := by
  decide +kernel

theorem wit_IntegerResults : Spec.int2.isEmpty = false ∧ sA.cur.sState 1 = .full ∧ sA.cur.sState 0 = .full ∧ sA.cur.sState 31 ≠ .pending := by
  decide +kernel

/-- A state whose `s` and `iv` registers are full meets the hypotheses of each of these statements, whatever the operands. -/
theorem wit_IntegerResults_others : Spec.int1.isEmpty = false ∧ sA.cur.sState 1 = .full ∧ sA.cur.sState 0 = .full ∧ sA.cur.sState 31 = .full ∧
    sA.cur.sState 3 ≠ .pending := by decide +kernel
theorem wit_ImmediateAndShortFormResults : Spec.intImm.isEmpty = false ∧ Spec.intShift.isEmpty = false ∧ Spec.short2.isEmpty = false ∧
    sA.cur.sState 1 = .full ∧ sA.cur.sState 0 = .full ∧ sA.cur.sState 31 = .full ∧ sA.cur.sState 3 ≠ .pending := by decide +kernel
theorem wit_PredicateResults : sA.cur.sState 1 = .full ∧ sA.cur.sState 0 = .full ∧ sA.cur.sState 31 ≠ .pending := by decide +kernel

/-! ### Floating point -/

/-- `s1` 1, `s2` 2, `s4` 3 in F32, `s5` 2^63 in F64, `s6` −0, `s7` +0, `s8` a signalling NaN, `s9` +Inf, `s10` 449 in F32, `s11` −1. -/
def sF : State := regs [(1, 0x3F800000), (2, 0x40000000), (4, 0x40400000), (5, 0x43E0000000000000), (6, 0x80000000), (7, 0), (8, 0x7F800001),
  (9, 0x7F800000), (10, 0x43E08000), (11, 0xBF800000)] w0

/-- R88 to R93, by hand: 1 + 2, 1 − 2, 2 × 3, 1 / 3 rounded to nearest and up, √2, 1 × 2 + 3, 1 / 0, +Inf × 0, the lesser of two zeros, signs,
classes, and conversions at the ends of their ranges. -/
theorem test_float_results : ([(.fadd ⟨3, 1, 2, false, false, .f32, .rne⟩, 0x40400000, 0), (.fsub ⟨3, 1, 2, false, false, .f32, .rne⟩, 0xBF800000, 0),
    (.fmul ⟨3, 2, 4, false, false, .f32, .rne⟩, 0x40C00000, 0), (.fdiv ⟨3, 1, 4, false, false, .f32, .rne⟩, 0x3EAAAAAB, fNX),
    (.fdiv ⟨3, 1, 4, false, false, .f32, .rdn⟩, 0x3EAAAAAA, fNX), (.fsqrt ⟨3, 2, false⟩ .f32 .rne, 0x3FB504F3, fNX),
    (.fdiv ⟨3, 1, 6, false, false, .f32, .rne⟩, 0xFF800000, fDZ), (.fmul ⟨3, 9, 7, false, false, .f32, .rne⟩, 0x7FC00000, fNV),
    (.fsqrt ⟨3, 11, false⟩ .f32 .rne, 0x7FC00000, fNV), (.fsqrt ⟨3, 6, false⟩ .f32 .rne, 0x80000000, 0),
    (.fmin ⟨3, 7, 6, false, false⟩ .f32, 0x80000000, 0), (.fmax ⟨3, 8, 1, false, false⟩ .f32, 0x3F800000, fNV),
    (.fsgn ⟨3, 1, 1, false, false⟩ .f32 .neg, 0xBF800000, 0), (.fsgn ⟨3, 11, 11, false, false⟩ .f32 .xor, 0x3F800000, 0),
    (.fclass ⟨3, 8, false⟩ .f32, 256, 0), (.fclass ⟨3, 6, false⟩ .f32, 8, 0), (.cvt (.conv .f64i64 .rne 3 5 false), 0x7FFFFFFFFFFFFFFF, fST),
    (.cvt (.conv .f64n64 .rne 3 5 false), 0x8000000000000000, 0), (.cvt (.conv .f32e4m3 .rne 3 10 false), 0x7E, fNX),
    (.cvt (.conv .i64f32 .rne 3 2 false), 0x4E800000, 0), (.cvt (.conv .i64i8 .fpm 3 6 false), 0x7F, fST)] :
    List (Instr × Word × BitVec 6)).all (fun e => resS e.1 sF 3 = some e.2.1 ∧ resFl e.1 sF = some e.2.2) = true := by decide +kernel
theorem test_ffma : resS (.ffma ⟨4, 1, 2, false, false, .f32, .rne⟩) sF 4 = some 0x40A00000 := by decide +kernel
theorem test_fcmp : ([(.fcmp .eq .f32 1 6 7 false false, .t), (.fcmp .lt .f32 1 1 8 false false, .u), (.fcmp .le .f32 1 11 1 false false, .t),
    (.fcmp .un .f32 1 8 1 false false, .t)] : List (Instr × Tri)).all (fun e => resQ e.1 sF 1 = some e.2) = true := by decide +kernel
/-- Codes 26 to 31 of R92. -/
theorem test_register_moves : resS (.cvt (.ofP 3 2)) (pregs [(2, 0xFFFFFE00)] sF) 3 = some 0xFFFFFE00 ∧
    resS (.cvt (.ofK true 3 0)) sF 3 = some 0xFFFFFFFFFFFFFFFF ∧ resS (.cvt (.ofK false 3 1)) (on sF fun c => { c with k := c.k.set 1 0 }) 3 = some 0 := by
  decide +kernel

/-- R66, by hand: in E4M3 a tie beyond 448 goes to it, and what lies beyond the tie saturates; in F16 65,520 is infinite; half of the
smallest subnormal of F32 goes to the even zero, or up to that subnormal. -/
theorem test_rounding : FF.e4m3.round .rne false false 464 0 = ⟨0x7E, fNX, 0⟩ ∧ FF.e4m3.round .rne false false 465 0 = ⟨0x7E, fST ||| fNX, 1⟩ ∧
    FF.f16.round .rne false true 65520 0 = ⟨0xFC00, fOF ||| fNX, 0⟩ ∧ FF.f32.round .rne false false 1 (-150) = ⟨0, fUF ||| fNX, 0⟩ ∧
    FF.f32.round .rup false false 1 (-150) = ⟨1, fUF ||| fNX, 0⟩ := by decide +kernel
theorem wit_RoundingIsToTheNeighbour : Spec.overflows .f16 .rne ((Spec.rat true 65520 0 : Rat) : ℝ) ∧
    ¬Spec.overflows .f16 .rne ((Spec.rat false 1 0 : Rat) : ℝ) ∧ Spec.rat false 0 0 = 0 := by
  have h : Spec.value .f16 (Spec.topOf .f16) = some 65504 ∧ Spec.value .f16 (Spec.topOf .f16 - 1) = some 65472 := by decide +kernel
  unfold Spec.overflows Spec.outward
  rw [h.1, h.2]
  norm_num [Spec.rat]
  exact .inl (by decide)
theorem wit_FloatArithmeticCompletes : Spec.float2.isEmpty = false ∧ sF.cur.sState 1 = .full ∧ sF.cur.sState 0 = .full ∧ sF.cur.sState 31 = .full ∧
    sF.cur.sState 3 ≠ .pending ∧ sF.cur.sState 4 = .full ∧ Spec.operand .f32 false (sF.cur.sVal 1).toNat = some 1 ∧
    Spec.operand .f32 true (sF.cur.sVal 6).toNat = some 0 ∧ Spec.operand .f32 false (sF.cur.sVal 4).toNat = some 3 ∧
    Spec.fin (.fin true 3 1) = some (-6) := by decide +kernel
theorem wit_FloatPatternResults : sF.cur.sState 6 = .full ∧ sF.cur.sState 8 = .full ∧ sF.cur.sState 0 ≠ .pending := by decide +kernel
theorem wit_FloatComparisonAndSpecialResults : sF.cur.sState 8 = .full ∧ sF.cur.sState 9 = .full ∧ sF.cur.sState 3 ≠ .pending ∧
    Spec.isNan .f32 (sF.cur.sVal 8).toNat = true ∧ Spec.magZ .f32 false (sF.cur.sVal 9).toNat = Spec.inf .f32 ∧
    Spec.magZ .f32 false (sF.cur.sVal 6).toNat = 0 ∧ 0 < Spec.magZ .f32 false (sF.cur.sVal 1).toNat ∧
    Spec.magZ .f32 false (sF.cur.sVal 1).toNat < Spec.inf .f32 ∧ Spec.isNan .f32 (sF.cur.sVal 11).toNat = false ∧
    Spec.neg 32 (sF.cur.sVal 11).toNat = true := by decide +kernel
theorem wit_ConversionResults : sF.cur.sState 1 = .full ∧ sF.cur.sState 0 = .full ∧ sF.cur.sState 3 ≠ .pending ∧ 0 < 8 := by decide +kernel

/-! ### Intervals -/

/-- `iv1` [1, 2], `iv2` [3, 4], `iv3` [0, 1], `iv4` EMPTY, `iv5` NaI, `iv6` [−2, 1], `iv7` [0, 0]. The lower bound lies in the low word. -/
def sI : State := ivs [(1, 0x400000003F800000), (2, 0x4080000040400000), (3, 0x3F80000080000000), (4, 0xFF8000007F800000),
  (5, 0x7FC000007FC00000), (6, 0x3F800000C0000000), (7, 0x0000000080000000)] (regs [(1, 0x3F800000), (2, 0x40000000), (6, 0x80000000)] w0)

/-- R141 to R144, by hand: sums and differences of bounds, a divisor that holds 0, an empty meet, the square of an interval about 0. -/
theorem test_interval_results : ([(.iadd ⟨9, 1, 2, false, false⟩, 0x40C0000040800000), (.isub ⟨9, 1, 2, false, false⟩, 0xBF800000C0400000),
    (.imul ⟨9, 1, 2, false, false⟩, 0x4100000040400000), (.idiv ⟨9, 1, 3, false, false⟩, 0x7F8000003F800000),
    (.idiv ⟨9, 1, 7, false, false⟩, 0xFF8000007F800000), (.isqr ⟨9, 6, false⟩, 0x4080000080000000), (.isqrt ⟨9, 4, false⟩, 0xFF8000007F800000),
    (.irelu ⟨9, 6, false⟩, 0x3F80000080000000), (.imin ⟨9, 6, 1, false, false⟩, 0x3F800000C0000000),
    (.imax ⟨9, 6, 1, false, false⟩, 0x400000003F800000), (.ihull ⟨9, 1, 2, false, false⟩, 0x408000003F800000),
    (.imeet ⟨9, 1, 2, false, false⟩, 0xFF8000007F800000), (.imov ⟨9, 6, false⟩, 0x3F800000C0000000), (.imake 9 1 2 false false, 0x400000003F800000),
    (.imake 9 2 1 false false, 0x7FC000007FC00000), (.iscale 9 6 2 false false, 0x40000000C0800000), (.iexp ⟨9, 5, false⟩, 0x7FC000007FC00000),
    (.ilog ⟨9, 4, false⟩, 0xFF8000007F800000)] : List (Instr × Word)).all (fun e => resIv e.1 sI 9 = some e.2) = true := by decide +kernel
theorem test_interval_measures : ([(.ilo ⟨3, 6, false⟩, 0xC0000000), (.ihi ⟨3, 6, false⟩, 0x3F800000), (.iwid ⟨3, 6, false⟩, 0x40400000),
    (.imid ⟨3, 6, false⟩, 0xBF000000), (.iwid ⟨3, 4, false⟩, 0x7FC00000)] : List (Instr × Word)).all (fun e => resS e.1 sI 3 = some e.2) = true := by
  decide +kernel
theorem test_icmp : ([(.icmp (.lt 2 false) 1 1 false, .t), (.icmp (.lt 1 false) 1 6 false, .u), (.icmp (.sub 6 false) 1 3 false, .t), (.icmp .emp 1 4 false, .t),
    (.icmp (.dis 2 false) 1 1 false, .t), (.npq 1, .f)] : List (Instr × Tri)).all (fun e => resQ e.1 sI 1 = some e.2) = true := by decide +kernel
/-- R147 to R149, by hand: z = x + y with x in [1, 2], y in [3, 4] and z in [0, 4] keeps x in [0, 1] ∩ [1, 2]. -/
theorem test_contractors : resIv (.cadd ⟨1, 2, 8, false⟩) (ivs [(8, 0x4080000080000000)] sI) 1 = some 0x3F8000003F800000 ∧
    resIv (.crelu ⟨6, 3, false⟩) sI 6 = some 0x3F800000C0000000 ∧ resIv (.csqr ⟨6, 3, false⟩) sI 6 = some 0x3F800000BF800000 := by decide +kernel
theorem wit_IntervalResultsAreTightest : Spec.ivSet.isEmpty = false ∧ Spec.isBox 0x400000003F800000 ∧ Spec.isBox 0x7F800000FF800000 ∧
    Spec.isBox 0x0000000080000000 := by unfold Spec.isBox; decide +kernel
theorem wit_IntervalMeasuresMakeAndCompare : Spec.measure.isEmpty = false ∧ sI.cur.ivState 1 = .full ∧ sI.cur.ivState 5 = .full ∧
    sI.cur.sState 1 = .full ∧ sI.cur.sState 0 ≠ .pending ∧ sI.cur.ivState 9 ≠ .pending ∧ Spec.isBox (sI.cur.ivVal 1).toNat ∧
    Spec.isBox (sI.cur.ivVal 6).toNat ∧ ¬Spec.isBox (0x3F80000040000000) ∧ (sI.cur.ivVal 4).toNat = 0xFF8000007F800000 ∧
    (sI.cur.ivVal 5).toNat = 0x7FC000007FC00000 := by unfold Spec.isBox; decide +kernel
theorem inBox_of {v : Nat} {q : Rat} (h : Spec.isBox v) (hl : ∀ l ∈ (Spec.value .f32 (v % 2 ^ 32)).toList, l ≤ q)
    (hh : ∀ l ∈ (Spec.value .f32 (v / 2 ^ 32)).toList, q ≤ l) : Spec.inBox v (q : ℝ) :=
  ⟨h, fun l e => Rat.cast_le.mpr (hl l (by rw [e]; exact List.mem_singleton.mpr rfl)),
    fun l e => Rat.cast_le.mpr (hh l (by rw [e]; exact List.mem_singleton.mpr rfl))⟩
/-- [1, 2] + [3, 4] = [0, 4] has the solution 1 + 3 = 4. -/
theorem wit_ContractorsLoseNoSolution : Spec.inBox 0x400000003F800000 ((1 : Rat) : ℝ) ∧ Spec.inBox 0x4080000040400000 ((3 : Rat) : ℝ) ∧
    Spec.inBox 0x4080000080000000 ((4 : Rat) : ℝ) ∧ ((4 : Rat) : ℝ) = (1 : Rat) + (3 : Rat) := by
  refine ⟨?_, ?_, ?_, by norm_num⟩ <;> refine inBox_of (by unfold Spec.isBox; decide +kernel) ?_ ?_ <;> decide +kernel
/-- e is clear: a number of 26 bits so near to it would be a multiple of 2⁻²⁴, and none lies there. -/
theorem clear_exp_one : Spec.clear (Real.exp ((1 : Rat) : ℝ)) := by
  intro n k hn hb hk
  have lo := Real.exp_one_gt_d9
  have hi := Real.exp_one_lt_d9
  rw [Rat.cast_one]
  generalize Real.exp 1 = e at lo hi
  have small : (2 : ℝ) ^ (-200 : Int) * max 1 |e| ≤ 1 / 10 ^ 10 := by
    rw [abs_of_pos (by linarith), max_eq_right (by linarith)]
    have : (2 : ℝ) ^ (-200 : Int) ≤ 1 / 10 ^ 11 := by norm_num
    nlinarith [this]
  refine lt_of_le_of_lt small ?_
  by_contra h
  rw [not_lt, abs_le] at h
  obtain ⟨j, rfl | hj⟩ : ∃ j : Nat, k = (j : Int) - 24 ∨ k < -24 := by
    by_cases hk : k < -24
    · exact ⟨0, .inr hk⟩
    · exact ⟨(k + 24).toNat, .inl (by omega)⟩
  · have hx : (n : ℝ) * 2 ^ ((j : Int) - 24) = ((n * 2 ^ j : Int) : ℝ) / 2 ^ 24 := by
      rw [zpow_sub₀ two_ne_zero]; push_cast; rw [zpow_natCast]; norm_num; ring
    rw [hx] at h
    generalize n * 2 ^ j = N at h
    have l : (45605201 : ℝ) < N := by linarith [h.1, h.2]
    have u : (N : ℝ) < 45605202 := by linarith [h.1, h.2]
    have l' : (45605201 : Int) < N := by exact_mod_cast l
    have u' : N < (45605202 : Int) := by exact_mod_cast u
    omega
  · have p : (2 : ℝ) ^ k ≤ 2 ^ (-25 : Int) := zpow_le_zpow_right₀ one_le_two (by omega)
    have q : (n : ℝ) ≤ 2 ^ 26 := by exact_mod_cast (abs_le.mp hb).2
    have : (n : ℝ) * 2 ^ k ≤ 2 ^ 26 * 2 ^ (-25 : Int) :=
      mul_le_mul q p (zpow_nonneg zero_le_two k) (by norm_num)
    norm_num at this
    linarith [h.1, h.2]
/-- The interval around 0 and that around 1, whose bounds have exact results; 1 for `VEXP`, 2⁻⁶¹ and 32 for `VTANH`. -/
theorem wit_TranscendentalResultsStayNear : (∀ v ∈ [0x0000000080000000, 0x3F8000003F800000], Spec.isBox v) ∧
    Spec.clearBounds Real.exp (fun _ => True) 0 0x0000000080000000 ∧ Spec.clearBounds Real.log (0 < ·) 1 0x3F8000003F800000 ∧
    (Spec.operand .f32 false 0x3F800000 = some 1 ∧ Spec.operand .f32 false 0x21000000 = some (2 ^ (-61 : Int)) ∧
      Spec.operand .f32 false 0x42000000 = some 32) ∧ Spec.clear (Real.exp ((1 : Rat) : ℝ)) := by
  refine ⟨by unfold Spec.isBox; decide +kernel, ?_, ?_, by decide +kernel, clear_exp_one⟩
  · have h : ∀ b ∈ [0x0000000080000000 % 2 ^ 32, 0x0000000080000000 / 2 ^ 32], Spec.value .f32 b = some 0 := by decide +kernel
    intro b hb q e _
    rw [h b hb] at e
    exact .inl (by rw [← Option.some.inj e]; norm_num)
  · have h : ∀ b ∈ [0x3F8000003F800000 % 2 ^ 32, 0x3F8000003F800000 / 2 ^ 32], Spec.value .f32 b = some 1 := by decide +kernel
    intro b hb q e _
    rw [h b hb] at e
    exact .inl (by rw [← Option.some.inj e]; norm_num)
theorem wit_IntervalAndContractorCompletion : Spec.iv2.isEmpty = false ∧ Spec.iv1.isEmpty = false ∧ Spec.ctr3.isEmpty = false ∧
    Spec.ctr2.isEmpty = false ∧ sI.cur.ivState 1 = .full ∧ sI.cur.ivState 4 = .full ∧ sI.cur.ivState 15 ≠ .pending ∧ sI.cur.sState 6 = .full := by
  decide +kernel

/-! ### Control -/

/-- A strand about to count `s5` down to 0, with a handler, an upcall in progress from a 32-bit instruction, and `q1` U. -/
def sC : State := upCtl (fun c => { c with tvec := 0x1000, tcause := 0x560, tpc := 0x200 })
  (on (regs [(1, 0x100), (5, 1), (30, 0x400)] w0) fun c => { c with q := c.q.set 1 .u, ctl := { c.ctl with vl := 16 } })
def resPc (i : Instr) (s : State) : Option Word :=
  match exec i s with
  | .next t => some t.cur.pc
  | _ => none
/-- R45, R95 to R98 and R382, by hand: offsets count halfwords and are signed, `JR` adds twice its immediate, `LOOP` at 1 goes on, and
`UPRET.SKIP` passes a 32-bit instruction. -/
theorem test_control_targets : ([(.br 8, 16), (.brS 0x3FF, 0xFFFFFFFFFFFFFFFE), (.call 0x80000, 0xFFFFFFFFFFF00000), (.callS 9, 18), (.ret, 0x400),
    (.jr 1 false 0x1FF, 0xFE), (.callr 1 false 3, 0x106), (.bq .u 1 4, 8), (.bq .t 1 4, 4), (.bq .nt 1 4, 8), (.bqt 0 0x7F, 0xFFFFFFFFFFFFFFFE),
    (.bqf 0 4, 2), (.bqu 1 4, 8), (.loop 5 0x7FFF, 4), (.loop 1 0x7FFF, 0xFFFFFFFFFFFFFFFE), (.upret, 0x200), (.upretSkip, 0x204), (.nop, 2)] :
    List (Instr × Word)).all (fun e => resPc e.1 sC = some e.2) = true := by decide +kernel
theorem test_call_link : resS (.call 8) sC 30 = some 4 ∧ resS (.callS 8) sC 30 = some 2 ∧ resS (.callr 30 false 0) sC 30 = some 4 := by decide +kernel
theorem test_control_registers : resS (.setvl 3 1 false 0x1FF) sC 3 = some 0x2FF ∧ resS (.setvl 3 2 false 0) (regs [(2, 2049)] sC) 3 = some 2048 ∧
    resS (.rdctl 3 3) sC 3 = some 16 ∧ resS (.rdid 3 9) sC 3 = some 1 ∧ resS (.xget 3 2) (xregs [(2, 77)] sC) 3 = some 77 := by decide +kernel

theorem wit_ControlTransfers : sC.cur.sState 1 = .full ∧ sC.cur.sState 30 = .full ∧ sC.cur.sState 30 ≠ .pending ∧ sC.cur.qVal 1 = .u ∧
    sC.cur.qVal 0 ≠ .u ∧ (5 : SReg) ≠ 0 ∧ sC.cur.sState 5 = .full := by decide +kernel
/-- The last index of each group and the first beyond it; an index of each scope; a core's register in user mode, and from a dead register. -/
theorem wit_ControlRegisters : ((Spec.identity sC)[18]?).isSome = true ∧ (Spec.identity sC)[19]? = none ∧ ((Spec.control sC)[13]?.join).isSome = true ∧
    (Spec.control sC)[14]?.join = none ∧ ((Spec.control sC)[20]?.join).isSome = true ∧ (Spec.control sC)[21]?.join = none ∧
    sC.cur.sState 1 = .full ∧ sC.cur.sState 3 ≠ .pending ∧ sC.cur.ident.system = true ∧ (sC.gangs.find? sC.cur.ident.gang).isSome = true ∧
    (user sC).cur.ident.system = false ∧ (user sC).cur.sState 1 = .full ∧ w0.cur.sState 1 = .dead := by decide +kernel
theorem wit_LengthNopAndDescriptionMoves : sC.cur.sState 1 = .full ∧ sC.cur.sState 3 ≠ .pending := by decide +kernel
theorem wit_FaultsAndReturns_returns : sC.cur.ctl.tcause.getLsbD 8 = true ∧ w0.cur.ctl.tcause.getLsbD 8 = false := by decide +kernel

/-! ### Scratchpad, tagged words, fills and barriers -/

/-- `s1` the last doubleword of the scratchpad, `s2` one byte on, `s3` 77, `s31` 0; bytes in that doubleword. -/
def sS : State := upCore (regs [(1, 0x5FFF8), (2, 0x5FFF9), (3, 0x1122334455667788), (4, 1)] w0) 0 fun k => { k with sp := k.sp.write 0x5FFF8 [0xEF, 0xCD, 0xAB, 0x89] }
/-- R4, R103, by hand: loads are little-endian and zero-extended. -/
theorem test_scratchpad_loads : ([(.ldsB ⟨3, 1, false, 0⟩, 0xEF), (.ldsH ⟨3, 1, false, 1⟩, 0x89AB), (.ldsW ⟨3, 1, false, 0⟩, 0x89ABCDEF),
    (.ldsD ⟨3, 1, false, 0⟩, 0x89ABCDEF), (.lds16 ⟨3, 1⟩, 0x89ABCDEF), (.ldsSp 3 31, 0)] : List (Instr × Word)).all
    (fun e => resS e.1 sS 3 = some e.2) = true := by decide +kernel
def resSp (i : Instr) (s : State) (a : Nat) : Option Byte :=
  match exec i s with
  | .next t => some ((t.core 0).sp.get a)
  | _ => none
theorem test_scratchpad_stores : ([(.stsB ⟨3, 1, false, 1⟩, 0xAB), (.stsH ⟨3, 1, false, 1⟩, 0x88), (.stsW ⟨3, 1, false, 0⟩, 0x66), (.stsD ⟨3, 1, false, 0⟩, 0x66),
    (.sts16 ⟨3, 1⟩, 0x66), (.stsSp 3 31, 0xAB)] : List (Instr × Byte)).all (fun e => resSp e.1 sS 0x5FFFA = some e.2) = true ∧
    resSp (.stsSp 3 31) sS 0xFF = some 0x11 := by decide +kernel

/-- The last doubleword, and the first addresses past it and out of line with it. -/
theorem wit_ScratchpadAccesses : (Spec.spForms ⟨3, 1, false, 0⟩ 0)[3]?.map (fun e => (e.2.2.1, e.2.2.2.1, e.2.2.2.2)) = some (4, 8, ⟨3, 1, false, 0⟩) ∧
    sS.cur.sState 1 = .full ∧ sS.cur.acq = none ∧ (addrM (sS.cur.sVal 1) 0 8).toNat + 8 = 0x60000 ∧ (addrM (sS.cur.sVal 1) 0 8).toNat % 8 = 0 ∧
    sS.cur.sState 3 = .full ∧ sS.cur.sState 3 ≠ .pending ∧ needRange (sS.core 0) 0x5FFF8 8 false = .ok () ∧ needClean (sS.core 0) 0x5FFF8 8 = .ok () ∧
    needRange (sS.core 0) 0x5FFF8 8 true = .ok () ∧ (sS.core 0).sp.wf = true := by decide +kernel
theorem wit_ScratchpadAndRowFaults_scratchpad : sS.cur.sState 2 = .full ∧ sS.cur.acq = none ∧ sS.cur.sState 3 = .full ∧
    0x60000 < (addrM (sS.cur.sVal 2) 0 8).toNat + 8 ∧ (addrM (sS.cur.sVal 4) 0 8).toNat + 8 ≤ 0x60000 ∧ (addrM (sS.cur.sVal 4) 0 8).toNat % 8 ≠ 0 := by
  decide +kernel

/-- A strand with an `RFILL` of its `s4` from another held for it. -/
def sHeld : State :=
  { sS with msgs := [(7, { kind := 3, strand := 5, target := 0, addr := 0, reg := .s 4, val := 9, limit := none, arrived := true })], nextId := 8 }
def stateS (i : Instr) (s : State) (r : SReg) : Option Fill :=
  match exec i s with
  | .next t => some (t.cur.sState r)
  | _ => none
theorem test_take_empty : resS (.take ⟨4, 3⟩) sS 4 = some 0x1122334455667788 ∧ stateS (.take ⟨4, 3⟩) sS 3 = some .empty ∧ stateS (.take ⟨3, 3⟩) sS 3 = some .full ∧
    stateS (.empty 3) sS 3 = some .empty ∧ stateS (.empty 0) sS 0 = some .full ∧ resPc (.waitf (.s 3) 0) sS = some 4 := by decide +kernel
theorem wit_TakeEmptyAndWaitf : sHeld.cur.sState 4 = .full ∧ sHeld.cur.sState 3 ≠ .pending ∧ (4 : SReg) ≠ 3 ∧ (4 : SReg) ≠ 0 ∧ sHeld.cur.place ≠ .saved ∧
    sHeld.heldFills sHeld.curId (.s 4) ≠ [] ∧ stateS (.empty 4) sHeld 4 = some .empty ∧ sHeld.cur.fillState (.iv 2) = .full := by decide +kernel

/-- The last tagged word, full; and a strand in slot 1 that waits for it. -/
def sFullTag : State := upCore sS 0 fun k => { k with tags := [0x5FFF8 / 8] }
def sTagWait : State :=
  { upCore sS 0 (fun k => { k with tagWaits := [{ addr := 0x5FFF8, who := .strand 1, full := true, val := 0 }] }) with
    strands := sS.strands.set 1 { sS.cur with place := .parked, wait := some { kind := .tag 0x5FFF8 true, since := 0, retire := { len := 4 } } } }
theorem test_tagged_words : resS (.tlds ⟨3, 1, 0⟩) sFullTag 3 = some 0x89ABCDEF ∧ resSp (.tsts ⟨3, 1, 0⟩) sS 0x5FFFF = some 0x11 ∧
    resSp (.tstr 1) sS 0x5FFF8 = some 0xEF := by decide +kernel
theorem wit_TaggedWords : sFullTag.cur.acq = none ∧ sFullTag.cur.grant = none ∧ sFullTag.cur.sState 1 = .full ∧
    sFullTag.cur.sVal 1 = Spec.tagLocal 0x5FFF8 ∧ (sFullTag.core 0).tagWaits = [] ∧ 0x5FFF8 / 8 ∈ (sFullTag.core 0).tags ∧
    0x5FFF8 / 8 ∉ (sS.core 0).tags ∧ sFullTag.cur.sState 3 = .full ∧ needRange (sFullTag.core 0) 0x5FFF8 8 true = .ok () ∧
    needRange (sFullTag.core 0) 0x5FFF8 8 false = .ok () ∧ needClean (sFullTag.core 0) 0x5FFF8 8 = .ok () ∧ (sFullTag.core 0).sp.wf = true ∧
    Spec.drained sFullTag .writes := by unfold Spec.drained; decide +kernel
theorem wit_TaggedWords_handoff : sTagWait.cur.acq = none ∧ sTagWait.cur.grant = none ∧ sTagWait.cur.sState 1 = .full ∧
    sTagWait.cur.sVal 1 = Spec.tagLocal 0x5FFF8 ∧ sTagWait.cur.sState 3 = .full ∧ 0x5FFF8 / 8 ∉ (sTagWait.core 0).tags ∧ Spec.drained sTagWait .writes ∧
    needRange (sTagWait.core 0) 0x5FFF8 8 true = .ok () ∧ (sTagWait.core 0).spPoison = [] ∧
    (sTagWait.core 0).tagWaits = [{ addr := 0x5FFF8, who := .strand 1, full := true, val := 0 }] ∧ 1 ≠ sTagWait.curId ∧
    (sTagWait.strands.find? 1).isSome = true := by unfold Spec.drained; decide +kernel

/-- `s1` the last word of the last core; its low bits name a strand of core 95. -/
def sRem : State := { regs [(1, 2 ^ 34 + 767 * 2 ^ 24 + 0x5FFF8), (3, 77)] w0 with strands := (regs [(1, 2 ^ 34 + 767 * 2 ^ 24 + 0x5FFF8), (3, 77)] w0).strands.set 0x5FFF8 { core := 95 } }
theorem wit_RemoteTaggedAccessesAndFills : 767 ≠ sRem.cur.core ∧ sRem.cut sRem.cur.core 767 = false ∧ sRem.cur.acq = none ∧ sRem.cur.grant = none ∧
    sRem.cur.sState 1 = .full ∧ sRem.cur.sVal 1 = Spec.tagRemote 767 0x5FFF8 ∧ sRem.cur.sState 3 = .full ∧ Spec.drained sRem .writes ∧
    (sRem.strands.find? ((sRem.cur.sVal 1).toNat % 2 ^ 22)).map (·.core) = some 95 ∧ sRem.cut sRem.cur.core 95 = false ∧
    sRem.cur.fillState (.s 3) = .full ∧ sRem.cur.fillState (.iv 15) = .full := by unfold Spec.drained; decide +kernel

/-- The strand's gang has a second strand, which has arrived at the barrier with U and NP. -/
def sBar : State := upGang { sS with strands := sS.strands.set 1 { sS.cur with place := .slot 1 } } fun g => { g with alive := [0, 1], arrived := [1], barOr := .u, barNp := true }
def sRelease : State :=
  upGang { (on sBar fun c => { c with wait := some { kind := .barrier, since := 0, info := 9, len := 4, retire := { len := 4 } } }) with arg := { id := 0 } }
    fun g => { g with arrived := [0, 1], releasing := true }
def stepOf (s : State) : State := on s fun c => { c with ident := { c.ident with step := true } }
theorem test_barrier_release : resQ .barrierRelease sRelease 1 = some .u ∧ resPc .barrierRelease sRelease = some 4 := by decide +kernel
theorem wit_Barriers : (sBar.gangs.find? sBar.cur.ident.gang).map (fun g => (g.gw * g.gh, g.alive, g.arrived, g.releasing)) = some (1, [0, 1], [1], false) ∧
    Spec.drained sBar .writes ∧ sBar.stopping sBar.cur.ident.gang = false ∧ sBar.strands.find? sBar.curId ≠ none ∧ sBar.cur.ident.step = false ∧
    sBar.room sBar.cur.core sBar.cur = true ∧ (stepOf sBar).cur.ident.step = true ∧ Spec.drained (stepOf sBar) .writes ∧
    (sRelease.gangs.find? sRelease.arg.id).map (·.arrived) = some [0, 1] ∧
    (sRelease.strands.find? 0).map (fun c => c.wait.map (·.kind)) = some (some .barrier) := by unfold Spec.drained; decide +kernel

/-- Another strand is ready; the strand of slot 0 yields, or its quantum ends. -/
def sYield : State := { upCore { sS with strands := sS.strands.set 1 { sS.cur with place := .ready } } 0 (fun k => { k with ready := [1] }) with arg := { id := 0, idx := 0 } }
theorem wit_LeavingTheSlot : (sS.core sS.cur.core).ready = [] ∧ (stepOf sYield).cur.ident.step = true ∧ sYield.cur.place = .slot 0 ∧
    (sYield.core sYield.cur.core).rotNow = true ∧ (sYield.core sYield.cur.core).ready ≠ [] ∧ sYield.cur.ident.step = false ∧
    sYield.stopping sYield.cur.ident.gang = false ∧ sYield.strands.find? sYield.curId ≠ none ∧ (sYield.core sYield.arg.id).slots[0]? = some (some 0) ∧
    (sYield.strands.find? 0).map (fun d => (d.place, d.core)) = some (.slot 0, sYield.arg.id) ∧
    (sYield.gangs.find? sYield.cur.ident.gang).isSome = true ∧ Spec.drained sYield .writes ∧ (∀ e ∈ sYield.cores, e.2.cmdFails = []) := by
  unfold Spec.drained; decide +kernel

/-! ### Main memory -/

/-- Pages: 1 of home 1, 2 of home 1 and checked, 3 of the own home with its blocks absent, 4 of the own home with a resident block, 5 read-only, 6 execute-only. -/
def paged (s : State) : State := page 6 0x60000 0x9 (page 5 0x50000 0x3 (page 4 0x0 0x4F (page 3 0x30000 0xF (page 2 (2 ^ 30 + 0x20000) 0x1F (page 1 (2 ^ 30) 0xF s)))))
def at_ (b : Nat) : State := regs [(1, b), (2, b + 8), (3, b + 16)] (paged w0)
/-- The strand's next access to home 1 completes the count of R239. -/
def counted (s : State) : State := on s fun c => { c with mhome := 1, mcount := 7 }

/-- Another home's plain and checked pages, and the own home's resident block. -/
theorem wit_LoadsAreSplitPhase : ∀ e ∈ ([(0x10000, 2 ^ 30, 2 ^ 30 + 0xF), (0x20000, 2 ^ 30 + 0x20000, 2 ^ 30 + 0x2001F), (0x40000, 0, 0x4F)] : List (Nat × Nat × Nat)),
    (at_ e.1).cur.sState 1 = .full ∧ (at_ e.1).cur.fillState (.s 3) ≠ .pending ∧ (at_ e.1).cur.fillState (.iv 15) ≠ .pending ∧
    (addrM ((at_ e.1).cur.sVal 1) 0 8).toNat % 8 = 0 ∧
    Spec.reaches (at_ e.1) (addrM ((at_ e.1).cur.sVal 1) 0 8) .r .read e.2.1 (BitVec.ofNat 64 e.2.2) true := by unfold Spec.reaches; decide +kernel
theorem wit_StoresArePosted : ∀ e ∈ ([(0x10000, 2 ^ 30, 2 ^ 30 + 0xF), (0x20000, 2 ^ 30 + 0x20000, 2 ^ 30 + 0x2001F), (0x30000, 0x30000, 0x3000F)] : List (Nat × Nat × Nat)),
    (at_ e.1).cur.sState 1 = .full ∧ (at_ e.1).cur.fillState (.s 3) = .full ∧ (at_ e.1).cur.fillState (.iv 15) = .full ∧
    (addrM ((at_ e.1).cur.sVal 1) 0 8).toNat % 8 = 0 ∧
    Spec.reaches (at_ e.1) (addrM ((at_ e.1).cur.sVal 1) 0 8) .w .write e.2.1 (BitVec.ofNat 64 e.2.2) false ∧
    (at_ e.1).inFlight (at_ e.1).curId 0 < 8 ∧ Spec.drained (at_ e.1) .all := by unfold Spec.reaches Spec.drained; decide +kernel
theorem wit_AtomicsReductionsAndWatches : ∀ e ∈ ([(0x10000, 2 ^ 30, 2 ^ 30 + 0xF), (0x20000, 2 ^ 30 + 0x20000, 2 ^ 30 + 0x2001F), (0x40000, 0, 0x4F)] : List (Nat × Nat × Nat)),
    (at_ e.1).cur.sState 1 = .full ∧ ((at_ e.1).cur.sVal 1).toNat % 8 = 0 ∧ (at_ e.1).cur.sState 2 = .full ∧ (at_ e.1).cur.sState 3 = .full ∧
    Spec.reaches (at_ e.1) ((at_ e.1).cur.sVal 1) .rw .write e.2.1 (BitVec.ofNat 64 e.2.2) true := by unfold Spec.reaches; decide +kernel
theorem wit_AtomicsReductionsAndWatches_reds : ∀ e ∈ ([(0x10000, 2 ^ 30, 2 ^ 30 + 0xF), (0x20000, 2 ^ 30 + 0x20000, 2 ^ 30 + 0x2001F)] : List (Nat × Nat × Nat)),
    (at_ e.1).cur.sState 1 = .full ∧ ((at_ e.1).cur.sVal 1).toNat % 8 = 0 ∧ (at_ e.1).cur.sState 2 = .full ∧ (at_ e.1).inFlight (at_ e.1).curId 1 < 8 ∧
    Spec.reaches (at_ e.1) ((at_ e.1).cur.sVal 1) .w .write e.2.1 (BitVec.ofNat 64 e.2.2) false := by unfold Spec.reaches; decide +kernel
theorem wit_AtomicsReductionsAndWatches_watch : (at_ 0x40000).cur.sState 1 = .full ∧ (at_ 0x40000).cur.sState 3 = .full ∧ (at_ 0x40000).cur.kept = none ∧
    Spec.reaches (at_ 0x40000) ((at_ 0x40000).cur.sVal 1) .r .read 0 0x4F true ∧ (at_ 0x40000).stopping (at_ 0x40000).cur.ident.gang = false ∧
    (at_ 0x40000).strands.find? 0 ≠ none ∧ (at_ 0x40000).cur.ident.step = false ∧ (at_ 0x40000).room 0 (at_ 0x40000).cur = true := by
  unfold Spec.reaches; decide +kernel
/-- A page that may not be read; an absent block of the own home; the access to home 1 that makes the strand migrate. -/
theorem wit_AccessesThatPark : (∀ b ∈ [0x60000, 0x30000, 0x10000], let s := counted (at_ b)
      s.cur.sState 1 = .full ∧ s.cur.sState 3 ≠ .pending ∧ s.cur.acq = none ∧ (addrM (s.cur.sVal 1) 0 8).toNat % 8 = 0 ∧ s.stopping s.cur.ident.gang = false ∧
      s.strands.find? s.curId ≠ none ∧ s.cur.ident.step = false ∧ s.room s.cur.core s.cur = true) ∧
    (match translate (at_ 0x60000) 0 0x60000 .r .read with | .fault _ => true | _ => false) = true ∧
    translate (at_ 0x30000) 0 0x30000 .r .read = .hit 0x30000 0x3000F ∧ homeOf 0x30000 = 0 ∧ resident ((at_ 0x30000).home 0) (blockOf 0x30000) = false ∧
    ((at_ 0x30000).home 0).queues.find? (blockOf 0x30000) = none ∧ ((at_ 0x30000).home 0).queues.length < 1024 ∧
    translate (counted (at_ 0x10000)) 0 0x10000 .r .read = .hit (2 ^ 30) 0x4000000F ∧ homeOf (2 ^ 30) = (counted (at_ 0x10000)).cur.mhome ∧ homeOf (2 ^ 30) ≠ 0 ∧
    (counted (at_ 0x10000)).cur.mcount + 1 = (counted (at_ 0x10000)).cur.ctl.mig.toNat ∧ (counted (at_ 0x10000)).holdsSlot 0 = false ∧
    (counted (at_ 0x10000)).room 1 (counted (at_ 0x10000)).cur = true ∧ (counted (at_ 0x10000)).cut 0 1 = false ∧
    (counted (at_ 0x10000)).undrained 0 .writes = false ∧ (counted (at_ 0x10000)).cur.fails = [] := by dsimp only; decide +kernel

/-- `s1` a row of main memory (of home 1, of home 1 checked, or of the own home), `p1` the last row of the scratchpad; elements enabled, or none. -/
def sRow (b k : Nat) : State := on (pregs [(1, 0x5FE00 + 2 ^ 19)] (at_ b)) fun c => { c with ctl := { c.ctl with vl := 16 }, k := c.k.set 1 (BitVec.ofNat 128 k) }
theorem wit_RowLoadsAndStores : ∀ e ∈ ([(0x10000, 2 ^ 30, 2 ^ 30 + 0xF), (0x20000, 2 ^ 30 + 0x20000, 2 ^ 30 + 0x2001F), (0x40000, 0, 0x4F)] : List (Nat × Nat × Nat)),
    (sRow e.1 1).cur.sState 1 = .full ∧ ((sRow e.1 1).cur.pVal 1).toNat % 2 ^ 19 = 0x5FE00 ∧ ((sRow e.1 1).cur.sVal 1).toNat % 512 = 0 ∧
    needRows ((sRow e.1 1).core 0) [0x5FE00] true = .ok () ∧ (sRow e.1 1).inFlight 0 2 < 4 ∧
    Spec.reaches (sRow e.1 1) ((sRow e.1 1).cur.sVal 1) .r .read e.2.1 (BitVec.ofNat 64 e.2.2) true := by unfold Spec.reaches; decide +kernel
theorem wit_RowLoadsAndStores_stores : ∀ e ∈ ([(0x10000, 2 ^ 30, 2 ^ 30 + 0xF), (0x20000, 2 ^ 30 + 0x20000, 2 ^ 30 + 0x2001F)] : List (Nat × Nat × Nat)),
    needRows ((sRow e.1 1).core 0) [0x5FE00] false = .ok () ∧ needCleanRows ((sRow e.1 1).core 0) [0x5FE00] = .ok () ∧ (sRow e.1 1).inFlight 0 0 < 8 ∧
    Spec.reaches (sRow e.1 1) ((sRow e.1 1).cur.sVal 1) .w .write e.2.1 (BitVec.ofNat 64 e.2.2) false ∧
    (storedBytes 32 (enabled ((sRow e.1 1).cur.kVal 1) 32 ((sRow e.1 1).cur.count 128)) (((sRow e.1 1).core 0).row 0x5FE00)).all (·.isNone) = false ∧
    (storedBytes 32 (enabled ((sRow e.1 0).cur.kVal 1) 32 ((sRow e.1 0).cur.count 128)) (((sRow e.1 0).core 0).row 0x5FE00)).all (·.isNone) = true := by
  unfold Spec.reaches; decide +kernel

/-- A strand with nothing under way; a page of home 1, with room there; two lines of home 1 at multiples of 1,024. -/
theorem wit_FencesHintsAndRowCopies : (at_ 0x10000).cur.fails = [] ∧ Spec.drained (at_ 0x10000) .all ∧ (at_ 0x10000).undrained 0 .reds = false ∧
    (∀ c ∈ [FScope.core, .sg, .die, .pkg], (at_ 0x10000).undrained 0 (.scope c) = false) ∧ (at_ 0x10000).undrained 0 .writes = false ∧
    (at_ 0x10000).cur.sState 1 = .full ∧ (at_ 0x10000).cur.acq = none ∧ (at_ 0x10000).cut 0 (homeOf (2 ^ 30)) = false ∧ homeOf (2 ^ 30) ≠ 0 ∧
    translate (at_ 0x10000) 0 0x10000 .any .read = .hit (2 ^ 30) 0x4000000F ∧ (at_ 0x10000).room (homeOf (2 ^ 30)) (at_ 0x10000).cur = true ∧
    (at_ 0x10000).holdsSlot 0 = false ∧ (stepOf (at_ 0x10000)).cur.ident.step = true ∧ homeOf 0 = 0 ∧
    translate (at_ 0x40000) 0 0x40000 .any .read = .hit 0 0x4F := by unfold Spec.drained; decide +kernel
/-- `s4` a second multiple of 1,024 in the same page. -/
def sCopy : State := on (at_ 0x10000) fun c => { c with s := c.s.set 4 0x10400 }
theorem wit_FencesHintsAndRowCopies_copies : translate sCopy 0 0x10000 .w .write = .hit (2 ^ 30) 0x4000000F ∧ (sCopy.cur.sVal 1).toNat % 1024 = 0 ∧
    sCopy.inFlight 0 0 < 8 ∧ sCopy.cur.sState 4 = .full ∧ translate sCopy 0 (sCopy.cur.sVal 4) .r .read = .hit (2 ^ 30 + 0x400) 0x4000000F ∧
    (sCopy.cur.sVal 4).toNat % 1024 = 0 ∧ homeOf (2 ^ 30) = homeOf (2 ^ 30 + 0x400) ∧ bankOf (2 ^ 30) = bankOf (2 ^ 30 + 0x400) ∧
    subarrayOf (2 ^ 30) = subarrayOf (2 ^ 30 + 0x400) := by decide +kernel

/-! ### Vectors -/

/-- Rows 0, 1 and the last one in `p1`, `p2` and `p3`, with strides; extra turns over; `rows` in rows 0 and 1. -/
def sV (vl : Nat) (rows : List Byte × List Byte) : State :=
  on (pregs [(1, 0), (2, 512 + 2 ^ 19), (3, 0x5FE00 + 3 * 2 ^ 19)] (upCore (regs [(5, 3)] w0) 0 fun k => { k with sp := (k.sp.write 0 rows.1).write 512 rows.2 }))
    fun c => { c with ctl := { c.ctl with vl := vl }, owe := 1, k := c.k.set 1 0x5 }
def words (w : Nat) (l : List Nat) : List Byte := l.flatMap fun x => (List.range (w / 8)).map fun i => BitVec.ofNat 8 (x / 256 ^ i)
/-- The first elements of the row of `p3` after an instruction, with `ctl.fpf` and `ctl.satc`. -/
def resRow (i : Instr) (s : State) (w n : Nat) : Option (List Nat × BitVec 6 × Word) :=
  match exec i s with
  | .next t => some ((List.range n).map (elem w ((t.core 0).row 0x5FE00)), t.cur.ctl.fpf, t.cur.ctl.satc)
  | _ => none

/-- The spec's table of R66: 300, 464, 500, −Inf, a NaN and 0.001 to E4M3 under RNE, with `ctl.vl` = 6. -/
theorem test_vcvt_e4m3 : resRow (.vcvt ⟨3, 1, .f32, 0, false, false⟩ .e4m3) (sV 6 (words 32 [0x43960000, 0x43E80000, 0x43FA0000, 0xFF800000, 0x7FC00001, 0x3A83126F], [])) 8 7 =
    some ([0x79, 0x7E, 0x7E, 0xFE, 0x7F, 0x01, 0], fST ||| fUF ||| fNX, 2) := by decide +kernel
/-- R118 to R120, by hand: saturation of both signs, wrapping, a shift by more than the width, an operand that the mask leaves out. -/
theorem test_vector_integers : ([(.vadd ⟨3, 1, 2, .i16, 0, false, false, false⟩ true, [0x7FFF, 0x8000, 0x0003], fST, 2),
    (.vadd ⟨3, 1, 2, .i16, 0, false, false, false⟩ false, [0x8000, 0x7FFF, 0x0003], 0, 0), (.vsub ⟨3, 1, 2, .n16, 0, false, false, false⟩ true, [0x7FFE, 0, 0], fST, 2),
    (.vmul ⟨3, 1, 2, .i16, 0, false, false, false⟩ false, [0x7FFF, 0x8000, 2], 0, 0), (.vmin ⟨3, 1, 2, .i16, 0, false, false, false⟩, [1, 0x8000, 1], 0, 0),
    (.vmax ⟨3, 1, 2, .n16, 0, false, false, false⟩, [0x7FFF, 0xFFFF, 2], 0, 0), (.vand ⟨3, 1, 2, .i16, 1, false, false, false⟩, [1, 0x8000, 0], 0, 0),
    (.vshl ⟨3, 1, 2, .i16, 0, false, false, false⟩, [0xFFFE, 0, 4], 0, 0), (.vsar ⟨3, 1, 2, .i16, 0, false, false, false⟩, [0x3FFF, 0xFFFF, 0], 0, 0),
    (.vabs ⟨3, 1, .i16, 0, false, false⟩, [0x7FFF, 0x8000, 1], 0, 0), (.vneg ⟨3, 1, .i16, 0, false, false⟩, [0x8001, 0x8000, 0xFFFF], 0, 0),
    (.vsel ⟨3, 1, 2, .i16, 1, false, false, false⟩, [0x7FFF, 0x8000, 2], 0, 0), (.vadds ⟨3, 1, 5, false, .i16, 0, false⟩, [0x8002, 0x8003, 4], 0, 0),
    (.vmov ⟨3, 2, .i16, 0, false, false⟩, [1, 0xFFFF, 2], 0, 0), (.vbcast ⟨3, 5, false, .i16, 0, false⟩, [3, 3, 3], 0, 0),
    (.vperm ⟨3, 2, 1, .i16, 0, false, false, false⟩, [0, 1, 0xFFFF], 0, 0)] : List (Instr × List Nat × BitVec 6 × Word)).all
    (fun e => resRow e.1 (sV 3 (words 16 [0x7FFF, 0x8000, 1], words 16 [1, 0xFFFF, 2])) 16 3 = some e.2) = true := by decide +kernel
/-- R118, R122, R132, by hand: 1 + 2, 1 × 2, 1 × 2 + 0, and e^0, 1/2, and tanh 0. -/
theorem test_vector_floats : ([(.vadd ⟨3, 1, 2, .f32, 0, false, false, false⟩ false, [0x40400000, 0x40000000]), (.vmul ⟨3, 1, 2, .f32, 0, false, false, false⟩ false, [0x40000000, 0]),
    (.vfma ⟨3, 1, 2, .f32, 0, false, false, false⟩, [0x40000000, 0]), (.vscacc ⟨3, 1, 2, .f32, 0, false, false, false⟩, [0x40000000, 0]),
    (.vscomb ⟨3, 1, 2, .f32, 0, false, false, false⟩, [0x40000000, 0])] : List (Instr × List Nat)).all
    (fun e => (resRow e.1 (sV 2 (words 32 [0x3F800000, 0], words 32 [0x40000000, 0x40000000])) 32 2).map (·.1) = some e.2) = true := by decide +kernel
/-- R125, R127, R128, R129, by hand. -/
theorem test_vector_masks_and_sums :
    (match exec (.vcmp .lt 2 1 2 .i16 0 false false) (sV 3 (words 16 [0x7FFF, 0x8000, 1], words 16 [1, 0xFFFF, 2])) with | .next t => some (t.cur.kVal 2) | _ => none) = some 2 ∧
    resS (.vred .add 3 1 .i16 0 false) (sV 3 (words 16 [0x7FFF, 0x8000, 1], words 16 [1, 0xFFFF, 2])) 3 = some 0 ∧
    resS (.vred .min 3 1 .i16 0 false) (sV 3 (words 16 [0x7FFF, 0x8000, 1], [])) 3 = some 0xFFFFFFFFFFFF8000 ∧
    resS (.vred .max 3 1 .i16 0 false) (sV 0 (words 16 [0x7FFF, 0x8000, 1], [])) 3 = some 0xFFFFFFFFFFFF8000 ∧
    resS (.vdot 3 1 2 .i16 0 false) (sV 3 (words 16 [0x7FFF, 0x8000, 1], words 16 [1, 0xFFFF, 2])) 3 = some 0x10001 ∧
    resRow (.vbdot 3 1 2 .i8 0 false false false) (sV 3 (words 8 [1, 2, 0xFF], words 8 [3, 4, 5])) 32 2 = some ([0x40C00000, 0], 0, 0) := by decide +kernel
/-- R151 to R155, by hand: two sums of intervals, and the sum of products of [1, 2] and [3, 4]. -/
theorem test_vector_intervals :
    (resRow (.viadd ⟨3, 1, 2, 0, false, false, false⟩) (sV 1 (words 64 [0x400000003F800000], words 64 [0x4080000040400000])) 64 2).map (·.1) = some [0x40C0000040800000, 0] ∧
    resIv (.vidot 9 1 2 0 false) (sV 1 (words 64 [0x400000003F800000], words 64 [0x4080000040400000])) 9 = some 0x4100000040400000 := by decide +kernel

theorem wit_VectorResults : Spec.rowsReady (sV 16 ([], [])) [0, 512] [0x5FE00] (bankTurns [0, 512]) ∧ Spec.rowsReady (sV 16 ([], [])) [0x5FE00, 0, 512] [0x5FE00] (bankTurns [0x5FE00, 0, 512]) ∧
    Spec.rowsReady (sV 16 ([], [])) [0] [0x5FE00] 0 ∧ Spec.rowsReady (sV 16 ([], [])) [0] [0x5FE00] 1 ∧ Spec.rowsReady (sV 16 ([], [])) [] [0x5FE00] 0 ∧
    ((sV 16 ([], [])).cur.sState 5 = .full ∧ Spec.addr (sV 16 ([], [])) 1 = 0 ∧ Spec.addr (sV 16 ([], [])) 2 = 512 ∧ Spec.addr (sV 16 ([], [])) 3 = 0x5FE00 ∧
    fmtFF .f16 = some .f16) := by
  refine ⟨?_, ?_, ?_, ?_, ?_, ?_⟩ <;> (try unfold Spec.rowsReady) <;> (try dsimp only) <;> decide +kernel
/-- F32 to E4M3 over four rows of the source; I64 with no element. -/
theorem wit_VectorConversionAndCompare : Spec.rowsReady (sV 512 ([], [])) [0, 512, 1024, 1536] [0x5FE00] 3 ∧ Spec.rowsReady (sV 0 ([], [])) [] [] 0 ∧
    (∀ r ∈ [(3 : PReg), 1], Spec.addr (sV 0 ([], [])) r ≤ 0x5FFFF ∧ Spec.addr (sV 0 ([], [])) r % 512 = 0) ∧
    Spec.rowsReady (sV 16 ([], [])) [0, 512] [] (bankTurns [0, 512]) := by unfold Spec.rowsReady; dsimp only; decide +kernel
/-- A number for each approximate instruction; the special operands of F16: a zero, an infinity, a negative number, NaNs of both kinds. -/
theorem wit_VectorResults_approximations : Spec.operand .f32 false 0x40000000 = some 2 ∧ Spec.operand .bf16 true 0xC000 = some (-2) ∧
    Spec.infOf .f16 = 0x7C00 ∧ 0x8000 % 2 ^ 15 = 0 ∧ (0 < 0x3C00 ∧ 0x3C00 < Spec.infOf .f16) ∧ Spec.infOf .f16 < 0x7C01 ∧ 0x7C01 < Spec.infOf .f16 + 2 ^ 9 := by
  decide +kernel
/-- With no element, the identities; an F16 element widened; values for the sums, finite and not. -/
theorem wit_VectorReductionsAndProducts_values : ((List.range 512).filter (Spec.on (sV 0 ([], [])) 1 8 512)) = [] ∧ Spec.rowsReady (sV 0 ([], [])) [0] [] 0 ∧
    Spec.widened .f16 false 0xBC00 0xBF800000 ∧ Spec.nanOf .f16 0x7C01 = true ∧ Spec.nanOf .f16 0x7C00 = false ∧
    (∀ x ∈ [(FVal.fin true 3 1, (-6 : Rat)), (.fin false 0 0, 0)], Spec.fin x.1 = some x.2) ∧ FVal.isNan (.inf true) = false := by
  unfold Spec.rowsReady Spec.widened; dsimp only; decide +kernel
theorem wit_VectorReductionsAndProducts : (sV 16 ([], [])).cur.sState 3 ≠ .pending ∧ Spec.rowsReady (sV 16 ([], [])) [0] [] 0 ∧
    Spec.rowsReady (sV 16 ([], [])) [0, 512] [] (bankTurns [0, 512]) ∧ Spec.rowsReady (sV 16 ([], [])) [0, 512] [0x5FE00] (bankTurns [0, 512]) ∧
    fmtFF .i8 = none ∧ (fmtFF .bf16).isSome = true ∧ Spec.on (sV 16 ([], [])) 1 8 512 0 = true := by unfold Spec.rowsReady; dsimp only; decide +kernel
/-- An empty meet of [1, 2] and [3, 4] under TE, and without it. -/
def sVI (ist : BitVec 16) : State := upCtl (fun c => { c with ist := ist }) (sV 1 (words 64 [0x400000003F800000], words 64 [0x4080000040400000]))
theorem wit_VectorIntervalResults : Spec.rowsReady (sVI 8) [0, 512] [0x5FE00] (bankTurns [0, 512]) ∧ Spec.rowsReady (sVI 8) [0] [0x5FE00] 0 ∧
    istTe (sVI 8).cur.ctl.ist = true ∧ istTe (sVI 0).cur.ctl.ist = false ∧ Spec.on (sVI 8) 0 64 64 0 = true ∧
    (ivMeet (elem 64 (((sVI 8).core 0).row 0) 0) (elem 64 (((sVI 8).core 0).row 512) 0)).em = true ∧
    (ivAdd (elem 64 (((sVI 8).core 0).row 0) 0) (elem 64 (((sVI 8).core 0).row 512) 0)).em = false ∧ (sVI 8).cur.ivState 15 ≠ .pending ∧
    Spec.rowsReady (sVI 8) [0, 512, 0x5FE00] [0, 512, 0x5FE00] (bankTurns [0, 512, 0x5FE00]) ∧ Spec.rowsReady (sVI 8) [0, 0x5FE00] [0, 0x5FE00] (bankTurns [0, 0x5FE00]) := by
  unfold Spec.rowsReady; dsimp only; decide +kernel
/-- Unit 4 is poisoned, which holds lanes 64 to 79 of the row at 0. -/
theorem wit_VectorIntervalResults_make : ((upCore (sVI 8) 0 fun k => { k with spPoison := [4] }).core 0).spPoison = [4] ∧
    (∀ u ∈ [4], ∀ r ∈ [0, 512], ¬(r / 64 ≤ u ∧ u < r / 64 + 4)) ∧ needRows ((upCore (sVI 8) 0 fun k => { k with spPoison := [4] }).core 0) [0, 512] false = .ok () := by
  decide +kernel
/-- The boxes of the product, and a number in each. -/
theorem wit_VectorIntervalResults_product : Spec.inBox (elem 64 (((sVI 0).core 0).row 0) 0) ((1 : Rat) : ℝ) ∧
    Spec.inBox (elem 64 (((sVI 0).core 0).row 512) 0) ((4 : Rat) : ℝ) := by
  refine ⟨?_, ?_⟩ <;> refine inBox_of (by unfold Spec.isBox; decide +kernel) ?_ ?_ <;> decide +kernel
/-- A row past the scratchpad; one out of line; two sources in one bank. -/
def sVF (p : Nat) : State := on (pregs [(2, p)] (sV 16 ([], []))) fun c => { c with owe := 0 }
theorem wit_ScratchpadAndRowFaults_rows : (sVF 0x60000).cur.acq = none ∧ 0x5FFFF < Spec.addr (sVF 0x60000) 2 ∧ Spec.addr (sVF 0x60000) 3 ≤ 0x5FFFF ∧
    Spec.addr (sVF 1) 2 % 512 ≠ 0 ∧ Spec.addr (sVF 1) 2 ≤ 0x5FFFF ∧ Spec.addr (sVF 1) 3 % 512 = 0 ∧ Spec.addr (sVF 1536) 2 ≠ Spec.addr (sVF 1536) 1 ∧
    Spec.addr (sVF 1536) 2 / 512 % 3 = Spec.addr (sVF 1536) 1 / 512 % 3 ∧ (sVF 1536).cur.owe = 0 ∧ needRows ((sVF 1536).core 0) [0, 1536] false = .ok () ∧
    needRows ((sVF 1536).core 0) [0x5FE00] true = .ok () ∧ needCleanRows ((sVF 1536).core 0) [0, 1536] = .ok () := by decide +kernel
/-- `VCVT` of I8 to F32, whose second row leaves the scratchpad behind the row of `p3`. -/
theorem wit_ScratchpadAndRowFaults_spans : Spec.addr (sV 200 ([], [])) 3 = 0x5FE00 ∧ 0x5FFFF < Spec.addr (sV 200 ([], [])) 3 + 512 * 1 ∧
    min (sV 200 ([], [])).cur.ctl.vl (max (4096 / fmtBits .i8) (4096 / fmtBits .f32)) = 200 ∧ 1 < max 1 ((200 + 128 - 1) / 128) := by decide +kernel

/-! ### Operand memory and the array -/

/-- Slots with the tags given are held by the strand; slot 1 begins with `a`, slot 2 with `b`. `s1` is the last place of an I32 tile. -/
def sO (tags : List (Nat × Nat)) (a b : Nat) : State :=
  upCore (regs [(1, 0x5F000), (2, 0), (3, 512)] w0) 0 fun k =>
    { k with omTag := tags, omHold := tags.map fun e => (e.1, 0), om := (Memory.write [] 4096 (words 32 [a])).write 8192 (words 32 [b]) }
def resTile (i : Instr) (s : State) (n : Nat) : Option (Nat × Nat) :=
  match exec i s with
  | .next t => (t.core 0).array.map fun x => (elem 32 x.result n, x.ctag)
  | _ => none
/-- R208, R209, by hand: 2 × 3 as I8 over an old 5. -/
theorem test_mma : resTile (.mma 3 1 2 false) (upCore (sO [(1, 0), (2, 0), (3, 2)] 2 3) 0 fun k => { k with om := k.om.write 12288 [5] }) 0 = some (11, 2) := by
  decide +kernel

theorem wit_OperandMemoryCommands : (45 : BitVec 6).toNat + (15 : BitVec 4).toNat ≤ 63 ∧ (w0.core 0).omHold = [] ∧ (w0.core 0).omRelease = [] ∧
    (w0.core 0).claims = [] ∧ (∀ x ∈ [1, 2, 3], ((sO [(1, 7), (2, 0), (3, 2)] 0 0).core 0).omHold.find? x = some 0) ∧
    ((sO [(1, 7), (2, 0), (3, 2)] 0 0).core 0).omHold.find? 4 ≠ some 0 := by decide +kernel
theorem wit_OperandMemoryCommands_commands : (sO [(1, 7), (2, 0), (3, 2)] 0 0).cur.acq = none ∧ (((sO [(1, 7), (2, 0), (3, 2)] 0 0).core 0).queue 2).length < 16 ∧
    (sO [(1, 7), (2, 0), (3, 2)] 0 0).cur.sState 1 = .full ∧ ((sO [(1, 7), (2, 0), (3, 2)] 0 0).cur.sVal 1).toNat + 128 * fmtBits .f32 = 0x60000 ∧
    ((sO [(1, 7), (2, 0), (3, 2)] 0 0).cur.sVal 1).toNat % 512 = 0 ∧ ((sO [(1, 7), (2, 0), (3, 2)] 0 0).core 0).omTag.find? 1 = some 7 ∧
    ((sO [(1, 7), (2, 0), (3, 2)] 0 0).core 0).omTag.find? 2 = some (fmtNum .i8) ∧ ((sO [(1, 7), (2, 0), (3, 2)] 0 0).core 0).omTag.find? 3 = some 2 ∧
    (sO [(1, 7), (2, 0), (3, 2)] 0 0).cur.sState 0 ≠ .pending := by decide +kernel

def sArray : ArrayOp := { strand := 0, gang := 0, pc := 0, rot := false, new_ := true, a := 1, b := 2, c := 3, ra := 4, rb := 5, done := 8, sent := 0, gotA := 0, gotB := 0, result := 6, nanAt := none, flags := 0, sat := 0, ctag := 2 }
/-- An array operation that ends now; one of an `MROT` with a tile in the landing buffer to the east, and with none. -/
def sDone (rot : Bool) (n : Nat) (tiles : List Tile) (x : Option ArrayOp) : State :=
  { upCore (sO [] 0 0) 0 (fun k => { k with array := x.map fun y => { y with rot := rot }, landE := tiles }) with now := 8, arg := { id := 0, n := n, idx := 10, sub := 1, data := [1, 2] } }
theorem wit_TileProducts : (0, 0, 2, 8) ∈ Spec.pairs ∧ (3 : BitVec 6) ≠ 1 ∧ (3 : BitVec 6) ≠ 2 ∧ Spec.arrayFree (sO [(1, 0), (2, 0), (3, 2)] 2 3) [1, 2, 3] ∧
    ((sO [(1, 0), (2, 0), (3, 2)] 2 3).core 0).omTag.find? 1 = some 0 ∧ ((sO [(1, 0), (2, 0), (3, 2)] 2 3).core 0).omTag.find? 2 = some 0 ∧
    ((sO [(1, 0), (2, 0), (3, 2)] 2 3).core 0).omTag.find? 3 = some 2 := by unfold Spec.arrayFree; dsimp only; decide +kernel
theorem wit_TileProducts_ends : ((sDone false 0 [] (some sArray)).core 0).array = some sArray ∧ sArray.rot = false ∧ sArray.done ≤ (sDone false 0 [] (some sArray)).now ∧
    sArray.nanAt = none ∧ sArray.result < 2 ^ 32768 ∧ ((sDone false 0 [] (some sArray)).strands.find? sArray.strand).map (·.ident.gang) = some sArray.gang := by
  decide +kernel
/-- Core (0, 0) of a STEP gang of two by two. -/
def sRot : State :=
  upGang (xregs [(2, 3 + 1 * 2 ^ 8 + 2 * 2 ^ 16 + 4 * 2 ^ 24 + 5 * 2 ^ 32 + 2 ^ 40)] (sO [(1, 0), (2, 0), (3, 2), (4, 0), (5, 0)] 2 3))
    fun g => { g with step := true, gw := 2, gh := 2, cores := [0, 1, 2, 3] }
theorem wit_TileProducts_rotation : (Instr.mrot2, (2 : XReg)) ∈ Spec.mrots ∧ (sRot.gangs.find? sRot.cur.ident.gang).map (fun g => (g.step, g.gw, g.gh)) = some (true, 2, 2) ∧
    sRot.cur.xVal 2 = BitVec.ofNat 64 (3 + 1 * 2 ^ 8 + 2 * 2 ^ 16 + 4 * 2 ^ 24 + 5 * 2 ^ 32 + 1 * 2 ^ 40) ∧ Spec.arrayFree sRot [1, 2, 3, 4, 5] ∧
    (sRot.core 0).omTag.find? 1 = some 0 ∧ (sRot.core 0).omTag.find? 2 = some 0 := by unfold Spec.arrayFree; dsimp only; decide +kernel
theorem wit_TileProducts_tiles : (sDone true 0 [] none).arg.n = 0 ∧ ((sDone true 0 [] none).core 0).array = none ∧ ((sDone true 0 [] none).core 1).array = none ∧
    (sDone true 1 [⟨10, 77, 1⟩] (some sArray)).arg.n = 1 ∧
    ((sDone true 1 [⟨10, 77, 1⟩] (some sArray)).core 0).array.map (fun x => (x.sent, x.rot)) = some (0, true) ∧
    ((sDone true 1 [⟨10, 77, 1⟩] (some sArray)).core 0).land false = [⟨10, 77, 1⟩] ∧ 77 < 2 ^ (1024 * fmtBits (tagFmt 10)) := by decide +kernel

/-! ### Engine commands -/

/-- The descriptions of a copy in `x0` to `x2`; slots 0 and 1 held; gather window 2 bound. -/
def sX (dst src ctl : Nat) : State :=
  xregs [(0, dst), (1, src), (2, ctl), (3, dst), (4, src), (5, ctl)] (upCore (sO [(0, 7), (1, 7)] 0 0) 0 fun k => { k with bound := [(2, (0, 8, 0))] })
/-- The ends of the scratchpad, of the operand memory, of a gather window and of the numbers of cores and rings. -/
theorem wit_CopiesWindowsAndPosts : (sX 0 0 0).cur.acq = none ∧ ((sX 0 0 0).core 0).queue 0 = [] ∧ ((sX 0 0 0).core 0).queue 1 = [] ∧
    Spec.addressWord (sX 0 0 0) 0 true 0x5FFC0 64 ∧ Spec.addressWord (sX 0 0 0) 0 false (BitVec.ofNat 64 (2 ^ 34 + 0x40)) 64 ∧
    Spec.addressWord (sX 0 0 0) 2 true (BitVec.ofNat 64 (2 ^ 48 - 64)) 64 ∧ Spec.addressWord (sX 0 0 0) 3 true 15 64 ∧
    (sX 0x1000 0x2000 128).cur.xVal 2 = BitVec.ofNat 64 (128 + 0 * 2 ^ 36 + 0 * 2 ^ 40 + 0 * 2 ^ 44) ∧ 128 % 64 = 0 ∧ 100 % 64 ≠ 0 := by
  refine ⟨by decide +kernel, by decide +kernel, by decide +kernel, ⟨by decide, by decide, .inl (by decide)⟩,
    ⟨by decide +kernel, by decide +kernel, .inr ⟨0, by decide, by decide +kernel⟩⟩, ⟨by decide +kernel, by decide +kernel⟩, .inl (by decide +kernel), by decide +kernel⟩
theorem wit_CopiesWindowsAndPosts_kinds : Spec.addressWord (sX 0 0 0) 1 true 0x1FC0 64 ∧ Spec.addressWord (sX 0 0 0) 3 false (BitVec.ofNat 64 (2 * 2 ^ 32 + 448)) 64 := by
  refine ⟨⟨by decide +kernel, by decide +kernel, by decide +kernel, by decide +kernel⟩, by decide +kernel, by decide +kernel, 0, 8, 0, by decide +kernel, by decide +kernel⟩
/-- A window of 2,048 rows of 64 bytes, whose indices end the scratchpad's first 8,448 bytes; one bound window and one not. -/
theorem wit_CopiesWindowsAndPosts_windows : (sX (0x10000 + 6 * 2 ^ 48) (0x100 + 2047 * 2 ^ 20 + 99 * 2 ^ 32) 0).cur.xVal 0 = BitVec.ofNat 64 (0x10000 + 6 * 2 ^ 48) ∧
    0x10000 % (64 * 2 ^ 6) = 0 ∧ 0x100 + 4 * (2047 + 1) ≤ 0x60000 ∧ ((sX 0 0 0).core 0).bound.find? 7 = none ∧
    ((sX 0 0 0).core 0).bound.find? 2 ≠ none := by decide +kernel
def withWin (v : Nat) (s : State) : State := { s with pkg := { s.pkg with wins := [(3, { w0 := BitVec.ofNat 64 v, cnt := 5 })] } }
/-- A registered outbound window, an inbound one, and one that is not registered; a put of 128 bytes and a get of two rows of 128 bytes. -/
theorem wit_CopiesWindowsAndPosts_posts :
    (((withWin (5 * 2 ^ 61) (sX (3 * 2 ^ 32 + 64) 0x1000 128)).pkg.wins.find? 3).getD {}).w0.toNat / 2 ^ 61 = 5 ∧
    (((withWin (4 * 2 ^ 61) (sX 0 0 0)).pkg.wins.find? 3).getD {}).w0.toNat / 2 ^ 61 ≠ 5 ∧ (((withWin 0 (sX 0 0 0)).pkg.wins.find? 3).getD {}).w0.getLsbD 63 = false ∧
    (((withWin (5 * 2 ^ 61) (sX 0 0 0)).pkg.wins.find? 3).getD {}).w0.getLsbD 63 = true ∧ (((withWin (5 * 2 ^ 61) (sX 0 0 0)).pkg.wins.find? 3).getD {}).cnt.toNat = 5 ∧
    (sX (3 * 2 ^ 32 + 64) 0x1000 128).cur.xVal 0 = BitVec.ofNat 64 (3 * 2 ^ 32 + 64) ∧ (sX 0 0x1000 128).cur.xVal 2 = BitVec.ofNat 64 (128 + 0 * 2 ^ 36) ∧
    (sX (3 * 2 ^ 32 + 64 + 2 ^ 48) 0x2000 (0x100 + 2 ^ 20)).cur.xVal 0 = BitVec.ofNat 64 (3 * 2 ^ 32 + 64 + 1 * 2 ^ 48) ∧
    (sX 0 0x2000 (0x100 + 2 ^ 20)).cur.xVal 2 = BitVec.ofNat 64 (0x100 + 1 * 2 ^ 20 + 0 * 2 ^ 40) ∧ (sX 0 0 0).cur.sState 3 = .full ∧
    ((sX 0 0 0).core 0).sp.wf = true := by decide +kernel
theorem wit_CopiesWindowsAndPosts_rows : Spec.addressWord (sX 0 0 0) 0 false 0x1000 128 ∧ Spec.addressWord (sX 0 0 0) 0 true 0x2000 256 :=
  ⟨⟨by decide, by decide, .inl (by decide)⟩, ⟨by decide, by decide, .inl (by decide)⟩⟩

def sRing (free filled head tail : Nat) : State :=
  upCore (regs [(1, 2), (3, 0)] w0) 0 fun k => { k with rings := [(3, { base := 0x1000, size := 128, count := 4, free := free, filled := filled, head := head, tail := tail, gov := false, high := 0, low := 0, prod := 0, cons := 0 })] }
/-- R328, R329, by hand: the oldest filled slot is number 3 of 128-byte slots at 0x1000; two more slots are posted. -/
theorem test_rings : resS (.rtakeD 5 3 0) (sRing 2 1 3 1) 5 = some 0x1180 ∧ resS (.rtakeF 5 3 0) (sRing 2 1 3 1) 5 = some 0x1080 ∧
    (match exec (.rpostD 3 1 false) (sRing 1 0 3 1) with | .next t => ((t.core 0).rings.find? 3).map (·.filled) | _ => none) = some 2 := by decide +kernel
/-- A ring of 256 slots that ends the scratchpad; rings with slots of each mode; no ring. -/
theorem wit_RingsAndQueues : (w0.core 0).ringWaits = [] ∧ (w0.core 0).rings.find? 15 = none ∧ 0 + (255 + 1) * (64 * 2 ^ 4) ≤ 0x60000 ∧
    (xregs [(6, 4 * 2 ^ 36 + 255 * 2 ^ 40)] w0).cur.xVal 6 = BitVec.ofNat 64 (0 + 4 * 2 ^ 36 + 255 * 2 ^ 40) ∧ w0.cur.xVal 7 = 0 ∧
    ((sRing 2 1 3 1).core 0).rings.find? 3 ≠ none ∧ (sRing 2 1 3 1).cur.sState 1 = .full ∧ (sRing 2 1 3 1).cur.sState 5 ≠ .pending ∧
    ((sRing 2 1 3 1).cur.sVal 1).toNat = 2 ∧ Spec.drained (sRing 2 0 3 1) .writes ∧ 2 + 0 + 2 ≤ 4 := by unfold Spec.drained; decide +kernel
/-- A command of another strand in a queue; the strand's own in a queue that is not waited for. -/
def sQueue : State :=
  let cmd (n g : Nat) : Cmd := { id := n, strand := g, gang := 0, pc := 0, op := .mzero 2 false }
  upCore (regs [] w0) 0 fun k => { k with queues := (k.queues.setIfInBounds 0 [cmd 1 1]).setIfInBounds 2 [cmd 3 0] }
theorem wit_RingsAndQueues_queues : (∀ q < 4, (3 : BitVec 4).getLsbD q = true → ∀ e ∈ sQueue.cores, ∀ x ∈ e.2.queue q, x.strand ≠ sQueue.curId) ∧
    (∀ e ∈ sQueue.cores, ∀ f ∈ e.2.cmdFails, f.2.strand = sQueue.curId → (3 : BitVec 4).getLsbD f.2.queue = false) ∧
    (sQueue.gangs.find? sQueue.cur.ident.gang).map (fun g => (g.preempt, g.moving)) = some (none, none) := by decide +kernel

/-! ### Streams -/

def sStr (a b : Nat) : State :=
  (regs [(1, a), (2, b)] (paged w0)).setDie 2 { (w0.die 2) with streams := [(7, { rs := 64, idleT := 0, srcs := [⟨5, false, 0⟩, ⟨7, true, 0⟩], wm := 5 })] }
/-- Two records that end the scratchpad; the last source; a stream that is not defined; a unit of a page. -/
theorem wit_StreamInstructions_commands : (sStr 0 0).cur.acq = none ∧ (sStr 0 0).cur.sState 1 = .full ∧ (sStr 0 0).cur.sState 2 = .full ∧
    (((sStr 0 0).die 2).streams.find? 7).map (fun t => (t.rs, t.srcs.length)) = some (64, 2) ∧ ((sStr 0 0).core 0).queue 3 = [] ∧
    (sStr (7 + 2 * 2 ^ 16 + 1 * 2 ^ 32) 0x5FF80).cur.sVal 1 = BitVec.ofNat 64 (7 + 2 * 2 ^ 16 + 1 * 2 ^ 32) ∧ 0x5FF80 + (1 + 1) * 64 ≤ 0x60000 ∧ 0x5FF80 % 64 = 0 ∧
    (sStr (7 + 1 * 2 ^ 8 + 2 * 2 ^ 16) 0).cur.sVal 1 = BitVec.ofNat 64 (7 + 1 * 2 ^ 8 + 2 * 2 ^ 16) ∧ ((sStr 0 0).die 3).streams.find? 255 = none := by decide +kernel
theorem wit_StreamInstructions_publication : ((sStr 0x10000 0).cur.sVal 1).toNat % 16 = 0 ∧ Spec.drained (sStr 0x10000 0) .all ∧ (sStr 0x10000 0).inFlight 0 0 < 8 ∧
    Spec.reaches (sStr 0x10000 0) 0x10000 .w .write (2 ^ 30) 0x4000000F false ∧ Spec.reaches (sStr 0x10000 0) 0x10000 .r .read (2 ^ 30) 0x4000000F true ∧
    (sStr 0x10000 0).cur.sState 30 ≠ .pending ∧ (sStr 0x10000 0).cur.sState (30 + 1) ≠ .pending := by unfold Spec.drained Spec.reaches; decide +kernel
/-- Stream 255 and binding 1,023 of die 3; a stream area in a page that no other home holds. -/
def sBind : State :=
  let s := xregs [(0, 0), (1, 5000 + 2500 * 2 ^ 32), (2, 7 + 1 * 2 ^ 8), (3, 0x40000)] (regs [(1, 1023 + 3 * 2 ^ 16)] (paged w0))
  { s.setDie 3 { (s.die 3) with streams := [(7, { rs := 32, idleT := 0, srcs := [⟨0, false, 0⟩], wm := 0 })] } with mem := s.mem.write 0 [4, 0, 2, 0, 1, 0, 1, 0, 9, 0] }
theorem wit_StreamInstructions_bindings : sBind.cur.acq = none ∧ sBind.cur.sState 1 = .full ∧ Spec.drained sBind .writes ∧
    sBind.cur.sVal 1 = BitVec.ofNat 64 (1023 + 3 * 2 ^ 16) ∧ (regs [(1, 255 + 3 * 2 ^ 16)] w0).cur.sVal 1 = BitVec.ofNat 64 (255 + 3 * 2 ^ 16) ∧
    (xregs [(6, 9 + 3 * 2 ^ 32 + 63 * 2 ^ 34)] w0).cur.xVal 6 = BitVec.ofNat 64 (9 + 3 * 2 ^ 32 + 63 * 2 ^ 34) := by unfold Spec.drained; decide +kernel
/-- The strand has read the header, or has not. -/
def sArea (seen : List Byte) : State := on sBind fun c => { c with bind := { c.bind with seen := seen } }
theorem wit_StreamInstructions_area : Nat.gcd 5000 2500 = 2500 ∧ sBind.cur.xVal 1 = BitVec.ofNat 64 (5000 + 2500 * 2 ^ 32) ∧
    sBind.cur.xVal 2 = BitVec.ofNat 64 (7 + 1 * 2 ^ 8 + 0 * 2 ^ 16 + 0 * 2 ^ 32) ∧ (sBind.cur.xVal 3).toNat % 64 = 0 ∧ sBind.cur.bind.seen = [] ∧
    translate sBind 0 0x40000 .rw .write = .hit 0 0x4F ∧ sBind.cut 0 (homeOf 0) = false ∧ homeOf 0 = 0 ∧ resident (sBind.home 0) (blockOf 0) = true ∧
    sBind.cut sBind.cur.core (streamStop 3) = false ∧
    (let c := (sArea [4, 0, 2, 0, 1, 0, 1, 0, 9, 0, 0, 0, 0, 0, 0, 0]).cur
     c.bind.seen.length = 16 ∧ c.bind.map = [] ∧ Spec.bytes (fun i => c.bind.seen.getD i 0) 0 8 = 4 + 2 * 2 ^ 16 + 1 * 2 ^ 32 + 1 * 2 ^ 48 ∧
       Spec.bytes (fun i => c.bind.seen.getD i 0) 8 8 = 9) ∧
    ((sBind.die 3).streams.find? 7).map (·.rs) = some 32 ∧
    List.range' (0x40000 / 65536) ((0x40000 + (64 + 4 * (64 + (2 + 1) * 32) + 1 * 32) - 1) / 65536 + 1 - 0x40000 / 65536) = [4] ∧
    translate (sArea [4]) 0 (BitVec.ofNat 64 (max 0x40000 (4 * 65536))) .rw .write = .hit 0 0x4F := by decide +kernel

/-! ### System mode -/

/-- The last TLB entry; all dies in a shootdown; a register of the map; a snapshot in this cycle, and for user code. -/
theorem wit_SystemInstructions : (user (regs [] w0)).cur.ident.system = false ∧ (regs [(1, 255)] w0).cur.ident.system = true ∧
    ((regs [(1, 255)] w0).cur.sVal 1).toNat = 255 ∧ (regs [(1, 255)] w0).cur.sState 1 = .full ∧ ((regs [(2, 0xFFF)] w0).cur.sVal 2).toNat < 2 ^ 12 ∧
    (regs [] w0).cur.sState 2 = .full ∧ Spec.drained (regs [] w0) .all ∧ (regs [] w0).cur.sVal 0 = 0 ∧ (w0.reg 0x500010).isSome = true ∧ 0x500010 % 8 = 0 ∧
    (regs [] w0).cur.sState 3 ≠ .pending ∧ Spec.drained (regs [] w0) .writes ∧ w0.pkg.snapAt ≠ some w0.now ∧ w0.pkg.snapUser = false := by unfold Spec.drained; decide +kernel

/-! ### Homes -/

/-- Request 4 of `acc` at physical address 32 of home 0 has its turn at the home's port; the word there is 0x0807060504030201. -/
def sHome (acc : Access) : State :=
  { w0 with reqs := [(4, { acc := acc, strand := some 0, gang := 0, core := 5, home := 0, pa := 32, va := 32, pc := 0 })], nextId := 5
            mem := w0.mem.write 32 [1, 2, 3, 4, 5, 6, 7, 8], arg := { id := 4, flag := true }
            homes := w0.homes.set 0 { (w0.home 0) with check := [(0, { writer := some (0, 5), readers := [(0, 1), (3, 2)] })] } }
/-- What request 4 answers, and the word at 32 afterwards. -/
def resHome (acc : Access) : Option (Option Word × Nat) :=
  match exec .remoteRequestArrival (sHome acc) with
  | .next t => some ((t.reqs.find? 4).map (·.val), t.mem.readN 32 8)
  | _ => none
/-- R256, R258, R264 to R266, by hand: a load of four bytes; a store of two of three bytes; wrapping, signed, and compared atomics. -/
theorem test_home_accesses : ([(.load 4 (.s 3), 0x04030201, 0x0807060504030201), (.store [some 9, none, some 0], 0, 0x0807060504000209),
    (.amo .add 0xFFFFFFFFFFFFFFFF 3, 0x0807060504030201, 0x0807060504030200), (.amo .min 0x8000000000000000 3, 0x0807060504030201, 0x8000000000000000),
    (.amo .swap 7 3, 0x0807060504030201, 7), (.red .xor 0x0807060504030201, 0, 0), (.cas 0x0807060504030201 7 3, 0x0807060504030201, 7),
    (.cas 5 7 3, 0x0807060504030201, 0x0807060504030201), (.ldw 3 3, 0x0807060504030201, 0x0807060504030201)] : List (Access × Word × Nat)).all
    (fun e => resHome e.1 = some (some e.2.1, e.2.2)) = true := by decide +kernel
/-- The request meets `Spec.atHome` whatever its access. -/
theorem wit_HomeAccessesWriteTheirBytes : ∀ a ∈ [Access.load 8 (.s 3), .store [some 9, none, some 0], .amo .fadd 5 3, .red .add 5, .cas 5 7 3, .ldw 0x0807060504030201 3, .close 0],
    (sHome a).reqs.find? 4 = some { acc := a, strand := some 0, gang := 0, core := 5, home := 0, pa := 32, va := 32, pc := 0 } ∧
    (sHome a).arg.flag = true ∧ (sHome a).arg.flag2 = false ∧ resident ((sHome a).home 0) (blockOf 32) = true ∧
    (sHome a).isBehind 4 { acc := a, strand := some 0, gang := 0, core := 5, home := 0, pa := 32, va := 32, pc := 0 } = false ∧
    ((sHome a).home 0).mesh = [] ∧ (sHome a).poison = [] ∧ (sHome a).mem.wf = true ∧ 32 % 64 + 8 ≤ 64 ∧ dispWord (sHome a) 32 8 = none ∧
    (sHome a).bufUsed 0 < 2048 ∧ (sHome a).pkg.thermal = false ∧ ((sHome a).home 0).zeroing.getD (granuleOf 32) 0 ≤ (sHome a).now ∧
    ((sHome a).home 0).live = [0] := by decide +kernel
/-- The granule of a write is ELIDED; a write is one of its line. -/
theorem wit_HomeAccessesWriteTheirBytes_elided : (upHome (sHome (.store [some 9])) 0 fun h => { h with live := [] }).writesLine
      { acc := .store [some 9], strand := some 0, gang := 0, core := 5, home := 0, pa := 32, va := 32, pc := 0 } = true ∧
    ((upHome (sHome (.store [some 9])) 0 fun h => { h with live := [] }).home 0).live = [] ∧ (Access.store [some 9]).needsBlock = true := by decide +kernel

/-- Home 0 in cycle 1,000, for event `a`. -/
def sH (f : Home → Home) (a : EvArg) : State := { upHome (regs [] w0) 0 f with arg := a, now := 1000 }
def queue7 : WaitQ := { waiters := [⟨.strand 0, 5⟩, ⟨.req 3, 6⟩], keptAt := some 5 }
theorem wit_HomeEvents_fetches : choose ((sH (fun h => { h with queues := [(7, queue7)], live := [] }) { idx := 7 }).home 0) 256 32768 1000 = some (7, queue7, false) ∧
    ((sH (fun h => { h with queues := [(7, queue7)], live := [] }) { idx := 7 }).home 0).fetchCount < 8 ∧
    ((sH (fun h => { h with queues := [(7, queue7)], live := [] }) { idx := 7 }).home 0).isLive 7 = false ∧
    ((sH (fun h => { h with frames := [(7, { st := .fetching false })] }) { idx := 7 }).home 0).frames.find? 7 = some { st := .fetching false } ∧
    (sH (fun h => { h with frames := [(7, { st := .fetching false })] }) { idx := 7 }).eccBad = [] ∧
    ((sH (fun h => { h with queues := [(7, queue7)], live := [] }) { idx := 7 }).home 0).fetchAt ≤ 1000 := by decide +kernel
/-- The waiters of the block that arrives: a parked strand, and a request that nothing precedes. -/
def sArrives : State :=
  { on (sH (fun h => { h with frames := [(7, { st := .fetching false })], queues := [(7, queue7)] }) { idx := 7 }) (fun c => { c with place := .parked }) with
    reqs := [(3, { acc := .load 8 (.s 3), strand := some 1, gang := 0, core := 5, home := 0, pa := 7 * 8192, va := 0, pc := 0, stage := .waiting })] }
theorem wit_HomeEvents_arrival : (sArrives.home 0).queues.find? 7 = some queue7 ∧ (sArrives.strands.find? 0).map (·.place) = some .parked ∧
    (sArrives.reqs.find? 3).map (fun r => sArrives.isBehind 3 { r with stage := .sent }) = some false := by decide +kernel
/-- A clean transit block that arrived at 900; a waiter in the overflow; a resident patrolled block; a bank with and one without credit. -/
theorem wit_HomeEvents : ((sH (fun h => { h with frames := [(7, { st := .resident false, at_ := 900 })] }) { idx := 7, sub := 900 }).home 0).frames.find? 7 =
      some { st := .resident false, at_ := 900 } ∧
    ((sH (fun h => { h with overflow := [(9, ⟨.strand 0, 4⟩, true)] }) {}).home 0).overflow = [(9, ⟨.strand 0, 4⟩, true)] ∧
    resident ((sH (fun h => { h with overflow := [(9, ⟨.strand 0, 4⟩, true)] }) {}).home 0) 9 = false ∧
    ((sH (fun h => { h with live := [0], patrol := 100 }) {}).home 0).patrolNext 0 = some 0 ∧
    ((sH (fun h => { h with live := [0], patrol := 100 }) {}).home 0).frames.find? 0 ≠ none ∧
    0 < ((sH (fun h => { h with credit := [(3, 2)] }) { idx := 3 }).home 0).credit.getD 3 0 ∧
    ((sH (fun h => { h with credit := [(3, 2)] }) { idx := 4 }).home 0).credit.getD 4 0 = 0 ∧
    ((sH (fun h => { h with phase := true }) { flag := true }).home 0).phase = true ∧ ((sH (fun h => { h with phase := true }) { flag := true }).home 0).chanEnd ≤ 1000 ∧
    ((sH id {}).home 0).chan = [] ∧ ((sH id {}).home 0).live ≠ [] ∧ ((sH id {}).home 0).queues.length < 1024 := by
  decide +kernel
/-- Without any credit, whichever bank is pulled forward has room for one. -/
theorem wit_HomeEvents_pull (b : Nat) : ((sH (fun h => { h with phase := true, credit := [] }) { flag := true }).home 0).credit.getD b 0 < 8 := by
  have h : ((sH (fun h => { h with phase := true, credit := [] }) { flag := true }).home 0).credit = [] := by decide +kernel
  rw [h]; exact Nat.zero_lt_succ 7

/-! ### Waits, replies and messages -/

def ring3 : Ring := { base := 0x1000, size := 64, count := 4, free := 0, filled := 0, head := 2, tail := 3, gov := false, high := 0, low := 0, prod := 0, cons := 0 }
/-- Strand 0 has waited since 700 for `k`, and its limit is the last cycle, 999; ring 3 is empty, the count
of window 3 is 4, the strand has a command in queue 2, slot 3 is held by
another strand and slot 4 is not yet free. -/
def sWait (k : WaitKind) : State :=
  let c := on (regs [] w0) fun c => { c with place := .parked, sFill := c.sFill.set 3 (if k = .fill (.s 3) then .empty else .pending)
                                             wait := some { kind := k, since := 700, until_ := some 999, len := 4, retire := { len := 4 } } }
  { upCore c 0 (fun x => { x with rings := [(3, ring3)], tagWaits := [{ addr := 8, who := .strand 0, full := true, val := 0 }], omHold := [(3, 5)], omRelease := [(4, [1])]
                                  queues := x.queues.setIfInBounds 2 [{ id := 1, strand := 0, gang := 0, pc := 0, op := .mzero 2 false }] }) with
    now := 1000, arg := { id := 0, sub := 700 }, pkg := { w0.pkg with wins := [(3, { w0 := 2 ^ 63, cnt := 4 })] } }
theorem wit_WaitsExpire : ∀ k ∈ [WaitKind.fill (.s 3), .pend (.s 3), .tag 8 true, .tag 8 false, .ring 3 true, .ring 3 false, .queues 4, .claim 2 3, .window 3 5],
    waitOver (sWait k) 0 (sWait k).cur k = false ∧
    (sWait k).cur.wait.map (·.kind) = some k ∧ (sWait k).cur.wait.map (·.since) = some (sWait k).arg.sub ∧
    (sWait k).cur.wait.map (fun w => (w.until_, w.len)) = some (some 999, 4) := by decide +kernel
theorem wit_WaitsExpire_claims : ((sWait (.claim 2 3)).core 0).omHold.find? 2 = none ∧ ((sWait (.claim 2 3)).core 0).omRelease.find? 2 = none ∧
    ((sWait (.claim 2 3)).core 0).omHold.find? 3 ≠ none ∧ ((sWait (.claim 4 1)).core 0).omRelease.find? 4 ≠ none := by decide +kernel
/-- A wait that is over; a parked `LDW`; a watcher; a held ring access; a held fill; a tagged request. -/
theorem wit_WaitsExpire_over : waitOver { upCore (sWait (.ring 3 true)) 0 (fun x => { x with rings := [(3, { ring3 with free := 2 })] }) with now := 1000 } 0 (sWait (.ring 3 true)).cur (.ring 3 true) = true ∧
    (sWait (.ring 3 true)).cur.kept = none := by decide +kernel
def sWatch : State :=
  { sWait (.fill (.s 3)) with
    arg := { id := 4 }, homes := [(1, { watchers := [3, 4] })]
    reqs := [(4, { acc := .ldw 5 3, strand := some 0, gang := 0, core := 0, home := 1, pa := 2 ^ 30, va := 64, pc := 0, stage := .watching })]
    msgs := [(4, { kind := 3, strand := 0, target := 0, addr := 0, reg := .s 3, val := 1, limit := some 999, arrived := true })] }
def sParked : State :=
  { on (sWait (.block 3)) (fun c => { c with kept := some { kind := .event, since := 600, until_ := some 999, len := 4, va := 88 } }) with arg := { id := 0, sub := 600, flag := true } }
/-- An access held since 700 by a command that waits for ring 3 of its core, or that waits no more. -/
def sHeldAccess (waits : Bool) : State :=
  { upCore (on (sWait (.fill (.s 3))) fun c => { c with heldSince := some 700, heldRing := (0, 3), heldLen := 4, place := .slot 0, wait := none }) 0 (fun x => { x with
      queues := x.queues.setIfInBounds 2 [{ id := 1, strand := 5, gang := 0, pc := 0, op := .mzero 2 false, ringWait := if waits then some (0, 3) else none }] }) with
    arg := { id := 0, sub := 700 } }
/-- A held access to a defined ring names its head and its tail (R328); the `TLDS` of a remote word keeps both with the word's address. -/
theorem test_held_access : after .heldAccessExpiry (sHeldAccess true) (fun t => t.cal.map fun d => (d.ev, d.arg.n, d.arg.id)) = some [(.containRetryResume, 0x32, 0)] := by decide +kernel
theorem wit_WaitsExpire_others : (sWatch.reqs.find? 4).map (fun r => (r.acc, r.stage, r.home)) = some (.ldw 5 3, .watching, 1) ∧ (sWatch.home 1).mesh = [] ∧
    sWatch.arg.flag = false ∧ (sWatch.msgs.find? 4).map (·.done) = some false ∧ (sWatch.strand 0).takes (.s 3) = true ∧ (sWatch.strand 0).takes (.s 5) = false ∧
    (sParked.strands.find? 0).map (fun c => (c.wait.map (·.kind), c.kept.map fun k => (k.kind, k.since, k.until_))) = some (some (.block 3), some (.event, 600, some 999)) ∧
    sParked.arg.flag = true := by decide +kernel
theorem wit_WaitsExpire_held : (∀ b ∈ [true, false], ((sHeldAccess b).strands.find? 0).map (fun c => (c.heldSince, c.heldRing)) = some (some 700, (0, 3))) ∧
    ((sHeldAccess true).core 0).cmds.map (·.ringWait) = [some (0, 3)] ∧ ((sHeldAccess false).core 0).cmds.map (·.ringWait) = [none] ∧
    ((sHeldAccess true).core 0).rings.find? 3 = some ring3 ∧ (sWatch.msgs.find? 4).map (fun m => (m.done, m.target)) = some (false, 0) := by decide +kernel

/-- Strand 0 in cycle 1,000, for event `a`. -/
def sR (f : Strand → Strand) (a : EvArg) (g : State → State) : State := { g (on (regs [(3, 5)] w0) f) with arg := a, now := 1000 }
def withReq (acc : Access) (d : List Byte) (s : State) : State :=
  { s with reqs := [(4, { acc := acc, strand := some 0, gang := 0, core := 0, home := 1, pa := 2 ^ 30, va := 64, pc := 12, stage := .done, val := 77, data := d })], nextId := 9 }
def withMsg (k : Nat) (s : State) : State := { s with msgs := [(4, { kind := k, strand := 0, target := 0, addr := 8, reg := .s 3, val := 1, limit := none, arrived := k == 3 })] }
def sAmo : State := sR (fun c => { c with place := .parked, wait := some { kind := .reply 4, since := 0, len := 4, retire := { len := 4, dst := .s 3 } } }) { id := 4, n := 5 } (withReq (.amo .fadd 3 3) [])
theorem wit_RepliesAndMessages_replies : ((sR id { id := 4 } (withReq (.load 4 (.s 3)) [])).reqs.find? 4).map (fun r => (r.acc, r.strand, r.fail)) = some (.load 4 (.s 3), some 0, none) ∧
    (sR id { id := 4 } id).cur.awaits 4 = false ∧ (sAmo.reqs.find? 4).map (fun r => (r.acc, r.strand, r.gang, r.fail)) = some (.amo .fadd 3 3, some 0, sAmo.cur.ident.gang, none) ∧
    sAmo.cur.wait.map (fun w => (w.kind, w.retire)) = some (.reply 4, { len := 4, dst := .s 3 }) ∧ sAmo.cur.place = .parked ∧
    ((sR id { id := 4 } (withReq (.store [some 3]) [])).reqs.find? 4).map (·.acc) = some (.store [some 3]) ∧
    (sR (fun c => { c with fetch := .flight 4 }) { id := 0, sub := 4 } (withReq (.fetch 4 false) [0x06, 0xC0, 0x50, 0x84])).cur.fetch = .flight 4 ∧
    ((sR id { id := 0, sub := 4 } (withReq (.fetch 4 false) [0x06, 0xC0, 0x50, 0x84])).reqs.find? 4).map (·.data) =
      some [(0xC006 : Half).setWidth 8, ((0xC006 : Half) >>> 8).setWidth 8, (0x8450 : Half).setWidth 8, ((0x8450 : Half) >>> 8).setWidth 8] := by decide +kernel
def rowLoad : RowLoad := { strand := 0, gang := 0, row := 512, width := 8, enabled := (List.range 512).map (fun i => i % 3 = 0), left := 1
                           lines := (List.range 8).map fun i => (i, List.replicate 64 (BitVec.ofNat 8 i)) }
theorem wit_RepliesAndMessages : ((sR id { id := 5, idx := 3 } fun s => { s with pages := [(3, (0x3000F, 0xFFF))] }).pages.find? 3) = some (0x3000F, 0xFFF) ∧ leafBig 0x3000F = false ∧
    ((sR id { id := 5 } id).core 5).victim = some 0 ∧ ((sR id { id := 5 } id).core 5).misses.find? 3 = none ∧
    (sR (fun c => { c with place := .parked, wait := some { kind := .event, since := 0, info := 1, len := 4, retire := { len := 4 } } }) { id := 7, n := 2 } id).cur.wait.map
      (fun w => (w.kind, w.info, w.retire)) = some (.event, 1, { len := 4 }) ∧
    (sR (fun c => { c with place := .migrating 9 }) { id := 0, idx := 9 } id).stopping 0 = false ∧ rowLoad.width ∈ [2, 4, 8, 16, 32, 64] ∧ 511 < 4096 / rowLoad.width ∧
    (∀ e ∈ rowLoad.lines, e.2.length = 64) ∧ rowLoad.lines.length = 8 ∧ ((sR id { id := 4, flag := true } (withMsg 0)).msgs.find? 4).map (·.done) = some false ∧
    (sR (fun c => { c with place := .ready, wait := some { kind := .retry 1000, since := 0 } }) {} id).cur.wait.map (·.kind) = some (.retry 1000) := by decide +kernel
theorem find?_one {t : Tbl Strand} (h : t.map (·.1) = [0]) (i : Nat) : t.find? (i + 1) = none := by
  rcases t with _ | ⟨⟨k, c⟩, r⟩
  · rfl
  · simp only [List.map_cons, List.cons.injEq, List.map_eq_nil_iff] at h
    obtain ⟨rfl, rfl⟩ := h
    rfl
theorem wit_RepliesAndMessages_awaits (i : Nat) : ((sR id { id := 0, idx := 4 } id).strand i).awaits 4 = false := by
  rcases i with _ | i
  · decide +kernel
  · have h : (sR id { id := 0, idx := 4 } id).strands.find? (i + 1) = none := find?_one (by decide +kernel) i
    rw [State.strand, Tbl.getD, h]; decide +kernel
/-- A fill whose register is full, one whose register is empty, and a `TSTR` of a word for which nobody waits. -/
theorem wit_RepliesAndMessages_fills : ((sR id { id := 4 } (withMsg 3)).msgs.find? 4).map (fun m => (m.target, m.reg)) = some (0, .s 3) ∧
    (sR id { id := 4 } id).cur.sState 3 = .full ∧ (sR (fun c => { c with sFill := c.sFill.set 3 .empty }) { id := 0, idx := 3, n := 1 } (withMsg 3)).cur.sState 3 = .empty ∧
    ((sR (fun c => { c with sFill := c.sFill.set 3 .empty }) { id := 0, idx := 3, n := 1 } (withMsg 3)).heldFills 0 (.s 3)).map (·.1) = [4] ∧
    (sR id { id := 4 } (withMsg 3)).cur.place ≠ .saved ∧ ((sR id { id := 4 } (withMsg 2)).msgs.find? 4).map (·.kind) = some 2 ∧
    ((sR id { id := 4 } (withMsg 2)).core 0).tagWaits = [] := by decide +kernel

/-! ### The package, its registers, the host and the fabric -/

/-- The placed strand with event particulars `a`, its package as `f` leaves it. -/
def sPk (f : Pkg → Pkg) (a : EvArg) : State := { w0 with pkg := f w0.pkg, arg := a, now := 1000 }

/-- R446, by hand: a die that is too hot, and one that draws too much, go 100 MHz down; else up; both stop at their limits. -/
theorem test_thermidor : ([(1600, 95 * 8 + 1, 0, 1500), (1600, 0, 501, 1500), (1500, 95 * 8, 500, 1600), (1600, 0, 0, 1600), (800, 999, 0, 800)] : List (Nat × Nat × Nat × Nat)).all
    (fun e => after .thermidorStep ((sPk id { die := 2, flag2 := true }).setDie 2 { fmhz := e.1, tmax := e.2.1, pwr := e.2.2.1 }) (fun t => (t.die 2).fmhz) = some e.2.2.2) = true := by decide +kernel
theorem wit_PackageEvents : (sPk id {}).arg.sub = 0 ∧ Spec.hostWritten (sPk id {}) ∧ (sPk id {}).pkg.bootErr = false ∧ (sPk id {}).pkg.thermal = false ∧ (sPk id {}).reqs = [] ∧
    (sPk (fun p => { p with ready := false }) {}).pkg.ready = false ∧ (sPk (fun p => { p with ready := false }) {}).pkg.tfail = false ∧
    (sPk id {}).pkg.quoteReq = false ∧ (sPk id {}).arg.flag2 = false ∧ (sPk id { flag2 := true }).arg.flag2 = true ∧ (sPk id { die := 3 }).arg.die < 4 ∧
    (sPk id { idx := 1 }).arg.idx < 2 ∧ (sPk (fun p => { p with bootErr := true, quoteReq := true }) {}).pkg.bootErr = true ∧
    (sPk (fun p => { p with quoteReq := true }) { flag2 := true }).pkg.quoteReq = true ∧ (sPk id {}).mem.wf = true := by unfold Spec.hostWritten; decide +kernel
/-- A write that waits at its home when a warm reset comes; readings of 115 and 125 °C; a die at its 16,000th cycle. -/
theorem wit_PackageEvents_others : (64 % 64 + ([1, 2] : List Byte).length ≤ 64 ∧ dispWord (sPk id {}) 64 2 = none ∧
      [Stage.port, .behind, .waiting].contains .waiting = true) ∧
    (((sPk id { die := 2, n := 1000 }).die 2).tmax < 115 * 8 ∧ 125 * 8 ≤ 1000 % 2 ^ 12) ∧
    (let d : Die := { count := 15999, frac := 0 }; 1600 ≤ d.frac + d.fmhz ∧ (d.count + 1) % 16000 = 0) := by decide +kernel

def stream32 : Stream := { rs := 32, idleT := 0, srcs := [⟨5, false, 3⟩, ⟨7, true, 900⟩], wm := 5, lower := 3, badRec := 4 }
/-- Die 2 with stream 7. -/
def sDie2 (a : EvArg) (f : Die → Die := id) : State := (sPk id a).setDie 2 (f { (w0.die 2) with streams := [(7, stream32)] })
/-- R365: a read returns both counts and clears them. -/
theorem test_suCnt_read : after .suCntRead (sDie2 { die := 2, id := 7 }) (fun t => (t.outs, ((t.die 2).streams.find? 7).map fun x => (x.lower, x.badRec))) =
    some ([.regData 0x400000003], some (0, 0)) := by decide +kernel
theorem wit_HostRegisters : (sDie2 { die := 2, id := 7 }).arg.die < 4 ∧ (sDie2 { die := 2, id := 7 }).arg.id < 256 ∧
    ((sDie2 { die := 2, id := 7 }).die 2).streams.find? 7 = some stream32 ∧ (sPk id { id := 767 }).arg.id < 768 ∧ (sPk id {}).pkg.snapAt ≠ some 1000 ∧
    (sPk id { v := 7 }).pkg.preempt.getLsbD 63 = false ∧ (sPk id { v := 7 }).arg.v.getLsbD 63 = false ∧ ((sPk id { idx := 3, v := 2 ^ 63 }).win 3).valid = false ∧
    (sPk id { idx := 3, v := 2 ^ 63 }).arg.v.toNat / 2 ^ 61 % 4 ≠ 3 ∧ (sPk id { idx := 15 }).arg.idx < 16 ∧ (sPk id {}).pkg.bootErr = false ∧
    (sPk (fun p => { p with bootErr := true }) {}).pkg.bootErr = true ∧ (sPk id {}).arg.sub = 0 ∧ Spec.hostWritten (sPk id {}) ∧
    ((sDie2 { die := 2, id := 8 }).die 2).streams.find? 8 = none ∧
    (sPk id { id := 0x130000 }).arg.id = 0x100000 + 3 * 0x10000 ∧ (sPk id { id := 0x600008 }).arg.id = 0x600008 + 0 * 0x1000 := by
  unfold Spec.hostWritten; decide +kernel

/-- Migration slot 4 is `m`. -/
def sMig (m : MigSlot) (a : EvArg) : State := sPk (fun p => { p with mig := p.mig.setIfInBounds 4 m }) a
def bytesOf (n : Nat) : List Byte := (List.range n).map (BitVec.ofNat 8)
/-- R413: a read of 70 bytes at 0x3E touches three lines. -/
theorem test_host_read : after .hostMemoryRead (sPk id { id := 0x3E, n := 70 }) (fun t => t.reqs.map fun e => (e.2.pa, e.2.acc)) =
    some [(0x3E, .hostRead 2), (0x40, .hostRead 64), (0x80, .hostRead 4)] := by decide +kernel
theorem wit_HostTraffic_memory : (sPk id { id := 0x3E, n := 70 }).pkg.tfail = false ∧ (sPk id {}).pkg.bootErr = false ∧ (sPk id {}).pkg.linkUp[0]? = some true ∧
    (sPk id { id := 0x3E, n := 70 }).arg.id + 70 ≤ 768 * 2 ^ 30 ∧ 768 * 2 ^ 30 < (sPk id { id := 768 * 2 ^ 30 - 3, n := 70, data := bytesOf 70 }).arg.id + 70 ∧
    (bytesOf 70).length = 70 ∧ (sPk (fun p => { p with tfail := true }) {}).pkg.tfail = true ∧ (sPk id {}).reqs = [] := by decide +kernel
/-- Two records of 32 bytes at 64, three of which the last does not fit, and source 1. -/
theorem wit_HostTraffic_ingress : ((sDie2 { die := 2, id := 7 }).die 2).streams.find? 7 = some stream32 ∧ stream32.srcs.length ≤ 64 ∧ 1 < stream32.srcs.length ∧ bytesOf 64 ≠ [] ∧
    64 + (bytesOf 64).length ≤ 0x800 ∧ 64 % stream32.rs = 0 ∧ (bytesOf 64).length % stream32.rs = 0 ∧ ¬(64 % stream32.rs = 0 ∧ (bytesOf 70).length % stream32.rs = 0) := by
  decide +kernel
/-- A release of link 1 while a write of that link is on its way; a read that has come back. -/
def sHost (acc : Access) (a : EvArg) : State :=
  { sPk id a with nextId := 9, reqs := [(4, { acc := acc, strand := none, gang := 0, core := linkStop true, home := 0, pa := 64, va := 0, pc := 0 })] }
theorem wit_HostTraffic_releases : (∀ e ∈ (sHost (.hostWrite [1] false) { flag2 := true, idx := 4 }).reqs, e.1 < 9 ∧ e.2.acc.isHostWrite = true ∧ e.2.stage ≠ .done ∧
      e.2.core = 3 * 192 + 11 * 16 + 15) ∧ ((sHost (.hostRead 8) { flag := true, id := 4 }).reqs.find? 4).isSome = true ∧ Spec.hostWritten (sPk id {}) ∧
    (sPk id { idx := 1, id := 0x38 }).pkg.linkUp[0]? = some true := by unfold Spec.hostWritten; decide +kernel
theorem wit_HostTraffic_links : (sPk id { idx := 1 }).arg.idx < 2 ∧ ({ sPk id { id := 2, idx := 1 } with gangs := [] }).gangs = [] ∧
    ({ sPk id { id := 0, flag := true } with strands := [] }).strandsOf 0 = [] ∧ ((sPk id {}).gangs.find? 0).map (·.starting) = some false := by decide +kernel
/-- A slot whose page core 0 translates, one whose page it does not, copies in and out at their first and at their last unit. -/
theorem wit_HostTraffic_copies : ((sMig { vpn := 0 } { idx := 4 }).mig 4).state = 0 ∧
    ([Kind.read, .write].all fun k => (match translate (sMig { vpn := 0 } { idx := 4 }) 0 (MigSlot.va { vpn := 0 }) .page k with | .hit pa _ => pa == 0 | _ => false)) = true ∧
    translate (sMig { vpn := 0x70000 } { idx := 4 }) 0 (MigSlot.va { vpn := 0x70000 }) .page .read = .miss (vpnOf (MigSlot.va { vpn := 0x70000 })) ∧
    (sMig { vpn := 0 } { idx := 4 }).cut (linkStop true) (homeOf 0) = false ∧ ((sMig { vpn := 0, state := 2 } {}).mig 4).state ≠ 0 ∧
    ((sMig { vpn := 0, state := 1 } { idx := 4 }).mig 4).state = 1 ∧ ((sMig { vpn := 0, state := 1 } { idx := 4 }).mig 4).ctl.getLsbD 16 = false ∧
    MigSlot.size { vpn := 0, unit := 1023 } = 64 * (1023 + 1) := by decide +kernel
def sMigEnd (put : Option (List Byte × Bool)) : State :=
  { sMig { vpn := 0, state := 1, unit := 1023, ctl := if put = none then 0x10000 else 0 } { id := 5, flag2 := true } with
    reqs := [(5, { acc := .mig 4 put, strand := none, gang := 0, core := 0, home := 0, pa := 65472, va := 65472, pc := 0, stage := .done, data := bytesOf 64 })] }
theorem wit_HostTraffic_ends : ∀ put ∈ [none, some (bytesOf 64, false)], ((sMigEnd put).reqs.find? 5).map (fun r => (r.acc, r.fail, r.va)) = some (.mig 4 put, none, ((sMigEnd put).mig 4).va) ∧
    ((sMigEnd put).mig 4).state = 1 ∧ ((sMigEnd put).mig 4).size = 64 * (((sMigEnd put).mig 4).unit + 1) := by decide +kernel

/-- Window 3 is inbound, of kind `kind`, at 0x10000 for 0x1000 bytes, puts and gets from package 5; port 2 is up, and 7 with it. -/
def sWin (kind : Nat) (a : EvArg) (units : Tbl FabUnit := []) : State :=
  (sPk (fun p => { p with wins := [(3, { w0 := BitVec.ofNat 64 (2 ^ 63 + kind * 2 ^ 61 + 3 * 2 ^ 59 + 0x10000), w1 := 0x1000, w2 := BitVec.ofNat 64 (5 + 7 * 2 ^ 18 + 2 * 2 ^ 26), port := 2 })]
                          portUp := 0x84, units := units }) { a with idx := 3, n := 5, sub := 9 }).setDie 2 { streams := [(7, { stream32 with rs := 64 })] }
/-- An inbound unit whose page core 0 translates for either access, and one whose page it may not write. -/
theorem wit_FabricTraffic_pages : ([(Need.w, Kind.write), (.r, .read)].all fun k => (match translate (at_ 0x10000) 0 0x10000 k.1 k.2 with | .hit pa _ => pa == 2 ^ 30 | _ => false)) = true ∧
    (match translate (at_ 0x50000) 0 0x50000 .w .write with | .fault _ => true | _ => false) = true ∧ (at_ 0x10000).cut 0 1 = false := by decide +kernel
def unit3 (g : Bool) : FabUnit := { core := 0, queue := 0, cmd := 3, win := 3, off := 0, port := 2, get := g }
/-- A unit for each kind of window that takes puts, and one past the end; a put's and a get's unit on its way. -/
theorem wit_FabricTraffic : ∀ k ∈ [0, 2], ((sWin k { v := 0xFC0 }).win 3).w0.toNat / 2 ^ 61 % 4 = k ∧ ((sWin k { v := 0xFC0 }).win 3).w0.getLsbD 63 = true ∧
    ((sWin k {}).win 3).w0.getLsbD 60 = true ∧ ((sWin k {}).win 3).w0.getLsbD 59 = true ∧ ((sWin k {}).win 3).w2.toNat % 2 ^ 13 = (sWin k {}).arg.n ∧
    (sWin k { v := 0xFC0 }).arg.v.toNat + 64 ≤ ((sWin k {}).win 3).w1.toNat % 2 ^ 40 ∧ ¬(sWin k { v := 0x1000 }).arg.v.toNat + 64 ≤ ((sWin k {}).win 3).w1.toNat % 2 ^ 40 ∧
    (((sWin k {}).die (((sWin k {}).win 3).w2.toNat / 2 ^ 26 % 4)).streams.find? (((sWin k {}).win 3).w2.toNat / 2 ^ 18 % 2 ^ 8)).map (·.rs) = some 64 := by decide +kernel
theorem wit_FabricTraffic_units : ∀ g ∈ [true, false], (sWin 0 { id := 6 } [(6, unit3 g)]).pkg.units.find? 6 = some (unit3 g) ∧ (unit3 g).get = g ∧ (unit3 g).missing = false ∧
    (unit3 g).got = none ∧ ∀ e ∈ (sWin 0 { id := 6 } []).pkg.units, e.2.port ≠ 3 := by decide +kernel

/-! ### Dispatchers and gangs -/

/-- The words of a record of a one-core, one-strand ARRIVAL node, with PRED `p` and status `st`. -/
def nodeWords (p st : Nat) : List Nat := [0, 0, 0x10101, 0, 0, p, 0, 0, 0, 0, 0, 0, 777, st, 0, 0]
/-- Node 3 of dispatcher 2, whose table lies at 0x4000. -/
def sNode (d : Die → Die) (p st : Nat) (a : EvArg) : State :=
  let s := sPk id a
  { s.setDie 2 (d { (s.die 2) with ntbase := 0x4000, lost := 7 }) with
    mem := (nodeWords p st).zipIdx.foldl (fun m e => m.writeN (0x4000 + 128 * 3 + 8 * e.2) 8 e.1) s.mem }
def readyNode (w : Nat) (fails : Nat) : ReadyNode := { node := 3, rec_ := ⟨[0, 0, BitVec.ofNat 64 w, 0, 0, 0, 0, 0, 0, 0, 0, 0, 777, 0, 0, 0]⟩, since := 900, fails := fails }
/-- A node of 2 × 2 cores and one of 17 × 1, which fits nowhere. -/
def small : Nat := 0x10202
def wide : Nat := 0x10111
/-- R174, R175: arming with predecessors left waits; a store that arms a RUNNING node is lost; PRED stops at 0, and what is beyond is lost. -/
theorem test_dispatcher : after .statusStore (sNode id 1 0 { die := 2, idx := 3, v := 1 }) (fun t => t.mem.readN (0x4000 + 128 * 3 + 0x68) 8) = some 1 ∧
    after .statusStore (sNode id 1 3 { die := 2, idx := 3, v := 1 }) (fun t => (t.die 2).lost) = some 8 ∧
    after .predUpdate (sNode id 1 0 { die := 2, idx := 3, v := BitVec.ofInt 64 (-3) }) (fun t => ((t.die 2).lost, t.mem.readN (0x4000 + 128 * 3 + 0x28) 8)) = some (10, 0) := by
  decide +kernel
theorem wit_DispatcherNodes_stores : ∀ e ∈ ([(1, 4), (0, 5), (5, 1), (0, 3)] : List (Nat × Nat)),
    (sNode id e.1 e.2 { die := 2, idx := 3, v := 1 }).arg.die < 4 ∧ (sNode id e.1 e.2 {}).mem.wf = true ∧
    Spec.bytes (sNode id e.1 e.2 {}).mem.get (0x4000 + 128 * 3 + 0x68) 8 = e.2 ∧ Spec.bytes (sNode id e.1 e.2 {}).mem.get (0x4000 + 128 * 3 + 0x28) 8 = e.1 := by decide +kernel
/-- The second line of the record of node 3 has been read; the first was read before. Word 2 is `w`. -/
def sRecord (w : Nat) (f : State → State := id) : State :=
  let line (l : List Nat) : List Byte := l.flatMap fun x => (List.range 8).map fun i => BitVec.ofNat 8 (x / 256 ^ i)
  let s := sNode (fun d => { d with reads := [(6, line [0, 0, w, 0, 0, 0, 0, 0])] }) 0 0 { die := 2, id := 4, n := 3 }
  f { s with reqs := [(4, { acc := .unitRead 64 (.record 2 3 1), strand := none, gang := 0, core := 0, home := 0, pa := 0, va := 0, pc := 0, stage := .done, val := 900
                            data := line ((nodeWords 0 0).drop 8) })] }
/-- The record that the lines hold. -/
def recordOf (w : Nat) : LaunchRec := ⟨[0, 0, BitVec.ofNat 64 w, 0, 0, 0, 0, 0, 0, 0, 0, 0, 777, 0, 0, 0]⟩
/-- A valid record of one core, one of 16 strands where every core lacks a slot, and one of no core. -/
theorem wit_DispatcherNodes_record : (∀ w ∈ [0x10101, 0x100100101, 0], ((sRecord w).reqs.find? 4).map (fun r => r.data.length) = some 64 ∧
      (((sRecord w).die 2).reads.find? 6).map (·.length) = some 64 ∧
      (recordOf w).words = (List.range 16).map (fun i => BitVec.ofNat 64 (Spec.bytes (fun p =>
        ((((sRecord w).die 2).reads.find? 6).getD [] ++ (((sRecord w).reqs.find? 4).map (·.data)).getD []).getD p 0) (8 * i) 8))) ∧
    (recordOf 0x10101).valid = true ∧ (sRecord 0x10101).holdable 2 (recordOf 0x10101) = true ∧ (recordOf 0).valid = false ∧ (recordOf 0x100100101).valid = true ∧
    (sRecord 0x100100101 fun s => { s with cores := (List.range 192).map fun i => (384 + i, { missing := [15] }) }).holdable 2 (recordOf 0x100100101) = false := by
  decide +kernel
/-- A head that fits, one that does not after 4 failures and after 64, and a trigger that is armed. -/
theorem wit_DispatcherNodes_passes : (sNode (fun d => { d with nodes := [readyNode small 4] }) 0 0 { die := 2 }).pkg.halted = false ∧
    (findRect (sNode id 0 0 {}) 2 (readyNode small 4).rec_ []).map (·.length) = some 4 ∧ (readyNode small 4).count = 1 ∧ (readyNode small 4).saved = false ∧
    (readyNode small 4).rec_.fld 0x50 0 8 = 0 ∧ findRect (sNode id 0 0 {}) 2 (readyNode wide 4).rec_ [] = none ∧ (readyNode wide 4).fails < 64 ∧ (readyNode wide 4).count = 1 ∧
    ((sNode (fun d => { d with trig := d.trig.set 5 0x80008003 }) 0 0 {}).die 2).trig[5]? = some 0x80008003 ∧ (0x80008003 : Word).getLsbD 31 = true := by decide +kernel
/-- Gang 50 of priority 3 holds every core of die 2; node 3 of priority 5 has failed 64 times. -/
def sBusy : State :=
  let s := sNode (fun d => { d with nodes := [readyNode (small + 2 ^ 32 + 5 * 2 ^ 33) 64] }) 0 0 { die := 2 }
  let cs := (List.range 192).map (· + 2 * 192)
  { s with
    gangs := s.gangs.set 50 { die := 2, node := 9, rec_ := ⟨[0, 0, BitVec.ofNat 64 (0x10C10 + 3 * 2 ^ 33), 0, 0, 0, 0, 0, 0, 0, 0, 0, 777, 0, 0x100000, 0]⟩, cores := cs, gw := 16, gh := 12, step := false }
    cores := cs.foldl (fun c k => c.set k { rot := false, rotNow := false, slots := (Vector.replicate 16 none).set 0 (some (k * 4096)) }) s.cores
    strands := cs.foldl (fun c k => c.set (k * 4096) { core := k, place := .slot 0, ident := { gang := 50, step := true } }) s.strands }
theorem wit_DispatcherNodes_victims : findRect sBusy 2 (readyNode (small + 2 ^ 32 + 5 * 2 ^ 33) 64).rec_ [] = none ∧ (sBusy.die 2).preempt = none ∧
    sBusy.victimsFor 2 (readyNode (small + 2 ^ 32 + 5 * 2 ^ 33) 64).rec_ = some [50] := by decide +kernel

def gang50 : Gang := { die := 2, node := 3, rec_ := ⟨(nodeWords 0 0).map (BitVec.ofNat 64)⟩, cores := [400], gw := 1, gh := 1, step := false }
/-- Gang 50 of core 400 is `g`, for event `a`. -/
def sGang (g : Gang) (a : EvArg) (f : State → State := id) : State := f { sPk id a with gangs := w0.gangs.set 50 g }
def strand50 (fe : Fetch) : Strand := { core := 400, place := .ready, fetch := fe, ident := { gang := 50 } }
theorem wit_GangLifeCycle_start : (sGang { gang50 with phase := .preloading 0 } { id := 50 }).gangs.find? 50 = some { gang50 with phase := .preloading 0 } ∧
    gang50.restored = false ∧ gang50.step = false ∧ gang50.rec_.nstr = 1 ∧ ((sGang gang50 {}).core 400).locals_ = [] ∧ ((sGang gang50 {}).core 400).ready = [] ∧
    gang50.starting = false := by decide +kernel
/-- A launch on a core whose local indices are all taken; the list of further successors to be read, and read. -/
def gangMore : Gang := { gang50 with rec_ := ⟨(nodeWords 0 0).zipIdx.map fun e => BitVec.ofNat 64 (if e.2 = 7 then 3 * 2 ^ 8 else if e.2 = 8 then 64 else e.1)⟩ }
theorem wit_GangLifeCycle_list : 4096 < gang50.rec_.nstr + (List.range 4096).length ∧ gangMore.rec_.fld 0x38 8 8 = 3 ∧ gangMore.rec_.at_ 0x40 = 64 ∧ gangMore.ended = 0 ∧
    gangMore.list = [] ∧ gangMore.moving = none ∧ gangMore.rec_.pipe = 0 ∧ (sGang gangMore { id := 50 }).gangQuiet 50 gangMore = true ∧
    (match translate (sGang { gangMore with cores := [0] } { id := 50 }) 0 64 .r .read with | .hit pa _ => pa == 64 | _ => false) = true ∧
    (({ sGang gangMore { id := 4, n := 3 } with reqs := [(4, { acc := .unitRead 64 (.more 50 0), strand := none, gang := 0, core := 0, home := 0, pa := 64, va := 64, pc := 0
                                                               stage := .done, data := List.replicate 64 7 })] } : State).reqs.find? 4).map (fun r => (r.data.length, r.fail)) =
      some (64, none) := by decide +kernel
theorem wit_GangLifeCycle_complete : ∀ g ∈ [{ gang50 with ended := 2 }, gang50, { gang50 with phase := .relaunching }],
    (sGang g { id := 50 }).gangs.find? 50 = some g ∧ (sGang g { id := 50 }).gangQuiet 50 g = true ∧ g.moving = none ∧ g.rec_.pipe = 0 ∧ g.rec_.fld 0x38 8 8 = 0 ∧
    (sGang g { id := 50 }).gangQuiet 50 { g with alive := [7] } = false := by decide +kernel
theorem wit_GangLifeCycle_load :
    let s := sGang gang50 { id := 400 } fun s => { s with strands := s.strands.set 7 (strand50 (.ready 0x7C00 none)), cores := s.cores.set 400 { ready := [7, 8] } }
    (s.core 400).slots = Vector.replicate 16 none ∧ (s.core 400).ready = [7, 8] ∧ s.promised 400 < 16 ∧ (s.core 400).rotNow = true ∧
    s.strands.find? 7 = some (strand50 (.ready 0x7C00 none)) := by decide +kernel
/-- A victim's only strand has stopped; it has not; its core has begun, and its lines are written or not; its header, its STATE. -/
def sSave (g : Gang) (c : Strand → Strand) : State := sGang g { id := 50, sub := 5 } fun s => { s with strands := [(7, c (strand50 .idle))] }
def victim : Gang := { gang50 with preempt := some 5, alive := [7] }
def saved50 : Saved := { gang := gang50, area := 0, len := 64, cores := [{}] }
theorem wit_GangLifeCycle_save : (sSave victim fun c => { c with place := .stopped none true }).coreStopped 50 victim 0 = true ∧
    (sSave victim fun c => { c with place := .stopped none true }).coreQuiet 50 victim 0 = true ∧ (sSave victim id).coreStopped 50 victim 0 = false ∧
    (sSave victim id).gangQuiet 50 victim = false ∧ victim.rec_.saveAddr % 64 = 0 ∧ (sSave victim id).pkg.failedEdges = [] ∧ (sSave victim id).saved.find? victim.savedKey = none ∧
    (∀ e ∈ (sSave victim id).strands, e.2.span = [] ∧ e.2.closes = 0) ∧ [0] = List.range victim.cores.length ∧
    ({ sSave victim id with saved := [(gang50.savedKey, saved50)] } : State).saved.find? gang50.savedKey = some saved50 ∧ (sSave victim id).saveOpen 50 = false ∧
    ({ sSave victim id with reqs := [(4, { acc := .unitWrite (.word 0) (.save 50), strand := none, gang := 0, core := 0, home := 0, pa := 0, va := 0, pc := 0 })] } : State).saveOpen 50 = true ∧
    (sGang victim { id := 50, sub := 5 } fun s => { s with strands := [] }).strands = [] ∧ 0 ∉ victim.begun ∧ victim.cores ≠ [] := by decide +kernel

/-! ### Engines and streams -/

/-- Queue `q` of core 0 holds the commands `c`; operand-memory slot 2 is an I8 tile. -/
def sEng (q : Nat) (c : List Cmd) (a : EvArg) : State :=
  { upCore (on (regs [] w0) fun c => { c with sFill := c.sFill.set 5 .pending }) 0 (fun k => { k with
      queues := k.queues.setIfInBounds q c, sp := Memory.write [] 0x1000 (bytesOf 200), om := Memory.write [] (2 * 4096) (bytesOf 200), omTag := [(2, 0)], omHold := [(2, 0)] }) with
    arg := a, now := 1000 }
def cmd3 (op : CmdOp) (st : Bool) : Cmd := { id := 3, strand := 0, gang := 0, pc := 12, op := op, started := st }
def cmd8 : Cmd := { id := 8, strand := 0, gang := 0, pc := 12, op := .mzero 5 true }
/-- A tile that has been read, with its third unit poisoned; and the same command to be accepted. -/
def tileGot : List (List Byte × Bool) := (List.range 16).map fun u => ((List.range 64).map (fun i => BitVec.ofNat 8 (64 * u + i)), u == 2)
def mstore5 : CmdOp := .mstore 5 2 0x1200 .i8 0 (some (fmtNum .i8))
/-- R214, R216: element 33 of a transposed tile is element 1 of row 1, and element 1 is that of row 1 and column 0, whose unit is read clean; a
row is stored as it is. -/
theorem test_tiles : after .engineCommandComplete (sEng 2 [{ cmd3 (.mload 4 0x1000 .i8 .tr8) true with got := tileGot }] { idx := 2, sub := 3 })
      (fun t => ((t.core 0).om.readN (4 * 4096) 2, (t.core 0).om.readN (4 * 4096 + 33) 1)) = some (32 * 256, 33) ∧
    after .engineUnit (sEng 2 [cmd3 mstore5 true] { idx := 2, sub := 3 }) (fun t => (t.core 0).sp.readN (0x1200 + 1) 2) = some 0x201 := by decide +kernel
/-- R216, by hand: I32 300 and −300 saturate to I8; F32 1.5 goes to BF16. -/
theorem test_storeElem : ([(2, Fmt.i8, 300, 0x7F, 1), (2, .i8, 2 ^ 32 - 300, 0x80, 1), (2, .i8, 2 ^ 32 - 5, 0xFB, 0), (7, .bf16, 0x3FC00000, 0x3FC0, 0)] :
    List (Nat × Fmt × Nat × Nat × Nat)).all (fun e => let r := Spec.storeElem e.1 e.2.1 0 e.2.2.1; r.bits = e.2.2.2.1 ∧ r.sat = e.2.2.2.2) = true := by decide +kernel
theorem wit_EngineWork_commands : ∀ op ∈ [CmdOp.mload 4 0x1000 .i8 .none, mstore5, .mzero 6 true],
    ((sEng 2 [cmd3 op false, cmd8] { idx := 2, sub := 3 }).core 0).queue 2 = [cmd3 op false, cmd8] ∧ (sEng 2 [cmd3 op false, cmd8] { idx := 2, sub := 3 }).startable 0 (cmd3 op false) = true ∧
    ((sEng 2 [cmd3 op true, cmd8] { idx := 2, sub := 3 }).core 0).queue 2 = [cmd3 op true, cmd8] ∧ ((sEng 2 [] {}).core 0).om.wf = true ∧ ((sEng 2 [] {}).core 0).sp.wf = true ∧
    ((sEng 2 [] {}).core 0).omTag.find? 2 = some (fmtNum .i8) ∧ (sEng 2 [] {}).cur.sState 5 = .pending ∧ (sEng 2 [] {}).cur.ident.gang = 0 ∧
    (fmtNum .i8 = fmtNum .i8 ∧ Fmt.i8 = .i8 ∧ Fmt.i8.tileOk = true) ∧ 0x1200 % 512 = 0 := by decide +kernel
/-- No engine, and no strand of a STEP gang; a row served already in the bank of the command's; a STEP gang's slot. -/
theorem wit_EngineWork_banks : (((sEng 2 [] {}).core 0).engRd = [] ∧ ((sEng 2 [] {}).core 0).engWr = [] ∧
      ∀ o ∈ ((sEng 2 [] {}).core 0).slots.toList, ∀ g ∈ o.toList, ((sEng 2 [] {}).strand g).ident.step = false) ∧
    ((12 : Nat) % 3 = (0x1200 / 512 + 0) % 3 ∧ 12 ≠ 0x1200 / 512) ∧ (stepOf (sEng 2 [] {})).stepGang 0 = some 0 ∧ (0 : Nat) ≠ 77 ∧
    ({ sEng 2 [] {} with now := 1001 } : State).dieNow 0 % 4 ≠ 3 ∧ 0 ∈ w0.issueQ := by decide +kernel
def cpy128 (sk dk : Nat) (dst src : Nat) : CmdOp := .cpy (BitVec.ofNat 64 dst) (BitVec.ofNat 64 src) (BitVec.ofNat 64 (128 + sk * 2 ^ 36 + dk * 2 ^ 40))
/-- Copies in their first unit: between the core's memories, from main memory with nothing asked for, with the unit that has come, to main memory, and
in their last unit; a gather whose second row exists and whose first does not. -/
theorem wit_EngineWork_copies : ((sEng 0 [cmd3 (cpy128 0 1 0 0x1000) true, cmd8] { sub := 3 }).core 0).queue 0 = [cmd3 (cpy128 0 1 0 0x1000) true, cmd8] ∧
    Machine.bits (BitVec.ofNat 64 (128 + 2 * 2 ^ 36)) 36 2 = 2 ∧ Machine.bits (BitVec.ofNat 64 (128 + 2 * 2 ^ 36)) 40 2 = 0 ∧
    Machine.bits (BitVec.ofNat 64 (128 + 2 * 2 ^ 36)) 44 4 = 0 ∧ Machine.bits (BitVec.ofNat 64 (128 + 2 * 2 ^ 36)) 0 26 = 128 ∧ 0 + 64 < 128 ∧ 128 ≤ 64 * 2 ∧ 128 ≤ 64 + 64 ∧
    (cmd3 (cpy128 2 0 0x1000 0) true).hold = {} ∧ (cmd3 (cpy128 2 0 0x1000 0) true).asked = (cmd3 (cpy128 2 0 0x1000 0) true).unit ∧
    ([(Need.r, Kind.read), (.w, .write)].all fun k => (match translate (sEng 0 [] {}) 0 64 k.1 k.2 with | .hit pa _ => pa == 64 | _ => false)) = true ∧
    ([1000, 5] : List Nat)[(0 + 64 * 0) / (64 * 2 ^ 0)]? = some 1000 ∧ ([1000, 5] : List Nat)[(0 + 64 * 1) / (64 * 2 ^ 0)]? = some 5 ∧ 5 < 8 ∧ 8 ≤ 1000 := by decide +kernel
theorem wit_EngineWork_units : ((sEng 0 [cmd3 (.preload [] (some [(0x10000, 0x1000)])) true] { id := 4 }).core 0).queue 0 = [cmd3 (.preload [] (some [(0x10000, 0x1000)])) true] ∧
    ([(0x10000, 0x1000)] : List (Nat × Nat))[0]? = some (0x10000, 0x1000) ∧ (sEng 3 [] { idx := 3 }).head 0 3 = none ∧ (sEng 0 [] {}).gangs.find? 0 ≠ none ∧
    ((sEng 2 [{ cmd3 (.mload 4 0x1000 .i8 .none) false with rdSp := [(0x1000, 0x1400)] }] { v := 0x1080 }).core 0).cmds.map (·.rdSp) = [[(0x1000, 0x1400)]] ∧
    (0x1000 / 64 ≤ (0x1080 + 63) / 64 ∧ 0x1080 / 64 ≤ (0x1400 - 1) / 64) := by decide +kernel

/-- The record of 32 bytes of source `src` at `time`. -/
def record (time : Nat) (src : Nat) : List Byte := [BitVec.ofNat 8 time, 0, 0, 0, 0, 0, 0, 0, BitVec.ofNat 8 src, 0, 0, 0] ++ List.replicate 20 0xAA
def bind4 : Binding := { stream := 7, origin := 1, len := 6, hop := 4, late := 3, ahold := 44, pinit := 3, core := 0, area := 0, map := [(0, 0xF)], npane := 5, mcap := 2, lcap := 1, drn := 0,
                         node := 9, outEn := false, outStr := 0, outSrc := 0 }
/-- R344: of the sources at 5 and, idle, at 7, a watermark of the second at 6 lies below its own; one at 9 of the first is now the least. -/
theorem test_watermarks : after .sourceWatermark (sDie2 { die := 2, id := 7, flag2 := true, idx := 1, v := 6 }) (fun t => ((t.die 2).streams.find? 7).map fun x => (x.wm, x.lower)) = some (some (5, 4)) ∧
    after .sourceWatermark (sDie2 { die := 2, id := 7, flag2 := true, idx := 0, v := 9 }) (fun t => ((t.die 2).streams.find? 7).map fun x => (x.wm, x.lower)) = some (some (9, 3)) := by decide +kernel
theorem wit_StreamEvents : (sDie2 { die := 2, id := 7 } fun d => { d with suNext := 1005 }).now < ((sDie2 { die := 2, id := 7 } fun d => { d with suNext := 1005 }).die 2).suNext ∧
    (sDie2 { die := 2, id := 7, flag2 := true } ).arg.n = 0 ∧ ((sDie2 { die := 2, id := 7 }).die 2).streams.find? 7 = some stream32 ∧ (record 9 1).length = stream32.rs ∧
    Spec.bytes (fun i => (record 9 1).getD i 0) 8 4 = 1 ∧ Spec.bytes (fun i => (record 9 2).getD i 0) 8 4 = 2 ∧ stream32.srcs.length = 2 ∧ ((sDie2 { die := 2 }).die 2).bindings = [] ∧
    stream32.srcs[0]? = some ⟨5, false, 3⟩ ∧ stream32.lower ≤ 2 ^ 32 - 1 := by decide +kernel
/-- One binding of a stream whose sources lie at 8: time 0 is of no instance, 8 of an open one. -/
theorem wit_StreamEvents_panes : (∀ k < 5, ¬(bind4.k0 ≤ k ∧ bind4.origin + k * bind4.hop ≤ 0 ∧ 0 < bind4.origin + k * bind4.hop + bind4.len)) ∧
    (bind4.k0 ≤ 1 ∧ bind4.origin + (1 : Nat) * bind4.hop ≤ 8 ∧ 8 < bind4.origin + (1 : Nat) * bind4.hop + bind4.len ∧ ¬bind4.origin + (1 : Nat) * bind4.hop + bind4.len + bind4.late ≤ 8) ∧
    bind4.slots.find? ((8 - 1) / Nat.gcd 6 4 % bind4.npane) = none ∧ 0 < bind4.mcap ∧
    ((sDie2 { die := 2, id := 7, flag2 := true } fun d => { d with bindings := [(4, bind4)] }).die 2).bindings.filter (fun e => e.2.stream == 7) = [(4, bind4)] := by decide +kernel
def firing2 : Firing := { k := 2, amend := 0, last := false, panes := [], seq := 0 }
def held3 : Inst := { amend := 1, hold := some 950, prev := [0, 0, 0] }
theorem wit_StreamEvents_firings :
    let b := { bind4 with insts := [(3, held3)], step := 2 }
    let e := { bind4 with current := some firing2, outEn := true, outStr := 7, outSrc := 1, doneTo := 2 }
    b.insts.find? 3 = some held3 ∧ held3.hold = some 950 ∧ b.step ≠ 1 ∧ b.step ≠ 0 ∧ e.queue = [] ∧ e.step = 0 ∧ e.doneSet = [] ∧ firing2.k = e.doneTo ∧
    ((sDie2 { die := 2, idx := 9, sub := 4 } fun d => { d with bindings := [(4, e)] }).die 2).bindings = [(4, e)] ∧ e.node = 9 := by decide +kernel
/-- A firing waits in the queue, or is at a step; a command for an older stream of the index; each kind of `SBIND` as it is performed. -/
theorem wit_StreamEvents_others :
    (let b := { bind4 with insts := [(3, held3)], queue := [firing2] }; b.queue ≠ [] ∧ b.insts.find? 3 = some held3 ∧ held3.hold = some 950) ∧
    (∀ y, ((sDie2 { die := 2, id := 7, flag2 := true, n := 1, gen := 5 }).die 2).streams.find? 7 = some y → y.gen ≠ 5) ∧
    (sDie2 {}).cut (homeOf (((sDie2 {}).die 2).ntbase.toNat + 128 * 9)) (streamStop 2) = false ∧
    ((sDie2 {}).die 2).streams.find? 8 = none ∧ ((sDie2 {}).die 2).streams.find? 7 ≠ none ∧
    (∀ e ∈ ((sDie2 {} fun d => { d with bindings := [(4, bind4)] }).die 2).bindings, e.2.stream = 7) ∧ ((sDie2 {}).die 2).bindings.find? 4 = none := by
  refine ⟨by decide +kernel, ?_, by decide +kernel⟩
  intro y h
  have e : ((sDie2 { die := 2, id := 7, flag2 := true, n := 1, gen := 5 }).die 2).streams.find? 7 = some stream32 := by decide +kernel
  rw [e] at h
  cases h
  decide
theorem wit_StreamEvents_notices :
    let s := on (sDie2 { die := 2, id := 33, n := 2 } fun d => { d with sbinds := [(33, { strand := 0, core := 0, kind := 0, index := 3 })] })
      fun c => { c with place := .parked, wait := some { kind := .reply 33, since := 0, len := 4, retire := { len := 4 } } }
    ((s.die 2).sbinds.find? 33).map (fun b => (b.fail, b.strand)) = some (none, 0) ∧ (s.strands.find? 0).map (·.place) = some .parked ∧
    s.cur.wait.map (fun w => (w.kind, w.retire)) = some (.reply 33, { len := 4 }) := by decide +kernel

/-! ### The machine as a whole -/

theorem wit_EncodeDecodeRoundTrip : (Instr.add ⟨3, 1, 2, true, false⟩).wf = true ∧ (Instr.add ⟨3, 1, 2, true, false⟩).encoded = true := by decide +kernel
theorem wit_DecodedWordsEncodeBack : decodeHalves 0xC006 0x8450 = .ok (.add ⟨3, 1, 2, true, false⟩, 4) ∧ decodeHalves 0x7C00 0x8450 = .ok (.nop, 2) := by decide +kernel
/-- The placed `add`: core 0's turn goes to strand 0. -/
theorem wit_StepRunsTheDecodedInstruction : (State.reset.place 0xC006 0x8450).inputs = [] ∧ (State.reset.place 0xC006 0x8450).cal = [] ∧
    (State.reset.place 0xC006 0x8450).issueQ = [0] ∧ turnOf (State.reset.place 0xC006 0x8450) 0 = .issue 0 0 ∧
    ((State.reset.place 0xC006 0x8450).begin_ 0 0 0).cur.owe ≤ 1 ∧ ((State.reset.place 0xC006 0x8450).begin_ 0 0 0).cur.fetch = .ready 0xC006 (some 0x8450) ∧
    decodeHalves 0xC006 ((some 0x8450 : Option Half).getD 0) = .ok (.add ⟨3, 1, 2, true, false⟩, 4) := by decide +kernel
/-- An event that is due goes first; with nothing to do the cycle ends. -/
theorem wit_StepRunsTheDecodedInstruction_others : ({ w0 with cal := [⟨0, 5, .refreshDue, {}⟩] } : State).cal = [⟨0, 5, .refreshDue, {}⟩] ∧ 5 < rankAfter ∧ w0.inputs = [] ∧
    ({ w0 with issueQ := [], cal := [⟨3, 0, .refreshDue, {}⟩] } : State).now < 3 := by decide +kernel
theorem wit_MemoryStaysCanonical : w0.canonical ∧ w0.mem ≠ [] := by unfold State.canonical; decide +kernel
theorem test_step_runs : (match step (State.reset.place 0x403F 0) with | .next t => (t.cur.sVal 1, t.cur.pc) | _ => (0, 0)) = (0xFFFFFFFFFFFFFFFF, 2) := by decide +kernel

/-- A gang whose exited strand's failure is still to be decided is not complete (R317, R388). -/
theorem test_failure_decided_first : ({ sGang gangMore { id := 50 } with cal := [⟨0, rankDecide, .containRetryResume, { idx := 50, flag := true }⟩] } : State).gangQuiet 50 gangMore =
    false := by decide +kernel
/-- A gang whose ONFAULT is `p`. -/
def sPolicy (p : Nat) (f : Strand → Strand := id) : State :=
  on (upGang (regs [] w0) fun g => { g with rec_ := ⟨[0, 0, 0x10101, 0, 0, 0, 0, 0, 0, 0, 0, BitVec.ofNat 64 p, 0, 0, 0, 0]⟩, die := 1 }) f
theorem wit_FaultsAndReturns_faults : (sPolicy 1).cur.ctl.tcause.getLsbD 8 = false ∧ (sPolicy 1 fun c => { c with ctl := { c.ctl with tvec := 0x2000 } }).cur.ctl.tvec ≠ 0 ∧
    ({ sPolicy 1 with homes := [] } : State).homes = [] ∧ (sPolicy 1).cur.ctl.tvec = 0 ∧ ((sPolicy 1).strands.find? 0).isSome = true ∧
    ((sPolicy 1).gangs.find? 0).map (fun g => (g.rec_.fld 0x58 0 2, g.die)) = some (1, 1) ∧ ((sPolicy 2).gangs.find? 0).map (fun g => (g.rec_.fld 0x58 0 2, g.die)) = some (2, 1) ∧
    ((sPolicy 1 fun c => { c with retries := 2, retryPc := c.pc }).cur.retryPc = (sPolicy 1).cur.pc) ∧ (sPolicy 1 fun c => { c with retries := 2, retryPc := c.pc }).cur.retries < 3 ∧
    (sPolicy 2).strands.map (·.1) = [0] := by decide +kernel
/-- The decision of level 0 on a fault of strand 0, which is there or has been removed since; with no wait at the fault. -/
theorem wit_FaultsAndReturns_decides : (∀ p ∈ [1, 2, 3], let s : State := { sPolicy p with arg := { id := 0, idx := 0, n := 6, v := 0x40, flag := true, flag2 := true } }
      s.arg.flag = true ∧ s.arg.flag2 = true ∧ (s.strands.find? s.arg.id).isSome = true ∧ (s.gangs.find? s.arg.idx).map (fun g => g.rec_.fld 0x58 0 2) = some p) ∧
    ({ sPolicy 1 with strands := [] } : State).strands.find? 0 = none ∧ (∀ e ∈ (sPolicy 1).gangs, e.2.alive ≠ []) ∧ (sPolicy 1).cur.wait = none := by decide +kernel

end Sys2Proof.Tests
end

section
/-! SUPPORT. Operations that leave main memory and the LIVE granules of every home as they are (R249): what a strand, a fetch or a request
does when its wait ends. -/

namespace Sys2Proof.Machine

/-! ### Main memory and the LIVE granules -/

/-- From `s` to `t` no byte of main memory changes, and every home has the same LIVE granules (R249). -/
def State.sameGranules (s t : State) : Prop := t.mem = s.mem ∧ ∀ h, (t.home h).live = (s.home h).live

theorem State.sameGranules_refl (s : State) : s.sameGranules s := ⟨rfl, fun _ => rfl⟩

theorem State.sameGranules.trans {s t u : State} (h : s.sameGranules t) (k : t.sameGranules u) : s.sameGranules u :=
  ⟨k.1.trans h.1, fun x => (k.2 x).trans (h.2 x)⟩

/-- An update of neither main memory nor the homes. -/
theorem State.sameGranules_of_eq {s t : State} (hm : t.mem = s.mem) (hh : t.homes = s.homes) : s.sameGranules t :=
  ⟨hm, fun h => by simp only [State.home, hh]⟩

theorem State.sameGranules_setHome (s : State) (h : Nat) (x : Home) (hx : x.live = (s.home h).live) : s.sameGranules (s.setHome h x) := by
  refine ⟨rfl, fun n => ?_⟩
  by_cases e : n = h
  · subst e
    rw [State.home_setHome_same, hx]
  · rw [State.home_setHome_other _ _ _ _ e]

theorem State.sameGranules_modHome (s : State) (h : Nat) (f : Home → Home) (hf : ∀ x, (f x).live = x.live) :
    s.sameGranules (s.modHome h f) := s.sameGranules_setHome h _ (hf _)

theorem State.sameGranules_foldl {α : Type} (f : State → α → State) (h : ∀ (s : State) a, s.sameGranules (f s a)) (l : List α) (s : State) :
    s.sameGranules (l.foldl f s) := by
  induction l generalizing s with
  | nil => exact s.sameGranules_refl
  | cons a l ih => exact (h s a).trans (ih _)

/-! ### The calendar, strands, cores and dies -/

theorem State.sameGranules_at (s : State) (t r : Nat) (e : Instr) (a : EvArg) : s.sameGranules (s.at_ t r e a) :=
  State.sameGranules_of_eq rfl rfl
theorem State.sameGranules.if_at {s t : State} {c : Prop} [Decidable c] {n r : Nat} {e : Instr} {a : EvArg} (h : s.sameGranules t) :
    s.sameGranules (if c then t.at_ n r e a else t) := by
  split
  exacts [h.trans (t.sameGranules_at ..), h]
theorem State.sameGranules.else_at {s t : State} {c : Prop} [Decidable c] {n r : Nat} {e : Instr} {a : EvArg} (h : s.sameGranules t) :
    s.sameGranules (if c then t else t.at_ n r e a) := by
  split
  exacts [h, h.trans (t.sameGranules_at ..)]
theorem State.sameGranules_unAt (s : State) (p : Due → Bool) : s.sameGranules (s.unAt p) := State.sameGranules_of_eq rfl rfl
theorem State.sameGranules_setStrand (s : State) (g : Nat) (c : Strand) : s.sameGranules (s.setStrand g c) := State.sameGranules_of_eq rfl rfl
theorem State.sameGranules_modStrand (s : State) (g : Nat) (f : Strand → Strand) : s.sameGranules (s.modStrand g f) :=
  State.sameGranules_of_eq rfl rfl
theorem State.sameGranules_modCore (s : State) (c : Nat) (f : Core → Core) : s.sameGranules (s.modCore c f) := State.sameGranules_of_eq rfl rfl
theorem State.sameGranules_modDie (s : State) (d : Nat) (f : Die → Die) : s.sameGranules (s.modDie d f) := State.sameGranules_of_eq rfl rfl
theorem State.sameGranules_modReq (s : State) (n : Nat) (f : Req → Req) : s.sameGranules (s.modReq n f) := State.sameGranules_of_eq rfl rfl

theorem State.sameGranules_atTime (s : State) (t r : Nat) (e : Instr) (a : EvArg) : s.sameGranules (s.atTime t r e a) := by
  unfold State.atTime; split
  exacts [s.sameGranules_refl, s.sameGranules_at ..]

theorem State.sameGranules_atOnce (s : State) (t r : Nat) (e : Instr) (a : EvArg) : s.sameGranules (s.atOnce t r e a) := by
  unfold State.atOnce; split
  exacts [s.sameGranules_refl, s.sameGranules_at ..]

theorem State.sameGranules_askPass (s : State) (d : Nat) : s.sameGranules (s.askPass d) := by
  unfold State.askPass; split
  exacts [s.sameGranules_refl, (s.sameGranules_modDie ..).trans (State.sameGranules_at ..)]

theorem State.sameGranules_askLoad (s : State) (c t : Nat) : s.sameGranules (s.askLoad c t) := by
  unfold State.askLoad; split
  exacts [s.sameGranules_refl, s.sameGranules_atOnce ..]

theorem State.sameGranules_askFetch (s : State) (h t : Nat) : s.sameGranules (s.askFetch h t) := s.sameGranules_atTime ..

theorem State.sameGranules_toHome (s : State) (n : Nat) (r : Req) : s.sameGranules (s.toHome n r) := by
  unfold State.toHome
  dsimp only
  split
  · split <;> exact State.sameGranules_of_eq rfl rfl
  · split <;> exact s.sameGranules_at ..

theorem State.sameGranules_send (s : State) (r : Req) : s.sameGranules (s.send r) :=
  State.sameGranules.trans (t := s.addReq r) (State.sameGranules_of_eq rfl rfl) (State.sameGranules_toHome ..)

/-! ### Waits given up -/

theorem State.sameGranules_leaveArr (s : State) (h b : Nat) (w : Waiter) : s.sameGranules (s.leaveArr h b w) := by
  unfold State.leaveArr
  split
  · exact s.sameGranules_refl
  · split
    · dsimp only; split
      exacts [(s.sameGranules_modHome _ _ fun _ => by rfl).trans (State.sameGranules_at ..), s.sameGranules_modHome _ _ fun _ => by rfl]
    · exact s.sameGranules_refl

theorem State.sameGranules_leaveSets (s : State) (h g : Nat) : s.sameGranules (s.leaveSets h g) :=
  State.sameGranules_foldl _ (fun t _ => (t.sameGranules_leaveArr ..).trans (State.sameGranules_leaveArr ..)) _ s

theorem State.sameGranules_dropWaiters (s : State) (h : Nat) (p : Waiter → Bool) : s.sameGranules (s.dropWaiters h p) := by
  unfold State.dropWaiters
  dsimp only
  split
  exacts [(s.sameGranules_setHome _ _ (by rfl)).trans (State.sameGranules_atTime ..), s.sameGranules_setHome _ _ rfl]

theorem State.sameGranules_leaveHome (s : State) (h g : Nat) : s.sameGranules (s.leaveHome h g) :=
  (s.sameGranules_dropWaiters ..).trans (State.sameGranules_leaveSets ..)

theorem State.sameGranules_dropFetch (s : State) (g : Nat) : s.sameGranules (s.dropFetch g) := by
  unfold State.dropFetch
  dsimp only
  split
  · exact (((s.sameGranules_dropWaiters ..).trans (State.sameGranules_leaveArr ..)).trans (State.sameGranules_modCore ..)).trans
      (State.sameGranules_modStrand ..)
  · exact s.sameGranules_refl

theorem State.sameGranules_vacate (s : State) (g t : Nat) : s.sameGranules (s.vacate g t) := by
  unfold State.vacate
  dsimp only
  refine (s.sameGranules_dropFetch g).trans ?_
  split
  · exact ((State.sameGranules_modCore ..).trans (State.sameGranules_askPass ..)).trans (State.sameGranules_askLoad ..)
  · exact (State.sameGranules_askPass ..).trans (State.sameGranules_askLoad ..)

theorem State.sameGranules_withdraw (s : State) (g : Nat) : s.sameGranules (s.withdraw g) := by
  unfold State.withdraw
  dsimp only
  split
  · exact ((s.sameGranules_leaveHome ..).trans (State.sameGranules_modCore ..)).trans (State.sameGranules_at ..)
  · exact (s.sameGranules_leaveHome ..).trans (State.sameGranules_modCore ..)

theorem State.sameGranules_recall (s : State) (g : Nat) (p : Nat → Bool) : s.sameGranules (s.recall g p) := by
  unfold State.recall
  refine State.sameGranules.trans (State.sameGranules_foldl _ (fun t e => ?_) _ _) (State.sameGranules_foldl _ (fun t e => ?_) _ _)
  · dsimp only; split
    exacts [t.sameGranules_at .., t.sameGranules_refl]
  · dsimp only; split
    exacts [t.sameGranules_at .., t.sameGranules_refl]

theorem State.sameGranules_stopContext (s : State) (g : Nat) : s.sameGranules (s.stopContext g) :=
  ((s.sameGranules_withdraw g).trans (State.sameGranules_recall ..)).trans (State.sameGranules_modStrand ..)

theorem State.sameGranules_stopLeft (s : State) (g : Nat) : s.sameGranules (s.stopLeft g) := by
  unfold State.stopLeft; split
  exacts [(s.sameGranules_stopContext g).trans (State.sameGranules_at ..), s.sameGranules_refl]

/-! ### Waits begun, fetches and waits that end -/

theorem State.sameGranules_park (s : State) (g : Nat) (w : Wait) : s.sameGranules (s.park g w) := by
  unfold State.park
  dsimp only
  split
  · exact s.sameGranules_setStrand ..
  · exact ((s.sameGranules_vacate ..).trans (State.sameGranules_modStrand ..)).trans (State.sameGranules_stopLeft ..)

theorem State.sameGranules_joinMiss (s : State) (c v : Nat) (w : Waiter) : s.sameGranules (s.joinMiss c v w) := by
  unfold State.joinMiss
  split
  exacts [s.sameGranules_modCore .., (s.sameGranules_modCore ..).trans (State.sameGranules_at ..)]

theorem State.sameGranules_joinQueue (s : State) (h b : Nat) (w : Waiter) (p : Nat) (k : Bool) : s.sameGranules (s.joinQueue h b w p k) := by
  refine (s.sameGranules_setHome h _ ?_).trans (State.sameGranules_askFetch ..)
  split
  · rfl
  · split <;> rfl

theorem State.sameGranules_parkOn (s : State) (g b : Nat) (k : Bool) (va : Word) (len : Nat) : s.sameGranules (s.parkOn g b k va len) :=
  (s.sameGranules_joinQueue ..).trans (State.sameGranules_park ..)

theorem State.sameGranules_fetchPart (s : State) (g : Nat) (va : Word) (may : Bool) : s.sameGranules (s.fetchPart g va may) := by
  unfold State.fetchPart
  dsimp only
  split
  · exact s.sameGranules_setStrand ..
  · split
    exacts [(s.sameGranules_joinMiss ..).trans (State.sameGranules_park ..), (s.sameGranules_joinMiss ..).trans (State.sameGranules_setStrand ..)]
  · split
    · split
      exacts [s.sameGranules_parkOn .., (s.sameGranules_joinQueue ..).trans (State.sameGranules_setStrand ..)]
    · exact (s.sameGranules_setStrand ..).trans (State.sameGranules_send ..)

theorem State.sameGranules_startFetch (s : State) (g : Nat) : s.sameGranules (s.startFetch g) := by
  unfold State.startFetch
  dsimp only
  split
  · split
    · exact s.sameGranules_refl
    · split
      exacts [s.sameGranules_setStrand .., s.sameGranules_fetchPart ..]
  · split
    exacts [s.sameGranules_refl, s.sameGranules_fetchPart ..]
  · split
    exacts [s.sameGranules_refl, (s.sameGranules_setStrand ..).trans (State.sameGranules_park ..)]
  · exact s.sameGranules_refl

theorem State.sameGranules_wake (s : State) (g : Nat) : s.sameGranules (s.wake g) := by
  have enters : s.sameGranules (((s.setStrand g { s.strand g with wait := none, place := .ready }).modCore (s.strand g).core fun k =>
      { k with ready := k.ready ++ [g] }).askLoad (s.strand g).core s.now) :=
    ((s.sameGranules_setStrand ..).trans (State.sameGranules_modCore ..)).trans (State.sameGranules_askLoad ..)
  unfold State.wake
  dsimp only
  split
  exacts [s.sameGranules_setStrand .., s.sameGranules_setStrand .., enters, enters, s.sameGranules_setStrand ..]

theorem State.sameGranules_resume (s : State) (g : Nat) : s.sameGranules (s.resume g) :=
  (s.sameGranules_wake g).trans (State.sameGranules_startFetch ..)

theorem State.sameGranules_resumeFetch (s : State) (g : Nat) : s.sameGranules (s.resumeFetch g) := by
  unfold State.resumeFetch
  dsimp only
  split
  exacts [(s.sameGranules_setStrand ..).trans (State.sameGranules_fetchPart ..), s.sameGranules_resume g]

/-! ### Requests at a home, and a block that arrives -/

theorem State.sameGranules_portPoke (s : State) (h : Nat) : s.sameGranules (s.portPoke h) := by
  unfold State.portPoke
  dsimp only
  split
  exacts [s.sameGranules_unAt _, (s.sameGranules_unAt _).trans (State.sameGranules_at ..)]

theorem State.sameGranules_enterPort (s : State) (n h t c : Nat) : s.sameGranules (s.enterPort n h t c) :=
  ((s.sameGranules_modReq ..).trans (State.sameGranules_modHome _ _ _ fun _ => by rfl)).trans (State.sameGranules_portPoke ..)

theorem State.sameGranules_goBehind (s : State) (n : Nat) (r : Req) : s.sameGranules (s.goBehind n r) := by
  have leaves := (s.sameGranules_modReq n fun q => { q with stage := .behind, buf := false, late := false }).trans
    (State.sameGranules_leaveArr _ r.home (blockOf r.pa) (.req n))
  unfold State.goBehind
  dsimp only
  split
  · split
    exacts [leaves.trans (State.sameGranules_leaveArr ..), leaves]
  · exact leaves

theorem State.sameGranules_letIn (s : State) (h : Nat) (ws : List Parked) : s.sameGranules (s.letIn h ws) := by
  refine State.sameGranules_foldl _ (fun t p => ?_) ws s
  split
  · split
    · split
      exacts [t.sameGranules_goBehind .., (t.sameGranules_modReq ..).trans (State.sameGranules_enterPort ..)]
    · exact t.sameGranules_refl
  · exact t.sameGranules_resume _
  · exact t.sameGranules_resumeFetch _
  · exact t.sameGranules_refl

theorem Home.keep_live (x : Home) (blk : Nat) : (x.keep blk).live = x.live := by
  unfold Home.keep
  split
  · split
    · split <;> rfl
    · rfl
  · rfl

/-- The arrival of a block, and all that its waiters do then, leave the granules as they are. -/
theorem State.sameGranules_becomeResident (s : State) (h blk : Nat) (f : Frame) (fixed : NatSet) :
    s.sameGranules (s.becomeResident h blk f fixed) := by
  have arrives (x : Home) (hx : x.live = (s.home h).live) (ws : List Parked) : s.sameGranules ((s.setHome h x).letIn h ws) :=
    (s.sameGranules_setHome h x hx).trans (State.sameGranules_letIn ..)
  refine ((arrives _ ?_ _).if_at.else_at).trans (State.sameGranules_askFetch ..)
  split
  · rw [Home.keep_live]
  · rfl

end Sys2Proof.Machine
end

section
/-! The registers of BAR 0 (R446): which register an offset names, what a read that clears answers, and what a write does. -/

namespace Sys2Proof.Machine

/-! ### Tables, sets of numbers and dies -/

theorem Tbl.find?_modify_same {α : Type} (t : Tbl α) (n : Nat) (f : α → α) : (t.modify n f).find? n = (t.find? n).map f := by
  induction t with
  | nil => rfl
  | cons e t ih =>
    obtain ⟨k, w⟩ := e
    by_cases h : k = n <;> simp_all [Tbl.modify, Tbl.find?]

theorem Tbl.find?_erase_same {α : Type} (t : Tbl α) (n : Nat) : (t.erase n).find? n = none := by
  induction t with
  | nil => rfl
  | cons e t ih =>
    obtain ⟨k, w⟩ := e
    by_cases h : k = n <;> simp_all [Tbl.erase, Tbl.find?]

theorem NatSet.mem_add (s : NatSet) (n i : Nat) : i ∈ s.add n ↔ i = n ∨ i ∈ s := by
  induction s with
  | nil => simp [NatSet.add]
  | cons k t ih =>
    simp only [NatSet.add]
    split
    · simp
    · split
      · rename_i e; simp [e]
      · simp only [List.mem_cons, ih]; tauto

theorem NatSet.mem_del (s : NatSet) (n i : Nat) : i ∈ s.del n ↔ i ∈ s ∧ i ≠ n := by simp [NatSet.del]

theorem NatSet.mem_put (s : NatSet) (n i : Nat) (b : Bool) : i ∈ s.put n b ↔ if i = n then b = true else i ∈ s := by
  by_cases h : i = n <;> cases b <;> simp [NatSet.put, NatSet.mem_add, NatSet.mem_del, h]

theorem State.die_setDie_same {d : Nat} (s : State) (x : Die) (hd : d < 4) : (s.setDie d x).die d = x := by
  simp [State.die, State.setDie, hd]

/-! ### The register at an offset -/

section Blocks
variable {s : State} {off d h o : Nat} {v : Word} {boot : EvArg}

theorem State.reg_pkg (ho : off < 0x100000) (h8 : off % 8 = 0) : s.reg off = pkgRead s.now s.pkg off := by
  unfold State.reg regRead
  dsimp only
  rw [if_neg (by omega), if_neg (by omega), if_pos ho]
  rfl

theorem State.reg_dsp (e : off = 0x100000 + d * 0x10000 + o) (hd : d < 4) (ho : o < 0x10000) (h8 : o % 8 = 0) :
    s.reg off = dspRead (s.die d) o := by
  have ed : (off - 0x100000) / 0x10000 = d := by omega
  have eo : off % 0x10000 = o := by omega
  unfold State.reg regRead
  dsimp only
  rw [if_neg (by omega), if_neg (by omega), if_neg (by omega), if_pos (by omega), ed, eo]
  rfl

theorem State.reg_home (e : off = 0x200000 + h * 0x100 + o) (hh : h < 768) (ho : o < 0x100) (h8 : o % 8 = 0) :
    s.reg off = homeRead (s.home h) (s.regs.ctx.getD h 0) o := by
  have eh : (off - 0x200000) / 0x100 = h := by omega
  have eo : off % 0x100 = o := by omega
  unfold State.reg regRead
  simp only [Bool.and_eq_true, decide_eq_true_eq]
  rw [if_neg (by omega), if_neg (by omega), if_neg (by omega), if_neg (by omega), if_pos (by omega), eh, eo]
  rfl

theorem State.reg_su (e : off = 0x400000 + d * 0x40000 + o) (hd : d < 4) (ho : o < 0x40000) (h8 : o % 8 = 0) :
    s.reg off = suRead (s.die d) o := by
  have ed : (off - 0x400000) / 0x40000 = d := by omega
  have eo : off % 0x40000 = o := by omega
  unfold State.reg regRead
  simp only [Bool.and_eq_true, decide_eq_true_eq]
  rw [if_neg (by omega), if_neg (by omega), if_neg (by omega), if_neg (by omega), if_neg (by omega), if_pos (by omega), ed, eo]
  rfl

theorem State.reg_fab (e : off = 0x500000 + o) (ho : o < 0x10000) (h8 : o % 8 = 0) : s.reg off = fabRead s.pkg o := by
  have eo : off - 0x500000 = o := by omega
  unfold State.reg regRead
  simp only [Bool.and_eq_true, decide_eq_true_eq]
  rw [if_neg (by omega), if_neg (by omega), if_neg (by omega), if_neg (by omega), if_neg (by omega), if_neg (by omega), if_pos (by omega), eo]
  rfl

theorem State.reg_thm (e : off = 0x600000 + d * 0x1000 + o) (hd : d < 4) (ho : o < 0x1000) (h8 : o % 8 = 0) :
    s.reg off = thmRead (s.die d) o := by
  have ed : (off - 0x600000) / 0x1000 = d := by omega
  have eo : off % 0x1000 = o := by omega
  unfold State.reg regRead
  simp only [Bool.and_eq_true, decide_eq_true_eq]
  rw [if_neg (by omega), if_neg (by omega), if_neg (by omega), if_neg (by omega), if_neg (by omega), if_neg (by omega), if_neg (by omega),
    if_pos (by omega), ed, eo]
  rfl

/-! ### What a read clears (R7) -/

theorem State.regClear_dsp (e : off = 0x100000 + d * 0x10000 + o) (hd : d < 4) (ho : o < 0x10000) :
    (o = 0x08 → s.regClear off = s.modDie d fun x => { x with lost := 0 }) ∧
    (o = 0x28 → s.regClear off = s.modDie d fun x => { x with ccnt := 0 }) := by
  have ed : (off - 0x100000) / 0x10000 = d := by omega
  have eo : off % 0x10000 = o := by omega
  unfold State.regClear
  simp only [Bool.and_eq_true, decide_eq_true_eq]
  rw [if_pos (by omega), ed, eo]
  constructor <;> rintro rfl <;> rfl

theorem State.regClear_home (e : off = 0x200000 + h * 0x100 + o) (hh : h < 768) (ho : o < 0x100) :
    (o = 0x08 → s.regClear off = s.modHome h fun x => { x with corr := 0, uncorr := 0 }) ∧
    (o = 0x10 → s.regClear off = s.modHome h fun x => { x with starved := 0, keepDeny := 0, wantDrop := 0 }) ∧
    (o = 0x30 → s.regClear off = s.modHome h fun x => { x with conf := 0, disp := 0 }) := by
  have eh : (off - 0x200000) / 0x100 = h := by omega
  have eo : off % 0x100 = o := by omega
  unfold State.regClear
  simp only [Bool.and_eq_true, decide_eq_true_eq]
  rw [if_neg (by omega), if_pos (by omega), eh, eo]
  refine ⟨?_, ?_, ?_⟩ <;> rintro rfl <;> rfl

theorem suCnt_index {i : Nat} (e : o = 0x4008 + i * 32) : (o - 0x4000) / 32 = i := by omega

/-- A read of `su.cnt` clears the counts of the stream that its index names, and those kept for the index itself. -/
theorem State.regClear_suCnt {i : Nat} (e : off = 0x404008 + d * 0x40000 + i * 32) (hd : d < 4) (hi : i < 256) :
    s.regClear off = s.modDie d fun y =>
      { y with streams := y.streams.modify i fun x => { x with lower := 0, badRec := 0 }, suCnt := y.suCnt.erase i } := by
  have ed : (off - 0x400000) / 0x40000 = d := by omega
  have eo : off % 0x40000 = 0x4008 + i * 32 := by omega
  unfold State.regClear
  simp only [Bool.and_eq_true, decide_eq_true_eq, beq_iff_eq]
  rw [if_neg (by omega), if_neg (by omega), if_pos (by omega), if_pos (by omega), ed, suCnt_index eo]

/-! ### Host reads -/

theorem State.answers_of_bootErr (hb : s.pkg.bootErr = true) (h0 : off ≠ 0) (ho : off < 0x1000 ∨ 0x2000 ≤ off) : s.answers off = false := by
  simp only [State.answers, hb, Bool.not_true, Bool.false_or, Bool.or_eq_false_iff, Bool.and_eq_false_iff, beq_eq_false_iff_ne,
    decide_eq_false_iff_not]
  omega

/-- After a failed boot a register outside the mailbox answers nothing but Completer Abort (R444). -/
theorem State.hostRegRead_of_bootErr (hb : s.pkg.bootErr = true) (ho : 0x2000 ≤ off) : s.hostRegRead off = s.out (.hostError 2) := by
  simp [State.hostRegRead, State.answers_of_bootErr hb (by omega) (.inr ho)]

theorem State.hostRegRead_of_reg (hb : s.pkg.bootErr = false) (hr : s.reg off = some v) :
    s.hostRegRead off = (s.out (.regData v)).regClear off := by
  simp [State.hostRegRead, State.answers, hb, hr]

/-! ### Host writes -/

/-- After a failed boot a write outside the mailbox does nothing (R444). -/
theorem State.hostRegWrite_of_bootErr (hb : s.pkg.bootErr = true) (h0 : off ≠ 0) (ho : off < 0x1000 ∨ 0x2000 ≤ off) :
    s.hostRegWrite off v = s := by
  simp [State.hostRegWrite, State.answers_of_bootErr hb h0 ho]

theorem State.hostRegWrite_of_regWrite {t : State} (hb : s.pkg.bootErr = false) (hw : s.regWrite off v {} = some t) :
    s.hostRegWrite off v = t := by
  simp only [State.hostRegWrite, State.answers, hb, hw, Bool.not_false, Bool.true_or, if_true, Option.getD_some]

theorem State.regWrite_pkg (ho : off < 0x100000) (h8 : off % 8 = 0) (hr : (pkgRead s.now s.pkg off).isNone = false) :
    s.regWrite off v boot = some (s.pkgWrite off v boot) := by
  unfold State.regWrite
  rw [State.reg_pkg ho h8, hr, if_neg Bool.false_ne_true, if_pos ho]

theorem State.regWrite_dsp (e : off = 0x100000 + d * 0x10000 + o) (hd : d < 4) (ho : o < 0x10000) (h8 : o % 8 = 0)
    (hr : (dspRead (s.die d) o).isNone = false) : s.regWrite off v boot = some (s.dspWrite d o v) := by
  have ed : (off - 0x100000) / 0x10000 = d := by omega
  have eo : off % 0x10000 = o := by omega
  unfold State.regWrite
  rw [State.reg_dsp e hd ho h8, hr, if_neg Bool.false_ne_true, if_neg (by omega), if_pos (by omega), ed, eo]

theorem State.regWrite_home (e : off = 0x200000 + h * 0x100 + o) (hh : h < 768) (ho : o < 0x100) (h8 : o % 8 = 0)
    (hr : (homeRead (s.home h) (s.regs.ctx.getD h 0) o).isNone = false) : s.regWrite off v boot = some (s.homeWrite h o v) := by
  have eh : (off - 0x200000) / 0x100 = h := by omega
  have eo : off % 0x100 = o := by omega
  unfold State.regWrite
  simp only [Bool.and_eq_true, decide_eq_true_eq]
  rw [State.reg_home e hh ho h8, hr, if_neg Bool.false_ne_true, if_neg (by omega), if_neg (by omega), if_pos (by omega), eh, eo]

theorem State.regWrite_fab (e : off = 0x500000 + o) (ho : o < 0x10000) (h8 : o % 8 = 0) (hr : (fabRead s.pkg o).isNone = false) :
    s.regWrite off v boot = some (s.fabWrite o v) := by
  have eo : off - 0x500000 = o := by omega
  unfold State.regWrite
  simp only [Bool.and_eq_true, decide_eq_true_eq]
  rw [State.reg_fab e ho h8, hr, if_neg Bool.false_ne_true, if_neg (by omega), if_neg (by omega), if_neg (by omega), if_pos (by omega), eo]

/-- A write of Thermidor's second register sets the target temperature and the power cap (R447). -/
theorem State.regWrite_thm (e : off = 0x600008 + d * 0x1000) (hd : d < 4) :
    s.regWrite off v boot = some (s.modDie d fun x => { x with pcap := (v >>> 16).setWidth 16, tgt := (v >>> 8).setWidth 8 }) := by
  have ed : (off - 0x600000) / 0x1000 = d := by omega
  unfold State.regWrite
  simp only [Bool.and_eq_true, decide_eq_true_eq]
  rw [State.reg_thm (o := 8) (by omega) hd (by omega) rfl, if_neg (by simp [thmRead]), if_neg (by omega), if_neg (by omega), if_neg (by omega),
    if_neg (by omega), if_pos (by omega), ed]

/-- A write that is no release is performed at once (R413). -/
theorem execRegisterWrite_of_regWrite {t : State} (hb : s.pkg.bootErr = false) (e : s.arg.id = off) (h8 : off ≠ 8)
    (ht : off < 0x100000 ∨ 0x140000 ≤ off ∨ off % 0x10000 < 0x40) (hm : off < 0x503000 ∨ 0x503200 ≤ off)
    (hw : s.regWrite off s.arg.v s.arg = some t) : exec .registerWrite s = .next t := by
  show execRegisterWrite s = _
  unfold execRegisterWrite
  rw [e]
  dsimp only
  rw [if_neg (by simp only [Bool.or_eq_true, Bool.and_eq_true, decide_eq_true_eq]; omega)]
  simp [State.answers, hb, hw]

end Blocks

/-! ### Releases (R413) -/

/-- With every host write performed, a release is performed at once. -/
theorem afterWrites_of_hostWritten {s : State} (ev : Instr) (go : State → State) (hw : Spec.hostWritten s) :
    afterWrites s ev go = .next (go s) := by
  obtain ⟨hreqs, hcal⟩ := hw
  have closed (link : Bool) (n : Nat) : s.writesOpen link n = false := by
    simp only [State.writesOpen, Bool.or_eq_false_iff, List.any_eq_false]
    refine ⟨fun ⟨m, r⟩ he => ?_, fun d hd => ?_⟩
    · simp only [Bool.and_eq_true, bne_iff_ne, ne_eq, not_and, not_not]
      exact fun ⟨⟨_, writes⟩, _⟩ => hreqs (m, r) he writes
    · simp only [Bool.and_eq_true, bne_iff_ne, ne_eq, not_and, and_imp]
      exact fun release _ waits => absurd (hcal d hd release) waits
  simp [afterWrites, closed]

end Sys2Proof.Machine
end

section
/-! What the registers' own operations do: snapshots (R450), pre-emption requests (R392), ELIDED granules (R249), fabric windows (R420) and
migration slots (R414). -/

namespace Sys2Proof.Machine

/-- The first trigger of a cycle takes a snapshot of the registers as they stood at the start of the cycle (R450). -/
theorem State.latch_of_ne {s : State} (hn : s.pkg.snapAt ≠ some s.now) : s.latch =
    ({ s with snap := s.cycleRegs }.modPkg fun p => { p with snapSeq := p.snapSeq + 1, snapAt := some s.now }).irq 3 := if_neg hn

/-- A write of the pre-emption request register without GO keeps its node and its die, and asks for nothing (R392). -/
theorem State.preemptWrite_without_go {s : State} {v : Word} (hp : s.pkg.preempt.getLsbD 63 = false) (hv : v.getLsbD 63 = false) :
    s.preemptWrite v = s.modPkg fun p => { p with preempt := BitVec.ofNat 64 (v.toNat % 2 ^ 16) } := by
  have low : v &&& BitVec.ofNat 64 (2 ^ 63 + 0xFFFF) &&& BitVec.ofNat 64 0xFFFF = BitVec.ofNat 64 (v.toNat % 2 ^ 16) := by
    rw [BitVec.and_assoc]
    apply BitVec.eq_of_toNat_eq
    calc (v &&& BitVec.ofNat 64 (2 ^ 16 - 1)).toNat
        = v.toNat % 2 ^ 16 := by rw [BitVec.toNat_and]; exact Nat.and_two_pow_sub_one_eq_mod v.toNat 16
      _ = (BitVec.ofNat 64 (v.toNat % 2 ^ 16)).toNat := by rw [BitVec.toNat_ofNat]; omega
  simp only [State.preemptWrite, hp, hv, low]
  rfl

/-! ### ELIDED granules -/

/-- A granule that becomes ELIDED loses its bytes and leaves the LIVE granules of its home, whatever its waiters do then (R249). -/
theorem State.elide_granules (s : State) (h g : Nat) :
    (s.elide h g).mem = s.mem.filter (fun c => !(decide (h * 2 ^ 30 + g * 65536 ≤ c.1) && decide (c.1 < h * 2 ^ 30 + g * 65536 + 65536))) ∧
    ((s.elide h g).home h).live = (s.home h).live.del g := by
  have arrivals (u : State) (l : Tbl Frame) : u.sameGranules ((l.foldl (init := u) fun s (b, f) =>
      if f.isFetch then s.becomeResident h b { f with zeros := true } [] else s).askFetch h (s.now + 1)) := by
    refine (State.sameGranules_foldl _ (fun t e => ?_) l u).trans (State.sameGranules_askFetch ..)
    dsimp only
    split
    exacts [t.sameGranules_becomeResident .., t.sameGranules_refl]
  unfold State.elide
  refine ⟨(arrivals _ _).1, ((arrivals _ _).2 h).trans ?_⟩
  simp only [State.modHome, State.home_setHome_same]
  rfl

theorem State.elide_get (s : State) (h g p : Nat) : (s.elide h g).mem.get p =
    if h * 2 ^ 30 + g * 65536 ≤ p ∧ p < h * 2 ^ 30 + (g + 1) * 65536 then 0 else s.mem.get p := by
  rw [(s.elide_granules h g).1]
  split
  · refine Memory.get_none _ _ fun c hc => ?_
    have := (List.mem_filter.1 hc).2
    simp only [Bool.not_eq_true', Bool.and_eq_false_iff, decide_eq_false_iff_not] at this
    omega
  · refine Memory.get_filter _ _ _ fun v => ?_
    simp only [Bool.not_eq_true', Bool.and_eq_false_iff, decide_eq_false_iff_not]
    omega

/-! ### Counts of a stream index, and fabric windows -/

theorem suRead_cnt (d : Die) {i o : Nat} (hi : i < 256) (e : o = 0x4008 + i * 32) : suRead d o = some (d.suCount i) := by
  unfold suRead
  simp only [Bool.and_eq_true, decide_eq_true_eq]
  rw [if_pos (by omega), if_pos (by omega), suCnt_index e]

theorem fabRead_window (p : Pkg) {w o : Nat} (hw : w < 256) (e : o = 0x1000 + w * 32) : (fabRead p o).isNone = false := by
  unfold fabRead
  split
  case h_7 =>
    simp only [Bool.and_eq_true, decide_eq_true_eq]
    rw [if_pos (by omega)]
    rfl
  all_goals rfl

theorem State.fabWrite_window (s : State) (v : Word) {w o : Nat} (hw : w < 256) (e : o = 0x1000 + w * 32) :
    s.fabWrite o v = s.winWrite w 0 v := by
  have ew : (o - 0x1000) / 32 = w := by omega
  have ej : o % 32 / 8 = 0 := by omega
  unfold State.fabWrite
  split
  case h_3 =>
    simp only [Bool.and_eq_true, decide_eq_true_eq]
    rw [if_pos (by omega), ew, ej]
  all_goals omega

theorem State.win_modWin_same (s : State) (w : Nat) (f : FabWin → FabWin) : (s.modWin w f).win w = f (s.win w) := by
  simp [State.win, State.modWin, State.modPkg]

/-- KIND is bits 62:61 of word 0 (R420). -/
theorem windowKind_eq (v : Word) : v.toNat / 2 ^ 61 % 4 = 2 * (v.getLsbD 62).toNat + (v.getLsbD 61).toNat := by
  simp only [BitVec.getLsbD, Nat.toNat_testBit]
  omega

/-- Word 0 of a window keeps no bit of 57:48, which are reserved (R420). -/
theorem getLsbD_windowWord (v : Word) {i : Nat} (hi : i < 64) :
    (v &&& ~~~(BitVec.ofNat 64 (0x3FF * 2 ^ 48))).getLsbD i = (v.getLsbD i && !(decide (48 ≤ i) && decide (i < 58))) := by
  have reserved : Nat.testBit ((2 ^ 10 - 1) * 2 ^ 48) i = (decide (48 ≤ i) && decide (i < 58)) := by
    rw [← Nat.shiftLeft_eq, Nat.testBit_shiftLeft, Nat.testBit_two_pow_sub_one]
    by_cases h : 48 ≤ i
    · have : i - 48 < 10 ↔ i < 58 := by omega
      simp [h, this]
    · simp [h]
  rw [BitVec.getLsbD_and, BitVec.getLsbD_not, BitVec.getLsbD_ofNat, show 0x3FF * 2 ^ 48 = (2 ^ 10 - 1) * 2 ^ 48 from rfl, reserved]
  simp [hi]

theorem State.winWrite_register {s : State} {v : Word} {w : Nat} (hv : (s.win w).valid = false) (hk : v.toNat / 2 ^ 61 % 4 ≠ 3)
    (h63 : v.getLsbD 63 = true) : s.winWrite w 0 v = s.modWin w fun y =>
      { y with w0 := v &&& ~~~(BitVec.ofNat 64 (0x3FF * 2 ^ 48)), cnt := 0, port := (s.pkg.portFor y.rwin).getD 0 } := by
  simp only [State.winWrite, hk, hv, h63, decide_false, Bool.false_and, Bool.or_false, Bool.false_eq_true, if_false, if_true]

theorem State.winWrite_unregister {s : State} {v : Word} {w : Nat} (hk : v.toNat / 2 ^ 61 % 4 ≠ 3) (h63 : v.getLsbD 63 = false) :
    s.winWrite w 0 v = s.modWin w fun y => { y with w0 := v &&& ~~~(BitVec.ofNat 64 (0x3FF * 2 ^ 48)) } := by
  simp only [State.winWrite, hk, h63, decide_false, Bool.and_false, Bool.or_false, Bool.false_eq_true, if_false]

/-! ### Migration slots -/

theorem State.onlyPkg_migFree (s : State) (n : Nat) : Spec.onlyPkg s (s.migFree n) := by
  unfold State.migFree
  split <;> rfl

/-- STATE := 0 is taken from DONE and FAILED only (R414). -/
theorem State.mig_migFree (s : State) {n : Nat} (hn : n < 16) : (s.migFree n).mig n =
    { s.mig n with state := if (s.mig n).state = 2 ∨ (s.mig n).state = 3 then 0 else (s.mig n).state } := by
  unfold State.migFree
  simp only [Bool.or_eq_true, decide_eq_true_eq]
  split
  · simp [State.mig, State.modMig, State.modPkg, hn]
  · rfl

end Sys2Proof.Machine
end

section
/-! The registers with effects (R7, R182, R249 to R251, R287, R365, R391, R392, R414, R419, R420, R446, R450): what each event of the host
answers, as one equation, and the statement about all of them. -/

namespace Sys2Proof.Machine

/-! ### After a failed boot (R444) -/

theorem exec_registerReads_of_bootErr {s : State} (hb : s.pkg.bootErr = true) : ∀ ev ∈ [Instr.dspLostRead, .dspCcntRead, .suCntRead, .hsEccRead,
    .hsEvtRead, .hsChkRead, .fabLostRead, .fabRefusedRead, .fabCnoteRead], exec ev s = .next (s.out (.hostError 2)) := by
  have aborts {off : Nat} (ho : 0x2000 ≤ off) : (Host.Outcome.next (s.hostRegRead off) : Out) = .next (s.out (.hostError 2)) :=
    congrArg _ (State.hostRegRead_of_bootErr hb ho)
  simp only [List.forall_mem_cons, List.not_mem_nil, false_imp_iff, implies_true, and_true]
  refine ⟨aborts ?_, aborts ?_, aborts ?_, aborts ?_, aborts ?_, aborts ?_, aborts ?_, aborts ?_, aborts ?_⟩ <;> omega

theorem exec_registerWrites_of_bootErr {s : State} (hb : s.pkg.bootErr = true) : ∀ ev ∈ [Instr.pkgIrqClear, .pkgSnapTrigger, .pkgPreemptWrite,
    .hsElideWrite, .hsCksetWrite, .windowRegister, .windowUnregister], exec ev s = .next s := by
  have ignored {off : Nat} {v : Word} (h0 : off ≠ 0) (ho : off < 0x1000 ∨ 0x2000 ≤ off) :
      (Host.Outcome.next (s.hostRegWrite off v) : Out) = .next s := congrArg _ (State.hostRegWrite_of_bootErr hb h0 ho)
  simp only [List.forall_mem_cons, List.not_mem_nil, false_imp_iff, implies_true, and_true]
  refine ⟨ignored ?_ ?_, ignored ?_ ?_, ignored ?_ ?_, ignored ?_ ?_, ignored ?_ ?_, ignored ?_ ?_, ignored ?_ ?_⟩ <;> omega

/-! ### After a boot that did not fail -/

theorem exec_portRetrain (s : State) : ∃ t, exec .portRetrain s = .next t ∧ Spec.onlyPkg s t ∧
    ∀ i < 24, t.pkg.portUp.getLsbD i = (s.pkg.portUp.getLsbD i || decide (i = s.arg.idx)) := by
  refine ⟨_, rfl, rfl, fun i hi => ?_⟩
  show (s.pkg.portUp ||| BitVec.ofNat 24 (2 ^ s.arg.idx)).getLsbD i = _
  rw [BitVec.getLsbD_or, BitVec.getLsbD_ofNat, Nat.testBit_two_pow]
  simp [hi, eq_comm]

section Booted
variable {s : State} (hb : s.pkg.bootErr = false)
include hb

/-! ### Reads that clear -/

theorem exec_dspLostRead (hd : s.arg.die < 4) : exec .dspLostRead s =
    .next ((s.setDie s.arg.die { s.die s.arg.die with lost := 0 }).out (.regData (BitVec.ofNat 64 (s.die s.arg.die).lost))) := by
  have e : 0x100008 + s.arg.die * 0x10000 = 0x100000 + s.arg.die * 0x10000 + 0x08 := by omega
  show Host.Outcome.next (s.hostRegRead _) = _
  rw [State.hostRegRead_of_reg hb (State.reg_dsp e hd (by omega) rfl), (State.regClear_dsp e hd (by omega)).1 rfl]
  rfl

theorem exec_dspCcntRead (hd : s.arg.die < 4) : exec .dspCcntRead s =
    .next ((s.setDie s.arg.die { s.die s.arg.die with ccnt := 0 }).out (.regData (BitVec.ofNat 64 (s.die s.arg.die).ccnt))) := by
  have e : 0x100028 + s.arg.die * 0x10000 = 0x100000 + s.arg.die * 0x10000 + 0x28 := by omega
  show Host.Outcome.next (s.hostRegRead _) = _
  rw [State.hostRegRead_of_reg hb (State.reg_dsp e hd (by omega) rfl), (State.regClear_dsp e hd (by omega)).2 rfl]
  rfl

theorem exec_suCntRead (hd : s.arg.die < 4) (hi : s.arg.id < 256) : exec .suCntRead s =
    .next ((s.modDie s.arg.die fun y =>
      { y with streams := y.streams.modify s.arg.id fun x => { x with lower := 0, badRec := 0 }, suCnt := y.suCnt.erase s.arg.id }).out
        (.regData ((s.die s.arg.die).suCount s.arg.id))) := by
  have e : 0x404008 + s.arg.die * 0x40000 + s.arg.id * 32 = 0x400000 + s.arg.die * 0x40000 + (0x4008 + s.arg.id * 32) := by omega
  have hr := (State.reg_su (s := s) e hd (by omega) (by omega)).trans (suRead_cnt _ hi rfl)
  show Host.Outcome.next (s.hostRegRead _) = _
  rw [State.hostRegRead_of_reg hb hr, State.regClear_suCnt rfl hd hi]
  rfl

theorem exec_suCntRead_stream {y : Stream} (hd : s.arg.die < 4) (hi : s.arg.id < 256)
    (hy : (s.die s.arg.die).streams.find? s.arg.id = some y) : ∃ t, exec .suCntRead s = .next t ∧
      t.outs = .regData (BitVec.ofNat 64 (y.lower + y.badRec * 2 ^ 32)) :: s.outs ∧ t = { s with outs := t.outs, dies := t.dies } ∧
      (t.die s.arg.die).streams.find? s.arg.id = some { y with lower := 0, badRec := 0 } := by
  refine ⟨_, exec_suCntRead hb hd hi, ?_, rfl, ?_⟩
  · simp [State.out, Die.suCount, hy, Stream.cnt]
  · have read := Tbl.find?_modify_same (s.die s.arg.die).streams s.arg.id fun x => { x with lower := 0, badRec := 0 }
    rw [hy] at read
    exact (congrArg (fun d : Die => d.streams.find? s.arg.id) (State.die_setDie_same s _ hd)).trans read

theorem exec_suCntRead_noStream (hd : s.arg.die < 4) (hi : s.arg.id < 256) (hn : (s.die s.arg.die).streams.find? s.arg.id = none) :
    let n := ((s.die s.arg.die).suCnt.find? s.arg.id).getD (0, 0)
    ∃ t, exec .suCntRead s = .next t ∧ t.outs = .regData (BitVec.ofNat 64 (n.1 + n.2 * 2 ^ 32)) :: s.outs ∧
      t = { s with outs := t.outs, dies := t.dies } ∧ (t.die s.arg.die).suCnt.find? s.arg.id = none := by
  refine ⟨_, exec_suCntRead hb hd hi, ?_, rfl, ?_⟩
  · simp [State.out, Die.suCount, hn, Tbl.getD]
  · exact (congrArg (fun d : Die => d.suCnt.find? s.arg.id) (State.die_setDie_same s _ hd)).trans (Tbl.find?_erase_same _ _)

theorem exec_hsEccRead (hh : s.arg.id < 768) : let x := s.home s.arg.id
    exec .hsEccRead s = .next ((s.setHome s.arg.id { x with corr := 0, uncorr := 0 }).out
      (.regData (BitVec.ofNat 64 (x.corr + x.uncorr * 2 ^ 32)))) := by
  have e : 0x200008 + s.arg.id * 0x100 = 0x200000 + s.arg.id * 0x100 + 0x08 := by omega
  show Host.Outcome.next (s.hostRegRead _) = _
  rw [State.hostRegRead_of_reg hb (State.reg_home e hh (by omega) rfl), (State.regClear_home e hh (by omega)).1 rfl]
  rfl

theorem exec_hsEvtRead (hh : s.arg.id < 768) : let x := s.home s.arg.id
    exec .hsEvtRead s = .next ((s.setHome s.arg.id { x with starved := 0, keepDeny := 0, wantDrop := 0 }).out
      (.regData (BitVec.ofNat 64 (x.wantDrop + x.keepDeny * 2 ^ 16 + x.starved * 2 ^ 32)))) := by
  have e : 0x200010 + s.arg.id * 0x100 = 0x200000 + s.arg.id * 0x100 + 0x10 := by omega
  show Host.Outcome.next (s.hostRegRead _) = _
  rw [State.hostRegRead_of_reg hb (State.reg_home e hh (by omega) rfl), (State.regClear_home e hh (by omega)).2.1 rfl]
  rfl

theorem exec_hsChkRead (hh : s.arg.id < 768) : let x := s.home s.arg.id
    exec .hsChkRead s = .next ((s.setHome s.arg.id { x with conf := 0, disp := 0 }).out
      (.regData (BitVec.ofNat 64 (x.conf + x.disp * 2 ^ 32)))) := by
  have e : 0x200030 + s.arg.id * 0x100 = 0x200000 + s.arg.id * 0x100 + 0x30 := by omega
  show Host.Outcome.next (s.hostRegRead _) = _
  rw [State.hostRegRead_of_reg hb (State.reg_home e hh (by omega) rfl), (State.regClear_home e hh (by omega)).2.2 rfl]
  rfl

theorem exec_fabLostRead : exec .fabLostRead s =
    .next ((s.modPkg fun p => { p with fabLost := 0 }).out (.regData (BitVec.ofNat 64 s.pkg.fabLost))) :=
  congrArg _ (State.hostRegRead_of_reg hb (State.reg_fab (o := 0x18) rfl (by omega) rfl))

theorem exec_fabRefusedRead : exec .fabRefusedRead s =
    .next ((s.modPkg fun p => { p with refused := 0 }).out (.regData (BitVec.ofNat 64 s.pkg.refused))) :=
  congrArg _ (State.hostRegRead_of_reg hb (State.reg_fab (o := 0x20) rfl (by omega) rfl))

theorem exec_fabCnoteRead : exec .fabCnoteRead s = .next ((s.modPkg fun p => { p with cnote := 0 }).out
    (.regData (BitVec.ofNat 64 s.pkg.cnote.toNat))) := by
  rw [BitVec.ofNat_toNat, BitVec.setWidth_eq]
  exact congrArg Host.Outcome.next (State.hostRegRead_of_reg hb (State.reg_fab (o := 0x28) rfl (by omega) rfl))

/-! ### Writes in the package block -/

theorem exec_pkgIrqClear : exec .pkgIrqClear s = .next (s.modPkg fun p => { p with irq := p.irq &&& ~~~(s.arg.v.setWidth 4) }) :=
  congrArg _ (State.hostRegWrite_of_regWrite hb (State.regWrite_pkg (by omega) rfl rfl))

theorem exec_pkgSnapTrigger (hn : s.pkg.snapAt ≠ some s.now) : exec .pkgSnapTrigger s =
    .next (({ s with snap := s.cycleRegs }.modPkg fun p =>
      { p with snapUser := s.arg.v.getLsbD 62, snapSeq := p.snapSeq + 1, snapAt := some s.now }).irq 3) := by
  have written := State.hostRegWrite_of_regWrite hb (State.regWrite_pkg (s := s) (off := 0x20) (v := s.arg.v ||| BitVec.ofNat 64 (2 ^ 63))
    (boot := {}) (by omega) rfl rfl)
  refine (congrArg Host.Outcome.next written).trans ?_
  have trig : (s.arg.v ||| BitVec.ofNat 64 (2 ^ 63)).getLsbD 63 = true := by simp
  have user : (s.arg.v ||| BitVec.ofNat 64 (2 ^ 63)).getLsbD 62 = s.arg.v.getLsbD 62 := by simp
  simp only [State.pkgWrite, trig, user, if_true]
  exact congrArg _ (State.latch_of_ne hn)

theorem exec_pkgPreemptWrite (hp : s.pkg.preempt.getLsbD 63 = false) (hv : s.arg.v.getLsbD 63 = false) : exec .pkgPreemptWrite s =
    .next (s.modPkg fun p => { p with preempt := BitVec.ofNat 64 (s.arg.v.toNat % 2 ^ 16) }) :=
  congrArg Host.Outcome.next ((State.hostRegWrite_of_regWrite hb (State.regWrite_pkg (off := 0x18) (by omega) rfl rfl)).trans
    (State.preemptWrite_without_go hp hv))

/-! ### Writes of a home's registers -/

theorem exec_hsElideWrite (hh : s.arg.id < 768) : exec .hsElideWrite s = .next (s.elide s.arg.id (s.arg.v.toNat % 2 ^ 14)) := by
  have e : 0x200018 + s.arg.id * 0x100 = 0x200000 + s.arg.id * 0x100 + 0x18 := by omega
  exact congrArg _ (State.hostRegWrite_of_regWrite hb (State.regWrite_home e hh (by omega) rfl rfl))

theorem exec_hsCksetWrite (hh : s.arg.id < 768) : exec .hsCksetWrite s = .next (s.modHome s.arg.id fun x =>
    { x with
      ckset := NatSet.put x.ckset (s.arg.v.toNat % 2 ^ 14) (s.arg.v.getLsbD 63)
      cksetReg := s.arg.v &&& BitVec.ofNat 64 (2 ^ 63 + 2 ^ 14 - 1) }) := by
  have e : 0x200020 + s.arg.id * 0x100 = 0x200000 + s.arg.id * 0x100 + 0x20 := by omega
  exact congrArg _ (State.hostRegWrite_of_regWrite hb (State.regWrite_home e hh (by omega) rfl rfl))

theorem exec_hsCksetWrite_effect (hh : s.arg.id < 768) : let x := s.home s.arg.id
    ∃ t, exec .hsCksetWrite s = .next t ∧ Spec.onlyHome s t s.arg.id ∧ (t.home s.arg.id).frames = x.frames ∧
      (t.home s.arg.id).cksetReg = s.arg.v &&& BitVec.ofNat 64 (2 ^ 63 + 2 ^ 14 - 1) ∧
      ∀ i, i ∈ (t.home s.arg.id).ckset ↔ if i = s.arg.v.toNat % 2 ^ 14 then s.arg.v.getLsbD 63 = true else i ∈ x.ckset := by
  refine ⟨_, exec_hsCksetWrite hb hh, ⟨rfl, rfl, rfl, rfl, rfl, rfl, rfl, fun n hn => State.home_setHome_other _ _ _ _ hn⟩, ?_⟩
  simp only [State.modHome, State.home_setHome_same, true_and]
  exact fun i => NatSet.mem_put _ _ i _

/-! ### Windows and migration slots -/

/-- A write of word 0 of a window comes to that window (R420). -/
theorem State.hostRegWrite_window {v : Word} {w : Nat} (hw : w < 256) : s.hostRegWrite (0x501000 + w * 32) v = s.winWrite w 0 v :=
  (State.hostRegWrite_of_regWrite hb (State.regWrite_fab (o := 0x1000 + w * 32) (by omega) (by omega) (by omega) (fabRead_window _ hw rfl))).trans
    (s.fabWrite_window v hw rfl)

theorem exec_windowRegister (hw : s.arg.idx < 256) (hv : (s.win s.arg.idx).valid = false) (hk : s.arg.v.toNat / 2 ^ 61 % 4 ≠ 3) :
    ∃ t, exec .windowRegister s = .next t ∧ Spec.onlyPkg s t ∧ (t.win s.arg.idx).valid = true ∧
      (t.win s.arg.idx).cnt = 0 ∧ (t.win s.arg.idx).w1 = (s.win s.arg.idx).w1 ∧ (t.win s.arg.idx).w2 = (s.win s.arg.idx).w2 ∧
      ∀ i < 63, (t.win s.arg.idx).w0.getLsbD i = (s.arg.v.getLsbD i && !(decide (48 ≤ i) && decide (i < 58))) := by
  have kind : (s.arg.v ||| BitVec.ofNat 64 (2 ^ 63)).toNat / 2 ^ 61 % 4 ≠ 3 := by
    rw [windowKind_eq] at hk ⊢
    simpa using hk
  have written := (State.hostRegWrite_window hb hw).trans (State.winWrite_register hv kind (by simp))
  refine ⟨_, congrArg Host.Outcome.next written, rfl, ?_⟩
  rw [State.win_modWin_same]
  refine ⟨(getLsbD_windowWord _ (by omega)).trans (by simp), rfl, rfl, rfl, fun i hi => (getLsbD_windowWord _ (by omega)).trans ?_⟩
  have below : (BitVec.ofNat 64 (2 ^ 63)).getLsbD i = false := by
    rw [BitVec.getLsbD_ofNat, Nat.testBit_two_pow_of_ne (by omega), Bool.and_false]
  rw [BitVec.getLsbD_or, below, Bool.or_false]

theorem exec_windowUnregister (hw : s.arg.idx < 256) (hk : s.arg.v.toNat / 2 ^ 61 % 4 ≠ 3) :
    ∃ t, exec .windowUnregister s = .next t ∧ Spec.onlyPkg s t ∧ (t.win s.arg.idx).valid = false := by
  have kind : (s.arg.v &&& ~~~(BitVec.ofNat 64 (2 ^ 63))).toNat / 2 ^ 61 % 4 ≠ 3 := by
    rw [windowKind_eq] at hk ⊢
    simpa using hk
  have written := (State.hostRegWrite_window hb hw).trans (State.winWrite_unregister kind (by simp))
  refine ⟨_, congrArg Host.Outcome.next written, rfl, ?_⟩
  rw [State.win_modWin_same]
  exact (getLsbD_windowWord _ (by omega)).trans (by simp)

theorem exec_migrationSlotFree (hw : Spec.hostWritten s) (hn : s.arg.idx < 16) : ∃ t, exec .migrationSlotFree s = .next t ∧
    Spec.onlyPkg s t ∧ t.mig s.arg.idx = { s.mig s.arg.idx with
      state := if (s.mig s.arg.idx).state = 2 ∨ (s.mig s.arg.idx).state = 3 then 0 else (s.mig s.arg.idx).state } := by
  refine ⟨s.migFree s.arg.idx, ?_, s.onlyPkg_migFree _, s.mig_migFree hn⟩
  show execMigrationSlotFree s = _
  unfold execMigrationSlotFree
  rw [afterWrites_of_hostWritten _ _ hw, hb]
  rfl

/-! ### Registers written by their offset -/

theorem exec_registerWrite_ntbase {d : Nat} (hd : d < 4) (e : s.arg.id = 0x100000 + d * 0x10000) : exec .registerWrite s =
    .next (s.setDie d { s.die d with ntbase := BitVec.ofNat 64 (s.arg.v.toNat / 2 ^ 21 % 2 ^ 19 * 2 ^ 21) }) :=
  execRegisterWrite_of_regWrite hb e (by omega) (by omega) (by omega) (State.regWrite_dsp (o := 0) rfl hd (by omega) rfl rfl)

theorem exec_registerWrite_tmo (e : s.arg.id = 0x500010) : exec .registerWrite s =
    .next { s with pkg := { s.pkg with tmo := BitVec.ofNat 32 s.arg.v.toNat } } :=
  execRegisterWrite_of_regWrite hb e (by omega) (by omega) (by omega) (State.regWrite_fab (o := 0x10) rfl (by omega) rfl rfl)

theorem exec_registerWrite_sysn (e : s.arg.id = 0x30) : exec .registerWrite s =
    .next { s with pkg := { s.pkg with sysn := BitVec.ofNat 14 s.arg.v.toNat } } :=
  execRegisterWrite_of_regWrite hb e (by omega) (by omega) (by omega) (State.regWrite_pkg (by omega) rfl rfl)

theorem exec_registerWrite_thermidor {d : Nat} (hd : d < 4) (e : s.arg.id = 0x600008 + d * 0x1000) : exec .registerWrite s =
    .next (s.setDie d { s.die d with
      tgt := BitVec.ofNat 8 (s.arg.v.toNat / 2 ^ 8), pcap := BitVec.ofNat 16 (s.arg.v.toNat / 2 ^ 16) }) := by
  have field (k w : Nat) : (s.arg.v >>> k).setWidth w = BitVec.ofNat w (s.arg.v.toNat / 2 ^ k) := by
    apply BitVec.eq_of_toNat_eq
    simp [Nat.shiftRight_eq_div_pow]
  rw [← field 8 8, ← field 16 16]
  exact execRegisterWrite_of_regWrite hb e (by omega) (by omega) (by omega) (State.regWrite_thm rfl hd)

end Booted

/-- Settles O24: after a failed boot nothing answers, and otherwise each register does as its event's equation says. -/
theorem hostRegisters : Obligations.HostRegisters := by
  unfold Obligations.HostRegisters
  intro s
  refine ⟨fun hb => ⟨exec_registerReads_of_bootErr hb, exec_registerWrites_of_bootErr hb⟩, fun hb => ?_⟩
  refine ⟨fun hd => ⟨exec_dspLostRead hb hd, exec_dspCcntRead hb hd, fun y hi hy => exec_suCntRead_stream hb hd hi hy,
      fun hi hn => exec_suCntRead_noStream hb hd hi hn⟩,
    fun hh => ⟨exec_hsEccRead hb hh, exec_hsEvtRead hb hh, exec_hsChkRead hb hh⟩,
    exec_fabLostRead hb, exec_fabRefusedRead hb, exec_fabCnoteRead hb, ⟨_, exec_pkgIrqClear hb, rfl, ?irq⟩,
    fun hn => ⟨_, exec_pkgSnapTrigger hb hn, rfl, rfl, rfl, rfl, rfl⟩, fun hp hv => ⟨_, exec_pkgPreemptWrite hb hp hv, rfl, rfl⟩,
    fun hh => ⟨_, exec_hsElideWrite hb hh, s.elide_get _ _, ?live⟩, exec_hsCksetWrite_effect hb,
    fun hw => ⟨exec_windowRegister hb hw, exec_windowUnregister hb hw⟩, exec_portRetrain s, fun _ => exec_migrationSlotFree hb,
    fun _ => exec_registerWrite_ntbase hb, exec_registerWrite_tmo hb, exec_registerWrite_sysn hb, fun _ => exec_registerWrite_thermidor hb⟩
  case irq =>
    intro i hi
    show (s.pkg.irq &&& ~~~(s.arg.v.setWidth 4)).getLsbD i = _
    simp [hi]
  case live =>
    intro i
    rw [(s.elide_granules _ _).2]
    exact NatSet.mem_del ..

end Sys2Proof.Machine
end

section
/-! The machine right after reset: every unit is as its own definition starts it. -/

namespace Sys2Proof.Machine

/-- Of the units that are listed by number none is listed after reset, so each is as a new one (R441, R442). -/
theorem State.reset_core (c : Nat) : State.reset.core c = {} := rfl
theorem State.reset_home (h : Nat) : State.reset.home h = {} := rfl
theorem State.reset_win (w : Nat) : State.reset.win w = {} := rfl

theorem State.reset_die (d : Nat) : State.reset.die d = {} := by
  have e : State.reset.dies = Vector.replicate 4 {} := rfl
  by_cases h : d < 4 <;> simp [State.die, e, h]

theorem State.reset_mig (n : Nat) : State.reset.mig n = {} := by
  have e : State.reset.pkg.mig = Vector.replicate 16 {} := rfl
  by_cases h : n < 16 <;> simp [State.mig, e, h]

/-- A new core: memories that read zero, tags not full, no slot, translation, ring, window or command. -/
theorem Core.new_idle : let k : Core := {}
    (∀ a, k.sp.get a = 0 ∧ k.om.get a = 0 ∧ k.tagFull a = false) ∧ k.spPoison = [] ∧ k.omPoison = [] ∧
    (∀ n, k.omTag.find? n = none ∧ k.omHold.find? n = none ∧ k.tlb.find? n = none ∧ k.rings.find? n = none ∧ k.windows.find? n = none) ∧
    (∀ q, k.queue q = []) ∧ (∀ i < 16, k.slots[i]? = some none) ∧ k.rot = true ∧ k.bslim = 256 ∧ k.starve = 32768 := by
  refine ⟨fun a => ⟨rfl, rfl, ?_⟩, rfl, rfl, fun n => ⟨rfl, rfl, rfl, rfl, rfl⟩, fun q => ?_, fun i hi => ?_, rfl, rfl, rfl⟩
  · rfl
  · by_cases h : q < 4 <;> simp [Core.queue, h]
  · simp [hi]

/-- Settles O31, unit by unit: each reads as the new unit of its kind. -/
theorem resetState : Obligations.ResetState := by
  unfold Obligations.ResetState
  refine ⟨rfl, rfl, rfl, rfl, rfl, rfl, rfl, rfl, rfl, rfl, rfl, rfl, rfl, rfl, rfl, Memory.wf_nil, fun _ => rfl, fun n _ => ?_, fun w => ?_,
    fun c => ?_, fun h => ?_, fun d => ?_⟩
  · rw [State.reset_mig]
  · rw [State.reset_win]; rfl
  · rw [State.reset_core]; exact Core.new_idle
  · rw [State.reset_home]; exact ⟨rfl, rfl, rfl, rfl, rfl, rfl, rfl, rfl⟩
  · rw [State.reset_die]; exact ⟨rfl, rfl, rfl, rfl, rfl, rfl, rfl, rfl, rfl⟩

end Sys2Proof.Machine
end

section
/-! The framing of code (R34, R35): the two top bits of a halfword say what it is, a head and its continuation hold the payload, and the bytes of
an instruction are those of its halfwords. -/

namespace Sys2Proof.Laws

/-! ### Heads and continuations -/

theorem getLsbD_eq_decide (h : Half) (n : Nat) : h.getLsbD n = decide (h.toNat / 2 ^ n % 2 = 1) := by
  rw [BitVec.getLsbD, Nat.testBit_eq_decide_div_mod_eq]

theorem isHead_eq_bits (h : Half) : isHead h = (h.getLsbD 15 && h.getLsbD 14) := by
  rw [Bool.eq_iff_iff]
  simp only [isHead, fldN, beq_iff_eq, getLsbD_eq_decide, Bool.and_eq_true, decide_eq_true_eq]
  omega

theorem isCont_eq_bits (h : Half) : isCont h = (h.getLsbD 15 && !h.getLsbD 14) := by
  rw [Bool.eq_iff_iff]
  simp only [isCont, fldN, beq_iff_eq, getLsbD_eq_decide, Bool.and_eq_true, Bool.not_eq_true', decide_eq_true_eq, decide_eq_false_iff_not]
  omega

/-- What decoding answers, by the two top bits of the first halfword (R34, R51). -/
theorem decodeHalves_of_short {h : Half} (c : Half) (h15 : h.getLsbD 15 = false) :
    decodeHalves h c = (decode16 h.toNat).map (·, 2) := by
  rw [decodeHalves, isCont_eq_bits, isHead_eq_bits, h15]
  rfl

theorem decodeHalves_of_continuation {h : Half} (c : Half) (h15 : h.getLsbD 15 = true) (h14 : h.getLsbD 14 = false) :
    decodeHalves h c = .error .continuation := by
  rw [decodeHalves, isCont_eq_bits, h15, h14]
  rfl

theorem decodeHalves_of_head {h : Half} (c : Half) (h15 : h.getLsbD 15 = true) (h14 : h.getLsbD 14 = true) :
    decodeHalves h c = if isCont c then (decode32 (payload h c)).map (·, 4) else .error .noContinuation := by
  rw [decodeHalves, isCont_eq_bits, isHead_eq_bits, h15, h14]
  rfl

/-! ### The halfwords of a 32-bit instruction -/

/-- The head of an opcode and a payload (R35). -/
def headOf (op p : Nat) : Half := BitVec.ofNat 16 (3 * 2 ^ 14 + op * 2 ^ 6 + p / 2 ^ 14)
/-- The continuation of a payload (R35). -/
def contOf (p : Nat) : Half := BitVec.ofNat 16 (2 * 2 ^ 14 + p % 2 ^ 14)

theorem headOf_toNat {op p : Nat} (hop : op < 256) (hp : p < 2 ^ 20) : (headOf op p).toNat = 3 * 2 ^ 14 + op * 2 ^ 6 + p / 2 ^ 14 :=
  Nat.mod_eq_of_lt (by omega)

theorem contOf_toNat (p : Nat) : (contOf p).toNat = 2 * 2 ^ 14 + p % 2 ^ 14 := Nat.mod_eq_of_lt (by omega)

theorem headOf_bits {op p : Nat} (hop : op < 256) (hp : p < 2 ^ 20) : (headOf op p).getLsbD 15 = true ∧ (headOf op p).getLsbD 14 = true := by
  simp only [getLsbD_eq_decide, headOf_toNat hop hp, decide_eq_true_eq]
  omega

theorem contOf_bits (p : Nat) : (contOf p).getLsbD 15 = true ∧ (contOf p).getLsbD 14 = false := by
  simp only [getLsbD_eq_decide, contOf_toNat, decide_eq_true_eq, decide_eq_false_iff_not]
  omega

/-- A head and its continuation hold the opcode above the twenty bits that were laid into them. -/
theorem payload_headOf_contOf {op p : Nat} (hop : op < 256) (hp : p < 2 ^ 20) : payload (headOf op p) (contOf p) = wordOf op p := by
  simp only [payload, fldN, headOf_toNat hop hp, contOf_toNat, wordOf]
  omega

/-- Every head and continuation are laid out from the payload that they hold. -/
theorem halves_of_payload {h c : Half} (hh : isHead h = true) (hc : isCont c = true) :
    headOf (payload h c / 2 ^ 20) (payload h c % 2 ^ 20) = h ∧ contOf (payload h c % 2 ^ 20) = c := by
  have := h.isLt
  have := c.isLt
  simp only [isHead, isCont, fldN, beq_iff_eq] at hh hc
  have hp : payload h c = h.toNat % 2 ^ 14 * 2 ^ 14 + c.toNat % 2 ^ 14 := by simp [payload, fldN]
  have hop : payload h c / 2 ^ 20 < 256 := by omega
  refine ⟨BitVec.eq_of_toNat_eq ?_, BitVec.eq_of_toNat_eq ?_⟩
  · rw [headOf_toNat hop (Nat.mod_lt _ (by decide))]
    omega
  · rw [contOf_toNat]
    omega

theorem decodeHalves_headOf_contOf {op p : Nat} (hop : op < 256) (hp : p < 2 ^ 20) :
    decodeHalves (headOf op p) (contOf p) = (decode32 (wordOf op p)).map (·, 4) := by
  obtain ⟨h15, h14⟩ := headOf_bits hop hp
  obtain ⟨c15, c14⟩ := contOf_bits p
  rw [decodeHalves_of_head _ h15 h14, if_pos (by rw [isCont_eq_bits, c15, c14]; rfl), payload_headOf_contOf hop hp]

/-! ### Bytes (R4) -/

theorem halfOf_bytes (h : Half) : halfOf (BitVec.ofNat 8 h.toNat) (BitVec.ofNat 8 (h.toNat / 256)) = h := by
  have := h.isLt
  refine BitVec.eq_of_toNat_eq ?_
  simp only [halfOf, BitVec.toNat_ofNat]
  omega

/-- The halfword that is read behind the first one of `rest`. -/
theorem decodeBytes_half (h : Half) (rest : List Byte) :
    decodeBytes (halfBytes h ++ rest) = decodeHalves h (halfOf (rest.getD 0 0) (rest.getD 1 0)) := by
  exact congrArg (decodeHalves · _) (halfOf_bytes h)

theorem decodeBytes_halves (h c : Half) (rest : List Byte) : decodeBytes (halfBytes h ++ halfBytes c ++ rest) = decodeHalves h c := by
  rw [List.append_assoc, decodeBytes_half]
  exact congrArg _ (halfOf_bytes c)

end Sys2Proof.Laws
end

section
/-! Encoding and decoding back (R34 to R52), over every constructor of `Instr`. -/

namespace Sys2Proof.Laws.RoundTrip

/-- Every constructor has its lemma. -/
theorem statement_all (i : Instr) : Statement i :=
  Instr.casesOn (motive := Statement) i
    add sub mul mulh mulhn div divn rem remn and or xor andn shl shr sar rol min max minn maxn clz ctz popc brev bswap bfx bfxn bfi fsh sel
    mov addi andi ori xori shli shri sari movi movh cmp cmpi qop qtos stoq fadd fsub fmul ffma fdiv fsqrt fmin fmax fsgn fcmp cvt fclass
    imake ilo ihi iadd isub imul idiv isqr isqrt iexp ilog irelu imin imax ihull imeet iwid imid icmp imov iscale npq cadd csub cmul cdiv
    csqr cexp crelu cmax br call jr callr bq loop trap setvl rdid rdctl wrctl ldsB ldsH ldsW ldsD stsB stsH stsW stsD tlds tsts tstr rfill
    waitf barOr barNp xset xget ldB ldH ldW ldD ldAcq ldw stB stH stW stD stRel ild ist amo cas red vld vst migr bwant bkeep bfree bcopy
    bcopyZero vadd vsub vmul vfma vmin vmax vand vor vxor vshl vshr vsar vabs vneg vcvt vsel vcmp vred vdot vbcast vadds vmuls vperm vmov
    vbdot vscacc vscomb vexp vrcp vrsq vtanh viadd visub vimul virelu vihull vimeet vidot vimake vcadd vcmul vcrelu mclaim mrelease mload
    mstore mzero mma cpy cpyG gwin rdef rdefOff rpostD rpostF rtakeD rtakeF qfence qwait ckpt wpost wpostG wwait sbindS sbindW sbindOffS
    sbindOffW semit swm sidle spub sread tlbw tlbi privctlRd privctlWr halt mov16 add16 sub16 and16 or16 xor16 shl16 shr16 sar16 lds16 sts16
    take movi16 addi16 shli16 shri16 sari16 andi16 ldsSp stsSp brS callS bqt bqf bqu empty qwait16 nop ret exit yield bar waitred fence
    npclr upret upretSkip snap snapt fenceSCore fenceSSg fenceSDie fenceSPkg gunb0 gunb1 gunb2 gunb3 gunb4 gunb5 gunb6 gunb7 mrot0 mrot1
    mrot2 mrot3 mrot4 mrot5 mrot6 mrot7 powerOnReset pkgRstWarm pkgRstCold trainingComplete attestationRequest thermidorStep
    criticalTemperature thermalStop pkgIrqClear pkgPreemptWrite pkgSnapTrigger registerWrite dspLostRead dspCcntRead hsEccRead hsEvtRead
    hsChkRead suCntRead fabLostRead fabRefusedRead fabCnoteRead hsElideWrite hsCksetWrite migrationStart migrationSlotFree migrationUnit
    windowRegister windowUnregister hostMemoryRead hostMemoryWrite ingressRecordWrite ingressWatermarkWrite ingressIdleWrite hostLinkDown
    dieEdgeFailure portDown portRetrain fabricPutArrival fabricAckArrival fabricUnitTimeout fabricGetRequest fabricGetUnitArrival
    containmentNotice statusStore predUpdate placementPass strandStart gangComplete triggerFire slotLoad quantumYield rotModeSwitch
    barrierRelease replyFill rfillArrival registerWaitExpiry heldFillExpiry taggedRequestArrival taggedWaitExpiry ldwExpiry rtakeExpiry
    qwaitExpiry mclaimExpiry wwaitExpiry heldAccessExpiry remoteRequestArrival ackArrival migrationArrival stewardFetchStart blockArrival
    writebackEnd blockEvict transitIdleEvict overflowMove patrolFetch refreshDue refreshPullForward fetchReturn tlbMissWalk missReply
    shootdown spanClose waitWithdrawal engineCommandStart engineUnit engineCommandComplete remoteSpWrite vldRowWrite arrayOpComplete
    mrotTileArrival containRetryResume saveStart saveComplete preemptLapse streamRecord sourceWatermark sourceIdle idleTimeout derivedRaise
    amendHoldExpiry stateNotice undefinedEncoding hostLinkTraining lifeCycleCommand

theorem checkWf_ok {i : Instr} (h : i.wf = true) : checkWf (.ok i) = .ok i := if_pos h

/-- What an encoding of each kind says of the halfwords laid out. -/
theorem encode_half {i : Instr} {n : Nat} (h : enc i = .half n) : encode i = [BitVec.ofNat 16 n] := by rw [encode, h]; rfl
theorem encode_word {i : Instr} {op p : Nat} (h : enc i = .word op p) : encode i = [headOf op p, contOf p] := by rw [encode, h]; rfl

/-- Settles O33: each instruction's own lemma says what its payload decodes to, and the framing says what its halfwords and bytes hold. -/
theorem encodeDecodeRoundTrip : Obligations.EncodeDecodeRoundTrip := by
  unfold Obligations.EncodeDecodeRoundTrip
  intro i hwf henc
  have hi := statement_all i hwf
  cases he : enc i with
  | half n =>
    rw [he] at hi
    obtain ⟨hn, hdec⟩ := hi
    have h15 : (BitVec.ofNat 16 n).getLsbD 15 = false := by
      rw [getLsbD_eq_decide, BitVec.toNat_ofNat, decide_eq_false_iff_not]
      omega
    have hhalves (c : Half) : decodeHalves (BitVec.ofNat 16 n) c = .ok (i, 2) := by
      rw [decodeHalves_of_short _ h15, BitVec.toNat_ofNat, Nat.mod_eq_of_lt (by omega), hdec]
      rfl
    refine .inl ⟨_, encode_half he, h15, hhalves, fun rest => ?_⟩
    rw [encodeBytes, encode_half he, List.flatMap_singleton, decodeBytes_half, hhalves]
  | word op p =>
    rw [he] at hi
    obtain ⟨hop, hp, hdec⟩ := hi
    have hhalves : decodeHalves (headOf op p) (contOf p) = .ok (i, 4) := by
      rw [decodeHalves_headOf_contOf hop hp, decode32, wordOf, hdec, checkWf_ok hwf]
      rfl
    obtain ⟨h15, h14⟩ := headOf_bits hop hp
    obtain ⟨c15, c14⟩ := contOf_bits p
    refine .inr ⟨_, _, encode_word he, h15, h14, c15, c14, hhalves, fun rest => ?_⟩
    rw [encodeBytes, encode_word he, List.flatMap_cons, List.flatMap_singleton, decodeBytes_halves, hhalves]
  | none =>
    rw [he] at hi
    exact absurd (hi.symm.trans henc) (by decide)

end Sys2Proof.Laws.RoundTrip
end

section
/-! Words written out from the encoding tables, and halfwords that are no instruction (R34 to R51). -/

namespace Sys2Proof.Laws.RoundTrip

/-- Settles O32: the words by evaluation, and the two framing errors by the top bits of the halfwords. -/
theorem decodesSpecWords : Obligations.DecodesSpecWords := by
  unfold Obligations.DecodesSpecWords
  refine ⟨?words, fun h c => decodeHalves_of_continuation c, fun h c h15 h14 hc => ?noContinuation, ?errors⟩
  case words => decide +kernel
  case errors => decide +kernel
  case noContinuation =>
    have hcont : isCont c = false := by simpa [isCont_eq_bits] using hc
    rw [decodeHalves_of_head c h15 h14, hcont]
    rfl

end Sys2Proof.Laws.RoundTrip
end

section
/-! A payload is the sum of its fields: what the decoder reads of them, the encoder lays out again (R43). -/

namespace Sys2Proof.Laws

/-! ### Fields -/

@[simp] theorem fld_toNat (p lo w : Nat) : (fld p lo w).toNat = fldN p lo w := BitVec.toNat_ofNat ..

theorem fldN_lt (p lo w : Nat) : fldN p lo w < 2 ^ w := Nat.mod_lt _ (Nat.two_pow_pos w)

@[simp] theorem b2n_bitB (p n : Nat) : b2n (bitB p n) = fldN p n 1 := by
  rcases Nat.mod_two_eq_zero_or_one (p / 2 ^ n) with h | h <;> simp [bitB, fldN, h, b2n]

@[simp] theorem isZero_iff {p lo w : Nat} : isZero p lo w = true ↔ fldN p lo w = 0 := beq_iff_eq

theorem fldN_one_of_bitB {p n : Nat} {b : Bool} (h : bitB p n = b) : fldN p n 1 = b2n b := by rw [← h, b2n_bitB]

/-- A field is its lower part and, above it, the rest. -/
theorem fldN_add (p lo v w : Nat) : fldN p lo (v + w) = fldN p lo v + 2 ^ v * fldN p (lo + v) w := by
  simp only [fldN, pow_add, Nat.mod_mul, Nat.div_div_eq_div_mul]

/-- The fields of the given widths, from bit `lo` upwards, each in its place. -/
def fieldSum (p : Nat) : Nat → List Nat → Nat
  | _, [] => 0
  | lo, w :: ws => fldN p lo w * 2 ^ lo + fieldSum p (lo + w) ws

theorem fieldSum_eq (p lo : Nat) (ws : List Nat) : fieldSum p lo ws = fldN p lo ws.sum * 2 ^ lo := by
  induction ws generalizing lo with
  | nil => simp [fieldSum, fldN, Nat.mod_one]
  | cons w ws ih =>
    rw [fieldSum, ih, List.sum_cons, fldN_add, pow_add]
    ring

/-- The lowest `n` bits are the fields of any layout of `n` bits. -/
theorem fldN_eq_fieldSum (p : Nat) {n : Nat} (ws : List Nat) (h : ws.sum = n) : fldN p 0 n = fieldSum p 0 ws := by
  rw [fieldSum_eq, h, pow_zero, mul_one]

/-! ### Codes -/

theorem fmtOf_some {n : Nat} {f : Fmt} (h : fmtOf n = some f) : f.code = n := by
  unfold fmtOf at h
  split at h <;> cases h <;> rfl
theorem cmpCondOf_some {n : Nat} {c : CmpCond} (h : cmpCondOf n = some c) : c.code = n := by
  unfold cmpCondOf at h
  split at h <;> cases h <;> rfl
theorem cvtCodeOf_some {n : Nat} {c : CvtCode} (h : cvtCodeOf n = some c) : c.code = n := by
  unfold cvtCodeOf at h
  split at h <;> cases h <;> rfl
theorem sgnOf_some {n : Nat} {c : SgnMode} (h : sgnOf n = some c) : c.code = n := by
  unfold sgnOf at h
  split at h <;> cases h <;> rfl
theorem redOf_some {n : Nat} {c : RedFn} (h : redOf n = some c) : c.code = n := by
  unfold redOf at h
  split at h <;> cases h <;> rfl
theorem scopeOf_some {n : Nat} {c : FScope} (h : scopeOf n = some c) : c.code = n := by
  unfold scopeOf at h
  split at h <;> cases h <;> rfl
theorem vredOf_some {n : Nat} {c : VRedFn} (h : vredOf n = some c) : c.code = n := by
  unfold vredOf at h
  split at h <;> cases h <;> rfl
theorem trOf_some {n : Nat} {c : TileTr} (h : trOf n = some c) : c.code = n := by
  unfold trOf at h
  split at h <;> cases h <;> rfl
theorem tlbiOf_some {n : Nat} {c : TlbiMode} (h : tlbiOf n = some c) : c.code = n := by
  unfold tlbiOf at h
  split at h <;> cases h <;> rfl

@[simp] theorem precOf_code (b : Bool) : (precOf b).code = b2n b := by cases b <;> rfl

/-- A code of two or three bits that names something at each of its values. -/
theorem roundOf_code_eq : ∀ n < 4, (roundOf n).code = n := by decide
theorem cmpiCondOf_code_eq : ∀ n < 4, (cmpiCondOf n).code = n := by decide
theorem fcondOf_code_eq : ∀ n < 4, (fcondOf n).code = n := by decide
theorem bqOf_code_eq : ∀ n < 4, (bqOf n).code = n := by decide
theorem vcondOf_code_eq : ∀ n < 4, (vcondOf n).code = n := by decide
theorem amoOf_code_eq : ∀ n < 8, (amoOf n).code = n := by decide

@[simp] theorem roundOf_fldN (p lo : Nat) : (roundOf (fldN p lo 2)).code = fldN p lo 2 := roundOf_code_eq _ (fldN_lt ..)
@[simp] theorem cmpiCondOf_fldN (p lo : Nat) : (cmpiCondOf (fldN p lo 2)).code = fldN p lo 2 := cmpiCondOf_code_eq _ (fldN_lt ..)
@[simp] theorem fcondOf_fldN (p lo : Nat) : (fcondOf (fldN p lo 2)).code = fldN p lo 2 := fcondOf_code_eq _ (fldN_lt ..)
@[simp] theorem bqOf_fldN (p lo : Nat) : (bqOf (fldN p lo 2)).code = fldN p lo 2 := bqOf_code_eq _ (fldN_lt ..)
@[simp] theorem amoOf_fldN (p lo : Nat) : (amoOf (fldN p lo 3)).code = fldN p lo 3 := amoOf_code_eq _ (fldN_lt ..)

@[simp] theorem dFill_num (p lo : Nat) (iv : Bool) : (dFill p lo iv).num = if iv then fldN p lo 4 else fldN p lo 5 := by
  cases iv <;> simp [dFill, FillReg.num]
@[simp] theorem dFill_isIv (p lo : Nat) (iv : Bool) : (dFill p lo iv).isIv = iv := by cases iv <;> rfl

/-- The instructions with one constructor for each value of an operand (log 10). -/
theorem enc_fenceOf (q : FScope) : enc (fenceOf q) = .word 0x97 q.code := by cases q <;> rfl
theorem enc_gunbOf : ∀ w, enc (gunbOf w) = .word 0xE2 (w.toNat * 2 ^ 17) := by decide
theorem enc_mrotOf : ∀ x, enc (mrotOf x) = .word 0xD6 (x.toNat * 2 ^ 17) := by decide

end Sys2Proof.Laws
end

section
/-! What the opcode map answers is encoded as the payload that it was read from (R48, R51): one lemma per format, then one per row of the map. -/

namespace Sys2Proof.Laws

/-- Whatever the decoder answers is encoded as the opcode `op` and the low twenty bits of `p`. -/
def EncodesBack (op p : Nat) (r : Except DecodeErr Instr) : Prop := ∀ i, r = .ok i → enc i = .word op (fldN p 0 20)

variable {op p n : Nat}

theorem EncodesBack.error (e : DecodeErr) : EncodesBack op p (.error e) := fun _ h => by cases h

theorem EncodesBack.okIf {c : Bool} {i : Instr} (he : enc i = .word op n) (h : c = true → n = fldN p 0 20) : EncodesBack op p (okIf c i) := by
  intro j hj
  cases c with
  | false => cases hj
  | true => cases hj; rw [he, h rfl]

theorem EncodesBack.ok {i : Instr} (he : enc i = .word op n) (h : n = fldN p 0 20) : EncodesBack op p (Sys2Proof.okIf true i) :=
  .okIf he fun _ => h

theorem EncodesBack.withFmt {c : Nat} {k : Fmt → Except DecodeErr Instr} (h : ∀ f : Fmt, f.code = c → EncodesBack op p (k f)) :
    EncodesBack op p (withFmt c k) := by
  unfold Sys2Proof.withFmt
  split
  · next hf => exact h _ (fmtOf_some hf)
  · exact .error _

/-- One of two instructions, by a bit of the payload. -/
theorem EncodesBack.okIf_bit {c : Bool} {b m : Nat} {i j : Instr} (hi : enc i = .word op n) (hj : enc j = .word op m)
    (h1 : c = true → fldN p b 1 = 1 → n = fldN p 0 20) (h0 : c = true → fldN p b 1 = 0 → m = fldN p 0 20) :
    EncodesBack op p (Sys2Proof.okIf c (if bitB p b then i else j)) := by
  cases hb : bitB p b with
  | true => exact .okIf hi fun h => h1 h (fldN_one_of_bitB hb)
  | false => exact .okIf hj fun h => h0 h (fldN_one_of_bitB hb)

theorem EncodesBack.bit {b : Nat} {r q : Except DecodeErr Instr} (h1 : fldN p b 1 = 1 → EncodesBack op p r)
    (h0 : fldN p b 1 = 0 → EncodesBack op p q) : EncodesBack op p (if bitB p b then r else q) := by
  cases hb : bitB p b with
  | true => exact h1 (fldN_one_of_bitB hb)
  | false => exact h0 (fldN_one_of_bitB hb)

/-! ### Formats -/

theorem intRRR_back {c : OpRRR → Instr} (he : ∀ o, enc (c o) = .word op (eRRR o 0)) : EncodesBack op p (intRRR p c) :=
  .okIf (he _) fun h => by
    have hp := fldN_eq_fieldSum p [3, 1, 1, 5, 5, 5] rfl
    simp [eRRR, dRRR, fieldSum] at h hp ⊢
    omega

theorem intRR_back {c : OpRR → Instr} (he : ∀ o, enc (c o) = .word op (eRR o 0 0)) : EncodesBack op p (intRR p c) :=
  .okIf (he _) fun h => by
    have hp := fldN_eq_fieldSum p [4, 1, 5, 5, 5] rfl
    simp [eRR, dRR, fieldSum] at h hp ⊢
    omega

theorem rri_back {c : OpRRI → Instr} (he : ∀ o, enc (c o) = .word op (eRRI o)) : EncodesBack op p (okIf true (c (dRRI p))) :=
  .ok (he _) (by
    have hp := fldN_eq_fieldSum p [9, 1, 5, 5] rfl
    simp [eRRI, dRRI, fieldSum] at hp ⊢
    omega)

theorem shiftI_back {c : OpShift → Instr} (he : ∀ o, enc (c o) = .word op (eShift o)) : EncodesBack op p (shiftI p c) :=
  .okIf (he _) fun h => by
    have hp := fldN_eq_fieldSum p [6, 3, 1, 5, 5] rfl
    simp [eShift, dShift, fieldSum] at h hp ⊢
    omega

theorem ri_back {c : SReg → BitVec 15 → Instr} (he : ∀ d n, enc (c d n) = .word op (eRI d n)) :
    EncodesBack op p (okIf true (c (fld p 15 5) (fld p 0 15))) :=
  .ok (he _ _) (by
    have hp := fldN_eq_fieldSum p [15, 5] rfl
    simp [eRI, fieldSum] at hp ⊢
    omega)

theorem f2_back {c : OpF2 → Instr} (he : ∀ o, enc (c o) = .word op (eF2 o)) : EncodesBack op p (okIf true (c (dF2 p))) :=
  .ok (he _) (by
    have hp := fldN_eq_fieldSum p [1, 2, 1, 1, 5, 5, 5] rfl
    simp [eF2, dF2, fieldSum] at hp ⊢
    omega)

theorem sIv_back {c : OpSIv → Instr} (he : ∀ o, enc (c o) = .word op (eSIv o)) : EncodesBack op p (sIv p c) :=
  .okIf (he _) fun h => by
    have hp := fldN_eq_fieldSum p [4, 1, 5, 4, 1, 5] rfl
    simp [eSIv, dSIv, fieldSum] at h hp ⊢
    omega

theorem iv2_back {c : OpIV2 → Instr} (he : ∀ o, enc (c o) = .word op (eIV2 o)) : EncodesBack op p (iv2 p c) :=
  .okIf (he _) fun h => by
    have hp := fldN_eq_fieldSum p [6, 1, 1, 4, 4, 4] rfl
    simp [eIV2, dIV2, fieldSum] at h hp ⊢
    omega

theorem iv1_back {c : OpIV1 → Instr} (he : ∀ o, enc (c o) = .word op (eIV1 o)) : EncodesBack op p (iv1 p c) :=
  .okIf (he _) fun h => by
    have hp := fldN_eq_fieldSum p [7, 1, 4, 4, 4] rfl
    simp [eIV1, dIV1, fieldSum] at h hp ⊢
    omega

theorem ic3_back {c : OpIC3 → Instr} (he : ∀ o, enc (c o) = .word op (eIC3 o)) : EncodesBack op p (ic3 p c) :=
  .okIf (he _) fun h => by
    have hp := fldN_eq_fieldSum p [7, 1, 4, 4, 4] rfl
    simp [eIC3, dIC3, fieldSum] at h hp ⊢
    omega

theorem ic2_back {c : OpIC2 → Instr} (he : ∀ o, enc (c o) = .word op (eIC2 o)) : EncodesBack op p (ic2 p c) :=
  .okIf (he _) fun h => by
    have hp := fldN_eq_fieldSum p [7, 1, 4, 4, 4] rfl
    simp [eIC2, dIC2, fieldSum] at h hp ⊢
    omega

theorem m_back {c : OpM → Instr} (he : ∀ o, enc (c o) = .word op (eM o)) : EncodesBack op p (okIf true (c (dM p))) :=
  .ok (he _) (by
    have hp := fldN_eq_fieldSum p [9, 1, 5, 5] rfl
    simp [eM, dM, fieldSum] at hp ⊢
    omega)

theorem mIv_back {c : OpMIv → Instr} (he : ∀ o, enc (c o) = .word op (eMIv o)) : EncodesBack op p (okIf (isZero p 19 1) (c (dMIv p))) :=
  .okIf (he _) fun h => by
    have hp := fldN_eq_fieldSum p [9, 1, 5, 4, 1] rfl
    simp [eMIv, dMIv, fieldSum] at h hp ⊢
    omega

theorem lw_back {c : OpLW → Instr} (he : ∀ o, enc (c o) = .word op (eLW o)) : EncodesBack op p (okIf true (c (dLW p))) :=
  .ok (he _) (by
    have hp := fldN_eq_fieldSum p [10, 5, 5] rfl
    simp [eLW, dLW, fieldSum] at hp ⊢
    omega)

theorem hintI_back {c : SReg → Bool → Instr} (he : ∀ a la, enc (c a la) = .word op (eHint a la)) : EncodesBack op p (hintI p c) :=
  .okIf (he _ _) fun h => by
    have hp := fldN_eq_fieldSum p [9, 1, 5, 5] rfl
    simp [eHint, fieldSum] at h hp ⊢
    omega

theorem vec_back {c : OpV → Instr} (he : ∀ o, enc (c o) = .word op (eV o 0)) : EncodesBack op p (vec p c) :=
  .withFmt fun f hf => .okIf (he _) fun h => by
    have hp := fldN_eq_fieldSum p [1, 1, 1, 1, 3, 4, 3, 3, 3] rfl
    simp [eV, dV, fieldSum] at h hp ⊢
    omega

theorem vecSat_back {c : OpV → Bool → Instr} (he : ∀ o v, enc (c o v) = .word op (eV o (b2n v))) : EncodesBack op p (vecSat p c) :=
  .withFmt fun f hf => .ok (he _ _) (by
    have hp := fldN_eq_fieldSum p [1, 1, 1, 1, 3, 4, 3, 3, 3] rfl
    simp [eV, dV, fieldSum] at hp ⊢
    omega)

theorem vec1_back {c : OpV1 → Instr} (he : ∀ o, enc (c o) = .word op (eV1 o 0 0)) : EncodesBack op p (vec1 p c) :=
  .withFmt fun f hf => .okIf (he _) fun h => by
    have hp := fldN_eq_fieldSum p [2, 1, 1, 3, 4, 3, 3, 3] rfl
    simp [eV1, dV1, fieldSum] at h hp ⊢
    omega

theorem vecI_back {c : OpVI → Instr} (he : ∀ o, enc (c o) = .word op (eVI o)) : EncodesBack op p (vecI p c) :=
  .okIf (he _) fun h => by
    have hp := fldN_eq_fieldSum p [1, 1, 1, 1, 3, 4, 3, 3, 3] rfl
    simp [eVI, dVI, fieldSum] at h hp ⊢
    omega

theorem vs1_back {c : OpVS1 → Instr} (he : ∀ o, enc (c o) = .word op (eVS1 o)) : EncodesBack op p (vs1 p c) :=
  .withFmt fun f hf => .okIf (he _) fun h => by
    have hp := fldN_eq_fieldSum p [1, 3, 4, 1, 5, 3, 3] rfl
    simp [eVS1, dVS1, fieldSum] at h hp ⊢
    omega

theorem vs2_back {c : OpVS → Instr} (he : ∀ o, enc (c o) = .word op (eVS o)) : EncodesBack op p (vs2 p c) :=
  .withFmt fun f hf => .ok (he _) (by
    have hp := fldN_eq_fieldSum p [1, 3, 4, 1, 5, 3, 3] rfl
    simp [eVS, dVS, fieldSum] at hp ⊢
    omega)

theorem ss_back {c : OpSS → Instr} (he : ∀ o, enc (c o) = .word op (eSS o)) : EncodesBack op p (okIf (isZero p 0 8) (c (dSS p))) :=
  .okIf (he _) fun h => by
    have hp := fldN_eq_fieldSum p [8, 1, 5, 1, 5] rfl
    simp [eSS, dSS, fieldSum] at h hp ⊢
    omega

/-! ### Operations with layouts of their own -/

theorem decQop_back (p : Nat) : EncodesBack 0x2B p (decQop p) := by
  unfold decQop
  split
  case h_10 => exact .error _
  all_goals
    next hf =>
    refine .okIf rfl fun h => ?_
    have hp := fldN_eq_fieldSum p [4, 1, 3, 2, 3, 2, 2, 3] rfl
    simp [eQop, eQC, b2n_false, fieldSum] at h hp ⊢
    omega

theorem decCvt_back (p : Nat) : EncodesBack 0x3A p (decCvt p) := by
  unfold decCvt
  split
  case h_7 =>
    split
    · next c hc =>
      have hcode := cvtCodeOf_some hc
      refine .okIf rfl fun h => ?_
      have hp := fldN_eq_fieldSum p [1, 2, 1, 1, 5, 5, 5] rfl
      simp [eCvt, fieldSum] at h hp ⊢
      omega
    · exact .error _
  case h_1 hf | h_3 hf | h_4 hf =>
    refine .okIf rfl fun h => ?_
    have hp := fldN_eq_fieldSum p [1, 2, 1, 1, 5, 5, 3, 2] rfl
    simp [eCvt, b2n_false, b2n_true, fieldSum] at h hp ⊢
    omega
  all_goals
    next hf =>
    refine .okIf rfl fun h => ?_
    have hp := fldN_eq_fieldSum p [1, 2, 1, 1, 5, 3, 2, 5] rfl
    simp [eCvt, b2n_false, b2n_true, fieldSum] at h hp ⊢
    omega

theorem decIcmp_back (p : Nat) : EncodesBack 0x52 p (decIcmp p) := by
  unfold decIcmp
  split
  case h_7 => exact .error _
  case h_6 hf =>
    refine .okIf rfl fun h => ?_
    have hp := fldN_eq_fieldSum p [3, 1, 1, 5, 4, 1, 2, 3] rfl
    simp [eIcmp, eQC, b2n_false, fieldSum] at h hp ⊢
    omega
  all_goals
    next hf =>
    refine .okIf rfl fun h => ?_
    have hp := fldN_eq_fieldSum p [3, 1, 1, 4, 1, 4, 1, 2, 3] rfl
    simp [eIcmp, eQC, fieldSum] at h hp ⊢
    omega

theorem decRfill_back (p : Nat) : EncodesBack 0x7B p (decRfill p) := by
  unfold decRfill
  cases hiv : bitB p 0 with
  | true =>
    have h0 := fldN_one_of_bitB hiv
    refine .okIf rfl fun h => ?_
    have hp := fldN_eq_fieldSum p [1, 2, 1, 1, 4, 1, 5, 4, 1] rfl
    simp [b2n_true, fieldSum] at h h0 hp ⊢
    omega
  | false =>
    have h0 := fldN_one_of_bitB hiv
    refine .okIf rfl fun h => ?_
    have hp := fldN_eq_fieldSum p [1, 2, 1, 1, 5, 5, 5] rfl
    simp [b2n_false, fieldSum] at h h0 hp ⊢
    omega

theorem decWaitf_back (p : Nat) : EncodesBack 0x7C p (decWaitf p) := by
  unfold decWaitf
  cases hiv : bitB p 10 with
  | true =>
    have h10 := fldN_one_of_bitB hiv
    refine .okIf rfl fun h => ?_
    have hp := fldN_eq_fieldSum p [10, 1, 4, 4, 1] rfl
    simp [b2n_true, fieldSum] at h h10 hp ⊢
    omega
  | false =>
    have h10 := fldN_one_of_bitB hiv
    refine .okIf rfl fun h => ?_
    have hp := fldN_eq_fieldSum p [10, 1, 4, 5] rfl
    simp [b2n_false, fieldSum] at h h10 hp ⊢
    omega

theorem decBar_back (p : Nat) : EncodesBack 0x7D p (decBar p) := by
  unfold decBar
  split
  · next hf =>
    refine .okIf rfl fun h => ?_
    have hp := fldN_eq_fieldSum p [3, 7, 3, 2, 2, 3] rfl
    simp [fieldSum] at h hp ⊢
    omega
  · next hf =>
    refine .okIf rfl fun h => ?_
    have hp := fldN_eq_fieldSum p [3, 14, 3] rfl
    simp [fieldSum] at h hp ⊢
    omega
  · exact .error _

theorem decVcvt_back (p : Nat) : EncodesBack 0xAE p (decVcvt p) :=
  .withFmt fun f hf => .withFmt fun g hg => .okIf rfl fun h => by
    have hp := fldN_eq_fieldSum p [1, 1, 1, 1, 3, 4, 3, 3, 3] rfl
    have hlow := fldN_lt p 11 3
    simp [eV1, dV1, fieldSum] at h hp ⊢
    omega

theorem decSbind_back (p : Nat) : EncodesBack 0xF0 p (decSbind p) := by
  unfold decSbind
  split
  case h_1 hf | h_2 hf =>
    refine .okIf rfl fun h => ?_
    have hp := fldN_eq_fieldSum p [9, 1, 5, 3, 2] rfl
    simp [eHint, fieldSum] at h hp ⊢
    omega
  case h_3 hf =>
    refine .okIf rfl fun h => ?_
    have hp := fldN_eq_fieldSum p [9, 1, 5, 3, 2] rfl
    simp [eHint, fieldSum] at h hp ⊢
    omega
  case h_4 h0 h1 h2 =>
    refine .okIf rfl fun h => ?_
    have hf : fldN p 18 2 = 3 := by
      have := fldN_lt p 18 2
      change _ ≠ _ at h0 h1 h2
      omega
    have hp := fldN_eq_fieldSum p [9, 1, 5, 3, 2] rfl
    simp [eHint, fieldSum] at h hp ⊢
    omega

/-! ### The rows of the opcode map -/

theorem row0_back (p : Nat) : ∀ lo, EncodesBack (0x00 + lo) p (row0 lo p)
  | 0 | 1 | 2 | 3 | 4 | 5 | 6 | 7 | 8 | 9 | 10 | 11 | 12 | 13 | 14 | 15 => intRRR_back fun _ => rfl
  | _ + 16 => .error _

theorem row1_back (p : Nat) : ∀ lo, EncodesBack (0x10 + lo) p (row1 lo p)
  | 0 | 1 | 2 | 3 | 4 | 10 | 11 | 12 | 13 => intRRR_back fun _ => rfl
  | 5 | 6 | 7 | 8 | 9 | 15 => intRR_back fun _ => rfl
  | 14 => .ok rfl (by
    have hp := fldN_eq_fieldSum p [3, 1, 1, 5, 5, 5] rfl
    simp [eRRR, dRRR, fieldSum] at hp ⊢
    omega)
  | _ + 16 => .error _


theorem row2_back (p : Nat) : ∀ lo, EncodesBack (0x20 + lo) p (row2 lo p)
  | 0 | 1 | 2 | 3 => rri_back fun _ => rfl
  | 4 | 5 | 6 => shiftI_back fun _ => rfl
  | 7 | 8 => ri_back fun _ _ => rfl
  | 9 => by
    simp only [row2]
    split
    · next c hc =>
      have hcode := cmpCondOf_some hc
      exact .okIf rfl fun h => by
        have hp := fldN_eq_fieldSum p [3, 1, 1, 5, 5, 2, 3] rfl
        simp [eQC, fieldSum] at h hp ⊢
        omega
    · exact .error _
  | 10 => .ok rfl (by
    have hp := fldN_eq_fieldSum p [9, 1, 5, 2, 3] rfl
    simp [fieldSum] at hp ⊢
    omega)
  | 11 => decQop_back p
  | 12 => .okIf rfl fun h => by
    have hp := fldN_eq_fieldSum p [10, 3, 2, 5] rfl
    simp [fieldSum] at h hp ⊢
    omega
  | 13 => .okIf rfl fun h => by
    have hp := fldN_eq_fieldSum p [4, 1, 5, 5, 2, 3] rfl
    simp [eQC, b2n_false, fieldSum] at h hp ⊢
    omega
  | _ + 14 => .error _

theorem row3_back (p : Nat) : ∀ lo, EncodesBack (0x30 + lo) p (row3 lo p)
  | 0 | 1 | 2 | 3 | 4 => f2_back fun _ => rfl
  | 5 => .okIf rfl fun h => by
    have hp := fldN_eq_fieldSum p [1, 2, 1, 1, 5, 5, 5] rfl
    simp [eRR, dRR, fieldSum] at h hp ⊢
    omega
  | 6 | 7 => .okIf rfl fun h => by
    have hp := fldN_eq_fieldSum p [1, 2, 1, 1, 5, 5, 5] rfl
    simp [eRRR, dRRR, fieldSum] at h hp ⊢
    omega
  | 8 => by
    simp only [row3]
    split
    · next c hc =>
      have hcode := sgnOf_some hc
      exact .ok rfl (by
        have hp := fldN_eq_fieldSum p [1, 2, 1, 1, 5, 5, 5] rfl
        simp [eRRR, dRRR, fieldSum] at hp ⊢
        omega)
    · exact .error _
  | 9 => .okIf rfl fun h => by
    have hp := fldN_eq_fieldSum p [1, 2, 1, 1, 5, 5, 2, 3] rfl
    simp [eQC, fieldSum] at h hp ⊢
    omega
  | 10 => decCvt_back p
  | 11 => .okIf rfl fun h => by
    have hp := fldN_eq_fieldSum p [1, 2, 1, 1, 5, 5, 5] rfl
    simp [eRR, dRR, fieldSum] at h hp ⊢
    omega
  | _ + 12 => .error _

theorem row4_back (p : Nat) : ∀ lo, EncodesBack (0x40 + lo) p (row4 lo p)
  | 0 => .okIf rfl fun h => by
    have hp := fldN_eq_fieldSum p [3, 1, 1, 5, 5, 4, 1] rfl
    simp [fieldSum] at h hp ⊢
    omega
  | 1 | 2 => sIv_back fun _ => rfl
  | 3 | 4 | 5 | 6 | 12 | 13 | 14 | 15 => iv2_back fun _ => rfl
  | 7 | 8 | 9 | 10 | 11 => iv1_back fun _ => rfl
  | _ + 16 => .error _

theorem row5_back (p : Nat) : ∀ lo, EncodesBack (0x50 + lo) p (row5 lo p)
  | 0 | 1 => sIv_back fun _ => rfl
  | 2 => decIcmp_back p
  | 3 => iv1_back fun _ => rfl
  | 4 => .okIf rfl fun h => by
    have hp := fldN_eq_fieldSum p [3, 1, 1, 5, 4, 1, 4, 1] rfl
    simp [fieldSum] at h hp ⊢
    omega
  | 5 => .okIf rfl fun h => by
    have hp := fldN_eq_fieldSum p [17, 3] rfl
    simp [fieldSum] at h hp ⊢
    omega
  | 6 | 7 => .error _
  | 8 | 9 | 10 | 11 | 15 => ic3_back fun _ => rfl
  | 12 | 13 | 14 => ic2_back fun _ => rfl
  | _ + 16 => .error _

theorem row6_back (p : Nat) : ∀ lo, EncodesBack (0x60 + lo) p (row6 lo p)
  | 0 | 1 => .ok rfl (fld_toNat ..)
  | 2 | 3 => .okIf rfl fun h => by
    have hp := fldN_eq_fieldSum p [9, 1, 5, 5] rfl
    simp [fieldSum] at h hp ⊢
    omega
  | 4 => .ok rfl (by
    have hp := fldN_eq_fieldSum p [15, 2, 3] rfl
    simp [fieldSum] at hp ⊢
    omega)
  | 5 | 8 | 9 | 10 => ri_back fun _ _ => rfl
  | 6 => .okIf rfl fun h => by
    have hp := fldN_eq_fieldSum p [15, 5] rfl
    simp [fieldSum] at h hp ⊢
    omega
  | 7 => .ok rfl (by
    have hp := fldN_eq_fieldSum p [9, 1, 5, 5] rfl
    simp [fieldSum] at hp ⊢
    omega)
  | _ + 11 => .error _

theorem row7_back (p : Nat) : ∀ lo, EncodesBack (0x70 + lo) p (row7 lo p)
  | 0 | 1 | 2 | 3 | 4 | 5 | 6 | 7 => m_back fun _ => rfl
  | 8 | 9 => lw_back fun _ => rfl
  | 10 => .okIf rfl fun h => by
    have hp := fldN_eq_fieldSum p [10, 5, 5] rfl
    simp [fieldSum] at h hp ⊢
    omega
  | 11 => decRfill_back p
  | 12 => decWaitf_back p
  | 13 => decBar_back p
  | 14 => .okIf rfl fun h => by
    have hp := fldN_eq_fieldSum p [9, 1, 5, 2, 3] rfl
    simp [fieldSum] at h hp ⊢
    omega
  | 15 => .okIf rfl fun h => by
    have hp := fldN_eq_fieldSum p [12, 3, 5] rfl
    simp [fieldSum] at h hp ⊢
    omega
  | _ + 16 => .error _

theorem row8_back (p : Nat) : ∀ lo, EncodesBack (0x80 + lo) p (row8 lo p)
  | 0 | 1 | 2 | 3 | 4 | 6 | 7 | 8 | 9 | 10 => m_back fun _ => rfl
  | 5 => lw_back fun _ => rfl
  | 11 | 12 => mIv_back fun _ => rfl
  | 13 => .ok rfl (by
    have hp := fldN_eq_fieldSum p [3, 1, 1, 5, 5, 5] rfl
    simp [eRRR, dRRR, fieldSum] at hp ⊢
    omega)
  | 14 => intRRR_back fun _ => rfl
  | 15 => by
    simp only [row8]
    split
    · next c hc =>
      have hcode := redOf_some hc
      exact .okIf rfl fun h => by
        have hp := fldN_eq_fieldSum p [3, 1, 1, 5, 5, 5] rfl
        simp [fieldSum] at h hp ⊢
        omega
    · exact .error _
  | _ + 16 => .error _

theorem row9_back (p : Nat) : ∀ lo, EncodesBack (0x90 + lo) p (row9 lo p)
  | 0 | 1 => vs1_back fun _ => rfl
  | 2 | 3 | 4 | 5 => hintI_back fun _ _ => rfl
  | 6 => by
    simp only [row9]
    split
    case h_3 => exact .error _
    all_goals
      next hf =>
      refine .okIf rfl fun h => ?_
      have hp := fldN_eq_fieldSum p [3, 1, 1, 5, 5, 5] rfl
      simp [fieldSum] at h hp ⊢
      omega
  | 7 => by
    simp only [row9]
    split
    · next c hc =>
      have hcode := scopeOf_some hc
      exact .okIf (enc_fenceOf c) fun h => by
        have hp := fldN_eq_fieldSum p [3, 12, 5] rfl
        simp [fieldSum] at h hp ⊢
        omega
    · exact .error _
  | _ + 8 => .error _

theorem rowA_back (p : Nat) : ∀ lo, EncodesBack (0xA0 + lo) p (rowA lo p)
  | 0 | 1 | 2 => vecSat_back fun _ _ => rfl
  | 3 | 4 | 5 | 6 | 7 | 8 | 9 | 10 | 11 | 15 => vec_back fun _ => rfl
  | 12 | 13 => vec1_back fun _ => rfl
  | 14 => decVcvt_back p
  | _ + 16 => .error _

theorem rowB_back (p : Nat) : ∀ lo, EncodesBack (0xB0 + lo) p (rowB lo p)
  | 0 => .withFmt fun f hf => .ok rfl (by
    have hp := fldN_eq_fieldSum p [1, 1, 1, 1, 3, 4, 3, 3, 3] rfl
    have hcode := vcondOf_code_eq (2 * fldN p 3 1 + fldN p 0 1) (by
      have := fldN_lt p 3 1
      have := fldN_lt p 0 1
      omega)
    have hlow := fldN_lt p 0 1
    simp [fieldSum] at hp ⊢
    omega)
  | 1 => by
    simp only [rowB]
    split
    · next c hc =>
      have hcode := vredOf_some hc
      exact .withFmt fun f hf => .ok rfl (by
        have hp := fldN_eq_fieldSum p [4, 1, 3, 4, 3, 5] rfl
        simp [eVR, fieldSum] at hp ⊢
        omega)
    · exact .error _
  | 2 => .withFmt fun f hf => .okIf rfl fun h => by
    have hp := fldN_eq_fieldSum p [3, 1, 1, 3, 4, 3, 5] rfl
    simp [eVR, fieldSum] at h hp ⊢
    omega
  | 3 => vs1_back fun _ => rfl
  | 4 | 5 => vs2_back fun _ => rfl
  | 6 | 9 | 10 => vec_back fun _ => rfl
  | 7 | 11 | 12 | 13 | 14 => vec1_back fun _ => rfl
  | 8 => .withFmt fun f hf => .okIf rfl fun h => by
    have hp := fldN_eq_fieldSum p [2, 1, 1, 1, 2, 4, 3, 3, 3] rfl
    simp [fieldSum] at h hp ⊢
    omega
  | _ + 15 => .error _

theorem rowC_back (p : Nat) : ∀ lo, EncodesBack (0xC0 + lo) p (rowC lo p)
  | 0 | 1 | 2 | 4 | 5 | 7 | 8 | 9 => vecI_back fun _ => rfl
  | 3 => .okIf rfl fun h => by
    have hp := fldN_eq_fieldSum p [2, 1, 1, 3, 4, 3, 3, 3] rfl
    simp [fieldSum] at h hp ⊢
    omega
  | 6 => .okIf rfl fun h => by
    have hp := fldN_eq_fieldSum p [3, 1, 1, 3, 4, 3, 4, 1] rfl
    simp [eVR, Fmt.code, fieldSum] at h hp ⊢
    omega
  | 10 => .okIf rfl fun h => by
    have hp := fldN_eq_fieldSum p [1, 1, 1, 1, 3, 4, 3, 3, 3] rfl
    simp [fieldSum] at h hp ⊢
    omega
  | _ + 11 => .error _

theorem rowD_back (p : Nat) : ∀ lo, EncodesBack (0xD0 + lo) p (rowD lo p)
  | 0 => .ok rfl (by
    have hp := fldN_eq_fieldSum p [10, 4, 6] rfl
    simp [fieldSum] at hp ⊢
    omega)
  | 1 => .okIf rfl fun h => by
    have hp := fldN_eq_fieldSum p [10, 4, 6] rfl
    simp [fieldSum] at h hp ⊢
    omega
  | 2 => by
    simp only [rowD]
    split
    · next c hc =>
      have hcode := trOf_some hc
      exact .withFmt fun f hf => .okIf rfl fun h => by
        have hp := fldN_eq_fieldSum p [2, 2, 4, 1, 5, 6] rfl
        simp [fieldSum] at h hp ⊢
        omega
    · exact .error _
  | 3 => .withFmt fun f hf => .ok rfl (by
    have hp := fldN_eq_fieldSum p [4, 5, 6, 5] rfl
    simp [fieldSum] at hp ⊢
    omega)
  | 4 => .okIf rfl fun h => by
    have hp := fldN_eq_fieldSum p [13, 1, 6] rfl
    simp [fieldSum] at h hp ⊢
    omega
  | 5 => .okIf rfl fun h => by
    have hp := fldN_eq_fieldSum p [1, 1, 6, 6, 6] rfl
    simp [fieldSum] at h hp ⊢
    omega
  | 6 => .okIf (enc_mrotOf _) fun h => by
    have hp := fldN_eq_fieldSum p [17, 3] rfl
    simp [fieldSum] at h hp ⊢
    omega
  | _ + 7 => .error _

theorem rowE_back (p : Nat) : ∀ lo, EncodesBack (0xE0 + lo) p (rowE lo p)
  | 0 | 9 => .okIf_bit rfl rfl
    (fun h hb => by
      have hp := fldN_eq_fieldSum p [16, 1, 3] rfl
      simp [fieldSum] at h hb hp ⊢
      omega)
    fun h hb => by
      have hp := fldN_eq_fieldSum p [16, 1, 3] rfl
      simp [fieldSum] at h hb hp ⊢
      omega
  | 1 => .okIf rfl fun h => by
    have hp := fldN_eq_fieldSum p [14, 3, 3] rfl
    simp [fieldSum] at h hp ⊢
    omega
  | 2 => .okIf (enc_gunbOf _) fun h => by
    have hp := fldN_eq_fieldSum p [17, 3] rfl
    simp [fieldSum] at h hp ⊢
    omega
  | 3 => .bit
    (fun hb => .okIf rfl fun h => by
      have hp := fldN_eq_fieldSum p [12, 1, 3, 4] rfl
      simp [fieldSum] at h hp ⊢
      omega)
    fun hb => .okIf rfl fun h => by
      have hp := fldN_eq_fieldSum p [12, 1, 3, 4] rfl
      simp [fieldSum] at h hp ⊢
      omega
  | 4 => .okIf_bit rfl rfl
    (fun h hb => by
      have hp := fldN_eq_fieldSum p [9, 1, 5, 1, 4] rfl
      simp [fieldSum] at h hb hp ⊢
      omega)
    fun h hb => by
      have hp := fldN_eq_fieldSum p [9, 1, 5, 1, 4] rfl
      simp [fieldSum] at h hb hp ⊢
      omega
  | 5 => .okIf_bit rfl rfl
    (fun h hb => by
      have hp := fldN_eq_fieldSum p [10, 1, 4, 5] rfl
      simp [fieldSum] at h hb hp ⊢
      omega)
    fun h hb => by
      have hp := fldN_eq_fieldSum p [10, 1, 4, 5] rfl
      simp [fieldSum] at h hb hp ⊢
      omega
  | 6 => .okIf rfl fun h => by
    have hp := fldN_eq_fieldSum p [12, 4, 4] rfl
    simp [fieldSum] at h hp ⊢
    omega
  | 7 => .okIf rfl fun h => by
    have hp := fldN_eq_fieldSum p [10, 4, 6] rfl
    simp [fieldSum] at h hp ⊢
    omega
  | 8 => .ok rfl (fld_toNat ..)
  | 10 => .ok rfl (by
    have hp := fldN_eq_fieldSum p [10, 5, 5] rfl
    simp [fieldSum] at hp ⊢
    omega)
  | _ + 11 => .error _

theorem rowF_back (p : Nat) : ∀ lo, EncodesBack (0xF0 + lo) p (rowF lo p)
  | 0 => decSbind_back p
  | 1 | 2 | 4 => ss_back fun _ => rfl
  | 3 => .okIf rfl fun h => by
    have hp := fldN_eq_fieldSum p [14, 1, 5] rfl
    simp [fieldSum] at h hp ⊢
    omega
  | 5 => .okIf rfl fun h => by
    have hp := fldN_eq_fieldSum p [9, 1, 5, 5] rfl
    simp [fieldSum] at h hp ⊢
    omega
  | 6 | 7 => .error _
  | 8 => .okIf rfl fun h => by
    have hp := fldN_eq_fieldSum p [10, 5, 2, 3] rfl
    simp [fieldSum] at h hp ⊢
    omega
  | 9 => by
    simp only [rowF]
    split
    · next c hc =>
      have hcode := tlbiOf_some hc
      exact .okIf rfl fun h => by
        have hp := fldN_eq_fieldSum p [8, 2, 5, 5] rfl
        simp [fieldSum] at h hp ⊢
        omega
    · exact .error _
  | 10 => .bit
    (fun hb => .okIf rfl fun h => by
      have hp := fldN_eq_fieldSum p [4, 1, 5, 5, 5] rfl
      simp [fieldSum] at h hp ⊢
      omega)
    fun hb => .okIf rfl fun h => by
      have hp := fldN_eq_fieldSum p [4, 1, 5, 5, 5] rfl
      simp [fieldSum] at h hp ⊢
      omega
  | 11 => .okIf rfl fun h => (isZero_iff.mp h).symm
  | 12 => .okIf rfl fun h => by
    have hp := fldN_eq_fieldSum p [10, 5, 5] rfl
    simp [fieldSum] at h hp ⊢
    omega
  | _ + 13 => .error _


end Sys2Proof.Laws
end

section
/-! Every word that decodes is the encoding of what it decodes to (R43, R51). -/

namespace Sys2Proof.Laws

/-- The opcode map, row by row. -/
theorem mapAt_back (p lo : Nat) : ∀ hi, EncodesBack (16 * hi + lo) p (mapAt hi lo p)
  | 0 => row0_back p lo | 1 => row1_back p lo | 2 => row2_back p lo | 3 => row3_back p lo
  | 4 => row4_back p lo | 5 => row5_back p lo | 6 => row6_back p lo | 7 => row7_back p lo
  | 8 => row8_back p lo | 9 => row9_back p lo | 10 => rowA_back p lo | 11 => rowB_back p lo
  | 12 => rowC_back p lo | 13 => rowD_back p lo | 14 => rowE_back p lo | 15 => rowF_back p lo
  | _ + 16 => .error _

theorem enc_of_decodeRow {p : Nat} {i : Instr} (hp : p < 2 ^ 28) (h : decodeRow p = .ok i) : enc i = .word (p / 2 ^ 20) (p % 2 ^ 20) := by
  have hop : 16 * fldN p 24 4 + fldN p 20 4 = p / 2 ^ 20 := by
    simp only [fldN]
    omega
  have hlow : fldN p 0 20 = p % 2 ^ 20 := by simp [fldN]
  rw [← hop, ← hlow]
  exact mapAt_back p (fldN p 20 4) (fldN p 24 4) i h

/-! ### 16-bit instructions (R39 to R42) -/

/-- Whatever the decoder answers is encoded as the low fifteen bits of `h`. -/
def EncodesHalf (h : Nat) (r : Except DecodeErr Instr) : Prop := ∀ i, r = .ok i → enc i = .half (fldN h 0 15)

variable {op h n : Nat}

theorem EncodesHalf.error (e : DecodeErr) : EncodesHalf h (.error e) := fun _ h => by cases h

theorem EncodesHalf.okIf {c : Bool} {i : Instr} (he : enc i = .half n) (hn : c = true → n = fldN h 0 15) : EncodesHalf h (okIf c i) := by
  intro j hj
  cases c with
  | false => cases hj
  | true => cases hj; rw [he, hn rfl]

theorem opA_back {c : OpA → Instr} (he : ∀ o, enc (c o) = .half (e16 op o.d o.a.toNat)) (hop : fldN h 10 5 = op) :
    EncodesHalf h (okIf true (c (dA h))) :=
  .okIf (he _) fun _ => by
    have hp := fldN_eq_fieldSum h [5, 5, 5] rfl
    simp [e16, dA, fieldSum] at hp ⊢
    omega

theorem ri5_back {c : SReg → BitVec 5 → Instr} (he : ∀ d n, enc (c d n) = .half (e16 op d n.toNat)) (hop : fldN h 10 5 = op) :
    EncodesHalf h (okIf true (c (fld h 5 5) (fld h 0 5))) :=
  .okIf (he _ _) fun _ => by
    have hp := fldN_eq_fieldSum h [5, 5, 5] rfl
    simp [e16, fieldSum] at hp ⊢
    omega

theorem shift16_back {c : SReg → BitVec 4 → Instr} (he : ∀ d n, enc (c d n) = .half (e16 op d n.toNat)) (hop : fldN h 10 5 = op) :
    EncodesHalf h (shift16 h c) :=
  .okIf (he _ _) fun h4 => by
    have hp := fldN_eq_fieldSum h [4, 1, 5, 5] rfl
    simp [e16, fieldSum] at h4 hp ⊢
    omega

theorem off10_back {c : BitVec 10 → Instr} (he : ∀ o, enc (c o) = .half (op * 2 ^ 10 + o.toNat)) (hop : fldN h 10 5 = op) :
    EncodesHalf h (okIf true (c (fld h 0 10))) :=
  .okIf (he _) fun _ => by
    have hp := fldN_eq_fieldSum h [10, 5] rfl
    simp [fieldSum] at hp ⊢
    omega

theorem bq7_back {c : QReg → BitVec 7 → Instr} (he : ∀ q o, enc (c q o) = .half (op * 2 ^ 10 + q.toNat * 2 ^ 7 + o.toNat))
    (hop : fldN h 10 5 = op) : EncodesHalf h (okIf true (c (fld h 7 3) (fld h 0 7))) :=
  .okIf (he _ _) fun _ => by
    have hp := fldN_eq_fieldSum h [7, 3, 5] rfl
    simp [fieldSum] at hp ⊢
    omega

/-- A `SYS` instruction without operand (R42). -/
theorem sys_back {i : Instr} (he : enc i = .half (eSys op 0)) (hsys : fldN h 10 5 = 31) (hsub : fldN h 5 5 = op) :
    EncodesHalf h (okIf (isZero h 0 5) i) :=
  .okIf he fun h0 => by
    have hp := fldN_eq_fieldSum h [5, 5, 5] rfl
    simp [eSys, fieldSum] at h0 hp ⊢
    omega

theorem decSys_back (hsys : fldN h 10 5 = 31) : EncodesHalf h (decSys h) := by
  unfold decSys
  split
  case h_13 => exact .error _
  case h_9 hsub =>
    have hp := fldN_eq_fieldSum h [1, 4, 5, 5] rfl
    cases hb : bitB h 0 with
    | true =>
      have h0 := fldN_one_of_bitB hb
      refine .okIf rfl fun h1 => ?_
      simp [eSys, b2n_true, fieldSum] at h0 h1 hp ⊢
      omega
    | false =>
      have h0 := fldN_one_of_bitB hb
      refine .okIf rfl fun h1 => ?_
      simp [eSys, b2n_false, fieldSum] at h0 h1 hp ⊢
      omega
  case h_11 hsub =>
    refine .okIf rfl fun _ => ?_
    have hp := fldN_eq_fieldSum h [5, 5, 5] rfl
    simp [eSys, fieldSum] at hp ⊢
    omega
  case h_12 hsub =>
    refine .okIf rfl fun h4 => ?_
    have hp := fldN_eq_fieldSum h [4, 1, 5, 5] rfl
    simp [eSys, fieldSum] at h4 hp ⊢
    omega
  all_goals
    next hsub => exact sys_back rfl hsys hsub

theorem decode16_back (h : Nat) : EncodesHalf h (decode16 h) := by
  unfold decode16
  split
  case h_13 hop | h_14 hop | h_18 hop | h_19 hop | h_20 hop => exact ri5_back (fun _ _ => rfl) hop
  case h_15 hop | h_16 hop | h_17 hop => exact shift16_back (fun _ _ => rfl) hop
  case h_21 hop | h_22 hop => exact off10_back (fun _ => rfl) hop
  case h_23 hop | h_24 hop | h_25 hop => exact bq7_back (fun _ _ => rfl) hop
  case h_26 hop => exact decSys_back hop
  case h_27 => exact .error _
  all_goals
    next hop => exact opA_back (fun _ => rfl) hop

/-! ### Well-formed, and with an encoding -/

theorem encoded_of_enc {i : Instr} (h : enc i ≠ .none) : i.encoded = true := by
  cases i with
  | powerOnReset | pkgRstWarm | pkgRstCold | trainingComplete | attestationRequest | thermidorStep | criticalTemperature | thermalStop
  | pkgIrqClear | pkgPreemptWrite | pkgSnapTrigger | registerWrite | dspLostRead | dspCcntRead | hsEccRead | hsEvtRead | hsChkRead
  | suCntRead | fabLostRead | fabRefusedRead | fabCnoteRead | hsElideWrite | hsCksetWrite | migrationStart | migrationSlotFree
  | migrationUnit | windowRegister | windowUnregister | hostMemoryRead | hostMemoryWrite | ingressRecordWrite | ingressWatermarkWrite
  | ingressIdleWrite | hostLinkDown | dieEdgeFailure | portDown | portRetrain | fabricPutArrival | fabricAckArrival | fabricUnitTimeout
  | fabricGetRequest | fabricGetUnitArrival | containmentNotice | statusStore | predUpdate | placementPass | strandStart | gangComplete
  | triggerFire | slotLoad | quantumYield | rotModeSwitch | barrierRelease | replyFill | rfillArrival | registerWaitExpiry | heldFillExpiry
  | taggedRequestArrival | taggedWaitExpiry | ldwExpiry | rtakeExpiry | qwaitExpiry | mclaimExpiry | wwaitExpiry | heldAccessExpiry
  | remoteRequestArrival | ackArrival | migrationArrival | stewardFetchStart | blockArrival | writebackEnd | blockEvict | transitIdleEvict
  | overflowMove | patrolFetch | refreshDue | refreshPullForward | fetchReturn | tlbMissWalk | missReply | shootdown | spanClose
  | waitWithdrawal | engineCommandStart | engineUnit | engineCommandComplete | remoteSpWrite | vldRowWrite | arrayOpComplete
  | mrotTileArrival | containRetryResume | saveStart | saveComplete | preemptLapse | streamRecord | sourceWatermark | sourceIdle
  | idleTimeout | derivedRaise | amendHoldExpiry | stateNotice | undefinedEncoding | hostLinkTraining | lifeCycleCommand => exact absurd rfl h
  | _ => rfl

/-- No check of R51 step 8 is left to make on a 16-bit instruction: its fields have no value out of range. -/
theorem wf_of_enc_half {i : Instr} (h : enc i = .half n) : i.wf = true := by
  unfold Instr.wf
  split
  case h_46 => rfl
  all_goals cases h

theorem ok_of_checkWf {r : Except DecodeErr Instr} {i : Instr} (h : checkWf r = .ok i) : r = .ok i ∧ i.wf = true := by
  unfold checkWf at h
  split at h
  · split at h
    · next hwf => cases h; exact ⟨rfl, hwf⟩
    · cases h
  · cases h

/-- A result that a length is put beside. -/
theorem ok_of_map_length {r : Except DecodeErr Instr} {k len : Nat} {i : Instr} (h : r.map (·, k) = .ok (i, len)) : r = .ok i ∧ len = k := by
  cases r with
  | error e => cases h
  | ok j => cases h; exact ⟨rfl, rfl⟩

namespace RoundTrip

/-- Settles O34: the opcode map and the 16-bit opcodes answer only what is encoded as the payload that they read, and a payload lays out the
halfwords that it was read from. -/
theorem decodedWordsEncodeBack : Obligations.DecodedWordsEncodeBack := by
  unfold Obligations.DecodedWordsEncodeBack
  intro h c i len hdec
  unfold decodeHalves at hdec
  split at hdec
  · cases hdec
  next hcont =>
  split at hdec
  · next hhead =>
    split at hdec
    · next hc =>
      obtain ⟨h32, hlen⟩ := ok_of_map_length hdec
      obtain ⟨hrow, hwf⟩ := ok_of_checkWf h32
      have hp : payload h c < 2 ^ 28 := by
        simp only [payload, fldN]
        omega
      have he := enc_of_decodeRow hp hrow
      obtain ⟨hh, hk⟩ := halves_of_payload hhead hc
      exact ⟨hwf, encoded_of_enc (by simp [he]), .inr ⟨hlen, by rw [encode_word he, hh, hk]⟩⟩
    · cases hdec
  · next hhead =>
    obtain ⟨h16, hlen⟩ := ok_of_map_length hdec
    have he := decode16_back h.toNat i h16
    have hlow : fldN h.toNat 0 15 = h.toNat := by
      have := h.isLt
      simp only [isCont, isHead, fldN, beq_iff_eq] at hcont hhead ⊢
      omega
    exact ⟨wf_of_enc_half he, encoded_of_enc (by simp [he]), .inl ⟨hlen, by rw [encode_half he, hlow, BitVec.ofNat_toNat]; simp⟩⟩

end RoundTrip
end Sys2Proof.Laws
end

section
/-! A step by its parts: whose turn it is, what the turn leaves as it was, the beginning of a cycle, and a program placed (R34, R164, R165, R454). -/

namespace Sys2Proof.Machine

/-! ### Tables and strands -/

theorem Tbl.find?_modify_other {α : Type} (t : Tbl α) (n m : Nat) (f : α → α) (h : m ≠ n) : (t.modify n f).find? m = t.find? m := by
  induction t with
  | nil => rfl
  | cons e t ih =>
    obtain ⟨k, v⟩ := e
    by_cases hk : k = n
    · subst hk
      simpa [Tbl.modify, Tbl.find?, h.symm] using ih
    · by_cases hm : k = m
      · simp [Tbl.modify, Tbl.find?, hm, h]
      · simpa [Tbl.modify, Tbl.find?, hk, hm] using ih

/-- What a change of a strand keeps of every strand, it keeps in the machine. -/
theorem State.strand_modStrand_keeps {α : Type} (s : State) (h g : Nat) {f : Strand → Strand} (p : Strand → α) (hp : ∀ c, p (f c) = p c) :
    p ((s.modStrand h f).strand g) = p (s.strand g) := by
  show p ((s.strands.modify h f).getD g {}) = p (s.strands.getD g {})
  by_cases e : g = h
  · subst e
    rw [Tbl.getD, Tbl.getD, Tbl.find?_modify_same]
    cases s.strands.find? g <;> simp [hp]
  · rw [Tbl.getD, Tbl.getD, Tbl.find?_modify_other _ _ _ _ e]

/-! ### The turn of a core -/

/-- The count of a turn changes a strand's count of turns, and nothing else. -/
theorem State.countTurn_frame (s : State) (core : Nat) : (s.countTurn core).mem = s.mem ∧ (s.countTurn core).cores = s.cores := by
  unfold State.countTurn
  split <;> exact ⟨rfl, rfl⟩

theorem State.strand_countTurn {α : Type} (s : State) (core g : Nat) (p : Strand → α) (hp : ∀ (c : Strand) n, p { c with turns := n } = p c) :
    p ((s.countTurn core).strand g) = p (s.strand g) := by
  unfold State.countTurn
  split
  · exact s.strand_modStrand_keeps _ g p fun c => hp c _
  · rfl

/-- The strand that issues, after the turn has been counted. -/
theorem State.begin_cur (s : State) (core g n : Nat) : (s.begin_ core g n).cur = (s.countTurn core).strand g := rfl

/-- What the use of a turn leaves as it was. -/
theorem State.begin_frame (s : State) (core g n : Nat) : (s.begin_ core g n).cur.pc = (s.strand g).pc ∧ (s.begin_ core g n).mem = s.mem ∧
    ((s.begin_ core g n).core core).engWish = (s.core core).engWish := by
  obtain ⟨hmem, hcores⟩ := s.countTurn_frame core
  refine ⟨s.strand_countTurn core g Strand.pc fun _ _ => rfl, hmem, ?_⟩
  have hk : (s.begin_ core g n).core core = { (s.countTurn core).core core with
      issued := ((s.countTurn core).core core).issued.setIfInBounds n (s.dieNow core + 1) } := State.core_setCore_same ..
  rw [hk, State.core, State.core, hcores]

/-- Banks are noted only where an engine's write waits for the turn (R180). -/
theorem State.noteReads_of_noWish {s : State} {core : Nat} (i : Instr) (h : (s.core core).engWish = []) : s.noteReads core i = s := by
  simp [State.noteReads, h]

theorem State.noteReads_cases (s : State) (core : Nat) (i : Instr) :
    s.noteReads core i = s ∨ ∃ l, s.noteReads core i = s.modCore core fun k => { k with strandRd := l } := by
  unfold State.noteReads
  split
  · exact .inl rfl
  · exact .inr ⟨_, rfl⟩

/-- A strand whose fetched halfwords decode issues the instruction (R51). -/
theorem actOf_instr {c : Strand} {h : Half} {k : Option Half} {i : Instr} {len : Nat} (ho : c.owe ≤ 1) (hf : c.fetch = .ready h k)
    (hd : decodeHalves h (k.getD 0) = .ok (i, len)) : actOf c = .instr i len := by
  rw [actOf, if_neg (Nat.not_lt.mpr ho), hf]
  show decodeAct h k c.pc c.prevPc = _
  rw [decodeAct, hd]

theorem runTurn_issue {s : State} {core g n len : Nat} {i : Instr} (ht : turnOf s core = .issue g n)
    (ha : actOf (s.begin_ core g n).cur = .instr i len) : runTurn core s = endTurn (exec i ((s.begin_ core g n).noteReads core i)) := by
  simp only [runTurn, ht, ha]

/-! ### The choice of a step -/

/-- An event that is due goes before the turns. -/
theorem step_event {s : State} {d : Due} {rest : List Due} (hi : s.inputs = []) (hc : s.cal = d :: rest)
    (hd : d.time < s.now ∨ d.time = s.now ∧ (d.rank < rankAfter ∨ s.issueQ = [])) : step s = exec d.ev { s with cal := rest, arg := d.arg } := by
  have : (d.time < s.now || (d.time == s.now && (decide (d.rank < rankAfter) || s.issueQ.isEmpty))) = true := by simpa using hd
  simp only [step, hi, hc, this, if_true]

/-- With no event due before the turns, the next core in line has its turn. -/
theorem step_turn {s : State} {core : Nat} {rest : List Nat} (hi : s.inputs = []) (hq : s.issueQ = core :: rest)
    (hc : ∀ d ∈ s.cal, s.now < d.time ∨ d.time = s.now ∧ rankAfter ≤ d.rank) : step s = runTurn core s := by
  cases hs : s.cal with
  | nil => simp only [step, hi, hs, hq]
  | cons d l =>
    have hd := hc d (hs ▸ List.mem_cons_self)
    have : (d.time < s.now || (d.time == s.now && (decide (d.rank < rankAfter) || s.issueQ.isEmpty))) = false := by
      simp [hq]
      omega
    simp only [step, hi, hs, this, Bool.false_eq_true, if_false]
    rw [hq]

/-- With nothing left to do in a cycle, the next one begins. -/
theorem step_tick {s : State} (hi : s.inputs = []) (hq : s.issueQ = []) (hc : ∀ d ∈ s.cal, s.now < d.time) : step s = .next s.tick := by
  cases hs : s.cal with
  | nil => simp only [step, hi, hs, hq]
  | cons d l =>
    have hd := hc d (hs ▸ List.mem_cons_self)
    have : (d.time < s.now || (d.time == s.now && (decide (d.rank < rankAfter) || s.issueQ.isEmpty))) = false := by
      simp [hq]
      omega
    simp only [step, hi, hs, this, Bool.false_eq_true, if_false]
    rw [hq]

/-! ### The beginning of a cycle -/

/-- From `s` to `t` main memory, the strands and the reference count are as they were. -/
def State.sameCycle (s t : State) : Prop := t.mem = s.mem ∧ t.strands = s.strands ∧ t.now = s.now

theorem State.sameCycle.trans {s t u : State} (h : s.sameCycle t) (k : t.sameCycle u) : s.sameCycle u :=
  ⟨k.1.trans h.1, k.2.1.trans h.2.1, k.2.2.trans h.2.2⟩

theorem State.sameCycle_foldl {α : Type} (f : State → α → State) (h : ∀ (s : State) a, s.sameCycle (f s a)) (l : List α) (s : State) :
    s.sameCycle (l.foldl f s) := by
  induction l generalizing s with
  | nil => exact ⟨rfl, rfl, rfl⟩
  | cons a l ih => exact (h s a).trans (ih _)

theorem State.sameCycle_modDie (s : State) (d : Nat) (f : Die → Die) : s.sameCycle (s.modDie d f) := ⟨rfl, rfl, rfl⟩

theorem State.sameCycle_crossed (s : State) (d sel o n : Nat) : s.sameCycle (s.crossed d sel o n) := by
  refine State.sameCycle_foldl _ (fun s i => ?_) _ s
  dsimp only
  split <;> exact ⟨rfl, rfl, rfl⟩

theorem State.sameCycle_dieTick (s : State) (d old : Nat) : s.sameCycle (s.dieTick d old) := by
  unfold State.dieTick
  dsimp only
  split
  · exact ⟨rfl, rfl, rfl⟩
  · split
    · exact (s.sameCycle_crossed ..).trans ⟨rfl, rfl, rfl⟩
    · exact s.sameCycle_crossed ..

theorem State.sameCycle_countStarved (s : State) : s.sameCycle s.countStarved := by
  refine State.sameCycle_foldl _ (fun s d => ?_) _ s
  dsimp only
  split
  · exact (State.sameCycle_modDie ..).trans (State.sameCycle_crossed ..)
  · exact ⟨rfl, rfl, rfl⟩

/-- The next cycle has the next number, and main memory and the strands as they were (R164). -/
theorem State.tick_frame (s : State) : s.tick.now = s.now + 1 ∧ s.tick.mem = s.mem ∧ s.tick.strands = s.strands := by
  obtain ⟨hm, hs, hn⟩ := (State.sameCycle_countStarved { s with now := s.now + 1, dies := s.dies.map Die.advance }).trans
    (State.sameCycle_foldl (fun t d => t.dieTick d (s.die d).count) (fun t d => t.sameCycle_dieTick d _) (List.range 4) _)
  unfold State.tick
  dsimp only
  exact ⟨hn, hm, hs⟩

/-! ### A program placed (log 8) -/

theorem State.place_strand (s : State) (h0 h1 : Half) : (s.place h0 h1).strand 0 = placedStrand h0 h1 := Tbl.getD_set_same ..

theorem State.place_dieNow (s : State) (h0 h1 : Half) : (s.place h0 h1).dieNow 0 = (s.die 0).count / 16 * 16 := by
  simp [State.dieNow, State.die, State.place]

theorem State.place_core (s : State) (h0 h1 : Half) : let k := (s.place h0 h1).core 0
    k.slots[0]? = some (some 0) ∧ k.issued[0]? = some 0 ∧ k.engWish = [] := by
  have hk : (s.place h0 h1).core 0 = _ := Tbl.getD_set_same ..
  dsimp only
  rw [hk]
  simp

/-- The placed strand is the first whose turn it is: it has used none of its turns, and slot 0 has not issued. -/
theorem State.place_turnOf (s : State) (h0 h1 : Half) : turnOf (s.place h0 h1) 0 = .issue 0 0 := by
  obtain ⟨hslot, hissued, -⟩ := s.place_core h0 h1
  have hturn : turnSlot (s.place h0 h1) 0 = 0 := by simp [turnSlot, s.place_dieNow]
  have hyields : yields (s.place h0 h1) 0 = false := by
    unfold yields
    dsimp only
    rw [hturn, hslot, Option.getD_some]
    dsimp only
    rw [s.place_strand]
    simp [placedStrand]
  have hruns : runnable (s.place h0 h1) 0 = true := by
    simp [runnable, s.place_strand, placedStrand, Strand.slot?, Strand.fetched]
  have hcand : candidate (s.place h0 h1) ((s.place h0 h1).core 0) 0 = some 0 := by
    unfold candidate rested
    dsimp only
    rw [hslot, Option.getD_some, hissued]
    simp [hruns]
  have hfirst : (if ((s.place h0 h1).core 0).rotNow then (List.range 16).map fun i => (turnSlot (s.place h0 h1) 0 + i) % 16
      else [turnSlot (s.place h0 h1) 0]) = 0 :: (if ((s.place h0 h1).core 0).rotNow then (List.range' 1 15).map fun i => i % 16 else []) := by
    rw [hturn]
    split <;> rfl
  simp only [turnOf, hyields, hfirst, Bool.false_eq_true, if_false, List.findSome?_cons, hcand, Option.map_some]

/-- The placed strand owes no turn and has fetched its halfwords. -/
theorem State.place_begin (s : State) (h0 h1 : Half) : ((s.place h0 h1).begin_ 0 0 0).cur.owe = 0 ∧
    ((s.place h0 h1).begin_ 0 0 0).cur.fetch = .ready h0 (if isHead h0 then some h1 else none) := by
  have howe := congrArg Strand.owe (s.place_strand h0 h1)
  have hf := congrArg Strand.fetch (s.place_strand h0 h1)
  rw [State.begin_cur]
  exact ⟨(State.strand_countTurn _ 0 0 Strand.owe fun _ _ => rfl).trans howe, (State.strand_countTurn _ 0 0 Strand.fetch fun _ _ => rfl).trans hf⟩

theorem State.place_mem (s : State) (h0 h1 : Half) : (s.place h0 h1).mem = s.mem.write 0 (halfBytes h0 ++ halfBytes h1) := rfl

theorem setWidth_shiftRight_eight (h : Half) : (h >>> 8).setWidth 8 = BitVec.ofNat 8 (h.toNat / 256) := by
  refine BitVec.eq_of_toNat_eq ?_
  simp [Nat.shiftRight_eq_div_pow]

theorem setWidth_eight (h : Half) : h.setWidth 8 = BitVec.ofNat 8 h.toNat := rfl

/-- The bytes that stand at address 0 (R4, R34). -/
theorem State.place_get (s : State) (h0 h1 : Half) : let m := (s.place h0 h1).mem
    m.get 0 = h0.setWidth 8 ∧ m.get 1 = (h0 >>> 8).setWidth 8 ∧ m.get 2 = h1.setWidth 8 ∧ m.get 3 = (h1 >>> 8).setWidth 8 := by
  dsimp only
  rw [s.place_mem, setWidth_shiftRight_eight, setWidth_shiftRight_eight, setWidth_eight, setWidth_eight]
  have hget (n : Nat) (hn : n < 4) := s.mem.get_write_in 0 (halfBytes h0 ++ halfBytes h1) n (Nat.zero_le n) (by simpa [halfBytes] using hn)
  exact ⟨hget 0 (by decide), hget 1 (by decide), hget 2 (by decide), hget 3 (by decide)⟩

/-- Settles O35, by the three kinds of step, and by the turn of a strand that has been placed. -/
theorem stepRunsTheDecodedInstruction : Obligations.StepRunsTheDecodedInstruction := by
  unfold Obligations.StepRunsTheDecodedInstruction
  intro s hi
  refine ⟨fun core rest g n i len h k hcal hq ht howe hf hd => ?_, fun d rest hc hd => step_event hi hc hd,
    fun hc hq => ⟨_, step_tick hi hq hc, s.tick_frame⟩, fun h0 h1 i len hd => ?_⟩
  · obtain ⟨hpc, hmem, hwish⟩ := s.begin_frame core g n
    refine ⟨?_, rfl, by simp [State.begin_, hq], hpc, hmem, fun hw => State.noteReads_of_noWish i (hwish.trans hw), State.noteReads_cases ..⟩
    rw [step_turn hi hq hcal, runTurn_issue ht (actOf_instr howe hf hd)]
  · obtain ⟨howe, hf⟩ := s.place_begin h0 h1
    obtain ⟨hpc, -, hwish⟩ := (s.place h0 h1).begin_frame 0 0 0
    obtain ⟨-, -, hnone⟩ := s.place_core h0 h1
    have hdec : decodeHalves h0 ((if isHead h0 then some h1 else none).getD 0) = .ok (i, len) := by
      rw [← hd, Laws.isHead_eq_bits]
      cases h0.getLsbD 15 && h0.getLsbD 14 <;> rfl
    refine ⟨?_, rfl, by rw [hpc, s.place_strand]; rfl, fun _ => s.place_get h0 h1⟩
    rw [step_turn (core := 0) (rest := []) rfl rfl (fun _ hd => absurd hd List.not_mem_nil),
      runTurn_issue (s.place_turnOf h0 h1) (actOf_instr (howe.le.trans (by decide)) hf hdec), State.noteReads_of_noWish i (hwish.trans hnone)]

end Sys2Proof.Machine
end

section
/-! The system-only instructions and the snapshot's (R52, R108, R450, R452, R453): what each of them does in system mode and where it ends. -/

namespace Sys2Proof.Machine

/-! ### Where they end -/

/-- The strand whose turn it is has gone on behind an instruction of `len` bytes, having written at most the registers `r`; main memory and
the other strands are as they were. -/
def State.endsAt (s t : State) (len : Nat) (r : RegSet) : Prop :=
  s.cur.keepsRegs t.cur r [] [] ∧ t.cur.ctl = s.cur.ctl ∧ t.cur.pc = s.cur.pc + BitVec.ofNat 64 len ∧ t.cur.wait = none ∧ t.mem = s.mem ∧
  ∀ n, n ≠ s.curId → t.strands.find? n = s.strands.find? n

/-- A strand that has retired, and outside its strand a state with the strands and main memory of that one. -/
theorem State.endsAt_of_retires {s u t : State} {len : Nat} {r : RegSet} (h : s.retires u len r [] []) (hs : t.strands = u.strands)
    (hid : t.curId = u.curId) (hm : t.mem = u.mem) : s.endsAt t len r := by
  obtain ⟨honly, ⟨hregs, -⟩, hctl, hpc, hwait⟩ := h
  have hcur : t.cur = u.cur := by simp only [State.cur, State.strand, hs, hid]
  rw [State.endsAt, hcur, hs, hm]
  refine ⟨hregs, hctl, hpc, hwait, ?_, fun n hn => ?_⟩
  · rw [show u = s.setCur u.cur from honly, State.setCur_mem]
  · rw [show u = s.setCur u.cur from honly]
    exact Tbl.find?_set_other _ _ _ _ hn

theorem State.retires_advance (s : State) (len : Nat) : s.retires (s.setCur (s.cur.advance len)) len {} [] [] :=
  retires_of (s.cur.keeps_advance len) rfl rfl rfl

theorem State.endsAt_advance {s t : State} {len : Nat} (hs : t.strands = (s.setCur (s.cur.advance len)).strands) (hid : t.curId = s.curId)
    (hm : t.mem = s.mem) : s.endsAt t len {} :=
  State.endsAt_of_retires (s.retires_advance len) hs hid hm

/-! ### Privilege, registers and drains -/

theorem needSystem_ok {c : Strand} (i : Instr) (h : c.ident.system = true) : needSystem c i = .ok () := if_pos h

theorem needSystem_user {c : Strand} (i : Instr) (h : c.ident.system = false) :
    needSystem c i = .error (.fault ⟨.priv, c.pc, encInfo (encode i)⟩) := by
  simp [needSystem, h]

/-- A release with nothing to drain and no span to close goes on. -/
theorem release_of_drained {s : State} {d : Drain} (go : Except Stop State) (h : Spec.drained s d) : release s d go = go := by
  obtain ⟨hu, hf, hs, hc⟩ := h
  simp [release, needDrained, hu, hf, hs, hc, bind, Except.bind]

/-- An instruction that asks for system mode first is fault 0x04 with its own words in user mode (R52). -/
theorem run_of_user {i : Instr} {s : State} {body : State → Except Stop State} {k : Unit → Except Stop State}
    (h : s.cur.ident.system = false) (hb : body s = (needSystem s.cur i >>= k)) :
    run 4 body s = .next (s.raise s.curId ⟨.priv, s.cur.pc, encInfo (encode i)⟩ 2) := by
  have he : body s = .error (.fault ⟨.priv, s.cur.pc, encInfo (encode i)⟩) := by
    rw [hb, needSystem_user i h]
    rfl
  rw [run_error he]
  rfl

theorem exec_systemOnly_of_user {x : XReg} {a b d : SReg} {m : TlbiMode} {s : State} (h : s.cur.ident.system = false) :
    ∀ i ∈ [Instr.tlbw x a, .tlbi a b m, .privctlRd d a, .privctlWr a b, .snapt, .halt a],
      exec i s = .next (s.raise s.curId ⟨.priv, s.cur.pc, encInfo (encode i)⟩ 2) := by
  simp only [List.forall_mem_cons, List.not_mem_nil, false_imp_iff, implies_true, and_true]
  refine ⟨?_, ?_, ?_, ?_, ?_, ?_⟩
  · show execTlbw x a s = _
    exact run_of_user h rfl
  · show execTlbi a b m s = _
    exact run_of_user h rfl
  · show execPrivctlRd d a s = _
    exact run_of_user h rfl
  · show execPrivctlWr a b s = _
    exact run_of_user h rfl
  · show execSnapt s = _
    exact run_of_user h rfl
  · show execHalt a s = _
    exact run_of_user h rfl

/-! ### Snapshots (R108, R450, R453) -/

/-- The instruction fires the snapshot trigger: the first of a cycle takes the snapshot, and another changes nothing more. -/
def State.snapsAt (s t : State) (len : Nat) : Prop := s.endsAt t len {} ∧
  (s.pkg.snapAt = some s.now → t = s.setCur t.cur) ∧
  (s.pkg.snapAt ≠ some s.now → t.snap = s.cycleRegs ∧ t.pkg.snapSeq = s.pkg.snapSeq + 1 ∧ t.pkg.irq.getLsbD 3 = true ∧
    ∀ i < 3, t.pkg.irq.getLsbD i = s.pkg.irq.getLsbD i)

theorem State.snapsAt_latch (s : State) (len : Nat) : s.snapsAt (s.setCur (s.cur.advance len)).latch len := by
  by_cases hn : s.pkg.snapAt = some s.now
  · have hl : (s.setCur (s.cur.advance len)).latch = s.setCur (s.cur.advance len) := if_pos hn
    rw [hl]
    exact ⟨State.endsAt_advance rfl rfl rfl, fun _ => by rw [State.cur_setCur], fun h => absurd hn h⟩
  · rw [State.latch_of_ne (s := s.setCur _) hn]
    refine ⟨State.endsAt_advance rfl rfl rfl, fun h => absurd h hn, fun _ => ⟨rfl, rfl, ?_, fun i hi => ?_⟩⟩
    · show (s.pkg.irq ||| 8#4).getLsbD 3 = true
      simp
    · show (s.pkg.irq ||| 8#4).getLsbD i = _
      have low : ∀ i < 3, (8#4).getLsbD i = false := by decide
      rw [BitVec.getLsbD_or, low i hi, Bool.or_false]

theorem exec_snap (s : State) : exec .snap s =
    .next (if s.pkg.snapUser then (s.setCur (s.cur.advance 2)).latch else s.setCur (s.cur.advance 2)) := rfl

theorem exec_snapt {s : State} (h : s.cur.ident.system = true) : exec .snapt s = .next (s.setCur (s.cur.advance 4)).latch := by
  show execSnapt s = _
  refine run_ok ?_
  simp [needSystem_ok _ h, bind, Except.bind]

/-! ### Translation (R452, R453) -/

theorem exec_tlbw {x : XReg} {a : SReg} {s : State} (h : s.cur.ident.system = true) (ha : s.cur.sState a = .full) (hx : x.toNat ≤ 5)
    (hv : (s.cur.sVal a).toNat ≤ 255) : exec (.tlbw x a) s = .next ((s.modCore s.cur.core fun k =>
      { k with tlb := k.tlb.set (s.cur.sVal a).toNat ⟨s.cur.xVal x, s.cur.xVal (x + 1), s.cur.xVal (x + 2)⟩ }).setCur (s.cur.advance 4)) := by
  show execTlbw x a s = _
  refine run_ok ?_
  simp [needSystem_ok _ h, readS_full _ _ ha, Nat.not_lt.mpr hx, Nat.not_lt.mpr hv, bind, Except.bind, Strand.xAt]

theorem tlbw_effect {x : XReg} {a : SReg} {s : State} (h : s.cur.ident.system = true) (ha : s.cur.sState a = .full) (hx : x.toNat ≤ 5)
    (hv : (s.cur.sVal a).toNat ≤ 255) : ∃ t, exec (.tlbw x a) s = .next t ∧ s.endsAt t 4 {} ∧ (∀ n, n ≠ s.cur.core → t.core n = s.core n) ∧
      t.core s.cur.core = { s.core s.cur.core with tlb := (t.core s.cur.core).tlb } ∧
      ∀ n, (t.core s.cur.core).tlb.find? n = if n = (s.cur.sVal a).toNat then some ⟨s.cur.xVal x, s.cur.xVal (x + 1), s.cur.xVal (x + 2)⟩
        else (s.core s.cur.core).tlb.find? n := by
  refine ⟨_, exec_tlbw h ha hx hv, State.endsAt_advance rfl rfl rfl, fun n hn => State.core_setCore_other _ _ _ _ hn, ?_, fun n => ?_⟩
  · rw [show ∀ (u : State) c, (u.setCur c).core s.cur.core = u.core s.cur.core from fun _ _ => rfl, State.modCore, State.core_setCore_same]
  · rw [show ∀ (u : State) c, (u.setCur c).core s.cur.core = u.core s.cur.core from fun _ _ => rfl, State.modCore, State.core_setCore_same]
    split
    · next e => rw [e, Tbl.find?_set_same]
    · next e => exact Tbl.find?_set_other _ _ _ _ e

/-! ### Events entered one after another -/

theorem mem_insertDue {e d : Due} {l : List Due} : d ∈ insertDue e l ↔ d = e ∨ d ∈ l := by
  induction l with
  | nil => simp [insertDue]
  | cons x l ih =>
    rw [insertDue]
    split
    · simp
    · simp only [List.mem_cons, ih]
      tauto

/-- Entering an event for each of a list changes the calendar alone: it gains them, and keeps what it held. -/
theorem State.foldl_at (delay : Nat → Nat) (rank : Nat) (ev : Instr) (arg : Nat → Nat → EvArg) (l : List Nat) (s : State) :
    let t := l.foldl (fun u n => u.at_ (u.now + delay n) rank ev (arg u.curId n)) s
    t = { s with cal := t.cal } ∧ (∀ d ∈ s.cal, d ∈ t.cal) ∧ ∀ n ∈ l, (⟨s.now + delay n, rank, ev, arg s.curId n⟩ : Due) ∈ t.cal := by
  induction l generalizing s with
  | nil => exact ⟨rfl, fun _ h => h, fun _ h => absurd h List.not_mem_nil⟩
  | cons a l ih =>
    obtain ⟨heq, hold, hnew⟩ := ih (s.at_ (s.now + delay a) rank ev (arg s.curId a))
    refine ⟨heq, fun d hd => hold d (mem_insertDue.mpr (.inr hd)), fun n hn => ?_⟩
    rcases List.mem_cons.mp hn with rfl | hn
    · exact hold _ (mem_insertDue.mpr (.inl rfl))
    · exact hnew n hn

/-! ### Shoot-downs (R242, R453) -/

theorem groupBit_eq (n : Nat) : groupBit n = n / 64 := by
  rw [groupBit, dieOf, sgOf]
  omega

theorem groupCores_eq (w : Word) : groupCores w.toNat = (List.range 768).filter fun n => w.getLsbD (n / 64) := by
  simp only [groupCores, groupBit_eq, BitVec.getLsbD]

theorem mem_groupCores {w : Word} {n : Nat} : n ∈ groupCores w.toNat ↔ n < 768 ∧ w.getLsbD (n / 64) = true := by
  rw [groupCores_eq, List.mem_filter, List.mem_range]

/-- A set of groups that is not empty has a core. -/
theorem groupCores_ne_nil {w : Word} (h : w ≠ 0) (hw : w.toNat < 2 ^ 12) : groupCores w.toNat ≠ [] := by
  obtain ⟨i, hi⟩ := Nat.exists_testBit_of_ne_zero (x := w.toNat) fun e => h (BitVec.eq_of_toNat_eq e)
  have hlt : i < 12 := (Nat.pow_lt_pow_iff_right (by omega)).mp (lt_of_le_of_lt (Nat.ge_two_pow_of_testBit hi) hw)
  have hmem : 64 * i ∈ groupCores w.toNat := by
    refine mem_groupCores.mpr ⟨by omega, ?_⟩
    rw [Nat.mul_div_cancel_left _ (by omega)]
    exact hi
  exact List.ne_nil_of_mem hmem

theorem toNat_length_groupCores (w : Word) :
    (BitVec.ofNat 64 (groupCores w.toNat).length).toNat = ((List.range 768).filter fun n => w.getLsbD (n / 64)).length := by
  have h := List.length_filter_le (fun n => w.getLsbD (n / 64)) (List.range 768)
  rw [List.length_range] at h
  rw [BitVec.toNat_ofNat, groupCores_eq, Nat.mod_eq_of_lt (by omega)]

/-- The state in which a `TLBI` of page `v` and groups `w` waits, but for the strand: a shoot-down is under way to each core of the groups. -/
def State.shotDown (s : State) (m : TlbiMode) (v w : Word) : State :=
  (groupCores w.toNat).foldl (init := s) fun u n => u.at_ (u.now + latency s.cur.core n) rankWork .shootdown
    { id := n, idx := tlbiMode m, sub := u.curId, v := BitVec.ofNat 64 (vpnOf v) }

theorem State.shotDown_cal (s : State) (m : TlbiMode) (v w : Word) : s.shotDown m v w = { s with cal := (s.shotDown m v w).cal } ∧
    ∀ n ∈ groupCores w.toNat, (⟨s.now + latency s.cur.core n, rankWork, .shootdown,
      { id := n, idx := tlbiMode m, sub := s.curId, v := BitVec.ofNat 64 (vpnOf v) }⟩ : Due) ∈ (s.shotDown m v w).cal := by
  obtain ⟨heq, -, hnew⟩ := s.foldl_at (latency s.cur.core) rankWork .shootdown
    (fun g n => { id := n, idx := tlbiMode m, sub := g, v := BitVec.ofNat 64 (vpnOf v) }) (groupCores w.toNat)
  exact ⟨heq, hnew⟩

section Tlbi
variable {a b : SReg} {m : TlbiMode} {s : State} (h : s.cur.ident.system = true) (ha : s.cur.sState a = .full) (hb : s.cur.sState b = .full)
  (hd : Spec.drained s .all)
include h ha hb hd

theorem completes_tlbi (h0 : s.cur.sVal b = 0) : completes (.tlbi a b m) s 4 {} [] [] fun _ => True := by
  refine ⟨_, ?_, s.retires_advance 4, trivial⟩
  show execTlbi a b m s = _
  refine run_ok ?_
  simp [needSystem_ok _ h, readS_full _ _ ha, readS_full _ _ hb, h0, release_of_drained _ hd, groupCores, bind, Except.bind]

theorem exec_tlbi (hw : (s.cur.sVal b).toNat < 2 ^ 12) (h0 : s.cur.sVal b ≠ 0) :
    exec (.tlbi a b m) s = .next ((s.shotDown m (s.cur.sVal a) (s.cur.sVal b)).setCur
      { s.cur with wait := some { kind := .event, since := s.now, retire := { len := 4 }
                                  info := BitVec.ofNat 64 (groupCores (s.cur.sVal b).toNat).length, len := 4 } }) := by
  show execTlbi a b m s = _
  refine run_ok ?_
  have hle : ¬ 4096 ≤ (s.cur.sVal b).toNat := by omega
  simp [needSystem_ok _ h, readS_full _ _ ha, readS_full _ _ hb, hle, release_of_drained _ hd, groupCores_ne_nil h0 hw, bind, Except.bind,
    State.shotDown]

/-- What a `TLBI` leaves: shoot-downs under way, and a wait for as many acknowledgements. -/
theorem tlbi_effect (hw : (s.cur.sVal b).toNat < 2 ^ 12) (h0 : s.cur.sVal b ≠ 0) :
    ∃ t, exec (.tlbi a b m) s = .next t ∧ s.cur.keepsRegs t.cur {} [] [] ∧ t.cur.pc = s.cur.pc ∧ t.cores = s.cores ∧ t.mem = s.mem ∧
      (∃ q, t.cur.wait = some q ∧ q.kind = .event ∧ q.until_ = none ∧
        q.info.toNat = ((List.range 768).filter fun n => (s.cur.sVal b).getLsbD (n / 64)).length) ∧
      ∀ n < 768, (s.cur.sVal b).getLsbD (n / 64) = true → (⟨s.now + latency s.cur.core n, rankWork, .shootdown,
        { id := n, idx := (match m with | .va => 0 | .unl => 1 | .all => 2), sub := s.curId
          v := BitVec.ofNat 64 ((s.cur.sVal a).toNat % 2 ^ 48 / 2 ^ 16) }⟩ : Due) ∈ t.cal := by
  obtain ⟨heq, hcal⟩ := s.shotDown_cal m (s.cur.sVal a) (s.cur.sVal b)
  have hvpn : vpnOf (s.cur.sVal a) = (s.cur.sVal a).toNat % 2 ^ 48 / 2 ^ 16 := by rw [vpnOf]; norm_num
  rw [hvpn] at hcal
  refine ⟨_, exec_tlbi h ha hb hd hw h0, ?_⟩
  rw [State.cur_setCur]
  refine ⟨(Strand.keeps_refl s.cur).1, rfl, by rw [heq]; rfl, by rw [heq]; rfl, ⟨_, rfl, rfl, rfl, ?_⟩, fun n hn hbit => ?_⟩
  · exact toNat_length_groupCores _
  · rw [State.setCur_cal]
    cases m <;> exact hcal n (mem_groupCores.mpr ⟨hn, hbit⟩)

end Tlbi

/-! ### `PRIVCTL` (R453) -/

theorem needReg_ok {s : State} {v r : Word} (h8 : v.toNat % 8 = 0) (h : s.reg v.toNat = some r) : needReg s v = .ok r := by
  simp [needReg, h8, h]

theorem State.regClear_frame (s : State) (off : Nat) :
    (s.regClear off).strands = s.strands ∧ (s.regClear off).curId = s.curId ∧ (s.regClear off).mem = s.mem := by
  have hdie (d : Nat) (f : Die → Die) : (s.modDie d f).strands = s.strands ∧ (s.modDie d f).curId = s.curId ∧ (s.modDie d f).mem = s.mem :=
    ⟨rfl, rfl, rfl⟩
  unfold State.regClear
  simp only [Bool.and_eq_true, decide_eq_true_eq]
  split
  · split <;> simp only [hdie, and_self]
  · split
    · split <;> exact ⟨rfl, rfl, rfl⟩
    · split
      · split <;> simp only [hdie, and_self]
      · split <;> exact ⟨rfl, rfl, rfl⟩

/-- Which offsets name a register does not turn on the numbers of contexts. -/
theorem isNone_regRead_ctx (v : Regs) (l : Tbl Nat) (off : Nat) : (regRead { v with ctx := l } off).isNone = (regRead v off).isNone := by
  have hhome (x : Home) (i j o : Nat) : (homeRead x i o).isNone = (homeRead x j o).isNone := by
    unfold homeRead
    split <;> simp only [Option.isNone_some, Option.isNone_none]
  unfold regRead
  simp only [apply_ite Option.isNone,
    hhome (v.homes.getD ((off - 0x200000) / 0x100) {}) (l.getD ((off - 0x200000) / 0x100) 0) (v.ctx.getD ((off - 0x200000) / 0x100) 0)]

theorem State.isNone_reg_setCur (s : State) (c : Strand) (off : Nat) : ((s.setCur c).reg off).isNone = (s.reg off).isNone := by
  unfold State.reg
  split
  · rfl
  · exact isNone_regRead_ctx s.regs (s.setCur c).regs.ctx off

theorem State.regWrite_setCur {s : State} {off : Nat} {r : Word} (h : s.reg off = some r) (c : Strand) (w : Word) (boot : EvArg) :
    ∃ u, (s.setCur c).regWrite off w boot = some u := by
  have hn : ((s.setCur c).reg off).isNone = false := by rw [State.isNone_reg_setCur, h]; rfl
  rw [State.regWrite, hn]
  exact ⟨_, rfl⟩

theorem exec_privctlRd {a d : SReg} {r : Word} {s : State} (h : s.cur.ident.system = true) (ha : s.cur.sState a = .full)
    (h8 : (s.cur.sVal a).toNat % 8 = 0) (hr : s.reg (s.cur.sVal a).toNat = some r) (hdr : Spec.drained s .all)
    (hd : s.cur.sState d ≠ .pending) :
    exec (.privctlRd d a) s = .next ((s.setCur ((s.cur.writeS d r).advance 4)).regClear (s.cur.sVal a).toNat) := by
  show execPrivctlRd d a s = _
  refine run_ok ?_
  simp [needSystem_ok _ h, readS_full _ _ ha, needFree_s _ _ hd, needReg_ok h8 hr, release_of_drained _ hdr, bind, Except.bind]

theorem exec_privctlWr {a b : SReg} {r : Word} {s u : State} (h : s.cur.ident.system = true) (ha : s.cur.sState a = .full)
    (hb : s.cur.sState b = .full) (h8 : (s.cur.sVal a).toNat % 8 = 0) (hr : s.reg (s.cur.sVal a).toNat = some r)
    (hdr : Spec.drained s .all) (hu : (s.setCur (s.cur.advance 4)).regWrite (s.cur.sVal a).toNat (s.cur.sVal b) {} = some u) :
    exec (.privctlWr a b) s = .next u := by
  show execPrivctlWr a b s = _
  refine run_ok ?_
  simp only [needSystem_ok _ h, readS_full _ _ ha, readS_full _ _ hb, needReg_ok h8 hr, release_of_drained _ hdr, bind, Except.bind]
  rw [hu, Option.getD_some]

/-- What `PRIVCTL.RD` leaves: the register's value in `d`, and the register cleared where a read clears it. -/
theorem privctlRd_effect {a d : SReg} {r : Word} {s : State} (h : s.cur.ident.system = true) (ha : s.cur.sState a = .full)
    (h8 : (s.cur.sVal a).toNat % 8 = 0) (hr : s.reg (s.cur.sVal a).toNat = some r) (hdr : Spec.drained s .all)
    (hd : s.cur.sState d ≠ .pending) : ∃ t, exec (.privctlRd d a) s = .next t ∧ s.endsAt t 4 { s := [d] } ∧ t.cur.sVal d = wroteS d r ∧
      t.cur.sState d = .full ∧ t = (s.setCur t.cur).regClear (s.cur.sVal a).toNat := by
  refine ⟨_, exec_privctlRd h ha h8 hr hdr hd, ?_⟩
  obtain ⟨hret, hval, hfull⟩ := retires_writeS 4 d r (Strand.keeps_refl s.cur) rfl rfl
  obtain ⟨hst, hid, hmem⟩ := (s.setCur ((s.cur.writeS d r).advance 4)).regClear_frame (s.cur.sVal a).toNat
  have hcur : ((s.setCur ((s.cur.writeS d r).advance 4)).regClear (s.cur.sVal a).toNat).cur = (s.cur.writeS d r).advance 4 := by
    conv_lhs => rw [State.cur, State.strand, hst, hid]
    exact State.cur_setCur s _
  refine ⟨State.endsAt_of_retires hret hst hid hmem, ?_⟩
  rw [State.cur_setCur] at hval hfull
  rw [hcur]
  exact ⟨hval, hfull, rfl⟩

/-! ### `HALT` (R453) -/

theorem exec_halt {a : SReg} {s : State} (h : s.cur.ident.system = true) (ha : s.cur.sState a = .full) (hd : Spec.drained s .writes) :
    exec (.halt a) s = .next (((s.setCur (s.cur.advance 4)).halt.modPkg fun p =>
      { p with haltReg := BitVec.ofNat 64 (2 ^ 63 + (s.cur.sVal a).toNat % 2 ^ 16) }).irq 1) := by
  show execHalt a s = _
  refine run_ok ?_
  simp [needSystem_ok _ h, readS_full _ _ ha, release_of_drained _ hd, bind, Except.bind]

theorem halt_effect {a : SReg} {s : State} (h : s.cur.ident.system = true) (ha : s.cur.sState a = .full) (hd : Spec.drained s .writes) :
    ∃ t, exec (.halt a) s = .next t ∧ s.endsAt t 4 {} ∧ t.pkg.halted = true ∧
      t.pkg.haltReg.toNat = 2 ^ 63 + (s.cur.sVal a).toNat % 2 ^ 16 ∧ t.pkg.irq.getLsbD 1 = true ∧ t.issueQ = [] ∧ t.cores = s.cores ∧
      t.homes = s.homes := by
  refine ⟨_, exec_halt h ha hd, State.endsAt_advance rfl rfl rfl, rfl, ?_, ?_, rfl, rfl, rfl⟩
  · show (BitVec.ofNat 64 (2 ^ 63 + (s.cur.sVal a).toNat % 2 ^ 16)).toNat = _
    rw [BitVec.toNat_ofNat]
    omega
  · show (s.pkg.irq ||| 2#4).getLsbD 1 = true
    simp

/-! ### The obligation -/

/-- Settles O18: in user mode each instruction stops at its check of the mode; in system mode each is one equation for `exec`, from which its
effects are read off. -/
theorem systemInstructions : Obligations.SystemInstructions := by
  intro x a b d m s
  refine ⟨exec_systemOnly_of_user, ?_, fun h ha => ⟨tlbw_effect h ha, fun hb hw hd => ⟨completes_tlbi h ha hb hd, tlbi_effect h ha hb hd hw⟩,
    fun r h8 hr hd => ⟨privctlRd_effect h ha h8 hr hd, fun hb => ?_⟩, ⟨_, exec_snapt h, s.snapsAt_latch 4⟩, halt_effect h ha⟩⟩
  · split
    · next hu => exact ⟨_, by rw [exec_snap, if_pos hu], s.snapsAt_latch 2⟩
    · next hu => exact ⟨_, by rw [exec_snap, if_neg hu], s.retires_advance 2, trivial⟩
  · obtain ⟨u, hu⟩ := State.regWrite_setCur hr (s.cur.advance 4) (s.cur.sVal b) {}
    exact ⟨u, u, exec_privctlWr h ha hb h8 hr hd hu, hu, rfl⟩

end Sys2Proof.Machine
end

section
/-! What the removal of a strand leaves as it was (R389): the other strands, and the registers of the last containment decision (R391). One lemma
per operation of Sys2Proof/Machine/Contain.lean, along its definition. -/

namespace Sys2Proof.Machine

theorem Tbl.find?_erase_other {α : Type} (t : Tbl α) (n m : Nat) (h : m ≠ n) : (t.erase n).find? m = t.find? m := by
  induction t with
  | nil => rfl
  | cons e t ih =>
    obtain ⟨k, v⟩ := e
    by_cases hk : k = n
    · subst hk
      simpa [Tbl.erase, Tbl.find?, h.symm] using ih
    · by_cases hm : k = m
      · simp [Tbl.erase, Tbl.find?, hm, h]
      · simpa [Tbl.erase, Tbl.find?, hk, hm] using ih

/-- The registers that a containment decision writes in a die (R391). -/
def Die.contLog (d : Die) : Word × Word × Nat := (d.clog0, d.clog1, d.ccnt)

/-- From `s` to `t` no strand but `g` changes, and no die's registers of the last containment decision. -/
def State.spares (s : State) (g : Nat) (t : State) : Prop :=
  (∀ x, x ≠ g → t.strands.find? x = s.strands.find? x) ∧ ∀ d, (t.die d).contLog = (s.die d).contLog

theorem State.spares_of_eq {s t : State} {g : Nat} (hs : t.strands = s.strands) (hd : t.dies = s.dies) : s.spares g t :=
  ⟨fun _ _ => by rw [hs], fun _ => by rw [State.die, State.die, hd]⟩

theorem State.spares_refl (s : State) (g : Nat) : s.spares g s := State.spares_of_eq rfl rfl

theorem State.spares.trans {s t u : State} {g : Nat} (h : s.spares g t) (k : t.spares g u) : s.spares g u :=
  ⟨fun x hx => (k.1 x hx).trans (h.1 x hx), fun d => (k.2 d).trans (h.2 d)⟩

theorem State.spares_foldl {α : Type} {g : Nat} (f : State → α → State) (h : ∀ (s : State) a, s.spares g (f s a)) (l : List α) (s : State) :
    s.spares g (l.foldl f s) := by
  induction l generalizing s with
  | nil => exact s.spares_refl g
  | cons a l ih => exact (h s a).trans (ih _)

/-! ### The elementary changes -/

section Elementary
variable (s : State) (g : Nat)

theorem State.spares_at (t r : Nat) (e : Instr) (a : EvArg) : s.spares g (s.at_ t r e a) := State.spares_of_eq rfl rfl
theorem State.spares_modHome (h : Nat) (f : Home → Home) : s.spares g (s.modHome h f) := State.spares_of_eq rfl rfl
theorem State.spares_setHome (h : Nat) (x : Home) : s.spares g (s.setHome h x) := State.spares_of_eq rfl rfl
theorem State.spares_modCore (c : Nat) (f : Core → Core) : s.spares g (s.modCore c f) := State.spares_of_eq rfl rfl
theorem State.spares_modGang (n : Nat) (f : Gang → Gang) : s.spares g (s.modGang n f) := State.spares_of_eq rfl rfl

theorem State.spares_modStrand (f : Strand → Strand) : s.spares g (s.modStrand g f) :=
  ⟨fun _ hx => Tbl.find?_modify_other _ _ _ _ hx, fun _ => rfl⟩

theorem State.spares_modDie (d : Nat) (f : Die → Die) (hf : ∀ y, (f y).contLog = y.contLog) : s.spares g (s.modDie d f) := by
  refine ⟨fun _ _ => rfl, fun e => ?_⟩
  by_cases h : e = d ∧ d < 4
  · rw [h.1, State.modDie, State.die_setDie_same _ _ h.2, hf]
  · have he : (s.modDie d f).die e = s.die e := by
      simp only [State.modDie, State.setDie, State.die, Vector.getElem?_setIfInBounds]
      split
      · next hde => rw [if_neg fun hd => h ⟨hde.symm, hd⟩, Vector.getElem?_eq_none (by omega)]
      · rfl
    rw [he]

theorem State.spares_atOnce (t r : Nat) (e : Instr) (a : EvArg) : s.spares g (s.atOnce t r e a) := by
  unfold State.atOnce
  split
  · exact s.spares_refl g
  · exact s.spares_at ..

theorem State.spares_atTime (t r : Nat) (e : Instr) (a : EvArg) : s.spares g (s.atTime t r e a) := by
  unfold State.atTime
  split
  · exact s.spares_refl g
  · exact s.spares_at ..

theorem State.spares_toHome (n : Nat) (r : Req) : s.spares g (s.toHome n r) := by
  unfold State.toHome
  split
  · dsimp only
    split <;> exact State.spares_of_eq rfl rfl
  · split <;> exact s.spares_at ..

end Elementary

/-! ### Slots, queues and arrival sets -/

section Withdrawals
variable (s : State) (g : Nat)

theorem State.spares_askPass (d : Nat) : s.spares g (s.askPass d) := by
  unfold State.askPass
  split
  · exact s.spares_refl g
  · refine (s.spares_modDie g d _ ?_).trans (State.spares_at ..)
    exact fun _ => rfl

theorem State.spares_askLoad (c t : Nat) : s.spares g (s.askLoad c t) := by
  unfold State.askLoad
  split
  · exact s.spares_refl g
  · exact s.spares_atOnce ..

theorem State.spares_leaveArr (h b : Nat) (w : Waiter) : s.spares g (s.leaveArr h b w) := by
  unfold State.leaveArr
  split
  · exact s.spares_refl g
  · split
    · dsimp only
      split
      · exact (s.spares_modHome ..).trans (State.spares_at ..)
      · exact s.spares_modHome ..
    · exact s.spares_refl g

theorem State.spares_leaveSets (h n : Nat) : s.spares g (s.leaveSets h n) :=
  State.spares_foldl _ (fun t _ => (t.spares_leaveArr ..).trans (State.spares_leaveArr ..)) _ s

theorem State.spares_dropWaiters (h : Nat) (p : Waiter → Bool) : s.spares g (s.dropWaiters h p) := by
  unfold State.dropWaiters
  dsimp only
  split
  · exact (s.spares_setHome ..).trans (State.spares_atTime ..)
  · exact s.spares_setHome ..

theorem State.spares_leaveHome (h n : Nat) : s.spares g (s.leaveHome h n) := (s.spares_dropWaiters ..).trans (State.spares_leaveSets ..)

theorem State.spares_dropFetch : s.spares g (s.dropFetch g) := by
  unfold State.dropFetch
  dsimp only
  split
  · exact (((s.spares_dropWaiters ..).trans (State.spares_leaveArr ..)).trans (State.spares_modCore ..)).trans (State.spares_modStrand ..)
  · exact s.spares_refl g

theorem State.spares_vacate (t : Nat) : s.spares g (s.vacate g t) := by
  unfold State.vacate
  dsimp only
  refine (s.spares_dropFetch g).trans ?_
  generalize s.dropFetch g = u
  split
  · exact ((u.spares_modCore ..).trans (State.spares_askPass ..)).trans (State.spares_askLoad ..)
  · exact (u.spares_askPass ..).trans (State.spares_askLoad ..)

theorem State.spares_withdraw (n : Nat) : s.spares g (s.withdraw n) := by
  unfold State.withdraw
  dsimp only
  have h (f : Core → Core) : s.spares g ((s.leaveHome (s.strand n).core n).modCore (s.strand n).core f) :=
    (s.spares_leaveHome ..).trans (State.spares_modCore ..)
  split
  · exact (h _).trans (State.spares_at ..)
  · exact h _

theorem State.spares_recall (n : Nat) (p : Nat → Bool) : s.spares g (s.recall n p) := by
  unfold State.recall
  refine State.spares.trans (State.spares_foldl _ (fun t _ => ?_) _ _) (State.spares_foldl _ (fun t _ => ?_) _ _)
  · dsimp only
    split
    · exact t.spares_at ..
    · exact t.spares_refl g
  · dsimp only
    split
    · exact t.spares_at ..
    · exact t.spares_refl g

theorem State.spares_acceptAll (n : Nat) : s.spares g (s.acceptAll n) := by
  refine State.spares_foldl _ (fun t _ => ?_) _ s
  dsimp only
  split
  · exact State.spares_of_eq rfl rfl
  · exact t.spares_refl g

theorem State.spares_sendCloses : s.spares g (s.sendCloses g) :=
  State.spares_foldl _ (fun (t : State) _ => State.spares.trans (t := t.addReq _) (State.spares_of_eq rfl rfl)
    ((State.spares_toHome ..).trans (State.spares_modStrand ..))) _ s

end Withdrawals

/-! ### Ends of strands -/

section Ends
variable (s : State) (g : Nat)

theorem State.spares_checkBarrier (n : Nat) : s.spares g (s.checkBarrier n) := by
  unfold State.checkBarrier
  split
  · exact s.spares_refl g
  · split
    · exact (s.spares_modGang ..).trans (State.spares_at ..)
    · exact s.spares_refl g

theorem State.spares_pokeGang (n : Nat) : s.spares g (s.pokeGang n) := by
  unfold State.pokeGang
  split
  · exact s.spares_refl g
  · split
    · exact s.spares_refl g
    · split
      · exact s.spares_atOnce ..
      · exact s.spares_refl g

theorem State.spares_headsLeft (n : Nat) (t : State) : t.spares g (s.headsLeft n t) := by
  refine State.spares_foldl _ (fun t e => State.spares_foldl _ (fun u q => ?_) _ t) _ t
  split
  · exact u.spares_refl g
  · split
    · exact u.spares_refl g
    · split
      · exact u.spares_at ..
      · exact u.spares_refl g

/-- The end of a strand takes it away (R198), and spares the others. -/
theorem State.spares_endStrand (t : Nat) : s.spares g (s.endStrand g t) ∧ (s.endStrand g t).strands.find? g = none := by
  unfold State.endStrand
  have h := ((((s.spares_withdraw g g).trans (State.spares_recall _ g g fun _ => true)).trans (State.spares_sendCloses _ g)).trans
    (State.spares_acceptAll _ g g)).trans (State.spares_vacate _ g t)
  generalize ((((s.withdraw g).recall g fun _ => true).sendCloses g).acceptAll g).vacate g t = u at h
  dsimp only
  generalize hv : (u.modCore (s.strand g).core _).modCore (g / 4096) _ = v
  have hstr : v.strands = u.strands := by subst hv; rfl
  have hdies : v.dies = u.dies := by subst hv; rfl
  generalize hw : State.modGang _ _ _ = w
  have hwstr : w.strands = u.strands.erase g := by subst hw; exact congrArg (Tbl.erase · g) hstr
  have hwdies : w.dies = u.dies := by subst hw; exact hdies
  have hend (n : Nat) : w.spares n ((w.checkBarrier (s.strand g).ident.gang).pokeGang (s.strand g).ident.gang) :=
    (w.spares_checkBarrier n _).trans (State.spares_pokeGang ..)
  have hou : u.spares g w := ⟨fun x hx => by rw [hwstr, Tbl.find?_erase_other _ _ _ hx], fun _ => by rw [State.die, State.die, hwdies]⟩
  refine ⟨(h.trans hou).trans (hend g), ?_⟩
  rw [(hend (g + 1)).1 g (by omega), hwstr, Tbl.find?_erase_same]

/-- So does the removal of one (R389). -/
theorem State.spares_removeStrand : s.spares g (s.removeStrand g) ∧ (s.removeStrand g).strands.find? g = none := by
  unfold State.removeStrand
  split
  · next h => exact ⟨s.spares_refl g, h⟩
  · obtain ⟨hend, hnone⟩ := State.spares_endStrand (s.headsLeft g _) g (s.now + 1)
    refine ⟨State.spares.trans (State.spares.trans (State.spares_of_eq ?_ ?_) (s.spares_headsLeft g g _)) hend, hnone⟩
    · rfl
    · rfl

/-- The removal of strands one after another takes them away and spares the others. -/
theorem State.removeStrands_frame (l : List Nat) : let t := l.foldl (fun s n => s.removeStrand n) s
    (∀ x ∈ l, t.strands.find? x = none) ∧ (∀ x, x ∉ l → t.strands.find? x = s.strands.find? x) ∧ ∀ d, (t.die d).contLog = (s.die d).contLog := by
  induction l generalizing s with
  | nil => exact ⟨fun _ h => absurd h List.not_mem_nil, fun _ _ => rfl, fun _ => rfl⟩
  | cons a l ih =>
    obtain ⟨⟨hother, hdie⟩, hnone⟩ := s.spares_removeStrand a
    obtain ⟨ihnone, ihother, ihdie⟩ := ih (s.removeStrand a)
    refine ⟨fun x hx => ?_, fun x hx => ?_, fun d => (ihdie d).trans (hdie d)⟩
    · by_cases hl : x ∈ l
      · exact ihnone x hl
      · obtain rfl : x = a := (List.mem_cons.mp hx).resolve_right hl
        exact (ihother x hl).trans hnone
    · rw [List.mem_cons, not_or] at hx
      exact (ihother x hx.2).trans (hother x hx.1)

/-- The removal of the unit of a level within the stack group (R387, R388). -/
theorem State.removeUnit_frame (gang core lvl : Nat) (hl : lvl < 3) : let t := s.removeUnit gang g core lvl true
    (∀ x ∈ unitStrands s gang g core lvl, t.strands.find? x = none) ∧
    (∀ x, x ∉ unitStrands s gang g core lvl → t.strands.find? x = s.strands.find? x) ∧ ∀ d, (t.die d).contLog = (s.die d).contLog := by
  intro t
  obtain ⟨hnone, hother, hdie⟩ := State.removeStrands_frame (s.modGang gang fun x => { x with ended := if lvl ≥ 3 then 2 else max x.ended 1 })
    (unitStrands s gang g core lvl)
  generalize hu : (unitStrands s gang g core lvl).foldl _ _ = u at hnone hother hdie
  have ht : t = u.pokeGang gang := by
    simp only [t, State.removeUnit, Bool.not_true, Bool.and_false, Bool.false_eq_true, if_false]
    rw [if_neg (by omega), if_neg (by omega), if_neg (by omega), hu]
  have hkeep (x : Nat) : t.strands.find? x = u.strands.find? x := by
    rw [ht]
    exact (u.spares_pokeGang (x + 1) gang).1 x (by omega)
  refine ⟨fun x hx => (hkeep x).trans (hnone x hx), fun x hx => (hkeep x).trans (hother x hx), fun d => ?_⟩
  rw [ht]
  exact ((u.spares_pokeGang g gang).2 d).trans (hdie d)

end Ends

end Sys2Proof.Machine
end

section
/-! Faults and returns (R50, R51, R98, R379 to R391): how a fault is taken, what containment decides on it, and the return from an upcall. -/

namespace Sys2Proof.Machine

/-! ### How a fault is taken (R50, R379 to R381) -/

/-- Halfwords that are no instruction take fault 0x01, or 0x04 for a system-only opcode in user mode (R51). -/
theorem exec_undefinedEncoding (s : State) : exec .undefinedEncoding s = .next (s.raise s.curId
    ⟨if s.arg.flag2 = true ∧ s.arg.n ≠ 0 ∧ s.cur.ident.system = false then .priv else .undef, s.cur.pc, s.arg.v⟩
    (if s.arg.n = 2 then 1 else if s.arg.n = 4 then 2 else 0)) := by
  have hc : (s.arg.flag2 && s.arg.n != 0 && !s.cur.ident.system) = true ↔ s.arg.flag2 = true ∧ s.arg.n ≠ 0 ∧ s.cur.ident.system = false := by
    simp [and_assoc]
  show execUndefinedEncoding s = _
  simp only [execUndefinedEncoding, hc, lenCode]

theorem Cause.code_lt (k : Cause) : k.code < 256 := by
  cases k <;> decide

/-- An upcall changes the strand alone: the saved registers and the program counter (R380). -/
theorem State.raise_upcall_effect {s : State} (f : FaultRec) (len : BitVec 2) (hu : s.cur.ctl.tcause.getLsbD 8 = false)
    (hv : s.cur.ctl.tvec ≠ 0) (hf : (s.home s.cur.core).frames = []) :
    let t := s.raise s.curId f len
    s.onlyCur t ∧ s.cur.keeps t.cur {} [] [] ∧ t.cur.pc = s.cur.ctl.tvec ∧ t.cur.wait = none ∧
      ∃ k, t.cur.ctl = { s.cur.ctl with tpc := s.cur.pc, taddr := f.addr, tinfo := f.info, tcause := k } ∧
        k.toNat = len.toNat * 2 ^ 9 + 2 ^ 8 + f.cause.code := by
  intro t
  have ht : t = s.setCur (s.cur.deliver f len) := (State.raise_upcall f len hu hv).trans (State.leaveSets_nil _ hf)
  rw [ht, State.cur_setCur]
  exact ⟨onlyCur_setCur s _, s.cur.keeps_deliver f len, rfl, rfl, _, rfl, tcauseOf_toNat len _ f.cause.code_lt⟩

/-- The strand waits for the decision on its fault (R388). -/
def Strand.undecided (c : Strand) (now : Nat) : Strand := { c with wait := some { kind := .event, since := now }, kept := none }

/-- On its way to containment a fault blocks its strand alone, and its decision is due at the end of the cycle (R381, R388). -/
theorem State.raise_contain_effect {s : State} (f : FaultRec) (len : BitVec 2) (h : s.cur.ctl.tcause.getLsbD 8 = true ∨ s.cur.ctl.tvec = 0)
    (hs : s.strands.find? s.curId = some s.cur) (hw : s.cur.wait = none) :
    let t := s.raise s.curId f len
    t = { s with strands := t.strands, cal := t.cal } ∧ (∀ x, x ≠ s.curId → t.strands.find? x = s.strands.find? x) ∧
      t.strands.find? s.curId = some { s.cur with wait := some { kind := .event, since := s.now }, kept := none } ∧
      ∃ d ∈ t.cal, d.time = s.now ∧ d.rank = rankDecide + s.cur.core * 32 + (s.cur.slot?).getD 16 ∧ d.ev = .containRetryResume ∧
        d.arg = { id := s.curId, idx := s.cur.ident.gang, sub := s.cur.core, n := f.cause.code, v := s.cur.pc, flag := true, flag2 := true } := by
  intro t
  have hundo : s.undoWait s.curId = s := by
    have hw' : (s.strand s.curId).wait = none := hw
    rw [State.undoWait, hw']
  have ht : t = (s.modStrand s.curId (·.undecided s.now)).at_ s.now
      (rankDecide + s.cur.core * 32 + (s.cur.slot?).getD 16) .containRetryResume
      { id := s.curId, idx := s.cur.ident.gang, sub := s.cur.core, n := f.cause.code, v := s.cur.pc, flag := true, flag2 := true } := by
    refine (State.raise_contain f len h).trans ?_
    simp only [State.toContain, if_true, hundo]
    rfl
  rw [ht]
  refine ⟨rfl, (s.spares_modStrand s.curId (·.undecided s.now)).1, ?_, _, mem_insertDue.mpr (.inl rfl), rfl, rfl, rfl, rfl⟩
  exact (Tbl.find?_modify_same s.strands s.curId (·.undecided s.now)).trans (by rw [hs]; rfl)

theorem faultsAreTaken : Spec.claimFaultsAreTaken := fun s f len =>
  ⟨exec_undefinedEncoding s, State.raise_upcall_effect f len, State.raise_contain_effect f len⟩

/-! ### What containment decides (R387 to R391) -/

section Consult
variable {pol : Nat → Nat} {retry : Nat → Bool}

theorem consult_retry (h : pol 0 = 1) (hr : retry 0 = true) : consult pol retry 0 6 = (0, 1) := by simp [consult, h, hr]

theorem consult_killSelf (h : pol 0 = 2) : consult pol retry 0 6 = (0, 2) := by simp [consult, h]

theorem consult_killParent (h : pol 0 = 3) : consult pol retry 0 6 = (0, 3) := by simp [consult, h]

end Consult

/-- Steps that each change the calendar alone change it alone together. -/
theorem State.foldl_cal {α : Type} (f : State → α → State) (h : ∀ (s : State) a, ∃ l, f s a = { s with cal := l }) (as : List α) (s : State) :
    ∃ l, as.foldl f s = { s with cal := l } := by
  induction as generalizing s with
  | nil => exact ⟨s.cal, rfl⟩
  | cons a as ih =>
    obtain ⟨m, hm⟩ := h s a
    rw [List.foldl_cons, hm]
    exact ih { s with cal := m }

theorem State.crossed_cal (s : State) (d sel o n : Nat) : ∃ l, s.crossed d sel o n = { s with cal := l } := by
  refine State.foldl_cal _ (fun t i => ?_) _ s
  dsimp only
  split <;> exact ⟨_, rfl⟩

theorem State.pokeGang_cal (s : State) (n : Nat) : ∃ l, s.pokeGang n = { s with cal := l } := by
  unfold State.pokeGang State.atOnce
  split
  · exact ⟨_, rfl⟩
  · split
    · exact ⟨_, rfl⟩
    · split
      · split <;> exact ⟨_, rfl⟩
      · exact ⟨_, rfl⟩

/-- A gang with strands that have not exited is not complete (R178). -/
theorem State.pokeGang_of_alive {s : State} {n : Nat} (h : ∀ y, s.gangs.find? n = some y → y.alive ≠ []) : s.pokeGang n = s := by
  unfold State.pokeGang
  split
  · rfl
  · next y hy =>
    have hq : s.gangQuiet n y = false := by simp [State.gangQuiet, h y hy]
    split
    · rfl
    · rw [hq, if_neg Bool.false_ne_true]

/-- The state in which level 0 acts: the die's registers have received the decision (R391). -/
def State.decided (s : State) (x : Gang) (g code act : Nat) (pc : Word) : State :=
  let s1 := s.modDie x.die fun d =>
    { d with
      clog0 := BitVec.ofNat 64 (code * 2 ^ 56 + 0 * 2 ^ 53 + act * 2 ^ 51 + g % 2 ^ 22 * 2 ^ 24 + x.node)
      clog1 := BitVec.ofNat 64 (pc.toNat % 2 ^ 48)
      ccnt := min (d.ccnt + 1) (2 ^ 32 - 1) }
  s1.crossed x.die 6 (s.die x.die).ccnt (s1.die x.die).ccnt

section Decided
variable (s : State) (x : Gang) (g code act : Nat) (pc : Word)

/-- The decision itself changes the die's registers, and enters the triggers that it fires. -/
theorem State.decided_frame : ∃ l v, s.decided x g code act pc = { s with dies := v, cal := l } := by
  obtain ⟨l, hl⟩ := State.crossed_cal (s.modDie x.die _) x.die 6 (s.die x.die).ccnt _
  exact ⟨l, _, hl⟩

theorem State.decided_contLog (hd : x.die < 4) : ((s.decided x g code act pc).die x.die).contLog =
    (BitVec.ofNat 64 (code * 2 ^ 56 + act * 2 ^ 51 + g % 2 ^ 22 * 2 ^ 24 + x.node), BitVec.ofNat 64 (pc.toNat % 2 ^ 48),
      min ((s.die x.die).ccnt + 1) (2 ^ 32 - 1)) := by
  unfold State.decided
  dsimp only
  obtain ⟨l, hl⟩ := State.crossed_cal (s.modDie x.die _) x.die 6 (s.die x.die).ccnt _
  rw [hl]
  refine (congrArg Die.contLog (State.die_setDie_same s _ hd)).trans ?_
  rw [Die.contLog, Nat.zero_mul, Nat.add_zero]

end Decided

/-- The strand waits to try again at `pc` (R387), where it has tried `n` times in a row. -/
def Strand.retrying (c : Strand) (now n : Nat) (pc : Word) : Strand :=
  { c with wait := some { kind := .retry (now + 4096), since := now }, retries := n + 1, retryPc := pc }

section Contain
variable {s : State} {x : Gang} {g gang core code : Nat} {pc : Word} (hx : s.gangs.find? gang = some x)
include hx

/-- RETRY at level 0 (R388). -/
theorem State.contain_retry (hp : x.rec_.policy 0 = 1) (hr : (if (s.strand g).retryPc = pc then (s.strand g).retries else 0) < 3) :
    s.contain g gang core code pc true = ((s.decided x g code 1 pc).modStrand g
      (·.retrying s.now (if (s.strand g).retryPc = pc then (s.strand g).retries else 0) pc)).at_ (s.now + 4096) rankFill .containRetryResume { id := g } := by
  unfold State.contain
  rw [hx]
  dsimp only
  rw [consult_retry hp (by simpa using hr)]
  rfl

/-- KILL_SELF there. -/
theorem State.contain_killSelf (hp : x.rec_.policy 0 = 2) :
    s.contain g gang core code pc true = (s.decided x g code 2 pc).removeUnit gang g core 0 true := by
  unfold State.contain
  rw [hx]
  dsimp only
  rw [consult_killSelf hp]
  rfl

/-- KILL_PARENT there. -/
theorem State.contain_killParent (hp : x.rec_.policy 0 = 3) :
    s.contain g gang core code pc true = (s.decided x g code 3 pc).removeUnit gang g core 1 true := by
  unfold State.contain
  rw [hx]
  dsimp only
  rw [consult_killParent hp]
  rfl

end Contain

/-- The registers of the gang's die say that level 0 decided on a fault of strand `g`, by `act` (R391). -/
def State.logged (s t : State) (x : Gang) (g code act : Nat) (pc : Word) : Prop :=
  (t.die x.die).clog0 = BitVec.ofNat 64 (code * 2 ^ 56 + act * 2 ^ 51 + g % 2 ^ 22 * 2 ^ 24 + x.node) ∧
  (t.die x.die).clog1 = BitVec.ofNat 64 (pc.toNat % 2 ^ 48) ∧ (t.die x.die).ccnt = min ((s.die x.die).ccnt + 1) (2 ^ 32 - 1)

theorem State.logged_of_contLog {s t : State} {x : Gang} {g code act : Nat} {pc : Word} (hd : x.die < 4)
    (h : (t.die x.die).contLog = ((s.decided x g code act pc).die x.die).contLog) : s.logged t x g code act pc := by
  obtain ⟨h0, h1⟩ := Prod.mk.inj (h.trans (s.decided_contLog x g code act pc hd))
  exact ⟨h0, Prod.mk.inj h1⟩

theorem State.strand_of_find? {s : State} {g : Nat} {c : Strand} (h : s.strands.find? g = some c) : s.strand g = c := by
  rw [State.strand, Tbl.getD, h, Option.getD_some]

/-- The strands of the unit of level 0 are the strand itself. -/
theorem mem_unitStrands_zero {s : State} {gang g core n : Nat} : n ∈ unitStrands s gang g core 0 ↔ n = g ∧ ∃ c, (g, c) ∈ s.strands := by
  simp only [unitStrands, List.mem_map, List.mem_filter, beq_iff_eq, Prod.exists, exists_and_right, exists_eq_right]
  constructor
  · rintro ⟨⟨c, hc⟩, rfl⟩
    exact ⟨rfl, c, hc⟩
  · rintro ⟨rfl, c, hc⟩
    exact ⟨⟨c, hc⟩, rfl⟩

theorem mem_unitStrands_one {s : State} {gang g core : Nat} {e : Nat × Strand} (he : e ∈ s.strands) (hg : e.2.ident.gang = gang)
    (hc : e.2.core = core) : e.1 ∈ unitStrands s gang g core 1 := by
  refine List.mem_map.mpr ⟨e, List.mem_filter.mpr ⟨he, ?_⟩, rfl⟩
  simp [hg, hc]

theorem exec_decision {s : State} (hf : s.arg.flag = true) (hf2 : s.arg.flag2 = true) :
    exec .containRetryResume s = .next (if (s.strands.find? s.arg.id).isNone then s.pokeGang s.arg.idx
      else s.contain s.arg.id s.arg.idx s.arg.sub s.arg.n s.arg.v true) := by
  show execContainRetryResume s = _
  simp only [execContainRetryResume, hf, hf2, if_true, Bool.true_and]
  split <;> rfl

theorem exec_decision_gone {s : State} (hf : s.arg.flag = true) (hf2 : s.arg.flag2 = true) (hn : s.strands.find? s.arg.id = none) :
    ∃ t, exec .containRetryResume s = .next t ∧ t = { s with cal := t.cal } ∧
      ((∀ y, s.gangs.find? s.arg.idx = some y → y.alive ≠ []) → t = s) := by
  obtain ⟨l, hl⟩ := s.pokeGang_cal s.arg.idx
  exact ⟨_, by rw [exec_decision hf hf2, hn]; rfl, by rw [hl], State.pokeGang_of_alive⟩

section Decisions
variable {s : State} {c : Strand} {x : Gang} (hf : s.arg.flag = true) (hf2 : s.arg.flag2 = true) (hc : s.strands.find? s.arg.id = some c)
  (hx : s.gangs.find? s.arg.idx = some x) (hd : x.die < 4)
include hf hf2 hc hx hd

omit hx hd in
theorem exec_decision_there :
    exec .containRetryResume s = .next (s.contain s.arg.id s.arg.idx s.arg.sub s.arg.n s.arg.v true) := by
  rw [exec_decision hf hf2, hc]
  rfl

/-- RETRY: the strand tries again after 4,096 cycles (R387). -/
theorem exec_decision_retry (hp : x.rec_.policy 0 = 1) (hr : c.retryPc = s.arg.v → c.retries < 3) :
    ∃ t, exec .containRetryResume s = .next t ∧ s.logged t x s.arg.id s.arg.n 1 s.arg.v ∧ t.mem = s.mem ∧ t.cores = s.cores ∧
      (∀ n, n ≠ s.arg.id → t.strands.find? n = s.strands.find? n) ∧
      t.strands.find? s.arg.id = some (c.retrying s.now (if c.retryPc = s.arg.v then c.retries else 0) s.arg.v) ∧
      (⟨s.now + 4096, rankFill, .containRetryResume, { id := s.arg.id }⟩ : Due) ∈ t.cal := by
  have hstr := State.strand_of_find? hc
  have hr' : (if (s.strand s.arg.id).retryPc = s.arg.v then (s.strand s.arg.id).retries else 0) < 3 := by
    rw [hstr]
    split
    · next h => exact hr h
    · omega
  refine ⟨_, by rw [exec_decision_there hf hf2 hc, State.contain_retry hx hp hr', hstr], ?_⟩
  generalize (if c.retryPc = s.arg.v then c.retries else 0) = n
  have hlog : s.logged (((s.decided x s.arg.id s.arg.n 1 s.arg.v).modStrand s.arg.id (·.retrying s.now n s.arg.v)).at_ (s.now + 4096) rankFill
      .containRetryResume { id := s.arg.id }) x s.arg.id s.arg.n 1 s.arg.v := State.logged_of_contLog hd rfl
  obtain ⟨l, v, hdec⟩ := s.decided_frame x s.arg.id s.arg.n 1 s.arg.v
  rw [hdec] at hlog ⊢
  refine ⟨hlog, rfl, rfl, (s.spares_modStrand s.arg.id (·.retrying s.now n s.arg.v)).1, ?_, mem_insertDue.mpr (.inl rfl)⟩
  exact (Tbl.find?_modify_same s.strands s.arg.id (·.retrying s.now n s.arg.v)).trans (by rw [hc]; rfl)

omit hx in
/-- What the removal of a unit does that level 0 decides on. -/
theorem exec_decision_remove {act lvl : Nat} (hl : lvl < 3) (hcont : s.contain s.arg.id s.arg.idx s.arg.sub s.arg.n s.arg.v true =
      (s.decided x s.arg.id s.arg.n act s.arg.v).removeUnit s.arg.idx s.arg.id s.arg.sub lvl true) :
    ∃ t, exec .containRetryResume s = .next t ∧ s.logged t x s.arg.id s.arg.n act s.arg.v ∧ t.mem = s.mem ∧
      (∀ n ∈ unitStrands s s.arg.idx s.arg.id s.arg.sub lvl, t.strands.find? n = none) ∧
      ∀ n, n ∉ unitStrands s s.arg.idx s.arg.id s.arg.sub lvl → t.strands.find? n = s.strands.find? n := by
  have hexec := exec_decision_there hf hf2 hc
  obtain ⟨hmem, -⟩ := s.sameMem_contain s.arg.id s.arg.idx s.arg.sub s.arg.n s.arg.v true
  obtain ⟨hnone, hother, hdie⟩ := (s.decided x s.arg.id s.arg.n act s.arg.v).removeUnit_frame s.arg.id s.arg.idx s.arg.sub lvl hl
  have hlog := State.logged_of_contLog hd (hdie x.die)
  obtain ⟨l, v, hdec⟩ := s.decided_frame x s.arg.id s.arg.n act s.arg.v
  rw [← hcont] at hnone hother hlog
  rw [hdec] at hnone hother
  exact ⟨_, hexec, hlog, hmem, hnone, hother⟩

end Decisions

theorem containmentDecides : Spec.claimContainmentDecides := by
  intro s c x a hf hf2
  refine ⟨exec_decision_gone hf hf2, fun hc hx hd => ⟨exec_decision_retry hf hf2 hc hx hd, fun hp _ => ?_, fun hp => ?_⟩⟩
  · obtain ⟨t, he, hlog, hmem, hnone, hother⟩ := exec_decision_remove hf hf2 hc hd (by omega) (State.contain_killSelf hx hp)
    exact ⟨t, he, hlog, hmem, hnone _ (mem_unitStrands_zero.mpr ⟨rfl, c, Tbl.mem_of_find? _ _ _ hc⟩),
      fun n hn => hother n fun h => hn (mem_unitStrands_zero.mp h).1⟩
  · obtain ⟨t, he, hlog, hmem, hnone, -⟩ := exec_decision_remove hf hf2 hc hd (by omega) (State.contain_killParent hx hp)
    exact ⟨t, he, hlog, hmem, fun e he hg hcore => hnone _ (mem_unitStrands_one he hg hcore)⟩

/-! ### `TRAP` and the return from an upcall (R98, R382) -/

theorem exec_trap (s : State) (n : BitVec 15) : exec (.trap n) s = .next (s.raise s.curId ⟨.trap, 0, BitVec.ofNat 64 n.toNat⟩ 2) := by
  rw [BitVec.ofNat_toNat]
  rfl

/-- Where a return goes on (R382). -/
theorem Strand.upret_pc (c : Strand) (skip : Bool) : (c.upret skip).pc = c.ctl.tpc + (match c.ctl.tcause.toNat / 2 ^ 9 with
    | 1 => BitVec.ofNat 64 (if skip then 2 else 0) | 2 => BitVec.ofNat 64 (if skip then 4 else 0) | _ => 0) := by
  show (if skip && c.tlen == 1 then c.ctl.tpc + 2 else if skip && c.tlen == 2 then c.ctl.tpc + 4 else c.ctl.tpc) = _
  rw [← Strand.tlen]
  generalize c.tlen = n
  rcases n with _ | _ | _ | n <;> cases skip <;> simp

/-- It clears UP, and no other bit of `ctl.tcause`. -/
theorem Strand.upret_ctl (c : Strand) (skip : Bool) : ∃ k, (c.upret skip).ctl = { c.ctl with tcause := k } ∧
    ∀ i < 11, k.getLsbD i = if i = 8 then false else c.ctl.tcause.getLsbD i := by
  refine ⟨_, rfl, fun i hi => ?_⟩
  have hmask : ∀ i < 11, (~~~(0x100 : BitVec 11)).getLsbD i = !decide (i = 8) := by decide
  rw [BitVec.getLsbD_and, hmask i hi]
  split
  · next h => simp [h]
  · next h => simp [h]

theorem upretWith_up {s : State} (skip : Bool) (h : Half) (hu : s.cur.ctl.tcause.getLsbD 8 = true) :
    upretWith skip h s = .next (s.setCur (s.cur.upret skip)) :=
  runStrand_ok (if_pos hu)

theorem upretWith_down {s : State} (skip : Bool) (h : Half) (hu : s.cur.ctl.tcause.getLsbD 8 = false) :
    upretWith skip h s = .next (s.raise s.curId ⟨.undef, s.cur.pc, encInfo [h]⟩ 1) := by
  have hup : ¬ s.cur.up = true := by rw [Strand.up, hu]; exact Bool.false_ne_true
  unfold upretWith
  refine runStrand_error (e := .fault ⟨.undef, s.cur.pc, encInfo [h]⟩) ?_
  exact if_neg hup

/-- What a return leaves of the machine: all but the strand's `ctl.tcause` and its program counter. -/
theorem upret_effect (s : State) (skip : Bool) : let t := s.setCur (s.cur.upret skip)
    s.onlyCur t ∧ s.cur.keeps t.cur {} [] [] ∧
      (∃ k, t.cur.ctl = { s.cur.ctl with tcause := k } ∧ ∀ i < 11, k.getLsbD i = if i = 8 then false else s.cur.ctl.tcause.getLsbD i) ∧
      t.cur.pc = s.cur.ctl.tpc + (match s.cur.ctl.tcause.toNat / 2 ^ 9 with
        | 1 => BitVec.ofNat 64 (if skip then 2 else 0) | 2 => BitVec.ofNat 64 (if skip then 4 else 0) | _ => 0) ∧ t.cur.wait = none := by
  intro t
  simp only [t, State.cur_setCur]
  exact ⟨onlyCur_setCur s _, s.cur.keeps_upret skip, s.cur.upret_ctl skip, s.cur.upret_pc skip, rfl⟩

theorem trapAndUpcallReturn : Spec.claimTrapAndUpcallReturn := by
  intro s
  refine ⟨exec_trap s, fun hu => ?_, fun hu => ⟨upretWith_down false 0x7D00 hu, upretWith_down true 0x7D01 hu⟩⟩
  simp only [List.forall_mem_cons, List.not_mem_nil, false_imp_iff, implies_true, and_true]
  exact ⟨⟨_, upretWith_up false 0x7D00 hu, upret_effect s false⟩, ⟨_, upretWith_up true 0x7D01 hu, upret_effect s true⟩⟩

/-- Settles O60: a fault is taken as `State.raise` says in its two cases, a decision of containment is what level 0 answers, and the return
from an upcall is `Strand.upret`. -/
theorem faultsAndReturns : Obligations.FaultsAndReturns := ⟨faultsAreTaken, containmentDecides, trapAndUpcallReturn⟩

end Sys2Proof.Machine
end

section
/-! The one rounding of R61 on magnitudes: which integer a mode names for a real number, and that `roundTo` finds it. -/

namespace Sys2Proof.Machine

/-- Whether a mode rounds a magnitude with this sign away from zero. -/
def RM.away (rm : RM) (neg : Bool) : Bool :=
  match rm with
  | .rdn => neg
  | .rup => !neg
  | _ => false

/-- `n` is the integer that the mode names for the magnitude `x`: the nearest, of two the even one, or the next in the mode's direction. -/
def RM.names (rm : RM) (neg : Bool) (x : ℝ) (n : ℕ) : Prop :=
  if rm = .rne then 2 * (n : ℝ) - 1 ≤ 2 * x ∧ 2 * x ≤ 2 * n + 1 ∧ (n % 2 = 1 → 2 * (n : ℝ) - 1 < 2 * x ∧ 2 * x < 2 * n + 1)
  else if rm.away neg then (n : ℝ) - 1 < x ∧ x ≤ n else (n : ℝ) ≤ x ∧ x < n + 1

theorem RM.names_self (rm : RM) (neg : Bool) (n : ℕ) : rm.names neg n n := by
  unfold RM.names
  split
  · refine ⟨by linarith, by linarith, fun _ => ⟨by linarith, by linarith⟩⟩
  · split <;> constructor <;> linarith

/-- The integer that the mode names for `x` is at most `k`. -/
def RM.upTo (rm : RM) (neg : Bool) (x : ℝ) (k : ℕ) : Prop :=
  if rm = .rne then 2 * x < 2 * k + 1 ∨ 2 * x = 2 * k + 1 ∧ k % 2 = 0 else if rm.away neg then x ≤ k else x < k + 1

theorem RM.upTo_of_le (rm : RM) (neg : Bool) {x : ℝ} {k : ℕ} (h : x ≤ k) : rm.upTo neg x k := by
  unfold RM.upTo
  split
  · exact .inl (by linarith)
  · split <;> linarith

theorem RM.not_upTo_of_ge (rm : RM) (neg : Bool) {x : ℝ} {k : ℕ} (h : (k : ℝ) + 1 ≤ x) : ¬rm.upTo neg x k := by
  unfold RM.upTo
  split
  · rintro (h | h) <;> linarith
  · split <;> linarith

theorem RM.names_le_iff {rm : RM} {neg : Bool} {x : ℝ} {n : ℕ} (h : rm.names neg x n) (k : ℕ) : n ≤ k ↔ rm.upTo neg x k := by
  have up (hk : k < n) : (k : ℝ) + 1 ≤ n := by exact_mod_cast hk
  have down (hk : n ≤ k) : (n : ℝ) ≤ k := by exact_mod_cast hk
  unfold RM.upTo
  unfold RM.names at h
  split at h
  · obtain ⟨h1, h2, h3⟩ := h
    rw [if_pos ‹_›]
    constructor
    · intro hk
      rcases hk.lt_or_eq with hk | rfl
      · have : (n : ℝ) + 1 ≤ k := by exact_mod_cast hk
        exact .inl (by linarith)
      · rcases h2.lt_or_eq with h2 | h2
        · exact .inl h2
        · refine .inr ⟨h2, ?_⟩
          by_contra ho
          exact absurd (h3 (by omega)).2 (by linarith)
    · intro hk
      by_contra hn
      have hn := not_le.mp hn
      have := up hn
      rcases hk with hk | ⟨hk, he⟩
      · linarith
      · have e : (n : ℝ) = k + 1 := by linarith
        have e : n = k + 1 := by exact_mod_cast e
        have := (h3 (by omega)).1
        linarith
  · rw [if_neg ‹_›]
    split at h
    · rw [if_pos ‹_›]
      refine ⟨fun hk => h.2.trans (down hk), fun hk => ?_⟩
      by_contra hn
      have := up (not_le.mp hn)
      linarith [h.1]
    · rw [if_neg ‹_›]
      refine ⟨fun hk => h.2.trans_le (by linarith [down hk]), fun hk => ?_⟩
      by_contra hn
      have := up (not_le.mp hn)
      linarith [h.1]

theorem RM.names_le {rm : RM} {neg : Bool} {x : ℝ} {n k : ℕ} (h : rm.names neg x n) (hx : x ≤ k) : n ≤ k :=
  (RM.names_le_iff h k).mpr (rm.upTo_of_le neg hx)

theorem RM.le_names {rm : RM} {neg : Bool} {x : ℝ} {n k : ℕ} (h : rm.names neg x n) (hx : (k : ℝ) ≤ x) : k ≤ n := by
  cases k with
  | zero => exact n.zero_le
  | succ k => exact not_le.mp fun hn => rm.not_upTo_of_ge neg (by exact_mod_cast hx) ((RM.names_le_iff h k).mp hn)

/-- Numbers between which no multiple of one half lies are rounded alike. -/
theorem RM.names_congr {rm : RM} {neg : Bool} {x y : ℝ} {n : ℕ} (hx : 0 < x) (hy : 0 < y)
    (h : ∀ k : ℕ, 0 < k → ((k : ℝ) ≤ 2 * x ↔ (k : ℝ) ≤ 2 * y) ∧ (2 * x ≤ k ↔ 2 * y ≤ k)) (hn : rm.names neg x n) : rm.names neg y n := by
  have low (a : ℤ) : ((a : ℝ) ≤ 2 * x → (a : ℝ) ≤ 2 * y) ∧ ((a : ℝ) < 2 * x → 0 < a → (a : ℝ) < 2 * y) := by
    rcases le_or_gt a 0 with ha | ha
    · have : (a : ℝ) ≤ 0 := by exact_mod_cast ha
      exact ⟨fun _ => by linarith, fun _ h => absurd h (not_lt.mpr ha)⟩
    · lift a to ℕ using ha.le
      have := h a (by exact_mod_cast ha)
      simp only [Int.cast_natCast]
      exact ⟨this.1.mp, fun hl _ => not_le.mp fun hg => absurd (this.2.mpr hg) (not_le.mpr hl)⟩
  have high (a : ℤ) (ha : 0 < a) : (2 * x ≤ a → 2 * y ≤ a) ∧ (2 * x < a → 2 * y < a) := by
    lift a to ℕ using ha.le
    have := h a (by exact_mod_cast ha)
    simp only [Int.cast_natCast]
    exact ⟨this.2.mp, fun hl => not_le.mp fun hg => absurd (this.1.mpr hg) (not_le.mpr hl)⟩
  have l1 := low (2 * n - 1)
  have l2 := low (2 * n)
  have l3 := low (2 * n - 2)
  have h1 := high (2 * n + 1) (by omega)
  have h2 := high (2 * n + 2) (by omega)
  push_cast at l1 l2 l3 h1 h2
  unfold RM.names at hn ⊢
  split at hn
  · rw [if_pos ‹_›]
    refine ⟨l1.1 hn.1, h1.1 hn.2.1, fun ho => ⟨l1.2 (hn.2.2 ho).1 (by omega), h1.2 (hn.2.2 ho).2⟩⟩
  · rw [if_neg ‹_›]
    split at hn
    · rw [if_pos ‹_›]
      have hp : 0 < n := by
        rcases Nat.eq_zero_or_pos n with rfl | hp
        · exact absurd hn.2 (by simpa using hx)
        · exact hp
      have h3 := high (2 * n) (by omega)
      push_cast at h3
      refine ⟨?_, by linarith [h3.1 (by linarith [hn.2])]⟩
      rcases Nat.lt_or_ge 1 n with h1 | h1
      · linarith [l3.2 (by linarith [hn.1]) (by omega)]
      · have : (n : ℝ) ≤ 1 := by exact_mod_cast h1
        linarith
    · rw [if_neg ‹_›]
      exact ⟨by linarith [l2.1 (by linarith [hn.1])], by linarith [h2.2 (by linarith [hn.2])]⟩

/-- A number with the whole part `n` and a fraction is rounded to `n + 1` or to `n`, as the mode and the fraction say. -/
theorem RM.names_of_fraction {rm : RM} {neg up : Bool} {f : ℝ} (h0 : 0 < f) (h1 : f < 1) (n : ℕ)
    (hup : up = true ↔ if rm = .rne then 1 < 2 * f ∨ 1 = 2 * f ∧ n % 2 = 1 else rm.away neg = true) :
    rm.names neg (n + f) (if up then n + 1 else n) ∧ (n : ℝ) + f ≠ (if up then n + 1 else n : ℕ) := by
  unfold RM.names
  cases up
  · simp only [Bool.false_eq_true, false_iff, if_false] at hup ⊢
    refine ⟨?_, by linarith⟩
    split
    · rw [if_pos ‹_›, not_or, not_lt] at hup
      refine ⟨by linarith, by linarith, fun ho => ⟨by linarith, ?_⟩⟩
      have := lt_of_le_of_ne hup.1 fun h => hup.2 ⟨h.symm, ho⟩
      linarith
    · rw [if_neg ‹_›] at hup
      rw [if_neg hup]
      constructor <;> linarith
  · simp only [true_iff, if_true] at hup ⊢
    push_cast
    refine ⟨?_, by linarith⟩
    split
    · rw [if_pos ‹_›] at hup
      rcases hup with h | ⟨h, ho⟩
      · exact ⟨by linarith, by linarith, fun _ => ⟨by linarith, by linarith⟩⟩
      · exact ⟨by linarith, by linarith, fun _ => by omega⟩
    · rw [if_neg ‹_›] at hup
      rw [if_pos hup]
      constructor <;> linarith

/-- `roundTo` names the multiple of `2^q` for `m × 2^e`, and tells whether it is another number. -/
theorem roundTo_names (rm : RM) (neg : Bool) (m : ℕ) (e q : ℤ) :
    rm.names neg (m * 2 ^ (e - q)) (roundTo rm neg m e q).1 ∧
      ((roundTo rm neg m e q).2 = true ↔ (m : ℝ) * 2 ^ (e - q) ≠ (roundTo rm neg m e q).1) := by
  by_cases hq : q ≤ e
  · have e1 : (m : ℝ) * 2 ^ (e - q) = ((m * 2 ^ (e - q).toNat : ℕ) : ℝ) := by
      push_cast
      rw [← zpow_natCast, Int.toNat_of_nonneg (by omega)]
    rw [roundTo, if_pos hq, e1]
    exact ⟨rm.names_self neg _, by simp⟩
  · obtain ⟨s, hs⟩ : ∃ s : ℕ, q - e = s := ⟨(q - e).toNat, by omega⟩
    have hp : (0 : ℝ) < 2 ^ s := by positivity
    have e1 : (m : ℝ) * 2 ^ (e - q) = (m / 2 ^ s : ℕ) + ((m % 2 ^ s : ℕ) : ℝ) / 2 ^ s := by
      have hm : ((2 ^ s * (m / 2 ^ s) + m % 2 ^ s : ℕ) : ℝ) = m := by rw [Nat.div_add_mod]
      rw [show e - q = -(s : ℤ) by omega, zpow_neg, zpow_natCast]
      push_cast at hm
      field_simp
      linarith
    have hr : ((m % 2 ^ s : ℕ) : ℝ) < 2 ^ s := by exact_mod_cast Nat.mod_lt m (by positivity)
    rw [roundTo, if_neg hq, e1]
    simp only [hs, Int.toNat_natCast]
    generalize m / 2 ^ s = n at *
    generalize m % 2 ^ s = r at *
    by_cases h0 : r = 0
    · simp [h0, rm.names_self neg]
    · have hf0 : 0 < (r : ℝ) / 2 ^ s := div_pos (by exact_mod_cast Nat.pos_of_ne_zero h0) hp
      have hf1 : (r : ℝ) / 2 ^ s < 1 := (div_lt_one hp).mpr hr
      have half_lt : 2 ^ s < 2 * r ↔ 1 < 2 * ((r : ℝ) / 2 ^ s) := by
        rw [← mul_div_assoc, one_lt_div hp]; exact_mod_cast Iff.rfl
      have half_eq : 2 ^ s = 2 * r ↔ 1 = 2 * ((r : ℝ) / 2 ^ s) := by
        rw [← mul_div_assoc, eq_div_iff hp.ne', one_mul]; exact_mod_cast Iff.rfl
      rw [if_neg h0]
      generalize (r : ℝ) / 2 ^ s = f at *
      have h := RM.names_of_fraction (rm := rm) (neg := neg) (up := match rm with
        | .rne => decide (2 ^ s < 2 * r) || (2 ^ s == 2 * r && n % 2 == 1)
        | .rtz => false
        | .rdn => neg
        | .rup => !neg) hf0 hf1 n (by cases rm <;> simp [RM.away, half_lt, half_eq])
      exact ⟨h.1, iff_of_true rfl h.2⟩

end Sys2Proof.Machine
end

section
/-! The numbers of a format (R56): what the fields of a pattern are, and which multiples of a power of two a format has. -/

namespace Sys2Proof.Machine

/-! ### Fields -/

theorem FF.pack_eq (f : FF) (neg : Bool) (x t : ℕ) : f.pack neg x t = (if neg then 1 else 0) * (2 ^ f.eb * 2 ^ f.fb) + x * 2 ^ f.fb + t := by
  cases neg <;> simp [FF.pack, pow_add]

section
variable (f : FF) (neg : Bool) {x t : ℕ} (hx : x < 2 ^ f.eb) (ht : t < 2 ^ f.fb)
include ht

theorem FF.pack_mod : f.pack neg x t % 2 ^ f.fb = t := by
  rw [FF.pack_eq, show ∀ a b c p q : ℕ, a * (p * q) + b * q + c = c + q * (a * p + b) by intros; ring, Nat.add_mul_mod_self_left,
    Nat.mod_eq_of_lt ht]

theorem FF.pack_div : f.pack neg x t / 2 ^ f.fb = (if neg then 1 else 0) * 2 ^ f.eb + x := by
  rw [FF.pack_eq, show ∀ a b c p q : ℕ, a * (p * q) + b * q + c = c + q * (a * p + b) by intros; ring, Nat.add_mul_div_left _ _ (by positivity),
    Nat.div_eq_of_lt ht, zero_add]

include hx

theorem FF.pack_exp : f.pack neg x t / 2 ^ f.fb % 2 ^ f.eb = x := by
  rw [f.pack_div neg ht, Nat.mul_add_mod_self_right, Nat.mod_eq_of_lt hx]

theorem FF.pack_sign : f.pack neg x t / 2 ^ (f.eb + f.fb) % 2 = if neg then 1 else 0 := by
  rw [add_comm f.eb, pow_add, ← Nat.div_div_eq_div_mul, f.pack_div neg ht, add_comm, Nat.add_mul_div_right _ _ (by positivity),
    Nat.div_eq_of_lt hx]
  cases neg <;> rfl

end

/-! ### Numbers -/

/-- `n` units of `2^q` is a number of the precision and the least exponent of the format: its first bit is 1, or `2^q` is the format's
least unit. -/
structure FF.Fits (f : FF) (n : ℕ) (q : ℤ) : Prop where
  lt : n < 2 ^ (f.fb + 1)
  low : f.emin - f.fb ≤ q
  norm : q = f.emin - f.fb ∨ 2 ^ f.fb ≤ n

/-- It is no greater than the largest finite number. -/
def FF.Within (f : FF) (n : ℕ) (q : ℤ) : Prop := ¬(f.emax - f.fb < q ∨ f.emax - f.fb = q ∧ f.maxSig < n)

/-- The magnitude field of a number of the format. -/
def FF.magOf (f : FF) (n : ℕ) (q : ℤ) : ℕ := (if n < 2 ^ f.fb then 0 else (q + f.fb + f.bias).toNat) * 2 ^ f.fb + n % 2 ^ f.fb

/-- What a pattern is read as, when it is a number. -/
theorem FF.value_fits {f : FF} {c : ℕ} {v : ℚ} (h : Spec.value f c = some v) : ∃ (n : ℕ) (q : ℤ), f.Fits n q ∧ f.Within n q ∧
    v = (if c / 2 ^ (f.eb + f.fb) % 2 = 1 then -1 else 1) * n * 2 ^ q := by
  have ht : c % 2 ^ f.fb < 2 ^ f.fb := Nat.mod_lt _ (by positivity)
  have hx : c / 2 ^ f.fb % 2 ^ f.eb < 2 ^ f.eb := Nat.mod_lt _ (by positivity)
  unfold Spec.value at h
  generalize c % 2 ^ f.fb = t at *
  generalize c / 2 ^ f.fb % 2 ^ f.eb = x at *
  dsimp only at h
  split at h
  · exact absurd h (by simp)
  · next hf =>
    split at h
    · refine ⟨t, _, ⟨by rw [pow_succ]; omega, le_rfl, .inl rfl⟩, ?_, (Option.some.inj h).symm⟩
      cases f <;> simp [FF.Within, FF.emax, FF.emin, FF.bias, FF.fb, FF.eb, FF.hasInf]
    · refine ⟨2 ^ f.fb + t, x - f.bias - f.fb, ⟨by rw [pow_succ]; omega, by rw [FF.emin]; omega, .inr (by omega)⟩, ?_,
        (Option.some.inj h).symm⟩
      cases f <;> simp [FF.Within, FF.emax, FF.emin, FF.bias, FF.fb, FF.eb, FF.hasInf, FF.maxSig] at * <;> omega

variable {f : FF} {n : ℕ} {q : ℤ}

theorem FF.magOf_mod_two (f : FF) (n : ℕ) (q : ℤ) : f.magOf n q % 2 = n % 2 := by
  have : 2 ^ f.fb = 2 * 2 ^ (f.fb - 1) := by cases f <;> rfl
  unfold FF.magOf
  rw [this]
  generalize 2 ^ (f.fb - 1) = p
  rw [mul_left_comm, Nat.mul_add_mod, Nat.mod_mul_right_mod]


theorem FF.magOf_of_lt (h : n < 2 ^ f.fb) : f.magOf n q = n := by
  rw [FF.magOf, if_pos h, zero_mul, zero_add, Nat.mod_eq_of_lt h]

theorem FF.Fits.exp_pos (h : f.Fits n q) : 0 < (q + f.fb + f.bias).toNat := by
  have := h.low
  simp only [FF.emin] at this
  omega

theorem FF.Fits.magOf_lt_iff (h : f.Fits n q) : f.magOf n q < 2 ^ f.fb ↔ n < 2 ^ f.fb := by
  refine ⟨fun hm => ?_, fun hn => by rwa [FF.magOf_of_lt hn]⟩
  by_contra hn
  rw [FF.magOf, if_neg hn] at hm
  have := Nat.le_mul_of_pos_left (2 ^ f.fb) h.exp_pos
  omega

/-- The exponent field of a number within the format. -/
theorem FF.Fits.exp_lt (h : f.Fits n q) (hw : f.Within n q) : (if n < 2 ^ f.fb then 0 else (q + f.fb + f.bias).toNat) < 2 ^ f.eb := by
  have := h.low
  split
  · positivity
  · cases f <;> simp [FF.Within, FF.emin, FF.emax, FF.bias, FF.fb, FF.eb, FF.hasInf] at * <;> omega

theorem FF.Fits.magOf_lt (h : f.Fits n q) (hw : f.Within n q) : f.magOf n q < 2 ^ (f.eb + f.fb) := by
  have hx := h.exp_lt hw
  have ht : n % 2 ^ f.fb < 2 ^ f.fb := Nat.mod_lt _ (by positivity)
  rw [FF.magOf, pow_add]
  calc _ < _ * 2 ^ f.fb + 2 ^ f.fb := Nat.add_lt_add_left ht _
    _ = (_ + 1) * 2 ^ f.fb := (Nat.succ_mul _ _).symm
    _ ≤ _ := Nat.mul_le_mul_right _ hx

/-- The pattern of a sign and a number within the format is read as that number. -/
theorem FF.Fits.value_magOf (h : f.Fits n q) (hw : f.Within n q) (neg : Bool) :
    Spec.value f ((if neg then 2 ^ (f.eb + f.fb) else 0) + f.magOf n q) = some ((if neg then (-1 : ℚ) else 1) * n * 2 ^ q) := by
  have hx := h.exp_lt hw
  have ht : n % 2 ^ f.fb < 2 ^ f.fb := Nat.mod_lt _ (by positivity)
  have hp : (if neg then 2 ^ (f.eb + f.fb) else 0) + f.magOf n q = f.pack neg (if n < 2 ^ f.fb then 0 else (q + f.fb + f.bias).toNat) (n % 2 ^ f.fb) := by
    rw [FF.pack, FF.magOf, ← add_assoc]
  have hs : (if (if neg then 1 else 0) = 1 then (-1 : ℚ) else 1) = if neg then -1 else 1 := by cases neg <;> rfl
  rw [hp, Spec.value]
  simp only [f.pack_exp neg hx ht, f.pack_mod neg ht, f.pack_sign neg hx ht, hs]
  have hlt := h.lt
  have hlow := h.low
  by_cases hn : n < 2 ^ f.fb
  · have hq : q = f.emin - f.fb := h.norm.resolve_right (by omega)
    rw [if_neg, if_pos (if_pos hn), Nat.mod_eq_of_lt hn, hq, FF.emin]
    rw [if_pos hn]
    cases f <;> simp [FF.eb, FF.hasInf]
  · have hm : 2 ^ f.fb + n % 2 ^ f.fb = n := by
      rw [pow_succ] at hlt
      rw [Nat.mod_eq_sub_mod (by omega), Nat.mod_eq_of_lt (by omega)]
      omega
    have hpos := h.exp_pos
    rw [if_neg hn] at hx ⊢
    rw [if_neg, if_neg hpos.ne', hm]
    · rw [show ((q + f.fb + f.bias).toNat : ℤ) - f.bias - f.fb = q by omega]
    · simp only [FF.Within] at hw
      cases f <;> simp [FF.emax, FF.emin, FF.bias, FF.fb, FF.eb, FF.hasInf, FF.maxSig] at * <;> omega

end Sys2Proof.Machine
end

section
/-! The rounding of R61 and R66 into a format: `FF.round` gives what `Spec.rounds` says, of the number that it is given and of any other that no
number on which a rounding turns separates from it. -/

namespace Sys2Proof.Machine

/-- No number on which a rounding into the format turns lies between the magnitudes `a` and `b`: such a number has at most two bits more than
the format's precision, in units of a quarter of the format's least, and lies within twice the format's greatest power of two. -/
def FF.Alike (f : FF) (a b : ℝ) : Prop :=
  ∀ (n : ℕ) (k : ℤ), 0 < n → n ≤ 2 ^ (f.fb + 2) → f.emin - f.fb - 2 ≤ k → (n : ℝ) * 2 ^ k ≤ 2 ^ (f.emax + 1) →
    ((n : ℝ) * 2 ^ k ≤ a ↔ (n : ℝ) * 2 ^ k ≤ b) ∧ (a ≤ n * 2 ^ k ↔ b ≤ n * 2 ^ k)

theorem FF.Alike.refl (f : FF) (a : ℝ) : f.Alike a a := fun _ _ _ _ _ _ => ⟨Iff.rfl, Iff.rfl⟩

/-! ### Numerals of the formats -/

theorem FF.fb_pos (f : FF) : 0 < f.fb := by cases f <;> decide

theorem FF.emin_lt_emax (f : FF) : f.emin < f.emax := by cases f <;> decide

theorem FF.maxSig_bounds (f : FF) : 2 ^ f.fb ≤ f.maxSig ∧ f.maxSig + 1 ≤ 2 ^ (f.fb + 1) := by cases f <;> decide

theorem FF.maxSig_mod_two (f : FF) : f.maxSig % 2 = 0 ↔ f = .e4m3 := by cases f <;> decide

theorem FF.within_iff_of_lt {f : FF} {n : ℕ} {q : ℤ} (hq : q < f.emax - f.fb) : f.Within n q := by
  simp only [FF.Within]; omega

theorem two_zpow_pos (k : ℤ) : (0 : ℝ) < 2 ^ k := by positivity

theorem zpow_le_of_le {k l : ℤ} (h : k ≤ l) : (2 : ℝ) ^ k ≤ 2 ^ l := zpow_le_zpow_right₀ (by norm_num) h

theorem natCast_two_pow_mul_zpow (n : ℕ) (k : ℤ) : ((2 ^ n : ℕ) : ℝ) * 2 ^ k = 2 ^ (k + n) := by
  rw [zpow_add₀ two_ne_zero, zpow_natCast, mul_comm]
  push_cast
  rfl

/-! ### The carry into the next power of two -/

/-- A significand that rounding has brought to the next power of two is written in units twice as great. -/
def FF.carry (f : FF) (n : ℕ) (q : ℤ) : ℕ × ℤ := if n = 2 ^ (f.fb + 1) then (2 ^ f.fb, q + 1) else (n, q)

section
variable {f : FF} {n : ℕ} {q : ℤ}

theorem FF.carry_value (f : FF) (n : ℕ) (q : ℤ) : ((f.carry n q).1 : ℝ) * 2 ^ (f.carry n q).2 = n * 2 ^ q := by
  unfold FF.carry
  split
  · next h =>
    rw [h, natCast_two_pow_mul_zpow, natCast_two_pow_mul_zpow]
    congr 1
    push_cast
    ring
  · rfl

theorem FF.carry_fits (h : n ≤ 2 ^ (f.fb + 1)) (hl : f.emin - f.fb ≤ q) (hn : q = f.emin - f.fb ∨ 2 ^ f.fb ≤ n) :
    f.Fits (f.carry n q).1 (f.carry n q).2 := by
  unfold FF.carry
  split
  · exact ⟨Nat.pow_lt_pow_right one_lt_two (Nat.lt_succ_self _), by simp only; omega, .inr le_rfl⟩
  · exact ⟨lt_of_le_of_ne h ‹_›, hl, hn⟩

theorem FF.carry_mod_two (f : FF) (n : ℕ) (q : ℤ) : (f.carry n q).1 % 2 = n % 2 := by
  unfold FF.carry
  split
  · next h =>
    subst h
    cases f <;> simp only [FF.fb] <;> rfl
  · rfl

theorem FF.carry_within_of_lt (hq : q < f.emax - f.fb) : f.Within (f.carry n q).1 (f.carry n q).2 := by
  have := f.maxSig_bounds.1
  unfold FF.carry FF.Within
  split <;> simp only <;> omega

theorem FF.carry_within_iff (hq : q = f.emax - f.fb) : f.Within (f.carry n q).1 (f.carry n q).2 ↔ n ≤ f.maxSig := by
  have := f.maxSig_bounds.2
  unfold FF.carry FF.Within
  split <;> simp only <;> omega

theorem FF.not_carry_within_of_gt (hq : f.emax - f.fb < q) : ¬f.Within (f.carry n q).1 (f.carry n q).2 := by
  unfold FF.carry FF.Within
  split <;> simp only <;> omega

end

/-! ### What `FF.round` computes -/

/-- The exponent of the unit to which `m × 2^e` is rounded. -/
def FF.unit (f : FF) (m : ℕ) (e : ℤ) : ℤ := max (e + m.log2 - f.fb) (f.emin - f.fb)

/-- Whether `m × 2^e`, rounded with an unbounded exponent, lies below the smallest normal number. -/
def FF.below (f : FF) (rm : RM) (neg : Bool) (m : ℕ) (e : ℤ) : Bool :=
  let top := e + m.log2
  decide ((if (roundTo rm neg m e (top - f.fb)).1 = 2 ^ (f.fb + 1) then top + 1 else top) < f.emin)

/-- The magnitude to which `m × 2^e` is rounded, as a significand and an exponent. -/
def FF.sig (f : FF) (rm : RM) (neg : Bool) (m : ℕ) (e : ℤ) : ℕ × ℤ := f.carry (roundTo rm neg m e (f.unit m e)).1 (f.unit m e)

theorem FF.round_eq {f : FF} {rm : RM} {fzo neg : Bool} {m : ℕ} {e : ℤ} (hm : m ≠ 0) : f.round rm fzo neg m e =
    let n := f.sig rm neg m e
    let inexact := (roundTo rm neg m e (f.unit m e)).2
    let lim := f.emax - f.fb
    if lim < n.2 || (lim == n.2 && decide (f.maxSig < n.1)) then f.overflow rm neg
    else if decide (n.1 < 2 ^ f.fb) && n.1 != 0 && fzo then ⟨f.zero neg, fUF ||| fNX, 0⟩
    else ⟨f.pack neg (if n.1 < 2 ^ f.fb then 0 else (n.2 + f.fb + f.bias).toNat) (n.1 % 2 ^ f.fb),
      flagIf inexact fNX ||| flagIf (inexact && f.below rm neg m e) fUF, 0⟩ := by
  rw [FF.round, if_neg hm]
  rfl

theorem FF.round_of_not_within {f : FF} {rm : RM} {fzo neg : Bool} {m : ℕ} {e : ℤ} (hm : m ≠ 0)
    (h : ¬f.Within (f.sig rm neg m e).1 (f.sig rm neg m e).2) : f.round rm fzo neg m e = f.overflow rm neg := by
  rw [FF.round_eq hm]
  refine if_pos ?_
  simpa only [Bool.or_eq_true, decide_eq_true_eq, Bool.and_eq_true, beq_iff_eq] using not_not.mp h

theorem FF.round_of_within {f : FF} {rm : RM} {fzo neg : Bool} {m : ℕ} {e : ℤ} (hm : m ≠ 0)
    (h : f.Within (f.sig rm neg m e).1 (f.sig rm neg m e).2) : f.round rm fzo neg m e =
      let n := f.sig rm neg m e
      let inexact := (roundTo rm neg m e (f.unit m e)).2
      if fzo = true ∧ 0 < n.1 ∧ n.1 < 2 ^ f.fb then ⟨if neg then 2 ^ (f.eb + f.fb) else 0, fUF ||| fNX, 0⟩
      else ⟨(if neg then 2 ^ (f.eb + f.fb) else 0) + f.magOf n.1 n.2,
        flagIf inexact fNX ||| flagIf (inexact && f.below rm neg m e) fUF, 0⟩ := by
  rw [FF.round_eq hm]
  dsimp only
  rw [if_neg (by simpa only [Bool.or_eq_true, decide_eq_true_eq, Bool.and_eq_true, beq_iff_eq, FF.Within] using h)]
  refine if_congr ?_ ?_ ?_
  · simp only [Bool.and_eq_true, decide_eq_true_eq, bne_iff_ne, Nat.pos_iff_ne_zero]
    tauto
  · simp [FF.zero, FF.pack]
  · rw [FF.pack, FF.magOf, ← add_assoc]

end Sys2Proof.Machine
end

section
/-! The magnitude that is rounded: numbers that no turning point separates are brought to one significand (R61). -/

namespace Sys2Proof.Machine

theorem le_two_mul_div_zpow (k a : ℝ) (q : ℤ) : (k ≤ 2 * (a / 2 ^ q) ↔ k * 2 ^ (q - 1) ≤ a) ∧ (2 * (a / 2 ^ q) ≤ k ↔ a ≤ k * 2 ^ (q - 1)) := by
  have h := two_zpow_pos q
  have e : (2 : ℝ) ^ (q - 1) = 2 ^ q / 2 := by rw [zpow_sub_one₀ two_ne_zero]; ring
  rw [e, ← mul_div_assoc, le_div_iff₀ h, div_le_iff₀ h]
  constructor <;> constructor <;> intro <;> linarith

theorem two_zpow_log2_le {m : ℕ} (hm : 0 < m) (e : ℤ) : (2 : ℝ) ^ (e + m.log2) ≤ m * 2 ^ e := by
  rw [← natCast_two_pow_mul_zpow]
  exact mul_le_mul_of_nonneg_right (by exact_mod_cast Nat.log2_self_le hm.ne') (two_zpow_pos e).le

theorem lt_two_zpow_log2 (m : ℕ) (e : ℤ) : (m : ℝ) * 2 ^ e < 2 ^ (e + m.log2 + 1) := by
  rw [add_assoc, show (m.log2 : ℤ) + 1 = (m.log2 + 1 : ℕ) by push_cast; rfl, ← natCast_two_pow_mul_zpow]
  exact mul_lt_mul_of_pos_right (by exact_mod_cast Nat.lt_log2_self) (two_zpow_pos e)

theorem FF.Alike.pow {f : FF} {a b : ℝ} (h : f.Alike a b) {k : ℤ} (h1 : f.emin - f.fb - 2 ≤ k) (h2 : k ≤ f.emax + 1) :
    (2 ^ k ≤ a ↔ 2 ^ k ≤ b) ∧ (a ≤ 2 ^ k ↔ b ≤ 2 ^ k) := by
  simpa only [Nat.cast_one, one_mul] using h 1 k one_pos (Nat.one_le_two_pow) h1 (by simpa using zpow_le_of_le h2)

section
variable {f : FF} {rm : RM} {neg : Bool} {a : ℝ} {m : ℕ} {e : ℤ}

/-- Between the format's limits, `roundTo` names the significand of a number alike. -/
theorem FF.Alike.names (h : f.Alike a (m * 2 ^ e)) (ha : 0 < a) (hm : 0 < m) {q : ℤ} (h1 : e + m.log2 - f.fb ≤ q)
    (h2 : f.emin - f.fb - 1 ≤ q) (h3 : q ≤ f.emax - f.fb) :
    rm.names neg (a / 2 ^ q) (roundTo rm neg m e q).1 ∧ a ≤ 2 ^ (q + f.fb + 1) ∧
      ((roundTo rm neg m e q).2 = true ↔ a ≠ (roundTo rm neg m e q).1 * 2 ^ q) := by
  have hq := two_zpow_pos q
  have hw : (0 : ℝ) < m * 2 ^ e := mul_pos (by exact_mod_cast hm) (two_zpow_pos e)
  have hlt : (m : ℝ) * 2 ^ e ≤ 2 ^ (q + f.fb + 1) := (lt_two_zpow_log2 m e).le.trans (zpow_le_of_le (by omega))
  have hle : a ≤ 2 ^ (q + f.fb + 1) := (h.pow (by omega) (by omega)).2.mpr hlt
  have hk (k : ℕ) (hk : 0 < k) : ((k : ℝ) * 2 ^ (q - 1) ≤ m * 2 ^ e ↔ (k : ℝ) * 2 ^ (q - 1) ≤ a) ∧
      ((m : ℝ) * 2 ^ e ≤ k * 2 ^ (q - 1) ↔ a ≤ k * 2 ^ (q - 1)) := by
    have top : ((2 ^ (f.fb + 2) : ℕ) : ℝ) * 2 ^ (q - 1) = 2 ^ (q + f.fb + 1) := by
      rw [natCast_two_pow_mul_zpow]; congr 1; push_cast; ring
    rcases le_or_gt k (2 ^ (f.fb + 2)) with hb | hb
    · have := h k (q - 1) hk hb (by omega) <| calc
        _ ≤ ((2 ^ (f.fb + 2) : ℕ) : ℝ) * 2 ^ (q - 1) := mul_le_mul_of_nonneg_right (by exact_mod_cast hb) (two_zpow_pos _).le
        _ = _ := top
        _ ≤ _ := zpow_le_of_le (by omega)
      exact ⟨this.1.symm, this.2.symm⟩
    · have : (2 : ℝ) ^ (q + f.fb + 1) < k * 2 ^ (q - 1) := top ▸ mul_lt_mul_of_pos_right (by exact_mod_cast hb) (two_zpow_pos _)
      exact ⟨⟨fun h => absurd h (by linarith), fun h => absurd h (by linarith)⟩, ⟨fun _ => by linarith, fun _ => by linarith⟩⟩
  have ew : (m : ℝ) * 2 ^ (e - q) = m * 2 ^ e / 2 ^ q := by rw [zpow_sub₀ two_ne_zero, mul_div_assoc]
  obtain ⟨hn, hi⟩ := roundTo_names rm neg m e q
  rw [ew] at hn hi
  refine ⟨RM.names_congr (div_pos hw hq) (div_pos ha hq) (fun k k0 => ?_) hn, hle, ?_⟩
  · rw [(le_two_mul_div_zpow k _ q).1, (le_two_mul_div_zpow k _ q).2, (le_two_mul_div_zpow k _ q).1, (le_two_mul_div_zpow k _ q).2]
    exact hk k k0
  · rw [hi, ne_eq, div_eq_iff hq.ne', ne_eq]
    refine not_congr ?_
    generalize (roundTo rm neg m e q).1 = n
    rcases n.eq_zero_or_pos with rfl | hn
    · simp [hw.ne', ha.ne']
    · have := hk (2 * n) (by omega)
      have e2 : ((2 * n : ℕ) : ℝ) * 2 ^ (q - 1) = n * 2 ^ q := by
        rw [zpow_sub_one₀ two_ne_zero]; push_cast; ring
      rw [e2] at this
      rw [le_antisymm_iff, le_antisymm_iff, this.1, this.2]

theorem FF.log2_le_unit (f : FF) (m : ℕ) (e : ℤ) : e + m.log2 - f.fb ≤ f.unit m e := le_max_left ..

theorem FF.emin_le_unit (f : FF) (m : ℕ) (e : ℤ) : f.emin - f.fb ≤ f.unit m e := le_max_right ..

/-- The significand and the exponent that a magnitude is rounded to. -/
theorem FF.Alike.sig (h : f.Alike a (m * 2 ^ e)) (ha : 0 < a) (hm : 0 < m) (hq : f.unit m e ≤ f.emax - f.fb) :
    let n := (roundTo rm neg m e (f.unit m e)).1
    rm.names neg (a / 2 ^ f.unit m e) n ∧ (f.unit m e = f.emin - f.fb ∨ (2 : ℝ) ^ (f.unit m e + f.fb) ≤ a ∧ 2 ^ f.fb ≤ n) ∧
      f.Fits (f.sig rm neg m e).1 (f.sig rm neg m e).2 ∧ ((roundTo rm neg m e (f.unit m e)).2 = true ↔ a ≠ n * 2 ^ f.unit m e) := by
  intro n
  have hlow := f.emin_le_unit m e
  obtain ⟨hn, hle, hi⟩ := h.names (rm := rm) (neg := neg) ha hm (f.log2_le_unit m e) (by omega) hq
  have hq0 := two_zpow_pos (f.unit m e)
  have hb : n ≤ 2 ^ (f.fb + 1) := RM.names_le hn <| by
    rw [div_le_iff₀ hq0, natCast_two_pow_mul_zpow]
    exact hle.trans (zpow_le_of_le (by push_cast; omega))
  have hd : f.unit m e = f.emin - f.fb ∨ (2 : ℝ) ^ (f.unit m e + f.fb) ≤ a ∧ 2 ^ f.fb ≤ n := by
    rcases eq_or_ne (f.unit m e) (f.emin - f.fb) with hu | hu
    · exact .inl hu
    · have hu : f.unit m e = e + m.log2 - f.fb := by simp only [FF.unit] at hu ⊢; omega
      have : (2 : ℝ) ^ (f.unit m e + f.fb) ≤ a := (h.pow (by omega) (by omega)).1.mpr <| by
        rw [hu, sub_add_cancel]
        exact two_zpow_log2_le hm e
      exact .inr ⟨this, RM.le_names hn <| by rwa [le_div_iff₀ hq0, natCast_two_pow_mul_zpow]⟩
  exact ⟨hn, hd, FF.carry_fits hb hlow (hd.imp_right And.right), hi⟩

end

end Sys2Proof.Machine
end

section
/-! Overflow and tininess (R61, R66), told by the same rounding in other units. -/

namespace Sys2Proof.Machine

/-- A magnitude with a sign. -/
def signedReal (neg : Bool) (a : ℝ) : ℝ := if neg then -a else a

section
variable {f : FF} {rm : RM} {neg : Bool} {a : ℝ}

theorem abs_signedReal (ha : 0 < a) : |signedReal neg a| = a := by cases neg <;> simp [signedReal, abs_of_pos ha]

theorem signedReal_neg_iff (ha : 0 < a) : signedReal neg a < 0 ↔ neg = true := by cases neg <;> simp [signedReal, ha, ha.le]

theorem signedReal_pos_iff (ha : 0 < a) : 0 < signedReal neg a ↔ neg = false := by cases neg <;> simp [signedReal, ha, ha.le]

theorem signedReal_ne_zero (ha : 0 < a) : signedReal neg a ≠ 0 := by cases neg <;> simp [signedReal, ha.ne']

theorem outward_iff_away (ha : 0 < a) : Spec.outward rm (signedReal neg a) ↔ rm.away neg = true := by
  rw [Spec.outward, signedReal_neg_iff ha, signedReal_pos_iff ha]
  cases rm <;> cases neg <;> simp [RM.away]

theorem FF.value_topOf (f : FF) : Spec.value f (Spec.topOf f) = some ((f.maxSig : ℚ) * 2 ^ (f.emax - f.fb)) ∧
    Spec.value f (Spec.topOf f - 1) = some (((f.maxSig - 1 : ℕ) : ℚ) * 2 ^ (f.emax - f.fb)) := by
  have hfit (n : ℕ) (h1 : 2 ^ f.fb ≤ n) (h2 : n ≤ f.maxSig) : f.Fits n (f.emax - f.fb) ∧ f.Within n (f.emax - f.fb) := by
    have := f.maxSig_bounds
    have := f.emin_lt_emax
    exact ⟨⟨by omega, by omega, .inr h1⟩, by simp only [FF.Within]; omega⟩
  have h1 : 2 ^ f.fb ≤ f.maxSig - 1 := by cases f <;> decide
  have e1 : f.magOf f.maxSig (f.emax - f.fb) = Spec.topOf f := by cases f <;> rfl
  have e2 : f.magOf (f.maxSig - 1) (f.emax - f.fb) = Spec.topOf f - 1 := by cases f <;> rfl
  obtain ⟨a1, a2⟩ := hfit _ f.maxSig_bounds.1 le_rfl
  obtain ⟨b1, b2⟩ := hfit _ h1 (Nat.sub_le ..)
  constructor
  · simpa [e1] using a1.value_magOf a2 false
  · simpa [e2] using b1.value_magOf b2 false

/-- Overflow (R61, R66): the significand, rounded in units of the greatest numbers, is beyond the largest. -/
theorem overflows_iff (f : FF) (rm : RM) (ha : 0 < a) :
    Spec.overflows f rm (signedReal neg a) ↔ ¬rm.upTo neg (a / 2 ^ (f.emax - f.fb)) f.maxSig := by
  have hu := two_zpow_pos (f.emax - f.fb)
  have hs : 1 ≤ f.maxSig := Nat.one_le_two_pow.trans f.maxSig_bounds.1
  have hodd := f.maxSig_mod_two
  rw [Spec.overflows, outward_iff_away ha, abs_signedReal ha, f.value_topOf.1, f.value_topOf.2]
  simp only [Option.getD_some]
  push_cast [Nat.cast_sub hs]
  generalize (2 : ℝ) ^ (f.emax - f.fb) = u at *
  generalize hr : a / u = r
  obtain rfl : a = r * u := by rw [← hr, div_mul_cancel₀ _ hu.ne']
  have e1 : ((f.maxSig : ℝ) * u + (f.maxSig * u - (f.maxSig - 1) * u) / 2 < r * u) ↔ (2 * (f.maxSig : ℝ) + 1 < 2 * r) := by
    rw [show (f.maxSig : ℝ) * u + (f.maxSig * u - (f.maxSig - 1) * u) / 2 = (f.maxSig + 1 / 2) * u by ring, mul_lt_mul_iff_left₀ hu]
    constructor <;> intro <;> linarith
  have e2 : ((f.maxSig : ℝ) * u + (f.maxSig * u - (f.maxSig - 1) * u) / 2 = r * u) ↔ (2 * r = 2 * (f.maxSig : ℝ) + 1) := by
    rw [show (f.maxSig : ℝ) * u + (f.maxSig * u - (f.maxSig - 1) * u) / 2 = (f.maxSig + 1 / 2) * u by ring, mul_left_inj' hu.ne']
    constructor <;> intro <;> linarith
  have e3 : ((f.maxSig : ℝ) * u + (f.maxSig * u - (f.maxSig - 1) * u) ≤ r * u) ↔ (f.maxSig : ℝ) + 1 ≤ r := by
    rw [show (f.maxSig : ℝ) * u + (f.maxSig * u - (f.maxSig - 1) * u) = (f.maxSig + 1) * u by ring, mul_le_mul_iff_left₀ hu]
  rw [e1, e2, e3, mul_lt_mul_iff_left₀ hu, RM.upTo]
  by_cases hrm : rm = .rne
  · simp only [hrm, if_pos, RM.away, Bool.false_eq_true, false_and, ne_eq, not_true_eq_false, or_false, true_and, not_or, not_lt, not_and, hodd]
    rcases lt_trichotomy (2 * r) (2 * f.maxSig + 1) with h | h | h
    · simp [h, h.not_gt, h.ne, not_le.mpr h]
    · simp [h]
    · simp [h, h.ne', h.le]
  · simp only [hrm, if_false, false_and, false_or, ne_eq, not_false_eq_true, true_and]
    by_cases hw : rm.away neg = true
    · simp [hw]
    · simp [hw]

/-- Tininess (R61): the significand, rounded in units of half the least, does not reach the smallest normal number. -/
theorem tiny_iff (f : FF) (rm : RM) (ha : 0 < a) :
    Spec.tiny f rm (signedReal neg a) ↔ rm.upTo neg (a / 2 ^ (f.emin - 1 - f.fb)) (2 ^ (f.fb + 1) - 1) := by
  have hu := two_zpow_pos (f.emin - 1 - f.fb)
  have hs : 1 ≤ 2 ^ (f.fb + 1) := Nat.one_le_two_pow
  have hodd : ¬(2 ^ (f.fb + 1) - 1) % 2 = 0 := by
    have : 0 < 2 ^ f.fb := by positivity
    rw [pow_succ]; omega
  have en : ((Spec.leastOf f : ℚ) : ℝ) = 2 * 2 ^ f.fb * 2 ^ (f.emin - 1 - f.fb) := by
    rw [Spec.leastOf]
    push_cast
    rw [show (1 : ℤ) - f.bias = (f.emin - 1 - f.fb) + 1 + f.fb by rw [FF.emin]; ring, zpow_add₀ two_ne_zero, zpow_add₀ two_ne_zero, zpow_natCast]
    ring
  rw [Spec.tiny, outward_iff_away ha, abs_signedReal ha, en, RM.upTo]
  push_cast [Nat.cast_sub hs]
  generalize (2 : ℝ) ^ (f.emin - 1 - f.fb) = u at *
  generalize hr : a / u = r
  obtain rfl : a = r * u := by rw [← hr, div_mul_cancel₀ _ hu.ne']
  have hp : (0 : ℝ) < 2 ^ f.fb := by positivity
  have e0 : 2 * 2 ^ f.fb * u / 2 ^ f.fb = 2 * u := by field_simp
  rw [e0, show 2 * 2 ^ f.fb * u - 2 * u / 4 = (2 * 2 ^ f.fb - 1 / 2) * u by ring, show 2 * 2 ^ f.fb * u - 2 * u / 2 = (2 * 2 ^ f.fb - 1) * u by ring,
    mul_lt_mul_iff_left₀ hu, mul_le_mul_iff_left₀ hu, mul_lt_mul_iff_left₀ hu, pow_succ]
  by_cases hrm : rm = .rne
  · simp only [hrm, if_pos, RM.away, Bool.false_eq_true, false_and, ne_eq, not_true_eq_false, or_false, true_and, hodd, and_false]
    constructor <;> intro <;> linarith
  · simp only [hrm, if_false, false_and, false_or, ne_eq, not_false_eq_true, true_and]
    by_cases hw : rm.away neg = true
    · simp [hw, mul_comm]
    · simp [hw, mul_comm]

end

section
variable {f : FF} {rm : RM} {neg : Bool} {a : ℝ} {m : ℕ} {e : ℤ}

/-- A magnitude is rounded beyond the format exactly where it overflows. -/
theorem FF.Alike.within_iff (h : f.Alike a (m * 2 ^ e)) (ha : 0 < a) (hm : 0 < m) :
    f.Within (f.sig rm neg m e).1 (f.sig rm neg m e).2 ↔ ¬Spec.overflows f rm (signedReal neg a) := by
  have hlt := f.emin_lt_emax
  rw [overflows_iff f rm ha, not_not]
  have hu := two_zpow_pos (f.emax - f.fb)
  rcases lt_trichotomy (e + m.log2) f.emax with ht | ht | ht
  · have hq : f.unit m e < f.emax - f.fb := by simp only [FF.unit]; omega
    refine iff_of_true (FF.carry_within_of_lt hq) (rm.upTo_of_le neg ?_)
    have : a ≤ 2 ^ f.emax := (h.pow (by omega) (by omega)).2.mpr ((lt_two_zpow_log2 m e).le.trans (zpow_le_of_le (by omega)))
    calc a / 2 ^ (f.emax - f.fb) ≤ ((2 ^ f.fb : ℕ) : ℝ) := by
          rw [div_le_iff₀ hu, natCast_two_pow_mul_zpow, sub_add_cancel]
          exact this
      _ ≤ f.maxSig := by exact_mod_cast f.maxSig_bounds.1
  · have hq : f.unit m e = f.emax - f.fb := by simp only [FF.unit]; omega
    have hn := (h.sig (rm := rm) (neg := neg) ha hm hq.le).1
    rw [FF.sig, FF.carry_within_iff hq, RM.names_le_iff hn, hq]
  · have hq : f.emax - f.fb < f.unit m e := by simp only [FF.unit]; omega
    refine iff_of_false (FF.not_carry_within_of_gt hq) (rm.not_upTo_of_ge neg ?_)
    have : 2 ^ (f.emax + 1) ≤ a := (h.pow (by omega) (by omega)).1.mpr ((zpow_le_of_le (by omega)).trans (two_zpow_log2_le hm e))
    calc (f.maxSig : ℝ) + 1 ≤ ((2 ^ (f.fb + 1) : ℕ) : ℝ) := by exact_mod_cast f.maxSig_bounds.2
      _ ≤ a / 2 ^ (f.emax - f.fb) := by
          rw [le_div_iff₀ hu, natCast_two_pow_mul_zpow]
          refine le_trans (zpow_le_of_le ?_) this
          push_cast; omega

/-- A magnitude is rounded below the smallest normal number exactly where it is tiny. -/
theorem FF.Alike.below_iff (h : f.Alike a (m * 2 ^ e)) (ha : 0 < a) (hm : 0 < m) :
    f.below rm neg m e = true ↔ Spec.tiny f rm (signedReal neg a) := by
  have hlt := f.emin_lt_emax
  have hfb := f.fb_pos
  have hu := two_zpow_pos (f.emin - 1 - f.fb)
  have hpow : 1 ≤ 2 ^ f.fb := Nat.one_le_two_pow
  rw [tiny_iff f rm ha, FF.below, decide_eq_true_eq]
  rcases lt_trichotomy (e + m.log2) (f.emin - 1) with ht | ht | ht
  · refine iff_of_true (by split <;> omega) (rm.upTo_of_le neg ?_)
    have : a ≤ 2 ^ (f.emin - 1) := (h.pow (by omega) (by omega)).2.mpr ((lt_two_zpow_log2 m e).le.trans (zpow_le_of_le (by omega)))
    calc a / 2 ^ (f.emin - 1 - f.fb) ≤ ((2 ^ f.fb : ℕ) : ℝ) := by
          rw [div_le_iff₀ hu, natCast_two_pow_mul_zpow, sub_add_cancel]
          exact this
      _ ≤ _ := by exact_mod_cast (by rw [pow_succ]; omega)
  · have hq : e + (m.log2 : ℤ) - f.fb = f.emin - 1 - f.fb := by omega
    obtain ⟨hn, hle, -⟩ := h.names (rm := rm) (neg := neg) ha hm hq.le (by omega) (by omega)
    have hb : (roundTo rm neg m e (f.emin - 1 - f.fb)).1 ≤ 2 ^ (f.fb + 1) := RM.names_le hn <| by
      rw [div_le_iff₀ hu, natCast_two_pow_mul_zpow]
      exact hle.trans (zpow_le_of_le (by push_cast; omega))
    rw [← RM.names_le_iff hn, hq]
    split <;> omega
  · refine iff_of_false (by split <;> omega) (rm.not_upTo_of_ge neg ?_)
    have : 2 ^ f.emin ≤ a := (h.pow (by omega) (by omega)).1.mpr ((zpow_le_of_le (by omega)).trans (two_zpow_log2_le hm e))
    rw [Nat.cast_sub Nat.one_le_two_pow, Nat.cast_one, sub_add_cancel, le_div_iff₀ hu, natCast_two_pow_mul_zpow]
    refine le_trans (zpow_le_of_le ?_) this
    push_cast; omega

end

end Sys2Proof.Machine
end

section
/-! The number that a mode names (R61): no other number of the format lies between it and what is rounded. -/

namespace Sys2Proof.Machine

/-- The sign bit of a pattern. -/
def FF.signBit (f : FF) (neg : Bool) : ℕ := if neg then 2 ^ (f.eb + f.fb) else 0

section
variable {rm : RM} {neg : Bool} {x z : ℝ} {n p : ℕ}

/-- Of the integers, and of the numbers below a power of two that `x` has reached, none lies between `x` and the integer named for it. -/
theorem RM.names_nearest (h : rm.names neg x n) (hz : (∃ k : ℤ, z = k) ∨ z < p ∧ (p : ℝ) ≤ x) :
    (rm = .rne → |n - x| ≤ |z - x| ∧ (z ≠ n → |(n : ℝ) - x| = |z - x| → n % 2 = 0)) ∧
      (rm ≠ .rne → rm.away neg = true → x ≤ n ∧ (x ≤ z → n ≤ z)) ∧ (rm ≠ .rne → rm.away neg = false → n ≤ x ∧ (z ≤ x → z ≤ n)) := by
  have hp (hpx : (p : ℝ) ≤ x) : (p : ℝ) ≤ n := by exact_mod_cast RM.le_names h hpx
  unfold RM.names at h
  refine ⟨fun hr => ?_, fun hr ha => ?_, fun hr ha => ?_⟩
  · rw [if_pos hr] at h
    obtain ⟨h1, h2, h3⟩ := h
    have hn : |(n : ℝ) - x| ≤ 1 / 2 := abs_le.mpr ⟨by linarith, by linarith⟩
    have far (hz : z + 1 ≤ n ∨ n + 1 ≤ z ∨ z < p ∧ (p : ℝ) ≤ x) :
        |(n : ℝ) - x| ≤ |z - x| ∧ (|(n : ℝ) - x| = |z - x| → n % 2 = 0) := by
      have hodd (ho : n % 2 = 1) : |(n : ℝ) - x| < 1 / 2 := abs_lt.mpr ⟨by linarith [(h3 ho).2], by linarith [(h3 ho).1]⟩
      rcases hz with hz | hz | ⟨hz, hpx⟩
      · have : 1 / 2 ≤ |z - x| := le_abs.mpr (.inr (by linarith))
        exact ⟨hn.trans this, fun he => by by_contra ho; linarith [hodd (by omega)]⟩
      · have : 1 / 2 ≤ |z - x| := le_abs.mpr (.inl (by linarith))
        exact ⟨hn.trans this, fun he => by by_contra ho; linarith [hodd (by omega)]⟩
      · have hzx : |z - x| = x - z := by rw [abs_sub_comm, abs_of_pos (by linarith)]
        have hlt : |(n : ℝ) - x| < |z - x| := by
          rw [hzx, abs_lt]
          rcases (hp hpx).lt_or_eq with hpn | hpn
          · have : (p : ℝ) + 1 ≤ n := by exact_mod_cast (by exact_mod_cast hpn : p < n)
            constructor <;> linarith
          · constructor <;> linarith
        exact ⟨hlt.le, fun he => absurd he hlt.ne⟩
    rcases hz with ⟨k, rfl⟩ | hz
    · rcases lt_trichotomy k n with hk | rfl | hk
      · have := far (.inl (by exact_mod_cast hk))
        exact ⟨this.1, fun _ => this.2⟩
      · exact ⟨le_rfl, fun hne => absurd rfl hne⟩
      · have := far (.inr (.inl (by exact_mod_cast hk)))
        exact ⟨this.1, fun _ => this.2⟩
    · have := far (.inr (.inr hz))
      exact ⟨this.1, fun _ => this.2⟩
  · rw [if_neg hr, if_pos ha] at h
    refine ⟨h.2, fun hxz => ?_⟩
    rcases hz with ⟨k, rfl⟩ | hz
    · have : ((n : ℤ) : ℝ) < k + 1 := by push_cast; linarith [h.1]
      exact_mod_cast Int.lt_add_one_iff.mp (by exact_mod_cast this)
    · linarith
  · rw [if_neg hr, ha, if_neg Bool.false_ne_true] at h
    refine ⟨h.1, fun hzx => ?_⟩
    rcases hz with ⟨k, rfl⟩ | hz
    · have : (k : ℝ) < ((n : ℤ) : ℝ) + 1 := by push_cast; linarith [h.2]
      exact_mod_cast Int.lt_add_one_iff.mp (by exact_mod_cast this)
    · linarith [hp hz.2]

end

/-- A number of the format is a multiple of the unit `2^q`, or smaller than the numbers with that unit. -/
theorem FF.Fits.multiple_or_lt {f : FF} {k : ℕ} {p q : ℤ} (h : f.Fits k p) (hq : f.emin - f.fb ≤ q) (neg : Bool) :
    (∃ j : ℤ, signedReal neg (k * 2 ^ p) / 2 ^ q = j) ∨ q ≠ f.emin - f.fb ∧ signedReal neg (k * 2 ^ p) / 2 ^ q < ((2 ^ f.fb : ℕ) : ℝ) := by
  have hq0 := two_zpow_pos q
  rcases le_or_gt q p with hp | hp
  · obtain ⟨s, hs⟩ : ∃ s : ℕ, p - q = s := ⟨(p - q).toNat, by omega⟩
    refine .inl ⟨(if neg then -1 else 1) * k * 2 ^ s, ?_⟩
    rw [div_eq_iff hq0.ne', show p = q + s by omega, zpow_add₀ two_ne_zero, zpow_natCast]
    cases neg <;> simp [signedReal] <;> ring
  · refine .inr ⟨by have := h.low; omega, ?_⟩
    rw [div_lt_iff₀ hq0, natCast_two_pow_mul_zpow]
    have hk : (k : ℝ) * 2 ^ p < 2 ^ (q + f.fb) := calc
      (k : ℝ) * 2 ^ p < ((2 ^ (f.fb + 1) : ℕ) : ℝ) * 2 ^ p := mul_lt_mul_of_pos_right (by exact_mod_cast h.lt) (two_zpow_pos p)
      _ = 2 ^ (p + (f.fb + 1 : ℕ)) := natCast_two_pow_mul_zpow ..
      _ ≤ _ := zpow_le_of_le (by push_cast; omega)
    have h0 : 0 ≤ (k : ℝ) * 2 ^ p := by positivity
    cases neg
    · exact hk
    · simp only [signedReal, if_true]
      linarith [two_zpow_pos (q + f.fb)]

section
variable {f : FF} {rm : RM} {neg : Bool} {a : ℝ} {m : ℕ} {e : ℤ}

theorem signedReal_eq_mul (neg : Bool) (a : ℝ) : signedReal neg a = (if neg then -1 else 1) * a := by cases neg <;> simp [signedReal]

/-- The number to which a magnitude is rounded is the one that the mode names. -/
theorem FF.Alike.named (h : f.Alike a (m * 2 ^ e)) (ha : 0 < a) (hm : 0 < m) (hq : f.unit m e ≤ f.emax - f.fb) {b : ℕ}
    (hb : b % 2 = (roundTo rm neg m e (f.unit m e)).1 % 2) :
    Spec.named f rm (signedReal neg a) b (signedReal neg ((roundTo rm neg m e (f.unit m e)).1 * 2 ^ f.unit m e)) := by
  obtain ⟨hn, hd, -⟩ := h.sig (rm := rm) (neg := neg) ha hm hq
  have hlow := f.emin_le_unit m e
  generalize (roundTo rm neg m e (f.unit m e)).1 = n at *
  generalize f.unit m e = q at *
  have hq0 := two_zpow_pos q
  intro c v hv
  obtain ⟨k, p, hfit, -, rfl⟩ := FF.value_fits hv
  obtain ⟨s, hs⟩ : ∃ s : Bool, ((((if c / 2 ^ (f.eb + f.fb) % 2 = 1 then -1 else 1) * k * 2 ^ p : ℚ)) : ℝ) = signedReal neg (signedReal s (k * 2 ^ p)) := by
    by_cases hc : c / 2 ^ (f.eb + f.fb) % 2 = 1
    · exact ⟨!neg, by cases neg <;> simp [hc, signedReal]⟩
    · exact ⟨neg, by cases neg <;> simp [hc, signedReal]⟩
  have hz : (∃ j : ℤ, signedReal s (k * 2 ^ p) / 2 ^ q = j) ∨
      signedReal s (k * 2 ^ p) / 2 ^ q < ((2 ^ f.fb : ℕ) : ℝ) ∧ ((2 ^ f.fb : ℕ) : ℝ) ≤ a / 2 ^ q := by
    refine (hfit.multiple_or_lt hlow s).imp_right fun hz => ⟨hz.2, ?_⟩
    rw [le_div_iff₀ hq0, natCast_two_pow_mul_zpow]
    exact (hd.resolve_left hz.1).1
  obtain ⟨h1, h2, h3⟩ := RM.names_nearest hn hz
  rw [hs]
  generalize signedReal s (k * 2 ^ p) = z at *
  have dist (u v : ℝ) : |signedReal neg u - signedReal neg v| = |u / 2 ^ q - v / 2 ^ q| * 2 ^ q := by
    rw [← sub_div, abs_div, abs_of_pos hq0, div_mul_cancel₀ _ hq0.ne']
    cases neg
    · rfl
    · simp only [signedReal, if_true]
      rw [← abs_neg]
      congr 1
      ring
  have en : (n : ℝ) * 2 ^ q / 2 ^ q = n := mul_div_cancel_right₀ _ hq0.ne'
  rw [div_le_iff₀ hq0, div_le_div_iff_of_pos_right hq0, le_div_iff₀ hq0] at h2
  rw [le_div_iff₀ hq0, div_le_div_iff_of_pos_right hq0, div_le_iff₀ hq0] at h3
  have y0 : 0 ≤ (n : ℝ) * 2 ^ q := by positivity
  refine ⟨fun hr => ?_, fun hr => ?_, fun hr => ?_, fun hr => ?_⟩
  · rw [dist, dist, en]
    refine ⟨mul_le_mul_of_nonneg_right (h1 hr).1 hq0.le, fun hne he => ?_⟩
    rw [hb]
    refine (h1 hr).2 (fun hzn => hne ?_) (mul_right_cancel₀ hq0.ne' he)
    rw [← hzn, div_mul_cancel₀ _ hq0.ne']
  · subst hr
    cases neg
    · exact h3 (by decide) rfl
    · simpa only [signedReal, if_true, neg_le_neg_iff] using h2 (by decide) rfl
  · subst hr
    cases neg
    · exact h2 (by decide) rfl
    · simpa only [signedReal, if_true, neg_le_neg_iff] using h3 (by decide) rfl
  · subst hr
    have h3 := h3 (by decide) rfl
    have habs (u : ℝ) : |signedReal neg u| = |u| := by cases neg <;> simp [signedReal]
    have hmul : signedReal neg z * signedReal neg a = z * a := by cases neg <;> simp [signedReal]
    rw [habs, habs, habs, hmul, abs_of_pos ha, abs_of_nonneg y0]
    refine ⟨h3.1, fun h0 hza => ?_⟩
    have z0 : 0 ≤ z := nonneg_of_mul_nonneg_left h0 ha
    rw [abs_of_nonneg z0] at hza ⊢
    exact h3.2 hza

end

end Sys2Proof.Machine
end

section
/-! The rounding as a whole (R56, R61, R63, R66). -/

namespace Sys2Proof.Machine

section
variable {f : FF} {rm : RM} {fzo neg : Bool} {a : ℝ} {m : ℕ} {e : ℤ}

theorem FF.infBits_eq (f : FF) (neg : Bool) : f.infBits neg = f.signBit neg + Spec.infOf f := by
  simp [FF.infBits, FF.pack, FF.signBit, Spec.infOf]

theorem FF.maxBits_eq (f : FF) (neg : Bool) : f.maxBits neg = f.signBit neg + Spec.topOf f := by
  cases f <;> cases neg <;> rfl

theorem FF.zero_eq (f : FF) (neg : Bool) : f.zero neg = f.signBit neg := by simp [FF.zero, FF.pack, FF.signBit]

theorem FF.signBit_eq (f : FF) (neg : Bool) : f.signBit neg = 0 ∨ f.signBit neg = 2 ^ (f.eb + f.fb) := by cases neg <;> simp [FF.signBit]

theorem FF.signBit_mod_two (f : FF) (neg : Bool) : f.signBit neg % 2 = 0 := by cases f <;> cases neg <;> rfl

theorem FF.signBit_sign (f : FF) (ha : 0 < a) : (signedReal neg a < 0 → f.signBit neg = 2 ^ (f.eb + f.fb)) ∧ (0 < signedReal neg a → f.signBit neg = 0) := by
  rw [signedReal_neg_iff ha, signedReal_pos_iff ha]
  exact ⟨fun h => by rw [h]; rfl, fun h => by rw [h]; rfl⟩

/-- What an overflow gives (R66). -/
theorem FF.overflow_eq (f : FF) (rm : RM) (neg : Bool) : f.overflow rm neg =
    ⟨f.signBit neg + (if f.ieee = true ∧ (rm = .rne ∨ rm.away neg = true) then Spec.infOf f else Spec.topOf f),
      (if f.ieee then fOF else fST) ||| fNX, if f.ieee then 0 else 1⟩ := by
  unfold FF.overflow
  rw [FF.infBits_eq, FF.maxBits_eq]
  cases f.ieee <;> cases rm <;> cases neg <;> simp [RM.away]

/-- The flags of a result within the format. -/
theorem flags_bits (i t : Bool) : let fl := flagIf i fNX ||| flagIf (i && t) fUF
    (fl.getLsbD 0 = i) ∧ (fl.getLsbD 1 = (i && t)) ∧ fl &&& ~~~(fNX ||| fUF) = 0 := by
  cases i <;> cases t <;> decide

/-- R61, R66: the rounding is that of every number alike. -/
theorem FF.Alike.rounds (h : f.Alike a (m * 2 ^ e)) (ha : 0 < a) (hm : 0 < m) :
    Spec.rounds f rm fzo (signedReal neg a) (f.round rm fzo neg m e) := by
  have hw := h.within_iff (rm := rm) (neg := neg) ha hm
  refine ⟨fun ho => ?_, fun ho => ?_⟩
  · rw [FF.round_of_not_within hm.ne' (mt hw.mp (not_not.mpr ho)), FF.overflow_eq, outward_iff_away ha]
    exact ⟨_, f.signBit_sign ha, fun hi => by rw [if_pos hi], fun hi => by rw [if_neg hi], rfl, rfl⟩
  · have hw := hw.mpr ho
    have hq : f.unit m e ≤ f.emax - f.fb := not_lt.mp fun hq => FF.not_carry_within_of_gt hq hw
    obtain ⟨-, -, hfit, hi⟩ := h.sig (rm := rm) (neg := neg) ha hm hq
    have hval : ((((if neg then -1 else 1) * (f.sig rm neg m e).1 * 2 ^ (f.sig rm neg m e).2 : ℚ)) : ℝ) =
        signedReal neg ((roundTo rm neg m e (f.unit m e)).1 * 2 ^ f.unit m e) := by
      rw [← f.carry_value, signedReal_eq_mul, ← mul_assoc]
      cases neg <;> simp [FF.sig]
    have hpar : f.signBit neg + f.magOf (f.sig rm neg m e).1 (f.sig rm neg m e).2 ≡ (roundTo rm neg m e (f.unit m e)).1 [MOD 2] := by
      have := f.magOf_mod_two (f.sig rm neg m e).1 (f.sig rm neg m e).2
      rw [FF.sig, f.carry_mod_two] at this
      have h2 := f.signBit_mod_two neg
      unfold Nat.ModEq FF.sig
      omega
    have hmag : 0 < f.magOf (f.sig rm neg m e).1 (f.sig rm neg m e).2 ∧ f.magOf (f.sig rm neg m e).1 (f.sig rm neg m e).2 < 2 ^ f.fb ↔
        0 < (f.sig rm neg m e).1 ∧ (f.sig rm neg m e).1 < 2 ^ f.fb := by
      rw [hfit.magOf_lt_iff]
      exact and_congr_left fun hl => by rw [FF.magOf_of_lt hl]
    refine ⟨f.signBit neg, f.magOf (f.sig rm neg m e).1 (f.sig rm neg m e).2, _, fun _ => f.signBit_sign ha, f.signBit_eq neg,
      hfit.magOf_lt hw, hfit.value_magOf hw neg, ?_, ?_⟩
    · rw [hval]
      exact h.named ha hm hq hpar
    · rw [hval, FF.round_of_within hm.ne' hw]
      dsimp only
      rw [hmag]
      refine ⟨fun hf => if_pos hf, fun hf => ?_⟩
      rw [if_neg hf]
      obtain ⟨b0, b1, b2⟩ := flags_bits (roundTo rm neg m e (f.unit m e)).2 (f.below rm neg m e)
      have hne : (roundTo rm neg m e (f.unit m e)).2 = true ↔ signedReal neg ((roundTo rm neg m e (f.unit m e)).1 * 2 ^ f.unit m e) ≠ signedReal neg a := by
        rw [hi]
        cases neg <;> simp [signedReal, eq_comm]
      refine ⟨rfl, rfl, ?_, ?_, b2⟩
      · rw [b0]
        exact hne
      · rw [b1, Bool.and_eq_true, hne, h.below_iff ha hm]

end

/-- A zero is rounded to a zero, whatever its sign. -/
theorem FF.rounds_zero (f : FF) (rm : RM) (fzo neg : Bool) : Spec.rounds f rm fzo 0 ⟨f.zero neg, 0, 0⟩ := by
  have hfit : f.Fits 0 (f.emin - f.fb) := ⟨by positivity, le_rfl, .inl rfl⟩
  have hw : f.Within 0 (f.emin - f.fb) := FF.within_iff_of_lt (by have := f.emin_lt_emax; omega)
  have hmag : f.magOf 0 (f.emin - f.fb) = 0 := FF.magOf_of_lt (by positivity)
  have hval : Spec.value f (f.signBit neg + 0) = some 0 := by
    have := hfit.value_magOf hw neg
    rw [hmag] at this
    rw [FF.signBit, this]
    simp
  refine ⟨fun ho => ?_, fun _ => ⟨f.signBit neg, 0, 0, fun h => absurd rfl h, (f.signBit_eq neg), by positivity, hval, ?_, ?_⟩⟩
  · exfalso
    have ht : (0 : ℝ) ≤ ((f.maxSig : ℚ) * 2 ^ (f.emax - f.fb) : ℚ) := by positivity
    have hu : ((((f.maxSig - 1 : ℕ) : ℚ) * 2 ^ (f.emax - f.fb) : ℚ) : ℝ) < (((f.maxSig : ℚ) * 2 ^ (f.emax - f.fb) : ℚ) : ℝ) := by
      have : 0 < f.maxSig := lt_of_lt_of_le (by positivity) f.maxSig_bounds.1
      have : f.maxSig - 1 < f.maxSig := by omega
      exact_mod_cast mul_lt_mul_of_pos_right (by exact_mod_cast this) (by positivity)
    rw [Spec.overflows, f.value_topOf.1, f.value_topOf.2] at ho
    simp only [Option.getD_some, abs_zero, Spec.outward, lt_irrefl, and_false, or_false] at ho
    rcases ho with ⟨-, h | ⟨-, h⟩⟩ | ⟨h, -⟩ | ⟨-, -, h⟩
    · linarith
    · linarith
    · exact h
    · linarith
  · intro c v hv
    simp only [Rat.cast_zero, add_zero, mul_zero, le_refl, true_and, abs_zero, sub_zero, true_imp_iff]
    refine ⟨fun _ => ⟨abs_nonneg _, fun _ _ => f.signBit_mod_two neg⟩, fun _ h => h, fun _ h => h, fun _ h => h⟩
  · rw [f.zero_eq]
    simp

/-- An exact number is rounded as R61 and R66 say. -/
theorem FF.round_rounds (f : FF) (rm : RM) (fzo neg : Bool) (m : ℕ) (e : ℤ) :
    Spec.rounds f rm fzo (signedReal neg (m * 2 ^ e)) (f.round rm fzo neg m e) := by
  rcases m.eq_zero_or_pos with rfl | hm
  · rw [FF.round, if_pos rfl]
    simpa [signedReal] using f.rounds_zero rm fzo neg
  · exact (FF.Alike.refl f _).rounds (mul_pos (by exact_mod_cast hm) (two_zpow_pos e)) hm

theorem FF.round_zero (f : FF) (rm : RM) (fzo neg : Bool) (e : ℤ) : f.round rm fzo neg 0 e = ⟨f.signBit neg, 0, 0⟩ := by
  rw [FF.round, if_pos rfl, FF.zero_eq]

theorem cast_rat (neg : Bool) (m : ℕ) (e : ℤ) : ((Spec.rat neg m e : ℚ) : ℝ) = signedReal neg (m * 2 ^ e) := by
  rw [Spec.rat, signedReal_eq_mul]
  cases neg <;> simp

/-- Settles O2: the significand is the integer that the mode names in units of the last place, and what is beyond the format or below its normal
numbers is told by the same rounding in other units. -/
theorem roundingIsToTheNeighbour : Obligations.RoundingIsToTheNeighbour := by
  intro f rm fzo neg m e
  refine ⟨cast_rat neg m e ▸ f.round_rounds rm fzo neg m e, ?_⟩
  rintro rfl
  rw [FF.round_zero]
  rfl

end Sys2Proof.Machine
end

section
/-! Quotients and roots with a sticky bit (R88): the bits that `divBits` and `sqrtBits` give are rounded as the exact quotient and root are. -/

namespace Sys2Proof.Machine

/-- Numbers within a gap that no turning point enters are alike. -/
theorem FF.Alike.of_gap {f : FF} {a b lo hi : ℝ} (ha : lo < a ∧ a < hi) (hb : lo < b ∧ b < hi)
    (h : ∀ (n : ℕ) (k : ℤ), n ≤ 2 ^ (f.fb + 2) → f.emin - f.fb - 2 ≤ k → (n : ℝ) * 2 ^ k ≤ lo ∨ hi ≤ n * 2 ^ k) : f.Alike a b := by
  intro n k _ hn hk _
  rcases h n k hn hk with h | h
  · exact ⟨iff_of_true (by linarith) (by linarith), iff_of_false (by linarith) (by linarith)⟩
  · exact ⟨iff_of_false (by linarith) (by linarith), iff_of_true (by linarith) (by linarith)⟩

/-- A last bit that stands for all below it separates no turning point from the number, when the bits before it are two more than the
precision. -/
theorem FF.Alike.sticky {f : FF} {a : ℝ} {q : ℕ} {e : ℤ} (hq : 2 ^ (f.fb + 2) ≤ q) (h1 : q * 2 ^ (e + 1) < a) (h2 : a < (q + 1) * 2 ^ (e + 1)) :
    f.Alike a ((2 * q + 1 : ℕ) * 2 ^ e) := by
  have he := two_zpow_pos e
  have e1 : (2 : ℝ) ^ (e + 1) = 2 * 2 ^ e := by rw [zpow_add_one₀ two_ne_zero]; ring
  refine FF.Alike.of_gap ⟨h1, h2⟩ ⟨?_, ?_⟩ fun n k hn _ => ?_
  · rw [e1]; push_cast; linarith
  · rw [e1]; push_cast; linarith
  · rcases le_or_gt (e + 1) k with hk | hk
    · obtain ⟨s, hs⟩ : ∃ s : ℕ, k = e + 1 + s := ⟨(k - (e + 1)).toNat, by omega⟩
      have ek : (n : ℝ) * 2 ^ k = ((n * 2 ^ s : ℕ) : ℝ) * 2 ^ (e + 1) := by
        rw [hs, zpow_add₀ two_ne_zero, zpow_natCast]; push_cast; ring
      rw [ek]
      rcases le_or_gt (n * 2 ^ s) q with hl | hl
      · exact .inl (mul_le_mul_of_nonneg_right (by exact_mod_cast hl) (two_zpow_pos _).le)
      · exact .inr (mul_le_mul_of_nonneg_right (by exact_mod_cast hl) (two_zpow_pos _).le)
    · refine .inl ?_
      calc (n : ℝ) * 2 ^ k ≤ q * 2 ^ k := mul_le_mul_of_nonneg_right (by exact_mod_cast hn.trans hq) (two_zpow_pos _).le
        _ ≤ q * 2 ^ (e + 1) := mul_le_mul_of_nonneg_left (zpow_le_of_le hk.le) q.cast_nonneg

theorem FF.fb_le (f : FF) : f.fb + 2 ≤ 54 := by cases f <;> decide

/-- Bits with a sticky last bit: `q` is the whole part of `v`, and `r` tells whether that is all. -/
theorem FF.Alike.of_floor {f : FF} {v : ℝ} {q : ℕ} {e : ℤ} {r : Prop} [Decidable r] (hq : 2 ^ 54 ≤ q) (h1 : (q : ℝ) ≤ v) (h2 : v < q + 1)
    (hr : r ↔ v = q) : f.Alike (v * 2 ^ (e + 1)) ((2 * q + (if r then 0 else 1) : ℕ) * 2 ^ e) := by
  have hp := two_zpow_pos (e + 1)
  have hq : 2 ^ (f.fb + 2) ≤ q := (Nat.pow_le_pow_right two_pos f.fb_le).trans hq
  split
  · next h =>
    rw [hr.mp h, zpow_add_one₀ two_ne_zero, show (q : ℝ) * (2 ^ e * 2) = (2 * q + 0 : ℕ) * 2 ^ e by push_cast; ring]
    exact FF.Alike.refl f _
  · next h =>
    exact FF.Alike.sticky hq (mul_lt_mul_of_pos_right (lt_of_le_of_ne h1 fun e => h (hr.mpr e.symm)) hp) (mul_lt_mul_of_pos_right h2 hp)

/-! ### Quotients -/

section
variable {ma mb : ℕ} (hma : 0 < ma) (hmb : 0 < mb) (ea eb : ℤ)
include hma hmb

theorem divBits_large : 2 ^ 54 ≤ ma * 2 ^ (60 + mb.log2) / mb := by
  rw [Nat.le_div_iff_mul_le hmb, pow_add]
  have h := (Nat.lt_log2_self (n := mb)).le
  rw [pow_succ] at h
  calc 2 ^ 54 * mb ≤ 2 ^ 54 * (2 ^ mb.log2 * 2) := Nat.mul_le_mul_left _ h
    _ ≤ 1 * (2 ^ 60 * 2 ^ mb.log2) := by have := Nat.one_le_two_pow (n := mb.log2); omega
    _ ≤ _ := Nat.mul_le_mul_right _ hma

theorem divBits_pos : 0 < (divBits ma mb ea eb).1 := by
  have := divBits_large hma hmb
  simp only [divBits]
  omega

theorem divBits_alike (f : FF) : f.Alike (ma * 2 ^ ea / (mb * 2 ^ eb)) ((divBits ma mb ea eb).1 * 2 ^ (divBits ma mb ea eb).2) := by
  have hb : (0 : ℝ) < mb := by exact_mod_cast hmb
  have hlarge := divBits_large hma hmb
  simp only [divBits]
  generalize 60 + mb.log2 = k at *
  have e0 : (ma : ℝ) * 2 ^ ea / (mb * 2 ^ eb) = ((ma * 2 ^ k : ℕ) : ℝ) / mb * 2 ^ (ea - eb - k - 1 + 1) := by
    rw [sub_add_cancel, zpow_sub₀ two_ne_zero, zpow_sub₀ two_ne_zero, zpow_natCast]
    push_cast
    field_simp
  rw [e0]
  generalize ma * 2 ^ k = x at *
  have hx : (x : ℝ) = mb * (x / mb : ℕ) + (x % mb : ℕ) := by exact_mod_cast (Nat.div_add_mod x mb).symm
  have hm : ((x % mb : ℕ) : ℝ) < mb := by exact_mod_cast Nat.mod_lt x hmb
  have hm0 : (0 : ℝ) ≤ (x % mb : ℕ) := Nat.cast_nonneg _
  refine FF.Alike.of_floor hlarge ?_ ?_ ?_
  · rw [le_div_iff₀ hb]; linarith
  · rw [div_lt_iff₀ hb]; linarith
  · rw [div_eq_iff hb.ne', ← @Nat.cast_eq_zero ℝ]
    constructor <;> intro <;> linarith

end

/-! ### Roots -/

theorem isqrtFrom_eq (n i r : ℕ) (h1 : r * r ≤ n) (h2 : n < (r + 2 ^ (i + 1)) * (r + 2 ^ (i + 1))) : isqrtFrom n i r = n.sqrt := by
  induction i generalizing r with
  | zero =>
    rw [isqrtFrom]
    split
    · exact Nat.eq_sqrt.mpr ⟨‹_›, h2⟩
    · exact Nat.eq_sqrt.mpr ⟨h1, not_le.mp ‹_›⟩
  | succ i ih =>
    rw [isqrtFrom]
    split
    · exact ih _ ‹_› (by rw [add_assoc, ← two_mul, ← pow_succ']; exact h2)
    · exact ih _ h1 (not_le.mp ‹_›)

theorem isqrt_eq (n : ℕ) : isqrt n = n.sqrt := by
  refine isqrtFrom_eq n _ 0 n.zero_le ?_
  have h := Nat.lt_log2_self (n := n)
  rw [zero_add, ← pow_add]
  exact h.trans_le (Nat.pow_le_pow_right two_pos (by omega))

theorem sqrtBits_alike (f : FF) {m : ℕ} (hm : 0 < m) (e : ℤ) :
    f.Alike (√(m * 2 ^ e)) ((sqrtBits m e).1 * 2 ^ (sqrtBits m e).2) ∧ 0 < (sqrtBits m e).1 := by
  simp only [sqrtBits, isqrt_eq]
  obtain ⟨s, hs⟩ : ∃ s, s = 128 + (e % 2).toNat := ⟨_, rfl⟩
  rw [← hs]
  have hlarge : 2 ^ 54 ≤ (m * 2 ^ s).sqrt := by
    rw [Nat.le_sqrt]
    calc 2 ^ 54 * 2 ^ 54 ≤ 1 * 2 ^ 128 := by norm_num
      _ ≤ m * 2 ^ s := Nat.mul_le_mul hm (Nat.pow_le_pow_right two_pos (by omega))
  have hv : √(m * 2 ^ e) = √((m * 2 ^ s : ℕ) : ℝ) * 2 ^ ((e - s) / 2 - 1 + 1) := by
    have hk : (2 : ℝ) ^ e = 2 ^ s * (2 ^ ((e - s) / 2)) ^ 2 := by
      rw [← zpow_natCast, ← zpow_natCast, ← zpow_mul, ← zpow_add₀ two_ne_zero]
      congr 1
      push_cast
      omega
    rw [sub_add_cancel, hk, ← mul_assoc, Real.sqrt_mul (by positivity), Real.sqrt_sq (two_zpow_pos _).le]
    push_cast
    rfl
  rw [hv]
  generalize m * 2 ^ s = x at *
  refine ⟨FF.Alike.of_floor hlarge ?_ ?_ ?_, by omega⟩
  · exact Real.le_sqrt_of_sq_le (by exact_mod_cast Nat.sqrt_le' x)
  · rw [Real.sqrt_lt' (by positivity)]
    exact_mod_cast Nat.lt_succ_sqrt' x
  · rw [Real.sqrt_eq_iff_mul_self_eq (Nat.cast_nonneg _) (Nat.cast_nonneg _), eq_comm]
    exact_mod_cast Iff.rfl

end Sys2Proof.Machine
end

section
/-! The arithmetic of finite values (R62, R88): exact sums, products, quotients and roots, rounded once, and the sign of a zero. -/

namespace Sys2Proof.Machine

/-! ### Dyadic numbers -/

/-- The real number of a dyadic. -/
noncomputable def Dy.val (a : Dy) : ℝ := a.n * 2 ^ a.e

theorem Dy.at_val (a : Dy) {e : ℤ} (h : e ≤ a.e) : (a.at_ e : ℝ) * 2 ^ e = a.val := by
  obtain ⟨s, hs⟩ : ∃ s : ℕ, a.e - e = s := ⟨(a.e - e).toNat, by omega⟩
  rw [Dy.at_, hs, Int.toNat_natCast, Dy.val, show a.e = e + s by omega, zpow_add₀ two_ne_zero, zpow_natCast]
  push_cast
  ring

@[simp] theorem Dy.add_val (a b : Dy) : (a.add b).val = a.val + b.val := by
  rw [← a.at_val (min_le_left a.e b.e), ← b.at_val (min_le_right a.e b.e), ← add_mul, Dy.val, Dy.add]
  push_cast
  rfl

@[simp] theorem dyOf_val (neg : Bool) (m : ℕ) (e : ℤ) : (dyOf neg m e).val = signedReal neg (m * 2 ^ e) := by
  cases neg <;> simp [dyOf, Dy.val, signedReal]

theorem Dy.val_eq_zero {a : Dy} : a.val = 0 ↔ a.n = 0 := by
  rw [Dy.val, mul_eq_zero, or_iff_left (two_zpow_pos _).ne', Int.cast_eq_zero]

theorem Dy.val_eq_signedReal (a : Dy) : a.val = signedReal (decide (a.n < 0)) (a.n.natAbs * 2 ^ a.e) := by
  rw [Dy.val, signedReal, Nat.cast_natAbs, Int.cast_abs]
  by_cases h : a.n < 0
  · have : (a.n : ℝ) < 0 := by exact_mod_cast h
    simp [h, abs_of_neg this]
  · have : (0 : ℝ) ≤ a.n := by exact_mod_cast not_lt.mp h
    simp [h, abs_of_nonneg this]

/-- A dyadic number is rounded as R61 says; a zero has the sign given. -/
theorem FF.roundDy_rounds (f : FF) (rm : RM) (fzo z : Bool) (a : Dy) :
    Spec.rounds f rm fzo a.val (f.roundDy rm fzo z a) ∧ (a.val = 0 → (f.roundDy rm fzo z a).bits = f.signBit z) := by
  rw [FF.roundDy, Dy.val_eq_zero]
  split
  · next h =>
    rw [Dy.val_eq_zero.mpr h]
    exact ⟨f.rounds_zero rm fzo z, fun _ => f.zero_eq z⟩
  · next h => exact ⟨a.val_eq_signedReal ▸ f.round_rounds .., fun h0 => absurd h0 h⟩

/-! ### Arithmetic -/

/-- The result `q` is the number `x` rounded once, and a zero of sign `n` where `x` is 0 (R61, R62). -/
def FF.Result (f : FF) (r : Rnd) (x : ℝ) (n : Bool) (q : FR) : Prop := Spec.rounds f r.rm r.fzo x q ∧ (x = 0 → q.bits = f.signBit n)

theorem signedReal_eq_zero {neg : Bool} {m : ℕ} {e : ℤ} : signedReal neg (m * 2 ^ e) = 0 ↔ m = 0 := by
  rw [← dyOf_val, Dy.val_eq_zero]
  cases neg <;> simp [dyOf]

theorem signedReal_not (neg : Bool) (a : ℝ) : signedReal (!neg) a = -signedReal neg a := by cases neg <;> simp [signedReal]

theorem signedReal_mul (na nb : Bool) (a b : ℝ) : signedReal na a * signedReal nb b = signedReal (na != nb) (a * b) := by
  cases na <;> cases nb <;> simp [signedReal]

theorem signedReal_div (na nb : Bool) (a b : ℝ) : signedReal na a / signedReal nb b = signedReal (na != nb) (a / b) := by
  cases na <;> cases nb <;> simp [signedReal, neg_div, div_neg]

/-- A sum of zero: both operands are zero, or their signs differ. -/
theorem zero_sum {na nb : Bool} {ma mb : ℕ} {ea eb : ℤ} (h : signedReal na (ma * 2 ^ ea) + signedReal nb (mb * 2 ^ eb) = 0) (hn : na = nb) :
    ma = 0 ∧ mb = 0 := by
  subst hn
  have h0 : (ma : ℝ) * 2 ^ ea + mb * 2 ^ eb = 0 := by
    cases na
    · exact h
    · simp only [signedReal, if_true] at h; linarith
  have ha : 0 ≤ (ma : ℝ) * 2 ^ ea := by positivity
  have hb : 0 ≤ (mb : ℝ) * 2 ^ eb := by positivity
  exact ⟨signedReal_eq_zero (neg := false) (e := ea).mp (by simp only [signedReal]; simp only [Bool.false_eq_true, if_false]; linarith), signedReal_eq_zero (neg := false) (e := eb).mp (by simp only [signedReal]; simp only [Bool.false_eq_true, if_false]; linarith)⟩

/-- The sign of a zero sum of numbers with the signs `m` and `n` (R62). -/
def RM.sumSign (rm : RM) (m n : Bool) : Bool := if m = n then m else decide (rm = .rdn)

theorem sum_result (f : FF) (r : Rnd) (na nb : Bool) (ma mb : ℕ) (ea eb : ℤ) :
    f.Result r (signedReal na (ma * 2 ^ ea) + signedReal nb (mb * 2 ^ eb)) (r.rm.sumSign na nb)
      (f.roundDy r.rm r.fzo (if ma = 0 && mb = 0 then zeroSign r.rm na nb else r.rm == .rdn) ((dyOf na ma ea).add (dyOf nb mb eb))) := by
  have h := f.roundDy_rounds r.rm r.fzo (if ma = 0 && mb = 0 then zeroSign r.rm na nb else r.rm == .rdn) ((dyOf na ma ea).add (dyOf nb mb eb))
  rw [Dy.add_val, dyOf_val, dyOf_val] at h
  refine ⟨h.1, fun h0 => ?_⟩
  rw [h.2 h0]
  congr 1
  by_cases hn : na = nb
  · obtain ⟨rfl, rfl⟩ := zero_sum h0 hn
    simp [zeroSign, RM.sumSign, hn]
  · simp only [RM.sumSign, if_neg hn, zeroSign, beq_eq_false_iff_ne.mpr hn, Bool.false_eq_true, if_false, ite_self]
    rfl

theorem FF.addV_result (f : FF) (r : Rnd) (na nb : Bool) (ma mb : ℕ) (ea eb : ℤ) :
    f.Result r (signedReal na (ma * 2 ^ ea) + signedReal nb (mb * 2 ^ eb)) (r.rm.sumSign na nb) (f.addV r (.fin na ma ea) (.fin nb mb eb)) :=
  sum_result f r na nb ma mb ea eb

theorem FF.round_result (f : FF) (r : Rnd) (neg : Bool) (m : ℕ) (e : ℤ) :
    f.Result r (signedReal neg (m * 2 ^ e)) neg (f.round r.rm r.fzo neg m e) :=
  ⟨f.round_rounds .., fun h => by rw [signedReal_eq_zero.mp h, f.round_zero]⟩

theorem mul_zpow_mul (ma mb : ℕ) (ea eb : ℤ) : (ma : ℝ) * 2 ^ ea * (mb * 2 ^ eb) = ((ma * mb : ℕ) : ℝ) * 2 ^ (ea + eb) := by
  rw [zpow_add₀ two_ne_zero]; push_cast; ring

theorem FF.mulV_result (f : FF) (r : Rnd) (na nb : Bool) (ma mb : ℕ) (ea eb : ℤ) :
    f.Result r (signedReal na (ma * 2 ^ ea) * signedReal nb (mb * 2 ^ eb)) (na != nb) (f.mulV r (.fin na ma ea) (.fin nb mb eb)) := by
  rw [signedReal_mul, mul_zpow_mul]
  exact f.round_result ..

theorem FF.fmaV_result (f : FF) (r : Rnd) (na nb nc : Bool) (ma mb mc : ℕ) (ea eb ec : ℤ) :
    f.Result r (signedReal na (ma * 2 ^ ea) * signedReal nb (mb * 2 ^ eb) + signedReal nc (mc * 2 ^ ec)) (r.rm.sumSign (na != nb) nc)
      (f.fmaV r (.fin na ma ea) (.fin nb mb eb) (.fin nc mc ec)) := by
  rw [signedReal_mul, mul_zpow_mul]
  exact sum_result f r (na != nb) nc (ma * mb) mc (ea + eb) ec

theorem FF.divV_result (f : FF) (r : Rnd) (na nb : Bool) (ma : ℕ) {mb : ℕ} (hb : mb ≠ 0) (ea eb : ℤ) :
    f.Result r (signedReal na (ma * 2 ^ ea) / signedReal nb (mb * 2 ^ eb)) (na != nb) (f.divV r (.fin na ma ea) (.fin nb mb eb)) := by
  rw [signedReal_div]
  simp only [FF.divV, if_neg hb]
  split
  · next h =>
    subst h
    simpa [FF.Result, signedReal, f.zero_eq] using f.rounds_zero r.rm r.fzo (na != nb)
  · next h =>
    have ha := Nat.pos_of_ne_zero h
    have hb := Nat.pos_of_ne_zero hb
    have hpos : (0 : ℝ) < ma * 2 ^ ea / (mb * 2 ^ eb) := by positivity
    exact ⟨(divBits_alike ha hb ea eb f).rounds hpos (divBits_pos ha hb ea eb), fun h0 => absurd h0 (signedReal_ne_zero hpos)⟩

theorem FF.sqrtV_result (f : FF) (r : Rnd) (neg : Bool) (m : ℕ) (e : ℤ) (h : 0 ≤ signedReal neg (m * 2 ^ e)) :
    f.Result r (√(signedReal neg (m * 2 ^ e))) neg (f.sqrtV r (.fin neg m e)) := by
  simp only [FF.sqrtV]
  split
  · next h =>
    subst h
    simpa [FF.Result, signedReal, f.zero_eq] using f.rounds_zero r.rm r.fzo neg
  · next h0 =>
    have hm := Nat.pos_of_ne_zero h0
    have hpos : (0 : ℝ) < m * 2 ^ e := by positivity
    obtain rfl : neg = false := by
      by_contra hn
      exact absurd ((signedReal_neg_iff hpos).mpr (by simpa using hn)) (not_lt.mpr h)
    have hs := sqrtBits_alike f hm e
    have hr := (hs.1).rounds (rm := r.rm) (fzo := r.fzo) (neg := false) (Real.sqrt_pos.mpr hpos) hs.2
    exact ⟨hr, fun h0 => absurd h0 (Real.sqrt_pos.mpr hpos).ne'⟩

/-! ### Operands -/

theorem FF.signed_lt (f : FF) : f.width - 1 = f.eb + f.fb := by rw [FF.width]; omega

/-- What a pattern is read as: a number, with the sign of the pattern, or none. -/
theorem FF.val_cases (f : FF) (b : ℕ) : let s := b / 2 ^ (f.eb + f.fb) % 2 == 1
    (Spec.value f b = none ∧ Spec.fin (f.val b) = none ∧ ¬b % 2 ^ (f.eb + f.fb) < 2 ^ f.fb) ∨
      ∃ m e, f.val b = .fin s m e ∧ Spec.value f b = some (Spec.rat s m e) ∧ (m < 2 ^ f.fb ↔ b % 2 ^ (f.eb + f.fb) < 2 ^ f.fb) := by
  intro s
  have hmag : b % 2 ^ (f.eb + f.fb) < 2 ^ f.fb ↔ b / 2 ^ f.fb % 2 ^ f.eb = 0 := by
    rw [add_comm f.eb, pow_add, ← Nat.div_eq_zero_iff_lt (by positivity), Nat.mod_mul_right_div_self]
  have hsgn : (if b / 2 ^ (f.eb + f.fb) % 2 = 1 then (-1 : ℚ) else 1) = if s then -1 else 1 := by simp [s]
  rw [hmag]
  unfold FF.val Spec.value
  rw [show (b / 2 ^ (f.eb + f.fb) % 2 == 1) = s from rfl, hsgn]
  have ht : b % 2 ^ f.fb < 2 ^ f.fb := Nat.mod_lt _ (by positivity)
  have heb : 2 ^ f.eb - 1 ≠ 0 := by cases f <;> decide
  generalize b % 2 ^ f.fb = t at *
  generalize b / 2 ^ f.fb % 2 ^ f.eb = x at *
  by_cases h1 : f.hasInf = true ∧ x = 2 ^ f.eb - 1
  · refine .inl ⟨if_pos (.inl h1), ?_, by rw [h1.2]; exact heb⟩
    simp only [h1, BEq.rfl, Bool.and_self, if_true]
    split <;> rfl
  · by_cases h2 : f = .e4m3 ∧ x = 15 ∧ t = 7
    · refine .inl ⟨if_pos (.inr h2), ?_, by omega⟩
      obtain ⟨rfl, rfl, rfl⟩ := h2
      rfl
    · have e1 : (f.hasInf && x == 2 ^ f.eb - 1) = false := by simpa using h1
      have e2 : (f == .e4m3 && x == 15 && t == 7) = false := by simpa [and_assoc] using h2
      rw [if_neg (by tauto)]
      simp only [e1, e2, Bool.false_eq_true, if_false]
      by_cases h3 : x = 0
      · refine .inr ⟨t, f.emin - f.fb, by simp [h3], ?_, iff_of_true ht h3⟩
        rw [if_pos h3]
        rfl
      · refine .inr ⟨2 ^ f.fb + t, x - f.bias - f.fb, by simp [h3], ?_, iff_of_false (by omega) h3⟩
        rw [if_neg h3]
        rfl

/-- An operand that is a number is read as that number, with the sign of its pattern (R56, R60). -/
theorem FF.valZ_cases (f : FF) (fzi : Bool) (b : ℕ) : let s := b / 2 ^ (f.eb + f.fb) % 2 == 1
    (Spec.operand f fzi b = none ∧ Spec.fin (f.valZ fzi b) = none) ∨
      ∃ m e, f.valZ fzi b = .fin s m e ∧ Spec.operand f fzi b = some (Spec.rat s m e) := by
  intro s
  unfold FF.valZ Spec.operand
  rcases f.val_cases b with ⟨hv, hf, hm⟩ | ⟨m, e, hv, he, hm⟩
  · refine .inl ⟨by rw [if_neg (by tauto), hv], ?_⟩
    generalize f.val b = v at *
    cases v
    · exact hf
    · exact hf
    · cases hf
  · rw [hv, he]
    by_cases hz : fzi = true ∧ m < 2 ^ f.fb
    · exact .inr ⟨0, e, by simp [hz, s], by rw [if_pos (by rwa [← hm])]; simp [Spec.rat]⟩
    · exact .inr ⟨m, e, by simp only [Bool.and_eq_true, decide_eq_true_eq, if_neg hz]; rfl, by rw [if_neg (by rwa [← hm])]⟩

theorem FF.val_mod (f : FF) (b : ℕ) : f.val (b % 2 ^ f.width) = f.val b := by
  have hw : 2 ^ f.width = 2 ^ f.fb * (2 ^ f.eb * 2) := by rw [FF.width, show 1 + f.eb + f.fb = f.fb + (f.eb + 1) by omega, pow_add, pow_succ]
  have h1 : b % 2 ^ f.width % 2 ^ f.fb = b % 2 ^ f.fb := by rw [hw, Nat.mod_mul_right_mod]
  have h2 : b % 2 ^ f.width / 2 ^ f.fb % 2 ^ f.eb = b / 2 ^ f.fb % 2 ^ f.eb := by rw [hw, Nat.mod_mul_right_div_self, Nat.mod_mul_right_mod]
  have h3 : b % 2 ^ f.width / 2 ^ (f.eb + f.fb) % 2 = b / 2 ^ (f.eb + f.fb) % 2 := by
    rw [hw, ← mul_assoc, ← pow_add, add_comm f.fb, Nat.mod_mul_right_div_self, Nat.mod_mod]
  unfold FF.val
  rw [h1, h2, h3]

theorem FF.valZ_mod (f : FF) (fzi : Bool) (b : ℕ) : f.valZ fzi (b % 2 ^ f.width) = f.valZ fzi b := by
  rw [FF.valZ, FF.valZ, f.val_mod]

theorem FF.valZ_of_operand {f : FF} {fzi : Bool} {b : ℕ} {a : ℚ} (h : Spec.operand f fzi b = some a) :
    ∃ m e, f.valZ fzi b = .fin (b / 2 ^ (f.eb + f.fb) % 2 == 1) m e ∧ a = Spec.rat (b / 2 ^ (f.eb + f.fb) % 2 == 1) m e := by
  rcases f.valZ_cases fzi b with ⟨h0, -⟩ | ⟨m, e, hv, ho⟩
  · rw [h] at h0; cases h0
  · exact ⟨m, e, hv, Option.some.inj (h.symm.trans ho)⟩

theorem FF.fin_valZ (f : FF) (fzi : Bool) (b : ℕ) : Spec.fin (f.valZ fzi b) = Spec.operand f fzi b := by
  rcases f.valZ_cases fzi b with ⟨h0, h1⟩ | ⟨m, e, hv, ho⟩
  · rw [h0, h1]
  · rw [hv, ho]; rfl

end Sys2Proof.Machine
end

section
/-! The scalar float instructions (R61, R64, R88): how they complete, and with what. -/

namespace Sys2Proof.Machine

theorem mode_eq (s : State) (r : FRound) : Spec.mode s r = s.cur.rnd r := by
  have h : (fun m : BitVec 4 => if m.toNat % 4 = 0 then RM.rne else if m.toNat % 4 = 1 then .rtz else if m.toNat % 4 = 2 then .rdn else .rup) = fpmRm := by
    funext m
    have : m.toNat % 4 < 4 := Nat.mod_lt _ (by decide)
    unfold fpmRm
    generalize m.toNat % 4 = k at *
    interval_cases k <;> rfl
  cases r <;> simp [Spec.mode, Strand.rnd, fpmRnd, ← h]

/-- A float result written behind marks, with its flags and its count. -/
theorem completesR_of {i : Instr} {s : State} {c : Strand} {d : SReg} {mS : List SReg} {v : FR}
    (he : exec i s = .next (s.retireFp ((c.writeS d (BitVec.ofNat 64 v.bits)).advance 4) v.fl v.sat)) (hk : s.cur.keeps c {} mS [])
    (hc : c.ctl = s.cur.ctl) (hp : c.pc = s.cur.pc) : completesR i s d mS v := by
  obtain ⟨⟨-, hk', hc', hp', hw'⟩, hv, hf⟩ := retires_writeS (s := s) 4 d (BitVec.ofNat 64 v.bits) hk hc hp
  simp only [State.cur_setCur] at hk' hc' hp' hw' hv hf
  obtain ⟨hr, e⟩ := retiresFlags_of (fl := v.fl) (sat := v.sat) hk' hc' hp' hw'
  exact ⟨_, he, hr, by rw [e]; exact hv, by rw [e]; exact hf⟩

/-! ### What each instruction runs -/

theorem exec_fadd (o : OpF2) (s : State) : exec (.fadd o) s =
    float2 (rrrOf o) o.r (fun r x y => (precFF o.prec).addV r (precRead o.prec r x) (precRead o.prec r y)) s := rfl

theorem exec_fsub (o : OpF2) (s : State) : exec (.fsub o) s =
    float2 (rrrOf o) o.r (fun r x y => (precFF o.prec).addV r (precRead o.prec r x) (precRead o.prec r y).negate) s := rfl

theorem exec_fmul (o : OpF2) (s : State) : exec (.fmul o) s =
    float2 (rrrOf o) o.r (fun r x y => (precFF o.prec).mulV r (precRead o.prec r x) (precRead o.prec r y)) s := rfl

theorem exec_fdiv (o : OpF2) (s : State) : exec (.fdiv o) s =
    float2 (rrrOf o) o.r (fun r x y => (precFF o.prec).divV r (precRead o.prec r x) (precRead o.prec r y)) s := rfl

theorem exec_fsqrt (o : OpRR) (p : Prec) (fr : FRound) (s : State) : exec (.fsqrt o p fr) s =
    float1 o fr (fun r x => (precFF p).sqrtV r (precRead p r x.toNat)) s := rfl

theorem exec_ffma_eq (o : OpF2) (s : State) : exec (.ffma o) s = execFfma o s := rfl

section
variable {s : State}

theorem completesR_float2 {i : Instr} (o : OpF2) {f : Rnd → ℕ → ℕ → FR} (he : exec i s = float2 (rrrOf o) o.r f s)
    (ha : s.cur.sState o.a = .full) (hb : s.cur.sState o.b = .full) (hd : s.cur.sState o.d ≠ .pending) :
    completesR i s o.d (marked [(o.a, o.la), (o.b, o.lb)]) (f (Spec.mode s o.r) (s.cur.sVal o.a).toNat (s.cur.sVal o.b).toNat) := by
  rw [mode_eq]
  exact completesR_of (he.trans (float2_eq (rrrOf o) o.r f s ha hb hd)) (s.cur.keeps_marks2 ..) (by simp [rrrOf]) (by simp [rrrOf])

theorem completesR_fsqrt (o : OpRR) (p : Prec) (fr : FRound) (ha : s.cur.sState o.a = .full) (hd : s.cur.sState o.d ≠ .pending) :
    completesR (.fsqrt o p fr) s o.d (marked [(o.a, o.la)])
      ((precFF p).sqrtV (Spec.mode s fr) (precRead p (Spec.mode s fr) (s.cur.sVal o.a).toNat)) := by
  rw [mode_eq]
  exact completesR_of ((exec_fsqrt o p fr s).trans (float1_eq o fr _ s ha hd)) (s.cur.keeps_markS ..) (by simp) (by simp)

theorem exec_ffma (o : OpF2) (ha : s.cur.sState o.a = .full) (hb : s.cur.sState o.b = .full) (hd : s.cur.sState o.d = .full) :
    let r := s.cur.rnd o.r
    let v := (precFF o.prec).fmaV r (precRead o.prec r (s.cur.sVal o.a).toNat) (precRead o.prec r (s.cur.sVal o.b).toNat)
      (precRead o.prec r (s.cur.sVal o.d).toNat)
    exec (.ffma o) s = .next (s.retireFp ((((s.cur.markS o.a o.la).markS o.b o.lb).writeS o.d (BitVec.ofNat 64 v.bits)).advance 4) v.fl v.sat) := by
  intro r v
  refine (exec_ffma_eq o s).trans (run_ok ?_)
  simp only [readS_full _ _ ha, readS_full _ _ hb, readS_full _ _ hd]
  rfl

theorem completesR_ffma (o : OpF2) (ha : s.cur.sState o.a = .full) (hb : s.cur.sState o.b = .full) (hd : s.cur.sState o.d = .full) :
    completesR (.ffma o) s o.d (marked [(o.a, o.la), (o.b, o.lb)]) ((precFF o.prec).fmaV (Spec.mode s o.r)
      (precRead o.prec (Spec.mode s o.r) (s.cur.sVal o.a).toNat) (precRead o.prec (Spec.mode s o.r) (s.cur.sVal o.b).toNat)
      (precRead o.prec (Spec.mode s o.r) (s.cur.sVal o.d).toNat)) := by
  rw [mode_eq]
  exact completesR_of (exec_ffma o ha hb hd) (s.cur.keeps_marks2 ..) (by simp) (by simp)

theorem completesR_two : ∀ e ∈ Spec.float2, ∀ (o : OpF2), s.cur.sState o.a = .full → s.cur.sState o.b = .full → s.cur.sState o.d ≠ .pending →
    completesR (e.1 o) s o.d (marked [(o.a, o.la), (o.b, o.lb)]) (e.2 (precFF o.prec) (Spec.mode s o.r)
      (precRead o.prec (Spec.mode s o.r) (s.cur.sVal o.a).toNat) (precRead o.prec (Spec.mode s o.r) (s.cur.sVal o.b).toNat)) := by
  simp only [Spec.float2, List.forall_mem_cons, List.not_mem_nil, false_imp_iff, implies_true, and_true]
  exact ⟨fun o => completesR_float2 o (exec_fadd o s), fun o => completesR_float2 o (exec_fsub o s), fun o => completesR_float2 o (exec_fmul o s),
    fun o => completesR_float2 o (exec_fdiv o s)⟩

end

theorem precFF_width (p : Prec) : (precFF p).width = Spec.width p := by cases p <;> rfl

/-- A finite operand of a scalar float instruction: its sign and its number. -/
theorem precRead_of_operand {p : Prec} {r : Rnd} {x : ℕ} {a : ℚ} (h : Spec.operand (precFF p) r.fzi x = some a) :
    ∃ m e, precRead p r x = .fin (Spec.neg (Spec.width p) x) m e ∧ (a : ℝ) = signedReal (Spec.neg (Spec.width p) x) (m * 2 ^ e) := by
  obtain ⟨m, e, hv, rfl⟩ := FF.valZ_of_operand h
  have hn : (x / 2 ^ ((precFF p).eb + (precFF p).fb) % 2 == 1) = Spec.neg (Spec.width p) x := by
    rw [Spec.neg, ← precFF_width, FF.signed_lt]
    rfl
  exact ⟨m, e, by rw [precRead, FF.valZ_mod, hv, hn], by rw [cast_rat, hn]⟩

theorem signed_zero (p : Prec) (n : Bool) : Spec.signed (Spec.width p) n 0 = (precFF p).signBit n := by
  rw [Spec.signed, FF.signBit, ← FF.signed_lt, precFF_width, Nat.zero_add]

/-- Settles O3: each instruction is one equation for `exec`, and its value on finite operands is the exact result, rounded once. -/
theorem floatArithmeticCompletes : Obligations.FloatArithmeticCompletes := by
  refine ⟨fun e he o s => completesR_two e he o, fun o s => completesR_ffma o, fun o p fr s => completesR_fsqrt o p fr, ?_⟩
  intro o s ha hb hd r v neg sum ends both sg a b hva hvb
  obtain ⟨ma, ea, ea', ra⟩ := precRead_of_operand hva
  obtain ⟨mb, eb, eb', rb⟩ := precRead_of_operand hvb
  have ends_of {i : Instr} {m : List SReg} {x : ℝ} {n : Bool} {q : FR} (hc : completesR i s o.d m q)
      (hq : (precFF o.prec).Result r x n q) : ends i m x n :=
    ⟨q, hc, hq.1, fun h0 => by rw [hq.2 h0, signed_zero]⟩
  have two := fun e he => completesR_two (s := s) e he o ha hb hd
  simp only [Spec.float2, List.forall_mem_cons, List.not_mem_nil, false_imp_iff, implies_true, and_true] at two
  obtain ⟨hadd, hsub, hmul, hdiv⟩ := two
  rw [ra, rb]
  rw [ea', eb'] at hadd hsub hmul hdiv
  refine ⟨ends_of hadd (FF.addV_result ..), ends_of hsub ?_, ends_of hmul (FF.mulV_result ..), fun h0 => ends_of hdiv (FF.divV_result _ _ _ _ _ ?_ _ _),
    fun c hc hd => ?_, fun h0 => ?_⟩
  · have := FF.addV_result (precFF o.prec) r (neg o.a) (!neg o.b) ma mb ea eb
    rw [signedReal_not, ← sub_eq_add_neg] at this
    exact this
  · rintro rfl
    exact h0 (by exact_mod_cast rb.trans (signedReal_eq_zero.mpr rfl))
  · obtain ⟨mc, ec, ec', rc⟩ := precRead_of_operand hc
    have hfma := completesR_ffma o ha hb hd
    rw [ea', eb', ec'] at hfma
    rw [rc]
    exact ends_of hfma (FF.fmaV_result ..)
  · have hs := completesR_fsqrt ⟨o.d, o.a, o.la⟩ o.prec o.r ha hd
    rw [show precRead o.prec (Spec.mode s o.r) (s.cur.sVal o.a).toNat = _ from ea'] at hs
    exact ends_of hs (FF.sqrtV_result _ _ _ _ _ (by rw [← ra]; exact_mod_cast h0))

end Sys2Proof.Machine
end

section
/-! F32 bounds (R56, R69): the extended real number of a pattern, its place in the order of patterns, and the intervals that patterns stand
for. -/

namespace Sys2Proof.Machine

/-! ### Magnitudes in order -/

/-- The number of a magnitude field, infinity's among them as the next power of two. -/
noncomputable def FF.magVal (f : FF) (m : ℕ) : ℝ :=
  if m / 2 ^ f.fb = 0 then m * 2 ^ (f.emin - f.fb) else (2 ^ f.fb + m % 2 ^ f.fb : ℕ) * 2 ^ ((m / 2 ^ f.fb : ℕ) - (f.bias : ℤ) - f.fb)

theorem FF.magVal_of_val {f : FF} {b : ℕ} {s : Bool} {m : ℕ} {e : ℤ} (h : f.val b = .fin s m e) :
    (m : ℝ) * 2 ^ e = f.magVal (b % 2 ^ (f.eb + f.fb)) ∧ s = (b / 2 ^ (f.eb + f.fb) % 2 == 1) := by
  have hx : b % 2 ^ (f.eb + f.fb) / 2 ^ f.fb = b / 2 ^ f.fb % 2 ^ f.eb := by
    rw [add_comm f.eb, pow_add, Nat.mod_mul_right_div_self]
  have ht : b % 2 ^ (f.eb + f.fb) % 2 ^ f.fb = b % 2 ^ f.fb := by rw [add_comm f.eb, pow_add, Nat.mod_mul_right_mod]
  have hm : b % 2 ^ (f.eb + f.fb) = 2 ^ f.fb * (b / 2 ^ f.fb % 2 ^ f.eb) + b % 2 ^ f.fb := by rw [← hx, ← ht, Nat.div_add_mod]
  rw [FF.magVal, hx, ht, hm]
  unfold FF.val at h
  generalize b % 2 ^ f.fb = t at *
  generalize b / 2 ^ f.fb % 2 ^ f.eb = x at *
  dsimp only at h
  split at h
  · split at h <;> cases h
  · split at h
    · cases h
    · split at h
      · next h0 =>
        obtain rfl : x = 0 := by simpa using h0
        cases h
        simp
      · next h0 =>
        have h0 : ¬x = 0 := by simpa using h0
        cases h
        simp [h0]

theorem FF.magVal_strictMono (f : FF) : StrictMono f.magVal := by
  refine strictMono_nat_of_lt_succ fun m => ?_
  have hp : 0 < 2 ^ f.fb := by positivity
  have hm := Nat.div_add_mod m (2 ^ f.fb)
  have ht := Nat.mod_lt m hp
  unfold FF.magVal
  rcases Nat.lt_or_ge (m % 2 ^ f.fb + 1) (2 ^ f.fb) with h | h
  · have e1 : (m + 1) / 2 ^ f.fb = m / 2 ^ f.fb := by
      rw [← hm, add_assoc, Nat.mul_add_div hp, Nat.div_eq_of_lt h, Nat.mul_add_div hp, Nat.div_eq_of_lt ht]
    have e2 : (m + 1) % 2 ^ f.fb = m % 2 ^ f.fb + 1 := by
      conv_lhs => rw [← hm, add_assoc, Nat.mul_add_mod, Nat.mod_eq_of_lt h]
    rw [e1, e2]
    split
    · exact mul_lt_mul_of_pos_right (by push_cast; linarith) (two_zpow_pos _)
    · exact mul_lt_mul_of_pos_right (by push_cast; linarith) (two_zpow_pos _)
  · have ht1 : m % 2 ^ f.fb + 1 = 2 ^ f.fb := by omega
    have e0 : m + 1 = 2 ^ f.fb * (m / 2 ^ f.fb + 1) := by rw [mul_add, mul_one, ← ht1, ← add_assoc, ht1, hm]
    have e1 : (m + 1) / 2 ^ f.fb = m / 2 ^ f.fb + 1 := by rw [e0, Nat.mul_div_cancel_left _ hp]
    have e2 : (m + 1) % 2 ^ f.fb = 0 := by rw [e0, Nat.mul_mod_right]
    rw [e1, e2, if_neg (Nat.succ_ne_zero _)]
    split
    · next h0 =>
      have hmt : m < 2 ^ f.fb := by rwa [Nat.div_eq_zero_iff_lt hp] at h0
      rw [h0, show ((0 + 1 : ℕ) : ℤ) - (f.bias : ℤ) - f.fb = f.emin - f.fb by rw [FF.emin]; push_cast; ring]
      exact mul_lt_mul_of_pos_right (by exact_mod_cast hmt) (two_zpow_pos _)
    · have e3 : (2 : ℝ) ^ (((m / 2 ^ f.fb + 1 : ℕ) : ℤ) - f.bias - f.fb) = 2 * 2 ^ ((m / 2 ^ f.fb : ℕ) - (f.bias : ℤ) - f.fb) := by
        rw [show ((m / 2 ^ f.fb + 1 : ℕ) : ℤ) - (f.bias : ℤ) - f.fb = ((m / 2 ^ f.fb : ℕ) - (f.bias : ℤ) - f.fb) + 1 by push_cast; ring,
          zpow_add_one₀ two_ne_zero, mul_comm]
      rw [e3, ← mul_assoc]
      refine mul_lt_mul_of_pos_right ?_ (two_zpow_pos _)
      exact_mod_cast (by omega : 2 ^ f.fb + m % 2 ^ f.fb < (2 ^ f.fb + 0) * 2)

theorem FF.magVal_zero (f : FF) : f.magVal 0 = 0 := by simp [FF.magVal]

/-! ### Ends as extended reals -/

/-- The extended real number of an end. -/
noncomputable def End.ext : End → EReal
  | .ninf => ⊥
  | .fin r => ((r : ℝ) : EReal)
  | .pinf => ⊤

theorem End.le_iff (a b : End) : End.le a b = true ↔ a.ext ≤ b.ext := by
  cases a <;> cases b <;> simp [End.le, End.ext]

theorem End.lt_iff (a b : End) : End.lt a b = true ↔ a.ext < b.ext := by
  rw [End.lt, Bool.not_eq_true', ← Bool.not_eq_true, End.le_iff, not_le]

theorem End.ext_injective : Function.Injective End.ext := by
  intro a b h
  cases a <;> cases b <;> simp_all [End.ext]

theorem End.ext_neg (a : End) : a.neg.ext = -a.ext := by cases a <;> simp [End.neg, End.ext]

theorem cast_ratOf (neg : Bool) (m : ℕ) (e : ℤ) : ((ratOf neg m e : ℚ) : ℝ) = signedReal neg (m * 2 ^ e) := by
  have h : (((if 0 ≤ e then (m : ℚ) * (2 ^ e.toNat : ℕ) else mkRat m (2 ^ (-e).toNat)) : ℚ) : ℝ) = m * 2 ^ e := by
    split
    · next h =>
      push_cast
      rw [← zpow_natCast, Int.toNat_of_nonneg h]
    · next h =>
      rw [Rat.mkRat_eq_div]
      push_cast
      rw [← zpow_natCast, Int.toNat_of_nonneg (by omega), zpow_neg, div_inv_eq_mul]
  cases neg
  · simpa [ratOf, signedReal] using h
  · simpa [ratOf, signedReal] using h

/-! ### F32 patterns -/

theorem f32_val_cases (b : ℕ) : let n := b / 2 ^ 31 % 2 == 1
    (0x7F800000 < b % 2 ^ 31 ∧ ∃ s, FF.f32.val b = .nan s) ∨ (b % 2 ^ 31 = 0x7F800000 ∧ FF.f32.val b = .inf n) ∨
      (b % 2 ^ 31 < 0x7F800000 ∧ ∃ m e, FF.f32.val b = .fin n m e) := by
  intro n
  have hm : b % 2 ^ 31 = 2 ^ 23 * (b / 2 ^ 23 % 2 ^ 8) + b % 2 ^ 23 := by omega
  have ht : b % 2 ^ 23 < 2 ^ 23 := Nat.mod_lt _ (by decide)
  have hx : b / 2 ^ 23 % 2 ^ 8 < 2 ^ 8 := Nat.mod_lt _ (by decide)
  have hv : FF.f32.val b = if b / 2 ^ 23 % 2 ^ 8 = 255 then (if b % 2 ^ 23 = 0 then .inf n else .nan (true && b % 2 ^ 23 / 2 ^ 22 == 0))
      else if b / 2 ^ 23 % 2 ^ 8 = 0 then .fin n (b % 2 ^ 23) (FF.emin .f32 - FF.fb .f32)
      else .fin n (2 ^ 23 + b % 2 ^ 23) ((b / 2 ^ 23 % 2 ^ 8 : ℕ) - (127 : ℕ) - (23 : ℕ)) := by
    simp [FF.val, FF.fb, FF.eb, FF.hasInf, FF.ieee, FF.bias, n]
  rw [hv]
  generalize b / 2 ^ 23 % 2 ^ 8 = x at *
  generalize b % 2 ^ 23 = t at *
  by_cases h1 : x = 255
  · by_cases h2 : t = 0
    · exact .inr (.inl ⟨by omega, by rw [if_pos h1, if_pos h2]⟩)
    · exact .inl ⟨by omega, _, by rw [if_pos h1, if_neg h2]⟩
  · refine .inr (.inr ⟨by omega, ?_⟩)
    rw [if_neg h1]
    split <;> exact ⟨_, _, rfl⟩

/-- The extended real number of an F32 magnitude that is no NaN. -/
noncomputable def magExt (m : ℕ) : EReal := if m = 0x7F800000 then ⊤ else (FF.f32.magVal m : ℝ)

/-- The extended real number of a place in the order of F32 patterns. -/
noncomputable def placeExt (k : ℤ) : EReal := if k < 0 then -magExt (-k).toNat else magExt k.toNat

theorem magExt_lt {m n : ℕ} (h : m < n) (hn : n ≤ 0x7F800000) : magExt m < magExt n := by
  unfold magExt
  rw [if_neg (by omega)]
  split
  · exact EReal.coe_lt_top _
  · exact EReal.coe_lt_coe_iff.mpr (FF.f32.magVal_strictMono h)

theorem magExt_zero : magExt 0 = 0 := by simp [magExt, FF.magVal_zero]

theorem magExt_pos {m : ℕ} (h : 0 < m) (hm : m ≤ 0x7F800000) : 0 < magExt m := magExt_zero ▸ magExt_lt h hm

theorem placeExt_lt {j k : ℤ} (h : j < k) (hj : -0x7F800000 ≤ j) (hk : k ≤ 0x7F800000) : placeExt j < placeExt k := by
  unfold placeExt
  split
  · next hj0 =>
    split
    · exact EReal.neg_lt_neg_iff.mpr (magExt_lt (by omega) (by omega))
    · next hk0 =>
      have h1 : -magExt (-j).toNat < 0 := by
        rw [← neg_zero, EReal.neg_lt_neg_iff]
        exact magExt_pos (by omega) (by omega)
      rcases k.toNat.eq_zero_or_pos with h0 | h0
      · rw [h0, magExt_zero]; exact h1
      · exact h1.trans (magExt_pos h0 (by omega))
  · rw [if_neg (by omega)]
    exact magExt_lt (by omega) (by omega)

/-- A place that an F32 pattern which is no NaN can have. -/
theorem placeExt_le_iff {j k : ℤ} (hj : |j| ≤ 0x7F800000) (hk : |k| ≤ 0x7F800000) : placeExt j ≤ placeExt k ↔ j ≤ k := by
  rw [abs_le] at hj hk
  refine ⟨fun h => not_lt.mp fun hlt => absurd (placeExt_lt hlt hk.1 hj.2) (not_lt.mpr h), fun h => ?_⟩
  rcases h.lt_or_eq with h | rfl
  · exact (placeExt_lt h hj.1 hk.2).le
  · exact le_rfl

section
variable {b : ℕ}

theorem isNan_iff : Spec.isNan .f32 b = false ↔ b % 2 ^ 31 ≤ 0x7F800000 := by
  rw [Spec.isNan, decide_eq_false_iff_not, not_lt]
  rfl

theorem place_eq (b : ℕ) : Spec.place .f32 false b = if b / 2 ^ 31 % 2 = 1 then -((b % 2 ^ 31 : ℕ) : ℤ) else (b % 2 ^ 31 : ℕ) := by
  by_cases h : b / 2 ^ 31 % 2 = 1
  · rw [if_pos h, Spec.place, if_pos (show Spec.neg _ b = true from decide_eq_true h)]; rfl
  · rw [if_neg h, Spec.place, if_neg (show ¬Spec.neg _ b = true by rw [Spec.neg, decide_eq_true_eq]; exact h)]; rfl

theorem abs_place_le (h : b % 2 ^ 31 ≤ 0x7F800000) : |Spec.place .f32 false b| ≤ 0x7F800000 := by
  rw [place_eq, abs_le]
  split <;> omega

/-- A bound is the extended real number of its place. -/
theorem endOf_ext (h : b % 2 ^ 31 ≤ 0x7F800000) : (endOf b).ext = placeExt (Spec.place .f32 false b) := by
  have hneg (hs : b / 2 ^ 31 % 2 = 1) : placeExt (Spec.place .f32 false b) = -magExt (b % 2 ^ 31) := by
    rw [place_eq, if_pos hs, placeExt]
    split
    · rw [neg_neg, Int.toNat_natCast]
    · next h0 => rw [show b % 2 ^ 31 = 0 by omega]; simp [magExt_zero]
  have hpos (hs : ¬b / 2 ^ 31 % 2 = 1) : placeExt (Spec.place .f32 false b) = magExt (b % 2 ^ 31) := by
    rw [place_eq, if_neg hs, placeExt, if_neg (by omega), Int.toNat_natCast]
  rcases f32_val_cases b with ⟨hm, -⟩ | ⟨hm, hv⟩ | ⟨hm, m, e, hv⟩
  · omega
  · rw [endOf, hv]
    by_cases hs : b / 2 ^ 31 % 2 = 1
    · rw [hneg hs, hm, beq_iff_eq.mpr hs]
      simp [End.ext, magExt]
    · rw [hpos hs, hm, beq_eq_false_iff_ne.mpr hs]
      simp [End.ext, magExt]
  · have hmag : (m : ℝ) * 2 ^ e = FF.f32.magVal (b % 2 ^ 31) := (FF.magVal_of_val hv).1
    have hmE : magExt (b % 2 ^ 31) = ((FF.f32.magVal (b % 2 ^ 31) : ℝ) : EReal) := if_neg hm.ne
    rw [endOf, hv]
    simp only [End.ext, cast_ratOf]
    by_cases hs : b / 2 ^ 31 % 2 = 1
    · rw [hneg hs, hmE, ← EReal.coe_neg, hmag, beq_iff_eq.mpr hs]
      rfl
    · rw [hpos hs, hmE, hmag, beq_eq_false_iff_ne.mpr hs]
      rfl

/-- The number of a finite bound. -/
theorem endOf_of_value {q : ℚ} (h : Spec.value .f32 b = some q) : endOf b = .fin q := by
  rcases FF.f32.val_cases b with ⟨h0, -⟩ | ⟨m, e, hv, h1, -⟩
  · rw [h] at h0; cases h0
  · rw [endOf, hv]
    have : ((q : ℚ) : ℝ) = ((ratOf (b / 2 ^ (FF.f32.eb + FF.f32.fb) % 2 == 1) m e : ℚ) : ℝ) := by
      rw [cast_ratOf, ← cast_rat, Option.some.inj (h.symm.trans h1)]
    rw [Rat.cast_injective this]

end

end Sys2Proof.Machine
end

section
/-! Directed rounding to F32 bounds (R61, R139): the greatest bound below a number, and the least above it. -/

namespace Sys2Proof.Machine

/-! ### Bounds -/

/-- An F32 pattern that is no NaN. -/
def IsNum (b : ℕ) : Prop := b < 2 ^ 32 ∧ b % 2 ^ 31 ≤ 0x7F800000

theorem endOf_inf {b : ℕ} (h : IsNum b) : (endOf b = .pinf ↔ b = 0x7F800000) ∧ (endOf b = .ninf ↔ b = 0xFF800000) := by
  obtain ⟨hb, hm⟩ := h
  rcases f32_val_cases b with ⟨h1, -⟩ | ⟨h1, hv⟩ | ⟨h1, m, e, hv⟩
  · omega
  · rw [endOf, hv]
    by_cases hs : b / 2 ^ 31 % 2 = 1
    · rw [beq_iff_eq.mpr hs]
      simp only [if_true, reduceCtorEq, false_iff, true_iff]
      omega
    · rw [beq_eq_false_iff_ne.mpr hs]
      simp only [Bool.false_eq_true, if_false, reduceCtorEq, false_iff, true_iff]
      omega
  · rw [endOf, hv]
    simp only [reduceCtorEq, false_iff]
    omega

theorem value_cases {b : ℕ} (h : IsNum b) : (b % 2 ^ 31 = 0x7F800000 ∧ Spec.value .f32 b = none) ∨
    (b % 2 ^ 31 < 0x7F800000 ∧ ∃ q, Spec.value .f32 b = some q ∧ endOf b = .fin q) := by
  rcases FF.f32.val_cases b with ⟨h0, h1, -⟩ | ⟨m, e, hv, h0, -⟩
  · rcases f32_val_cases b with ⟨h2, -⟩ | ⟨h2, -⟩ | ⟨-, m, e, hv⟩
    · exact absurd h.2 (by omega)
    · exact .inl ⟨h2, h0⟩
    · rw [hv] at h1; cases h1
  · rcases f32_val_cases b with ⟨h2, -⟩ | ⟨-, hv'⟩ | ⟨h2, -⟩
    · exact absurd h.2 (by omega)
    · rw [hv] at hv'; cases hv'
    · exact .inr ⟨h2, _, h0, endOf_of_value h0⟩

theorem mag_lt_of_value {b : ℕ} {q : ℚ} (h : Spec.value .f32 b = some q) : b % 2 ^ 31 < 0x7F800000 := by
  rcases FF.f32.val_cases b with ⟨h0, -⟩ | ⟨m, e, hv, -⟩
  · rw [h] at h0; cases h0
  · rcases f32_val_cases b with ⟨-, s, h2⟩ | ⟨-, h2⟩ | ⟨h2, -⟩
    · rw [hv] at h2; cases h2
    · rw [hv] at h2; cases h2
    · exact h2

theorem IsNum.ext_le_iff {a b : ℕ} (ha : IsNum a) (hb : IsNum b) :
    (endOf a).ext ≤ (endOf b).ext ↔ Spec.place .f32 false a ≤ Spec.place .f32 false b := by
  rw [endOf_ext ha.2, endOf_ext hb.2, placeExt_le_iff (abs_place_le ha.2) (abs_place_le hb.2)]

/-- `b` is the greatest bound that is no greater than `x`. -/
structure LowerBound (b : ℕ) (x : EReal) : Prop where
  num : IsNum b
  ne : b ≠ 0x7F800000
  le : (endOf b).ext ≤ x
  greatest : ∀ c, IsNum c → (endOf c).ext ≤ x → (endOf c).ext ≤ (endOf b).ext

/-- `b` is the least bound that is no less than `x`. -/
structure UpperBound (b : ℕ) (x : EReal) : Prop where
  num : IsNum b
  ne : b ≠ 0xFF800000
  le : x ≤ (endOf b).ext
  least : ∀ c, IsNum c → x ≤ (endOf c).ext → (endOf b).ext ≤ (endOf c).ext

/-! ### Rounding -/

/-- The largest F32 number. -/
theorem endOf_top : endOf 0x7F7FFFFF = .fin ((FF.f32.maxSig : ℚ) * 2 ^ (FF.f32.emax - FF.f32.fb)) := endOf_of_value FF.f32.value_topOf.1

theorem endOf_neg_top : (endOf 0xFF7FFFFF).ext = -(endOf 0x7F7FFFFF).ext := by
  rw [endOf_ext (by norm_num), endOf_ext (by norm_num), place_eq, place_eq]
  norm_num [placeExt]

section
variable {x : ℝ} {q : FR}

/-- What overflow means in a directed mode. -/
theorem overflows_directed {rm : RM} (hr : rm ≠ .rne) (h : Spec.overflows .f32 rm x) :
    (Spec.outward rm x ∧ (endOf 0x7F7FFFFF).ext < (|x| : ℝ)) ∨ (¬Spec.outward rm x ∧ (endOf 0x7F7FFFFF).ext ≤ (|x| : ℝ) ∧ 0 < |x|) := by
  have ht : (0 : ℝ) < ((FF.f32.maxSig : ℚ) * 2 ^ (FF.f32.emax - FF.f32.fb) : ℚ) := by
    exact_mod_cast mul_pos (by simp [FF.maxSig, FF.fb]) (by positivity)
  have hu : ((((FF.f32.maxSig - 1 : ℕ) : ℚ) * 2 ^ (FF.f32.emax - FF.f32.fb) : ℚ) : ℝ) < (((FF.f32.maxSig : ℚ) * 2 ^ (FF.f32.emax - FF.f32.fb) : ℚ) : ℝ) := by
    exact_mod_cast mul_lt_mul_of_pos_right (by exact_mod_cast (by decide : FF.f32.maxSig - 1 < FF.f32.maxSig)) (by positivity)
  rw [endOf_top, End.ext, EReal.coe_lt_coe_iff, EReal.coe_le_coe_iff]
  rw [Spec.overflows, FF.f32.value_topOf.1, FF.f32.value_topOf.2] at h
  simp only [Option.getD_some] at h
  rcases h with ⟨h, -⟩ | h | ⟨-, h1, h2⟩
  · exact absurd h hr
  · exact .inl h
  · exact .inr ⟨h1, by linarith, by linarith⟩

/-- What a directed rounding to F32 gives: the number that the mode names, or beyond the largest number that number or an infinity. -/
theorem directed_cases {rm : RM} (hr : rm ≠ .rne) (h : Spec.rounds .f32 rm false x q) :
    (IsNum q.bits ∧ ∃ y : ℚ, endOf q.bits = .fin y ∧ Spec.named .f32 rm x q.bits y) ∨
      (x < 0 ∧ (x : EReal) ≤ (endOf 0xFF7FFFFF).ext ∧ (Spec.outward rm x → q.bits = 0xFF800000 ∧ (x : EReal) < (endOf 0xFF7FFFFF).ext) ∧
        (¬Spec.outward rm x → q.bits = 0xFF7FFFFF)) ∨
      (0 < x ∧ (endOf 0x7F7FFFFF).ext ≤ x ∧ (Spec.outward rm x → q.bits = 0x7F800000 ∧ (endOf 0x7F7FFFFF).ext < x) ∧
        (¬Spec.outward rm x → q.bits = 0x7F7FFFFF)) := by
  by_cases ho : Spec.overflows .f32 rm x
  · obtain ⟨b, ⟨hn, hp⟩, hi, ht, -⟩ := h.1 ho
    have hov := overflows_directed hr ho
    have hle : (endOf 0x7F7FFFFF).ext ≤ (|x| : ℝ) := hov.elim (fun h => h.2.le) fun h => h.2.1
    have hlt (hw : Spec.outward rm x) : (endOf 0x7F7FFFFF).ext < (|x| : ℝ) := (hov.resolve_right fun h => h.1 hw).2
    have hi (hw : Spec.outward rm x) : q.bits = b + 0x7F800000 := hi ⟨rfl, .inr hw⟩
    have ht (hw : ¬Spec.outward rm x) : q.bits = b + 0x7F7FFFFF := ht fun hh => hw (hh.2.resolve_left hr)
    rcases lt_trichotomy x 0 with h0 | h0 | h0
    · obtain rfl : b = 2 ^ 31 := hn h0
      rw [abs_of_neg h0, EReal.coe_neg] at hle hlt
      rw [endOf_neg_top]
      exact .inr (.inl ⟨h0, EReal.le_neg_of_le_neg hle, fun hw => ⟨hi hw, EReal.lt_neg_comm.mp (hlt hw)⟩, ht⟩)
    · exfalso
      rcases hov with ⟨h1, -⟩ | ⟨-, -, h1⟩ <;> simp [Spec.outward, h0] at h1
    · obtain rfl : b = 0 := hp h0
      rw [abs_of_pos h0] at hle hlt
      simp only [zero_add] at hi ht
      exact .inr (.inr ⟨h0, hle, fun hw => ⟨hi hw, hlt hw⟩, ht⟩)
  · obtain ⟨b, m, y, -, hb, hm, hy, hnamed, -, hq⟩ := h.2 ho
    obtain ⟨hbits, -⟩ := hq (by simp)
    have hm31 : m < 2 ^ 31 := hm
    have hb' : b = 0 ∨ b = 2 ^ 31 := hb
    rw [hbits]
    exact .inl ⟨⟨by rcases hb' with rfl | rfl <;> omega, (mag_lt_of_value hy).le⟩, y, endOf_of_value hy, hnamed⟩

theorem isNum_inf : IsNum 0x7F800000 ∧ IsNum 0xFF800000 := by norm_num [IsNum]
theorem isNum_top : IsNum 0x7F7FFFFF ∧ IsNum 0xFF7FFFFF := by norm_num [IsNum]

/-- No bound but an infinity lies beyond the largest numbers. -/
theorem IsNum.top_cases {c : ℕ} (hc : IsNum c) : (c = 0x7F800000 ∨ (endOf c).ext ≤ (endOf 0x7F7FFFFF).ext) ∧
    (c = 0xFF800000 ∨ (endOf 0xFF7FFFFF).ext ≤ (endOf c).ext) := by
  rw [hc.ext_le_iff isNum_top.1, isNum_top.2.ext_le_iff hc, place_eq, place_eq, place_eq]
  have h1 := hc.1
  have h2 := hc.2
  norm_num
  constructor <;> split <;> omega

/-- A finite bound, or an infinite one. -/
theorem IsNum.cases {c : ℕ} (hc : IsNum c) : endOf c = .ninf ∨ endOf c = .pinf ∨ ∃ z, Spec.value .f32 c = some z ∧ endOf c = .fin z := by
  rcases value_cases hc with ⟨hi, -⟩ | ⟨-, h⟩
  · rcases (show c = 0x7F800000 ∨ c = 0xFF800000 by have := hc.1; omega) with h | h
    · exact .inr (.inl ((endOf_inf hc).1.mpr h))
    · exact .inl ((endOf_inf hc).2.mpr h)
  · exact .inr (.inr h)

theorem lowerBound_of_rounds (h : Spec.rounds .f32 .rdn false x q) : LowerBound q.bits x := by
  have hw : Spec.outward .rdn x ↔ x < 0 := by simp [Spec.outward]
  have below {c : ℕ} (hc : IsNum c) (hcx : (endOf c).ext ≤ x) : c ≠ 0x7F800000 := fun h => by
    rw [(endOf_inf hc).1.mpr h] at hcx
    exact absurd hcx (not_le.mpr (EReal.coe_lt_top x))
  rcases directed_cases (by decide) h with ⟨hnum, y, hend, hnamed⟩ | ⟨h0, -, h1, -⟩ | ⟨h0, hle, -, h1⟩
  · have hext : (endOf q.bits).ext = ((y : ℝ) : EReal) := by rw [hend]; rfl
    refine ⟨hnum, fun h => ?_, ?_, fun c hc hcx => ?_⟩
    · rw [(endOf_inf hnum).1.mpr h] at hend
      cases hend
    · rw [hext]
      exact EReal.coe_le_coe_iff.mpr ((hnamed _ _ FF.f32.value_topOf.1).2.1 rfl).1
    · rcases hc.cases with e | e | ⟨z, hz, e⟩
      · rw [e]; exact bot_le
      · exact absurd ((endOf_inf hc).1.mp e) (below hc hcx)
      · rw [hext]
        rw [e] at hcx ⊢
        exact EReal.coe_le_coe_iff.mpr (((hnamed c z hz).2.1 rfl).2 (EReal.coe_le_coe_iff.mp hcx))
  · obtain ⟨hq, hlt⟩ := h1 (hw.mpr h0)
    have e : endOf 0xFF800000 = .ninf := (endOf_inf isNum_inf.2).2.mpr rfl
    rw [hq]
    refine ⟨isNum_inf.2, by decide, by rw [e]; exact bot_le, fun c hc hcx => ?_⟩
    rcases hc.top_cases.2 with h | h
    · rw [h]
    · exact absurd (h.trans hcx) (not_le.mpr hlt)
  · rw [h1 (hw.not.mpr h0.not_gt)]
    exact ⟨isNum_top.1, by decide, hle, fun c hc hcx => hc.top_cases.1.resolve_left (below hc hcx)⟩

theorem upperBound_of_rounds (h : Spec.rounds .f32 .rup false x q) : UpperBound q.bits x := by
  have hw : Spec.outward .rup x ↔ 0 < x := by simp [Spec.outward]
  have above {c : ℕ} (hc : IsNum c) (hcx : x ≤ (endOf c).ext) : c ≠ 0xFF800000 := fun h => by
    rw [(endOf_inf hc).2.mpr h] at hcx
    exact absurd hcx (not_le.mpr (EReal.bot_lt_coe x))
  rcases directed_cases (by decide) h with ⟨hnum, y, hend, hnamed⟩ | ⟨h0, hle, -, h1⟩ | ⟨h0, -, h1, -⟩
  · have hext : (endOf q.bits).ext = ((y : ℝ) : EReal) := by rw [hend]; rfl
    refine ⟨hnum, fun h => ?_, ?_, fun c hc hcx => ?_⟩
    · rw [(endOf_inf hnum).2.mpr h] at hend
      cases hend
    · rw [hext]
      exact EReal.coe_le_coe_iff.mpr ((hnamed _ _ FF.f32.value_topOf.1).2.2.1 rfl).1
    · rcases hc.cases with e | e | ⟨z, hz, e⟩
      · exact absurd ((endOf_inf hc).2.mp e) (above hc hcx)
      · rw [e]; exact le_top
      · rw [hext]
        rw [e] at hcx ⊢
        exact EReal.coe_le_coe_iff.mpr (((hnamed c z hz).2.2.1 rfl).2 (EReal.coe_le_coe_iff.mp hcx))
  · rw [h1 (hw.not.mpr h0.not_gt)]
    exact ⟨isNum_top.2, by decide, hle, fun c hc hcx => hc.top_cases.2.resolve_left (above hc hcx)⟩
  · obtain ⟨hq, hlt⟩ := h1 (hw.mpr h0)
    have e : endOf 0x7F800000 = .pinf := (endOf_inf isNum_inf.1).1.mpr rfl
    rw [hq]
    refine ⟨isNum_inf.1, by decide, by rw [e]; exact le_top, fun c hc hcx => ?_⟩
    rcases hc.top_cases.1 with h | h
    · rw [h]
    · exact absurd (hcx.trans h) (not_le.mpr hlt)

end

/-! ### The bounds of an enclosure -/

/-- A number is rounded to F32 by way of the bits of its quotient. -/
theorem ratRound_rounds (rm : RM) {r : ℚ} (h : r ≠ 0) : ∃ q : FR, q.bits = ratRound rm r ∧ Spec.rounds .f32 rm false r q := by
  have hn : 0 < r.num.natAbs := Int.natAbs_pos.mpr (Rat.num_ne_zero.mpr h)
  have hpos : (0 : ℝ) < (r.num.natAbs : ℝ) * 2 ^ (0 : ℤ) / (r.den * 2 ^ (0 : ℤ)) := by
    have : (0 : ℝ) < r.den := by exact_mod_cast r.den_pos
    positivity
  have hr := (divBits_alike hn r.den_pos 0 0 .f32).rounds (rm := rm) (fzo := false) (neg := decide (r.num < 0)) hpos (divBits_pos hn r.den_pos 0 0)
  have e : (r : ℝ) = (r.num : ℝ) / r.den := by exact_mod_cast (Rat.num_div_den r).symm
  have e' : (r : ℝ) = signedReal (decide (r.num < 0)) ((r.num.natAbs : ℝ) * 2 ^ (0 : ℤ) / (r.den * 2 ^ (0 : ℤ))) := by
    rw [e, zpow_zero, mul_one, mul_one, signedReal, Nat.cast_natAbs, Int.cast_abs]
    by_cases hs : r.num < 0
    · have : (r.num : ℝ) < 0 := by exact_mod_cast hs
      simp [hs, abs_of_neg this, neg_div]
    · have : (0 : ℝ) ≤ r.num := by exact_mod_cast not_lt.mp hs
      simp [hs, abs_of_nonneg this]
  rw [e']
  exact ⟨_, rfl, hr⟩

theorem endOf_zero {b : ℕ} (h : b % 2 ^ 31 = 0) : endOf b = .fin 0 := by
  refine End.ext_injective ?_
  rw [endOf_ext (by omega), place_eq, h]
  simp [placeExt, magExt_zero, End.ext]

theorem LowerBound.congr {b c : ℕ} {x : EReal} (h : LowerBound b x) (hc : IsNum c) (e : endOf c = endOf b) : LowerBound c x := by
  refine ⟨hc, fun hi => h.ne ((endOf_inf h.num).1.mp ?_), e ▸ h.le, e ▸ h.greatest⟩
  rw [← e, (endOf_inf hc).1.mpr hi]

theorem UpperBound.congr {b c : ℕ} {x : EReal} (h : UpperBound b x) (hc : IsNum c) (e : endOf c = endOf b) : UpperBound c x := by
  refine ⟨hc, fun hi => h.ne ((endOf_inf h.num).2.mp ?_), e ▸ h.le, e ▸ h.least⟩
  rw [← e, (endOf_inf hc).2.mpr hi]

/-- The pattern of a lower bound as R69 writes it: a zero is −0. -/
def canonLo (b : ℕ) : ℕ := if b % 2 ^ 31 = 0 then 2 ^ 31 else b
/-- The pattern of an upper bound as R69 writes it: a zero is +0. -/
def canonHi (b : ℕ) : ℕ := if b % 2 ^ 31 = 0 then 0 else b

theorem canonLo_spec {b : ℕ} (h : IsNum b) : IsNum (canonLo b) ∧ endOf (canonLo b) = endOf b ∧ (canonLo b % 2 ^ 31 = 0 → canonLo b = 2 ^ 31) := by
  unfold canonLo
  split
  · next h0 => exact ⟨by norm_num [IsNum], by rw [endOf_zero h0, endOf_zero (by norm_num)], fun _ => rfl⟩
  · next h0 => exact ⟨h, rfl, fun h1 => absurd h1 h0⟩

theorem canonHi_spec {b : ℕ} (h : IsNum b) : IsNum (canonHi b) ∧ endOf (canonHi b) = endOf b ∧ (canonHi b % 2 ^ 31 = 0 → canonHi b = 0) := by
  unfold canonHi
  split
  · next h0 => exact ⟨by norm_num [IsNum], by rw [endOf_zero h0, endOf_zero (by norm_num)], fun _ => rfl⟩
  · next h0 => exact ⟨h, rfl, fun h1 => absurd h1 h0⟩

theorem ivOf_eq (lo hi : ℕ) : ivOf lo hi = .iv (canonLo lo) (canonHi hi) := rfl

theorem infBits_f32 (neg : Bool) : FF.f32.infBits neg = if neg then 0xFF800000 else 0x7F800000 := by cases neg <;> rfl

theorem lowerBound_zero : LowerBound 0 0 := by
  have e : (endOf 0).ext = 0 := by rw [endOf_zero (by norm_num)]; simp [End.ext]
  exact ⟨by norm_num [IsNum], by norm_num, e.le, fun c _ h => e ▸ h⟩

theorem upperBound_zero : UpperBound 0 0 := by
  have e : (endOf 0).ext = 0 := by rw [endOf_zero (by norm_num)]; simp [End.ext]
  exact ⟨by norm_num [IsNum], by norm_num, e.ge, fun c _ h => e ▸ h⟩

/-- A lower end rounded down (R139), with its zero as R69 writes it. -/
theorem roundLo_bound {e : End} (he : e ≠ .pinf) : LowerBound (roundLo e) e.ext ∧ (roundLo e % 2 ^ 31 = 0 → roundLo e = 2 ^ 31) := by
  cases e with
  | pinf => exact absurd rfl he
  | ninf =>
    have e : endOf 0xFF800000 = .ninf := (endOf_inf isNum_inf.2).2.mpr rfl
    refine ⟨⟨isNum_inf.2, by decide, (congrArg End.ext e).le, fun c _ h => h.trans bot_le⟩, fun h => absurd h (by decide)⟩
  | fin r =>
    have hb : ∃ b, LowerBound b (r : ℝ) ∧ roundLo (.fin r) = canonLo b := by
      by_cases h0 : r = 0
      · refine ⟨0, by rw [h0]; simpa using lowerBound_zero, ?_⟩
        simp [roundLo, h0, canonLo]
      · obtain ⟨q, hq, hr⟩ := ratRound_rounds .rdn h0
        refine ⟨_, lowerBound_of_rounds hr, ?_⟩
        simp only [roundLo, if_neg h0, hq, canonLo]
    obtain ⟨b, hb, e⟩ := hb
    obtain ⟨h1, h2, h3⟩ := canonLo_spec hb.num
    rw [e]
    exact ⟨hb.congr h1 h2, h3⟩

/-- An upper end rounded up (R139), with its zero as R69 writes it. -/
theorem roundHi_bound {e : End} (he : e ≠ .ninf) : UpperBound (roundHi e) e.ext ∧ (roundHi e % 2 ^ 31 = 0 → roundHi e = 0) := by
  cases e with
  | ninf => exact absurd rfl he
  | pinf =>
    have e : endOf 0x7F800000 = .pinf := (endOf_inf isNum_inf.1).1.mpr rfl
    refine ⟨⟨isNum_inf.1, by decide, (congrArg End.ext e).ge, fun c _ h => le_trans le_top h⟩, fun h => absurd h (by decide)⟩
  | fin r =>
    have hb : ∃ b, UpperBound b (r : ℝ) ∧ roundHi (.fin r) = canonHi b := by
      by_cases h0 : r = 0
      · refine ⟨0, by rw [h0]; simpa using upperBound_zero, ?_⟩
        simp [roundHi, h0, canonHi]
      · obtain ⟨q, hq, hr⟩ := ratRound_rounds .rup h0
        refine ⟨_, upperBound_of_rounds hr, ?_⟩
        simp only [roundHi, if_neg h0, hq, canonHi]
    obtain ⟨b, hb, e⟩ := hb
    obtain ⟨h1, h2, h3⟩ := canonHi_spec hb.num
    rw [e]
    exact ⟨hb.congr h1 h2, h3⟩

end Sys2Proof.Machine
end

section
/-! Intervals as patterns (R69, R138): how they are read, and when a result is the tightest around a set (R139). -/

namespace Sys2Proof.Machine

/-! ### Patterns that are intervals -/

section
variable {v : ℕ}

/-- The bounds of a pattern as extended reals. -/
noncomputable def loExt (v : ℕ) : EReal := (endOf (v % 2 ^ 32)).ext
noncomputable def hiExt (v : ℕ) : EReal := (endOf (v / 2 ^ 32)).ext

theorem isBox_iff : Spec.isBox v ↔ IsNum (v % 2 ^ 32) ∧ IsNum (v / 2 ^ 32) ∧ v % 2 ^ 32 ≠ 0x7F800000 ∧ v / 2 ^ 32 ≠ 0xFF800000 ∧ loExt v ≤ hiExt v := by
  unfold Spec.isBox
  dsimp only
  rw [isNan_iff, isNan_iff]
  constructor
  · rintro ⟨h1, h2, h3, h4, h5, h6⟩
    have hl : IsNum (v % 2 ^ 32) := ⟨by omega, h2⟩
    have hh : IsNum (v / 2 ^ 32) := ⟨by omega, h3⟩
    exact ⟨hl, hh, h4, h5, (hl.ext_le_iff hh).mpr h6⟩
  · rintro ⟨hl, hh, h4, h5, h6⟩
    exact ⟨by have := hh.1; omega, hl.2, hh.2, h4, h5, (hl.ext_le_iff hh).mp h6⟩

/-- The numbers of an interval are those between its bounds. -/
theorem inBox_iff (h : Spec.isBox v) (q : ℝ) : Spec.inBox v q ↔ loExt v ≤ q ∧ q ≤ hiExt v := by
  obtain ⟨hl, hh, h4, h5, -⟩ := isBox_iff.mp h
  have e1 : (∀ l : ℚ, Spec.value .f32 (v % 2 ^ 32) = some l → (l : ℝ) ≤ q) ↔ loExt v ≤ q := by
    rcases value_cases hl with ⟨hm, hv⟩ | ⟨-, l, hv, e⟩
    · rw [loExt, (endOf_inf hl).2.mpr (by omega), hv]
      simp [End.ext]
    · rw [loExt, e, hv, End.ext]
      simp
  have e2 : (∀ l : ℚ, Spec.value .f32 (v / 2 ^ 32) = some l → q ≤ (l : ℝ)) ↔ (q : EReal) ≤ hiExt v := by
    rcases value_cases hh with ⟨hm, hv⟩ | ⟨-, l, hv, e⟩
    · rw [hiExt, (endOf_inf hh).1.mpr (by have := hh.1; omega), hv]
      simp [End.ext]
    · rw [hiExt, e, hv, End.ext]
      simp
  rw [Spec.inBox, e1, e2, and_iff_right h]

theorem Spec.lo_eq (v : ℕ) : Spec.lo v = canonLo (v % 2 ^ 32) := by
  rw [Spec.lo, canonLo, Nat.mod_mod_of_dvd v (by norm_num : 2 ^ 31 ∣ 2 ^ 32)]
  rfl

theorem Spec.hi_eq (v : ℕ) : Spec.hi v = canonHi (v / 2 ^ 32) := rfl

/-- The pattern of two bounds. -/
theorem bits_mod {lo : ℕ} (h : lo < 2 ^ 32) (hi : ℕ) : (Iv.iv lo hi).bits % 2 ^ 32 = lo ∧ (Iv.iv lo hi).bits / 2 ^ 32 = hi := by
  simp only [Iv.bits]
  omega

theorem dyOf_lt_iff (na nb : Bool) (ma mb : ℕ) (ea eb : ℤ) :
    (dyOf na ma ea).lt (dyOf nb mb eb) = true ↔ signedReal na (ma * 2 ^ ea) < signedReal nb (mb * 2 ^ eb) := by
  rw [← dyOf_val, ← dyOf_val]
  generalize dyOf na ma ea = a
  generalize dyOf nb mb eb = b
  rw [Dy.lt, decide_eq_true_eq, ← a.at_val (min_le_left a.e b.e), ← b.at_val (min_le_right a.e b.e), mul_lt_mul_iff_left₀ (two_zpow_pos _)]
  exact Int.cast_lt.symm

theorem IsNum.val_cases {b : ℕ} (h : IsNum b) : (∃ n, FF.f32.val b = .inf n) ∨ ∃ n m e, FF.f32.val b = .fin n m e := by
  rcases f32_val_cases b with ⟨h1, -⟩ | ⟨-, hv⟩ | ⟨-, m, e, hv⟩
  · exact absurd h.2 (by omega)
  · exact .inl ⟨_, hv⟩
  · exact .inr ⟨_, m, e, hv⟩

/-- Comparing values compares bounds. -/
theorem fCmpLt_iff {a b : ℕ} (ha : IsNum a) (hb : IsNum b) : fCmpLt (FF.f32.val a) (FF.f32.val b) = true ↔ (endOf a).ext < (endOf b).ext := by
  unfold endOf
  rcases ha.val_cases with ⟨s, hv⟩ | ⟨s, m, e, hv⟩ <;> rcases hb.val_cases with ⟨t, hw⟩ | ⟨t, n, e', hw⟩ <;> rw [hv, hw]
  · cases s <;> cases t <;> simp [fCmpLt, fLess, End.ext]
  · cases s <;> simp [fCmpLt, fLess, End.ext]
  · cases t <;> simp [fCmpLt, fLess, End.ext]
  · rw [fCmpLt, dyOf_lt_iff]
    simp only [End.ext, cast_ratOf, EReal.coe_lt_coe_iff]

theorem val_isNan {b : ℕ} (h : IsNum b) : (FF.f32.val b).isNan = false := by
  rcases h.val_cases with ⟨n, hv⟩ | ⟨n, m, e, hv⟩ <;> rw [hv] <;> rfl

theorem val_eq_inf {b : ℕ} (h : IsNum b) {n : Bool} (hv : FF.f32.val b = .inf n) : b = if n then 0xFF800000 else 0x7F800000 := by
  cases n
  · exact (endOf_inf h).1.mp (by rw [endOf, hv]; rfl)
  · exact (endOf_inf h).2.mp (by rw [endOf, hv]; rfl)

/-- An interval is read with its zeros as R69 writes them, and is not non-canonical. -/
theorem ivRead_box (h : Spec.isBox v) : ivRead v = (.iv (canonLo (v % 2 ^ 32)) (canonHi (v / 2 ^ 32)), false) := by
  obtain ⟨hl, hh, h4, h5, h6⟩ := isBox_iff.mp h
  have hmod : v / 2 ^ 32 % 2 ^ 32 = v / 2 ^ 32 := Nat.mod_eq_of_lt hh.1
  have h1 : v ≠ naiBits := by
    rintro rfl
    exact absurd hl.2 (by decide)
  have h2 : v ≠ emptyBits := by
    rintro rfl
    exact absurd rfl h4
  have h3 : boundsOk (v % 2 ^ 32) (v / 2 ^ 32) = true := by
    have hlt : fCmpLt (FF.f32.val (v / 2 ^ 32)) (FF.f32.val (v % 2 ^ 32)) = false := by
      rw [← Bool.not_eq_true, fCmpLt_iff hh hl]
      exact not_lt.mpr h6
    have n1 : FF.f32.val (v % 2 ^ 32) ≠ .inf false := fun e => h4 (val_eq_inf hl e)
    have n2 : FF.f32.val (v / 2 ^ 32) ≠ .inf true := fun e => h5 (val_eq_inf hh e)
    simp only [boundsOk, val_isNan hl, val_isNan hh, hlt, Bool.not_false, Bool.true_and, Bool.and_eq_true, bne_iff_ne, ne_eq]
    exact ⟨n1, n2⟩
  rw [ivRead, if_neg h1, if_neg h2, hmod]
  simp only [h3, if_true]
  rfl

end

/-! ### Canonical intervals -/

/-- Two bounds as a result writes them: they are the bounds of an interval, with zeros as R69 writes them. -/
structure Bounds (lo hi : ℕ) : Prop where
  lo_num : IsNum lo
  hi_num : IsNum hi
  lo_ne : lo ≠ 0x7F800000
  hi_ne : hi ≠ 0xFF800000
  le : (endOf lo).ext ≤ (endOf hi).ext
  lo_zero : lo % 2 ^ 31 = 0 → lo = 2 ^ 31
  hi_zero : hi % 2 ^ 31 = 0 → hi = 0

section
variable {lo hi : ℕ}

theorem Bounds.canonicalBox (h : Bounds lo hi) : Spec.canonicalBox (Iv.iv lo hi).bits := by
  obtain ⟨e1, e2⟩ := bits_mod h.lo_num.1 hi
  refine ⟨isBox_iff.mpr ?_, ?_, ?_⟩
  · rw [loExt, hiExt, e1, e2]
    exact ⟨h.lo_num, h.hi_num, h.lo_ne, h.hi_ne, h.le⟩
  · rw [Spec.lo_eq, e1, canonLo]
    split
    · exact h.lo_zero ‹_›
    · rfl
  · rw [Spec.hi_eq, e2, canonHi]
    split
    · exact h.hi_zero ‹_›
    · rfl

theorem Bounds.inBox_iff (h : Bounds lo hi) (q : ℝ) : Spec.inBox (Iv.iv lo hi).bits q ↔ (endOf lo).ext ≤ q ∧ q ≤ (endOf hi).ext := by
  obtain ⟨e1, e2⟩ := bits_mod h.lo_num.1 hi
  rw [Machine.inBox_iff h.canonicalBox.1, loExt, hiExt, e1, e2]

/-- An interval is read as bounds with the same numbers. -/
theorem Bounds.of_box {v : ℕ} (h : Spec.isBox v) : Bounds (canonLo (v % 2 ^ 32)) (canonHi (v / 2 ^ 32)) ∧
    endOf (canonLo (v % 2 ^ 32)) = endOf (v % 2 ^ 32) ∧ endOf (canonHi (v / 2 ^ 32)) = endOf (v / 2 ^ 32) := by
  obtain ⟨hl, hh, h4, h5, h6⟩ := isBox_iff.mp h
  obtain ⟨l1, l2, l3⟩ := canonLo_spec hl
  obtain ⟨u1, u2, u3⟩ := canonHi_spec hh
  refine ⟨⟨l1, u1, fun e => h4 ((endOf_inf hl).1.mp ?_), fun e => h5 ((endOf_inf hh).2.mp ?_), by rw [l2, u2]; exact h6, l3, u3⟩, l2, u2⟩
  · rw [← l2, (endOf_inf l1).1.mpr e]
  · rw [← u2, (endOf_inf u1).2.mpr e]

end

/-! ### The tightest interval -/

/-- An end below a set: no number of the set lies below it, and every number above it has one below that. -/
def IsInf (H : Set ℝ) (e : EReal) : Prop := (∀ v ∈ H, e ≤ (v : ℝ)) ∧ ∀ r : ℝ, e < r → ∃ v ∈ H, v < r

/-- An end above a set. -/
def IsSup (H : Set ℝ) (e : EReal) : Prop := (∀ v ∈ H, ((v : ℝ) : EReal) ≤ e) ∧ ∀ r : ℝ, (r : EReal) < e → ∃ v ∈ H, r < v

section
variable {H : Set ℝ} {e : EReal}

theorem IsInf.greatest (h : IsInf H e) {b : EReal} (hb : ∀ v ∈ H, b ≤ (v : ℝ)) : b ≤ e := by
  by_contra hlt
  obtain ⟨r, h1, h2⟩ := EReal.lt_iff_exists_real_btwn.mp (not_le.mp hlt)
  obtain ⟨v, hv, hr⟩ := h.2 r h1
  exact absurd ((hb v hv).trans_lt (EReal.coe_lt_coe_iff.mpr hr)) (not_lt.mpr h2.le)

theorem IsSup.least (h : IsSup H e) {b : EReal} (hb : ∀ v ∈ H, ((v : ℝ) : EReal) ≤ b) : e ≤ b := by
  by_contra hlt
  obtain ⟨r, h1, h2⟩ := EReal.lt_iff_exists_real_btwn.mp (not_le.mp hlt)
  obtain ⟨v, hv, hr⟩ := h.2 r h2
  exact absurd (h1.trans (EReal.coe_lt_coe_iff.mpr hr)) (not_lt.mpr (hb v hv))

theorem IsInf.ne_top (h : IsInf H e) (hH : H.Nonempty) : e ≠ ⊤ := fun he => by
  obtain ⟨v, hv⟩ := hH
  exact absurd (h.1 v hv) (not_le.mpr (he ▸ EReal.coe_lt_top v))

theorem IsSup.ne_bot (h : IsSup H e) (hH : H.Nonempty) : e ≠ ⊥ := fun he => by
  obtain ⟨v, hv⟩ := hH
  exact absurd (h.1 v hv) (not_le.mpr (he ▸ EReal.bot_lt_coe v))

/-- The ends of a set, rounded outward, are the tightest interval around it (R139). -/
theorem tightest_of_ends {lo hi : End} (hl : IsInf H lo.ext) (hh : IsSup H hi.ext) (hH : H.Nonempty) :
    Spec.tightest (· ∈ H) (Iv.iv (roundLo lo) (roundHi hi)).bits ∧ Spec.canonicalBox (Iv.iv (roundLo lo) (roundHi hi)).bits := by
  obtain ⟨bl, zl⟩ := roundLo_bound (e := lo) fun e => hl.ne_top hH (by rw [e]; rfl)
  obtain ⟨bh, zh⟩ := roundHi_bound (e := hi) fun e => hh.ne_bot hH (by rw [e]; rfl)
  have hle : lo.ext ≤ hi.ext := by
    obtain ⟨v, hv⟩ := hH
    exact (hl.1 v hv).trans (hh.1 v hv)
  have hb : Bounds (roundLo lo) (roundHi hi) := ⟨bl.num, bh.num, bl.ne, bh.ne, bl.le.trans (hle.trans bh.le), zl, zh⟩
  refine ⟨⟨fun v hv => (hb.inBox_iff v).mpr ⟨bl.le.trans (hl.1 v hv), (hh.1 v hv).trans bh.le⟩, fun j hj hjH q hq => ?_⟩, hb.canonicalBox⟩
  obtain ⟨h1, h2⟩ := (hb.inBox_iff q).mp hq
  obtain ⟨jl, jh, -⟩ := isBox_iff.mp hj
  have hjH (v) (hv : v ∈ H) := (inBox_iff hj v).mp (hjH v hv)
  rw [inBox_iff hj]
  exact ⟨(bl.greatest _ jl (hl.greatest fun v hv => (hjH v hv).1)).trans h1, h2.trans (bh.least _ jh (hh.least fun v hv => (hjH v hv).2))⟩

/-- `EMPTY` is no interval, and is tightest around no number. -/
theorem tightest_empty (hH : ¬∃ v, v ∈ H) : Spec.tightest (· ∈ H) Iv.empty.bits := by
  refine ⟨fun v hv => absurd ⟨v, hv⟩ hH, fun j _ _ q hq => ?_⟩
  obtain ⟨hb, -⟩ := hq
  exact absurd rfl (isBox_iff.mp hb).2.2.1

end

end Sys2Proof.Machine
end

section
/-! Segments (R139, R143): the sets of numbers that they stand for, and how the operations on ends follow those on sets. -/

namespace Sys2Proof.Machine

/-! ### The numbers of a segment -/

/-- `q` lies in a segment. -/
def Seg.Has (s : Seg) (q : ℝ) : Prop := (s.lo.ext < q ∨ s.lc = true ∧ s.lo.ext = q) ∧ (q < s.hi.ext ∨ s.hc = true ∧ q = s.hi.ext)

/-- The ends of `s` are those of `H`, and closed where `H` is one number. -/
structure Seg.Around (s : Seg) (H : Set ℝ) : Prop where
  inf : IsInf H s.lo.ext
  sup : IsSup H s.hi.ext
  closed : s.lo.ext = s.hi.ext → s.lc = true ∧ s.hc = true

section
variable {s t : Seg} {H K : Set ℝ} {q : ℝ}

theorem Seg.Has.le (h : s.Has q) : s.lo.ext ≤ q ∧ q ≤ s.hi.ext :=
  ⟨h.1.elim le_of_lt fun h => h.2.le, h.2.elim le_of_lt fun h => h.2.le⟩

theorem Seg.some?_iff (s : Seg) : s.some? = true ↔ ∃ q, s.Has q := by
  obtain ⟨lo, lc, hi, hc⟩ := s
  cases lo with
  | pinf => simp [Seg.some?, Seg.Has, End.ext]
  | ninf =>
    cases hi with
    | ninf => simp [Seg.some?, Seg.Has, End.ext]
    | pinf => simp [Seg.some?, Seg.Has, End.ext]
    | fin b =>
      simp only [Seg.some?, Seg.Has, End.ext, true_iff]
      exact ⟨b - 1, .inl (EReal.bot_lt_coe _), .inl (EReal.coe_lt_coe_iff.mpr (by linarith))⟩
  | fin a =>
    cases hi with
    | ninf => simp [Seg.some?, Seg.Has, End.ext]
    | pinf =>
      simp only [Seg.some?, Seg.Has, End.ext, true_iff]
      exact ⟨a + 1, .inl (EReal.coe_lt_coe_iff.mpr (by linarith)), .inl (EReal.coe_lt_top _)⟩
    | fin b =>
      simp only [Seg.some?, Seg.Has, End.ext, Bool.or_eq_true, Bool.and_eq_true, decide_eq_true_eq, EReal.coe_lt_coe_iff, EReal.coe_eq_coe_iff]
      constructor
      · rintro (h | ⟨⟨h, hl⟩, hh⟩)
        · have : (a : ℝ) < b := by exact_mod_cast h
          exact ⟨(a + b) / 2, .inl (by linarith), .inl (by linarith)⟩
        · exact ⟨a, .inr ⟨hl, rfl⟩, .inr ⟨hh, by rw [h]⟩⟩
      · rintro ⟨q, h1 | ⟨hl, h1⟩, h2 | ⟨hh, h2⟩⟩
        · exact .inl (by exact_mod_cast h1.trans h2)
        · exact .inl (by exact_mod_cast h2 ▸ h1)
        · exact .inl (by exact_mod_cast h1 ▸ h2)
        · exact .inr ⟨⟨by exact_mod_cast h1.trans h2, hl⟩, hh⟩

theorem Seg.Around.some? (h : s.Around H) (hH : H.Nonempty) : s.some? = true := by
  obtain ⟨v, hv⟩ := hH
  have hle : s.lo.ext ≤ s.hi.ext := (h.inf.1 v hv).trans (h.sup.1 v hv)
  rw [Seg.some?_iff]
  rcases hle.lt_or_eq with hlt | heq
  · obtain ⟨q, h1, h2⟩ := EReal.lt_iff_exists_real_btwn.mp hlt
    exact ⟨q, .inl h1, .inl h2⟩
  · have hlo : s.lo.ext = v := (h.inf.1 v hv).antisymm (heq ▸ h.sup.1 v hv)
    exact ⟨v, .inr ⟨(h.closed heq).1, hlo⟩, .inr ⟨(h.closed heq).2, hlo ▸ heq⟩⟩

/-- A segment that is not empty has the ends of its numbers. -/
theorem Seg.around (hq : ∃ q, s.Has q) : s.Around {q | s.Has q} := by
  obtain ⟨q, hq⟩ := hq
  refine ⟨⟨fun v hv => (Seg.Has.le hv).1, fun r hr => ?_⟩, ⟨fun v hv => (Seg.Has.le hv).2, fun r hr => ?_⟩, fun h => ?_⟩
  · by_cases hqr : q < r
    · exact ⟨q, hq, hqr⟩
    · obtain ⟨v, h1, h2⟩ := EReal.lt_iff_exists_real_btwn.mp hr
      have hvr : v < r := EReal.coe_lt_coe_iff.mp h2
      exact ⟨v, ⟨.inl h1, .inl ((EReal.coe_lt_coe_iff.mpr (hvr.trans_le (not_lt.mp hqr))).trans_le hq.le.2)⟩, hvr⟩
  · by_cases hqr : r < q
    · exact ⟨q, hq, hqr⟩
    · obtain ⟨v, h1, h2⟩ := EReal.lt_iff_exists_real_btwn.mp hr
      have hvr : r < v := EReal.coe_lt_coe_iff.mp h1
      exact ⟨v, ⟨.inl (hq.le.1.trans_lt (EReal.coe_lt_coe_iff.mpr ((not_lt.mp hqr).trans_lt hvr))), .inl h2⟩, hvr⟩
  · obtain ⟨h1 | h1, h2 | h2⟩ := hq
    · exact absurd (h1.trans h2) (h ▸ lt_irrefl _)
    · exact absurd (h1.trans_eq h2.2) (h ▸ lt_irrefl _)
    · exact absurd (h1.2.trans_lt h2) (h ▸ lt_irrefl _)
    · exact ⟨h1.1, h2.1⟩

/-! ### Choosing among ends -/

section
variable {a b : End} {ac bc : Bool}

theorem maxLo_ext : (maxLo a ac b bc).1.ext = max a.ext b.ext := by
  unfold maxLo
  split_ifs with h1 h2
  · rw [End.lt_iff] at h1; rw [max_eq_right h1.le]
  · rw [End.lt_iff] at h2; rw [max_eq_left h2.le]
  · rw [End.lt_iff] at h1; rw [max_eq_left (not_lt.mp h1)]

theorem maxHi_ext : (maxHi a ac b bc).1.ext = max a.ext b.ext := by
  unfold maxHi
  split_ifs with h1 h2
  · rw [End.lt_iff] at h1; rw [max_eq_right h1.le]
  · rw [End.lt_iff] at h2; rw [max_eq_left h2.le]
  · rw [End.lt_iff] at h1; rw [max_eq_left (not_lt.mp h1)]

theorem minLo_ext : (minLo a ac b bc).1.ext = min a.ext b.ext := by
  unfold minLo
  split_ifs with h1 h2
  · rw [End.lt_iff] at h1; rw [min_eq_left h1.le]
  · rw [End.lt_iff] at h2; rw [min_eq_right h2.le]
  · rw [End.lt_iff] at h1; rw [min_eq_right (not_lt.mp h1)]; rw [End.lt_iff] at h2; exact le_antisymm (not_lt.mp h2) (not_lt.mp h1)

theorem minHi_ext : (minHi a ac b bc).1.ext = min a.ext b.ext := by
  unfold minHi
  split_ifs with h1 h2
  · rw [End.lt_iff] at h1; rw [min_eq_left h1.le]
  · rw [End.lt_iff] at h2; rw [min_eq_right h2.le]
  · rw [End.lt_iff] at h1; rw [min_eq_right (not_lt.mp h1)]; rw [End.lt_iff] at h2; exact le_antisymm (not_lt.mp h2) (not_lt.mp h1)

theorem maxLo_closed (ha : b.ext ≤ a.ext → ac = true) (hb : a.ext ≤ b.ext → bc = true) : (maxLo a ac b bc).2 = true := by
  unfold maxLo
  split_ifs with h1 h2
  · exact hb (End.lt_iff a b |>.mp h1).le
  · exact ha (End.lt_iff b a |>.mp h2).le
  · rw [End.lt_iff, not_lt] at h1 h2
    rw [ha h1, hb h2, Bool.and_self]

theorem maxHi_closed (ha : b.ext < a.ext → ac = true) (hb : a.ext < b.ext → bc = true) (h : a.ext = b.ext → ac = true ∨ bc = true) :
    (maxHi a ac b bc).2 = true := by
  unfold maxHi
  split_ifs with h1 h2
  · exact hb (End.lt_iff a b |>.mp h1)
  · exact ha (End.lt_iff b a |>.mp h2)
  · rw [End.lt_iff, not_lt] at h1 h2
    rw [Bool.or_eq_true]
    exact h (le_antisymm h2 h1)

theorem minLo_closed (ha : ac = true) (hb : bc = true) : (minLo a ac b bc).2 = true := by
  unfold minLo
  split_ifs
  · exact ha
  · exact hb
  · rw [ha, hb, Bool.or_self]

/-- A number above the greater of two lower ends is above both. -/
theorem maxLo_has : ((maxLo a ac b bc).1.ext < q ∨ (maxLo a ac b bc).2 = true ∧ (maxLo a ac b bc).1.ext = q) ↔
    (a.ext < q ∨ ac = true ∧ a.ext = q) ∧ (b.ext < q ∨ bc = true ∧ b.ext = q) := by
  unfold maxLo
  split_ifs with h1 h2
  · rw [End.lt_iff] at h1
    exact ⟨fun h => ⟨.inl (h.elim h1.trans fun h => h1.trans_eq h.2), h⟩, And.right⟩
  · rw [End.lt_iff] at h2
    exact ⟨fun h => ⟨h, .inl (h.elim h2.trans fun h => h2.trans_eq h.2)⟩, And.left⟩
  · rw [End.lt_iff] at h1 h2
    rw [← le_antisymm (not_lt.mp h2) (not_lt.mp h1), Bool.and_eq_true]
    constructor
    · rintro (h | ⟨⟨h3, h4⟩, h⟩)
      · exact ⟨.inl h, .inl h⟩
      · exact ⟨.inr ⟨h3, h⟩, .inr ⟨h4, h⟩⟩
    · rintro ⟨h | h, h' | h'⟩
      · exact .inl h
      · exact .inl h
      · exact .inl h'
      · exact .inr ⟨⟨h.1, h'.1⟩, h.2⟩

theorem minHi_has : ((q : EReal) < (minHi a ac b bc).1.ext ∨ (minHi a ac b bc).2 = true ∧ (q : EReal) = (minHi a ac b bc).1.ext) ↔
    ((q : EReal) < a.ext ∨ ac = true ∧ (q : EReal) = a.ext) ∧ ((q : EReal) < b.ext ∨ bc = true ∧ (q : EReal) = b.ext) := by
  unfold minHi
  split_ifs with h1 h2
  · rw [End.lt_iff] at h1
    exact ⟨fun h => ⟨h, .inl (h.elim (·.trans h1) fun h => h.2.trans_lt h1)⟩, And.left⟩
  · rw [End.lt_iff] at h2
    exact ⟨fun h => ⟨.inl (h.elim (·.trans h2) fun h => h.2.trans_lt h2), h⟩, And.right⟩
  · rw [End.lt_iff] at h1 h2
    rw [← le_antisymm (not_lt.mp h2) (not_lt.mp h1), Bool.and_eq_true]
    constructor
    · rintro (h | ⟨⟨h3, h4⟩, h⟩)
      · exact ⟨.inl h, .inl h⟩
      · exact ⟨.inr ⟨h3, h⟩, .inr ⟨h4, h⟩⟩
    · rintro ⟨h | h, h' | h'⟩
      · exact .inl h
      · exact .inl h
      · exact .inl h'
      · exact .inr ⟨⟨h.1, h'.1⟩, h.2⟩

end

/-- A meet holds the numbers of both segments. -/
theorem Seg.meet_has : (s.meet t).Has q ↔ s.Has q ∧ t.Has q := by
  unfold Seg.Has Seg.meet
  rw [maxLo_has, minHi_has]
  tauto

/-! ### Ends of sets -/

theorem IsInf.neg {e : EReal} (h : IsInf H e) : IsSup {v | -v ∈ H} (-e) :=
  ⟨fun v hv => by simpa using EReal.neg_le_neg_iff.mpr (h.1 _ hv), fun r hr => by
    obtain ⟨v, hv, hlt⟩ := h.2 (-r) (by simpa using EReal.neg_lt_neg_iff.mpr hr)
    exact ⟨-v, by simpa using hv, by linarith⟩⟩

theorem IsSup.neg {e : EReal} (h : IsSup H e) : IsInf {v | -v ∈ H} (-e) :=
  ⟨fun v hv => by simpa using EReal.neg_le_neg_iff.mpr (h.1 _ hv), fun r hr => by
    obtain ⟨v, hv, hlt⟩ := h.2 (-r) (by simpa using EReal.neg_lt_neg_iff.mpr hr)
    exact ⟨-v, by simpa using hv, by linarith⟩⟩

theorem IsInf.union {d e : EReal} (hH : IsInf H d) (hK : IsInf K e) : IsInf (H ∪ K) (min d e) := by
  refine ⟨fun v hv => hv.elim (fun h => (min_le_left _ _).trans (hH.1 v h)) fun h => (min_le_right _ _).trans (hK.1 v h), fun r hr => ?_⟩
  rcases min_lt_iff.mp hr with h | h
  · obtain ⟨v, hv, hlt⟩ := hH.2 r h
    exact ⟨v, .inl hv, hlt⟩
  · obtain ⟨v, hv, hlt⟩ := hK.2 r h
    exact ⟨v, .inr hv, hlt⟩

theorem IsSup.union {d e : EReal} (hH : IsSup H d) (hK : IsSup K e) : IsSup (H ∪ K) (max d e) := by
  refine ⟨fun v hv => hv.elim (fun h => (hH.1 v h).trans (le_max_left _ _)) fun h => (hK.1 v h).trans (le_max_right _ _), fun r hr => ?_⟩
  rcases lt_max_iff.mp hr with h | h
  · obtain ⟨v, hv, hlt⟩ := hH.2 r h
    exact ⟨v, .inl hv, hlt⟩
  · obtain ⟨v, hv, hlt⟩ := hK.2 r h
    exact ⟨v, .inr hv, hlt⟩

theorem Seg.Around.negate (h : s.Around H) : s.negate.Around {v | -v ∈ H} := by
  refine ⟨?_, ?_, fun he => ?_⟩
  · rw [Seg.negate, End.ext_neg]; exact h.sup.neg
  · rw [Seg.negate, End.ext_neg]; exact h.inf.neg
  · rw [Seg.negate, End.ext_neg, End.ext_neg, neg_inj] at he
    exact (h.closed he.symm).symm

theorem Seg.Around.hull2 (hs : s.Around H) (ht : t.Around K) (hH : H.Nonempty) (hK : K.Nonempty) : (s.hull2 t).Around (H ∪ K) := by
  refine ⟨?_, ?_, fun he => ?_⟩
  · rw [Seg.hull2, minLo_ext]; exact hs.inf.union ht.inf
  · rw [Seg.hull2, maxHi_ext]; exact hs.sup.union ht.sup
  · rw [Seg.hull2, minLo_ext, maxHi_ext] at he
    obtain ⟨v, hv⟩ := hH
    obtain ⟨w, hw⟩ := hK
    have h1 : s.lo.ext ≤ s.hi.ext := (hs.inf.1 v hv).trans (hs.sup.1 v hv)
    have h2 : t.lo.ext ≤ t.hi.ext := (ht.inf.1 w hw).trans (ht.sup.1 w hw)
    have e1 : s.lo.ext = s.hi.ext := h1.antisymm ((le_max_left _ _).trans (he ▸ min_le_left _ _))
    have e2 : t.lo.ext = t.hi.ext := h2.antisymm ((le_max_right _ _).trans (he ▸ min_le_right _ _))
    obtain ⟨c1, c2⟩ := hs.closed e1
    obtain ⟨c3, c4⟩ := ht.closed e2
    exact ⟨minLo_closed c1 c3, maxHi_closed (fun _ => c2) (fun _ => c4) fun _ => .inl c2⟩

theorem IsInf.lift2 {d e : EReal} (hH : IsInf H d) (hK : IsInf K e) : IsInf (Set.image2 max H K) (max d e) := by
  constructor
  · rintro _ ⟨v, hv, w, hw, rfl⟩
    exact max_le ((hH.1 v hv).trans (EReal.coe_le_coe_iff.mpr (le_max_left _ _))) ((hK.1 w hw).trans (EReal.coe_le_coe_iff.mpr (le_max_right _ _)))
  · intro r hr
    obtain ⟨v, hv, hlt⟩ := hH.2 r ((le_max_left _ _).trans_lt hr)
    obtain ⟨w, hw, hlt'⟩ := hK.2 r ((le_max_right _ _).trans_lt hr)
    exact ⟨_, ⟨v, hv, w, hw, rfl⟩, max_lt hlt hlt'⟩

theorem IsSup.lift2 {d e : EReal} (hH : IsSup H d) (hK : IsSup K e) (h1 : H.Nonempty) (h2 : K.Nonempty) : IsSup (Set.image2 max H K) (max d e) := by
  constructor
  · rintro _ ⟨v, hv, w, hw, rfl⟩
    rcases max_choice v w with h | h <;> rw [h]
    · exact (hH.1 v hv).trans (le_max_left _ _)
    · exact (hK.1 w hw).trans (le_max_right _ _)
  · intro r hr
    rcases lt_max_iff.mp hr with h | h
    · obtain ⟨v, hv, hlt⟩ := hH.2 r h
      obtain ⟨w, hw⟩ := h2
      exact ⟨_, ⟨v, hv, w, hw, rfl⟩, hlt.trans_le (le_max_left _ _)⟩
    · obtain ⟨w, hw, hlt⟩ := hK.2 r h
      obtain ⟨v, hv⟩ := h1
      exact ⟨_, ⟨v, hv, w, hw, rfl⟩, hlt.trans_le (le_max_right _ _)⟩

theorem Seg.Around.max (hs : s.Around H) (ht : t.Around K) (hH : H.Nonempty) (hK : K.Nonempty) : (s.max t).Around (Set.image2 Max.max H K) := by
  refine ⟨?_, ?_, fun he => ?_⟩
  · rw [Seg.max, maxLo_ext]; exact hs.inf.lift2 ht.inf
  · rw [Seg.max, maxHi_ext]; exact hs.sup.lift2 ht.sup hH hK
  · rw [Seg.max, maxLo_ext, maxHi_ext] at he
    obtain ⟨v, hv⟩ := hH
    obtain ⟨w, hw⟩ := hK
    have h1 : s.lo.ext ≤ s.hi.ext := (hs.inf.1 v hv).trans (hs.sup.1 v hv)
    have h2 : t.lo.ext ≤ t.hi.ext := (ht.inf.1 w hw).trans (ht.sup.1 w hw)
    have hr (v) : Max.max s.lo.ext t.lo.ext = v → s.hi.ext ≤ v ∧ t.hi.ext ≤ v := fun h => max_le_iff.mp ((he ▸ h).le)
    refine ⟨maxLo_closed (fun h => ?_) fun h => ?_, maxHi_closed (fun h => ?_) (fun h => ?_) fun h => ?_⟩
    · exact (hs.closed (h1.antisymm (hr _ (max_eq_left h)).1)).1
    · exact (ht.closed (h2.antisymm (hr _ (max_eq_right h)).2)).1
    · rcases max_choice s.lo.ext t.lo.ext with e | e
      · exact (hs.closed (h1.antisymm (hr _ e).1)).2
      · exact absurd ((h2.trans_lt h).trans_le (hr _ e).1) (lt_irrefl _)
    · rcases max_choice s.lo.ext t.lo.ext with e | e
      · exact absurd ((h1.trans_lt h).trans_le (hr _ e).2) (lt_irrefl _)
      · exact (ht.closed (h2.antisymm (hr _ e).2)).2
    · rcases max_choice s.lo.ext t.lo.ext with e | e
      · exact .inl (hs.closed (h1.antisymm (hr _ e).1)).2
      · exact .inr (ht.closed (h2.antisymm (hr _ e).2)).2

end

end Sys2Proof.Machine
end

section
/-! Sums, products, reciprocals, quotients and squares of segments (R143). -/

namespace Sys2Proof.Machine

section
variable {s t : Seg} {H K : Set ℝ}

/-- The ends of a single number. -/
theorem Seg.Around.of_single {v : ℝ} (h : s.Around H) (hv : v ∈ H) (hone : ∀ x ∈ H, x = v) :
    s.lo.ext = v ∧ s.hi.ext = v ∧ s.lc = true ∧ s.hc = true := by
  have h1 : s.lo.ext = v := (h.inf.1 v hv).antisymm (h.inf.greatest fun x hx => by rw [hone x hx])
  have h2 : s.hi.ext = v := (h.sup.least fun x hx => by rw [hone x hx]).antisymm (h.sup.1 v hv)
  exact ⟨h1, h2, h.closed (h1.trans h2.symm)⟩

/-- A set whose ends are one end has one number. -/
theorem IsInf.single {e : EReal} (h : IsInf H e) (h' : IsSup H e) {x y : ℝ} (hx : x ∈ H) (hy : y ∈ H) : x = y :=
  le_antisymm (EReal.coe_le_coe_iff.mp ((h'.1 x hx).trans (h.1 y hy))) (EReal.coe_le_coe_iff.mp ((h'.1 y hy).trans (h.1 x hx)))

/-! ### Sums -/

theorem endAdd_ninf_ext {a b : End} (ha : a.ext ≠ ⊤) (hb : b.ext ≠ ⊤) : (endAdd .ninf a b).ext = a.ext + b.ext := by
  cases a <;> cases b <;> simp_all [endAdd, End.ext]

theorem endAdd_pinf_ext {a b : End} (ha : a.ext ≠ ⊥) (hb : b.ext ≠ ⊥) : (endAdd .pinf a b).ext = a.ext + b.ext := by
  cases a <;> cases b <;> simp_all [endAdd, End.ext]

theorem IsInf.add {d e : EReal} (hH : IsInf H d) (hK : IsInf K e) (h1 : H.Nonempty) (h2 : K.Nonempty) : IsInf (Set.image2 (· + ·) H K) (d + e) := by
  constructor
  · rintro _ ⟨v, hv, w, hw, rfl⟩
    exact add_le_add (hH.1 v hv) (hK.1 w hw)
  · intro r hr
    have hd := hH.ne_top h1
    have hw : ∃ w ∈ K, d < ((r - w : ℝ) : EReal) := by
      induction d with
      | top => exact absurd rfl hd
      | bot => obtain ⟨w, hw⟩ := h2; exact ⟨w, hw, EReal.bot_lt_coe _⟩
      | coe d =>
        have : e < ((r - d : ℝ) : EReal) := by
          induction e with
          | top => exact absurd rfl (hK.ne_top h2)
          | bot => exact EReal.bot_lt_coe _
          | coe e =>
            have : d + e < r := by exact_mod_cast hr
            exact EReal.coe_lt_coe_iff.mpr (by linarith)
        obtain ⟨w, hw, hlt⟩ := hK.2 _ this
        exact ⟨w, hw, EReal.coe_lt_coe_iff.mpr (by linarith)⟩
    obtain ⟨w, hw, hlt⟩ := hw
    obtain ⟨v, hv, hvr⟩ := hH.2 _ hlt
    exact ⟨_, ⟨v, hv, w, hw, rfl⟩, by linarith⟩

/-- The other end of a set, by that of the set mirrored. -/
theorem IsSup.of_neg {e : EReal} (h : IsInf {v | -v ∈ H} (-e)) : IsSup H e := by
  have := h.neg
  simpa using this

theorem Seg.Around.add (hs : s.Around H) (ht : t.Around K) (hH : H.Nonempty) (hK : K.Nonempty) : (s.add t).Around (Set.image2 (· + ·) H K) := by
  have e1 := endAdd_ninf_ext (hs.inf.ne_top hH) (ht.inf.ne_top hK)
  have e2 := endAdd_pinf_ext (hs.sup.ne_bot hH) (ht.sup.ne_bot hK)
  have hinf : IsInf (Set.image2 (· + ·) H K) (s.add t).lo.ext := by
    rw [Seg.add, e1]; exact hs.inf.add ht.inf hH hK
  have hsup : IsSup (Set.image2 (· + ·) H K) (s.add t).hi.ext := by
    rw [Seg.add, e2]
    refine .of_neg ?_
    rw [EReal.neg_add (.inl (hs.sup.ne_bot hH)) (.inr (ht.sup.ne_bot hK)), sub_eq_add_neg]
    convert hs.sup.neg.add ht.sup.neg (hH.elim fun v hv => ⟨-v, by simpa using hv⟩) (hK.elim fun v hv => ⟨-v, by simpa using hv⟩) using 1
    ext v
    constructor
    · rintro ⟨x, hx, y, hy, h⟩
      exact ⟨-x, by simpa using hx, -y, by simpa using hy, by dsimp only at h ⊢; linarith⟩
    · rintro ⟨x, hx, y, hy, h⟩
      exact ⟨-x, hx, -y, hy, by dsimp only at h ⊢; linarith⟩
  refine ⟨hinf, hsup, fun he => ?_⟩
  obtain ⟨v, hv⟩ := hH
  obtain ⟨w, hw⟩ := hK
  have hone {x y x' y' : ℝ} (hx : x ∈ H) (hy : y ∈ K) (hx' : x' ∈ H) (hy' : y' ∈ K) : x + y = x' + y' :=
    hinf.single (he ▸ hsup) ⟨x, hx, y, hy, rfl⟩ ⟨x', hx', y', hy', rfl⟩
  obtain ⟨-, -, c1, c2⟩ := hs.of_single hv fun x hx => add_right_cancel (hone hx hw hv hw)
  obtain ⟨-, -, c3, c4⟩ := ht.of_single hw fun y hy => add_left_cancel (hone hv hy hv hw)
  simp [Seg.add, c1, c2, c3, c4]

/-! ### Products -/

/-- `e` is an end of `H`: what products with it bound, products with numbers of the set bound. -/
def IsEnd (H : Set ℝ) (e : EReal) : Prop := ∀ y r : ℝ, e * y < r → ∃ v ∈ H, v * y < r

theorem IsInf.isEnd {e : EReal} (h : IsInf H e) (hH : H.Nonempty) : IsEnd H e := by
  intro y r hr
  obtain ⟨w, hw⟩ := hH
  rcases lt_trichotomy y 0 with hy | rfl | hy
  · refine ⟨w, hw, ?_⟩
    have : (w : EReal) * y ≤ e * y := EReal.mul_le_mul_of_nonpos_right (h.1 w hw) (by exact_mod_cast hy.le)
    exact_mod_cast this.trans_lt hr
  · exact ⟨w, hw, by simpa using hr⟩
  · have : e < ((r / y : ℝ) : EReal) := by
      induction e with
      | bot => exact EReal.bot_lt_coe _
      | top => rw [EReal.top_mul_coe_of_pos hy] at hr; exact absurd hr (by simp)
      | coe e =>
        have : e * y < r := by exact_mod_cast hr
        exact EReal.coe_lt_coe_iff.mpr ((lt_div_iff₀ hy).mpr this)
    obtain ⟨v, hv, hlt⟩ := h.2 _ this
    exact ⟨v, hv, (lt_div_iff₀ hy).mp hlt⟩

theorem IsSup.isEnd {e : EReal} (h : IsSup H e) (hH : H.Nonempty) : IsEnd H e := by
  intro y r hr
  obtain ⟨v, hv, hlt⟩ := h.neg.isEnd (hH.elim fun v hv => ⟨-v, by simpa using hv⟩) (-y) r (by simpa using hr)
  exact ⟨-v, hv, by linarith⟩

theorem IsEnd.mul {a c : EReal} (ha : IsEnd H a) (hc : IsEnd K c) (hH : H.Nonempty) (hK : K.Nonempty) {r : ℝ} (h : a * c < r) :
    ∃ v ∈ H, ∃ w ∈ K, v * w < r := by
  have real {H K : Set ℝ} {a : ℝ} {c : EReal} (ha : IsEnd H a) (hc : IsEnd K c) (h : a * c < r) : ∃ v ∈ H, ∃ w ∈ K, v * w < r := by
    obtain ⟨w, hw, h1⟩ := hc a r (by rwa [mul_comm])
    obtain ⟨v, hv, h2⟩ := ha w r (by exact_mod_cast (mul_comm w a ▸ h1))
    exact ⟨v, hv, w, hw, h2⟩
  have inf {H K : Set ℝ} (ha : IsEnd H ⊥) (hc : IsEnd K ⊤) : ∃ v ∈ H, ∃ w ∈ K, v * w < r := by
    obtain ⟨w, hw, h1⟩ := hc (-1) 0 (by rw [EReal.top_mul_coe_of_neg (by norm_num)]; exact EReal.bot_lt_coe _)
    obtain ⟨v, hv, h2⟩ := ha w r (by rw [EReal.bot_mul_coe_of_pos (by linarith)]; exact EReal.bot_lt_coe _)
    exact ⟨v, hv, w, hw, h2⟩
  have swap (h : ∃ w ∈ K, ∃ v ∈ H, w * v < r) : ∃ v ∈ H, ∃ w ∈ K, v * w < r := by
    obtain ⟨w, hw, v, hv, h⟩ := h
    exact ⟨v, hv, w, hw, mul_comm w v ▸ h⟩
  induction a with
  | coe a => exact real ha hc h
  | bot =>
    induction c with
    | coe c => exact swap (real hc ha (mul_comm _ (c : EReal) ▸ h))
    | bot => rw [EReal.bot_mul_bot] at h; exact absurd h (by simp)
    | top => exact inf ha hc
  | top =>
    induction c with
    | coe c => exact swap (real hc ha (mul_comm _ (c : EReal) ▸ h))
    | bot => exact swap (inf hc ha)
    | top => rw [EReal.top_mul_top] at h; exact absurd h (by simp)

/-- A product lies above that of an end with the other factor, and so above a product of ends. -/
theorem min_mul_le {a x b : EReal} (h1 : a ≤ x) (h2 : x ≤ b) (y : EReal) : min (a * y) (b * y) ≤ x * y := by
  rcases le_total 0 y with hy | hy
  · exact (min_le_left _ _).trans (mul_le_mul_of_nonneg_right h1 hy)
  · exact (min_le_right _ _).trans (EReal.mul_le_mul_of_nonpos_right h2 hy)

/-- The least product of two sets is one of their ends. -/
theorem IsInf.mul {a b c d : EReal} (h1 : IsInf H a) (h2 : IsSup H b) (h3 : IsInf K c) (h4 : IsSup K d) (hH : H.Nonempty) (hK : K.Nonempty) :
    IsInf (Set.image2 (· * ·) H K) (min (min (a * c) (a * d)) (min (b * c) (b * d))) := by
  constructor
  · rintro _ ⟨v, hv, w, hw, rfl⟩
    have hy (x : EReal) : min (x * c) (x * d) ≤ x * w := by
      rw [mul_comm x, mul_comm x, mul_comm x]
      exact min_mul_le (h3.1 w hw) (h4.1 w hw) x
    rw [EReal.coe_mul]
    exact (min_le_min (hy a) (hy b)).trans (min_mul_le (h1.1 v hv) (h2.1 v hv) w)
  · intro r hr
    simp only [min_lt_iff] at hr
    have : ∃ v ∈ H, ∃ w ∈ K, v * w < r := by
      rcases hr with (h | h) | (h | h)
      · exact (h1.isEnd hH).mul (h3.isEnd hK) hH hK h
      · exact (h1.isEnd hH).mul (h4.isEnd hK) hH hK h
      · exact (h2.isEnd hH).mul (h3.isEnd hK) hH hK h
      · exact (h2.isEnd hH).mul (h4.isEnd hK) hH hK h
    obtain ⟨v, hv, w, hw, hlt⟩ := this
    exact ⟨_, ⟨v, hv, w, hw, rfl⟩, hlt⟩

theorem Corner.mul_ext (a b : Corner) : (a.mul b).v.ext = a.v.ext * b.v.ext := by
  obtain ⟨a, ac⟩ := a
  obtain ⟨b, bc⟩ := b
  have inf (x : ℚ) (e : End) (he : e = .pinf ∨ e = .ninf) : (if x = 0 then End.fin 0 else if x < 0 then e.neg else e).ext = (x : ℝ) * e.ext := by
    rcases lt_trichotomy x 0 with hx | rfl | hx
    · rw [if_neg hx.ne, if_pos hx]
      have : (x : ℝ) < 0 := by exact_mod_cast hx
      rcases he with rfl | rfl
      · simp [End.ext, End.neg, EReal.coe_mul_top_of_neg this]
      · simp [End.ext, End.neg, EReal.coe_mul_bot_of_neg this]
    · simp [End.ext]
    · rw [if_neg hx.ne', if_neg hx.not_gt]
      have : (0 : ℝ) < x := by exact_mod_cast hx
      rcases he with rfl | rfl
      · simp [End.ext, EReal.coe_mul_top_of_pos this]
      · simp [End.ext, EReal.coe_mul_bot_of_pos this]
  cases a with
  | fin x =>
    cases b with
    | fin y => simp [Corner.mul, End.ext]
    | ninf => exact inf x .ninf (.inr rfl)
    | pinf => exact inf x .pinf (.inl rfl)
  | ninf =>
    cases b with
    | fin y => exact (inf y .ninf (.inr rfl)).trans (mul_comm _ _)
    | ninf => simp [Corner.mul, End.ext]
    | pinf => simp [Corner.mul, End.ext]
  | pinf =>
    cases b with
    | fin y => exact (inf y .pinf (.inl rfl)).trans (mul_comm _ _)
    | ninf => simp [Corner.mul, End.ext]
    | pinf => simp [Corner.mul, End.ext]

theorem Seg.mul_lo_ext (s t : Seg) : (s.mul t).lo.ext =
    Min.min (Min.min (s.lo.ext * t.lo.ext) (s.lo.ext * t.hi.ext)) (Min.min (s.hi.ext * t.lo.ext) (s.hi.ext * t.hi.ext)) := by
  simp only [Seg.mul, List.foldl, minLo_ext, Corner.mul_ext, min_assoc]

theorem Seg.mul_hi_ext (s t : Seg) : (s.mul t).hi.ext =
    Max.max (Max.max (s.lo.ext * t.lo.ext) (s.lo.ext * t.hi.ext)) (Max.max (s.hi.ext * t.lo.ext) (s.hi.ext * t.hi.ext)) := by
  simp only [Seg.mul, List.foldl, maxHi_ext, Corner.mul_ext, max_assoc]

theorem neg_max_ext (a b : EReal) : -max a b = min (-a) (-b) := by
  rcases le_total a b with h | h
  · rw [max_eq_right h, min_eq_right (EReal.neg_le_neg_iff.mpr h)]
  · rw [max_eq_left h, min_eq_left (EReal.neg_le_neg_iff.mpr h)]

theorem Seg.Around.mul (hs : s.Around H) (ht : t.Around K) (hH : H.Nonempty) (hK : K.Nonempty) : (s.mul t).Around (Set.image2 (· * ·) H K) := by
  have hinf : IsInf (Set.image2 (· * ·) H K) (s.mul t).lo.ext := by
    rw [Seg.mul_lo_ext]; exact hs.inf.mul hs.sup ht.inf ht.sup hH hK
  have hsup : IsSup (Set.image2 (· * ·) H K) (s.mul t).hi.ext := by
    refine .of_neg ?_
    rw [Seg.mul_hi_ext, neg_max_ext, neg_max_ext, neg_max_ext, min_comm]
    simp only [← EReal.neg_mul]
    convert hs.sup.neg.mul hs.inf.neg ht.inf ht.sup (hH.elim fun v hv => ⟨-v, by simpa using hv⟩) hK using 1
    ext v
    constructor
    · rintro ⟨x, hx, y, hy, h⟩
      exact ⟨-x, by simpa using hx, y, hy, by dsimp only at h ⊢; linarith⟩
    · rintro ⟨x, hx, y, hy, h⟩
      exact ⟨-x, hx, y, hy, by dsimp only at h ⊢; linarith⟩
  refine ⟨hinf, hsup, fun he => ?_⟩
  obtain ⟨v, hv⟩ := hH
  obtain ⟨w, hw⟩ := hK
  have hone {x y x' y' : ℝ} (hx : x ∈ H) (hy : y ∈ K) (hx' : x' ∈ H) (hy' : y' ∈ K) : x * y = x' * y' :=
    hinf.single (he ▸ hsup) ⟨x, hx, y, hy, rfl⟩ ⟨x', hx', y', hy', rfl⟩
  have fold (p q r o : Corner) (hp : p.c = true) (hq : q.c = true) (hr : r.c = true) (ho : o.c = true) :
    ([q, r, o].foldl (fun m x => minLo m.1 m.2 x.v x.c) (p.v, p.c)).2 = true ∧
      ([q, r, o].foldl (fun m x => maxHi m.1 m.2 x.v x.c) (p.v, p.c)).2 = true := by
    simp only [List.foldl]
    exact ⟨minLo_closed (minLo_closed (minLo_closed hp hq) hr) ho,
      maxHi_closed (fun _ => maxHi_closed (fun _ => maxHi_closed (fun _ => hp) (fun _ => hq) fun _ => .inl hp) (fun _ => hr) fun _ => .inr hr)
        (fun _ => ho) fun _ => .inr ho⟩
  have zero {e : End} (h : e.ext = (0 : ℝ)) : (e == .fin 0) = true := beq_iff_eq.mpr (End.ext_injective (h.trans (by simp [End.ext])))
  by_cases hK0 : ∀ y ∈ K, y = 0
  · obtain ⟨e1, e2, c1, c2⟩ := ht.of_single hw fun y hy => (hK0 y hy).trans (hK0 w hw).symm
    rw [hK0 w hw] at e1 e2
    refine fold _ _ _ _ ?_ ?_ ?_ ?_ <;> simp [Corner.mul, c1, c2, zero e1, zero e2]
  · push Not at hK0
    obtain ⟨y, hy, hy0⟩ := hK0
    obtain ⟨e1, e2, c1, c2⟩ := hs.of_single hv fun x hx => mul_right_cancel₀ hy0 (hone hx hy hv hy)
    by_cases hv0 : v = 0
    · rw [hv0] at e1 e2
      refine fold _ _ _ _ ?_ ?_ ?_ ?_ <;> simp [Corner.mul, c1, c2, zero e1, zero e2]
    · obtain ⟨-, -, c3, c4⟩ := ht.of_single hw fun y hy => mul_left_cancel₀ hv0 (hone hv hy hv hw)
      refine fold _ _ _ _ ?_ ?_ ?_ ?_ <;> simp [Corner.mul, c1, c2, c3, c4]

end

end Sys2Proof.Machine
end

section
/-! Reciprocals, quotients and squares of segments, and the enclosures of sets (R139, R143). -/

namespace Sys2Proof.Machine

section
variable {s t : Seg} {H K : Set ℝ}

/-! ### Enclosures of sets that may be empty -/

/-- `o` is a segment around `H`, and none or empty where `H` is. -/
def Encloses (o : Option Seg) (H : Set ℝ) : Prop :=
  (H.Nonempty → ∃ s, o = some s ∧ s.Around H) ∧ (H = ∅ → ∀ s, o = some s → s.some? = false)

theorem Seg.Around.encloses (h : s.Around H) (hH : H.Nonempty) : Encloses (some s) H :=
  ⟨fun _ => ⟨s, rfl, h⟩, fun h0 => absurd h0 hH.ne_empty⟩

theorem Seg.encloses_has (s : Seg) : Encloses (some s) {q | s.Has q} := by
  refine ⟨fun h => ⟨s, rfl, Seg.around h⟩, fun h t ht => ?_⟩
  cases ht
  rw [← Bool.not_eq_true, Seg.some?_iff]
  rintro ⟨q, hq⟩
  exact Set.eq_empty_iff_forall_notMem.mp h q hq

/-- What `enc` gives (R139). -/
theorem Encloses.enc {o : Option Seg} (h : Encloses o H) : Spec.tightest (· ∈ H) (enc o).bits ∧
    (Machine.enc o = .empty ↔ ¬∃ v, v ∈ H) ∧ (Machine.enc o ≠ .empty → Spec.canonicalBox (Machine.enc o).bits) := by
  rcases H.eq_empty_or_nonempty with h0 | h0
  · have hn : ¬∃ v, v ∈ H := fun hv => absurd h0 (Set.nonempty_iff_ne_empty.mp hv)
    have e : Machine.enc o = .empty := by
      cases o with
      | none => rfl
      | some s => rw [Machine.enc, h.2 h0 s rfl]; rfl
    rw [e]
    exact ⟨tightest_empty hn, iff_of_true rfl hn, fun h => absurd rfl h⟩
  · obtain ⟨s, rfl, hs⟩ := h.1 h0
    have e : Machine.enc (some s) = .iv (roundLo s.lo) (roundHi s.hi) := by simp only [Machine.enc, hs.some? h0, if_true]
    rw [e]
    obtain ⟨h1, h2⟩ := tightest_of_ends hs.inf hs.sup h0
    exact ⟨h1, iff_of_false (fun h => nomatch h) fun h => h h0, fun _ => h2⟩

/-- The hull of two parts, of which each is left out where it has no number. -/
theorem hull_parts {p q : Bool} (hp : p = true ↔ H.Nonempty) (hq : q = true ↔ K.Nonempty) (hs : H.Nonempty → s.Around H) (ht : K.Nonempty → t.Around K) :
    Encloses (hull ((if p then [s] else []) ++ (if q then [t] else []))) (H ∪ K) := by
  have none {b : Bool} {L : Set ℝ} (hb : b = true ↔ L.Nonempty) (h : b = false) : L = ∅ :=
    Set.not_nonempty_iff_eq_empty.mp fun hn => by rw [hb.mpr hn] at h; cases h
  cases p <;> cases q
  · rw [none hp rfl, none hq rfl, Set.union_empty]
    exact ⟨fun h => absurd h Set.not_nonempty_empty, fun _ s hs => nomatch hs⟩
  · rw [none hp rfl, Set.empty_union]
    have hK := hq.mp rfl
    simpa [hull, (ht hK).some? hK] using (ht hK).encloses hK
  · rw [none hq rfl, Set.union_empty]
    have hH := hp.mp rfl
    simpa [hull, (hs hH).some? hH] using (hs hH).encloses hH
  · have hH := hp.mp rfl
    have hK := hq.mp rfl
    simpa [hull, (hs hH).some? hH, (ht hK).some? hK] using ((hs hH).hull2 (ht hK) hH hK).encloses (hH.mono Set.subset_union_left)

/-! ### Numbers of one sign -/

theorem Seg.negate_has {q : ℝ} : s.negate.Has q ↔ s.Has (-q) := by
  unfold Seg.Has Seg.negate
  simp only [End.ext_neg, EReal.coe_neg]
  rw [and_comm, EReal.neg_lt_comm, EReal.lt_neg_comm, neg_eq_iff_eq_neg, eq_comm (a := s.hi.ext), ← neg_eq_iff_eq_neg, eq_comm (a := -(q : EReal))]

theorem Seg.pos_has {q : ℝ} : Seg.pos.Has q ↔ 0 < q := by
  simp [Seg.Has, Seg.pos, End.ext]

theorem Seg.nonneg_has {q : ℝ} : Seg.nonneg.Has q ↔ 0 ≤ q := by
  simp [Seg.Has, Seg.nonneg, End.ext, le_iff_lt_or_eq]
  norm_cast

theorem IsInf.nonneg {e : EReal} (h : IsInf H e) (hH : ∀ v ∈ H, 0 ≤ v) : 0 ≤ e :=
  h.greatest fun v hv => by exact_mod_cast hH v hv

/-- The lower end of numbers that are none below 0 is a number. -/
theorem IsInf.fin_of_nonneg {e : End} (h : IsInf H e.ext) (hn : H.Nonempty) (hH : ∀ v ∈ H, 0 ≤ v) : ∃ a : ℚ, e = .fin a ∧ 0 ≤ a := by
  have h0 := h.nonneg hH
  cases e with
  | ninf => exact absurd h0 (by simp [End.ext])
  | pinf => exact absurd rfl (h.ne_top hn)
  | fin a => exact ⟨a, rfl, by exact_mod_cast (EReal.coe_le_coe_iff.mp (h0.trans_eq rfl) : (0 : ℝ) ≤ (a : ℝ))⟩

/-- The upper end of positive numbers is a positive number or unbounded. -/
theorem IsSup.fin_or_top {e : End} (h : IsSup H e.ext) (hn : H.Nonempty) (hH : ∀ v ∈ H, 0 < v) : (∃ b : ℚ, e = .fin b ∧ 0 < b) ∨ e = .pinf := by
  cases e with
  | ninf => exact absurd rfl (h.ne_bot hn)
  | pinf => exact .inr rfl
  | fin b =>
    obtain ⟨v, hv⟩ := hn
    have : v ≤ (b : ℝ) := EReal.coe_le_coe_iff.mp (h.1 v hv)
    exact .inl ⟨b, rfl, by exact_mod_cast (hH v hv).trans_le this⟩

/-! ### Reciprocals -/

theorem endInv_fin_ext {b : ℚ} (h : b ≠ 0) : (endInv (.fin b)).ext = ((b : ℝ)⁻¹ : ℝ) := by
  rw [endInv, if_neg h, End.ext, one_div, Rat.cast_inv]

/-- The reciprocals of positive numbers. -/
theorem Seg.Around.inv (h : s.Around H) (hn : H.Nonempty) (hpos : ∀ v ∈ H, 0 < v) : s.inv.Around {v | v⁻¹ ∈ H} := by
  obtain ⟨a, ha, ha0⟩ := h.inf.fin_of_nonneg hn fun v hv => (hpos v hv).le
  have hinf : IsInf {v | v⁻¹ ∈ H} s.inv.lo.ext := by
    have hs := h.sup
    rcases hs.fin_or_top hn hpos with ⟨b, hb, hb0⟩ | hb <;> rw [hb] at hs
    · rw [show s.inv.lo = endInv (.fin b) from congrArg endInv hb, endInv_fin_ext hb0.ne']
      have hb0 : (0 : ℝ) < b := by exact_mod_cast hb0
      refine ⟨fun v hv => ?_, fun r hr => ?_⟩
      · have hvb : v⁻¹ ≤ b := EReal.coe_le_coe_iff.mp (hs.1 _ hv)
        exact EReal.coe_le_coe_iff.mpr (inv_le_of_inv_le₀ (inv_pos.mp (hpos _ hv)) hvb)
      · have hbr : (b : ℝ)⁻¹ < r := EReal.coe_lt_coe_iff.mp hr
        obtain ⟨v, hv, hlt⟩ := hs.2 r⁻¹ (EReal.coe_lt_coe_iff.mpr (inv_lt_of_inv_lt₀ hb0 hbr))
        exact ⟨v⁻¹, by simpa using hv, inv_lt_of_inv_lt₀ ((inv_pos.mpr hb0).trans hbr) hlt⟩
    · have e : s.inv.lo.ext = 0 := by simp [Seg.inv, endInv, hb, End.ext]
      rw [e]
      refine ⟨fun v hv => by exact_mod_cast (inv_pos.mp (hpos _ hv)).le, fun r hr => ?_⟩
      obtain ⟨v, hv, hlt⟩ := hs.2 r⁻¹ (EReal.coe_lt_top _)
      have hr0 : 0 < r := by exact_mod_cast hr
      exact ⟨v⁻¹, by simpa using hv, inv_lt_of_inv_lt₀ hr0 hlt⟩
  have hsup : IsSup {v | v⁻¹ ∈ H} s.inv.hi.ext := by
    have hs := h.inf
    rw [ha] at hs
    rcases ha0.lt_or_eq with ha0 | rfl
    · rw [show s.inv.hi = endInv (.fin a) from congrArg endInv ha, endInv_fin_ext ha0.ne']
      have ha0 : (0 : ℝ) < a := by exact_mod_cast ha0
      refine ⟨fun v hv => ?_, fun r hr => ?_⟩
      · have hva : (a : ℝ) ≤ v⁻¹ := EReal.coe_le_coe_iff.mp (hs.1 _ hv)
        exact EReal.coe_le_coe_iff.mpr (le_inv_of_le_inv₀ ha0 hva)
      · have hra : r < (a : ℝ)⁻¹ := EReal.coe_lt_coe_iff.mp hr
        obtain ⟨v, hv, hlt⟩ := hs.2 (Max.max r ((a : ℝ)⁻¹ / 2))⁻¹ (EReal.coe_lt_coe_iff.mpr
          ((lt_inv_comm₀ ha0 (lt_max_of_lt_right (by positivity))).mpr (max_lt hra (half_lt_self (inv_pos.mpr ha0)))))
        refine ⟨v⁻¹, by simpa using hv, (le_max_left r _).trans_lt ((lt_inv_comm₀ (hpos v hv) (lt_max_of_lt_right (by positivity))).mp hlt)⟩
    · have e : s.inv.hi.ext = ⊤ := by simp [Seg.inv, endInv, ha, End.ext]
      rw [e]
      refine ⟨fun v _ => le_top, fun r _ => ?_⟩
      have hr : 0 < Max.max r 1 := lt_max_of_lt_right one_pos
      obtain ⟨v, hv, hlt⟩ := hs.2 (Max.max r 1)⁻¹ (by simp [End.ext])
      exact ⟨v⁻¹, by simpa using hv, (le_max_left r 1).trans_lt ((lt_inv_comm₀ (hpos v hv) hr).mp hlt)⟩
  refine ⟨hinf, hsup, fun he => ?_⟩
  obtain ⟨v, hv⟩ := hn
  obtain ⟨e1, e2, c1, c2⟩ := h.of_single hv fun x hx =>
    inv_injective (hinf.single (he ▸ hsup) (by simpa using hx : x⁻¹ ∈ {v | v⁻¹ ∈ H}) (by simpa using hv : v⁻¹ ∈ {v | v⁻¹ ∈ H}))
  have n1 : s.hi ≠ .pinf := fun h => by rw [h] at e2; cases e2
  have n2 : s.lo ≠ .fin 0 := fun h => by
    rw [h] at e1
    exact (hpos v hv).ne (EReal.coe_eq_coe_iff.mp (by simpa [End.ext] using e1))
  simp [Seg.inv, c1, c2, n1, n2]

/-! ### Quotients -/

/-- The quotients of two segments. -/
def Seg.Quot (s t : Seg) : Set ℝ := {v | ∃ a b, s.Has a ∧ t.Has b ∧ b ≠ 0 ∧ v = a / b}

/-- The quotients by positive numbers. -/
theorem Seg.quotient_around {p : Seg} (hp : ∀ q, p.Has q → 0 < q) (hs : ∃ q, s.Has q) (hq : ∃ q, p.Has q) :
    (s.mul p.inv).Around {v | ∃ a b, s.Has a ∧ p.Has b ∧ v = a / b} := by
  have h := (Seg.around hs).mul ((Seg.around hq).inv hq hp) hs (hq.elim fun q hq => ⟨q⁻¹, by simpa using hq⟩)
  convert h using 1
  ext v
  constructor
  · rintro ⟨a, b, ha, hb, rfl⟩
    exact ⟨a, ha, b⁻¹, by simpa using hb, (div_eq_mul_inv a b).symm⟩
  · rintro ⟨a, ha, b, hb, rfl⟩
    exact ⟨a, b⁻¹, ha, hb, by rw [div_inv_eq_mul]⟩

theorem quotients_encloses (s t : Seg) : Encloses (hull (quotients s t)) (s.Quot t) := by
  have hp {q : ℝ} {t : Seg} : (t.meet Seg.pos).Has q ↔ t.Has q ∧ 0 < q := by rw [Seg.meet_has, Seg.pos_has]
  have e : s.Quot t = {v | ∃ a b, s.Has a ∧ (t.meet Seg.pos).Has b ∧ v = a / b} ∪
      {v | -v ∈ {v | ∃ a b, s.Has a ∧ (t.negate.meet Seg.pos).Has b ∧ v = a / b}} := by
    ext v
    constructor
    · rintro ⟨a, b, ha, hb, hb0, rfl⟩
      rcases hb0.lt_or_gt with h | h
      · exact .inr ⟨a, -b, ha, hp.mpr ⟨Seg.negate_has.mpr (by rwa [neg_neg]), by linarith⟩, by rw [div_neg]⟩
      · exact .inl ⟨a, b, ha, hp.mpr ⟨hb, h⟩, rfl⟩
    · rintro (⟨a, b, ha, hb, rfl⟩ | ⟨a, b, ha, hb, h⟩)
      · obtain ⟨hb, h0⟩ := hp.mp hb
        exact ⟨a, b, ha, hb, h0.ne', rfl⟩
      · obtain ⟨hb, h0⟩ := hp.mp hb
        exact ⟨a, -b, ha, Seg.negate_has.mp hb, by linarith, by rw [div_neg, ← h, neg_neg]⟩
  have some {p : Seg} : (s.some? && p.some?) = true ↔ {v | ∃ a b, s.Has a ∧ p.Has b ∧ v = a / b}.Nonempty := by
    rw [Bool.and_eq_true, Seg.some?_iff, Seg.some?_iff]
    exact ⟨fun ⟨⟨a, ha⟩, b, hb⟩ => ⟨_, a, b, ha, hb, rfl⟩, fun ⟨_, a, b, ha, hb, _⟩ => ⟨⟨a, ha⟩, b, hb⟩⟩
  rw [e, quotients]
  refine hull_parts some (some.trans ⟨fun ⟨v, hv⟩ => ⟨-v, by simpa using hv⟩, fun ⟨v, hv⟩ => ⟨-v, hv⟩⟩) (fun ⟨_, a, b, ha, hb, _⟩ => ?_)
    fun ⟨_, a, b, ha, hb, _⟩ => (?_ : Seg.Around _ _).negate
  · exact Seg.quotient_around (fun q hq => (hp.mp hq).2) ⟨a, ha⟩ ⟨b, hb⟩
  · exact Seg.quotient_around (fun q hq => (hp.mp hq).2) ⟨a, ha⟩ ⟨b, hb⟩

/-! ### Squares -/

/-- The square of an end of numbers that are none below 0. -/
def End.sq : End → End
  | .fin a => .fin (a * a)
  | _ => .pinf

/-- The squares of numbers that are none below 0. -/
def Seg.sq (s : Seg) : Seg := ⟨s.lo.sq, s.lc, s.hi.sq, s.hc⟩

theorem Seg.Around.sq (h : s.Around H) (hn : H.Nonempty) (hH : ∀ v ∈ H, 0 ≤ v) :
    s.sq.Around {v | ∃ x ∈ H, v = x * x} := by
  obtain ⟨a, ha, ha0⟩ := h.inf.fin_of_nonneg hn hH
  have ha0' : (0 : ℝ) ≤ a := by exact_mod_cast ha0
  have hinf : IsInf {v | ∃ x ∈ H, v = x * x} s.lo.sq.ext := by
    have hs := h.inf
    rw [ha] at hs
    rw [ha, End.sq, End.ext, Rat.cast_mul]
    constructor
    · rintro _ ⟨x, hx, rfl⟩
      have hax : (a : ℝ) ≤ x := EReal.coe_le_coe_iff.mp (hs.1 x hx)
      exact EReal.coe_le_coe_iff.mpr (mul_self_le_mul_self ha0' hax)
    · intro r hr
      have hr : (a : ℝ) * a < r := EReal.coe_lt_coe_iff.mp hr
      obtain ⟨x, hx, hlt⟩ := hs.2 √r (EReal.coe_lt_coe_iff.mpr (Real.lt_sqrt_of_sq_lt (by rwa [pow_two])))
      exact ⟨_, ⟨x, hx, rfl⟩, by rw [← pow_two]; exact (Real.lt_sqrt (hH x hx)).mp hlt⟩
  have hsup : IsSup {v | ∃ x ∈ H, v = x * x} s.hi.sq.ext := by
    have hs := h.sup
    cases hb : s.hi with
    | ninf => exact absurd (hb ▸ rfl) (hs.ne_bot hn)
    | pinf =>
      rw [hb] at hs
      refine ⟨fun v _ => le_top, fun r _ => ?_⟩
      obtain ⟨x, hx, hlt⟩ := hs.2 (Max.max r 1) (EReal.coe_lt_top _)
      obtain ⟨h1, h2⟩ := max_lt_iff.mp hlt
      exact ⟨_, ⟨x, hx, rfl⟩, by nlinarith⟩
    | fin b =>
      rw [hb] at hs
      rw [End.sq, End.ext, Rat.cast_mul]
      constructor
      · rintro _ ⟨x, hx, rfl⟩
        have hxb : x ≤ b := EReal.coe_le_coe_iff.mp (hs.1 x hx)
        exact EReal.coe_le_coe_iff.mpr (mul_self_le_mul_self (hH x hx) hxb)
      · intro r hr
        have hr : r < (b : ℝ) * b := EReal.coe_lt_coe_iff.mp hr
        obtain ⟨w, hw⟩ := hn
        have hb0 : (0 : ℝ) ≤ b := (hH w hw).trans (EReal.coe_le_coe_iff.mp (hs.1 w hw))
        by_cases hr0 : r < 0
        · exact ⟨_, ⟨w, hw, rfl⟩, hr0.trans_le (mul_self_nonneg w)⟩
        · obtain ⟨x, hx, hlt⟩ := hs.2 √r (EReal.coe_lt_coe_iff.mpr ((Real.sqrt_lt' (lt_of_le_of_ne hb0 fun h0 => hr0 (by
            rw [← h0] at hr; linarith))).mpr (by rwa [pow_two])))
          exact ⟨_, ⟨x, hx, rfl⟩, by rw [← pow_two]; exact Real.lt_sq_of_sqrt_lt hlt⟩
  refine ⟨hinf, hsup, fun he => h.closed ?_⟩
  obtain ⟨v, hv⟩ := hn
  obtain ⟨e1, e2, -⟩ := h.of_single hv fun x hx => by
    have := hinf.single (he ▸ hsup) ⟨x, hx, rfl⟩ ⟨v, hv, rfl⟩
    exact (mul_self_inj_of_nonneg (hH x hx) (hH v hv)).mp this
  exact e1.trans e2.symm

theorem Seg.sqr_eq (s : Seg) : s.sqr = (hull ((if (s.meet Seg.nonneg).some? then [(s.meet Seg.nonneg).sq] else []) ++
    (if (s.negate.meet Seg.nonneg).some? then [(s.negate.meet Seg.nonneg).sq] else []))).getD s := rfl

theorem Seg.sqr_around (hs : ∃ q, s.Has q) : s.sqr.Around {v | ∃ x, s.Has x ∧ v = x * x} := by
  have hp {q : ℝ} {t : Seg} : (t.meet Seg.nonneg).Has q ↔ t.Has q ∧ 0 ≤ q := by rw [Seg.meet_has, Seg.nonneg_has]
  have e : {v | ∃ x, s.Has x ∧ v = x * x} = {v | ∃ x ∈ {q | (s.meet Seg.nonneg).Has q}, v = x * x} ∪
      {v | ∃ x ∈ {q | (s.negate.meet Seg.nonneg).Has q}, v = x * x} := by
    ext v
    constructor
    · rintro ⟨x, hx, rfl⟩
      rcases le_total 0 x with h | h
      · exact .inl ⟨x, hp.mpr ⟨hx, h⟩, rfl⟩
      · exact .inr ⟨-x, hp.mpr ⟨Seg.negate_has.mpr (by rwa [neg_neg]), by linarith⟩, by ring⟩
    · rintro (⟨x, hx, rfl⟩ | ⟨x, hx, rfl⟩)
      · exact ⟨x, (hp.mp hx).1, rfl⟩
      · exact ⟨-x, Seg.negate_has.mp (hp.mp hx).1, by ring⟩
  have some {p : Seg} : p.some? = true ↔ {v | ∃ x ∈ {q | p.Has q}, v = x * x}.Nonempty := by
    rw [Seg.some?_iff]
    exact ⟨fun ⟨q, hq⟩ => ⟨_, q, hq, rfl⟩, fun ⟨_, q, hq, _⟩ => ⟨q, hq⟩⟩
  have part {p : Seg} (hp : ∀ q, p.Has q → 0 ≤ q) (h : {v | ∃ x ∈ {q | p.Has q}, v = x * x}.Nonempty) :
      p.sq.Around {v | ∃ x ∈ {q | p.Has q}, v = x * x} := by
    obtain ⟨_, q, hq, -⟩ := h
    exact (Seg.around ⟨q, hq⟩).sq ⟨q, hq⟩ hp
  have h := hull_parts (s := (s.meet Seg.nonneg).sq) (t := (s.negate.meet Seg.nonneg).sq) some some (part fun q hq => (hp.mp hq).2)
    (part fun q hq => (hp.mp hq).2)
  rw [← e] at h
  obtain ⟨r, hr, ha⟩ := h.1 (hs.elim fun q hq => ⟨_, q, hq, rfl⟩)
  have er : s.sqr = r := by
    rw [Seg.sqr_eq, hr]
    rfl
  rw [er]
  exact ha

end

end Sys2Proof.Machine
end

section
/-! Interval operations give the tightest enclosure (R70, R139, R143). -/

namespace Sys2Proof.Machine

/-- The segment that an operand is read as. -/
def boxSeg (v : ℕ) : Seg := segOf (canonLo (v % 2 ^ 32)) (canonHi (v / 2 ^ 32))

/-- The result of an operation whose results are `H`. -/
def IvR.Tight (r : IvR) (H : Set ℝ) : Prop :=
  Spec.tightest (· ∈ H) r.v.bits ∧ (r.em = true ↔ ¬∃ v, v ∈ H) ∧ (r.em = false → Spec.canonicalBox r.v.bits) ∧
    (r.em = true → r.v = .empty) ∧ r.ni = false

section
variable {a b : ℕ} {H : Set ℝ} {q : ℝ}

theorem boxSeg_ext (h : Spec.isBox a) : (boxSeg a).lo.ext = loExt a ∧ (boxSeg a).hi.ext = hiExt a := by
  obtain ⟨-, e1, e2⟩ := Bounds.of_box h
  exact ⟨congrArg End.ext e1, congrArg End.ext e2⟩

theorem boxSeg_has (h : Spec.isBox a) : (boxSeg a).Has q ↔ Spec.inBox a q := by
  obtain ⟨e1, e2⟩ := boxSeg_ext h
  rw [inBox_iff h, Seg.Has, e1, e2]
  have hl (hlt : ¬loExt a < q) (he : loExt a = q) : (boxSeg a).lc = true := by
    have : (boxSeg a).lo ≠ .ninf := fun h0 => by rw [← e1, h0] at he; cases he
    exact bne_iff_ne.mpr this
  have hh (he : (q : EReal) = hiExt a) : (boxSeg a).hc = true := by
    have : (boxSeg a).hi ≠ .pinf := fun h0 => by rw [← e2, h0] at he; cases he
    exact bne_iff_ne.mpr this
  constructor
  · rintro ⟨h1, h2⟩
    exact ⟨h1.elim le_of_lt fun h => h.2.le, h2.elim le_of_lt fun h => h.2.le⟩
  · rintro ⟨h1, h2⟩
    refine ⟨?_, h2.lt_or_eq.imp_right fun h => ⟨hh h, h⟩⟩
    by_cases h : loExt a < q
    · exact .inl h
    · exact .inr ⟨hl h (h1.antisymm (not_lt.mp h)), h1.antisymm (not_lt.mp h)⟩

theorem boxSeg_nonempty (h : Spec.isBox a) : ∃ q, (boxSeg a).Has q := by
  obtain ⟨hl, hh, h4, h5, hle⟩ := isBox_iff.mp h
  simp only [boxSeg_has h, inBox_iff h]
  rcases hle.lt_or_eq with hlt | he
  · obtain ⟨q, h1, h2⟩ := EReal.lt_iff_exists_real_btwn.mp hlt
    exact ⟨q, h1.le, h2.le⟩
  · have h1 : loExt a ≠ ⊤ := fun h0 => h4 ((endOf_inf hl).1.mp (End.ext_injective h0))
    have h2 : loExt a ≠ ⊥ := fun h0 => h5 ((endOf_inf hh).2.mp (End.ext_injective (he.symm.trans h0)))
    refine ⟨(loExt a).toReal, ?_, ?_⟩
    · rw [EReal.coe_toReal h1 h2]
    · rw [EReal.coe_toReal h1 h2, he]

theorem Encloses.congr {o : Option Seg} {K : Set ℝ} (h : Encloses o H) (e : ∀ v, v ∈ K ↔ v ∈ H) : Encloses o K := Set.ext e ▸ h

theorem Seg.Around.congr {s : Seg} {K : Set ℝ} (h : s.Around H) (e : ∀ v, v ∈ K ↔ v ∈ H) : s.Around K := Set.ext e ▸ h

/-- An enclosure as the result of an operation. -/
theorem Encloses.tight {o : Option Seg} (h : Encloses o H) : (⟨Machine.enc o, false, Machine.enc o == .empty⟩ : IvR).Tight H := by
  obtain ⟨h1, h2, h3⟩ := h.enc
  refine ⟨h1, by rw [← h2]; exact beq_iff_eq, fun he => h3 fun h => ?_, fun he => beq_iff_eq.mp he, rfl⟩
  rw [h] at he
  cases he

theorem ivOp2_box (ha : Spec.isBox a) (hb : Spec.isBox b) (f : Seg → Seg → Option Seg) :
    ivOp2 a b (ivSeg2 f) = ⟨enc (f (boxSeg a) (boxSeg b)), false, enc (f (boxSeg a) (boxSeg b)) == .empty⟩ := by
  simp only [ivOp2, ivRead_box ha, ivRead_box hb]
  rfl

theorem ivOp1_box (ha : Spec.isBox a) (f : ℕ → ℕ → Iv) :
    ivOp1 a f = ⟨f (canonLo (a % 2 ^ 32)) (canonHi (a / 2 ^ 32)), false, f (canonLo (a % 2 ^ 32)) (canonHi (a / 2 ^ 32)) == .empty⟩ := by
  simp only [ivOp1, ivRead_box ha]

end

/-! ### The operations -/

section
variable {s t : Seg}

/-- The results of an operation on two segments. -/
def Seg.Results (s t : Seg) (P : ℝ → ℝ → ℝ → Prop) : Set ℝ := {v | ∃ x y, s.Has x ∧ t.Has y ∧ P x y v}

theorem Seg.results_eq (s t : Seg) (f : ℝ → ℝ → ℝ) : s.Results t (fun x y v => v = f x y) = Set.image2 f {q | s.Has q} {q | t.Has q} := by
  ext v
  exact ⟨fun ⟨x, y, hx, hy, h⟩ => ⟨x, hx, y, hy, h.symm⟩, fun ⟨x, hx, y, hy, h⟩ => ⟨x, y, hx, hy, h.symm⟩⟩

variable (hs : ∃ q, s.Has q) (ht : ∃ q, t.Has q)
include hs ht

/-- What an operation of two numbers gives, by that of the sets. -/
theorem Seg.encloses_of_image2 {u : Seg} {f : ℝ → ℝ → ℝ} (h : u.Around (Set.image2 f {q | s.Has q} {q | t.Has q})) :
    Encloses (some u) (s.Results t fun x y v => v = f x y) := by
  rw [Seg.results_eq]
  exact h.encloses (Set.Nonempty.image2 hs ht)

theorem Seg.encloses_add : Encloses (some (s.add t)) (s.Results t fun x y v => v = x + y) :=
  Seg.encloses_of_image2 hs ht ((Seg.around hs).add (Seg.around ht) hs ht)

omit hs in
theorem Seg.negate_around : t.negate.Around {q | t.Has (-q)} ∧ {q | t.Has (-q)}.Nonempty := by
  obtain ⟨q, hq⟩ := ht
  exact ⟨(Seg.around ⟨q, hq⟩).negate, -q, by simpa using hq⟩

theorem Seg.encloses_sub : Encloses (some (s.sub t)) (s.Results t fun x y v => v = x - y) := by
  obtain ⟨h1, h2⟩ := Seg.negate_around ht
  have := (Seg.around hs).add h1 hs h2
  refine Seg.encloses_of_image2 hs ht (this.congr fun v => ⟨?_, ?_⟩)
  · rintro ⟨x, hx, y, hy, rfl⟩
    exact ⟨x, hx, -y, by simpa using hy, (sub_eq_add_neg x y).symm⟩
  · rintro ⟨x, hx, y, hy, rfl⟩
    exact ⟨x, hx, -y, hy, sub_neg_eq_add x y⟩

theorem Seg.encloses_mul : Encloses (some (s.mul t)) (s.Results t fun x y v => v = x * y) :=
  Seg.encloses_of_image2 hs ht ((Seg.around hs).mul (Seg.around ht) hs ht)

theorem Seg.encloses_max : Encloses (some (s.max t)) (s.Results t fun x y v => v = Max.max x y) :=
  Seg.encloses_of_image2 hs ht ((Seg.around hs).max (Seg.around ht) hs ht)

theorem Seg.encloses_min : Encloses (some (s.min t)) (s.Results t fun x y v => v = Min.min x y) := by
  obtain ⟨h1, h2⟩ := Seg.negate_around hs
  obtain ⟨h3, h4⟩ := Seg.negate_around ht
  have := (h1.max h3 h2 h4).negate
  refine Seg.encloses_of_image2 hs ht (this.congr fun v => ⟨?_, ?_⟩)
  · rintro ⟨x, hx, y, hy, rfl⟩
    exact ⟨-x, by simpa using hx, -y, by simpa using hy, max_neg_neg x y⟩
  · rintro ⟨x, hx, y, hy, h⟩
    exact ⟨-x, hx, -y, hy, by rw [min_neg_neg, h, neg_neg]⟩

theorem Seg.encloses_hull2 : Encloses (some (s.hull2 t)) (s.Results t fun x y v => v = x ∨ v = y) := by
  have := ((Seg.around hs).hull2 (Seg.around ht) hs ht).encloses (hs.elim fun q hq => ⟨q, .inl hq⟩)
  refine this.congr fun v => ?_
  obtain ⟨x, hx⟩ := hs
  obtain ⟨y, hy⟩ := ht
  exact ⟨fun ⟨x, y, hx, hy, h⟩ => h.elim (fun h => .inl (h ▸ hx)) fun h => .inr (h ▸ hy),
    fun h => h.elim (fun h => ⟨v, y, h, hy, .inl rfl⟩) fun h => ⟨x, v, hx, h, .inr rfl⟩⟩

omit hs ht in
theorem Seg.encloses_meet : Encloses (some (s.meet t)) (s.Results t fun x y v => x = y ∧ v = x) := by
  have := (s.meet t).encloses_has
  refine this.congr fun v => ?_
  rw [Set.mem_ofPred_eq, Seg.meet_has]
  exact ⟨fun ⟨x, y, hx, hy, e, h⟩ => h ▸ ⟨hx, e ▸ hy⟩, fun ⟨h1, h2⟩ => ⟨v, v, h1, h2, rfl, rfl⟩⟩

omit hs ht in
theorem Seg.encloses_div : Encloses (hull (quotients s t)) (s.Results t fun x y v => y ≠ 0 ∧ v = x / y) := quotients_encloses s t

theorem Seg.encloses_sqr : Encloses (some s.sqr) (s.Results t fun x _ v => v = x * x) := by
  have := (Seg.sqr_around hs).encloses (hs.elim fun q hq => ⟨_, q, hq, rfl⟩)
  refine this.congr fun v => ?_
  exact ⟨fun ⟨x, _, hx, _, h⟩ => ⟨x, hx, h⟩, fun ⟨x, hx, h⟩ => ht.elim fun y hy => ⟨x, y, hx, hy, h⟩⟩

omit hs ht in
theorem Seg.zero_has {q : ℝ} : (⟨.fin 0, true, .fin 0, true⟩ : Seg).Has q ↔ q = 0 := by
  simp only [Seg.Has, End.ext, Rat.cast_zero, true_and, EReal.coe_lt_coe_iff, EReal.coe_eq_coe_iff]
  constructor
  · rintro ⟨h1 | h1, h2 | h2⟩ <;> linarith
  · rintro rfl
    exact ⟨.inr rfl, .inr rfl⟩

theorem Seg.encloses_relu : Encloses (some s.relu) (s.Results t fun x _ v => v = Max.max x 0) := by
  have hz (q : ℝ) := Seg.zero_has (q := q)
  have := Seg.encloses_max hs ⟨0, (hz 0).mpr rfl⟩
  refine this.congr fun v => ?_
  exact ⟨fun ⟨x, _, hx, _, h⟩ => ⟨x, 0, hx, (hz 0).mpr rfl, h⟩,
    fun ⟨x, z, hx, hz0, h⟩ => ht.elim fun y hy => ⟨x, y, hx, hy, (hz z).mp hz0 ▸ h⟩⟩

end

theorem inBox_bits {a : ℕ} (h : Spec.isBox a) (q : ℝ) : Spec.inBox (ivRead a).1.bits q ↔ Spec.inBox a q := by
  obtain ⟨hb, e1, e2⟩ := Bounds.of_box h
  rw [ivRead_box h, hb.inBox_iff, inBox_iff h, e1, e2]
  rfl

/-- A move (R141). -/
theorem ivMove_tight {a b : ℕ} (ha : Spec.isBox a) (hb : ∃ q, (boxSeg b).Has q) : (ivMove a).Tight ((boxSeg a).Results (boxSeg b) fun x _ v => v = x) := by
  have hmem (v : ℝ) : v ∈ (boxSeg a).Results (boxSeg b) (fun x _ v => v = x) ↔ Spec.inBox a v := by
    rw [← boxSeg_has ha]
    exact ⟨fun ⟨x, _, hx, _, h⟩ => h ▸ hx, fun h => hb.elim fun y hy => ⟨v, y, h, hy, rfl⟩⟩
  obtain ⟨q, hq⟩ := boxSeg_nonempty ha
  have hin (v : ℝ) : Spec.inBox (ivMove a).v.bits v ↔ Spec.inBox a v := inBox_bits ha v
  refine ⟨⟨fun v hv => (hin v).mpr ((hmem v).mp hv), fun j _ h v hv => h v ((hmem v).mpr ((hin v).mp hv))⟩, ?_, fun _ => ?_, fun h => absurd h Bool.false_ne_true, ?_⟩
  · exact iff_of_false Bool.false_ne_true fun h => h ⟨q, (hmem q).mpr ((boxSeg_has ha).mp hq)⟩
  · rw [ivMove, ivRead_box ha]
    exact (Bounds.of_box ha).1.canonicalBox
  · rw [ivMove, ivRead_box ha]

/-- Settles O5: a result is the outward rounding of the ends of the set of results. -/
theorem intervalResultsAreTightest : Obligations.IntervalResultsAreTightest := by
  unfold Obligations.IntervalResultsAreTightest
  intro e he a b ha hb
  have hs := boxSeg_nonempty ha
  have ht := boxSeg_nonempty hb
  have two (f P) (h : Encloses (f (boxSeg a) (boxSeg b)) ((boxSeg a).Results (boxSeg b) P)) :
      (ivOp2 a b (ivSeg2 f)).Tight ((boxSeg a).Results (boxSeg b) P) := by
    rw [ivOp2_box ha hb]
    exact h.tight
  have one (f : Seg → Seg) (P) (h : Encloses (some (f (boxSeg a))) ((boxSeg a).Results (boxSeg b) P)) :
      (ivOp1 a fun lo hi => enc (some (f (segOf lo hi)))).Tight ((boxSeg a).Results (boxSeg b) P) := by
    rw [ivOp1_box ha]
    exact h.tight
  have key : (e.1 a b).Tight ((boxSeg a).Results (boxSeg b) e.2) := by
    simp only [Spec.ivSet, List.mem_cons, List.not_mem_nil, or_false] at he
    obtain rfl | rfl | rfl | rfl | rfl | rfl | rfl | rfl | rfl | rfl | rfl := he
    · exact two _ _ (Seg.encloses_add hs ht)
    · exact two _ _ (Seg.encloses_sub hs ht)
    · exact two _ _ (Seg.encloses_mul hs ht)
    · exact two _ _ Seg.encloses_div
    · exact two _ _ (Seg.encloses_min hs ht)
    · exact two _ _ (Seg.encloses_max hs ht)
    · exact two _ _ (Seg.encloses_hull2 hs ht)
    · exact two _ _ Seg.encloses_meet
    · exact one _ _ (Seg.encloses_sqr hs ht)
    · exact one _ _ (Seg.encloses_relu hs ht)
    · exact ivMove_tight ha ht
  simpa only [IvR.Tight, Seg.Results, Set.mem_ofPred_eq, boxSeg_has ha, boxSeg_has hb] using key

end Sys2Proof.Machine
end

section
/-! The interval and contractor instructions (R64, R73, R138, R141, R143-R150): how they complete, and with what. -/

namespace Sys2Proof.Machine

/-! ### How an interval instruction ends -/

theorem satAdd_zero (c : Word) : satAdd c 0 = c := by simp [satAdd, c.isLt]

/-- An interval instruction that retires with sticky bits, or that makes an EMPTY under TE (R73). -/
theorem ends_retireIv {i : Instr} {s : State} {c : Strand} {body : State → Except Stop State} {w : RegSet} {mS : List SReg} {mIv : List IvReg}
    {ni em np : Bool} {elem operand n : ℕ} {post : State → Prop} (hn : elem * 16 + operand = n) (he : exec i s = run 4 body s)
    (hb : body s = retireIv s (c.advance 4) ni em np elem operand) (hk : s.cur.keeps c w mS mIv) (hc : c.ctl = s.cur.ctl) (hp : c.pc = s.cur.pc)
    (hpost : ∀ t : State, t.cur = (c.advance 4).noteIst ni em np → post t) :
    if em ∧ istTe s.cur.ctl.ist then exec i s = .next (s.raise s.curId ⟨.emptyIv, 0, BitVec.ofNat 64 n⟩ 2)
    else completesIst i s w mS mIv ni em np post := by
  have hctl : (c.advance 4).ctl = s.cur.ctl := hc
  rw [he]
  unfold retireIv at hb
  split
  · next h =>
    rw [if_pos (by rw [hctl]; simpa using h)] at hb
    rw [run_error hb, ← hn]
    rfl
  · next h =>
    rw [if_neg (by rw [hctl]; simpa using h)] at hb
    have hi : c.ident = s.cur.ident := hk.1.2.2.2.2.2.2.2.2.2.2.1
    refine ⟨_, he.trans (run_ok hb), ⟨?_, ?_, ?_, ?_, ?_⟩, hpost _ (by simp)⟩
    · simp [Strand.advance, Strand.goto, hi]
    · simpa using Strand.keeps_trans (Strand.keeps_trans hk (c.keeps_advance 4)) ((c.advance 4).keeps_noteIst ni em np)
    · simp only [State.noteGang_cur, State.cur_setCur, Strand.noteIst, hctl, satAdd_zero, BitVec.ofNat_eq_ofNat, BitVec.or_zero]
    · simp [Strand.advance, Strand.goto, hp]
    · simp [Strand.advance, Strand.goto]

theorem Strand.ivState_writeIv_same (c : Strand) (r : IvReg) (v : Word) : (c.writeIv r v).ivState r = .full := by
  simp [Strand.ivState, Strand.writeIv]

theorem Strand.ivState_writeIv_other (c : Strand) (r n : IvReg) (v : Word) (h : n ≠ r) : (c.writeIv r v).ivState n = c.ivState n := by
  unfold Strand.ivState Strand.writeIv
  rw [Vector.getElem_set_ne]
  exact fun e => h (BitVec.eq_of_toNat_eq e.symm)

/-- A result in an `iv` register, written behind marks. -/
theorem completesIv_of {i : Instr} {s : State} {c : Strand} {d : IvReg} {mS : List SReg} {mIv : List IvReg} {r : IvR} {body : State → Except Stop State}
    (he : exec i s = run 4 body s) (hb : body s = retireIv s ((c.writeIv d (BitVec.ofNat 64 r.v.bits)).advance 4) r.ni r.em false 0 0)
    (hk : s.cur.keeps c {} mS mIv) (hc : c.ctl = s.cur.ctl) (hp : c.pc = s.cur.pc) : completesIv i s d mS mIv r := by
  refine ends_retireIv rfl he hb (by simpa using Strand.keeps_trans hk (c.keeps_writeIv d _)) hc hp fun t ht => ?_
  rw [ht]
  exact ⟨c.ivVal_writeIv_same d (BitVec.ofNat 64 r.v.bits), c.ivState_writeIv_same d (BitVec.ofNat 64 r.v.bits)⟩

/-! ### The instructions of two operands and of one -/

section
variable {s : State}

theorem Strand.keeps_marksIv2 (c : Strand) (a b : IvReg) (la lb : Bool) :
    c.keeps ((c.markIv a la).markIv b lb) {} [] (marked [(a, la), (b, lb)]) := by
  have h := Strand.keeps_trans (c.keeps_markIv a la) ((c.markIv a la).keeps_markIv b lb)
  cases la <;> cases lb <;> exact h

theorem completesIv_iv2 {i : Instr} (o : OpIV2) {f : ℕ → ℕ → IvR} (he : exec i s = iv2 o f s) (ha : s.cur.ivState o.a = .full)
    (hb : s.cur.ivState o.b = .full) (hd : s.cur.ivState o.d ≠ .pending) :
    completesIv i s o.d [] (marked [(o.a, o.la), (o.b, o.lb)]) (f (s.cur.ivVal o.a).toNat (s.cur.ivVal o.b).toNat) := by
  refine completesIv_of he ?_ (s.cur.keeps_marksIv2 ..) (by simp) (by simp)
  simp only [readIv_full _ _ ha, readIv_full _ _ hb, needFree_iv _ _ hd]
  rfl

theorem completesIv_iv1 {i : Instr} (o : OpIV1) {f : ℕ → IvR} (he : exec i s = iv1 o f s) (ha : s.cur.ivState o.a = .full)
    (hd : s.cur.ivState o.d ≠ .pending) : completesIv i s o.d [] (marked [(o.a, o.la)]) (f (s.cur.ivVal o.a).toNat) := by
  refine completesIv_of he ?_ (s.cur.keeps_markIv ..) (by simp) (by simp)
  simp only [readIv_full _ _ ha, needFree_iv _ _ hd]
  rfl

theorem exec_iv2 : ∀ e ∈ Spec.iv2, ∀ o, exec (e.1 o) s = iv2 o e.2 s := by
  simp only [Spec.iv2, List.forall_mem_cons, List.not_mem_nil, false_imp_iff, implies_true, and_true]
  exact ⟨fun _ => rfl, fun _ => rfl, fun _ => rfl, fun _ => rfl, fun _ => rfl, fun _ => rfl, fun _ => rfl, fun _ => rfl⟩

theorem exec_iv1 : ∀ e ∈ Spec.iv1, ∀ o, exec (e.1 o) s = iv1 o e.2 s := by
  simp only [Spec.iv1, List.forall_mem_cons, List.not_mem_nil, false_imp_iff, implies_true, and_true]
  exact ⟨fun _ => rfl, fun _ => rfl, fun _ => rfl, fun _ => rfl, fun _ => rfl, fun _ => rfl⟩

theorem exec_iscale (d a : IvReg) (b : SReg) (la lb : Bool) : exec (.iscale d a b la lb) s = execIscale d a b la lb s := rfl

theorem completesIv_iscale (d a : IvReg) (b : SReg) (la lb : Bool) (ha : s.cur.ivState a = .full) (hb : s.cur.sState b = .full)
    (hd : s.cur.ivState d ≠ .pending) : completesIv (.iscale d a b la lb) s d (marked [(b, lb)]) (marked [(a, la)])
      (ivScale (s.cur.ivVal a).toNat ((s.cur.sVal b).toNat % 2 ^ 32)) := by
  refine completesIv_of (exec_iscale d a b la lb) ?_ (c := (s.cur.markIv a la).markS b lb) ?_ (by simp) (by simp)
  · simp only [readIv_full _ _ ha, readS_full _ _ hb, needFree_iv _ _ hd]
    rfl
  · simpa using Strand.keeps_trans (s.cur.keeps_markIv a la) ((s.cur.markIv a la).keeps_markS b lb)

end

/-! ### Operands of a contractor that share a register (R149) -/

/-- Operands that share a register with one share it with each other. -/
structure Shared.Trans (sh : Shared) : Prop where
  yz : sh.xy = true → sh.xz = true → sh.yz = true
  xz : sh.xy = true → sh.yz = true → sh.xz = true
  xy : sh.xz = true → sh.yz = true → sh.xy = true

/-- Operands in one register have one value. -/
structure Shared.Agree {α : Type} (sh : Shared) (x y z : α) : Prop where
  xy : sh.xy = true → x = y
  xz : sh.xz = true → x = z
  yz : sh.yz = true → y = z

section
variable {sh : Shared} (ht : sh.Trans)
include ht

theorem Boxes.put_agree {b : Boxes} (h : sh.Agree b.x b.y b.z) (n : ℕ) (v : ℕ × ℕ) :
    sh.Agree (b.put sh n v).x (b.put sh n v).y (b.put sh n v).z := by
  obtain ⟨t1, t2, t3⟩ := ht
  obtain ⟨h1, h2, h3⟩ := h
  match n with
  | 0 =>
    refine ⟨fun h => (if_pos h).symm, fun h => (if_pos h).symm, fun h => ?_⟩
    simp only [Boxes.put]
    split_ifs <;> grind
  | 1 =>
    refine ⟨fun h => if_pos h, fun h => ?_, fun h => (if_pos h).symm⟩
    simp only [Boxes.put]
    split_ifs <;> grind
  | n + 2 =>
    refine ⟨fun h => ?_, fun h => if_pos h, fun h => if_pos h⟩
    simp only [Boxes.put]
    split_ifs <;> grind

theorem runSteps_agree {r : Rel} (l : List ℕ) {b t : Boxes} (h : sh.Agree b.x b.y b.z) (hr : runSteps r sh l b = .ok t) : sh.Agree t.x t.y t.z := by
  induction l generalizing b with
  | nil =>
    cases hr
    exact h
  | cons n l ih =>
    rw [runSteps] at hr
    split at hr
    · exact ih (b.put_agree ht h n _) hr
    · cases hr

/-- Operands that share a register are left with one value, where they are written. -/
theorem contract_agree {r : Rel} {noZ : Bool} {nth x y z : ℕ} (hy : r.binary = false → sh.xy = false ∧ sh.yz = false) (h : sh.Agree x y z) :
    (r.binary = true → sh.xy = true → (contract r sh noZ nth x y z).x = (contract r sh noZ nth x y z).y) ∧
    (noZ = false → sh.xz = true → (contract r sh noZ nth x y z).x = (contract r sh noZ nth x y z).z) ∧
    (noZ = false → r.binary = true → sh.yz = true → (contract r sh noZ nth x y z).y = (contract r sh noZ nth x y z).z) := by
  have hb (hxy : sh.xy = true ∨ sh.yz = true) : (if r.binary then ivRead y else (Iv.iv 0 0, false)) = ivRead y := by
    refine if_pos (Bool.of_not_eq_false fun h0 => ?_)
    obtain ⟨e1, e2⟩ := hy h0
    rw [e1, e2] at hxy
    simp at hxy
  unfold contract
  dsimp only
  split
  case h_7 xl xh yl yh zl zh h1 h2 h3 =>
    split
    · simp +contextual
    · next t hr =>
      have ha : sh.Agree (xl, xh) (yl, yh) (zl, zh) := by
        refine ⟨fun e => ?_, fun e => ?_, fun e => ?_⟩
        · have := h1.symm.trans ((congrArg (fun x => (ivRead x).1) (h.xy e)).trans (congrArg Prod.fst (hb (.inl e)).symm) |>.trans h2)
          simpa using this
        · have := h1.symm.trans ((congrArg (fun x => (ivRead x).1) (h.xz e)).trans h3)
          simpa using this
        · have := h2.symm.trans ((congrArg Prod.fst (hb (.inr e))).trans (congrArg (fun x => (ivRead x).1) (h.yz e)) |>.trans h3)
          simpa using this
      have := runSteps_agree ht _ ha hr
      simp +contextual [this.xy, this.xz, this.yz]
  all_goals simp +contextual

end

/-! ### Contractors -/

section
variable {s : State}

theorem Strand.ivVal_writeIv (c : Strand) (r n : IvReg) (v : Word) : (c.writeIv r v).ivVal n = if n = r then v else c.ivVal n := by
  split
  · next h => rw [h, Strand.ivVal_writeIv_same]
  · next h => exact c.ivVal_writeIv_other r n v h

theorem Strand.ivState_writeIv (c : Strand) (r n : IvReg) (v : Word) : (c.writeIv r v).ivState n = if n = r then .full else c.ivState n := by
  split
  · next h => rw [h, Strand.ivState_writeIv_same]
  · next h => exact c.ivState_writeIv_other r n v h

/-- A write of an `iv` register, where it is made. -/
def Strand.putIv (c : Strand) (b : Bool) (r : IvReg) (v : Word) : Strand := if b then c.writeIv r v else c

theorem Strand.keeps_putIv (c : Strand) (b : Bool) (r : IvReg) (v : Word) : c.keeps (c.putIv b r v) { iv := if b then [r] else [] } [] [] := by
  cases b
  · exact c.keeps_refl
  · exact c.keeps_writeIv r v

theorem Strand.putIv_ctl_pc (c : Strand) (b : Bool) (r : IvReg) (v : Word) : (c.putIv b r v).ctl = c.ctl ∧ (c.putIv b r v).pc = c.pc := by
  cases b <;> exact ⟨rfl, rfl⟩

theorem Strand.ivVal_putIv (c : Strand) (b : Bool) (r n : IvReg) (v : Word) :
    (c.putIv b r v).ivVal n = if b = true ∧ n = r then v else c.ivVal n := by
  cases b
  · simp [Strand.putIv]
  · simp [Strand.putIv, Strand.ivVal_writeIv]

theorem Strand.ivState_putIv (c : Strand) (b : Bool) (r n : IvReg) (v : Word) :
    (c.putIv b r v).ivState n = if b = true ∧ n = r then .full else c.ivState n := by
  cases b
  · simp [Strand.putIv]
  · simp [Strand.putIv, Strand.ivState_writeIv]

/-- The strand after the writes of a contractor. -/
def Strand.contracted (c : Strand) (x y z : IvReg) (bin lz : Bool) (vx vy vz : Word) : Strand :=
  (((c.markIv z lz).writeIv x vx).putIv bin y vy).putIv (!lz) z vz

section
variable {c : Strand} {x y z : IvReg} {bin lz : Bool} {vx vy vz : Word}

theorem Strand.keeps_contracted : c.keeps (c.contracted x y z bin lz vx vy vz)
    { iv := [x] ++ (if bin then [y] else []) ++ (if lz then [] else [z]) } [] (marked [(z, lz)]) := by
  have := Strand.keeps_trans (Strand.keeps_trans (Strand.keeps_trans (c.keeps_markIv z lz) ((c.markIv z lz).keeps_writeIv x vx))
    (((c.markIv z lz).writeIv x vx).keeps_putIv bin y vy)) ((((c.markIv z lz).writeIv x vx).putIv bin y vy).keeps_putIv (!lz) z vz)
  cases lz <;> simpa [Strand.contracted] using this

theorem Strand.contracted_ctl_pc : (c.contracted x y z bin lz vx vy vz).ctl = c.ctl ∧ (c.contracted x y z bin lz vx vy vz).pc = c.pc := by
  obtain ⟨h1, h2⟩ := ((c.markIv z lz).writeIv x vx).putIv_ctl_pc bin y vy
  obtain ⟨h3, h4⟩ := (((c.markIv z lz).writeIv x vx).putIv bin y vy).putIv_ctl_pc (!lz) z vz
  exact ⟨h3.trans (h1.trans (Strand.markIv_ctl ..)), h4.trans (h2.trans (Strand.markIv_pc ..))⟩

/-- What the registers hold, of values that agree where registers do. -/
theorem Strand.contracted_regs (hxy : bin = true → x = y → vx = vy) (hxz : lz = false → x = z → vx = vz)
    (hyz : lz = false → bin = true → y = z → vy = vz) :
    let d := c.contracted x y z bin lz vx vy vz
    d.ivVal x = vx ∧ d.ivState x = .full ∧ (bin = true → d.ivVal y = vy ∧ d.ivState y = .full) ∧
      (lz = false → d.ivVal z = vz ∧ d.ivState z = .full) := by
  simp only [Strand.contracted, Strand.ivVal_putIv, Strand.ivState_putIv, Strand.ivVal_writeIv, Strand.ivState_writeIv, Bool.not_eq_true']
  refine ⟨?_, ?_, fun h => ⟨?_, ?_⟩, fun h => ⟨?_, ?_⟩⟩ <;> grind

end

/-- What a contractor instruction runs with its operands there. -/
theorem ctr_eq {r : Rel} {x y z : IvReg} {lz : Bool} (hx : s.cur.ivState x = .full) (hy : r.binary = true → s.cur.ivState y = .full)
    (hz : s.cur.ivState z = .full) :
    let v (n : IvReg) := (s.cur.ivVal n).toNat
    let t := contract r { xy := r.binary && x == y, xz := x == z, yz := r.binary && y == z } lz (istNth s.cur.ctl.ist) (v x)
      (if r.binary then v y else 0) (v z)
    ∃ body, ctr r x y z lz s = run 4 body s ∧ body s = retireIv s ((s.cur.contracted x y z r.binary lz (BitVec.ofNat 64 t.x) (BitVec.ofNat 64 t.y)
      (BitVec.ofNat 64 t.z)).advance 4) t.ni t.em t.np 0 t.which := by
  intro v t
  refine ⟨_, rfl, ?_⟩
  cases hb : r.binary
  · simp only [readIv_full _ _ hx, readIv_full _ _ hz, Strand.contracted, t, hb]
    cases lz <;> rfl
  · simp only [readIv_full _ _ hx, readIv_full _ _ (hy hb), readIv_full _ _ hz, Strand.contracted, t, hb]
    cases lz <;> rfl

/-- A contractor instruction with its operands there. -/
theorem contracts_of {i : Instr} {r : Rel} {x y z : IvReg} {lz : Bool} (he : exec i s = ctr r x y z lz s) (hx : s.cur.ivState x = .full)
    (hy : r.binary = true → s.cur.ivState y = .full) (hz : s.cur.ivState z = .full) : Spec.contracts i s r r.binary x y z lz := by
  unfold Spec.contracts
  intro v t
  obtain ⟨body, hr, hb⟩ := ctr_eq hx hy hz (lz := lz)
  have hag : Shared.Agree { xy := r.binary && x == y, xz := x == z, yz := r.binary && y == z } (v x) (if r.binary then v y else 0) (v z) := by
    refine ⟨fun e => ?_, fun e => ?_, fun e => ?_⟩ <;> simp only [Bool.and_eq_true, beq_iff_eq] at e
    · rw [if_pos e.1, e.2]
    · rw [e]
    · rw [if_pos e.1, e.2]
  obtain ⟨a1, a2, a3⟩ := contract_agree (r := r) (noZ := lz) (nth := istNth s.cur.ctl.ist) ⟨by simp +contextual, by simp +contextual, by simp +contextual⟩
    (fun h => by simp [h]) hag
  obtain ⟨hc, hp⟩ := Strand.contracted_ctl_pc (c := s.cur) (x := x) (y := y) (z := z) (bin := r.binary) (lz := lz) (vx := BitVec.ofNat 64 t.x)
    (vy := BitVec.ofNat 64 t.y) (vz := BitVec.ofNat 64 t.z)
  refine ends_retireIv (by rw [Nat.zero_mul, Nat.zero_add]) (he.trans hr) hb Strand.keeps_contracted hc hp fun u hu => ?_
  rw [hu]
  exact Strand.contracted_regs (fun h e => congrArg _ (a1 h (by simp [h, e]))) (fun h e => congrArg _ (a2 h (by simp [e])))
    fun h h' e => congrArg _ (a3 h h' (by simp [h', e]))

theorem exec_ctr3 : ∀ e ∈ Spec.ctr3, ∀ o, exec (e.1 o) s = ctr e.2 o.x o.y o.z o.lz s ∧ e.2.binary = true := by
  simp only [Spec.ctr3, List.forall_mem_cons, List.not_mem_nil, false_imp_iff, implies_true, and_true]
  exact ⟨fun _ => ⟨rfl, rfl⟩, fun _ => ⟨rfl, rfl⟩, fun _ => ⟨rfl, rfl⟩, fun _ => ⟨rfl, rfl⟩, fun _ => ⟨rfl, rfl⟩⟩

theorem exec_ctr2 : ∀ e ∈ Spec.ctr2, ∀ o, exec (e.1 o) s = ctr e.2 o.x 0 o.z o.lz s ∧ e.2.binary = false := by
  simp only [Spec.ctr2, List.forall_mem_cons, List.not_mem_nil, false_imp_iff, implies_true, and_true]
  exact ⟨fun _ => ⟨rfl, rfl⟩, fun _ => ⟨rfl, rfl⟩, fun _ => ⟨rfl, rfl⟩⟩

end

/-- Settles O44: an interval instruction retires as `ends_retireIv` says, with its result behind the marks; a contractor writes values that agree
where its registers do. -/
theorem intervalAndContractorCompletion : Obligations.IntervalAndContractorCompletion := by
  refine ⟨⟨fun e he o s ha hb hd => ?_, fun e he o s ha hd => ?_, fun d a b la lb s => completesIv_iscale d a b la lb⟩, fun e he o s hx hy hz => ?_,
    fun e he o s hx hz => ?_⟩
  · exact completesIv_iv2 o (exec_iv2 e he o) ha hb hd
  · exact completesIv_iv1 o (exec_iv1 e he o) ha hd
  · obtain ⟨h, hb⟩ := exec_ctr3 e he o (s := s)
    exact hb ▸ contracts_of h hx (fun _ => hy) hz
  · obtain ⟨h, hb⟩ := exec_ctr2 e he o (s := s)
    exact hb ▸ contracts_of h hx (fun h => absurd (hb ▸ h) Bool.false_ne_true) hz

end Sys2Proof.Machine
end

section
/-! Rows of a scratchpad (R53, R111): what a row holds after a write, element by element, and what every other byte holds. -/

namespace Sys2Proof.Machine

/-! ### Rows of elements (R53) -/

theorem elem_zero (w r e : ℕ) (h : e < 2 ^ w) : elem w (r * 2 ^ w + e) 0 = e := by
  rw [elem, Nat.mul_zero, pow_zero, Nat.div_one, mul_comm, Nat.mul_add_mod, Nat.mod_eq_of_lt h]

theorem elem_succ (w r e i : ℕ) (h : e < 2 ^ w) : elem w (r * 2 ^ w + e) (i + 1) = elem w r i := by
  have hp : 0 < 2 ^ w := by positivity
  have e1 : 2 ^ (w * (i + 1)) = 2 ^ w * 2 ^ (w * i) := by rw [Nat.mul_succ, pow_add, mul_comm]
  rw [elem, elem, e1, ← Nat.div_div_eq_div_mul, mul_comm r, Nat.mul_add_div hp, Nat.div_eq_of_lt h, Nat.add_zero]

theorem elem_packRow (w : ℕ) (l : List ℕ) (i : ℕ) (h : i < l.length) : elem w (packRow w l) i = l[i] % 2 ^ w := by
  have hp : 0 < 2 ^ w := by positivity
  induction l generalizing i with
  | nil => simp at h
  | cons e l ih =>
    have hr : packRow w (e :: l) = packRow w l * 2 ^ w + e % 2 ^ w := rfl
    rw [hr]
    cases i with
    | zero => exact elem_zero _ _ _ (Nat.mod_lt _ hp)
    | succ i =>
      rw [elem_succ _ _ _ _ (Nat.mod_lt _ hp)]
      exact ih i (by simpa using h)

theorem packRow_lt (w : ℕ) (l : List ℕ) : packRow w l < 2 ^ (w * l.length) := by
  have hp : 0 < 2 ^ w := by positivity
  induction l with
  | nil => simp [packRow]
  | cons e l ih =>
    have hr : packRow w (e :: l) = packRow w l * 2 ^ w + e % 2 ^ w := rfl
    have hm := Nat.mod_lt e hp
    rw [hr, List.length_cons, Nat.mul_succ, pow_add]
    calc packRow w l * 2 ^ w + e % 2 ^ w < (packRow w l + 1) * 2 ^ w := by rw [Nat.succ_mul]; omega
      _ ≤ 2 ^ (w * l.length) * 2 ^ w := Nat.mul_le_mul_right _ ih

theorem mapRow_elem {w lanes old : ℕ} {en : ℕ → Bool} {f : ℕ → FR} {i : ℕ} (h : i < lanes) :
    elem w (mapRow w lanes old en f).row i = if en i then (f i).bits % 2 ^ w else elem w old i := by
  rw [mapRow, elem_packRow _ _ _ (by simpa using h)]
  simp only [List.getElem_map, List.getElem_range]
  split
  · rfl
  · exact Nat.mod_mod _ _

theorem mapRow_lt (w lanes old : ℕ) (en : ℕ → Bool) (f : ℕ → FR) : (mapRow w lanes old en f).row < 2 ^ (w * lanes) := by
  refine (packRow_lt _ _).trans_eq ?_
  simp

/-- The flags of a row are those of its enabled elements. -/
theorem mapRow_fl (w lanes old : ℕ) (en : ℕ → Bool) (f : ℕ → FR) : (mapRow w lanes old en f).fl = Spec.flags lanes en f := by
  simp only [mapRow, Spec.flags, List.foldl_map, List.foldl_filter]
  congr 1
  funext a i
  split <;> simp

theorem mapRow_sat (w lanes old : ℕ) (en : ℕ → Bool) (f : ℕ → FR) : (mapRow w lanes old en f).sat = Spec.sats lanes en f := by
  simp only [mapRow, Spec.sats, List.map_map]
  induction List.range lanes with
  | nil => rfl
  | cons i l ih =>
    rw [List.map_cons, List.sum_cons, ih, List.filter_cons]
    by_cases h : en i <;> simp [h]

/-! ### Bytes -/

/-- The number that the cells of a span make. -/
theorem Memory.readN_congr {m n : Memory} {a l : ℕ} (h : (m.span a l).Perm (n.span a l)) : m.readN a l = n.readN a l := by
  unfold Memory.readN
  refine h.foldr_eq' (fun x _ y _ z => ?_) 0
  omega

theorem Memory.span_append (m n : Memory) (a l : ℕ) : Memory.span (m ++ n) a l = m.span a l ++ n.span a l := List.filter_append ..

theorem Memory.span_eq_nil {m : Memory} {a l : ℕ} (h : ∀ c ∈ m, c.1 < a ∨ a + l ≤ c.1) : m.span a l = [] := by
  refine List.filter_eq_nil_iff.mpr fun c hc => ?_
  have := h c hc
  simp only [Bool.and_eq_true, decide_eq_true_eq]
  omega

/-- Bytes written elsewhere do not change what is read. -/
theorem Memory.readN_write_other (m : Memory) (b : ℕ) (bs : List Byte) {a l : ℕ} (h : a + l ≤ b ∨ b + bs.length ≤ a) :
    (m.write b bs).readN a l = m.readN a l := by
  refine Memory.readN_congr ?_
  have hc : (Memory.cells b bs).span a l = [] := Memory.span_eq_nil fun c hc => by
    have := Memory.mem_cells b bs c hc
    omega
  have hw : (m.write b bs).span a l = Memory.span (m.filter fun c => decide (c.1 < b)) a l ++
      Memory.span (m.filter fun c => decide (b + bs.length ≤ c.1)) a l := by
    rw [Memory.write, Memory.span_append, Memory.span_append, hc, List.nil_append]
  rw [hw]
  rcases h with h | h
  · have h2 : Memory.span (m.filter fun c => decide (b + bs.length ≤ c.1)) a l = [] := Memory.span_eq_nil fun c hc => by
      have := (List.mem_filter.1 hc).2
      simp only [decide_eq_true_eq] at this
      omega
    rw [h2, List.append_nil, Memory.span, Memory.span, List.filter_filter]
    refine List.Perm.of_eq (List.filter_congr fun c _ => ?_)
    simp only [Bool.and_eq_left_iff_imp, Bool.and_eq_true, decide_eq_true_eq]
    omega
  · have h2 : Memory.span (m.filter fun c => decide (c.1 < b)) a l = [] := Memory.span_eq_nil fun c hc => by
      have := (List.mem_filter.1 hc).2
      simp only [decide_eq_true_eq] at this
      omega
    rw [h2, List.nil_append, Memory.span, Memory.span, List.filter_filter]
    refine List.Perm.of_eq (List.filter_congr fun c _ => ?_)
    simp only [Bool.and_eq_left_iff_imp, Bool.and_eq_true, decide_eq_true_eq]
    omega

/-- The number that the cells of bytes make, from an address `k` below theirs on. -/
theorem Memory.foldr_cells (a k : ℕ) (bs : List Byte) :
    (Memory.cells (a + k) bs).foldr (fun c v => c.2.toNat * 256 ^ (c.1 - a) + v) 0 = 256 ^ k * leNat bs := by
  induction bs generalizing k with
  | nil => rfl
  | cons b t ih =>
    have e : leNat (b :: t) = b.toNat + 256 * leNat t := rfl
    have ht := ih (k + 1)
    rw [← Nat.add_assoc, pow_succ] at ht
    rw [e, Memory.cells]
    split
    · next h => rw [ht, h]; simp; ring
    · rw [List.foldr_cons, ht, Nat.add_sub_cancel_left]
      ring

/-- What the cells of written bytes read as. -/
theorem Memory.readN_cells (a : ℕ) (bs : List Byte) (l : ℕ) (h : bs.length ≤ l) : (Memory.cells a bs).readN a l = leNat bs := by
  have hs : (Memory.cells a bs).span a l = Memory.cells a bs := by
    refine List.filter_eq_self.mpr fun c hc => ?_
    have := Memory.mem_cells a bs c hc
    simp only [Bool.and_eq_true, decide_eq_true_eq]
    omega
  have := Memory.foldr_cells a 0 bs
  rw [Memory.readN, hs]
  simpa using this

theorem Memory.readN_writeN_same (m : Memory) (a n v : ℕ) : (m.writeN a n v).readN a n = v % 256 ^ n := by
  have hlen : (leBytes n v).length = n := leBytes_length n v
  have hs : (m.writeN a n v).span a n = (Memory.cells a (leBytes n v)).span a n := by
    have h1 : Memory.span (m.filter fun c => decide (c.1 < a)) a n = [] := Memory.span_eq_nil fun c hc => by
      have := (List.mem_filter.1 hc).2
      simp only [decide_eq_true_eq] at this
      omega
    have h2 : Memory.span (m.filter fun c => decide (a + (leBytes n v).length ≤ c.1)) a n = [] := Memory.span_eq_nil fun c hc => by
      have := (List.mem_filter.1 hc).2
      simp only [decide_eq_true_eq] at this
      omega
    rw [Memory.writeN, Memory.write, Memory.span_append, Memory.span_append, h1, h2, List.nil_append, List.append_nil]
  rw [Memory.readN_congr (List.Perm.of_eq hs), Memory.readN_cells _ _ _ hlen.le, leNat_leBytes]

/-! ### A row written -/

section
variable (k : Core) (d : ℕ) (r : RowOut)

/-- A row written reads as it was written. -/
theorem Core.row_rowWrite_same (h : r.row < 2 ^ 4096) : (k.rowWrite d r).row d = r.row := by
  rw [Core.row, Core.rowWrite, Memory.readN_writeN_same, show 256 ^ 512 = 2 ^ 4096 by rw [show 256 = 2 ^ 8 by rfl, ← pow_mul], Nat.mod_eq_of_lt h]

theorem Core.row_rowWrite_other {a : ℕ} (h : a + 512 ≤ d ∨ d + 512 ≤ a) : (k.rowWrite d r).row a = k.row a := by
  rw [Core.row, Core.rowWrite, Memory.writeN, Memory.readN_write_other _ _ _ (by rwa [leBytes_length])]
  rfl

theorem Core.get_rowWrite {b : ℕ} (h : b < d ∨ d + 512 ≤ b) : (k.rowWrite d r).sp.get b = k.sp.get b := by
  rw [Core.rowWrite, Memory.writeN, Memory.get_write_out _ _ _ _ (by rwa [leBytes_length])]

/-- A write of a row changes the scratchpad and its poison alone. -/
theorem Core.rowWrite_eq : k.rowWrite d r = { k with sp := (k.rowWrite d r).sp, spPoison := (k.rowWrite d r).spPoison } := rfl

end

/-- Rows that do not overlap. -/
def Apart (rows : List ℕ) : Prop := rows.Pairwise fun a b => a + 512 ≤ b ∨ b + 512 ≤ a

/-- Writes of rows: each reads as it was written, and what is outside them stays. -/
theorem Core.rowWrites (l : List (ℕ × RowOut)) (k : Core) (ha : Apart (l.map (·.1))) (hr : ∀ e ∈ l, e.2.row < 2 ^ 4096) :
    let k' := l.foldl (fun k r => k.rowWrite r.1 r.2) k
    (∀ e ∈ l, k'.row e.1 = e.2.row) ∧ (∀ a, (∀ e ∈ l, a + 512 ≤ e.1 ∨ e.1 + 512 ≤ a) → k'.row a = k.row a) ∧
      (∀ b, (∀ e ∈ l, b < e.1 ∨ e.1 + 512 ≤ b) → k'.sp.get b = k.sp.get b) ∧ k' = { k with sp := k'.sp, spPoison := k'.spPoison } := by
  induction l generalizing k with
  | nil => exact ⟨fun e he => absurd he List.not_mem_nil, fun a _ => rfl, fun b _ => rfl, rfl⟩
  | cons e l ih =>
    obtain ⟨h1, h2⟩ := List.pairwise_cons.mp ha
    obtain ⟨i1, i2, i3, i4⟩ := ih (k.rowWrite e.1 e.2) h2 fun e he => hr e (List.mem_cons_of_mem _ he)
    have hout (x) (hx : x ∈ l) : e.1 + 512 ≤ x.1 ∨ x.1 + 512 ≤ e.1 := h1 x.1 (List.mem_map_of_mem hx)
    refine ⟨fun x hx => ?_, fun a h => ?_, fun b h => ?_, ?_⟩
    · rcases List.mem_cons.mp hx with rfl | hx
      · exact (i2 _ hout).trans (Core.row_rowWrite_same k _ _ (hr _ List.mem_cons_self))
      · exact i1 x hx
    · exact (i2 a fun x hx => h x (List.mem_cons_of_mem _ hx)).trans (Core.row_rowWrite_other k _ _ (h e List.mem_cons_self))
    · exact (i3 b fun x hx => h x (List.mem_cons_of_mem _ hx)).trans (Core.get_rowWrite k _ _ (h e List.mem_cons_self))
    · exact i4

end Sys2Proof.Machine
end

section
/-! Vector instructions on rows that are ready (R111-R117): what they run, and what they leave unchanged. -/

namespace Sys2Proof.Machine

/-! ### Pointers (R12, R114) -/

theorem Strand.pVal_stepP (c : Strand) (p r : PReg) : (c.stepP p true).pVal r = if r = p then ptrNext (c.pVal p) else c.pVal r := by
  unfold Strand.stepP
  rw [if_pos rfl]
  split
  · next h => rw [h, Strand.pVal_writeP_same]
  · next h =>
    unfold Strand.pVal Strand.writeP
    rw [Vector.getElem_set_ne]
    exact fun e => h (BitVec.eq_of_toNat_eq e.symm)

theorem nodup_eraseDups {α : Type} [BEq α] [LawfulBEq α] (l : List α) : l.eraseDups.Nodup := by
  match l with
  | [] => simp
  | a :: l =>
    rw [List.eraseDups_cons, List.nodup_cons]
    exact ⟨by simp, nodup_eraseDups _⟩
termination_by l.length
decreasing_by exact Nat.lt_succ_of_le (List.length_filter_le _ _)

theorem Strand.pVal_foldl_stepP (l : List PReg) (c : Strand) (hn : l.Nodup) (r : PReg) :
    (l.foldl (fun c p => c.stepP p true) c).pVal r = if r ∈ l then ptrNext (c.pVal r) else c.pVal r := by
  induction l generalizing c with
  | nil => rfl
  | cons p l ih =>
    obtain ⟨h1, h2⟩ := List.nodup_cons.mp hn
    rw [List.foldl_cons, ih _ h2, Strand.pVal_stepP]
    by_cases hr : r = p
    · subst hr
      simp [h1]
    · simp [hr]

/-- Each pointer named with its flag advances once. -/
theorem Strand.pVal_stepPs (c : Strand) (l : List (PReg × Bool)) (r : PReg) :
    (c.stepPs l).pVal r = if (r, true) ∈ l then Spec.bumped (c.pVal r) else c.pVal r := by
  have hm : r ∈ ((l.filter (·.2)).map (·.1)).eraseDups ↔ (r, true) ∈ l := by simp
  rw [Strand.stepPs, Strand.pVal_foldl_stepP _ _ (nodup_eraseDups _)]
  simp only [hm]
  rfl

theorem Strand.keeps.anyP {c d : Strand} {w : RegSet} {mS : List SReg} {mI : List IvReg} (h : c.keeps d w mS mI) :
    c.keeps d { w with p := [0, 1, 2, 3, 4, 5, 6, 7] } mS mI := by
  have hp : ∀ r : PReg, r ∈ ([0, 1, 2, 3, 4, 5, 6, 7] : List PReg) := by decide
  obtain ⟨⟨a1, a2, a3, a4, a5, a6, -, a⟩, b⟩ := h
  exact ⟨⟨a1, a2, a3, a4, a5, a6, fun r hr => absurd (hp r) hr, a⟩, b⟩

theorem Strand.keeps_stepPs (c : Strand) (l : List (PReg × Bool)) : c.keeps (c.stepPs l) { p := [0, 1, 2, 3, 4, 5, 6, 7] } [] [] := by
  rw [Strand.stepPs]
  induction ((l.filter (·.2)).map (·.1)).eraseDups generalizing c with
  | nil => exact c.keeps_refl.anyP
  | cons p l ih => simpa using (Strand.keeps_trans (c.keeps_stepP p true) (ih (c.stepP p true))).anyP

theorem Strand.stepPs_ctl_pc (c : Strand) (l : List (PReg × Bool)) : (c.stepPs l).ctl = c.ctl ∧ (c.stepPs l).pc = c.pc ∧ (c.stepPs l).core = c.core := by
  rw [Strand.stepPs]
  induction ((l.filter (·.2)).map (·.1)).eraseDups generalizing c with
  | nil => exact ⟨rfl, rfl, rfl⟩
  | cons p l ih =>
    obtain ⟨h1, h2, h3⟩ := ih (c.stepP p true)
    exact ⟨h1.trans (Strand.stepP_ctl ..), h2.trans (Strand.stepP_pc ..), h3.trans (Strand.stepP_core ..)⟩

/-! ### Rows that are ready -/

theorem rowsCheck_ok {rows : List (ℕ × ℕ)} (h : ∀ r ∈ rows, r.1 ≤ 0x5FFFF ∧ r.1 % 512 = 0) : rowsCheck rows = .ok () := by
  have h1 : rows.find? (fun r => decide (spLast < r.1)) = none := by
    simp only [List.find?_eq_none, decide_eq_true_eq, not_lt]
    exact fun r hr => (h r hr).1
  have h2 : rows.find? (fun r => r.1 % 512 != 0) = none := by
    simp only [List.find?_eq_none, bne_iff_ne, ne_eq, not_not]
    exact fun r hr => (h r hr).2
  unfold rowsCheck
  rw [h1, h2]

/-- What a vector instruction runs in its last turn, when nothing keeps it from its rows. -/
theorem vecPart_eq {n : ℕ} {s : State} {rows : List (ℕ × ℕ)} {reads writes : List ℕ} {extra : ℕ} {go : Core → Except Stop State}
    (ha : s.cur.acq = none) (hr : ∀ r ∈ rows, r.1 ≤ 0x5FFFF ∧ r.1 % 512 = 0) (h1 : needPart (s.core s.cur.core) reads n false = .ok ())
    (h2 : needRows (s.core s.cur.core) writes true = .ok ()) (h3 : needCleanPart (s.core s.cur.core) reads n = .ok ())
    (he : extra = 0 ∨ s.cur.owe ≠ 0) : vecPart n s rows reads writes extra go = go (s.core s.cur.core) := by
  have ha' : needAcq s.cur = .ok () := by rw [needAcq, ha]
  have he' : (decide (extra ≠ 0) && decide (s.cur.owe = 0)) = false := by
    simp only [Bool.and_eq_false_iff, decide_eq_false_iff_not]
    exact he.imp (fun h => by simpa using h) fun h => h
  simp only [vecPart, ha', rowsCheck_ok hr, h1, h2, h3]
  exact if_neg (by simpa using he')

theorem vec_ready {s : State} {rows : List (ℕ × ℕ)} {reads writes : List ℕ} {extra : ℕ} {go : Core → Except Stop State}
    (h : Spec.rowsReady s reads writes extra) (hr : ∀ r ∈ rows, r.1 ∈ reads ++ writes) :
    vec s rows reads writes extra go = go (s.core s.cur.core) := by
  obtain ⟨h1, h2, h3, h4, h5, h6⟩ := h
  exact vecPart_eq h1 (fun r hr' => h2 _ (hr r hr')) h3 h4 h5 h6

/-! ### How a vector instruction retires -/

/-- From `s` to `t` only rows of the strand's core change. -/
def State.ownRows (s t : State) : Prop :=
  t = { s with cores := t.cores } ∧ (∀ c, c ≠ s.cur.core → t.core c = s.core c) ∧
    t.core s.cur.core = { s.core s.cur.core with sp := (t.core s.cur.core).sp, spPoison := (t.core s.cur.core).spPoison }

theorem State.ownRows_refl (s : State) : s.ownRows s := ⟨rfl, fun _ _ => rfl, rfl⟩

theorem State.ownRows_setCore (s : State) (k : Core) (h : k = { s.core s.cur.core with sp := k.sp, spPoison := k.spPoison }) :
    s.ownRows (s.setCore s.cur.core k) := by
  refine ⟨rfl, fun c hc => State.core_setCore_other _ _ _ _ hc, ?_⟩
  simpa using h

/-- A strand with `c` written, its pointers stepped and its flags noted, after rows were written. -/
theorem vecRetires_of {s s1 : State} {c d : Strand} {w : RegSet} {mS : List SReg} {fl : BitVec 6} {sat : ℕ} {ni em np : Bool}
    {ptrs : List (PReg × Bool)} (h1 : s.ownRows s1) (hk : s.cur.keeps c w mS []) (hc : c.ctl = s.cur.ctl) (hpc : c.pc = s.cur.pc)
    (hp : ∀ r, c.pVal r = s.cur.pVal r)
    (hd : d = { (c.stepPs ptrs).advance 4 with ctl := { s.cur.ctl with
      fpf := s.cur.ctl.fpf ||| fl, satc := satAdd s.cur.ctl.satc sat, ist := istSet s.cur.ctl.ist ni em np } }) :
    Spec.vecRetires s ((s1.setCur d).noteGang s.cur.ident.gang fl np) w mS fl sat ni em np ptrs := by
  obtain ⟨hs1, ho, hcore⟩ := h1
  have hcur : ((s1.setCur d).noteGang s.cur.ident.gang fl np).cur = d := by simp
  have hid : s1.curId = s.curId := by rw [hs1]
  have hst : s1.strands = s.strands := by rw [hs1]
  obtain ⟨e1, e2, e3⟩ := c.stepPs_ctl_pc ptrs
  have hkd : (c.stepPs ptrs).keeps d {} [] [] := by
    rw [hd]
    simpa using Strand.keeps_trans ((c.stepPs ptrs).keeps_advance 4) (((c.stepPs ptrs).advance 4).keeps_ctl _)
  unfold Spec.vecRetires
  rw [hcur]
  refine ⟨?_, ?_, ?_, ?_, fun r => ?_, ?_, fun g hg => ?_, fun n hn => ho n hn, hcore⟩
  · simpa using (Strand.keeps_trans (Strand.keeps_trans hk (c.keeps_stepPs ptrs)) hkd).anyP
  · rw [hd, ← hpc, ← e2]; rfl
  · rw [hd]; rfl
  · rw [hd]
  · rw [← hp, ← Strand.pVal_stepPs, hd]; rfl
  · rw [hs1]; rfl
  · have : ((s1.setCur d).noteGang s.cur.ident.gang fl np).strands = s.strands.set s.curId d := by
      rw [← hst, ← hid]; rfl
    rw [this, Tbl.find?_set_other _ _ _ _ hg]

end Sys2Proof.Machine
end

section
/-! Elements as F32 numbers (R67, R127): every number of a narrower format is one, and its pattern is the one of its sign and value. -/

namespace Sys2Proof.Machine

/-! ### Numbers of a format are rounded to themselves -/

section
variable {f : FF} {n : ℕ} {q : ℤ}

/-- A number of the format is no greater than the largest. -/
theorem FF.Fits.le_top (h : f.Fits n q) (hw : f.Within n q) : (n : ℝ) * 2 ^ q / 2 ^ (f.emax - f.fb) ≤ f.maxSig := by
  have hmax := f.maxSig_bounds.1
  rw [div_le_iff₀ (two_zpow_pos _)]
  rcases lt_trichotomy q (f.emax - f.fb) with hq | hq | hq
  · calc (n : ℝ) * 2 ^ q ≤ ((2 ^ (f.fb + 1) : ℕ) : ℝ) * 2 ^ q := mul_le_mul_of_nonneg_right (by exact_mod_cast h.lt.le) (two_zpow_pos q).le
      _ = 2 ^ (q + 1 + f.fb) := by rw [natCast_two_pow_mul_zpow]; congr 1; push_cast; ring
      _ ≤ 2 ^ (f.emax - f.fb + f.fb) := zpow_le_of_le (by omega)
      _ = ((2 ^ f.fb : ℕ) : ℝ) * 2 ^ (f.emax - f.fb) := (natCast_two_pow_mul_zpow _ _).symm
      _ ≤ f.maxSig * 2 ^ (f.emax - f.fb) := mul_le_mul_of_nonneg_right (by exact_mod_cast hmax) (two_zpow_pos _).le
  · have : n ≤ f.maxSig := not_lt.mp fun h => hw (.inr ⟨hq.symm, h⟩)
    rw [hq]
    exact mul_le_mul_of_nonneg_right (by exact_mod_cast this) (two_zpow_pos _).le
  · exact absurd (.inl hq) hw

/-- A number of the format is rounded to itself. -/
theorem FF.round_exact {neg : Bool} {m : ℕ} {e : ℤ} (h : f.Fits n q) (hw : f.Within n q) (hv : (n : ℝ) * 2 ^ q = m * 2 ^ e) (hm : 0 < m) :
    ∃ (k : ℕ) (y : ℚ), (f.round .rne false neg m e).bits = f.signBit neg + k ∧ k < 2 ^ (f.eb + f.fb) ∧
      Spec.value f (f.signBit neg + k) = some y ∧ (y : ℝ) = signedReal neg (m * 2 ^ e) := by
  have ha : (0 : ℝ) < m * 2 ^ e := mul_pos (by exact_mod_cast hm) (two_zpow_pos e)
  have ho : ¬Spec.overflows f .rne (signedReal neg (m * 2 ^ e)) := by
    rw [overflows_iff f .rne ha, not_not, ← hv]
    exact RM.upTo_of_le _ _ (h.le_top hw)
  obtain ⟨b, k, y, hs, -, hk, hy, hnamed, -, hq⟩ := (f.round_rounds .rne false neg m e).2 ho
  obtain ⟨hbits, -⟩ := hq (by simp)
  have hb : b = f.signBit neg := by
    have := f.signBit_sign ha (neg := neg)
    rcases (signedReal_ne_zero ha (neg := neg)).lt_or_gt with h0 | h0
    · rw [(hs h0.ne).1 h0, this.1 h0]
    · rw [(hs h0.ne').2 h0, this.2 h0]
  obtain ⟨hn, -⟩ := hnamed _ _ (h.value_magOf hw neg)
  obtain ⟨hle, -⟩ := hn rfl
  have hz : ((((if neg then (-1 : ℚ) else 1) * n * 2 ^ q : ℚ)) : ℝ) = signedReal neg (m * 2 ^ e) := by
    rw [← hv, signedReal_eq_mul]
    cases neg <;> simp
  rw [hz, sub_self, abs_zero, abs_nonpos_iff, sub_eq_zero] at hle
  exact ⟨k, y, hb ▸ hbits, hk, hb ▸ hy, hle⟩

end

/-- A number of at most 24 bits within F32's exponents is an F32 number. -/
theorem f32_fits {n : ℕ} {q : ℤ} (h0 : 0 < n) (hn : n < 2 ^ 24) (hq : -149 ≤ q) (ht : q + n.log2 ≤ 127) :
    ∃ (k : ℕ) (p : ℤ), FF.f32.Fits k p ∧ FF.f32.Within k p ∧ (k : ℝ) * 2 ^ p = n * 2 ^ q := by
  have hl : n.log2 < 24 := (Nat.log2_lt h0.ne').mpr hn
  obtain ⟨s, hs⟩ : ∃ s : ℕ, s = min (23 - n.log2) (q + 149).toNat := ⟨_, rfl⟩
  have hlt : n * 2 ^ s < 2 ^ 24 := by
    calc n * 2 ^ s < 2 ^ (n.log2 + 1) * 2 ^ s := Nat.mul_lt_mul_of_pos_right Nat.lt_log2_self (by positivity)
      _ = 2 ^ (n.log2 + 1 + s) := (pow_add ..).symm
      _ ≤ 2 ^ 24 := Nat.pow_le_pow_right two_pos (by omega)
  refine ⟨n * 2 ^ s, q - s, ⟨hlt, ?_, ?_⟩, ?_, ?_⟩
  · simp only [FF.emin, FF.bias, FF.fb]; omega
  · simp only [FF.emin, FF.bias, FF.fb]
    rcases le_or_gt (23 - n.log2) (q + 149).toNat with h | h
    · right
      have : n.log2 + s = 23 := by omega
      calc 2 ^ 23 = 2 ^ n.log2 * 2 ^ s := by rw [← pow_add, this]
        _ ≤ n * 2 ^ s := Nat.mul_le_mul_right _ (Nat.log2_self_le h0.ne')
    · left
      omega
  · simp only [FF.Within, FF.emax, FF.hasInf, FF.eb, FF.bias, FF.fb, FF.maxSig]
    have : q - s ≤ 104 := by omega
    norm_num [show FF.f32 ≠ FF.e4m3 by decide] at hlt ⊢
    omega
  · rw [zpow_sub₀ two_ne_zero, zpow_natCast]
    push_cast
    field_simp

/-! ### Elements in F32 -/

/-- The elements' formats are narrower than F32. -/
structure FF.Narrow (g : FF) : Prop where
  fb : g.fb ≤ 23
  low : -149 ≤ g.emin - g.fb
  high : g.emax ≤ 127

theorem fmtFF_narrow {f : Fmt} {g : FF} (h : fmtFF f = some g) : g.Narrow := by
  cases f <;> cases h <;> exact ⟨by decide, by decide, by decide⟩

section
variable {g : FF}

theorem FF.Narrow.fits (hg : g.Narrow) {n : ℕ} {q : ℤ} (h : g.Fits n q) (hw : g.Within n q) (h0 : 0 < n) :
    ∃ (k : ℕ) (p : ℤ), FF.f32.Fits k p ∧ FF.f32.Within k p ∧ (k : ℝ) * 2 ^ p = n * 2 ^ q := by
  have h1 := hg.fb
  have h2 := hg.low
  have h3 := hg.high
  have h4 := h.low
  have hl : n.log2 < g.fb + 1 := (Nat.log2_lt h0.ne').mpr h.lt
  have hq : q ≤ g.emax - g.fb := not_lt.mp fun hq => hw (.inl hq)
  exact f32_fits h0 (h.lt.trans_le (Nat.pow_le_pow_right two_pos (by omega))) (by omega) (by omega)

/-- The F32 pattern of a number. -/
structure IsF32 (neg : Bool) (x : ℝ) (b : ℕ) : Prop where
  lt : b < 2 ^ 32
  sign : b / 2 ^ 31 = if neg then 1 else 0
  value : ∃ y : ℚ, Spec.value .f32 b = some y ∧ (y : ℝ) = x

/-- A number of a narrower format is an F32 number. -/
theorem FF.Narrow.f32Of (hg : g.Narrow) {c : ℕ} {v : ℚ} (hc : Spec.value g c = some v) {neg : Bool} {m : ℕ} {e : ℤ}
    (hv : (v : ℝ) = signedReal neg (m * 2 ^ e)) : IsF32 neg v (Machine.f32Of (.fin neg m e)) := by
  have hs : FF.f32.signBit neg = if neg then 2 ^ 31 else 0 := rfl
  rcases m.eq_zero_or_pos with rfl | hm
  · have hb : Machine.f32Of (.fin neg 0 e) = FF.f32.signBit neg := by simp only [Machine.f32Of, FF.ofVal, FF.round_zero]
    have h0 : (v : ℝ) = 0 := by simpa [signedReal] using hv
    rw [hb, hs, h0]
    cases neg
    · exact ⟨by decide, by decide, 0, by simp [Spec.value, FF.fb, FF.eb, FF.hasInf], by simp⟩
    · exact ⟨by decide, by decide, 0, by norm_num [Spec.value, FF.fb, FF.eb, FF.hasInf], by simp⟩
  · obtain ⟨n, q, h, hw, hn⟩ := FF.value_fits hc
    have habs : (n : ℝ) * 2 ^ q = m * 2 ^ e := by
      have ha : (0 : ℝ) ≤ m * 2 ^ e := by positivity
      have hb : (0 : ℝ) ≤ n * 2 ^ q := by positivity
      have h1 : |(v : ℝ)| = m * 2 ^ e := by rw [hv]; cases neg <;> simp [signedReal, abs_of_nonneg ha]
      have h2 : |(v : ℝ)| = n * 2 ^ q := by
        rw [hn]
        push_cast
        split <;> simp [abs_of_nonneg hb]
      rw [← h2, h1]
    have h0 : 0 < n := Nat.pos_of_ne_zero fun h0 => by
      have : (0 : ℝ) < m * 2 ^ e := mul_pos (by exact_mod_cast hm) (two_zpow_pos e)
      rw [← habs, h0] at this
      simp at this
    obtain ⟨k, p, hk, hkw, hkv⟩ := hg.fits h hw h0
    obtain ⟨t, y, hbits, ht, hy, hyv⟩ := FF.round_exact (neg := neg) hk hkw (hkv.trans habs) hm
    have hb : Machine.f32Of (.fin neg m e) = FF.f32.signBit neg + t := hbits
    have ht : t < 2 ^ 31 := ht
    rw [hb]
    refine ⟨?_, ?_, y, hy, hyv.trans hv.symm⟩
    · rw [hs]; split <;> omega
    · rw [hs]; split <;> omega

theorem FF.value_zero (g : FF) : Spec.value g 0 = some 0 := by cases g <;> simp [Spec.value, FF.eb, FF.hasInf]

/-- NaNs and infinities of a format, by the pattern (R56, R58). -/
theorem FF.val_of_none {x : ℕ} (h : Spec.value g x = none) :
    (Spec.nanOf g x = true → g.val x = .nan (Spec.snanOf g x)) ∧
      (Spec.nanOf g x = false → g.val x = .inf (x / 2 ^ (g.eb + g.fb) % 2 == 1) ∧ g.hasInf = true) := by
  have ht : x % 2 ^ g.fb / 2 ^ (g.fb - 1) = x / 2 ^ (g.fb - 1) % 2 := by
    have := g.fb_pos
    rw [← Nat.mod_mul_right_div_self, ← pow_succ, show g.fb - 1 + 1 = g.fb by omega]
  have hc : g.hasInf = true ∧ x / 2 ^ g.fb % 2 ^ g.eb = 2 ^ g.eb - 1 ∨ g = .e4m3 ∧ x / 2 ^ g.fb % 2 ^ g.eb = 15 ∧ x % 2 ^ g.fb = 7 := by
    by_contra hn
    unfold Spec.value at h
    simp only [if_neg hn] at h
    split at h <;> cases h
  unfold Spec.nanOf Spec.snanOf Spec.nanOf FF.val
  simp only [h, ht]
  rcases hc with ⟨h1, h2⟩ | ⟨rfl, h2, h3⟩
  · by_cases h3 : x % 2 ^ g.fb = 0
    · simp [h1, h2, h3]
    · simp [h1, h2, h3]
      cases g.ieee <;> simp [beq_eq_decide]
  · simp [h2, h3, FF.hasInf, FF.ieee]

/-- A pattern that is no NaN is read as none. -/
theorem FF.val_of_not_nan {x : ℕ} (h : Spec.nanOf g x = false) (fzi : Bool) : (g.valZ fzi x).isNan = false := by
  rcases g.valZ_cases fzi x with ⟨h0, -⟩ | ⟨m, e, hv, -⟩
  · have hn : Spec.value g x = none := by
      unfold Spec.operand at h0
      split at h0
      · cases h0
      · exact h0
    rw [FF.valZ, ((FF.val_of_none hn).2 h).1]
    rfl
  · rw [hv]
    rfl

/-- How a NaN is read. -/
theorem FF.valZ_of_nan {x : ℕ} (h : Spec.nanOf g x = true) (fzi : Bool) : g.valZ fzi x = .nan (Spec.snanOf g x) := by
  have hn : Spec.value g x = none := by
    unfold Spec.nanOf at h
    cases hv : Spec.value g x with
    | none => rfl
    | some a => rw [hv] at h; simp at h
  rw [FF.valZ, (FF.val_of_none hn).1 h]

/-- What an element that is no NaN is in F32. -/
theorem FF.Narrow.widened (hg : g.Narrow) {fzi : Bool} {x : ℕ} (hx : Spec.nanOf g x = false) :
    Spec.widened g fzi x (Machine.f32Of (g.valZ fzi x)) := by
  have hsign : (if x / 2 ^ (g.eb + g.fb) % 2 == 1 then 1 else 0) = x / 2 ^ (g.width - 1) % 2 := by
    rw [FF.signed_lt]
    rcases Nat.mod_two_eq_zero_or_one (x / 2 ^ (g.eb + g.fb)) with h | h <;> simp [h]
  cases ho : Spec.operand g fzi x with
  | some a =>
    obtain ⟨m, e, hv, ha⟩ := FF.valZ_of_operand ho
    have hc : ∃ c, Spec.value g c = some a := by
      unfold Spec.operand at ho
      split at ho
      · exact ⟨0, ho ▸ g.value_zero⟩
      · exact ⟨x, ho⟩
    obtain ⟨c, hc⟩ := hc
    obtain ⟨h1, h2, y, hy, hya⟩ := hg.f32Of hc (by rw [ha, cast_rat])
    rw [hv]
    refine ⟨h1, h2.trans hsign, ?_, fun h => ?_⟩
    · rw [hy, ho, show y = a by exact_mod_cast hya]
    · rw [hy] at h
      cases h
  | none =>
    have hn : Spec.value g x = none := by
      unfold Spec.operand at ho
      split at ho
      · cases ho
      · exact ho
    obtain ⟨hv, -⟩ := (FF.val_of_none hn).2 hx
    have hb : Machine.f32Of (g.valZ fzi x) = if x / 2 ^ (g.eb + g.fb) % 2 == 1 then 0xFF800000 else 0x7F800000 := by
      rw [FF.valZ, hv, ← infBits_f32]
      rfl
    rw [hb, Spec.widened, ho, ← hsign]
    split
    · norm_num [Spec.value, FF.fb, FF.eb, FF.hasInf]
    · norm_num [Spec.value, FF.fb, FF.eb, FF.hasInf]

/-! ### Patterns by sign and value -/

/-- A pattern of F32 that is no NaN is the one of its sign and its number or infinity. -/
theorem f32_pattern_ext {a b : ℕ} (ha : a < 2 ^ 32) (hb : b < 2 ^ 32) (hs : a / 2 ^ 31 = b / 2 ^ 31) (hv : Spec.value .f32 a = Spec.value .f32 b)
    (hia : Spec.value .f32 a = none → a % 2 ^ 31 = 0x7F800000) (hib : Spec.value .f32 b = none → b % 2 ^ 31 = 0x7F800000) : a = b := by
  suffices h : a % 2 ^ 31 = b % 2 ^ 31 by omega
  cases h : Spec.value .f32 a with
  | none => rw [hia h, hib (hv ▸ h)]
  | some q =>
    have ma := mag_lt_of_value h
    have mb := mag_lt_of_value (hv ▸ h)
    have e : endOf a = endOf b := by rw [endOf_of_value h, endOf_of_value (hv ▸ h)]
    have hp := (IsNum.ext_le_iff ⟨ha, ma.le⟩ ⟨hb, mb.le⟩).mp (by rw [e])
    have hp' := (IsNum.ext_le_iff ⟨hb, mb.le⟩ ⟨ha, ma.le⟩).mp (by rw [e])
    have hpe := le_antisymm hp hp'
    rw [place_eq, place_eq] at hpe
    have hs' : a / 2 ^ 31 % 2 = b / 2 ^ 31 % 2 := by rw [hs]
    rw [hs'] at hpe
    split at hpe <;> omega

theorem widened_unique {fzi : Bool} {x a b : ℕ} (ha : Spec.widened g fzi x a) (hb : Spec.widened g fzi x b) : a = b := by
  obtain ⟨a1, a2, a3, a4⟩ := ha
  obtain ⟨b1, b2, b3, b4⟩ := hb
  exact f32_pattern_ext a1 b1 (a2.trans b2.symm) (a3.trans b3.symm) a4 b4

theorem valZ_false (b : ℕ) : FF.f32.valZ false b = FF.f32.val b := by
  rw [FF.valZ]
  cases FF.f32.val b <;> rfl

theorem f32_narrow : FF.f32.Narrow := ⟨by decide, by decide, by decide⟩

/-- A pattern of F32 that is no NaN is its own in F32. -/
theorem widened_self {b : ℕ} (hb : b < 2 ^ 32) (h : (FF.f32.val b).isNan = false) : Spec.widened .f32 false b b := by
  refine ⟨hb, ?_, by simp [Spec.operand], fun h0 => ?_⟩
  · rw [FF.signed_lt]
    show b / 2 ^ 31 = b / 2 ^ 31 % 2
    omega
  · rcases f32_val_cases b with ⟨-, s, hv⟩ | ⟨hm, -⟩ | ⟨-, m, e, hv⟩
    · rw [hv] at h
      cases h
    · exact hm
    · rcases FF.f32.val_cases b with ⟨-, h1, -⟩ | ⟨m, e, -, h1, -⟩
      · rw [hv] at h1
        cases h1
      · rw [h1] at h0
        cases h0

/-- The pattern of an F32 value that is no NaN. -/
theorem f32Of_val {b : ℕ} (h : (FF.f32.val b).isNan = false) : Machine.f32Of (FF.f32.val b) = b % 2 ^ 32 := by
  have hm : FF.f32.val (b % 2 ^ 32) = FF.f32.val b := FF.f32.val_mod b
  rw [← hm] at h ⊢
  have hn : Spec.nanOf .f32 (b % 2 ^ 32) = false := by
    by_contra hn
    have := FF.valZ_of_nan (Bool.of_not_eq_false hn) false
    rw [valZ_false] at this
    rw [this] at h
    cases h
  have := f32_narrow.widened (fzi := false) hn
  rw [valZ_false] at this
  exact widened_unique this (widened_self (Nat.mod_lt _ (by positivity)) h)

end

end Sys2Proof.Machine
end

section
/-! Reductions of numbers (R67, R127, R128): the least and the greatest of a list, sums, bits, and the tree of R67. -/

namespace Sys2Proof.Machine

/-! ### The least and the greatest -/

/-- A fold that keeps the better of two, by a key. -/
theorem foldl_best {α : Type} (key : α → ℤ) (f : α → α → α) (P : α → Prop) (hP : ∀ a b, P a → P b → (f a b = a ∨ f a b = b) ∧ key a ≤ key (f a b) ∧ key b ≤ key (f a b))
    (l : List α) (x : α) (hx : P x) (hl : ∀ y ∈ l, P y) : l.foldl f x ∈ x :: l ∧ ∀ y ∈ x :: l, key y ≤ key (l.foldl f x) := by
  induction l generalizing x with
  | nil => simp
  | cons y l ih =>
    obtain ⟨h1, h2, h3⟩ := hP x y hx (hl y List.mem_cons_self)
    have hf : P (f x y) := by
      rcases h1 with h | h <;> rw [h]
      · exact hx
      · exact hl y List.mem_cons_self
    obtain ⟨i1, i2⟩ := ih (f x y) hf fun z hz => hl z (List.mem_cons_of_mem _ hz)
    rw [List.foldl_cons]
    refine ⟨?_, fun z hz => ?_⟩
    · rcases List.mem_cons.mp i1 with h | h
      · rw [h]
        rcases h1 with h | h <;> simp [h]
      · simp [h]
    · have hk := i2 _ List.mem_cons_self
      rcases List.mem_cons.mp hz with rfl | hz
      · exact h2.trans hk
      · rcases List.mem_cons.mp hz with rfl | hz
        · exact h3.trans hk
        · exact i2 z (List.mem_cons_of_mem _ hz)

/-- The same of a list that is all no better than the first value, which is then its best or stands for it. -/
theorem foldl_better {β : Type} (key : β → ℤ) (f : β → β → β)
    (hf : ∀ a b, (f a b = a ∨ f a b = b) ∧ key a ≤ key (f a b) ∧ key b ≤ key (f a b)) (hk : Function.Injective key) (l : List β) (x : β)
    (hx : ∀ y ∈ l, key x ≤ key y) (hl : l ≠ []) : l.foldl f x ∈ l ∧ ∀ y ∈ l, key y ≤ key (l.foldl f x) := by
  obtain ⟨h1, h2⟩ := foldl_best key f (fun _ => True) (fun a b _ _ => hf a b) l x trivial fun _ _ => trivial
  refine ⟨?_, fun y hy => h2 y (List.mem_cons_of_mem _ hy)⟩
  rcases List.mem_cons.mp h1 with h | h
  · obtain ⟨y, hy⟩ := List.exists_mem_of_ne_nil l hl
    have e : key y = key (l.foldl f x) := le_antisymm (h2 y (List.mem_cons_of_mem _ hy)) (by rw [h]; exact hx y hy)
    rw [← hk e]
    exact hy
  · exact h

section
variable {a b : ℕ}

theorem placeZ_eq (b : ℕ) : Spec.placeZ .f32 false b = if b / 2 ^ 31 % 2 = 1 then -((b % 2 ^ 31 : ℕ) : ℤ) - 1 else (b % 2 ^ 31 : ℕ) := by
  by_cases h : b / 2 ^ 31 % 2 = 1
  · rw [if_pos h, Spec.placeZ, if_pos (show Spec.neg _ b = true from decide_eq_true h)]; rfl
  · rw [if_neg h, Spec.placeZ, if_neg (show ¬Spec.neg _ b = true by rw [Spec.neg, decide_eq_true_eq]; exact h)]; rfl

theorem mag_eq_zero_iff {n : Bool} {m : ℕ} {e : ℤ} (h : FF.f32.val b = .fin n m e) : m = 0 ↔ b % 2 ^ 31 = 0 := by
  obtain ⟨hv, -⟩ := FF.magVal_of_val h
  have hm : (m : ℝ) * 2 ^ e = 0 ↔ m = 0 := by
    rw [mul_eq_zero, or_iff_left (two_zpow_pos e).ne', Nat.cast_eq_zero]
  rw [← hm, hv, ← FF.f32.magVal_zero, FF.f32.magVal_strictMono.injective.eq_iff]
  rfl

/-- Away from two zeros, the order of values that `VRED` compares by is that of the numbers. -/
theorem fLess_eq_fCmpLt (h : ¬(a % 2 ^ 31 = 0 ∧ b % 2 ^ 31 = 0)) : fLess (FF.f32.val a) (FF.f32.val b) = fCmpLt (FF.f32.val a) (FF.f32.val b) := by
  cases ha : FF.f32.val a with
  | nan s => rfl
  | inf n => rfl
  | fin n m e =>
    cases hb : FF.f32.val b with
    | nan s => rfl
    | inf n => rfl
    | fin n' m' e' =>
      have h0 : ¬(decide (m = 0) && decide (m' = 0)) = true := by
        rw [Bool.and_eq_true, decide_eq_true_eq, decide_eq_true_eq, mag_eq_zero_iff ha, mag_eq_zero_iff hb]
        exact h
      rw [fLess, if_neg h0, fCmpLt]

/-- The order that `VRED` compares by is that of places, with −0 below +0. -/
theorem fLess_iff (ha : IsNum a) (hb : IsNum b) : fLess (FF.f32.val a) (FF.f32.val b) = true ↔ Spec.placeZ .f32 false a < Spec.placeZ .f32 false b := by
  by_cases h0 : a % 2 ^ 31 = 0 ∧ b % 2 ^ 31 = 0
  · obtain ⟨h1, h2⟩ := h0
    have fin {c : ℕ} (h : c % 2 ^ 31 = 0) : ∃ e, FF.f32.val c = .fin (c / 2 ^ 31 % 2 == 1) 0 e := by
      rcases f32_val_cases c with ⟨hm, -⟩ | ⟨hm, -⟩ | ⟨-, m, e, hv⟩
      · omega
      · omega
      · exact ⟨e, by rw [hv, (mag_eq_zero_iff hv).mpr h]⟩
    obtain ⟨e, hv⟩ := fin h1
    obtain ⟨e', hw⟩ := fin h2
    rw [hv, hw, fLess, if_pos (by decide), placeZ_eq, placeZ_eq, h1, h2]
    rcases Nat.mod_two_eq_zero_or_one (a / 2 ^ 31) with h | h <;> rcases Nat.mod_two_eq_zero_or_one (b / 2 ^ 31) with h' | h' <;> rw [h, h'] <;> decide
  · rw [fLess_eq_fCmpLt h0, fCmpLt_iff ha hb, ← not_le, hb.ext_le_iff ha, not_le, place_eq, place_eq, placeZ_eq, placeZ_eq]
    split <;> split <;> omega

theorem keep_eq (ha : a < 2 ^ 32) : FF.f32.keep false a = a := by
  have hw : a % 2 ^ FF.f32.width = a := Nat.mod_eq_of_lt ha
  rw [FF.keep, valZ_false]
  cases hv : FF.f32.val a with
  | nan s => exact hw
  | inf n => exact hw
  | fin n m e =>
    dsimp only
    split
    · next h0 =>
      have hm := (mag_eq_zero_iff hv).mp h0
      obtain ⟨-, hn⟩ := FF.magVal_of_val hv
      have hn : n = (a / 2 ^ 31 % 2 == 1) := hn
      rw [FF.zero_eq, FF.signBit, hn]
      show (if (a / 2 ^ 31 % 2 == 1) = true then 2 ^ 31 else 0) = a
      split
      · next h => rw [beq_iff_eq] at h; omega
      · next h => rw [beq_iff_eq] at h; omega
    · exact hw

/-- The better of two numbers (R89). -/
theorem minMax_best (up : Bool) (ha : IsNum a) (hb : IsNum b) : let c := (FF.f32.minMax false up a b).bits
    let key (x : ℕ) : ℤ := if up then Spec.placeZ .f32 false x else -Spec.placeZ .f32 false x
    (c = a ∨ c = b) ∧ key a ≤ key c ∧ key b ≤ key c := by
  have h1 := val_isNan ha
  have h2 := val_isNan hb
  have h3 := fLess_iff ha hb
  have h4 := fLess_iff hb ha
  simp only [FF.minMax, valZ_false, h1, h2, keep_eq ha.1, keep_eq hb.1, Bool.false_and, Bool.false_eq_true, if_false]
  cases up
  · simp only [Bool.false_eq_true, if_false]
    split
    · next h => exact ⟨.inr rfl, by have := h4.mp h; omega, le_rfl⟩
    · next h => exact ⟨.inl rfl, le_rfl, by have := mt h4.mpr h; omega⟩
  · simp only [if_true]
    split
    · next h => exact ⟨.inr rfl, by have := h3.mp h; omega, le_rfl⟩
    · next h => exact ⟨.inl rfl, le_rfl, by have := mt h3.mpr h; omega⟩

end

/-- The fold of R127 over the numbers of a list: one of them, and no worse than any. -/
theorem minMax_fold (up : Bool) {x : ℕ} {l : List ℕ} (h : ∀ y ∈ x :: l, IsNum y) :
    let c := l.foldl (fun a b => (FF.f32.minMax false up a b).bits) x
    c ∈ x :: l ∧ ∀ y ∈ x :: l, if up then Spec.placeZ .f32 false y ≤ Spec.placeZ .f32 false c else Spec.placeZ .f32 false c ≤ Spec.placeZ .f32 false y := by
  intro c
  obtain ⟨h1, h2⟩ := foldl_best (fun x => if up then Spec.placeZ .f32 false x else -Spec.placeZ .f32 false x)
    (fun a b => (FF.f32.minMax false up a b).bits) IsNum (fun a b ha hb => minMax_best up ha hb) l x (h x List.mem_cons_self)
    fun y hy => h y (List.mem_cons_of_mem _ hy)
  refine ⟨h1, fun y hy => ?_⟩
  have := h2 y hy
  cases up
  · simpa using this
  · simpa using this

/-! ### Bits and integers -/

theorem testBit_foldl_and (l : List ℕ) (z i : ℕ) : (l.foldl (· &&& ·) z).testBit i = l.foldl (fun b x => b && x.testBit i) (z.testBit i) := by
  induction l generalizing z with
  | nil => rfl
  | cons x l ih => rw [List.foldl_cons, ih, Nat.testBit_and]; rfl

theorem testBit_foldl_or (l : List ℕ) (z i : ℕ) : (l.foldl (· ||| ·) z).testBit i = l.foldl (fun b x => b || x.testBit i) (z.testBit i) := by
  induction l generalizing z with
  | nil => rfl
  | cons x l ih => rw [List.foldl_cons, ih, Nat.testBit_or]; rfl

theorem testBit_foldl_xor (l : List ℕ) (z i : ℕ) : (l.foldl (· ^^^ ·) z).testBit i = l.foldl (fun b x => xor b (x.testBit i)) (z.testBit i) := by
  induction l generalizing z with
  | nil => rfl
  | cons x l ih => rw [List.foldl_cons, ih, Nat.testBit_xor]; rfl

theorem fmtBits_le (f : Fmt) : 2 ≤ fmtBits f ∧ fmtBits f ≤ 64 := by cases f <;> decide

theorem elem_lt (w r i : ℕ) : elem w r i < 2 ^ w := Nat.mod_lt _ (by positivity)

theorem elemInt_eq {f : Fmt} {x : ℕ} (hx : x < 2 ^ fmtBits f) : elemInt f x = Spec.int f x := by
  unfold elemInt intOf Spec.int
  simp only [Nat.mod_eq_of_lt hx]
  cases f <;> simp [fmtSigned]

theorem elemInt_range {f : Fmt} {x : ℕ} (hx : x < 2 ^ fmtBits f) :
    (intRange (fmtBits f) (fmtSigned f)).1 ≤ elemInt f x ∧ elemInt f x ≤ (intRange (fmtBits f) (fmtSigned f)).2 := by
  have h2 : 2 ^ fmtBits f = 2 * 2 ^ (fmtBits f - 1) := by
    rw [← pow_succ', Nat.sub_add_cancel (by have := (fmtBits_le f).1; omega)]
  have h2' : (2 : ℤ) ^ fmtBits f = 2 * 2 ^ (fmtBits f - 1) := by exact_mod_cast h2
  have hx' : (x : ℤ) < 2 ^ fmtBits f := by exact_mod_cast hx
  have hp : (2 : ℤ) ^ (fmtBits f - 1) = ((2 ^ (fmtBits f - 1) : ℕ) : ℤ) := by push_cast; rfl
  unfold elemInt intOf intRange
  cases fmtSigned f
  · simp only [Bool.false_and, Bool.false_eq_true, if_false]
    omega
  · simp only [Bool.true_and, decide_eq_true_eq, if_true]
    split <;> omega

/-! ### The tree of R67 -/

/-- A leaf of R67's tree as the statement writes it. -/
def Leaf.pair (l : Leaf) : FVal × BitVec 6 := (l.v, l.fl)

/-- The node over two leaves. -/
def Leaf.node (r : Rnd) (x y : Leaf) : Leaf := ⟨FF.f32.val (FF.f32.addV r x.v y.v).bits, x.fl ||| y.fl ||| (FF.f32.addV r x.v y.v).fl⟩

theorem pairSums_map (r : Rnd) (leaf : ℕ → Leaf) (n : ℕ) :
    pairSums r ((List.range (2 * n)).map leaf) = (List.range n).map fun i => Leaf.node r (leaf (2 * i)) (leaf (2 * i + 1)) := by
  induction n generalizing leaf with
  | zero => rfl
  | succ n ih =>
    have e : (List.range (2 * (n + 1))).map leaf = leaf 0 :: leaf 1 :: (List.range (2 * n)).map fun i => leaf (i + 2) := by
      rw [show 2 * (n + 1) = 2 * n + 1 + 1 by ring, List.range_succ_eq_map, List.range_succ_eq_map]
      simp [Function.comp_def]
    rw [e, pairSums, ih, List.range_succ_eq_map, List.map_cons, List.map_map]
    rfl

theorem tree_succ (r : Rnd) (leaf : ℕ → FVal × BitVec 6) (k i : ℕ) :
    Spec.tree r leaf (k + 1) i = Spec.tree r (fun i => Spec.node r (leaf (2 * i)) (leaf (2 * i + 1))) k i := by
  induction k generalizing i with
  | zero => rfl
  | succ k ih =>
    rw [Spec.tree, ih, ih, ← Spec.tree]

/-- The tree of R67 over a row's leaves. -/
theorem treeSum_eq (r : Rnd) (k : ℕ) (leaf : ℕ → Leaf) :
    (treeSum r k ((List.range (2 ^ k)).map leaf)).pair = Spec.tree r (fun i => (leaf i).pair) k 0 := by
  induction k generalizing leaf with
  | zero => rfl
  | succ k ih =>
    rw [treeSum, pow_succ', pairSums_map, ih, tree_succ]
    rfl

theorem lanes_log2 (f : Fmt) : 2 ^ (4096 / fmtBits f).log2 = 4096 / fmtBits f ∧ (4096 / fmtBits f).log2 ≠ 0 := by cases f <;> decide

/-- The root is a node. -/
theorem treeSum_root (r : Rnd) (k : ℕ) (hk : k ≠ 0) (leaf : ℕ → FVal × BitVec 6) : ∃ b, (Spec.tree r leaf k 0).1 = FF.f32.val b := by
  cases k with
  | zero => exact absurd rfl hk
  | succ k => exact ⟨_, rfl⟩

/-- The pattern of a root. -/
theorem root_spec {v : FVal} (h : ∃ b, v = FF.f32.val b) : Spec.root v (BitVec.ofNat 64 (if v.isNan then FF.f32.nan else f32Of v)) := by
  obtain ⟨b, rfl⟩ := h
  unfold Spec.root
  cases hn : (FF.f32.val b).isNan
  · have hb := f32Of_val hn
    have hlt : b % 2 ^ 32 < 2 ^ 32 := Nat.mod_lt _ (by positivity)
    have e : (BitVec.ofNat 64 (b % 2 ^ 32)).toNat = b % 2 ^ 32 := by
      rw [BitVec.toNat_ofNat, Nat.mod_eq_of_lt (by omega)]
    simp only [Bool.false_eq_true, if_false, hb, e]
    exact ⟨hlt, FF.f32.val_mod b⟩
  · simp only [if_true]
    decide

end Sys2Proof.Machine
end

section
/-! `VRED` and `VDOT` (R67, R127, R128): how they complete, and with what. -/

namespace Sys2Proof.Machine

/-! ### How a reduction ends -/

theorem istSet_none (i : BitVec 16) : istSet i false false false = i := by simp [istSet]

/-- A reduction into `d` completes with a value that `p` describes. -/
def Reduces (i : Instr) (s : State) (d : SReg) (ptrs : List (PReg × Bool)) (fl : BitVec 6) (p : Word → Prop) : Prop :=
  ∃ t v, exec i s = .next t ∧ Spec.vecRetires s t { s := [d] } [] fl 0 false false false ptrs ∧ p v ∧ t.cur.sVal d = wroteS d v ∧
    t.cur.sState d = .full ∧ (t.core s.cur.core).sp = (s.core s.cur.core).sp

theorem Strand.keeps_writeS_only (c : Strand) (d : SReg) (v : Word) : c.keeps (c.writeS d v) { s := [d] } [] [] := c.keeps_writeS d v

theorem reduces_of {i : Instr} {s : State} {d : SReg} {v : Word} {fl : BitVec 6} {ptrs : List (PReg × Bool)} {p : Word → Prop}
    (he : exec i s = .next (s.retireFp (((s.cur.writeS d v).stepPs ptrs).advance 4) fl 0)) (hp : p v) : Reduces i s d ptrs fl p := by
  have hk := ((s.cur.writeS d v).keeps_stepPs ptrs)
  obtain ⟨⟨k1, k2, -⟩, -⟩ := hk
  have hi : (((s.cur.writeS d v).stepPs ptrs).advance 4).ident = s.cur.ident :=
    (Strand.keeps_trans (Strand.keeps_trans (s.cur.keeps_writeS d v) ((s.cur.writeS d v).keeps_stepPs ptrs))
      (((s.cur.writeS d v).stepPs ptrs).keeps_advance 4)).1.2.2.2.2.2.2.2.2.2.2.1
  rw [State.retireFp, hi] at he
  obtain ⟨e1, -, -⟩ := (s.cur.writeS d v).stepPs_ctl_pc ptrs
  have hc : (((s.cur.writeS d v).stepPs ptrs).advance 4).ctl = s.cur.ctl := e1.trans (Strand.writeS_ctl ..)
  refine ⟨_, v, he, vecRetires_of (c := s.cur.writeS d v) s.ownRows_refl (s.cur.keeps_writeS d v) (by simp) (by simp) (fun r => ?_) ?_, hp, ?_, ?_, rfl⟩
  · unfold Strand.pVal Strand.writeS
    split <;> rfl
  · rw [Strand.noteFp, hc, istSet_none]
  · simp only [State.noteGang_cur, State.cur_setCur]
    refine (k1 d List.not_mem_nil).trans ?_
    by_cases h0 : d = 0
    · subst h0
      rfl
    · rw [wroteS, if_neg h0, Strand.sVal_writeS_same _ _ _ h0]
  · simp only [State.noteGang_cur, State.cur_setCur]
    exact (k2 d List.not_mem_nil List.not_mem_nil).trans (Strand.sState_writeS_same ..)

/-! ### What they run -/

section
variable {s : State} {d : SReg} {pa pb : PReg} {f : Fmt} {k : KReg} {inc : Bool}

theorem okUnit_bind {α : Type} (m : Except Stop α) : ((Except.ok () : Except Stop Unit) >>= fun _ => m) = m := rfl

/-- The rounding controls of `ctl.fpm`. -/
theorem fpmRnd_eq (s : State) : fpmRnd s.cur.ctl.fpm = Spec.mode s .fpm := (mode_eq s .fpm).symm

theorem exec_vred (fn : VRedFn) : exec (.vred fn d pa f k inc) s = execVred fn d pa f k inc s := rfl

theorem exec_vdot : exec (.vdot d pa pb f k inc) s = execVdot d pa pb f k inc s := rfl

/-- A reduction's value (R127). -/
def vredResult (s : State) (fn : VRedFn) (pa : PReg) (f : Fmt) (k : KReg) : FR :=
  vred fn f (Spec.mode s .fpm) (4096 / fmtBits f) (Spec.on s k (fmtBits f) (4096 / fmtBits f))
    (elem (fmtBits f) ((s.core s.cur.core).row (Spec.addr s pa)))

theorem vred_reduces (fn : VRedFn) (hd : s.cur.sState d ≠ .pending) (hr : Spec.rowsReady s [Spec.addr s pa] [] 0) {p : Word → Prop}
    (hp : p (BitVec.ofNat 64 (vredResult s fn pa f k).bits)) : Reduces (.vred fn d pa f k inc) s d [(pa, inc)] (vredResult s fn pa f k).fl p := by
  refine reduces_of ((exec_vred fn).trans (run_ok ?_)) hp
  simp only [needFree_s _ _ hd, okUnit_bind]
  refine (vec_ready hr ?_).trans ?_
  · intro r h
    simp only [List.mem_singleton] at h
    subst h
    exact List.mem_cons_self
  · rw [vredResult, ← fpmRnd_eq]
    rfl

/-- A dot product (R128). -/
def vdotResult (s : State) (pa pb : PReg) (f : Fmt) (k : KReg) : FR :=
  vdot f (Spec.mode s .fpm) (4096 / fmtBits f) (Spec.on s k (fmtBits f) (4096 / fmtBits f))
    (elem (fmtBits f) ((s.core s.cur.core).row (Spec.addr s pa))) (elem (fmtBits f) ((s.core s.cur.core).row (Spec.addr s pb)))

theorem vdot_reduces (hd : s.cur.sState d ≠ .pending) (hr : Spec.rowsReady s [Spec.addr s pa, Spec.addr s pb] [] (bankTurns [Spec.addr s pa, Spec.addr s pb]))
    {p : Word → Prop} (hp : p (BitVec.ofNat 64 (vdotResult s pa pb f k).bits)) :
    Reduces (.vdot d pa pb f k inc) s d [(pa, inc), (pb, inc)] (vdotResult s pa pb f k).fl p := by
  refine reduces_of (exec_vdot.trans (run_ok ?_)) hp
  simp only [needFree_s _ _ hd, okUnit_bind]
  refine (vec_ready hr ?_).trans ?_
  · intro r h
    simp only [List.mem_cons, List.not_mem_nil, or_false] at h
    rcases h with rfl | rfl
    · exact List.mem_cons_self
    · exact List.mem_cons_of_mem _ List.mem_cons_self
  · rw [vdotResult, ← fpmRnd_eq]
    rfl

end

/-! ### Values of `VRED` -/

section
variable {f : Fmt} {r : Rnd} {n : ℕ} {on : ℕ → Bool} {at_ : ℕ → ℕ}

/-- The enabled elements. -/
def enabledElems (n : ℕ) (on : ℕ → Bool) (at_ : ℕ → ℕ) : List ℕ := ((List.range n).filter on).map at_

theorem ofNat_toNat_word (v : Word) : BitVec.ofNat 64 v.toNat = v := by simp

theorem vred_int (fn : VRedFn) (hf : fmtFF f = none) : vred fn f r n on at_ = ⟨(vredInt fn f (enabledElems n on at_)).toNat, 0, 0⟩ := by
  unfold vred
  rw [hf]
  rfl

theorem vred_bits {fn : VRedFn} (h : fn = .and ∨ fn = .or ∨ fn = .xor) : vred fn f r n on at_ = ⟨(vredInt fn f (enabledElems n on at_)).toNat, 0, 0⟩ := by
  unfold vred
  rcases h with rfl | rfl | rfl <;> cases fmtFF f <;> rfl

variable (hat : ∀ i, at_ i < 2 ^ fmtBits f)
include hat

theorem mem_enabledElems {x : ℕ} (h : x ∈ enabledElems n on at_) : x < 2 ^ fmtBits f := by
  obtain ⟨i, -, rfl⟩ := List.mem_map.mp h
  exact hat i

theorem map_elemInt : (enabledElems n on at_).map (elemInt f) = (enabledElems n on at_).map (Spec.int f) :=
  List.map_congr_left fun _ hx => elemInt_eq (mem_enabledElems hat hx)

theorem vredInt_add : vredInt .add f (enabledElems n on at_) = BitVec.ofInt 64 ((enabledElems n on at_).map (Spec.int f)).sum := by
  rw [← map_elemInt hat, List.sum_eq_foldl]
  rfl

/-- An integer extremum over a list that has one. -/
theorem vredInt_best (up : Bool) (hl : enabledElems n on at_ ≠ []) :
    ∃ x ∈ enabledElems n on at_, vredInt (if up then .max else .min) f (enabledElems n on at_) = BitVec.ofInt 64 (Spec.int f x) ∧
      ∀ y ∈ enabledElems n on at_, if up then Spec.int f y ≤ Spec.int f x else Spec.int f x ≤ Spec.int f y := by
  have hmap := map_elemInt (n := n) (on := on) hat
  have hne : (enabledElems n on at_).map (Spec.int f) ≠ [] := by simpa using hl
  have hrange (v) (hv : v ∈ (enabledElems n on at_).map (Spec.int f)) :
      (intRange (fmtBits f) (fmtSigned f)).1 ≤ v ∧ v ≤ (intRange (fmtBits f) (fmtSigned f)).2 := by
    rw [← hmap] at hv
    obtain ⟨y, hy, rfl⟩ := List.mem_map.mp hv
    exact elemInt_range (mem_enabledElems hat hy)
  cases up
  · obtain ⟨h1, h2⟩ := foldl_better (fun v : ℤ => -v) (fun a b => if b < a then b else a)
      (fun a b => by split <;> simp <;> omega) neg_injective _ (intRange (fmtBits f) (fmtSigned f)).2 (fun v hv => neg_le_neg (hrange v hv).2) hne
    obtain ⟨x, hx, hxv⟩ := List.mem_map.mp h1
    refine ⟨x, hx, ?_, fun y hy => ?_⟩
    · rw [hxv, ← hmap]; rfl
    · simpa [hxv] using h2 _ (List.mem_map_of_mem hy)
  · obtain ⟨h1, h2⟩ := foldl_better (fun v : ℤ => v) (fun a b => if a < b then b else a)
      (fun a b => by split <;> simp <;> omega) (fun _ _ h => h) _ (intRange (fmtBits f) (fmtSigned f)).1 (fun v hv => (hrange v hv).1) hne
    obtain ⟨x, hx, hxv⟩ := List.mem_map.mp h1
    refine ⟨x, hx, ?_, fun y hy => ?_⟩
    · rw [hxv, ← hmap]; rfl
    · simpa [hxv] using h2 _ (List.mem_map_of_mem hy)

/-- A bit of the elements, folded. -/
theorem foldBits_of {g : Bool → Bool → Bool} {z : Bool} {v : ℕ}
    (hv : ∀ i, v.testBit i = (enabledElems n on at_).foldl (fun b x => g b (x.testBit i)) (z && decide (i < fmtBits f))) (hg : g false false = false) :
    Spec.foldBits g z (fmtBits f) (enabledElems n on at_) (BitVec.ofNat 64 v) := by
  intro i hi
  rw [BitVec.getLsbD_ofNat, hv, decide_eq_true hi, Bool.true_and]
  split
  · next h => rw [decide_eq_true h, Bool.and_true]
  · next h =>
    rw [decide_eq_false h, Bool.and_false]
    have hall (l : List ℕ) (hl : ∀ x ∈ l, x < 2 ^ fmtBits f) : l.foldl (fun b x => g b (x.testBit i)) false = false := by
      induction l with
      | nil => rfl
      | cons x l ih =>
        have hx : x.testBit i = false := Nat.testBit_lt_two_pow ((hl x List.mem_cons_self).trans_le (Nat.pow_le_pow_right two_pos (not_lt.mp h)))
        rw [List.foldl_cons, hx, hg]
        exact ih fun y hy => hl y (List.mem_cons_of_mem _ hy)
    exact hall _ fun x hx => mem_enabledElems hat hx

theorem vredInt_and : Spec.foldBits (· && ·) true (fmtBits f) (enabledElems n on at_) (vredInt .and f (enabledElems n on at_)) :=
  foldBits_of hat (fun i => by rw [testBit_foldl_and, Nat.testBit_two_pow_sub_one]; rfl) rfl

theorem vredInt_or : Spec.foldBits (· || ·) false (fmtBits f) (enabledElems n on at_) (vredInt .or f (enabledElems n on at_)) :=
  foldBits_of hat (fun i => by rw [testBit_foldl_or, Nat.zero_testBit]; rfl) rfl

theorem vredInt_xor : Spec.foldBits xor false (fmtBits f) (enabledElems n on at_) (vredInt .xor f (enabledElems n on at_)) :=
  foldBits_of hat (fun i => by rw [testBit_foldl_xor, Nat.zero_testBit]; rfl) rfl

end

/-! ### Floats -/

section
variable {f : Fmt} {g : FF} {r : Rnd} {on : ℕ → Bool}

theorem FF.snan_valZ (g : FF) (fzi : Bool) (x : ℕ) : (g.valZ fzi x).snan = Spec.snanOf g x ∧ (g.valZ fzi x).isNan = Spec.nanOf g x := by
  cases h : Spec.nanOf g x
  · have hn := FF.val_of_not_nan h fzi
    refine ⟨?_, hn⟩
    rw [Spec.snanOf, h]
    cases hv : g.valZ fzi x with
    | nan s => rw [hv] at hn; cases hn
    | inf n => rfl
    | fin n m e => rfl
  · rw [FF.valZ_of_nan h]
    exact ⟨rfl, rfl⟩

/-- The tree of a row, with the root as a pattern. -/
theorem tree_root (leaf : ℕ → Leaf) :
    let t := treeSum r (4096 / fmtBits f).log2 ((List.range (4096 / fmtBits f)).map leaf)
    let root := Spec.tree r (fun i => (leaf i).pair) (4096 / fmtBits f).log2 0
    t.fl = root.2 ∧ Spec.root root.1 (BitVec.ofNat 64 (if t.v.isNan then FF.f32.nan else f32Of t.v)) := by
  intro t root
  obtain ⟨hl, h0⟩ := lanes_log2 f
  have h := treeSum_eq r (4096 / fmtBits f).log2 leaf
  rw [hl] at h
  have hv : t.v = root.1 := congrArg Prod.fst h
  refine ⟨congrArg Prod.snd h, ?_⟩
  rw [hv]
  exact root_spec (treeSum_root r _ h0 _)

theorem vred_add_float (hf : fmtFF f = some g) (at_ : ℕ → ℕ) :
    let root := Spec.tree r (fun i => if on i = false then (.fin false 0 0, 0)
      else if Spec.nanOf g (at_ i) then (.nan false, flagIf (Spec.snanOf g (at_ i)) fNV) else (g.valZ r.fzi (at_ i), 0)) (4096 / fmtBits f).log2 0
    (vred .add f r (4096 / fmtBits f) on at_).fl = root.2 ∧
      Spec.root root.1 (BitVec.ofNat 64 (vred .add f r (4096 / fmtBits f) on at_).bits) := by
  have hleaf : (fun i => (if on i then leafOf (g.valZ r.fzi (at_ i)) else ⟨plusZero, 0⟩ : Leaf).pair) = fun i => if on i = false then (.fin false 0 0, 0)
      else if Spec.nanOf g (at_ i) then (.nan false, flagIf (Spec.snanOf g (at_ i)) fNV) else (g.valZ r.fzi (at_ i), 0) := by
    funext i
    cases on i
    · rfl
    · rw [leafOf, (g.snan_valZ _ _).1, (g.snan_valZ _ _).2]
      cases Spec.nanOf g (at_ i) <;> rfl
  have h := tree_root (f := f) (r := r) fun i => if on i then leafOf (g.valZ r.fzi (at_ i)) else ⟨plusZero, 0⟩
  simp only [hleaf] at h
  unfold vred
  rw [hf]
  exact h

theorem vdot_float (hf : fmtFF f = some g) (a b : ℕ → ℕ) :
    let root := Spec.tree r (fun i => if on i = false then (.fin false 0 0, 0)
      else let p := exactMul (g.valZ (r.fzi && g.ieee) (a i)) (g.valZ (r.fzi && g.ieee) (b i)); (p.v, p.fl)) (4096 / fmtBits f).log2 0
    (vdot f r (4096 / fmtBits f) on a b).fl = root.2 ∧ Spec.root root.1 (BitVec.ofNat 64 (vdot f r (4096 / fmtBits f) on a b).bits) := by
  have hleaf : (fun i => (if on i then exactMul (g.valV r.fzi (a i)) (g.valV r.fzi (b i)) else ⟨plusZero, 0⟩ : Leaf).pair) =
      fun i => if on i = false then (.fin false 0 0, 0)
        else let p := exactMul (g.valZ (r.fzi && g.ieee) (a i)) (g.valZ (r.fzi && g.ieee) (b i)); (p.v, p.fl) := by
    funext i
    cases on i <;> rfl
  have h := tree_root (f := f) (r := r) fun i => if on i then exactMul (g.valV r.fzi (a i)) (g.valV r.fzi (b i)) else ⟨plusZero, 0⟩
  simp only [hleaf] at h
  unfold vdot
  rw [hf]
  exact h

theorem vdot_int (hf : fmtFF f = none) {n : ℕ} {a b : ℕ → ℕ} (ha : ∀ i, a i < 2 ^ fmtBits f) (hb : ∀ i, b i < 2 ^ fmtBits f) :
    (vdot f r n on a b).fl = 0 ∧
    BitVec.ofNat 64 (vdot f r n on a b).bits = BitVec.ofInt 64 (((List.range n).filter on).map fun i => Spec.int f (a i) * Spec.int f (b i)).sum := by
  have hsum : ((List.range n).filter on).foldl (fun n i => n + elemInt f (a i) * elemInt f (b i)) 0 =
      (((List.range n).filter on).map fun i => Spec.int f (a i) * Spec.int f (b i)).sum := by
    rw [List.sum_eq_foldl, List.foldl_map]
    simp only [elemInt_eq (ha _), elemInt_eq (hb _)]
  unfold vdot
  rw [hf]
  refine ⟨rfl, ?_⟩
  show BitVec.ofNat 64 (intBits 64 _) = _
  rw [hsum]
  generalize (((List.range n).filter on).map fun i => Spec.int f (a i) * Spec.int f (b i)).sum = v
  apply BitVec.eq_of_toNat_eq
  rw [intBits, BitVec.toNat_ofNat, BitVec.toNat_ofInt]
  omega

theorem vred_best (up : Bool) (hf : fmtFF f = some g) {n : ℕ} (at_ : ℕ → ℕ) :
    vred (if up then .max else .min) f r n on at_ = vredMinMax up g r.fzi (enabledElems n on at_) := by
  unfold vred
  cases up <;> simp only [hf] <;> rfl

/-- The least or the greatest of float elements (R127). -/
theorem vredMinMax_spec (hg : g.Narrow) (up fzi : Bool) (l : List ℕ) :
    let nums := l.filter fun x => !Spec.nanOf g x
    let v : Word := BitVec.ofNat 64 (vredMinMax up g fzi l).bits
    (vredMinMax up g fzi l).fl = flagIf (l.any (Spec.snanOf g)) fNV ∧
    (l = [] → v = if up then 0xFF800000 else 0x7F800000) ∧ (l ≠ [] → nums = [] → v = 0x7FC00000) ∧
    (nums ≠ [] → (∃ x ∈ nums, Spec.widened g fzi x v.toNat) ∧ ∀ x ∈ nums, ∀ b, Spec.widened g fzi x b →
      if up then Spec.placeZ .f32 false b ≤ Spec.placeZ .f32 false v.toNat else Spec.placeZ .f32 false v.toNat ≤ Spec.placeZ .f32 false b) := by
  intro nums v
  have hany : (l.map fun x => g.valZ fzi x).any FVal.snan = l.any (Spec.snanOf g) := by
    rw [List.any_map]
    congr 1
    funext x
    exact (g.snan_valZ fzi x).1
  have hws : ((l.map fun x => g.valZ fzi x).filter fun v => !v.isNan).map f32Of = nums.map fun x => f32Of (g.valZ fzi x) := by
    have hp : (fun v => !v.isNan) ∘ (fun x => g.valZ fzi x) = fun x => !Spec.nanOf g x := funext fun x => congrArg _ (g.snan_valZ fzi x).2
    rw [List.filter_map, List.map_map, hp]
    rfl
  have hwide (x) (hx : x ∈ nums) : Spec.widened g fzi x (f32Of (g.valZ fzi x)) :=
    hg.widened (by simpa using (List.mem_filter.mp hx).2)
  have hnum (x) (hx : x ∈ nums) : IsNum (f32Of (g.valZ fzi x)) := by
    obtain ⟨h1, -, -, h4⟩ := hwide x hx
    refine ⟨h1, ?_⟩
    cases hv : Spec.value .f32 (f32Of (g.valZ fzi x)) with
    | none => exact (h4 hv).le
    | some q => exact (mag_lt_of_value hv).le
  have hv : v = BitVec.ofNat 64 (vredMinMax up g fzi l).bits := rfl
  clear_value v
  simp only [vredMinMax, hany, hws] at hv ⊢
  cases hn : nums with
  | nil =>
    rw [hn, List.map_nil] at hv
    simp only [List.map_nil]
    cases l with
    | nil =>
      refine ⟨by cases up <;> rfl, fun _ => ?_, fun h => absurd rfl h, fun h => absurd rfl h⟩
      rw [hv]
      cases up <;> rfl
    | cons x l => exact ⟨rfl, fun h => absurd h (List.cons_ne_nil x l), fun _ _ => hv, fun h => absurd rfl h⟩
  | cons x t =>
    rw [hn] at hwide hnum
    rw [hn, List.map_cons] at hv
    simp only [List.map_cons]
    obtain ⟨h1, h2⟩ := minMax_fold up (x := f32Of (g.valZ fzi x)) (l := t.map fun x => f32Of (g.valZ fzi x)) (by
      rw [← List.map_cons (f := fun x => f32Of (g.valZ fzi x))]
      exact List.forall_mem_map.mpr hnum)
    rw [← List.map_cons (f := fun x => f32Of (g.valZ fzi x))] at h1 h2
    obtain ⟨y, hy, hyv⟩ := List.mem_map.mp h1
    have hlt : f32Of (g.valZ fzi y) < 2 ^ 32 := (hwide y hy).1
    have htn : v.toNat = f32Of (g.valZ fzi y) := by
      rw [hv]
      simp only
      rw [← hyv, BitVec.toNat_ofNat, Nat.mod_eq_of_lt (by omega)]
    rw [← hyv] at h2
    refine ⟨trivial, fun h => ?_, fun _ h => absurd h (List.cons_ne_nil x t), fun _ => ⟨⟨y, hy, htn ▸ hwide y hy⟩, fun z hz b hb => ?_⟩⟩
    · have hnil : nums = [] := by simp [nums, h]
      exact absurd (hn.symm.trans hnil) (List.cons_ne_nil x t)
    · rw [widened_unique hb (hwide z hz), htn]
      exact h2 _ (List.mem_map_of_mem hz)

end

/-! ### The claim -/

theorem intRange_of_fmt (f : Fmt) : intRange (fmtBits f) (fmtSigned f) =
    (if (f matches .i8 | .i16 | .i32 | .i64) then -2 ^ (fmtBits f - 1) else 0,
      if (f matches .i8 | .i16 | .i32 | .i64) then 2 ^ (fmtBits f - 1) - 1 else 2 ^ fmtBits f - 1) := by
  cases f <;> rfl

/-- R67, R127, R128. -/
theorem vectorReductions : Spec.claimVectorReductions := by
  intro d pa pb f k inc s w a b row on l ends hd
  have hat (x i : ℕ) : row x i < 2 ^ fmtBits f := elem_lt ..
  have hl : l = enabledElems (4096 / w) on (row a) := rfl
  have red (fn : VRedFn) (hr : Spec.rowsReady s [a] [] 0) (fl : BitVec 6) (p : Word → Prop)
      (h : (vred fn f (Spec.mode s .fpm) (4096 / w) on (row a)).fl = fl ∧ p (BitVec.ofNat 64 (vred fn f (Spec.mode s .fpm) (4096 / w) on (row a)).bits)) :
      ends (.vred fn d pa f k inc) [(pa, inc)] fl p := h.1 ▸ vred_reduces fn hd hr h.2
  have int (fn : VRedFn) (hf : fmtFF f = none) (hr : Spec.rowsReady s [a] [] 0) (p : Word → Prop) (h : p (vredInt fn f l)) :
      ends (.vred fn d pa f k inc) [(pa, inc)] 0 p := red fn hr 0 p (by rw [vred_int fn hf, ofNat_toNat_word]; exact ⟨rfl, h⟩)
  have bits (fn : VRedFn) (hfn : fn = .and ∨ fn = .or ∨ fn = .xor) (hr : Spec.rowsReady s [a] [] 0) (p : Word → Prop) (h : p (vredInt fn f l)) :
      ends (.vred fn d pa f k inc) [(pa, inc)] 0 p := red fn hr 0 p (by rw [vred_bits hfn, ofNat_toNat_word]; exact ⟨rfl, h⟩)
  have hrange (x) (hx : x ∈ l) := mem_enabledElems (hat a) hx
  refine ⟨fun hr => ⟨fun hf => ⟨?_, ?_, fun hne => ⟨?_, ?_⟩⟩, ?_, ?_, ?_, ?_⟩, fun hr => ⟨fun hf => ?_, ?_⟩⟩
  · exact int .add hf hr _ (vredInt_add (hat a))
  · intro signed hnil
    have hr0 := intRange_of_fmt f
    refine ⟨int .min hf hr _ ?_, int .max hf hr _ ?_⟩
    · rw [hnil]
      exact congrArg (fun q : ℤ × ℤ => BitVec.ofInt 64 q.2) hr0
    · rw [hnil]
      exact congrArg (fun q : ℤ × ℤ => BitVec.ofInt 64 q.1) hr0
  · obtain ⟨x, hx, hv, hb⟩ := vredInt_best (hat a) false hne
    exact int .min hf hr _ ⟨⟨x, hx, hv⟩, fun y hy => ⟨x, hx, hv, hb y hy⟩⟩
  · obtain ⟨x, hx, hv, hb⟩ := vredInt_best (hat a) true hne
    exact int .max hf hr _ ⟨⟨x, hx, hv⟩, fun y hy => ⟨x, hx, hv, hb y hy⟩⟩
  · exact bits .and (.inl rfl) hr _ (vredInt_and (hat a))
  · exact bits .or (.inr (.inl rfl)) hr _ (vredInt_or (hat a))
  · exact bits .xor (.inr (.inr rfl)) hr _ (vredInt_xor (hat a))
  · intro g hf z leaf root nums
    refine ⟨red .add hr _ _ (vred_add_float hf (row a)), fun up => red _ hr _ _ ?_⟩
    rw [vred_best up hf]
    exact vredMinMax_spec (fmtFF_narrow hf) up z l
  · obtain ⟨h1, h2⟩ := vdot_int hf (n := 4096 / w) (on := on) (r := Spec.mode s .fpm) (hat a) (hat b)
    exact h1 ▸ vdot_reduces hd hr h2
  · intro g hf z leaf root
    obtain ⟨h1, h2⟩ := vdot_float (r := Spec.mode s .fpm) (on := on) hf (row a) (row b)
    exact h1 ▸ vdot_reduces hd hr h2

end Sys2Proof.Machine
end

section
/-! Instructions that write rows (R111, R115): the rows they write, `VBDOT` and `VSCOMB` (R129, R130). -/

namespace Sys2Proof.Machine

/-! ### Rows put into the strand's core -/

theorem mapRow_fits (w old : ℕ) (en : ℕ → Bool) (f : ℕ → FR) : (mapRow w (4096 / w) old en f).row < 2 ^ 4096 :=
  (mapRow_lt ..).trans_le (pow_le_pow_right₀ one_le_two (Nat.mul_div_le 4096 w))

/-- The strand's core with rows written. -/
def State.putRows (s : State) (l : List (ℕ × RowOut)) : State :=
  s.setCore s.cur.core (l.foldl (fun k r => k.rowWrite r.1 r.2) (s.core s.cur.core))

section
variable {s t : State} {l : List (ℕ × RowOut)}

theorem State.core_putRows : (s.putRows l).core s.cur.core = l.foldl (fun k r => k.rowWrite r.1 r.2) (s.core s.cur.core) := by
  simp [State.putRows]

variable (ha : Apart (l.map (·.1)))
include ha

theorem State.ownRows_putRows (hr : ∀ e ∈ l, e.2.row < 2 ^ 4096) : s.ownRows (s.putRows l) :=
  s.ownRows_setCore _ (Core.rowWrites l _ ha hr).2.2.2

/-- Rows of elements, put: the enabled elements are written, and nothing else. -/
theorem rowsWritten_of {rows : List ℕ} {w : ℕ} {on : ℕ → ℕ → Bool} {f : ℕ → ℕ → ℕ} {g : ℕ → ℕ → FR}
    (ht : t.core s.cur.core = (s.putRows l).core s.cur.core) (hrows : l.map (·.1) = rows)
    (hl : ∀ j e, l[j]? = some e → e.2 = mapRow w (4096 / w) ((s.core s.cur.core).row e.1) (on j) (g j))
    (hf : ∀ j < l.length, ∀ i, (g j i).bits = f j i) : Spec.rowsWritten s t rows w on f := by
  have hr (e) (he : e ∈ l) : e.2.row < 2 ^ 4096 := by
    obtain ⟨j, hj⟩ := List.mem_iff_getElem?.mp he
    rw [hl j e hj]
    exact mapRow_fits ..
  obtain ⟨h1, -, h3, -⟩ := Core.rowWrites l (s.core s.cur.core) ha hr
  unfold Spec.rowsWritten
  rw [ht, State.core_putRows]
  refine ⟨fun j d hd i hi => ?_, fun b hb => h3 b fun e he => hb e.1 (hrows ▸ List.mem_map_of_mem he)⟩
  rw [← hrows, List.getElem?_map, Option.map_eq_some_iff] at hd
  obtain ⟨e, he, rfl⟩ := hd
  rw [h1 e (List.mem_iff_getElem?.mpr ⟨j, he⟩), hl j e he, mapRow_elem hi, hf j (List.getElem?_eq_some_iff.mp he).choose i]

end

/-! ### An instruction that writes one row -/

theorem apart_singleton (a : ℕ) : Apart [a] := List.pairwise_singleton ..

theorem Strand.stepPs_advance_ident (c : Strand) (ptrs : List (PReg × Bool)) : ((c.stepPs ptrs).advance 4).ident = c.ident :=
  (Strand.keeps_trans (c.keeps_stepPs ptrs) ((c.stepPs ptrs).keeps_advance 4)).1.2.2.2.2.2.2.2.2.2.2.1

theorem retireRows_eq (s : State) (ptrs : List (PReg × Bool)) (l : List (ℕ × RowOut)) :
    retireRows s ((s.cur.stepPs ptrs).advance 4) (s.core s.cur.core) l =
      (s.putRows l).retireFp ((s.cur.stepPs ptrs).advance 4) (l.foldl (fun a r => a ||| r.2.fl) 0) (l.map (·.2.sat)).sum := by
  have e : ((s.cur.stepPs ptrs).advance 4).core = s.cur.core := (s.cur.stepPs_ctl_pc ptrs).2.2
  unfold retireRows
  rw [e]
  rfl

/-- An instruction that retires with a row of elements. -/
theorem rowResult_of {i : Instr} {s : State} {pd : PReg} {w : ℕ} {on : ℕ → Bool} {f : ℕ → FR} {ptrs : List (PReg × Bool)}
    (he : exec i s = .next (retireRows s ((s.cur.stepPs ptrs).advance 4) (s.core s.cur.core)
      [(Spec.addr s pd, mapRow w (4096 / w) ((s.core s.cur.core).row (Spec.addr s pd)) on f)])) :
    Spec.rowResult i s pd w on f [] ptrs := by
  set out := mapRow w (4096 / w) ((s.core s.cur.core).row (Spec.addr s pd)) on f with hout
  have hrow : ∀ e ∈ [(Spec.addr s pd, out)], e.2.row < 2 ^ 4096 := by
    intro e he
    rw [List.mem_singleton.mp he]
    exact mapRow_fits ..
  have hc : ((s.cur.stepPs ptrs).advance 4).ctl = s.cur.ctl := (s.cur.stepPs_ctl_pc ptrs).1
  have hfl : [(Spec.addr s pd, out)].foldl (fun a r => a ||| r.2.fl) 0 = Spec.flags (4096 / w) on f := by simp [hout, mapRow_fl]
  have hsat : ([(Spec.addr s pd, out)].map (·.2.sat)).sum = Spec.sats (4096 / w) on f := by simp [hout, mapRow_sat]
  rw [retireRows_eq, State.retireFp, Strand.stepPs_advance_ident, hfl, hsat] at he
  refine ⟨_, he, rowsWritten_of (l := [(Spec.addr s pd, out)]) (g := fun _ => f) (apart_singleton _) rfl rfl (fun j e hj => ?_)
    (fun _ _ _ => rfl), vecRetires_of (State.ownRows_putRows (apart_singleton _) hrow) s.cur.keeps_refl rfl rfl (fun _ => rfl) ?_⟩
  · obtain ⟨-, rfl⟩ : j = 0 ∧ _ = e := by simpa [List.getElem?_singleton] using hj
    rfl
  · rw [Strand.noteFp, hc, istSet_none]

/-! ### `VBDOT` and `VSCOMB` -/

theorem exec_vbdot (pd pa pb : PReg) (f : Fmt) (bs : BitVec 2) (incD incA incB : Bool) (s : State) :
    exec (.vbdot pd pa pb f bs incD incA incB) s = execVbdot pd pa pb f bs incD incA incB s := rfl

theorem exec_vscomb (o : OpV) (s : State) : exec (.vscomb o) s = execVscomb o s := rfl

theorem mem_three {a b d : ℕ} {x y z : ℕ} : ∀ r ∈ [(d, x), (a, y), (b, z)], r.1 ∈ [a, b] ++ [d] := by
  simp

/-- R129, R130. -/
theorem vectorBlockProducts : Spec.claimVectorBlockProducts := by
  refine ⟨fun pd pa pb f bs incD incA incB s => ?_, fun o s => ?_⟩
  · intro size n sum hr
    refine rowResult_of ((exec_vbdot ..).trans (run_ok ((vec_ready hr mem_three).trans ?_)))
    rw [fpmRnd_eq]
    rfl
  · intro w k v a b hr
    refine rowResult_of ((exec_vscomb ..).trans (run_ok ((vec_ready hr mem_three).trans ?_)))
    rw [fpmRnd_eq]
    rfl

end Sys2Proof.Machine
end

section
/-! Exact products and sums of float values (R67, R128, R129), and the vector reductions settled. -/

namespace Sys2Proof.Machine

theorem Spec.fin_iff {u : FVal} {a : ℚ} : Spec.fin u = some a ↔ ∃ n m e, u = .fin n m e ∧ Spec.rat n m e = a := by
  cases u <;> simp [Spec.fin]

theorem rat_mul (n p : Bool) (m k : ℕ) (e f : ℤ) : Spec.rat n m e * Spec.rat p k f = Spec.rat (n != p) (m * k) (e + f) := by
  rw [Spec.rat, Spec.rat, Spec.rat, zpow_add₀ two_ne_zero, Nat.cast_mul]
  cases n <;> cases p <;> simp <;> ring

theorem rat_eq_zero {n : Bool} {m : ℕ} {e : ℤ} : Spec.rat n m e = 0 ↔ m = 0 := by
  cases n <;> simp [Spec.rat, zpow_ne_zero]

theorem rat_pos {n : Bool} {m : ℕ} {e : ℤ} (h : 0 < Spec.rat n m e) : n = false ∧ m ≠ 0 := by
  have hp : (0 : ℚ) ≤ m * 2 ^ e := by positivity
  refine ⟨?_, fun hm => h.ne' (rat_eq_zero.mpr hm)⟩
  cases n
  · rfl
  · simp only [Spec.rat, if_true] at h; linarith

theorem rat_neg {n : Bool} {m : ℕ} {e : ℤ} (h : Spec.rat n m e < 0) : n = true ∧ m ≠ 0 := by
  have hp : (0 : ℚ) ≤ m * 2 ^ e := by positivity
  refine ⟨?_, fun hm => h.ne (rat_eq_zero.mpr hm)⟩
  cases n
  · simp only [Spec.rat, Bool.false_eq_true, if_false] at h; linarith
  · rfl

/-! ### Products -/

theorem exactMul_fin (n p : Bool) (m k : ℕ) (e f : ℤ) : exactMul (.fin n m e) (.fin p k f) = ⟨.fin (n != p) (m * k) (e + f), 0⟩ := rfl

theorem exactMul_inf_fin (n p : Bool) (m : ℕ) (e : ℤ) :
    exactMul (.inf n) (.fin p m e) = if m = 0 then ⟨.nan false, fNV⟩ else ⟨.inf (n != p), 0⟩ := rfl

theorem exactMul_fin_inf (n p : Bool) (m : ℕ) (e : ℤ) : exactMul (.fin p m e) (.inf n) = exactMul (.inf n) (.fin p m e) := rfl

theorem exactMul_nan {u v : FVal} (h : u.isNan ∨ v.isNan) : exactMul u v = ⟨.nan false, flagIf (u.snan || v.snan) fNV⟩ := by
  cases u <;> cases v <;> simp_all [exactMul, FVal.isNan]

/-! ### The sum of a block -/

/-- The dyadic of a finite value. -/
def Leaf.dy (x : Leaf) : Dy := match x.v with | .fin n m e => dyOf n m e | _ => ⟨0, 0⟩

/-- The exact sum that a block rounds. -/
def blockDy (l : List Leaf) : Dy := l.foldl (fun a x => if x.dy.n = 0 then a else a.add x.dy) ⟨0, 0⟩

theorem blockDy_val (l : List Leaf) : (blockDy l).val = (l.map fun x => x.dy.val).sum := by
  have h (d : Dy) : (l.foldl (fun a x => if x.dy.n = 0 then a else a.add x.dy) d).val = d.val + (l.map fun x => x.dy.val).sum := by
    induction l generalizing d with
    | nil => simp
    | cons x l ih =>
      rw [List.foldl_cons, ih, List.map_cons, List.sum_cons]
      split
      · next h0 => rw [Dy.val_eq_zero.mpr h0, zero_add]
      · rw [Dy.add_val, add_assoc]
  rw [blockDy, h, Dy.val, Int.cast_zero, zero_mul, zero_add]

section
variable {r : Rnd}

theorem any_isNan (l : List FVal) : ((l.map fun x => (⟨x, 0⟩ : Leaf)).any fun x => x.v.isNan) = l.any FVal.isNan := by
  rw [List.any_map]; rfl

theorem any_inf (l : List FVal) (n : Bool) : ((l.map fun x => (⟨x, 0⟩ : Leaf)).any fun x => x.v == .inf n) = decide (.inf n ∈ l) := by
  rw [Bool.eq_iff_iff]
  simp

theorem foldl_noflags (l : List FVal) : (l.map fun x => (⟨x, 0⟩ : Leaf)).foldl (fun a x => a ||| x.fl) (0 : BitVec 6) = 0 := by
  induction l with
  | nil => rfl
  | cons x l ih =>
    rw [List.map_cons, List.foldl_cons, show (0 : BitVec 6) ||| 0 = 0 from rfl]
    exact ih

/-- A result in F32 saturates nothing. -/
theorem f32_rounds_sat {rm : RM} {fzo : Bool} {x : ℝ} {q : FR} (h : Spec.rounds .f32 rm fzo x q) : q.sat = 0 := by
  by_cases ho : Spec.overflows .f32 rm x
  · obtain ⟨b, -, -, -, -, hs⟩ := h.1 ho
    exact hs
  · obtain ⟨b, m, y, -, -, -, -, -, h1, h2⟩ := h.2 ho
    by_cases hf : fzo = true ∧ 0 < m ∧ m < 2 ^ FF.f32.fb
    · rw [h1 hf]
    · exact (h2 hf).2.1

/-- The sum of a block without infinities and NaNs, rounded once. -/
theorem blockSum_finite {l : List FVal} (hn : l.any FVal.isNan = false) (hi : ∀ n, .inf n ∉ l) :
    Spec.rounds .f32 r.rm r.fzo (blockDy (l.map fun x => ⟨x, 0⟩)).val (blockSum r (l.map fun x => ⟨x, 0⟩)) := by
  obtain ⟨z, hz⟩ : ∃ z, blockSum r (l.map fun x => ⟨x, 0⟩) =
      ⟨(FF.f32.roundDy r.rm r.fzo z (blockDy (l.map fun x => ⟨x, 0⟩))).bits, (FF.f32.roundDy r.rm r.fzo z (blockDy (l.map fun x => ⟨x, 0⟩))).fl ||| 0, 0⟩ := by
    unfold blockSum
    simp only [any_isNan, any_inf, foldl_noflags, hn, hi, decide_false, Bool.false_and, Bool.false_eq_true, if_false]
    exact ⟨_, rfl⟩
  have h := (FF.f32.roundDy_rounds r.rm r.fzo z (blockDy (l.map fun x => ⟨x, 0⟩))).1
  rw [hz, ← f32_rounds_sat h, show (0 : BitVec 6) = 0#6 from rfl, BitVec.or_zero]
  exact h

theorem blockSum_nan {l : List FVal} (h : l.any FVal.isNan ∨ .inf true ∈ l ∧ .inf false ∈ l) :
    (blockSum r (l.map fun x => ⟨x, 0⟩)).bits = 0x7FC00000 := by
  unfold blockSum
  simp only [any_isNan, any_inf]
  by_cases hn : l.any FVal.isNan = true
  · rw [if_pos hn]
    rfl
  · obtain ⟨h1, h2⟩ := h.resolve_left hn
    rw [if_neg hn, if_pos (by simp [h1, h2])]
    rfl

theorem blockSum_inf {l : List FVal} (hn : l.any FVal.isNan = false) {n : Bool} (h : .inf n ∈ l) (h' : .inf (!n) ∉ l) :
    (blockSum r (l.map fun x => ⟨x, 0⟩)).bits = if n then 0xFF800000 else 0x7F800000 := by
  unfold blockSum
  simp only [any_isNan, any_inf, hn, Bool.false_eq_true, if_false]
  cases n
  · have h0 : .inf true ∉ l := h'
    simp only [h, h0, decide_true, decide_false, Bool.and_false, Bool.false_eq_true, if_false, if_true]
    rfl
  · have h0 : .inf false ∉ l := h'
    simp only [h, h0, decide_true, decide_false, Bool.false_and, Bool.false_eq_true, if_false, if_true]
    rfl

/-- The exact sum of finite values. -/
theorem blockDy_sum {l : List (FVal × ℚ)} (h : ∀ x ∈ l, Spec.fin x.1 = some x.2) :
    (blockDy ((l.map (·.1)).map fun x => ⟨x, 0⟩)).val = ((l.map (·.2)).sum : ℚ) := by
  rw [blockDy_val]
  induction l with
  | nil => simp
  | cons x l ih =>
    obtain ⟨n, m, e, h1, h2⟩ := Spec.fin_iff.mp (h x List.mem_cons_self)
    have hx : (⟨x.1, 0⟩ : Leaf).dy.val = (x.2 : ℝ) := by
      rw [h1, ← h2, cast_rat, ← dyOf_val]
      rfl
    simp only [List.map_cons, List.sum_cons, hx, Rat.cast_add]
    rw [ih fun y hy => h y (List.mem_cons_of_mem _ hy)]

end

theorem finite_list {l : List (FVal × ℚ)} (h : ∀ x ∈ l, Spec.fin x.1 = some x.2) :
    (l.map (·.1)).any FVal.isNan = false ∧ ∀ n, .inf n ∉ l.map (·.1) := by
  refine ⟨List.any_eq_false.mpr fun v hv => ?_, fun n hn => ?_⟩
  · obtain ⟨x, hx, rfl⟩ := List.mem_map.mp hv
    obtain ⟨n, m, e, h1, -⟩ := Spec.fin_iff.mp (h x hx)
    simp [h1, FVal.isNan]
  · obtain ⟨x, hx, hi⟩ := List.mem_map.mp hn
    have := h x hx
    rw [hi] at this
    cases this

/-- R67, R68, R128, R129. -/
theorem sumsAndProducts : Spec.claimSumsAndProducts := by
  refine ⟨?_, ?_, fun _ _ => ⟨rfl, rfl⟩, fun u v h => ?_, ?_, fun r l h => ?_, fun r l => ?_⟩
  · intro u v a b hu hv
    obtain ⟨n, m, e, rfl, rfl⟩ := Spec.fin_iff.mp hu
    obtain ⟨p, k, f, rfl, rfl⟩ := Spec.fin_iff.mp hv
    rw [exactMul_fin, rat_mul]
    exact ⟨rfl, rfl⟩
  · intro n v a hv x hx
    obtain ⟨p, m, e, rfl, rfl⟩ := Spec.fin_iff.mp hv
    have hx' : x = exactMul (.inf n) (.fin p m e) := by
      simp only [List.mem_cons, List.not_mem_nil, or_false] at hx
      exact hx.elim id fun h => h.trans (exactMul_fin_inf ..)
    rw [hx', exactMul_inf_fin]
    refine ⟨fun h => ?_, fun h => ?_, fun h => ?_⟩
    · rw [if_pos (rat_eq_zero.mp h)]
      exact ⟨rfl, rfl⟩
    · obtain ⟨rfl, hm⟩ := rat_pos h
      rw [if_neg hm]
      exact ⟨by simp, rfl⟩
    · obtain ⟨rfl, hm⟩ := rat_neg h
      rw [if_neg hm]
      exact ⟨by simp, rfl⟩
  · rw [exactMul_nan h]
    exact ⟨rfl, rfl⟩
  · intro r u v a b hu hv
    obtain ⟨n, m, e, rfl, rfl⟩ := Spec.fin_iff.mp hu
    obtain ⟨p, k, f, rfl, rfl⟩ := Spec.fin_iff.mp hv
    rw [cast_rat, cast_rat]
    exact ⟨(FF.f32.addV_result r n p m k e f).1, (FF.f32.mulV_result r n p m k e f).1⟩
  · obtain ⟨hn, hi⟩ := finite_list h
    have hs := blockSum_finite (r := r) hn hi
    rw [blockDy_sum h, List.map_map] at hs
    exact hs
  · exact ⟨blockSum_nan, fun hn n hi hi' => blockSum_inf hn hi hi'⟩

/-- Settles O53: integers by the sum and the order of the integers that elements hold, floats by the tree read level by level, and blocks by
the exact dyadic sum, which is rounded once. -/
theorem vectorReductionsAndProducts : Obligations.VectorReductionsAndProducts :=
  ⟨vectorReductions, vectorBlockProducts, sumsAndProducts⟩

end Sys2Proof.Machine
end

section
/-! The vector interval instructions (R151-R153): the rows that they write, and the element that becomes EMPTY. -/

namespace Sys2Proof.Machine

/-! ### How an instruction on rows of intervals ends -/

section
variable {s : State} {km : KReg} {ni em np : ℕ → Bool} {which : ℕ → ℕ}

/-- The enabled elements with what they raise. -/
def ivRaised (s : State) (km : KReg) (ni em np : ℕ → Bool) (which : ℕ → ℕ) : IvRow :=
  ivCollect (((List.range 64).filter (Spec.on s km 64 64)).map fun i => (i, ni i, em i, np i, which i))

theorem any_enabled (p : ℕ → Bool) : ((List.range 64).filter (Spec.on s km 64 64)).any p = Spec.anyOn s km p := by
  rw [List.any_filter, Spec.anyOn]

theorem ivRaised_ni : (ivRaised s km ni em np which).ni = Spec.anyOn s km ni := by
  rw [← any_enabled]
  exact List.any_map

theorem ivRaised_em : (ivRaised s km ni em np which).em = Spec.anyOn s km em := by
  rw [← any_enabled]
  exact List.any_map

theorem ivRaised_np : (ivRaised s km ni em np which).np = Spec.anyOn s km np := by
  rw [← any_enabled]
  exact List.any_map

/-- The lowest element that becomes EMPTY is the one named. -/
theorem ivRaised_first {e : ℕ} (h : e < 64) (ho : Spec.on s km 64 64 e = true) (he : em e = true)
    (hlow : ∀ j < e, Spec.on s km 64 64 j = true → em j = false) :
    (ivRaised s km ni em np which).first = some (e, which e) ∧ (ivRaised s km ni em np which).em = true := by
  have hfind : ((List.range 64).filter (Spec.on s km 64 64)).find? em = some e := by
    rw [List.find?_filter, List.find?_range_eq_some]
    refine ⟨by simp [ho, he], by simpa using h, fun j hj => ?_⟩
    by_cases hoj : Spec.on s km 64 64 j = true
    · simp [hlow j hj hoj]
    · simp [hoj]
  constructor
  · rw [ivRaised, ivCollect, List.find?_map, Option.map_map]
    show (((List.range 64).filter (Spec.on s km 64 64)).find? em).map _ = _
    rw [hfind]
    rfl
  · rw [ivRaised_em, Spec.anyOn, List.any_eq_true]
    exact ⟨e, List.mem_range.mpr h, by simp [ho, he]⟩

theorem retireIvRows_eq (s : State) (c : Strand) (k : Core) (l : List (ℕ × RowOut)) (q : IvRow) : retireIvRows s c k l q =
    retireIv (s.setCore c.core (l.foldl (fun k r => k.rowWrite r.1 r.2) k)) c q.ni q.em q.np (q.first.getD (0, 0)).1 (q.first.getD (0, 0)).2 := rfl

/-- How an instruction on the rows `rows` ends: element i of row j becomes `g j i` where it is enabled, or an EMPTY is a fault. -/
theorem ivRows_ends {i : Instr} {ptrs : List (PReg × Bool)} {l : List (ℕ × RowOut)} {rows : List ℕ} {g : ℕ → ℕ → ℕ} {body : State → Except Stop State}
    (ha : Apart rows) (hrows : l.map (·.1) = rows) (he : exec i s = run 4 body s)
    (hb : body s = retireIvRows s ((s.cur.stepPs ptrs).advance 4) (s.core s.cur.core) l (ivRaised s km ni em np which))
    (hl : ∀ j e, l[j]? = some e → e.2 = ivMap ((s.core s.cur.core).row e.1) (Spec.on s km 64 64) (g j)) :
    (Spec.anyOn s km em = false ∨ istTe s.cur.ctl.ist = false →
      ∃ t, exec i s = .next t ∧ Spec.rowsWritten s t rows 64 (fun _ => Spec.on s km 64 64) g ∧
        Spec.vecRetires s t {} [] 0 0 (Spec.anyOn s km ni) (Spec.anyOn s km em) (Spec.anyOn s km np) ptrs) ∧
    (∀ e < 64, Spec.on s km 64 64 e = true → em e = true → (∀ j < e, Spec.on s km 64 64 j = true → em j = false) → istTe s.cur.ctl.ist = true →
      exec i s = .next (s.raise s.curId ⟨.emptyIv, 0, BitVec.ofNat 64 (e * 16 + which e)⟩ 2)) := by
  have hctl : ((s.cur.stepPs ptrs).advance 4).ctl = s.cur.ctl := (s.cur.stepPs_ctl_pc ptrs).1
  have hcore : ((s.cur.stepPs ptrs).advance 4).core = s.cur.core := (s.cur.stepPs_ctl_pc ptrs).2.2
  have ha' : Apart (l.map (·.1)) := hrows ▸ ha
  have hrow (e) (h : e ∈ l) : e.2.row < 2 ^ 4096 := by
    obtain ⟨j, hj⟩ := List.mem_iff_getElem?.mp h
    rw [hl j e hj]
    exact mapRow_fits 64 ..
  rw [retireIvRows_eq, retireIv] at hb
  constructor
  · intro h
    rw [if_neg (by rw [hctl, ivRaised_em]; rcases h with h | h <;> simp [h]), hcore, Strand.stepPs_advance_ident, ivRaised_ni, ivRaised_em, ivRaised_np] at hb
    refine ⟨_, he.trans (run_ok hb), rowsWritten_of ha' rfl hrows (g := fun j i => ⟨g j i, 0, 0⟩) (fun j e hj => hl j e hj)
      (fun _ _ _ => rfl), vecRetires_of (State.ownRows_putRows ha' hrow) s.cur.keeps_refl rfl rfl (fun _ => rfl) ?_⟩
    rw [Strand.noteIst, hctl, satAdd_zero]
    simp only [BitVec.ofNat_eq_ofNat, BitVec.or_zero]
  · intro e h ho hem hlow hte
    obtain ⟨h1, h2⟩ := ivRaised_first (ni := ni) (np := np) (which := which) h ho hem hlow
    rw [if_pos (by rw [hctl, h2, hte]; rfl), h1] at hb
    exact he.trans (run_error hb)

end

/-! ### Rows of which the first 256 bytes are read (R153) -/

theorem forM_ok {α : Type} {f : α → Except Stop Unit} {l : List α} : l.forM f = .ok () ↔ ∀ a ∈ l, f a = .ok () := by
  induction l with
  | nil => exact ⟨fun _ _ h => absurd h List.not_mem_nil, fun _ => rfl⟩
  | cons a l ih =>
    rw [List.forall_mem_cons, ← ih]
    show (f a >>= fun _ => l.forM f) = .ok () ↔ _
    cases f a with
    | error e => exact ⟨fun h => (nomatch h), fun h => (nomatch h.1)⟩
    | ok u => exact ⟨fun h => ⟨rfl, h⟩, fun h => h.2⟩

theorem spBanks_aligned {a n : ℕ} (ha : a % 512 = 0) (hn : 0 < n) (hn' : n ≤ 512) : spBanks a n = spBanks a 512 := by
  have h : (a + n - 1) / 512 = (a + 512 - 1) / 512 := by omega
  rw [spBanks, spBanks, spRows, spRows, h]

theorem overlap_mono {a m n : ℕ} (h : m ≤ n) (r : ℕ × ℕ) (ho : overlap (a, a + n) r = false) : overlap (a, a + m) r = false := by
  simp only [overlap, Bool.and_eq_false_iff, decide_eq_false_iff_not] at ho ⊢
  omega

theorem holder_mono {k : Core} {a m n : ℕ} (h : m ≤ n) (hh : holder k (a, a + n) false = none) : holder k (a, a + m) false = none := by
  unfold holder at hh ⊢
  simp only [Bool.false_and, Bool.or_false] at hh ⊢
  split at hh
  · cases hh
  · next hc =>
    have hl : k.rowLoads.any (fun x => overlap (a, a + n) (x.2.row, x.2.row + 512)) = false := by
      by_contra hx
      rw [if_pos (by simpa using hx)] at hh
      cases hh
    have hc' : ((List.range 4).flatMap fun q => ((k.queues[q]?).getD []).map fun x => (q, x)).find?
        (fun x => x.2.stillWr.any (overlap (a, a + m))) = none := by
      rw [List.find?_eq_none] at hc ⊢
      intro x hx
      have := hc x hx
      simp only [Bool.not_eq_true, List.any_eq_false] at this ⊢
      exact fun r hr => by simpa using overlap_mono h r (by simpa using this r hr)
    rw [hc']
    refine if_neg ?_
    simp only [Bool.not_eq_true, List.any_eq_false] at hl ⊢
    exact fun r hr => by simpa using overlap_mono h _ (by simpa using hl r hr)

theorem needRange_mono {k : Core} {a n : ℕ} (ha : a % 512 = 0) (hn : 0 < n) (hn' : n ≤ 512) (h : needRange k a 512 false = .ok ()) :
    needRange k a n false = .ok () := by
  unfold needRange at h ⊢
  split at h
  · next hh =>
    rw [holder_mono hn' hh, spBanks_aligned ha hn hn']
    exact h
  · cases h

/-- Rows that nothing holds are free in part. -/
theorem needPart_mono {k : Core} {rows : List ℕ} {n : ℕ} (ha : ∀ a ∈ rows, a % 512 = 0) (hn : 0 < n) (hn' : n ≤ 512)
    (h : needRows k rows false = .ok ()) : needPart k rows n false = .ok () :=
  forM_ok.mpr fun a hm => needRange_mono (ha a hm) hn hn' (forM_ok.mp h a hm)

theorem needCleanPart_ok {k : Core} {rows : List ℕ} {n : ℕ} (h : ∀ u ∈ k.spPoison, ∀ a ∈ rows, ¬(a / 64 ≤ u ∧ u < a / 64 + n / 64)) :
    needCleanPart k rows n = .ok () := by
  have hf : k.spPoison.find? (fun u => rows.any fun a => decide (a / 64 ≤ u) && decide (u < a / 64 + n / 64)) = none := by
    rw [List.find?_eq_none]
    intro u hu
    simpa using h u hu
  rw [needCleanPart, hf]

end Sys2Proof.Machine
end

section
/-! The vector interval instructions, `VIDOT` and the vector contractors settled (R151-R155). -/

namespace Sys2Proof.Machine

/-! ### Instructions that write one row -/

section
variable (o : OpVI) (s : State)

theorem exec_viadd : exec (.viadd o) s = viV2 o 64 ivAdd s := rfl
theorem exec_visub : exec (.visub o) s = viV2 o 64 ivSub s := rfl
theorem exec_vimul : exec (.vimul o) s = viV2 o 64 ivMul s := rfl
theorem exec_vihull : exec (.vihull o) s = viV2 o 64 ivHull s := rfl
theorem exec_vimeet : exec (.vimeet o) s = viV2 o 64 ivMeet s := rfl
theorem exec_vimake : exec (.vimake o) s = viV2 o 32 ivMake s := rfl
theorem exec_virelu (pd pa : PReg) (km : KReg) (incD incA : Bool) : exec (.virelu pd pa km incD incA) s = execVirelu pd pa km incD incA s := rfl
theorem exec_vidot (d : IvReg) (pa pb : PReg) (km : KReg) (inc : Bool) : exec (.vidot d pa pb km inc) s = execVidot d pa pb km inc s := rfl
theorem exec_vcadd : exec (.vcadd o) s = execVcadd o s := rfl
theorem exec_vcmul : exec (.vcmul o) s = execVcmul o s := rfl
theorem exec_vcrelu (px pz : PReg) (km : KReg) (incX incZ : Bool) : exec (.vcrelu px pz km incX incZ) s = execVcrelu px pz km incX incZ s := rfl

end

/-- What a vector interval instruction comes to that writes `f` into the row of `pd`. -/
def IvRowEnds (s : State) (km : KReg) (pd : PReg) (i : Instr) (f : ℕ → IvR) (ptrs : List (PReg × Bool)) : Prop :=
  (Spec.anyOn s km (fun i => (f i).em) = false ∨ istTe s.cur.ctl.ist = false →
    ∃ t, exec i s = .next t ∧ Spec.rowsWritten s t [Spec.addr s pd] 64 (fun _ => Spec.on s km 64 64) (fun _ i => (f i).v.bits) ∧
      Spec.vecRetires s t {} [] 0 0 (Spec.anyOn s km fun i => (f i).ni) (Spec.anyOn s km fun i => (f i).em) false ptrs) ∧
  (∀ e < 64, Spec.on s km 64 64 e = true → (f e).em = true → (∀ j < e, Spec.on s km 64 64 j = true → (f j).em = false) → istTe s.cur.ctl.ist = true →
    exec i s = .next (s.raise s.curId ⟨.emptyIv, 0, BitVec.ofNat 64 (e * 16)⟩ 2))

section
variable {s : State} {km : KReg} {i : Instr} {f : ℕ → IvR} {ptrs : List (PReg × Bool)} {body : State → Except Stop State}

theorem anyOn_false : Spec.anyOn s km (fun _ => false) = false := by simp [Spec.anyOn]

theorem ivRowEnds_of {pd : PReg} (he : exec i s = run 4 body s)
    (hb : body s = retireIvRows s ((s.cur.stepPs ptrs).advance 4) (s.core s.cur.core)
      [(Spec.addr s pd, ivMap ((s.core s.cur.core).row (Spec.addr s pd)) (Spec.on s km 64 64) fun i => (f i).v.bits)]
      (ivRaised s km (fun i => (f i).ni) (fun i => (f i).em) (fun _ => false) fun _ => 0)) : IvRowEnds s km pd i f ptrs := by
  have h := ivRows_ends (apart_singleton (Spec.addr s pd)) rfl he hb (g := fun _ i => (f i).v.bits) fun j e hj => by
    obtain ⟨-, rfl⟩ : j = 0 ∧ _ = e := by simpa [List.getElem?_singleton] using hj
    rfl
  rw [anyOn_false] at h
  exact h

end

/-- A binary instruction of format V, of which nothing keeps its rows. -/
theorem viV2_ends {o : OpVI} {s : State} {i : Instr} {w : ℕ} {f : ℕ → ℕ → IvR} (he : exec i s = viV2 o w f s) (ha : s.cur.acq = none)
    (hr : ∀ r ∈ [Spec.addr s o.pa, Spec.addr s o.pb, Spec.addr s o.pd], r ≤ 0x5FFFF ∧ r % 512 = 0)
    (h1 : needPart (s.core s.cur.core) [Spec.addr s o.pa, Spec.addr s o.pb] (8 * w) false = .ok ())
    (h2 : needRows (s.core s.cur.core) [Spec.addr s o.pd] true = .ok ())
    (h3 : needCleanPart (s.core s.cur.core) [Spec.addr s o.pa, Spec.addr s o.pb] (8 * w) = .ok ())
    (ho : bankTurns [Spec.addr s o.pa, Spec.addr s o.pb] = 0 ∨ s.cur.owe ≠ 0) :
    IvRowEnds s o.k o.pd i (fun i => f (elem w ((s.core s.cur.core).row (Spec.addr s o.pa)) i) (elem w ((s.core s.cur.core).row (Spec.addr s o.pb)) i))
      [(o.pd, o.incD), (o.pa, o.incA), (o.pb, o.incB)] := by
  refine ivRowEnds_of he ((vecPart_eq ha (fun r h => hr r.1 (mem_three r h)) h1 h2 h3 ho).trans ?_)
  rfl

/-- R73, R151 to R153. -/
theorem vectorIntervals : Spec.claimVectorIntervals := by
  intro o s d a b k on ends ptrs
  refine ⟨fun hr => ?_, fun ha hr h1 h2 h3 ho => ?_, fun hr => ?_⟩
  · obtain ⟨ha, hrows, h1, h2, h3, ho⟩ := hr
    have h (i : Instr) (f : ℕ → ℕ → IvR) (he : exec i s = viV2 o 64 f s) : ends i (fun i => f (elem 64 (k.row a) i) (elem 64 (k.row b) i)) ptrs :=
      viV2_ends he ha hrows h1 h2 h3 ho
    simp only [List.forall_mem_cons, List.not_mem_nil, false_imp_iff, implies_true, and_true]
    exact ⟨h _ _ (exec_viadd o s), h _ _ (exec_visub o s), h _ _ (exec_vimul o s), h _ _ (exec_vihull o s), h _ _ (exec_vimeet o s)⟩
  · refine viV2_ends (exec_vimake o s) ha hr (needPart_mono (fun r hm => ?_) (by decide) (by decide) h1) h2 (needCleanPart_ok h3) ho
    exact (hr r (List.mem_append_left [d] hm)).2
  · refine ivRowEnds_of (exec_virelu ..) ((vec_ready hr ?_).trans ?_)
    · simp only [List.forall_mem_cons, List.not_mem_nil, false_imp_iff, implies_true, and_true]
      exact ⟨List.mem_append_right [a] (List.mem_singleton_self d), List.mem_append_left [d] (List.mem_singleton_self a)⟩
    · rfl

/-! ### The vector contractors (R155) -/

theorem apart_of_aligned {a b : ℕ} (ha : a % 512 = 0) (hb : b % 512 = 0) (h : a ≠ b) : a + 512 ≤ b ∨ b + 512 ≤ a := by omega

/-- What a vector contractor comes to that narrows each triple by `c` and writes the rows `rows`, of which `x` is the first. -/
def TriplesEnd (s : State) (km : KReg) (x : ℕ) (i : Instr) (rows : List ℕ) (c : ℕ → CtrR) (ptrs : List (PReg × Bool)) : Prop :=
  (Spec.anyOn s km (fun i => (c i).em) = false ∨ istTe s.cur.ctl.ist = false →
    ∃ t, exec i s = .next t ∧
      Spec.rowsWritten s t rows 64 (fun _ => Spec.on s km 64 64)
        (fun j i => if rows[j]? = some x ∧ j = 0 then (c i).x else if j + 1 = rows.length then (c i).z else (c i).y) ∧
      Spec.vecRetires s t {} [] 0 0 (Spec.anyOn s km fun i => (c i).ni) (Spec.anyOn s km fun i => (c i).em) (Spec.anyOn s km fun i => (c i).np) ptrs) ∧
  (∀ e < 64, Spec.on s km 64 64 e = true → (c e).em = true → (∀ j < e, Spec.on s km 64 64 j = true → (c j).em = false) → istTe s.cur.ctl.ist = true →
    exec i s = .next (s.raise s.curId ⟨.emptyIv, 0, BitVec.ofNat 64 (e * 16 + (c e).which)⟩ 2))

section
variable {s : State} {km : KReg} {i : Instr} {r : Rel} {ptrs : List (PReg × Bool)}

/-- Element i of the triples of rows, narrowed (R155). -/
def tripleAt (s : State) (r : Rel) (sh : Shared) (x : ℕ) (y : Option ℕ) (z i : ℕ) : CtrR :=
  contract r sh false (istNth s.cur.ctl.ist) (elem 64 ((s.core s.cur.core).row x) i) (elem 64 ((s.core s.cur.core).row (y.getD x)) i)
    (elem 64 ((s.core s.cur.core).row z) i)

/-- The rows that a contractor writes. -/
def tripleRows (s : State) (km : KReg) (x : ℕ) (y : Option ℕ) (z : ℕ) (c : ℕ → CtrR) : List (ℕ × RowOut) :=
  [(x, ivMap ((s.core s.cur.core).row x) (Spec.on s km 64 64) fun i => (c i).x)] ++
    y.toList.map (fun a => (a, ivMap ((s.core s.cur.core).row (y.getD x)) (Spec.on s km 64 64) fun i => (c i).y)) ++
    [(z, ivMap ((s.core s.cur.core).row z) (Spec.on s km 64 64) fun i => (c i).z)]

theorem tripleRows_fst (x : ℕ) (y : Option ℕ) (z : ℕ) (c : ℕ → CtrR) : (tripleRows s km x y z c).map (·.1) = [x] ++ y.toList ++ [z] := by
  cases y <;> rfl

theorem tripleRows_get (x : ℕ) (y : Option ℕ) (z : ℕ) (c : ℕ → CtrR) (j : ℕ) (e : ℕ × RowOut) (h : (tripleRows s km x y z c)[j]? = some e) :
    e.2 = ivMap ((s.core s.cur.core).row e.1) (Spec.on s km 64 64) fun i =>
      if ([x] ++ y.toList ++ [z])[j]? = some x ∧ j = 0 then (c i).x else if j + 1 = ([x] ++ y.toList ++ [z]).length then (c i).z else (c i).y := by
  cases y with
  | none =>
    match j with
    | 0 => cases h; simp
    | 1 => cases h; simp
    | j + 2 => cases h
  | some y =>
    match j with
    | 0 => cases h; simp
    | 1 => cases h; simp
    | 2 => cases h; simp
    | j + 3 => cases h

/-- Operands in rows apart share none. -/
theorem shared_apart {x z : ℕ} {y : Option ℕ} (h : ([x] ++ y.toList ++ [z]).Pairwise (· ≠ ·)) : (⟨y == some x, x == z, y == some z⟩ : Shared) = {} := by
  cases y with
  | none =>
    have hxz : x ≠ z := by simpa using h
    rw [beq_eq_false_iff_ne.mpr hxz]
    rfl
  | some y =>
    obtain ⟨⟨hxy, hxz⟩, hyz⟩ : (x ≠ y ∧ x ≠ z) ∧ y ≠ z := by simpa using h
    rw [beq_eq_false_iff_ne.mpr hxz, beq_eq_false_iff_ne.mpr fun e => hxy (Option.some.inj e).symm, beq_eq_false_iff_ne.mpr fun e => hyz (Option.some.inj e)]

theorem vctr_ends {px pz : PReg} {py : Option PReg} {x z : ℕ} {y : Option ℕ} (he : exec i s = vctr r px py pz km ptrs s) (hx : Spec.addr s px = x)
    (hy : py.map (Spec.addr s) = y) (hz : Spec.addr s pz = z)
    (hr : Spec.rowsReady s ([x] ++ y.toList ++ [z]) ([x] ++ y.toList ++ [z]) (bankTurns ([x] ++ y.toList ++ [z])))
    (ha : ([x] ++ y.toList ++ [z]).Pairwise (· ≠ ·)) : TriplesEnd s km x i ([x] ++ y.toList ++ [z]) (tripleAt s r {} x y z) ptrs := by
  have hap : Apart ([x] ++ y.toList ++ [z]) :=
    ha.imp_of_mem fun h1 h2 h => apart_of_aligned (hr.2.1 _ (List.mem_append_left _ h1)).2 (hr.2.1 _ (List.mem_append_left _ h2)).2 h
  have hf : ([(x, 0)] ++ (y.toList.map fun a => (a, 1)) ++ [(z, 2)] : List (ℕ × ℕ)).map Prod.fst = [x] ++ y.toList ++ [z] := by cases y <;> rfl
  refine ivRows_ends (l := tripleRows s km x y z (tripleAt s r {} x y z)) hap (tripleRows_fst ..) he ?_ (tripleRows_get x y z _)
  rw [← shared_apart ha]
  subst hx hy hz
  exact vec_ready hr fun r hm => List.mem_append_left _ (hf ▸ List.mem_map_of_mem hm)

end

/-! ### `VIDOT` (R154) -/

/-- The exact sum of products of intervals, as a set. -/
def dotSeg (l : List (ℕ × ℕ)) (t : Seg) : Seg := l.foldl (fun a p => a.add ((boxSeg p.1).mul (boxSeg p.2))) t

/-- Sums of products lie in the set that the segment is around. -/
theorem dotSeg_around (l : List (ℕ × ℕ)) (hl : ∀ p ∈ l, Spec.isBox p.1 ∧ Spec.isBox p.2) {t : Seg} {H : Set ℝ} (ht : t.Around H) (hH : H.Nonempty) :
    ∃ K : Set ℝ, (dotSeg l t).Around K ∧ K.Nonempty ∧ ∀ h ∈ H, ∀ q : List (ℝ × ℝ),
      List.Forall₂ (fun p v => Spec.inBox p.1 v.1 ∧ Spec.inBox p.2 v.2) l q → h + (q.map fun v => v.1 * v.2).sum ∈ K := by
  induction l generalizing t H with
  | nil => exact ⟨H, ht, hH, fun h hh q hq => by cases hq; simpa using hh⟩
  | cons p l ih =>
    obtain ⟨ha, hb⟩ := hl p List.mem_cons_self
    have h1 := boxSeg_nonempty ha
    have h2 := boxSeg_nonempty hb
    have hm := (Seg.around h1).mul (Seg.around h2) h1 h2
    obtain ⟨K, hK, hn, h⟩ := ih (fun q hq => hl q (List.mem_cons_of_mem _ hq)) (ht.add hm hH (Set.Nonempty.image2 h1 h2)) (hH.image2 (Set.Nonempty.image2 h1 h2))
    refine ⟨K, hK, hn, fun v hv q hq => ?_⟩
    cases hq with
    | cons hq hqs =>
      rw [List.map_cons, List.sum_cons, ← add_assoc]
      exact h _ (Set.mem_image2_of_mem hv (Set.mem_image2_of_mem ((boxSeg_has ha).mpr hq.1) ((boxSeg_has hb).mpr hq.2))) _ hqs

theorem ivProdSeg_box {a b : ℕ} (ha : Spec.isBox a) (hb : Spec.isBox b) : ivProdSeg (ivRead a).1 (ivRead b).1 = (boxSeg a).mul (boxSeg b) := by
  rw [ivRead_box ha, ivRead_box hb]
  rfl

theorem ivDot_box {l : List (ℕ × ℕ)} (hl : ∀ p ∈ l, Spec.isBox p.1 ∧ Spec.isBox p.2) :
    ivDot l = .iv (roundLo (dotSeg l ⟨.fin 0, true, .fin 0, true⟩).lo) (roundHi (dotSeg l ⟨.fin 0, true, .fin 0, true⟩).hi) := by
  have hnone (v : Iv) (hv : ∀ lo hi, v ≠ .iv lo hi) : ((l.map fun p => ((ivRead p.1).1, (ivRead p.2).1)).any fun p => p.1 == v || p.2 == v) = false := by
    rw [List.any_map, List.any_eq_false]
    intro p hp
    obtain ⟨ha, hb⟩ := hl p hp
    simp only [Function.comp_def, ivRead_box ha, ivRead_box hb, Bool.or_eq_true, beq_iff_eq, not_or]
    exact ⟨fun e => hv _ _ e.symm, fun e => hv _ _ e.symm⟩
  have hfold (t : Seg) : (l.map fun p => ((ivRead p.1).1, (ivRead p.2).1)).foldl (fun a p => a.add (ivProdSeg p.1 p.2)) t = dotSeg l t := by
    rw [List.foldl_map, dotSeg]
    induction l generalizing t with
    | nil => rfl
    | cons p l ih =>
      obtain ⟨ha, hb⟩ := hl p List.mem_cons_self
      rw [List.foldl_cons, List.foldl_cons, ivProdSeg_box ha hb]
      exact ih (fun q hq => hl q (List.mem_cons_of_mem _ hq)) (fun v hv => by
        have := hnone v hv
        rw [List.map_cons, List.any_cons, Bool.or_eq_false_iff] at this
        exact this.2) _
  unfold ivDot
  simp only [hnone .nai (by simp), hnone .empty (by simp), hfold, Bool.false_eq_true, if_false]

theorem ivDot_nil : (ivDot []).bits = 0x0000000080000000 := by
  decide

/-- The interval of a dot product holds the sum of the products of any numbers of its operands. -/
theorem ivDot_inBox {l : List (ℕ × ℕ)} {q : List (ℝ × ℝ)} (h : List.Forall₂ (fun p v => Spec.inBox p.1 v.1 ∧ Spec.inBox p.2 v.2) l q)
    (hl : ∀ p ∈ l, Spec.isBox p.1 ∧ Spec.isBox p.2) : Spec.inBox (ivDot l).bits (q.map fun v => v.1 * v.2).sum := by
  have h0 : (⟨.fin 0, true, .fin 0, true⟩ : Seg).Around {v | v = 0} := (Seg.around ⟨0, Seg.zero_has.mpr rfl⟩).congr fun v => Seg.zero_has.symm
  obtain ⟨K, hK, hn, hsum⟩ := dotSeg_around l hl h0 ⟨0, rfl⟩
  have he : ivDot l = enc (some (dotSeg l ⟨.fin 0, true, .fin 0, true⟩)) := by
    rw [ivDot_box hl, enc, if_pos (hK.some? hn)]
  have hs := hsum 0 rfl q h
  rw [zero_add] at hs
  rw [he]
  exact (hK.encloses hn).enc.1.1 _ hs

theorem vidot_ends {s : State} {d : IvReg} {pa pb : PReg} {km : KReg} {inc : Bool} (hd : s.cur.ivState d ≠ .pending)
    (hr : Spec.rowsReady s [Spec.addr s pa, Spec.addr s pb] [] (bankTurns [Spec.addr s pa, Spec.addr s pb])) :
    let at_ (x i : ℕ) : ℕ := elem 64 ((s.core s.cur.core).row x) i
    let l := ((List.range 64).filter (Spec.on s km 64 64)).map fun i => (at_ (Spec.addr s pa) i, at_ (Spec.addr s pb) i)
    ∃ t, exec (.vidot d pa pb km inc) s = .next t ∧
      Spec.vecRetires s t { iv := [d] } [] 0 0 (Spec.anyOn s km fun i => (ivRead (at_ (Spec.addr s pa) i)).2 || (ivRead (at_ (Spec.addr s pb) i)).2)
        false false [(pa, inc), (pb, inc)] ∧
      (t.core s.cur.core).sp = (s.core s.cur.core).sp ∧ t.cur.ivVal d = BitVec.ofNat 64 (ivDot l).bits ∧ t.cur.ivState d = .full := by
  intro at_ l
  set c := s.cur.writeIv d (BitVec.ofNat 64 (ivDot l).bits)
  set e := (c.stepPs [(pa, inc), (pb, inc)]).advance 4
  set ni := Spec.anyOn s km fun i => (ivRead (at_ (Spec.addr s pa) i)).2 || (ivRead (at_ (Spec.addr s pb) i)).2
  have hkw : s.cur.keeps c { iv := [d] } [] [] := s.cur.keeps_writeIv d _
  have hks := Strand.keeps_trans (c.keeps_stepPs [(pa, inc), (pb, inc)]) ((c.stepPs [(pa, inc), (pb, inc)]).keeps_advance 4)
  have hctl : e.ctl = s.cur.ctl := (c.stepPs_ctl_pc [(pa, inc), (pb, inc)]).1
  have hid : e.ident = s.cur.ident := c.stepPs_advance_ident [(pa, inc), (pb, inc)]
  have hni : (l.any fun p => (ivRead p.1).2 || (ivRead p.2).2) = ni := List.any_map.trans (any_enabled _)
  have he : exec (.vidot d pa pb km inc) s = .next ((s.setCur (e.noteIst ni false false)).noteGang s.cur.ident.gang 0 false) := by
    refine (exec_vidot s d pa pb km inc).trans (run_ok ?_)
    simp only [needFree_iv _ _ hd, okUnit_bind]
    refine (vec_ready hr ?_).trans ?_
    · simp only [List.forall_mem_cons, List.not_mem_nil, false_imp_iff, implies_true, and_true, List.append_nil]
      exact ⟨List.mem_cons_self, List.mem_cons_of_mem _ List.mem_cons_self⟩
    · rw [← hid, ← hni]
      rfl
  obtain ⟨⟨-, -, -, hval, hstate, -⟩, -⟩ := hks
  refine ⟨_, he, vecRetires_of s.ownRows_refl hkw rfl rfl (fun _ => rfl) ?_, rfl, ?_, ?_⟩
  · rw [Strand.noteIst, hctl, satAdd_zero]
    simp only [BitVec.ofNat_eq_ofNat, BitVec.or_zero]
    rfl
  · simp only [State.noteGang_cur, State.cur_setCur]
    exact (hval d List.not_mem_nil).trans (Strand.ivVal_writeIv_same ..)
  · simp only [State.noteGang_cur, State.cur_setCur]
    exact (hstate d List.not_mem_nil List.not_mem_nil).trans (Strand.ivState_writeIv_same ..)

/-- R154, R155. -/
theorem vectorIntervalDotAndContractors : Spec.claimVectorIntervalDotAndContractors := by
  refine ⟨fun d pa pb km inc s => ?_, fun o s => ?_⟩
  · intro a b at_ odd hd hr
    obtain ⟨t, he, hv, hsp, hval, hst⟩ := vidot_ends (km := km) (inc := inc) hd hr
    refine ⟨t, _, he, hv, hsp, hval, hst, fun hoff => ?_, fun hbox x y hxy => ?_⟩
    · have hnil : (List.range 64).filter (Spec.on s km 64 64) = [] := List.filter_eq_nil_iff.mpr fun i _ => by simp [hoff i]
      rw [hnil, List.map_nil, ivDot_nil]
    · have hmem (i) (hi : i ∈ (List.range 64).filter (Spec.on s km 64 64)) : i < 64 ∧ Spec.on s km 64 64 i = true := by simpa using hi
      have hq := ivDot_inBox (l := ((List.range 64).filter (Spec.on s km 64 64)).map fun i => (at_ a i, at_ b i))
        (q := ((List.range 64).filter (Spec.on s km 64 64)).map fun i => (x i, y i))
        (by
          rw [List.forall₂_map_left_iff, List.forall₂_map_right_iff, List.forall₂_same]
          exact fun i hi => hxy i (hmem i hi).1 (hmem i hi).2)
        (List.forall_mem_map.mpr fun i hi => hbox i (hmem i hi).1 (hmem i hi).2)
      rw [List.map_map] at hq
      exact hq
  · intro x y z at_ on ends
    refine ⟨fun hr hxy hyz hxz => ?_, fun hr hxz => ?_⟩
    · have ha : ([x] ++ (some y).toList ++ [z]).Pairwise (· ≠ ·) := by simp [hxy, hyz, hxz]
      have h (i : Instr) (r : Rel) (he : exec i s = vctr r o.pd (some o.pa) o.pb o.k [(o.pd, o.incD), (o.pa, o.incA), (o.pb, o.incB)] s) :
          ends i [x, y, z] (tripleAt s r {} x (some y) z) [(o.pd, o.incD), (o.pa, o.incA), (o.pb, o.incB)] :=
        vctr_ends (x := x) (y := some y) (z := z) he rfl rfl rfl hr ha
      rw [List.forall_mem_cons, List.forall_mem_singleton]
      exact ⟨h _ _ (exec_vcadd o s), h _ _ (exec_vcmul o s)⟩
    · exact vctr_ends (py := none) (y := none) (exec_vcrelu ..) rfl rfl rfl hr (by simp [hxz])

/-- Settles O54: the rows are written element by element as the scalar operations leave them, and a dot product's ends are those of the exact sum of
the products' sets. -/
theorem vectorIntervalResults : Obligations.VectorIntervalResults := ⟨vectorIntervals, vectorIntervalDotAndContractors⟩

end Sys2Proof.Machine
end

section
/-! The fixed-point exponential (log 19): how far it lies from the real one. -/

namespace Sys2Proof.Machine

/-! ### Numbers in fixed point -/

/-- The number that a fixed-point value stands for. -/
noncomputable def fx (v : ℕ) : ℝ := v / 2 ^ 256

/-- The last place of a fixed-point value. -/
noncomputable def fxU : ℝ := 1 / 2 ^ 256

theorem fxU_pos : 0 < fxU := by unfold fxU; positivity

theorem fx_nonneg (v : ℕ) : 0 ≤ fx v := by unfold fx; positivity

theorem fxOne_eq : fxOne = 2 ^ 256 := rfl

theorem fx_one : fx fxOne = 1 := by
  rw [fx, fxOne_eq, Nat.cast_pow, Nat.cast_ofNat, div_self (by positivity)]

theorem fx_zero : fx 0 = 0 := by simp [fx]

theorem fx_add (a b : ℕ) : fx (a + b) = fx a + fx b := by
  rw [fx, Nat.cast_add, add_div]
  rfl

theorem fx_le {a b : ℕ} : fx a ≤ fx b ↔ a ≤ b := by
  rw [fx, fx, div_le_div_iff_of_pos_right (by positivity), Nat.cast_le]

/-- A quotient loses less than the last place. -/
theorem fx_div (a n : ℕ) : fx (a / n) ≤ fx a / n ∧ fx a / n - fxU ≤ fx (a / n) := by
  have h1 : ((a / n : ℕ) : ℝ) ≤ a / n := Nat.cast_div_le
  have h2 : (a : ℝ) / n - 1 ≤ ((a / n : ℕ) : ℝ) := by
    rw [← Nat.floor_div_eq_div (K := ℝ)]
    exact (Nat.sub_one_lt_floor _).le
  rw [fx, fx, fxU]
  constructor
  · rw [div_right_comm]
    exact div_le_div_of_nonneg_right h1 (by positivity)
  · rw [div_right_comm, ← sub_div]
    exact div_le_div_of_nonneg_right h2 (by positivity)

theorem fx_mul (a b : ℕ) : fx (fxMul a b) ≤ fx a * fx b ∧ fx a * fx b - fxU ≤ fx (fxMul a b) := by
  have h := fx_div (a * b) fxOne
  have e : fx (a * b) / (fxOne : ℕ) = fx a * fx b := by
    rw [fxOne_eq, fx, fx, fx]
    push_cast
    ring
  rwa [e] at h

/-! ### The series of the exponential -/

/-- The series stands below the exact terms, each by less than three last places. -/
theorem expSeries_bounds {r : ℕ} (hr : fx r ≤ 1 / 32) (k n term : ℕ) (h1 : fx term ≤ fx r ^ n / n.factorial)
    (h2 : fx r ^ n / n.factorial - 3 * fxU ≤ fx term) :
    fx (expSeries r k n term) ≤ ∑ j ∈ Finset.range k, fx r ^ (n + j) / (n + j).factorial ∧
      ∑ j ∈ Finset.range k, fx r ^ (n + j) / (n + j).factorial - 3 * k * fxU ≤ fx (expSeries r k n term) := by
  induction k generalizing n term with
  | zero => simp [expSeries, fx_zero]
  | succ k ih =>
    have hr0 := fx_nonneg r
    have hu := fxU_pos
    obtain ⟨m1, m2⟩ := fx_mul term r
    obtain ⟨d1, d2⟩ := fx_div (fxMul term r) (n + 1)
    have hn : (0 : ℝ) < (n : ℝ) + 1 := by positivity
    have hn1 : (1 : ℝ) ≤ (n : ℝ) + 1 := by linarith [(Nat.cast_nonneg n : (0 : ℝ) ≤ n)]
    have en : fx r ^ (n + 1) / ((n + 1).factorial : ℝ) = fx r ^ n / n.factorial * fx r / (n + 1) := by
      rw [Nat.factorial_succ, pow_succ]
      push_cast
      field_simp
    have t1 : fx (fxMul term r / (n + 1)) ≤ fx r ^ (n + 1) / (n + 1).factorial := by
      rw [en]
      refine d1.trans ?_
      push_cast
      exact div_le_div_of_nonneg_right (m1.trans (mul_le_mul_of_nonneg_right h1 hr0)) hn.le
    have t2 : fx r ^ (n + 1) / (n + 1).factorial - 3 * fxU ≤ fx (fxMul term r / (n + 1)) := by
      have a1 : fx r ^ n / n.factorial * fx r - (fxMul term r |> fx) ≤ 3 * fxU * (1 / 32) + fxU := by
        have : (fx r ^ n / n.factorial - fx term) * fx r ≤ 3 * fxU * (1 / 32) := mul_le_mul (by linarith) hr hr0 (by positivity)
        linarith
      have a2 : (fx r ^ n / n.factorial * fx r - fx (fxMul term r)) / (n + 1) ≤ 3 * fxU * (1 / 32) + fxU := by
        rw [div_le_iff₀ hn]
        refine a1.trans ?_
        have : 0 ≤ 3 * fxU * (1 / 32) + fxU := by positivity
        nlinarith
      rw [sub_div] at a2
      push_cast at d2
      rw [en]
      linarith
    obtain ⟨i1, i2⟩ := ih (n + 1) _ t1 t2
    have es : ∑ j ∈ Finset.range (k + 1), fx r ^ (n + j) / ((n + j).factorial : ℝ) =
        fx r ^ n / n.factorial + ∑ j ∈ Finset.range k, fx r ^ (n + 1 + j) / ((n + 1 + j).factorial : ℝ) := by
      rw [Finset.sum_range_succ', add_comm]
      simp only [add_zero, add_assoc, add_comm 1]
    rw [expSeries, fx_add, es]
    push_cast
    constructor <;> linarith

/-- The sum of forty terms, for an argument of at most 1/32. -/
theorem expSeries_near {r : ℕ} (hr : fx r ≤ 1 / 32) :
    fx (expSeries r 40 0 fxOne) ≤ Real.exp (fx r) ∧ Real.exp (fx r) - 121 * fxU ≤ fx (expSeries r 40 0 fxOne) := by
  have hr0 := fx_nonneg r
  have hu := fxU_pos
  obtain ⟨h1, h2⟩ := expSeries_bounds hr 40 0 fxOne (by simp [fx_one]) (by simp [fx_one, hu.le])
  simp only [zero_add] at h1 h2
  refine ⟨h1.trans (Real.sum_le_exp_of_nonneg hr0 40), ?_⟩
  have ht := Real.exp_bound' hr0 (hr.trans (by norm_num)) (n := 40) (by norm_num)
  have htail : fx r ^ 40 * ((40 : ℕ) + 1) / (Nat.factorial 40 * (40 : ℕ)) ≤ fxU := by
    have hp : fx r ^ 40 ≤ 1 / 2 ^ 200 := (pow_le_pow_left₀ hr0 hr 40).trans_eq (by norm_num)
    have hf : ((40 : ℕ) + 1) / (Nat.factorial 40 * (40 : ℕ)) ≤ (1 : ℝ) / 2 ^ 56 := by norm_num [Nat.factorial]
    rw [mul_div_assoc]
    refine (mul_le_mul hp hf (by positivity) (by positivity)).trans_eq ?_
    rw [fxU]
    norm_num
  push_cast at h2
  linarith

/-! ### The squares, and the exponential -/

/-- `v` stands for at most `y`, and for less by at most the part `d` of it. -/
def Just (v : ℕ) (y d : ℝ) : Prop := fx v ≤ y ∧ y * (1 - d) ≤ fx v

theorem Just.square {v : ℕ} {y d : ℝ} (h : Just v y d) (hy : 1 ≤ y) (hd0 : 0 ≤ d) (hd : d ≤ 1) : Just (fxMul v v) (y ^ 2) (2 * d + fxU) := by
  obtain ⟨h1, h2⟩ := h
  obtain ⟨m1, m2⟩ := fx_mul v v
  have hu := fxU_pos
  have hv := fx_nonneg v
  have hyd : 0 ≤ y * (1 - d) := mul_nonneg (by linarith) (by linarith)
  have hy2 : 1 ≤ y ^ 2 := one_le_pow₀ hy
  constructor
  · refine m1.trans ?_
    rw [pow_two]
    exact mul_le_mul h1 h1 hv (by linarith)
  · have hsq : y * (1 - d) * (y * (1 - d)) ≤ fx v * fx v := mul_le_mul h2 h2 hyd hv
    have : y ^ 2 * (1 - (2 * d + fxU)) ≤ y * (1 - d) * (y * (1 - d)) - fxU := by nlinarith [mul_nonneg (sq_nonneg y) (sq_nonneg d)]
    linarith

theorem Just.squares {v : ℕ} {y d : ℝ} (k : ℕ) (h : Just v y d) (hy : 1 ≤ y) (hd0 : 0 ≤ d) (hd : 2 ^ k * (d + fxU) ≤ 1) :
    Just (fxSquares k v) (y ^ 2 ^ k) (2 ^ k * (d + fxU)) := by
  have hu := fxU_pos
  induction k generalizing v y d with
  | zero =>
    refine ⟨by simpa [fxSquares] using h.1, le_trans ?_ (by simpa [fxSquares] using h.2)⟩
    have : 0 ≤ y * fxU := by positivity
    simp only [pow_zero, pow_one, one_mul]
    linarith
  | succ k ih =>
    have hk : (1 : ℝ) ≤ 2 ^ k := one_le_pow₀ one_le_two
    have hd1 : d ≤ 1 := by
      rw [pow_succ] at hd
      nlinarith
    have h' := ih (h.square hy hd0 hd1) (one_le_pow₀ hy) (by positivity) (by rw [pow_succ] at hd; linarith)
    rw [fxSquares, pow_succ 2 k, mul_comm (2 ^ k) 2, pow_mul, show 2 ^ (k + 1) * (d + fxU) = 2 ^ k * (2 * d + fxU + fxU) by ring]
    exact h'

/-- The exponential of a fixed-point value from 0 to 128. -/
theorem fxExp_just {x : ℕ} (hx : fx x ≤ 128) : Just (fxExp x) (Real.exp (fx x)) (1 / 2 ^ 236) := by
  have hu := fxU_pos
  obtain ⟨r1, r2⟩ := fx_div x (2 ^ 12)
  rw [Nat.cast_pow, Nat.cast_ofNat] at r1 r2
  have hr : fx (x / 2 ^ 12) ≤ 1 / 32 := by linarith
  obtain ⟨s1, s2⟩ := expSeries_near hr
  set y := Real.exp (fx x / 2 ^ 12) with hy
  have hy1 : 1 ≤ y := Real.one_le_exp (div_nonneg (fx_nonneg x) (by positivity))
  have hle : Real.exp (fx (x / 2 ^ 12)) ≤ y := Real.exp_le_exp.mpr r1
  have hge : y - y * fxU ≤ Real.exp (fx (x / 2 ^ 12)) := by
    have h1 : y * Real.exp (-fxU) ≤ Real.exp (fx (x / 2 ^ 12)) := by
      rw [hy, ← Real.exp_add]
      exact Real.exp_le_exp.mpr (by linarith)
    have h2 : 1 - fxU ≤ Real.exp (-fxU) := by linarith [Real.add_one_le_exp (-fxU)]
    nlinarith
  have hj : Just (expSeries (x / 2 ^ 12) 40 0 fxOne) y (122 * fxU) := by
    refine ⟨s1.trans hle, ?_⟩
    have : 121 * fxU ≤ 121 * fxU * y := le_mul_of_one_le_right (by positivity) hy1
    linarith
  have hd : (2 : ℝ) ^ 12 * (122 * fxU + fxU) ≤ 1 / 2 ^ 236 := by rw [fxU]; norm_num
  obtain ⟨f1, f2⟩ := hj.squares 12 hy1 (by positivity) (hd.trans (by norm_num))
  have ey : y ^ 2 ^ 12 = Real.exp (fx x) := by
    rw [hy, ← Real.exp_nat_mul]
    congr 1
    push_cast
    ring
  rw [ey] at f1 f2
  exact ⟨f1, (mul_le_mul_of_nonneg_left (by linarith) (Real.exp_pos _).le).trans f2⟩

end Sys2Proof.Machine
end

section
/-! Numbers near each other round alike where no rounding turns between them; the exponential rounded. -/

namespace Sys2Proof.Machine

/-! ### Rounding alike -/

section
variable {f : FF} {a b : ℝ}

/-- Numbers between which no point lies where a rounding turns round alike. -/
theorem FF.Alike.of_apart (h : ∀ (n : ℕ) (k : ℤ), 0 < n → n ≤ 2 ^ (f.fb + 2) → f.emin - f.fb - 2 ≤ k → (n : ℝ) * 2 ^ k ≤ 2 ^ (f.emax + 1) →
    (n : ℝ) * 2 ^ k < min a b ∨ max a b < n * 2 ^ k) : f.Alike a b := by
  intro n k h1 h2 h3 h4
  rcases h n k h1 h2 h3 h4 with h | h
  · obtain ⟨ha, hb⟩ := lt_min_iff.mp h
    exact ⟨iff_of_true ha.le hb.le, iff_of_false (not_le.mpr ha) (not_le.mpr hb)⟩
  · obtain ⟨ha, hb⟩ := max_lt_iff.mp h
    exact ⟨iff_of_false (not_le.mpr ha) (not_le.mpr hb), iff_of_true ha.le hb.le⟩

theorem FF.Alike.of_large (ha : 2 ^ (f.emax + 1) < a) (hb : 2 ^ (f.emax + 1) < b) : f.Alike a b :=
  .of_apart fun _ _ _ _ _ h => .inl (h.trans_lt (lt_min ha hb))

theorem FF.Alike.of_small (ha : a < 2 ^ (f.emin - f.fb - 2)) (hb : b < 2 ^ (f.emin - f.fb - 2)) : f.Alike a b :=
  .of_apart fun n k hn _ hk _ => .inr <| (max_lt ha hb).trans_le <| (zpow_le_of_le hk).trans <|
    le_mul_of_one_le_left (two_zpow_pos k).le (by exact_mod_cast hn)

theorem clear_abs {x : ℝ} (h : Spec.clear x) {n : ℕ} {k : ℤ} (hn : 0 < n) (hn' : n ≤ 2 ^ 26) (hk : -152 ≤ k) :
    (2 : ℝ) ^ (-200 : ℤ) * max 1 |x| < |(|x|) - n * 2 ^ k| := by
  rcases abs_cases x with ⟨hx, -⟩ | ⟨hx, -⟩
  · have := h n k (by omega) (by rw [Nat.abs_cast]; exact_mod_cast hn') hk
    rw [hx] at this ⊢
    exact_mod_cast this
  · have := h (-n) k (by omega) (by rw [abs_neg, Nat.abs_cast]; exact_mod_cast hn') hk
    rw [hx] at this ⊢
    rw [show -x - (n : ℝ) * 2 ^ k = -(x - ((-(n : ℤ) : ℤ) : ℝ) * 2 ^ k) by push_cast; ring, abs_neg]
    exact this

/-- A number near a clear one rounds as it does. -/
theorem FF.Alike.of_clear (hf : f.Narrow) {x y : ℝ} (hx : Spec.clear x) (h : |y - (|x|)| ≤ (2 : ℝ) ^ (-200 : ℤ) * max 1 |x|) : f.Alike |x| y := by
  refine .of_apart fun n k hn hn' hk _ => ?_
  have hlow := hf.low
  have hc := clear_abs hx hn (k := k) (hn'.trans (Nat.pow_le_pow_right two_pos (by have := hf.fb; omega))) (by omega)
  have htol : (0 : ℝ) ≤ 2 ^ (-200 : ℤ) * max 1 |x| := by positivity
  obtain ⟨h1, h2⟩ := abs_le.mp h
  rcases lt_abs.mp hc with hc | hc
  · exact .inl (lt_min (by linarith) (by linarith))
  · exact .inr (max_lt (by linarith) (by linarith))

end

/-! ### Fixed-point results rounded -/

theorem roundFx_value (v : ℕ) : ((2 * v + 1 : ℕ) : ℝ) * 2 ^ (-(fxBits : ℤ) - 1) = fx v + fxU / 2 := by
  rw [show -(fxBits : ℤ) - 1 = -(257 : ℕ) by rfl, zpow_neg, zpow_natCast, fx, fxU]
  push_cast
  field_simp

theorem FF.roundFx_rounds {f : FF} {a : ℝ} {v : ℕ} (ha : 0 < a) (h : f.Alike a (fx v + fxU / 2)) (rm : RM) (neg : Bool) :
    Spec.rounds f rm false (signedReal neg a) (f.roundFx rm neg v) := by
  rw [← roundFx_value] at h
  exact h.rounds ha (by omega)

/-! ### The exponential -/

/-- A fixed-point value of a magnitude, from below. -/
theorem fxOf_near (m : ℕ) (e : ℤ) : fx (fxOf m e) ≤ m * 2 ^ e ∧ m * 2 ^ e - fxU ≤ fx (fxOf m e) := by
  have hu := fxU_pos
  unfold fxOf
  split
  · next h =>
    have e1 : fx (m * 2 ^ (e + fxBits).toNat) = m * 2 ^ e := by
      rw [fx, Nat.cast_mul, Nat.cast_pow, Nat.cast_ofNat, ← zpow_natCast, Int.toNat_of_nonneg h, zpow_add₀ two_ne_zero, zpow_natCast,
        show fxBits = 256 from rfl]
      field_simp
    rw [e1]
    constructor <;> linarith
  · next h =>
    have h1 := fx_div m (2 ^ (-(e + fxBits)).toNat)
    have e1 : fx m / ((2 ^ (-(e + fxBits)).toNat : ℕ) : ℝ) = m * 2 ^ e := by
      rw [fx, Nat.cast_pow, Nat.cast_ofNat, ← zpow_natCast 2 (Int.toNat _), Int.toNat_of_nonneg (by omega), zpow_neg, zpow_add₀ two_ne_zero,
        zpow_natCast, show fxBits = 256 from rfl]
      field_simp
    rwa [e1] at h1

/-- The magnitude that the exponential is taken of. -/
theorem fxClamp_near {m : ℕ} (hm : 0 < m) (e : ℤ) :
    let x := min (if decide (e + m.log2 < 7) || m = 0 then fxOf m e else 128 * fxOne) (128 * fxOne)
    fx x ≤ min ((m : ℝ) * 2 ^ e) 128 ∧ min ((m : ℝ) * 2 ^ e) 128 - fxU ≤ fx x := by
  intro x
  have hu := fxU_pos
  have h128 : fx (128 * fxOne) = 128 := by
    rw [fx, Nat.cast_mul, mul_div_assoc, ← fx, fx_one]
    norm_num
  by_cases h : e + m.log2 < 7
  · have hlt : (m : ℝ) * 2 ^ e < 128 := (lt_two_zpow_log2 m e).trans_le ((zpow_le_of_le (show e + m.log2 + 1 ≤ (7 : ℤ) by omega)).trans_eq (by norm_num))
    obtain ⟨f1, f2⟩ := fxOf_near m e
    have hx : x = fxOf m e := by
      have : fxOf m e ≤ 128 * fxOne := fx_le.mp (by rw [h128]; linarith)
      simp only [x, h, decide_true, Bool.true_or, if_true]
      exact min_eq_left this
    rw [hx, min_eq_left hlt.le]
    exact ⟨f1, f2⟩
  · have hge : (128 : ℝ) ≤ m * 2 ^ e := le_trans (le_of_eq_of_le (by norm_num) (zpow_le_of_le (show (7 : ℤ) ≤ e + m.log2 by omega))) (two_zpow_log2_le hm e)
    have hx : x = 128 * fxOne := by simp [x, h, hm.ne']
    rw [hx, h128, min_eq_right hge]
    constructor <;> linarith

theorem exp_sub_le {a b d : ℝ} (h : a - d ≤ b) : Real.exp a * (1 - d) ≤ Real.exp b := by
  have h1 : Real.exp a * Real.exp (-d) ≤ Real.exp b := by
    rw [← Real.exp_add]
    exact Real.exp_le_exp.mpr (by linarith)
  have h2 : 1 - d ≤ Real.exp (-d) := by linarith [Real.add_one_le_exp (-d)]
  exact (mul_le_mul_of_nonneg_left h2 (Real.exp_pos a).le).trans h1

/-- The exponential of a signed magnitude, taken within ±128. -/
theorem fxExpOf_near (neg : Bool) {m : ℕ} (hm : 0 < m) (e : ℤ) :
    |fx (fxExpOf neg m e) - Real.exp (signedReal neg (min (m * 2 ^ e) 128))| ≤ 1 / 2 ^ 232 * max 1 (Real.exp (signedReal neg (min (m * 2 ^ e) 128))) := by
  obtain ⟨x1, x2⟩ := fxClamp_near hm e
  set x := min (if decide (e + m.log2 < 7) || m = 0 then fxOf m e else 128 * fxOne) (128 * fxOne) with hx
  set a := min ((m : ℝ) * 2 ^ e) 128 with ha
  have hu := fxU_pos
  have hu' : fxU ≤ 1 / 2 ^ 236 := by rw [fxU]; norm_num
  obtain ⟨e1, e2⟩ := fxExp_just (x := x) (x1.trans (min_le_right _ _))
  have g1 : fx (fxExp x) ≤ Real.exp a := e1.trans (Real.exp_le_exp.mpr x1)
  have g2 : Real.exp a * (1 - 1 / 2 ^ 235) ≤ fx (fxExp x) := by
    refine le_trans ?_ e2
    have h1 := exp_sub_le x2
    have h3 : Real.exp a * (1 - fxU) * (1 - 1 / 2 ^ 236) ≤ Real.exp (fx x) * (1 - 1 / 2 ^ 236) := mul_le_mul_of_nonneg_right h1 (by norm_num)
    refine le_trans ?_ h3
    rw [mul_assoc]
    refine mul_le_mul_of_nonneg_left ?_ (Real.exp_pos a).le
    nlinarith
  have hpos : 0 < fx (fxExp x) := lt_of_lt_of_le (mul_pos (Real.exp_pos a) (by norm_num)) g2
  unfold fxExpOf
  simp only [← hx]
  cases neg
  · simp only [Bool.false_eq_true, if_false, signedReal]
    have hm1 : Real.exp a ≤ max 1 (Real.exp a) := le_max_right _ _
    rw [abs_le]
    constructor
    · nlinarith [Real.exp_pos a]
    · nlinarith [Real.exp_pos a]
  · simp only [if_true, signedReal]
    have hE0 : 0 < Real.exp (-a) := Real.exp_pos _
    have hinv : Real.exp (-a) * Real.exp a = 1 := by rw [← Real.exp_add, neg_add_cancel, Real.exp_zero]
    obtain ⟨d1, d2⟩ := fx_div (fxOne * fxOne) (fxExp x)
    have eq : fx (fxOne * fxOne) / (fxExp x : ℝ) = 1 / fx (fxExp x) := by
      rw [fx, fx, fxOne_eq, Nat.cast_mul, Nat.cast_pow, Nat.cast_ofNat]
      field_simp
    rw [eq] at d1 d2
    have u1 : Real.exp (-a) ≤ 1 / fx (fxExp x) := by
      rw [le_div_iff₀ hpos, ← hinv]
      exact mul_le_mul_of_nonneg_left g1 hE0.le
    have u2 : 1 / fx (fxExp x) ≤ Real.exp (-a) * (1 + 1 / 2 ^ 234) := by
      rw [div_le_iff₀ hpos]
      have h3 : Real.exp (-a) * (1 + 1 / 2 ^ 234) * (Real.exp a * (1 - 1 / 2 ^ 235)) ≤ Real.exp (-a) * (1 + 1 / 2 ^ 234) * fx (fxExp x) :=
        mul_le_mul_of_nonneg_left g2 (by positivity)
      refine le_trans ?_ h3
      rw [show Real.exp (-a) * (1 + 1 / 2 ^ 234) * (Real.exp a * (1 - 1 / 2 ^ 235)) =
        (Real.exp (-a) * Real.exp a) * ((1 + 1 / 2 ^ 234) * (1 - 1 / 2 ^ 235)) by ring, hinv]
      norm_num
    have hm1 : Real.exp (-a) ≤ max 1 (Real.exp (-a)) := le_max_right _ _
    have hm2 : 1 ≤ max 1 (Real.exp (-a)) := le_max_left _ _
    rw [abs_le]
    constructor
    · nlinarith
    · nlinarith

theorem exp_128 : (2 : ℝ) ^ 160 ≤ Real.exp 128 := by
  have h : (2.7 : ℝ) ≤ Real.exp 1 := le_trans (by norm_num) Real.exp_one_gt_d9.le
  calc (2 : ℝ) ^ 160 ≤ 2.7 ^ 128 := by norm_num
    _ ≤ Real.exp 1 ^ 128 := pow_le_pow_left₀ (by norm_num) h _
    _ = Real.exp 128 := by rw [← Real.exp_nat_mul]; norm_num

theorem exp_neg_128 : Real.exp (-128) ≤ 1 / 2 ^ 160 := by
  rw [Real.exp_neg, one_div]
  exact inv_anti₀ (by positivity) exp_128

/-- The exponential, rounded. -/
theorem FF.expV_rounds {f : FF} (hf : f.Narrow) (rm : RM) (neg : Bool) {m : ℕ} (hm : 0 < m) (e : ℤ) (hc : Spec.clear (Real.exp (signedReal neg (m * 2 ^ e)))) :
    Spec.rounds f rm false (Real.exp (signedReal neg (m * 2 ^ e))) (f.expV rm neg m e) := by
  have hu := fxU_pos
  have hu' : fxU ≤ 1 / 2 ^ 236 := by rw [fxU]; norm_num
  have hnear := fxExpOf_near neg hm e
  have h0 : signedReal false (Real.exp (signedReal neg (m * 2 ^ e))) = Real.exp (signedReal neg (m * 2 ^ e)) := rfl
  rw [FF.expV, if_neg hm.ne', ← h0]
  refine FF.roundFx_rounds (Real.exp_pos _) ?_ rm false
  rcases le_or_gt ((m : ℝ) * 2 ^ e) 128 with h | h
  · rw [min_eq_left h] at hnear
    have hx0 := Real.exp_pos (signedReal neg (m * 2 ^ e))
    have := FF.Alike.of_clear hf hc (y := fx (fxExpOf neg m e) + fxU / 2)
    rw [abs_of_pos hx0] at this
    refine this ?_
    rw [show (2 : ℝ) ^ (-200 : ℤ) = 1 / 2 ^ 200 by norm_num]
    have hm1 : 1 ≤ max 1 (Real.exp (signedReal neg (m * 2 ^ e))) := le_max_left _ _
    obtain ⟨h1, h2⟩ := abs_le.mp hnear
    rw [abs_le]
    constructor <;> nlinarith
  · rw [min_eq_right h.le] at hnear
    obtain ⟨h1, h2⟩ := abs_le.mp hnear
    cases neg
    · have hbig := exp_128
      have hlt : Real.exp 128 < Real.exp (m * 2 ^ e) := Real.exp_lt_exp.mpr h
      have hp : (2 : ℝ) ^ (f.emax + 1) ≤ 2 ^ (128 : ℕ) := (zpow_le_of_le (by have := hf.high; omega)).trans_eq (zpow_natCast 2 128)
      simp only [signedReal, Bool.false_eq_true, if_false] at h1 h2 ⊢
      rw [max_eq_right (by linarith)] at h1
      refine .of_large (by linarith) ?_
      linarith
    · have hsmall := exp_neg_128
      have hlt : Real.exp (-(m * 2 ^ e)) < Real.exp (-128) := Real.exp_lt_exp.mpr (neg_lt_neg h)
      have hp : (1 / 2 ^ (151 : ℕ) : ℝ) ≤ 2 ^ (f.emin - f.fb - 2) := le_trans (by norm_num) (zpow_le_of_le (show (-151 : ℤ) ≤ _ by have := hf.low; omega))
      simp only [signedReal, if_true] at h1 h2 ⊢
      rw [max_eq_left (by linarith)] at h2
      refine .of_small (by linarith) ?_
      linarith

end Sys2Proof.Machine
end

section
/-! The fixed-point logarithm (log 19), and the logarithm rounded. -/

namespace Sys2Proof.Machine

/-! ### The series of the inverse hyperbolic tangent -/

/-- The series stands below the exact terms, each by less than four last places. -/
theorem atanhSeries_bounds {t2 : ℕ} {T : ℝ} (hT0 : 0 ≤ T) (hT : T ≤ 1 / 3) (h1 : fx t2 ≤ T ^ 2) (h2 : T ^ 2 - 2 * fxU ≤ fx t2) (k n p : ℕ)
    (p1 : fx p ≤ T ^ (2 * n + 1)) (p2 : T ^ (2 * n + 1) - 3 * fxU ≤ fx p) :
    fx (atanhSeries t2 k n p) ≤ ∑ j ∈ Finset.range k, T ^ (2 * (n + j) + 1) / (2 * ((n + j : ℕ) : ℝ) + 1) ∧
      ∑ j ∈ Finset.range k, T ^ (2 * (n + j) + 1) / (2 * ((n + j : ℕ) : ℝ) + 1) - 4 * k * fxU ≤ fx (atanhSeries t2 k n p) := by
  induction k generalizing n p with
  | zero => simp [atanhSeries, fx_zero]
  | succ k ih =>
    have hu := fxU_pos
    have hp0 := fx_nonneg p
    have ht0 := fx_nonneg t2
    obtain ⟨m1, m2⟩ := fx_mul p t2
    obtain ⟨d1, d2⟩ := fx_div p (2 * n + 1)
    push_cast at d1 d2
    have hn : (1 : ℝ) ≤ 2 * n + 1 := by linarith [(Nat.cast_nonneg n : (0 : ℝ) ≤ n)]
    have hP : T ^ (2 * n + 1) ≤ 1 / 3 := by
      rw [pow_succ]
      exact (mul_le_mul (pow_le_one₀ hT0 (by linarith)) hT hT0 one_pos.le).trans_eq (one_mul _)
    have hT2 : T ^ 2 ≤ 1 / 9 := (pow_le_pow_left₀ hT0 hT 2).trans_eq (by norm_num)
    have en : T ^ (2 * (n + 1) + 1) = T ^ (2 * n + 1) * T ^ 2 := by ring
    have q1 : fx (fxMul p t2) ≤ T ^ (2 * (n + 1) + 1) := by
      rw [en]
      exact m1.trans (mul_le_mul p1 h1 ht0 (by positivity))
    have q2 : T ^ (2 * (n + 1) + 1) - 3 * fxU ≤ fx (fxMul p t2) := by
      have a1 : T ^ (2 * n + 1) * (T ^ 2 - fx t2) ≤ 1 / 3 * (2 * fxU) := mul_le_mul hP (by linarith) (by linarith) (by norm_num)
      have a2 : (T ^ (2 * n + 1) - fx p) * fx t2 ≤ 3 * fxU * (1 / 9) := mul_le_mul (by linarith) (by linarith) ht0 (by positivity)
      rw [en]
      linarith
    have t1 : fx (p / (2 * n + 1)) ≤ T ^ (2 * n + 1) / (2 * n + 1) := d1.trans (div_le_div_of_nonneg_right p1 (by linarith))
    have t2 : T ^ (2 * n + 1) / (2 * n + 1) - 4 * fxU ≤ fx (p / (2 * n + 1)) := by
      have : (T ^ (2 * n + 1) - fx p) / (2 * n + 1) ≤ 3 * fxU := (div_le_self (by linarith) hn).trans (by linarith)
      rw [sub_div] at this
      linarith
    obtain ⟨i1, i2⟩ := ih (n + 1) _ q1 q2
    have es : ∑ j ∈ Finset.range (k + 1), T ^ (2 * (n + j) + 1) / (2 * ((n + j : ℕ) : ℝ) + 1) =
        T ^ (2 * n + 1) / (2 * n + 1) + ∑ j ∈ Finset.range k, T ^ (2 * (n + 1 + j) + 1) / (2 * ((n + 1 + j : ℕ) : ℝ) + 1) := by
      rw [Finset.sum_range_succ', add_comm]
      simp only [add_zero, add_assoc, add_comm 1]
    rw [atanhSeries, fx_add, es]
    push_cast at i1 i2 ⊢
    constructor <;> linarith

/-- The logarithm of a fixed-point value from 1 to 2. -/
theorem fxLn1_near {f : ℕ} (h1 : 1 ≤ fx f) (h2 : fx f ≤ 2) : fx (fxLn1 f) ≤ Real.log (fx f) ∧ Real.log (fx f) - 700 * fxU ≤ fx (fxLn1 f) := by
  have hu := fxU_pos
  set T := (fx f - 1) / (fx f + 1) with hTdef
  have hF : 0 < fx f + 1 := by linarith
  have hT0 : 0 ≤ T := div_nonneg (by linarith) hF.le
  have hT : T ≤ 1 / 3 := by rw [hTdef, div_le_div_iff₀ hF (by norm_num)]; linarith
  have hlog : 1 / 2 * Real.log ((1 + T) / (1 - T)) = 1 / 2 * Real.log (fx f) := by
    congr 2
    rw [hTdef]
    field_simp
    ring
  set t := (f - fxOne) * fxOne / (f + fxOne) with htdef
  have ht : fx t ≤ T ∧ T - fxU ≤ fx t := by
    have h := fx_div ((f - fxOne) * fxOne) (f + fxOne)
    have hle : fxOne ≤ f := fx_le.mp (by rw [fx_one]; exact h1)
    have e : fx ((f - fxOne) * fxOne) / ((f + fxOne : ℕ) : ℝ) = T := by
      rw [hTdef, fx, fx, fxOne_eq] at *
      rw [Nat.cast_mul, Nat.cast_sub hle, Nat.cast_add, Nat.cast_pow, Nat.cast_ofNat]
      field_simp
    rwa [e] at h
  obtain ⟨t1, t2⟩ := ht
  have ht0 := fx_nonneg t
  obtain ⟨m1, m2⟩ := fx_mul t t
  have s1 : fx (fxMul t t) ≤ T ^ 2 := m1.trans (by rw [pow_two]; exact mul_le_mul t1 t1 ht0 hT0)
  have s2 : T ^ 2 - 2 * fxU ≤ fx (fxMul t t) := by
    have : (T - fx t) * (T + fx t) ≤ fxU * (2 / 3) := mul_le_mul (by linarith) (by linarith) (by linarith) hu.le
    nlinarith
  obtain ⟨a1, a2⟩ := atanhSeries_bounds hT0 hT s1 s2 85 0 t (by simpa using t1) (by simp; linarith)
  simp only [zero_add] at a1 a2
  have b1 := Real.sum_range_le_log_div hT0 (by linarith) 85
  have b2 := Real.log_div_le_sum_range_add hT0 (by linarith) 85
  rw [hlog] at b1 b2
  have htail : T ^ (2 * 85 + 1) / (1 - T ^ 2) ≤ fxU := by
    have hT2 : T ^ 2 ≤ 1 / 9 := (pow_le_pow_left₀ hT0 hT 2).trans_eq (by norm_num)
    have hp : T ^ (2 * 85 + 1) ≤ (1 / 3) ^ 171 := pow_le_pow_left₀ hT0 hT 171
    rw [div_le_iff₀ (by linarith)]
    refine hp.trans ((show (1 / 3 : ℝ) ^ 171 ≤ fxU * (8 / 9) by rw [fxU]; norm_num).trans ?_)
    exact mul_le_mul_of_nonneg_left (by linarith) hu.le
  have ed : fx (fxLn1 f) = 2 * fx (atanhSeries (fxMul t t) 85 0 t) := by
    rw [fxLn1, ← htdef, two_mul, fx_add, ← two_mul]
  rw [ed]
  push_cast at a1 a2
  constructor <;> linarith

/-! ### The logarithm -/

/-- The number that a signed fixed-point value stands for. -/
noncomputable def fxInt (v : ℤ) : ℝ := v / 2 ^ 256

theorem fx_natAbs (v : ℤ) : fx v.natAbs = |fxInt v| := by
  rw [fx, fxInt, abs_div, abs_of_pos (show (0 : ℝ) < 2 ^ 256 by positivity), Nat.cast_natAbs, Int.cast_abs]

theorem log_sub_le {a b : ℝ} (hb : 1 ≤ b) (h : b ≤ a) : Real.log a - Real.log b ≤ a - b := by
  have hb0 : 0 < b := by linarith
  rw [← Real.log_div (by linarith) hb0.ne']
  calc Real.log (a / b) ≤ a / b - 1 := Real.log_le_sub_one_of_pos (div_pos (by linarith) hb0)
    _ = (a - b) / b := by field_simp
    _ ≤ a - b := div_le_self (by linarith) hb

/-- The logarithm of a magnitude, from the exponent and from the significand between 1 and 2. -/
theorem log_mul_zpow {m : ℕ} (hm : 0 < m) (e : ℤ) :
    Real.log (m * 2 ^ e) = (e + m.log2 : ℤ) * Real.log 2 + Real.log (m / 2 ^ m.log2) := by
  have h0 : (m : ℝ) ≠ 0 := by exact_mod_cast hm.ne'
  rw [Real.log_mul h0 (zpow_ne_zero _ two_ne_zero), Real.log_zpow, Real.log_div h0 (pow_ne_zero _ two_ne_zero), Real.log_pow]
  push_cast
  ring

theorem fxLn_near {m : ℕ} (hm : 0 < m) {e : ℤ} (he : |e + m.log2| ≤ 200) : |fxInt (fxLn m e) - Real.log (m * 2 ^ e)| ≤ 1 / 2 ^ 236 := by
  have hu := fxU_pos
  have h2 : fx (2 * fxOne) = 2 := by rw [two_mul, fx_add, fx_one]; norm_num
  obtain ⟨l1, l2⟩ := fxLn1_near (f := 2 * fxOne) (by rw [h2]; norm_num) h2.le
  rw [h2] at l1 l2
  set F := m * fxOne / 2 ^ m.log2 with hF
  have hs1 : (1 : ℝ) ≤ m / 2 ^ m.log2 := by
    rw [le_div_iff₀ (by positivity), one_mul]
    exact_mod_cast Nat.log2_self_le hm.ne'
  have hs2 : (m : ℝ) / 2 ^ m.log2 ≤ 2 := by
    rw [div_le_iff₀ (by positivity), ← pow_succ']
    exact_mod_cast Nat.lt_log2_self.le
  have hFn := fx_div (m * fxOne) (2 ^ m.log2)
  have e1 : fx (m * fxOne) / ((2 ^ m.log2 : ℕ) : ℝ) = m / 2 ^ m.log2 := by
    rw [fx, Nat.cast_mul, mul_div_assoc, ← fx, fx_one, mul_one, Nat.cast_pow, Nat.cast_ofNat]
  rw [e1, ← hF] at hFn
  obtain ⟨f1, f2⟩ := hFn
  have hF1 : 1 ≤ fx F := by
    rw [← fx_one, fx_le, hF, Nat.le_div_iff_mul_le (by positivity), mul_comm]
    exact Nat.mul_le_mul_right _ (Nat.log2_self_le hm.ne')
  obtain ⟨g1, g2⟩ := fxLn1_near hF1 (f1.trans hs2)
  have g3 : Real.log (fx F) ≤ Real.log (m / 2 ^ m.log2) := Real.log_le_log (by linarith) f1
  have g4 := log_sub_le hF1 f1
  have hsum : fxInt (fxLn m e) = (e + m.log2 : ℤ) * fx (fxLn1 (2 * fxOne)) + fx (fxLn1 F) := by
    rw [fxInt, fxLn, fx, fx]
    push_cast
    ring
  have hk : |((e + m.log2 : ℤ) : ℝ)| ≤ 200 := by exact_mod_cast he
  have hA : |((e + m.log2 : ℤ) : ℝ) * (fx (fxLn1 (2 * fxOne)) - Real.log 2)| ≤ 200 * (700 * fxU) := by
    rw [abs_mul]
    exact mul_le_mul hk (abs_le.mpr ⟨by linarith, by linarith⟩) (abs_nonneg _) (by norm_num)
  have hB : |fx (fxLn1 F) - Real.log (m / 2 ^ m.log2)| ≤ 701 * fxU := abs_le.mpr ⟨by linarith, by linarith⟩
  rw [hsum, log_mul_zpow hm, show ((e + m.log2 : ℤ) : ℝ) * fx (fxLn1 (2 * fxOne)) + fx (fxLn1 F) - ((e + m.log2 : ℤ) * Real.log 2 + Real.log (m / 2 ^ m.log2)) =
    ((e + m.log2 : ℤ) : ℝ) * (fx (fxLn1 (2 * fxOne)) - Real.log 2) + (fx (fxLn1 F) - Real.log (m / 2 ^ m.log2)) by ring]
  refine (abs_add_le _ _).trans ((add_le_add hA hB).trans ?_)
  rw [fxU]
  norm_num

/-- Numbers of 24 bits other than 1 keep away from it. -/
theorem log_away {m : ℕ} (hm : 0 < m) (hm' : m < 2 ^ 24) {e : ℤ} (h1 : (m : ℝ) * 2 ^ e ≠ 1) : (1 / 2 ^ 25 : ℝ) ≤ |Real.log (m * 2 ^ e)| := by
  have hx : 0 < (m : ℝ) * 2 ^ e := mul_pos (by exact_mod_cast hm) (two_zpow_pos e)
  have hfar : (m : ℝ) * 2 ^ e ≤ 1 - 1 / 2 ^ 24 ∨ 1 + 1 / 2 ^ 24 ≤ (m : ℝ) * 2 ^ e := by
    rcases lt_or_ge e (-24) with he | he
    · left
      have hm2 : (m : ℝ) ≤ 2 ^ 24 := by exact_mod_cast hm'.le
      have h2 : (2 : ℝ) ^ e ≤ 2 ^ (-25 : ℤ) := zpow_le_of_le (by omega)
      refine (mul_le_mul hm2 h2 (two_zpow_pos e).le (by norm_num)).trans ?_
      norm_num
    · obtain ⟨j, hj⟩ : ∃ j : ℕ, e + 24 = j := ⟨(e + 24).toNat, by omega⟩
      have hN : (m : ℝ) * 2 ^ e = ((m * 2 ^ j : ℕ) : ℝ) / 2 ^ 24 := by
        rw [show e = (j : ℤ) - (24 : ℕ) by push_cast; omega, zpow_sub₀ two_ne_zero, zpow_natCast, zpow_natCast]
        push_cast
        ring
      rw [hN] at h1 ⊢
      generalize m * 2 ^ j = N at h1
      have hne : N ≠ 2 ^ 24 := fun h => h1 (by rw [h]; norm_num)
      rcases Nat.lt_or_gt_of_ne hne with h | h
      · left
        have : (N : ℝ) + 1 ≤ 2 ^ 24 := by exact_mod_cast h
        rw [div_le_iff₀ (by norm_num)]
        linarith
      · right
        have : (2 : ℝ) ^ 24 + 1 ≤ N := by exact_mod_cast h
        rw [le_div_iff₀ (by norm_num)]
        linarith
  rcases hfar with h | h
  · have := Real.log_le_sub_one_of_pos hx
    rw [abs_of_nonpos (by linarith)]
    linarith
  · have := Real.one_sub_inv_le_log_of_pos hx
    have h2 : ((m : ℝ) * 2 ^ e)⁻¹ ≤ 1 - 1 / 2 ^ 25 := by
      refine (inv_anti₀ (by norm_num) h).trans ?_
      norm_num
    exact le_abs.mpr (.inl (by linarith))

theorem fxInt_neg_iff {v : ℤ} : fxInt v < 0 ↔ v < 0 := by
  rw [fxInt, div_lt_iff₀ (by positivity), zero_mul, Int.cast_lt_zero]

theorem signedReal_abs (x : ℝ) : signedReal (decide (x < 0)) |x| = x := by
  by_cases h : x < 0
  · simp [signedReal, h, abs_of_neg h]
  · simp [signedReal, h, abs_of_nonneg (not_lt.mp h)]

/-- The logarithm, rounded. -/
theorem FF.lnV_rounds {f : FF} (hf : f.Narrow) (rm : RM) {m : ℕ} (hm : 0 < m) (hm' : m < 2 ^ 24) {e : ℤ} (he : |e + m.log2| ≤ 200)
    (h1 : (m : ℝ) * 2 ^ e ≠ 1) (hc : Spec.clear (Real.log (m * 2 ^ e))) : Spec.rounds f rm false (Real.log (m * 2 ^ e)) (f.lnV rm m e) := by
  have hnear := abs_le.mp (fxLn_near hm he)
  have haway := log_away hm hm' h1
  obtain ⟨n1, n2⟩ := hnear
  set x := Real.log (m * 2 ^ e) with hx
  set v := fxLn m e with hv
  have hx0 : x ≠ 0 := fun h => by rw [h, abs_zero] at haway; norm_num at haway
  have hsign : (v < 0 ↔ x < 0) ∧ v ≠ 0 := by
    rw [← fxInt_neg_iff]
    have hz (h : v = 0) : fxInt v = 0 := by rw [h, fxInt, Int.cast_zero, zero_div]
    rcases abs_cases x with ⟨h, h'⟩ | ⟨h, h'⟩
    · have : 0 < fxInt v := by linarith [show (1 / 2 ^ 236 : ℝ) < 1 / 2 ^ 25 by norm_num]
      exact ⟨⟨fun hn => by linarith, fun hn => by linarith⟩, fun h0 => by linarith [hz h0]⟩
    · have : fxInt v < 0 := by linarith [show (1 / 2 ^ 236 : ℝ) < 1 / 2 ^ 25 by norm_num]
      exact ⟨⟨fun hn => by linarith, fun hn => by linarith⟩, fun h0 => by linarith [hz h0]⟩
  have hd : |fx v.natAbs + fxU / 2 - (|x|)| ≤ (2 : ℝ) ^ (-200 : ℤ) * max 1 |x| := by
    have h2 : |fx v.natAbs - (|x|)| ≤ 1 / 2 ^ 236 := by
      rw [fx_natAbs]
      exact (abs_abs_sub_abs_le _ _).trans (abs_le.mpr ⟨n1, n2⟩)
    have h3 : (1 : ℝ) ≤ max 1 |x| := le_max_left _ _
    rw [show (2 : ℝ) ^ (-200 : ℤ) = 1 / 2 ^ 200 by norm_num]
    have hu : fxU ≤ 1 / 2 ^ 236 := by rw [fxU]; norm_num
    have hu0 := fxU_pos
    obtain ⟨a, b⟩ := abs_le.mp h2
    exact abs_le.mpr ⟨by linarith, by linarith⟩
  have hr := FF.roundFx_rounds (abs_pos.mpr hx0) (FF.Alike.of_clear hf hc hd) rm (decide (v < 0))
  have hdec : decide (v < 0) = decide (x < 0) := decide_eq_decide.mpr hsign.1
  rw [hdec, signedReal_abs] at hr
  rw [FF.lnV]
  simp only [← hv]
  rw [if_neg hsign.2, hdec]
  exact hr

theorem atanhSeries_zero (t k n : ℕ) : atanhSeries t k n 0 = 0 := by
  induction k generalizing n with
  | zero => rfl
  | succ k ih =>
    have h0 : fxMul 0 t = 0 := by rw [fxMul, Nat.zero_mul, Nat.zero_div]
    rw [atanhSeries, Nat.zero_div, h0, ih]

/-- The logarithm of 1 is exact. -/
theorem fxLn_one {m : ℕ} {e : ℤ} (h : (m : ℝ) * 2 ^ e = 1) : fxLn m e = 0 := by
  have he : e ≤ 0 := by
    by_contra hlt
    have hm : (1 : ℝ) ≤ m := by
      have : m ≠ 0 := fun h0 => by simp [h0] at h
      exact_mod_cast Nat.one_le_iff_ne_zero.mpr this
    have h2 : (2 : ℝ) ^ (1 : ℤ) ≤ 2 ^ e := zpow_le_of_le (by omega)
    rw [zpow_one] at h2
    nlinarith
  obtain ⟨j, rfl⟩ : ∃ j : ℕ, e = -j := ⟨(-e).toNat, by omega⟩
  have hm : m = 2 ^ j := by
    rw [zpow_neg, zpow_natCast, ← div_eq_mul_inv, div_eq_one_iff_eq (by positivity)] at h
    exact_mod_cast h
  have h1 : fxLn1 fxOne = 0 := by rw [fxLn1, Nat.sub_self, Nat.zero_mul, Nat.zero_div, atanhSeries_zero]
  rw [fxLn, hm, Nat.log2_two_pow, neg_add_cancel, zero_mul, zero_add, Nat.mul_div_cancel_left _ (by positivity), h1]
  rfl

end Sys2Proof.Machine
end

section
/-! The hyperbolic tangent (R132): from the exponential in fixed point, and by its place between two numbers of the format where it is near them. -/

namespace Sys2Proof.Machine

/-! ### Operands -/

/-- The significand and the exponent of a number. -/
theorem FF.val_bounds {f : FF} {b : ℕ} {s : Bool} {m : ℕ} {e : ℤ} (h : f.val b = .fin s m e) :
    m < 2 ^ (f.fb + 1) ∧ f.emin - f.fb ≤ e ∧ e < 2 ^ f.eb - f.bias - f.fb := by
  have ht : b % 2 ^ f.fb < 2 ^ f.fb := Nat.mod_lt _ (by positivity)
  have hx : b / 2 ^ f.fb % 2 ^ f.eb < 2 ^ f.eb := Nat.mod_lt _ (by positivity)
  have hp : 2 ^ (f.fb + 1) = 2 ^ f.fb + 2 ^ f.fb := by rw [pow_succ]; omega
  have hx' : ((b / 2 ^ f.fb % 2 ^ f.eb : ℕ) : ℤ) < 2 ^ f.eb := by exact_mod_cast hx
  have h1 : (1 : ℤ) < 2 ^ f.eb := by cases f <;> decide
  rw [hp, FF.emin]
  unfold FF.val at h
  generalize b % 2 ^ f.fb = t at *
  generalize b / 2 ^ f.fb % 2 ^ f.eb = x at *
  dsimp only at h
  split at h
  · split at h <;> cases h
  · split at h
    · cases h
    · split at h
      · cases h
        rw [FF.emin]
        omega
      · next h0 =>
        have h0 : ¬x = 0 := by simpa using h0
        cases h
        omega

theorem FF.valZ_bounds {f : FF} {fzi : Bool} {b : ℕ} {s : Bool} {m : ℕ} {e : ℤ} (h : f.valZ fzi b = .fin s m e) :
    m < 2 ^ (f.fb + 1) ∧ f.emin - f.fb ≤ e := by
  unfold FF.valZ at h
  split at h
  · next n k j hv =>
    obtain ⟨h1, h2, -⟩ := FF.val_bounds hv
    split at h <;> cases h
    · exact ⟨by positivity, h2⟩
    · exact ⟨h1, h2⟩
  · next hv => exact absurd h (hv s m e)

/-! ### The function -/

theorem tanh_eq_exp (a : ℝ) : Real.tanh a = (Real.exp (2 * a) - 1) / (Real.exp (2 * a) + 1) := by
  have h := Real.exp_pos a
  rw [Real.tanh_eq_sinh_div_cosh, Real.sinh_eq, Real.cosh_eq, two_mul, Real.exp_add, Real.exp_neg]
  field_simp

theorem tanh_signedReal (neg : Bool) (a : ℝ) : Real.tanh (signedReal neg a) = signedReal neg (Real.tanh a) := by
  cases neg <;> simp [signedReal, Real.tanh_neg]

section
variable {a : ℝ} (ha : 0 < a)
include ha

theorem tanh_pos : 0 < Real.tanh a := by
  rw [Real.tanh_eq_sinh_div_cosh]
  exact div_pos (Real.sinh_pos_iff.mpr ha) (Real.cosh_pos a)

theorem tanh_lt_self : Real.tanh a < a := by
  have h0 := tanh_pos ha
  have h1 : Real.tanh a < 1 := Real.tanh_lt_one a
  have hl := Real.sum_range_le_log_div h0.le h1 2
  have he : (1 + Real.tanh a) / (1 - Real.tanh a) = Real.exp (2 * a) := by
    have := Real.exp_pos (2 * a)
    rw [tanh_eq_exp]
    field_simp
    ring
  rw [he, Real.log_exp, Finset.sum_range_succ, Finset.sum_range_one] at hl
  have : 0 < Real.tanh a ^ (2 * 1 + 1) / (2 * ((1 : ℕ) : ℝ) + 1) := by positivity
  norm_num at hl
  linarith [pow_pos h0 3]

theorem tanh_ge : a * (1 - a ^ 2 / 2) ≤ Real.tanh a := by
  have h1 : a ≤ Real.sinh a := Real.self_le_sinh_iff.mpr ha.le
  have h2 := Real.cosh_le_exp_half_sq a
  have h3 : 1 - a ^ 2 / 2 ≤ Real.exp (-(a ^ 2 / 2)) := by linarith [Real.add_one_le_exp (-(a ^ 2 / 2))]
  rw [Real.tanh_eq_sinh_div_cosh, le_div_iff₀ (Real.cosh_pos a)]
  calc a * (1 - a ^ 2 / 2) * Real.cosh a ≤ a * Real.exp (-(a ^ 2 / 2)) * Real.exp (a ^ 2 / 2) :=
        mul_le_mul (mul_le_mul_of_nonneg_left h3 ha.le) h2 (Real.cosh_pos a).le (by positivity)
    _ = a := by rw [mul_assoc, ← Real.exp_add, neg_add_cancel, Real.exp_zero, mul_one]
    _ ≤ Real.sinh a := h1

end

/-! ### Between two numbers of the format -/

/-- Results that round alike, and at none of which a rounding turns. -/
structure FF.Same (f : FF) (a b : ℝ) : Prop where
  alike : f.Alike a b
  off : ∀ (n : ℕ) (k : ℤ), 0 < n → n ≤ 2 ^ (f.fb + 2) → f.emin - f.fb - 2 ≤ k → (n : ℝ) * 2 ^ k ≠ a

theorem FF.Same.of_gap {f : FF} {a b lo hi : ℝ} (ha : lo < a ∧ a < hi) (hb : lo < b ∧ b < hi)
    (h : ∀ (n : ℕ) (k : ℤ), n ≤ 2 ^ (f.fb + 2) → f.emin - f.fb - 2 ≤ k → (n : ℝ) * 2 ^ k ≤ lo ∨ hi ≤ n * 2 ^ k) : f.Same a b := by
  refine ⟨.of_gap ha hb h, fun n k _ hn hk he => ?_⟩
  rcases h n k hn hk with h | h <;> linarith

theorem FF.Same.of_clear {f : FF} (hf : f.Narrow) {x y : ℝ} (hx : Spec.clear x) (h : |y - (|x|)| ≤ (2 : ℝ) ^ (-200 : ℤ) * max 1 |x|) :
    f.Same |x| y := by
  refine ⟨.of_clear hf hx h, fun n k hn hn' hk he => ?_⟩
  have hlow := hf.low
  have hc := clear_abs hx hn (k := k) (hn'.trans (Nat.pow_le_pow_right two_pos (by have := hf.fb; omega))) (by omega)
  rw [he, sub_self, abs_zero] at hc
  exact absurd hc (not_lt.mpr (by positivity))

/-- No rounding turns just below a number of the format. -/
theorem gap_below {f : FF} (hf : f.Narrow) {m : ℕ} (hm : 0 < m) {e : ℤ} (n : ℕ) (k : ℤ) (hn : n ≤ 2 ^ (f.fb + 2)) :
    (n : ℝ) * 2 ^ k ≤ m * 2 ^ e - 2 ^ (e - 26) ∨ (m : ℝ) * 2 ^ e ≤ n * 2 ^ k := by
  have hfb := hf.fb
  have hm1 : (1 : ℝ) ≤ m := by exact_mod_cast hm
  have he := two_zpow_pos e
  rcases le_or_gt (e - 26) k with hk | hk
  · -- multiples of one unit
    obtain ⟨i, hi⟩ : ∃ i : ℕ, k = e - 26 + i := ⟨(k - (e - 26)).toNat, by omega⟩
    have e1 : (n : ℝ) * 2 ^ k = ((n * 2 ^ i : ℕ) : ℝ) * 2 ^ (e - 26) := by
      rw [hi, zpow_add₀ two_ne_zero, zpow_natCast]
      push_cast
      ring
    have e2 : (m : ℝ) * 2 ^ e = ((m * 2 ^ 26 : ℕ) : ℝ) * 2 ^ (e - 26) := by
      rw [zpow_sub₀ two_ne_zero]
      push_cast
      norm_num
      ring
    rw [e1, e2]
    have hq := two_zpow_pos (e - 26)
    rcases lt_or_ge (n * 2 ^ i) (m * 2 ^ 26) with h | h
    · left
      have h' : ((n * 2 ^ i : ℕ) : ℝ) + 1 ≤ ((m * 2 ^ 26 : ℕ) : ℝ) := by exact_mod_cast h
      nlinarith
    · right
      exact mul_le_mul_of_nonneg_right (by exact_mod_cast h) hq.le
  · left
    have h1 : (n : ℝ) ≤ 2 ^ 25 := by exact_mod_cast hn.trans (Nat.pow_le_pow_right two_pos (by omega))
    have h2 : (2 : ℝ) ^ k ≤ 2 ^ (e - 27) := zpow_le_of_le (by omega)
    have h3 : (n : ℝ) * 2 ^ k ≤ 2 ^ 25 * 2 ^ (e - 27) := mul_le_mul h1 h2 (two_zpow_pos k).le (by norm_num)
    have e1 : (2 : ℝ) ^ (e - 27) = 2 ^ e / 2 ^ 27 := by rw [zpow_sub₀ two_ne_zero]; norm_num
    have e2 : (2 : ℝ) ^ (e - 26) = 2 ^ e / 2 ^ 26 := by rw [zpow_sub₀ two_ne_zero]; norm_num
    rw [e1] at h3
    rw [e2]
    nlinarith

end Sys2Proof.Machine
end

section
/-! The hyperbolic tangent rounded (R132). -/

namespace Sys2Proof.Machine

section
variable {f : FF} (hf : f.Narrow) {m : ℕ} (hm : 0 < m) {e : ℤ}
include hf hm

/-- Below 2⁻⁶⁰ the result lies between the operand and the number before it. -/
theorem tanh_same_small (hm' : m < 2 ^ 24) (he : e + m.log2 < -60) :
    f.Same (Real.tanh (m * 2 ^ e)) ((m * 2 ^ 120 - 1 : ℕ) * 2 ^ (e - 120)) := by
  have ha : 0 < (m : ℝ) * 2 ^ e := mul_pos (by exact_mod_cast hm) (two_zpow_pos e)
  have hsmall : (m : ℝ) * 2 ^ e ≤ 2 ^ (-60 : ℤ) := (lt_two_zpow_log2 m e).le.trans (zpow_le_of_le (by omega))
  have hm24 : (m : ℝ) ≤ 2 ^ 24 := by exact_mod_cast hm'.le
  have he0 := two_zpow_pos e
  have e26 : (2 : ℝ) ^ (e - 26) = 2 ^ e / 2 ^ 26 := by rw [zpow_sub₀ two_ne_zero]; norm_num
  have e120 : (2 : ℝ) ^ (e - 120) = 2 ^ e / 2 ^ 120 := by rw [zpow_sub₀ two_ne_zero]; norm_num
  have hy : ((m * 2 ^ 120 - 1 : ℕ) : ℝ) * 2 ^ (e - 120) = m * 2 ^ e - 2 ^ e / 2 ^ 120 := by
    rw [e120, Nat.cast_sub (Nat.mul_pos hm (by positivity)), Nat.cast_mul, Nat.cast_pow, Nat.cast_ofNat, Nat.cast_one]
    field_simp
  refine .of_gap (lo := m * 2 ^ e - 2 ^ (e - 26)) (hi := m * 2 ^ e) ⟨?_, tanh_lt_self ha⟩ ?_ fun n k hn _ => gap_below hf hm n k hn
  · refine lt_of_lt_of_le ?_ (tanh_ge ha)
    have h2 : ((m : ℝ) * 2 ^ e) ^ 2 ≤ (2 ^ (-60 : ℤ)) ^ 2 := pow_le_pow_left₀ ha.le hsmall 2
    have h3 : (m : ℝ) * 2 ^ e * (((m : ℝ) * 2 ^ e) ^ 2) ≤ 2 ^ 24 * 2 ^ e * (2 ^ (-60 : ℤ)) ^ 2 :=
      mul_le_mul (mul_le_mul_of_nonneg_right hm24 he0.le) h2 (by positivity) (by positivity)
    rw [show ((2 : ℝ) ^ (-60 : ℤ)) ^ 2 = 1 / 2 ^ 120 by norm_num] at h3
    rw [e26]
    have h4 : (2 : ℝ) ^ 24 * 2 ^ e * (1 / 2 ^ 120) < 2 * (2 ^ e / 2 ^ 26) := by
      rw [show (2 : ℝ) ^ 24 * 2 ^ e * (1 / 2 ^ 120) = 2 ^ e / 2 ^ 96 by field_simp]
      rw [show (2 : ℝ) * (2 ^ e / 2 ^ 26) = 2 ^ e / 2 ^ 25 by field_simp]
      exact div_lt_div_of_pos_left he0 (by norm_num) (by norm_num)
    linarith
  · rw [hy, e26]
    have : (2 : ℝ) ^ e / 2 ^ 120 < 2 ^ e / 2 ^ 26 := div_lt_div_of_pos_left he0 (by norm_num) (by norm_num)
    have : 0 < (2 : ℝ) ^ e / 2 ^ 120 := by positivity
    constructor <;> linarith

end

/-- The quotient that the tangent is taken from. -/
theorem fx_tanhQuot {E : ℕ} (h : fxOne ≤ E) : fx ((E - fxOne) * fxOne / (E + fxOne)) ≤ (fx E - 1) / (fx E + 1) ∧
    (fx E - 1) / (fx E + 1) - fxU ≤ fx ((E - fxOne) * fxOne / (E + fxOne)) := by
  have hq := fx_div ((E - fxOne) * fxOne) (E + fxOne)
  have e : fx ((E - fxOne) * fxOne) / ((E + fxOne : ℕ) : ℝ) = (fx E - 1) / (fx E + 1) := by
    rw [fx, fx, fxOne_eq] at *
    rw [Nat.cast_mul, Nat.cast_sub h, Nat.cast_add, Nat.cast_pow, Nat.cast_ofNat]
    field_simp
  rwa [e] at hq

/-- The tangent from an exponential that stands a little below. -/
theorem tanhQuot_near {a y : ℝ} (ha : 0 < a) (h1 : 1 ≤ y) (h2 : y ≤ Real.exp (2 * a)) (h3 : Real.exp (2 * a) * (1 - 1 / 2 ^ 235) ≤ y) :
    (y - 1) / (y + 1) ≤ Real.tanh a ∧ Real.tanh a - 1 / 2 ^ 234 ≤ (y - 1) / (y + 1) := by
  have hE := Real.exp_pos (2 * a)
  have e : Real.tanh a - (y - 1) / (y + 1) = 2 * (Real.exp (2 * a) - y) / ((Real.exp (2 * a) + 1) * (y + 1)) := by
    rw [tanh_eq_exp]
    field_simp
    ring
  have p : 0 ≤ 2 * (Real.exp (2 * a) - y) / ((Real.exp (2 * a) + 1) * (y + 1)) := div_nonneg (by linarith) (by positivity)
  have q : 2 * (Real.exp (2 * a) - y) / ((Real.exp (2 * a) + 1) * (y + 1)) ≤ 1 / 2 ^ 234 := by
    rw [div_le_iff₀ (by positivity)]
    nlinarith
  constructor <;> linarith

section
variable {f : FF} (hf : f.Narrow) {m : ℕ} (hm : 0 < m) {e : ℤ}
include hf hm

theorem tanh_same_middle (h1 : -60 ≤ e + m.log2) (h2 : e + m.log2 < 5) (hc : Spec.clear (Real.tanh (m * 2 ^ e))) :
    let E := fxExp (fxOf m (e + 1))
    f.Same (Real.tanh (m * 2 ^ e)) (fx ((E - fxOne) * fxOne / (E + fxOne)) + fxU / 2) := by
  intro E
  have hu := fxU_pos
  have hu' : fxU ≤ 1 / 2 ^ 240 := by rw [fxU]; norm_num
  have ha : 0 < (m : ℝ) * 2 ^ e := mul_pos (by exact_mod_cast hm) (two_zpow_pos e)
  have hlow : (2 : ℝ) ^ (-60 : ℤ) ≤ m * 2 ^ e := (zpow_le_of_le (by omega)).trans (two_zpow_log2_le hm e)
  have hhigh : (m : ℝ) * 2 ^ e ≤ 2 ^ (5 : ℤ) := (lt_two_zpow_log2 m e).le.trans (zpow_le_of_le (by omega))
  rw [show (2 : ℝ) ^ (-60 : ℤ) = 1 / 2 ^ 60 by norm_num] at hlow
  obtain ⟨x1, x2⟩ := fxOf_near m (e + 1)
  rw [show (m : ℝ) * 2 ^ (e + 1) = 2 * (m * 2 ^ e) by rw [zpow_add_one₀ two_ne_zero]; ring] at x1 x2
  obtain ⟨e1, e2⟩ := fxExp_just (x := fxOf m (e + 1)) (x1.trans (by norm_num at hhigh; linarith))
  have g1 : fx E ≤ Real.exp (2 * (m * 2 ^ e)) := e1.trans (Real.exp_le_exp.mpr x1)
  have g2 : Real.exp (2 * (m * 2 ^ e)) * (1 - 1 / 2 ^ 235) ≤ fx E := by
    refine le_trans ?_ e2
    have h3 := mul_le_mul_of_nonneg_right (exp_sub_le x2) (show (0 : ℝ) ≤ 1 - 1 / 2 ^ 236 by norm_num)
    refine le_trans ?_ h3
    rw [mul_assoc]
    refine mul_le_mul_of_nonneg_left ?_ (Real.exp_pos _).le
    nlinarith
  have g3 : 1 ≤ fx E := by
    have := Real.add_one_le_exp (2 * ((m : ℝ) * 2 ^ e))
    refine le_trans ?_ g2
    have h4 : (1 + 1 / 2 ^ 59 : ℝ) ≤ Real.exp (2 * (m * 2 ^ e)) := by linarith
    calc (1 : ℝ) ≤ (1 + 1 / 2 ^ 59) * (1 - 1 / 2 ^ 235) := by norm_num
      _ ≤ _ := mul_le_mul_of_nonneg_right h4 (by norm_num)
  obtain ⟨q1, q2⟩ := fx_tanhQuot (E := E) (fx_le.mp (by rw [fx_one]; exact g3))
  obtain ⟨t1, t2⟩ := tanhQuot_near ha g3 g1 g2
  have hs := FF.Same.of_clear hf hc (y := fx ((E - fxOne) * fxOne / (E + fxOne)) + fxU / 2)
  rw [abs_of_pos (tanh_pos ha)] at hs
  refine hs ?_
  rw [show (2 : ℝ) ^ (-200 : ℤ) = 1 / 2 ^ 200 by norm_num]
  have hm1 : 1 ≤ max 1 (Real.tanh (m * 2 ^ e)) := le_max_left _ _
  rw [abs_le]
  constructor <;> linarith

/-- From 32 on the result lies just below 1. -/
theorem tanh_same_large (h : 5 ≤ e + m.log2) :
    let E := fxExp (64 * fxOne)
    f.Same (Real.tanh (m * 2 ^ e)) (fx ((E - fxOne) * fxOne / (E + fxOne)) + fxU / 2) := by
  intro E
  have hu := fxU_pos
  have hu' : fxU = 1 / 2 ^ 256 := rfl
  have hhigh : (2 : ℝ) ^ (5 : ℤ) ≤ m * 2 ^ e := (zpow_le_of_le (by omega)).trans (two_zpow_log2_le hm e)
  have h64 : fx (64 * fxOne) = 64 := by
    rw [fx, Nat.cast_mul, mul_div_assoc, ← fx, fx_one]
    norm_num
  obtain ⟨e1, e2⟩ := fxExp_just (x := 64 * fxOne) (by rw [h64]; norm_num)
  rw [h64] at e1 e2
  have b1 : (2 : ℝ) ^ 64 ≤ Real.exp 64 := by
    calc (2 : ℝ) ^ 64 ≤ Real.exp 1 ^ 64 := pow_le_pow_left₀ (by norm_num) (le_trans (by norm_num) Real.exp_one_gt_d9.le) _
      _ = Real.exp 64 := by rw [← Real.exp_nat_mul]; norm_num
  have b2 : Real.exp 64 ≤ 2 ^ 128 := by
    calc Real.exp 64 = Real.exp 1 ^ 64 := by rw [← Real.exp_nat_mul]; norm_num
      _ ≤ 4 ^ 64 := pow_le_pow_left₀ (Real.exp_pos 1).le (Real.exp_one_lt_d9.le.trans (by norm_num)) _
      _ = 2 ^ 128 := by norm_num
  have g3 : (2 : ℝ) ^ 63 ≤ fx E := by
    refine le_trans ?_ e2
    calc (2 : ℝ) ^ 63 ≤ 2 ^ 64 * (1 - 1 / 2 ^ 236) := by norm_num
      _ ≤ _ := mul_le_mul_of_nonneg_right b1 (by norm_num)
  obtain ⟨q1, q2⟩ := fx_tanhQuot (E := E) (fx_le.mp (by rw [fx_one]; linarith))
  have hq : (fx E - 1) / (fx E + 1) = 1 - 2 / (fx E + 1) := by field_simp; ring
  have hq1 : 2 / (fx E + 1) ≤ 1 / 2 ^ 62 := by rw [div_le_div_iff₀ (by linarith) (by norm_num)]; linarith
  have hq2 : 1 / 2 ^ 128 ≤ 2 / (fx E + 1) := by rw [div_le_div_iff₀ (by norm_num) (by linarith)]; linarith
  have ht : Real.tanh (m * 2 ^ e) = 1 - 2 / (Real.exp (2 * (m * 2 ^ e)) + 1) := by
    have := Real.exp_pos (2 * ((m : ℝ) * 2 ^ e))
    rw [tanh_eq_exp]
    field_simp
    ring
  have hE : Real.exp 64 ≤ Real.exp (2 * (m * 2 ^ e)) := Real.exp_le_exp.mpr (by norm_num at hhigh; linarith)
  have ht1 : 2 / (Real.exp (2 * (m * 2 ^ e)) + 1) ≤ 1 / 2 ^ 62 := by rw [div_le_div_iff₀ (by linarith) (by norm_num)]; linarith
  have ht2 : 0 < 2 / (Real.exp (2 * (m * 2 ^ e)) + 1) := by have := Real.exp_pos (2 * ((m : ℝ) * 2 ^ e)); positivity
  rw [hq] at q1 q2
  have hgap := gap_below hf (m := 1) one_pos (e := 0)
  norm_num at hgap
  refine .of_gap (lo := 1 - 1 / 2 ^ 26) (hi := 1) ?_ ?_ fun n k hn _ => ?_
  · rw [ht]
    constructor <;> linarith
  · rw [hu'] at *
    constructor <;> linarith
  · have := hgap n k hn
    norm_num
    exact this

end

/-! ### The tangent, rounded -/

/-- No rounding turns at a number. -/
def FF.Off (f : FF) (x : ℝ) : Prop := ∀ (n : ℕ) (k : ℤ), 0 < n → n ≤ 2 ^ (f.fb + 2) → f.emin - f.fb - 2 ≤ k → (n : ℝ) * 2 ^ k ≠ |x|

theorem clear_neg {x : ℝ} (h : Spec.clear x) : Spec.clear (-x) := by
  intro n k hn hn' hk
  have := h (-n) k (neg_ne_zero.mpr hn) (by rwa [abs_neg]) hk
  rw [abs_neg, show -x - (n : ℝ) * 2 ^ k = -(x - ((-n : ℤ) : ℝ) * 2 ^ k) by push_cast; ring, abs_neg]
  exact this

theorem clear_signedReal {neg : Bool} {x : ℝ} (h : Spec.clear (signedReal neg x)) : Spec.clear x := by
  cases neg
  · exact h
  · simpa [signedReal] using clear_neg h

theorem FF.Off.of_clear {f : FF} (hf : f.Narrow) {x : ℝ} (hx : Spec.clear x) : f.Off x :=
  fun _ _ hn hn' hk => (FF.Same.of_clear hf hx (y := |x|) (by rw [sub_self, abs_zero]; positivity)).off _ _ hn hn' hk

theorem FF.tanhV_rounds {f : FF} (hf : f.Narrow) (rm : RM) (neg : Bool) {m : ℕ} (hm : 0 < m) (hm' : m < 2 ^ 24) (e : ℤ)
    (h : Spec.clear (Real.tanh (signedReal neg (m * 2 ^ e))) ∨ (m : ℝ) * 2 ^ e < 2 ^ (-60 : ℤ) ∨ 32 ≤ (m : ℝ) * 2 ^ e) :
    Spec.rounds f rm false (Real.tanh (signedReal neg (m * 2 ^ e))) (f.tanhV rm neg m e) ∧ f.Off (Real.tanh (signedReal neg (m * 2 ^ e))) := by
  have ha : 0 < (m : ℝ) * 2 ^ e := mul_pos (by exact_mod_cast hm) (two_zpow_pos e)
  have ht := tanh_pos ha
  have hlow := two_zpow_log2_le hm e
  have hhigh := lt_two_zpow_log2 m e
  rw [tanh_signedReal] at h ⊢
  have off {y : ℝ} (hs : f.Same (Real.tanh (m * 2 ^ e)) y) : f.Off (signedReal neg (Real.tanh (m * 2 ^ e))) := by
    intro n k hn hn' hk
    rw [abs_signedReal ht]
    exact hs.off n k hn hn' hk
  have fixed {v : ℕ} (hs : f.Same (Real.tanh (m * 2 ^ e)) (fx v + fxU / 2)) :
      Spec.rounds f rm false (signedReal neg (Real.tanh (m * 2 ^ e))) (f.roundFx rm neg v) ∧ f.Off (signedReal neg (Real.tanh (m * 2 ^ e))) :=
    ⟨FF.roundFx_rounds ht hs.alike rm neg, off hs⟩
  unfold FF.tanhV
  by_cases h1 : e + m.log2 < -60
  · rw [if_pos h1]
    have hs := tanh_same_small hf hm hm' h1
    have hM : 1 < m * 2 ^ 120 := (show 1 < 1 * 2 ^ 120 by norm_num).trans_le (Nat.mul_le_mul_right _ hm)
    exact ⟨hs.alike.rounds ht (Nat.sub_pos_of_lt hM), off hs⟩
  · rw [if_neg h1]
    by_cases h2 : e + m.log2 < 5
    · simp only [if_pos h2]
      refine fixed (tanh_same_middle hf hm (by omega) h2 ?_)
      rcases h with h | h | h
      · exact clear_signedReal h
      · exact absurd (hlow.trans_lt h) (not_lt.mpr (zpow_le_of_le (by omega)))
      · refine absurd (h.trans_lt hhigh) (not_lt.mpr ((zpow_le_of_le (show _ ≤ (5 : ℤ) by omega)).trans_eq ?_))
        norm_num
    · simp only [if_neg h2]
      exact fixed (tanh_same_large hf hm (by omega))

end Sys2Proof.Machine
end

section
/-! The approximate instructions `VEXP` and `VTANH` (R132): the rounded value or a neighbour, with its flags. -/

namespace Sys2Proof.Machine

section
variable {g : FF} {r : Rnd} {x : ℝ} {q : FR}

/-- A number at which no rounding turns is none of the format. -/
theorem FF.Off.not_value (h : g.Off x) (hx : x ≠ 0) {c : ℕ} {y : ℚ} (hv : Spec.value g c = some y) : (y : ℝ) ≠ x := by
  obtain ⟨n, k, hfit, -, rfl⟩ := FF.value_fits hv
  intro he
  have habs : |x| = n * 2 ^ k := by
    rw [← he]
    push_cast
    rw [abs_mul, abs_mul, abs_of_pos (two_zpow_pos k), Nat.abs_cast]
    split <;> simp
  rcases n.eq_zero_or_pos with rfl | hn
  · rw [Nat.cast_zero, zero_mul, abs_eq_zero] at habs
    exact hx habs
  · exact h n k hn (hfit.lt.le.trans (Nat.pow_le_pow_right two_pos (by omega))) (by have := hfit.low; omega) habs.symm

theorem mag_div (g : FF) (c : ℕ) : c % 2 ^ (g.eb + g.fb) / 2 ^ g.fb = c / 2 ^ g.fb % 2 ^ g.eb := by
  rw [add_comm g.eb, pow_add, Nat.mod_mul_right_div_self]

/-- Infinity's pattern. -/
theorem val_of_infOf (hi : g.hasInf = true) {c : ℕ} (h : c % 2 ^ (g.eb + g.fb) = Spec.infOf g) : ∃ n, g.val c = .inf n := by
  have h1 : c / 2 ^ g.fb % 2 ^ g.eb = 2 ^ g.eb - 1 := by
    rw [← mag_div, h, Spec.infOf, Nat.mul_div_cancel _ (by positivity)]
  have h2 : c % 2 ^ g.fb = 0 := by
    have : c % 2 ^ (g.eb + g.fb) % 2 ^ g.fb = c % 2 ^ g.fb := by rw [add_comm g.eb, pow_add, Nat.mod_mul_right_mod]
    rw [← this, h, Spec.infOf, Nat.mul_mod_left]
  refine ⟨c / 2 ^ (g.eb + g.fb) % 2 == 1, ?_⟩
  unfold FF.val
  simp only [h1, h2, hi, BEq.rfl, Bool.and_self, if_true]

/-- What lies below infinity's pattern is a number. -/
theorem value_of_lt_infOf (hi : g.hasInf = true) {c : ℕ} (h : c % 2 ^ (g.eb + g.fb) < Spec.infOf g) : Spec.value g c ≠ none := by
  have h1 : c / 2 ^ g.fb % 2 ^ g.eb < 2 ^ g.eb - 1 := by
    rw [← mag_div, Nat.div_lt_iff_lt_mul (by positivity)]
    exact h
  have h2 : g ≠ .e4m3 := fun h => by rw [h] at hi; cases hi
  unfold Spec.value
  simp only
  rw [if_neg fun h => h.elim (fun h => h1.ne h.2) fun h => h2 h.1]
  split <;> exact Option.some_ne_none _

/-- A number's pattern lies below infinity's. -/
theorem value_lt_inf (hi : g.hasInf = true) {c : ℕ} {y : ℚ} (hv : Spec.value g c = some y) : c % 2 ^ (g.eb + g.fb) < Spec.infOf g := by
  have hx := mag_div g c
  have hne : c / 2 ^ g.fb % 2 ^ g.eb ≠ 2 ^ g.eb - 1 := by
    intro h
    rw [Spec.value, if_pos (.inl ⟨hi, h⟩)] at hv
    cases hv
  have hlt : c / 2 ^ g.fb % 2 ^ g.eb < 2 ^ g.eb := Nat.mod_lt _ (by positivity)
  rw [Spec.infOf, ← Nat.div_lt_iff_lt_mul (by positivity), hx]
  omega

theorem infOf_lt (g : FF) : Spec.infOf g < 2 ^ (g.eb + g.fb) := by cases g <;> decide

theorem topOf_le_infOf (g : FF) : g.ieee = true → Spec.topOf g ≤ Spec.infOf g := by cases g <;> decide

theorem limits_le_infOf (g : FF) : g.hasInf = true → g.pack false g.bias 0 ≤ Spec.infOf g ∧ g.infBits false ≤ Spec.infOf g := by cases g <;> decide

theorem nx_bit : ∀ fl : BitVec 6, fl &&& fNX = 0 → fl.getLsbD 0 = false := by decide

/-- The pattern and the flags of a number that is none of the format, rounded. -/
theorem rounds_inexact (hi : g.ieee = true) (hh : g.hasInf = true) (h : Spec.rounds g r.rm false x q) (hx : x ≠ 0)
    (hoff : ∀ c y, Spec.value g c = some y → (y : ℝ) ≠ x) :
    q.fl &&& fNX ≠ 0 ∧ ∃ s m, (s = 0 ∨ s = 2 ^ (g.eb + g.fb)) ∧ m ≤ Spec.infOf g ∧ q.bits = s + m := by
  by_cases ho : Spec.overflows g r.rm x
  · obtain ⟨b, ⟨hneg, hpos⟩, h1, h2, hfl, -⟩ := h.1 ho
    have hb : b = 0 ∨ b = 2 ^ (g.eb + g.fb) := (lt_or_gt_of_ne hx).symm.imp hpos hneg
    refine ⟨by rw [hfl, if_pos hi]; decide, b, ?_⟩
    by_cases hinf : g.ieee = true ∧ (r.rm = .rne ∨ Spec.outward r.rm x)
    · exact ⟨_, hb, le_rfl, h1 hinf⟩
    · exact ⟨_, hb, topOf_le_infOf g hi, h2 hinf⟩
  · obtain ⟨b, m, y, -, hb, hm, hv, -, -, hn⟩ := h.2 ho
    obtain ⟨hbits, -, hnx, -⟩ := hn (by simp)
    refine ⟨fun h0 => ?_, b, m, hb, ?_, hbits⟩
    · have := hnx.mpr (hoff _ _ hv)
      rw [nx_bit _ h0] at this
      cases this
    · have := value_lt_inf hh hv
      have hmod : (b + m) % 2 ^ (g.eb + g.fb) = m := by
        rcases hb with rfl | rfl
        · rw [Nat.zero_add, Nat.mod_eq_of_lt hm]
        · rw [Nat.add_mod_left, Nat.mod_eq_of_lt hm]
      omega

end

/-- A pattern's place, as R132 counts neighbours. -/
def FF.ord (g : FF) (b : ℕ) : ℤ :=
  if b / 2 ^ (g.width - 1) % 2 = 1 then -(b % 2 ^ (g.width - 1) : ℕ) else (b % 2 ^ (g.width - 1) : ℕ)

section
variable {g : FF} {s m : ℕ} (hs : s = 0 ∨ s = 2 ^ (g.eb + g.fb)) (hm : m ≤ Spec.infOf g)
include hs hm

/-- The parts of a pattern. -/
theorem pattern_parts : (s + m) / 2 ^ (g.eb + g.fb) * 2 ^ (g.eb + g.fb) = s ∧ (s + m) % 2 ^ (g.eb + g.fb) = m ∧ s + m < 2 * 2 ^ (g.eb + g.fb) ∧
    g.ord (s + m) = if s = 0 then (m : ℤ) else -m := by
  have hlt := hm.trans_lt (infOf_lt g)
  have hT : 0 < 2 ^ (g.eb + g.fb) := by positivity
  rw [FF.ord, FF.signed_lt]
  generalize 2 ^ (g.eb + g.fb) = T at *
  rcases hs with rfl | rfl
  · rw [Nat.zero_add, Nat.div_eq_of_lt hlt, Nat.mod_eq_of_lt hlt]
    simp
    omega
  · rw [Nat.add_mod_left, Nat.mod_eq_of_lt hlt, Nat.add_div_left _ hT, Nat.div_eq_of_lt hlt]
    simp [hT.ne']
    omega

/-- A neighbour lies one place away at most, and within the format's infinities. -/
theorem neighbour_near (hh : g.hasInf = true) (op : Approx) (c : ℕ) :
    ∃ s' m', (s' = 0 ∨ s' = 2 ^ (g.eb + g.fb)) ∧ m' ≤ Spec.infOf g ∧ g.neighbour op (s + m) c = s' + m' ∧ |g.ord (s' + m') - g.ord (s + m)| ≤ 1 := by
  obtain ⟨e1, e2, -, e4⟩ := pattern_parts hs hm
  have hT : 2 ^ (g.eb + g.fb) ≠ 0 := by positivity
  have h1 : 1 ≤ Spec.infOf g := by cases g <;> decide
  have hlimit : (if op = .tanh then g.pack false g.bias 0 else g.infBits false) ≤ Spec.infOf g := by
    obtain ⟨l1, l2⟩ := limits_le_infOf g hh
    split
    · exact l1
    · exact l2
  have step {s' m' : ℕ} (hs' : s' = 0 ∨ s' = 2 ^ (g.eb + g.fb)) (hm' : m' ≤ Spec.infOf g)
      (hd : |(if s' = 0 then (m' : ℤ) else -m') - (if s = 0 then (m : ℤ) else -m)| ≤ 1) : |g.ord (s' + m') - g.ord (s + m)| ≤ 1 := by
    rw [e4, (pattern_parts hs' hm').2.2.2]
    exact hd
  have same : |g.ord (s + m) - g.ord (s + m)| ≤ 1 := by simp
  unfold FF.neighbour
  simp only [e1, e2]
  generalize (if op = .tanh then g.pack false g.bias 0 else g.infBits false) = limit at hlimit
  split
  · split
    · next h0 =>
      split
      · refine ⟨if s = 0 then 2 ^ (g.eb + g.fb) else 0, 1, ?_, h1, rfl, step ?_ h1 ?_⟩
        · split <;> simp
        · split <;> simp
        · subst h0
          rcases hs with rfl | rfl <;> simp [hT]
      · exact ⟨s, m, hs, hm, rfl, same⟩
    · next h0 =>
      refine ⟨s, m - 1, hs, by omega, rfl, step hs (by omega) ?_⟩
      rw [abs_le]
      split <;> omega
  · split
    · next hlt =>
      have hm' : m + 1 ≤ Spec.infOf g := hlt.trans_le hlimit
      refine ⟨s, m + 1, hs, hm', rfl, step hs hm' ?_⟩
      rw [abs_le]
      split <;> omega
    · exact ⟨s, m, hs, hm, rfl, same⟩
  · exact ⟨s, m, hs, hm, rfl, same⟩

end

/-- The flags of an inexact result. -/
theorem approx_flags : ∀ (fl : BitVec 6) (small : Bool), (fNX ||| flagIf small fUF ||| (fl &&& (fOF ||| fUF))) &&& fNX ≠ 0 ∧
    (small = true → (fNX ||| flagIf small fUF ||| (fl &&& (fOF ||| fUF))) &&& fUF ≠ 0) ∧
    (fNX ||| flagIf small fUF ||| (fl &&& (fOF ||| fUF))) &&& (fDZ ||| fNV ||| fST) = 0 := by decide

theorem inf_ge (g : FF) : 2 ^ g.fb ≤ Spec.infOf g := by cases g <;> decide

theorem zero_of_sign {g : FF} {s m : ℕ} (hs : s = 0 ∨ s = 2 ^ (g.eb + g.fb)) (hm : m ≤ Spec.infOf g) :
    g.zero ((s + m) / 2 ^ (g.eb + g.fb) % 2 == 1) = s := by
  have hlt := hm.trans_lt (infOf_lt g)
  have hT : 0 < 2 ^ (g.eb + g.fb) := by positivity
  rw [FF.zero_eq, FF.signBit]
  rcases hs with rfl | rfl
  · rw [Nat.zero_add, Nat.div_eq_of_lt hlt]
    rfl
  · rw [Nat.add_div_left _ hT, Nat.div_eq_of_lt hlt]
    rfl

/-- An approximate instruction's result for a number that is none of the format (R132). -/
theorem approx_near {g : FF} (hi : g.ieee = true) (hh : g.hasInf = true) {op : Approx} {code : ℕ} {r : Rnd} {bits : ℕ} {x : ℝ}
    (hsp : g.special op (g.valZ r.fzi bits) = none) (hr : Spec.rounds g r.rm false x (g.exactApprox op r.rm (g.valZ r.fzi bits))) (hx : x ≠ 0)
    (hoff : ∀ c y, Spec.value g c = some y → (y : ℝ) ≠ x) : Spec.near g r x (g.approx op code r bits) := by
  obtain ⟨hnx, s, m, hs, hm, hq⟩ := rounds_inexact hi hh hr hx hoff
  obtain ⟨s', m', hs', hm', hy, hnear⟩ := neighbour_near hs hm hh op (Config.approx op.code code r.rm.code bits)
  obtain ⟨p1, p2, p3, -⟩ := pattern_parts hs' hm'
  unfold FF.approx
  simp only [hsp, if_neg hnx, hq, hy]
  refine ⟨_, s' + m', hr, ?_, ?_, ?_, ?_⟩
  · rw [hq]
    exact hnear
  · rw [FF.signed_lt]; exact p3
  · rw [FF.signed_lt, p2]; exact hm'
  · rw [FF.signed_lt, p1, p2]
    rcases hm'.lt_or_eq with hlt | heq
    · rcases g.val_cases (s' + m') with ⟨hv, -, -⟩ | ⟨n, e, hv, -, hsmall⟩
      · exact absurd hv (value_of_lt_infOf hh (by rwa [p2]))
      · rw [p2] at hsmall
        simp only [hv, (zero_of_sign hs' hm'), Bool.and_eq_true, decide_eq_true_eq, hsmall]
        obtain ⟨f1, f2, f3⟩ := approx_flags (g.exactApprox op r.rm (g.valZ r.fzi bits)).fl (decide (m' < 2 ^ g.fb))
        refine ⟨?_, iff_of_false f1 fun ⟨y, hy, he⟩ => hoff _ _ hy he, fun h => absurd h hlt.ne, fun _ h => f2 (decide_eq_true h), f3, trivial⟩
        by_cases hz : r.fzo = true ∧ m' < 2 ^ g.fb
        · rcases Nat.eq_zero_or_pos m' with rfl | hp
          · rw [if_pos ⟨hz.2, hz.1⟩]
            simp
          · rw [if_pos ⟨hz.2, hz.1⟩, if_pos ⟨hz.1, hp, hz.2⟩]
        · rw [if_neg fun h => hz ⟨h.2, h.1⟩, if_neg fun h => hz ⟨h.1, h.2.2⟩]
    · obtain ⟨n, hv⟩ := val_of_infOf hh (c := s' + m') (by rw [p2, heq])
      simp only [hv]
      have hbig : ¬m' < 2 ^ g.fb := by rw [heq]; exact not_lt.mpr (inf_ge g)
      refine ⟨by rw [if_neg (by tauto)], iff_of_false (by decide) fun ⟨y, hy, he⟩ => hoff _ _ hy he, fun _ => by decide, fun _ h => absurd h hbig,
        by decide, trivial⟩

/-- R132: `VEXP` and `VTANH`. -/
theorem approximations_near : ∀ g ∈ [FF.f32, .bf16, .f16], ∀ (code : ℕ) (r : Rnd) (x : ℕ), x < 2 ^ g.width → ∀ a, Spec.operand g r.fzi x = some a → a ≠ 0 →
    (Spec.clear (Real.exp a) → Spec.near g r (Real.exp a) (g.approx .exp code r x)) ∧
    (Spec.clear (Real.tanh a) ∨ |a| < 2 ^ (-60 : ℤ) ∨ 32 ≤ |a| → Spec.near g r (Real.tanh a) (g.approx .tanh code r x)) := by
  intro g hg code r x _ a ha ha0
  have hform : g.ieee = true ∧ g.hasInf = true ∧ g.Narrow := by
    simp only [List.mem_cons, List.not_mem_nil, or_false] at hg
    rcases hg with rfl | rfl | rfl
    · exact ⟨rfl, rfl, by decide, by decide, by decide⟩
    · exact ⟨rfl, rfl, by decide, by decide, by decide⟩
    · exact ⟨rfl, rfl, by decide, by decide, by decide⟩
  obtain ⟨hi, hh, hn⟩ := hform
  obtain ⟨m, e, hv, hm⟩ := FF.valZ_of_operand ha
  set s := x / 2 ^ (g.eb + g.fb) % 2 == 1
  have hm0 : 0 < m := Nat.pos_of_ne_zero fun h => ha0 (hm.trans (rat_eq_zero.mpr h))
  have hm24 : m < 2 ^ 24 := (FF.valZ_bounds hv).1.trans_le (Nat.pow_le_pow_right two_pos (by have := hn.fb; omega))
  have hpos : 0 < (m : ℝ) * 2 ^ e := mul_pos (by exact_mod_cast hm0) (two_zpow_pos e)
  have hcast : (a : ℝ) = signedReal s (m * 2 ^ e) := by rw [hm, cast_rat]
  have habs : ((|a| : ℚ) : ℝ) = m * 2 ^ e := by rw [Rat.cast_abs, hcast, abs_signedReal hpos]
  constructor
  · intro hc
    refine approx_near hi hh (by rw [hv, FF.special, if_neg hm0.ne']) ?_ (Real.exp_pos _).ne' fun c y hy =>
      (FF.Off.of_clear hn hc).not_value (Real.exp_pos _).ne' hy
    rw [hcast] at hc ⊢
    rw [hv]
    exact FF.expV_rounds hn r.rm s hm0 e hc
  · intro hc
    have h60 : |a| < 2 ^ (-60 : ℤ) → (m : ℝ) * 2 ^ e < 2 ^ (-60 : ℤ) := fun h => by
      have := (Rat.cast_lt (K := ℝ)).mpr h
      rwa [habs, Rat.cast_zpow, Rat.cast_ofNat] at this
    have h32 : 32 ≤ |a| → (32 : ℝ) ≤ m * 2 ^ e := fun h => by rw [← habs]; exact_mod_cast h
    rw [hcast] at hc ⊢
    obtain ⟨h1, h2⟩ := FF.tanhV_rounds hn r.rm s hm0 hm24 e (hc.imp_right (Or.imp h60 h32))
    have hne : Real.tanh (signedReal s (m * 2 ^ e)) ≠ 0 := by
      rw [tanh_signedReal]
      exact signedReal_ne_zero (tanh_pos hpos)
    refine approx_near hi hh (by rw [hv, FF.special, if_neg hm0.ne']) ?_ hne fun c y hy => h2.not_value hne hy
    rw [hv]
    exact h1

end Sys2Proof.Machine
end

section
/-! Bounds of the exponential, the logarithm and the root (R70, R139): rounded outward, moved an ulp at most, and an interval made of them. -/

namespace Sys2Proof.Machine

/-! ### Bounds with their exactness -/

/-- A lower bound, exact where it is the number itself. -/
def Bound.Below (b : Bound) (x : EReal) : Prop := LowerBound b.bits x ∧ (b.exact = true ↔ (endOf b.bits).ext = x)

/-- An upper bound, exact where it is the number itself. -/
def Bound.Above (b : Bound) (x : EReal) : Prop := UpperBound b.bits x ∧ (b.exact = true ↔ (endOf b.bits).ext = x)

section
variable {rm : RM} {x : ℝ} {q : FR}

theorem top_lt_of_overflows (h : Spec.overflows .f32 rm x) : (endOf 0x7F7FFFFF).ext < (|x| : ℝ) := by
  have hu : ((((FF.f32.maxSig - 1 : ℕ) : ℚ) * 2 ^ (FF.f32.emax - FF.f32.fb) : ℚ) : ℝ) < (((FF.f32.maxSig : ℚ) * 2 ^ (FF.f32.emax - FF.f32.fb) : ℚ) : ℝ) := by
    exact_mod_cast mul_lt_mul_of_pos_right (by exact_mod_cast (by decide : FF.f32.maxSig - 1 < FF.f32.maxSig)) (by positivity)
  rw [Spec.overflows, FF.f32.value_topOf.1, FF.f32.value_topOf.2] at h
  simp only [Option.getD_some] at h
  rw [endOf_top, End.ext, EReal.coe_lt_coe_iff]
  rcases h with ⟨-, h | ⟨-, h⟩⟩ | ⟨-, h⟩ | ⟨-, -, h⟩ <;> linarith

/-- A number's bound is within the largest numbers. -/
theorem IsNum.abs_le_top {c : ℕ} (hc : IsNum c) (h : (endOf c).ext = x) : ((|x| : ℝ) : EReal) ≤ (endOf 0x7F7FFFFF).ext := by
  obtain ⟨h1, h2⟩ := hc.top_cases
  have ne1 : c ≠ 0x7F800000 := fun e => by rw [(endOf_inf hc).1.mpr e] at h; exact absurd h (EReal.coe_ne_top x).symm
  have ne2 : c ≠ 0xFF800000 := fun e => by rw [(endOf_inf hc).2.mpr e] at h; exact absurd h (EReal.coe_ne_bot x).symm
  have h1 := h1.resolve_left ne1
  have h2 := h2.resolve_left ne2
  rw [h] at h1 h2
  rw [endOf_neg_top] at h2
  rcases abs_cases x with ⟨e, -⟩ | ⟨e, -⟩
  · rw [e]; exact h1
  · rw [e, EReal.coe_neg]
    exact EReal.neg_le_of_neg_le h2

/-- NX tells whether a result is exact. -/
theorem exact_iff (h : Spec.rounds .f32 rm false x q) (hn : IsNum q.bits) : (q.fl &&& fNX == 0) = true ↔ (endOf q.bits).ext = x := by
  have hnx : ∀ fl : BitVec 6, (fl &&& fNX == 0) = true ↔ fl.getLsbD 0 = false := by decide
  rw [hnx]
  by_cases ho : Spec.overflows .f32 rm x
  · obtain ⟨b, -, -, -, hfl, -⟩ := h.1 ho
    refine iff_of_false (by rw [hfl]; decide) fun he => ?_
    exact absurd (top_lt_of_overflows ho) (not_lt.mpr (hn.abs_le_top he))
  · obtain ⟨b, m, y, -, -, -, hv, -, -, hq⟩ := h.2 ho
    obtain ⟨hb, -, hi, -⟩ := hq (by simp)
    rw [hb, endOf_of_value hv, End.ext, EReal.coe_eq_coe_iff, ← Bool.not_eq_true, hi, not_not]

theorem boundOf_below (h : Spec.rounds .f32 .rdn false x q) : (boundOf q).Below x :=
  ⟨lowerBound_of_rounds h, exact_iff h (lowerBound_of_rounds h).num⟩

theorem boundOf_above (h : Spec.rounds .f32 .rup false x q) : (boundOf q).Above x :=
  ⟨upperBound_of_rounds h, exact_iff h (upperBound_of_rounds h).num⟩

end

theorem zeroBound_below : zeroBound.Below 0 := ⟨lowerBound_zero, iff_of_true rfl (by rw [zeroBound, endOf_zero (by norm_num)]; simp [End.ext])⟩

theorem zeroBound_above : zeroBound.Above 0 := ⟨upperBound_zero, iff_of_true rfl (by rw [zeroBound, endOf_zero (by norm_num)]; simp [End.ext])⟩

theorem infBound_below : (infBound true).Below ⊥ := by
  have e : endOf 0xFF800000 = .ninf := (endOf_inf isNum_inf.2).2.mpr rfl
  exact ⟨⟨isNum_inf.2, by decide, (congrArg End.ext e).le, fun c _ h => h.trans bot_le⟩, iff_of_true rfl (congrArg End.ext e)⟩

theorem infBound_above : (infBound false).Above ⊤ := by
  have e : endOf 0x7F800000 = .pinf := (endOf_inf isNum_inf.1).1.mpr rfl
  exact ⟨⟨isNum_inf.1, by decide, (congrArg End.ext e).ge, fun c _ h => le_trans le_top h⟩, iff_of_true rfl (congrArg End.ext e)⟩

/-! ### The three functions at a bound -/

/-- The exponential at an end. -/
noncomputable def expEnd : End → EReal
  | .ninf => 0
  | .fin q => (Real.exp q : ℝ)
  | .pinf => ⊤

/-- The logarithm at an end; −∞ for 0 and below. -/
noncomputable def lnEnd : End → EReal
  | .ninf => ⊥
  | .fin q => if 0 < q then (Real.log q : ℝ) else ⊥
  | .pinf => ⊤

/-- The root at an end; 0 for 0 and below. -/
noncomputable def sqrtEnd : End → EReal
  | .ninf => 0
  | .fin q => (√q : ℝ)
  | .pinf => ⊤

/-- A bound is an infinity, or a number whose significand and exponent are those of its pattern. -/
theorem IsNum.val_end {b : ℕ} (hb : IsNum b) : (∃ n, FF.f32.val b = .inf n ∧ endOf b = if n then .ninf else .pinf) ∨
    ∃ n m e q, FF.f32.val b = .fin n m e ∧ endOf b = .fin q ∧ Spec.value .f32 b = some q ∧ (q : ℝ) = signedReal n (m * 2 ^ e) := by
  rcases hb.val_cases with ⟨n, hv⟩ | ⟨n, m, e, hv⟩
  · exact .inl ⟨n, hv, by rw [endOf, hv]⟩
  · rcases FF.f32.val_cases b with ⟨-, h1, -⟩ | ⟨m', e', hv', h1, -⟩
    · rw [hv] at h1; cases h1
    · obtain ⟨rfl, rfl, rfl⟩ : _ = n ∧ _ = m ∧ _ = e := by simpa using hv'.symm.trans hv
      exact .inr ⟨_, _, _, _, hv', endOf_of_value h1, h1, cast_rat ..⟩

theorem expV_at (rm : RM) {n : Bool} {m : ℕ} {e : ℤ} {q : ℚ} (hq : (q : ℝ) = signedReal n (m * 2 ^ e)) (hc : (q : ℝ) = 0 ∨ Spec.clear (Real.exp q)) :
    Spec.rounds .f32 rm false (Real.exp q) (FF.f32.expV rm n m e) := by
  by_cases hm : m = 0
  · have hq0 : (q : ℝ) = 0 := hq.trans (signedReal_eq_zero.mpr hm)
    have h := FF.f32.round_rounds rm false false 1 0
    rw [FF.expV, if_pos hm, hq0, Real.exp_zero]
    simpa [signedReal] using h
  · have hc := hc.resolve_left fun h0 => hm (signedReal_eq_zero.mp (hq.symm.trans h0))
    rw [hq] at hc ⊢
    exact FF.expV_rounds f32_narrow rm n (Nat.pos_of_ne_zero hm) e hc

/-- The logarithm of a positive bound. -/
theorem lnV_at (rm : RM) {b : ℕ} {n : Bool} {m : ℕ} {e : ℤ} {q : ℚ} (hv : FF.f32.val b = .fin n m e) (hm : 0 < m)
    (hq : (q : ℝ) = m * 2 ^ e) (hc : (q : ℝ) = 1 ∨ Spec.clear (Real.log q)) :
    Spec.rounds .f32 rm false (Real.log q) (FF.f32.lnV rm m e) := by
  obtain ⟨h1, h2, h3⟩ := FF.val_bounds hv
  have hm24 : m < 2 ^ 24 := h1
  have he1 : -149 ≤ e := h2
  have he2 : e < 106 := h3
  rw [hq] at hc ⊢
  by_cases h0 : (m : ℝ) * 2 ^ e = 1
  · rw [h0, Real.log_one, FF.lnV, fxLn_one h0]
    exact FF.f32.rounds_zero rm false false
  · have hl : m.log2 < 24 := (Nat.log2_lt hm.ne').mpr hm24
    exact FF.lnV_rounds f32_narrow rm hm hm24 (abs_le.mpr ⟨by omega, by omega⟩) h0 (hc.resolve_left h0)

section
variable {b : ℕ} (hb : IsNum b)
include hb

theorem expBound_below (hn : endOf b ≠ .pinf) (hc : ∀ q, Spec.value .f32 b = some q → (q : ℝ) = 0 ∨ Spec.clear (Real.exp q)) :
    (expBound false b).Below (expEnd (endOf b)) := by
  unfold expBound
  rcases hb.val_end with ⟨n, hv, he⟩ | ⟨n, m, e, q, hv, he, hval, hq⟩
  · cases n
    · exact absurd he hn
    · rw [hv, he]
      exact zeroBound_below
  · rw [hv, he]
    exact boundOf_below (expV_at _ hq (hc q hval))

theorem expBound_above (hn : endOf b ≠ .ninf) (hc : ∀ q, Spec.value .f32 b = some q → (q : ℝ) = 0 ∨ Spec.clear (Real.exp q)) :
    (expBound true b).Above (expEnd (endOf b)) := by
  unfold expBound
  rcases hb.val_end with ⟨n, hv, he⟩ | ⟨n, m, e, q, hv, he, hval, hq⟩
  · cases n
    · rw [hv, he]
      exact infBound_above
    · exact absurd he hn
  · rw [hv, he]
    exact boundOf_above (expV_at _ hq (hc q hval))

/-- What the logarithm's bound comes to at a number. -/
theorem lnBound_cases (up : Bool) (hc : ∀ q, Spec.value .f32 b = some q → 0 < q → (q : ℝ) = 1 ∨ Spec.clear (Real.log q)) :
    (∃ n, endOf b = (if n then .ninf else .pinf) ∧ lnBound up b = infBound n) ∨ (∃ q, endOf b = .fin q ∧ q ≤ 0 ∧ lnBound up b = infBound true) ∨
      ∃ q p, endOf b = .fin q ∧ 0 < q ∧ lnBound up b = boundOf p ∧ Spec.rounds .f32 (if up then .rup else .rdn) false (Real.log q) p := by
  unfold lnBound
  rcases hb.val_end with ⟨n, hv, he⟩ | ⟨n, m, e, q, hv, he, hval, hq⟩
  · exact .inl ⟨n, he, by rw [hv]⟩
  · right
    rw [hv]
    by_cases h0 : n = true ∨ m = 0
    · refine .inl ⟨q, he, ?_, if_pos (by simpa using h0)⟩
      have hp : (0 : ℝ) ≤ m * 2 ^ e := by positivity
      have : (q : ℝ) ≤ 0 := by
        rw [hq]
        rcases h0 with h0 | h0
        · simp [h0, signedReal, hp]
        · exact (signedReal_eq_zero.mpr h0).le
      exact_mod_cast this
    · have hn : n = false := by simpa using (not_or.mp h0).1
      have hm : 0 < m := Nat.pos_of_ne_zero (not_or.mp h0).2
      subst hn
      have hq : (q : ℝ) = m * 2 ^ e := hq
      have hpos : 0 < q := by
        have : (0 : ℝ) < q := hq ▸ mul_pos (by exact_mod_cast hm) (two_zpow_pos e)
        exact_mod_cast this
      exact .inr ⟨q, _, he, hpos, if_neg (by simpa using hm.ne'), lnV_at _ hv hm hq (hc q hval hpos)⟩

theorem lnBound_below (hn : endOf b ≠ .pinf) (hc : ∀ q, Spec.value .f32 b = some q → 0 < q → (q : ℝ) = 1 ∨ Spec.clear (Real.log q)) :
    (lnBound false b).Below (lnEnd (endOf b)) := by
  rcases lnBound_cases hb false hc with ⟨n, he, hl⟩ | ⟨q, he, hq, hl⟩ | ⟨q, p, he, hq, hl, hr⟩
  · cases n
    · exact absurd he hn
    · rw [he, hl]
      exact infBound_below
  · rw [he, hl, lnEnd, if_neg (not_lt.mpr hq)]
    exact infBound_below
  · rw [he, hl, lnEnd, if_pos hq]
    exact boundOf_below hr

theorem lnBound_above (hn : 0 < (endOf b).ext) (hc : ∀ q, Spec.value .f32 b = some q → 0 < q → (q : ℝ) = 1 ∨ Spec.clear (Real.log q)) :
    (lnBound true b).Above (lnEnd (endOf b)) := by
  rcases lnBound_cases hb true hc with ⟨n, he, hl⟩ | ⟨q, he, hq, hl⟩ | ⟨q, p, he, hq, hl, hr⟩
  · cases n
    · rw [he, hl]
      exact infBound_above
    · rw [he] at hn
      exact absurd hn not_lt_bot
  · rw [he] at hn
    have : (0 : ℝ) < q := EReal.coe_pos.mp hn
    exact absurd (by exact_mod_cast this) (not_lt.mpr hq)
  · rw [he, hl, lnEnd, if_pos hq]
    exact boundOf_above hr

/-- What the root's bound comes to at a number. -/
theorem sqrtBound_cases (up : Bool) :
    (∃ n : Bool, endOf b = (if n then .ninf else .pinf) ∧ sqrtBound up b = if n then zeroBound else infBound false) ∨
      (∃ q, endOf b = .fin q ∧ √(q : ℝ) = 0 ∧ sqrtBound up b = zeroBound) ∨
      ∃ q p, endOf b = .fin q ∧ sqrtBound up b = boundOf p ∧ Spec.rounds .f32 (if up then .rup else .rdn) false √(q : ℝ) p := by
  unfold sqrtBound
  rcases hb.val_end with ⟨n, hv, he⟩ | ⟨n, m, e, q, hv, he, hval, hq⟩
  · exact .inl ⟨n, he, by rw [hv]⟩
  · right
    rw [hv]
    by_cases h0 : n = true ∨ m = 0
    · refine .inl ⟨q, he, Real.sqrt_eq_zero_of_nonpos ?_, if_pos (by simpa using h0)⟩
      have hp : (0 : ℝ) ≤ m * 2 ^ e := by positivity
      rw [hq]
      rcases h0 with h0 | h0
      · simp [h0, signedReal, hp]
      · exact (signedReal_eq_zero.mpr h0).le
    · have hn : n = false := by simpa using (not_or.mp h0).1
      subst hn
      have hp : (0 : ℝ) ≤ signedReal false (m * 2 ^ e) := by
        have : (0 : ℝ) ≤ m * 2 ^ e := by positivity
        exact this
      have hr := (FF.f32.sqrtV_result { rm := if up then .rup else .rdn } false m e hp).1
      rw [← hq] at hr
      exact .inr ⟨q, _, he, if_neg (by simpa using (not_or.mp h0).2), hr⟩

theorem sqrtBound_below (hn : endOf b ≠ .pinf) : (sqrtBound false b).Below (sqrtEnd (endOf b)) := by
  rcases sqrtBound_cases hb false with ⟨n, he, hl⟩ | ⟨q, he, hq, hl⟩ | ⟨q, p, he, hl, hr⟩
  · cases n
    · exact absurd he hn
    · rw [he, hl]
      exact zeroBound_below
  · rw [he, hl, sqrtEnd, hq]
    exact zeroBound_below
  · rw [he, hl]
    exact boundOf_below hr

theorem sqrtBound_above : (sqrtBound true b).Above (sqrtEnd (endOf b)) := by
  rcases sqrtBound_cases hb true with ⟨n, he, hl⟩ | ⟨q, he, hq, hl⟩ | ⟨q, p, he, hl, hr⟩
  · cases n
    · rw [he, hl]
      exact infBound_above
    · rw [he, hl]
      exact zeroBound_above
  · rw [he, hl, sqrtEnd, hq]
    exact zeroBound_above
  · rw [he, hl]
    exact boundOf_above hr

end

end Sys2Proof.Machine
end

section
/-! Intervals whose bounds lie at most an ulp outside (R70, R139): `ISQRT`, `IEXP` and `ILOG` (R143). -/

namespace Sys2Proof.Machine

/-! ### An ulp outward -/

/-- A bound that stands for `b` below, an ulp lower at most. -/
structure NearBelow (b c : ℕ) : Prop where
  num : IsNum c
  ne : c ≠ 0x7F800000
  le : Spec.place .f32 false c ≤ Spec.place .f32 false b
  near : Spec.place .f32 false b - 1 ≤ Spec.place .f32 false c

/-- A bound that stands for `b` above, an ulp higher at most. -/
structure NearAbove (b c : ℕ) : Prop where
  num : IsNum c
  ne : c ≠ 0xFF800000
  le : Spec.place .f32 false b ≤ Spec.place .f32 false c
  near : Spec.place .f32 false c ≤ Spec.place .f32 false b + 1

section
variable {b : Bound} {x : EReal} (op y z : ℕ)

theorem slackLo_near (h : b.Below x) : NearBelow b.bits (slackLo op y z b) := by
  obtain ⟨⟨hn, hne, -, -⟩, -⟩ := h
  have ⟨h1, h2⟩ := hn
  unfold slackLo
  split
  · unfold ulpDown
    rw [infBits_f32, if_pos rfl]
    split
    · exact ⟨hn, hne, le_rfl, by omega⟩
    · split
      · next h0 => refine ⟨by norm_num [IsNum], by norm_num, ?_, ?_⟩ <;> rw [place_eq, place_eq, h0] <;> norm_num
      · split
        · refine ⟨⟨by omega, by omega⟩, by omega, ?_, ?_⟩ <;> rw [place_eq, place_eq] <;> split_ifs <;> omega
        · refine ⟨⟨by omega, by omega⟩, by omega, ?_, ?_⟩ <;> rw [place_eq, place_eq] <;> split_ifs <;> omega
  · exact ⟨hn, hne, le_rfl, by omega⟩

theorem slackHi_near (h : b.Above x) : NearAbove b.bits (slackHi op y z b) := by
  obtain ⟨⟨hn, hne, -, -⟩, -⟩ := h
  have ⟨h1, h2⟩ := hn
  unfold slackHi
  split
  · unfold ulpUp
    rw [infBits_f32, if_neg Bool.false_ne_true]
    split
    · exact ⟨hn, hne, le_rfl, by omega⟩
    · split
      · next h0 => refine ⟨by norm_num [IsNum], by norm_num, ?_, ?_⟩ <;> rw [place_eq, place_eq, h0] <;> norm_num
      · split
        · refine ⟨⟨by omega, by omega⟩, by omega, ?_, ?_⟩ <;> rw [place_eq, place_eq] <;> split_ifs <;> omega
        · refine ⟨⟨by omega, by omega⟩, by omega, ?_, ?_⟩ <;> rw [place_eq, place_eq] <;> split_ifs <;> omega
  · exact ⟨hn, hne, le_rfl, by omega⟩

end

/-! ### The interval of two bounds -/

theorem place_canonLo (b : ℕ) : Spec.place .f32 false (canonLo b) = Spec.place .f32 false b := by
  unfold canonLo
  split
  · next h => rw [place_eq, place_eq, h]; norm_num
  · rfl

theorem place_canonHi (b : ℕ) : Spec.place .f32 false (canonHi b) = Spec.place .f32 false b := by
  unfold canonHi
  split
  · next h => rw [place_eq, place_eq, h]; norm_num
  · rfl

/-- Bounds an ulp outside at most make an interval around a set, an ulp wider on each side at most (R139). -/
theorem anUlpWide_of {H : Set ℝ} {el eh : EReal} {l h lo hi : ℕ} (hH : H.Nonempty) (hl : IsInf H el) (hh : IsSup H eh) (bl : LowerBound l el)
    (bh : UpperBound h eh) (nl : NearBelow l lo) (nh : NearAbove h hi) :
    Bounds (canonLo lo) (canonHi hi) ∧ Spec.anUlpWide (· ∈ H) (ivOf lo hi).bits := by
  obtain ⟨c1, c2, c3⟩ := canonLo_spec nl.num
  obtain ⟨d1, d2, d3⟩ := canonHi_spec nh.num
  have hlo : (endOf (canonLo lo)).ext ≤ el := by
    rw [c2]
    exact ((nl.num.ext_le_iff bl.num).mpr nl.le).trans bl.le
  have hhi : eh ≤ (endOf (canonHi hi)).ext := by
    rw [d2]
    exact bh.le.trans ((bh.num.ext_le_iff nh.num).mpr nh.le)
  have hle : el ≤ eh := by
    obtain ⟨v, hv⟩ := hH
    exact (hl.1 v hv).trans (hh.1 v hv)
  have hb : Bounds (canonLo lo) (canonHi hi) := by
    refine ⟨c1, d1, fun e => nl.ne ((endOf_inf nl.num).1.mp ?_), fun e => nh.ne ((endOf_inf nh.num).2.mp ?_), hlo.trans (hle.trans hhi), c3, d3⟩
    · rw [← c2, (endOf_inf c1).1.mpr e]
    · rw [← d2, (endOf_inf d1).2.mpr e]
  rw [ivOf_eq]
  obtain ⟨e1, e2⟩ := bits_mod c1.1 (canonHi hi)
  refine ⟨hb, fun v hv => (hb.inBox_iff v).mpr ⟨hlo.trans (hl.1 v hv), (hh.1 v hv).trans hhi⟩, fun j hj hjH => ?_⟩
  obtain ⟨jl, jh, -⟩ := isBox_iff.mp hj
  have hjH (v) (hv : v ∈ H) := (inBox_iff hj v).mp (hjH v hv)
  have p1 := (jl.ext_le_iff bl.num).mp (bl.greatest _ jl (hl.greatest fun v hv => (hjH v hv).1))
  have p2 := (bh.num.ext_le_iff jh).mp (bh.least _ jh (hh.least fun v hv => (hjH v hv).2))
  rw [e1, e2, place_canonLo, place_canonHi]
  have := nl.near
  have := nh.near
  constructor <;> omega

/-! ### Ends of an image -/

/-- The values of a function at the numbers between two ends where it is defined. -/
def imageOf (F : ℝ → ℝ) (D : ℝ → Prop) (l h : End) : Set ℝ := {v | ∃ x : ℝ, (l.ext ≤ x ∧ x ≤ h.ext) ∧ D x ∧ v = F x}

section
variable {F : ℝ → ℝ} {D : ℝ → Prop} {l h : End}

/-- A function that grows where it is defined, from some number on. -/
structure Grows (F : ℝ → ℝ) (D : ℝ → Prop) : Prop where
  up : ∀ x y, D x → x ≤ y → D y
  mono : ∀ x y, D x → x ≤ y → F x ≤ F y
  unbounded : ∀ r, ∃ y, ∀ x, y ≤ x → r < F x

variable (hF : Grows F D) (hne : (imageOf F D l h).Nonempty)
include hF hne

theorem Grows.inf_fin {q : ℚ} (hl : l = .fin q) (hq : D q) : IsInf (imageOf F D l h) (F q : ℝ) := by
  subst hl
  obtain ⟨_, y, ⟨y1, y2⟩, -, -⟩ := hne
  refine ⟨?_, fun r hr => ⟨F q, ⟨q, ⟨le_rfl, y1.trans y2⟩, hq, rfl⟩, EReal.coe_lt_coe_iff.mp hr⟩⟩
  rintro _ ⟨x, ⟨x1, -⟩, -, rfl⟩
  exact EReal.coe_le_coe_iff.mpr (hF.mono _ _ hq (EReal.coe_le_coe_iff.mp x1))

theorem Grows.sup_fin {q : ℚ} (hh : h = .fin q) : IsSup (imageOf F D l h) (F q : ℝ) := by
  subst hh
  obtain ⟨_, y, ⟨y1, y2⟩, hy, -⟩ := hne
  have hq : D q := hF.up _ _ hy (EReal.coe_le_coe_iff.mp y2)
  refine ⟨?_, fun r hr => ⟨F q, ⟨q, ⟨y1.trans y2, le_rfl⟩, hq, rfl⟩, EReal.coe_lt_coe_iff.mp hr⟩⟩
  rintro _ ⟨x, ⟨-, x2⟩, hx, rfl⟩
  exact EReal.coe_le_coe_iff.mpr (hF.mono _ _ hx (EReal.coe_le_coe_iff.mp x2))

theorem Grows.sup_top (hh : h = .pinf) : IsSup (imageOf F D l h) ⊤ := by
  subst hh
  obtain ⟨_, y, ⟨y1, -⟩, hy, -⟩ := hne
  refine ⟨fun _ _ => le_top, fun r _ => ?_⟩
  obtain ⟨z, hz⟩ := hF.unbounded r
  refine ⟨F (max y z), ⟨max y z, ⟨y1.trans (EReal.coe_le_coe_iff.mpr (le_max_left _ _)), le_top⟩, hF.up _ _ hy (le_max_left _ _), rfl⟩, hz _ (le_max_right _ _)⟩

end

theorem exp_grows : Grows Real.exp fun _ => True :=
  ⟨fun _ _ _ _ => trivial, fun _ _ _ h => Real.exp_le_exp.mpr h, fun r => ⟨r, fun x hx => by linarith [Real.add_one_le_exp x]⟩⟩

theorem log_grows : Grows Real.log (0 < ·) :=
  ⟨fun _ _ hx h => hx.trans_le h, fun _ _ hx h => Real.log_le_log hx h,
    fun r => ⟨Real.exp (r + 1), fun x hx => by
      have := Real.log_le_log (Real.exp_pos _) hx
      rw [Real.log_exp] at this
      linarith⟩⟩

theorem sqrt_grows : Grows Real.sqrt (0 ≤ ·) :=
  ⟨fun _ _ hx h => hx.trans h, fun _ _ _ h => Real.sqrt_le_sqrt h,
    fun r => ⟨(|r| + 1) ^ 2, fun x hx => by
      have := Real.sqrt_le_sqrt hx
      rw [Real.sqrt_sq (by positivity)] at this
      linarith [le_abs_self r]⟩⟩

section
variable {l h : End}

theorem exp_inf (hl : l ≠ .pinf) (hne : (imageOf Real.exp (fun _ => True) l h).Nonempty) : IsInf (imageOf Real.exp (fun _ => True) l h) (expEnd l) := by
  cases l with
  | pinf => exact absurd rfl hl
  | fin q => exact exp_grows.inf_fin hne rfl trivial
  | ninf =>
    obtain ⟨_, y, ⟨-, y2⟩, -, -⟩ := hne
    refine ⟨?_, fun r hr => ?_⟩
    · rintro _ ⟨x, -, -, rfl⟩
      exact EReal.coe_nonneg.mpr (Real.exp_pos x).le
    · have hr : 0 < r := EReal.coe_pos.mp hr
      refine ⟨Real.exp (min y (Real.log r - 1)), ⟨min y (Real.log r - 1), ⟨bot_le, le_trans (EReal.coe_le_coe_iff.mpr (min_le_left _ _)) y2⟩, trivial, rfl⟩, ?_⟩
      calc Real.exp (min y (Real.log r - 1)) ≤ Real.exp (Real.log r - 1) := Real.exp_le_exp.mpr (min_le_right _ _)
        _ < Real.exp (Real.log r) := Real.exp_lt_exp.mpr (by linarith)
        _ = r := Real.exp_log hr

theorem exp_sup (hh : h ≠ .ninf) (hne : (imageOf Real.exp (fun _ => True) l h).Nonempty) : IsSup (imageOf Real.exp (fun _ => True) l h) (expEnd h) := by
  cases h with
  | ninf => exact absurd rfl hh
  | fin q => exact exp_grows.sup_fin hne rfl
  | pinf => exact exp_grows.sup_top hne rfl

theorem log_inf (hl : l ≠ .pinf) (hne : (imageOf Real.log (0 < ·) l h).Nonempty) : IsInf (imageOf Real.log (0 < ·) l h) (lnEnd l) := by
  have hbot (hle : l.ext ≤ 0) : IsInf (imageOf Real.log (0 < ·) l h) ⊥ := by
    obtain ⟨_, y, ⟨-, y2⟩, hy, -⟩ := hne
    refine ⟨fun _ _ => bot_le, fun r _ => ?_⟩
    have hpos : 0 < min y (Real.exp (r - 1)) := lt_min hy (Real.exp_pos _)
    refine ⟨_, ⟨min y (Real.exp (r - 1)), ⟨hle.trans (EReal.coe_nonneg.mpr hpos.le), le_trans (EReal.coe_le_coe_iff.mpr (min_le_left _ _)) y2⟩, hpos, rfl⟩, ?_⟩
    have := Real.log_le_log hpos (min_le_right _ _)
    rw [Real.log_exp] at this
    linarith
  cases l with
  | pinf => exact absurd rfl hl
  | ninf => exact hbot bot_le
  | fin q =>
    rw [lnEnd]
    split
    · next hq => exact log_grows.inf_fin hne rfl (by exact_mod_cast hq)
    · next hq => exact hbot (by rw [End.ext]; exact_mod_cast not_lt.mp hq)

theorem log_sup (hh : h ≠ .ninf) (hne : (imageOf Real.log (0 < ·) l h).Nonempty) : IsSup (imageOf Real.log (0 < ·) l h) (lnEnd h) := by
  cases h with
  | ninf => exact absurd rfl hh
  | pinf => exact log_grows.sup_top hne rfl
  | fin q =>
    have hq : 0 < q := by
      obtain ⟨_, y, ⟨-, y2⟩, hy, -⟩ := hne
      have : (0 : ℝ) < q := lt_of_lt_of_le hy (EReal.coe_le_coe_iff.mp y2)
      exact_mod_cast this
    rw [lnEnd, if_pos hq]
    exact log_grows.sup_fin hne rfl

theorem sqrt_inf (hl : l ≠ .pinf) (hne : (imageOf Real.sqrt (0 ≤ ·) l h).Nonempty) : IsInf (imageOf Real.sqrt (0 ≤ ·) l h) (sqrtEnd l) := by
  have hzero (hle : l.ext ≤ 0) : IsInf (imageOf Real.sqrt (0 ≤ ·) l h) 0 := by
    obtain ⟨_, y, ⟨-, y2⟩, hy, -⟩ := hne
    refine ⟨?_, fun r hr => ⟨√0, ⟨0, ⟨hle, le_trans (EReal.coe_nonneg.mpr hy) y2⟩, le_rfl, rfl⟩, by rw [Real.sqrt_zero]; exact EReal.coe_pos.mp hr⟩⟩
    rintro _ ⟨x, -, -, rfl⟩
    exact EReal.coe_nonneg.mpr (Real.sqrt_nonneg x)
  cases l with
  | pinf => exact absurd rfl hl
  | ninf => exact hzero bot_le
  | fin q =>
    rcases le_or_gt 0 q with hq | hq
    · exact sqrt_grows.inf_fin hne rfl (by exact_mod_cast hq)
    · have hq' : (q : ℝ) ≤ 0 := by exact_mod_cast hq.le
      rw [sqrtEnd, Real.sqrt_eq_zero_of_nonpos hq']
      exact hzero (by rw [End.ext]; exact_mod_cast hq')

theorem sqrt_sup (hh : h ≠ .ninf) (hne : (imageOf Real.sqrt (0 ≤ ·) l h).Nonempty) : IsSup (imageOf Real.sqrt (0 ≤ ·) l h) (sqrtEnd h) := by
  cases h with
  | ninf => exact absurd rfl hh
  | fin q => exact sqrt_grows.sup_fin hne rfl
  | pinf => exact sqrt_grows.sup_top hne rfl

end

end Sys2Proof.Machine
end

section
/-! `ISQRT`, `IEXP` and `ILOG` enclose every result, an ulp wider than the tightest at most (R70, R139, R143). -/

namespace Sys2Proof.Machine

/-! ### Bounds as they are read -/

theorem value_congr {b c : ℕ} (hb : IsNum b) (hc : IsNum c) (h : endOf b = endOf c) : Spec.value .f32 b = Spec.value .f32 c := by
  have inf {c : ℕ} (hc : IsNum c) {q : ℚ} (hm : c % 2 ^ 31 = 0x7F800000) (h : endOf c = .fin q) : False := by
    rcases (show c = 0x7F800000 ∨ c = 0xFF800000 by have := hc.1; omega) with e | e
    · rw [(endOf_inf hc).1.mpr e] at h; cases h
    · rw [(endOf_inf hc).2.mpr e] at h; cases h
  rcases value_cases hb with ⟨m1, v1⟩ | ⟨-, q, v1, e1⟩ <;> rcases value_cases hc with ⟨m2, v2⟩ | ⟨-, r, v2, e2⟩
  · rw [v1, v2]
  · exact (inf hb m1 (h.trans e2)).elim
  · exact (inf hc m2 (h.symm.trans e1)).elim
  · rw [v1, v2]
    exact congrArg some (End.fin.inj (e1.symm.trans (h.trans e2)))

/-- A finite bound has a clear result, or is the number at which the function is exact. -/
def ClearAt (f : ℝ → ℝ) (dom : ℝ → Prop) (at_ : ℝ) (b : ℕ) : Prop :=
  ∀ q : ℚ, Spec.value .f32 b = some q → dom q → (q : ℝ) = at_ ∨ Spec.clear (f q)

/-- What holds of the finite bounds of an interval holds of them as they are read. -/
theorem clearBounds_read {f : ℝ → ℝ} {dom : ℝ → Prop} {at_ : ℝ} {a : ℕ} (ha : Spec.isBox a) (h : Spec.clearBounds f dom at_ a) :
    ClearAt f dom at_ (canonLo (a % 2 ^ 32)) ∧ ClearAt f dom at_ (canonHi (a / 2 ^ 32)) := by
  obtain ⟨hl, hh, -⟩ := isBox_iff.mp ha
  obtain ⟨l1, l2, -⟩ := canonLo_spec hl
  obtain ⟨h1, h2, -⟩ := canonHi_spec hh
  unfold ClearAt
  rw [value_congr l1 hl l2, value_congr h1 hh h2]
  exact ⟨h _ (by simp), h _ (by simp)⟩

/-! ### Results -/

/-- The result of an operation whose results are `H`, an ulp wider on each side at most (R139). -/
def IvR.Near (r : IvR) (H : Set ℝ) : Prop :=
  (r.em = true ↔ ¬∃ v, v ∈ H) ∧ (r.em = true → r.v = .empty) ∧ r.ni = false ∧
    (r.em = false → Spec.canonicalBox r.v.bits ∧ Spec.anUlpWide (· ∈ H) r.v.bits)

section
variable {H : Set ℝ}

theorem near_empty (hH : ¬∃ v, v ∈ H) : (⟨.empty, false, Iv.empty == .empty⟩ : IvR).Near H :=
  ⟨iff_of_true rfl hH, fun _ => rfl, rfl, fun h => absurd h (by decide)⟩

theorem near_ivOf {el eh : EReal} {l h : Bound} (op y z : ℕ) (hH : H.Nonempty) (hl : IsInf H el) (hh : IsSup H eh) (bl : l.Below el) (bh : h.Above eh) :
    (⟨ivOf (slackLo op y z l) (slackHi op y z h), false, ivOf (slackLo op y z l) (slackHi op y z h) == .empty⟩ : IvR).Near H := by
  obtain ⟨hb, hw⟩ := anUlpWide_of hH hl hh bl.1 bh.1 (slackLo_near op y z bl) (slackHi_near op y z bh)
  have he : (ivOf (slackLo op y z l) (slackHi op y z h) == .empty) = false := rfl
  rw [he]
  exact ⟨iff_of_false Bool.false_ne_true (not_not.mpr hH), fun h => absurd h Bool.false_ne_true, rfl, fun _ => ⟨hb.canonicalBox, hw⟩⟩

/-- There are results, where the function is defined from some number on. -/
theorem imageOf_nonempty {F : ℝ → ℝ} {D : ℝ → Prop} {l h : End} {x t : ℝ} (hx : l.ext ≤ x ∧ x ≤ h.ext) (ht : t ≤ h.ext) (hD : ∀ y, t ≤ y → D y) :
    (imageOf F D l h).Nonempty := by
  refine ⟨_, max x t, ⟨hx.1.trans (EReal.coe_le_coe_iff.mpr (le_max_left _ _)), ?_⟩, hD _ (le_max_right _ _), rfl⟩
  rcases max_choice x t with e | e <;> rw [e]
  · exact hx.2
  · exact ht

end

section
variable {l h : ℕ} (hb : Bounds l h)
include hb

theorem Bounds.ne_top : endOf l ≠ .pinf := fun e => hb.lo_ne ((endOf_inf hb.lo_num).1.mp e)

theorem Bounds.ne_bot : endOf h ≠ .ninf := fun e => hb.hi_ne ((endOf_inf hb.hi_num).2.mp e)

theorem Bounds.exists_mem : ∃ x : ℝ, (endOf l).ext ≤ x ∧ x ≤ (endOf h).ext := by
  obtain ⟨x, hx⟩ := boxSeg_nonempty hb.canonicalBox.1
  exact ⟨x, (hb.inBox_iff x).mp ((boxSeg_has hb.canonicalBox.1).mp hx)⟩

theorem exp_nonempty : (imageOf Real.exp (fun _ => True) (endOf l) (endOf h)).Nonempty := by
  obtain ⟨x, hx⟩ := hb.exists_mem
  exact ⟨_, x, hx, trivial, rfl⟩

theorem log_nonempty : (imageOf Real.log (0 < ·) (endOf l) (endOf h)).Nonempty ↔ 0 < (endOf h).ext := by
  constructor
  · rintro ⟨_, x, ⟨-, hx⟩, h0, rfl⟩
    exact (EReal.coe_pos.mpr h0).trans_le hx
  · intro h0
    obtain ⟨x, hx⟩ := hb.exists_mem
    obtain ⟨t, ht, hth⟩ := EReal.lt_iff_exists_real_btwn.mp h0
    exact imageOf_nonempty hx hth.le fun y hy => (EReal.coe_pos.mp ht).trans_le hy

theorem sqrt_nonempty : (imageOf Real.sqrt (0 ≤ ·) (endOf l) (endOf h)).Nonempty ↔ 0 ≤ (endOf h).ext := by
  constructor
  · rintro ⟨_, x, ⟨-, hx⟩, h0, rfl⟩
    exact (EReal.coe_nonneg.mpr h0).trans hx
  · intro h0
    obtain ⟨x, hx⟩ := hb.exists_mem
    exact imageOf_nonempty hx (t := 0) h0 fun y hy => hy

end

section
variable {a : ℕ} (ha : Spec.isBox a)
include ha

/-- The results of a function at the numbers of an interval, by its bounds as they are read. -/
theorem mem_imageOf_read {F : ℝ → ℝ} {D : ℝ → Prop} (v : ℝ) :
    v ∈ imageOf F D (endOf (canonLo (a % 2 ^ 32))) (endOf (canonHi (a / 2 ^ 32))) ↔ ∃ x, Spec.inBox a x ∧ D x ∧ v = F x := by
  obtain ⟨-, e1, e2⟩ := Bounds.of_box ha
  simp only [imageOf, Set.mem_ofPred_eq, inBox_iff ha, e1, e2, loExt, hiExt]

theorem ivSqrt_near : (ivSqrt a).Near {v | ∃ x, Spec.inBox a x ∧ 0 ≤ x ∧ v = √x} := by
  obtain ⟨hb, -⟩ := Bounds.of_box ha
  rw [← Set.ext (mem_imageOf_read ha), ivSqrt, ivOp1_box ha]
  have hz : End.lt (endOf (canonHi (a / 2 ^ 32))) (.fin 0) = true ↔ ¬0 ≤ (endOf (canonHi (a / 2 ^ 32))).ext := by
    rw [End.lt_iff, not_le]
    simp [End.ext]
  split
  · next h => exact near_empty (mt (sqrt_nonempty hb).mp (hz.mp h))
  · next h =>
    have hne := (sqrt_nonempty hb).mpr (not_not.mp (mt hz.mpr h))
    exact near_ivOf _ _ _ hne (sqrt_inf hb.ne_top hne) (sqrt_sup hb.ne_bot hne) (sqrtBound_below hb.lo_num hb.ne_top) (sqrtBound_above hb.hi_num)

theorem ivExp_near (hc : Spec.clearBounds Real.exp (fun _ => True) 0 a) : (ivExp a).Near {v | ∃ x, Spec.inBox a x ∧ v = Real.exp x} := by
  obtain ⟨hb, -⟩ := Bounds.of_box ha
  obtain ⟨cl, ch⟩ := clearBounds_read ha hc
  have e : {v | ∃ x, Spec.inBox a x ∧ v = Real.exp x} = _ :=
    Set.ext fun v => (exists_congr fun x => by rw [true_and]).trans (mem_imageOf_read ha (F := Real.exp) (D := fun _ => True) v).symm
  have hne := exp_nonempty hb
  rw [e, ivExp, ivOp1_box ha]
  exact near_ivOf _ _ _ hne (exp_inf hb.ne_top hne) (exp_sup hb.ne_bot hne) (expBound_below hb.lo_num hb.ne_top fun q hq => cl q hq trivial)
    (expBound_above hb.hi_num hb.ne_bot fun q hq => ch q hq trivial)

theorem ivLog_near (hc : Spec.clearBounds Real.log (0 < ·) 1 a) : (ivLog a).Near {v | ∃ x, Spec.inBox a x ∧ 0 < x ∧ v = Real.log x} := by
  obtain ⟨hb, -⟩ := Bounds.of_box ha
  obtain ⟨cl, ch⟩ := clearBounds_read ha hc
  rw [← Set.ext (mem_imageOf_read ha), ivLog, ivOp1_box ha]
  have hz : End.le (endOf (canonHi (a / 2 ^ 32))) (.fin 0) = true ↔ ¬0 < (endOf (canonHi (a / 2 ^ 32))).ext := by
    rw [End.le_iff, not_lt]
    simp [End.ext]
  split
  · next h => exact near_empty (mt (log_nonempty hb).mp (hz.mp h))
  · next h =>
    have h0 := not_not.mp (mt hz.mpr h)
    have hne := (log_nonempty hb).mpr h0
    exact near_ivOf _ _ _ hne (log_inf hb.ne_top hne) (log_sup hb.ne_bot hne) (lnBound_below hb.lo_num hb.ne_top fun q hq hd => cl q hq (Rat.cast_pos.mpr hd))
      (lnBound_above hb.hi_num h0 fun q hq hd => ch q hq (Rat.cast_pos.mpr hd))

end

end Sys2Proof.Machine
end

section
/-! An enclosure with slack met with an interval (R139, R148): the steps of `CEXP`. -/

namespace Sys2Proof.Machine

/-! ### The ends of a part of an interval -/

section
variable {K : Set ℝ} {a b e : EReal} {v : ℝ}

/-- The numbers of a set between two bounds. -/
def partOf (a b : EReal) (K : Set ℝ) : Set ℝ := {q | (a ≤ q ∧ q ≤ b) ∧ q ∈ K}

theorem partOf_inf (hK : K.OrdConnected) (hi : IsInf K e) (hv : v ∈ partOf a b K) : IsInf (partOf a b K) (max a e) := by
  refine ⟨fun q hq => max_le hq.1.1 (hi.1 q hq.2), fun r hr => ?_⟩
  obtain ⟨har, her⟩ := max_lt_iff.mp hr
  by_cases hvr : v < r
  · exact ⟨v, hv, hvr⟩
  · obtain ⟨⟨hav, hvb⟩, hvK⟩ := hv
    obtain ⟨w, hw, hwr⟩ := hi.2 r her
    obtain ⟨t, hat, htr⟩ := EReal.lt_iff_exists_real_btwn.mp har
    have htr : t < r := EReal.coe_lt_coe_iff.mp htr
    have hlt : max w t < r := max_lt hwr htr
    have hle : max w t ≤ v := hlt.le.trans (not_lt.mp hvr)
    exact ⟨max w t, ⟨⟨hat.le.trans (EReal.coe_le_coe_iff.mpr (le_max_right _ _)), (EReal.coe_le_coe_iff.mpr hle).trans hvb⟩,
      hK.out hw hvK ⟨le_max_left _ _, hle⟩⟩, hlt⟩

theorem partOf_sup (hK : K.OrdConnected) (hs : IsSup K e) (hv : v ∈ partOf a b K) : IsSup (partOf a b K) (min b e) := by
  refine ⟨fun q hq => le_min hq.1.2 (hs.1 q hq.2), fun r hr => ?_⟩
  obtain ⟨hrb, hre⟩ := lt_min_iff.mp hr
  by_cases hvr : r < v
  · exact ⟨v, hv, hvr⟩
  · obtain ⟨⟨hav, hvb⟩, hvK⟩ := hv
    obtain ⟨w, hw, hrw⟩ := hs.2 r hre
    obtain ⟨t, hrt, htb⟩ := EReal.lt_iff_exists_real_btwn.mp hrb
    have hrt : r < t := EReal.coe_lt_coe_iff.mp hrt
    have hlt : r < min w t := lt_min hrw hrt
    have hle : v ≤ min w t := (not_lt.mp hvr).trans hlt.le
    exact ⟨min w t, ⟨⟨hav.trans (EReal.coe_le_coe_iff.mpr hle), (EReal.coe_le_coe_iff.mpr (min_le_right _ _)).trans htb.le⟩,
      hK.out hvK hw ⟨hle, min_le_left _ _⟩⟩, hlt⟩

end

/-! ### The greater and the lesser of two bounds -/

/-- The greater of two lower bounds. -/
def maxBits (a b : ℕ) : ℕ := if End.lt (endOf b) (endOf a) then a else b
/-- The lesser of two upper bounds. -/
def minBits (a b : ℕ) : ℕ := if End.lt (endOf a) (endOf b) then a else b

section
variable {a b c d : ℕ} {x y : EReal}

theorem maxBits_cases (ha : IsNum a) (hb : IsNum b) :
    (maxBits a b = a ∧ Spec.place .f32 false b < Spec.place .f32 false a) ∨ (maxBits a b = b ∧ Spec.place .f32 false a ≤ Spec.place .f32 false b) := by
  unfold maxBits
  split
  · next h => exact .inl ⟨rfl, not_le.mp fun hle => not_le.mpr ((End.lt_iff _ _).mp h) ((ha.ext_le_iff hb).mpr hle)⟩
  · next h => exact .inr ⟨rfl, (ha.ext_le_iff hb).mp (not_lt.mp fun hlt => h ((End.lt_iff _ _).mpr hlt))⟩

theorem minBits_cases (ha : IsNum a) (hb : IsNum b) :
    (minBits a b = a ∧ Spec.place .f32 false a < Spec.place .f32 false b) ∨ (minBits a b = b ∧ Spec.place .f32 false b ≤ Spec.place .f32 false a) := by
  unfold minBits
  split
  · next h => exact .inl ⟨rfl, not_le.mp fun hle => not_le.mpr ((End.lt_iff _ _).mp h) ((hb.ext_le_iff ha).mpr hle)⟩
  · next h => exact .inr ⟨rfl, (hb.ext_le_iff ha).mp (not_lt.mp fun hlt => h ((End.lt_iff _ _).mpr hlt))⟩

/-- The greater of two numbers has the greater of their lower bounds, one of them a bound itself. -/
theorem LowerBound.max (ha : IsNum a) (hn : a ≠ 0x7F800000) (h : LowerBound b x) : LowerBound (maxBits a b) (max (endOf a).ext x) := by
  rcases maxBits_cases ha h.num with ⟨e, hp⟩ | ⟨e, hp⟩ <;> rw [e]
  · have hba := (h.num.ext_le_iff ha).mpr hp.le
    exact ⟨ha, hn, le_max_left _ _, fun c hc hle => (le_max_iff.mp hle).elim id fun hx => (h.greatest c hc hx).trans hba⟩
  · have hab := (ha.ext_le_iff h.num).mpr hp
    exact ⟨h.num, h.ne, h.le.trans (le_max_right _ _), fun c hc hle => (le_max_iff.mp hle).elim (·.trans hab) fun hx => h.greatest c hc hx⟩

theorem UpperBound.min (ha : IsNum a) (hn : a ≠ 0xFF800000) (h : UpperBound b x) : UpperBound (minBits a b) (min (endOf a).ext x) := by
  rcases minBits_cases ha h.num with ⟨e, hp⟩ | ⟨e, hp⟩ <;> rw [e]
  · have hba := (ha.ext_le_iff h.num).mpr hp.le
    exact ⟨ha, hn, min_le_left _ _, fun c hc hle => (min_le_iff.mp hle).elim id fun hx => hba.trans (h.least c hc hx)⟩
  · have hab := (h.num.ext_le_iff ha).mpr hp
    exact ⟨h.num, h.ne, (min_le_right _ _).trans h.le, fun c hc hle => (min_le_iff.mp hle).elim hab.trans fun hx => h.least c hc hx⟩

theorem NearBelow.max (ha : IsNum a) (hn : a ≠ 0x7F800000) (hb : IsNum b) (h : NearBelow b c) : NearBelow (maxBits a b) (maxBits a c) := by
  obtain ⟨h1, h2, h3, h4⟩ := h
  rcases maxBits_cases ha h1 with ⟨e, hp⟩ | ⟨e, hp⟩ <;> rcases maxBits_cases ha hb with ⟨e', hp'⟩ | ⟨e', hp'⟩ <;> rw [e, e']
  · exact ⟨ha, hn, le_rfl, by omega⟩
  · exact ⟨ha, hn, by omega, by omega⟩
  · exact ⟨h1, h2, by omega, by omega⟩
  · exact ⟨h1, h2, h3, h4⟩

theorem NearAbove.min (ha : IsNum a) (hn : a ≠ 0xFF800000) (hb : IsNum b) (h : NearAbove b c) : NearAbove (minBits a b) (minBits a c) := by
  obtain ⟨h1, h2, h3, h4⟩ := h
  rcases minBits_cases ha h1 with ⟨e, hp⟩ | ⟨e, hp⟩ <;> rcases minBits_cases ha hb with ⟨e', hp'⟩ | ⟨e', hp'⟩ <;> rw [e, e']
  · exact ⟨ha, hn, le_rfl, by omega⟩
  · exact ⟨ha, hn, by omega, by omega⟩
  · exact ⟨h1, h2, by omega, by omega⟩
  · exact ⟨h1, h2, h3, h4⟩

theorem le_maxBits_ext (ha : IsNum a) (hb : IsNum b) : (endOf a).ext ≤ (endOf (maxBits a b)).ext := by
  rcases maxBits_cases ha hb with ⟨e, -⟩ | ⟨e, hp⟩ <;> rw [e]
  exact (ha.ext_le_iff hb).mpr hp

theorem minBits_ext_le (ha : IsNum a) (hb : IsNum b) : (endOf (minBits a b)).ext ≤ (endOf a).ext := by
  rcases minBits_cases ha hb with ⟨e, -⟩ | ⟨e, hp⟩ <;> rw [e]
  exact (hb.ext_le_iff ha).mpr hp

end

/-! ### Emptiness -/

/-- A lower bound with the set it belongs to: where it is exact the set attains it, unless it is −∞; where it is not, it lies outside. -/
structure Bound.LowEnd (l : Bound) (K : Set ℝ) (e : EReal) : Prop where
  inf : IsInf K e
  bound : LowerBound l.bits e
  attained : l.exact = true → (endOf l.bits).ext = e ∧ (e ≠ ⊥ → ∃ w ∈ K, (w : EReal) = e)
  outside : l.exact = false → ∀ w ∈ K, (endOf l.bits).ext < w

/-- The same of an upper bound. -/
structure Bound.HighEnd (h : Bound) (K : Set ℝ) (e : EReal) : Prop where
  sup : IsSup K e
  bound : UpperBound h.bits e
  attained : h.exact = true → (endOf h.bits).ext = e ∧ (e ≠ ⊤ → ∃ w ∈ K, (w : EReal) = e)
  outside : h.exact = false → ∀ w ∈ K, (w : EReal) < (endOf h.bits).ext

section
variable {K : Set ℝ} {l h : Bound} {el eh : EReal} {a b : ℕ} {q : ℝ}

/-- A number above the bound's end, and not in the set, has numbers of the set below any bound above it. -/
theorem Bound.LowEnd.exists_le (hl : l.LowEnd K el) (hb : IsNum b) (hq : (boundSeg l h).Has q) (hqb : (q : EReal) ≤ (endOf b).ext) (hqe : (q : EReal) ≤ el) :
    ∃ w ∈ K, (w : EReal) ≤ (endOf b).ext := by
  have hlow : (endOf l.bits).ext < q ∨ ((segOf l.bits h.bits).lc && l.exact) = true ∧ (endOf l.bits).ext = q := hq.1
  by_cases he : (endOf b).ext ≤ el
  · have hbl := hl.bound.greatest b hb he
    rcases hlow with hlt | ⟨hx, heq⟩
    · exact absurd (hlt.trans_le (hqb.trans hbl)) (lt_irrefl _)
    · obtain ⟨e1, e2⟩ := hl.attained (Bool.and_eq_true_iff.mp hx).2
      obtain ⟨w, hw, hwe⟩ := e2 (by rw [← e1, heq]; exact EReal.coe_ne_bot q)
      exact ⟨w, hw, by rw [hwe, ← e1, heq]; exact hqb⟩
  · obtain ⟨r, hr, hrb⟩ := EReal.lt_iff_exists_real_btwn.mp (not_le.mp he)
    obtain ⟨w, hw, hwr⟩ := hl.inf.2 r hr
    exact ⟨w, hw, (EReal.coe_le_coe_iff.mpr hwr.le).trans hrb.le⟩

theorem Bound.HighEnd.exists_ge (hh : h.HighEnd K eh) (ha : IsNum a) (hq : (boundSeg l h).Has q) (haq : (endOf a).ext ≤ q) (heq : eh ≤ q) :
    ∃ w ∈ K, (endOf a).ext ≤ w := by
  have hhigh : (q : EReal) < (endOf h.bits).ext ∨ ((segOf l.bits h.bits).hc && h.exact) = true ∧ (q : EReal) = (endOf h.bits).ext := hq.2
  by_cases he : eh ≤ (endOf a).ext
  · have hbl := hh.bound.least a ha he
    rcases hhigh with hlt | ⟨hx, heq⟩
    · exact absurd ((hbl.trans haq).trans_lt hlt) (lt_irrefl _)
    · obtain ⟨e1, e2⟩ := hh.attained (Bool.and_eq_true_iff.mp hx).2
      obtain ⟨w, hw, hwe⟩ := e2 (by rw [← e1, ← heq]; exact EReal.coe_ne_top q)
      exact ⟨w, hw, by rw [hwe, ← e1, ← heq]; exact haq⟩
  · obtain ⟨r, har, hr⟩ := EReal.lt_iff_exists_real_btwn.mp (not_le.mp he)
    obtain ⟨w, hw, hrw⟩ := hh.sup.2 r hr
    exact ⟨w, hw, har.le.trans (EReal.coe_le_coe_iff.mpr hrw.le)⟩

theorem boundSeg_has (hl : l.LowEnd K el) (hh : h.HighEnd K eh) (hq : q ∈ K) : (boundSeg l h).Has q := by
  have lo := hl.inf.1 q hq
  have hi := hh.sup.1 q hq
  refine ⟨?_, ?_⟩
  · show (endOf l.bits).ext < q ∨ ((endOf l.bits != .ninf) && l.exact) = true ∧ (endOf l.bits).ext = q
    cases hx : l.exact
    · exact .inl (hl.outside hx q hq)
    · obtain ⟨e1, -⟩ := hl.attained hx
      rcases lo.lt_or_eq with hlt | heq
      · exact .inl (e1 ▸ hlt)
      · refine .inr ⟨?_, e1.trans heq⟩
        rw [Bool.and_true, bne_iff_ne]
        intro h0
        rw [heq, h0] at e1
        exact EReal.bot_ne_coe q e1
  · show (q : EReal) < (endOf h.bits).ext ∨ ((endOf h.bits != .pinf) && h.exact) = true ∧ (q : EReal) = (endOf h.bits).ext
    cases hx : h.exact
    · exact .inl (hh.outside hx q hq)
    · obtain ⟨e1, -⟩ := hh.attained hx
      rcases hi.lt_or_eq with hlt | heq
      · exact .inl (e1 ▸ hlt)
      · refine .inr ⟨?_, heq.trans e1.symm⟩
        rw [Bool.and_true, bne_iff_ne]
        intro h0
        rw [← heq, h0] at e1
        exact EReal.top_ne_coe q e1

/-- Between bounds of F32 lies a number of the enclosure exactly where a number of the set does. -/
theorem boundSeg_iff (hK : K.OrdConnected) (hl : l.LowEnd K el) (hh : h.HighEnd K eh) (hne : K.Nonempty) (hab : Bounds a b) :
    ((segOf a b).meet (boundSeg l h)).some? = true ↔ ∃ q, q ∈ partOf (endOf a).ext (endOf b).ext K := by
  have hbox (q : ℝ) : (segOf a b).Has q ↔ (endOf a).ext ≤ q ∧ q ≤ (endOf b).ext := by
    have hc := hab.canonicalBox
    obtain ⟨e1, e2⟩ := bits_mod hab.lo_num.1 b
    have e : boxSeg (Iv.iv a b).bits = segOf a b := by
      rw [boxSeg, ← Spec.lo_eq, ← Spec.hi_eq, ← hc.2.1, ← hc.2.2, e1, e2]
    rw [← hab.inBox_iff, ← boxSeg_has hc.1, e]
  rw [Seg.some?_iff]
  simp only [Seg.meet_has, hbox]
  constructor
  · rintro ⟨q, ⟨haq, hqb⟩, hq⟩
    by_cases hqK : q ∈ K
    · exact ⟨q, ⟨haq, hqb⟩, hqK⟩
    · obtain ⟨v, hv⟩ := hne
      rcases le_total q v with hqv | hvq
      · have hlow (w) (hw : w ∈ K) : q < w := not_le.mp fun hle => hqK (hK.out hw hv ⟨hle, hqv⟩)
        obtain ⟨w, hw, hwb⟩ := hl.exists_le hab.hi_num hq hqb (hl.inf.greatest fun w hw => EReal.coe_le_coe_iff.mpr (hlow w hw).le)
        exact ⟨w, ⟨haq.trans (EReal.coe_le_coe_iff.mpr (hlow w hw).le), hwb⟩, hw⟩
      · have hhigh (w) (hw : w ∈ K) : w < q := not_le.mp fun hle => hqK (hK.out hv hw ⟨hvq, hle⟩)
        obtain ⟨w, hw, haw⟩ := hh.exists_ge hab.lo_num hq haq (hh.sup.least fun w hw => EReal.coe_le_coe_iff.mpr (hhigh w hw).le)
        exact ⟨w, ⟨haw, (EReal.coe_le_coe_iff.mpr (hhigh w hw).le).trans hqb⟩, hw⟩
  · rintro ⟨q, hq, hqK⟩
    exact ⟨q, hq, boundSeg_has hl hh hqK⟩

end

/-! ### The meet -/

/-- What a step leaves of an operand, of which the numbers `hit` can stay: an interval around these, an ulp wider on each side at most, within the
operand. -/
def StepNear (v : ℕ × ℕ) (hit : ℝ → Prop) (r : Iv) : Prop :=
  let set (q : ℝ) : Prop := Spec.inBox (Iv.iv v.1 v.2).bits q ∧ hit q
  (r = .empty ∧ ¬∃ q, set q) ∨ ∃ lo hi, r = .iv lo hi ∧ Bounds lo hi ∧ (∃ q, set q) ∧ Spec.anUlpWide set (Iv.iv lo hi).bits ∧
    ∀ q, Spec.inBox (Iv.iv lo hi).bits q → Spec.inBox (Iv.iv v.1 v.2).bits q

section
variable {K : Set ℝ} {l h : Bound} {el eh : EReal} {v : ℕ × ℕ} {lo hi : ℕ} {hit : ℝ → Prop}

theorem meetBounds_near (hv : Bounds v.1 v.2) (hK : K.OrdConnected) (hne : K.Nonempty) (hl : l.LowEnd K el) (hh : h.HighEnd K eh)
    (nl : NearBelow l.bits lo) (nh : NearAbove h.bits hi) (hm : ∀ q, hit q ↔ q ∈ K) :
    StepNear v hit (meetBounds v l h lo hi) := by
  have hset : (fun q => Spec.inBox (Iv.iv v.1 v.2).bits q ∧ hit q) = (· ∈ partOf (endOf v.1).ext (endOf v.2).ext K) :=
    funext fun q => propext ((and_congr_right fun _ => hm q).trans (and_congr_left fun _ => hv.inBox_iff q))
  have hiff := boundSeg_iff hK hl hh hne hv
  unfold StepNear meetBounds
  dsimp only
  split
  · next hs =>
    obtain ⟨q, hq⟩ := hiff.mp hs
    obtain ⟨hb, hw⟩ := anUlpWide_of ⟨q, hq⟩ (partOf_inf hK hl.inf hq) (partOf_sup hK hh.sup hq) (hl.bound.max hv.lo_num hv.lo_ne)
      (hh.bound.min hv.hi_num hv.hi_ne) (nl.max hv.lo_num hv.lo_ne hl.bound.num) (nh.min hv.hi_num hv.hi_ne hh.bound.num)
    refine .inr ⟨_, _, rfl, hb, ⟨q, (congrFun hset q).mpr hq⟩, ?_, fun r hr => (hv.inBox_iff r).mpr ?_⟩
    · rw [hset]
      exact hw
    · obtain ⟨r1, r2⟩ := (hb.inBox_iff r).mp hr
      rw [(canonLo_spec (nl.max hv.lo_num hv.lo_ne hl.bound.num).num).2.1] at r1
      rw [(canonHi_spec (nh.min hv.hi_num hv.hi_ne hh.bound.num).num).2.1] at r2
      exact ⟨(le_maxBits_ext hv.lo_num nl.num).trans r1, r2.trans (minBits_ext_le hv.hi_num nh.num)⟩
  · next hs =>
    refine .inl ⟨rfl, fun ⟨q, hq⟩ => hs (hiff.mpr ⟨q, (congrFun hset q).mp hq⟩)⟩

end

end Sys2Proof.Machine
end

section
/-! The steps of `CEXP` (R148): what the exponential and the logarithm leave of an operand. -/

namespace Sys2Proof.Machine

/-! ### Ends of the sets of results -/

section
variable {K : Set ℝ} {b : Bound} {e : EReal}

theorem Bound.Below.lowEnd (hb : b.Below e) (hi : IsInf K e) (ha : e ≠ ⊥ → ∃ w ∈ K, (w : EReal) = e) : b.LowEnd K e := by
  refine ⟨hi, hb.1, fun h => ⟨hb.2.mp h, ha⟩, fun h w hw => ?_⟩
  have hne : (endOf b.bits).ext ≠ e := fun he => by simp [hb.2.mpr he] at h
  exact (lt_of_le_of_ne hb.1.le hne).trans_le (hi.1 w hw)

theorem Bound.Above.highEnd (hb : b.Above e) (hs : IsSup K e) (ha : e ≠ ⊤ → ∃ w ∈ K, (w : EReal) = e) : b.HighEnd K e := by
  refine ⟨hs, hb.1, fun h => ⟨hb.2.mp h, ha⟩, fun h w hw => ?_⟩
  have hne : e ≠ (endOf b.bits).ext := fun he => by simp [hb.2.mpr he.symm] at h
  exact (hs.1 w hw).trans_lt (lt_of_le_of_ne hb.1.le hne)

/-- A lower end that the set does not attain. -/
theorem Bound.Below.lowEnd_open (hb : b.Below e) (hi : IsInf K e) (ho : ∀ w ∈ K, e < w) : Bound.LowEnd { b with exact := false } K e :=
  ⟨hi, hb.1, fun h => absurd h Bool.false_ne_true, fun _ w hw => hb.1.le.trans_lt (ho w hw)⟩

end

section
variable {l h : End}

theorem mem_exp_imageOf {v : ℝ} : v ∈ imageOf Real.exp (fun _ => True) l h ↔ ∃ x : ℝ, (l.ext ≤ x ∧ x ≤ h.ext) ∧ v = Real.exp x := by
  simp [imageOf]

theorem mem_log_imageOf {v : ℝ} : v ∈ imageOf Real.log (0 < ·) l h ↔ l.ext ≤ (Real.exp v : ℝ) ∧ ((Real.exp v : ℝ) : EReal) ≤ h.ext := by
  constructor
  · rintro ⟨x, hx, h0, rfl⟩
    rwa [Real.exp_log h0]
  · intro hx
    exact ⟨_, hx, Real.exp_pos v, (Real.log_exp v).symm⟩

theorem exp_ordConnected : (imageOf Real.exp (fun _ => True) l h).OrdConnected := by
  refine ⟨fun u hu w hw v hv => ?_⟩
  obtain ⟨x, ⟨hx, -⟩, rfl⟩ := mem_exp_imageOf.mp hu
  obtain ⟨y, ⟨-, hy⟩, rfl⟩ := mem_exp_imageOf.mp hw
  obtain ⟨h1, h2⟩ := hv
  have h0 : 0 < v := (Real.exp_pos x).trans_le h1
  refine mem_exp_imageOf.mpr ⟨Real.log v, ⟨hx.trans (EReal.coe_le_coe_iff.mpr ((Real.le_log_iff_exp_le h0).mpr h1)), ?_⟩, (Real.exp_log h0).symm⟩
  exact (EReal.coe_le_coe_iff.mpr ((Real.log_le_iff_le_exp h0).mpr h2)).trans hy

theorem log_ordConnected : (imageOf Real.log (0 < ·) l h).OrdConnected := by
  refine ⟨fun u hu w hw v hv => ?_⟩
  obtain ⟨hx, -⟩ := mem_log_imageOf.mp hu
  obtain ⟨-, hy⟩ := mem_log_imageOf.mp hw
  obtain ⟨h1, h2⟩ := hv
  exact mem_log_imageOf.mpr ⟨hx.trans (EReal.coe_le_coe_iff.mpr (Real.exp_le_exp.mpr h1)), (EReal.coe_le_coe_iff.mpr (Real.exp_le_exp.mpr h2)).trans hy⟩

theorem lnEnd_attained_low (hl : l ≠ .pinf) (hne : (imageOf Real.log (0 < ·) l h).Nonempty) (hb : lnEnd l ≠ ⊥) :
    ∃ w ∈ imageOf Real.log (0 < ·) l h, (w : EReal) = lnEnd l := by
  cases l with
  | pinf => exact absurd rfl hl
  | ninf => exact absurd rfl hb
  | fin q =>
    obtain ⟨_, y, ⟨y1, y2⟩, -, -⟩ := hne
    rw [lnEnd] at hb ⊢
    split at hb
    · next hq => exact ⟨_, ⟨q, ⟨le_rfl, y1.trans y2⟩, Rat.cast_pos.mpr hq, rfl⟩, by rw [if_pos hq]⟩
    · exact absurd rfl hb

theorem lnEnd_attained_high (hh : h ≠ .ninf) (hne : (imageOf Real.log (0 < ·) l h).Nonempty) (hb : lnEnd h ≠ ⊤) :
    ∃ w ∈ imageOf Real.log (0 < ·) l h, (w : EReal) = lnEnd h := by
  cases h with
  | ninf => exact absurd rfl hh
  | pinf => exact absurd rfl hb
  | fin q =>
    obtain ⟨_, y, ⟨y1, y2⟩, hy, -⟩ := hne
    have hq : (0 : ℝ) < q := hy.trans_le (EReal.coe_le_coe_iff.mp y2)
    rw [lnEnd, if_pos (Rat.cast_pos.mp hq)]
    exact ⟨_, ⟨q, ⟨y1.trans y2, le_rfl⟩, hq, rfl⟩, rfl⟩

theorem expEnd_attained_low {q : ℚ} (hne : (imageOf Real.exp (fun _ => True) (.fin q) h).Nonempty) :
    ∃ w ∈ imageOf Real.exp (fun _ => True) (.fin q) h, (w : EReal) = expEnd (.fin q) := by
  obtain ⟨_, y, ⟨y1, y2⟩, -, -⟩ := hne
  exact ⟨_, ⟨q, ⟨le_rfl, y1.trans y2⟩, trivial, rfl⟩, rfl⟩

theorem expEnd_attained_high (hh : h ≠ .ninf) (hne : (imageOf Real.exp (fun _ => True) l h).Nonempty) (hb : expEnd h ≠ ⊤) :
    ∃ w ∈ imageOf Real.exp (fun _ => True) l h, (w : EReal) = expEnd h := by
  cases h with
  | ninf => exact absurd rfl hh
  | pinf => exact absurd rfl hb
  | fin q =>
    obtain ⟨_, y, ⟨y1, y2⟩, -, -⟩ := hne
    exact ⟨_, ⟨q, ⟨y1.trans y2, le_rfl⟩, trivial, rfl⟩, rfl⟩

end

/-! ### The steps -/

section
variable {x z : ℕ × ℕ} (hx : Bounds x.1 x.2) (hz : Bounds z.1 z.2)
include hx hz

/-- The x step leaves the logarithms of the numbers of z. -/
theorem expX_near (cl : ClearAt Real.log (0 < ·) 1 z.1) (ch : ClearAt Real.log (0 < ·) 1 z.2) :
    StepNear x (fun q => Spec.inBox (Iv.iv z.1 z.2).bits (Real.exp q)) (expX x z) := by
  have hm (q : ℝ) : Spec.inBox (Iv.iv z.1 z.2).bits (Real.exp q) ↔ q ∈ imageOf Real.log (0 < ·) (endOf z.1) (endOf z.2) :=
    (hz.inBox_iff _).trans mem_log_imageOf.symm
  have h0 : End.le (endOf z.2) (.fin 0) = true ↔ ¬0 < (endOf z.2).ext := by
    rw [End.le_iff, not_lt]
    simp [End.ext]
  unfold expX
  split
  · next h =>
    refine .inl ⟨rfl, fun ⟨q, _, hq⟩ => h0.mp h ((log_nonempty hz).mp ⟨q, (hm q).mp hq⟩)⟩
  · next h =>
    have hpos := not_not.mp (mt h0.mpr h)
    have hne := (log_nonempty hz).mpr hpos
    have bl := lnBound_below hz.lo_num hz.ne_top fun q hq hd => cl q hq (Rat.cast_pos.mpr hd)
    have bh := lnBound_above hz.hi_num hpos fun q hq hd => ch q hq (Rat.cast_pos.mpr hd)
    exact meetBounds_near hx log_ordConnected hne (bl.lowEnd (log_inf hz.ne_top hne) (lnEnd_attained_low hz.ne_top hne))
      (bh.highEnd (log_sup hz.ne_bot hne) (lnEnd_attained_high hz.ne_bot hne)) (slackLo_near _ _ _ bl) (slackHi_near _ _ _ bh) hm

/-- The z step leaves the exponentials of the numbers of x; 0 is none of them. -/
theorem expZ_near (cl : ClearAt Real.exp (fun _ => True) 0 x.1) (ch : ClearAt Real.exp (fun _ => True) 0 x.2) :
    StepNear z (fun q => ∃ u, Spec.inBox (Iv.iv x.1 x.2).bits u ∧ q = Real.exp u) (expZ x z) := by
  have hm (q : ℝ) : (∃ u, Spec.inBox (Iv.iv x.1 x.2).bits u ∧ q = Real.exp u) ↔ q ∈ imageOf Real.exp (fun _ => True) (endOf x.1) (endOf x.2) := by
    rw [mem_exp_imageOf]
    exact exists_congr fun u => and_congr_left fun _ => hx.inBox_iff u
  have hne := exp_nonempty hx
  have bl := expBound_below hx.lo_num hx.ne_top fun q hq => cl q hq trivial
  have bh := expBound_above hx.hi_num hx.ne_bot fun q hq => ch q hq trivial
  have hi := exp_inf hx.ne_top hne
  have hh := bh.highEnd (exp_sup hx.ne_bot hne) (expEnd_attained_high hx.ne_bot hne)
  unfold expZ
  dsimp only
  split
  · next he =>
    have hpos : ∀ w ∈ imageOf Real.exp (fun _ => True) (endOf x.1) (endOf x.2), expEnd (endOf x.1) < (w : EReal) := by
      rw [he]
      rintro _ ⟨u, -, -, rfl⟩
      exact EReal.coe_pos.mpr (Real.exp_pos u)
    exact meetBounds_near hz exp_ordConnected hne (bl.lowEnd_open hi hpos) hh (slackLo_near _ _ _ bl) (slackHi_near _ _ _ bh) hm
  · next he =>
    refine meetBounds_near hz exp_ordConnected hne (bl.lowEnd hi fun _ => ?_) hh (slackLo_near _ _ _ bl) (slackHi_near _ _ _ bh) hm
    cases hl : endOf x.1 with
    | ninf => exact absurd hl he
    | pinf => exact absurd hl hx.ne_top
    | fin q => exact expEnd_attained_low (hl ▸ hne)

end

end Sys2Proof.Machine
end

section
/-! The exponential contractor (R148 to R150), and what the transcendental instructions give. -/

namespace Sys2Proof.Machine

/-! ### Operands and their steps -/

/-- The bounds of an operand as they are read. -/
def readBounds (v : ℕ) : ℕ × ℕ := (canonLo (v % 2 ^ 32), canonHi (v / 2 ^ 32))

/-- The pattern of an operand's bounds. -/
def pairBits (v : ℕ × ℕ) : ℕ := (Iv.iv v.1 v.2).bits

/-- The pattern a step leaves, if it is an interval. -/
def Iv.box? : Iv → Option ℕ
  | .iv lo hi => some (pairBits (lo, hi))
  | _ => none

theorem inBox_readBounds {a : ℕ} (ha : Spec.isBox a) (q : ℝ) : Spec.inBox (pairBits (readBounds a)) q ↔ Spec.inBox a q := by
  have := inBox_bits ha q
  rwa [ivRead_box ha] at this

/-- A step over an operand as it is read is one over the operand. -/
theorem StepNear.step {v : ℕ × ℕ} {hit hit' : ℝ → Prop} {r : Iv} {a : ℕ} (h : StepNear v hit r) (ha : ∀ q, Spec.inBox (pairBits v) q ↔ Spec.inBox a q)
    (hh : ∀ q, hit' q ↔ hit q) : Spec.step Spec.anUlpWide hit' a r.box? := by
  have hset : (fun q => Spec.inBox a q ∧ hit' q) = fun q => Spec.inBox (pairBits v) q ∧ hit q := funext fun q => by rw [ha, hh]
  unfold Spec.step
  dsimp only
  rw [hset]
  rcases h with ⟨rfl, h⟩ | ⟨lo, hi, rfl, hb, hne, hw, hs⟩
  · refine ⟨iff_of_true rfl h, fun x hx => ?_⟩
    cases hx
  · refine ⟨iff_of_false (by simp [Iv.box?]) (not_not.mpr hne), fun x hx => ?_⟩
    obtain rfl : pairBits (lo, hi) = x := by simpa [Iv.box?] using hx
    exact ⟨hb.canonicalBox, hw, fun q hq => (ha q).mp (hs q hq)⟩

theorem StepNear.cases {v : ℕ × ℕ} {hit : ℝ → Prop} {r : Iv} (h : StepNear v hit r) : r = .empty ∨ ∃ lo hi, r = .iv lo hi ∧ Bounds lo hi := by
  rcases h with ⟨h, -⟩ | ⟨lo, hi, h, hb, -⟩
  · exact .inl h
  · exact .inr ⟨lo, hi, h, hb⟩

/-! ### Movement (R72, R150) -/

section
variable {nth old new : ℕ}

theorem movedBound_iff : movedBound nth old new = true ↔ Spec.moves nth old new := by
  have hp (b : ℕ) : ordOf b = Spec.place .f32 false b := (place_eq b).symm
  unfold movedBound Spec.moves
  rw [Bool.or_eq_true, decide_eq_true_eq, hp, hp, Int.natCast_natAbs, bne_iff_ne, isInf, isInf, ne_eq, Bool.eq_iff_iff, beq_iff_eq, beq_iff_eq]
  tauto

/-- A bound moves as it does from its pattern as it is read. -/
theorem moves_canon : (Spec.moves nth (canonLo old) new ↔ Spec.moves nth old new) ∧ (Spec.moves nth (canonHi old) new ↔ Spec.moves nth old new) := by
  have hl : canonLo old % 2 ^ 31 = old % 2 ^ 31 := by unfold canonLo; split <;> omega
  have hh : canonHi old % 2 ^ 31 = old % 2 ^ 31 := by unfold canonHi; split <;> omega
  unfold Spec.moves
  rw [place_canonLo, place_canonHi, hl, hh]
  exact ⟨Iff.rfl, Iff.rfl⟩

/-- Whether an operand moves, by its bounds. -/
theorem moved_iff {v : ℕ × ℕ} (hv : v.1 < 2 ^ 32) : moved nth (.iv (readBounds old).1 (readBounds old).2) (.iv v.1 v.2) = true ↔
    Spec.moves nth (old % 2 ^ 32) (pairBits v % 2 ^ 32) ∨ Spec.moves nth (old / 2 ^ 32) (pairBits v / 2 ^ 32) := by
  obtain ⟨e1, e2⟩ := bits_mod hv v.2
  simp only [moved, Bool.or_eq_true, movedBound_iff, readBounds, moves_canon, pairBits, e1, e2]

end

/-! ### The contractor -/

section
variable {sh : Shared} {noZ : Bool} {nth a b c : ℕ} (ha : Spec.isBox a) (hc : Spec.isBox c)

/-- The steps of the exponential contractor. -/
def expSteps (sh : Shared) (noZ : Bool) (a c : ℕ) : Except ℕ Boxes :=
  runSteps .exp sh ([0] ++ [] ++ if !noZ then [2] else []) ⟨readBounds a, (0, 0), readBounds c⟩

/-- The result of the contractor, by what its steps leave. -/
def expResult (sh : Shared) (noZ : Bool) (nth a b c : ℕ) : Except ℕ Boxes → CtrR
  | .error n => { x := Iv.empty.bits, y := b, z := if !noZ || sh.xz then Iv.empty.bits else c, ni := false, em := true, np := true, which := n }
  | .ok u =>
    { x := pairBits u.x, y := b, z := if !noZ || sh.xz then pairBits u.z else c, ni := false, em := false
      np := moved nth (.iv (readBounds a).1 (readBounds a).2) (.iv u.x.1 u.x.2) ||
        (!noZ && moved nth (.iv (readBounds c).1 (readBounds c).2) (.iv u.z.1 u.z.2)) }

include ha hc in
theorem contract_exp_eq : contract .exp sh noZ nth a b c = expResult sh noZ nth a b c (expSteps sh noZ a c) := by
  unfold contract
  rw [ivRead_box ha, ivRead_box hc]
  show (match expSteps sh noZ a c with | .error n => _ | .ok u => _) = _
  cases expSteps sh noZ a c with
  | error n => simp [expResult, Rel.binary, moved]
  | ok u => simp [expResult, pairBits, readBounds, Rel.binary]

/-! ### Its steps -/

section
variable {lo hi : ℕ}

/-- The bounds of z once x has been written (R149). -/
def zBounds (sh : Shared) (c lo hi : ℕ) : ℕ × ℕ := if sh.xz then (lo, hi) else readBounds c

theorem expSteps_x_empty (h : expX (readBounds a) (readBounds c) = .empty) : expSteps sh noZ a c = .error 0 := by
  simp [expSteps, runSteps, stepOf, h]

variable (h : expX (readBounds a) (readBounds c) = .iv lo hi)
include h

theorem expSteps_noZ : ∃ y, expSteps sh true a c = .ok ⟨(lo, hi), y, zBounds sh c lo hi⟩ :=
  ⟨_, by simp [expSteps, runSteps, stepOf, h, Boxes.put, zBounds]; rfl⟩

theorem expSteps_z_empty (hz : expZ (lo, hi) (zBounds sh c lo hi) = .empty) : expSteps sh false a c = .error 2 := by
  have hz : stepOf .exp 2 (lo, hi) (if sh.xy then (lo, hi) else (0, 0)) (if sh.xz then (lo, hi) else readBounds c) = .empty := hz
  have hx : stepOf .exp 0 (readBounds a) (0, 0) (readBounds c) = .iv lo hi := h
  simp [expSteps, runSteps, hx, Boxes.put, hz]

theorem expSteps_z {l u : ℕ} (hz : expZ (lo, hi) (zBounds sh c lo hi) = .iv l u) :
    ∃ y, expSteps sh false a c = .ok ⟨if sh.xz then (l, u) else (lo, hi), y, (l, u)⟩ := by
  have hz : stepOf .exp 2 (lo, hi) (if sh.xy then (lo, hi) else (0, 0)) (if sh.xz then (lo, hi) else readBounds c) = .iv l u := hz
  have hx : stepOf .exp 0 (readBounds a) (0, 0) (readBounds c) = .iv lo hi := h
  simp [expSteps, runSteps, hx, Boxes.put, hz]

end

end

end Sys2Proof.Machine
end

section
/-! The exponential contractor leaves its projections, an ulp wider at most (R148 to R150). -/

namespace Sys2Proof.Machine

section
variable {sh : Shared} {noZ : Bool} {nth a b c : ℕ} (ha : Spec.isBox a) (hb : Spec.isBox b) (hc : Spec.isBox c)

theorem isBox_exists_mem (h : Spec.isBox b) : ∃ v, Spec.inBox b v := by
  obtain ⟨v, hv⟩ := boxSeg_nonempty h
  exact ⟨v, (boxSeg_has h).mp hv⟩

/-- What holds of every result of the contractor. -/
theorem expResult_unwritten (r : Except ℕ Boxes) : (expResult sh noZ nth a b c r).ni = false ∧ (expResult sh noZ nth a b c r).y = b ∧
    ((!noZ || sh.xz) = false → (expResult sh noZ nth a b c r).z = c) := by
  cases r with
  | error n => exact ⟨rfl, rfl, fun h => by rw [expResult, h]; rfl⟩
  | ok u => exact ⟨rfl, rfl, fun h => by rw [expResult, h]; rfl⟩

/-- An operand moves where one of its bounds does. -/
theorem expResult_moves {u : Boxes} (hx : u.x.1 < 2 ^ 32) (hz : u.z.1 < 2 ^ 32) : let t := expResult sh noZ nth a b c (.ok u)
    t.np = true ↔ ∃ p ∈ [(a, t.x)] ++ [] ++ (if noZ then [] else [(c, t.z)]),
      Spec.moves nth (p.1 % 2 ^ 32) (p.2 % 2 ^ 32) ∨ Spec.moves nth (p.1 / 2 ^ 32) (p.2 / 2 ^ 32) := by
  cases noZ <;> simp [expResult, moved_iff hx, moved_iff hz, -Nat.reducePow]

section
include hc

theorem zBounds_bounds {lo hi : ℕ} (h : Bounds lo hi) : Bounds (zBounds sh c lo hi).1 (zBounds sh c lo hi).2 := by
  unfold zBounds
  split
  · exact h
  · exact (Bounds.of_box hc).1

theorem inBox_zBounds {lo hi : ℕ} (q : ℝ) :
    Spec.inBox (pairBits (zBounds sh c lo hi)) q ↔ Spec.inBox (if sh.xz then pairBits (lo, hi) else c) q := by
  unfold zBounds
  split
  · rfl
  · exact inBox_readBounds hc q

end

/-- The bounds of a pattern of two. -/
theorem clearAt_pair {f : ℝ → ℝ} {dom : ℝ → Prop} {at_ : ℝ} {lo hi : ℕ} (hl : lo < 2 ^ 32) (h : Spec.clearBounds f dom at_ (pairBits (lo, hi))) :
    ClearAt f dom at_ lo ∧ ClearAt f dom at_ hi := by
  obtain ⟨e1, e2⟩ := bits_mod hl hi
  unfold Spec.clearBounds at h
  rw [pairBits, e1, e2] at h
  exact ⟨h _ (by simp), h _ (by simp)⟩

include ha hc

/-- The z step, with what the contractor gives. -/
theorem cexp_z_step {lo hi : ℕ} (h : expX (readBounds a) (readBounds c) = .iv lo hi) (hx : Bounds lo hi)
    (hok : Spec.clearBounds Real.exp (fun _ => True) 0 (pairBits (lo, hi))) {y : ℕ} (hy : Spec.isBox y) :
    let t := contract .exp sh false nth a b c
    Spec.step Spec.anUlpWide (fun q => ∃ u v, Spec.inBox (pairBits (lo, hi)) u ∧ Spec.inBox y v ∧ q = Real.exp u)
      (if sh.xz then pairBits (lo, hi) else c) (expZ (lo, hi) (zBounds sh c lo hi)).box? ∧
    ((expZ (lo, hi) (zBounds sh c lo hi)).box? = none → expSteps sh false a c = .error 2) ∧
    ∀ z, (expZ (lo, hi) (zBounds sh c lo hi)).box? = some z → t.em = false ∧ t.x = (if sh.xz then z else pairBits (lo, hi)) ∧ t.z = z ∧
      (t.np = true ↔ ∃ p ∈ [(a, t.x)] ++ [] ++ [(c, t.z)],
        Spec.moves nth (p.1 % 2 ^ 32) (p.2 % 2 ^ 32) ∨ Spec.moves nth (p.1 / 2 ^ 32) (p.2 / 2 ^ 32)) := by
  obtain ⟨cl, ch⟩ := clearAt_pair hx.lo_num.1 hok
  have hs := expZ_near (x := (lo, hi)) hx (zBounds_bounds (sh := sh) hc hx) cl ch
  obtain ⟨v, hv⟩ := isBox_exists_mem hy
  refine ⟨hs.step (inBox_zBounds hc) fun q => exists_congr fun u => ⟨fun ⟨_, hu, _, hq⟩ => ⟨hu, hq⟩, fun ⟨hu, hq⟩ => ⟨v, hu, hv, hq⟩⟩, ?_, ?_⟩
  · rcases hs.cases with e | ⟨l, u, e, -⟩
    · exact fun _ => expSteps_z_empty h e
    · rw [e]
      exact nofun
  · rcases hs.cases with e | ⟨l, u, e, hz⟩
    · rw [e]
      exact nofun
    · intro z hzb
      obtain rfl : pairBits (l, u) = z := by simpa [e, Iv.box?] using hzb
      obtain ⟨y', hy'⟩ := expSteps_z (sh := sh) h e
      rw [contract_exp_eq ha hc, hy']
      refine ⟨rfl, ?_, rfl, expResult_moves (noZ := false) ?_ hz.lo_num.1⟩
      · simp only [expResult]
        split <;> rfl
      · dsimp only
        split
        · exact hz.lo_num.1
        · exact hx.lo_num.1

/-- The contractor without its z step. -/
theorem cexp_noZ {lo hi : ℕ} (h : expX (readBounds a) (readBounds c) = .iv lo hi) (hx : Bounds lo hi) :
    let t := contract .exp sh true nth a b c
    t.em = false ∧ t.x = pairBits (lo, hi) ∧ (sh.xz = true → t.z = pairBits (lo, hi)) ∧
      (t.np = true ↔ ∃ p ∈ [(a, t.x)] ++ [] ++ [], Spec.moves nth (p.1 % 2 ^ 32) (p.2 % 2 ^ 32) ∨ Spec.moves nth (p.1 / 2 ^ 32) (p.2 / 2 ^ 32)) := by
  obtain ⟨y', hy'⟩ := expSteps_noZ (sh := sh) h
  rw [contract_exp_eq ha hc, hy']
  refine ⟨rfl, rfl, fun hxz => ?_, expResult_moves (noZ := true) hx.lo_num.1 (zBounds_bounds hc hx).lo_num.1⟩
  simp [expResult, zBounds, hxz]

include hb in
theorem cexp_runs : Spec.runs Spec.anUlpWide
    (fun log v => if log then Spec.clearBounds Real.log (0 < ·) 1 v else Spec.clearBounds Real.exp (fun _ => True) 0 v)
    (fun x _ z => z = Real.exp x) false noZ sh nth a b c (contract .exp sh noZ nth a b c) := by
  have heq := contract_exp_eq (sh := sh) (noZ := noZ) (nth := nth) (b := b) ha hc
  obtain ⟨h1, h2, h3⟩ := expResult_unwritten (sh := sh) (noZ := noZ) (nth := nth) (a := a) (b := b) (c := c) (expSteps sh noZ a c)
  rw [← heq] at h1 h2 h3
  have emptied (n : ℕ) (h : expSteps sh noZ a c = .error n) : let t := contract .exp sh noZ nth a b c
      t.em = true ∧ t.which = n ∧ t.np = true ∧ t.x = 0xFF8000007F800000 ∧ (false = true → t.y = 0xFF8000007F800000) ∧
        ((!noZ || sh.xz || (false && sh.yz)) = true → t.z = 0xFF8000007F800000) := by
    rw [heq, h]
    refine ⟨rfl, rfl, rfl, rfl, fun h => absurd h Bool.false_ne_true, fun h => ?_⟩
    rw [Bool.false_and, Bool.or_false] at h
    rw [expResult, h]
    rfl
  unfold Spec.runs
  refine ⟨h1, fun _ => h2, by simpa using h3, fun hok => ?_⟩
  obtain ⟨cl, ch⟩ := clearBounds_read hc hok
  have hs := expX_near (x := readBounds a) (z := readBounds c) (Bounds.of_box ha).1 (Bounds.of_box hc).1 cl ch
  obtain ⟨v, hv⟩ := isBox_exists_mem hb
  refine ⟨(expX (readBounds a) (readBounds c)).box?, hs.step (inBox_readBounds ha) fun q => ?_, ?_, ?_⟩
  · constructor
    · rintro ⟨_, w, -, hw, rfl⟩
      exact (inBox_readBounds hc _).mpr hw
    · exact fun hq => ⟨v, _, hv, (inBox_readBounds hc _).mp hq, rfl⟩
  · rcases hs.cases with e | ⟨l, u, e, -⟩
    · exact fun _ => emptied 0 (expSteps_x_empty e)
    · rw [e]
      exact nofun
  · intro x hxb
    rcases hs.cases with e | ⟨lo, hi, e, hx⟩
    · rw [e] at hxb
      cases hxb
    obtain rfl : pairBits (lo, hi) = x := by simpa [e, Iv.box?] using hxb
    refine ⟨some (if sh.xy then pairBits (lo, hi) else b), rfl, nofun, fun y hy hok' => ?_⟩
    have hybox : Spec.isBox y := by
      obtain rfl := Option.some.inj hy
      split
      · exact hx.canonicalBox.1
      · exact hb
    cases noZ
    · obtain ⟨z1, z2, z3⟩ := cexp_z_step (nth := nth) (b := b) ha hc (sh := sh) e hx (hok'.resolve_left Bool.false_ne_true) hybox
      refine ⟨_, z1, fun hn => emptied 2 (z2 hn), fun z hz => ?_⟩
      obtain ⟨t1, t2, t3, t4⟩ := z3 z hz
      exact ⟨t1, t2, nofun, fun _ => t3, t4⟩
    · obtain ⟨t1, t2, t3, t4⟩ := cexp_noZ (nth := nth) (b := b) ha hc (sh := sh) e hx
      refine ⟨_, rfl, nofun, fun z hz => ⟨t1, t2, nofun, fun hw => ?_, t4⟩⟩
      have hxz : sh.xz = true := by simpa using hw
      obtain rfl := Option.some.inj hz
      simpa [hxz] using t3 hxz

end

/-- Settles O7: the scalar operations are `ivSqrt_near`, `ivExp_near` and `ivLog_near`, the contractor is `cexp_runs`, and the vector elements are
`approximations_near`. -/
theorem transcendentalResultsStayNear : Obligations.TranscendentalResultsStayNear :=
  ⟨fun _ ha => ⟨ivSqrt_near ha, ivExp_near ha, ivLog_near ha⟩, fun _ _ _ _ _ _ ha hb hc => cexp_runs ha hb hc, approximations_near⟩

end Sys2Proof.Machine
end
